-- ==== Sys2Proof/Word.lean ====
section
/-! DEFINITION. The machine's word types and their plainest arithmetic. Every control register of the TS960 is
32 bits wide (00 "Registers"), memory is addressed in bytes and formats in memory are little-endian (R8). -/
namespace Sys2Proof

/-- A 32-bit register, memory word or channel word. -/
abbrev Word := BitVec 32

/-- One byte of memory. -/
abbrev Byte := BitVec 8

/-- A byte string: a record, a frame, a buffer, a key. -/
abbrev Bytes := List Byte

end Sys2Proof
end

