-- ==== Sys2Proof/Syntax.lean ====
section
/-! DEFINITION. The commands of the device: one constructor for each row of spec/opcode_table.json, with the operands the
row's rule needs. A command that is an instruction carries the core that executes it and every field of its format (R153),
the reserved fields and the F bit included; a command that is a register write carries its requester. -/
namespace Sys2Proof

/-- Who makes an access: one of the six cores (0 to 3 Dolset-A, 4 the field core, 5 the Kiln core) or a host interface
(R418). -/
inductive Req where
  | core (c : Fin 6)
  | pcie
  | spi
  | uart
  deriving DecidableEq, Repr

/-- What the environment has done to stored bits when the scrubber reads its next granule (R273, R274, R311, R314): nothing, or
one flipped bit or several in a granule of SRAM, or in the line that a core's data or instruction cache holds of an address. -/
inductive Upset where
  | none
  | granule (addr : BitVec 32) (several : Bool)
  | line (c : Fin 6) (instr : Bool) (addr : BitVec 32) (several : Bool)
  deriving DecidableEq, Repr

/-- How a rescan is asked for: a keyed write of LEDGER_CTL or a CTRL word of the ledger port (R400, R406). -/
inductive RescanBy where
  | register (who : Req) (key : BitVec 16)
  | port
  deriving DecidableEq, Repr

/-- How a block's command word reaches it: a write of the block's command register, or a CTRL word at its port. -/
inductive Via where
  | reg (who : Req)
  | port
  deriving DecidableEq, Repr

/-- One reply of a rapid bit exchange as the RANGE hardware times it (R720, R721): A_i − T_i in units of 1/1024 tick, and
its polarity. -/
structure RbeReply where
  delay : BitVec 32
  bit : Bool
  deriving DecidableEq, Repr

/-- What an anchor of a phone round measures (R732, R733): its two intervals in units of 1/1024 tick as its receiver gives them,
and its STS check. -/
structure AnchorTimes where
  reply1 : BitVec 32
  round2 : BitVec 32
  stsOk : Bool
  deriving DecidableEq, Repr

/-- What the radio has received when a ranging run ends: for a rapid bit exchange or a calibration, A_ack − RMARKER, the
replies in order and Δ of each satellite position; for a phone round, whether a POLL came, whether the FINAL came with a
good STS, and the times of anchors 0 to 9. -/
inductive RangeMeas where
  | burst (ack : Option (BitVec 32)) (replies : List (Option RbeReply)) (sats : List (Option (BitVec 32)))
  | phone (poll : Option (BitVec 32)) (final : Option (List Byte)) (anchors : List (Option AnchorTimes))
  deriving DecidableEq, Repr

/-- How a CAN transmission ends: acknowledged without error, arbitration lost, an error on the bus, or an acknowledge error
with no dominant bit in the error flag, which ISO 11898-1 counts apart (R967, R968). -/
inductive CanEnd where
  | ok
  | lost
  | error
  | noAck
  deriving DecidableEq, Repr

/-- What the pins show when the last supply becomes valid: RESET_N, and HSEL [1:0] (R1175). -/
structure ResetPins where
  resetNHigh : Bool
  hsel : BitVec 2
  deriving DecidableEq, Repr

/-- Where a PCIe request goes (R1041): an offset in BAR0, BAR2 or BAR4, or the configuration space, of which the device acts
on Bus Master Enable and on the enable and function mask of MSI-X. -/
inductive PcieTo where
  | bar0 (off : BitVec 17)
  | bar2 (off : BitVec 23)
  | bar4 (off : BitVec 14)
  | config (busMaster msixEnable msixMask : Bool)
  deriving DecidableEq, Repr

/-- A serial request whose header has arrived (R1047); LEN is words − 1. -/
inductive Serial where
  | read (len : BitVec 8) (addr : BitVec 32)
  | write (addr : BitVec 32) (words : List (BitVec 32))
  | install (len : BitVec 8) (addr : BitVec 32)
  deriving DecidableEq, Repr

/-- How an install is asked for (R1064): a write of HOSTIF_RESCUE, or a serial request. -/
inductive RescueBy where
  | register (who : Req) (value : BitVec 32)
  | request (uart quad : Bool) (len : BitVec 8) (addr : BitVec 32) (hcrc : BitVec 16)
  deriving DecidableEq, Repr

/-- The commands. -/
inductive Instr where
  /-- SUPPLY_INVALID (R1071) -/
  | supplyInvalid (supply : Fin 4) (high : Bool) (outsideRatings : Bool)
  /-- SUPPLY_VALID (R1071) -/
  | supplyValid (supply : Fin 4) (pins : ResetPins)
  /-- ALWAYS_ON_POWER_UP (R1076) -/
  | alwaysOnPowerUp
  /-- ALWAYS_ON_LOSS (R1076) -/
  | alwaysOnLoss
  /-- PIN_RESET (R1081) -/
  | pinReset
  /-- SOFTWARE_RESET (R1080) -/
  | softwareReset (who : Req) (key : BitVec 16)
  /-- WATCHDOG (R1084) -/
  | watchdog
  /-- WATCHDOG_ENABLE (R1084) -/
  | watchdogEnable (who : Req) (value : Word)
  /-- KICK (R1085) -/
  | kick (who : Req) (key : BitVec 16)
  /-- SCAN_STALL (R63) -/
  | scanStall
  /-- TB_LOCK_LOSS (R133) -/
  | tbLockLoss
  /-- TB_LOCK (R133) -/
  | tbLock
  /-- TB_RELOCK (R133) -/
  | tbRelock
  /-- RESET_ENTER_SCAN (R1082) -/
  | resetEnterScan (resetNHigh : Bool) (hsel : BitVec 2)
  /-- LEDGER_SCAN_DONE (R382) -/
  | ledgerScanDone
  /-- IMAGE_CHOSEN (R335) -/
  | imageChosen
  /-- KILN_JUDGEMENT (R332) -/
  | kilnJudgement
  /-- MODE_REQ_PARKED (R89) -/
  | modeReqParked (who : Req) (key : BitVec 16)
  /-- MODE_REQ_ACCESS (R90) -/
  | modeReqAccess (who : Req) (key : BitVec 16)
  /-- MODE_REQ_LOCKDOWN (R89) -/
  | modeReqLockdown (who : Req) (key : BitVec 16)
  /-- SESSION_CLOSE (R1186) -/
  | sessionClose (who : Req) (mask : BitVec 8)
  /-- SESSION_OPEN (R95) -/
  | sessionOpen (who : Req) (mask : BitVec 8)
  /-- APPROACH_TIMEOUT (R67) -/
  | approachTimeout
  /-- GRANT_EXPIRY (R60) -/
  | grantExpiry (session : Fin 8)
  /-- SERVICE_END (R70) -/
  | serviceEnd
  /-- MODE_RECORD_WRITE (R403) -/
  | modeRecordWrite
  /-- COMMIT_WORD_VERIFIED (R374) -/
  | commitWordVerified (ok : Bool)
  /-- UNIT_WRITE_DONE (R377) -/
  | unitWriteDone (ok : Bool)
  /-- QUENCH_BALL_FALL (R1108) -/
  | quenchBallFall
  /-- QUENCH_BALL_RISE (R1111) -/
  | quenchBallRise
  /-- QUENCH_REQUEST (R1109) -/
  | quenchRequest (who : Req) (key : BitVec 16)
  /-- COHERENT_STOP (R1113) -/
  | coherentStop
  /-- QUENCH (R1118) -/
  | quench (update : Bool)
  /-- THAW (R1128) -/
  | thaw (update : Bool)
  /-- THAW_RESUME (R1129) -/
  | thawResume
  /-- BYPASS (R1118) -/
  | bypass (tdi : List Bool)
  /-- IDCODE (R1118) -/
  | idcode
  /-- SAMPLE_PRELOAD (R1118) -/
  | samplePreload (cells : List Bool)
  /-- EXTEST (R1120) -/
  | extest (cells : List Bool)
  /-- STATUS (R1118) -/
  | status
  /-- SEL (R1124) -/
  | sel (n : BitVec 8)
  /-- CHAIN (R1125) -/
  | chain
  /-- ADDR (R1118) -/
  | addr (v : BitVec 48)
  /-- SRAM (R1122) -/
  | sram
  /-- REG (R1123) -/
  | reg (a : BitVec 32)
  /-- TRST_N_LOW (R1179) -/
  | trstNLow
  /-- TAMPER (R1095) -/
  | tamper
  /-- BANK (R246) -/
  | bank (c : Fin 6) (rd : Fin 16) (ra : Fin 16) (imm12 : BitVec 12)
  /-- T05 (R1087) -/
  | t05
  /-- COMPLETION_OF_ENTRY (R1087) -/
  | completionOfEntry
  /-- WAKE_EVENT (R1089) -/
  | wakeEvent
  /-- RTC_WAKE (R1091) -/
  | rtcWake
  /-- HWAKE (R1061) -/
  | hwake
  /-- WAKE_COMPLETE (R1092) -/
  | wakeComplete
  /-- SRAM_INIT_DONE (R281) -/
  | sramInitDone
  /-- VCORE_TARGET_WRITE (R141) -/
  | vcoreTargetWrite (who : Req) (value : Word)
  /-- BUCK_STEP (R124) -/
  | buckStep
  /-- VCORE_SETTLED (R125) -/
  | vcoreSettled
  /-- TB_NOW_LO (R134) -/
  | tbNowLo (who : Req)
  /-- RTC_NOW_LO (R135) -/
  | rtcNowLo (who : Req)
  /-- TIMER_COMPARE (R238) -/
  | timerCompare (c : Fin 6)
  /-- INTERRUPT (R242) -/
  | interrupt (c : Fin 6)
  /-- ADD (R161) -/
  | add (c : Fin 6) (rd : Fin 16) (ra : Fin 16) (rb : Fin 16) (rsv : BitVec 7) (f : Bool)
  /-- SUB (R161) -/
  | sub (c : Fin 6) (rd : Fin 16) (ra : Fin 16) (rb : Fin 16) (rsv : BitVec 7) (f : Bool)
  /-- ADC (R161) -/
  | adc (c : Fin 6) (rd : Fin 16) (ra : Fin 16) (rb : Fin 16) (rsv : BitVec 7) (f : Bool)
  /-- SBC (R161) -/
  | sbc (c : Fin 6) (rd : Fin 16) (ra : Fin 16) (rb : Fin 16) (rsv : BitVec 7) (f : Bool)
  /-- AND (R161) -/
  | and (c : Fin 6) (rd : Fin 16) (ra : Fin 16) (rb : Fin 16) (rsv : BitVec 7) (f : Bool)
  /-- OR (R161) -/
  | or (c : Fin 6) (rd : Fin 16) (ra : Fin 16) (rb : Fin 16) (rsv : BitVec 7) (f : Bool)
  /-- XOR (R161) -/
  | xor (c : Fin 6) (rd : Fin 16) (ra : Fin 16) (rb : Fin 16) (rsv : BitVec 7) (f : Bool)
  /-- ANDN (R161) -/
  | andn (c : Fin 6) (rd : Fin 16) (ra : Fin 16) (rb : Fin 16) (rsv : BitVec 7) (f : Bool)
  /-- SHL (R161) -/
  | shl (c : Fin 6) (rd : Fin 16) (ra : Fin 16) (rb : Fin 16) (rsv : BitVec 7) (f : Bool)
  /-- SHR (R161) -/
  | shr (c : Fin 6) (rd : Fin 16) (ra : Fin 16) (rb : Fin 16) (rsv : BitVec 7) (f : Bool)
  /-- SAR (R161) -/
  | sar (c : Fin 6) (rd : Fin 16) (ra : Fin 16) (rb : Fin 16) (rsv : BitVec 7) (f : Bool)
  /-- ROR (R161) -/
  | ror (c : Fin 6) (rd : Fin 16) (ra : Fin 16) (rb : Fin 16) (rsv : BitVec 7) (f : Bool)
  /-- SLT (R161) -/
  | slt (c : Fin 6) (rd : Fin 16) (ra : Fin 16) (rb : Fin 16) (rsv : BitVec 7) (f : Bool)
  /-- SLTU (R161) -/
  | sltu (c : Fin 6) (rd : Fin 16) (ra : Fin 16) (rb : Fin 16) (rsv : BitVec 7) (f : Bool)
  /-- CLZ (R161) -/
  | clz (c : Fin 6) (rd : Fin 16) (ra : Fin 16) (rb : Fin 16) (rsv : BitVec 7) (f : Bool)
  /-- SEXB (R161) -/
  | sexb (c : Fin 6) (rd : Fin 16) (ra : Fin 16) (rb : Fin 16) (rsv : BitVec 7) (f : Bool)
  /-- SEXH (R161) -/
  | sexh (c : Fin 6) (rd : Fin 16) (ra : Fin 16) (rb : Fin 16) (rsv : BitVec 7) (f : Bool)
  /-- MUL (R162) -/
  | mul (c : Fin 6) (rd : Fin 16) (ra : Fin 16) (rb : Fin 16) (rsv : BitVec 7) (f : Bool)
  /-- MULH (R162) -/
  | mulh (c : Fin 6) (rd : Fin 16) (ra : Fin 16) (rb : Fin 16) (rsv : BitVec 7) (f : Bool)
  /-- MULHU (R162) -/
  | mulhu (c : Fin 6) (rd : Fin 16) (ra : Fin 16) (rb : Fin 16) (rsv : BitVec 7) (f : Bool)
  /-- DIV (R163) -/
  | div (c : Fin 6) (rd : Fin 16) (ra : Fin 16) (rb : Fin 16) (rsv : BitVec 7) (f : Bool)
  /-- DIVU (R163) -/
  | divu (c : Fin 6) (rd : Fin 16) (ra : Fin 16) (rb : Fin 16) (rsv : BitVec 7) (f : Bool)
  /-- REM (R163) -/
  | rem (c : Fin 6) (rd : Fin 16) (ra : Fin 16) (rb : Fin 16) (rsv : BitVec 7) (f : Bool)
  /-- REMU (R163) -/
  | remu (c : Fin 6) (rd : Fin 16) (ra : Fin 16) (rb : Fin 16) (rsv : BitVec 7) (f : Bool)
  /-- ADDI (R165) -/
  | addi (c : Fin 6) (rd : Fin 16) (ra : Fin 16) (imm12 : BitVec 12) (rsv : BitVec 5) (f : Bool)
  /-- ANDI (R165) -/
  | andi (c : Fin 6) (rd : Fin 16) (ra : Fin 16) (imm12 : BitVec 12) (rsv : BitVec 5) (f : Bool)
  /-- ORI (R165) -/
  | ori (c : Fin 6) (rd : Fin 16) (ra : Fin 16) (imm12 : BitVec 12) (rsv : BitVec 5) (f : Bool)
  /-- XORI (R165) -/
  | xori (c : Fin 6) (rd : Fin 16) (ra : Fin 16) (imm12 : BitVec 12) (rsv : BitVec 5) (f : Bool)
  /-- SHLI (R165) -/
  | shli (c : Fin 6) (rd : Fin 16) (ra : Fin 16) (imm12 : BitVec 12) (rsv : BitVec 5) (f : Bool)
  /-- SHRI (R165) -/
  | shri (c : Fin 6) (rd : Fin 16) (ra : Fin 16) (imm12 : BitVec 12) (rsv : BitVec 5) (f : Bool)
  /-- SARI (R165) -/
  | sari (c : Fin 6) (rd : Fin 16) (ra : Fin 16) (imm12 : BitVec 12) (rsv : BitVec 5) (f : Bool)
  /-- RORI (R165) -/
  | rori (c : Fin 6) (rd : Fin 16) (ra : Fin 16) (imm12 : BitVec 12) (rsv : BitVec 5) (f : Bool)
  /-- SLTI (R165) -/
  | slti (c : Fin 6) (rd : Fin 16) (ra : Fin 16) (imm12 : BitVec 12) (rsv : BitVec 5) (f : Bool)
  /-- SLTUI (R165) -/
  | sltui (c : Fin 6) (rd : Fin 16) (ra : Fin 16) (imm12 : BitVec 12) (rsv : BitVec 5) (f : Bool)
  /-- MOVU (R165) -/
  | movu (c : Fin 6) (rd : Fin 16) (imm16 : BitVec 16) (rsv : BitVec 5) (f : Bool)
  /-- ORL (R165) -/
  | orl (c : Fin 6) (rd : Fin 16) (imm16 : BitVec 16) (rsv : BitVec 5) (f : Bool)
  /-- SUBI (R165) -/
  | subi (c : Fin 6) (rd : Fin 16) (ra : Fin 16) (imm12 : BitVec 12) (rsv : BitVec 5) (f : Bool)
  /-- ADPC (R165) -/
  | adpc (c : Fin 6) (rd : Fin 16) (imm16 : BitVec 16) (rsv : BitVec 5) (f : Bool)
  /-- LDW (R166) -/
  | ldw (c : Fin 6) (rd : Fin 16) (ra : Fin 16) (imm12 : BitVec 12) (rsv : BitVec 6)
  /-- LDH (R166) -/
  | ldh (c : Fin 6) (rd : Fin 16) (ra : Fin 16) (imm12 : BitVec 12) (rsv : BitVec 6)
  /-- LDHU (R166) -/
  | ldhu (c : Fin 6) (rd : Fin 16) (ra : Fin 16) (imm12 : BitVec 12) (rsv : BitVec 6)
  /-- LDB (R166) -/
  | ldb (c : Fin 6) (rd : Fin 16) (ra : Fin 16) (imm12 : BitVec 12) (rsv : BitVec 6)
  /-- LDBU (R166) -/
  | ldbu (c : Fin 6) (rd : Fin 16) (ra : Fin 16) (imm12 : BitVec 12) (rsv : BitVec 6)
  /-- STW (R166) -/
  | stw (c : Fin 6) (rd : Fin 16) (ra : Fin 16) (imm12 : BitVec 12) (rsv : BitVec 6)
  /-- STH (R166) -/
  | sth (c : Fin 6) (rd : Fin 16) (ra : Fin 16) (imm12 : BitVec 12) (rsv : BitVec 6)
  /-- STB (R166) -/
  | stb (c : Fin 6) (rd : Fin 16) (ra : Fin 16) (imm12 : BitVec 12) (rsv : BitVec 6)
  /-- SWP (R173) -/
  | swp (c : Fin 6) (rd : Fin 16) (ra : Fin 16) (rb : Fin 16) (rsv : BitVec 7) (f : Bool)
  /-- CAS (R173) -/
  | cas (c : Fin 6) (rd : Fin 16) (ra : Fin 16) (rb : Fin 16) (rsv : BitVec 7) (f : Bool)
  /-- FADD (R173) -/
  | fadd (c : Fin 6) (rd : Fin 16) (ra : Fin 16) (rb : Fin 16) (rsv : BitVec 7) (f : Bool)
  /-- BC (R177) -/
  | bc (c : Fin 6) (cond : BitVec 4) (rsv : BitVec 6) (off16 : BitVec 16)
  /-- BZ (R176) -/
  | bz (c : Fin 6) (ra : Fin 16) (rsv : BitVec 6) (off16 : BitVec 16)
  /-- BNZ (R176) -/
  | bnz (c : Fin 6) (ra : Fin 16) (rsv : BitVec 6) (off16 : BitVec 16)
  /-- JMP (R176) -/
  | jmp (c : Fin 6) (off24 : BitVec 24) (rsv : BitVec 2)
  /-- CALL (R176) -/
  | call (c : Fin 6) (off24 : BitVec 24) (rsv : BitVec 2)
  /-- JRL (R176) -/
  | jrl (c : Fin 6) (rd : Fin 16) (ra : Fin 16) (rb : Fin 16) (fn : BitVec 6) (rsv : BitVec 7) (f : Bool)
  /-- FENCE (R188) -/
  | fence (c : Fin 6) (rd : Fin 16) (ra : Fin 16) (imm12 : BitVec 12)
  /-- RDF (R179) -/
  | rdf (c : Fin 6) (rd : Fin 16) (ra : Fin 16) (imm12 : BitVec 12)
  /-- WRF (R179) -/
  | wrf (c : Fin 6) (rd : Fin 16) (ra : Fin 16) (imm12 : BitVec 12)
  /-- CRD (R235) -/
  | crd (c : Fin 6) (rd : Fin 16) (ra : Fin 16) (imm12 : BitVec 12)
  /-- CWR (R235) -/
  | cwr (c : Fin 6) (rd : Fin 16) (ra : Fin 16) (imm12 : BitVec 12)
  /-- ERET (R235) -/
  | eret (c : Fin 6) (rd : Fin 16) (ra : Fin 16) (imm12 : BitVec 12)
  /-- TRAP (R235) -/
  | trap (c : Fin 6) (rd : Fin 16) (ra : Fin 16) (imm12 : BitVec 12)
  /-- SND (R208) -/
  | snd (c : Fin 6) (rd : Fin 16) (ra : Fin 16) (aux : BitVec 10) (ch : BitVec 8)
  /-- SND_UNBLOCK (R208) -/
  | sndUnblock (c : Fin 6)
  /-- RCV (R209) -/
  | rcv (c : Fin 6) (rd : Fin 16) (ra : Fin 16) (aux : BitVec 10) (ch : BitVec 8)
  /-- RCV_UNBLOCK (R209) -/
  | rcvUnblock (c : Fin 6)
  /-- SNDT (R210) -/
  | sndt (c : Fin 6) (rd : Fin 16) (ra : Fin 16) (aux : BitVec 10) (ch : BitVec 8)
  /-- RCVT (R210) -/
  | rcvt (c : Fin 6) (rd : Fin 16) (ra : Fin 16) (aux : BitVec 10) (ch : BitVec 8)
  /-- PEEK (R211) -/
  | peek (c : Fin 6) (rd : Fin 16) (ra : Fin 16) (aux : BitVec 10) (ch : BitVec 8)
  /-- WAITE (R216) -/
  | waite (c : Fin 6) (rd : Fin 16) (ra : Fin 16) (aux : BitVec 10) (ch : BitVec 8)
  /-- WAITE_UNBLOCK (R216) -/
  | waiteUnblock (c : Fin 6)
  /-- SIG (R218) -/
  | sig (c : Fin 6) (rd : Fin 16) (ra : Fin 16) (aux : BitVec 10) (ch : BitVec 8)
  /-- TAT (R222) -/
  | tat (c : Fin 6) (rd : Fin 16) (ra : Fin 16) (aux : BitVec 10) (ch : BitVec 8)
  /-- TAT_UNBLOCK (R222) -/
  | tatUnblock (c : Fin 6)
  /-- TAT_APPLY (R223) -/
  | tatApply (ch : BitVec 8)
  /-- TIN (R225) -/
  | tin (c : Fin 6) (rd : Fin 16) (ra : Fin 16) (aux : BitVec 10) (ch : BitVec 8)
  /-- TMARK (R228) -/
  | tmark (c : Fin 6) (rd : Fin 16) (ra : Fin 16) (aux : BitVec 10) (ch : BitVec 8)
  /-- TMARK_RELEASE (R228) -/
  | tmarkRelease (c : Fin 6)
  /-- KLD (R230) -/
  | kld (c : Fin 6) (rd : Fin 16) (ra : Fin 16) (aux : BitVec 10) (ch : BitVec 8)
  /-- KST (R230) -/
  | kst (c : Fin 6) (rd : Fin 16) (ra : Fin 16) (aux : BitVec 10) (ch : BitVec 8)
  /-- KZAP (R231) -/
  | kzap (c : Fin 6) (rd : Fin 16) (ra : Fin 16) (aux : BitVec 10) (ch : BitVec 8)
  /-- FLUSH_D (R268) -/
  | flushD (c : Fin 6)
  /-- INV_I (R268) -/
  | invI (c : Fin 6)
  /-- SCRUB (R277) -/
  | scrub (upset : Upset)
  /-- XLATE_INV_PAGE (R308) -/
  | xlateInvPage (who : Req) (ctx : Fin 64) (page : BitVec 20)
  /-- XLATE_INV_CONTEXT (R308) -/
  | xlateInvContext (who : Req) (ctx : Fin 64)
  /-- XLATE_INV_ALL (R308) -/
  | xlateInvAll (who : Req)
  /-- XLATE_INV_DONE (R308) -/
  | xlateInvDone
  /-- PROGRAM (R338) -/
  | program (who : Req) (key : BitVec 16)
  /-- ERASE (R340) -/
  | erase (who : Req) (key : BitVec 16)
  /-- SUSPEND (R337) -/
  | suspend (who : Req) (key : BitVec 16)
  /-- FLASH_RESUME (R337) -/
  | flashResume (who : Req) (key : BitVec 16)
  /-- FLASH_DONE (R343) -/
  | flashDone (failed : Option (Fin 256))
  /-- RESCAN (R406) -/
  | rescan (src : RescanBy)
  /-- READ_COPY (R400) -/
  | readCopy
  /-- WRITE_COPY (R368) -/
  | writeCopy
  /-- UNIT_WRITE (R377) -/
  | unitWrite
  /-- LEDGER_READ (R397) -/
  | ledgerRead
  /-- LEDGER_WRITE (R397) -/
  | ledgerWrite
  /-- WRITE_IF (R411) -/
  | writeIf
  /-- LEDGER_ERASE (R397) -/
  | ledgerErase
  /-- QUICK_WRITE (R397) -/
  | quickWrite
  /-- RAISE (R380) -/
  | raise
  /-- Q_CREATE (R428) -/
  | qCreate (who : Req) (operand : BitVec 16)
  /-- Q_DESTROY (R483) -/
  | qDestroy (who : Req) (operand : BitVec 16)
  /-- Q_STOP (R481) -/
  | qStop (who : Req) (operand : BitVec 16)
  /-- Q_START (R482) -/
  | qStart (who : Req) (operand : BitVec 16)
  /-- Q_BIND (R463) -/
  | qBind (who : Req) (operand : BitVec 16)
  /-- Q_QUERY (R427) -/
  | qQuery (who : Req) (operand : BitVec 16)
  /-- B_REG (R1189) -/
  | bReg (who : Req) (operand : BitVec 16)
  /-- B_UNREG (R449) -/
  | bUnreg (who : Req) (operand : BitVec 16)
  /-- E_ALLOC (R450) -/
  | eAlloc (who : Req) (operand : BitVec 16)
  /-- E_FREE (R457) -/
  | eFree (who : Req) (operand : BitVec 16)
  /-- E_QUERY (R424) -/
  | eQuery (who : Req) (operand : BitVec 16)
  /-- RESUME (R479) -/
  | resume (who : Req) (operand : BitVec 16)
  /-- DOORBELL (R433) -/
  | doorbell (who : Req) (value : Word)
  /-- DESCRIPTOR_FETCH (R472) -/
  | descriptorFetch (cage : Fin 8)
  /-- ENGINE_GRANT (R469) -/
  | engineGrant (engine : Nat)
  /-- DISPATCH (R474) -/
  | dispatch (cage : Fin 8)
  /-- END_AT_FRONT_END (R473) -/
  | endAtFrontEnd (cage : Fin 8)
  /-- SLICE_END (R466) -/
  | sliceEnd (cage : Fin 8)
  /-- DONE_WORD (R476) -/
  | doneWord (engine : Nat)
  /-- WAIT_TMO (R456) -/
  | waitTmo (queue : Fin 512)
  /-- TIMEOUT (R509) -/
  | timeout (cage : Fin 8)
  /-- HANG (R516) -/
  | hang (engine : Nat)
  /-- ADC_START (R561) -/
  | adcStart (via : Via)
  /-- ADC_STOP (R565) -/
  | adcStop (via : Via)
  /-- ADC_INJECT (R566) -/
  | adcInject (via : Via)
  /-- ADC_TRIG (R562) -/
  | adcTrig (rising : Bool)
  /-- ADC_RESULT (R571) -/
  | adcResult (codes : List (BitVec 12))
  /-- CONVERGED (R553) -/
  | converged
  /-- ADC_CAL_RESTART (R553) -/
  | adcCalRestart (who : Req)
  /-- FIELD_START (R612) -/
  | fieldStart
  /-- FIELD_STOP (R616) -/
  | fieldStop
  /-- CARRIER (R616) -/
  | carrier
  /-- UNDERRUN (R614) -/
  | underrun
  /-- MAXON (R615) -/
  | maxon
  /-- TELEGRAM_END (R618) -/
  | telegramEnd
  /-- MEASUREMENT_WINDOW (R622) -/
  | measurementWindow (amp : BitVec 11) (phase : BitVec 8)
  /-- SHORT (R625) -/
  | short (ch : Fin 6)
  /-- VBAT_LOW (R609) -/
  | vbatLow (low : Bool)
  /-- CAP_SCAN (R632) -/
  | capScan (low high : List (BitVec 16))
  /-- UHF_FRAME (R692) -/
  | uhfFrame (ch : Fin 4) (sync : BitVec 24) (frame : List Byte) (power : BitVec 8) (fine : BitVec 10)
  /-- LOAD_RBE (R713) -/
  | loadRbe
  /-- LOAD_STS (R713) -/
  | loadSts
  /-- LOAD_EXPIRED (R715) -/
  | loadExpired
  /-- RBE (R717) -/
  | rbe
  /-- ROUND (R729) -/
  | round
  /-- LF_ZONE (R737) -/
  | lfZone
  /-- RANGE_STOP (R745) -/
  | rangeStop
  /-- CAL (R727) -/
  | cal
  /-- RANGE_RESULT (R739) -/
  | rangeResult (meas : RangeMeas)
  /-- HCI_TXD (R760) -/
  | hciTxd (who : Req) (value : Word)
  /-- HCI_PACKET (R761) -/
  | hciPacket
  /-- MUPOR_SET_BANK_ADVERTISING (R767) -/
  | muporSetBankAdvertising
  /-- RXPOP (R763) -/
  | rxpop (who : Req) (value : Word)
  /-- RESYNC (R761) -/
  | resync (who : Req) (value : Word)
  /-- BLE_RX_PACKET (R764) -/
  | bleRxPacket (acl : Bool) (packet : List Byte)
  /-- BLE_WAKE (R772) -/
  | bleWake (conn : BitVec 12) (adv : BitVec 8)
  /-- FIELD_ON (R781) -/
  | fieldOn
  /-- FIELD_OFF (R796) -/
  | fieldOff
  /-- TX (R780) -/
  | tx
  /-- NFC_STOP (R795) -/
  | nfcStop
  /-- NFC_RESPONSE (R784) -/
  | nfcResponse (began : Nat) (ended : Nat) (status : Fin 6) (lastBits : Fin 8) (coll : BitVec 12) (response : List Byte)
  /-- NO_RESPONSE (R782) -/
  | noResponse
  /-- KATTR_WRITE (R812) -/
  | kattrWrite (slot : Fin 64) (value : Word)
  /-- ENCRYPT (R828) -/
  | encrypt
  /-- DECRYPT (R832) -/
  | decrypt
  /-- UPDATE (R835) -/
  | update
  /-- SAVE (R837) -/
  | save
  /-- RESTORE (R838) -/
  | restore
  /-- FREE (R836) -/
  | free
  /-- GENKEY (R834) -/
  | genkey
  /-- UNWRAP_KEY (R833) -/
  | unwrapKey
  /-- WRAP_KEY (R833) -/
  | wrapKey
  /-- DERIVE (R1180) -/
  | derive
  /-- ZAP (R828) -/
  | zap
  /-- FUSE_READ (R820) -/
  | fuseRead
  /-- FUSE_WRITE (R821) -/
  | fuseWrite (ok : Bool)
  /-- FUSE_CLOSE (R822) -/
  | fuseClose (ok : Bool)
  /-- SIGN (R842) -/
  | sign
  /-- VERIFY (R843) -/
  | verify
  /-- ECDH (R843) -/
  | ecdh
  /-- GENKEY_EC (R842) -/
  | genkeyEc
  /-- PUBKEY (R842) -/
  | pubkey
  /-- ATTEST (R845) -/
  | attest
  /-- SHA256 (R844) -/
  | sha256
  /-- HMAC (R844) -/
  | hmac
  /-- HMAC_VERIFY (R844) -/
  | hmacVerify
  /-- RANDOM (R877) -/
  | random
  /-- ENT_KAT (R877) -/
  | entKat
  /-- ENT_PATTERN (R876) -/
  | entPattern
  /-- CRED_NONCE (R891) -/
  | credNonce
  /-- CRED_VERIFY (R892) -/
  | credVerify
  /-- TICKET_OPEN (R908) -/
  | ticketOpen
  /-- VMAC (R891) -/
  | vmac
  /-- TOKEN_NONCE (R891) -/
  | tokenNonce
  /-- TOKEN (R917) -/
  | token
  /-- REVOKE (R912) -/
  | revoke
  /-- ENROL_BEGIN (R899) -/
  | enrolBegin
  /-- ENROL_ORIGIN (R689) -/
  | enrolOrigin
  /-- ENROL_KEY (R690) -/
  | enrolKey
  /-- ENROL_COMMIT (R900) -/
  | enrolCommit
  /-- CRED_ERASE (R891) -/
  | credErase
  /-- MATE_VEHICLE (R921) -/
  | mateVehicle
  /-- TRUST_SET (R914) -/
  | trustSet
  /-- SAT_AUTH_REQ (R1015) -/
  | satAuthReq
  /-- SAT_AUTH_CHECK (R1004) -/
  | satAuthCheck
  /-- SAT_MATE_OFFER (R1015) -/
  | satMateOffer
  /-- SAT_MATE_KEY (R1015) -/
  | satMateKey
  /-- SAT_MATE_CONFIRM (R1015) -/
  | satMateConfirm
  /-- SAT_ROLL (R1015) -/
  | satRoll
  /-- SAT_ROLL_CONFIRM (R926) -/
  | satRollConfirm
  /-- CRANK (R932) -/
  | crank
  /-- MATE_ENGINE (R923) -/
  | mateEngine
  /-- ROLL_ENGINE (R940) -/
  | rollEngine
  /-- CHALLENGE (R931) -/
  | challenge (frame : List Byte)
  /-- CRANK_DEADLINE (R933) -/
  | crankDeadline
  /-- MATE_REPLY (R922) -/
  | mateReply (frame : List Byte)
  /-- MATE_CONFIRM (R923) -/
  | mateConfirm (frame : List Byte)
  /-- MATE_FRAME_TIMEOUT (R923) -/
  | mateFrameTimeout
  /-- ROLL_ACK (R940) -/
  | rollAck (frame : List Byte)
  /-- ROLL_REPEAT (R940) -/
  | rollRepeat
  /-- ROLL_TIMEOUT (R940) -/
  | rollTimeout
  /-- PRESENCE_SUPERVISION (R939) -/
  | presenceSupervision
  /-- HOLD_OFF_END (R897) -/
  | holdOffEnd (cls : Fin 8)
  /-- VEHICLE_TIME_WRITE (R903) -/
  | vehicleTimeWrite
  /-- RAW_SAMPLE_BLOCK (R862) -/
  | rawSampleBlock (samples : List (BitVec 8))
  /-- DRBG_INSTANTIATE (R864) -/
  | drbgInstantiate
  /-- GENERATE (R867) -/
  | generate
  /-- RESEED (R866) -/
  | reseed (who : Option Req)
  /-- RESTART (R876) -/
  | restart (who : Req)
  /-- CLR_CNT (R878) -/
  | clrCnt (who : Req)
  /-- KAT (R871) -/
  | kat (who : Req)
  /-- KAT_COMPLETE (R872) -/
  | katComplete (pass : Bool)
  /-- ENT_DATA (R869) -/
  | entData (who : Req)
  /-- CAN_SEND (R977) -/
  | canSend
  /-- LIN_MASTER (R972) -/
  | linMaster
  /-- ETH_SEND (R978) -/
  | ethSend
  /-- RX_TAKE (R979) -/
  | rxTake
  /-- CAN_FRAME_END (R967) -/
  | canFrameEnd (n : Fin 4) (outcome : CanEnd)
  /-- CAN_RECEIVE (R969) -/
  | canReceive (n : Fin 4) (id : Word) (flags : BitVec 6) (af : Word) (data : List Byte) (ago : Nat) (ok : Bool)
  /-- BUS_OFF_RECOVERY (R968) -/
  | busOffRecovery (n : Fin 4)
  /-- RECOVER (R968) -/
  | recover (who : Req) (n : Fin 4)
  /-- LIN_BREAK_START (R972) -/
  | linBreakStart (n : Fin 2)
  /-- LIN_FRAME_END (R978) -/
  | linFrameEnd (n : Fin 2) (response : List Byte) (bitError : Bool)
  /-- DOMINANT (R973) -/
  | dominant (n : Fin 2)
  /-- WAKE_RX (R973) -/
  | wakeRx (n : Fin 2)
  /-- ETH_RECEIVE (R959) -/
  | ethReceive (port : Fin 4) (frame : List Byte) (fcs : BitVec 32) (ago : Nat) (fine : BitVec 10)
  /-- ETH_EGRESS_DONE (R978) -/
  | ethEgressDone (port : Fin 5) (fine : BitVec 10)
  /-- AGEING (R960) -/
  | ageing
  /-- LINK_CHANGE (R956) -/
  | linkChange (port : Fin 4) (linked : Bool)
  /-- HEARTBEAT (R1007) -/
  | heartbeat (p : Fin 8)
  /-- ADIT_REPLY (R996) -/
  | aditReply (frame : List Byte) (crc : BitVec 16)
  /-- ATTEMPT_FAILED (R996) -/
  | attemptFailed
  /-- PROBE (R1008) -/
  | probe (p : Fin 8)
  /-- REBIND_EXPIRY (R1008) -/
  | rebindExpiry (p : Fin 8)
  /-- REBIND (R1006) -/
  | rebind (who : Req) (p : Fin 8)
  /-- BIND (R1012) -/
  | bind (who : Req) (p : Fin 8)
  /-- UNTRUST (R1011) -/
  | untrust (who : Req) (p : Fin 8)
  /-- RELEASE (R1006) -/
  | release (who : Req) (p : Fin 8)
  /-- ADIT_SEND (R1017) -/
  | aditSend
  /-- ENUM (R1017) -/
  | enum
  /-- AUTH (R1014) -/
  | auth
  /-- ADIT_MATE (R1017) -/
  | aditMate
  /-- ADIT_ROLL (R1017) -/
  | aditRoll
  /-- ADIT_WAKE (R1022) -/
  | aditWake
  /-- SERIAL_READ (R1049) -/
  | serialRead (uart : Bool) (quad : Bool) (len : BitVec 8) (addr : BitVec 32) (hcrc : BitVec 16)
  /-- SERIAL_WRITE (R1049) -/
  | serialWrite (uart : Bool) (quad : Bool) (addr : BitVec 32) (words : List Word) (hcrc : BitVec 16) (dcrc : BitVec 16)
  /-- RESCUE_INSTALL (R1064) -/
  | rescueInstall (src : RescueBy)
  /-- PCIE_ACCESS (R1042) -/
  | pcieAccess (tgt : PcieTo) (len : Nat) (write : Option (List Byte))
  /-- PERST_N (R1044) -/
  | perstN
  /-- PCIE_LINK_CHANGE (R1043) -/
  | pcieLinkChange (linked : Bool) (speed : BitVec 2)
  /-- PENDING (R1052) -/
  | pending (quad : Bool) (req : Option Serial)
  /-- SPI_CUT (R1053) -/
  | spiCut (quad : Bool) (req : Option Serial)
  /-- UART_ERR (R1056) -/
  | uartErr
  /-- REGISTER_WRITE (R14) -/
  | registerWrite (who : Req) (addr : BitVec 32) (value : Word)
  /-- RAW_SAMPLE (R855) -/
  | rawSample (sample : BitVec 8)
  /-- SUSPEND_TAKES_EFFECT (R1184) -/
  | suspendTakesEffect
  /-- RTC_OSCILLATOR_RUNS (R1142) -/
  | rtcOscillatorRuns
  /-- FIELD_ON_TAKES_EFFECT (R781) -/
  | fieldOnTakesEffect
  /-- DEFERRED_TX_START (R781) -/
  | deferredTxStart
  deriving DecidableEq, Repr

end Sys2Proof
end

