-- ==== Sys2Proof/Decode.lean ====
section
/-! DEFINITION. The command that a word spells by the bits of the command table. No row of spec/opcode_table.json gives bits, so
no word spells a command; an instruction of a core comes with its fields (log entry 8), and its word is that of
Machine/Operands.lean. -/
namespace Sys2Proof

/-- The command of a table word: none, because the table gives no row any bits. -/
def decodeTableWord (_nbits _w : Nat) : Option Instr := none

end Sys2Proof
end

