-- ==== Sys2Proof/Config.lean ====
section
/-! DEFINITION. The free values: what the spec leaves open on a path on which the device goes on. None of them has a
body, so no proof can rest on a number; each is applied to the state's counter of free values (State.free) or to an
address, and the assumption log names it. -/
namespace Sys2Proof.Config

/-- A word the spec gives no value for, one for each count (log entry 4). -/
opaque freeWord : Nat → Word

/-- A byte the spec gives no value for, one for each count (log entry 4). -/
opaque freeByte : Nat → Byte

/-- A byte of the boot ROM other than those of the word 0xFFFC, whose value R270 states (log entry 5). -/
opaque bootRomByte : Nat → Byte

/-- A byte that the host behind PCIe returns to an outbound read: count of reads, then address (log entry 6). -/
opaque hostByte : Nat → Nat → Byte

/-- The per-unit device identity of R818 and R819 (log entry 7). -/
opaque deviceId : BitVec 64

/-- The per-unit device seed of R818 (log entry 7). -/
opaque deviceSeed : Bytes

/-- Mupor's signature over the unit's identity, R816 (log entry 7). -/
opaque deviceCert : Bytes

/-- The public BLE device address that Mupor programmed, R818 (log entry 7). -/
opaque bdAddress : Bytes

/-- The image key hash that Mupor programmed into copy 0 of a TS960-Q2, R818 (log entry 7). -/
opaque imageKeyHash : Bytes

end Sys2Proof.Config
end

