-- ==== Sys2Proof/Machine/Bits.lean ====
section
/-! DEFINITION. Bit fields, byte order and sparse tables: the small functions every block is written with. Field
positions are given as [high:low], inclusive, as R6 writes them. -/
namespace Sys2Proof.Machine

/-- The value of the field [hi:lo] of a word (R6). -/
def bits {n : Nat} (w : BitVec n) (hi lo : Nat) : Nat := (w.toNat >>> lo) % 2 ^ (hi + 1 - lo)

/-- Bit [i] of a word as a truth value. -/
def bit {n : Nat} (w : BitVec n) (i : Nat) : Bool := w.getLsbD i

/-- A word with the field [hi:lo] replaced by the low bits of v. -/
def setBits (w : Word) (hi lo v : Nat) : Word :=
  (w &&& ~~~(BitVec.ofNat 32 ((2 ^ (hi + 1 - lo) - 1) <<< lo))) ||| BitVec.ofNat 32 ((v % 2 ^ (hi + 1 - lo)) <<< lo)

/-- A word with bit [i] replaced. -/
def setBit (w : Word) (i : Nat) (b : Bool) : Word := setBits w i i (if b then 1 else 0)

/-- A number as a word, modulo 2^32. -/
def wd (n : Nat) : Word := BitVec.ofNat 32 n

/-- A truth value as one bit. -/
def b2n (b : Bool) : Nat := if b then 1 else 0

/-- A number placed at bit lo, for building words field by field. -/
def fld (lo v : Nat) : Nat := v <<< lo

/-! ### Checksums -/

/-- One byte of a CRC of width n that takes the least significant bit first. -/
def crcByte {n : Nat} (poly : BitVec n) (crc : BitVec n) (b : Byte) : BitVec n :=
  (List.range 8).foldl (fun c _ => if c.getLsbD 0 then (c >>> 1) ^^^ poly else c >>> 1) (crc ^^^ b.zeroExtend n)

/-- CRC-32 of IEEE 802.3 (R363). -/
def crc32 (bs : Bytes) : BitVec 32 := ~~~ (bs.foldl (crcByte (0xEDB88320 : BitVec 32)) 0xFFFFFFFF)

/-- The CRC-16 of R666 after one more byte: polynomial 0x1021, most significant bit first. -/
def crc16Byte (crc : BitVec 16) (b : Byte) : BitVec 16 :=
  (List.range 8).foldl (fun c _ => if c.msb then (c <<< 1) ^^^ 0x1021 else c <<< 1) (crc ^^^ (b.setWidth 16 <<< 8))

/-- The CRC-16 of R666, from 0xFFFF: UHF payloads, Adit frames and serial requests. -/
def crc16 (bs : Bytes) : BitVec 16 := bs.foldl crc16Byte 0xFFFF

/-! ### Byte order -/

/-- The n-byte little-endian image of a number (R8). -/
def leBytes : Nat → Nat → Bytes
  | 0, _ => []
  | n + 1, v => BitVec.ofNat 8 v :: leBytes n (v / 256)

/-- The number a little-endian byte string spells (R8). -/
def leNat : Bytes → Nat
  | [] => 0
  | b :: bs => b.toNat + 256 * leNat bs

/-- The n-byte big-endian image of a number. -/
def beBytes (n v : Nat) : Bytes := (leBytes n v).reverse

/-- The number a big-endian byte string spells. -/
def beNat (bs : Bytes) : Nat := leNat bs.reverse

/-- The word whose little-endian image is four bytes. -/
def wordOfLe (bs : Bytes) : Word := wd (leNat bs)

/-- The little-endian bytes of a word. -/
def leOfWord (w : Word) : Bytes := leBytes 4 w.toNat

/-- The bytes [off, off + len) of a byte string, read as zero past its end. -/
def slice (bs : Bytes) (off len : Nat) : Bytes :=
  let t := (bs.drop off).take len
  t ++ List.replicate (len - t.length) 0

/-- The little-endian number in bytes [off, off + len). -/
def leAt (bs : Bytes) (off len : Nat) : Nat := leNat (slice bs off len)

/-- A list cut into pieces of n, for at most `fuel` pieces. -/
def chunks {α : Type} (n : Nat) : Nat → List α → List (List α)
  | 0, _ => []
  | fuel + 1, xs => if xs.isEmpty then [] else xs.take n :: chunks n fuel (xs.drop n)

/-- The words of a byte string, low address first, padded with zeros. -/
def wordsOf (bs : Bytes) : List Word := (chunks 4 (bs.length / 4 + 1) bs).map wordOfLe

/-- The bytes of a list of words, low address first. -/
def bytesOf (ws : List Word) : Bytes := ws.flatMap leOfWord

/-- The number 1 bits of a word. -/
def popCount {n : Nat} (w : BitVec n) : Nat := ((List.range n).filter (fun i => w.getLsbD i)).length

/-- A number kept within [lo, hi]. -/
def clamp (lo hi v : Nat) : Nat := max lo (min hi v)

/-- A counter that stops at its largest value. -/
def satInc (top v : Nat) : Nat := if v < top then v + 1 else top

/-- A signed reading of an n-bit field. -/
def sgn (n v : Nat) : Int := if v % 2 ^ n < 2 ^ (n - 1) then (v % 2 ^ n : Nat) else (v % 2 ^ n : Nat) - (2 ^ n : Nat)

/-! ### Sparse tables: sorted lists of key and value -/

/-- A sparse table: keys rise strictly, and a key that is absent has the table's default value. -/
abbrev Assoc (α : Type) := List (Nat × α)

/-- The value at a key, where one is listed. -/
def aget? {α : Type} : Assoc α → Nat → Option α
  | [], _ => none
  | (k', v) :: m, k => if k = k' then some v else aget? m k

/-- The value at a key, or the default. -/
def agetD {α : Type} (m : Assoc α) (k : Nat) (d : α) : α := (aget? m k).getD d

/-- The table without a key. -/
def adel {α : Type} (m : Assoc α) (k : Nat) : Assoc α := m.filter (fun e => !(e.1 == k))

/-- The table with a key listed at a value, in its sorted place. -/
def ains {α : Type} : Assoc α → Nat → α → Assoc α
  | [], k, v => [(k, v)]
  | (k', v') :: m, k, v =>
    if k < k' then (k, v) :: (k', v') :: m
    else if k = k' then (k, v) :: m
    else (k', v') :: ains m k v

/-- The table with a key at a value: unlisted when the value is the default d, so that equal tables are equal data. -/
def asetD {α : Type} [DecidableEq α] (d : α) (m : Assoc α) (k : Nat) (v : α) : Assoc α :=
  if v = d then adel m k else ains m k v

/-- Keys rise strictly. -/
def asorted {α : Type} : Assoc α → Bool
  | [] => true
  | [_] => true
  | (a, _) :: (b, w) :: m => decide (a < b) && asorted ((b, w) :: m)

/-- The canonical form: keys rise strictly and no listed value is the default. -/
def awf {α : Type} [DecidableEq α] (d : α) (m : Assoc α) : Bool := asorted m && m.all (fun e => !(decide (e.2 = d)))

end Sys2Proof.Machine
end

