-- ==== Sys2Proof/Machine/Regs.lean ====
section
/-! DEFINITION. The control registers of the device (R13, R14, R265): each with its address, its reset value, the bits
that a write stores (RW), clears (W1C) or sets (W1S), and who may write it. Fields that a write only acts on (WO) and
fields the device drives (RO) stand in no mask. -/
namespace Sys2Proof.Machine

/-- Who may write a register; every other write of it is ignored. -/
inductive Writers where
  | all | cores | app | appKiln | appField | kiln | core0 | hostApp | appHost | nobody
  deriving DecidableEq, Repr

/-- Whether a requester is one of the permitted writers. An application core is one of cores 0 to 3 (R28). -/
def Writers.permits (w : Writers) (r : Req) : Bool :=
  match w, r with
  | .all, _ => true
  | .nobody, _ => false
  | .cores, .core _ => true
  | .cores, _ => false
  | .app, .core c => c.val < 4
  | .app, _ => false
  | .appKiln, .core c => c.val != 4
  | .appKiln, _ => false
  | .appField, .core c => c.val != 5
  | .appField, _ => false
  | .kiln, .core c => c.val == 5
  | .kiln, _ => false
  | .core0, .core c => c.val == 0
  | .core0, _ => false
  | .hostApp, .core c => c.val < 4
  | .hostApp, _ => true
  | .appHost, .core c => c.val < 4
  | .appHost, _ => true

/-- One register, or `count` registers spaced `stride` bytes apart. -/
structure RegDef where
  name : String
  base : Nat
  stride : Nat
  count : Nat
  reset : Word
  rw : Word
  w1c : Word
  w1s : Word
  who : Writers
  deriving DecidableEq, Repr

/-! ### Addresses -/

def rSYS_MODE : Nat := 0x40000040
def rSYS_MODE_REQ : Nat := 0x40000044
def rSYS_MODE_CAUSE : Nat := 0x40000048
def rSYS_LOCK_CAUSE : Nat := 0x4000004C
def rSYS_MODE_EVT : Nat := 0x40000050
def rSYS_MODE_IE : Nat := 0x40000054
def rSYS_APPROACH_TMO : Nat := 0x40000058
def rSYS_SESSION : Nat := 0x4000005C

def rPWR_VCORE : Nat := 0x40001020
def rPWR_VCORE_STAT : Nat := 0x40001024
def rTB_NOW_LO : Nat := 0x40018000
def rTB_NOW_HI : Nat := 0x40018004
def rRTC_NOW_LO : Nat := 0x40018010
def rRTC_NOW_HI : Nat := 0x40018014
def rTB_STAT : Nat := 0x40018018

def rCPRIV_CACHE : Nat := 0xE0000000
def rSYS_ECC_STAT : Nat := 0x40000100
def rSYS_ECC_ADDR : Nat := 0x40000104
def rSYS_ECC_CTL : Nat := 0x40000108
def rXLATE_ROOT : Nat := 0x4001C100
def rXLATE_VA : Nat := 0x4001C104
def rXLATE_INV : Nat := 0x4001C010
def rXLATE_FAULT_INFO : Nat := 0x4001C020
def rXLATE_FAULT_VA : Nat := 0x4001C024

def rFLASH_ADDR : Nat := 0x40013000
def rFLASH_SRC : Nat := 0x40013004
def rFLASH_LEN : Nat := 0x40013008
def rFLASH_CMD : Nat := 0x4001300C
def rFLASH_STAT : Nat := 0x40013010
def rFLASH_DONE : Nat := 0x40013014
def rFLASH_ERR : Nat := 0x40013018
def rFLASH_ERR_ADDR : Nat := 0x4001301C
def rFLASH_BOOT : Nat := 0x40013020
def rFLASH_PROT : Nat := 0x40013024
def rFLASH_TORN : Nat := 0x40013100

def rLEDGER_CTL : Nat := 0x40012000
def rLEDGER_STAT : Nat := 0x40012004
def rLEDGER_SCAN : Nat := 0x40012008
def rLEDGER_SCAN_TIME : Nat := 0x4001200C
def rLEDGER_WRITES : Nat := 0x40012010
def rLEDGER_LAST : Nat := 0x40012014

def rFRONT_STAT : Nat := 0x40002000
def rFRONT_EVT : Nat := 0x40002004
def rFRONT_BIND0 : Nat := 0x40002010
def rFRONT_BIND1 : Nat := 0x40002014
def rFRONT_CAGE : Nat := 0x40002020
def rFRONT_ARG : Nat := 0x40002040
def rFRONT_CTL : Nat := 0x40002044
def rFRONT_RES : Nat := 0x40002048
def rFRONT_DBELL : Nat := 0x4000204C
def rFRONT_QPTR : Nat := 0x40002800

def rSYS_EPOCH : Nat := 0x40000060
def rFRONT_HANG : Nat := 0x40002050
def rFRONT_QSEL : Nat := 0x40002054
def rFRONT_QCNT : Nat := 0x40002058
def rFRONT_GUILTY : Nat := 0x4000205C
def rFRONT_DONE : Nat := 0x40002400

def rADC_CTL : Nat := 0x40003000
def rADC_CMD : Nat := 0x40003004
def rADC_STAT : Nat := 0x40003008
def rADC_EVT : Nat := 0x4000300C
def rADC_IE : Nat := 0x40003010
def rADC_TRIG_STAMP : Nat := 0x40003014
def rADC_CAL : Nat := 0x40003018
def rADC_DMA_BASE : Nat := 0x40003020
def rADC_DMA_SIZE : Nat := 0x40003024
def rADC_DMA_WR : Nat := 0x40003028
def rADC_DMA_RD : Nat := 0x4000302C
def rADC_DMA_HWM : Nat := 0x40003030
def rADC_DMA_DROP : Nat := 0x40003034
def rADC_ENT : Nat := 0x40003040
def rADC_ENT_INJ : Nat := 0x40003080
def rADC_WIN : Nat := 0x400030C0
def rADC_WIN_INJ : Nat := 0x40003100
def rADC_WIN_EVT : Nat := 0x40003104
def rADC_RES : Nat := 0x40003140
def rADC_RES_INJ : Nat := 0x40003180

def rLF_CFG : Nat := 0x40004000
def rLF_FREQ : Nat := 0x40004004
def rLF_STAT : Nat := 0x40004008
def rLF_EVT : Nat := 0x4000400C
def rLF_IE : Nat := 0x40004010
def rLF_CH : Nat := 0x40004020
def rLF_MEAS : Nat := 0x40004040
def rLF_DIAG : Nat := 0x40004060
def rCAP_CFG : Nat := 0x40009000
def rCAP_CH : Nat := 0x40009020
def rCAP_DATA : Nat := 0x40009040
def rCAP_STAT : Nat := 0x40009060
def rCAP_EVT : Nat := 0x40009064
def rCAP_IE : Nat := 0x40009068
def rCAP_WAKE : Nat := 0x4000906C

def rUHF_CFG : Nat := 0x40005000
def rUHF_SYNC : Nat := 0x40005004
def rUHF_STAT : Nat := 0x40005008
def rUHF_EVT : Nat := 0x4000500C
def rUHF_IE : Nat := 0x40005010

def rUWB_CFG : Nat := 0x40006000
def rUWB_STAT : Nat := 0x40006004
def rUWB_EVT : Nat := 0x40006008
def rUWB_IE : Nat := 0x4000600C
def rUWB_ANTDLY : Nat := 0x40006010
def rRANGE_CFG : Nat := 0x40006100
def rRANGE_LFCFG : Nat := 0x40006104
def rRANGE_CAL : Nat := 0x40006108
def rRANGE_ZONE : Nat := 0x40006120
def rRANGE_ANCH : Nat := 0x40006140
def rRANGE_LFZONE : Nat := 0x40006160
def rRANGE_RESULT : Nat := 0x40006200

def rBLE_CFG : Nat := 0x40007000
def rBLE_STAT : Nat := 0x40007004
def rBLE_EVT : Nat := 0x40007008
def rBLE_IE : Nat := 0x4000700C
def rBLE_HCI_TXD : Nat := 0x40007010
def rBLE_HCI_RXD : Nat := 0x40007014
def rBLE_HCI_RXPOP : Nat := 0x40007018
def rBLE_WAKE : Nat := 0x4000701C
def rNFC_CFG : Nat := 0x40008000
def rNFC_FWT : Nat := 0x40008004
def rNFC_STAT : Nat := 0x40008008
def rNFC_EVT : Nat := 0x4000800C
def rNFC_IE : Nat := 0x40008010

def rKATTR : Nat := 0x10040000
def rCIPHER_STAT : Nat := 0x40015000
def rCIPHER_CFG : Nat := 0x40015004
def rCIPHER_DEVID_LO : Nat := 0x40015008
def rCIPHER_DEVID_HI : Nat := 0x4001500C
def rPKA_STAT : Nat := 0x40016000
def rHASH_STAT : Nat := 0x4001D000

def rENT_CTL : Nat := 0x40014000
def rENT_CFG : Nat := 0x40014004
def rENT_PAT : Nat := 0x40014008
def rENT_STAT : Nat := 0x4001400C
def rENT_DATA : Nat := 0x40014010
def rENT_HCNT0 : Nat := 0x40014014
def rENT_HCNT1 : Nat := 0x40014018
def rENT_DRBG : Nat := 0x4001401C

def rSTART_CFG : Nat := 0x40017000
def rSTART_RXID : Nat := 0x40017004
def rSTART_TXID : Nat := 0x40017008
def rSTART_PRES : Nat := 0x4001700C
def rSTART_STAT : Nat := 0x40017010
def rSTART_PRES_T : Nat := 0x40017014
def rSTART_PRES_ID : Nat := 0x40017018
def rSTART_COUNT : Nat := 0x4001701C
def rSTART_EVT : Nat := 0x40017020

def rSW_CFG : Nat := 0x4000B000
def rSW_PORT : Nat := 0x4000B010
def rSW_PLCA : Nat := 0x4000B028
def rSW_PCPMAP : Nat := 0x4000B02C
def rSW_EVT : Nat := 0x4000B030
def rSW_IE : Nat := 0x4000B034
def rSW_QDROP : Nat := 0x4000B038
def rSW_VLAN : Nat := 0x4000B100
def rSW_RXBASE : Nat := 0x4000B040
def rCAN0_RXBASE : Nat := 0x4000C040
def rCAN1_RXBASE : Nat := 0x4000D040
def rCAN2_RXBASE : Nat := 0x4000E040
def rCAN3_RXBASE : Nat := 0x4000F040
def rSW_RXSIZE : Nat := 0x4000B044
def rCAN0_RXSIZE : Nat := 0x4000C044
def rCAN1_RXSIZE : Nat := 0x4000D044
def rCAN2_RXSIZE : Nat := 0x4000E044
def rCAN3_RXSIZE : Nat := 0x4000F044
def rSW_RXWR : Nat := 0x4000B048
def rCAN0_RXWR : Nat := 0x4000C048
def rCAN1_RXWR : Nat := 0x4000D048
def rCAN2_RXWR : Nat := 0x4000E048
def rCAN3_RXWR : Nat := 0x4000F048
def rSW_RXRD : Nat := 0x4000B04C
def rCAN0_RXRD : Nat := 0x4000C04C
def rCAN1_RXRD : Nat := 0x4000D04C
def rCAN2_RXRD : Nat := 0x4000E04C
def rCAN3_RXRD : Nat := 0x4000F04C
def rSW_RXDROP : Nat := 0x4000B050
def rCAN0_RXDROP : Nat := 0x4000C050
def rCAN1_RXDROP : Nat := 0x4000D050
def rCAN2_RXDROP : Nat := 0x4000E050
def rCAN3_RXDROP : Nat := 0x4000F050
def rCAN0_CFG : Nat := 0x4000C000
def rCAN1_CFG : Nat := 0x4000D000
def rCAN2_CFG : Nat := 0x4000E000
def rCAN3_CFG : Nat := 0x4000F000
def rCAN0_NBT : Nat := 0x4000C004
def rCAN1_NBT : Nat := 0x4000D004
def rCAN2_NBT : Nat := 0x4000E004
def rCAN3_NBT : Nat := 0x4000F004
def rCAN0_DBT : Nat := 0x4000C008
def rCAN1_DBT : Nat := 0x4000D008
def rCAN2_DBT : Nat := 0x4000E008
def rCAN3_DBT : Nat := 0x4000F008
def rCAN0_XBT : Nat := 0x4000C00C
def rCAN1_XBT : Nat := 0x4000D00C
def rCAN2_XBT : Nat := 0x4000E00C
def rCAN3_XBT : Nat := 0x4000F00C
def rCAN0_STAT : Nat := 0x4000C010
def rCAN1_STAT : Nat := 0x4000D010
def rCAN2_STAT : Nat := 0x4000E010
def rCAN3_STAT : Nat := 0x4000F010
def rCAN0_EVT : Nat := 0x4000C014
def rCAN1_EVT : Nat := 0x4000D014
def rCAN2_EVT : Nat := 0x4000E014
def rCAN3_EVT : Nat := 0x4000F014
def rCAN0_IE : Nat := 0x4000C018
def rCAN1_IE : Nat := 0x4000D018
def rCAN2_IE : Nat := 0x4000E018
def rCAN3_IE : Nat := 0x4000F018
def rCAN0_FID : Nat := 0x4000C100
def rCAN1_FID : Nat := 0x4000D100
def rCAN2_FID : Nat := 0x4000E100
def rCAN3_FID : Nat := 0x4000F100
def rCAN0_FMSK : Nat := 0x4000C104
def rCAN1_FMSK : Nat := 0x4000D104
def rCAN2_FMSK : Nat := 0x4000E104
def rCAN3_FMSK : Nat := 0x4000F104
def rLIN0_CFG : Nat := 0x40010000
def rLIN1_CFG : Nat := 0x40011000
def rLIN0_EVT : Nat := 0x40010004
def rLIN1_EVT : Nat := 0x40011004
def rLIN0_IE : Nat := 0x40010008
def rLIN1_IE : Nat := 0x40011008
def rLIN0_STAT : Nat := 0x4001000C
def rLIN1_STAT : Nat := 0x4001100C

def rADIT_CFG : Nat := 0x4000A000
def rADIT_STAT : Nat := 0x4000A004
def rADIT_EVT : Nat := 0x4000A008
def rADIT_IE : Nat := 0x4000A00C
def rADIT_ROUTE : Nat := 0x4000A010
def rADIT_POS : Nat := 0x4000A020
def rADIT_WAKE : Nat := 0x4000A040

def rHOSTIF_SEL : Nat := 0x4001B000
def rHOSTIF_EVT : Nat := 0x4001B004
def rHOSTIF_IVEC : Nat := 0x4001B008
def rHOSTIF_PEND : Nat := 0x4001B00C
def rHOSTIF_PMASK : Nat := 0x4001B010
def rHOSTIF_OB_LO : Nat := 0x4001B020
def rHOSTIF_OB_HI : Nat := 0x4001B024
def rHOSTIF_UART_BAUD : Nat := 0x4001B030
def rHOSTIF_SPI_LAST : Nat := 0x4001B034
def rHOSTIF_RESCUE : Nat := 0x4001B040
def rHOSTIF_RESCUE_STAT : Nat := 0x4001B044

def rPWR_RESET_CAUSE : Nat := 0x40001000
def rPWR_OFF_CAUSE : Nat := 0x40001004
def rPWR_RESET_REQ : Nat := 0x40001008
def rPWR_WDT_CFG : Nat := 0x4000100C
def rPWR_WDT_KICK : Nat := 0x40001010
def rPWR_TAMPER : Nat := 0x40001014
def rPWR_WAKE_EN : Nat := 0x40001028
def rPWR_WAKE_SRC : Nat := 0x4000102C
def rPWR_WAKE_RTC : Nat := 0x40001030
def rPWR_BANK_TIME : Nat := 0x40001034

def rASSAY_CTL : Nat := 0x40019000
def rASSAY_STAT : Nat := 0x40019004
def rASSAY_FREEZE_TB_LO : Nat := 0x40019008
def rASSAY_FREEZE_TB_HI : Nat := 0x4001900C
def rASSAY_FREEZE_RTC : Nat := 0x40019010
def rASSAY_THAW_RTC : Nat := 0x40019014
def rASSAY_ID : Nat := 0x40019018
def rASSAY_IGNORED : Nat := 0x4001901C

/-- The registers of chapter 02. -/
def regs02 : List RegDef := [
  ⟨"SYS_MODE", 0x40000040, 4, 1, 0x00000002, 0x00000000, 0x00000000, 0x00000000, .nobody⟩,
  ⟨"SYS_MODE_REQ", 0x40000044, 4, 1, 0x00000000, 0x00000000, 0x00000000, 0x00000000, .cores⟩,
  ⟨"SYS_MODE_CAUSE", 0x40000048, 4, 1, 0x00000001, 0x00000000, 0x00000000, 0x00000000, .nobody⟩,
  ⟨"SYS_LOCK_CAUSE", 0x4000004C, 4, 1, 0x00000000, 0x00000000, 0x00000000, 0x00000000, .nobody⟩,
  ⟨"SYS_MODE_EVT", 0x40000050, 4, 1, 0x00000000, 0x00000000, 0x0000000F, 0x00000000, .all⟩,
  ⟨"SYS_MODE_IE", 0x40000054, 4, 1, 0x00000000, 0x0000000F, 0x00000000, 0x00000000, .appKiln⟩,
  ⟨"SYS_APPROACH_TMO", 0x40000058, 4, 1, 0x000003E8, 0x00003FFF, 0x00000000, 0x00000000, .appKiln⟩,
  ⟨"SYS_SESSION", 0x4000005C, 4, 1, 0x00000000, 0x00000000, 0x00000000, 0x000000FF, .cores⟩]

/-- The registers of chapter 03. -/
def regs03 : List RegDef := [
  ⟨"PWR_VCORE", 0x40001020, 4, 1, 0x00000014, 0x0000001F, 0x00000000, 0x00000000, .appKiln⟩,
  ⟨"PWR_VCORE_STAT", 0x40001024, 4, 1, 0x00001402, 0x00000000, 0x00000001, 0x00000000, .appKiln⟩,
  ⟨"TB_NOW_LO", 0x40018000, 4, 1, 0x00000000, 0x00000000, 0x00000000, 0x00000000, .nobody⟩,
  ⟨"TB_NOW_HI", 0x40018004, 4, 1, 0x00000000, 0x00000000, 0x00000000, 0x00000000, .nobody⟩,
  ⟨"RTC_NOW_LO", 0x40018010, 4, 1, 0x00000000, 0x00000000, 0x00000000, 0x00000000, .nobody⟩,
  ⟨"RTC_NOW_HI", 0x40018014, 4, 1, 0x00000000, 0x00000000, 0x00000000, 0x00000000, .nobody⟩,
  ⟨"TB_STAT", 0x40018018, 4, 1, 0x00000001, 0x00000000, 0x00000006, 0x00000000, .appKiln⟩]

/-- The registers of chapter 06. -/
def regs06 : List RegDef := [
  ⟨"CPRIV_CACHE", 0xE0000000, 4, 1, 0x00000000, 0x00000003, 0x00000000, 0x00000000, .cores⟩,
  ⟨"SYS_ECC_STAT", 0x40000100, 4, 1, 0x00000000, 0x00000000, 0x0000000E, 0x00000000, .all⟩,
  ⟨"SYS_ECC_ADDR", 0x40000104, 4, 1, 0x00000000, 0x00000000, 0x00000000, 0x00000000, .nobody⟩,
  ⟨"SYS_ECC_CTL", 0x40000108, 4, 1, 0x00010004, 0x003F001F, 0x00000000, 0x00000000, .appKiln⟩,
  ⟨"XLATE_ROOT", 0x4001C100, 8, 64, 0x00000000, 0xFFFFF001, 0x00000000, 0x00000000, .app⟩,
  ⟨"XLATE_VA", 0x4001C104, 8, 64, 0x00000000, 0x0000FFFF, 0x00000000, 0x00000000, .app⟩,
  ⟨"XLATE_INV", 0x4001C010, 4, 1, 0x00000000, 0x00000000, 0x00000000, 0x00000000, .app⟩,
  ⟨"XLATE_FAULT_INFO", 0x4001C020, 4, 1, 0x00000000, 0x00000000, 0x00000003, 0x00000000, .app⟩,
  ⟨"XLATE_FAULT_VA", 0x4001C024, 4, 1, 0x00000000, 0x00000000, 0x00000000, 0x00000000, .app⟩]

/-- The registers of chapter 07. -/
def regs07 : List RegDef := [
  ⟨"FLASH_ADDR", 0x40013000, 4, 1, 0x00000000, 0xFFFFFFFF, 0x00000000, 0x00000000, .appKiln⟩,
  ⟨"FLASH_SRC", 0x40013004, 4, 1, 0x20000000, 0xFFFFFFF0, 0x00000000, 0x00000000, .appKiln⟩,
  ⟨"FLASH_LEN", 0x40013008, 4, 1, 0x00001000, 0x00001FFF, 0x00000000, 0x00000000, .appKiln⟩,
  ⟨"FLASH_CMD", 0x4001300C, 4, 1, 0x00000000, 0x00000000, 0x00000000, 0x00000000, .appKiln⟩,
  ⟨"FLASH_STAT", 0x40013010, 4, 1, 0x00000000, 0x00000000, 0x0000000C, 0x00000000, .appKiln⟩,
  ⟨"FLASH_DONE", 0x40013014, 4, 1, 0x00000000, 0x00000000, 0x00000000, 0x00000000, .appKiln⟩,
  ⟨"FLASH_ERR", 0x40013018, 4, 1, 0x00000000, 0x00000000, 0x00000003, 0x00000000, .appKiln⟩,
  ⟨"FLASH_ERR_ADDR", 0x4001301C, 4, 1, 0x00000000, 0x00000000, 0x00000000, 0x00000000, .appKiln⟩,
  ⟨"FLASH_BOOT", 0x40013020, 4, 1, 0x00006600, 0x00000000, 0x00000000, 0x00000000, .appKiln⟩,
  ⟨"FLASH_PROT", 0x40013024, 4, 1, 0x00000000, 0x00000000, 0x00000000, 0x00000003, .appKiln⟩,
  ⟨"FLASH_TORN", 0x40013100, 4, 32, 0x00000000, 0x00000000, 0x00000000, 0x00000000, .appKiln⟩]

/-- The registers of chapter 08. -/
def regs08 : List RegDef := [
  ⟨"LEDGER_CTL", 0x40012000, 4, 1, 0x00000000, 0x00000000, 0x00000000, 0x00000000, .appKiln⟩,
  ⟨"LEDGER_STAT", 0x40012004, 4, 1, 0x00000001, 0x00000000, 0x00000012, 0x00000000, .appKiln⟩,
  ⟨"LEDGER_SCAN", 0x40012008, 4, 1, 0x00000000, 0x00000000, 0x00000000, 0x00000000, .appKiln⟩,
  ⟨"LEDGER_SCAN_TIME", 0x4001200C, 4, 1, 0x00000000, 0x00000000, 0x00000000, 0x00000000, .appKiln⟩,
  ⟨"LEDGER_WRITES", 0x40012010, 4, 1, 0x00000000, 0x00000000, 0x00000000, 0x00000000, .appKiln⟩,
  ⟨"LEDGER_LAST", 0x40012014, 4, 1, 0x00000000, 0x00000000, 0x00000000, 0x00000000, .appKiln⟩]

/-- The registers of chapter 09. -/
def regs09 : List RegDef := [
  ⟨"FRONT_STAT", 0x40002000, 4, 1, 0x00000000, 0x00000000, 0x00000000, 0x00000000, .nobody⟩,
  ⟨"FRONT_EVT", 0x40002004, 4, 1, 0x00000000, 0x00000000, 0x0000001F, 0x00000000, .core0⟩,
  ⟨"FRONT_BIND0", 0x40002010, 4, 1, 0x66543210, 0x77777777, 0x00000000, 0x00000000, .core0⟩,
  ⟨"FRONT_BIND1", 0x40002014, 4, 1, 0x77777777, 0x77777777, 0x00000000, 0x00000000, .core0⟩,
  ⟨"FRONT_CAGE", 0x40002020, 4, 8, 0x00640000, 0x81FF0000, 0x00000000, 0x00000000, .core0⟩,
  ⟨"FRONT_ARG", 0x40002040, 4, 1, 0x00000000, 0xFFFFFFFF, 0x00000000, 0x00000000, .all⟩,
  ⟨"FRONT_CTL", 0x40002044, 4, 1, 0x00000000, 0x00000000, 0x00000000, 0x00000000, .all⟩,
  ⟨"FRONT_RES", 0x40002048, 4, 1, 0x00000000, 0x00000000, 0x00000000, 0x00000000, .nobody⟩,
  ⟨"FRONT_DBELL", 0x4000204C, 4, 1, 0x00000000, 0x00000000, 0x00000000, 0x00000000, .all⟩,
  ⟨"FRONT_QPTR", 0x40002800, 4, 512, 0x00000000, 0x00000000, 0x00000000, 0x00000000, .nobody⟩]

/-- The registers of chapter 10. -/
def regs10 : List RegDef := [
  ⟨"SYS_EPOCH", 0x40000060, 4, 1, 0x00000000, 0x00000000, 0x00000000, 0x00000000, .nobody⟩,
  ⟨"FRONT_HANG", 0x40002050, 4, 1, 0x00000014, 0x000000FF, 0x00000000, 0x00000000, .core0⟩,
  ⟨"FRONT_QSEL", 0x40002054, 4, 1, 0x00000000, 0x000001FF, 0x00000000, 0x00000000, .all⟩,
  ⟨"FRONT_QCNT", 0x40002058, 4, 1, 0x00000000, 0x00000000, 0x00000000, 0x00000000, .nobody⟩,
  ⟨"FRONT_GUILTY", 0x4000205C, 4, 1, 0x00000000, 0x00000000, 0x00000000, 0x00000000, .nobody⟩,
  ⟨"FRONT_DONE", 0x40002400, 4, 256, 0x00000000, 0x00000000, 0x00000000, 0x00000000, .nobody⟩]

/-- The registers of chapter 11. -/
def regs11 : List RegDef := [
  ⟨"ADC_CTL", 0x40003000, 4, 1, 0x00000000, 0x0000FF07, 0x00000000, 0x00000000, .appField⟩,
  ⟨"ADC_CMD", 0x40003004, 4, 1, 0x00000000, 0x00000000, 0x00000000, 0x00000000, .appField⟩,
  ⟨"ADC_STAT", 0x40003008, 4, 1, 0x00000000, 0x00000000, 0x00000000, 0x00000000, .appField⟩,
  ⟨"ADC_EVT", 0x4000300C, 4, 1, 0x00000000, 0x00000000, 0x000003FF, 0x00000000, .appField⟩,
  ⟨"ADC_IE", 0x40003010, 4, 1, 0x00100000, 0x001F03FF, 0x00000000, 0x00000000, .appField⟩,
  ⟨"ADC_TRIG_STAMP", 0x40003014, 4, 1, 0x00000000, 0x00000000, 0x00000000, 0x00000000, .appField⟩,
  ⟨"ADC_CAL", 0x40003018, 4, 1, 0x00000000, 0x00000001, 0x00000000, 0x00000000, .appField⟩,
  ⟨"ADC_DMA_BASE", 0x40003020, 4, 1, 0x20000000, 0xFFFFFFC0, 0x00000000, 0x00000000, .appField⟩,
  ⟨"ADC_DMA_SIZE", 0x40003024, 4, 1, 0x0000000C, 0x0000001F, 0x00000000, 0x00000000, .appField⟩,
  ⟨"ADC_DMA_WR", 0x40003028, 4, 1, 0x00000000, 0x00000000, 0x00000000, 0x00000000, .appField⟩,
  ⟨"ADC_DMA_RD", 0x4000302C, 4, 1, 0x00000000, 0x000FFFFC, 0x00000000, 0x00000000, .appField⟩,
  ⟨"ADC_DMA_HWM", 0x40003030, 4, 1, 0x00000400, 0x000FFFFF, 0x00000000, 0x00000000, .appField⟩,
  ⟨"ADC_DMA_DROP", 0x40003034, 4, 1, 0x00000000, 0x00000000, 0x00000000, 0x00000000, .appField⟩,
  ⟨"ADC_ENT", 0x40003040, 4, 16, 0x00000000, 0xFFFFFFFF, 0x00000000, 0x00000000, .appField⟩,
  ⟨"ADC_ENT_INJ", 0x40003080, 4, 1, 0x00000000, 0xFFFFFFFF, 0x00000000, 0x00000000, .appField⟩,
  ⟨"ADC_WIN", 0x400030C0, 4, 16, 0x7FFF8000, 0xFFFFFFFF, 0x00000000, 0x00000000, .appField⟩,
  ⟨"ADC_WIN_INJ", 0x40003100, 4, 1, 0x7FFF8000, 0xFFFFFFFF, 0x00000000, 0x00000000, .appField⟩,
  ⟨"ADC_WIN_EVT", 0x40003104, 4, 1, 0x00000000, 0x00000000, 0x0001FFFF, 0x00000000, .appField⟩,
  ⟨"ADC_RES", 0x40003140, 4, 16, 0x00000000, 0x00000000, 0x00000000, 0x00000000, .appField⟩,
  ⟨"ADC_RES_INJ", 0x40003180, 4, 1, 0x00000000, 0x00000000, 0x00000000, 0x00000000, .appField⟩]

/-- The registers of chapter 12. -/
def regs12 : List RegDef := [
  ⟨"LF_CFG", 0x40004000, 4, 1, 0x20C81034, 0x7FFF3F7F, 0x00000000, 0x00000000, .appField⟩,
  ⟨"LF_FREQ", 0x40004004, 4, 1, 0x00834835, 0xFFFFFFFF, 0x00000000, 0x00000000, .appField⟩,
  ⟨"LF_STAT", 0x40004008, 4, 1, 0x00000000, 0x00000000, 0x00000000, 0x00000000, .appField⟩,
  ⟨"LF_EVT", 0x4000400C, 4, 1, 0x00000000, 0x00000000, 0x00001F3F, 0x00000000, .appField⟩,
  ⟨"LF_IE", 0x40004010, 4, 1, 0x00100000, 0x001F1FFF, 0x00000000, 0x00000000, .appField⟩,
  ⟨"LF_CH", 0x40004020, 4, 6, 0x00200000, 0xC03F003F, 0x00000000, 0x00000000, .appField⟩,
  ⟨"LF_MEAS", 0x40004040, 4, 6, 0x00000000, 0x00000000, 0x00000000, 0x00000000, .appField⟩,
  ⟨"LF_DIAG", 0x40004060, 4, 6, 0x00000000, 0x00000000, 0x0000000F, 0x00000000, .appField⟩,
  ⟨"CAP_CFG", 0x40009000, 4, 1, 0x9C004831, 0xFFCFFFFF, 0x00000000, 0x00000000, .appField⟩,
  ⟨"CAP_CH", 0x40009020, 4, 8, 0x00000000, 0xC0FFFFFF, 0x00000000, 0x00000000, .appField⟩,
  ⟨"CAP_DATA", 0x40009040, 4, 8, 0x00000000, 0x00000000, 0x00000000, 0x00000000, .appField⟩,
  ⟨"CAP_STAT", 0x40009060, 4, 1, 0x00000000, 0x00000000, 0x00000000, 0x00000000, .appField⟩,
  ⟨"CAP_EVT", 0x40009064, 4, 1, 0x00000000, 0x00000000, 0x00FFFFFF, 0x00000000, .appField⟩,
  ⟨"CAP_IE", 0x40009068, 4, 1, 0x10000000, 0x1FFFFFFF, 0x00000000, 0x00000000, .appField⟩,
  ⟨"CAP_WAKE", 0x4000906C, 4, 1, 0x00000000, 0x00000000, 0x000000FF, 0x00000000, .appField⟩]

/-- The registers of chapter 13. -/
def regs13 : List RegDef := [
  ⟨"UHF_CFG", 0x40005000, 4, 1, 0x0000010F, 0x8000030F, 0x00000000, 0x00000000, .appField⟩,
  ⟨"UHF_SYNC", 0x40005004, 4, 1, 0x000093B5, 0x0000FFFF, 0x00000000, 0x00000000, .appField⟩,
  ⟨"UHF_STAT", 0x40005008, 4, 1, 0x00000000, 0x00000000, 0x00000000, 0x00000000, .appField⟩,
  ⟨"UHF_EVT", 0x4000500C, 4, 1, 0x00000000, 0x00000000, 0x0000000F, 0x00000000, .appField⟩,
  ⟨"UHF_IE", 0x40005010, 4, 1, 0x00100000, 0x001F000F, 0x00000000, 0x00000000, .appField⟩]

/-- The registers of chapter 14. -/
def regs14 : List RegDef := [
  ⟨"UWB_CFG", 0x40006000, 4, 1, 0x49A00001, 0xCFF003FF, 0x00000000, 0x00000000, .appField⟩,
  ⟨"UWB_STAT", 0x40006004, 4, 1, 0x00000000, 0x00000000, 0x00000000, 0x00000000, .nobody⟩,
  ⟨"UWB_EVT", 0x40006008, 4, 1, 0x00000000, 0x00000000, 0x0000000F, 0x00000000, .appField⟩,
  ⟨"UWB_IE", 0x4000600C, 4, 1, 0x00100000, 0x001F000F, 0x00000000, 0x00000000, .appField⟩,
  ⟨"UWB_ANTDLY", 0x40006010, 4, 4, 0x00004000, 0x0000FFFF, 0x00000000, 0x00000000, .kiln⟩,
  ⟨"RANGE_CFG", 0x40006100, 4, 1, 0x12C04000, 0xFFF0F301, 0x00000000, 0x00000000, .kiln⟩,
  ⟨"RANGE_LFCFG", 0x40006104, 4, 1, 0x00000000, 0x80000007, 0x00000000, 0x00000000, .kiln⟩,
  ⟨"RANGE_CAL", 0x40006108, 4, 1, 0x0000001E, 0x000003FF, 0x00000000, 0x00000000, .kiln⟩,
  ⟨"RANGE_ZONE", 0x40006120, 4, 8, 0x00000000, 0xC3FF0FFF, 0x00000000, 0x00000000, .kiln⟩,
  ⟨"RANGE_ANCH", 0x40006140, 4, 8, 0x00000000, 0x8FFF0FFF, 0x00000000, 0x00000000, .kiln⟩,
  ⟨"RANGE_LFZONE", 0x40006160, 4, 8, 0x00000000, 0xC700FFFF, 0x00000000, 0x00000000, .kiln⟩,
  ⟨"RANGE_RESULT", 0x40006200, 4, 1, 0x0000F000, 0x00000000, 0x00000000, 0x00000000, .kiln⟩]

/-- The registers of chapter 15. -/
def regs15 : List RegDef := [
  ⟨"BLE_CFG", 0x40007000, 4, 1, 0x00000000, 0x80000000, 0x00000000, 0x00000000, .app⟩,
  ⟨"BLE_STAT", 0x40007004, 4, 1, 0x00000000, 0x00000000, 0x00000000, 0x00000000, .app⟩,
  ⟨"BLE_EVT", 0x40007008, 4, 1, 0x00000000, 0x00000000, 0x0000000F, 0x00000000, .app⟩,
  ⟨"BLE_IE", 0x4000700C, 4, 1, 0x00020000, 0x001F000F, 0x00000000, 0x00000000, .app⟩,
  ⟨"BLE_HCI_TXD", 0x40007010, 4, 1, 0x00000000, 0x00000000, 0x00000000, 0x00000000, .app⟩,
  ⟨"BLE_HCI_RXD", 0x40007014, 4, 1, 0x00000000, 0x00000000, 0x00000000, 0x00000000, .app⟩,
  ⟨"BLE_HCI_RXPOP", 0x40007018, 4, 1, 0x00000000, 0x00000000, 0x00000000, 0x00000000, .app⟩,
  ⟨"BLE_WAKE", 0x4000701C, 4, 1, 0x00000000, 0x00000000, 0x00000001, 0x00000000, .app⟩,
  ⟨"NFC_CFG", 0x40008000, 4, 1, 0x00000008, 0x8000000F, 0x00000000, 0x00000000, .appField⟩,
  ⟨"NFC_FWT", 0x40008004, 4, 1, 0x00000100, 0x007FFFFF, 0x00000000, 0x00000000, .appField⟩,
  ⟨"NFC_STAT", 0x40008008, 4, 1, 0x00000000, 0x00000000, 0x00000000, 0x00000000, .appField⟩,
  ⟨"NFC_EVT", 0x4000800C, 4, 1, 0x00000000, 0x00000000, 0x00000007, 0x00000000, .appField⟩,
  ⟨"NFC_IE", 0x40008010, 4, 1, 0x00100000, 0x001F0007, 0x00000000, 0x00000000, .appField⟩]

/-- The registers of chapter 16. -/
def regs16 : List RegDef := [
  ⟨"KATTR", 0x10040000, 4, 64, 0x00100000, 0x000F03FF, 0x00000000, 0x00000000, .kiln⟩,
  ⟨"CIPHER_STAT", 0x40015000, 4, 1, 0x00000000, 0x00000000, 0x00000000, 0x00000000, .nobody⟩,
  ⟨"CIPHER_CFG", 0x40015004, 4, 1, 0x00000107, 0x00000107, 0x00000000, 0x00000000, .kiln⟩,
  ⟨"CIPHER_DEVID_LO", 0x40015008, 4, 1, 0x00000000, 0x00000000, 0x00000000, 0x00000000, .nobody⟩,
  ⟨"CIPHER_DEVID_HI", 0x4001500C, 4, 1, 0x00000000, 0x00000000, 0x00000000, 0x00000000, .nobody⟩,
  ⟨"PKA_STAT", 0x40016000, 4, 1, 0x00000000, 0x00000000, 0x00000000, 0x00000000, .nobody⟩,
  ⟨"HASH_STAT", 0x4001D000, 4, 1, 0x00000000, 0x00000000, 0x00000000, 0x00000000, .nobody⟩]

/-- The registers of chapter 17. -/
def regs17 : List RegDef := [
  ⟨"ENT_CTL", 0x40014000, 4, 1, 0x00000000, 0x00000000, 0x00000000, 0x00000000, .appKiln⟩,
  ⟨"ENT_CFG", 0x40014004, 4, 1, 0x10000000, 0xFFFF0001, 0x00000000, 0x00000000, .kiln⟩,
  ⟨"ENT_PAT", 0x40014008, 4, 1, 0x00000000, 0xFFFFFFFF, 0x00000000, 0x00000000, .kiln⟩,
  ⟨"ENT_STAT", 0x4001400C, 4, 1, 0x00000000, 0x00000000, 0x00000062, 0x00000000, .appKiln⟩,
  ⟨"ENT_DATA", 0x40014010, 4, 1, 0x00000000, 0x00000000, 0x00000000, 0x00000000, .nobody⟩,
  ⟨"ENT_HCNT0", 0x40014014, 4, 1, 0x00000000, 0x00000000, 0x00000000, 0x00000000, .nobody⟩,
  ⟨"ENT_HCNT1", 0x40014018, 4, 1, 0x00000000, 0x00000000, 0x00000000, 0x00000000, .nobody⟩,
  ⟨"ENT_DRBG", 0x4001401C, 4, 1, 0x00000000, 0x00000000, 0x00000000, 0x00000000, .nobody⟩]

/-- The registers of chapter 18. -/
def regs18 : List RegDef := [
  ⟨"START_CFG", 0x40017000, 4, 1, 0x00000000, 0x80000003, 0x00000000, 0x00000000, .kiln⟩,
  ⟨"START_RXID", 0x40017004, 4, 1, 0x00000000, 0x9FFFFFFF, 0x00000000, 0x00000000, .kiln⟩,
  ⟨"START_TXID", 0x40017008, 4, 1, 0x00000000, 0x9FFFFFFF, 0x00000000, 0x00000000, .kiln⟩,
  ⟨"START_PRES", 0x4001700C, 4, 1, 0x003C2710, 0xFFFFFFFF, 0x00000000, 0x00000000, .appKiln⟩,
  ⟨"START_STAT", 0x40017010, 4, 1, 0x00000004, 0x00000000, 0x00000000, 0x00000000, .nobody⟩,
  ⟨"START_PRES_T", 0x40017014, 4, 1, 0x00000000, 0x00000000, 0x00000000, 0x00000000, .nobody⟩,
  ⟨"START_PRES_ID", 0x40017018, 4, 1, 0x00000000, 0x00000000, 0x00000000, 0x00000000, .nobody⟩,
  ⟨"START_COUNT", 0x4001701C, 4, 1, 0x00000000, 0x00000000, 0x00000000, 0x00000000, .nobody⟩,
  ⟨"START_EVT", 0x40017020, 4, 1, 0x00000000, 0x00000000, 0x0000003F, 0x00000000, .appKiln⟩]

/-- The registers of chapter 19. -/
def regs19 : List RegDef := [
  ⟨"SW_CFG", 0x4000B000, 4, 1, 0x52C00000, 0xFFF00000, 0x00000000, 0x00000000, .app⟩,
  ⟨"SW_PORT", 0x4000B010, 4, 5, 0x00000001, 0xB0007FFF, 0x00000000, 0x00000000, .app⟩,
  ⟨"SW_PLCA", 0x4000B028, 4, 1, 0x00082000, 0x80FFFFFF, 0x00000000, 0x00000000, .app⟩,
  ⟨"SW_PCPMAP", 0x4000B02C, 4, 1, 0x0000FA50, 0x0000FFFF, 0x00000000, 0x00000000, .app⟩,
  ⟨"SW_EVT", 0x4000B030, 4, 1, 0x00000000, 0x00000000, 0x0000003F, 0x00000000, .app⟩,
  ⟨"SW_IE", 0x4000B034, 4, 1, 0x00010000, 0x001F003F, 0x00000000, 0x00000000, .app⟩,
  ⟨"SW_QDROP", 0x4000B038, 4, 1, 0x00000000, 0x00000000, 0x00000000, 0x00000000, .app⟩,
  ⟨"SW_VLAN", 0x4000B100, 4, 64, 0x00000000, 0x81FF8FFF, 0x00000000, 0x00000000, .app⟩,
  ⟨"SW_RXBASE", 0x4000B040, 4, 1, 0x00000000, 0xFFFFFFC0, 0x00000000, 0x00000000, .app⟩,
  ⟨"CAN0_RXBASE", 0x4000C040, 4, 1, 0x00000000, 0xFFFFFFC0, 0x00000000, 0x00000000, .app⟩,
  ⟨"CAN1_RXBASE", 0x4000D040, 4, 1, 0x00000000, 0xFFFFFFC0, 0x00000000, 0x00000000, .app⟩,
  ⟨"CAN2_RXBASE", 0x4000E040, 4, 1, 0x00000000, 0xFFFFFFC0, 0x00000000, 0x00000000, .app⟩,
  ⟨"CAN3_RXBASE", 0x4000F040, 4, 1, 0x00000000, 0xFFFFFFC0, 0x00000000, 0x00000000, .app⟩,
  ⟨"SW_RXSIZE", 0x4000B044, 4, 1, 0x0000000C, 0x8000001F, 0x00000000, 0x00000000, .app⟩,
  ⟨"CAN0_RXSIZE", 0x4000C044, 4, 1, 0x0000000C, 0x8000001F, 0x00000000, 0x00000000, .app⟩,
  ⟨"CAN1_RXSIZE", 0x4000D044, 4, 1, 0x0000000C, 0x8000001F, 0x00000000, 0x00000000, .app⟩,
  ⟨"CAN2_RXSIZE", 0x4000E044, 4, 1, 0x0000000C, 0x8000001F, 0x00000000, 0x00000000, .app⟩,
  ⟨"CAN3_RXSIZE", 0x4000F044, 4, 1, 0x0000000C, 0x8000001F, 0x00000000, 0x00000000, .app⟩,
  ⟨"SW_RXWR", 0x4000B048, 4, 1, 0x00000000, 0x00000000, 0x00000000, 0x00000000, .app⟩,
  ⟨"CAN0_RXWR", 0x4000C048, 4, 1, 0x00000000, 0x00000000, 0x00000000, 0x00000000, .app⟩,
  ⟨"CAN1_RXWR", 0x4000D048, 4, 1, 0x00000000, 0x00000000, 0x00000000, 0x00000000, .app⟩,
  ⟨"CAN2_RXWR", 0x4000E048, 4, 1, 0x00000000, 0x00000000, 0x00000000, 0x00000000, .app⟩,
  ⟨"CAN3_RXWR", 0x4000F048, 4, 1, 0x00000000, 0x00000000, 0x00000000, 0x00000000, .app⟩,
  ⟨"SW_RXRD", 0x4000B04C, 4, 1, 0x00000000, 0x000FFFF8, 0x00000000, 0x00000000, .app⟩,
  ⟨"CAN0_RXRD", 0x4000C04C, 4, 1, 0x00000000, 0x000FFFF8, 0x00000000, 0x00000000, .app⟩,
  ⟨"CAN1_RXRD", 0x4000D04C, 4, 1, 0x00000000, 0x000FFFF8, 0x00000000, 0x00000000, .app⟩,
  ⟨"CAN2_RXRD", 0x4000E04C, 4, 1, 0x00000000, 0x000FFFF8, 0x00000000, 0x00000000, .app⟩,
  ⟨"CAN3_RXRD", 0x4000F04C, 4, 1, 0x00000000, 0x000FFFF8, 0x00000000, 0x00000000, .app⟩,
  ⟨"SW_RXDROP", 0x4000B050, 4, 1, 0x00000000, 0x00000000, 0x00000000, 0x00000000, .app⟩,
  ⟨"CAN0_RXDROP", 0x4000C050, 4, 1, 0x00000000, 0x00000000, 0x00000000, 0x00000000, .app⟩,
  ⟨"CAN1_RXDROP", 0x4000D050, 4, 1, 0x00000000, 0x00000000, 0x00000000, 0x00000000, .app⟩,
  ⟨"CAN2_RXDROP", 0x4000E050, 4, 1, 0x00000000, 0x00000000, 0x00000000, 0x00000000, .app⟩,
  ⟨"CAN3_RXDROP", 0x4000F050, 4, 1, 0x00000000, 0x00000000, 0x00000000, 0x00000000, .app⟩,
  ⟨"CAN0_CFG", 0x4000C000, 4, 1, 0x2F000000, 0xFF000006, 0x00000000, 0x00000000, .app⟩,
  ⟨"CAN1_CFG", 0x4000D000, 4, 1, 0x2F000000, 0xFF000006, 0x00000000, 0x00000000, .app⟩,
  ⟨"CAN2_CFG", 0x4000E000, 4, 1, 0x2F000000, 0xFF000006, 0x00000000, 0x00000000, .app⟩,
  ⟨"CAN3_CFG", 0x4000F000, 4, 1, 0x2F000000, 0xFF000006, 0x00000000, 0x00000000, .app⟩,
  ⟨"CAN0_NBT", 0x4000C004, 4, 1, 0x017F2020, 0xFFFF7F7F, 0x00000000, 0x00000000, .app⟩,
  ⟨"CAN1_NBT", 0x4000D004, 4, 1, 0x017F2020, 0xFFFF7F7F, 0x00000000, 0x00000000, .app⟩,
  ⟨"CAN2_NBT", 0x4000E004, 4, 1, 0x017F2020, 0xFFFF7F7F, 0x00000000, 0x00000000, .app⟩,
  ⟨"CAN3_NBT", 0x4000F004, 4, 1, 0x017F2020, 0xFFFF7F7F, 0x00000000, 0x00000000, .app⟩,
  ⟨"CAN0_DBT", 0x4000C008, 4, 1, 0x011F8808, 0xFFFFFF7F, 0x00000000, 0x00000000, .app⟩,
  ⟨"CAN1_DBT", 0x4000D008, 4, 1, 0x011F8808, 0xFFFFFF7F, 0x00000000, 0x00000000, .app⟩,
  ⟨"CAN2_DBT", 0x4000E008, 4, 1, 0x011F8808, 0xFFFFFF7F, 0x00000000, 0x00000000, .app⟩,
  ⟨"CAN3_DBT", 0x4000F008, 4, 1, 0x011F8808, 0xFFFFFF7F, 0x00000000, 0x00000000, .app⟩,
  ⟨"CAN0_XBT", 0x4000C00C, 4, 1, 0x01058202, 0xFFFFFF7F, 0x00000000, 0x00000000, .app⟩,
  ⟨"CAN1_XBT", 0x4000D00C, 4, 1, 0x01058202, 0xFFFFFF7F, 0x00000000, 0x00000000, .app⟩,
  ⟨"CAN2_XBT", 0x4000E00C, 4, 1, 0x01058202, 0xFFFFFF7F, 0x00000000, 0x00000000, .app⟩,
  ⟨"CAN3_XBT", 0x4000F00C, 4, 1, 0x01058202, 0xFFFFFF7F, 0x00000000, 0x00000000, .app⟩,
  ⟨"CAN0_STAT", 0x4000C010, 4, 1, 0x0000000C, 0x00000000, 0x00000000, 0x00000000, .app⟩,
  ⟨"CAN1_STAT", 0x4000D010, 4, 1, 0x0000000C, 0x00000000, 0x00000000, 0x00000000, .app⟩,
  ⟨"CAN2_STAT", 0x4000E010, 4, 1, 0x0000000C, 0x00000000, 0x00000000, 0x00000000, .app⟩,
  ⟨"CAN3_STAT", 0x4000F010, 4, 1, 0x0000000C, 0x00000000, 0x00000000, 0x00000000, .app⟩,
  ⟨"CAN0_EVT", 0x4000C014, 4, 1, 0x00000000, 0x00000000, 0x0000003F, 0x00000000, .app⟩,
  ⟨"CAN1_EVT", 0x4000D014, 4, 1, 0x00000000, 0x00000000, 0x0000003F, 0x00000000, .app⟩,
  ⟨"CAN2_EVT", 0x4000E014, 4, 1, 0x00000000, 0x00000000, 0x0000003F, 0x00000000, .app⟩,
  ⟨"CAN3_EVT", 0x4000F014, 4, 1, 0x00000000, 0x00000000, 0x0000003F, 0x00000000, .app⟩,
  ⟨"CAN0_IE", 0x4000C018, 4, 1, 0x00010000, 0x001F003F, 0x00000000, 0x00000000, .app⟩,
  ⟨"CAN1_IE", 0x4000D018, 4, 1, 0x00010000, 0x001F003F, 0x00000000, 0x00000000, .app⟩,
  ⟨"CAN2_IE", 0x4000E018, 4, 1, 0x00010000, 0x001F003F, 0x00000000, 0x00000000, .app⟩,
  ⟨"CAN3_IE", 0x4000F018, 4, 1, 0x00010000, 0x001F003F, 0x00000000, 0x00000000, .app⟩,
  ⟨"CAN0_FID", 0x4000C100, 8, 16, 0x00000000, 0xDFFFFFFF, 0x00000000, 0x00000000, .app⟩,
  ⟨"CAN1_FID", 0x4000D100, 8, 16, 0x00000000, 0xDFFFFFFF, 0x00000000, 0x00000000, .app⟩,
  ⟨"CAN2_FID", 0x4000E100, 8, 16, 0x00000000, 0xDFFFFFFF, 0x00000000, 0x00000000, .app⟩,
  ⟨"CAN3_FID", 0x4000F100, 8, 16, 0x00000000, 0xDFFFFFFF, 0x00000000, 0x00000000, .app⟩,
  ⟨"CAN0_FMSK", 0x4000C104, 8, 16, 0x00000000, 0x1FFFFFFF, 0x00000000, 0x00000000, .app⟩,
  ⟨"CAN1_FMSK", 0x4000D104, 8, 16, 0x00000000, 0x1FFFFFFF, 0x00000000, 0x00000000, .app⟩,
  ⟨"CAN2_FMSK", 0x4000E104, 8, 16, 0x00000000, 0x1FFFFFFF, 0x00000000, 0x00000000, .app⟩,
  ⟨"CAN3_FMSK", 0x4000F104, 8, 16, 0x00000000, 0x1FFFFFFF, 0x00000000, 0x00000000, .app⟩,
  ⟨"LIN0_CFG", 0x40010000, 4, 1, 0x00000CB2, 0xB000FFFF, 0x00000000, 0x00000000, .app⟩,
  ⟨"LIN1_CFG", 0x40011000, 4, 1, 0x00000CB2, 0xB000FFFF, 0x00000000, 0x00000000, .app⟩,
  ⟨"LIN0_EVT", 0x40010004, 4, 1, 0x00000000, 0x00000000, 0x0000001F, 0x00000000, .app⟩,
  ⟨"LIN1_EVT", 0x40011004, 4, 1, 0x00000000, 0x00000000, 0x0000001F, 0x00000000, .app⟩,
  ⟨"LIN0_IE", 0x40010008, 4, 1, 0x00010000, 0x001F001F, 0x00000000, 0x00000000, .app⟩,
  ⟨"LIN1_IE", 0x40011008, 4, 1, 0x00010000, 0x001F001F, 0x00000000, 0x00000000, .app⟩,
  ⟨"LIN0_STAT", 0x4001000C, 4, 1, 0x00000000, 0x00000000, 0x00000000, 0x00000000, .app⟩,
  ⟨"LIN1_STAT", 0x4001100C, 4, 1, 0x00000000, 0x00000000, 0x00000000, 0x00000000, .app⟩]

/-- The registers of chapter 20. -/
def regs20 : List RegDef := [
  ⟨"ADIT_CFG", 0x4000A000, 4, 1, 0x0032323A, 0xC0FFFFFF, 0x00000000, 0x00000000, .appField⟩,
  ⟨"ADIT_STAT", 0x4000A004, 4, 1, 0x00000000, 0x00000000, 0x00000000, 0x00000000, .appField⟩,
  ⟨"ADIT_EVT", 0x4000A008, 4, 1, 0x00000000, 0x00000000, 0xFFFF0003, 0x00000000, .appField⟩,
  ⟨"ADIT_IE", 0x4000A00C, 4, 1, 0x00000000, 0xFFFF0003, 0x00000000, 0x00000000, .appField⟩,
  ⟨"ADIT_ROUTE", 0x4000A010, 4, 1, 0x00000010, 0x0000001F, 0x00000000, 0x00000000, .appField⟩,
  ⟨"ADIT_POS", 0x4000A020, 4, 8, 0x00000000, 0x00000000, 0x00000000, 0x00000000, .appField⟩,
  ⟨"ADIT_WAKE", 0x4000A040, 4, 1, 0x00000000, 0x00000000, 0x00000001, 0x00000000, .appField⟩]

/-- The registers of chapter 21. -/
def regs21 : List RegDef := [
  ⟨"HOSTIF_SEL", 0x4001B000, 4, 1, 0x00000000, 0x00000000, 0x00000000, 0x00000000, .hostApp⟩,
  ⟨"HOSTIF_EVT", 0x4001B004, 4, 1, 0x00000000, 0x00000000, 0x0000003F, 0x00000000, .hostApp⟩,
  ⟨"HOSTIF_IVEC", 0x4001B008, 4, 1, 0x00000000, 0x00031F1F, 0x00000000, 0x00000000, .hostApp⟩,
  ⟨"HOSTIF_PEND", 0x4001B00C, 4, 1, 0x00000000, 0x00000000, 0xFFFFFFFF, 0x00000000, .hostApp⟩,
  ⟨"HOSTIF_PMASK", 0x4001B010, 4, 1, 0x00000000, 0xFFFFFFFF, 0x00000000, 0x00000000, .hostApp⟩,
  ⟨"HOSTIF_OB_LO", 0x4001B020, 4, 1, 0x00000000, 0xF0000000, 0x00000000, 0x00000000, .hostApp⟩,
  ⟨"HOSTIF_OB_HI", 0x4001B024, 4, 1, 0x00000000, 0xFFFFFFFF, 0x00000000, 0x00000000, .hostApp⟩,
  ⟨"HOSTIF_UART_BAUD", 0x4001B030, 4, 1, 0x00021DAB, 0x00FFFFFF, 0x00000000, 0x00000000, .hostApp⟩,
  ⟨"HOSTIF_SPI_LAST", 0x4001B034, 4, 1, 0x00000000, 0x00000000, 0x00000000, 0x00000000, .hostApp⟩,
  ⟨"HOSTIF_RESCUE", 0x4001B040, 4, 1, 0x00000000, 0x00000000, 0x00000000, 0x00000000, .hostApp⟩,
  ⟨"HOSTIF_RESCUE_STAT", 0x4001B044, 4, 1, 0x0000000F, 0x00000000, 0x00000000, 0x00000000, .hostApp⟩]

/-- The registers of chapter 22. -/
def regs22 : List RegDef := [
  ⟨"PWR_RESET_CAUSE", 0x40001000, 4, 1, 0x00000001, 0x00000000, 0x00000000, 0x00000000, .appKiln⟩,
  ⟨"PWR_OFF_CAUSE", 0x40001004, 4, 1, 0x00000000, 0x00000000, 0x000000FF, 0x00000000, .appKiln⟩,
  ⟨"PWR_RESET_REQ", 0x40001008, 4, 1, 0x00000000, 0x00000000, 0x00000000, 0x00000000, .appKiln⟩,
  ⟨"PWR_WDT_CFG", 0x4000100C, 4, 1, 0x000003E8, 0x0000FFFF, 0x00000000, 0x80000000, .appKiln⟩,
  ⟨"PWR_WDT_KICK", 0x40001010, 4, 1, 0x00000000, 0x00000000, 0x00000000, 0x00000000, .appKiln⟩,
  ⟨"PWR_TAMPER", 0x40001014, 4, 1, 0x00000000, 0x00000000, 0x00000000, 0x00000001, .appKiln⟩,
  ⟨"PWR_WAKE_EN", 0x40001028, 4, 1, 0x0000000F, 0x0000001F, 0x00000000, 0x00000000, .appKiln⟩,
  ⟨"PWR_WAKE_SRC", 0x4000102C, 4, 1, 0x00000000, 0x00000000, 0x0000003F, 0x00000000, .appKiln⟩,
  ⟨"PWR_WAKE_RTC", 0x40001030, 4, 1, 0x00000000, 0xFFFFFFFF, 0x00000000, 0x00000000, .appKiln⟩,
  ⟨"PWR_BANK_TIME", 0x40001034, 4, 1, 0x00000000, 0x00000000, 0x00000000, 0x00000000, .appKiln⟩]

/-- The registers of chapter 23. -/
def regs23 : List RegDef := [
  ⟨"ASSAY_CTL", 0x40019000, 4, 1, 0x00000000, 0x00000000, 0x00000000, 0x00000000, .appHost⟩,
  ⟨"ASSAY_STAT", 0x40019004, 4, 1, 0x00000000, 0x00000000, 0x000000A0, 0x00000000, .nobody⟩,
  ⟨"ASSAY_FREEZE_TB_LO", 0x40019008, 4, 1, 0x00000000, 0x00000000, 0x00000000, 0x00000000, .nobody⟩,
  ⟨"ASSAY_FREEZE_TB_HI", 0x4001900C, 4, 1, 0x00000000, 0x00000000, 0x00000000, 0x00000000, .nobody⟩,
  ⟨"ASSAY_FREEZE_RTC", 0x40019010, 4, 1, 0x00000000, 0x00000000, 0x00000000, 0x00000000, .nobody⟩,
  ⟨"ASSAY_THAW_RTC", 0x40019014, 4, 1, 0x00000000, 0x00000000, 0x00000000, 0x00000000, .nobody⟩,
  ⟨"ASSAY_ID", 0x40019018, 4, 1, 0x10960563, 0x00000000, 0x00000000, 0x00000000, .nobody⟩,
  ⟨"ASSAY_IGNORED", 0x4001901C, 4, 1, 0x00000000, 0x00000000, 0x00000000, 0x00000000, .nobody⟩]

/-- Every control register of the device. -/
def regTable : List RegDef :=
  regs02 ++ regs03 ++ regs06 ++ regs07 ++ regs08 ++ regs09 ++ regs10 ++ regs11 ++ regs12 ++ regs13 ++ regs14 ++ regs15 ++ regs16 ++ regs17 ++ regs18 ++ regs19 ++ regs20 ++ regs21 ++ regs22 ++ regs23

/-- Whether an address is one of a row's. -/
def RegDef.has (d : RegDef) (a : Nat) : Bool :=
  d.base ≤ a && a < d.base + d.stride * d.count && (a - d.base) % d.stride == 0

/-- The register at an address, where there is one (R265). -/
def regDef? (a : Nat) : Option RegDef := regTable.find? (fun d => d.has a)

/-- A register banked per requester is held under its address plus this many times the requester's number. -/
def bankStride : Nat := 2 ^ 32

/-- The registers of which each requester has its own (R266, R422, R528, R1065). -/
def banked (a : Nat) : Bool :=
  a == rCPRIV_CACHE || a == rFRONT_ARG || a == rFRONT_RES || a == rFRONT_QSEL ||
  a == rHOSTIF_EVT || a == rHOSTIF_IVEC || a == rHOSTIF_PEND || a == rHOSTIF_PMASK

/-- The reset value of the register held under a key; cage 7 differs from the other cages. -/
def regReset (k : Nat) : Word :=
  let a := k % bankStride
  if a == rFRONT_CAGE + 28 then 0x80640000 else ((regDef? a).map RegDef.reset).getD 0

end Sys2Proof.Machine
end

