-- ==== Sys2Proof/Machine/State.lean ====
section
/-! DEFINITION. The state of the device as plain data, the reasons a command can stop, and the state after reset.
Every control register is held in `regs` under its address (Machine/Regs.lean gives each its reset value); what is not a
register has a field of its own in the block it belongs to. -/
namespace Sys2Proof.Machine

/-! ### Modes, time and power (02, 03, 22, 23) -/

/-- The twelve modes, in the order of R20. -/
inductive Mode where
  | off | scan | factory | unmated | parked | banked | approach | access | drive | service | quenched | lockdown
  deriving DecidableEq, Repr

/-- The mode code of R87. -/
def Mode.code : Mode → Nat
  | .off => 1 | .scan => 2 | .factory => 3 | .unmated => 4 | .parked => 5 | .banked => 6
  | .approach => 7 | .access => 8 | .drive => 9 | .service => 10 | .quenched => 11 | .lockdown => 12

/-- The code of a mode field, 0x0 for none (R87). -/
def modeCode : Option Mode → Nat
  | none => 0
  | some m => m.code

/-- The mode machine (R56 to R113). -/
structure Sys where
  /-- SYS_MODE.MODE -/
  mode : Mode
  /-- SYS_MODE.PREV, none after reset -/
  prev : Option Mode
  /-- SYS_MODE.BANK_FROM, none until the first BANK entry -/
  bankFrom : Option Mode
  /-- SYS_MODE.MATED -/
  mated : Bool
  /-- SYS_MODE_CAUSE.CAUSE (R91) -/
  cause : Nat
  /-- SYS_LOCK_CAUSE [4:0] (R92) -/
  lockCause : BitVec 5
  /-- SYS_SESSION.ACTIVE: the open sessions -/
  active : BitVec 8
  /-- the access grants: session and the tick at which the Kiln set it (R60) -/
  grants : Assoc Nat
  /-- the tick at which the approach timeout expires (R67, R68) -/
  approachEnd : Option Nat
  /-- the RTC count at which the service token's validity ends (R58, R70) -/
  tokenEnd : Option Nat
  /-- a mode-record write that waits for the ledger port (R57, R403) -/
  recordWanted : Bool
  /-- the lockdown causes held when a recovery write started (R100) -/
  recovering : Option (BitVec 5)
  /-- the entry to SCAN, for the 100 ms of R63 -/
  scanFrom : Nat
  /-- the boot ROM has chosen an image or the rescue loader (R62) -/
  imageChosen : Bool
  deriving DecidableEq, Repr

/-- Timebase and RTC (R128 to R135). -/
structure Clock where
  /-- TB_NOW -/
  tb : Nat
  /-- the 6-bit remainder of R130 -/
  rem : Nat
  /-- the 48-bit RTC count -/
  rtc : Nat
  /-- the part of an RTC period that idle ticks have passed, in 64ths of a tick (log entry 2) -/
  frac : Nat
  /-- the RTC crystal oscillator runs (R1142) -/
  rtcRuns : Bool
  /-- the timebase runs: not in BANKED, not frozen, not out of lock -/
  running : Bool
  /-- the RTC count at which lock was lost, while it is lost (R133) -/
  unlockedAt : Option Nat
  /-- the RTC count at which lock came back during the reset of R133 -/
  relockedAt : Option Nat
  deriving DecidableEq, Repr

/-- A reset that has been requested and not yet entered SCAN (R1080, R1082). -/
structure ResetReq where
  cause : Nat
  detail : Nat
  /-- RTC count of the request -/
  since : Nat
  deriving DecidableEq, Repr

/-- Supplies, resets, BANKED entry and wake (22). -/
structure Pwr where
  /-- the always-on domain holds its state (R1076) -/
  aon : Bool
  /-- valid supplies: bit 0 VBAT, 1 VDDIO_H, 2 VDDIO_V, 3 VDDA_RF (R1071) -/
  valid : BitVec 4
  /-- VBAT is below 9.0 V, with its hysteresis (R609) -/
  vbatLow : Bool
  resetReq : Option ResetReq
  /-- the tick from which the watchdog counts (R1084) -/
  wdtFrom : Option Nat
  /-- core 0's BANK is past its checks and T05 has not committed (R1087) -/
  entering : Bool
  /-- the RTC count of the commit of T05, until the completion of entry (R1087) -/
  t05At : Option Nat
  /-- the captured RTC count of the completion of entry (R1087, R1094) -/
  entryRtc : Option Nat
  /-- wake sources presented and not yet taken by a wake event (R1088, R1089) -/
  heldSrc : BitVec 6
  /-- the RTC count of the wake event, while the fixed wake runs (R1092) -/
  wakeAt : Option Nat
  /-- a wake was started by a reset request made after T05 (R1101) -/
  resetWake : Option ResetReq
  /-- the tick of the last buck step or of the write that set TARGET (R124, R125) -/
  buckAt : Nat
  deriving DecidableEq, Repr

/-- Quench, assay and the 1149.1 port (23). The ASSAY registers are held in `regs`. -/
structure Assay where
  /-- the QUENCH ball is low -/
  ballLow : Bool
  /-- a freeze has begun and has not reached its coherent stop (R1112, R1113) -/
  freezing : Bool
  /-- the sources of the freeze that begins: bit 1 ball, 2 ASSAY_CTL, 3 1149.1 (as ASSAY_STAT places them) -/
  srcs : BitVec 4
  /-- the freeze began while a reset waited to enter SCAN, which it then does at the thaw (R1107) -/
  holdsReset : Bool
  /-- a thaw waits for the timebase to relock: the RTC count of the THAW (R1129) -/
  thawAt : Option Nat
  /-- the latch of the always-on wake logic for falling edges in BANKED (R1110) -/
  bankLatch : Bool
  /-- the instruction register of the port (R1118) -/
  ir : Nat
  /-- the chain that SEL chose (R1124) -/
  chain : Nat
  /-- ADDR: granule address and count (R1118) -/
  addr : Nat
  count : Nat
  /-- the address shifted into REG before (R1118) -/
  regAddr : Nat
  /-- the boundary register (R1118, R1168) -/
  boundary : List Bool
  /-- what the last shift delivered, least significant bit first -/
  shiftOut : List Bool
  deriving DecidableEq, Repr

/-! ### Cores and channels (04, 05) -/

/-- A blocked instruction of a core: what it still has to do (R208 to R228). -/
inductive Blocked where
  | snd (ch : Nat) (w : Word) (eom : Bool)
  | rcv (ch : Nat) (rd : Fin 16)
  | waite (rd : Fin 16) (mask : BitVec 16) (keep : Bool)
  | tat (ch : Nat) (w : Word) (eom : Bool) (target : Word)
  | tmark (rd : Fin 16) (target : Word) (late : Bool)
  /-- an SND whose acknowledge the ledger port withholds (R371, R401) -/
  | ledgerAck
  deriving DecidableEq, Repr

/-- What a core is doing. -/
inductive Run where
  /-- held in reset -/
  | reset
  | running
  | blocked (b : Blocked)
  /-- a load, a store or a fetch whose target withholds its acknowledge; the instruction word (R345, R377, R1114) -/
  | stalled (word : Word)
  /-- stopped in BANK (R245) -/
  | banked
  deriving DecidableEq, Repr

/-- One core: the programmer's model of R148 to R151 and the control registers of R236. -/
structure Core where
  /-- g0 to g15; g0 holds 0 (R148) -/
  g : Vector Word 16
  /-- FLG: V C N Z (R150) -/
  flg : BitVec 4
  pc : Word
  cstat : Word
  cvec : Word
  cepc : Word
  ccause : Word
  cbad : Word
  /-- the TIMER compare, armed while cstat.TARM is 1 (R238) -/
  cmp : Word
  /-- the compare was written for a tick that had passed (R238) -/
  cmpLate : Bool
  /-- the event latch E (R214) -/
  e : BitVec 16
  run : Run
  deriving DecidableEq, Repr

/-- A word in a channel: its end-of-message bit, the tick on which it entered and that tick's 1024ths (R199, R225). -/
structure ChWord where
  w : Word
  eom : Bool
  tick : Nat
  fine : Nat
  deriving DecidableEq, Repr

/-- A channel of up to four words (R199), with the words a device port still has to send into it. -/
structure Chan where
  q : List ChWord
  back : List (Word × Bool)
  /-- the stamp of the word last taken, since the last core reset or wake (R225, R227) -/
  taken : Option (Nat × Nat)
  deriving DecidableEq, Repr

/-- A word waiting in a timed queue for its target tick (R222). -/
structure TimedWord where
  w : Word
  eom : Bool
  target : Word
  /-- the target had passed on arrival: applied at the first tick after it (R223) -/
  late : Bool
  /-- tick of arrival -/
  arrived : Nat
  deriving DecidableEq, Repr

/-- Channels of the device. Keys are given by chanKey. -/
structure Chans where
  ch : Assoc Chan
  timed : Assoc (List TimedWord)
  /-- engines whose ports are flushed; 0x100 + n for the CORE engine of core n (R212) -/
  flushed : List Nat
  deriving DecidableEq, Repr

/-! ### Memory, caches, XLATE (06) -/

/-- The states a data-cache line can be in; INVALID lines are not listed (R287). -/
inductive LineState where
  | shared | exclusive | modified
  deriving DecidableEq, Repr

/-- One line of a data cache (R285). -/
structure Line where
  addr : Nat
  way : Nat
  st : LineState
  data : Bytes
  /-- the line holds an uncorrectable error (R314) -/
  bad : Bool
  /-- the line holds a one-bit error (06, after R277) -/
  flip : Bool
  deriving DecidableEq, Repr

/-- A translation held by XLATE (R302): the page number of the device virtual address and the level-2 entry. -/
structure TlbEntry where
  ctx : Nat
  page : Nat
  l2 : Word
  deriving DecidableEq, Repr

/-- Memory outside the cores: bytes of SRAM, flash and Kiln SRAM in one table, and what the caches hold of them. -/
structure Memory where
  /-- every byte that differs from what an unlisted address reads as -/
  cells : List Host.Cell
  /-- the granules that answer reads with an error (R274, R275) -/
  badGranules : List Nat
  /-- the granules that hold a one-bit error, which the next read corrects (R273) -/
  flips : List Nat
  /-- the data caches, most recently used line first -/
  dcache : Vector (List Line) 6
  /-- the instruction caches, whose lines are INVALID or SHARED, in the same order -/
  icache : Vector (List Line) 6
  tlb : List TlbEntry
  /-- an XLATE invalidation waits for the walks begun before it (R308) -/
  xlateBusy : Bool
  /-- the granule the scrubber reads next, and the tick of its last read (R277) -/
  scrubPos : Nat
  scrubAt : Nat
  /-- the lowest address of the SRAM that an entry to SCAN or a wake is clearing, until INIT_DONE (R281, R282) -/
  clearing : Option Nat
  /-- bytes the device wrote through the PCIe outbound window, keyed by host address -/
  host : List Host.Cell
  deriving DecidableEq, Repr

/-! ### Code flash (07) -/

/-- A PROGRAM or ERASE that FLASH_STAT.BUSY shows (R337). -/
inductive FlashRun where
  | program (addr src len : Nat)
  | erase (sector : Nat)
  deriving DecidableEq, Repr

/-- The FLASH block beside its registers. -/
structure Flash where
  /-- sectors whose erase-intent marker is set (R340) -/
  markers : List Nat
  /-- sectors marked TORN (R326, R327) -/
  torn : List Nat
  running : Option FlashRun
  /-- a SUSPEND is taking effect (R1184) -/
  suspending : Bool
  suspended : Bool
  /-- QUENCH suspended the running erase, which resumes at thaw (R356) -/
  frozen : Bool
  deriving DecidableEq, Repr

/-! ### Ledger (08) -/

/-- What a ledger write goes to: a copy of a record, or a quick unit. -/
inductive LedgerTarget where
  | copy (rec k : Nat)
  | unit (u : Nat)
  deriving DecidableEq, Repr

/-- Who asked the ledger port for a write (R372, R403). -/
inductive LedgerFor where
  /-- the mode machine, for the mode record -/
  | modeRecord
  /-- the Kiln core through DIN and CTRL words -/
  | channel
  /-- the Kiln runtime, for the operation it performs -/
  | job
  deriving DecidableEq, Repr

/-- A write that has begun its first step (R368, R376). -/
structure LedgerWrite where
  target : LedgerTarget
  bytes : Bytes
  asked : LedgerFor
  deriving DecidableEq, Repr

/-- The ledger array and its port. -/
structure Ledger where
  /-- 480 copies of 256 bytes: key 2 × record + copy (R360); an unlisted copy is erased -/
  copies : Assoc Bytes
  /-- the 256 quick units; an unlisted unit reads 0x00 (R378) -/
  units : Assoc Bytes
  /-- torn quick units (R378) -/
  tornUnits : List Nat
  writing : Option LedgerWrite
  /-- a write operation accepted on CTRL that collects its DIN words: OP, or 0xA for a WRITE that came in a scan and ends
  LEDGER_BUSY (R402), record or unit, words so far (R400) -/
  collecting : Option (Nat × Nat × List Word)
  /-- a channel write whose words are complete and that waits at the arbiter (R372) -/
  waiting : Option (Nat × Nat × List Word)
  /-- a scan or rescan runs since this tick (R382, R406) -/
  scanFrom : Option Nat
  /-- a rescan waits for the running write (R417) -/
  rescanWanted : Bool
  /-- a write that was verified, or failed, while the device was frozen, and whose acknowledge waits for the thaw (R414) -/
  ackDue : Option (LedgerWrite × Bool)
  deriving DecidableEq, Repr

/-! ### Command front end (09, 10) -/

/-- The states of a queue; a FREE queue is not listed (R420). -/
inductive QState where
  | idle | ready | waiting | running | stopped | guilty
  deriving DecidableEq, Repr

/-- The code of a queue state (R420). -/
def QState.code : QState → Nat
  | .idle => 1 | .ready => 2 | .waiting => 3 | .running => 4 | .stopped => 5 | .guilty => 6

/-- A command past stages 1 and 2: its descriptor, its count and how it ended, when a stage failed it (R472). -/
structure Fetched where
  desc : Bytes
  index : Nat
  /-- status and stage of the failure that takes effect at its turn (R473) -/
  failed : Option (Nat × Nat)
  deriving DecidableEq, Repr

/-- A queue that is not FREE: its setup (R428), its counts and its marks. -/
structure Queue where
  st : QState
  /-- owner code (R418) -/
  owner : Nat
  critical : Bool
  ring : Nat
  tally : Nat
  /-- XLATE context, 0xFF for physical addresses -/
  ctx : Nat
  /-- log2 of the ring entries -/
  size : Nat
  group : Nat
  msi : Nat
  tmo : Nat
  waitTmo : Nat
  cage : Nat
  /-- a Q_BIND that takes effect at the next command boundary (R463) -/
  bindTo : Option Nat
  stopReason : Nat
  /-- a Q_STOP waits for the dispatched command's tally (R481) -/
  stopping : Bool
  head : Nat
  tail : Nat
  /-- the poll register (R503) -/
  poll : Nat
  timeouts : Nat
  lateDiscard : Nat
  /-- the tick at which the queue began to wait on its HEAD command (R456) -/
  waitFrom : Option Nat
  /-- the HEAD command on which the queue waits, as its last fetch read it (R455, R456) -/
  held : Option Fetched
  /-- a guilty-queue reset that has begun: the hung engine, and TAIL at step 1 (R517) -/
  guilty : Option (Nat × Nat)
  deriving DecidableEq, Repr

/-- A registered buffer (R443). -/
structure Buffer where
  owner : Nat
  base : Nat
  len : Nat
  ctx : Nat
  access : Nat
  deriving DecidableEq, Repr

/-- The states of an edge that is not FREE (R451). -/
inductive EdgeState where
  | armed | ok | fail
  deriving DecidableEq, Repr

structure Edge where
  st : EdgeState
  owner : Nat
  shared : Bool
  deriving DecidableEq, Repr

/-- A dispatched command (R474). -/
structure Dispatched where
  queue : Nat
  index : Nat
  desc : Bytes
  engine : Nat
  image : Nat
  /-- TB_NOW at the send, and at the expiry of the timeout (R506) -/
  sentAt : Nat
  expiry : Nat
  /-- the START block has reported that it withheld this command's ANSWER (R935) -/
  withheld : Bool
  deriving DecidableEq, Repr

/-- A cage (R462 to R474). -/
structure Cage where
  queue : Option Nat
  /-- the queue that held the cage last (R466) -/
  last : Nat
  sliceEnd : Nat
  /-- the command that the cage has fetched and not yet dispatched; true when it waits for its engine's grant -/
  cur : Option (Fetched × Bool)
  disp : Option Dispatched
  preload : Option (Nat × Fetched)
  /-- the image slot used next -/
  slot : Nat
  deriving DecidableEq, Repr

/-- A cancelled command whose engine drains (R515, R516): the cancellation tick, the queue, its class and whether its
late success has been counted (R512). -/
structure Draining where
  since : Nat
  queue : Nat
  critical : Bool
  counted : Bool
  /-- the hang of this cancellation has been acted on (R517, R518) -/
  hung : Bool
  deriving DecidableEq, Repr

/-- An engine as the front end sees it. Engine numbers are the IDs of R440; CORE of target n is 0x10 + n. -/
structure Engine where
  /-- the cage of its dispatched command -/
  cage : Option Nat
  /-- lower-level attempts started for the command (R500) -/
  attempts : Nat
  draining : Option Draining
  /-- the cage last granted it (R469) -/
  lastCage : Nat
  /-- the queue of a cancelled command whose attempt may run on after the drain, until it succeeds or another starts (R512) -/
  late : Option Nat
  deriving DecidableEq, Repr

structure Front where
  queues : Assoc Queue
  buffers : Assoc Buffer
  bufGen : Assoc Nat
  edges : Assoc Edge
  edgeGen : Assoc Nat
  cages : Vector Cage 8
  engines : Assoc Engine
  /-- FRONT_STAT.HELD (R479) -/
  held : Bool
  /-- what Q_DESTROY leaves of a queue until a Q_CREATE of its number: the poll register, TIMEOUTS and LATE_DISCARD (R503,
  R529) -/
  past : Assoc (Nat × Nat × Nat)
  deriving DecidableEq, Repr

/-! ### Acquisition (11) -/

/-- A run of one ADC entry; entry 16 is the injected one. Sample instants are numbered on the grid of R539: instant i lies
39 i / 100 ticks after tick 0. -/
structure AdcRun where
  entry : Nat
  range : Nat
  /-- the next sample instant -/
  pos : Nat
  /-- a sample has been converted since the entry started or resumed -/
  begun : Bool
  /-- samples still to discard (R555) -/
  settle : Nat
  /-- results of this entry's run so far -/
  made : Nat
  /-- the result in progress: sum of NORM, samples, SEAM, CLIP, GAP (R556) -/
  sum : Int
  got : Nat
  seam : Bool
  clip : Bool
  gap : Bool
  /-- a range decision: the instant at which it takes effect and the new range (R549) -/
  switchAt : Option (Nat × Nat)
  /-- rounds in a row with every sample below 448 in the present range, and whether the present round is one (R548) -/
  quiet : Nat
  quietNow : Bool
  /-- a sample converted since a seam has not yet reached a result -/
  seamDue : Bool
  /-- the seam of a resumption waits for the first sample that is not discarded (R568) -/
  seamKept : Bool
  /-- a marker is due before the next result; true when it is RESUMED (R578) -/
  marker : Option Bool
  deriving DecidableEq, Repr

structure Adc where
  seq : Option AdcRun
  inj : Option AdcRun
  /-- the slice boundary at which a STOP ends the sequence (R565) -/
  stopAt : Option Nat
  /-- the range in which each entry ended its last pass (R546), and the rounds in a row that it then counted (R548) -/
  ranges : List Nat
  quiets : List Nat
  /-- an edge on ADC_TRIG on its way: the tick at which the ADC receives it, and whether it rises (R562) -/
  trigAt : Option (Nat × Bool)
  /-- band states: bit n is 1 while entry n is OUTSIDE, bit 16 the injected entry (R574) -/
  outside : BitVec 17
  /-- results of the pass so far -/
  results : Nat
  /-- a record was dropped since the last sample record (R581) -/
  dropped : Bool
  /-- the tick of EN from 0 to 1, for READY -/
  enAt : Nat
  /-- the tick from which convergence is counted (R553) -/
  convFrom : Option Nat
  /-- the corrector's 36 coefficients: offset, gain and skew of each slice in each range -/
  coeffs : List Word
  deriving DecidableEq, Repr

def Adc.reset : Adc := ⟨none, none, none, List.replicate 16 0, List.replicate 16 0, none, 0, 0, false, 0, none, List.replicate 36 0⟩


/-! ### LF and CAP (12) -/

/-- A telegram or a carrier that runs. -/
structure LfRun where
  ch : Nat
  /-- chip count N -/
  n : Nat
  /-- a telegram, whose chips come from DIN -/
  telegram : Bool
  /-- the tick of the first chip (R612) -/
  t0 : Nat
  /-- values latched at the start (R643) -/
  freq : Nat
  chip : Nat
  mw : Nat
  skip : Nat
  /-- the chips that have begun -/
  next : Nat
  /-- the DIN word in use -/
  word : Word
  /-- the DIN word with EOM has been taken -/
  eom : Bool
  /-- the tick since which the carrier has been on (R615) -/
  onSince : Option Nat
  /-- the chip boundary at which the carrier last went off -/
  offAt : Option Nat
  /-- the carrier period at which the present measurement window starts, 0 being the first of the run (R620) -/
  winFrom : Nat
  /-- a cancellation ends the run at the next chip boundary (R619) -/
  stopping : Bool
  /-- the run has come to its end with this status and waits for its report (R618) -/
  ended : Option Nat
  deriving DecidableEq, Repr

structure Lf where
  run : Option LfRun
  /-- DIN words are discarded up to the word with EOM (R614) -/
  discard : Bool
  /-- measurements in a row with |PHASE| above TOL, for each channel (R627) -/
  detune : Vector Nat 6
  deriving DecidableEq, Repr

def Lf.reset : Lf := ⟨none, false, Vector.replicate 6 0⟩

/-- One capacitive channel beside its registers. -/
structure CapChan where
  /-- no measurement since power-up or since EN went to 1 (R635) -/
  fresh : Bool
  deb : Nat
  stuck : Nat
  deriving DecidableEq, Repr

/-- A scan that runs (R632). -/
structure CapScan where
  /-- the channels still to be measured, the present one first -/
  left : List (Fin 8)
  /-- what each of the eight channels measures -/
  raw : List (BitVec 16)
  /-- the RTC count at which the present measurement ends -/
  endsAt : Nat
  /-- a carrier has been on during the present measurement (R637, R652) -/
  hit : Bool
  deriving DecidableEq, Repr

structure Cap where
  chans : Vector CapChan 8
  /-- the RTC count of the last scan -/
  lastScan : Option Nat
  scan : Option CapScan
  /-- the RTC count of the last touches outside BANKED on channels with WAKE at 1, and those channels (R650) -/
  touched : Option (Nat × BitVec 8)
  deriving DecidableEq, Repr

def Cap.reset : Cap := ⟨Vector.replicate 8 ⟨true, 0, 0⟩, none, none, none⟩


/-! ### UHF (13) and ranging (14) -/

/-- A frame that the UHF receiver receives, or that waits for its header to be due (R692 to R694). -/
structure UhfRx where
  ch : Nat
  /-- payload and CRC -/
  bytes : Bytes
  /-- the tick at which its last bit ends -/
  endAt : Nat
  power : BitVec 8
  fine : Nat
  deriving DecidableEq, Repr

/-- The UHF receiver beside its registers: the tick of EN from 0 to 1, and the frames on their way to DOUT. -/
structure Uhf where
  enAt : Nat
  rx : List UhfRx
  deriving DecidableEq, Repr

def Uhf.reset : Uhf := ⟨0, []⟩

/-- A loaded rapid-bit-exchange set (R713). -/
structure RbeSet where
  session : Nat
  ta : Nat
  chal : Bytes
  zero : Bytes
  one : Bytes
  /-- the tick of the LOAD -/
  at_ : Nat
  deriving DecidableEq, Repr

/-- A loaded STS key and IV (R713). -/
structure StsSet where
  session : Nat
  key : Bytes
  iv : Bytes
  at_ : Nat
  deriving DecidableEq, Repr

/-- What runs in the RANGE hardware (R743). -/
inductive RangeKind where
  | rbe (set : RbeSet)
  | round (set : StsSet)
  | lf (gen : Nat)
  | cal (set : RbeSet)
  deriving DecidableEq, Repr

structure RangeRun where
  kind : RangeKind
  /-- 1 for START -/
  purpose : Nat
  session : Nat
  /-- tick t of its CTRL word -/
  t0 : Nat
  port : Nat
  /-- STOP, QUENCH or a freeze ended it at this tick (R745, R750) -/
  aborted : Option Nat
  /-- the INIT frame sent, with its preamble code (R717) -/
  init : Option (Nat × Bytes)
  deriving DecidableEq, Repr

structure Range where
  rbe : Option RbeSet
  sts : Option StsSet
  /-- the message on channel 0x76 as far as it has come, and whether its EOM has (R713) -/
  load : List Word
  loadEom : Bool
  run : Option RangeRun
  deriving DecidableEq, Repr

def Range.reset : Range := ⟨none, none, [], false, none⟩


/-! ### BLE and NFC (15) -/

/-- An advertising set of the BLE controller, as far as R767 to R772 look at it. -/
structure AdvSet where
  handle : Nat
  enabled : Bool
  connectable : Bool
  /-- primary PHY: 1 LE 1M, 2 LE 2M, 3 LE Coded -/
  phy : Nat
  /-- the advertising interval, in units of 0.625 ms -/
  interval : Nat
  /-- in BANKED: the nominal time of the next advertising event, in 25ths of an RTC count (R771) -/
  nominal : Nat
  /-- the RTC count at which its last event in BANKED started -/
  lastAt : Option Nat
  deriving DecidableEq, Repr

structure Ble where
  /-- the transmit FIFO -/
  tx : List Word
  /-- the receive FIFO -/
  rx : List Word
  /-- packets that wait until all their words fit (R764) -/
  held : List (List Word)
  /-- the handles of the open connections -/
  conns : List Nat
  sets : List AdvSet
  /-- the sets that the last Mupor_Set_Bank_Advertising named -/
  bankSets : List Nat
  /-- the first event since the last reset has been placed (R766) -/
  started : Bool
  deriving DecidableEq, Repr

def Ble.reset : Ble := ⟨[], [], [], [], [], [], false⟩

/-- A TX word of the NFC engine from its acceptance to its STAT word. -/
structure NfcTx where
  word : Word
  bytes : Bytes
  /-- the tick at which its frame starts on the air, once that is fixed -/
  startAt : Nat
  /-- its frame has started -/
  begun : Bool
  /-- the tick at which the ADC first left NFC_RX since the frame ended (R779) -/
  gapAt : Option Nat
  /-- cancelled: its frame and response run to their end and send nothing (R787) -/
  silent : Bool
  deriving DecidableEq, Repr

structure Nfc where
  /-- the tick at which the field went on, while it is on -/
  onAt : Option Nat
  /-- the tick of the last FIELD_OFF that took effect, none before the first -/
  offAt : Option Nat
  /-- a FIELD_ON that waits (R781) -/
  waiting : Bool
  tx : Option NfcTx
  /-- the tick at which the last card frame ended, none before the first -/
  cardEnd : Option Nat
  /-- the last frame that was sent to its end, with the CRC that was appended (R778) -/
  air : Bytes
  deriving DecidableEq, Repr

def Nfc.reset : Nfc := ⟨none, none, false, none, none, []⟩

/-! ### Fuses, key slots and contexts (16) -/

/-- What a fuse field holds (R818, R824). -/
inductive FuseField where
  | unprogrammed
  /-- programmed without its commit bit, and never programmed again -/
  | torn
  /-- programmed by Mupor at test, with the unit's own value (Config) -/
  | maker
  | data (bs : Bytes)
  deriving DecidableEq, Repr

/-- What FUSE_WRITE or FUSE_CLOSE programs (R820). -/
inductive FuseRun where
  | bdAddr (bs : Bytes)
  | hash (copy : Fin 2) (bs : Bytes)
  | close
  deriving DecidableEq, Repr

structure Fuses where
  devSeed : FuseField
  devId : FuseField
  devCert : FuseField
  bdAddr : FuseField
  hashes : Vector FuseField 2
  /-- FACTORY_CLOSED is blown -/
  closed : Bool
  /-- programming runs (R823, R824) -/
  running : Option FuseRun
  deriving DecidableEq, Repr

/-- A key slot; it holds a key when `key` does (R807 to R811). -/
structure Slot where
  key : Option Bytes
  gen : Nat
  owner : Nat
  type : Nat
  use : Nat
  deriving DecidableEq, Repr

/-- An open cipher context (R835). -/
structure Ctx where
  owner : Nat
  mode : Nat
  /-- true when it encrypts or makes a MAC -/
  enc : Bool
  /-- the slot its key was loaded from -/
  slot : Nat
  key : Bytes
  iv : Bytes
  taglen : Nat
  aadlen : Nat
  /-- bytes of data so far -/
  len : Nat
  /-- chaining value, counter or MAC state -/
  chain : Bytes
  /-- the last block of a CMAC, which is masked only when the operation ends -/
  part : Bytes
  /-- the GHASH value -/
  hash : BitVec 128
  deriving DecidableEq, Repr

/-- How one AES block ran: its dummy rounds, the real round before which each stood, and the order of the byte positions in each
round (R839). -/
structure AesRun where
  places : List Nat
  orders : List (List Nat)
  deriving DecidableEq, Repr

structure Kiln where
  /-- an unlisted slot is empty with generation 1 -/
  slots : Assoc Slot
  /-- the open contexts by number -/
  ctxs : Assoc Ctx
  /-- saves since the start (R837) -/
  saveNo : Nat
  /-- the latest save of each context, until it is restored (R838) -/
  saves : Assoc (Nat × Ctx)
  /-- the key and USE that KLD last delivered to each KIN port -/
  kin : Assoc (Bytes × Nat)
  /-- the key that waits at each KOUT port -/
  kout : Assoc Bytes
  /-- the runtime is in private SRAM and its start-up is past (R802, R804) -/
  ready : Bool
  /-- how the last AES block of the CIPHER engine ran -/
  aesRun : Option AesRun
  /-- the masks of the last scalar multiplication: the multiple of n that blinds the scalar, and the projective Z (R841) -/
  pkaRun : Option (Nat × Nat)
  deriving DecidableEq, Repr


/-! ### Entropy source (17) -/

/-- The working state of the DRBG: Key and V (SP 800-90A). -/
structure Drbg where
  key : Bytes
  v : Bytes
  deriving DecidableEq, Repr

/-- What waits for the end of a known-answer test (R882). -/
inductive EntRequest where
  | restart
  | reseed
  /-- the values of PATTERN and ENT_PAT to store -/
  | pattern (on : Bool) (pat : Word)
  deriving DecidableEq, Repr

structure Ent where
  /-- the tick at which the run started, none while the source does not run -/
  runFrom : Option Nat
  /-- samples of the run so far -/
  n : Nat
  /-- the last sample -/
  last : Byte
  /-- consecutive equal samples up to the last one -/
  rct : Nat
  /-- the first sample of the present window of 512 and how often it has occurred -/
  aptFirst : Byte
  aptCount : Nat
  /-- samples since oscillator k last changed, up to 64 -/
  still : Vector Nat 8
  /-- samples since the XOR of pair i last changed, up to 256; pairs in the order (0,1), (0,2) to (6,7) -/
  locked : Vector Nat 28
  /-- a repetition or proportion failure in samples 1 to 1024 -/
  failed : Bool
  /-- bytes of the conditioner's present block and its chaining value -/
  gathered : Bytes
  /-- conditioner blocks since the last instantiation or reseed -/
  blocks : List Bytes
  drbg : Option Drbg
  /-- a reseed is requested or due (R866) -/
  reseedDue : Bool
  regBuf : List Word
  /-- a known-answer test runs; the engine command that waits for it -/
  katFor : Option (Option Nat)
  queued : List EntRequest
  deriving DecidableEq, Repr

def Ent.idle : Ent :=
  ⟨none, 0, 0, 0, 0, 0, Vector.replicate 8 0, Vector.replicate 28 0, false, [], [], none, false, [], none, []⟩


/-! ### Credentials, START and the ledger writes of an operation (18) -/

/-- An enrolment that ENROL_BEGIN opened (R899, R915). -/
structure Enrol where
  cls : Nat
  slot : Nat
  flags : Nat
  credId : Bytes
  makerPub : Bytes
  /-- the runtime slot of the transport key -/
  transport : Nat
  /-- the credential key that ENROL_KEY delivered (R690) -/
  newKey : Option Bytes
  /-- ENROL_ORIGIN has returned OK -/
  origin : Bool
  /-- a CRED_VERIFY that R900 asks for has returned OK -/
  proved : Bool
  deriving DecidableEq, Repr

/-- A booking ticket bound to a session (R908). -/
structure TicketBind where
  index : Nat
  id : Bytes
  rights : Nat
  /-- the runtime slot of K_AUTH -/
  slot : Nat
  deriving DecidableEq, Repr

/-- What the Kiln holds for a session. -/
structure KSession where
  nonce : Option Bytes
  /-- the credential and class of the last verification that returned OK (R894) -/
  verified : Option (Nat × Nat)
  /-- EID and VNONCE of the last verified RESPONSE with label 0x52, and the key it verified under (R674) -/
  vmac : Option (Bytes × Bytes)
  ticket : Option TicketBind
  enrol : Option Enrol
  deriving DecidableEq, Repr

def KSession.empty : KSession := ⟨none, none, none, none, none⟩

/-- A frame on a CAN bus (R963, R975). -/
structure CanFrame where
  /-- ID as a record holds it -/
  id : Word
  /-- FLAGS as a record holds them: [0] IDE, [1] FD, [2] XL, [3] BRS, [4] ESI, [5] RTR -/
  flags : BitVec 8
  sec : Bool
  af : Word
  data : Bytes
  deriving DecidableEq, Repr

/-- What an operation does once its ledger writes are verified, or once one has failed (R1185). -/
inductive Eff where
  /-- a DONE word on an engine's DONE port -/
  | done (engine : Nat) (w : Word)
  /-- bytes written through a buffer, then the DONE word: engine, context, address -/
  | bufDone (engine ctx addr : Nat) (bs : Bytes)
  /-- what the Kiln holds for a session, while it is open -/
  | session (sess : Nat) (k : KSession)
  /-- an access grant against a session (R59) -/
  | grant (sess : Nat)
  /-- a message on channel 0x76 (R713) -/
  | load (ws : List Word)
  | holdOff (cls : Nat)
  /-- vehicle time and the RTC count at which it had that value (R903) -/
  | vehicleTime (t rtc : Nat)
  /-- a key in a runtime slot -/
  | runtimeKey (slot : Nat) (key : Bytes)
  | zap (slot : Nat)
  /-- the token nonce is consumed (R917) -/
  | consume
  | service (seconds : Nat)
  /-- T20, unless a cause has come since; ends the TOKEN (R99, R100, R108) -/
  | recovery (seconds : Nat)
  | recoveryFailed
  | retire
  | revoked (sessions : List Nat) (mark : Bool)
  | bind (pos : Nat)
  | bound (pos : Nat)
  | untrust (pos : Nat)
  | satAuth (pos : Nat) (nonce : Bytes) (count : Nat)
  | satMateEnd (pos : Nat)
  /-- CRANK goes on, its CEIL raised and its roll settled (R943) -/
  | crank
  | rollSend
  | rollEnd
  | mated
  | mateEnd
  deriving DecidableEq, Repr

/-- One ledger write that an operation needs: a record's payload, or a quick unit. -/
inductive JobWrite where
  | record (rec : Nat) (body : Bytes)
  | unit (u : Nat) (bs : Bytes)
  deriving DecidableEq, Repr

/-- An operation of the Kiln runtime and the ledger writes it still needs. -/
structure Job where
  writes : List JobWrite
  effs : List Eff
  fail : List Eff
  deriving DecidableEq, Repr

structure Creds where
  sess : Assoc KSession
  tokenNonce : Option Bytes
  /-- the tick from which a class's hold-off counts (R897) -/
  holdFrom : Assoc Nat
  /-- vehicle time and the RTC count at which it had that value; none while it is unset (R903, R904) -/
  time : Option (Nat × Nat)
  /-- the RTC count of the last write of record 7 or of the start -/
  timeWritten : Nat
  /-- the next SCNT (R1001) -/
  scnt : Nat
  /-- nonce and SCNT that the last SAT_AUTH_REQ or key delivery gave for each position -/
  satAuth : Assoc (Bytes × Nat)
  /-- the ephemeral scalar of a satellite mating, by position (R1015) -/
  satMate : Assoc Nat
  /-- operations that wait for ledger writes, the first one first, and whether its first write runs -/
  jobs : List Job
  jobRuns : Bool
  deriving DecidableEq, Repr

/-- A CHALLENGE that the START block has taken (R927, R931): its bytes, the tick of its end, and whether it has been
used. -/
structure Challenge where
  bytes : Bytes
  tick : Nat
  used : Bool
  deriving DecidableEq, Repr

/-- A dispatched CRANK (R931 to R935). -/
structure CrankRun where
  dispatchedAt : Nat
  /-- the CHALLENGE it answers, and the counter value drawn -/
  chal : Option Challenge
  drawn : Option Nat
  /-- the key under which the CHALLENGE verified, and the record 3 payload that a roll it settles leaves to write -/
  key : Bytes
  settle : Option Bytes
  /-- the ANSWER is queued: whether it releases -/
  answered : Option Bool
  /-- its frame has left the bus -/
  sent : Bool
  deriving DecidableEq, Repr

/-- A dispatched ROLL_ENGINE whose ROLL has been sent (R940). -/
structure RollRun where
  /-- the bytes of the ROLL, empty while its first write runs -/
  frame : Bytes
  newKey : Bytes
  count : Nat
  sent : Nat
  sentAt : Nat
  /-- PEND is confirmed, and the second write runs -/
  confirmed : Bool
  deriving DecidableEq, Repr

/-- A dispatched MATE_ENGINE (R922, R923). -/
structure MateRun where
  rxid : Word
  txid : Word
  can : Nat
  /-- the ephemeral scalar -/
  scalar : Nat
  /-- the coordinates of the MATE_REPLY as they come -/
  x : Option Bytes
  y : Option Bytes
  /-- the tick of the last frame -/
  lastAt : Nat
  /-- the MATE_CONFIRM has verified, and the writes run -/
  confirmed : Option Bytes
  deriving DecidableEq, Repr

structure Start where
  chal : Option Challenge
  crank : Option CrankRun
  roll : Option RollRun
  mate : Option MateRun
  /-- the tick of the presence mark, while one exists -/
  markAt : Option Nat
  deriving DecidableEq, Repr

def Start.idle : Start := ⟨none, none, none, none, none⟩

/-! ### Vehicle networks (19) -/

/-- A frame in a transmit buffer. -/
structure CanTx where
  frame : CanFrame
  /-- transmissions started -/
  tries : Nat
  deriving DecidableEq, Repr

structure CanCtl where
  /-- the frame of the NET engine (TXB0) -/
  tx0 : Option CanTx
  /-- the frames of the START block (TXB1), the pending one first -/
  tx1 : List CanTx
  /-- the buffer whose frame is on the wire -/
  onWire : Option (Fin 2)
  /-- a recovery from bus-off runs -/
  recovering : Bool
  /-- bus-off was entered and no recovery has followed (R968) -/
  wasOff : Bool
  deriving DecidableEq, Repr

def CanCtl.idle : CanCtl := ⟨none, [], none, false, false⟩

/-- A LIN_MASTER command from its acceptance to its end (R972). -/
structure LinRun where
  dir : Nat
  checksum : Nat
  id : Nat
  n : Nat
  data : Bytes
  /-- the target of START_TICK, none for at once; then the tick at which the break started -/
  target : Option Word
  startAt : Nat
  /-- START_TICK had passed on arrival (R992) -/
  late : Bool
  begun : Bool
  /-- BUF1: context, address, length, ACCESS -/
  buf : Nat × Nat × Nat × Nat
  deriving DecidableEq, Repr

structure LinCtl where
  run : Option LinRun
  deriving DecidableEq, Repr

/-- A learned address (R960). -/
structure MacEntry where
  mac : Nat
  vid : Nat
  port : Nat
  seen : Nat
  deriving DecidableEq, Repr

/-- A frame in an egress queue: whole, without FCS, tagged as it leaves; the ETH_SEND it belongs to waits for it. -/
structure EthFrame where
  bytes : Bytes
  /-- it belongs to the running ETH_SEND -/
  ours : Bool
  /-- the header fields a receive record needs at port 4 -/
  ingress : Nat
  vid : Nat
  tick : Nat
  fine : Nat
  deriving DecidableEq, Repr

/-- A running ETH_SEND: copies still to leave and those that have left, the port of its timestamp and BUF1. -/
structure EthSend where
  left : Nat
  out : Nat
  ts : Option Nat
  buf : Nat × Nat × Nat × Nat
  stamp : Option (Nat × Nat)
  deriving DecidableEq, Repr

structure Net where
  can : Vector CanCtl 4
  lin : Vector LinCtl 2
  macs : List MacEntry
  /-- the egress queues: key 4 × port + queue; the frame that leaves first is first -/
  queues : Assoc (List EthFrame)
  eth : Option EthSend
  deriving DecidableEq, Repr

def Net.reset : Net := ⟨Vector.replicate 4 CanCtl.idle, Vector.replicate 2 ⟨none⟩, [], [], none⟩

/-! ### Adit (20) -/

/-- Why the ADIT hardware sends a frame. -/
inductive AditWhy where
  | heartbeat
  | probe
  /-- RESET_STATE after BIND (R1012) -/
  | rebind
  /-- a frame of the field core, through DIN -/
  | command
  /-- such a frame whose command has been cancelled: not sent again, and its reply goes nowhere (R510, R511) -/
  | cancelled
  deriving DecidableEq, Repr

/-- A frame on the line that waits for its reply (R996, R997). -/
structure AditReq where
  pos : Nat
  type : Nat
  payload : Bytes
  why : AditWhy
  /-- attempts made -/
  tries : Nat
  /-- the tick by which the last bit of the request has been sent -/
  endAt : Nat
  deriving DecidableEq, Repr

/-- The timers of one position. -/
structure AditPos where
  /-- BOUND: the tick of the next heartbeat -/
  nextHb : Nat
  /-- LOST: the start of the rebind timer and the tick of the next probe -/
  lostAt : Nat
  nextProbe : Nat
  deriving DecidableEq, Repr

structure Adit where
  pos : Vector AditPos 8
  /-- the frame on the line -/
  req : Option AditReq
  /-- a command frame whose 3 attempts failed, sent again after each heartbeat (R1010) -/
  again : Option AditReq
  /-- BIND was written and RESET_STATE is to be sent -/
  binding : List Nat
  /-- the frame on DIN as far as it has come, and whether its EOM has (R1018) -/
  din : List Word
  dinEom : Bool
  /-- the last frame sent, from ADDR to its CRC (R998) -/
  line : Bytes
  /-- the last reply that a command's frame had: its position, its tick and its words on DOUT (R1032) -/
  delivered : Option (Nat × Nat × Nat)
  deriving DecidableEq, Repr

def Adit.reset : Adit := ⟨Vector.replicate 8 ⟨0, 0, 0⟩, none, none, [], [], false, [], none⟩

/-! ### Host interfaces (21) -/

/-- A rescue install that erases or programs (R1064): its slot, the sectors already erased and the bytes programmed. -/
structure Install where
  slot : Nat
  erased : Nat
  programmed : Nat
  len : Nat
  deriving DecidableEq, Repr

/-- What the device last answered to an access that no core instruction made: an RCODE (R1048), the words read, and
whether the answer was an error (Completer Abort on PCIe, R1042). -/
structure Answer where
  rcode : Nat
  words : List Word
  error : Bool
  deriving DecidableEq, Repr

/-- A host access that a freeze holds back; an SPI request may have been answered PENDING meanwhile (R1052, R1062). -/
inductive HostWait where
  | pcie (tgt : PcieTo) (len : Nat) (write : Option (List Byte))
  | serial (uart quad : Bool) (req : Serial) (pended : Bool)
  deriving DecidableEq, Repr

structure HostIf where
  /-- active interfaces: bit 0 PCIe, 1 SPI, 2 UART, as HOSTIF_SEL.ACT (R1034) -/
  active : BitVec 3
  /-- HSEL1, HSEL0 as sampled -/
  hsel : BitVec 2
  linkUp : Bool
  /-- HOSTIF_SEL.SPEED -/
  speed : BitVec 2
  /-- PCIe configuration: Bus Master Enable, MSI-X enable and function mask (R1040, R1043) -/
  busMaster : Bool
  msixEnable : Bool
  msixMask : Bool
  /-- the words of the MSI-X table, 4 per entry (R1041) -/
  msixTable : Assoc Word
  /-- the pending bit array -/
  pba : BitVec 32
  /-- the vector of the last MSI-X message sent -/
  lastMsix : Option Nat
  /-- the UART receiver discards bytes until 0x7E (R1056) -/
  uartDiscard : Bool
  /-- the boot ROM runs its rescue loader (R336) -/
  rescue : Bool
  install : Option Install
  /-- accesses that wait for a thaw, in the order of their arrival (R1062) -/
  waiting : List HostWait
  answer : Answer
  /-- the bytes of the last serial reply, as they are driven (R1048, R1055) -/
  reply : Bytes
  deriving DecidableEq, Repr

/-! ### The whole device -/

/-- The state of the TS960. -/
structure State where
  /-- the commands that wait, first in, first out -/
  pending : List Instr
  /-- the model's own counter of free values (log entry 4) -/
  free : Nat
  /-- control registers: key regKey of requester and address; an unlisted register holds its reset value -/
  regs : Assoc Word
  sys : Sys
  clk : Clock
  pwr : Pwr
  assay : Assay
  cores : Vector Core 6
  chans : Chans
  mem : Memory
  flash : Flash
  led : Ledger
  front : Front
  adc : Adc
  lf : Lf
  cap : Cap
  uhf : Uhf
  range : Range
  ble : Ble
  nfc : Nfc
  fuses : Fuses
  kiln : Kiln
  ent : Ent
  creds : Creds
  start : Start
  net : Net
  adit : Adit
  host : HostIf
  deriving DecidableEq, Repr

/-! ### The device right after reset

The first entry to SCAN after the always-on domain powered up, of a TS960-Q2 as Mupor delivers it (log entry 3): the
ledger, the code flash and SRAM hold nothing, HSEL1 and HSEL0 read 0, and 33 RTC periods have passed (R1071). -/

def Sys.reset : Sys :=
  { mode := .scan, prev := none, bankFrom := none, mated := false, cause := 1, lockCause := 0, active := 0, grants := []
    approachEnd := none, tokenEnd := none, recordWanted := false, recovering := none, scanFrom := 0, imageChosen := false }

def Clock.reset : Clock :=
  { tb := 0, rem := 0, rtc := 33, frac := 0, rtcRuns := true, running := true, unlockedAt := none, relockedAt := none }

def Pwr.reset : Pwr :=
  { aon := true, valid := 0b1111, vbatLow := false, resetReq := none, wdtFrom := none, entering := false, t05At := none, entryRtc := none
    heldSrc := 0, wakeAt := none, resetWake := none, buckAt := 0 }

def Assay.reset : Assay :=
  { ballLow := false, freezing := false, srcs := 0, holdsReset := false, thawAt := none, bankLatch := false, ir := 1, chain := 0
    addr := 0, count := 1, regAddr := 0, boundary := [], shiftOut := [] }

/-- A core whose control registers are at their reset values (R151, R236). -/
def Core.reset (start : Word) (run : Run) : Core :=
  { g := Vector.replicate 16 0, flg := 0, pc := start, cstat := 0, cvec := start, cepc := 0, ccause := 0, cbad := 0, cmp := 0
    cmpLate := false, e := 0, run := run }

/-- Core 0 starts at 0x0000_0000 and the Kiln core at 0x0000_C000, whose cvec is fixed; the others stay in reset (R237, R239,
R801). -/
def coresReset : Vector Core 6 :=
  #v[Core.reset 0 .running, Core.reset 0 .reset, Core.reset 0 .reset, Core.reset 0 .reset, Core.reset 0 .reset,
    Core.reset 0xC000 .running]

def Chans.reset : Chans := ⟨[], [], []⟩

/-- Memory with every byte at what an unlisted address reads as, and every cache and translation empty (R281, R1083). -/
def Memory.reset : Memory :=
  { cells := [], badGranules := [], flips := [], dcache := Vector.replicate 6 [], icache := Vector.replicate 6 [], tlb := [], xlateBusy := false
    scrubPos := 0, scrubAt := 0, clearing := some 0x20000000, host := [] }

def Flash.reset : Flash :=
  { markers := [], torn := [], running := none, suspending := false, suspended := false, frozen := false }

/-- The ledger array as delivered, unit 0x00 holding the format identity 0x4C47_0001 (R361, R379), with the scan of SCAN running
(R382). -/
def Ledger.reset : Ledger :=
  { copies := [], units := [(0, 0x01 :: 0x00 :: 0x47 :: 0x4C :: List.replicate 12 0)], tornUnits := [], writing := none, collecting := none, waiting := none, scanFrom := some 0
    rescanWanted := false, ackDue := none }

def Cage.reset : Cage :=
  { queue := none, last := 511, sliceEnd := 0, cur := none, disp := none, preload := none, slot := 0 }

/-- Every queue, buffer and edge FREE, every generation 0, nothing bound (R480). -/
def Front.reset : Front :=
  { queues := [], buffers := [], bufGen := [], edges := [], edgeGen := [], cages := Vector.replicate 8 Cage.reset, engines := []
    held := false, past := [] }

/-- The fuses of a TS960-Q2: Mupor has programmed every field but the second hash copy, and FACTORY_CLOSED is blown (R818). -/
def Fuses.reset : Fuses :=
  { devSeed := .maker, devId := .maker, devCert := .maker, bdAddr := .maker, hashes := #v[.maker, .unprogrammed], closed := true
    running := none }

/-- An empty slot at a generation. -/
def Slot.at_ (gen : Nat) : Slot := ⟨none, gen, 0, 0, 0⟩

/-- Slots empty; the generations of slots 3 to 63 have advanced once, at the entry to SCAN (R801, R808). -/
def Kiln.reset : Kiln :=
  { slots := (List.range 61).map (fun i => (i + 3, Slot.at_ 2)), ctxs := [], saveNo := 0, saves := [], kin := [], kout := []
    ready := false, aesRun := none, pkaRun := none }

/-- A run of the entropy source has started with SCAN (R856). -/
def Ent.reset : Ent := { Ent.idle with runFrom := some 0 }

def Creds.reset : Creds :=
  { sess := [], tokenNonce := none, holdFrom := [], time := none, timeWritten := 33, scnt := 0, satAuth := [], satMate := []
    jobs := [], jobRuns := false }

/-- PCIe and SPI are active (R1034), the link is down. -/
def HostIf.reset : HostIf :=
  { active := 0b011, hsel := 0, linkUp := false, speed := 0, busMaster := false, msixEnable := false, msixMask := false
    msixTable := [], pba := 0, lastMsix := none, uartDiscard := false, rescue := false, install := none, waiting := []
    answer := ⟨0, [], false⟩, reply := [] }

/-- The machine right after reset. Every register holds its reset value, but SYS_EPOCH, which this entry to SCAN advanced
(R526). -/
def State.reset : State :=
  { pending := [], free := 0, regs := [(rSYS_EPOCH, 1)], sys := Sys.reset, clk := Clock.reset, pwr := Pwr.reset
    assay := Assay.reset, cores := coresReset, chans := Chans.reset, mem := Memory.reset, flash := Flash.reset
    led := Ledger.reset, front := Front.reset, adc := Adc.reset, lf := Lf.reset, cap := Cap.reset, uhf := Uhf.reset
    range := Range.reset, ble := Ble.reset, nfc := Nfc.reset, fuses := Fuses.reset, kiln := Kiln.reset, ent := Ent.reset
    creds := Creds.reset, start := Start.idle, net := Net.reset, adit := Adit.reset, host := HostIf.reset }

/-- The reasons the model stops with a fault. -/
inductive Fault where
  /-- VBAT above 24 V for longer than 400 ms: the device is then not specified and may be damaged (R1074). Raised by
  SUPPLY_INVALID. Safe: no claim about a later state can be proved. -/
  | outsideRatings
  deriving DecidableEq, Repr

/-- The reasons the model refuses a command. -/
inductive Refusal where
  /-- The command has no meaning in the model yet. Raised by the dispatch. Safe. -/
  | notModelled (mnemonic : String)
  deriving DecidableEq, Repr

/-- What a command answers. -/
abbrev Out := Host.Outcome State Fault Refusal


end Sys2Proof.Machine
end

