-- ==== Sys2Proof/Machine/Ops.lean ====
section
/-! DEFINITION. The operations every block is written with: registers, free values, core events, host vectors and
channels. -/
namespace Sys2Proof.Machine

/-! ### Control flow of meanings -/

/-- A change made only where a condition holds; otherwise the state stays as it is (log entry 1). -/
def when (p : Bool) (f : State → State) (s : State) : State := if p then f s else s

/-- A change made with a value where there is one. -/
def withSome {α : Type} (o : Option α) (f : α → State → State) (s : State) : State :=
  match o with
  | some a => f a s
  | none => s

/-- A change made for each element of a list, in order. -/
def forEach {α : Type} (xs : List α) (f : α → State → State) (s : State) : State := xs.foldl (fun t x => f x t) s

/-! ### Registers -/

/-- The owner code of a requester (R418). -/
def Req.code : Sys2Proof.Req → Nat
  | .core c => c.val
  | .pcie => 8
  | .spi => 9
  | .uart => 10

/-- The key under which a requester's access finds a register (R422, R1065). -/
def regKey (r : Sys2Proof.Req) (a : Nat) : Nat :=
  if banked a || a == rTB_NOW_HI || a == rRTC_NOW_HI then a + bankStride * (Req.code r + 1) else a

/-- The stored value of a register. -/
def State.reg (s : State) (k : Nat) : Word := agetD s.regs k (regReset k)

/-- The state with a register's stored value replaced. -/
def State.setReg (s : State) (k : Nat) (w : Word) : State := { s with regs := asetD (regReset k) s.regs k w }

/-- A field of a register. -/
def State.fld (s : State) (k hi lo : Nat) : Nat := bits (s.reg k) hi lo

/-- A bit of a register. -/
def State.rbit (s : State) (k i : Nat) : Bool := bit (s.reg k) i

/-- The state with a field of a register replaced: a device update (R25). -/
def State.setFld (s : State) (k hi lo v : Nat) : State := s.setReg k (setBits (s.reg k) hi lo v)

/-- The state with a bit of a register replaced. -/
def State.setRbit (s : State) (k i : Nat) (b : Bool) : State := s.setReg k (setBit (s.reg k) i b)

/-- A register field advanced by one, modulo its width. -/
def State.incFld (s : State) (k hi lo : Nat) : State := s.setFld k hi lo (s.fld k hi lo + 1)

/-- A register field advanced by one, stopping at its largest value. -/
def State.satFld (s : State) (k hi lo : Nat) : State := s.setFld k hi lo (satInc (2 ^ (hi + 1 - lo) - 1) (s.fld k hi lo))

/-- What a write leaves in a register: RW bits stored, W1C bits cleared, W1S bits set, all others kept (R14, R18). -/
def writeMasked (d : RegDef) (old v : Word) : Word :=
  ((old &&& ~~~d.rw &&& ~~~(d.w1c &&& v)) ||| (v &&& d.rw)) ||| (v &&& d.w1s)

/-! ### Free values (log entry 4) -/

/-- A word that nothing constrains, and the state with the counter advanced. -/
def State.freshWord (s : State) : Word × State := (Config.freeWord s.free, { s with free := s.free + 1 })

/-- n bytes that nothing constrains. -/
def State.freshBytes (s : State) (n : Nat) : Bytes × State :=
  ((List.range n).map (fun i => Config.freeByte (s.free + i)), { s with free := s.free + n })

/-! ### Time -/

/-- TB_NOW as the 64-bit counter that is read. -/
def State.tbNow (s : State) : BitVec 64 := BitVec.ofNat 64 s.clk.tb

/-- TB_NOW [31:0]. -/
def State.tbLo (s : State) : Word := wd s.clk.tb

/-- A number of milliseconds in timebase ticks. -/
def msTicks (n : Nat) : Nat := n * 62400

/-- A target tick is due or has passed when (int32_t)(t − now) ≤ 0 (05 "Timed extension"). -/
def tickDue (t now : Word) : Bool := (t - now).toInt ≤ 0

/-- A target tick has passed when (int32_t)(t − now) < 0. -/
def tickPassed (t now : Word) : Bool := (t - now).toInt < 0

/-! ### Cores -/

/-- A core's state replaced. -/
def State.setCore (s : State) (c : Fin 6) (k : Core) : State := { s with cores := s.cores.set c k }

/-- A core's state changed. -/
def State.onCore (s : State) (c : Fin 6) (f : Core → Core) : State := s.setCore c (f (s.cores.get c))

/-- The six cores. -/
def allCores : List (Fin 6) := [0, 1, 2, 3, 4, 5]

/-- The device runs: powered, not in BANKED, not frozen, and not held in a reset (R79, R1082, R1112). -/
def State.live (s : State) : Bool :=
  s.sys.mode != .off && s.sys.mode != .banked && s.sys.mode != .quenched && !s.assay.freezing && s.pwr.resetReq.isNone

/-- Every block outside the always-on domain runs: as `live`, and SCAN has ended (R40, R41, R79). -/
def State.up (s : State) : Bool := s.live && s.sys.mode != .scan

/-- The blocks that depend on the timebase run: as `up`, and the timebase is in lock (R29, R133). -/
def State.timed (s : State) : Bool := s.up && s.clk.running

/-- What a core depends on operates: the fabric, and for the field core the timebase too (R29). -/
def State.coreUp (s : State) (c : Fin 6) : Bool := s.live && (c != 4 || s.clk.running)

/-- A core executes instructions. -/
def State.runs (s : State) (c : Fin 6) : Bool :=
  s.coreUp c && (match (s.cores.get c).run with | .running => true | .stalled _ => true | _ => false)

/-- Sets bits of a core's event latch (R214). -/
def State.setE (s : State) (c : Fin 6) (m : BitVec 16) : State := s.onCore c (fun k => { k with e := k.e ||| m })

/-- Sets one event bit on every core that a ROUTE field names (R594, R644 and the rules like them). -/
def State.routeE (s : State) (route : Nat) (b : Nat) : State :=
  forEach (allCores.filter (fun c => route.testBit c.val)) (fun c t => t.setE c (BitVec.ofNat 16 (1 <<< b))) s

/-! ### Host vectors (R1045, R1046) -/

/-- The interface number of a host requester: 0 PCIe, 1 SPI, 2 UART. -/
def Req.iface : Sys2Proof.Req → Option Nat
  | .core _ => none
  | .pcie => some 0
  | .spi => some 1
  | .uart => some 2

/-- The host interface of an owner code (R418). -/
def hostOf (code : Nat) : Option Sys2Proof.Req :=
  if code = 8 then some .pcie else if code = 9 then some .spi else if code = 10 then some .uart else none

/-- A host interface is active (R1034). -/
def State.hostActive (s : State) (r : Sys2Proof.Req) : Bool :=
  match Req.iface r with
  | some i => s.host.active.getLsbD i
  | none => false

/-- A host requester's copy of a register. -/
def hostKey (r : Sys2Proof.Req) (a : Nat) : Nat := a + bankStride * (Req.code r + 1)

/-- Raises a vector on a host interface (R1045): on PCIe the MSI-X message of its table entry under the entry's and the
function's masks, pending while masked; on SPI and UART its HOSTIF_PEND bit. A message raised while the PCIe link is down
is lost (log entry 13). -/
def raiseVector (r : Sys2Proof.Req) (v : Nat) (s : State) : State :=
  if !s.hostActive r then s else
  match r with
  | .core _ => s
  | .pcie =>
    if !(s.host.linkUp && s.host.msixEnable && s.host.busMaster) then s
    else if s.host.msixMask || bit (agetD s.host.msixTable (4 * v + 3) 1) 0 then
      { s with host := { s.host with pba := s.host.pba ||| BitVec.ofNat 32 (1 <<< v) } }
    else
      let a := (agetD s.host.msixTable (4 * v) 0).toNat + 2 ^ 32 * (agetD s.host.msixTable (4 * v + 1) 0).toNat
      let d := leOfWord (agetD s.host.msixTable (4 * v + 2) 0)
      { s with
        host := { s.host with lastMsix := some v }
        mem := { s.mem with host := (d.zipIdx.foldl (fun m b => ains m (a + b.2) b.1) s.mem.host) } }
  | r => s.setReg (hostKey r rHOSTIF_PEND) (s.reg (hostKey r rHOSTIF_PEND) ||| wd (1 <<< v))

/-- The host interfaces. -/
def hostReqs : List Sys2Proof.Req := [.pcie, .spi, .uart]

/-- Sets HOSTIF_EVT bit b of one active interface's copy; a bit that goes from 0 to 1 raises VEC_EVT while EN_EVT is 1
(R1046). -/
def hostEvent (b : Nat) (r : Sys2Proof.Req) (s : State) : State :=
  if !s.hostActive r || s.rbit (hostKey r rHOSTIF_EVT) b then s
  else
    let s := s.setRbit (hostKey r rHOSTIF_EVT) b true
    when (s.rbit (hostKey r rHOSTIF_IVEC) 16) (raiseVector r (s.fld (hostKey r rHOSTIF_IVEC) 4 0)) s

/-! ### Block events -/

/-- Sets bit b of an EVT register; when it goes from 0 to 1 while its enable is 1, sets event `ev` on each core whose
ROUTE bit is 1. The enable has the bit's own number, and ROUTE starts at bit rlo of register rreg. -/
def blockEvent (evt ie rreg rlo ev b : Nat) (s : State) : State :=
  if s.rbit evt b then s
  else
    let s := s.setRbit evt b true
    when (s.rbit ie b) (fun s => s.routeE (s.fld rreg (rlo + 4) rlo) ev) s

/-- The mode interrupt is asserted (R93). -/
def State.modeInt (s : State) : Bool := s.reg rSYS_MODE_EVT &&& s.reg rSYS_MODE_IE &&& 0xF != 0

/-- E.MODE set on every core while the mode interrupt holds (R214, R215). -/
def State.levelMode (s : State) : State :=
  when s.modeInt (fun s => forEach allCores (fun c t => t.setE c 0x0100) s) s

/-- A change that can assert the mode interrupt: when it becomes asserted, E.MODE is set on every core and each host
interface with EN_MODE at 1 gets VEC_MODE (R93, R1046). -/
def State.modeEdge (s : State) (f : State → State) : State :=
  let t := f s
  let t := t.levelMode
  if t.modeInt && !s.modeInt then
    forEach (hostReqs.filter (fun r => t.rbit (hostKey r rHOSTIF_IVEC) 17))
      (fun r u => raiseVector r (u.fld (hostKey r rHOSTIF_IVEC) 12 8) u) t
  else t

/-- Sets a bit of SYS_MODE_EVT: 0 CHANGED, 1 BAD_KEY, 2 REQ_REFUSED, 3 QUENCH_IGNORED. -/
def modeEvent (b : Nat) (s : State) : State := s.modeEdge (fun s => s.setRbit rSYS_MODE_EVT b true)

/-! ### Channels (R199 to R212) -/

def Chan.empty : Chan := ⟨[], [], none⟩

def State.chan (s : State) (k : Nat) : Chan := agetD s.chans.ch k Chan.empty

def State.setChan (s : State) (k : Nat) (c : Chan) : State :=
  { s with chans := { s.chans with ch := asetD Chan.empty s.chans.ch k c } }

/-- The key of mailbox words from core a to core b. -/
def mailKey (a b : Nat) : Nat := 0x1000 + a * 8 + b

/-- The key of the CORE CMD port of core n. -/
def coreCmdKey (n : Nat) : Nat := 0x2010 + n

/-- The key of the CORE DONE port of core n. -/
def coreDoneKey (n : Nat) : Nat := 0x2020 + n

/-- The core that serves an engine; CORE of target n is engine 0x10 + n (R203). -/
def servingCore (e : Nat) : Fin 6 :=
  if e = 0x11 then 1 else if e = 0x12 then 2 else if e = 0x13 then 3
  else if e = 9 then 0
  else if e = 6 || e = 7 || e = 8 || e = 10 || e = 11 then 4
  else 5

/-- The channel key of an engine's CMD port. -/
def cmdKey (e : Nat) : Nat := if e ≥ 0x11 then coreCmdKey (e - 0x10) else e * 16

/-- The channel key of an engine's DONE port. -/
def doneKey (e : Nat) : Nat := if e ≥ 0x11 then coreDoneKey (e - 0x10) else e * 16 + 1

/-- The engines of R440, CORE as three of them. -/
def allEngines : List Nat := [0x11, 0x12, 0x13, 2, 3, 4, 5, 6, 7, 8, 9, 10, 11, 12]

/-- A word waits on a CMD port of a core: the level behind E.CMD (R214). -/
def State.cmdWaits (s : State) (c : Fin 6) : Bool :=
  (allEngines.filter (fun e => servingCore e == c)).any (fun e => !(s.chan (cmdKey e)).q.isEmpty)

/-- E.CMD set on a core while a word waits on a CMD port of it (R215). -/
def State.levelCmd (s : State) (c : Fin 6) : State := when (s.cmdWaits c) (fun s => s.setE c 0x0400) s

/-- A word placed in a channel that has room, stamped with the present tick (R225). -/
def cPut (k : Nat) (w : Word) (eom : Bool) (fine : Nat) (s : State) : State :=
  let c := s.chan k
  s.setChan k { c with q := c.q ++ [⟨w, eom, s.clk.tb, fine⟩] }

/-- A channel has room (R199). -/
def State.cRoom (s : State) (k : Nat) : Bool := (s.chan k).q.length < 4

/-- The words a device port still has to send move into the channel as it has room. -/
def cRefill (k : Nat) (s : State) : State :=
  let c := s.chan k
  let n := 4 - c.q.length
  s.setChan k { c with
    q := c.q ++ (c.back.take n).map (fun e => ⟨e.1, e.2, s.clk.tb, 0⟩)
    back := c.back.drop n }

/-- A device port sends words into a channel, in order, as it has room. -/
def devSend (k : Nat) (ws : List (Word × Bool)) (s : State) : State :=
  cRefill k (s.setChan k { s.chan k with back := (s.chan k).back ++ ws })

/-- The ports of an engine are flushed (R212). -/
def State.flushed (s : State) (e : Nat) : Bool := s.chans.flushed.contains e

/-- An engine's port sends words, which a flush of its ports discards (R212, R649). -/
def portSend (ch : Nat) (ws : List (Word × Bool)) (s : State) : State :=
  if s.flushed (ch / 16) then s else devSend ch ws s

/-- An engine's port sends a word only if its channel has room; the answer is whether it was sent. -/
def portTry (ch : Nat) (w : Word) (eom : Bool) (tick fine : Nat) (s : State) : Bool × State :=
  if s.flushed (ch / 16) || !s.cRoom ch then (false, s)
  else
    let c := s.chan ch
    (true, s.setChan ch { c with q := c.q ++ [⟨w, eom, tick, fine⟩] })

/-- The head word of a CTRL port when it carries this OP in [31:28], with the tick on which it arrived. -/
def State.ctrlHead (s : State) (ch op : Nat) : Option ChWord := (s.chan ch).q.head?.filter (fun h => bits h.w 31 28 == op)

/-- Words with EOM on the last. -/
def withEom (ws : List Word) : List (Word × Bool) :=
  ws.zipIdx.map (fun e => (e.1, e.2 + 1 == ws.length))

/-- The head word of a channel taken, its stamp kept for TIN (R225). -/
def cTake (k : Nat) (s : State) : Option ChWord × State :=
  let c := s.chan k
  match c.q with
  | [] => (none, s)
  | h :: t => (some h, cRefill k (s.setChan k { c with q := t, taken := some (h.tick, h.fine) }))

/-- A word taken from a channel by a device port, without a stamp. -/
def cDrop (k : Nat) (s : State) : State :=
  let c := s.chan k
  cRefill k (s.setChan k { c with q := c.q.drop 1 })

/-- A word taken from a channel out of its place. -/
def cTakeOut (k : Nat) (w : ChWord) (s : State) : State :=
  let c := s.chan k
  cRefill k (s.setChan k { c with q := c.q.erase w })

/-- The head word of a channel. -/
def State.cHead (s : State) (k : Nat) : Option Word := (s.chan k).q.head?.map ChWord.w

/-- Every word of a channel discarded. -/
def cClear (k : Nat) (s : State) : State := s.setChan k { s.chan k with q := [], back := [] }

/-- A word the front end puts on an engine's CMD port, with E.CMD on the serving core (R204, R214). -/
def cmdSend (e : Nat) (w : Word) (s : State) : State :=
  (devSend (cmdKey e) [(w, false)] s).levelCmd (servingCore e)

/-- The engine a channel of R202 belongs to, as numbered by the front end, for an executing core. -/
def engineOfChan (c : Fin 6) (ch : Nat) : Nat := if ch = 0x10 || ch = 0x11 then 0x10 + c.val else ch / 16

end Sys2Proof.Machine
end

