-- ==== Sys2Proof/Machine/Mem.lean ====
section
/-! DEFINITION. Memory: regions, shared SRAM with its error codes, the data caches and their directory, engine accesses
and address translation (06). -/
namespace Sys2Proof.Machine

/-! ### Regions (R261, R309) -/

def inRange (a lo len : Nat) : Bool := lo ≤ a && a < lo + len

def inSram (a : Nat) : Bool := inRange a 0x20000000 0x800000
def inKilnSram (a : Nat) : Bool := inRange a 0x10000000 0x40000
def inImages (a : Nat) : Bool := inRange a 0x08000000 0x300000
def inBooking (a : Nat) : Bool := inRange a 0x08700000 0x100000
def inFlash (a : Nat) : Bool := inImages a || inBooking a
def inRom (a : Nat) : Bool := a < 0x10000
def inLedger (a : Nat) : Bool := inRange a 0x30000000 0x10000
def inControl (a : Nat) : Bool := inRange a 0x40000000 0x1E000
def inOutbound (a : Nat) : Bool := inRange a 0x50000000 0x10000000
def inPrivate (a : Nat) : Bool := inRange a 0xE0000000 0x1000
/-- The Kiln register block (R798). -/
def inKilnRegs (a : Nat) : Bool := inRange a 0x10040000 0x1000

/-- The flash sector that holds an address (R321). -/
def sectorOf (a : Nat) : Nat :=
  if inImages a then (a - 0x08000000) / 0x1000 else 768 + (a - 0x08700000) / 0x1000

/-- The address of a flash sector (R321). -/
def sectorBase (n : Nat) : Nat :=
  if n < 768 then 0x08000000 + n * 0x1000 else 0x08700000 + (n - 768) * 0x1000

/-! ### Stored bytes -/

/-- What a byte that nothing has written reads as: 0xFF in code flash (R322), 0x00 in SRAM once cleared (R281, R801). -/
def memDefault (a : Nat) : Byte := if inFlash a then 0xFF else 0

/-- One stored byte. -/
def readByte (s : State) (a : Nat) : Byte := agetD s.mem.cells a (memDefault a)

/-- One byte stored. -/
def writeByte (a : Nat) (b : Byte) (s : State) : State :=
  { s with mem := { s.mem with cells := asetD (memDefault a) s.mem.cells a b } }

/-- n stored bytes from an address upwards. -/
def readBytes (s : State) (a n : Nat) : Bytes := (List.range n).map (fun i => readByte s (a + i))

/-- Bytes stored from an address upwards. -/
def writeBytes : Nat → Bytes → State → State
  | _, [], s => s
  | a, b :: bs, s => writeBytes (a + 1) bs (writeByte a b s)

/-- Bytes stored from an address upwards where a region has their address; a byte outside the region is not stored. -/
def writeWithin (region : Nat → Bool) : Nat → Bytes → State → State
  | _, [], s => s
  | a, b :: bs, s => writeWithin region (a + 1) bs (when (region a) (writeByte a b) s)

/-! ### SECDED granules (R272 to R278) -/

def granule (a : Nat) : Nat := a / 8 * 8

def State.granuleBad (s : State) (a : Nat) : Bool := s.mem.badGranules.contains (granule a)

/-- The granules that [a, a + n) touches. -/
def granulesOf (a n : Nat) : List Nat :=
  if n = 0 then [] else (List.range ((a + n - 1) / 8 - a / 8 + 1)).map (fun i => granule a + 8 * i)

/-- A granule without its one-bit error. -/
def dropFlip (g : Nat) (s : State) : State :=
  { s with mem := { s.mem with flips := s.mem.flips.filter (fun x => !(x == g)) } }

def setBad (g : Nat) (s : State) : State :=
  if s.mem.badGranules.contains g then s
  else dropFlip g { s with mem := { s.mem with badGranules := g :: s.mem.badGranules } }

def clearBad (g : Nat) (s : State) : State :=
  dropFlip g { s with mem := { s.mem with badGranules := s.mem.badGranules.filter (fun x => !(x == g)) } }

/-- E.ECC on the cores of SYS_ECC_CTL.ROUTE (R276). -/
def eccEvent (s : State) : State := s.routeE (s.fld rSYS_ECC_CTL 21 16) 11

/-- An uncorrectable error recorded with its requester while UE is 0, else UE_OVF (R274, R278). -/
def recordUe (a src : Nat) (s : State) : State :=
  eccEvent (if s.rbit rSYS_ECC_STAT 2 then s.setRbit rSYS_ECC_STAT 3 true
    else ((s.setReg rSYS_ECC_ADDR (wd (granule a))).setFld rSYS_ECC_STAT 15 8 src).setRbit rSYS_ECC_STAT 2 true)

/-- A correction counted (R273, R276). -/
def recordCe (s : State) : State :=
  let s := (s.satFld rSYS_ECC_STAT 31 16).setRbit rSYS_ECC_STAT 1 true
  when (s.rbit rSYS_ECC_CTL 4) eccEvent s

/-- The one-bit errors that a read of [a, a + n) finds: each granule is written back corrected and counted (R273). -/
def correct (a n : Nat) (s : State) : State :=
  forEach ((granulesOf a n).filter s.mem.flips.contains) (fun g s => recordCe (dropFlip g s)) s

/-- The uncorrectable errors that a read of [a, a + n) finds; of several the lowest is recorded (log entry 98). -/
def State.badIn (s : State) (a n : Nat) : Option Nat := (granulesOf a n).find? (fun g => s.granuleBad g)

/-- The granules that a write of [a, a + n) fills whole. -/
def wholeGranules (a n : Nat) : List Nat := (granulesOf a n).filter (fun g => a ≤ g && g + 8 ≤ a + n)

/-- The read of a merge write: of the granules that are written in part (R272 to R276). -/
def mergeRead (src a n : Nat) (s : State) : State :=
  forEach ((granulesOf a n).filter (fun g => !(wholeGranules a n).contains g)) (fun g s =>
    when (s.granuleBad g) (recordUe g src) (correct g 8 s)) s

/-- Bytes merged into SRAM: a granule written whole gets valid check bits, one written in part keeps an uncorrectable
error as poison (R272, R275). -/
def mergeSram (a : Nat) (bs : Bytes) (s : State) : State :=
  forEach (wholeGranules a bs.length) clearBad (writeBytes a bs s)

/-! ### Data caches and directory (R285 to R291) -/

def lineOf (a : Nat) : Nat := a / 64 * 64
def setOf (a : Nat) : Nat := a / 64 % 64

/-- The ways of a core's data cache: 16 KiB 4-way, 8 KiB 2-way on the Kiln core, 64 sets each (R285). -/
def waysOf (c : Fin 6) : Nat := if c.val = 5 then 2 else 4

def State.lines (s : State) (c : Fin 6) : List Line := s.mem.dcache.get c

def State.setLines (s : State) (c : Fin 6) (ls : List Line) : State :=
  { s with mem := { s.mem with dcache := s.mem.dcache.set c ls } }

/-- The lines of a core's instruction cache. -/
def State.ilines (s : State) (c : Fin 6) : List Line := s.mem.icache.get c

def State.setIlines (s : State) (c : Fin 6) (ls : List Line) : State :=
  { s with mem := { s.mem with icache := s.mem.icache.set c ls } }

def findLine (ls : List Line) (a : Nat) : Option Line := ls.find? (fun l => l.addr == lineOf a)

def dropLine (ls : List Line) (a : Nat) : List Line := ls.filter (fun l => !(l.addr == lineOf a))

/-- A MODIFIED line's data written to SRAM, poisoned where the line holds an uncorrectable error (R314); a correction in the
line is counted. -/
def writeBack (l : Line) (s : State) : State :=
  if l.st == .modified && inSram l.addr then
    let s := mergeSram l.addr l.data (when l.flip recordCe s)
    when l.bad (forEach (granulesOf l.addr 64) setBad) s
  else s

/-- A line that a core's cache gives up: its uncorrectable error is recorded (R276, R314). -/
def evictLine (c : Fin 6) (l : Line) (s : State) : State :=
  when (l.bad && l.st == .modified) (recordUe l.addr c.val) (writeBack l s)

/-- Another core's cache holds a line MODIFIED. -/
def State.ownerOf (s : State) (a : Nat) (keep : Option (Fin 6)) : Option Line :=
  allCores.findSome? (fun c => if keep == some c then none else (findLine (s.lines c) a).filter (fun l => l.st == .modified))

/-- That line holds an uncorrectable error (R314). -/
def State.badOwner (s : State) (a : Nat) (keep : Option (Fin 6)) : Bool := (s.ownerOf a keep).any Line.bad

/-- A core's access to [a, a + n) waits for its page to be cleared (R282). When in the clearing a page is done is not stated: a
core waits until INIT_DONE, and the accesses of engines and hosts, whose durations are not stated either, do their waiting
inside their command (log entry 100). -/
def State.waitsClear (s : State) (a n : Nat) : Bool := inSram a && s.mem.clearing.any (fun lo => lo < a + n)

/-- The directory recalls a line for a read: a MODIFIED copy is written to SRAM, and its owner drops to SHARED (R291). -/
def recallLine (a : Nat) (keep : Option (Fin 6)) (s : State) : State :=
  forEach allCores (fun c s =>
    if keep == some c then s else
    match findLine (s.lines c) a with
    | none => s
    | some l =>
      let s := writeBack l s
      s.setLines c ((s.lines c).map (fun x => if x.addr == lineOf a then { x with st := .shared } else x))) s

/-- Every instruction cache without a line. -/
def dropIlines (a : Nat) (s : State) : State :=
  { s with mem := { s.mem with icache := s.mem.icache.map (fun ls => dropLine ls a) } }

/-- The directory invalidates every copy of a line but one core's data cache's, taking MODIFIED data to SRAM (R291). -/
def invalidateLine (a : Nat) (keep : Option (Fin 6)) (s : State) : State :=
  forEach allCores (fun c s =>
    if keep == some c then s else
    match findLine (s.lines c) a with
    | none => s
    | some l =>
      let s := writeBack l s
      s.setLines c (dropLine (s.lines c) a)) (dropIlines a s)

/-- A line is held by some cache other than a core's data cache. -/
def State.heldElsewhere (s : State) (c : Fin 6) (a : Nat) : Bool :=
  allCores.any (fun d => (!(d == c) && (findLine (s.lines d) a).isSome) || (findLine (s.ilines d) a).isSome)

/-- A line put into a cache as the most recently used of its set: the lines afterwards, and the least recently used line of a
full set, which is evicted (R285); of several unused ways the lowest is taken (DESIGN CHOICE, log entry 99). -/
def putLine (ways : Nat) (l : Line) (ls : List Line) : List Line × Option Line :=
  let ls := dropLine ls l.addr
  let same := ls.filter (fun x => setOf x.addr == setOf l.addr)
  if same.length < ways then
    let used := same.map Line.way
    let way := ((List.range ways).find? (fun w => !used.contains w)).getD 0
    ({ l with way := way } :: ls, none)
  else
    match same.getLast? with
    | none => (l :: ls, none)
    | some v => ({ l with way := v.way } :: dropLine ls v.addr, some v)

/-- A line put into a core's data cache; an evicted line that is MODIFIED is written back. -/
def installLine (c : Fin 6) (l : Line) (s : State) : State :=
  let r := putLine (waysOf c) l (s.lines c)
  withSome r.2 (evictLine c) (s.setLines c r.1)

/-- Every data cache line of a core written back and invalidated (R268). -/
def flushD (c : Fin 6) (s : State) : State := (forEach (s.lines c) (evictLine c) s).setLines c []

/-- Every line of a core's instruction cache invalidated (R268). -/
def invI (c : Fin 6) (s : State) : State := s.setIlines c []

/-- Every MODIFIED line of every cache written back (R284), and every line of every cache invalidated (R1182). -/
def flushAllCaches (s : State) : State := forEach allCores (fun c s => invI c (flushD c s)) s

/-! ### Answers of an access -/

/-- How an access is answered: bytes, an error, an error with the FLASH_TORN mark, a translation fault, or no answer yet
because the target withholds its acknowledge (R115, R304, R347). -/
inductive Ans where
  | ok (bs : Bytes)
  | err
  | torn
  | fault
  | stall
  deriving DecidableEq, Repr

/-- Records an error of a flash read while FLASH_ERR.VALID is 0, else OVF (R346, R347). -/
def flashErr (a status : Nat) (s : State) : State :=
  if s.rbit rFLASH_ERR 0 then s.setRbit rFLASH_ERR 1 true
  else (((s.setReg rFLASH_ERR_ADDR (wd a)).setFld rFLASH_ERR 15 8 status).setRbit rFLASH_ERR 0 true)

/-- A command of the FLASH block holds reads back: a PROGRAM, or an ERASE that is not suspended (R345). -/
def flashStalls (s : State) : Bool :=
  match s.flash.running with
  | some (.program _ _ _) => true
  | some (.erase _) => !s.flash.suspended
  | none => false

/-- The sectors that [a, a + n) touches. -/
def sectorsOf (a n : Nat) : List Nat := (List.range (sectorOf (a + n - 1) - sectorOf a + 1)).map (fun i => sectorOf a + i)

/-- How the lowest sector that cannot be read answers: under a suspended erase 0x05, TORN 0x0F (R346, R347). -/
def flashRefusal (s : State) (a n : Nat) : Option Nat :=
  (sectorsOf a n).findSome? (fun x =>
    if s.flash.running == some (.erase x) then some 5 else if s.flash.torn.contains x then some 0xF else none)

/-- A read of code flash made for an access at address `x`, which FLASH_ERR records (R345 to R347). -/
def readFlashFor (x a n : Nat) (s : State) : Ans × State :=
  if flashStalls s then (.stall, s)
  else match flashRefusal s a n with
    | none => (.ok (readBytes s a n), s)
    | some 0xF => (.torn, flashErr x 0xF s)
    | some v => (.err, flashErr x v s)

def readFlash (a n : Nat) (s : State) : Ans × State := readFlashFor a a n s

/-- The boot ROM: its last word is the ROM identity, every other byte is the ROM's own (R270; log entry 5). -/
def romByte (a : Nat) : Byte :=
  if a = 0xFFFC then 0x01 else if a = 0xFFFD then 0x01 else if a = 0xFFFE then 0x60 else if a = 0xFFFF then 0x09
  else Config.bootRomByte a

/-! ### PCIe outbound window (R1043) -/

def State.outboundUp (s : State) : Bool := s.host.linkUp && s.host.busMaster

def State.hostAddr (s : State) (a : Nat) : Nat :=
  (s.reg rHOSTIF_OB_HI).toNat * 2 ^ 32 + s.fld rHOSTIF_OB_LO 31 28 * 2 ^ 28 + a % 2 ^ 28

/-- A read through the window: bytes the device wrote itself read back, every other byte is the host's (log entry 6). -/
def readOutbound (a n : Nat) (s : State) : Ans × State :=
  if !s.outboundUp then (.err, s)
  else
    let h := s.hostAddr a
    (.ok ((List.range n).map (fun i => (aget? s.mem.host (h + i)).getD (Config.hostByte s.free (h + i)))),
      { s with free := s.free + 1 })

def writeOutbound (a : Nat) (bs : Bytes) (s : State) : Ans × State :=
  if !s.outboundUp then (.err, s)
  else (.ok [], { s with mem := { s.mem with
    host := bs.zipIdx.foldl (fun m b => ains m (s.hostAddr a + b.2) b.1) s.mem.host } })

/-! ### Accesses of engines and uncached accesses (R291) -/

/-- The lines that [a, a + n) touches. -/
def linesOf (a n : Nat) : List Nat :=
  if n = 0 then [] else (List.range ((a + n - 1) / 64 - a / 64 + 1)).map (fun i => lineOf a + 64 * i)

/-- An engine or uncached read of shared SRAM. -/
def readSram (src a n : Nat) (s : State) : Ans × State :=
  let s := correct a n (forEach (linesOf a n) (fun l t => recallLine l none t) s)
  match s.badIn a n with
  | some g => (.err, recordUe g src s)
  | none => (.ok (readBytes s a n), s)

/-- An engine or uncached write of shared SRAM. One that recalls a line with an uncorrectable error is answered with an error
and writes nothing (R314; log entry 15). -/
def writeSram (src a : Nat) (bs : Bytes) (s : State) : Ans × State :=
  let t := forEach (linesOf a bs.length) (fun l t => invalidateLine l none t) s
  match (linesOf a bs.length).find? (fun l => s.badOwner l none) with
  | some l => (.err, recordUe l src t)
  | none => (.ok [], mergeSram a bs (mergeRead src a bs.length t))

/-- A physical read by an engine, the front end or a host DMA, within one region. -/
def physRead (src a n : Nat) (s : State) : Ans × State :=
  if n = 0 then (.ok [], s)
  else if inSram a && inSram (a + n - 1) then readSram src a n s
  else if inFlash a && inFlash (a + n - 1) then readFlash a n s
  else if inOutbound a && inOutbound (a + n - 1) then readOutbound a n s
  else (.err, s)

/-- A physical write by an engine, the front end or a host DMA. -/
def physWrite (src a : Nat) (bs : Bytes) (s : State) : Ans × State :=
  if bs.isEmpty then (.ok [], s)
  else if inSram a && inSram (a + bs.length - 1) then writeSram src a bs s
  else if inOutbound a && inOutbound (a + bs.length - 1) then writeOutbound a bs s
  else (.err, s)

/-! ### Address translation (R298 to R306) -/

/-- Records a translation fault while VALID is 0, else OVF, which only its own write of 1 clears. -/
def xlateFault (ctx va engine reason : Nat) (write : Bool) (s : State) : State :=
  if s.rbit rXLATE_FAULT_INFO 0 then s.setRbit rXLATE_FAULT_INFO 1 true
  else (s.setReg rXLATE_FAULT_VA (wd va)).setReg rXLATE_FAULT_INFO
    (wd (fld 16 (va / 2 ^ 32 % 2 ^ 16) + fld 10 (ctx % 64) + fld 6 (engine % 16) + fld 3 reason + fld 2 (b2n write) +
      fld 1 (b2n (s.rbit rXLATE_FAULT_INFO 1)) + 1))

/-- The requester code of an engine in SYS_ECC_STAT.SRC: 0x10 + ID; the front end has 0x22 (06). -/
def eccSrc (engine : Nat) : Nat := if engine = 0 then 0x22 else 0x10 + engine % 16

/-- Whether a page frame lies where R301 allows it. -/
def frameOk (pa : Nat) (write : Bool) : Bool := inSram pa || inOutbound pa || (!write && inFlash pa)

/-- A table entry read coherently; its address must lie in shared SRAM (R301, R302). -/
def tableRead (engine a : Nat) (s : State) : Except Nat Word × State :=
  if !inSram a then (.error 6, s)
  else match readSram (eccSrc engine) a 4 s with
    | (.ok bs, s) => (.ok (wordOfLe bs), s)
    | (_, s) => (.error 7, s)

/-- The level-2 entry that translates a page, from the translation cache or by a walk (R299, R302); an error is the reason
of R306. A full cache gives up its oldest entry, and a walk installs its result before the access is judged by R, W and the
frame (DESIGN CHOICE, log entry 14). -/
def walk (engine ctx va : Nat) (s : State) : Except Nat Word × State :=
  let page := va % 2 ^ 32 / 4096
  match s.mem.tlb.find? (fun e => e.ctx == ctx && e.page == page) with
  | some e => (.ok e.l2, s)
  | none =>
    let root := (s.reg (rXLATE_ROOT + 8 * ctx)).toNat / 4096 * 4096
    match tableRead engine (root + page / 1024 % 1024 * 4) s with
    | (.error r, s) => (.error r, s)
    | (.ok l1, s) =>
      if !bit l1 0 then (.error 3, s)
      else match tableRead engine (l1.toNat / 4096 * 4096 + page % 1024 * 4) s with
        | (.error r, s) => (.error r, s)
        | (.ok l2, s) =>
          if !bit l2 0 then (.error 4, s)
          else (.ok l2, { s with mem := { s.mem with tlb := (s.mem.tlb ++ [(⟨ctx, page, l2⟩ : TlbEntry)]).drop (s.mem.tlb.length - 127) } })

/-- The physical address of a device virtual address (R298, R299). -/
def translate (engine ctx va : Nat) (write : Bool) (s : State) : Option Nat × State :=
  let flt := fun (r : Nat) (s : State) => ((none : Option Nat), xlateFault ctx va engine r write s)
  if !s.rbit (rXLATE_ROOT + 8 * ctx) 0 then flt 1 s
  else if va / 2 ^ 32 % 2 ^ 16 != s.fld (rXLATE_VA + 8 * ctx) 15 0 then flt 2 s
  else match walk engine ctx va s with
    | (.error r, s) => flt r s
    | (.ok l2, s) =>
      if (write && !bit l2 2) || (!write && !bit l2 1) then flt 5 s
      else
        let pa := l2.toNat / 4096 * 4096 + va % 4096
        if frameOk pa write then (some pa, s) else flt 6 s

/-- The pieces of [va, va + n) that lie within one page each. -/
def pagePieces : Nat → Nat → Nat → List (Nat × Nat)
  | 0, _, _ => []
  | fuel + 1, va, n =>
    if n = 0 then []
    else
      let k := min n (4096 - va % 4096)
      (va, k) :: pagePieces fuel (va + k) (n - k)

/-- A read of device virtual memory in a context; context 0xFF names physical shared SRAM (R428, R443). -/
def devRead (engine ctx va n : Nat) (s : State) : Ans × State :=
  if ctx = 0xFF then
    if inSram va && inSram (va + n - 1) then physRead (eccSrc engine) va n s else (.err, s)
  else
    (pagePieces (n / 4096 + 2) va n).foldl (fun acc p =>
      match acc with
      | (.ok bs, s) =>
        match translate engine ctx p.1 false s with
        | (none, s) => (.fault, s)
        | (some pa, s) =>
          match physRead (eccSrc engine) pa p.2 s with
          | (.ok b, s) => (.ok (bs ++ b), s)
          | r => r
      | r => r) (.ok [], s)

/-- A write of device virtual memory in a context. Earlier pages stay written when a later one faults (R304). -/
def devWrite (engine ctx va : Nat) (bs : Bytes) (s : State) : Ans × State :=
  if ctx = 0xFF then
    if inSram va && inSram (va + bs.length - 1) then physWrite (eccSrc engine) va bs s else (.err, s)
  else
    ((pagePieces (bs.length / 4096 + 2) va bs.length).foldl (fun (acc : (Ans × State) × Bytes) p =>
      match acc.1 with
      | (.ok _, s) =>
        match translate engine ctx p.1 true s with
        | (none, s) => ((.fault, s), acc.2)
        | (some pa, s) => (physWrite (eccSrc engine) pa (acc.2.take p.2) s, acc.2.drop p.2)
      | r => (r, acc.2)) ((.ok [], s), bs)).1

/-! ### Accesses of cores to Normal memory (R183 to R185, R269, R285 to R291) -/

/-- A core's data cache is enabled (R266). -/
def State.den (s : State) (c : Fin 6) : Bool := s.rbit (regKey (.core c) rCPRIV_CACHE) 1

/-- A line fetched for a read: the other caches drop to SHARED, and the core gets EXCLUSIVE when it is the only one. -/
def fillLine (c : Fin 6) (a : Nat) (s : State) : Ans × State :=
  if inSram a then
    let s := correct (lineOf a) 64 (recallLine a (some c) s)
    match s.badIn (lineOf a) 64 with
    | some g => (.err, recordUe g c.val s)
    | none =>
      let st : LineState := if s.heldElsewhere c a then .shared else .exclusive
      (.ok [], installLine c ⟨lineOf a, 0, st, readBytes s (lineOf a) 64, false, false⟩ s)
  else if inFlash a then
    match readFlashFor a (lineOf a) 64 s with
    | (.ok bs, s) => (.ok [], installLine c ⟨lineOf a, 0, .shared, bs, false, false⟩ s)
    | r => r
  else (.ok [], installLine c ⟨lineOf a, 0, .shared, (List.range 64).map (fun i => romByte (lineOf a + i)), false, false⟩ s)

/-- A cached line read by its core: an uncorrectable error is recorded, a correction is counted; the lines hold the line
corrected and most recently used. -/
def hitLine (c : Fin 6) (a : Nat) (l : Line) (ls : List Line) (put : List Line → State → State) (s : State) : Ans × State :=
  if l.bad then (.err, recordUe a c.val s)
  else (.ok l.data, put ({ l with flip := false } :: dropLine ls a) (when l.flip recordCe s))

/-- A read of the Kiln's private SRAM: what its code corrects or finds shows in no register (R311). -/
def readKilnSram (a n : Nat) (s : State) : Ans × State :=
  match s.badIn a n with
  | some _ => (.err, s)
  | none => (.ok (readBytes s a n), forEach (granulesOf a n) dropFlip s)

/-- A core's read of n bytes of Normal memory, within one line. -/
def coreRead (c : Fin 6) (a n : Nat) (s : State) : Ans × State :=
  if inKilnSram a then readKilnSram a n s
  else if s.waitsClear a n then (.stall, s)
  else if s.den c then
    let r := match findLine (s.lines c) a with
      | some _ => ((Ans.ok [] : Ans), s)
      | none => fillLine c a s
    match r with
    | (.ok _, s) =>
      match findLine (s.lines c) a with
      | none => (.err, s)
      | some l =>
        match hitLine c a l (s.lines c) (fun ls s => s.setLines c ls) s with
        | (.ok bs, s) => (.ok (slice bs (a - l.addr) n), s)
        | r => r
    | r => r
  else if inSram a then readSram c.val a n s
  else if inFlash a then readFlash a n s
  else (.ok ((List.range n).map (fun i => romByte (a + i))), s)

/-- Bytes of a line replaced. -/
def patch (data : Bytes) (off : Nat) (bs : Bytes) : Bytes := data.take off ++ bs ++ data.drop (off + bs.length)

/-- Every copy of a line but one core's data cache's dropped, with no write to SRAM: an owner has returned its data to the
requester (R291, OWNED by P and ownership). -/
def dropCopies (a : Nat) (keep : Fin 6) (s : State) : State :=
  forEach allCores (fun d s => if d == keep then s else s.setLines d (dropLine (s.lines d) a)) (dropIlines a s)

/-- A core's store through its data cache: it obtains ownership of the line. A store that misses on a line with an
uncorrectable error in SRAM goes to SRAM uncached, where it is merged as poison (R275; log entry 15). -/
def storeLine (c : Fin 6) (a : Nat) (bs : Bytes) (s : State) : Ans × State :=
  let put := fun (l : Line) (s : State) =>
    s.setLines c ({ l with st := .modified, data := patch l.data (a - l.addr) bs } :: dropLine (s.lines c) a)
  let fresh := fun (data : Bytes) (s : State) =>
    installLine c ⟨lineOf a, 0, .modified, patch data (a - lineOf a) bs, false, false⟩ s
  match findLine (s.lines c) a, s.ownerOf a (some c) with
  | some l, _ => (.ok [], put l (dropCopies a c s))
  | none, some o => (.ok [], fresh o.data (when o.flip recordCe (dropCopies a c s)))
  | none, none =>
    let s := correct (lineOf a) 64 (dropCopies a c s)
    if (s.badIn (lineOf a) 64).isSome then writeSram c.val a bs s
    else (.ok [], fresh (readBytes s (lineOf a) 64) s)

/-- A core's write of bytes to shared SRAM or Kiln private SRAM, within one line. -/
def coreWrite (c : Fin 6) (a : Nat) (bs : Bytes) (s : State) : Ans × State :=
  if inKilnSram a then (.ok [], mergeSram a bs s)
  else if s.waitsClear a bs.length then (.stall, s)
  else if s.den c then
    if s.badOwner a (some c) then (.err, recordUe (lineOf a) c.val (invalidateLine a (some c) s))
    else storeLine c a bs s
  else writeSram c.val a bs s

/-- Every cached line of a flash sector invalidated (R288). -/
def invalidateSector (sec : Nat) (s : State) : State :=
  let keep := fun (l : Line) => !(inFlash l.addr && sectorOf l.addr == sec)
  forEach allCores (fun c t =>
    (t.setLines c ((t.lines c).filter keep)).setIlines c ((t.ilines c).filter keep)) s

/-! ### Fetches (R171, R172, R266, R286, R291) -/

/-- A core fetches from an address: the boot ROM, the image regions and shared SRAM, and its private SRAM on the Kiln core. -/
def fetchable (c : Fin 6) (a : Nat) : Bool :=
  inRom a || inImages a || inSram a || (c.val == 5 && inKilnSram a)

/-- A core's instruction cache is enabled (R266). -/
def State.ien (s : State) (c : Fin 6) : Bool := s.rbit (regKey (.core c) rCPRIV_CACHE) 0

/-- A line read by an instruction cache: a MODIFIED copy goes to SRAM, and every copy is SHARED afterwards (R291). -/
def fetchLine (c : Fin 6) (a : Nat) (s : State) : Ans × State :=
  let put := fun (bs : Bytes) (s : State) =>
    ((Ans.ok [] : Ans), s.setIlines c (putLine (waysOf c) ⟨lineOf a, 0, .shared, bs, false, false⟩ (s.ilines c)).1)
  if inSram a then
    let s := correct (lineOf a) 64 (recallLine a none s)
    match s.badIn (lineOf a) 64 with
    | some g => (.err, recordUe g c.val s)
    | none => put (readBytes s (lineOf a) 64) s
  else if inFlash a then
    match readFlashFor a (lineOf a) 64 s with
    | (.ok bs, s) => put bs s
    | r => r
  else put ((List.range 64).map (fun i => romByte (lineOf a + i))) s

/-- The answer to a core's fetch of the instruction word at an address whose region permits fetches. The word itself is the
one that the command carries (log entry 8). -/
def coreFetch (c : Fin 6) (a : Nat) (s : State) : Ans × State :=
  if inKilnSram a then readKilnSram a 4 s
  else if s.waitsClear a 4 then (.stall, s)
  else if s.ien c then
    match findLine (s.ilines c) a with
    | some l => hitLine c a l (s.ilines c) (fun ls s => s.setIlines c ls) s
    | none => fetchLine c a s
  else if inSram a then readSram c.val a 4 s
  else if inFlash a then readFlash a 4 s
  else (.ok [], s)

end Sys2Proof.Machine
end

