-- ==== Sys2Proof/Machine/FrontData.lean ====
section
/-! DEFINITION. The tables of the command front end: queues, buffers, edges, cages and engines, the counts that engines
add to (09, 10), and which modes accept which operation (R83). -/
namespace Sys2Proof.Machine

/-! ### Accessors -/

def State.queue? (s : State) (n : Nat) : Option Queue := aget? s.front.queues n

def State.putQueue (s : State) (n : Nat) (q : Queue) : State :=
  { s with front := { s.front with queues := ains s.front.queues n q } }

def State.onQueue (s : State) (n : Nat) (f : Queue → Queue) : State :=
  match s.queue? n with
  | some q => s.putQueue n (f q)
  | none => s

def State.cage (s : State) (c : Fin 8) : Cage := s.front.cages.get c

def State.setCage (s : State) (c : Fin 8) (g : Cage) : State :=
  { s with front := { s.front with cages := s.front.cages.set c g } }

def allCages : List (Fin 8) := [0, 1, 2, 3, 4, 5, 6, 7]

/-- An engine with no command; a grant is first looked for from cage 0 (R469). -/
def Engine.idle : Engine := ⟨none, 0, none, 7, none⟩

def State.engine (s : State) (e : Nat) : Engine := agetD s.front.engines e Engine.idle

def State.setEngine (s : State) (e : Nat) (x : Engine) : State :=
  { s with front := { s.front with engines := asetD Engine.idle s.front.engines e x } }

/-- The cage as a number of eight. -/
def cageNo (n : Nat) : Fin 8 := Fin.ofNat 8 n

/-- The dispatched command of an engine. -/
def State.dispatched (s : State) (e : Nat) : Option Dispatched :=
  match (s.engine e).cage with
  | none => none
  | some c => (s.cage (cageNo c)).disp

/-- The edge that a reference names, where its generation is the present one (R450). -/
def State.edgeAt (s : State) (r : Nat) : Option Edge :=
  if r / 4096 != 0 && agetD s.front.edgeGen (r % 4096) 0 == r / 4096 then aget? s.front.edges (r % 4096) else none

/-- The buffer that a handle names, where its generation is the present one (R444). -/
def State.bufAt (s : State) (h : Nat) : Option Buffer :=
  if h / 1024 != 0 && agetD s.front.bufGen (h % 1024) 0 == h / 1024 then aget? s.front.buffers (h % 1024) else none

/-- Sets a bit of FRONT_EVT, which raises no event (R484): 0 RING_FAULT, 1 DB_BAD, 2 DB_FOREIGN, 3 EDGE_TWICE,
4 CTL_REFUSED. -/
def frontEvent (b : Nat) (s : State) : State := s.setRbit rFRONT_EVT b true

/-! ### Attempts and late successes (R500, R510, R512) -/

/-- A lower-level attempt that the engine hardware starts for its command is counted. -/
def attempt (e : Nat) (s : State) : State :=
  let x := s.engine e
  s.setEngine e { x with attempts := if x.cage.isSome then satInc 255 x.attempts else x.attempts, late := none }

/-- The engine holds a command that has not been cancelled, so its hardware may start an attempt (R510). -/
def State.mayAttempt (s : State) (e : Nat) : Bool := (s.engine e).draining.isNone

/-- LATE_DISCARD of a queue counts one more. -/
def countLate (q : Nat) (s : State) : State := s.onQueue q (fun q => { q with lateDiscard := satInc 0xFFFF q.lateDiscard })

/-- A late success of a cancelled command: counted once for its queue, whether its engine drains still or has drained
(R512, R513). -/
def lateSuccess (e : Nat) (s : State) : State :=
  match (s.engine e).draining, (s.engine e).late with
  | some d, _ =>
    if d.counted then s
    else countLate d.queue (s.setEngine e { s.engine e with draining := some { d with counted := true } })
  | none, some q => countLate q (s.setEngine e { s.engine e with late := none })
  | none, none => s

/-! ### Which modes accept an operation (R83) -/

/-- The modes of the last row of R83: every mode in which commands run. -/
def runMode (m : Mode) : Bool :=
  match m with
  | .factory | .unmated | .parked | .approach | .access | .drive | .service | .lockdown => true
  | _ => false

/-- The modes of the partner key roll. -/
def rollMode (m : Mode) : Bool :=
  match m with
  | .parked | .approach | .access | .drive | .service => true
  | _ => false

/-- The operations that SERVICE alone accepts: mating, enrolment, and the writing of a credential slot or its key. -/
def serviceOnly (e op : Nat) : Bool :=
  (e == 0xC && op == 2) || (e == 0xB && op == 4) ||
  (e == 2 && ((0x37 ≤ op && op ≤ 0x3C) || (0x42 ≤ op && op ≤ 0x44)))

/-- The partner key rolls. -/
def rollOp (e op : Nat) : Bool := (e == 0xC && op == 3) || (e == 0xB && op == 5) || (e == 2 && (op == 0x45 || op == 0x46))

/-- The operations of FACTORY alone: the entropy test pattern, fuse programming and factory closure (R820, R876). -/
def factoryOnly (e op : Nat) : Bool := e == 2 && (op == 0x22 || op == 0x51 || op == 0x52)

/-- A LEDGER command that writes a credential slot: WRITE, WRITE_IF or ERASE of records 16 to 47 (R386, R397). -/
def writesCredential (e op rec : Nat) : Bool := e == 5 && 2 ≤ op && op ≤ 4 && 16 ≤ rec && rec ≤ 47

/-- Whether a mode accepts an operation of an engine, `rec` being the record that a LEDGER command names. Every command of the
FIELD, RANGE and NFC engines counts as the credential challenge exchange of row 5 (DESIGN CHOICE, log entry 96). -/
def modeAccepts (m : Mode) (e op rec : Nat) : Bool :=
  if e == 0xC && op == 1 then m == .access || m == .drive
  else if serviceOnly e op || writesCredential e op rec then m == .service
  else if rollOp e op then rollMode m
  else if factoryOnly e op then m == .factory
  else if e == 6 || e == 7 || e == 0xA then runMode m && m != .lockdown
  else runMode m

end Sys2Proof.Machine
end

