-- ==== Sys2Proof/Machine/Adc.lean ====
section
/-! DEFINITION. The interleaved converter: starts, stops, injections, results, the circular buffer and the window
comparators (11). ADC_RESULT carries each sample's CODE as the corrector delivers it (R552; log entry 109). -/
namespace Sys2Proof.Machine

/-! ### The sample grid (R539, R541, R584) -/

/-- Low-power mode is in effect. -/
def State.adcLp (s : State) : Bool := s.rbit rADC_CTL 1

/-- The instants from one slice boundary to the next: a round of 4, or one low-power sample every 160. -/
def adcRound (lp : Bool) : Nat := if lp then 160 else 4

/-- The distance to the next sample instant. -/
def adcStep (lp : Bool) : Nat := if lp then 160 else 1

/-- The first slice boundary at or after a tick (R561). -/
def adcBoundary (lp : Bool) (t : Nat) : Nat :=
  let k := 39 * adcRound lp
  adcRound lp * ((100 * t + k - 1) / k)

/-- An instant rounded up to a slice boundary. -/
def adcCeil (lp : Bool) (i : Nat) : Nat := adcRound lp * ((i + adcRound lp - 1) / adcRound lp)

/-- The tick at or before an instant, and the distance after it in 1024ths, rounded to the nearest (R578). -/
def adcTick (i : Nat) : Nat × Nat := (39 * i / 100, (39 * i % 100 * 1024 + 50) / 100)

/-! ### Entries (R555, R559) -/

/-- The register of an entry; entry 16 is the injected one. -/
def entReg (n : Nat) : Nat := if n = 16 then rADC_ENT_INJ else rADC_ENT + 4 * n
def winReg (n : Nat) : Nat := if n = 16 then rADC_WIN_INJ else rADC_WIN + 4 * n
def resReg (n : Nat) : Nat := if n = 16 then rADC_RES_INJ else rADC_RES + 4 * n

/-- An entry that passes the checks of R559. -/
def entOk (lp : Bool) (w : Word) : Bool :=
  1 ≤ bits w 12 0 && bits w 12 0 ≤ 4096 && bits w 19 18 != 3 && bits w 17 13 ≤ 0x17 && !(lp && bits w 17 13 < 8)

def entAvg (w : Word) : Nat := bits w 23 21

/-- NORM per CODE in a range (R543). -/
def rangeMul (r : Nat) : Int := if r = 0 then 1 else if r = 1 then 4 else 16

/-- SETTLE of an entry, in samples. -/
def settleSamples (lp : Bool) (w : Word) : Nat := bits w 27 24 * (if lp then 1 else 4)

/-- A run of an entry from a slice boundary, `quiet` rounds of its earlier passes counted in the same range (R548). -/
def AdcRun.start (lp : Bool) (w : Word) (entry range quiet pos : Nat) : AdcRun :=
  { entry := entry, range := range, pos := pos, begun := false, settle := settleSamples lp w, made := 0, sum := 0, got := 0
    seam := false, clip := false, gap := false, switchAt := none, quiet := quiet, quietNow := true, seamDue := false
    seamKept := false, marker := some false }

/-- The slice boundary at which a run ends (R555). -/
def AdcRun.endAt (lp : Bool) (w : Word) (r : AdcRun) : Nat :=
  adcCeil lp (r.pos + (r.settle + (bits w 12 0 - r.made) * 2 ^ entAvg w - r.got) * adcStep lp)

/-- An interrupted run as it resumes: its result in progress discarded, its settle rounds due again, GAP on its next
result, and a decision that was on its way in effect (R567, R568). A run that had converted nothing is not interrupted
(R595). -/
def AdcRun.interrupt (lp : Bool) (w : Word) (r : AdcRun) : AdcRun :=
  if !r.begun then r
  else
    let r := match r.switchAt with
      | some (_, nr) => { r with range := nr, switchAt := none, quiet := 0, seamKept := true }
      | none => r
    { r with settle := settleSamples lp w, sum := 0, got := 0, seam := false, clip := false, gap := true
             quietNow := true, seamDue := false, marker := some true }

/-- A result as it is written (R543, R556). -/
structure AdcResult where
  norm : Int
  range : Nat
  seam : Bool
  clip : Bool
  gap : Bool
  /-- the instants of its first and last sample -/
  first : Nat
  last : Nat
  deriving DecidableEq, Repr

/-- The range decision a sample makes, if any (R547, R551). -/
def upSwitch (w : Word) (r : AdcRun) (code : BitVec 12) : Option Nat :=
  if bit w 20 && r.switchAt.isNone && r.range < 2 && 1984 ≤ code.toInt.natAbs then
    some (if code.toInt = -2048 || code.toInt = 2047 then 2 else r.range + 1)
  else none

/-- A decision whose slice boundary the run has reached takes effect: the next sample carries the seam (R549). -/
def AdcRun.atBoundary (r : AdcRun) : AdcRun :=
  match r.switchAt with
  | some (b, nr) => if b ≤ r.pos then { r with range := nr, switchAt := none, quiet := 0, seamDue := true } else r
  | none => r

/-- A sample ends its round. -/
def roundEnd (lp : Bool) (pos : Nat) : Bool := lp || pos % 4 = 3

/-- The rounds in a row that R548 counts, and whether the present one still belongs to them, after a sample. -/
def AdcRun.count (lp : Bool) (code : BitVec 12) (r : AdcRun) : AdcRun :=
  let q := (r.pos % adcRound lp == 0 || r.quietNow) && decide (code.toInt.natAbs < 448)
  { r with begun := true, quietNow := q, quiet := if roundEnd lp r.pos then (if q then r.quiet + 1 else 0) else r.quiet }

/-- The down-switch is decided (R548, R551). -/
def AdcRun.downs (lp : Bool) (w : Word) (r : AdcRun) : Bool :=
  bit w 20 && roundEnd lp r.pos && 0 < r.range && 2 ^ (bits w 30 28 + 6) ≤ r.quiet

/-- A decision of this sample, which takes effect at the boundary of round r + 3 (R547 to R551, R600). -/
def AdcRun.decide (lp : Bool) (w : Word) (code : BitVec 12) (r : AdcRun) : AdcRun :=
  let b := (r.pos / adcRound lp + 3) * adcRound lp
  match upSwitch w r code with
  | some nr => { r with switchAt := some (b, nr) }
  | none => if r.switchAt.isNone && r.downs lp w then { r with switchAt := some (b, r.range - 1) } else r

/-- A sample added to the result in progress (R556). -/
def AdcRun.add (lp : Bool) (code : BitVec 12) (r : AdcRun) : AdcRun :=
  { r with
    pos := r.pos + adcStep lp
    sum := r.sum + code.toInt * rangeMul r.range
    got := r.got + 1
    seam := r.seam || r.seamDue || r.seamKept
    seamDue := false
    seamKept := false
    clip := r.clip || code.toInt == -2048 || code.toInt == 2047 }

/-- NORM of a complete result. -/
def resultNorm (a : Nat) (sum : Int) : Int := if a = 0 then sum else (sum + 2 ^ (a - 1)) >>> a

/-- A complete result leaves the run, which goes on with the next one. -/
def AdcRun.emit (lp : Bool) (a : Nat) (r : AdcRun) : AdcRun × Option AdcResult :=
  let last := r.pos - adcStep lp
  ({ r with sum := 0, got := 0, seam := false, clip := false, gap := false, made := r.made + 1 },
    some ⟨resultNorm a r.sum, r.range, r.seam, r.clip, r.gap, last - (2 ^ a - 1) * adcStep lp, last⟩)

/-- One sample converted by a run: the range decisions of R547 to R551, the discarded samples of R555, and the result it
completes. -/
def AdcRun.sample (lp : Bool) (w : Word) (code : BitVec 12) (r : AdcRun) : AdcRun × Option AdcResult :=
  let r := ((r.atBoundary).count lp code).decide lp w code
  if 0 < r.settle then ({ r with pos := r.pos + adcStep lp, settle := r.settle - 1, seamDue := false }, none)
  else
    let r := r.add lp code
    if r.got < 2 ^ entAvg w then (r, none) else r.emit lp (entAvg w)

/-! ### Records and the circular buffer (R576 to R582) -/

/-- The fields that a result register and a sample record share. -/
def resultBits (x : AdcResult) (gap : Bool) : Nat :=
  fld 25 (b2n gap) + fld 24 (b2n x.seam) + fld 23 (b2n x.clip) + fld 21 x.range + (BitVec.ofInt 16 x.norm).toNat

def adcEvent (b : Nat) (s : State) : State := blockEvent rADC_EVT rADC_IE rADC_IE 16 12 b s

/-- The unread bytes of the buffer. -/
def adcUnread (s : State) : Nat :=
  let size := 2 ^ s.fld rADC_DMA_SIZE 4 0
  (s.fld rADC_DMA_WR 19 0 + 2 ^ 20 - s.fld rADC_DMA_RD 19 0) % size

/-- A record fits under R580. -/
def adcFits (n : Nat) (s : State) : Bool := adcUnread s + n ≤ 2 ^ s.fld rADC_DMA_SIZE 4 0 - 4

/-- A record dropped: counted, with OVERRUN, and GAP on the next sample record. -/
def adcDrop (s : State) : State :=
  let s := adcEvent 4 (s.satFld rADC_DMA_DROP 31 0)
  { s with adc := { s.adc with dropped := true } }

/-- A record's words written to the buffer at WR, one word at a time around its end (R576, R579). HWM is set when the
unread bytes reach ADC_DMA_HWM. -/
def adcStore (ws : List Word) (s : State) : State :=
  let before := adcUnread s
  let size := 2 ^ s.fld rADC_DMA_SIZE 4 0
  let s := forEach ws (fun w s =>
    let wr := s.fld rADC_DMA_WR 19 0
    ((physWrite (eccSrc 8) ((s.reg rADC_DMA_BASE).toNat + wr) (leOfWord w) s).2).setFld rADC_DMA_WR 19 0 ((wr + 4) % size)) s
  when (before < s.fld rADC_DMA_HWM 19 0 && s.fld rADC_DMA_HWM 19 0 ≤ adcUnread s) (adcEvent 3) s

/-- A marker before the first result of a run (R578). -/
def adcMarker (inj : Bool) (entry : Nat) (resumed : Bool) (first : Nat) (s : State) : State :=
  let (t, f) := adcTick first
  if adcFits 8 s then
    adcStore [wd (fld 30 2 + fld 26 (if inj then 0 else entry) + fld 25 (b2n inj) + fld 24 (b2n resumed) + f), wd t] s
  else adcDrop s

/-- The window comparator (R573, R574). -/
def adcWindow (n : Nat) (norm : Int) (s : State) : State :=
  if !s.rbit (entReg n) 31 then s
  else
    let w := s.reg (winReg n)
    let inside := sgn 16 (bits w 15 0) ≤ norm && norm ≤ sgn 16 (bits w 31 16)
    let was := s.adc.outside.getLsbD n
    let s := { s with adc := { s.adc with
      outside := if inside then s.adc.outside &&& ~~~(BitVec.ofNat 17 (1 <<< n)) else s.adc.outside ||| BitVec.ofNat 17 (1 <<< n) } }
    when (!inside && !was) (fun s => adcEvent 2 (s.setRbit rADC_WIN_EVT n true)) s

/-- The record of a result (R577, R581). -/
def adcRecord (inj : Bool) (entry : Nat) (gap : Bool) (x : AdcResult) : Word :=
  wd (fld 30 (b2n inj) + fld 26 (if inj then 0 else entry) + resultBits x gap)

/-- The marker and the record of a result put into the ring, with whether the result carries GAP (R577, R581). -/
def adcRing (inj : Bool) (entry : Nat) (marker : Option Bool) (x : AdcResult) (s : State) : Bool × State :=
  let dma := s.rbit rADC_CTL 10
  let s := withSome marker (fun res => when dma (adcMarker inj entry res x.first)) s
  let fits := dma && adcFits 4 s
  let gap := x.gap || (fits && s.adc.dropped)
  (gap, if fits then adcStore [adcRecord inj entry gap x] { s with adc := { s.adc with dropped := false } } else when dma adcDrop s)

/-- The copy of an injected result on DOUT, sent only if its channel has room (R586, R587). -/
def adcCopy (rec_ : Word) (lastOfRun : Bool) (x : AdcResult) (s : State) : State :=
  let at_ := adcTick (x.last + 12)
  let r := portTry 0x83 rec_ lastOfRun at_.1 at_.2 s
  if r.1 then r.2 else adcEvent 5 r.2

/-- A result written: its marker, its register with GEN advanced, its record, its window and the injected copy on DOUT
(R571, R577, R586 to R588). -/
def adcDeliver (inj : Bool) (entry : Nat) (marker : Option Bool) (lastOfRun : Bool) (x : AdcResult) (s : State) : State :=
  let r := adcRing inj entry marker x s
  let n := if inj then 16 else entry
  let s := r.2.setReg (resReg n) (wd (fld 28 (r.2.fld (resReg n) 31 28 + 1) + resultBits x r.1))
  when (inj && s.rbit rADC_CTL 11) (adcCopy (adcRecord inj entry r.1 x) lastOfRun x) (adcWindow n x.norm s)

/-- A STAT word, sent only if its channel has room (R586, R588). -/
def adcStat (n kind : Nat) (s : State) : State := (portTry 0x85 (wd (fld 16 n + kind)) false s.clk.tb 0 s).2

/-! ### Running (R555 to R570) -/

def State.setSeq (s : State) (r : Option AdcRun) : State := { s with adc := { s.adc with seq := r } }

/-- RUNNING and INJ_RUN as the runs stand. -/
def adcFlags (s : State) : State :=
  let s := (s.setRbit rADC_STAT 2 s.adc.seq.isSome).setRbit rADC_STAT 3 s.adc.inj.isSome
  match s.adc.seq with
  | some r => s.setFld rADC_STAT 15 12 r.entry
  | none => s

/-- The range in which an entry starts (R546). -/
def entRange (s : State) (n : Nat) : Nat :=
  let w := s.reg (entReg n)
  if bit w 20 then s.adc.ranges.getD n 0 else bits w 19 18

/-- An entry of the sequence from a slice boundary. -/
def entStart (s : State) (n pos : Nat) : AdcRun :=
  AdcRun.start s.adcLp (s.reg (entReg n)) n (entRange s n) (s.adc.quiets.getD n 0) pos

/-- The samples after the last result, to the end of their round: they are converted and discarded, and the range decisions of
an AUTO entry see them (R547, R555). -/
def AdcRun.tail (lp : Bool) (w : Word) (codes : List (BitVec 12)) : Nat → Nat → AdcRun → AdcRun
  | 0, _, r => r
  | fuel + 1, k, r =>
    if adcCeil lp r.pos = r.pos then r
    else
      let r := (r.atBoundary.count lp (codes.getD k 0)).decide lp w (codes.getD k 0)
      AdcRun.tail lp w codes fuel (k + 1) { r with pos := r.pos + adcStep lp, seamDue := false }

/-- The next entry after one whose last result has been produced, from the slice boundary after its last sample; the end
of a pass sets SEQ_DONE and sends STAT (R555 to R558). A decision on its way takes effect in the next pass of a sequence of one
entry; a longer sequence starts the entry's next pass in the range it ended this one (R546, R549; log entry 101). -/
def adcNext (r : AdcRun) (s : State) : State :=
  let pos := adcCeil s.adcLp r.pos
  let s := { s with adc := { s.adc with ranges := s.adc.ranges.set r.entry r.range, quiets := s.adc.quiets.set r.entry r.quiet } }
  if r.entry < s.fld rADC_CTL 15 12 then s.setSeq (some (entStart s (r.entry + 1) pos))
  else
    let n := s.adc.results
    let s := { s with adc := { s.adc with results := 0, outside := s.adc.outside &&& 0x10000 } }
    let s := adcStat n 1 (adcEvent 0 (s.incFld rADC_STAT 31 16))
    if s.rbit rADC_CTL 2 then
      s.setSeq (some (if r.entry = 0 then { entStart s 0 pos with switchAt := r.switchAt } else entStart s 0 pos))
    else s.setSeq none

/-- A STOP ends the sequence at its slice boundary; a result that is not yet written is discarded (R565, R599; log entry
101). -/
def adcStopDue (s : State) : State :=
  match s.adc.stopAt with
  | some b => if 39 * b ≤ 100 * s.clk.tb then adcFlags { s with adc := { s.adc with seq := none, stopAt := none } } else s
  | none => s

/-- The injected entry converts next: no sequence runs, or the sequence has reached the injection's slice boundary. -/
def injTurn (s : State) : Bool :=
  match s.adc.inj, s.adc.seq with
  | some j, some r => j.begun || j.pos ≤ r.pos
  | some _, none => true
  | none, _ => false

/-- A run after a result: where that was its last, the samples up to the end of its round follow. -/
def runTail (lp : Bool) (w : Word) (codes : List (BitVec 12)) (k : Nat) (r : AdcRun) : AdcRun :=
  if bits w 12 0 ≤ r.made then r.tail lp w codes 4 k else r

/-- Samples converted, from the k-th of `codes`, until a result is complete; a sample past the end of `codes` reads as 0.
The answer is that result with the run that made it, its last discarded samples included. -/
def adcConvert (codes : List (BitVec 12)) : Nat → Nat → State → Option (Bool × AdcRun × AdcRun × AdcResult) × State
  | 0, _, s => (none, s)
  | fuel + 1, k, s =>
    let lp := s.adcLp
    let code := codes.getD k 0
    if injTurn s then
      match s.adc.inj with
      | none => (none, s)
      | some j =>
        let s := if j.begun then s else s.setSeq (s.adc.seq.map (fun r => r.interrupt lp (s.reg (entReg r.entry))))
        match j.sample lp (s.reg (entReg 16)) code with
        | (j', some x) => (some (true, j, runTail lp (s.reg (entReg 16)) codes (k + 1) j', x), { s with adc := { s.adc with inj := some j' } })
        | (j', none) => adcConvert codes fuel (k + 1) { s with adc := { s.adc with inj := some j' } }
    else
      match s.adc.seq with
      | none => (none, s)
      | some r =>
        match r.sample lp (s.reg (entReg r.entry)) code with
        | (r', some x) => (some (false, r, runTail lp (s.reg (entReg r.entry)) codes (k + 1) r', x), s.setSeq (some r'))
        | (r', none) => adcConvert codes fuel (k + 1) (s.setSeq (some r'))

/-- A result of the sequence or of the injection written, and what follows it (R555 to R558, R566, R567). -/
def adcAfter (inj : Bool) (r r' : AdcRun) (x : AdcResult) (s : State) : State :=
  let count := bits (s.reg (entReg r.entry)) 12 0
  let last := count ≤ r'.made
  let s := adcDeliver inj r.entry r.marker last x s
  let r' := { r' with marker := none }
  if inj then
    let s := adcEvent 1 s
    if last then
      let pos := adcCeil s.adcLp r'.pos
      let s := { s with adc := { s.adc with inj := none, seq := s.adc.seq.map (fun q => { q with pos := max q.pos pos }) } }
      adcStat r'.made 2 s
    else { s with adc := { s.adc with inj := some r' } }
  else
    let s := { s with adc := { s.adc with results := s.adc.results + 1, seq := some r' } }
    if last then adcNext r' s else s

/-- The modes in which the ADC is powered (R589). -/
def State.adcUp (s : State) : Bool := s.timed && s.rbit rADC_CTL 0

/-- The next result is produced from the sample codes given, once its last code is available, 12 instants after its sample
(R540); before that tick nothing happens. -/
def adcResult (codes : List (BitVec 12)) (s : State) : State :=
  match adcConvert codes 512 0 s with
  | (some (inj, r, r', x), t) =>
    if 39 * (x.last + 12) ≤ 100 * s.clk.tb then adcFlags (adcStopDue (adcAfter inj r r' x t)) else s
  | (none, _) => s

def execAdcResult (codes : List (BitVec 12)) (s : State) : Out := .next (when s.adcUp (adcResult codes) s)

/-- The sequence starts at the first slice boundary at or after a tick (R559, R561, R564). -/
def adcBegin (t : Nat) (s : State) : State :=
  let lp := s.adcLp
  let last := s.fld rADC_CTL 15 12
  if s.adc.seq.isSome then adcEvent 8 s
  else if !((List.range (last + 1)).all (fun n => entOk lp (s.reg (entReg n)))) then adcEvent 6 s
  else
    let pos := max (adcBoundary lp t) (match s.adc.inj with | some j => if j.begun then j.pos else 0 | none => 0)
    let s := { s with adc := { s.adc with
      ranges := (List.range 16).map (fun n => bits (s.reg (entReg n)) 19 18), quiets := List.replicate 16 0
      results := 0, stopAt := none, outside := s.adc.outside &&& 0x10000 } }
    adcFlags ((s.setSeq (some (entStart s 0 pos))).setFld rADC_STAT 31 16 0)

/-- A software start, which SRC 0b00 alone accepts (R560). -/
def adcSoftStart (t : Nat) (s : State) : State := if s.fld rADC_CTL 9 8 = 0 then adcBegin t s else adcEvent 8 s

def adcStop (t : Nat) (s : State) : State :=
  when s.adc.seq.isSome (fun s =>
    adcFlags (adcStopDue { s with adc := { s.adc with stopAt := some (adcBoundary s.adcLp t) } })) s

/-- An injected request (R566, R569, R570). -/
def adcInject (t : Nat) (s : State) : State :=
  let lp := s.adcLp
  let w := s.reg rADC_ENT_INJ
  if s.adc.inj.isSome || !entOk lp w then adcEvent 7 s
  else
    adcFlags { s with adc := { s.adc with
      outside := s.adc.outside &&& 0xFFFF
      inj := some (AdcRun.start lp w 16 (bits w 19 18) 0 (adcBoundary lp t)) } }

/-- A command word of the ADC: from a permitted writer of ADC_CMD, or the head word of the CTRL port with its tick of
arrival (R561, R586, R592). With EN at 0 the converter is not powered and the word has no effect (log entry 17). -/
def adcVia (via : Via) (op : Nat) (f : Nat → State → State) (s : State) : State :=
  match via with
  | .reg who => when (Writers.appField.permits who && s.adcUp) (f s.clk.tb) s
  | .port => withSome (s.ctrlHead 0x84 op) (fun h s => when s.adcUp (f h.tick) (cDrop 0x84 s)) s

def execAdcStart (via : Via) (s : State) : Out := .next (when s.timed (adcVia via 1 adcSoftStart) s)
def execAdcStop (via : Via) (s : State) : Out := .next (when s.timed (adcVia via 2 adcStop) s)
def execAdcInject (via : Via) (s : State) : Out := .next (when s.timed (adcVia via 3 adcInject) s)

/-- An edge on ADC_TRIG: its tick is stamped, and the ADC receives it 2 ticks later (R562). -/
def adcTrig (rising : Bool) (s : State) : State :=
  let s := s.setReg rADC_TRIG_STAMP s.tbLo
  { s with adc := { s.adc with trigAt := some (s.clk.tb + 2, rising) } }

/-- The ADC receives an edge: it is a start where SRC accepts it, else it sets START_IGNORED (R560). -/
def adcTrigDue (s : State) : State :=
  match s.adc.trigAt with
  | some (t, rising) =>
    if t ≤ s.clk.tb then
      let s := { s with adc := { s.adc with trigAt := none } }
      let src := s.fld rADC_CTL 9 8
      if (src = 1 && rising) || (src = 2 && !rising) || src = 3 then adcBegin t s else adcEvent 8 s
    else s
  | none => s

/-- The ADC at one tick: an edge that it now receives, and the boundary of a STOP. -/
def adcTick1 (s : State) : State := when s.adcUp (fun s => adcStopDue (adcTrigDue s)) s

def execAdcTrig (rising : Bool) (s : State) : Out := .next (when s.adcUp (adcTrig rising) s)

/-! ### Convergence of the correction (R552 to R554) -/

/-- The corrector's coefficients change to values that are not stated (log entry 4), unless FREEZE or low-power mode holds them
(R554). -/
def adcCorrector (s : State) : State :=
  if s.rbit rADC_CAL 0 || s.adcLp then s
  else
    let (bs, s) := s.freshBytes 144
    { s with adc := { s.adc with coeffs := wordsOf bs } }

/-- Factory coefficients loaded and convergence counted from now. -/
def adcConverge (s : State) : State :=
  let s := adcCorrector s
  { s.setRbit rADC_STAT 4 false with adc := { s.adc with convFrom := some s.clk.tb } }

def adcCalRestart (who : Sys2Proof.Req) (s : State) : State := when (Writers.appField.permits who) adcConverge s

def execAdcCalRestart (who : Sys2Proof.Req) (s : State) : Out := .next (when s.timed (adcCalRestart who) s)

/-- 2.0 ms after EN or RESTART. The coefficients change unless FREEZE or low-power mode holds them (R554). -/
def execConverged (s : State) : Out :=
  .next (when (s.adcUp && s.adc.convFrom.any (fun t => t + msTicks 2 ≤ s.clk.tb)) (fun s =>
    adcCorrector { s.setRbit rADC_STAT 4 true with adc := { s.adc with convFrom := none } }) s)

/-! ### What is converted at an instant (R555, R557, R566, R567) -/

/-- The entry that a run of the sequence has reached at an instant, as the run stands; none once the sequence has ended. -/
def entryAt (s : State) (i : Nat) : Nat → AdcRun → Option Nat
  | 0, _ => none
  | fuel + 1, r =>
    let e := r.endAt s.adcLp (s.reg (entReg r.entry))
    if i < e then some r.entry
    else if r.entry < s.fld rADC_CTL 15 12 then entryAt s i fuel (entStart s (r.entry + 1) e)
    else if s.rbit rADC_CTL 2 then entryAt s i fuel (entStart s 0 e)
    else none

/-- The entry whose input is converted at an instant, 16 for the injected one: the sequence ends at the boundary of a STOP, and
resumes at the end of an injection. -/
def convertedAt (s : State) (i : Nat) : Option Nat :=
  let lp := s.adcLp
  let seqAt := fun (r : AdcRun) => if s.adc.stopAt.any (fun b => b ≤ i) then none else entryAt s i 17 r
  match s.adc.inj with
  | none => s.adc.seq.bind seqAt
  | some j =>
    let e := j.endAt lp (s.reg (entReg 16))
    if i < j.pos && !j.begun then s.adc.seq.bind seqAt
    else if i < e then some 16
    else s.adc.seq.bind (fun r => seqAt { r.interrupt lp (s.reg (entReg r.entry)) with pos := e })

/-- The input that is converted at the last instant before this tick. -/
def inputNow (s : State) : Option Nat :=
  (convertedAt s ((100 * s.clk.tb + 38) / 39 - 1)).map (fun n => bits (s.reg (entReg n)) 17 13)

/-! ### Registers (R584, R585, R592, R593) -/

/-- ADC_STAT as it reads: READY 20 µs after EN. -/
def adcStatWord (s : State) : Word :=
  let w := s.reg rADC_STAT
  setBit (setBit w 0 (s.rbit rADC_CTL 0 && s.adc.enAt + 1248 ≤ s.clk.tb)) 1 (s.adcLp && s.rbit rADC_CTL 0)

/-- A write of ADC_CTL while no sequence runs. EN from 0 to 1 powers the converter; EN at 0 ends an injection. -/
def adcCtlWrite (v : Word) (s : State) : State :=
  if s.adc.seq.isSome then adcEvent 9 s
  else
    let busy := s.adc.inj.isSome
    let keep := busy && (bit v 1 != s.adcLp)
    let new := v &&& 0xFF07
    let new := if keep then setBit new 1 s.adcLp else new
    let was := s.rbit rADC_CTL 0
    let s := s.setReg rADC_CTL new
    let s := when keep (adcEvent 9) s
    if !was && bit v 0 then adcConverge { s with adc := { s.adc with enAt := s.clk.tb } }
    else if !(bit v 0) then
      adcFlags ({ s with adc := { s.adc with inj := none, convFrom := none, trigAt := none } }.setRbit rADC_STAT 4 false)
    else s

/-- ADC_CMD: its bits act in the order START, STOP, INJ. -/
def adcCmdWrite (v : Word) (s : State) : State :=
  when s.adcUp (fun s =>
    let s := when (bit v 0) (adcSoftStart s.clk.tb) s
    let s := when (bit v 1) (adcStop s.clk.tb) s
    when (bit v 2) (adcInject s.clk.tb) s) s

/-- AVG 7 is stored as 6. -/
def entStored (v : Word) : Word := if bits v 23 21 = 7 then setBits v 23 21 6 else v

/-- A write of an ADC register that does more than store its word; none where it only stores. -/
def adcWrite (a : Nat) (v : Word) (s : State) : Option State :=
  if a = rADC_CTL then some (adcCtlWrite v s)
  else if a = rADC_CMD then some (adcCmdWrite v s)
  else if a = rADC_CAL then
    let s := s.setRbit rADC_CAL 0 (bit v 0)
    some (when (bit v 1) adcConverge s)
  else if rADC_ENT ≤ a && a < rADC_ENT + 64 then
    some (if s.adc.seq.isSome then adcEvent 9 s else s.setReg a (entStored v))
  else if a = rADC_ENT_INJ then
    some (if s.adc.inj.isSome then adcEvent 9 s else s.setReg a (entStored v))
  else if a = rADC_DMA_BASE then
    some (if s.adc.seq.isSome then adcEvent 9 s
      else ((s.setReg a (v &&& 0xFFFFFFC0)).setFld rADC_DMA_WR 19 0 0).setReg rADC_DMA_RD 0)
  else if a = rADC_DMA_SIZE then
    some (if s.adc.seq.isSome then adcEvent 9 s else s.setReg a (wd (clamp 8 20 (bits v 4 0))))
  else none

/-- At thaw the entry in progress resumes as R567 states, from the first slice boundary of the grid that starts again
(R591, R605); an entry is in progress from its first sample instant. -/
def adcThaw (s : State) : State :=
  let lp := s.adcLp
  let b := adcBoundary lp s.clk.tb
  let cont := fun (r : AdcRun) =>
    let r := { r with begun := r.begun || decide (39 * r.pos ≤ 100 * s.clk.tb) }
    { r.interrupt lp (s.reg (entReg r.entry)) with pos := max r.pos b }
  { s with adc := { s.adc with inj := s.adc.inj.map cont, seq := s.adc.seq.map cont, stopAt := s.adc.stopAt.map (max b) } }

end Sys2Proof.Machine
end

