-- ==== Sys2Proof/Machine/LedgerData.lean ====
section
/-! DEFINITION. The ledger array: the copy format, which copy is current, and the one write that its port runs (08). -/
namespace Sys2Proof.Machine

/-! ### Copies (R362 to R366) -/

def erasedCopy : Bytes := List.replicate 256 0

/-- Copy k of a record. -/
def copyOf (s : State) (rec k : Nat) : Bytes := agetD s.led.copies (2 * rec + k) erasedCopy

def copySeq (c : Bytes) : Nat := leAt c 0xF8 4

/-- A copy is valid (R364). -/
def copyValid (c : Bytes) : Bool :=
  1 ≤ copySeq c && copySeq c ≤ 200000 && leAt c 0xFC 4 == (crc32 (c.take 0xFC)).toNat

/-- A copy is torn (R364). -/
def copyTorn (c : Bytes) : Bool := !copyValid c && !(c.all (fun b => b == 0))

/-- The current copy of a record (R365). -/
def current (s : State) (rec : Nat) : Option Nat :=
  let c0 := copyOf s rec 0
  let c1 := copyOf s rec 1
  match copyValid c0, copyValid c1 with
  | false, false => none
  | true, false => some 0
  | false, true => some 1
  | true, true => if copySeq c1 > copySeq c0 then some 1 else some 0

/-- The current copy's bytes, or none. -/
def currentBytes (s : State) (rec : Nat) : Option Bytes := (current s rec).map (copyOf s rec)

/-- The current copy's SEQ, 0 for none. -/
def currentSeq (s : State) (rec : Nat) : Nat := ((currentBytes s rec).map copySeq).getD 0

/-- What a record's window slot shows: the current copy, zeros when there is none, and zeros for a hidden record unless
the reader is the Kiln core (R263, R366). -/
def slotBytes (s : State) (rec : Nat) (kiln : Bool) : Bytes :=
  match currentBytes s rec with
  | none => erasedCopy
  | some c => if leAt c 3 1 % 2 = 1 && !kiln then erasedCopy else c

/-- The payload of a record's current copy, at its LEN. -/
def payload (s : State) (rec : Nat) : Option Bytes :=
  (currentBytes s rec).map (fun c => slice c 8 (leAt c 2 1))

/-- Bytes 0x00 to 0xF7 of a copy. -/
def copyBody (type attr : Nat) (pay : Bytes) : Bytes :=
  leBytes 2 type ++ leBytes 1 pay.length ++ leBytes 1 attr ++ leBytes 4 0 ++ slice pay 0 240

/-- A whole copy: its body, SEQ and CRC (R362, R363). -/
def copyImage (body : Bytes) (seq : Nat) : Bytes :=
  let b := slice body 0 0xF8 ++ leBytes 4 seq
  b ++ leBytes 4 (crc32 b).toNat

/-- The records whose copies the device keeps under HIDE (R386). -/
def hidden (rec : Nat) : Bool := rec == 3 || rec == 4 || rec == 5 || (16 ≤ rec && rec ≤ 47)

/-- The body of a record the device keeps (R362, R386). -/
def deviceBody (rec : Nat) (pay : Bytes) : Bytes := copyBody (0x8000 + rec) (b2n (hidden rec)) pay

/-- A quick unit's bytes (R378). -/
def unitBytes (s : State) (u : Nat) : Bytes := agetD s.led.units u (List.replicate 16 0)

/-- The rollback minimum: the higher of the two units that read without error (R381). -/
def rollbackMin (s : State) : Nat :=
  let v := fun (u : Nat) => if s.led.tornUnits.contains u then 0 else leAt (unitBytes s u) 0 4
  max (v 1) (v 2)

/-! ### The port (R367 to R378) -/

/-- The port is free: no write runs and no scan or rescan. -/
def portFree (s : State) : Bool := s.led.writing.isNone && s.led.scanFrom.isNone && !s.led.rescanWanted

/-- The copy a record write targets: the one that is not current, copy 0 when there is none (R367). -/
def writeTarget (s : State) (rec : Nat) : Nat := if current s rec = some 0 then 1 else 0

/-- A write would exceed SEQ 200 000 (R369). -/
def wornOut (s : State) (rec : Nat) : Bool := currentSeq s rec + 1 > 200000

/-- The first step of a write: the target's commit word is erased, and WRITING reads 1 (R368). -/
def beginCopy (rec : Nat) (body : Bytes) (who : LedgerFor) (s : State) : State :=
  let k := writeTarget s rec
  let img := copyImage body (currentSeq s rec + 1)
  let old := copyOf s rec k
  ({ s with led := { s.led with
      copies := asetD erasedCopy s.led.copies (2 * rec + k) (slice old 0 0xF8 ++ List.replicate 8 0)
      writing := some ⟨.copy rec k, img, who⟩ } }).setRbit rLEDGER_STAT 2 true

/-- A unit write begins (R377). -/
def beginUnit (u : Nat) (bs : Bytes) (who : LedgerFor) (s : State) : State :=
  ({ s with led := { s.led with writing := some ⟨.unit u, slice bs 0 16, who⟩ } }).setRbit rLEDGER_STAT 2 true

/-- A scan or rescan starts (R382, R406). -/
def beginScan (s : State) : State :=
  ({ s with led := { s.led with scanFrom := some s.clk.tb, rescanWanted := false } }).setRbit rLEDGER_STAT 0 true

/-- A rescan that waited for a write starts (R417). -/
def startWaitingRescan (s : State) : State := when (s.led.rescanWanted && s.led.writing.isNone) beginScan s

/-- The running write ends: verified, its target holds the new bytes and the window slot shows them (R374); failed within
its maximum time, its target is torn (R378, reason 0x05); a copy then has its commit word erased and content that nothing
constrains before it (R368; log entry 4). -/
def endWrite (ok : Bool) (s : State) : State :=
  match s.led.writing with
  | none => s
  | some w =>
    let led := { s.led with writing := none }
    let s := match w.target with
      | .copy rec k =>
        if ok then
          let s := { s with led := { led with copies := asetD erasedCopy led.copies (2 * rec + k) w.bytes } }
          (s.incFld rLEDGER_WRITES 31 0).setReg rLEDGER_LAST (wd (fld 24 rec + copySeq w.bytes))
        else
          let (bs, s) := s.freshBytes 0xF8
          { s with led := { led with copies := asetD erasedCopy led.copies (2 * rec + k) (bs ++ List.replicate 8 0) } }
      | .unit u =>
        let torn := led.tornUnits.filter (fun x => !(x == u))
        if ok then
          ({ s with led := { led with
              units := asetD (List.replicate 16 0) led.units u w.bytes, tornUnits := torn } }).incFld rLEDGER_WRITES 31 0
        else { s with led := { led with tornUnits := u :: torn } }
    startWaitingRescan (s.setRbit rLEDGER_STAT 2 false)

/-- A supply loss that enters OFF stops a running write: a copy is left with its commit word erased and content that
nothing constrains, a unit is torn (R373, R378; log entry 4). -/
def tearWrite (s : State) : State :=
  match s.led.writing with
  | none => s
  | some w =>
    let led := { s.led with writing := none }
    match w.target with
    | .copy rec k =>
      let (bs, s) := s.freshBytes 0xF8
      { s with led := { led with copies := asetD erasedCopy led.copies (2 * rec + k) (bs ++ List.replicate 8 0) } }
    | .unit u => { s with led := { led with tornUnits := u :: led.tornUnits.filter (fun x => !(x == u)) } }

/-- What a finished scan writes to its registers (R382). -/
def scanResult (s : State) : State :=
  let recs := List.range 240
  let valid := (recs.filter (fun r => (current s r).isSome)).length
  let torn := (recs.map (fun r => b2n (copyTorn (copyOf s r 0)) + b2n (copyTorn (copyOf s r 1)))).sum
  let from_ := s.led.scanFrom.getD s.clk.tb
  let s := { s with led := { s.led with scanFrom := none } }
  let s := s.setReg rLEDGER_SCAN (wd (fld 24 (min torn 255) + fld 8 (240 - valid) + valid))
  let s := s.setReg rLEDGER_SCAN_TIME (wd (s.clk.tb - from_))
  (s.setRbit rLEDGER_STAT 0 false).setRbit rLEDGER_STAT 1 true

end Sys2Proof.Machine
end

