-- ==== Sys2Proof/Machine/Slots.lean ====
section
/-! DEFINITION. Key slots and handles, and what the Kiln keeps for a session (16, 18). -/
namespace Sys2Proof.Machine

def Slot.empty : Slot := ⟨none, 1, 0, 0, 0⟩

def State.slot (s : State) (n : Nat) : Slot := agetD s.kiln.slots n Slot.empty

def State.setSlot (s : State) (n : Nat) (x : Slot) : State :=
  { s with kiln := { s.kiln with slots := asetD Slot.empty s.kiln.slots n x } }

/-- Slots 0 to 2 are fixed (R809). -/
def fixedSlot (n : Nat) : Bool := n < 3

/-- The next generation: 1 to 1023 and then 1 again (R808). -/
def nextGen (g : Nat) : Nat := if 1023 ≤ g then 1 else g + 1

/-- The handle of a slot (R807). -/
def handleOf (s : State) (n : Nat) : Nat := (s.slot n).gen * 64 + n

/-- KZAP of a slot that is not fixed: every bit 0, the next generation (R231, R808). -/
def zapSlot (n : Nat) (s : State) : State := s.setSlot n { Slot.empty with gen := nextGen (s.slot n).gen }

/-- The lowest-numbered empty slot in a range (R809). -/
def emptySlot (s : State) (lo hi : Nat) : Option Nat :=
  ((List.range hi).filter (fun n => lo ≤ n)).find? (fun n => (s.slot n).key.isNone)

/-- A key placed in a slot by KST (R810, R834). -/
def placeKey (n : Nat) (key : Bytes) (owner type use : Nat) (s : State) : State :=
  s.setSlot n ⟨some key, (s.slot n).gen, owner, type, use⟩

/-- What the Kiln holds for a session. -/
def State.ksess (s : State) (n : Nat) : KSession := agetD s.creds.sess n KSession.empty

def State.setKsess (s : State) (n : Nat) (k : KSession) : State :=
  { s with creds := { s.creds with sess := asetD KSession.empty s.creds.sess n k } }

/-- An effect that belongs to a session: what the Kiln holds for it, and its access grant. -/
def effOfSession (n : Nat) (x : Eff) : Bool :=
  match x with
  | .session m _ => m == n
  | .grant m => m == n
  | _ => false

/-- An operation that still writes to the ledger when its session closes leaves nothing to a session of the same number that
opens later: a grant is set only after a verification for that very session (R59, R60, R1186). -/
def forgetSession (n : Nat) (j : Job) : Job :=
  { j with effs := j.effs.filter (fun x => !effOfSession n x), fail := j.fail.filter (fun x => !effOfSession n x) }

/-- A closed session's keys and marks are gone (log entry 26). -/
def dropSession (n : Nat) (s : State) : State :=
  let s := { s with creds := { s.creds with jobs := s.creds.jobs.map (forgetSession n) } }
  let k := s.ksess n
  let s := withSome k.ticket (fun t s => zapSlot t.slot s) s
  let s := withSome k.enrol (fun e s => zapSlot e.transport s) s
  s.setKsess n KSession.empty

def dropSessions (m : BitVec 8) (s : State) : State :=
  forEach ((List.range 8).filter (fun n => m.getLsbD n)) dropSession s

end Sys2Proof.Machine
end

