-- ==== Sys2Proof/Machine/Modes.lean ====
section
/-! DEFINITION. The mode machine: transitions, sessions, grants, lockdown causes and the mode record (02). -/
namespace Sys2Proof.Machine

/-- Every session closed and every grant discarded. -/
def closeAllSessions (s : State) : State :=
  let s := dropSessions s.sys.active s
  { s with sys := { s.sys with active := 0, grants := [] } }

/-- Whether a transition closes every session (R69, R98). -/
def closesSessions (fr dst : Mode) (cause : Nat) : Bool :=
  (fr == .access && dst == .parked) ||
  ((fr == .approach || fr == .access || fr == .drive) && dst == .lockdown) ||
  fr == .service || cause == 8

/-- The modes in which the QUENCH ball and quench requests are honoured (R1108). -/
def quenchable (m : Mode) : Bool := m == .factory || m == .service

/-- The dispatched CRANK whose ANSWER is not queued yet. -/
def openCrank (d : Dispatched) : Bool := d.engine == 0xC && leAt d.desc 1 1 == 1

/-- The mode leaves ACCESS and DRIVE: the START block withholds the ANSWER of a dispatched CRANK, reports that to the front
end, and the runtime ends the command CANCELLED with the counter value it drew (R935, R949). -/
def withholdCrank (s : State) : State :=
  let open_ := s.front.cages.toList.any (fun g => g.disp.any openCrank)
  let waits := s.start.crank.isSome || (s.cHead (cmdKey 0xC)).isSome
  if !open_ || !waits || s.start.crank.any (fun c => c.answered.isSome) then s
  else
    let drawn := (s.start.crank.bind CrankRun.drawn).getD 0
    let s := { s with
      front := { s.front with cages := s.front.cages.map (fun g =>
        { g with disp := g.disp.map (fun d => if openCrank d then { d with withheld := true } else d) }) }
      start := { s.start with crank := none } }
    portSend 0xC1 [(wd (fld 8 (drawn % 65536) + 2), false)] (cClear (cmdKey 0xC) s)

/-- What leaving a mode does to the start lock (R935, R937). -/
def leaveStart (fr dst : Mode) (s : State) : State :=
  let s := when (fr == .drive && dst != .drive) (fun s => s.setRbit rSTART_EVT 5 true) s
  when ((fr == .access || fr == .drive) && dst != .access && dst != .drive) withholdCrank s

/-- A transition commits: SYS_MODE, SYS_MODE_CAUSE and CHANGED, with the timers of the mode left and entered (R56, R67,
R68, R94, R98). CRANK_PERMIT follows the mode (R80). A QUENCH ball found low on entry to FACTORY or SERVICE starts a freeze,
because the ball is level-sensitive there (R1108, R1135). -/
def commit (dst : Mode) (cause : Nat) (s : State) : State :=
  let fr := s.sys.mode
  let s := leaveStart fr dst (when (closesSessions fr dst cause) closeAllSessions s)
  let s := { s with sys := { s.sys with
    mode := dst
    prev := some fr
    cause := cause
    approachEnd := if dst == .approach then some (s.clk.tb + msTicks (s.fld rSYS_APPROACH_TMO 13 0)) else none
    tokenEnd := if dst == .service || dst == .quenched then s.sys.tokenEnd else none } }
  let s := when (s.assay.ballLow && quenchable dst) (fun s =>
    { s with assay := { s.assay with freezing := true, srcs := 0b0010 } }) s
  modeEvent 0 s

/-- CRANK_PERMIT stands in the release state: in DRIVE and in no other mode (R37, R80). -/
def State.crankRelease (s : State) : Bool := s.sys.mode == .drive && s.pwr.resetReq.isNone

/-! ### The mode record (R57, R387) -/

/-- The payload of the mode record with given MATED, LOCK and MATINGS. -/
def modePayload (mated : Bool) (lock : BitVec 5) (matings : Nat) : Bytes :=
  leBytes 1 (b2n mated) ++ leBytes 1 lock.toNat ++ leBytes 2 0 ++ leBytes 4 matings

def storedModePayload (s : State) : Bytes := slice ((payload s 0).getD []) 0 8
def storedMated (s : State) : Bool := leAt (storedModePayload s) 0 1 == 1
def storedLock (s : State) : BitVec 5 := BitVec.ofNat 5 (leAt (storedModePayload s) 1 1)
def storedMatings (s : State) : Nat := leAt (storedModePayload s) 4 4

/-- A further write of the mode record is wanted (R57). -/
def wantModeRecord (s : State) : State := { s with sys := { s.sys with recordWanted := true } }

/-! ### Lockdown causes (R76, R77) -/

/-- The source modes of T18 (R73). -/
def lockable (m : Mode) : Bool :=
  m == .unmated || m == .parked || m == .approach || m == .access || m == .drive || m == .service

/-- An accepted BANK entry that is abandoned: core 0's BANK completes with Z at 0 and REQ_REFUSED set, and its program
goes on at the next instruction (R1101, R1192). -/
def refuseBank (s : State) : State :=
  let s := { s with pwr := { s.pwr with entering := false } }
  modeEvent 2 (s.onCore 0 (fun k => { k with run := .running, flg := k.flg &&& 0b1110, pc := k.pc + 4 }))

/-- A lockdown cause raised: T18 from its source modes, the bit alone in LOCKDOWN, nothing in any other mode; it calls off a
recovery under way, whether its bit was set already or not (R100, R108). The bits are 0 REPLACED, 1 TAMPER, 2 ENROL, 3 RETIRED, 4 FIRMWARE; T18's cause code is 0x11 + bit (R73, R76, R91). -/
def raiseLockdown (b : Nat) (s : State) : State :=
  if lockable s.sys.mode then
    let s := when s.pwr.entering refuseBank s
    let s := { s with sys := { s.sys with lockCause := s.sys.lockCause ||| BitVec.ofNat 5 (1 <<< b) } }
    wantModeRecord (commit .lockdown (0x11 + b) s)
  else if s.sys.mode == .lockdown then
    wantModeRecord { s with sys := { s.sys with
      lockCause := s.sys.lockCause ||| BitVec.ofNat 5 (1 <<< b)
      recovering := none } }
  else s

/-! ### Requests of firmware (R88 to R90) -/

/-- The requester may make mode requests: an application core or the Kiln core (R88). -/
def modeRequester (who : Sys2Proof.Req) : Bool :=
  match who with
  | .core c => c.val != 4
  | _ => false

/-- The session whose grant an ACCESS request consumes: the lowest that holds one (R90). -/
def lowestGrant (s : State) : Option Nat := (s.sys.grants.filter (fun e => s.sys.active.getLsbD e.1)).head?.map Prod.fst

/-- The approach timeout has expired: T09 (R67, R69). -/
def approachExpiry (s : State) : State :=
  when (s.sys.mode == .approach && s.sys.approachEnd.any (fun e => e ≤ s.clk.tb)) (commit .parked 0x08) s

/-- A request evaluated against the transition table (R89, R90). -/
def modeTable (target : Nat) (s : State) : State :=
  match target, s.sys.mode with
  | 5, .access => commit .parked 0x04 s
  | 5, .service => commit (if s.sys.mated then .parked else .unmated) 0x04 s
  | 8, .approach =>
    match lowestGrant s with
    | none => modeEvent 2 s
    | some n => commit .access 0x09 { s with sys := { s.sys with grants := adel s.sys.grants n } }
  | 8, .drive => commit .access 0x04 s
  | 0xC, m => if lockable m || m == .lockdown then raiseLockdown 4 s else modeEvent 2 s
  | _, _ => modeEvent 2 s

/-- A request whose key was right: an approach timeout that has expired by this tick commits T09 before it (R104, R106). -/
def modeTarget (target : Nat) (s : State) : State := modeTable target (approachExpiry s)

/-- A write of SYS_MODE_REQ: a host interface's is ignored (R97), another's without the right or the key sets BAD_KEY
(R88). -/
def modeRequest (who : Sys2Proof.Req) (key : BitVec 16) (target : Nat) (s : State) : State :=
  match who with
  | .core _ => if modeRequester who && key == 0x4D4F then modeTarget target s else modeEvent 1 s
  | _ => s

/-! ### Sessions (R60, R95, R1186) -/

/-- The modes in which sessions open (R95). -/
def opensSessions (m : Mode) : Bool :=
  m == .parked || m == .approach || m == .access || m == .drive || m == .service

/-- A write of SYS_SESSION by a core, as one step: closes, then opens, then T07 or T08 on what is open (R1186). -/
def sessionWrite (who : Sys2Proof.Req) (close open_ : BitVec 8) (s : State) : State :=
  match who with
  | .core _ =>
    let opens := opensSessions s.sys.mode
    let before := s.sys.active
    let closed := before &&& ~~~close
    let act := if opens then closed ||| open_ else closed
    let s := dropSessions (before &&& close) s
    let s := { s with sys := { s.sys with
      active := act
      grants := s.sys.grants.filter (fun e => !(close.getLsbD e.1 && before.getLsbD e.1)) } }
    let s := when (!opens && open_ != 0) (modeEvent 2) s
    if s.sys.mode == .parked && act != 0 then commit .approach 0x06 s
    else if s.sys.mode == .approach && act == 0 then commit .parked 0x07 s
    else s
  | _ => s

/-- The Kiln sets an access grant against an open session (R59, R60). -/
def setGrant (n : Nat) (s : State) : State :=
  when (s.sys.active.getLsbD n) (fun s => { s with sys := { s.sys with grants := ains s.sys.grants n s.clk.tb } }) s

/-! ### Commands -/

def execModeReqParked (who : Sys2Proof.Req) (key : BitVec 16) (s : State) : Out :=
  .next (when s.live (modeRequest who key 5) s)

def execModeReqAccess (who : Sys2Proof.Req) (key : BitVec 16) (s : State) : Out :=
  .next (when s.live (modeRequest who key 8) s)

def execModeReqLockdown (who : Sys2Proof.Req) (key : BitVec 16) (s : State) : Out :=
  .next (when s.live (modeRequest who key 0xC) s)

/-- Closing sessions; the last one closed in APPROACH commits T08 (R67, R1186). -/
def execSessionClose (who : Sys2Proof.Req) (mask : BitVec 8) (s : State) : Out :=
  .next (when s.live (sessionWrite who mask 0) s)

/-- Opening sessions; the first one opened in PARKED commits T07 (R95). -/
def execSessionOpen (who : Sys2Proof.Req) (mask : BitVec 8) (s : State) : Out :=
  .next (when s.live (sessionWrite who 0 mask) s)

/-- The approach timeout (R67, R69). -/
def execApproachTimeout (s : State) : Out := .next (when s.live approachExpiry s)

/-- 500 ms after it was set, a grant is discarded (R60). -/
def execGrantExpiry (session : Fin 8) (s : State) : Out :=
  .next (when (s.live && (aget? s.sys.grants session.val).any (fun t => t + msTicks 500 ≤ s.clk.tb))
    (fun s => { s with sys := { s.sys with grants := adel s.sys.grants session.val } }) s)

/-- The service token's validity ends on the RTC: T15 (R58, R70). -/
def serviceEnd (s : State) : State :=
  when (s.sys.mode == .service && s.sys.tokenEnd.any (fun e => e ≤ s.clk.rtc))
    (fun s => commit (if s.sys.mated then .parked else .unmated) 0x0D s) s

def execServiceEnd (s : State) : Out := .next (when s.live serviceEnd s)

/-- The mode machine's wanted write of the mode record starts once the port is free, with LOCK as SYS_LOCK_CAUSE stands
then (R57, R403, R109). A record worn out is not written, and WORN is set (R369). -/
def execModeRecordWrite (s : State) : Out :=
  .next (when (s.live && s.sys.recordWanted && portFree s) (fun s =>
    let s := { s with sys := { s.sys with recordWanted := false } }
    if wornOut s 0 then s.setRbit rLEDGER_STAT 4 true
    else beginCopy 0 (deviceBody 0 (modePayload s.sys.mated s.sys.lockCause (storedMatings s))) .modeRecord s) s)

end Sys2Proof.Machine
end

