-- ==== Sys2Proof/Machine/Power.lean ====
section
/-! DEFINITION. Supplies, resets, the watchdog, VCORE, the timebase's lock, wake sources and tamper (03, 22). -/
namespace Sys2Proof.Machine

/-! ### Reset requests (R1080, R1082, R1099) -/

/-- The place of a reset cause in the order of R1099: the lower is recorded. -/
def resetRank (cause : Nat) : Nat :=
  match cause with
  | 1 => 0 | 8 => 1 | 2 => 2 | 5 => 3 | 7 => 4 | 3 => 5 | 6 => 6 | _ => 7

/-- Of two requests, the one that PWR_RESET_CAUSE records (R1099); the wait of R1082 runs from the first. -/
def mergeReset (old : Option ResetReq) (cause detail rtc : Nat) : ResetReq :=
  match old with
  | none => ⟨cause, detail, rtc⟩
  | some r => if resetRank cause < resetRank r.cause then ⟨cause, detail, r.since⟩ else r

/-- A reset is requested: the device is held in reset from here (R1082). In BANKED after T05 the request acts as a wake
event, and the reset follows the wake (R1101); a BANK entry before T05 is abandoned. -/
def requestReset (cause detail : Nat) (s : State) : State :=
  if s.sys.mode == .off then s
  else if s.sys.mode == .banked then
    { s with pwr := { s.pwr with resetWake := some (mergeReset s.pwr.resetWake cause detail s.clk.rtc) } }
  else { s with pwr := { s.pwr with
    entering := false, heldSrc := 0
    resetReq := some (mergeReset s.pwr.resetReq cause detail s.clk.rtc) } }

/-- RESET_N found low at two consecutive RTC edges (R1081). -/
def execPinReset (s : State) : Out := .next (requestReset 2 0 s)

/-- A write of PWR_RESET_REQ (R1080, R1098). -/
def softwareReset (who : Sys2Proof.Req) (key : BitVec 16) (s : State) : State :=
  when (Writers.appKiln.permits who && key == 0x5254) (requestReset 4 (Req.code who)) s

def execSoftwareReset (who : Sys2Proof.Req) (key : BitVec 16) (s : State) : Out :=
  .next (when s.live (softwareReset who key) s)

/-! ### Watchdog (R1084 to R1086) -/

/-- A write of PWR_WDT_CFG: ignored while EN is 1; TMO_MS stored within its limits; EN from 0 to 1 starts the count. -/
def wdtWrite (who : Sys2Proof.Req) (v : Word) (s : State) : State :=
  if !Writers.appKiln.permits who || s.rbit rPWR_WDT_CFG 31 then s
  else
    let s := s.setReg rPWR_WDT_CFG (setBit (wd (clamp 10 60000 (bits v 15 0))) 31 (bit v 31))
    when (bit v 31) (fun s => { s with pwr := { s.pwr with wdtFrom := some s.clk.tb } }) s

def execWatchdogEnable (who : Sys2Proof.Req) (value : Word) (s : State) : Out :=
  .next (when s.live (wdtWrite who value) s)

/-- A write of PWR_WDT_KICK (R1085). -/
def kick (who : Sys2Proof.Req) (key : BitVec 16) (s : State) : State :=
  when (Writers.app.permits who && key == 0x574B && s.pwr.wdtFrom.isSome)
    (fun s => { s with pwr := { s.pwr with wdtFrom := some s.clk.tb } }) s

def execKick (who : Sys2Proof.Req) (key : BitVec 16) (s : State) : Out := .next (when s.live (kick who key) s)

/-- The tick at which the watchdog expires. -/
def wdtExpiry (s : State) : Option Nat := s.pwr.wdtFrom.map (fun t => t + msTicks (s.fld rPWR_WDT_CFG 15 0))

def execWatchdog (s : State) : Out :=
  .next (when (s.live && (wdtExpiry s).any (fun t => t ≤ s.clk.tb)) (requestReset 3 0) s)

/-- SCAN has not ended 100 ms after it began (R63). -/
def execScanStall (s : State) : Out :=
  .next (when (s.live && s.sys.mode == .scan && s.sys.scanFrom + msTicks 100 ≤ s.clk.tb) (requestReset 6 0) s)

/-! ### Timebase lock (R133) -/

/-- The lock is judged: not in OFF, and not from a freeze until the relock at thaw (R133, R1116). -/
def lockJudged (s : State) : Bool := s.sys.mode != .off && s.sys.mode != .quenched && !s.assay.freezing

/-- BANKED stops the timebase: from the completion of entry to step 4 of the wake (R1094). -/
def bankStopped (s : State) : Bool :=
  s.sys.mode == .banked && s.pwr.entryRtc.isSome && !s.pwr.wakeAt.any (fun w => w + 8 ≤ s.clk.rtc)

/-- The timebase stops out of lock: TB_NOW holds (R133). -/
def loseLock (s : State) : State :=
  { s.setRbit rTB_STAT 0 false with
    clk := { s.clk with running := false, unlockedAt := some s.clk.rtc, relockedAt := none } }

/-- The synthesiser leaves lock: TB_NOW holds. A loss that comes with a wake event is kept until the wake has completed
(R145). -/
def execTbLockLoss (s : State) : Out :=
  .next (when (lockJudged s) (fun s =>
    if bankStopped s then { s with clk := { s.clk with unlockedAt := some s.clk.rtc } }
    else when s.clk.running loseLock s) s)

/-- Out of lock for 4 RTC periods: the device holds itself in reset. -/
def execTbLock (s : State) : Out :=
  .next (when (lockJudged s && !s.clk.running && !bankStopped s && s.clk.unlockedAt.any (fun t => t + 4 ≤ s.clk.rtc))
    (requestReset 8 0) s)

/-- Lock regained: TB_NOW goes on from the value it held. -/
def execTbRelock (s : State) : Out :=
  .next (when (lockJudged s && s.clk.unlockedAt.isSome) (fun s =>
    if bankStopped s || s.clk.running then { s with clk := { s.clk with unlockedAt := none } }
    else { s.setRbit rTB_STAT 0 true with
      clk := { s.clk with running := true, unlockedAt := none, relockedAt := some s.clk.rtc } }) s)

/-! ### VCORE (R124 to R127, R141) -/

/-- A write of PWR_VCORE: TARGET above 0x1E is stored as 0x1E; a change clears SETTLED. The next step comes 125 ticks
after the last one, or after the write when the buck was at rest. -/
def vcoreWrite (who : Sys2Proof.Req) (v : Word) (s : State) : State :=
  if !Writers.appKiln.permits who then s
  else
    let t := min (bits v 4 0) 0x1E
    if t = s.fld rPWR_VCORE 4 0 then s
    else
      let rest := s.fld rPWR_VCORE_STAT 12 8 == s.fld rPWR_VCORE 4 0
      let s := (s.setFld rPWR_VCORE 4 0 t).setRbit rPWR_VCORE_STAT 1 false
      if rest then { s with pwr := { s.pwr with buckAt := s.clk.tb } } else s

/-- PWR_VCORE can be written: the device runs, or the BANK entry sequence has not ended before this window (R142). -/
def State.vcoreOpen (s : State) : Bool :=
  s.live || (s.sys.mode == .banked && s.pwr.wakeAt.isNone && s.pwr.entryRtc.all (fun e => e == s.clk.rtc))

def execVcoreTargetWrite (who : Sys2Proof.Req) (value : Word) (s : State) : Out :=
  .next (when s.vcoreOpen (vcoreWrite who value) s)

/-- The buck moves VCORE: the device runs, or it enters BANKED or wakes with its timebase running (R126, R1087, R1092). -/
def State.buckRuns (s : State) : Bool := s.live || (s.sys.mode == .banked && s.clk.running)

/-- One 10 mV step towards TARGET, 125 ticks after the last (R124). -/
def execBuckStep (s : State) : Out :=
  let now := s.fld rPWR_VCORE_STAT 12 8
  let tgt := s.fld rPWR_VCORE 4 0
  .next (when (s.buckRuns && now != tgt && s.pwr.buckAt + 125 ≤ s.clk.tb) (fun s =>
    let s := s.setFld rPWR_VCORE_STAT 12 8 (if now < tgt then now + 1 else now - 1)
    { s with pwr := { s.pwr with buckAt := s.pwr.buckAt + 125 } }) s)

/-- 625 ticks after the last step, SETTLED reads 1 and DONE is set (R125). -/
def execVcoreSettled (s : State) : Out :=
  .next (when (s.buckRuns && s.fld rPWR_VCORE_STAT 12 8 == s.fld rPWR_VCORE 4 0 && !s.rbit rPWR_VCORE_STAT 1 &&
      s.pwr.buckAt + 625 ≤ s.clk.tb)
    (fun s => (s.setRbit rPWR_VCORE_STAT 1 true).setRbit rPWR_VCORE_STAT 0 true) s)

/-! ### Wake sources (R1088 to R1091) -/

/-- A source presents: it is held until the completion of entry, taken by the next wake event, or, while a wake runs, it
sets its PWR_WAKE_SRC bit. A source whose enable is 0 is discarded, and TAMPER needs none (R1090). -/
def presentWake (src : Nat) (s : State) : State :=
  if src != 5 && !s.rbit rPWR_WAKE_EN src then s
  else if s.sys.mode == .banked && s.pwr.wakeAt.isSome then s.setRbit rPWR_WAKE_SRC src true
  else if s.sys.mode == .banked || s.pwr.entering then
    { s with pwr := { s.pwr with heldSrc := s.pwr.heldSrc ||| BitVec.ofNat 6 (1 <<< src) } }
  else s

/-- The wake logic takes what has presented: the wake event, from which the fixed wake runs; INIT_DONE reads 0 until the
upper SRAM has been cleared (R1089, R1092, R281). Of a loss of lock, only one of the same RTC period counts (R145). -/
def takeWake (s : State) : State :=
  when (s.sys.mode == .banked && s.pwr.entryRtc.isSome && s.pwr.wakeAt.isNone &&
      (s.pwr.heldSrc != 0 || s.pwr.resetWake.isSome)) (fun s =>
    let s := (s.setFld rPWR_WAKE_SRC 5 0 s.pwr.heldSrc.toNat).setRbit rSYS_ECC_STAT 0 false
    { s with
      clk := { s.clk with unlockedAt := s.clk.unlockedAt.filter (fun t => t == s.clk.rtc) }
      pwr := { s.pwr with wakeAt := some s.clk.rtc, heldSrc := 0 } }) s

def execWakeEvent (s : State) : Out := .next (takeWake s)

/-- The RTC compare: at equality, or at the first edge after the completion of entry when it had passed (R1091). -/
def execRtcWake (s : State) : Out :=
  let cmp := s.reg rPWR_WAKE_RTC
  .next (when (wd s.clk.rtc == cmp ||
      s.pwr.entryRtc.any (fun e => 0 ≤ (wd e - cmp).toInt && e + 1 ≤ s.clk.rtc && s.pwr.wakeAt.isNone)) (presentWake 4) s)

/-- HWAKE_N found released after it counted as held low (R1061, R1191). -/
def execHwake (s : State) : Out :=
  .next (when ((s.sys.mode == .banked || s.pwr.entering) && s.rbit rPWR_WAKE_EN 3) (fun s =>
    forEach hostReqs (hostEvent 5) (presentWake 3 s)) s)

/-- The timebase restarts at step 4 of the fixed wake: TB_NOW advances by the stopped span, RESYNC is set, and the buck
starts from 0.80 V (R126, R130, R1092, R1094). -/
def restartTimebase (w e : Nat) (s : State) : State :=
  let span := w + 8 - e
  let n := span * 121875 + s.clk.rem
  let s := { s with clk := { s.clk with tb := s.clk.tb + n / 64, rem := n % 64, running := true } }
  let s := ((s.setRbit rTB_STAT 1 true).setRbit rTB_STAT 0 true).setReg rPWR_BANK_TIME (wd span)
  let s := s.setReg rPWR_VCORE_STAT (wd (fld 8 0x14 + fld 1 (b2n (s.fld rPWR_VCORE 4 0 == 0x14))))
  { s with
    pwr := { s.pwr with buckAt := s.clk.tb }
    mem := { s.mem with clearing := some 0x20100000 } }

/-- One RTC edge: the count advances while the oscillator runs (R129), and step 4 of a fixed wake falls 8 periods after
its wake event. -/
def rtcEdge (s : State) : State :=
  if !s.clk.rtcRuns then s
  else
    let s := { s with clk := { s.clk with rtc := (s.clk.rtc + 1) % 2 ^ 48 } }
    match s.pwr.wakeAt, s.pwr.entryRtc with
    | some w, some e => if s.clk.rtc = w + 8 then restartTimebase w e s else s
    | _, _ => s

/-- SRAM cleared (R281). -/
def execSramInitDone (s : State) : Out :=
  .next (when (s.mem.clearing.isSome && s.sys.mode != .off) (fun s =>
    { s.setRbit rSYS_ECC_STAT 0 true with mem := { s.mem with clearing := none } }) s)

/-! ### Tamper (R1095, R1191, R1192) -/

/-- TAMPER_N held low with ARM at 1 sets the latch, which acts as the mode gives. -/
def execTamper (s : State) : Out :=
  .next (when (s.pwr.aon && s.rbit rPWR_TAMPER 0 && !s.rbit rPWR_TAMPER 1) (fun s =>
    let s := s.setRbit rPWR_TAMPER 1 true
    if s.sys.mode == .banked then presentWake 5 s
    else when s.live (raiseLockdown 1) s) s)

/-! ### Loss of supplies (R1071, R1072, R1076) -/

/-- Why a PROGRAM cannot write a unit: 3 it is not all 0xFF, 4 the source is answered with an error (R339, R343); else the
source's bytes. The source is read coherently; the code that SYS_ECC_STAT.SRC shows for this block is not stated (log entry
4). -/
def unitSource (addr src : Nat) (s : State) : Except Nat Bytes × State :=
  if !((readBytes s addr 16).all (fun b => b == 0xFF)) then (.error 3, s)
  else match readSram ((Config.freeWord s.free).toNat % 256) src 16 s with
    | (.ok bs, s) => (.ok bs, s)
    | (_, s) => (.error 4, { s with free := s.free + 1 })

/-- The first n 16-byte units of a PROGRAM written in order: how many were, and the VALUE that stopped it, 0 for none. -/
def programUnits : Nat → Nat → Nat → State → (Nat × Nat) × State
  | 0, _, _, s => ((0, 0), s)
  | n + 1, addr, src, s =>
    match unitSource addr src s with
    | (.error v, s) => ((0, v), s)
    | (.ok bs, s) =>
      let r := programUnits n (addr + 16) (src + 16) (writeWithin inFlash addr bs s)
      ((r.1.1 + 1, r.1.2), r.2)

/-- Bytes of unknown content (log entry 4). -/
def spoil (a n : Nat) (s : State) : State := writeWithin inFlash a (s.freshBytes n).1 (s.freshBytes n).2

/-- The unit of n that is being written at an instant that nothing times: a free value (log entry 4). -/
def unitInWork (n : Nat) (s : State) : Nat × State := ((Config.freeWord s.free).toNat % max n 1, { s with free := s.free + 1 })

/-- A PROGRAM cut off: the units before the one being written hold their new content, and that one holds content that nothing
constrains (R352). -/
def cutProgram (addr src len : Nat) (s : State) : State :=
  let (k, s) := unitInWork (len / 16) s
  let r := programUnits k addr src s
  if r.1.2 = 0 && (readBytes r.2 (addr + 16 * k) 16).all (fun b => b == 0xFF) then spoil (addr + 16 * k) 16 r.2 else r.2

/-- A command cut off by a reset or a supply loss; in QUENCHED no unit is being written (R356). -/
def cutFlash (s : State) : State :=
  let s' := match s.flash.running with
    | some (.program addr src len) => when (len != 0 && !(s.sys.mode == Mode.quenched)) (cutProgram addr src len) s
    | _ => s
  { s' with flash := { s'.flash with running := none, suspending := false, suspended := false } }

/-- A supply crosses a limit: T01. OFF_CAUSE records it, a ledger or flash write is cut, and a latched QUENCH edge of
BANKED is cleared (R1110). SYS_MODE_CAUSE has no value for T01 (R73). -/
def supplyLost (supply : Nat) (high : Bool) (s : State) : State :=
  let s := s.setRbit rPWR_OFF_CAUSE (supply + if high then 4 else 0) true
  let s := { s with pwr := { s.pwr with valid := s.pwr.valid &&& ~~~(BitVec.ofNat 4 (1 <<< supply)) } }
  if s.sys.mode == .off then { s with pwr := { s.pwr with resetReq := none } }
  else
    let s := cutFlash (tearWrite s)
    { s with
      sys := { s.sys with mode := .off, prev := some s.sys.mode, active := 0, grants := [], approachEnd := none, tokenEnd := none }
      clk := { s.clk with running := false }
      pwr := { s.pwr with
        resetReq := none, entering := false, t05At := none, entryRtc := none, wakeAt := none, resetWake := none, heldSrc := 0, wdtFrom := none }
      assay := { s.assay with bankLatch := false, freezing := false, thawAt := none } }

/-- A supply becomes invalid. VBAT above 24 V for longer than 400 ms is outside what the device is specified for
(R1074). -/
def execSupplyInvalid (supply : Fin 4) (high outsideRatings : Bool) (s : State) : Out :=
  if supply.val = 0 && high && outsideRatings then .fault .outsideRatings
  else .next (supplyLost supply.val high s)

/-- VBAT falls below 3.0 V: the always-on domain loses its state. -/
def execAlwaysOnLoss (s : State) : Out :=
  .next (when (s.sys.mode == .off && s.pwr.aon) (fun s =>
    { s with pwr := { s.pwr with aon := false }, clk := { s.clk with rtcRuns := false } }) s)

/-- The crystal oscillator runs after the always-on domain powered up (R1142). -/
def execRtcOscillatorRuns (s : State) : Out :=
  .next (when (s.pwr.aon && !s.clk.rtcRuns) (fun s => { s with clk := { s.clk with rtcRuns := true } }) s)

/-! ### Reading the counters (R134, R135, R139, R140) -/

/-- A read of TB_NOW_LO: the low word, with the high word captured in the reader's shadow. -/
def readTbLo (who : Sys2Proof.Req) (s : State) : Word × State :=
  (s.tbLo, s.setReg (regKey who rTB_NOW_HI) (wd (s.clk.tb / 2 ^ 32)))

def readRtcLo (who : Sys2Proof.Req) (s : State) : Word × State :=
  (wd s.clk.rtc, s.setReg (regKey who rRTC_NOW_HI) (wd (s.clk.rtc / 2 ^ 32 % 2 ^ 16)))

/-- The last answer to an access that no instruction made. -/
def answer (rcode : Nat) (ws : List Word) (err : Bool) (s : State) : State :=
  { s with host := { s.host with answer := ⟨rcode, ws, err⟩ } }

def execTbNowLo (who : Sys2Proof.Req) (s : State) : Out :=
  .next (when s.live (fun s => let (w, t) := readTbLo who s; answer 0 [w] false t) s)

def execRtcNowLo (who : Sys2Proof.Req) (s : State) : Out :=
  .next (when s.live (fun s => let (w, t) := readRtcLo who s; answer 0 [w] false t) s)

end Sys2Proof.Machine
end

