-- ==== Sys2Proof/Machine/Flash.lean ====
section
/-! DEFINITION. Code flash: commands, their ends, and the TORN marks (07). -/
namespace Sys2Proof.Machine

/-- A command's end written to FLASH_DONE, with SEQ advanced by one (R343). -/
def flashDoneWord (status value : Nat) (s : State) : State :=
  s.setReg rFLASH_DONE (wd (fld 16 ((s.fld rFLASH_DONE 31 16 + 1) % 65536) + fld 8 value + status))

/-- The slot of an address: 0 slot A, 1 slot B, none in the booking store (R321). -/
def slotOf (a : Nat) : Option Nat := if inImages a then some ((a - 0x08000000) / 0x180000) else none

def protectedAddr (a : Nat) (s : State) : Bool := (slotOf a).any (fun n => s.rbit rFLASH_PROT n)

/-- The operands of a PROGRAM are inside R338. -/
def programArgsOk (addr src len : Nat) : Bool :=
  inFlash addr && addr % 16 == 0 && src % 16 == 0 && len % 16 == 0 && 16 ≤ len && len ≤ 4096 &&
  addr % 4096 + len ≤ 4096 && inSram src && inSram (src + len - 1)

/-- PROGRAM: checked in the order of R343, then started. -/
def flashProgram (s : State) : State :=
  let addr := (s.reg rFLASH_ADDR).toNat
  let src := (s.reg rFLASH_SRC).toNat
  let len := s.fld rFLASH_LEN 12 0
  if s.flash.running.isSome then s.setRbit rFLASH_STAT 2 true
  else if !programArgsOk addr src len then flashDoneWord 5 1 s
  else if protectedAddr addr s then flashDoneWord 5 2 s
  else if s.flash.torn.contains (sectorOf addr) then flashDoneWord 0xF 0 s
  else { s with flash := { s.flash with running := some (.program addr src len) } }

def eraseArgsOk (addr : Nat) : Bool := inFlash addr && addr % 4096 == 0

/-- ERASE of the sector at an address: checked, then started with its erase-intent marker set (R340). -/
def flashEraseAt (addr : Nat) (s : State) : State :=
  if s.flash.running.isSome then s.setRbit rFLASH_STAT 2 true
  else if !eraseArgsOk addr then flashDoneWord 5 1 s
  else if protectedAddr addr s then flashDoneWord 5 2 s
  else
    let sec := sectorOf addr
    { s with flash := { s.flash with
      running := some (.erase sec)
      markers := if s.flash.markers.contains sec then s.flash.markers else sec :: s.flash.markers } }

def flashErase (s : State) : State := flashEraseAt (s.reg rFLASH_ADDR).toNat s

/-- An erase pulse runs: an erase that is not suspended. -/
def erasePulse (s : State) : Bool :=
  match s.flash.running with
  | some (.erase _) => !s.flash.suspended
  | _ => false

/-- SUSPEND (R342, R1184). -/
def flashSuspend (s : State) : State :=
  if erasePulse s then { s with flash := { s.flash with suspending := true } } else s.setRbit rFLASH_STAT 2 true

/-- RESUME (R342). -/
def flashResume (s : State) : State :=
  if s.flash.suspended then { s with flash := { s.flash with suspended := false } } else s.setRbit rFLASH_STAT 2 true

/-- A write of FLASH_CMD (R341, R342). -/
def flashCmd (who : Sys2Proof.Req) (key : BitVec 16) (op : Nat) (s : State) : State :=
  if !Writers.appKiln.permits who then s
  else if key != 0x464C then s.setRbit rFLASH_STAT 3 true
  else match op with
    | 1 => flashProgram s
    | 2 => flashErase s
    | 3 => flashSuspend s
    | 4 => flashResume s
    | _ => s.setRbit rFLASH_STAT 2 true

def execProgram (who : Sys2Proof.Req) (key : BitVec 16) (s : State) : Out := .next (when s.live (flashCmd who key 1) s)
def execErase (who : Sys2Proof.Req) (key : BitVec 16) (s : State) : Out := .next (when s.live (flashCmd who key 2) s)
def execSuspend (who : Sys2Proof.Req) (key : BitVec 16) (s : State) : Out := .next (when s.live (flashCmd who key 3) s)
def execFlashResume (who : Sys2Proof.Req) (key : BitVec 16) (s : State) : Out := .next (when s.live (flashCmd who key 4) s)

/-- The erase pulse stops: SUSPENDED reads 1 and stalled reads of other sectors are served (R345, R1184). -/
def execSuspendTakesEffect (s : State) : Out :=
  .next (when (s.live && s.flash.suspending && erasePulse s) (fun s =>
    { s with flash := { s.flash with suspending := false, suspended := true } }) s)

/-- FLASH_BUSY falls and FLASH_DONE takes its word; cached lines of the sector are invalidated first (R288). The answer is
the status and value of FLASH_DONE. -/
def flashEnd (sec status value : Nat) (s : State) : (Nat × Nat) × State :=
  ((status, value), flashDoneWord status value (invalidateSector sec
    { s with flash := { s.flash with running := none, suspending := false, suspended := false } }))

/-- A sector erased: every byte 0xFF, its marker cleared, TORN no longer (R322, R340). -/
def eraseSector (sec : Nat) (s : State) : State :=
  let s := writeWithin inFlash (sectorBase sec) (List.replicate 4096 0xFF) s
  { s with flash := { s.flash with
    markers := s.flash.markers.filter (fun x => !(x == sec)), torn := s.flash.torn.filter (fun x => !(x == sec)) } }

/-- A PROGRAM whose array fails at a unit, where one is named: the units before it are written, and it ends at the first unit
that R339 or its source stops, else at that unit, whose content then is not known (R343). -/
def programEnd (failed : Option Nat) (addr src len : Nat) (s : State) : Nat × State :=
  let n := len / 16
  let k := min n (failed.getD n)
  let r := programUnits k addr src s
  if r.1.2 != 0 then (r.1.2, r.2)
  else if k = n then (0, r.2)
  else match unitSource (addr + 16 * k) (src + 16 * k) r.2 with
    | (.error v, s) => (v, s)
    | (.ok _, s) => (5, spoil (addr + 16 * k) 16 s)

/-- The running command ends; `failed` names the unit of a PROGRAM that the array failed to write within its maximum time, and
for an ERASE that it failed (R343). -/
def flashFinish (failed : Option Nat) (s : State) : (Nat × Nat) × State :=
  match s.flash.running with
  | none => ((0, 0), s)
  | some (.program addr src len) =>
    let r := programEnd failed addr src len s
    flashEnd (sectorOf addr) (if r.1 = 0 then 0 else 5) r.1 r.2
  | some (.erase sec) =>
    if failed.isNone then flashEnd sec 0 0 (eraseSector sec s) else flashEnd sec 5 5 (spoil (sectorBase sec) 4096 s)

/-- The word of FLASH_TORNn (R326). -/
def tornWord (s : State) (n : Nat) : Word :=
  wd ((List.range 32).map (fun k => if s.flash.torn.contains (32 * n + k) then 2 ^ k else 0)).sum

/-- FLASH_STAT as it reads. -/
def flashStat (s : State) : Word :=
  setBit (setBit (s.reg rFLASH_STAT) 0 s.flash.running.isSome) 1 s.flash.suspended

end Sys2Proof.Machine
end

