-- ==== Sys2Proof/Machine/LedgerPort.lean ====
section
/-! DEFINITION. The ledger's port: scans and rescans, and the words the Kiln core sends and receives (R382 to R403). -/
namespace Sys2Proof.Machine

/-- A STAT word of the ledger port (R400). -/
def ledgerStat (seq reason status : Nat) : Word := wd (fld 14 seq + fld 8 reason + status)

def sendLedgerStat (seq reason status : Nat) (s : State) : State := devSend 0x55 [(ledgerStat seq reason status, false)] s

/-- A rescan asked for (R406, R417). -/
def rescan (s : State) : State :=
  if !(s.sys.mode == .factory || s.sys.mode == .service) || s.led.scanFrom.isSome || s.led.rescanWanted then s
  else if s.led.writing.isSome then { s with led := { s.led with rescanWanted := true } }
  else beginScan s

/-- A write of LEDGER_CTL (R405). -/
def ledgerCtl (who : Sys2Proof.Req) (key : BitVec 16) (bit0 : Bool) (s : State) : State :=
  when (Writers.appKiln.permits who && key == 0x4C47 && bit0) rescan s

/-- The head word of the ledger's CTRL port when it carries this OP. -/
def ledgerCtrl (s : State) (op : Nat) : Option Word := (s.cHead 0x54).filter (fun w => bits w 31 28 == op)

/-- A rescan asked for by a keyed write of LEDGER_CTL or a CTRL word, which no STAT word answers (DESIGN CHOICE, log entry
107). -/
def execRescan (src : RescanBy) (s : State) : Out :=
  .next (when s.live (fun s =>
    match src with
    | .register who key => ledgerCtl who key true s
    | .port => if (ledgerCtrl s 4).isSome then rescan (cDrop 0x54 s) else s) s)

/-- READ: the current copy on DOUT, or LEDGER_BUSY while a scan runs (R400, R402). -/
def execReadCopy (s : State) : Out :=
  .next (when s.live (withSome (ledgerCtrl s 1) (fun w s =>
    let s := cDrop 0x54 s
    let n := bits w 15 8
    if s.led.scanFrom.isSome then sendLedgerStat 0 0 0xA s
    else if n > 239 then sendLedgerStat 0 1 5 s
    else sendLedgerStat 0 0 0 (devSend 0x53 (withEom (wordsOf (slotBytes s n true))) s))) s)

/-- The Kiln core's SND of the last DIN word completes (R371, R401). -/
def ackLedgerSnd (s : State) : State :=
  let k := s.cores.get 5
  when (k.run == .blocked .ledgerAck)
    (fun s => s.onCore 5 (fun k => { k with run := .running, flg := k.flg &&& 0b0111, pc := k.pc + 4 })) s

/-- A complete write message taken by the port: refused with its reason, begun, or left waiting at the arbiter (R369,
R372). A message of another length than R400 gives is refused with reason 0x04 (log entry 16). -/
def takeChannelWrite (op n : Nat) (ws : List Word) (s : State) : State :=
  let refuse := fun (reason : Nat) (s : State) => sendLedgerStat 0 reason 5 (ackLedgerSnd s)
  if op = 0xA || (op = 2 && s.led.scanFrom.isSome) then sendLedgerStat 0 0 0xA (ackLedgerSnd s)
  else if op = 2 then
    if n > 239 then refuse 1 s
    else if ws.length != 62 then refuse 4 s
    else if wornOut s n then refuse 6 (s.setRbit rLEDGER_STAT 4 true)
    else if s.led.writing.isSome || s.led.rescanWanted then { s with led := { s.led with waiting := some (op, n, ws) } }
    else beginCopy n (bytesOf ws) .channel s
  else
    if ws.length != 4 then refuse 4 s
    else if s.led.writing.isSome then { s with led := { s.led with waiting := some (op, n, ws) } }
    else beginUnit n (bytesOf ws) .channel s

/-- The port takes the DIN words that wait while it collects a write; at EOM the message is complete, and the SND that
carried it is not acknowledged until the write is verified (R371, R400, R401). -/
def drainLedgerDin : Nat → State → State
  | 0, s => s
  | fuel + 1, s =>
    match s.led.collecting, (s.chan 0x52).q.head? with
    | some (op, n, ws), some h =>
      let s := cDrop 0x52 s
      let ws := ws ++ [h.w]
      if h.eom then takeChannelWrite op n ws { s with led := { s.led with collecting := none } }
      else drainLedgerDin fuel { s with led := { s.led with collecting := some (op, n, ws) } }
    | _, _ => s

/-- A WRITE or unit-write word taken from CTRL, and the DIN words that wait with it. A WRITE sent during a scan is answered
LEDGER_BUSY whenever its last word comes (R402). -/
def takeWriteWord (op : Nat) (s : State) : State :=
  if s.led.collecting.isSome || s.led.waiting.isSome then drainLedgerDin 4 s
  else withSome (ledgerCtrl s op) (fun w s =>
    let s := cDrop 0x54 s
    let op := if op = 2 && s.led.scanFrom.isSome then 0xA else op
    drainLedgerDin 4 { s with led := { s.led with collecting := some (op, bits w 15 8, []) } }) s

def execWriteCopy (s : State) : Out := .next (when s.live (takeWriteWord 2) s)
def execUnitWrite (s : State) : Out := .next (when s.live (takeWriteWord 3) s)

/-- A channel write that waited at the arbiter begins once the port is free (R372); a rescan that waits too goes before it
(DESIGN CHOICE, log entry 106). -/
def startWaitingWrite (s : State) : State :=
  match s.led.waiting with
  | none => s
  | some (op, n, ws) =>
    if s.led.writing.isSome || (op == 2 && (s.led.scanFrom.isSome || s.led.rescanWanted)) then s
    else takeChannelWrite op n ws { s with led := { s.led with waiting := none } }

/-- The STAT word and the acknowledge that end a channel write (R401). -/
def endChannelWrite (w : LedgerWrite) (ok : Bool) (s : State) : State :=
  let seq := match w.target with | .copy _ _ => copySeq w.bytes | .unit _ => 0
  sendLedgerStat (if ok then seq else 0) (if ok then 0 else 5) (if ok then 0 else 5) (ackLedgerSnd s)

end Sys2Proof.Machine
end

