-- ==== Sys2Proof/Machine/AditPos.lean ====
section
/-! DEFINITION. The satellite positions and the frames that the ADIT hardware sends (20). -/
namespace Sys2Proof.Machine

/-! ### Positions (R1005 to R1008) -/

/-- A bit of ADIT_EVT, which reaches E.NET (R214, R1025). -/
def aditEvent (b : Nat) (s : State) : State := blockEvent rADIT_EVT rADIT_IE rADIT_ROUTE 0 15 b s

def posReg (p : Nat) : Nat := rADIT_POS + 4 * p

/-- ADIT_POSn.STATE (R1005): 0 VACANT, 1 BOUND, 2 LOST, 3 REBINDING, 4 ABANDONED, 5 UNTRUSTED. -/
def posState (s : State) (p : Nat) : Nat := s.fld (posReg p) 31 28

/-- A position changes state, with its bit of ADIT_EVT.STATE. -/
def setPosState (p st : Nat) (s : State) : State := aditEvent (24 + p) (s.setFld (posReg p) 31 28 st)

def State.onAdit (s : State) (f : Adit → Adit) : State := { s with adit := f s.adit }

def State.setAditPos (s : State) (p : Nat) (x : AditPos) : State :=
  s.onAdit (fun a => { a with pos := a.pos.set (p % 8) x (Nat.mod_lt _ (by decide)) })

def State.aditPos (s : State) (p : Nat) : AditPos := s.adit.pos.get (Fin.ofNat 8 p)

/-- A position is bound: its misses are 0 and its heartbeats run. -/
def posBound (p : Nat) (s : State) : State :=
  let s := (setPosState p 1 s).setFld (posReg p) 23 16 0
  s.setAditPos p { s.aditPos p with nextHb := s.clk.tb + msTicks (s.fld rADIT_CFG 3 0) }

/-- The words of a frame on DOUT: its header and payload (R1018). -/
def aditWords (status type p : Nat) (payload : Bytes) : List Word :=
  wd (fld 28 1 + fld 24 status + fld 16 payload.length + fld 8 type + p) :: wordsOf payload

def aditOut (status type p : Nat) (payload : Bytes) (s : State) : State :=
  portSend 0xB3 (withEom (aditWords status type p payload)) s

/-- The last n words that DOUT took are taken back. -/
def aditTakeBack (n : Nat) (s : State) : State :=
  let c := s.chan 0xB3
  let m := c.q.length + c.back.length - n
  s.setChan 0xB3 { c with q := c.q.take m, back := c.back.take (m - c.q.length) }

/-- A reply of a position that leaves BOUND in the tick of the reply is not delivered (R1032). -/
def aditUndeliver (p : Nat) (s : State) : State :=
  withSome (s.adit.delivered.filter (fun d => d.1 == p && d.2.1 == s.clk.tb)) (fun d s =>
    aditTakeBack d.2.2 (s.onAdit (fun a => { a with delivered := none }))) s

/-- The dispatched ADIT command is addressed to this position. -/
def aditCommandAt (s : State) (p : Nat) : Bool :=
  (s.dispatched 11).any (fun d => leAt d.desc 0x2C 1 == p)

/-- The command at a position ends with SATELLITE_LOST (R1009). -/
def endSatLost (p : Nat) (s : State) : State :=
  when (aditCommandAt s p && s.mayAttempt 11) (portSend (doneKey 11) [(wd 0xB, false)]) s

/-- A position has left BOUND: a frame of a command for it is given up (R1009, R1032). -/
def leaveBound (p : Nat) (s : State) : State :=
  let s := aditUndeliver p s
  let mine := fun (r : AditReq) => r.pos == p && r.why == .command
  let hit := s.adit.again.any mine || s.adit.req.any mine
  let type := ((s.adit.again.filter mine).or (s.adit.req.filter mine)).map AditReq.type
  let s := s.onAdit (fun a => { a with
    again := a.again.filter (fun r => !mine r)
    req := a.req.filter (fun r => !mine r) })
  endSatLost p (when hit (aditOut 2 (type.getD 0) p []) s)

/-- A position becomes LOST: its rebind timer starts, and probes run from there (R1006, R1008). -/
def posLost (p : Nat) (s : State) : State :=
  let was := posState s p
  let s := setPosState p 2 s
  let s := s.setAditPos p { s.aditPos p with
    lostAt := s.clk.tb, nextProbe := s.clk.tb + msTicks (s.fld rADIT_CFG 15 8) }
  when (was == 1) (leaveBound p) s

/-! ### Frames (R996 to R998) -/

/-- Ticks of a frame of n payload bytes on the line: 10 + n bytes at 20 Mbit/s. -/
def frameTicks (n : Nat) : Nat := ((10 + n) * 2496 + 99) / 100

/-- The bytes of a frame with their CRC, from ADDR on (R998). -/
def aditFrame (addr type : Nat) (payload : Bytes) : Bytes :=
  let bs := leBytes 1 addr ++ leBytes 1 type ++ leBytes 1 payload.length ++ payload
  bs ++ beBytes 2 (crc16 bs).toNat

/-- A frame goes out; one of a command is an attempt of it (R500). -/
def aditSendFrame (r : AditReq) (s : State) : State :=
  let s := (s.incFld rADIT_STAT 31 16).onAdit (fun a => { a with
    line := aditFrame r.pos r.type r.payload
    req := some { r with tries := r.tries + 1, endAt := s.clk.tb + frameTicks r.payload.length } })
  when (r.why == .command) (attempt 11) s

def aditOn (s : State) : Bool := s.rbit rADIT_CFG 31

/-- RESET_STATE of a BIND goes out when the line is free (R1012). -/
def aditKick (s : State) : State :=
  match s.adit.req, s.adit.binding with
  | none, p :: ps =>
    if !aditOn s then s
    else aditSendFrame ⟨p, 4, [1], .rebind, 0, 0⟩ (s.onAdit (fun a => { a with binding := ps }))
  | _, _ => s

/-- A position that a RESET_STATE is under way to. -/
def bindRuns (s : State) (p : Nat) : Bool :=
  s.adit.binding.contains p || s.adit.req.any (fun r => r.pos == p && r.why == .rebind)

/-- BIND written by the Kiln core: refused unless the position is REBINDING; RESET_STATE goes out (R1011, R1012). -/
def writeBind (p : Nat) (s : State) : State :=
  when (posState s p == 3 && !bindRuns s p) (fun s =>
    aditKick (s.onAdit (fun a => { a with binding := a.binding ++ [p] }))) s

/-- What waits or runs for a BIND is dropped. -/
def dropBind (p : Nat) (s : State) : State :=
  s.onAdit (fun a => { a with
    binding := a.binding.filter (fun x => !(x == p))
    req := a.req.filter (fun r => !(r.pos == p && r.why == .rebind)) })

/-- UNTRUST written by the Kiln core: refused unless the position is REBINDING (R1011). -/
def writeUntrust (p : Nat) (s : State) : State := when (posState s p == 3) (fun s => setPosState p 5 (dropBind p s)) s

/-- REBIND: VACANT or ABANDONED to LOST (R1006). -/
def writeRebind (p : Nat) (s : State) : State := when (posState s p == 0 || posState s p == 4) (posLost p) s

/-- RELEASE: any but UNTRUSTED to VACANT (R1006). -/
def writeRelease (p : Nat) (s : State) : State :=
  let was := posState s p
  if was == 5 || was == 0 then s
  else when (was == 1) (leaveBound p) (setPosState p 0 (dropBind p s))

end Sys2Proof.Machine
end

