-- ==== Sys2Proof/Machine/Ble.lean ====
section
/-! DEFINITION. The BLE controller as firmware sees it: its HCI transport, the vendor command and advertising from BANKED
(15). What the controller says on the air and the events of standard HCI commands come to the model as packets of
BLE_RX_PACKET (log entry 24). -/
namespace Sys2Proof.Machine

/-- The value of a fuse field of n bytes: the unit's own value where Mupor programmed it; none while its commit bit is 0. -/
def FuseField.value (f : FuseField) (n : Nat) (own : Bytes) : Option Bytes :=
  match f with
  | .unprogrammed => none
  | .torn => none
  | .maker => some (slice own 0 n)
  | .data bs => some (slice bs 0 n)

def State.onBle (s : State) (f : Ble → Ble) : State := { s with ble := f s.ble }

def bleEvent (b : Nat) (s : State) : State := blockEvent rBLE_EVT rBLE_IE rBLE_IE 16 14 b s

/-- The modes in which the controller runs (R774), while it is on. -/
def State.bleUp (s : State) : Bool := s.timed && s.rbit rBLE_CFG 31

/-! ### Packets towards firmware (R759, R764) -/

/-- The words of a packet: its header, then its bytes. -/
def hciWords (ind : Nat) (bs : Bytes) : List Word :=
  wd (fld 16 bs.length + ind) :: (chunks 4 (bs.length / 4 + 1) bs).map wordOfLe

/-- Held packets enter the receive FIFO, in order, each once all its words fit. -/
def blePlace : Nat → State → State
  | 0, s => s
  | n + 1, s =>
    match s.ble.held with
    | [] => s
    | p :: ps =>
      if 512 < s.ble.rx.length + p.length then s
      else blePlace n (bleEvent 0 (s.onBle (fun b => { b with rx := b.rx ++ p, held := ps })))

/-- A packet of the controller to firmware. -/
def bleEmit (ind : Nat) (bs : Bytes) (s : State) : State :=
  let s := s.onBle (fun b => { b with held := b.held ++ [hciWords ind bs] })
  blePlace s.ble.held.length s

/-- HCI_Command_Complete with one command packet allowed. -/
def commandComplete (op : Nat) (params : Bytes) (s : State) : State :=
  bleEmit 4 ([0x0E, BitVec.ofNat 8 (3 + params.length), 1] ++ leBytes 2 op ++ params) s

/-- HCI_Command_Status with one command packet allowed. -/
def commandStatus (op : Nat) (status : Byte) (s : State) : State := bleEmit 4 ([0x0F, 4, status, 1] ++ leBytes 2 op) s

/-- HCI_Disconnection_Complete for every open connection (R770, R775). -/
def bleDropAll (reason : Byte) (s : State) : State :=
  let hs := s.ble.conns
  forEach hs (fun h => bleEmit 4 ([5, 4, 0] ++ leBytes 2 h ++ [reason])) (s.onBle (fun b => { b with conns := [] }))

/-! ### Commands of the host stack (R756 to R758, R767) -/

/-- The opcodes of the options of R756, as the Core Specification numbers them (log entry 24). -/
def hciSupported (op : Nat) : Bool :=
  let ocf := op % 0x400
  match op / 0x400 with
  | 1 => ocf == 0x06 || ocf == 0x1D
  | 3 => [0x01, 0x03, 0x2D, 0x31, 0x33, 0x35, 0x63, 0x7B, 0x7C].contains ocf
  | 4 => [0x01, 0x02, 0x03, 0x05, 0x09].contains ocf
  | 5 => ocf == 0x05
  | 8 =>
    ([0x01, 0x02, 0x03, 0x05, 0x0E, 0x0F, 0x10, 0x11, 0x12, 0x13, 0x14, 0x15, 0x16, 0x17, 0x18, 0x19, 0x1A, 0x1B, 0x1C].contains ocf)
    || (0x20 ≤ ocf && ocf ≤ 0x24) || (0x27 ≤ ocf && ocf ≤ 0x39) || (0x3A ≤ ocf && ocf ≤ 0x3D)
    || (0x41 ≤ ocf && ocf ≤ 0x43) || (0x4B ≤ ocf && ocf ≤ 0x4E)
  | 0x3F => ocf == 0x01
  | _ => false

/-- A set named by its handle. -/
def advSet? (s : State) (h : Nat) : Option AdvSet := s.ble.sets.find? (fun a => a.handle == h)

/-- LE_Set_Extended_Advertising_Parameters: the set's properties, a new set while fewer than 4 exist. Which interval the
controller takes of those the host allows is not stated (log entry 4). -/
def advParams (p : Bytes) (s : State) : State :=
  let h := leAt p 0 1
  let old := advSet? s h
  if old.isNone && 4 ≤ s.ble.sets.length then s
  else
    let lo := leAt p 3 3
    let (x, s) := s.freshWord
    let a : AdvSet := ⟨h, (old.map AdvSet.enabled).getD false, (leAt p 1 1) % 2 == 1, leAt p 20 1,
      lo + x.toNat % (leAt p 6 3 - lo + 1), 0, none⟩
    s.onBle (fun b => { b with sets := b.sets.filter (fun x => x.handle != h) ++ [a] })

/-- LE_Set_Extended_Advertising_Enable: the named sets, or every set when none is named and Enable is 0. -/
def advEnable (p : Bytes) (s : State) : State :=
  let on := leAt p 0 1 == 1
  let hs := (List.range (leAt p 1 1)).map (fun i => leAt p (2 + 4 * i) 1)
  s.onBle (fun b => { b with
    sets := b.sets.map (fun a => if hs.contains a.handle || (hs.isEmpty && !on) then { a with enabled := on } else a) })

/-- Mupor_Set_Bank_Advertising (R767). -/
def setBankAdv (p : Bytes) (s : State) : State :=
  let n := leAt p 0 1
  let hs := (List.range n).map (fun i => leAt p (1 + i) 1)
  let bad := 2 < n || p.length != n + 1 ||
    hs.any (fun h => match advSet? s h with | none => true | some a => a.phy == 2)
  if bad then commandComplete 0xFC01 [0x12] s
  else commandComplete 0xFC01 [0] (s.onBle (fun b => { b with bankSets := hs }))

/-- A command packet taken by the controller; one whose answer the model does not compute is answered by a later
BLE_RX_PACKET. -/
def hciCommand (bs : Bytes) (s : State) : State :=
  let op := leAt bs 0 2
  let p := slice (bs.drop 3) 0 (leAt bs 2 1)
  if !hciSupported op then commandStatus op 0x01 s
  else if op = 0xFC01 then setBankAdv p s
  else if op = 0x1009 then
    commandComplete op (0 :: (s.fuses.bdAddr.value 6 Config.bdAddress).getD (List.replicate 6 0)) s
  else if op = 0x0C03 then
    commandComplete op [0] (s.onBle (fun b => { b with conns := [], sets := [], bankSets := [] }))
  else if op = 0x2043 && 4 ≤ s.ble.conns.length then commandStatus op 0x0D s
  else if op = 0x2036 then advParams p s
  else if op = 0x2039 then advEnable p s
  else if op = 0x203C then s.onBle (fun b => { b with sets := b.sets.filter (fun a => a.handle != leAt p 0 1) })
  else if op = 0x203D then s.onBle (fun b => { b with sets := [] })
  else s

/-- The head of the transmit FIFO: nothing whole yet, a header that R761 faults, or a packet with the words after it. -/
inductive HciHead where
  | none
  | bad
  | packet (ind : Nat) (bs : Bytes) (rest : List Word)

def hciHeaderOk (h : Word) : Bool :=
  let l := bits h 31 16
  (bits h 7 0 == 1 && 3 ≤ l && l ≤ 258) || (bits h 7 0 == 2 && 4 ≤ l && l ≤ 255)

def hciHead (tx : List Word) : HciHead :=
  match tx with
  | [] => .none
  | h :: t =>
    let l := bits h 31 16
    let n := (l + 3) / 4
    if !hciHeaderOk h then .bad
    else if t.length < n then .none
    else .packet (bits h 7 0) ((bytesOf (t.take n)).take l) (t.drop n)

/-- The controller takes the packet at the head of the transmit FIFO when `want` admits it; a faulty header makes it
discard what is there and what follows until RESYNC (R761). -/
def bleTake (want : Nat → Bytes → Bool) (s : State) : State :=
  match hciHead s.ble.tx with
  | .none => s
  | .bad => bleEvent 2 ((s.onBle (fun b => { b with tx := [] })).setRbit rBLE_STAT 2 true)
  | .packet ind bs rest =>
    if want ind bs then
      let s := s.onBle (fun b => { b with tx := rest })
      if ind = 1 then hciCommand bs s else s
    else s

def execHciPacket (s : State) : Out := .next (when s.bleUp (bleTake (fun _ _ => true)) s)

def execMuporSetBankAdvertising (s : State) : Out :=
  .next (when s.bleUp (bleTake (fun ind bs => ind == 1 && leAt bs 0 2 == 0xFC01)) s)

/-! ### Registers (R758 to R766, R776) -/

/-- A word appended to the transmit FIFO; while EN is 0 there is no room (R760, TXSPACE). -/
def bleTxd (v : Word) (s : State) : State :=
  if s.rbit rBLE_STAT 2 then s
  else if !s.rbit rBLE_CFG 31 || 128 ≤ s.ble.tx.length then bleEvent 1 s
  else s.onBle (fun b => { b with tx := b.tx ++ [v] })

/-- The head word of the receive FIFO removed (R763). -/
def bleRxPop (s : State) : State :=
  let s := s.onBle (fun b => { b with rx := b.rx.drop 1 })
  blePlace s.ble.held.length s

/-- A write of BLE_CFG: RESYNC, and EN, with the controller's first event after a reset (R761, R766). -/
def bleCfg (v : Word) (s : State) : State :=
  let s := when (bit v 0) (fun s => (s.onBle (fun b => { b with tx := [] })).setRbit rBLE_STAT 2 false) s
  let s := s.setRbit rBLE_CFG 31 (bit v 31)
  when (bit v 31 && !s.ble.started) (fun s => commandComplete 0 [] (s.onBle (fun b => { b with started := true }))) s

def bleStat (s : State) : Word :=
  let en := s.rbit rBLE_CFG 31
  wd (fld 22 s.ble.rx.length + fld 14 (if en then 128 - s.ble.tx.length else 0) + fld 4 s.ble.conns.length
    + fld 2 (s.fld rBLE_STAT 2 2) + fld 1 (b2n en) + b2n en)

def bleRxd (s : State) : Word := s.ble.rx.headD 0

/-- A write of a BLE register that does more than store its word. -/
def bleWrite (a : Nat) (v : Word) (s : State) : Option State :=
  if a = rBLE_CFG then some (bleCfg v s)
  else if a = rBLE_HCI_TXD then some (bleTxd v s)
  else if a = rBLE_HCI_RXPOP then some (when (bit v 0) bleRxPop s)
  else none

def execHciTxd (who : Sys2Proof.Req) (value : Word) (s : State) : Out :=
  .next (when (s.live && Writers.app.permits who) (bleTxd value) s)

def execRxpop (who : Sys2Proof.Req) (value : Word) (s : State) : Out :=
  .next (when (s.live && Writers.app.permits who && bit value 0) bleRxPop s)

def execResync (who : Sys2Proof.Req) (value : Word) (s : State) : Out :=
  .next (when (s.live && Writers.app.permits who && bit value 0) (bleCfg value) s)

/-! ### What the controller reports -/

/-- The connection that an event opens: LE_Connection_Complete or LE_Enhanced_Connection_Complete with status 0. -/
def connOpened (bs : Bytes) : Option Nat :=
  if leAt bs 0 1 == 0x3E && [0x01, 0x0A, 0x29].contains (leAt bs 2 1) && leAt bs 3 1 == 0 then some (leAt bs 4 2 % 0x1000)
  else none

/-- The connection that HCI_Disconnection_Complete with status 0 closes. -/
def connClosed (bs : Bytes) : Option Nat :=
  if leAt bs 0 1 == 5 && leAt bs 2 1 == 0 then some (leAt bs 3 2 % 0x1000) else none

/-- An event (indicator 4) or ACL packet (2) of the controller; a fifth connection never opens (R756, R764). -/
def bleRxPacket (acl : Bool) (bs : Bytes) (s : State) : State :=
  match (if acl then none else connOpened bs) with
  | some h =>
    if 4 ≤ s.ble.conns.length then s
    else bleEmit 4 bs (s.onBle (fun b => { b with conns := b.conns.filter (fun c => c != h) ++ [h] }))
  | none =>
    let s := withSome (if acl then none else connClosed bs)
      (fun h s => s.onBle (fun b => { b with conns := b.conns.filter (fun c => c != h) })) s
    bleEmit (if acl then 2 else 4) bs s

def execBleRxPacket (acl : Bool) (packet : List Byte) (s : State) : Out :=
  .next (when (s.bleUp && packet.length ≤ 2044) (bleRxPacket acl packet) s)

/-! ### BANKED and QUENCH (R768 to R775) -/

/-- The sets that advertise in BANKED: those that the last Mupor_Set_Bank_Advertising named and that are enabled (R768). -/
def bankAdv (s : State) (a : AdvSet) : Bool := s.rbit rBLE_CFG 31 && a.enabled && s.ble.bankSets.contains a.handle

/-- 0.625 ms in 25ths of an RTC count. -/
def advUnit : Nat := 512

/-- The nominal time of a set's first event in BANKED lies within one interval; where in it is not stated (log entry 4). -/
def advFirst (a : AdvSet) (s : State) : AdvSet × State :=
  let (x, s) := s.freshWord
  ({ a with nominal := 25 * s.clk.rtc + x.toNat % max 1 (advUnit * a.interval), lastAt := none }, s)

/-- An event that has started: the next one is due an interval and an advDelay of 0 to 10 ms later, which the Core Specification
draws at random (log entry 4). -/
def advNext (a : AdvSet) (s : State) : AdvSet × State :=
  let (x, s) := s.freshWord
  ({ a with nominal := a.nominal + advUnit * a.interval + x.toNat % (16 * advUnit + 1), lastAt := some s.clk.rtc }, s)

/-- A change of each set that a condition names. -/
def onSets (p : AdvSet → Bool) (f : AdvSet → State → AdvSet × State) (s : State) : State :=
  let r := s.ble.sets.foldl (fun (acc : List AdvSet × State) a =>
    if p a then let (a, s) := f a acc.2; (acc.1 ++ [a], s) else (acc.1 ++ [a], acc.2)) ([], s)
  r.2.onBle (fun b => { b with sets := r.1 })

/-- An RTC edge in BANKED: the events whose nominal time the count has reached start (R771). -/
def bleEdge (s : State) : State :=
  when (s.sys.mode == .banked) (fun s => onSets (fun a => bankAdv s a && a.nominal ≤ 25 * s.clk.rtc) advNext s) s

/-- The BANK entry sequence terminates every connection (R770), and advertising goes on under R768 and R771. -/
def bleBank (s : State) : State :=
  let s := bleDropAll 0x16 s
  onSets (bankAdv s) advFirst s

/-- A thaw reports every connection lost (R775). -/
def bleThaw (s : State) : State := bleDropAll 0x08 s

/-- LE_Enhanced_Connection_Complete for a peripheral connection; the fields the manual does not give are free (log
entry 4). -/
def enhancedComplete (conn : Nat) (s : State) : State :=
  let (f, s) := s.freshBytes 26
  bleEmit 4 ([0x3E, 31, 0x0A, 0] ++ leBytes 2 conn ++ [1] ++ f) s

/-- A connection on a named, enabled and connectable set in BANKED is a wake event (R772, R773). -/
def bleWake (conn adv : Nat) (s : State) : State :=
  let ok := s.ble.bankSets.contains adv && s.ble.conns.length < 4 &&
    (advSet? s adv).any (fun a => a.enabled && a.connectable)
  when ok (fun s =>
    let s := when (!s.rbit rBLE_WAKE 0) (fun s => s.setReg rBLE_WAKE (wd (fld 16 conn + fld 8 adv + 1))) s
    let s := s.onBle (fun b => { b with
      conns := b.conns ++ [conn]
      sets := b.sets.map (fun a => if a.handle = adv then { a with enabled := false } else a) })
    presentWake 1 (enhancedComplete conn (bleEvent 3 s))) s

def execBleWake (conn : BitVec 12) (adv : BitVec 8) (s : State) : Out :=
  .next (when (s.sys.mode == .banked && s.rbit rBLE_CFG 31) (bleWake conn.toNat adv.toNat) s)

end Sys2Proof.Machine
end

