-- ==== Sys2Proof/Machine/Aes.lean ====
section
/-! DEFINITION. AES (FIPS 197) and the modes of operation that R831 names: CBC, CTR, CCM (SP 800-38C), GCM (SP 800-38D),
CMAC (SP 800-38B) and KW (SP 800-38F), and the key derivation of R1180. -/
namespace Sys2Proof.Machine

/-- Byte strings combined bit by bit. -/
def xorBytes (a b : Bytes) : Bytes := List.zipWith (fun x y => x ^^^ y) a b

/-- The S-box of FIPS 197, 32 bytes in each number, entry 0 in the lowest byte of the first. -/
def sboxTable : List Nat :=
  [0xc072a49cafa2d4adf04759fa7dc982ca76abd7fe2b670130c56f6bf27b777c63,
   0x75b227ebe28012079a059618c323c7041531d871f1e5a534ccf73f362693fdb7,
   0xcf584c4a39becb6a5bb1fc20ed00d153842fe329b3d63b52a05a6e1b1a2c8309,
   0xd2f3ff1021dab6bcf5389d928f40a351a89f3c507f02f94585334d43fbaaefd0,
   0xdb0b5ede14b8ee4688902a22dc4f816073195d643d7ea7c41744975fec130ccd,
   0x08ae7a65eaf4566ca94ed58d6d37c8e779e4959162acd3c25c2406490a3a32e0,
   0x9e1dc186b95735610ef6034866b53e708a8bbd4b1f74dde8c6b4a61c2e2578ba,
   0x16bb54b00f2d99416842e6bf0d89a18cdf2855cee9871e9b948ed9691198f8e1]

/-- The inverse S-box of FIPS 197. -/
def invSboxTable : List Nat :=
  [0xcbe9dec444438e3487ff2f9b8239e37cfbd7f3819ea340bf38a53630d56a0952,
   0x25d18b6d49a25b76b224d92866a12e084ec3fa420b954cee3d23c2a632947b54,
   0x849d8da75746155edab9edfd5048706c92b6655dcc5ca4d41698688664f6f872,
   0x6b8a130103bdafc1020f3fca8f1e2cd00645b3b80558e4f70ad3bc8c00abd890,
   0x6edf751ce837f9e28535ade72274ac9673e6b4f0cecff297eadc674f4111913a,
   0xf45acd78fec0db9a2079d2c64b3e56fc1bbe18aa0e62b76f89c5291d711af147,
   0xef9cc9939f7ae52d0d4ab519a97f51605fec8027591012b131c7078833a8dd1f,
   0x7d0c2155631469e126d677ba7e042b17619953833cbbebc8b0f52aae4d3be0a0]

def lookupByte (t : List Nat) (b : Byte) : Byte :=
  BitVec.ofNat 8 (t.getD (b.toNat / 32) 0 >>> (8 * (b.toNat % 32)))

def subByte (b : Byte) : Byte := lookupByte sboxTable b
def invSubByte (b : Byte) : Byte := lookupByte invSboxTable b

/-- Multiplication by x in the field of FIPS 197. -/
def xtime (b : Byte) : Byte := if b.msb then (b <<< 1) ^^^ 0x1B else b <<< 1

/-- Multiplication by a constant of at most four bits. -/
def gmul (k : Nat) (b : Byte) : Byte :=
  let b2 := xtime b
  let b4 := xtime b2
  let b8 := xtime b4
  (if k.testBit 0 then b else 0) ^^^ (if k.testBit 1 then b2 else 0) ^^^ (if k.testBit 2 then b4 else 0) ^^^
    (if k.testBit 3 then b8 else 0)

/-- One column multiplied by the circulant matrix with this first row. -/
def mixWith (r : List Nat) (col : Bytes) : Bytes :=
  (List.range 4).map (fun i => (List.range 4).foldl (fun acc j => acc ^^^ gmul (r.getD ((j + 4 - i) % 4) 0) (col.getD j 0)) 0)

def mixColumns (r : List Nat) (st : Bytes) : Bytes := (chunks 4 4 st).flatMap (mixWith r)

/-- ShiftRows: byte i of the state, column by column, comes from column + row (FIPS 197 5.1.2). -/
def shiftRows (st : Bytes) : Bytes := (List.range 16).map (fun i => st.getD ((i / 4 + i % 4) % 4 * 4 + i % 4) 0)
def invShiftRows (st : Bytes) : Bytes := (List.range 16).map (fun i => st.getD ((i / 4 + 4 - i % 4) % 4 * 4 + i % 4) 0)

/-- The words of the key schedule after the first nk, newest first. -/
def expandWords (nk : Nat) : Nat → Nat → Byte → List Bytes → List Bytes
  | 0, _, _, ws => ws
  | fuel + 1, i, rcon, ws =>
    let prev := ws.getD 0 []
    let t := if i % nk = 0 then
        xorBytes ((prev.drop 1 ++ prev.take 1).map subByte) [rcon, 0, 0, 0]
      else if nk = 8 && i % 8 = 4 then prev.map subByte
      else prev
    expandWords nk fuel (i + 1) (if i % nk = 0 then xtime rcon else rcon) (xorBytes (ws.getD (nk - 1) []) t :: ws)

/-- The round keys, first to last (FIPS 197 5.2). -/
def roundKeys (key : Bytes) : List Bytes :=
  let nk := key.length / 4
  let all := (expandWords nk (4 * (nk + 7) - nk) nk 1 (chunks 4 nk key).reverse).reverse
  chunks 16 (nk + 7) all.flatten

/-- The rounds after the first AddRoundKey. -/
def aesRounds : List Bytes → Bytes → Bytes
  | [], st => st
  | [k], st => xorBytes (shiftRows (st.map subByte)) k
  | k :: ks, st => aesRounds ks (xorBytes (mixColumns [2, 3, 1, 1] (shiftRows (st.map subByte))) k)

/-- The cipher with its round keys made. -/
def aesWith (ks : List Bytes) (block : Bytes) : Bytes := aesRounds ks.tail (xorBytes block (ks.headD []))

/-- AES encryption of one block. -/
def aesEncrypt (key block : Bytes) : Bytes := aesWith (roundKeys key) block

/-- The inverse rounds, with the round keys last to first. -/
def aesInvRounds : List Bytes → Bytes → Bytes
  | [], st => st
  | [k], st => xorBytes ((invShiftRows st).map invSubByte) k
  | k :: ks, st => aesInvRounds ks (mixColumns [14, 11, 13, 9] (xorBytes ((invShiftRows st).map invSubByte) k))

/-- AES decryption of one block. -/
def aesDecrypt (key block : Bytes) : Bytes :=
  let ks := (roundKeys key).reverse
  aesInvRounds ks.tail (xorBytes block (ks.headD []))

/-! ### Modes of operation -/

/-- The blocks of a byte string, the last one perhaps short. -/
def blocksOf (bs : Bytes) : List Bytes := chunks 16 (bs.length / 16 + 1) bs

/-- CBC encryption: the output and the last chaining value. -/
def cbcEnc (key iv : Bytes) (bs : Bytes) : Bytes × Bytes :=
  let ks := roundKeys key
  (blocksOf bs).foldl (fun acc b => let c := aesWith ks (xorBytes acc.2 b); (acc.1 ++ c, c)) ([], iv)

/-- CBC decryption: the output and the last chaining value. -/
def cbcDec (key iv : Bytes) (bs : Bytes) : Bytes × Bytes :=
  (blocksOf bs).foldl (fun acc b => (acc.1 ++ xorBytes (aesDecrypt key b) acc.2, b)) ([], iv)

/-- A 16-byte big-endian counter advanced by one. -/
def ctrNext (c : Bytes) : Bytes := beBytes 16 (beNat c + 1)

/-- A counter whose last four bytes alone count (SP 800-38D 6.2). -/
def ctr32Next (c : Bytes) : Bytes := c.take 12 ++ beBytes 4 (beNat (c.drop 12) + 1)

/-- Counter mode: the output and the next counter. -/
def ctrWith (next : Bytes → Bytes) (key iv : Bytes) (bs : Bytes) : Bytes × Bytes :=
  let ks := roundKeys key
  (blocksOf bs).foldl (fun acc b => (acc.1 ++ xorBytes b (aesWith ks acc.2), next acc.2)) ([], iv)

/-- CBC-MAC over whole blocks from a chaining value. -/
def cbcMac (key iv : Bytes) (bs : Bytes) : Bytes := (cbcEnc key iv bs).2

/-- Bytes padded with zeros to a multiple of 16. -/
def padBlock (bs : Bytes) : Bytes := bs ++ List.replicate ((16 - bs.length % 16) % 16) 0

/-- Doubling in GF(2^128) as CMAC does it (SP 800-38B 6.1). -/
def cmacDouble (b : Bytes) : Bytes :=
  let v := beNat b
  beBytes 16 (if 2 ^ 127 ≤ v then (2 * v % 2 ^ 128) ^^^ 0x87 else 2 * v)

/-- The last block of a CMAC, masked. -/
def cmacLast (key last : Bytes) : Bytes :=
  let k1 := cmacDouble (aesEncrypt key (List.replicate 16 0))
  if last.length = 16 then xorBytes last k1
  else xorBytes (last ++ (0x80 : Byte) :: List.replicate (15 - last.length) 0) (cmacDouble k1)

/-- The bytes that precede the last block of a message; an empty message has an empty last block. -/
def lastAt (n : Nat) : Nat := if n = 0 then 0 else (n - 1) / 16 * 16

/-- AES-CMAC from a chaining value over the rest of a message. -/
def cmacFrom (key iv msg : Bytes) : Bytes :=
  let k := lastAt msg.length
  aesEncrypt key (xorBytes (cbcMac key iv (msg.take k)) (cmacLast key (msg.drop k)))

/-- AES-CMAC (SP 800-38B). -/
def cmac (key msg : Bytes) : Bytes := cmacFrom key (List.replicate 16 0) msg

/-! ### CCM -/

/-- The length field before the AAD (SP 800-38C A.2.2). -/
def ccmAad (aad : Bytes) : Bytes :=
  if aad.isEmpty then []
  else if aad.length < 0xFF00 then padBlock (beBytes 2 aad.length ++ aad)
  else padBlock ([0xFF, 0xFE] ++ beBytes 4 aad.length ++ aad)

/-- The CCM tag, and the output in counter mode. -/
def ccmTag (key nonce aad plain : Bytes) (taglen : Nat) : Bytes :=
  let q := 15 - nonce.length
  let flags := (if aad.isEmpty then 0 else 64) + (taglen - 2) / 2 * 8 + (q - 1)
  let b0 := BitVec.ofNat 8 flags :: nonce ++ beBytes q plain.length
  let t := cbcMac key (List.replicate 16 0) (b0 ++ ccmAad aad ++ padBlock plain)
  let s0 := aesEncrypt key (BitVec.ofNat 8 (q - 1) :: nonce ++ List.replicate q 0)
  (xorBytes t s0).take taglen

def ccmCrypt (key nonce data : Bytes) : Bytes :=
  let q := 15 - nonce.length
  (ctrWith ctrNext key (BitVec.ofNat 8 (q - 1) :: nonce ++ beBytes q 1) data).1

/-! ### GCM -/

/-- Multiplication in GF(2^128) with the bit order of SP 800-38D 6.3. -/
def gfMul (x y : BitVec 128) : BitVec 128 :=
  ((List.range 128).foldl (fun (acc : BitVec 128 × BitVec 128) i =>
    let z := if x.getMsbD i then acc.1 ^^^ acc.2 else acc.1
    let v := if acc.2.getLsbD 0 then (acc.2 >>> 1) ^^^ 0xE1000000000000000000000000000000 else acc.2 >>> 1
    (z, v)) (0, y)).1

/-- GHASH over whole blocks from a value. -/
def ghashFrom (h y : BitVec 128) (bs : Bytes) : BitVec 128 :=
  (blocksOf bs).foldl (fun y b => gfMul (y ^^^ BitVec.ofNat 128 (beNat b)) h) y

/-- The hash key of GCM. -/
def gcmH (key : Bytes) : BitVec 128 := BitVec.ofNat 128 (beNat (aesEncrypt key (List.replicate 16 0)))

/-- The GHASH after the AAD. -/
def gcmAad (key aad : Bytes) : BitVec 128 := ghashFrom (gcmH key) 0 (padBlock aad)

/-- The tag of GCM from the GHASH over AAD and data, and their lengths in bytes. -/
def gcmTag (key iv : Bytes) (y : BitVec 128) (aadlen len : Nat) (taglen : Nat) : Bytes :=
  let s := ghashFrom (gcmH key) y (beBytes 8 (8 * aadlen) ++ beBytes 8 (8 * len))
  (xorBytes (beBytes 16 s.toNat) (aesEncrypt key (iv ++ [0, 0, 0, 1]))).take taglen

def gcmCrypt (key iv data : Bytes) : Bytes := (ctrWith ctr32Next key (iv ++ [0, 0, 0, 2]) data).1

/-- The GCM tag of a whole message. -/
def gcmFull (key iv aad cipher : Bytes) (taglen : Nat) : Bytes :=
  gcmTag key iv (ghashFrom (gcmH key) (gcmAad key aad) (padBlock cipher)) aad.length cipher.length taglen

/-! ### KW -/

/-- One step of the wrapping of SP 800-38F 6.2: A and the semiblocks R1 to Rn. -/
def kwStep (ks : List Bytes) (n t : Nat) (ar : Bytes × List Bytes) : Bytes × List Bytes :=
  let i := (t - 1) % n
  let b := aesWith ks (ar.1 ++ ar.2.getD i [])
  (xorBytes (b.take 8) (beBytes 8 t), ar.2.set i (b.drop 8))

def kwIv : Bytes := List.replicate 8 0xA6

/-- AES-KW wrapping of a multiple of 8 bytes. -/
def kwWrap (key plain : Bytes) : Bytes :=
  let n := plain.length / 8
  let ks := roundKeys key
  let r := (List.range (6 * n)).foldl (fun ar t => kwStep ks n (t + 1) ar) (kwIv, chunks 8 n plain)
  r.1 ++ r.2.flatten

/-- AES-KW unwrapping, none when the integrity check fails. -/
def kwUnwrap (key wrapped : Bytes) : Option Bytes :=
  let n := wrapped.length / 8 - 1
  let r := (List.range (6 * n)).foldl (fun (ar : Bytes × List Bytes) k =>
    let t := 6 * n - k
    let i := (t - 1) % n
    let b := aesDecrypt key (xorBytes ar.1 (beBytes 8 t) ++ ar.2.getD i [])
    (b.take 8, ar.2.set i (b.drop 8))) (wrapped.take 8, chunks 8 n (wrapped.drop 8))
  if r.1 = kwIv then some r.2.flatten else none

/-! ### Key derivation (R1180, R909) -/

/-- The counter-mode KDF with AES-CMAC. -/
def kdf (key fixed : Bytes) (len : Nat) : Bytes :=
  ((List.range ((len + 15) / 16)).flatMap (fun i => cmac key (beBytes 4 (i + 1) ++ fixed))).take len

/-- A derivation of the runtime: label, 0x00, context and the output length in bits (R909). -/
def derive (key label ctx : Bytes) (len : Nat) : Bytes := kdf key (label ++ [0] ++ ctx ++ beBytes 2 (8 * len)) len

end Sys2Proof.Machine
end

