-- ==== Sys2Proof/Machine/Entropy.lean ====
section
/-! DEFINITION. The entropy source: raw samples, health checks, the conditioner, the DRBG and its two buffers (17). The
Kiln buffer is the part of channel 0xE0 that has not entered the channel yet. -/
namespace Sys2Proof.Machine

def State.onEnt (s : State) (f : Ent → Ent) : State := { s with ent := f s.ent }

/-- The source runs: in every mode but OFF, BANKED and QUENCHED (R856). -/
def State.entUp (s : State) : Bool := s.live && s.ent.runFrom.isSome

/-! ### Runs (R856, R876) -/

/-- A new run: READY, STARTUP_FAIL and DEAD read 0, and the samples count from 1 again. -/
def entRun (s : State) : State :=
  let s := s.onEnt (fun e => { Ent.idle with runFrom := some s.clk.tb, katFor := e.katFor, queued := e.queued })
  ((s.setRbit rENT_STAT 0 false).setRbit rENT_STAT 2 false).setFld rENT_HCNT1 31 24 0

/-- Both buffers and the words in channel 0xE0 emptied, the DRBG discarded, and a new run (R876). -/
def entRestart (s : State) : State := entRun (cClear 0xE0 s)

/-! ### Health checks (R858, R859) -/

/-- The 28 pairs of oscillators. -/
def entPairs : List (Nat × Nat) :=
  (List.range 8).flatMap (fun j => ((List.range 8).filter (fun k => j < k)).map (fun k => (j, k)))

/-- A run length after one more sample: one again after a change, and no more than its cutoff. -/
def runLength (cut : Nat) (first changed : Bool) (n : Nat) : Nat := if first || changed then 1 else min cut (n + 1)

/-- The repetition count. -/
def entRct (b : Byte) (s : State) : State :=
  let n := if 0 < s.ent.rct && b = s.ent.last then s.ent.rct + 1 else 1
  if n = 11 then (s.onEnt (fun e => { e with rct := 0, failed := e.failed || e.n < 1024 })).satFld rENT_HCNT0 15 0
  else s.onEnt (fun e => { e with rct := n })

/-- The adaptive proportion. -/
def entApt (b : Byte) (s : State) : State :=
  if s.ent.n % 512 = 0 then s.onEnt (fun e => { e with aptFirst := b, aptCount := 1 })
  else if b = s.ent.aptFirst then
    let n := s.ent.aptCount + 1
    let s := s.onEnt (fun e => { e with aptCount := n, failed := e.failed || (n = 177 && e.n < 1024) })
    when (n = 177) (fun s => s.satFld rENT_HCNT0 31 16) s
  else s

/-- Oscillator k: dead after 64 samples without a change. -/
def entAlive (b : Byte) (k : Fin 8) (s : State) : State :=
  let old := s.ent.still.get k
  let changed := b.getLsbD k.val != s.ent.last.getLsbD k.val
  let n := runLength 64 (s.ent.n = 0) changed old
  let s := s.onEnt (fun e => { e with still := e.still.set k n })
  let s := s.setRbit rENT_HCNT1 (24 + k.val) (n = 64)
  when (n = 64 && old != 64) (fun s => s.satFld rENT_HCNT1 23 16) s

/-- Pair i: locked after 256 samples without a change of its XOR. -/
def entLocked (b : Byte) (i : Fin 28) (s : State) : State :=
  let p := entPairs.getD i.val (0, 0)
  let old := s.ent.locked.get i
  let x := fun (v : Byte) => v.getLsbD p.1 != v.getLsbD p.2
  let n := runLength 256 (s.ent.n = 0) (x b != x s.ent.last) old
  let s := s.onEnt (fun e => { e with locked := e.locked.set i n })
  when (n = 256 && old != 256) (fun s => s.satFld rENT_HCNT1 7 0) s

/-! ### The conditioner (R862) -/

def condKey : Bytes := (List.range 16).map (fun i => BitVec.ofNat 8 i)

/-- The conditioner's block over 96 samples. -/
def condBlock (bs : Bytes) : Bytes := cbcMac condKey (List.replicate 16 0) bs

/-- A sample from 1025 onwards; three blocks are kept until they are used (R866). -/
def entCondition (b : Byte) (s : State) : State :=
  let g := s.ent.gathered ++ [b]
  if g.length < 96 then s.onEnt (fun e => { e with gathered := g })
  else s.onEnt (fun e => { e with gathered := [], blocks := if e.blocks.length < 3 then e.blocks ++ [condBlock g] else e.blocks })

/-- The raw sample taken: the pattern in place of the oscillators while it is the source (R874). -/
def entSource (b : Byte) (s : State) : Byte :=
  if s.rbit rENT_CFG 0 then BitVec.ofNat 8 (s.fld rENT_PAT (8 * (s.ent.n % 4) + 7) (8 * (s.ent.n % 4))) else b

/-- One raw sample (R855 to R862). -/
def entSample (raw : Byte) (s : State) : State :=
  let b := entSource raw s
  let s := entApt b (entRct b s)
  let s := forEach (List.finRange 8) (entAlive b) s
  let s := forEach (List.finRange 28) (entLocked b) s
  let s := when (1024 ≤ s.ent.n) (entCondition b) s
  let s := s.onEnt (fun e => { e with n := e.n + 1, last := b })
  when (s.ent.n = 1024) (fun s => s.setRbit rENT_STAT 2 s.ent.failed) s

/-- Sample n + 1 of the run is due (R855). -/
def sampleDue (s : State) (more : Nat) : Bool := s.ent.runFrom.any (fun t => t + 8 * (s.ent.n + more) ≤ s.clk.tb)

def execRawSample (sample : BitVec 8) (s : State) : Out :=
  .next (when (s.entUp && sampleDue s 1) (entSample sample) s)

/-- The samples that complete the conditioner's present block, all of them due (R862). -/
def execRawSampleBlock (samples : List (BitVec 8)) (s : State) : Out :=
  .next (when (s.entUp && 1024 ≤ s.ent.n && samples.length = 96 - s.ent.gathered.length && sampleDue s samples.length)
    (forEach samples entSample) s)

/-! ### The DRBG (R863 to R866) -/

def vNext (v : Bytes) : Bytes := beBytes 16 (beNat v + 1)

/-- n blocks of output and the last V. -/
def drbgBlocks (ks : List Bytes) : Nat → Bytes → Bytes × Bytes
  | 0, v => ([], v)
  | n + 1, v =>
    let v := vNext v
    let r := drbgBlocks ks n v
    (aesWith ks v ++ r.1, r.2)

/-- CTR_DRBG_Update (SP 800-90A 10.2.1.2). -/
def drbgUpdate (d : Drbg) (data : Bytes) : Drbg :=
  let t := xorBytes (drbgBlocks (roundKeys d.key) 3 d.v).1 data
  ⟨t.take 32, t.drop 32⟩

/-- The personalisation string of R863. -/
def drbgPersonal (s : State) (tb : Nat) : Bytes :=
  leBytes 8 Config.deviceId.toNat ++ leBytes 4 (s.reg rSYS_EPOCH).toNat ++ leBytes 8 tb ++ List.replicate 28 0

def drbgInit (entropy personal : Bytes) : Drbg :=
  drbgUpdate ⟨List.replicate 32 0, List.replicate 16 0⟩ (xorBytes entropy personal)

/-- One generate call: 64 bytes and the next state (R865). -/
def drbgGenerate (d : Drbg) : Bytes × Drbg :=
  let r := drbgBlocks (roundKeys d.key) 4 d.v
  (r.1, drbgUpdate ⟨d.key, r.2⟩ (List.replicate 48 0))

/-- The instantiation at sample 1312 of a run (R864). -/
def instantiate (s : State) : State :=
  let at_ := s.ent.runFrom.getD 0 + 8 * 1312
  let d := drbgInit s.ent.blocks.flatten (drbgPersonal s at_)
  ((s.onEnt (fun e => { e with drbg := some d, blocks := [] })).setReg rENT_DRBG 0).setRbit rENT_STAT 0 true

def execDrbgInstantiate (s : State) : Out :=
  .next (when (s.entUp && s.ent.drbg.isNone && 1312 ≤ s.ent.n && s.ent.blocks.length = 3) instantiate s)

/-- A reseed that is due, once three blocks are ready (R866). -/
def reseed (s : State) : State :=
  match s.ent.drbg with
  | none => s
  | some d =>
    if !s.ent.reseedDue || s.ent.blocks.length < 3 || s.ent.katFor.isSome then s
    else
      let s := s.onEnt (fun e => { e with drbg := some (drbgUpdate d e.blocks.flatten), blocks := [], reseedDue := false })
      (s.incFld rENT_DRBG 31 16).setFld rENT_DRBG 15 0 0

/-- A generate call, where the DRBG may make one. -/
def generate (s : State) : Option (List Word × State) :=
  let s := reseed s
  match s.ent.drbg with
  | none => none
  | some d =>
    if s.ent.reseedDue || s.ent.katFor.isSome then none
    else
      let r := drbgGenerate d
      let calls := s.fld rENT_DRBG 15 0 + 1
      let s := s.onEnt (fun e => { e with drbg := some r.2, reseedDue := s.fld rENT_CFG 31 16 ≤ calls })
      some (wordsOf r.1, s.setFld rENT_DRBG 15 0 calls)

/-- The Kiln buffer is empty. -/
def kilnBufEmpty (s : State) : Bool := (s.chan 0xE0).back.isEmpty

/-- The Kiln buffer filled by a generate call. -/
def fillKiln (s : State) : State :=
  match generate s with
  | none => s
  | some (ws, s) => devSend 0xE0 (ws.map (fun w => (w, false))) s

/-- An empty buffer is served, the Kiln buffer first (R867). -/
def fillBuffers (s : State) : State :=
  if kilnBufEmpty s then fillKiln s
  else if s.ent.regBuf.isEmpty then
    match generate s with
    | none => s
    | some (ws, s) => s.onEnt (fun e => { e with regBuf := ws })
  else s

/-- Words of channel 0xE0 that the runtime takes for an operation, with the generate calls they need; none while the DRBG
cannot deliver them (R867, R868). -/
def drawWords : Nat → State → Option (List Word × State)
  | 0, s => some ([], s)
  | n + 1, s =>
    let s := if (s.chan 0xE0).q.isEmpty then fillKiln s else s
    match cTake 0xE0 s with
    | (none, _) => none
    | (some h, s) => (drawWords n s).map (fun r => (h.w :: r.1, r.2))

/-- n bytes from the DRBG. -/
def drawBytes (n : Nat) (s : State) : Option (Bytes × State) :=
  (drawWords ((n + 3) / 4) s).map (fun r => ((bytesOf r.1).take n, r.2))

/-! ### Requests and known-answer tests (R866, R871, R872, R882) -/

/-- PATTERN and ENT_PAT stored: a change that reaches the source starts a new run. PATTERN is stored as 0 outside FACTORY
(R875, R876). -/
def entPattern (on : Bool) (pat : Word) (s : State) : State :=
  let on := on && s.sys.mode == .factory
  let changed := on != s.rbit rENT_CFG 0 || (on && pat != s.reg rENT_PAT)
  let s := ((s.setRbit rENT_CFG 0 on).setReg rENT_PAT pat).setRbit rENT_STAT 3 on
  when changed entRestart s

def entAct (r : EntRequest) (s : State) : State :=
  match r with
  | .restart => entRestart s
  | .reseed => reseed (s.onEnt (fun e => { e with reseedDue := true }))
  | .pattern on pat => entPattern on pat s

/-- A request acts at once, or after the known-answer test that runs (R882). -/
def entAsk (r : EntRequest) (s : State) : State :=
  if s.ent.katFor.isSome then s.onEnt (fun e => { e with queued := e.queued ++ [r] }) else entAct r s

/-- A known-answer test starts, for an engine's command or for a register write. -/
def katStart (who : Option Nat) (s : State) : State :=
  if s.ent.katFor.isSome then s
  else (s.onEnt (fun e => { e with katFor := some who })).setRbit rENT_STAT 4 true

/-- The outcome of a known-answer test (R871 to R873), without the command that may wait for it. -/
def katEnd (pass : Bool) (s : State) : State :=
  let q := s.ent.queued
  let s := (s.setRbit rENT_STAT 4 false).setRbit rENT_STAT (if pass then 5 else 6) true
  forEach q entAct (s.onEnt (fun e => { e with katFor := none, queued := [] }))

/-- A write of ENT_CTL: CLR_CNT from the Kiln core only (R878). -/
def entCtl (who : Sys2Proof.Req) (v : Word) (s : State) : State :=
  if !Writers.appKiln.permits who then s
  else
    let s := when (bit v 3 && who == .core 5) (fun s => (s.setReg rENT_HCNT0 0).setReg rENT_HCNT1 (s.reg rENT_HCNT1 &&& 0xFF000000)) s
    let s := when (bit v 0) (entAsk .restart) s
    let s := when (bit v 1) (entAsk .reseed) s
    when (bit v 2) (katStart none) s

def execRestart (who : Sys2Proof.Req) (s : State) : Out := .next (when s.entUp (entCtl who 1) s)

/-- A RESEED written, or the reseed that is due once its blocks are ready (R866, R883). -/
def execReseed (who : Option Sys2Proof.Req) (s : State) : Out :=
  .next (when s.entUp (match who with | some r => entCtl r 2 | none => reseed) s)

def execClrCnt (who : Sys2Proof.Req) (s : State) : Out := .next (when s.entUp (entCtl who 8) s)
def execKat (who : Sys2Proof.Req) (s : State) : Out := .next (when s.entUp (entCtl who 4) s)

/-- A write of an ENT register that does more than store its word. -/
def entWrite (who : Sys2Proof.Req) (a : Nat) (v : Word) (s : State) : Option State :=
  if a = rENT_CTL then some (entCtl who v s)
  else if a = rENT_CFG then
    let s := s.setFld rENT_CFG 31 16 (max 1 (bits v 31 16))
    some (entAsk (.pattern (bit v 0) (s.reg rENT_PAT)) s)
  else if a = rENT_PAT then some (entAsk (.pattern (s.rbit rENT_CFG 0) v) s)
  else none

/-- ENT_STAT as it reads. -/
def entStat (s : State) : Word := setBits (s.reg rENT_STAT) 20 16 s.ent.regBuf.length

/-- A read of ENT_DATA (R869, R870). -/
def readEntData (s : State) : Word × State :=
  match s.ent.regBuf with
  | [] => (0, s.setRbit rENT_STAT 1 true)
  | w :: ws => (w, s.onEnt (fun e => { e with regBuf := ws }))

def execEntData (who : Sys2Proof.Req) (s : State) : Out :=
  .next (when (s.live && (Req.iface who).all (fun _ => s.hostActive who))
    (fun s => let r := readEntData s; answer 0 [r.1] false r.2) s)

end Sys2Proof.Machine
end

