-- ==== Sys2Proof/Machine/Lf.lean ====
section
/-! DEFINITION. The LF drivers behind the FIELD engine's ports, the current tap with its diagnostics, and the capacitive
channels (12). -/
namespace Sys2Proof.Machine

def lfEvent (b : Nat) (s : State) : State := blockEvent rLF_EVT rLF_IE rLF_IE 16 13 b s

def lfCh (n : Nat) : Nat := rLF_CH + 4 * n

/-! ### Chips (R610, R612) -/

/-- The carrier periods that have begun since the run's first chip, less one: the index of the present period. -/
def LfRun.period (r : LfRun) (tb : Nat) : Nat := (tb - r.t0) * r.freq / 2 ^ 32

/-- The chips that are complete. -/
def LfRun.done (r : LfRun) (tb : Nat) : Nat := min r.n (r.period tb / r.chip)

/-- The first tick at or after the start of chip k. -/
def LfRun.chipTick (r : LfRun) (k : Nat) : Nat := r.t0 + (k * r.chip * 2 ^ 32 + r.freq - 1) / r.freq

/-- The tick at which MAXON switches the carrier off, while it is on (R615). -/
def lfMaxAt (s : State) (r : LfRun) : Option Nat := r.onSince.map (fun t => t + msTicks (s.fld rLF_CFG 25 16))

/-- The carrier is on: what keeps the capacitive scan from measuring (R637). It is off in OFF, in SCAN, in BANKED, from the start of
a freeze and while a reset is held (R40, R630, R631). -/
def State.carrierOn (s : State) : Bool := s.timed && s.lf.run.any (fun r => r.onSince.isSome && r.ended.isNone)

def State.setLf (s : State) (r : Option LfRun) : State := { s with lf := { s.lf with run := r } }

/-- DIN words of a telegram that ended early are discarded up to the one with EOM (R614). -/
def lfDiscard : Nat → State → State
  | 0, s => s
  | n + 1, s =>
    match s.lf.discard, (s.chan 0x62).q.head? with
    | true, some h => lfDiscard n { cDrop 0x62 s with lf := { s.lf with discard := !h.eom } }
    | _, _ => s

/-- A run that a chip boundary ends, with its carrier off. -/
def lfStopAt (status : Nat) (r : LfRun) (s : State) : State :=
  let off := if r.onSince.isSome then some (r.chipTick r.next) else r.offAt
  s.setLf (some (if status = 1 then { r with ended := some status } else { r with ended := some status, onSince := none, offAt := off }))

/-- The TYPE of a telegram, decoded from chips 8 to 15, is CHALLENGE or SEARCH: one attempt of the FIELD command as its
first chip begins (R500, R662). A telegram of fewer chips has no TYPE. -/
def lfAttempt (r : LfRun) (w : Word) (s : State) : State :=
  when (r.telegram && 16 ≤ r.n && r.next = 0 && (bits w 15 8 = 0x9A || bits w 15 8 = 0x96)) (attempt 6) s

/-- The next chip begins: its DIN word is taken when it is the first of 32, and the carrier goes on or off (R613, R614). -/
def lfChip (r : LfRun) (s : State) : State :=
  let begin_ := fun (w : Word) (eom : Bool) (s : State) =>
    let on := !r.telegram || w.getLsbD (r.next % 32)
    s.setLf (some { r with
      word := w, eom := eom, next := r.next + 1
      onSince := if on then some (r.onSince.getD (r.chipTick r.next)) else none
      offAt := if !on && r.onSince.isSome then some (r.chipTick r.next) else r.offAt
      winFrom := if on && r.onSince.isNone then r.next * r.chip + r.skip else r.winFrom })
  if r.telegram && r.next % 32 = 0 then
    match (s.chan 0x62).q.head? with
    | none => lfStopAt 3 r s
    | some h => lfAttempt r h.w (begin_ h.w h.eom (cDrop 0x62 s))
  else begin_ r.word r.eom s

/-- What has become due at the present tick: the end of the last chip, the chip boundary of a cancellation, or the next
chip. -/
def lfDue (s : State) : State :=
  match s.lf.run with
  | none => s
  | some r =>
    if r.ended.isSome || s.clk.tb < r.chipTick r.next then s
    else if r.n ≤ r.next then lfStopAt 1 r s
    else if r.stopping then lfStopAt 2 r s
    else lfChip r s

/-- The running measurement window is lost while the ADC does not convert the channel's input, or while the carrier is
off; the next one starts at the next period boundary or under R620, whichever is later (R621). -/
def lfWindow (s : State) : State :=
  match s.lf.run with
  | none => s
  | some r =>
    if inputNow s == some r.ch && (r.onSince.isSome || r.offAt == some s.clk.tb) then s
    else s.setLf (some { r with winFrom := max r.winFrom (r.period s.clk.tb + 1) })

/-- The LF block at one tick of the timebase. -/
def lfTick (s : State) : State := lfWindow (lfDue (lfDiscard 4 s))

/-! ### Telegrams (R616 to R619) -/

/-- A STAT word of the FIELD engine (R618). -/
def lfStatWord (chips ch status : Nat) : Word := wd (fld 16 chips + fld 8 ch + status)

/-- A telegram or carrier ends: STAT, DONE and the event of its status (R614, R615, R618). -/
def lfEnd (chips status : Nat) (r : LfRun) (s : State) : State :=
  let s := { s with lf := { s.lf with run := none, discard := s.lf.discard || (status = 3 && !r.eom) } }
  let s := (s.setFld rLF_STAT 31 16 chips).setRbit rLF_STAT 4 false
  let s := portSend 0x65 [(lfStatWord chips r.ch status, false)] s
  let s := when (status = 3) (lfEvent 9) s
  let s := when (status = 6) (lfEvent 10) s
  lfDiscard 4 (lfEvent 8 s)

/-- A word refused: a STAT word and LF_EVT.REFUSED (R617). -/
def lfRefuse (ch : Nat) (s : State) : State :=
  lfEvent 11 (portSend 0x65 [(lfStatWord 0 ch 5, false)] s)

/-- A START or CARRIER word taken at tick t (R612, R616, R617). -/
def lfBegin (telegram : Bool) (w : Word) (t : Nat) (s : State) : State :=
  let ch := bits w 27 25
  let n := bits w 15 0
  if s.lf.run.isSome || 5 < ch || bits w 24 16 != 0 || n = 0 || !s.rbit (lfCh ch) 31 || s.fld (lfCh ch) 5 0 = 0 then
    lfRefuse ch s
  else
    let r : LfRun := { ch := ch, n := n, telegram := telegram, t0 := t, freq := (s.reg rLF_FREQ).toNat
                       chip := s.fld rLF_CFG 13 8, mw := s.fld rLF_CFG 6 4, skip := s.fld rLF_CFG 3 0, next := 0, word := 0
                       eom := !telegram, onSince := none, offAt := none, winFrom := 0, stopping := false, ended := none }
    let s := ((s.setFld rLF_STAT 31 16 0).setRbit rLF_STAT 4 true).setFld rLF_STAT 2 0 ch
    lfDue (lfDiscard 4 (s.setLf (some r)))

/-- The head word of FIELD's CTRL port with this OP. -/
def lfWord (op : Nat) (f : Word → Nat → State → State) (s : State) : State :=
  withSome (s.ctrlHead 0x64 op) (fun h s => f h.w h.tick (cDrop 0x64 s)) s

/-- The carrier off at once, and the run ended. -/
def lfStop (status : Nat) (s : State) : State := withSome s.lf.run (fun r s => lfEnd (r.done s.clk.tb) status r s) s

/-- The STOP word that acts next: of the words that reached CTRL at the tick of its head, a STOP acts first (R645). -/
def lfStopWord (s : State) : Option ChWord :=
  (s.chan 0x64).q.head?.bind (fun h => (s.chan 0x64).q.find? (fun w => bits w.w 31 28 == 2 && w.tick == h.tick))

/-- A STOP of the head's tick acts. -/
def lfStopNow (s : State) : State := withSome (lfStopWord s) (fun w s => lfStop 2 (cTakeOut 0x64 w s)) s

def execFieldStart (s : State) : Out := .next (when s.timed (fun s => lfWord 1 (lfBegin true) (lfStopNow s)) s)

def execCarrier (s : State) : Out := .next (when s.timed (fun s => lfWord 3 (lfBegin false) (lfStopNow s)) s)

def execFieldStop (s : State) : Out := .next (when s.timed lfStopNow s)

/-- A chip was due without its DIN word (R614). -/
def execUnderrun (s : State) : Out :=
  .next (when s.timed (fun s => withSome s.lf.run (fun r s => when (r.ended = some 3) (lfEnd r.next 3 r) s) s) s)

/-- MAXON (R615). -/
def execMaxon (s : State) : Out :=
  .next (when s.timed (fun s => withSome s.lf.run (fun r s =>
    when ((r.ended.isNone || r.ended = some 1) && (lfMaxAt s r).any (fun t => t ≤ s.clk.tb)) (lfEnd (r.done s.clk.tb) 6 r) s) s) s)

/-- The end of the last chip, or the chip boundary at which a cancellation ends the run; a MAXON switch-off in the last
chip prevails (R618, R619, R646). -/
def execTelegramEnd (s : State) : Out :=
  .next (when s.timed (fun s => withSome s.lf.run (fun r s =>
    match r.ended with
    | some 1 => lfEnd r.n (if (lfMaxAt s r).any (fun t => t ≤ r.chipTick r.n) then 6 else 1) r s
    | some 2 => lfEnd r.next 2 r s
    | _ => s) s) s)

/-- A cancellation of a FIELD command: the run ends at the next chip boundary, and no new telegram starts (R510, R619). -/
def lfCancel (s : State) : State := withSome s.lf.run (fun r s => s.setLf (some { r with stopping := true })) s

/-- The LF drivers off at once: a double fault of the field core (R244) and the end of a freeze (R631). -/
def lfOff (s : State) : State := lfStop 2 s

/-! ### The current tap and the diagnostics (R620 to R629) -/

/-- A diagnostic bit of a channel, with LF_EVT bit n when it is new. -/
def lfDiag (n b : Nat) (s : State) : State :=
  if s.rbit (rLF_DIAG + 4 * n) b then s else lfEvent n (s.setRbit (rLF_DIAG + 4 * n) b true)

/-- A change of TUNE takes effect at the next period boundary, and the next window starts SKIP periods later (R611, R620). -/
def lfRetune (n : Nat) (s : State) : State :=
  withSome s.lf.run (fun r s =>
    when (r.ch = n) (fun s => s.setLf (some { r with winFrom := r.period s.clk.tb + 1 + r.skip })) s) s

/-- The diagnostics of a measurement (R626 to R628). -/
def lfDiagnose (n amp : Nat) (phase : Int) (s : State) : State :=
  let tol : Int := (s.fld rLF_CFG 30 26 : Nat)
  let tune := s.fld (lfCh n) 21 16
  let set := s.fld (lfCh n) 5 0 * 25
  let off := decide (tol < phase.natAbs)
  let count := if off then s.lf.detune.get (Fin.ofNat 6 n) + 1 else 0
  let s := { s with lf := { s.lf with detune := s.lf.detune.set (Fin.ofNat 6 n) count } }
  let s := when (amp * 4 < set) (lfDiag n 2) s
  let s := when (off && ((tune = 63 && phase < 0) || (tune = 0 && 0 < phase) || count = 8)) (lfDiag n 1) s
  when (!off && amp * 4 < set * 3) (lfDiag n 0) s

/-- Auto-tuning (R624). -/
def lfTune (n : Nat) (phase : Int) (s : State) : State :=
  let tol : Int := (s.fld rLF_CFG 30 26 : Nat)
  let tune := s.fld (lfCh n) 21 16
  if !s.rbit (lfCh n) 30 then s
  else if phase < -tol && tune < 63 then lfRetune n (s.setFld (lfCh n) 21 16 (tune + 1))
  else if tol < phase && 0 < tune then lfRetune n (s.setFld (lfCh n) 21 16 (tune - 1))
  else s

/-- The window of a run that ends now, when it is not discarded: also the one whose last period ends at the chip boundary at
which the carrier goes off or the run ends. -/
def lfWindowEnds (r : LfRun) (s : State) : Bool :=
  ((r.onSince.isSome && (r.ended.isNone || r.ended == some 1)) || r.offAt == some s.clk.tb) &&
  inputNow s == some r.ch && r.winFrom + 2 ^ r.mw ≤ min (r.period s.clk.tb) (r.n * r.chip)

def execMeasurementWindow (amp : BitVec 11) (phase : BitVec 8) (s : State) : Out :=
  .next (when s.timed (fun s => withSome s.lf.run (fun r s => when (lfWindowEnds r s) (fun s =>
    let k := rLF_MEAS + 4 * r.ch
    let s := s.setReg k (wd (fld 28 (s.fld k 31 28 + 1) + fld 16 phase.toNat + amp.toNat))
    let s := s.setLf (some { r with winFrom := r.winFrom + 2 ^ r.mw })
    lfTune r.ch phase.toInt (lfDiagnose r.ch amp.toNat phase.toInt s)) s) s) s)

/-- A peak current above 2.0 A (R625). -/
def execShort (ch : Fin 6) (s : State) : Out :=
  .next (when s.timed (fun s =>
    let s := lfDiag ch.val 3 (s.setRbit (lfCh ch.val) 31 false)
    withSome s.lf.run (fun r s => when (r.ch = ch.val) (lfEnd (r.done s.clk.tb) 4 r) s) s) s)

/-- VBAT crosses 9.0 V (R609): its level is known in every mode, and the event is the running block's. -/
def execVbatLow (low : Bool) (s : State) : Out :=
  .next (when (low && !s.pwr.vbatLow && s.timed) (lfEvent 12) { s with pwr := { s.pwr with vbatLow := low } })

/-- LF_STAT as it reads: CHIPS of the running telegram, and VBAT_LOW. -/
def lfStatReg (s : State) : Word :=
  let w := setBit (s.reg rLF_STAT) 7 s.pwr.vbatLow
  match s.lf.run with
  | some r => setBits w 31 16 (r.done s.clk.tb)
  | none => w

/-- A write of an LF register that does more than store its word. -/
def lfWrite (a : Nat) (v : Word) (s : State) : Option State :=
  if a = rLF_CFG then
    let v := setBits v 25 16 (clamp 1 1000 (bits v 25 16))
    let v := setBits v 13 8 (max 1 (bits v 13 8))
    some (s.setReg a (setBits v 6 4 (min 6 (bits v 6 4)) &&& 0x7FFF3F7F))
  else if a = rLF_FREQ then some (s.setReg a (wd (clamp 0x007E07E0 0x008DC8DD v.toNat)))
  else if rLF_CH ≤ a && a < rLF_CH + 24 then
    let new := setBits v 5 0 (min 60 (bits v 5 0)) &&& 0xC03F003F
    let changed := bits new 21 16 != s.fld a 21 16
    some (when changed (lfRetune ((a - rLF_CH) / 4)) (s.setReg a new))
  else none

/-! ### Capacitive channels (R632 to R641) -/

def capEvent (b : Nat) (s : State) : State := blockEvent rCAP_EVT rCAP_IE rCAP_IE 24 13 b s

/-- CAP_CFG.PERIOD: bits [13:0] with bit 15 as bit 14. -/
def capPeriod (w : Word) : Nat := bits w 13 0 + 2 ^ 14 * bits w 15 15

/-- BSH: the field holds BSH − 4. -/
def capShift (w : Word) : Nat := min 8 (Int.toNat (sgn 4 (bits w 19 16) + 4))

def State.setCap (s : State) (n : Fin 8) (c : CapChan) : State := { s with cap := { s.cap with chans := s.cap.chans.set n c } }

/-- A channel whose touch wakes the device (R640). -/
def State.capWakes (s : State) (n : Fin 8) : Bool := s.rbit (rCAP_CH + 4 * n.val) 30 && s.rbit rPWR_WAKE_EN 0

/-- A measurement would complete the debounce of a channel (R634). -/
def capTouches (n : Fin 8) (raw : Nat) (s : State) : Bool :=
  let c := s.cap.chans.get n
  !c.fresh && !s.rbit rCAP_STAT n.val && s.fld (rCAP_DATA + 4 * n.val) 31 16 + s.fld (rCAP_CH + 4 * n.val) 15 0 ≤ raw &&
  decide (s.fld rCAP_CFG 23 22 + 1 ≤ c.deb + 1)

/-- A later channel of the running scan will wake the device too. -/
def capMore (s : State) : Bool :=
  s.cap.scan.any (fun r => (r.left.drop 1).any (fun n => s.capWakes n && capTouches n (r.raw.getD n.val 0).toNat s))

/-- A touch that wakes the device from BANKED or its entry: the channel is noted in CAP_WAKE, and the source presents at the
end of the last such measurement of the scan (R640, R651). Elsewhere the touch is kept for the RTC period in which T05 may
commit (R650). -/
def capWake (n : Fin 8) (s : State) : State :=
  if !s.capWakes n then s
  else if s.sys.mode == .banked || s.pwr.entering then
    when (!capMore s) (presentWake 0) (s.setRbit rCAP_WAKE n.val true)
  else
    let before := (s.cap.touched.filter (fun t => t.1 == s.clk.rtc)).elim 0 Prod.snd
    { s with cap := { s.cap with touched := some (s.clk.rtc, before ||| BitVec.ofNat 8 (1 <<< n.val)) } }

/-- The touches of the RTC period in which T05 commits wake the device (R650). -/
def capHeld (s : State) : State :=
  match s.cap.touched with
  | some (t, m) =>
    when (t == s.clk.rtc) (fun s => presentWake 0 (s.setReg rCAP_WAKE (s.reg rCAP_WAKE ||| wd m.toNat))) s
  | none => s

/-- One measurement of a channel (R634 to R636, R638). -/
def capMeasure (n : Fin 8) (raw : Nat) (s : State) : State :=
  let k := rCAP_DATA + 4 * n.val
  let cfg := s.reg rCAP_CFG
  let touch := s.fld (rCAP_CH + 4 * n.val) 15 0
  let hyst := s.fld (rCAP_CH + 4 * n.val) 23 16
  let base := s.fld k 31 16
  let delta : Int := (raw : Int) - (base : Nat)
  let c := s.cap.chans.get n
  let put := fun (b : Nat) (s : State) => s.setReg k (wd (fld 16 b + raw))
  if c.fresh then put raw (s.setCap n ⟨false, 0, 0⟩)
  else if s.rbit rCAP_STAT n.val then
    let off := fun (s : State) => capEvent (8 + n.val) ((s.setRbit rCAP_STAT n.val false).setCap n ⟨false, 0, 0⟩)
    if delta < (touch : Int) - (hyst : Nat) then off (put base s)
    else if 0 < bits cfg 31 24 && bits cfg 31 24 ≤ c.stuck + 1 then capEvent (16 + n.val) (off (put raw s))
    else put base (s.setCap n { c with stuck := c.stuck + 1 })
  else if (touch : Int) ≤ delta then
    if bits cfg 23 22 + 1 ≤ c.deb + 1 then
      capWake n (capEvent n.val ((put base s).setRbit rCAP_STAT n.val true |>.setCap n ⟨false, 0, 0⟩))
    else put base (s.setCap n { c with deb := c.deb + 1 })
  else
    let new := if decide (delta.natAbs < touch) then ((base : Int) + delta.tdiv (2 ^ capShift cfg)).toNat else base
    put new (s.setCap n { c with deb := 0 })

/-- The modes in which the scan runs (R633). -/
def State.capRuns (s : State) : Bool :=
  s.pwr.aon && s.sys.mode != .off && s.sys.mode != .scan && s.sys.mode != .quenched && !s.assay.freezing

/-- A scan starts at a PERIOD boundary: the enabled channels in ascending order, 2 RTC periods each (R632). -/
def capScan (raw : List (BitVec 16)) (s : State) : State :=
  let chs := (List.finRange 8).filter (fun n => s.rbit (rCAP_CH + 4 * n.val) 31)
  let s := { s with cap := { s.cap with
    lastScan := some s.clk.rtc
    scan := if chs.isEmpty then none else some ⟨chs, raw, s.clk.rtc + 2, s.carrierOn⟩ } }
  (s.incFld rCAP_STAT 31 16).setFld rCAP_STAT 15 8 0

/-- A scan begins; `low` is what the measurements of CAP0 to CAP3 will give and `high` those of CAP4 to CAP7. -/
def execCapScan (low high : List (BitVec 16)) (s : State) : Out :=
  .next (when (s.capRuns && s.clk.rtc % capPeriod (s.reg rCAP_CFG) = 0 && s.cap.lastScan != some s.clk.rtc) (capScan (low ++ high)) s)

/-- The running scan at an RTC edge: the present measurement ends when its 2 periods have passed, and counts unless a
carrier overlapped it; a mode without scans ends the scan (R632, R633, R637, R652). -/
def capEdge (s : State) : State :=
  match s.cap.scan with
  | none => s
  | some r =>
    if !s.capRuns then { s with cap := { s.cap with scan := none } }
    else if s.clk.rtc < r.endsAt then s
    else match r.left with
      | [] => { s with cap := { s.cap with scan := none } }
      | n :: rest =>
        let s := if r.hit then s.setRbit rCAP_STAT (8 + n.val) true else capMeasure n (r.raw.getD n.val 0).toNat s
        { s with cap := { s.cap with
          scan := if rest.isEmpty then none else some { r with left := rest, endsAt := r.endsAt + 2, hit := s.carrierOn } } }

/-- A carrier that is on at a tick overlaps the measurement that runs. -/
def capOverlap (s : State) : State :=
  match s.cap.scan with
  | none => s
  | some r => when s.carrierOn (fun s => { s with cap := { s.cap with scan := some { r with hit := true } } }) s

/-- A write of a CAP register that does more than store its word. -/
def capWrite (a : Nat) (v : Word) (s : State) : Option State :=
  if a = rCAP_CFG then
    let p := max 66 (capPeriod v)
    some (s.setReg a (wd ((bits v 31 16 &&& 0xFFCF) * 2 ^ 16 + 0x4000 + p % 2 ^ 14 + p / 2 ^ 14 * 2 ^ 15)))
  else if rCAP_CH ≤ a && a < rCAP_CH + 32 then
    let n := Fin.ofNat 8 ((a - rCAP_CH) / 4)
    let s := when (bit v 31 && !s.rbit a 31) (fun s => s.setCap n { s.cap.chans.get n with fresh := true }) s
    some (s.setReg a (setBits v 15 0 (max 1 (bits v 15 0)) &&& 0xC0FFFFFF))
  else none

end Sys2Proof.Machine
end

