-- ==== Sys2Proof/Machine/Front.lean ====
section
/-! DEFINITION. The command front end: tallies, edges, cages and slices, the stages of dispatch, control operations and
doorbells (09, 10). -/
namespace Sys2Proof.Machine

/-! ### Descriptors (R438 to R441) -/

def descTag (d : Bytes) : Nat := leAt d 4 4
def descFlag (d : Bytes) (b : Nat) : Bool := (leAt d 2 2).testBit b
def descWaits (d : Bytes) : List Nat := [leAt d 8 2, leAt d 0xA 2].filter (fun r => r != 0)
def descSignal (d : Bytes) : Nat := leAt d 0xC 2
def descOp (d : Bytes) : Nat := leAt d 1 1

/-- The engine a descriptor names, CORE as one of three (R440). -/
def descEngine (d : Bytes) : Option Nat :=
  let e := leAt d 0 1
  let t := leAt d 0xE 1
  if e = 1 then (if 1 ≤ t && t ≤ 3 then some (0x10 + t) else none)
  else if 2 ≤ e && e ≤ 0xC && t = 0 then some e
  else none

/-- The reserved fields of a descriptor are 0 (R438, R439, R458). -/
def descReservedOk (d : Bytes) : Bool :=
  leAt d 2 2 < 8 && leAt d 0xF 1 = 0 && leAt d 0x12 2 = 0 && leAt d 0x1E 2 = 0 && leAt d 0x2A 2 = 0 &&
  (!descFlag d 1 || (leAt d 0x2E 2 = 0 && leAt d 0x34 8 = 0 && leAt d 0x3C 4 = 0))

/-- The buffer references of a descriptor: HANDLE, OFFSET and LEN. -/
def descBuf (d : Bytes) (i : Nat) : Nat × Nat × Nat :=
  (leAt d (0x10 + 12 * i) 2, leAt d (0x14 + 12 * i) 4, leAt d (0x18 + 12 * i) 4)

/-- A buffer reference is valid (R445). -/
def bufRefOk (s : State) (owner : Nat) (r : Nat × Nat × Nat) : Bool :=
  if r.1 = 0 then r.2.1 = 0 && r.2.2 = 0
  else (s.bufAt r.1).any (fun b => b.owner == owner && r.2.1 + r.2.2 ≤ b.len)

/-- The indirection reference of a descriptor, with LEN 20 (R458, R459). -/
def descIndirect (d : Bytes) : Nat × Nat × Nat := (leAt d 0x2C 2, leAt d 0x30 4, 20)

def waitRefOk (s : State) (owner r : Nat) : Bool := (s.edgeAt r).any (fun e => e.owner == owner || e.shared)
def signalRefOk (s : State) (owner r : Nat) : Bool := r == 0 || (s.edgeAt r).any (fun e => e.owner == owner)

/-- Every handle and edge reference of a command is valid (R445, R453). -/
def refsOk (s : State) (owner : Nat) (d : Bytes) : Bool :=
  bufRefOk s owner (descBuf d 0) && bufRefOk s owner (descBuf d 1) &&
  (descWaits d).all (waitRefOk s owner) && signalRefOk s owner (descSignal d)

/-! ### Queue states -/

/-- An edge that a held command awaits is ARMED. -/
def awaitsArmed (s : State) (d : Bytes) : Bool := (descWaits d).any (fun r => (s.edgeAt r).any (fun e => e.st == .armed))

/-- The queues whose last awaited ARMED edge has become DONE are READY (R455). -/
def wakeWaiters (s : State) : State :=
  forEach s.front.queues (fun e s =>
    if e.2.st == .waiting && !(e.2.held.any (fun f => awaitsArmed s f.desc)) then
      s.putQueue e.1 { e.2 with st := .ready, waitFrom := none }
    else s) s

/-- A queue stopped with its reason (R427). -/
def stopQueue (n reason : Nat) (s : State) : State :=
  s.onQueue n (fun q => { q with st := .stopped, stopReason := reason, stopping := false, waitFrom := none })

/-- A queue stopped because its ring or tally could not be reached (R437): reason 2 RING_FAULT, 3 TALLY_FAULT. -/
def faultStop (n reason : Nat) (s : State) : State := frontEvent 0 (stopQueue n reason s)

/-! ### Tallies (R452, R496 to R498) -/

def tallyBytes (s : State) (n index : Nat) (d : Bytes) (status value attempts stage sent : Nat) : Bytes :=
  leBytes 4 (descTag d) ++ leBytes 2 (index + 1) ++ leBytes 1 status ++ leBytes 1 (min attempts 255) ++
  leBytes 3 value ++ leBytes 1 (leAt d 0 1) ++ leBytes 2 (s.reg rSYS_EPOCH).toNat ++ leBytes 1 stage ++ leBytes 1 0 ++
  leBytes 4 sent ++ leBytes 4 s.clk.tb ++ leBytes 2 n ++ leBytes 6 0

/-- A command's SIGNAL edge moved by its tally, unless its reference is not valid (R452, R473). -/
def signalEdge (owner ref : Nat) (ok : Bool) (s : State) : State :=
  if ref = 0 || !signalRefOk s owner ref then s
  else match s.edgeAt ref with
    | none => s
    | some e =>
      if e.st == .armed then
        let e := { e with st := if ok then EdgeState.ok else .fail }
        wakeWaiters { s with front := { s.front with edges := ains s.front.edges (ref % 4096) e } }
      else frontEvent 3 s

/-- The owner told of a tally: E.TALLY of a core, or the queue's vector when FLAGS.MSI is 1 (R439, R498). -/
def notifyOwner (q : Queue) (d : Bytes) (s : State) : State :=
  if q.owner < 6 then s.setE (Fin.ofNat 6 q.owner) 0x0200
  else withSome (hostOf q.owner) (fun r s => when (descFlag d 0) (raiseVector r q.msi) s) s

/-- A tally written, then the poll register, then the edge, then the owner's notice (R498). A tally that cannot be written
stops its queue and signals nothing (R437). -/
def tally (n index : Nat) (d : Bytes) (status value attempts stage sent : Nat) (s : State) : State :=
  match s.queue? n with
  | none => s
  | some q =>
    match devWrite 0 q.ctx (q.tally + index % 2 ^ q.size * 32) (tallyBytes s n index d status value attempts stage sent) s with
    | (.ok _, s) =>
      let s := s.onQueue n (fun q => { q with poll := (index + 1) % 65536 })
      notifyOwner q d (signalEdge q.owner (descSignal d) (status == 0) s)
    | (_, s) => faultStop n 3 s

/-! ### Cages and slices (R462 to R471) -/

def cageReg (c : Fin 8) : Nat := rFRONT_CAGE + 4 * c.val

def State.critOnly (s : State) (c : Fin 8) : Bool := s.rbit (cageReg c) 31

/-- The tick at which a slice that starts now ends (R466). -/
def sliceEnd (s : State) (c : Fin 8) : Nat := s.clk.tb + s.fld (cageReg c) 24 16 * 624

/-- The next READY queue bound to a cage, in ascending number after a queue, wrapping (R466). -/
def nextReady (s : State) (c : Fin 8) (after : Nat) : Option Nat :=
  let qs := (s.front.queues.filter (fun e => e.2.st == .ready && e.2.cage == c.val)).map Prod.fst
  ((qs.filter (fun n => after < n)).head?).or ((qs.filter (fun n => n ≤ after)).head?)

/-- The preloaded command becomes the cage's command when it is the HEAD command of the queue that holds the cage (R471). -/
def adopt (c : Fin 8) (s : State) : State :=
  let g := s.cage c
  match g.cur, g.preload, g.queue with
  | none, some (n, f), some m =>
    if n = m && (s.queue? m).any (fun q => q.head == f.index) then s.setCage c { g with cur := some (f, false), preload := none }
    else s.setCage c { g with preload := none }
  | _, _, _ => s

/-- A cage passes to a queue, whose slice starts (R466). -/
def takeCage (c : Fin 8) (n : Nat) (s : State) : State :=
  let s := s.onQueue n (fun q => { q with st := .running })
  let g := s.cage c
  adopt c (s.setCage c { g with queue := some n, last := n, sliceEnd := sliceEnd s c, cur := none })

def State.holds (s : State) (n : Nat) : Bool := (s.queue? n).any (fun q => q.st == .running)

/-- A cage passes on, or keeps its queue, as its slice and the queues' states decide (R465, R466, R470). -/
def turn (c : Fin 8) (s : State) : State :=
  let g := s.cage c
  let present := g.queue.filter s.holds
  match present with
  | some n =>
    if s.clk.tb < g.sliceEnd then adopt c s
    else match nextReady s c n with
      | some m => takeCage c m (s.onQueue n (fun q => { q with st := .ready }))
      | none => adopt c (s.setCage c { g with sliceEnd := sliceEnd s c })
  | none =>
    match nextReady s c (g.queue.getD g.last) with
    | some m => takeCage c m s
    | none => s.setCage c { g with queue := none, cur := none, preload := none }

/-- Every cage that no queue holds passes to a READY queue bound to it. -/
def feed (s : State) : State :=
  forEach allCages (fun c s => when ((s.cage c).queue.isNone) (turn c) s) s

/-- What waited for the queue's command boundary takes effect: Q_BIND, Q_STOP, and IDLE when the ring is empty (R463, R481,
R492). -/
def settle (n : Nat) (s : State) : State :=
  s.onQueue n (fun q =>
    let q := { q with cage := q.bindTo.getD q.cage, bindTo := none }
    if q.stopping then { q with st := .stopped, stopReason := 1, stopping := false }
    else if q.st == .running && q.head == q.tail then { q with st := .idle }
    else q)

/-- A queue that has been bound elsewhere leaves its cage. -/
def leaveMoved (c : Fin 8) (n : Nat) (s : State) : State :=
  s.onQueue n (fun q => if q.st == .running && q.cage != c.val then { q with st := .ready } else q)

/-- A command boundary of a cage (R465); a cage with a dispatched command is at none (R467). -/
def boundary (c : Fin 8) (s : State) : State :=
  if (s.cage c).disp.isSome then s else
  let s := match (s.cage c).queue with
    | some n => leaveMoved c n (settle n s)
    | none => s
  feed (turn c s)

/-! ### The reset of a core that serves an engine (R212, R244, R518) -/

/-- The channels of an engine, CORE of target n being engine 0x10 + n (R202). -/
def engineChans (e : Nat) : List Nat :=
  if e ≥ 0x11 then [coreCmdKey (e - 0x10), coreDoneKey (e - 0x10)] else (List.range 7).map (fun k => e * 16 + k)

/-- Every word buffered on an engine's ports discarded, in its timed queues too. -/
def clearPorts (e : Nat) (s : State) : State :=
  forEach (engineChans e) (fun k s =>
    let s := cClear k s
    { s with chans := { s.chans with timed := adel s.chans.timed k } }) s

/-- The ports of an engine flushed (R212). -/
def flushEngine (e : Nat) (s : State) : State :=
  let s := clearPorts e s
  if s.flushed e then s else { s with chans := { s.chans with flushed := e :: s.chans.flushed } }

/-- The flush of an engine's ports ends, and the engine has drained (R212, R515). -/
def endFlush (e : Nat) (s : State) : State :=
  let s := { s with chans := { s.chans with flushed := s.chans.flushed.filter (fun x => !(x == e)) } }
  let x := s.engine e
  s.setEngine e { x with draining := none, late := x.draining.bind (fun d => if d.counted then none else some d.queue) }

/-- A core at its reset values. -/
def clearCore (c : Fin 6) (s : State) : State :=
  let k := s.cores.get c
  let s := s.setCore c { k with
    g := Vector.replicate 16 0, flg := 0, pc := k.cvec, cstat := 0, cepc := 0, ccause := 0, cbad := 0
    cmp := 0, cmpLate := false, e := 0, run := .running }
  { s with chans := { s.chans with
    ch := (s.chans.ch.map (fun e => (e.1, { e.2 with taken := if e.1 / 0x1000 = 0 && servingCore (e.1 / 16) == c then none else e.2.taken }))).filter
      (fun e => !(decide (e.2 = Chan.empty))) } }

/-- A core reset: g1 to g15, FLG and the control registers at their reset values, but cvec, from which the core starts
(R151, R227, R239, R244). CPRIV_CACHE and the lines of the caches stay (log entry 19). The bits of E whose sources are levels
that still hold are set again (R215). -/
def resetCore (c : Fin 6) (s : State) : State := ((clearCore c s).levelCmd c).levelMode

/-- The engines that a core serves. -/
def servedBy (c : Fin 6) : List Nat := allEngines.filter (fun e => servingCore e == c)

/-! ### The end of a dispatched command (R476, R496, R512) -/

/-- The engine of a command is free of it. -/
def freeEngine (e : Nat) (s : State) : State := s.setEngine e { s.engine e with cage := none, attempts := 0 }

/-- A guilty-queue reset ends the commands between HEAD and the TAIL of step 1, in ring order (R517). -/
def guiltyTallies (n tail : Nat) : Nat → State → State
  | 0, s => s
  | fuel + 1, s =>
    match s.queue? n with
    | none => s
    | some q =>
      if q.head = tail || q.st != .guilty then s
      else match devRead 0 q.ctx (q.ring + q.head % 2 ^ q.size * 64) 64 s with
        | (.ok d, s) =>
          let s := s.onQueue n (fun q => { q with head := (q.head + 1) % 65536 })
          guiltyTallies n tail fuel (tally n q.head d 7 0 0 1 0 s)
        | (_, s) => faultStop n 2 s

/-- A dispatched command ends with a status and a value: its tally, its SIGNAL edge, then the cage's command boundary. -/
def endCommand (e status value : Nat) (s : State) : State :=
  match (s.engine e).cage with
  | none => s
  | some c =>
    let c := cageNo c
    match (s.cage c).disp with
    | none => s
    | some d =>
      let s := tally d.queue d.index d.desc status value (s.engine e).attempts 8 d.sentAt s
      boundary c (freeEngine e (s.setCage c { s.cage c with disp := none }))

/-- The sets that the RANGE hardware holds are cleared (R715). -/
def clearSets (s : State) : State := { s with range := { s.range with rbe := none, sts := none } }

/-- The effects of R244 on a core that is neither core 0 nor the Kiln core: its commands end with ENGINE_ERROR, its engines
have drained, and it starts again at cvec. The field core's also switches the LF drivers off and clears the sets that RANGE
holds (R715). -/
def failServed (c : Fin 6) (s : State) : State :=
  let s := when (c.val = 4) (fun s => clearSets (lfOff s)) s
  resetCore c (forEach (servedBy c) (fun e s => endFlush e (endCommand e 5 0 s)) s)

/-- The hung engine reset (R518). -/
def resetServed (e : Nat) (s : State) : State :=
  let c := servingCore e
  if c.val = 0 || c.val = 5 then clearPorts e s else failServed c s

/-- The cage that holds a dispatched command of a queue. -/
def dispatchedOf (s : State) (n : Nat) : Bool := allCages.any (fun c => (s.cage c).disp.any (fun d => d.queue == n))

/-- Steps 2 to 4 of a guilty-queue reset (R517, R518). -/
def guiltySteps (n e tail : Nat) (s : State) : State :=
  let s := s.onQueue n (fun q => { q with guilty := none })
  let s := resetServed e (guiltyTallies n tail 4096 s)
  let s := s.onQueue n (fun q => if q.st == .guilty then { q with st := .stopped, stopReason := 4 } else q)
  feed ((s.satFld rFRONT_GUILTY 31 16).setFld rFRONT_GUILTY 8 0 n)

/-- The guilty-queue resets that no dispatched command of their queue holds back any longer take their steps (R477, R517). -/
def sweepGuilty : Nat → State → State
  | 0, s => s
  | fuel + 1, s =>
    match s.front.queues.find? (fun e => e.2.guilty.isSome && !dispatchedOf s e.1) with
    | none => s
    | some (n, q) =>
      match q.guilty with
      | none => s
      | some (e, tail) => sweepGuilty fuel (guiltySteps n e tail s)

/-- The command of an engine ends (R476). -/
def finish (e status value : Nat) (s : State) : State := sweepGuilty 8 (endCommand e status value s)

/-- The effects of a double fault on a core (R244). -/
def doubleFault (c : Fin 6) (s : State) : State :=
  if c.val = 0 || c.val = 5 then requestReset 7 c.val s else sweepGuilty 8 (failServed c s)

/-! ### DONE words (R205, R206, R512) -/

/-- The statuses that an engine may not send, and those that no table gives (R206). -/
def frontOnly (status : Nat) : Bool :=
  status == 1 || status == 2 || status == 3 || status == 6 || status == 7 || status == 8 || status == 9 || 0xF < status

/-- A DONE word of an engine: it ends the engine's command, and for a command that has been cancelled an OK counts as a late
success. -/
def doneWord (e : Nat) (w : Word) (s : State) : State :=
  let st := bits w 7 0
  match s.dispatched e with
  | some d => finish e (if frontOnly st && !(st == 2 && e == 0xC && d.withheld) then 5 else st) (bits w 31 8) s
  | none => if st = 0 then lateSuccess e s else s

def execDoneWord (engine : Nat) (s : State) : Out :=
  .next (when (s.up && allEngines.contains engine) (fun s =>
    withSome (s.cHead (doneKey engine)) (fun w s => doneWord engine w (cDrop (doneKey engine) s)) s) s)

/-! ### Fetch and check (R471, R472) -/

/-- The front end dispatches: the mode lets it, and no wake holds it (R478, R479). -/
def State.dispatches (s : State) : Bool := s.up && !s.front.held

/-- Stages 1 and 2 on a queue's HEAD command; none while the read has no answer yet. A failed stage is kept with its status,
0xFF for a ring that cannot be read. -/
def fetch (q : Queue) (s : State) : Option Fetched × State :=
  match devRead 0 q.ctx (q.ring + q.head % 2 ^ q.size * 64) 64 s with
  | (.ok d, s) =>
    let failed :=
      if (descEngine d).isNone || !descReservedOk d then some (5, 2)
      else if !refsOk s q.owner d then some (4, 2) else none
    (some ⟨d, q.head, failed⟩, s)
  | (.stall, s) => (none, s)
  | (_, s) => (some ⟨[], q.head, some (0xFF, 1)⟩, s)

/-- The queue's HEAD command: the one it has waited with, which goes on at stage 4, or one fetched from the ring (R472,
R487). -/
def headCommand (n : Nat) (q : Queue) (s : State) : Option Fetched × State :=
  match q.held with
  | some f => if f.index = q.head then (some f, s.onQueue n (fun q => { q with held := none })) else fetch q s
  | none => fetch q s

/-- A command that cannot be fetched stops its queue (R437, R472). -/
def ringFault (c : Fin 8) (n : Nat) (s : State) : State :=
  boundary c (faultStop n 2 (s.setCage c { s.cage c with cur := none }))

/-- The cage fetches the HEAD command of the queue that holds it. -/
def fetchHead (c : Fin 8) (n : Nat) (q : Queue) (s : State) : State :=
  match headCommand n q s with
  | (none, s) => s
  | (some f, s) =>
    if f.failed = some (0xFF, 1) then ringFault c n s else s.setCage c { s.cage c with cur := some (f, false) }

/-- The queue whose HEAD command the cage preloads (R471). -/
def preloadQueue (c : Fin 8) (n : Nat) (s : State) : Option (Nat × Queue) :=
  let m := if s.clk.tb < (s.cage c).sliceEnd then n else (nextReady s c n).getD n
  (s.queue? m).bind (fun q => if q.head = q.tail || q.stopping || !(q.st == .running || q.st == .ready) then none else some (m, q))

/-- A cage whose command is dispatched preloads one further command (R471). -/
def preloadNext (c : Fin 8) (n : Nat) (s : State) : State :=
  match preloadQueue c n s with
  | none => s
  | some (m, q) =>
    match headCommand m q s with
    | (none, s) => s
    | (some f, s) => s.setCage c { s.cage c with preload := some (m, f) }

/-- DESCRIPTOR_FETCH: the cage fetches and checks its queue's HEAD command, or preloads one while its command is dispatched. -/
def descriptorFetch (c : Fin 8) (s : State) : State :=
  let g := s.cage c
  match g.queue with
  | none => s
  | some n =>
    match s.queue? n with
    | none => s
    | some q =>
      if g.disp.isSome then when (g.preload.isNone && !q.stopping) (preloadNext c n) s
      else when (g.cur.isNone && q.st == .running && q.head != q.tail) (fetchHead c n q) s

def execDescriptorFetch (cage : Fin 8) (s : State) : Out := .next (when s.dispatches (descriptorFetch cage) s)

/-! ### Dispatch (R454, R455, R468 to R474) -/

/-- A command that a stage fails: the outcome is written at END_AT_FRONT_END (R473). -/
def failAt (c : Fin 8) (f : Fetched) (status stage : Nat) (s : State) : State :=
  s.setCage c { s.cage c with cur := some ({ f with failed := some (status, stage) }, false) }

/-- The queue waits on its HEAD command and gives up its cage (R455). -/
def waitOn (c : Fin 8) (n : Nat) (f : Fetched) (s : State) : State :=
  let s := s.onQueue n (fun q => { q with st := .waiting, waitFrom := some s.clk.tb, held := some f })
  boundary c (s.setCage c { s.cage c with cur := none })

/-- An awaited edge failed and the command does not tolerate it (R454). -/
def dependencyFailed (s : State) (d : Bytes) : Bool :=
  !descFlag d 2 && (descWaits d).any (fun r => (s.edgeAt r).any (fun e => e.st == .fail))

/-- Stage 5: the 20 bytes that replace PARAM; an error is the status of R459, and none while the read has no answer. -/
def indirect (owner : Nat) (d : Bytes) (s : State) : Option (Except Nat Bytes) × State :=
  if !descFlag d 1 then (some (.ok d), s)
  else
    let r := descIndirect d
    if r.1 = 0 || !bufRefOk s owner r then (some (.error 4), s)
    else match s.bufAt r.1 with
      | none => (some (.error 4), s)
      | some b =>
        match devRead 0 b.ctx (b.base + r.2.1) 20 s with
        | (.ok p, s) => (some (.ok (d.take 0x2C ++ p)), s)
        | (.fault, s) => (some (.error 3), s)
        | (.torn, s) => (some (.error 0xF), s)
        | (.err, s) => (some (.error 5), s)
        | (.stall, s) => (none, s)

/-- A buffer reference as the image carries it (R446). -/
def relocated (s : State) (d : Bytes) (i : Nat) : Bytes :=
  let r := descBuf d i
  match s.bufAt r.1 with
  | some b => leBytes 6 (b.base + r.2.1) ++ leBytes 1 b.ctx ++ leBytes 1 b.access ++ leBytes 4 r.2.2
  | none => slice d (0x10 + 12 * i) 12

/-- The descriptor image (R446, R448, R460); for CIPHER, PKA and HASH its byte 0x0F holds the owner code (R825). -/
def imageOf (s : State) (owner : Nat) (d : Bytes) (withParam : Bytes) : Bytes :=
  let e := leAt d 0 1
  let own := if e = 2 || e = 3 || e = 4 then owner else leAt d 0xF 1
  slice d 0 0xF ++ leBytes 1 own ++ relocated s d 0 ++ relocated s d 1 ++ slice d 0x28 4 ++ slice withParam 0x2C 20

/-- An engine that a cage may be granted: it holds no command and is not draining (R468, R515). -/
def State.engineFree (s : State) (e : Nat) : Bool := (s.engine e).cage.isNone && (s.engine e).draining.isNone

/-- The engine of the command for which a cage waits. -/
def waitsFor (s : State) (c : Fin 8) : Option Nat :=
  match (s.cage c).cur with
  | some (f, true) => descEngine f.desc
  | _ => none

/-- The cage that a free engine is granted to (R469). -/
def grantee (s : State) (e : Nat) : Option (Fin 8) :=
  let ws := allCages.filter (fun c => waitsFor s c == some e)
  match (ws.filter s.critOnly).getLast? with
  | some c => some c
  | none =>
    let l := (s.engine e).lastCage
    ((ws.filter (fun c => l < c.val)).head?).or ((ws.filter (fun c => c.val ≤ l)).head?)

/-- Stage 8: the image is written, HEAD advances, the image's address goes to the engine's CMD port and the timeout starts
(R432, R474, R506). -/
def send (c : Fin 8) (n : Nat) (q : Queue) (f : Fetched) (e : Nat) (withParam : Bytes) (s : State) : State :=
  let g := s.cage c
  let addr := 0x207FFC00 + c.val * 0x80 + g.slot * 0x40
  let s := (writeSram 0x22 addr (imageOf s q.owner f.desc withParam) s).2
  let s := s.onQueue n (fun q => { q with head := (q.head + 1) % 65536 })
  let s := s.setCage c { g with
    cur := none, slot := 1 - g.slot
    disp := some ⟨n, f.index, f.desc, e, addr, s.clk.tb, s.clk.tb + q.tmo * 6240, false⟩ }
  let s := s.setEngine e { s.engine e with cage := some c.val, attempts := 0, lastCage := c.val }
  cmdSend e (wd addr) s

/-- Stages 3 to 8 on the command that a cage has fetched. -/
def dispatchStages (c : Fin 8) (n : Nat) (q : Queue) (f : Fetched) (s : State) : State :=
  if awaitsArmed s f.desc then waitOn c n f s
  else if dependencyFailed s f.desc then failAt c f 6 3 s
  else if !refsOk s q.owner f.desc then failAt c f 4 4 s
  else match indirect q.owner f.desc s with
    | (none, s) => s
    | (some (.error st), s) => failAt c f st 5 s
    | (some (.ok d), s) =>
      match descEngine f.desc with
      | none => failAt c f 5 2 s
      | some e =>
        if !modeAccepts s.sys.mode (leAt f.desc 0 1) (descOp f.desc) (leAt d 0x2C 2) then
          failAt c f 9 6 s
        else
          let w := s.setCage c { s.cage c with cur := some (f, true) }
          if s.engineFree e && grantee w e == some c && s.cRoom (cmdKey e) then send c n q f e d s else w

/-- The command that a cage has fetched, with its queue, when no stage has failed it. -/
def readyCur (c : Fin 8) (s : State) : Option (Nat × Queue × Fetched) :=
  match (s.cage c).queue, (s.cage c).cur, (s.cage c).disp with
  | some n, some (f, _), none => if f.failed.isNone then (s.queue? n).map (fun q => (n, q, f)) else none
  | _, _, _ => none

/-- DISPATCH: stages 3 to 8 for a cage. -/
def dispatch (c : Fin 8) (s : State) : State :=
  withSome (readyCur c s) (fun x s => dispatchStages c x.1 x.2.1 x.2.2 s) s

def execDispatch (cage : Fin 8) (s : State) : Out := .next (when s.dispatches (dispatch cage) s)

/-- ENGINE_GRANT: a free engine goes to a waiting cage, which judges its command again before the send (R469, R472). -/
def execEngineGrant (engine : Nat) (s : State) : Out :=
  .next (when (s.dispatches && s.engineFree engine) (fun s => withSome (grantee s engine) dispatch s) s)

/-- END_AT_FRONT_END: a command that a stage failed takes its outcome (R473). -/
def endAtFrontEnd (c : Fin 8) (s : State) : State :=
  match (s.cage c).queue, (s.cage c).cur, (s.cage c).disp with
  | some n, some (f, _), none =>
    match f.failed with
    | none => s
    | some (status, stage) =>
      if status = 0xFF then ringFault c n s
      else
        let s := s.onQueue n (fun q => { q with head := (q.head + 1) % 65536 })
        let s := s.setCage c { s.cage c with cur := none }
        boundary c (tally n f.index f.desc status 0 0 stage 0 s)
  | _, _, _ => s

def execEndAtFrontEnd (cage : Fin 8) (s : State) : Out := .next (when s.dispatches (endAtFrontEnd cage) s)

/-- SLICE_END: while the cage waits for a grant the end of its slice is a command boundary; a command that loses its cage
stays at HEAD (R465, R470). Otherwise the cage passes at its next boundary. -/
def execSliceEnd (cage : Fin 8) (s : State) : Out :=
  .next (when (s.dispatches && (s.cage cage).queue.isSome && (s.cage cage).sliceEnd ≤ s.clk.tb && (waitsFor s cage).isSome)
    (boundary cage) s)

/-- A DONE word that has reached the front end by now will move an edge that a command awaits (R487). -/
def signalWaits (s : State) (d : Bytes) : Bool :=
  allCages.any (fun c => (s.cage c).disp.any (fun x =>
    (descWaits d).contains (descSignal x.desc) && (s.cHead (doneKey x.engine)).isSome))

/-- WAIT_TMO: the HEAD command on which a queue has waited for WAIT_TMO ms ends with DEPENDENCY_FAILED (R456). A signal of the
same tick holds: its DONE word is taken first (R487). -/
def waitTmo (n : Nat) (s : State) : State :=
  match s.queue? n with
  | none => s
  | some q =>
    match q.st, q.waitFrom, q.held with
    | .waiting, some t, some f =>
      if q.waitTmo = 0 || s.clk.tb < t + msTicks q.waitTmo || signalWaits s f.desc then s
      else
        let head := (q.head + 1) % 65536
        let s := s.putQueue n { q with
          head := head, waitFrom := none, held := none, st := if head = q.tail then .idle else .ready }
        feed (tally n f.index f.desc 6 0 0 3 0 s)
    | _, _, _ => s

def execWaitTmo (queue : Fin 512) (s : State) : Out := .next (when s.up (waitTmo queue.val) s)

/-! ### Control operations (R422 to R429, R444, R450, R1188, R1189) -/

/-- What a control operation answers: its result code and value. -/
abbrev CtlRes := Nat × Nat

/-- The bytes of a setup block in shared SRAM; an error is the code BAD_ARG or READ_ERROR. -/
def setupBlock (addr align len : Nat) (s : State) : Except Nat Bytes × State :=
  if addr % align != 0 || !inSram addr || !inSram (addr + len - 1) then (.error 1, s)
  else match physRead 0x22 addr len s with
    | (.ok bs, s) => (.ok bs, s)
    | (_, s) => (.error 5, s)

def ringInSram (base len : Nat) : Bool := inSram base && inSram (base + len - 1)

/-- The cage that a class and a group select (R463). -/
def bindingCage (s : State) (crit : Bool) (group : Nat) : Nat :=
  s.fld (if crit then rFRONT_BIND1 else rFRONT_BIND0) (4 * group + 2) (4 * group)

/-- The fields of a queue setup block are inside R428 and R429. -/
def queueSetupOk (s : State) (owner : Nat) (b : Bytes) : Bool :=
  let ring := leAt b 0 6
  let tal := leAt b 8 6
  let ctx := leAt b 0x10 1
  let size := leAt b 0x11 1
  let cls := leAt b 0x12 1
  let grp := leAt b 0x13 1
  let msi := leAt b 0x14 1
  leAt b 6 2 = 0 && leAt b 0xE 2 = 0 && ring % 64 = 0 && tal % 32 = 0 && (ctx < 64 || ctx = 0xFF) &&
  3 ≤ size && size ≤ 12 && cls < 2 && grp < 8 && (if owner < 8 then msi = 0 else msi < 32) &&
  leAt b 0x15 3 = 0 && 1 ≤ leAt b 0x18 2 && leAt b 0x1C 4 = 0 &&
  (ctx != 0xFF || (ringInSram ring (2 ^ size * 64) && ringInSram tal (2 ^ size * 32))) &&
  !(cls = 1 && 8 ≤ owner) && (s.critOnly (cageNo (bindingCage s (cls = 1) grp)) == (cls == 1))

/-- The queue that a setup block describes (R428, R430, R463). -/
def newQueue (s : State) (owner : Nat) (b : Bytes) : Queue :=
  { st := .idle, owner := owner, critical := leAt b 0x12 1 = 1, ring := leAt b 0 6, tally := leAt b 8 6, ctx := leAt b 0x10 1
    size := leAt b 0x11 1, group := leAt b 0x13 1, msi := leAt b 0x14 1, tmo := leAt b 0x18 2, waitTmo := leAt b 0x1A 2
    cage := bindingCage s (leAt b 0x12 1 = 1) (leAt b 0x13 1), bindTo := none, stopReason := 0, stopping := false
    head := 0, tail := 0, poll := 0, timeouts := 0, lateDiscard := 0, waitFrom := none, held := none, guilty := none }

/-- The lowest number below n that a table does not list (R426). -/
def lowestFree {α : Type} (n : Nat) (m : Assoc α) : Option Nat := (List.range n).find? (fun i => (aget? m i).isNone)

def qCreate (owner operand arg : Nat) (s : State) : CtlRes × State :=
  if operand != 0 then ((1, 0), s)
  else match setupBlock arg 32 32 s with
    | (.error c, s) => ((c, 0), s)
    | (.ok b, s) =>
      if !queueSetupOk s owner b then ((1, 0), s)
      else match lowestFree 512 s.front.queues with
        | none => ((2, 0), s)
        | some n =>
          ((0, n), ({ s with front := { s.front with past := adel s.front.past n } }).putQueue n (newQueue s owner b))

/-- The queue that an operation of its owner names; an error is the code. -/
def ownQueue (owner operand arg : Nat) (s : State) : Except Nat Queue :=
  if 511 < operand || arg != 0 then .error 1
  else match s.queue? operand with
    | none => .error 1
    | some q => if q.owner = owner then .ok q else .error 3

def qDestroy (owner operand arg : Nat) (s : State) : CtlRes × State :=
  match ownQueue owner operand arg s with
  | .error c => ((c, 0), s)
  | .ok q =>
    if (q.st == .idle || q.st == .stopped) && !dispatchedOf s operand then
      ((0, 0), { s with front := { s.front with
        queues := adel s.front.queues operand
        past := ains s.front.past operand (q.poll, q.timeouts, q.lateDiscard) } })
    else ((4, 0), s)

/-- The cage drops what it has fetched or preloaded of a queue (R481). -/
def dropFetched (n : Nat) (s : State) : State :=
  forEach allCages (fun c s =>
    let g := s.cage c
    let g := if g.preload.any (fun p => p.1 == n) then { g with preload := none } else g
    s.setCage c (if g.queue == some n then { g with cur := none } else g)) s

/-- The cage that a queue holds is at a command boundary, because the queue has become STOPPED or GUILTY (R465). -/
def passCages (n : Nat) (s : State) : State :=
  forEach allCages (fun c s => when ((s.cage c).queue == some n) (boundary c) s) s

def qStop (owner operand arg : Nat) (s : State) : CtlRes × State :=
  match ownQueue owner operand arg s with
  | .error c => ((c, 0), s)
  | .ok q =>
    match q.st with
    | .stopped => ((0, 0), s)
    | .guilty => ((4, 0), s)
    | _ =>
      let s := dropFetched operand s
      if dispatchedOf s operand then ((0, 0), s.onQueue operand (fun q => { q with stopping := true }))
      else ((0, 0), passCages operand (stopQueue operand 1 s))

def qStart (owner operand arg : Nat) (s : State) : CtlRes × State :=
  match ownQueue owner operand arg s with
  | .error c => ((c, 0), s)
  | .ok q =>
    if q.st != .stopped then ((4, 0), s)
    else
      let waits := q.held.any (fun f => f.index == q.head && awaitsArmed s f.desc)
      let q := if q.head = q.tail then { q with st := .idle, stopReason := 0, held := none }
        else if waits then { q with st := .waiting, stopReason := 0, waitFrom := some s.clk.tb }
        else { q with st := .ready, stopReason := 0, held := none }
      ((0, 0), feed (s.putQueue operand q))

/-- Q_BIND: at the queue's next command boundary, and at once while it holds no cage and no command of it is dispatched (R463,
R464, R492). -/
def qBind (operand arg : Nat) (s : State) : CtlRes × State :=
  let n := operand % 512
  let c := operand / 512 % 8
  match s.queue? n with
  | none => ((1, 0), s)
  | some q =>
    if 4096 ≤ operand || arg != 0 || s.critOnly (cageNo c) != q.critical then ((1, 0), s)
    else if q.st == .running || dispatchedOf s n then ((0, 0), s.putQueue n { q with bindTo := some c })
    else ((0, 0), feed (s.putQueue n { q with cage := c }))

/-- Q_QUERY (R427). -/
def qQuery (operand arg : Nat) (s : State) : CtlRes × State :=
  if 511 < operand || arg != 0 then ((1, 0), s)
  else match s.queue? operand with
    | none => ((1, 0), s)
    | some q =>
      ((0, fld 20 q.st.code + fld 17 q.cage + fld 16 (b2n q.critical) + fld 12 q.owner + fld 9 q.stopReason), s)

/-- The fields of a buffer setup block are inside R443 and R1189. -/
def bufSetupOk (b : Bytes) : Bool :=
  let base := leAt b 0 6
  let len := leAt b 8 4
  let ctx := leAt b 0xC 1
  leAt b 6 2 = 0 && 1 ≤ len && len ≤ 0x1000000 && (ctx < 64 || ctx = 0xFF) && leAt b 0xD 1 < 4 && leAt b 0xE 2 = 0 &&
  (ctx != 0xFF || ringInSram base len)

def bReg (owner operand arg : Nat) (s : State) : CtlRes × State :=
  if operand != 0 then ((1, 0), s)
  else match setupBlock arg 16 16 s with
    | (.error c, s) => ((c, 0), s)
    | (.ok b, s) =>
      if !bufSetupOk b then ((1, 0), s)
      else match lowestFree 1024 s.front.buffers with
        | none => ((2, 0), s)
        | some n =>
          let gen := agetD s.front.bufGen n 0 % 63 + 1
          ((0, gen * 1024 + n), { s with front := { s.front with
            buffers := ains s.front.buffers n ⟨owner, leAt b 0 6, leAt b 8 4, leAt b 0xC 1, leAt b 0xD 1⟩
            bufGen := ains s.front.bufGen n gen } })

/-- A dispatched command holds a reference to a handle (R449). -/
def handleHeld (s : State) (h : Nat) : Bool :=
  allCages.any (fun c => (s.cage c).disp.any (fun d =>
    (descBuf d.desc 0).1 == h || (descBuf d.desc 1).1 == h || (descFlag d.desc 1 && (descIndirect d.desc).1 == h)))

def bUnreg (owner operand arg : Nat) (s : State) : CtlRes × State :=
  match s.bufAt operand with
  | none => ((1, 0), s)
  | some b =>
    if arg != 0 then ((1, 0), s)
    else if b.owner != owner then ((3, 0), s)
    else if handleHeld s operand then ((4, 0), s)
    else ((0, 0), { s with front := { s.front with buffers := adel s.front.buffers (operand % 1024) } })

def eAlloc (owner operand arg : Nat) (s : State) : CtlRes × State :=
  if operand != 0 || 1 < arg then ((1, 0), s)
  else match lowestFree 4096 s.front.edges with
    | none => ((2, 0), s)
    | some n =>
      let gen := agetD s.front.edgeGen n 0 % 15 + 1
      ((0, gen * 4096 + n), { s with front := { s.front with
        edges := ains s.front.edges n ⟨.armed, owner, arg = 1⟩, edgeGen := ains s.front.edgeGen n gen } })

/-- A queue waits on an edge, or a dispatched command signals it (R457). -/
def edgeInUse (s : State) (r : Nat) : Bool :=
  s.front.queues.any (fun e => e.2.st == .waiting && e.2.held.any (fun f => (descWaits f.desc).contains r)) ||
  allCages.any (fun c => (s.cage c).disp.any (fun d => descSignal d.desc == r))

def eFree (owner operand arg : Nat) (s : State) : CtlRes × State :=
  match s.edgeAt operand with
  | none => ((1, 0), s)
  | some e =>
    if arg != 0 then ((1, 0), s)
    else if e.owner != owner then ((3, 0), s)
    else if edgeInUse s operand then ((4, 0), s)
    else ((0, 0), { s with front := { s.front with edges := adel s.front.edges (operand % 4096) } })

/-- The code of an edge state (R451). -/
def EdgeState.code : EdgeState → Nat
  | .armed => 1 | .ok => 2 | .fail => 3

def eQuery (operand arg : Nat) (s : State) : CtlRes × State :=
  match s.edgeAt operand with
  | none => ((1, 0), s)
  | some e => if arg != 0 then ((1, 0), s) else ((0, e.st.code), s)

/-- RESUME; while HELD is 0 it changes nothing. -/
def resume (operand arg : Nat) (s : State) : CtlRes × State :=
  if operand != 0 || arg != 0 then ((1, 0), s)
  else ((0, 0), feed { s with front := { s.front with held := false } })

/-- The operations that core 0 alone may perform (R424). -/
def coreZeroOp (op : Nat) : Bool := op == 5 || op == 0xC

/-- A control operation by its OP (R424). -/
def ctlOp (op owner operand arg : Nat) (s : State) : CtlRes × State :=
  if op = 1 then qCreate owner operand arg s
  else if op = 2 then qDestroy owner operand arg s
  else if op = 3 then qStop owner operand arg s
  else if op = 4 then qStart owner operand arg s
  else if op = 5 then qBind operand arg s
  else if op = 6 then qQuery operand arg s
  else if op = 7 then bReg owner operand arg s
  else if op = 8 then bUnreg owner operand arg s
  else if op = 9 then eAlloc owner operand arg s
  else if op = 0xA then eFree owner operand arg s
  else if op = 0xB then eQuery operand arg s
  else resume operand arg s

/-- A write of FRONT_CTL: the causes of R1188 in their order, then the operation; its result goes to the requester's
FRONT_RES, and one that ends other than OK sets CTL_REFUSED (R423, R425), its VALUE being 0 (DESIGN CHOICE, log entry 108). -/
def frontCtl (who : Sys2Proof.Req) (op operand : Nat) (s : State) : State :=
  let owner := Req.code who
  let arg := (s.reg (regKey who rFRONT_ARG)).toNat
  let (r, s) :=
    if op = 0 || 0xC < op then ((1, 0), s)
    else if s.sys.mode == .scan || (s.front.held && owner != 0) then ((6, 0), s)
    else if coreZeroOp op && owner != 0 then ((3, 0), s)
    else ctlOp op owner operand arg s
  let s := s.setReg (regKey who rFRONT_RES) (wd (fld 24 r.1 + r.2))
  when (r.1 != 0) (frontEvent 4) s

def execQCreate (who : Sys2Proof.Req) (operand : BitVec 16) (s : State) : Out := .next (when s.live (frontCtl who 1 operand.toNat) s)
def execQDestroy (who : Sys2Proof.Req) (operand : BitVec 16) (s : State) : Out := .next (when s.live (frontCtl who 2 operand.toNat) s)
def execQStop (who : Sys2Proof.Req) (operand : BitVec 16) (s : State) : Out := .next (when s.live (frontCtl who 3 operand.toNat) s)
def execQStart (who : Sys2Proof.Req) (operand : BitVec 16) (s : State) : Out := .next (when s.live (frontCtl who 4 operand.toNat) s)
def execQBind (who : Sys2Proof.Req) (operand : BitVec 16) (s : State) : Out := .next (when s.live (frontCtl who 5 operand.toNat) s)
def execQQuery (who : Sys2Proof.Req) (operand : BitVec 16) (s : State) : Out := .next (when s.live (frontCtl who 6 operand.toNat) s)
def execBReg (who : Sys2Proof.Req) (operand : BitVec 16) (s : State) : Out := .next (when s.live (frontCtl who 7 operand.toNat) s)
def execBUnreg (who : Sys2Proof.Req) (operand : BitVec 16) (s : State) : Out := .next (when s.live (frontCtl who 8 operand.toNat) s)
def execEAlloc (who : Sys2Proof.Req) (operand : BitVec 16) (s : State) : Out := .next (when s.live (frontCtl who 9 operand.toNat) s)
def execEFree (who : Sys2Proof.Req) (operand : BitVec 16) (s : State) : Out := .next (when s.live (frontCtl who 0xA operand.toNat) s)
def execEQuery (who : Sys2Proof.Req) (operand : BitVec 16) (s : State) : Out := .next (when s.live (frontCtl who 0xB operand.toNat) s)
def execResume (who : Sys2Proof.Req) (operand : BitVec 16) (s : State) : Out := .next (when s.live (frontCtl who 0xC operand.toNat) s)

/-! ### Doorbells (R433, R519) -/

/-- A new TAIL is in range (R433). -/
def tailOk (q : Queue) (tail : Nat) : Bool :=
  let d := (tail + 65536 - q.head) % 65536
  d ≤ 2 ^ q.size && (tail + 65536 - q.tail) % 65536 ≤ d

/-- A write of FRONT_DBELL. A queue that was IDLE becomes READY; a queue in another state keeps it (R519). -/
def doorbell (who : Sys2Proof.Req) (v : Word) (s : State) : State :=
  let n := bits v 8 0
  let tail := bits v 31 16
  match s.queue? n with
  | none => frontEvent 2 s
  | some q =>
    if q.owner != Req.code who then frontEvent 2 s
    else if !tailOk q tail then frontEvent 1 s
    else feed (s.putQueue n { q with tail := tail, st := if q.st == .idle && q.head != tail then .ready else q.st })

def execDoorbell (who : Sys2Proof.Req) (value : Word) (s : State) : Out := .next (when s.live (doorbell who value) s)

/-! ### FRONT registers (R464, R484, R485) -/

/-- FRONT_STAT as it reads. -/
def frontStat (s : State) : Word :=
  let mask := fun (p : Cage → Bool) => (allCages.map (fun c => if p (s.cage c) then 2 ^ c.val else 0)).sum
  let m := s.sys.mode
  wd (fld 24 (mask (fun g => g.preload.isSome)) + fld 16 (mask (fun g => g.disp.isSome)) + fld 1 (b2n s.front.held) +
    b2n (runMode m))

/-- FRONT_CAGEc as it reads. -/
def frontCage (c : Fin 8) (s : State) : Word :=
  match (s.cage c).queue with
  | some n => setBits (setBit (s.reg (cageReg c)) 9 true) 8 0 n
  | none => s.reg (cageReg c)

def frontQptr (n : Nat) (s : State) : Word := ((s.queue? n).map (fun q => wd (fld 16 q.tail + q.head))).getD 0
/-- The poll register, TIMEOUTS and LATE_DISCARD of a queue number: those of the queue, or of the last one that Q_DESTROY took
(R503, R529). -/
def queueCounts (n : Nat) (s : State) : Nat × Nat × Nat :=
  ((s.queue? n).map (fun q => (q.poll, q.timeouts, q.lateDiscard))).getD (agetD s.front.past n (0, 0, 0))
def frontDone (m : Nat) (s : State) : Word := wd (fld 16 (queueCounts (2 * m + 1) s).1 + (queueCounts (2 * m) s).1)
def frontQcnt (n : Nat) (s : State) : Word := wd (fld 16 (queueCounts n s).2.2 + (queueCounts n s).2.1)

/-- A write of FRONT_CAGEc by core 0: SLICE within its limits, and CRIT_ONLY kept while a queue is bound to the cage or is to be
bound to it (R464). -/
def cageWrite (c : Fin 8) (v : Word) (s : State) : State :=
  let crit := s.critOnly c
  let bound := s.front.queues.any (fun e => e.2.cage == c.val || e.2.bindTo == some c.val)
  let keep := bit v 31 != crit && bound
  let w := setBit (wd (fld 16 (clamp 5 500 (bits v 24 16)))) 31 (if keep then crit else bit v 31)
  when keep (frontEvent 4) (s.setReg (cageReg c) w)

/-- A write of a FRONT register that does more than store its word. -/
def frontWrite (who : Sys2Proof.Req) (a : Nat) (v : Word) (s : State) : Option State :=
  if a = rFRONT_CTL then some (frontCtl who (bits v 31 28) (bits v 15 0) s)
  else if a = rFRONT_DBELL then some (doorbell who v s)
  else if rFRONT_CAGE ≤ a && a < rFRONT_CAGE + 32 then
    some (when (Writers.core0.permits who) (cageWrite (cageNo ((a - rFRONT_CAGE) / 4)) v) s)
  else if a = rFRONT_HANG then
    some (when (Writers.core0.permits who) (fun s => s.setReg a (wd (clamp 10 250 (bits v 7 0)))) s)
  else none

end Sys2Proof.Machine
end

