-- ==== Sys2Proof/Machine/Hash.lean ====
section
/-! DEFINITION. SHA-256 (FIPS 180-4) and HMAC-SHA-256, which R814, R842 and R844 name. -/
namespace Sys2Proof.Machine

/-- The greatest `r` below `2^k` above `r₀` with `r^e ≤ x`, found bit by bit from the top. -/
def rootFrom (e x : Nat) : Nat → Nat → Nat
  | 0, r => r
  | k + 1, r => rootFrom e x k (if (r + 2 ^ k) ^ e ≤ x then r + 2 ^ k else r)

/-- The first 32 bits of the fractional part of the `e`-th root of `p` (FIPS 180-4 4.2.2 and 5.3.3). -/
def rootFraction (e p : Nat) : Word := wd (rootFrom e (p <<< (32 * e)) 38 0)

/-- The first 64 primes. -/
def shaPrimes : List Nat :=
  (List.range 312).filter (fun n => 2 ≤ n && (List.range n).all (fun d => d < 2 || n % d != 0))

/-- The 64 round constants: the cube roots of the first 64 primes. -/
def shaConstants : List Word := shaPrimes.map (rootFraction 3)

/-- The two halves `abcd` and `efgh` of the working variables, each newest first: a round puts one word in
front of each and its oldest word falls out at the end. -/
abbrev ShaHalves := List Word × List Word

/-- The initial hash value: the square roots of the first 8 primes. -/
def shaStart : ShaHalves :=
  let roots := (shaPrimes.take 8).map (rootFraction 2)
  (roots.take 4, roots.drop 4)

/-- The exclusive or of a word turned right by each distance of the list. -/
def turns (x : Word) (ds : List Nat) : Word := ds.foldl (fun acc d => acc ^^^ x.rotateRight d) 0

/-- The next word of the message schedule, from the words before it, newest first. -/
def shaExpand (before : List Word) : Word :=
  let at' := fun n => before.getD (n - 1) 0
  (turns (at' 2) [17, 19] ^^^ (at' 2 >>> 10)) + at' 7 + (turns (at' 15) [7, 18] ^^^ (at' 15 >>> 3)) + at' 16

/-- The schedule of 64 words from the block's 16, oldest first. -/
def shaWords (block : Bytes) : List Word :=
  let first := ((chunks 4 16 block).map (fun b => wd (beNat b))).reverse
  ((List.range 48).foldl (fun ws _ => shaExpand ws :: ws) first).reverse

/-- One round with its constant and schedule word already added up in `kw`. -/
def shaTurn (s : ShaHalves) (kw : Word) : ShaHalves :=
  let a := fun n => s.1.getD n 0
  let e := fun n => s.2.getD n 0
  let choice := (e 0 &&& e 1) ||| (~~~(e 0) &&& e 2)
  let majority := (a 0 &&& (a 1 ||| a 2)) ||| (a 1 &&& a 2)
  let mixed := kw + e 3 + choice + turns (e 0) [6, 11, 25]
  ((mixed + majority + turns (a 0) [2, 13, 22]) :: s.1.take 3, (a 3 + mixed) :: s.2.take 3)

/-- One block taken into the hash value. -/
def shaBlock (h : ShaHalves) (block : Bytes) : ShaHalves :=
  let out := (List.zipWith (· + ·) shaConstants (shaWords block)).foldl shaTurn h
  (List.zipWith (· + ·) h.1 out.1, List.zipWith (· + ·) h.2 out.2)

/-- The padding of FIPS 180-4 5.1.1. -/
def shaPad (msg : Bytes) : Bytes :=
  msg ++ (0x80 : Byte) :: List.replicate ((119 - msg.length % 64) % 64) 0 ++ beBytes 8 (8 * msg.length)

def sha256 (msg : Bytes) : Bytes :=
  let padded := shaPad msg
  let out := (chunks 64 (padded.length / 64) padded).foldl shaBlock shaStart
  (out.1 ++ out.2).flatMap (fun w => beBytes 4 w.toNat)

/-- HMAC-SHA-256. -/
def hmac (key msg : Bytes) : Bytes :=
  let k := slice (if key.length > 64 then sha256 key else key) 0 64
  sha256 (k.map (fun b => b ^^^ 0x5C) ++ sha256 (k.map (fun b => b ^^^ 0x36) ++ msg))

end Sys2Proof.Machine
end

