-- ==== Sys2Proof/Machine/P256.lean ====
section
/-! DEFINITION. The curve P-256 and what R842 does with it: ECDSA with SHA-256 (FIPS 186-5) and ECDH. -/
namespace Sys2Proof.Machine

def p256P : Nat := 0xffffffff00000001000000000000000000000000ffffffffffffffffffffffff
def p256B : Nat := 0x5ac635d8aa3a93e7b3ebbd55769886bc651d06b0cc53b0f63bce3c3e27d2604b
def p256N : Nat := 0xffffffff00000000ffffffffffffffffbce6faada7179e84f3b9cac2fc632551
def p256G : Nat × Nat :=
  (0x6b17d1f2e12c4247f8bce6e563a440f277037d812deb33a0f4a13945d898c296,
   0x4fe342e2fe1a7f9b8ee7eb4a7c0f9e162bce33576b315ececbb6406837bf51f5)

/-- Subtraction of residues. -/
def subMod (m a b : Nat) : Nat := (a + (m - b % m)) % m

/-- Powers of residues, over the bits of the exponent from the highest of `n` down. -/
def powMod (m b e : Nat) : Nat → Nat
  | 0 => 1 % m
  | n + 1 => let r := powMod m b (e / 2) n; let r := r * r % m; if e % 2 = 1 then r * b % m else r

/-- The inverse of a residue of a prime of 256 bits. -/
def invMod (m a : Nat) : Nat := powMod m (a % m) (m - 2) 256

/-- A point in Jacobian coordinates; Z is 0 at infinity. -/
abbrev JPoint := Nat × Nat × Nat

def jInf : JPoint := (1, 1, 0)

def jDouble (q : JPoint) : JPoint :=
  let (x, y, z) := q
  let p := p256P
  if z = 0 || y = 0 then jInf
  else
    let zz := z * z % p
    let m := 3 * subMod p x zz % p * ((x + zz) % p) % p
    let yy := y * y % p
    let s := 4 * x % p * yy % p
    let x3 := subMod p (m * m % p) (2 * s)
    (x3, subMod p (m * subMod p s x3 % p) (8 * (yy * yy % p)), 2 * y % p * z % p)

def jAdd (a b : JPoint) : JPoint :=
  let p := p256P
  let (x1, y1, z1) := a
  let (x2, y2, z2) := b
  if z1 = 0 then b
  else if z2 = 0 then a
  else
    let z1z1 := z1 * z1 % p
    let z2z2 := z2 * z2 % p
    let u1 := x1 * z2z2 % p
    let u2 := x2 * z1z1 % p
    let s1 := y1 * z2 % p * z2z2 % p
    let s2 := y2 * z1 % p * z1z1 % p
    if u1 = u2 then (if s1 = s2 then jDouble a else jInf)
    else
      let h := subMod p u2 u1
      let r := subMod p s2 s1
      let hh := h * h % p
      let hhh := h * hh % p
      let v := u1 * hh % p
      let x3 := subMod p (subMod p (r * r % p) hhh) (2 * v)
      (x3, subMod p (r * subMod p v x3 % p) (s1 * hhh % p), h * z1 % p * z2 % p)

/-- k times a point, over the bits of k. -/
def jMul (q : JPoint) (k : Nat) : Nat → JPoint
  | 0 => jInf
  | n + 1 => let r := jDouble (jMul q (k / 2) n); if k % 2 = 1 then jAdd r q else r

/-- The affine coordinates of a point, none at infinity. -/
def jAffine (q : JPoint) : Option (Nat × Nat) :=
  let (x, y, z) := q
  if z = 0 then none
  else
    let i := invMod p256P z
    let ii := i * i % p256P
    some (x * ii % p256P, y * ii % p256P * i % p256P)

/-- k times an affine point. -/
def pMul (k : Nat) (q : Nat × Nat) : Option (Nat × Nat) := jAffine (jMul (q.1, q.2, 1) k 256)

/-- A point lies on the curve (SP 800-186). -/
def onCurve (q : Nat × Nat) : Bool :=
  q.1 < p256P && q.2 < p256P && (q.2 * q.2 % p256P == (q.1 * q.1 % p256P * q.1 + (p256P - 3) * q.1 + p256B) % p256P)

/-- A public key of 64 bytes: X then Y (R842). -/
def pointOf (bs : Bytes) : Nat × Nat := (beNat (bs.take 32), beNat ((bs.drop 32).take 32))

/-- A public key is a valid point. -/
def pubOk (bs : Bytes) : Bool := onCurve (pointOf bs)

def pointBytes (q : Nat × Nat) : Bytes := beBytes 32 q.1 ++ beBytes 32 q.2

/-- The public key of a scalar. -/
def pubOf (d : Nat) : Bytes := ((pMul d p256G).map pointBytes).getD (List.replicate 64 0)

/-- ECDSA over a digest with nonce k: r then s, none when either is 0. -/
def ecdsaSign (d k : Nat) (digest : Bytes) : Option Bytes :=
  let r := (((pMul k p256G).map Prod.fst).getD 0) % p256N
  let z := beNat digest
  let s := invMod p256N k * ((z + r * d) % p256N) % p256N
  if r = 0 || s = 0 then none else some (beBytes 32 r ++ beBytes 32 s)

/-- ECDSA verification over a digest. -/
def ecdsaVerify (pub digest sig : Bytes) : Bool :=
  let r := beNat (sig.take 32)
  let s := beNat ((sig.drop 32).take 32)
  if !pubOk pub || r = 0 || p256N ≤ r || s = 0 || p256N ≤ s then false
  else
    let w := invMod p256N s
    let q := pointOf pub
    let a := jMul (p256G.1, p256G.2, 1) (beNat digest * w % p256N) 256
    let b := jMul (q.1, q.2, 1) (r * w % p256N) 256
    match jAffine (jAdd a b) with
    | none => false
    | some v => v.1 % p256N == r

/-- ECDH: the X of the shared point. -/
def ecdh (d : Nat) (pub : Bytes) : Option Bytes :=
  if pubOk pub then (pMul d (pointOf pub)).map (fun v => beBytes 32 v.1) else none

end Sys2Proof.Machine
end

