-- ==== Sys2Proof/Machine/Kiln.lean ====
section
/-! DEFINITION. The Kiln: how its runtime serves a command, the key slots' registers, and the CIPHER, PKA and HASH
operations over keys (16, 17). Each operation is one step, from the CMD word of its engine to its DONE word. -/
namespace Sys2Proof.Machine

/-! ### Serving a command (R800, R825 to R827) -/

/-- What a part of an operation answers: a value, the status and reason that end the command, or that it must wait. -/
inductive KRes (α : Type) where
  | ok (a : α) (s : State)
  | fail (status reason : Nat) (s : State)
  | wait

/-- The next part of an operation. -/
def KRes.andThen {α β : Type} (r : KRes α) (f : α → State → KRes β) : KRes β :=
  match r with
  | .ok a s => f a s
  | .fail st re s => .fail st re s
  | .wait => .wait

/-- How an operation goes on when all its parts are done. -/
inductive KEnd where
  /-- the DONE word's status, reason and value -/
  | done (status reason value : Nat)
  /-- ledger writes first -/
  | job (j : Job)
  /-- its DONE word comes with a later command -/
  | later

/-- A condition that ends the command when it does not hold. -/
def kcheck (p : Bool) (status reason : Nat) (s : State) : KRes Unit := if p then .ok () s else .fail status reason s

/-- The DONE word of a Kiln engine (R827). -/
def doneW (status reason value : Nat) : Word := wd (fld 24 reason + fld 8 (value % 65536) + status)

/-- A word on the DONE port of an engine that Mupor's own firmware serves. Under a flush it is discarded, an OK counts as a late
success, and the firmware, which then receives on the CMD port again, ends the flush (R212, R512; log entry 10). -/
def firmwareDone (e : Nat) (w : Word) (s : State) : State :=
  if s.flushed e then endFlush e (when (bits w 7 0 == 0) (lateSuccess e) s) else portSend (doneKey e) [(w, false)] s

/-- A DONE word sent, with the count of completed operations of PKA and HASH. -/
def kilnSend (e : Nat) (w : Word) (s : State) : State :=
  let s := when (e = 3) (fun s => s.incFld rPKA_STAT 31 16) s
  let s := when (e = 4) (fun s => s.incFld rHASH_STAT 31 16) s
  firmwareDone e w s

def kilnDone (e status reason value : Nat) (s : State) : State := kilnSend e (doneW status reason value) s

/-- The runtime serves commands: it has been loaded, and no operation of it waits for the ledger (R805). -/
def State.kilnUp (s : State) : Bool := s.up && s.kiln.ready && s.creds.jobs.isEmpty

/-- The image of the command at the head of an engine's CMD port (R204, R474). -/
def cmdImage (e : Nat) (s : State) : Option Bytes :=
  match s.cHead (cmdKey e) with
  | none => none
  | some w =>
    match readSram 0x1F w.toNat 64 s with
    | (.ok bs, _) => some bs
    | _ => none

/-- The read of that image is answered with an error: the CMD word is taken, and its command ends with ENGINE_ERROR (R305). -/
def imageLost (e : Nat) (s : State) : Option State :=
  match s.cHead (cmdKey e) with
  | none => none
  | some w =>
    match readSram 0x1F w.toNat 64 s with
    | (.ok _, _) => none
    | (_, t) => some (cDrop (cmdKey e) t)

def imgOp (img : Bytes) : Nat := leAt img 1 1
def imgOwner (img : Bytes) : Nat := leAt img 0xF 1
def imgKey (img : Bytes) : Nat := leAt img 0x28 2
def imgParam (img : Bytes) (off len : Nat) : Nat := leAt img (0x2C + off) len

/-- PARAM bytes other than these hold 0. -/
def paramZero (img : Bytes) (named : List Nat) : Bool :=
  (List.range 20).all (fun i => named.contains i || imgParam img i 1 = 0)

/-- A relocated buffer reference: address, context, ACCESS and LEN (R446). -/
structure BufRef where
  addr : Nat
  ctx : Nat
  access : Nat
  len : Nat

def imgBuf (img : Bytes) (k : Nat) : BufRef :=
  let o := 0x10 + 12 * k
  ⟨leAt img o 6, leAt img (o + 6) 1, leAt img (o + 7) 1, leAt img (o + 8) 4⟩

/-- A buffer is long enough and open to reads (R447, reason 0x02). -/
def needRead (img : Bytes) (k n : Nat) (s : State) : KRes Unit :=
  let b := imgBuf img k
  kcheck (n = 0 || (n ≤ b.len && b.access % 2 = 1)) 5 2 s

def needWrite (img : Bytes) (k n : Nat) (s : State) : KRes Unit :=
  let b := imgBuf img k
  kcheck (n = 0 || (n ≤ b.len && b.access / 2 % 2 = 1)) 5 2 s

/-- The answer of a buffer access (R305, R347, reason 0x08). -/
def ansRes (r : Ans × State) : KRes Bytes :=
  match r with
  | (.ok bs, s) => .ok bs s
  | (.err, s) => .fail 5 8 s
  | (.torn, s) => .fail 0xF 0 s
  | (.fault, s) => .fail 3 0 s
  | (.stall, _) => .wait

/-- Bytes of code flash: a read of the booking store or of an image. -/
def kflash (a n : Nat) (s : State) : KRes Bytes := if n = 0 then .ok [] s else ansRes (readFlash a n s)

/-- Bytes read from a buffer at an offset. -/
def kread (e : Nat) (img : Bytes) (k off n : Nat) (s : State) : KRes Bytes :=
  if n = 0 then .ok [] s
  else let b := imgBuf img k; ansRes (devRead e b.ctx (b.addr + off) n s)

/-- Bytes written to a buffer from its start. -/
def kwrite (e : Nat) (img : Bytes) (k : Nat) (bs : Bytes) (s : State) : KRes Bytes :=
  if bs.isEmpty then .ok [] s
  else let b := imgBuf img k; ansRes (devWrite e b.ctx b.addr bs s)

/-- A slot that a handle names for this command's owner (R826). -/
def kslot (img : Bytes) (h : Nat) (s : State) : KRes (Nat × Slot) :=
  let n := h % 64
  let x := s.slot n
  if x.key.isSome && h / 64 = x.gen && x.owner = imgOwner img then .ok (n, x) s else .fail 4 0 s

/-- An operation that takes no key: a key that is named must still be one of its owner's (R826, reason 0x01). -/
def noKey (img : Bytes) (s : State) : KRes Unit :=
  if imgKey img = 0 then .ok () s
  else (kslot img (imgKey img) s).andThen (fun _ s => .fail 5 1 s)

/-- USE bit b of a key (R811, reason 0x05). -/
def kuse (x : Slot) (b : Nat) (s : State) : KRes Unit := kcheck (x.use.testBit b) 5 5 s

/-- The bytes of a TYPE (R810). -/
def typeLen (t : Nat) : Nat := if t = 0 then 16 else if t = 1 then 24 else 32

/-- A new key in the lowest-numbered empty slot for requesters; its handle (R809, R834, reason 0x03). -/
def newKey (img key : Bytes) (type use : Nat) (s : State) : KRes KEnd :=
  match emptySlot s 32 64 with
  | none => .fail 5 3 s
  | some n =>
    let s := placeKey n key (imgOwner img) type use s
    .ok (.done 0 0 (handleOf s n)) s

/-- Bytes from the DRBG. -/
def kdraw (n : Nat) (s : State) : KRes Bytes :=
  match drawBytes n s with
  | none => .wait
  | some (bs, s) => .ok bs s

/-- A scalar or nonce from 1 to n − 1 by rejection (FIPS 186-5 A.2.2 and A.3.2; log entry 27). -/
def kscalar : Nat → State → KRes Nat
  | 0, _ => .wait
  | fuel + 1, s =>
    (kdraw 32 s).andThen (fun bs s =>
      let c := beNat bs
      if c ≤ p256N - 2 then .ok (c + 1) s else kscalar fuel s)

/-- The head command of an engine, where it has this OP; an OP outside the engine's table is taken by its first
operation, which ends it with reason 0x01. -/
def kilnCmd (e op : Nat) (table : List Nat) (s : State) : Option (Bytes × State) :=
  (cmdImage e s).bind (fun img =>
    if imgOp img = op || (table.head? = some op && !table.contains (imgOp img)) then some (img, cDrop (cmdKey e) s) else none)

def cipherOps : List Nat :=
  [1, 2, 3, 4, 5, 6, 7, 8, 9, 0xA, 0xB, 0x20, 0x21, 0x22] ++ (List.range 14).map (fun i => 0x30 + i) ++
  (List.range 7).map (fun i => 0x40 + i) ++ [0x50, 0x51, 0x52]

/-- The operations an engine's table names. -/
def opsOf (e : Nat) : List Nat :=
  if e = 2 then cipherOps else if e = 3 then [1, 2, 3, 4, 5, 6] else if e = 4 then [1, 2, 3] else [1, 2, 3]

/-! ### Contexts (R835, R836) -/

def State.ctx? (s : State) (n : Nat) : Option Ctx := aget? s.kiln.ctxs n

def State.setCtx (s : State) (n : Nat) (c : Ctx) : State := { s with kiln := { s.kiln with ctxs := ains s.kiln.ctxs n c } }

def clearCtx (n : Nat) (s : State) : State := { s with kiln := { s.kiln with ctxs := adel s.kiln.ctxs n } }

/-- Every context loaded from a slot cleared, as ZAP does it (R233, R836). -/
def clearCtxsOf (slot : Nat) (s : State) : State :=
  { s with kiln := { s.kiln with ctxs := s.kiln.ctxs.filter (fun e => e.2.slot != slot) } }

/-- The value of CIPHER_STAT. -/
def cipherStat (s : State) : Word :=
  wd (fld 16 (s.kiln.ctxs.map (fun e => 2 ^ e.1)).sum + ((List.range 64).filter (fun n => (s.slot n).key.isSome)).length)

/-! ### KATTRn (R811, R812) -/

def kattr (n : Nat) (s : State) : Word :=
  let x := s.slot n
  wd (fld 31 (b2n x.key.isSome) + fld 30 (b2n (fixedSlot n)) + fld 20 x.gen + fld 16 x.owner + fld 12 x.type + x.use)

def kattrWrite (n : Nat) (v : Word) (s : State) : State :=
  let x := s.slot n
  if x.key.isSome || fixedSlot n then s else s.setSlot n { x with owner := bits v 19 16, use := bits v 9 0 }

def execKattrWrite (slot : Fin 64) (value : Word) (s : State) : Out := .next (when s.live (kattrWrite slot.val value) s)

/-! ### Fixed slots (R801, R814) -/

/-- The start of the Kiln: private SRAM and contexts cleared, the slots emptied with the next generation (R801). -/
def kilnClear (s : State) : State :=
  let s := { s with mem := { s.mem with
    cells := s.mem.cells.filter (fun e => !inKilnSram e.1)
    badGranules := s.mem.badGranules.filter (fun g => !inKilnSram g)
    flips := s.mem.flips.filter (fun g => !inKilnSram g) } }
  let s := forEach ((List.range 64).filter (fun n => !fixedSlot n)) zapSlot s
  let s := forEach [0, 1, 2] (fun n s => s.setSlot n Slot.empty) s
  { s with kiln := { s.kiln with ctxs := [], saveNo := 0, saves := [], kin := [], kout := [], ready := false } }

def asciiIdk0 : Bytes := [0x49, 0x44, 0x4B, 0x30]
def asciiLwk0 : Bytes := [0x4C, 0x57, 0x4B, 0x30]

def devSeedBytes (s : State) : Bytes := (s.fuses.devSeed.value 32 Config.deviceSeed).getD (List.replicate 32 0)

/-- The keys of slots 0 and 1 (R814). -/
def fillFixed (s : State) : State :=
  let seed := devSeedBytes s
  let d := beNat (hmac seed asciiIdk0) % (p256N - 1) + 1
  placeKey 1 (hmac seed asciiLwk0) 5 2 0x18 (placeKey 0 (beBytes 32 d) 5 3 0x40 s)

/-- Slot 2 filled, as soon as the DRBG of the run delivers words (R814). -/
def fillBootKey (s : State) : State :=
  if (s.slot 2).key.isSome || (s.slot 0).key.isNone then s
  else match drawBytes 32 s with
    | none => s
    | some (k, s) => placeKey 2 k 5 2 0 s

def execGenerate (s : State) : Out := .next (when s.entUp (fun s => fillBootKey (fillBuffers s)) s)

/-! ### CIPHER over data (R828 to R836) -/

structure DataParam where
  mode : Nat
  ctx : Nat
  taglen : Nat
  nlen : Nat
  aadlen : Nat
  more : Bool

def dataParam (img : Bytes) : DataParam :=
  ⟨imgParam img 0 1, imgParam img 1 1, imgParam img 2 1, imgParam img 3 1, imgParam img 4 2, imgParam img 6 1 = 1⟩

def tagOk (mode t : Nat) : Bool :=
  match mode with
  | 2 => 4 ≤ t && t ≤ 16 && t % 2 = 0
  | 3 => t = 4 || t = 8 || (12 ≤ t && t ≤ 16)
  | 4 => 4 ≤ t && t ≤ 16
  | _ => t = 0

def nlenOk (mode n : Nat) : Bool :=
  match mode with
  | 0 => n = 16 | 1 => n = 16 | 2 => 7 ≤ n && n ≤ 13 | 3 => n = 12 | _ => n = 0

/-- The lengths of data that a mode takes (R831, R835). -/
def dataLenOk (p : DataParam) (enc : Bool) (n : Nat) : Bool :=
  (!p.more || n % 16 = 0) &&
  match p.mode with
  | 0 => n % 16 = 0
  | 2 => n < 2 ^ (8 * (15 - p.nlen))
  | 5 => n % 8 = 0 && (if enc then 16 else 24) ≤ n
  | _ => true

/-- The fields of PARAM lie in the ranges of R829. -/
def dataParamOk (img : Bytes) (p : DataParam) : Bool :=
  paramZero img [0, 1, 2, 3, 4, 5, 6] && p.mode ≤ 5 && (p.ctx ≤ 7 || p.ctx = 0xFF) && imgParam img 6 1 ≤ 1 &&
  tagOk p.mode p.taglen && nlenOk p.mode p.nlen && (p.aadlen = 0 || p.mode = 2 || p.mode = 3) &&
  (!p.more || (p.ctx ≤ 7 && (p.mode = 0 || p.mode = 1 || p.mode = 3 || p.mode = 4)))

/-- The bytes of tag at the end of BUF0. -/
def tagIn (p : DataParam) (enc : Bool) : Nat := if !enc && !p.more && (p.mode = 2 || p.mode = 3) then p.taglen else 0

/-- One whole operation: its output, or none where the tag or integrity check fails. -/
def oneShot (p : DataParam) (enc : Bool) (key iv aad data tag : Bytes) : Option Bytes :=
  match p.mode, enc with
  | 0, true => some (cbcEnc key iv data).1
  | 0, false => some (cbcDec key iv data).1
  | 1, _ => some (ctrWith ctrNext key iv data).1
  | 2, true => some (ccmCrypt key iv data ++ ccmTag key iv aad data p.taglen)
  | 2, false =>
    let plain := ccmCrypt key iv data
    if ccmTag key iv aad plain p.taglen = tag then some plain else none
  | 3, true => let c := gcmCrypt key iv data; some (c ++ gcmFull key iv aad c p.taglen)
  | 3, false => if gcmFull key iv aad data p.taglen = tag then some (gcmCrypt key iv data) else none
  | 5, true => some (kwWrap key data)
  | 5, false => kwUnwrap key data
  | _, _ => some ((cmac key data).take p.taglen)

/-- The bytes of BUF1 that an operation writes. -/
def outLen (p : DataParam) (enc : Bool) (n : Nat) : Nat :=
  match p.mode with
  | 2 => if enc then n + p.taglen else n
  | 3 => if enc && !p.more then n + p.taglen else n
  | 4 => if enc && !p.more then p.taglen else 0
  | 5 => if enc then n + 8 else n - 8
  | _ => n

/-- The key of a data operation: its USE is MAC for CMAC, ENC or DEC otherwise, and a P-256 scalar is no cipher key (log
entry 28). -/
def dataKey (p : DataParam) (enc : Bool) (x : Nat × Slot) (s : State) : KRes (Nat × Bytes) :=
  (kuse x.2 (if p.mode = 4 then 2 else if enc then 0 else 1) s).andThen (fun _ s =>
  (kcheck (x.2.type != 3) 5 5 s).andThen (fun _ s => .ok (x.1, x.2.key.getD []) s))

/-- The end of an operation with its output; a failed check leaves zeros over what it wrote (R832). -/
def dataEnd (e : Nat) (img : Bytes) (n : Nat) (out : Option Bytes) (s : State) : KRes KEnd :=
  match out with
  | some bs => (kwrite e img 1 bs s).andThen (fun _ s => .ok (.done 0 0 0) s)
  | none => (kwrite e img 1 (List.replicate n 0) s).andThen (fun _ s => .fail 0xC 0x10 s)

/-- CMAC verification: BUF1 holds the expected MAC. -/
def macCheck (e : Nat) (img : Bytes) (taglen : Nat) (mac : Bytes) (s : State) : KRes KEnd :=
  (kread e img 1 0 taglen s).andThen (fun want s =>
    if want = mac.take taglen then .ok (.done 0 0 0) s else .fail 0xC 0x10 s)

/-- The buffers of a data operation. -/
def dataBuffers (img : Bytes) (p : DataParam) (enc : Bool) (n : Nat) (s : State) : KRes Unit :=
  (needRead img 0 (imgBuf img 0).len s).andThen (fun _ s =>
    if p.mode = 4 && !enc then (if p.more then .ok () s else needRead img 1 p.taglen s)
    else needWrite img 1 (outLen p enc n) s)

/-- The state of a context over more data, and the output. -/
def Ctx.absorb (c : Ctx) (data : Bytes) : Ctx × Bytes :=
  match c.mode with
  | 0 =>
    let r := if c.enc then cbcEnc c.key c.chain data else cbcDec c.key c.chain data
    ({ c with chain := r.2, len := c.len + data.length }, r.1)
  | 1 =>
    let r := ctrWith ctrNext c.key c.chain data
    ({ c with chain := r.2, len := c.len + data.length }, r.1)
  | 3 =>
    let r := ctrWith ctr32Next c.key c.chain data
    let cipher := if c.enc then r.1 else data
    ({ c with chain := r.2, hash := ghashFrom (gcmH c.key) c.hash (padBlock cipher), len := c.len + data.length }, r.1)
  | _ =>
    let all := c.part ++ data
    let k := lastAt all.length
    ({ c with chain := cbcMac c.key c.chain (all.take k), part := all.drop k, len := c.len + data.length }, [])

/-- The tag of a GCM context. -/
def Ctx.gcm (c : Ctx) : Bytes := gcmTag c.key c.iv c.hash c.aadlen c.len c.taglen

/-- The MAC of a CMAC context. -/
def Ctx.mac (c : Ctx) : Bytes :=
  (aesEncrypt c.key (xorBytes c.chain (cmacLast c.key c.part))).take c.taglen

def Ctx.start (owner mode : Nat) (enc : Bool) (slot : Nat) (key iv aad : Bytes) (taglen : Nat) : Ctx :=
  { owner := owner, mode := mode, enc := enc, slot := slot, key := key, iv := iv, taglen := taglen, aadlen := aad.length
    len := 0, chain := if mode = 3 then iv ++ [0, 0, 0, 2] else if mode = 4 then List.replicate 16 0 else iv
    part := [], hash := if mode = 3 then gcmAad key aad else 0 }

/-! ### Countermeasures (R839, R840) -/

/-- The largest dummy count, and whether the byte positions are shuffled: CIPHER_CFG has its say in FACTORY alone. -/
def dummyMax (s : State) : Nat := if s.sys.mode == .factory then s.fld rCIPHER_CFG 2 0 else 7
def shuffles (s : State) : Bool := !(s.sys.mode == .factory) || s.rbit rCIPHER_CFG 8

/-- An order of the positions in `pool`, drawn from bytes. -/
def drawOrder : List Nat → Bytes → List Nat
  | pool, [] => pool
  | pool, b :: bs =>
    let k := b.toNat % max 1 pool.length
    pool.getD k 0 :: drawOrder (pool.eraseIdx k) bs

/-- How one block of n real rounds runs. The words that the DRBG gives for it are free, and how many it takes for them is not
stated (log entry 102). -/
def drawAesRun (n : Nat) (s : State) : AesRun × State :=
  let (d, s) := s.freshWord
  let k := d.toNat % (dummyMax s + 1)
  let (ps, s) := s.freshBytes k
  let places := ps.map (fun b => b.toNat % (n + 1))
  let (os, s) := s.freshBytes (15 * (n + k))
  let orders := (chunks 15 (n + k) os).map (fun b => if shuffles s then drawOrder (List.range 16) b else List.range 16)
  (⟨places, orders⟩, s)

/-- The AES blocks of a command run under R839; the last one is held. Neither dummy rounds nor the order change a result. -/
def aesBlocks (key : Bytes) (s : State) : State :=
  let r := drawAesRun (key.length / 4 + 6) s
  { r.2 with kiln := { r.2.kiln with aesRun := some r.1 } }

/-- The data of a first command, with its IV, AAD and tag. -/
def dataRun (img : Bytes) (p : DataParam) (enc : Bool) (slot : Nat) (key : Bytes) (n : Nat) (bs : Bytes) (s : State) :
    KRes KEnd :=
  let iv := bs.take p.nlen
  let aad := (bs.drop p.nlen).take p.aadlen
  let data := (bs.drop (p.nlen + p.aadlen)).take n
  let tag := bs.drop (p.nlen + p.aadlen + n)
  if p.more then
    let r := (Ctx.start (imgOwner img) p.mode enc slot key iv aad p.taglen).absorb data
    (kwrite 2 img 1 r.2 s).andThen (fun _ s => .ok (.done 0 0 0) (s.setCtx p.ctx r.1))
  else if p.mode = 4 && !enc then macCheck 2 img p.taglen (cmac key data) s
  else dataEnd 2 img (outLen p enc n) (oneShot p enc key iv aad data tag) s

/-- ENCRYPT and DECRYPT (R828, R829, R835). -/
def cipherData (enc : Bool) (img : Bytes) (s : State) : KRes KEnd :=
  let p := dataParam img
  let used := p.nlen + p.aadlen + tagIn p enc
  let len := (imgBuf img 0).len
  (kslot img (imgKey img) s).andThen (fun x s =>
  (kcheck (dataParamOk img p && used ≤ len && dataLenOk p enc (len - used)) 5 1 s).andThen (fun _ s =>
  (dataBuffers img p enc (len - used) s).andThen (fun _ s =>
  (kcheck (!p.more || (s.ctx? p.ctx).isNone) 5 4 s).andThen (fun _ s =>
  (dataKey p enc x s).andThen (fun k s =>
  (kread 2 img 0 0 len s).andThen (fun bs s => dataRun img p enc k.1 k.2 (len - used) bs (aesBlocks k.2 s)))))))

/-- PARAM of UPDATE, SAVE, RESTORE and FREE: they look at CTX, UPDATE also at MODE and MORE (log entry 28). -/
def ctxParamOk (img : Bytes) : Bool :=
  paramZero img [0, 1, 2, 3, 4, 5, 6] && imgParam img 0 1 ≤ 5 && imgParam img 1 1 ≤ 7 && imgParam img 6 1 ≤ 1

/-- The open context that a command names (reason 0x04). -/
def ownCtx (img : Bytes) (s : State) : KRes Ctx :=
  match s.ctx? (imgParam img 1 1) with
  | some c => if c.owner = imgOwner img then .ok c s else .fail 5 4 s
  | none => .fail 5 4 s

/-- A command that uses a context and does not end OK clears it (R836). -/
def clearOnFail (img : Bytes) (r : KRes KEnd) : KRes KEnd :=
  match r with
  | .fail st re s =>
    .fail st re (match s.ctx? (imgParam img 1 1) with
      | some c => if c.owner = imgOwner img then clearCtx (imgParam img 1 1) s else s
      | none => s)
  | r => r

/-- The last command of a context. -/
def updateEnd (img : Bytes) (c : Ctx) (n : Nat) (bs : Bytes) (s : State) : KRes KEnd :=
  let r := c.absorb (bs.take n)
  let s := clearCtx (imgParam img 1 1) s
  match c.mode, c.enc with
  | 3, true => dataEnd 2 img n (some (r.2 ++ r.1.gcm)) s
  | 3, false => dataEnd 2 img n (if r.1.gcm = bs.drop n then some r.2 else none) s
  | 4, true => dataEnd 2 img n (some r.1.mac) s
  | 4, false => macCheck 2 img c.taglen r.1.mac s
  | _, _ => dataEnd 2 img n (some r.2) s

/-- The parameters of a context's operation, as its first command gave them. -/
def Ctx.param (c : Ctx) (img : Bytes) : DataParam :=
  ⟨c.mode, imgParam img 1 1, c.taglen, 0, 0, imgParam img 6 1 = 1⟩

/-- UPDATE (R835). -/
def cipherUpdate (img : Bytes) (s : State) : KRes KEnd :=
  let len := (imgBuf img 0).len
  clearOnFail img ((noKey img s).andThen (fun _ s =>
  (kcheck (ctxParamOk img) 5 1 s).andThen (fun _ s =>
  (ownCtx img s).andThen (fun c s =>
    let p := c.param img
    let tag := tagIn p c.enc
    (kcheck (imgParam img 0 1 = c.mode) 5 4 s).andThen (fun _ s =>
    (kcheck (tag ≤ len && dataLenOk p c.enc (len - tag)) 5 1 s).andThen (fun _ s =>
    (dataBuffers img p c.enc (len - tag) s).andThen (fun _ s =>
    (kread 2 img 0 0 len s).andThen (fun bs s =>
      let s := aesBlocks c.key s
      if p.more then
        let r := c.absorb bs
        (kwrite 2 img 1 r.2 s).andThen (fun _ s => .ok (.done 0 0 0) (s.setCtx p.ctx r.1))
      else updateEnd img c (len - tag) bs s)))))))) 

/-! ### SAVE, RESTORE, FREE (R836 to R838) -/

def bootKey (s : State) : Bytes := (s.slot 2).key.getD []

/-- Bytes 0x00 to 0x0F of a blob. -/
def blobHead (ctx : Nat) (c : Ctx) (no : Nat) : Bytes :=
  leBytes 4 0x0960C7C5 ++ leBytes 1 ctx ++ leBytes 1 c.mode ++ leBytes 1 c.owner ++ [0] ++ leBytes 8 no

def blobNonce (no : Nat) : Bytes := List.replicate 4 0 ++ beBytes 8 no

/-- SAVE: the layout of the 112 encrypted bytes is not given, so their plain text is free (log entries 4 and 29). -/
def cipherSave (img : Bytes) (s : State) : KRes KEnd :=
  let n := imgParam img 1 1
  clearOnFail img ((noKey img s).andThen (fun _ s =>
  (kcheck (ctxParamOk img) 5 1 s).andThen (fun _ s =>
  (ownCtx img s).andThen (fun c s =>
  (needWrite img 1 144 s).andThen (fun _ s =>
    let no := s.kiln.saveNo + 1
    let (plain, s) := s.freshBytes 112
    let aad := blobHead n c no
    let s := aesBlocks (bootKey s) s
    let cipher := gcmCrypt (bootKey s) (blobNonce no) plain
    let blob := aad ++ cipher ++ gcmFull (bootKey s) (blobNonce no) aad cipher 16
    (kwrite 2 img 1 blob s).andThen (fun _ s =>
      let s := { s with kiln := { s.kiln with saveNo := no, saves := ains s.kiln.saves n (no, c) } }
      .ok (.done 0 0 0) (clearCtx n s)))))))

/-- RESTORE: the tag first, then the context, its owner, and that the blob is the latest save of the context. -/
def cipherRestore (img : Bytes) (s : State) : KRes KEnd :=
  let n := imgParam img 1 1
  (noKey img s).andThen (fun _ s =>
  (kcheck (ctxParamOk img) 5 1 s).andThen (fun _ s =>
  (needRead img 0 144 s).andThen (fun _ s =>
  (kread 2 img 0 0 144 s).andThen (fun blob s =>
    let s := aesBlocks (bootKey s) s
    let no := leAt blob 8 8
    let tag := gcmFull (bootKey s) (blobNonce no) (blob.take 16) (slice blob 16 112) 16
    (kcheck (slice blob 0x80 16 = tag) 0xC 0x10 s).andThen (fun _ s =>
    (kcheck (leAt blob 4 1 = n && leAt blob 6 1 = imgOwner img && (s.ctx? n).isNone) 5 4 s).andThen (fun _ s =>
      match aget? s.kiln.saves n with
      | some (last, c) =>
        if last = no then .ok (.done 0 0 0) ({ s with kiln := { s.kiln with saves := adel s.kiln.saves n } }.setCtx n c)
        else .fail 5 7 s
      | none => .fail 5 7 s))))))

def cipherFree (img : Bytes) (s : State) : KRes KEnd :=
  (noKey img s).andThen (fun _ s =>
  (kcheck (ctxParamOk img) 5 1 s).andThen (fun _ s =>
  (ownCtx img s).andThen (fun _ s => .ok (.done 0 0 0) (clearCtx (imgParam img 1 1) s))))

/-! ### Keys (R828, R830, R833, R834, R1180) -/

/-- PARAM of OP 0x07 to 0x0A. -/
def keyParamOk (img : Bytes) (wrap : Bool) : Bool :=
  paramZero img (if wrap then [0, 2, 3, 4, 5] else [0, 2, 3]) && imgParam img 0 1 ≤ 3 && imgParam img 2 2 < 1024

/-- GENKEY; a P-256 scalar is drawn as GENKEY_EC draws it. -/
def cipherGenkey (img : Bytes) (s : State) : KRes KEnd :=
  let t := imgParam img 0 1
  (noKey img s).andThen (fun _ s =>
  (kcheck (keyParamOk img false) 5 1 s).andThen (fun _ s =>
  (kcheck (emptySlot s 32 64).isSome 5 3 s).andThen (fun _ s =>
    if t = 3 then (kscalar 8 s).andThen (fun d s => newKey img (beBytes 32 d) t (imgParam img 2 2) s)
    else (kdraw (typeLen t) s).andThen (fun k s => newKey img k t (imgParam img 2 2) s))))

def cipherUnwrapKey (img : Bytes) (s : State) : KRes KEnd :=
  let n := typeLen (imgParam img 0 1) + 8
  (kslot img (imgKey img) s).andThen (fun x s =>
  (kcheck (keyParamOk img false && (imgBuf img 0).len = n) 5 1 s).andThen (fun _ s =>
  (needRead img 0 n s).andThen (fun _ s =>
  (kcheck (emptySlot s 32 64).isSome 5 3 s).andThen (fun _ s =>
  (kuse x.2 4 s).andThen (fun _ s =>
  (kread 2 img 0 0 n s).andThen (fun bs s =>
    let s := aesBlocks (x.2.key.getD []) s
    match kwUnwrap (x.2.key.getD []) bs with
    | none => .fail 0xC 0x10 s
    | some k => newKey img k (imgParam img 0 1) (imgParam img 2 2) s))))))

def cipherWrapKey (img : Bytes) (s : State) : KRes KEnd :=
  let n := typeLen (imgParam img 0 1)
  (kslot img (imgKey img) s).andThen (fun x s =>
  (kslot img (imgParam img 4 2) s).andThen (fun y s =>
  (kcheck (keyParamOk img true && (y.2.key.getD []).length = n) 5 1 s).andThen (fun _ s =>
  (needWrite img 1 (n + 8) s).andThen (fun _ s =>
  (kuse x.2 3 s).andThen (fun _ s =>
  (kuse y.2 9 s).andThen (fun _ s =>
  (kwrite 2 img 1 (kwWrap (x.2.key.getD []) (y.2.key.getD [])) (aesBlocks (x.2.key.getD []) s)).andThen (fun _ s => .ok (.done 0 0 0) s)))))))

def cipherDerive (img : Bytes) (s : State) : KRes KEnd :=
  let n := (imgBuf img 0).len
  (kslot img (imgKey img) s).andThen (fun x s =>
  (kcheck (keyParamOk img false && 1 ≤ n && n ≤ 64) 5 1 s).andThen (fun _ s =>
  (needRead img 0 n s).andThen (fun _ s =>
  (kcheck (emptySlot s 32 64).isSome 5 3 s).andThen (fun _ s =>
  (kuse x.2 5 s).andThen (fun _ s =>
  (kread 2 img 0 0 n s).andThen (fun bs s =>
    newKey img (kdf (x.2.key.getD []) bs (typeLen (imgParam img 0 1))) (imgParam img 0 1) (imgParam img 2 2)
      (aesBlocks (x.2.key.getD []) s)))))))

def cipherZap (img : Bytes) (s : State) : KRes KEnd :=
  (kslot img (imgKey img) s).andThen (fun x s =>
  (kcheck (paramZero img [] && !fixedSlot x.1) 5 1 s).andThen (fun _ s =>
    .ok (.done 0 0 0) (zapSlot x.1 (clearCtxsOf x.1 s))))

/-! ### RANDOM and ENT_* (R877) -/

def cipherRandom (img : Bytes) (s : State) : KRes KEnd :=
  let n := (imgBuf img 1).len
  (noKey img s).andThen (fun _ s =>
  (kcheck (paramZero img [] && 1 ≤ n && n ≤ 4096) 5 1 s).andThen (fun _ s =>
  (needWrite img 1 n s).andThen (fun _ s =>
  (kdraw n s).andThen (fun bs s =>
  (kwrite 2 img 1 bs s).andThen (fun _ s => .ok (.done 0 0 0) s)))))

def cipherEntKat (img : Bytes) (s : State) : KRes KEnd :=
  (noKey img s).andThen (fun _ s =>
  (kcheck (paramZero img []) 5 1 s).andThen (fun _ s =>
    if s.ent.katFor.isSome then .wait else .ok .later (katStart (some 2) s)))

def cipherEntPattern (img : Bytes) (s : State) : KRes KEnd :=
  (noKey img s).andThen (fun _ s =>
  (kcheck (paramZero img [0, 4, 5, 6, 7] && imgParam img 0 1 ≤ 1) 5 1 s).andThen (fun _ s =>
    if s.ent.katFor.isSome then .wait
    else .ok (.done 0 0 0) (entPattern (imgParam img 0 1 = 1) (wd (imgParam img 4 4)) s)))

/-! ### PKA (R842, R843, R845) -/

def pkaScalar (x : Slot) : Nat := beNat (x.key.getD [])

/-- A scalar multiplication: its scalar is blinded by a random multiple of n, and the point has a random projective Z. Neither
changes the result, and the words drawn for them are free (R841; log entry 102). -/
def pkaMasks (s : State) : State :=
  let (b, s) := s.freshBytes 8
  let (z, s) := s.freshBytes 32
  { s with kiln := { s.kiln with pkaRun := some (beNat b, beNat z % (p256P - 1) + 1) } }

/-- A signature with a nonce from the DRBG (R841). -/
def ksign (d : Nat) (digest : Bytes) (s : State) : KRes Bytes :=
  (kscalar 8 s).andThen (fun k s =>
    match ecdsaSign d k digest with
    | none => .wait
    | some sig => .ok sig (pkaMasks s))

def pkaSign (img : Bytes) (s : State) : KRes KEnd :=
  (kslot img (imgKey img) s).andThen (fun x s =>
  (kcheck (paramZero img []) 5 1 s).andThen (fun _ s =>
  (needRead img 0 32 s).andThen (fun _ s =>
  (needWrite img 1 64 s).andThen (fun _ s =>
  (kuse x.2 6 s).andThen (fun _ s =>
  (kcheck (x.2.type = 3) 5 5 s).andThen (fun _ s =>
  (kread 3 img 0 0 32 s).andThen (fun dg s =>
  (ksign (pkaScalar x.2) dg s).andThen (fun sig s =>
  (kwrite 3 img 1 sig s).andThen (fun _ s => .ok (.done 0 0 0) s)))))))))

def pkaVerify (img : Bytes) (s : State) : KRes KEnd :=
  (noKey img s).andThen (fun _ s =>
  (kcheck (paramZero img []) 5 1 s).andThen (fun _ s =>
  (needRead img 0 160 s).andThen (fun _ s =>
  (kread 3 img 0 0 160 s).andThen (fun bs s =>
    let s := pkaMasks s
    if ecdsaVerify (bs.take 64) (slice bs 64 32) (slice bs 96 64) then .ok (.done 0 0 0) s else .fail 0xC 0x10 s))))

/-- USE of a key of ECDH is limited to DERIVE and HMAC. -/
def pkaEcdh (img : Bytes) (s : State) : KRes KEnd :=
  let use := imgParam img 2 2
  (kslot img (imgKey img) s).andThen (fun x s =>
  (kcheck (paramZero img [2, 3] && (use &&& 0x120) = use) 5 1 s).andThen (fun _ s =>
  (needRead img 0 64 s).andThen (fun _ s =>
  (kcheck (emptySlot s 32 64).isSome 5 3 s).andThen (fun _ s =>
  (kuse x.2 7 s).andThen (fun _ s =>
  (kcheck (x.2.type = 3) 5 5 s).andThen (fun _ s =>
  (kread 3 img 0 0 64 s).andThen (fun pub s =>
    match ecdh (pkaScalar x.2) pub with
    | none => .fail 5 6 s
    | some z => newKey img z 2 use (pkaMasks s))))))))

def pkaGenkeyEc (img : Bytes) (s : State) : KRes KEnd :=
  let use := imgParam img 2 2
  (noKey img s).andThen (fun _ s =>
  (kcheck (paramZero img [2, 3] && use < 1024) 5 1 s).andThen (fun _ s =>
  (needWrite img 1 64 s).andThen (fun _ s =>
  (kcheck (emptySlot s 32 64).isSome 5 3 s).andThen (fun _ s =>
  (kscalar 8 s).andThen (fun d s =>
  (kwrite 3 img 1 (pubOf d) (pkaMasks s)).andThen (fun _ s => newKey img (beBytes 32 d) 3 use s))))))

def pkaPubkey (img : Bytes) (s : State) : KRes KEnd :=
  (kslot img (imgKey img) s).andThen (fun x s =>
  (kcheck (paramZero img []) 5 1 s).andThen (fun _ s =>
  (needWrite img 1 64 s).andThen (fun _ s =>
  (kcheck (x.2.type = 3) 5 5 s).andThen (fun _ s =>
  (kwrite 3 img 1 (pubOf (pkaScalar x.2)) (pkaMasks s)).andThen (fun _ s => .ok (.done 0 0 0) s)))))

/-- The base of the running image (R335). -/
def imageBase (s : State) : Nat := if s.fld rFLASH_BOOT 1 0 = 2 then 0x08180000 else 0x08000000

def devIdBytes : Bytes := leBytes 8 Config.deviceId.toNat

/-- The hash of record 5's public key (R845). -/
def staticKeyHash (s : State) : Bytes :=
  match payload s 5 with
  | none => List.replicate 32 0
  | some p => sha256 (slice p 44 64)

/-- Bytes 0x00 to 0xFF of the attestation record (R845); the version and the body hash are those of the image's header. -/
def attestBody (s : State) (nonce version hash : Bytes) : Bytes :=
  leBytes 4 0x0960A77E ++ leBytes 2 1 ++ leBytes 1 s.sys.mode.code ++ leBytes 1 s.sys.lockCause.toNat ++
  devIdBytes ++ leOfWord (s.reg rSYS_EPOCH) ++ version ++ leBytes 4 (rollbackMin s) ++
  leBytes 1 (b2n s.sys.mated) ++ leBytes 1 (s.fld rFLASH_BOOT 1 0) ++ [0, 0] ++ nonce ++
  hash ++ staticKeyHash s ++ pubOf (pkaScalar (s.slot 0)) ++
  (s.fuses.devCert.value 64 Config.deviceCert).getD (List.replicate 64 0)

def pkaAttest (img : Bytes) (s : State) : KRes KEnd :=
  (noKey img s).andThen (fun _ s =>
  (kcheck (paramZero img []) 5 1 s).andThen (fun _ s =>
  (needRead img 0 32 s).andThen (fun _ s =>
  (needWrite img 1 320 s).andThen (fun _ s =>
  (kread 3 img 0 0 32 s).andThen (fun nonce s =>
  (kflash (imageBase s + 8) 4 s).andThen (fun version s =>
  (kflash (imageBase s + 0x40) 32 s).andThen (fun hash s =>
    let body := attestBody s nonce version hash
    (ksign (pkaScalar (s.slot 0)) (sha256 body) s).andThen (fun sig s =>
    (kwrite 3 img 1 (body ++ sig) s).andThen (fun _ s => .ok (.done 0 0 0) s)))))))))

/-! ### HASH (R844) -/

/-- BUF0 hashed by `f`, of up to 0x0100_0000 bytes. -/
def hashBuf (img : Bytes) (f : Bytes → Bytes) (s : State) : KRes Bytes :=
  let n := (imgBuf img 0).len
  (kcheck (n ≤ 0x1000000) 5 1 s).andThen (fun _ s =>
  (needRead img 0 n s).andThen (fun _ s =>
  (kread 4 img 0 0 n s).andThen (fun bs s => .ok (f bs) s)))

def hashSha256 (img : Bytes) (s : State) : KRes KEnd :=
  (noKey img s).andThen (fun _ s =>
  (kcheck (paramZero img []) 5 1 s).andThen (fun _ s =>
  (needWrite img 1 32 s).andThen (fun _ s =>
  (hashBuf img sha256 s).andThen (fun d s =>
  (kwrite 4 img 1 d s).andThen (fun _ s => .ok (.done 0 0 0) s)))))

def hashHmac (img : Bytes) (s : State) : KRes KEnd :=
  (kslot img (imgKey img) s).andThen (fun x s =>
  (kcheck (paramZero img []) 5 1 s).andThen (fun _ s =>
  (needWrite img 1 32 s).andThen (fun _ s =>
  (kuse x.2 8 s).andThen (fun _ s =>
  (hashBuf img (hmac (x.2.key.getD [])) s).andThen (fun d s =>
  (kwrite 4 img 1 d s).andThen (fun _ s => .ok (.done 0 0 0) s))))))

def hashHmacVerify (img : Bytes) (s : State) : KRes KEnd :=
  (kslot img (imgKey img) s).andThen (fun x s =>
  (kcheck (paramZero img []) 5 1 s).andThen (fun _ s =>
  (needRead img 1 32 s).andThen (fun _ s =>
  (kuse x.2 8 s).andThen (fun _ s =>
  (hashBuf img (hmac (x.2.key.getD [])) s).andThen (fun d s =>
  (kread 4 img 1 0 32 s).andThen (fun want s =>
    if want = d then .ok (.done 0 0 0) s else .fail 0xC 0x10 s))))))

/-! ### Fuses (R818 to R824) -/

/-- The image key hash in force (R819). -/
def imageKeyHash (s : State) : Option Bytes :=
  match (s.fuses.hashes.get 1).value 32 Config.imageKeyHash with
  | some h => some h
  | none => (s.fuses.hashes.get 0).value 32 Config.imageKeyHash

def fuseSet (f : FuseField) : Bool := match f with | .maker => true | .data _ => true | _ => false

/-- The 128 bytes of FUSE_READ. -/
def fuseImage (s : State) : Bytes :=
  let f := s.fuses
  let st := b2n (fuseSet f.devSeed) + fld 1 (b2n (fuseSet f.devId)) + fld 2 (b2n (fuseSet f.devCert)) +
    fld 3 (b2n (fuseSet f.bdAddr)) + fld 4 (b2n (fuseSet (f.hashes.get 0))) + fld 5 (b2n (fuseSet (f.hashes.get 1))) +
    fld 6 (b2n f.closed)
  leBytes 4 st ++ (f.devId.value 8 devIdBytes).getD (List.replicate 8 0) ++
  (f.bdAddr.value 6 Config.bdAddress).getD (List.replicate 6 0) ++ [0, 0] ++
  (imageKeyHash s).getD (List.replicate 32 0) ++ (f.devCert.value 64 Config.deviceCert).getD (List.replicate 64 0) ++
  List.replicate 12 0

def fuseRead (img : Bytes) (s : State) : KRes KEnd :=
  (noKey img s).andThen (fun _ s =>
  (kcheck (paramZero img []) 5 1 s).andThen (fun _ s =>
  (needWrite img 1 128 s).andThen (fun _ s =>
  (kwrite 2 img 1 (fuseImage s) s).andThen (fun _ s => .ok (.done 0 0 0) s))))

/-- What a programming that is cut off leaves behind (R824); a torn FACTORY_CLOSED reads either way. -/
def tearFuse (s : State) : State :=
  match s.fuses.running with
  | none => s
  | some r =>
    let f := { s.fuses with running := none }
    match r with
    | .bdAddr _ => { s with fuses := { f with bdAddr := .torn } }
    | .hash k _ => { s with fuses := { f with hashes := f.hashes.set k .torn } }
    | .close =>
      let (w, s) := s.freshWord
      { s with fuses := { f with closed := f.closed || bit w 0 } }

/-- Programming that has read back right. -/
def burnFuse (s : State) : State :=
  match s.fuses.running with
  | none => s
  | some r =>
    let f := { s.fuses with running := none }
    match r with
    | .bdAddr bs => { s with fuses := { f with bdAddr := .data bs } }
    | .hash k bs => { s with fuses := { f with hashes := f.hashes.set k (.data bs) } }
    | .close => { s with fuses := { f with closed := true } }

def vbatLow (s : State) : Bool := s.pwr.vbatLow

/-- The copy that FUSE_WRITE of the hash programs. -/
def freeHash (s : State) : Option (Fin 2) :=
  if s.fuses.hashes.get 0 = .unprogrammed then some 0 else if s.fuses.hashes.get 1 = .unprogrammed then some 1 else none

/-- What FUSE_WRITE of a field programs, none where it is committed or torn (R821, R824). -/
def fuseTarget (f : Nat) (bs : Bytes) (s : State) : Option FuseRun :=
  if f = 3 then (if s.fuses.bdAddr = .unprogrammed then some (.bdAddr bs) else none)
  else (freeHash s).map (fun k => .hash k bs)

def fuseWrite (img : Bytes) (s : State) : KRes KEnd :=
  let f := imgParam img 0 1
  let n := if f = 3 then 6 else 32
  (noKey img s).andThen (fun _ s =>
  (kcheck (paramZero img [0] && (f = 3 || f = 4)) 5 1 s).andThen (fun _ s =>
  (needRead img 0 n s).andThen (fun _ s =>
  (kcheck (fuseTarget f [] s).isSome 5 0x1C s).andThen (fun _ s =>
  (kcheck (!vbatLow s) 5 0x1E s).andThen (fun _ s =>
  (kread 2 img 0 0 n s).andThen (fun bs s =>
    match fuseTarget f bs s with
    | none => .fail 5 0x1C s
    | some r => .ok .later { s with fuses := { s.fuses with running := some r } }))))))

def fuseClose (img : Bytes) (s : State) : KRes KEnd :=
  let f := s.fuses
  (noKey img s).andThen (fun _ s =>
  (kcheck (paramZero img []) 5 1 s).andThen (fun _ s =>
  (kcheck (fuseSet f.devSeed && fuseSet f.devId && fuseSet f.devCert && (imageKeyHash s).isSome) 5 0x1D s).andThen (fun _ s =>
  (kcheck (!vbatLow s) 5 0x1E s).andThen (fun _ s =>
    .ok .later { s with fuses := { s.fuses with running := some .close } }))))

/-- The end of programming: it is read back, and VBAT must still hold (R823). -/
def fuseEnd (ok : Bool) (s : State) : State :=
  if ok && !vbatLow s then kilnDone 2 0 0 0 (burnFuse s) else kilnDone 2 5 0x1E 0 (tearFuse s)

/-! ### The operations -/

/-- An operation of an engine: served when its CMD word is at the head, left where it must wait. -/
def kilnOp (e op : Nat) (body : Bytes → State → KRes KEnd) (s : State) : State :=
  if !s.kilnUp || s.fuses.running.isSome then s
  else match kilnCmd e op (opsOf e) s with
    | none => ((imageLost e s).filter (fun _ => (opsOf e).head? == some op)).elim s (kilnDone e 5 8 0)
    | some (img, t) =>
      match (if imgOp img = op then body img t else KRes.fail 5 1 t) with
      | .wait => s
      | .fail st re t => kilnDone e st re 0 t
      | .ok (.done st re v) t => kilnDone e st re v t
      | .ok .later t => t
      | .ok (.job j) t => { t with creds := { t.creds with jobs := t.creds.jobs ++ [j] } }

def execEncrypt (s : State) : Out := .next (kilnOp 2 1 (cipherData true) s)
def execDecrypt (s : State) : Out := .next (kilnOp 2 2 (cipherData false) s)
def execUpdate (s : State) : Out := .next (kilnOp 2 3 cipherUpdate s)
def execSave (s : State) : Out := .next (kilnOp 2 4 cipherSave s)
def execRestore (s : State) : Out := .next (kilnOp 2 5 cipherRestore s)
def execFree (s : State) : Out := .next (kilnOp 2 6 cipherFree s)
def execGenkey (s : State) : Out := .next (kilnOp 2 7 cipherGenkey s)
def execUnwrapKey (s : State) : Out := .next (kilnOp 2 8 cipherUnwrapKey s)
def execWrapKey (s : State) : Out := .next (kilnOp 2 9 cipherWrapKey s)
def execDerive (s : State) : Out := .next (kilnOp 2 0xA cipherDerive s)
def execZap (s : State) : Out := .next (kilnOp 2 0xB cipherZap s)
def execRandom (s : State) : Out := .next (kilnOp 2 0x20 cipherRandom s)
def execEntKat (s : State) : Out := .next (kilnOp 2 0x21 cipherEntKat s)
def execEntPattern (s : State) : Out := .next (kilnOp 2 0x22 cipherEntPattern s)
def execSign (s : State) : Out := .next (kilnOp 3 1 pkaSign s)
def execVerify (s : State) : Out := .next (kilnOp 3 2 pkaVerify s)
def execEcdh (s : State) : Out := .next (kilnOp 3 3 pkaEcdh s)
def execGenkeyEc (s : State) : Out := .next (kilnOp 3 4 pkaGenkeyEc s)
def execPubkey (s : State) : Out := .next (kilnOp 3 5 pkaPubkey s)
def execAttest (s : State) : Out := .next (kilnOp 3 6 pkaAttest s)
def execSha256 (s : State) : Out := .next (kilnOp 4 1 hashSha256 s)
def execHmac (s : State) : Out := .next (kilnOp 4 2 hashHmac s)
def execHmacVerify (s : State) : Out := .next (kilnOp 4 3 hashHmacVerify s)
def execFuseRead (s : State) : Out := .next (kilnOp 2 0x50 fuseRead s)

/-- FUSE_WRITE begins when its CMD word is at the head, and ends when it comes again while programming runs. -/
def execFuseWrite (ok : Bool) (s : State) : Out :=
  .next (match s.fuses.running with
    | none => kilnOp 2 0x51 fuseWrite s
    | some .close => s
    | some _ => when s.up (fuseEnd ok) s)

/-- FUSE_CLOSE, as FUSE_WRITE. -/
def execFuseClose (ok : Bool) (s : State) : Out :=
  .next (match s.fuses.running with
    | none => kilnOp 2 0x52 fuseClose s
    | some .close => when s.up (fuseEnd ok) s
    | some _ => s)

/-- A known-answer test ends, with the DONE word of ENT_KAT when one waits (R872, R877). -/
def execKatComplete (pass : Bool) (s : State) : Out :=
  .next (when s.entUp (fun s =>
    match s.ent.katFor with
    | none => s
    | some w => withSome w (fun e s => if pass then kilnDone e 0 0 0 s else kilnDone e 5 9 0 s) (katEnd pass s)) s)

/-- The command uses the context that its PARAM names: a first command that keeps it open, and those of an open one. -/
def usesCtx (img : Bytes) : Bool := (imgOp img == 1 || imgOp img == 2) && imgParam img 6 1 == 1 || (3 ≤ imgOp img && imgOp img ≤ 6)

/-- A cancellation clears the context that the command used (R836, R849). -/
def kilnCancel (img : Bytes) (s : State) : State :=
  let n := imgParam img 1 1
  when (usesCtx img && (s.ctx? n).any (fun c => c.owner == imgOwner img)) (clearCtx n) s

end Sys2Proof.Machine
end

