-- ==== Sys2Proof/Machine/Fleet.lean ====
section
/-! DEFINITION. Fleet-signed records and vehicle time, booking tickets, revocation and the credential slots (18). -/
namespace Sys2Proof.Machine

/-! ### Records of the Kiln (R387 to R391, R887, R905, R925) -/

/-- A job of an operation of engine e: its ledger writes, what follows them, and ENGINE_ERROR with reason 0x1B where one
fails (R1185). -/
def jobOf (e : Nat) (writes : List JobWrite) (effs : List Eff) : KEnd := .job ⟨writes, effs, [.done e (doneW 5 0x1B 0)]⟩

def rec1 (s : State) : Option Bytes := payload s 1
def enrolCount (s : State) : Nat := ((rec1 s).map (fun p => leAt p 0 2)).getD 0
def enrolLimit (s : State) : Nat := ((rec1 s).map (fun p => leAt p 2 2)).getD 0
def delayRecord (s : State) : Bytes := slice ((payload s 2).getD []) 0 32

/-- GROUP most significant byte first, as messages hold it (R892). -/
def groupMsg (s : State) : Option Bytes := (payload s 5).map (fun p => (slice p 0 3).reverse)

def wrapKey (s : State) : Bytes := (s.slot 1).key.getD []

/-- The static scalar of record 5. -/
def staticScalar (s : State) : Option Nat :=
  (payload s 5).bind (fun p => (kwUnwrap (wrapKey s) (slice p 4 40)).map beNat)

/-- A key of a record, unwrapped under slot 1 (R815). -/
def recordKey (s : State) (rec off : Nat) : Option Bytes := (payload s rec).bind (fun p => kwUnwrap (wrapKey s) (slice p off 24))

/-- An active credential slot's payload (R887). -/
def credSlot (s : State) (n : Nat) : Option Bytes := (payload s (16 + n)).filter (fun p => leAt p 1 1 = 1)

/-! ### Vehicle time (R903 to R905) -/

/-- Vehicle time now: 32 768 RTC counts are one second. -/
def vehicleNow (s : State) : Option Nat := s.creds.time.map (fun p => p.1 + (s.clk.rtc - p.2) / 32768)

/-- The payload of record 7 with its time replaced; without a current copy it names no bank (R904). -/
def rec7With (s : State) (t : Nat) : Bytes :=
  match payload s 7 with
  | some p => leBytes 4 t ++ slice p 4 20
  | none => leBytes 4 t ++ [0xFF] ++ List.replicate 19 0

def rec7Field (s : State) (off : Nat) : Nat := ((payload s 7).map (fun p => leAt p off 4)).getD 0
def rec7Bank (s : State) : Nat := ((payload s 7).map (fun p => leAt p 4 1)).getD 0xFF

/-- The raise that a verified record makes, where it makes one: the new time (R903, R904). -/
def raiseTime (issued : Nat) (s : State) : Option Nat :=
  match vehicleNow s with
  | none => some issued
  | some t => if t < issued then some issued else none

/-- The writes and effects of a raise. -/
def raiseWrites (t : Option Nat) (s : State) : List JobWrite × List Eff :=
  match t with
  | none => ([], [])
  | some t => ([.record 7 (rec7With s t)], [.vehicleTime t s.clk.rtc])

/-! ### Verifying a record (R901, R902) -/

def hdrMagic (r : Bytes) (type : Nat) : Bool :=
  leAt r 0 4 = 0x0960F1EE && leAt r 4 1 = type && leAt r 5 1 = 1 && leAt r 6 1 ≤ 1 && leAt r 7 1 = 0
def hdrId (r : Bytes) : Bytes := slice r 8 8
def hdrIssued (r : Bytes) : Nat := leAt r 0x20 4

/-- The public key of an anchor of record 6, when it is valid. -/
def anchorKey (s : State) (i : Nat) : Option Bytes :=
  (payload s 6).bind (fun p => if leAt p (68 * i) 1 = 1 then some (slice p (68 * i + 4) 64) else none)

/-- A record checked in this order: its format, DEV_ID, the anchor and the signature, vehicle time. The answer is the raise
it makes. -/
def verifyRecord (type sig : Nat) (r : Bytes) (format : Bool) (s : State) : KRes (Option Nat) :=
  (kcheck (hdrMagic r type && format) 5 1 s).andThen (fun _ s =>
  (kcheck (slice r 0x10 8 = devIdBytes) 0xC 0x13 s).andThen (fun _ s =>
  (kcheck ((anchorKey s (leAt r 6 1)).any (fun k => ecdsaVerify k (sha256 (r.take sig)) (slice r sig 64))) 0xC 0x10 s).andThen
    (fun _ s =>
      let now := (vehicleNow s).getD (hdrIssued r)
      (kcheck (leAt r 0x18 4 ≤ now && now ≤ leAt r 0x1C 4) 0xC 0x11 s).andThen (fun _ s =>
        .ok (raiseTime (hdrIssued r) s) s))))

/-- An operation that ends on a record's raise alone. -/
def endRaise (t : Option Nat) (status reason : Nat) (s : State) : KRes KEnd :=
  let w := raiseWrites t s
  .ok (jobOf 2 w.1 (w.2 ++ [.done 2 (doneW status reason 0)])) s

/-- The operation goes on after a raise with further writes and effects. -/
def withRaise (t : Option Nat) (writes : List JobWrite) (effs : List Eff) (s : State) : KRes KEnd :=
  let w := raiseWrites t s
  .ok (jobOf 2 (w.1 ++ writes) (w.2 ++ effs)) s

/-! ### Revocation (R907, R911 to R913) -/

def bankBase (b : Nat) : Nat := if b = 0 then 0x08780000 else 0x087C0000
def ticketAddr (i : Nat) : Nat := 0x08700000 + 0x100 * i

/-- Whether a ticket ID is in the active list. -/
def listed (id : Bytes) (s : State) : KRes Bool :=
  if 1 < rec7Bank s then .ok false s
  else (kflash (bankBase (rec7Bank s) + 0x40) (8 * rec7Field s 20) s).andThen (fun bs s =>
    .ok ((chunks 8 (bs.length / 8 + 1) bs).contains id) s)

/-- A slot revoked by CRED_MASK. -/
def slotRevoked (s : State) (n : Nat) : Bool := (rec7Field s 16).testBit n

/-- IDs rise. -/
def rising : List Nat → Bool
  | a :: b :: l => decide (a < b) && rising (b :: l)
  | _ => true

/-- The list beyond its fixed part is well formed. -/
def listFormat (r : Bytes) (n : Nat) : Bool :=
  leAt r 0x0C 4 = 0 && leAt r 0x30 16 = 0 && rising ((chunks 8 (n + 1) (slice r 0x40 (8 * n))).map leNat)

/-- A list revokes a credential: a slot by its bit of CRED_MASK, a ticket by its ID in the booking store (R913). -/
def credGone (mask : Nat) (ids : List Bytes) (cred cls : Nat) (s : State) : KRes Bool :=
  if cls = 4 then (kflash (ticketAddr (cred % 0x8000) + 8) 8 s).andThen (fun id s => .ok (ids.contains id) s)
  else .ok (mask.testBit cred) s

/-- Those of the sessions whose verified credential a list revokes. -/
def goneSessions (mask : Nat) (ids : List Bytes) : List Nat → State → KRes (List Nat)
  | [], s => .ok [] s
  | n :: ns, s =>
    (match (s.ksess n).verified with
      | none => KRes.ok false s
      | some v => credGone mask ids v.1 v.2 s).andThen (fun g s =>
    (goneSessions mask ids ns s).andThen (fun l s => .ok (if g then n :: l else l) s))

/-- The presence mark names a credential that a list revokes. -/
def goneMark (mask : Nat) (ids : List Bytes) (s : State) : KRes Bool :=
  if s.rbit rSTART_PRES_ID 31 then credGone mask ids (s.fld rSTART_PRES_ID 15 0) (s.fld rSTART_PRES_ID 18 16) s else .ok false s

/-- REVOKE (R912): the list of the named bank is verified, and record 7 is written once. -/
def opRevoke (img : Bytes) (s : State) : KRes KEnd :=
  let b := imgParam img 0 1
  (noKey img s).andThen (fun _ s =>
  (kcheck (paramZero img [0] && b ≤ 1) 5 1 s).andThen (fun _ s =>
  (kflash (bankBase b) 0x40 s).andThen (fun h s =>
    let n := leAt h 0x24 4
    (kcheck (n ≤ 32000) 5 1 s).andThen (fun _ s =>
    (kflash (bankBase b) (0x80 + 8 * n) s).andThen (fun r s =>
    (verifyRecord 5 (0x40 + 8 * n) r (listFormat r n) s).andThen (fun t s =>
      let serial := leAt r 8 4
      if serial ≤ rec7Field s 8 then endRaise t 0xC 0x12 s
      else
        let ids := chunks 8 n (slice r 0x40 (8 * n))
        (goneSessions (leAt r 0x2C 4) ids (List.range 8) s).andThen (fun gone s =>
        (goneMark (leAt r 0x2C 4) ids s).andThen (fun mark s =>
        let now := (t.or (vehicleNow s)).getD (hdrIssued r)
        let body := leBytes 4 now ++ [BitVec.ofNat 8 b, 0, 0, 0] ++ leBytes 4 serial ++ slice r 0x28 8 ++ leBytes 4 n
        let time := match t with
          | some t => [Eff.vehicleTime t s.clk.rtc]
          | none => []
        .ok (jobOf 2 [.record 7 body] (time ++ [.revoked gone mark, .done 2 (doneW 0 0 0)])) s))))))))

/-! ### Tickets (R906, R908 to R910) -/

/-- The symmetric key that a record wraps to the static key of record 5 (R908, R915). -/
def unwrapSecret (eph enc id : Bytes) (s : State) : KRes Bytes :=
  match staticScalar s with
  | none => .fail 5 0x17 s
  | some d =>
    match ecdh d eph with
    | none => .fail 5 6 s
    | some z =>
      match kwUnwrap (derive z [0x54, 0x4B, 0x45, 0x4B] id 16) enc with
      | none => .fail 0xC 0x10 s
      | some k => .ok k s

/-- A failure after the record has verified still leaves its raise. -/
def raiseOnFail (t : Option Nat) (r : KRes KEnd) : KRes KEnd :=
  match r with
  | .fail st re s => endRaise t st re s
  | r => r

def sessionOpen (n : Nat) (s : State) : KRes Unit := kcheck (n ≤ 7 && s.sys.active.getLsbD n) 5 0x17 s

/-- The runtime slot for a key that replaces one (R809). -/
def runtimeSlot (old : Option Nat) (s : State) : KRes Nat :=
  match old with
  | some n => .ok n s
  | none =>
    match emptySlot s 3 32 with
    | none => .fail 5 3 s
    | some n => .ok n s

def ticketFormat (r : Bytes) : Bool := leAt r 0x24 2 ≤ 3 && leAt r 0x26 2 = 0 && (slice r 0x90 48).all (fun b => b == 0)

/-- What a verified ticket binds to its session (R908, R910). -/
def bindTicket (sess idx : Nat) (t : Option Nat) (r : Bytes) (s : State) : KRes KEnd :=
  (listed (hdrId r) s).andThen (fun l s =>
  (kcheck (rec7Field s 12 ≤ hdrIssued r && !l) 0xC 0x12 s).andThen (fun _ s =>
  (unwrapSecret (slice r 0x28 64) (slice r 0x68 24) (hdrId r) s).andThen (fun k s =>
  (runtimeSlot ((s.ksess sess).ticket.map TicketBind.slot) s).andThen (fun n s =>
    let id := hdrId r
    let bound := { s.ksess sess with ticket := some ⟨idx, id, leAt r 0x24 2, n⟩ }
    let sts := wd (0x20000000 + sess) :: wordsOf (derive k [0x50, 0x53, 0x54, 0x53] id 16 ++ derive k [0x50, 0x53, 0x49, 0x56] id 12)
    withRaise t [] [.runtimeKey n (derive k [0x50, 0x41, 0x55, 0x54] id 16), .session sess bound, .load sts,
      .done 2 (doneW 0 0 0)] s))))

def opTicketOpen (img : Bytes) (s : State) : KRes KEnd :=
  let sess := imgParam img 0 1
  let idx := imgParam img 4 2
  (noKey img s).andThen (fun _ s =>
  (kcheck (paramZero img [0, 4, 5] && sess ≤ 7 && idx ≤ 2047) 5 1 s).andThen (fun _ s =>
  (sessionOpen sess s).andThen (fun _ s =>
  (kflash (ticketAddr idx) 0x100 s).andThen (fun r s =>
  (verifyRecord 1 0xC0 r (ticketFormat r) s).andThen (fun t s =>
    raiseOnFail t (bindTicket sess idx t r s))))))

/-! ### Tokens (R916 to R920) -/

def tokenFormat (r : Bytes) : Bool :=
  let d := leAt r 0x24 4
  let c := leAt r 0x28 1
  leAt r 0x29 7 = 0 &&
  (match leAt r 4 1 with
   | 2 => 60 ≤ d && d ≤ 86400 && c = 0
   | 3 => 60 ≤ d && d ≤ 86400 && c < 32
   | 4 => d = 0 && c = 0
   | _ => false)

def opTokenNonce (img : Bytes) (s : State) : KRes KEnd :=
  (noKey img s).andThen (fun _ s =>
  (kcheck (paramZero img []) 5 1 s).andThen (fun _ s =>
  (needWrite img 1 16 s).andThen (fun _ s =>
  (kdraw 16 s).andThen (fun n s =>
  (kwrite 2 img 1 n s).andThen (fun _ s =>
    .ok (.done 0 0 0) { s with creds := { s.creds with tokenNonce := some n } })))))

/-- The modes in which a service token acts. -/
def takesService (m : Mode) : Bool := m == .unmated || m == .parked || m == .service

/-- A token that has verified and carries the nonce. -/
def tokenAct (t : Option Nat) (r : Bytes) (s : State) : KRes KEnd :=
  let dur := leAt r 0x24 4
  match leAt r 4 1 with
  | 2 => if takesService s.sys.mode then withRaise t [] [.service dur] s else .ok (.done 5 0x17 0) s
  | 3 =>
    if s.sys.mode != .lockdown then endRaise t 5 0x17 s
    else if s.sys.lockCause &&& ~~~(BitVec.ofNat 5 (leAt r 0x28 1)) != 0 then
      endRaise t 0xC 0x14 { s with creds := { s.creds with tokenNonce := none } }
    else
      let w := raiseWrites t s
      .ok (.job ⟨w.1 ++ [.record 0 (modePayload s.sys.mated 0 (storedMatings s))], w.2 ++ [.recovery dur], [.recoveryFailed]⟩)
        { s with sys := { s.sys with recovering := some s.sys.lockCause } }
  | _ => if s.sys.mode == .factory then .ok (.done 5 0x17 0) s else withRaise t [] [.consume, .retire, .done 2 (doneW 0 0 0)] s

def opToken (img : Bytes) (s : State) : KRes KEnd :=
  (noKey img s).andThen (fun _ s =>
  (kcheck (paramZero img []) 5 1 s).andThen (fun _ s =>
  (needRead img 0 128 s).andThen (fun _ s =>
  (kread 2 img 0 0 128 s).andThen (fun r s =>
  (verifyRecord (leAt r 4 1) 0x40 r (tokenFormat r) s).andThen (fun t s =>
    if s.creds.tokenNonce = some (slice r 0x30 16) then tokenAct t r s else endRaise t 0xC 0x12 s)))))

/-! ### Trust anchors (R914) -/

def anchorsFormat (b : Bytes) : Bool :=
  [0, 1].all (fun i => leAt b (68 * i) 1 ≤ 1 && leAt b (68 * i + 1) 3 = 0)

def anchorsOnCurve (b : Bytes) : Bool := [0, 1].all (fun i => leAt b (68 * i) 1 = 0 || pubOk (slice b (68 * i + 4) 64))

def opTrustSet (img : Bytes) (s : State) : KRes KEnd :=
  let done := [Eff.done 2 (doneW 0 0 0)]
  (noKey img s).andThen (fun _ s =>
  (kcheck (paramZero img []) 5 1 s).andThen (fun _ s =>
    if s.sys.mode == .service then
      (needRead img 0 0xEC s).andThen (fun _ s =>
      (kread 2 img 0 0 0xEC s).andThen (fun r s =>
        let b := slice r 0x24 136
        (verifyRecord 7 0xAC r (anchorsFormat b) s).andThen (fun t s =>
          if anchorsOnCurve b then withRaise t [.record 6 b] done s else endRaise t 5 6 s)))
    else if s.sys.mode == .unmated && (payload s 6).isNone then
      (needRead img 0 136 s).andThen (fun _ s =>
      (kread 2 img 0 0 136 s).andThen (fun b s =>
      (kcheck (anchorsFormat b) 5 1 s).andThen (fun _ s =>
      (kcheck (anchorsOnCurve b) 5 6 s).andThen (fun _ s => .ok (jobOf 2 [.record 6 b] done) s))))
    else .fail 5 0x17 s))

/-! ### Mating to the vehicle (R921) -/

def opMateVehicle (img : Bytes) (s : State) : KRes KEnd :=
  let limit := if imgParam img 4 2 = 0 then 255 else imgParam img 4 2
  (noKey img s).andThen (fun _ s =>
  (kcheck (paramZero img [0, 1, 2, 4, 5]) 5 1 s).andThen (fun _ s =>
  (needWrite img 1 64 s).andThen (fun _ s =>
  (kcheck (enrolCount s < limit) 5 0x17 s).andThen (fun _ s =>
  (kscalar 8 s).andThen (fun d s =>
    let body := leBytes 3 (imgParam img 0 3) ++ [0] ++ kwWrap (wrapKey s) (beBytes 32 d) ++ pubOf d
    let b := imgBuf img 1
    .ok (jobOf 2 [.record 5 body, .record 1 (leBytes 2 (enrolCount s) ++ leBytes 2 limit)]
      [.bufDone 2 b.ctx b.addr (pubOf d)]) s)))))

/-! ### Enrolment (R898 to R900, R915) -/

def enrolFormat (r : Bytes) : Bool :=
  leAt r 0x24 1 ≤ 3 && leAt r 0x25 1 ≤ 31 && leAt r 0x26 2 ≤ 3 && (leAt r 0x24 1 != 3 || leAt r 0x88 64 = 0)

/-- The enrolment that a package opens. -/
def enrolOf (r : Bytes) (n : Nat) : Enrol :=
  ⟨leAt r 0x24 1, leAt r 0x25 1, leAt r 0x26 2, slice r 0x80 8, slice r 0x88 64, n, none, false, false⟩

/-- The package is good: the count is written, and then the transport key is unwrapped (R899). -/
def enrolOpen (sess : Nat) (t : Option Nat) (r : Bytes) (s : State) : KRes KEnd :=
  (runtimeSlot ((s.ksess sess).enrol.map Enrol.transport) s).andThen (fun n s =>
    let count := JobWrite.record 1 (leBytes 2 (enrolCount s + 1) ++ leBytes 2 (enrolLimit s))
    match unwrapSecret (slice r 0x28 64) (slice r 0x68 24) (hdrId r) s with
    | .ok k s =>
      withRaise t [count] [.runtimeKey n k,
        .session sess { s.ksess sess with vmac := none, enrol := some (enrolOf r n) }, .done 2 (doneW 0 0 0)] s
    | .fail st re s => if re = 0x17 then .fail st re s else withRaise t [count] [.done 2 (doneW st re 0)] s
    | .wait => .wait)

def opEnrolBegin (img : Bytes) (s : State) : KRes KEnd :=
  let sess := imgParam img 0 1
  (noKey img s).andThen (fun _ s =>
  (kcheck (paramZero img [0] && sess ≤ 7) 5 1 s).andThen (fun _ s =>
  (needRead img 0 264 s).andThen (fun _ s =>
  (sessionOpen sess s).andThen (fun _ s =>
  (kcheck (rec1 s).isSome 5 0x17 s).andThen (fun _ s =>
    if enrolLimit s ≤ enrolCount s then .fail 5 0x16 (raiseLockdown 2 s)
    else
      (kread 2 img 0 0 264 s).andThen (fun r s =>
      (verifyRecord 6 0xC8 r (enrolFormat r) s).andThen (fun t s => raiseOnFail t (enrolOpen sess t r s))))))))

/-- The enrolment open in a session (reason 0x17). -/
def inEnrol (sess : Nat) (s : State) : KRes Enrol :=
  match (s.ksess sess).enrol with
  | some e => .ok e s
  | none => .fail 5 0x17 s

/-- The state of an enrolment replaced. -/
def setEnrol (sess : Nat) (e : Option Enrol) (s : State) : State := s.setKsess sess { s.ksess sess with enrol := e }

def opEnrolOrigin (img : Bytes) (s : State) : KRes KEnd :=
  let sess := imgParam img 0 1
  (noKey img s).andThen (fun _ s =>
  (kcheck (paramZero img [0] && sess ≤ 7) 5 1 s).andThen (fun _ s =>
  (needRead img 0 72 s).andThen (fun _ s =>
  (sessionOpen sess s).andThen (fun _ s =>
  (inEnrol sess s).andThen (fun e s =>
  (kcheck (e.cls ≤ 2 && (s.ksess sess).vmac.isSome) 5 0x17 s).andThen (fun _ s =>
  (kread 2 img 0 0 72 s).andThen (fun b s =>
  (kcheck (b.take 8 = e.credId) 0xC 0x15 s).andThen (fun _ s =>
  (kcheck (ecdsaVerify e.makerPub (sha256 (b.take 8)) (b.drop 8)) 0xC 0x10 s).andThen (fun _ s =>
    .ok (.done 0 0 0) (setEnrol sess (some { e with origin := true }) s))))))))))

/-- ENROL_KEY: the credential key is drawn once and returned as often as asked (R690). -/
def opEnrolKey (img : Bytes) (s : State) : KRes KEnd :=
  let sess := imgParam img 0 1
  (noKey img s).andThen (fun _ s =>
  (kcheck (paramZero img [0] && sess ≤ 7) 5 1 s).andThen (fun _ s =>
  (needWrite img 1 24 s).andThen (fun _ s =>
  (sessionOpen sess s).andThen (fun _ s =>
  (inEnrol sess s).andThen (fun e s =>
  (kcheck (e.cls ≤ 2 && e.origin) 5 0x17 s).andThen (fun _ s =>
  (match e.newKey with
   | some k => KRes.ok k s
   | none => kdraw 16 s).andThen (fun k s =>
  (kwrite 2 img 1 (kwWrap ((s.slot e.transport).key.getD []) k) s).andThen (fun _ s =>
    .ok (.done 0 0 0) (setEnrol sess (some { e with newKey := some k }) s)))))))))

/-- The payload of a credential slot (R887). -/
def credBody (cls flags : Nat) (id : Bytes) (ta : Nat) (wkey : Bytes) (time : Nat) : Bytes :=
  leBytes 1 cls ++ [1] ++ leBytes 2 flags ++ id ++ leBytes 4 ta ++ wkey ++ leBytes 4 time

def opEnrolCommit (img : Bytes) (s : State) : KRes KEnd :=
  let sess := imgParam img 0 1
  (noKey img s).andThen (fun _ s =>
  (kcheck (paramZero img [0, 4, 5, 6, 7] && sess ≤ 7) 5 1 s).andThen (fun _ s =>
  (sessionOpen sess s).andThen (fun _ s =>
  (inEnrol sess s).andThen (fun e s =>
  (kcheck (e.proved && (e.cls = 3 || e.origin)) 5 0x17 s).andThen (fun _ s =>
    let key := if e.cls = 3 then (s.slot e.transport).key.getD [] else e.newKey.getD []
    let ta := if e.cls = 2 then imgParam img 4 4 else 0
    let body := credBody e.cls e.flags e.credId ta (kwWrap (wrapKey s) key) ((vehicleNow s).getD 0)
    .ok (jobOf 2 [.record (16 + e.slot) body]
      [.zap e.transport, .session sess { s.ksess sess with enrol := none, vmac := none }, .done 2 (doneW 0 0 0)]) s)))))

def opCredErase (img : Bytes) (s : State) : KRes KEnd :=
  (noKey img s).andThen (fun _ s =>
  (kcheck (paramZero img [0] && imgParam img 0 1 ≤ 31) 5 1 s).andThen (fun _ s =>
    .ok (jobOf 2 [.record (16 + imgParam img 0 1) (List.replicate 44 0)] [.done 2 (doneW 0 0 0)]) s))

/-! ### Nonces and verification (R891 to R897) -/

def opCredNonce (img : Bytes) (s : State) : KRes KEnd :=
  let sess := imgParam img 0 1
  let n := imgParam img 1 1
  (noKey img s).andThen (fun _ s =>
  (kcheck (paramZero img [0, 1] && sess ≤ 7 && (n = 4 || n = 16)) 5 1 s).andThen (fun _ s =>
  (needWrite img 1 n s).andThen (fun _ s =>
  (sessionOpen sess s).andThen (fun _ s =>
  (kdraw n s).andThen (fun v s =>
  (kwrite 2 img 1 v s).andThen (fun _ s =>
    .ok (.done 0 0 0) (s.setKsess sess { s.ksess sess with nonce := some v })))))))

/-- A MAC of the protocol: the first 8 bytes of AES-128-CMAC (R674). -/
def mac8 (key msg : Bytes) : Bytes := (cmac key msg).take 8

def opVmac (img : Bytes) (s : State) : KRes KEnd :=
  let sess := imgParam img 0 1
  (noKey img s).andThen (fun _ s =>
  (kcheck (paramZero img [0] && sess ≤ 7) 5 1 s).andThen (fun _ s =>
  (needWrite img 1 8 s).andThen (fun _ s =>
  (sessionOpen sess s).andThen (fun _ s =>
    match (s.ksess sess).vmac, groupMsg s with
    | some (fob, key), some g => (kwrite 2 img 1 (mac8 key (0x56 :: g ++ fob)) s).andThen (fun _ s => .ok (.done 0 0 0) s)
    | _, _ => .fail 5 0x17 s))))

/-- The tick from which a class is held off no longer (R897). -/
def heldUntil (s : State) (c : Nat) : Option Nat :=
  let step := leAt (delayRecord s) (4 * c + 2) 1
  if step = 0 then none else (aget? s.creds.holdFrom c).map (fun t => t + msTicks 125 * 2 ^ (step - 1))

def heldOff (s : State) (c : Nat) : Bool := (heldUntil s c).any (fun t => s.clk.tb < t)

/-- The length of a MAC message by its label (R674, R892). -/
def labelLen (label : Nat) : Option Nat :=
  match label with
  | 0x52 => some 12 | 0x4B => some 12 | 0x53 => some 13 | 0x5A => some 18 | 0x43 => some 16 | 0x50 => some 28 | _ => none

/-- The labels that a class accepts (R892). -/
def classLabels (c : Nat) (enrol : Bool) : List Nat :=
  if c = 3 then [0x43] else if c = 4 then [0x50] else if enrol then [0x52, 0x4B] else [0x52, 0x53, 0x5A]

/-- The nonce of a message. -/
def msgNonce (c : Nat) (msg : Bytes) : Bytes :=
  if c = 3 then slice msg 12 4 else if c = 4 then slice msg 12 16 else slice msg 8 4

/-- What a verified message names: VALUE, FLAGS or RIGHTS, TA and the key it verified under. -/
structure Matched where
  value : Nat
  flags : Nat
  ta : Nat
  key : Bytes

/-- The credential whose key verifies a message of a class outside enrolment: fob slots in ascending order, the card of
CRED_ID, the bound ticket; an error is the reason. -/
def matchCred (s : State) (sess c : Nat) (msg mac : Bytes) : Except Nat Matched :=
  if c = 4 then
    match (s.ksess sess).ticket with
    | none => .error 0x15
    | some t =>
      let key := (s.slot t.slot).key.getD []
      if t.id != slice msg 4 8 then .error 0x15
      else if mac8 key msg = mac then .ok ⟨0x8000 + t.index, t.rights, 0, key⟩ else .error 0x10
  else
    let hit := (List.range 32).findSome? (fun n =>
      match credSlot s n with
      | none => none
      | some p =>
        let card := leAt p 0 1 = 3
        if slotRevoked s n || (card != (c == 3)) || (card && slice p 4 8 != slice msg 4 8) then none
        else match kwUnwrap (wrapKey s) (slice p 0x10 24) with
          | none => none
          | some k => if mac8 k msg = mac then some (n, p, k) else none)
    match hit with
    | none => .error 0x10
    | some (n, p, k) => if leAt p 0 1 = c then .ok ⟨n, leAt p 2 2, leAt p 12 4, k⟩ else .error 0x15

/-- The message judged in a session open for enrolment (R674, R892). -/
def matchEnrol (s : State) (e : Enrol) (c : Nat) (msg mac : Bytes) : Except Nat Matched :=
  let key := if leAt msg 0 1 = 0x4B then e.newKey else (s.slot e.transport).key
  if e.cls != c || (c = 3 && slice msg 4 8 != e.credId) then .error 0x15
  else match key with
    | none => .error 0x15
    | some k => if mac8 k msg = mac then .ok ⟨e.slot, 0, 0, k⟩ else .error 0x10

/-- The message's form, GROUP and nonce are acceptable (R892). -/
def msgOk (s : State) (sess c : Nat) (msg : Bytes) : Bool :=
  (classLabels c (s.ksess sess).enrol.isSome).contains (leAt msg 0 1) && labelLen (leAt msg 0 1) == some msg.length &&
  groupMsg s == some (slice msg 1 3) && (s.ksess sess).nonce == some (msgNonce c msg)

def judgeCred (s : State) (sess c : Nat) (msg mac : Bytes) : Except Nat Matched :=
  if !msgOk s sess c msg then .error 0x15
  else match (s.ksess sess).enrol with
    | some e => matchEnrol s e c msg mac
    | none => matchCred s sess c msg mac

/-- The delay record with the entry of a class replaced. -/
def delayWith (s : State) (c fails step : Nat) : Bytes :=
  let r := delayRecord s
  r.take (4 * c) ++ leBytes 2 fails ++ leBytes 1 step ++ [0] ++ r.drop (4 * c + 4)

/-- The write of R896; FAILS stops at its largest value. -/
def delayWrites (s : State) (c : Nat) (ok : Bool) : List JobWrite :=
  let f := leAt (delayRecord s) (4 * c) 2
  let st := leAt (delayRecord s) (4 * c + 2) 1
  if ok then (if f = 0 && st = 0 then [] else [.record 2 (delayWith s c 0 0)])
  else [.record 2 (delayWith s c (satInc 0xFFFF f) (min 9 (st + 1)))]

/-- The LOAD_RBE message of an exchange with a fob (R711 to R713). -/
def loadRbeWords (s : State) (sess ta : Nat) (key fob : Bytes) (chal : Bytes) : List Word :=
  let v := cmac key (0x44 :: (groupMsg s).getD [] ++ fob)
  wd (0x10000000 + sess) :: wd ta :: wordsOf (chal ++ v)

/-- What an OK leaves in the session (R894, R900): an enrolment advances; otherwise the session is verified. -/
def acceptCred (s : State) (sess c : Nat) (m : Matched) (msg : Bytes) : KSession :=
  let k := s.ksess sess
  let lab := leAt msg 0 1
  let fob := if lab = 0x52 then some (slice msg 4 8, m.key) else k.vmac
  match k.enrol with
  | some e => { k with vmac := fob, enrol := some (if lab = 0x52 then e else { e with proved := true }) }
  | none =>
    -- a fob's CHALLENGE stands for VMAC only while the same credential stays verified
    let kept := if lab = 0x52 || k.verified = some (m.value, c) then fob else none
    { k with verified := some (m.value, c), vmac := kept }

/-- The effects of an OK. A RESPONSE of a Gen-3 fob loads an exchange (R711); a card with ENTRY is granted at once
(R888). -/
def acceptEffs (s : State) (sess c : Nat) (m : Matched) (msg : Bytes) : KRes (List Eff) :=
  let base := [Eff.session sess (acceptCred s sess c m msg)]
  let done := [Eff.done 2 (doneW 0 0 m.value)]
  if c = 2 && leAt msg 0 1 = 0x52 then
    (kdraw 8 s).andThen (fun chal s => .ok (base ++ [.load (loadRbeWords s sess m.ta m.key (slice msg 4 8) chal)] ++ done) s)
  else if c = 3 && m.flags.testBit 0 && (s.ksess sess).enrol.isNone then .ok (base ++ [.grant sess] ++ done) s
  else .ok (base ++ done) s

/-- A ticket that a list names is refused (R913). -/
def ticketGone (sess c : Nat) (s : State) : KRes Bool :=
  match (s.ksess sess).ticket with
  | some t => if c = 4 then listed t.id s else .ok false s
  | none => .ok false s

def opCredVerify (img : Bytes) (s : State) : KRes KEnd :=
  let sess := imgParam img 0 1
  let c := imgParam img 1 1
  (noKey img s).andThen (fun _ s =>
  (kcheck (paramZero img [0, 1, 4, 5, 6, 7, 8, 9, 10, 11] && sess ≤ 7 && c ≤ 4) 5 1 s).andThen (fun _ s =>
  (needRead img 0 1 s).andThen (fun _ s =>
  (sessionOpen sess s).andThen (fun _ s =>
  (kcheck (!heldOff s c) 0xD 0 s).andThen (fun _ s =>
  (kread 2 img 0 0 1 s).andThen (fun lab s =>
    let n := (labelLen (leNat lab)).getD 1
    (needRead img 0 n s).andThen (fun _ s =>
    (kread 2 img 0 0 n s).andThen (fun msg s =>
    (ticketGone sess c s).andThen (fun gone s =>
      let r := if gone then .error 0x12 else judgeCred s sess c msg (slice img 0x30 8)
      match r with
      | .error reason =>
        .ok (jobOf 2 (delayWrites s c false) [.holdOff c, .done 2 (doneW 0xC reason 0)]) s
      | .ok m =>
        (acceptEffs s sess c m msg).andThen (fun effs s => .ok (jobOf 2 (delayWrites s c true) effs) s))))))))))

end Sys2Proof.Machine
end

