-- ==== Sys2Proof/Machine/SatKeys.lean ====
section
/-! DEFINITION. The Kiln operations for the satellites: the session counter, authentication, mating and key rolls (20). -/
namespace Sys2Proof.Machine

/-! ### Record 4 (R925, R926, R1001) -/

def rec4 (s : State) : Bytes := slice ((payload s 4).getD []) 0 64
def satState (r : Bytes) (p : Nat) : Nat := leAt r p 1
def satCeil (r : Bytes) : Nat := leAt r 12 4
def satCur (s : State) : Option Bytes := recordKey s 4 0x10
def satPend (s : State) : Option Bytes := recordKey s 4 0x28

/-- Record 4 with a position's POS_STATE replaced. -/
def withSat (r : Bytes) (p st : Nat) : Bytes := r.take p ++ leBytes 1 st ++ r.drop (p + 1)

/-- Record 4 with its CEIL raised when the counter has reached it (R395, R1001). -/
def satRaise (r : Bytes) (n : Nat) : Bytes :=
  if n < satCeil r then r else r.take 12 ++ leBytes 4 (satCeil r + 256) ++ r.drop 16

/-- The key is promoted when every mated position holds 0x03 (R926). -/
def satPromote (r : Bytes) : Bytes :=
  let mated := (List.range 8).filter (fun p => satState r p != 0)
  if mated.isEmpty || !mated.all (fun p => satState r p == 3) then r
  else
    (r.take 8).map (fun b => if b = 0 then 0 else 1) ++ slice r 8 8 ++ slice r 0x28 24 ++ List.replicate 24 0

/-- A write of record 4, where it changes. -/
def satWrites (s : State) (r : Bytes) : List JobWrite := if payload s 4 = some r then [] else [.record 4 r]

/-- The keys that record 4 offers a position, with the key of its state first; true marks PENDING (R396, R926). -/
def satOffered (s : State) (p : Nat) : List (Bool × Bytes) :=
  let cur := (satCur s).toList.map (fun k => (false, k))
  let pend := (satPend s).toList.map (fun k => (true, k))
  match satState (rec4 s) p with
  | 0 => []
  | 1 => cur ++ pend
  | _ => pend ++ cur

/-! ### Operations (R1002, R1004, R1015) -/

/-- The position of a command, with PARAM otherwise 0 and no key. -/
def satPos (img : Bytes) (s : State) : KRes Nat :=
  (noKey img s).andThen (fun _ s =>
  (kcheck (paramZero img [0] && imgParam img 0 1 ≤ 7) 5 1 s).andThen (fun _ s => .ok (imgParam img 0 1) s))

/-- The message of a MAC over SCNT (R1002). -/
def satMsg (s : State) (label : Byte) (p n : Nat) : Bytes :=
  label :: (groupMsg s).getD [] ++ leBytes 1 p ++ beBytes 4 n

/-- Records 4 and 5 have current copies (reason 0x17). -/
def satReady (s : State) : KRes Unit := kcheck ((payload s 4).isSome && (payload s 5).isSome) 5 0x17 s

def satBuf (img : Bytes) (bs : Bytes) : Eff := .bufDone 2 (imgBuf img 1).ctx (imgBuf img 1).addr bs

def opSatAuthReq (img : Bytes) (s : State) : KRes KEnd :=
  (satPos img s).andThen (fun p s =>
  (needWrite img 1 20 s).andThen (fun _ s =>
  (satReady s).andThen (fun _ s =>
  (kdraw 16 s).andThen (fun nonce s =>
    let n := s.creds.scnt
    .ok (jobOf 2 (satWrites s (satRaise (rec4 s) n)) [.satAuth p nonce n, satBuf img (nonce ++ leBytes 4 n)]) s))))

/-- The nonce and SCNT that a check answers (reason 0x17). -/
def satAsked (p : Nat) (s : State) : KRes (Bytes × Nat) :=
  match aget? s.creds.satAuth p with
  | some x => .ok x { s with creds := { s.creds with satAuth := adel s.creds.satAuth p } }
  | none => .fail 5 0x17 s

def opSatAuthCheck (img : Bytes) (s : State) : KRes KEnd :=
  (satPos img s).andThen (fun p s =>
  (needRead img 0 10 s).andThen (fun _ s =>
  (satReady s).andThen (fun _ s =>
  (kread 2 img 0 0 10 s).andThen (fun b s =>
  (satAsked p s).andThen (fun x s =>
    let msg := satMsg s 0x61 p x.2 ++ x.1
    let hit := (satOffered s p).find? (fun k => mac8 k.2 msg = slice b 2 8)
    match leAt b 0 1 = 0 && leAt b 1 1 = p, hit with
    | true, some (pend, _) =>
      let r := rec4 s
      let r := if pend && satState r p = 2 then satPromote (withSat r p 3) else r
      .ok (jobOf 2 (satWrites s r) [.bind p, .done 2 (doneW 0 0 0)]) s
    | _, _ => .ok (.done 0xC 0x10 0) (writeUntrust p s))))))

def opSatMateOffer (img : Bytes) (s : State) : KRes KEnd :=
  (satPos img s).andThen (fun p s =>
  (needWrite img 1 64 s).andThen (fun _ s =>
  (kscalar 8 s).andThen (fun d s =>
  (kwrite 2 img 1 (pubOf d) s).andThen (fun _ s =>
    .ok (.done 0 0 0) { s with creds := { s.creds with satMate := ains s.creds.satMate p d } }))))

/-- The mate key that a mating delivers and record 4 with it: CUR, or a new key when record 4 has none. -/
def satMateKey (s : State) : KRes (Bytes × Bytes) :=
  match satCur s with
  | some k => .ok (k, rec4 s) s
  | none => (kdraw 16 s).andThen (fun k s =>
    let r := rec4 s
    .ok (k, r.take 16 ++ kwWrap (wrapKey s) k ++ r.drop 40) s)

def opSatMateKey (img : Bytes) (s : State) : KRes KEnd :=
  (satPos img s).andThen (fun p s =>
  (needRead img 0 64 s).andThen (fun _ s =>
  (needWrite img 1 28 s).andThen (fun _ s =>
  (kcheck (payload s 5).isSome 5 0x17 s).andThen (fun _ s =>
  (kread 2 img 0 0 64 s).andThen (fun pub s =>
    match aget? s.creds.satMate p with
    | none => .fail 5 0x17 s
    | some d =>
      match ecdh d pub with
      | none => .fail 5 6 s
      | some z =>
        (satMateKey s).andThen (fun kr s =>
          let n := s.creds.scnt
          let w := kwWrap (derive z [0x53, 0x4D, 0x41, 0x54] devIdBytes 16) kr.1
          .ok (jobOf 2 (satWrites s (satRaise kr.2 n)) [.satAuth p [] n, satBuf img (leBytes 4 n ++ w)]) s))))))

/-- A KEYX MAC checked under a key (R1002). -/
def keyxCheck (img : Bytes) (p : Nat) (key : Option Bytes) (s : State) : KRes Bool :=
  (kread 2 img 0 0 8 s).andThen (fun b s =>
  (satAsked p s).andThen (fun x s => .ok (key.any (fun k => mac8 k (satMsg s 0x62 p x.2) = b)) s))

def opSatMateConfirm (img : Bytes) (s : State) : KRes KEnd :=
  (satPos img s).andThen (fun p s =>
  (needRead img 0 8 s).andThen (fun _ s =>
  (satReady s).andThen (fun _ s =>
  (kcheck (aget? s.creds.satMate p).isSome 5 0x17 s).andThen (fun _ s =>
  (keyxCheck img p (satCur s) s).andThen (fun ok s =>
    if ok then
      .ok (jobOf 2 (satWrites s (withSat (rec4 s) p 1)) [.bound p, .satMateEnd p, .done 2 (doneW 0 0 0)]) s
    else .fail 0xC 0x10 s)))))

/-- PENDING of record 4 and the record with it: a new key at the first roll (R392, R396). -/
def satRollKey (s : State) : KRes (Bytes × Bytes) :=
  match satPend s with
  | some k => .ok (k, rec4 s) s
  | none => (kdraw 16 s).andThen (fun k s =>
    let r := rec4 s
    .ok (k, r.take 8 ++ leBytes 2 (leAt r 8 2 + 1) ++ slice r 10 30 ++ kwWrap (wrapKey s) k) s)

def opSatRoll (img : Bytes) (s : State) : KRes KEnd :=
  (satPos img s).andThen (fun p s =>
  (needWrite img 1 28 s).andThen (fun _ s =>
  (satReady s).andThen (fun _ s =>
    match satCur s, satState (rec4 s) p == 1 || satState (rec4 s) p == 2 with
    | some cur, true =>
      (satRollKey s).andThen (fun kr s =>
        let n := s.creds.scnt
        .ok (jobOf 2 (satWrites s (satRaise (withSat kr.2 p 2) n))
          [.satAuth p [] n, satBuf img (leBytes 4 n ++ kwWrap cur kr.1)]) s)
    | _, _ => .fail 5 0x17 s)))

def opSatRollConfirm (img : Bytes) (s : State) : KRes KEnd :=
  (satPos img s).andThen (fun p s =>
  (needRead img 0 8 s).andThen (fun _ s =>
  (satReady s).andThen (fun _ s =>
  (kcheck (satState (rec4 s) p = 2) 5 0x17 s).andThen (fun _ s =>
  (keyxCheck img p (satPend s) s).andThen (fun ok s =>
    if ok then .ok (jobOf 2 (satWrites s (satPromote (withSat (rec4 s) p 3))) [.done 2 (doneW 0 0 0)]) s
    else .fail 0xC 0x10 s)))))

end Sys2Proof.Machine
end

