-- ==== Sys2Proof/Machine/Can.lean ====
section
/-! DEFINITION. The CAN controllers: bit timing, transmit buffers, arbitration and error states (19). -/
namespace Sys2Proof.Machine

/-! ### Registers of controller n (R964, R985) -/

def canReg (n off : Nat) : Nat := 0x4000C000 + n * 0x1000 + off
def rCAN_CFG (n : Nat) : Nat := canReg n 0
def rCAN_STAT (n : Nat) : Nat := canReg n 0x10
def rCAN_EVT (n : Nat) : Nat := canReg n 0x14
def rCAN_IE (n : Nat) : Nat := canReg n 0x18

def State.canCtl (s : State) (n : Nat) : CanCtl := s.net.can.get (Fin.ofNat 4 n)

def State.onCan (s : State) (n : Nat) (f : CanCtl → CanCtl) : State :=
  { s with net := { s.net with can := s.net.can.set (n % 4) (f (s.canCtl n)) (Nat.mod_lt _ (by decide)) } }

/-- A bit of CANn_EVT: 0 TX_DONE, 1 RX, 2 ERR_PASSIVE, 3 BUS_OFF, 4 RX_DROP, 5 CFG_ERR; it reaches E.NET (R984). -/
def canEvent (n b : Nat) (s : State) : State := blockEvent (rCAN_EVT n) (rCAN_IE n) (rCAN_IE n) 16 15 b s

def canOn (s : State) (n : Nat) : Bool := s.rbit (rCAN_CFG n) 31

/-- CANn_STAT.STATE: 0 active, 1 passive, 2 bus-off, 3 off. -/
def canState (s : State) (n : Nat) : Nat := s.fld (rCAN_STAT n) 3 2

/-! ### Arbitration (R966, R970, R981, R987) -/

/-- The controller may send: it is on, does not only monitor, and is not bus-off. -/
def canSends (s : State) (n : Nat) : Bool := canOn s n && !s.rbit (rCAN_CFG n) 30 && canState s n ≤ 1

/-- An arbitration start on an idle wire: TXB1 before TXB0; a transmission of TXB0 is an attempt of the NET command, and none
starts once it is cancelled (R510). -/
def canArb (n : Nat) (s : State) : State :=
  let c := s.canCtl n
  if !canSends s n || c.onWire.isSome then s
  else match c.tx1, c.tx0 with
    | t :: ts, _ => s.onCan n (fun c => { c with tx1 := { t with tries := t.tries + 1 } :: ts, onWire := some 1 })
    | [], some t =>
      if s.mayAttempt 9 then
        attempt 9 (s.onCan n (fun c => { c with tx0 := some { t with tries := t.tries + 1 }, onWire := some 0 }))
      else s
    | [], none => s

/-- A partner frame: CAN FD with BRS, under an identifier as START_TXID holds one (R927). -/
def partnerFrame (id : Word) (bs : Bytes) : CanFrame :=
  ⟨id &&& 0x1FFFFFFF, BitVec.ofNat 8 (b2n (bit id 31) + 2 + 8), false, 0, bs⟩

/-- A frame in the START block's transmit buffer of a controller (R966). -/
def sendPartner (n : Nat) (id : Word) (bs : Bytes) (s : State) : State :=
  canArb n (s.onCan n (fun c => { c with tx1 := c.tx1 ++ [⟨partnerFrame id bs, 0⟩] }))

/-- The START block's frames that are not on the wire are dropped. -/
def dropPartner (s : State) : State :=
  forEach [0, 1, 2, 3] (fun n s => s.onCan n (fun c =>
    { c with tx1 := if c.onWire = some 1 then c.tx1.take 1 else [] })) s

/-- A partner frame is on a wire. -/
def partnerOnWire (s : State) : Bool := s.net.can.toList.any (fun c => c.onWire == some 1)

/-- CANn_STAT as it reads. -/
def canStat (s : State) (n : Nat) : Word :=
  setBit (setBit (s.reg (rCAN_STAT n)) 1 (!(s.canCtl n).tx1.isEmpty)) 0 (s.canCtl n).tx0.isSome

/-! ### Error states (R968) -/

/-- The state that the error counters give, with its events. -/
def canErrState (n : Nat) (s : State) : State :=
  let tec := s.fld (rCAN_STAT n) 31 24
  let rec_ := s.fld (rCAN_STAT n) 23 16
  if canState s n = 2 then s
  else if 128 ≤ tec || 128 ≤ rec_ then
    let was := canState s n
    let s := s.setFld (rCAN_STAT n) 3 2 1
    when (was != 1) (canEvent n 2) s
  else s.setFld (rCAN_STAT n) 3 2 0

/-- A transmit error: TEC rises by 8, and the controller is bus-off when that passes 255 (ISO 11898-1). -/
def canTxError (n : Nat) (s : State) : State :=
  let tec := s.fld (rCAN_STAT n) 31 24 + 8
  if 255 < tec then
    let s := (s.setFld (rCAN_STAT n) 31 24 255).setFld (rCAN_STAT n) 3 2 2
    canEvent n 3 (s.onCan n (fun c => { c with recovering := s.rbit (rCAN_CFG n) 29, wasOff := true }))
  else canErrState n (s.setFld (rCAN_STAT n) 31 24 tec)

def canTxOk (n : Nat) (s : State) : State :=
  canErrState n (s.setFld (rCAN_STAT n) 31 24 (s.fld (rCAN_STAT n) 31 24 - 1))

/-- A reception, good or not: REC falls by one, from above 127 to a value from 119 to 127 that ISO 11898-1 does not fix (log
entry 4), or rises by one. -/
def canRxCount (n : Nat) (ok : Bool) (s : State) : State :=
  let r := s.fld (rCAN_STAT n) 23 16
  if !ok then canErrState n (s.setFld (rCAN_STAT n) 23 16 (min 255 (r + 1)))
  else if 127 < r then
    let (w, s) := s.freshWord
    canErrState n (s.setFld (rCAN_STAT n) 23 16 (119 + w.toNat % 9))
  else canErrState n (s.setFld (rCAN_STAT n) 23 16 (r - 1))

/-- A bus-off controller has recovered. -/
def canRecovered (n : Nat) (s : State) : State :=
  when (canState s n = 2 && (s.canCtl n).recovering) (fun s =>
    canArb n ((s.setReg (rCAN_STAT n) 0).onCan n (fun c => { c with recovering := false, wasOff := false }))) s

/-- EN goes to 1: the controller resumes the state that its counters give, at once, and stays bus-off when it was and has not
recovered (R968; log entry 61). -/
def canEnable (n : Nat) (s : State) : State :=
  if (s.canCtl n).wasOff then
    (s.setFld (rCAN_STAT n) 3 2 2).onCan n (fun c => { c with recovering := s.rbit (rCAN_CFG n) 29 })
  else
    let passive := 128 ≤ s.fld (rCAN_STAT n) 31 24 || 128 ≤ s.fld (rCAN_STAT n) 23 16
    canArb n (s.setFld (rCAN_STAT n) 3 2 (b2n passive))

/-! ### Bit timing (R964) -/

/-- BRP × quanta of a phase is 80 MHz over its rate: at least lo, at most hi, with at least 4 quanta. -/
def phaseOk (w : Word) (lo hi : Nat) : Bool :=
  let q := 1 + bits w 23 16 + bits w 14 8
  4 ≤ q && lo ≤ bits w 31 24 * q && bits w 31 24 * q ≤ hi

/-- The enabled phases are inside R963: 125 kbit/s to 1 Mbit/s, FD data to 8 Mbit/s, XL data to 20 Mbit/s. -/
def canTimingOk (s : State) (n : Nat) (v : Word) : Bool :=
  phaseOk (s.reg (canReg n 4)) 80 640 &&
  (!bit v 1 || phaseOk (s.reg (canReg n 8)) 10 (2 ^ 16)) &&
  (!bit v 2 || phaseOk (s.reg (canReg n 12)) 4 (2 ^ 16))

end Sys2Proof.Machine
end

