-- ==== Sys2Proof/Machine/Ranging.lean ====
section
/-! DEFINITION. The UHF receiver (13) and the ranging hardware: loaded sets, exchanges, rounds, zones and results (14). -/
namespace Sys2Proof.Machine

/-! ### UHF receiver (R692 to R698) -/

/-- The payload bytes of a frame by its FTYPE; none for an FTYPE outside R667. -/
def ftypeLen (ftype : Nat) : Option Nat :=
  match ftype with
  | 1 => some 5 | 2 => some 9 | 3 => some 15 | 4 => some 26 | 5 => some 14 | _ => none

def uhfEvent (b : Nat) (s : State) : State := blockEvent rUHF_EVT rUHF_IE rUHF_IE 16 14 b s

/-- The synthesiser has had its 200 µs (R697). -/
def uhfLocked (s : State) : Bool := s.rbit rUHF_CFG 31 && s.uhf.enAt + 12480 ≤ s.clk.tb

/-- A frame begins with the last byte of the preamble and the sync word of UHF_SYNC (R665). -/
def uhfSynced (s : State) (sync : BitVec 24) : Bool := sync.toNat == 0xAA0000 + s.fld rUHF_SYNC 15 0

/-- The ticks of one byte at 20 kbit/s (R663). -/
def uhfByte : Nat := 8 * 3120

/-- A frame whose sync word has matched on a channel is received from here to the end of its last bit. -/
def uhfFrame (ch : Fin 4) (sync : BitVec 24) (bs : Bytes) (power : BitVec 8) (fine : BitVec 10) (s : State) : State :=
  when (uhfSynced s sync && !s.uhf.rx.any (fun x => x.ch == ch.val && s.clk.tb < x.endAt)) (fun s =>
    { s with uhf := { s.uhf with rx := s.uhf.rx ++ [⟨ch.val, bs, s.clk.tb + bs.length * uhfByte, power, fine.toNat⟩] } }) s

def execUhfFrame (ch : Fin 4) (sync : BitVec 24) (frame : List Byte) (power : BitVec 8) (fine : BitVec 10) (s : State) : Out :=
  .next (when (s.timed && uhfLocked s && s.rbit rUHF_CFG ch.val) (uhfFrame ch sync frame power fine) s)

/-- LEN and STATUS of a received frame: CRC matches, CRC differs, FTYPE outside R667 (R693). -/
def uhfVerdict (bytes : Bytes) : Nat × Nat :=
  match ftypeLen (leAt bytes 0 1 / 16) with
  | none => (1, 2)
  | some n =>
    let crc := BitVec.ofNat 16 (leAt bytes n 1 * 256 + leAt bytes (n + 1) 1)
    (n, if crc16 (slice bytes 0 n) == crc then 0 else 1)

/-- The header is due: header and data words enter DOUT, or the frame is dropped whole where they do not all fit (R692 to
R695; log entry 20). -/
def uhfDeliver (x : UhfRx) (s : State) : State :=
  let v := uhfVerdict x.bytes
  let hdr := wd (fld 28 1 + fld 26 x.ch + fld 16 v.1 + fld 8 x.power.toNat + v.2)
  let data := wordsOf (slice x.bytes 0 v.1)
  let c := s.chan 0x63
  if s.flushed 6 then s
  else if !c.back.isEmpty || 4 < c.q.length + data.length + 1 then uhfEvent 3 s
  else
    let s := (portTry 0x63 hdr false s.clk.tb x.fine s).2
    let s := portSend 0x63 (withEom data) s
    uhfEvent v.2 (s.incFld rUHF_STAT 31 16)

/-- The frames whose headers are due, 6240 ticks after their ends (R694). -/
def uhfTick (s : State) : State :=
  let due := fun (x : UhfRx) => decide (x.endAt + 6240 ≤ s.clk.tb)
  let out := s.uhf.rx.filter due
  if out.isEmpty then s
  else forEach out uhfDeliver { s with uhf := { s.uhf with rx := s.uhf.rx.filter (fun x => !due x) } }

/-- UHF_STAT as it reads: LOCK, and a frame being received on each channel. -/
def uhfStat (s : State) : Word :=
  let rx := (List.range 4).map (fun c => if s.uhf.rx.any (fun x => x.ch == c && s.clk.tb < x.endAt) then 2 ^ c else 0)
  setBits (setBit (s.reg rUHF_STAT) 4 (uhfLocked s)) 3 0 rx.sum

/-- The receiver off: what it receives is lost (R697, R705). -/
def uhfOff (s : State) : State := { s with uhf := { s.uhf with rx := [] } }

/-- A write of a UHF register that does more than store its word (R698). -/
def uhfWrite (a : Nat) (v : Word) (s : State) : Option State :=
  let en := s.rbit rUHF_CFG 31
  if a = rUHF_CFG then
    let band := if bits v 9 8 = 3 then 1 else bits v 9 8
    if en && band != s.fld rUHF_CFG 9 8 then some s
    else
      let s := s.setReg a (setBits v 9 8 band &&& 0x8000030F)
      some (if !bit v 31 then uhfOff s else if en then s else { s with uhf := { s.uhf with enAt := s.clk.tb } })
  else if a = rUHF_SYNC then
    some (if en && bits v 15 0 != s.fld rUHF_SYNC 15 0 then s else s.setReg a (v &&& 0xFFFF))
  else none

/-! ### Loaded sets (R711 to R716) -/

def uwbEvent (b : Nat) (s : State) : State := blockEvent rUWB_EVT rUWB_IE rUWB_IE 16 14 b s

def State.onRange (s : State) (f : Range → Range) : State := { s with range := f s.range }

/-- Every LOAD clears PASS (R714). -/
def clearPass (s : State) : State := s.setRbit rRANGE_RESULT 7 false

def loadRbe (session ta : Nat) (chal zero one : Bytes) (s : State) : State :=
  clearPass (s.onRange (fun r => { r with rbe := some ⟨session, ta, chal, zero, one, s.clk.tb⟩ }))

def loadSts (session : Nat) (key iv : Bytes) (s : State) : State :=
  clearPass (s.onRange (fun r => { r with sts := some ⟨session, key, iv, s.clk.tb⟩ }))

/-- The words that wait on channel 0x76 join the message. -/
def drainLoad : Nat → State → State
  | 0, s => s
  | n + 1, s =>
    match s.range.loadEom, (s.chan 0x76).q.head? with
    | false, some h =>
      drainLoad n ((cDrop 0x76 s).onRange (fun r => { r with load := r.load ++ [h.w], loadEom := h.eom }))
    | _, _ => s

/-- A complete message of a kind is taken; one of another length or kind than R713 gives is discarded (log entry 16). -/
def takeLoad (kind : Nat) (s : State) : State :=
  let s := drainLoad 8 s
  let ws := s.range.load
  let w0 := ws.getD 0 0
  if !s.range.loadEom then s
  else
    let drop := fun (s : State) => s.onRange (fun r => { r with load := [], loadEom := false })
    let bs := bytesOf ws
    if ws.length != 8 || !(bits w0 31 28 = 1 || bits w0 31 28 = 2) then drop s
    else if bits w0 31 28 != kind then s
    else if kind = 1 then
      loadRbe (bits w0 2 0) (ws.getD 1 0).toNat (slice bs 8 8) (slice bs 16 8) (slice bs 24 8) (drop s)
    else loadSts (bits w0 2 0) (slice bs 4 16) (slice bs 20 12) (drop s)

def execLoadRbe (s : State) : Out := .next (when s.timed (takeLoad 1) s)
def execLoadSts (s : State) : Out := .next (when s.timed (takeLoad 2) s)

/-- A set unused 100 ms after its LOAD is cleared (R715). -/
def execLoadExpired (s : State) : Out :=
  .next (when s.timed (fun s =>
    let due := fun (t : Nat) => decide (t + msTicks 100 ≤ s.clk.tb)
    let a := s.range.rbe.any (fun x => due x.at_)
    let b := s.range.sts.any (fun x => due x.at_)
    when (a || b) (fun s => uwbEvent 3 (s.onRange (fun r =>
      { r with rbe := if a then none else r.rbe, sts := if b then none else r.sts }))) s) s)

/-! ### Results (R739, R740) -/

/-- A STAT word of the RANGE engine. -/
def rangeWord (bound zone cause method purpose session : Nat) : Word :=
  wd (fld 16 (min bound 0xFFFF) + fld 12 zone + fld 8 cause + fld 7 (b2n (cause = 0 && method != 5)) + fld 4 method +
    fld 3 purpose + session)

/-- A result: the anchors' distances on DOUT, the STAT word, and RANGE_RESULT with its events. A cancelled command's PASS is
a late success (R512, R749). -/
def rangeReport (dists : List (Nat × Nat)) (w : Word) (s : State) : State :=
  let s := portSend 0x73 (withEom (dists.map (fun d => wd (fld 28 d.1 + d.2 % 65536)))) s
  let s := (portSend 0x75 [(w, false)] s).setReg rRANGE_RESULT w
  let s := when (bit w 7) (lateSuccess 7) s
  uwbEvent 0 (when (!bit w 7) (uwbEvent 1) s)

/-- A BOUND that the spec gives no value: the exchange ended before it was measured (log entry 4). -/
def freshBound (s : State) : Nat × State := let (w, s) := s.freshWord; (bits w 15 0, s)

/-! ### Distances (R722, R732, R735) -/

/-- A rational number of units of 1/1024 tick, times c, in cm rounded up: num / den units travelled one way. -/
def cmUp (num : Int) (den : Nat) : Nat :=
  Int.toNat (-((-(num * 29979245800)) / ((den : Int) * 63897600000)))

/-- METHOD of a run (R707). -/
def RangeKind.method : RangeKind → Nat
  | .rbe _ => 1
  | .round _ => 2
  | .lf gen => if gen = 1 then 4 else 3
  | .cal _ => 5

/-- The delay of a port's antenna on the channel in use (R710). -/
def antDelay (s : State) (port : Nat) : Int := (s.fld (rUWB_ANTDLY + 4 * (2 * port + s.fld rUWB_CFG 30 30)) 15 0 : Nat)

/-- A satellite gives a distance only while its position is BOUND (R753, R1013). -/
def satGives (s : State) (p : Nat) : Bool := s.fld (rADIT_POS + 4 * p) 31 28 == 1

/-- The zone of R736: the lowest that holds, 0xF when none does. -/
def zoneOf (s : State) (purpose : Nat) (dists : List (Nat × Nat)) : Nat :=
  ((List.range 8).find? (fun z =>
    let w := s.reg (rRANGE_ZONE + 4 * z)
    bit w 31 && bits w 30 30 = purpose &&
      (List.range 10).all (fun a => !bit w (16 + a) || dists.any (fun d => d.1 = a && d.2 ≤ bits w 11 0)))).getD 0xF

/-- The end of a run whose distances are measured: the bound against LIMIT, then the zones (R722, R734, R736). -/
def judgeZones (r : RangeRun) (bound : Option Nat) (dists : List (Nat × Nat)) (s : State) : State :=
  let m := r.kind.method
  let (b, s) := match bound with
    | some b => (b, s)
    | none => freshBound s
  let limit := s.fld rRANGE_CFG 31 20
  if bound.any (fun b => limit < b) then rangeReport dists (rangeWord b 0xF 4 m r.purpose r.session) s
  else
    let z := zoneOf s r.purpose dists
    rangeReport dists (rangeWord b z (if z = 0xF then 6 else 0) m r.purpose r.session) s

/-- A run that ends with a cause before its bound is measured, with the distances that its anchors have. -/
def endCause (r : RangeRun) (cause : Nat) (dists : List (Nat × Nat)) (s : State) : State :=
  let (b, s) := freshBound s
  rangeReport dists (rangeWord b 0xF cause r.kind.method r.purpose r.session) s

/-! ### Rapid bit exchange (R717 to R722, R735) -/

/-- Bit i of a vector (R712). -/
def vecBit (v : Bytes) (i : Nat) : Bool := (v.getD (i / 8) 0).getLsbD (7 - i % 8)

def expectedBit (x : RbeSet) (i : Nat) : Bool := if vecBit x.chal i then vecBit x.one i else vecBit x.zero i

/-- A reply lies inside its window: 1.0 ns + WIN × 0.5 ns wide about RT_ref (R720). -/
def inWindow (win : Nat) (rtt ref : Int) : Bool := (rtt - ref).natAbs * 10000 ≤ (2 + min win 8) * 159744

/-- The replies of an exchange judged in order from reply i with the bit errors so far, `dly` being the delay of the port's
antenna: the index and cause at which it ends, or none when all 64 pass (R710, R720, R721). -/
def judgeReplies (x : RbeSet) (win maxErr : Nat) (dly ref : Int) : Nat → Nat → List (Option RbeReply) → Option (Nat × Nat)
  | i, _, [] => if i < 64 then some (i, 2) else none
  | i, errs, r :: rs =>
    if 64 ≤ i then none
    else match r with
      | none => some (i, 2)
      | some y =>
        if !inWindow win ((y.delay.toNat : Int) - dly - (x.ta : Nat)) ref then some (i, 2)
        else
          let errs := errs + b2n (y.bit != expectedBit x i)
          if maxErr < errs then some (i, 3) else judgeReplies x win maxErr dly ref (i + 1) errs rs

/-- The distances of an exchange: the active port's bound and each enabled satellite anchor's (R722, R735). -/
def rbeDists (s : State) (x : RbeSet) (port : Nat) (bound : Nat) (rtts : List Int) (sats : List (Option (BitVec 32))) :
    List (Nat × Nat) :=
  let n := rtts.length
  let sat := (List.range 8).filterMap (fun p =>
    let w := s.reg (rRANGE_ANCH + 4 * p)
    if !bit w 31 || !satGives s p then none
    else match (sats.getD p none) with
      | none => none
      | some d =>
        let d0 := if port = 0 then bits w 11 0 else bits w 27 16
        -- c (Δ − TA) − c/2 mean(rtt), ended 2n, then the anchor's own distance
        let num := ((d.toNat : Int) - (x.ta : Nat)) * (2 * n) - rtts.sum
        some (p + 2, Int.toNat (-((-(num * 29979245800)) / ((2 * n : Int) * 63897600000)) + (d0 : Nat))))
  (port, bound) :: sat

/-- A rapid bit exchange judged (R719 to R722). -/
def judgeRbe (r : RangeRun) (x : RbeSet) (ack : Option (BitVec 32)) (replies : List (Option RbeReply))
    (sats : List (Option (BitVec 32))) (s : State) : State :=
  match ack with
  | none => endCause r 1 [] s
  | some a =>
    let dly := antDelay s r.port
    let ref : Int := (a.toNat : Int) - dly - (x.ta : Nat)
    if 1277952 < ref * 100 then endCause r 1 [] s
    else match judgeReplies x (s.fld rRANGE_CFG 15 12) (s.fld rRANGE_CFG 9 8) dly ref 0 0 replies with
      | some (_, cause) => endCause r cause [] s
      | none =>
        let rtts := (replies.take 64).filterMap (fun y => y.map (fun y => (y.delay.toNat : Int) - dly - (x.ta : Nat)))
        let bound := cmUp (rtts.foldl max ref) 2
        judgeZones r (some bound) (rbeDists s x r.port bound rtts sats) s

/-- A calibration judged (R727): 16 challenges without window check; a reply that is missing counts as a bit error. -/
def judgeCal (r : RangeRun) (x : RbeSet) (ack : Option (BitVec 32)) (replies : List (Option RbeReply)) (s : State) : State :=
  let done := fun (cause : Nat) (s : State) => rangeReport [] (rangeWord 0 0xF cause 5 r.purpose r.session) s
  if ack.isNone then done 1 s
  else
    let ys := (List.range 16).map (fun i => replies.getD i none)
    let errs := (ys.zipIdx.filter (fun y => !(y.1.any (fun q => q.bit == expectedBit x y.2)))).length
    if s.fld rRANGE_CFG 9 8 < errs then done 3 s
    else
      let good := ys.filterMap (fun y => y.map (fun q => (q.delay.toNat : Int) - antDelay s r.port))
      let n : Int := max 1 good.length
      -- mean − 2 DIST / c in units of 1/1024 tick, rounded to the nearest (log entry 21)
      let num := good.sum * 29979245800 - n * (2 * s.fld rRANGE_CAL 9 0 : Nat) * 63897600000
      let den := n * 29979245800
      let ta := (2 * num + den) / (2 * den)
      done 0 (portSend 0x73 [(BitVec.ofInt 32 ta, true)] s)

/-! ### Phone rounds (R729 to R734) -/

/-- What a slot of a phone round carries. -/
inductive RoundSlot where
  | poll
  | resp (anchor : Nat)
  | final
  deriving DecidableEq, Repr

/-- The STS packet mode of a slot's frame (R729). -/
def RoundSlot.sp : RoundSlot → Nat
  | .final => 1
  | _ => 3

/-- The anchors that answer in phone rounds, in the order of their slots (R729). -/
def roundAnchors (s : State) : List Nat := (List.range 10).filter (fun a => s.rbit rUWB_CFG a)

/-- The slots of a round: POLL, one RESP for each anchor, FINAL (R729). -/
def roundSlots (s : State) : List RoundSlot := .poll :: (roundAnchors s).map .resp ++ [.final]

/-- The ticks of a slot. -/
def slotTicks (s : State) : Nat := s.fld rUWB_CFG 23 20 * 6240

/-- ROUND1 and REPLY2 of the anchor in RESP slot k, from the FINAL payload of a round of n anchors (R731). -/
def finalTimes (payload : Bytes) (n k : Nat) : Option (Nat × Nat) :=
  if leAt payload 0 1 = 0x46 && leAt payload 3 1 = n && 4 + 8 * n ≤ payload.length then
    some (leAt payload (4 + 8 * k) 4, leAt payload (8 + 8 * k) 4)
  else none

/-- The distance of an anchor in a phone round; the timestamps of a port refer to its antenna (R710, R732). -/
def phoneDist (dly : Int) (phone : Nat × Nat) (a : AnchorTimes) : Option Nat :=
  let r1 : Int := (phone.1 : Nat)
  let p2 : Int := (phone.2 : Nat)
  let r2 : Int := (a.round2.toNat : Int) - dly
  let p1 : Int := (a.reply1.toNat : Int) + dly
  let sum := r1 + r2 + p1 + p2
  if !a.stsOk || sum ≤ 0 then none else some (cmUp (r1 * r2 - p1 * p2) sum.toNat)

/-- A phone round judged (R730, R733, R734). -/
def judgeRound (r : RangeRun) (poll : Bool) (final : Option Bytes) (anchors : List (Option AnchorTimes)) (s : State) : State :=
  match poll, final with
  | false, _ => endCause r 1 [] s
  | true, none => endCause r 5 [] s
  | true, some payload =>
    let named := roundAnchors s
    let port := anchors.getD r.port none
    let dists := named.zipIdx.filterMap (fun e =>
      let a := e.1
      if 2 ≤ a && !satGives s (a - 2) then none
      else match anchors.getD a none, finalTimes payload named.length e.2 with
        | some x, some f => (phoneDist (if a < 2 then antDelay s a else 0) f x).map (fun d => (a, d))
        | _, _ => none)
    if named.contains r.port && port.any (fun x => !x.stsOk) then endCause r 5 dists s
    else
      judgeZones r ((dists.find? (fun d => d.1 == r.port)).map Prod.snd) dists s

/-! ### LF zoning (R736 to R738) -/

def lfZoneHolds (w : Word) (purpose : Nat) (rssi : List Nat) : Bool :=
  let j := bits w 26 24
  bit w 31 && bits w 30 30 = purpose && bits w 7 0 ≤ rssi.getD j 0 &&
    (List.range 6).all (fun k => k = j || rssi.getD k 0 + bits w 15 8 ≤ rssi.getD j 0)

/-- An LF run judged on its two DIN words. A GEN that is neither Gen-1 nor Gen-2 is judged as Gen-2 (log entry 22). -/
def judgeLf (r : RangeRun) (gen : Nat) (w0 w1 : Word) (s : State) : State :=
  let out := fun (zone cause : Nat) (s : State) => rangeReport [] (rangeWord 0 zone cause r.kind.method r.purpose r.session) s
  if gen = 1 then
    if r.purpose = 1 && bits w1 18 16 = s.fld rRANGE_LFCFG 2 0 then out 0xE 0 s else out 0xF 7 s
  else if r.purpose = 0 && !s.rbit rRANGE_LFCFG 31 then out 0xF 7 s
  else
    let rssi := [bits w0 7 0, bits w0 15 8, bits w0 23 16, bits w0 31 24, bits w1 7 0, bits w1 15 8]
    let z := ((List.range 8).find? (fun z => lfZoneHolds (s.reg (rRANGE_LFZONE + 4 * z)) r.purpose rssi)).getD 0xF
    out z (if z = 0xF then 6 else 0) s

/-! ### CTRL words (R743 to R745) -/

/-- A run of the RANGE hardware begins. -/
def rangeBegin (k : RangeKind) (purpose session t : Nat) (s : State) : State :=
  s.onRange (fun r => { r with run := some ⟨k, purpose, session, t, s.fld rRANGE_CFG 0 0, none, none⟩ })

/-- The FCS of an 802.15.4 frame: the CRC-16 of ITU-T, least significant bit first, from 0. -/
def frameCheck (bs : Bytes) : Nat := (bs.foldl (crcByte (0x8408 : BitVec 16)) 0).toNat

/-- The INIT frame that begins an exchange, on the preamble code of UWB_CFG.PCODE (R717). The spec gives the RANGE hardware no
source of EIDL, so its two bytes are free (log entry 4). -/
def sendInit (s : State) : State :=
  let (eidl, s) := s.freshBytes 2
  let body := 0x49 :: eidl ++ [0x40]
  s.onRange (fun r => { r with run := r.run.map (fun x =>
    { x with init := some (s.fld rUWB_CFG 27 24, body ++ leBytes 2 (frameCheck body)) }) })

/-- A word for which no set of the needed kind is loaded (R739). -/
def notLoaded (k : Nat) (purpose session : Nat) (s : State) : State :=
  let (b, s) := if k = 5 then (0, s) else freshBound s
  rangeReport [] (rangeWord b 0xF 8 k purpose session) s

/-- A head CTRL word of the RANGE engine with this OP: refused while something runs (R745). -/
def rangeCtrl (op : Nat) (f : Word → Nat → State → State) (s : State) : State :=
  withSome (s.ctrlHead 0x74 op) (fun h s =>
    let s := cDrop 0x74 s
    if s.range.run.isSome then uwbEvent 2 s else f h.w h.tick s) s

/-- RBE: the exchange starts with the loaded set, which is cleared, and counts as one attempt (R715, R717, R723). -/
def rangeRbe (w : Word) (t : Nat) (s : State) : State :=
  match s.range.rbe with
  | some x =>
    if x.session = bits w 2 0 then
      attempt 7 (sendInit (rangeBegin (.rbe x) (bits w 3 3) (bits w 2 0) t (s.onRange (fun r => { r with rbe := none }))))
    else notLoaded 1 (bits w 3 3) (bits w 2 0) s
  | none => notLoaded 1 (bits w 3 3) (bits w 2 0) s

def rangeRound (w : Word) (t : Nat) (s : State) : State :=
  match s.range.sts with
  | some x =>
    if x.session = bits w 2 0 then
      attempt 7 (rangeBegin (.round x) (bits w 3 3) (bits w 2 0) t (s.onRange (fun r => { r with sts := none })))
    else notLoaded 2 (bits w 3 3) (bits w 2 0) s
  | none => notLoaded 2 (bits w 3 3) (bits w 2 0) s

/-- CAL, refused outside FACTORY and SERVICE (R728). -/
def rangeCal (_w : Word) (t : Nat) (s : State) : State :=
  if !(s.sys.mode == .factory || s.sys.mode == .service) then rangeReport [] (rangeWord 0 0xF 7 5 0 0) s
  else match s.range.rbe with
    | none => notLoaded 5 0 0 s
    | some x => attempt 7 (sendInit (rangeBegin (.cal x) 0 x.session t (s.onRange (fun r => { r with rbe := none }))))

/-- An LF run is no attempt on the air, and an attempt of a cancelled command has ended before it: a PASS of the run is no late
success (R512). -/
def dropLate (e : Nat) (s : State) : State := s.setEngine e { s.engine e with late := none }

def execRbe (s : State) : Out := .next (when s.timed (rangeCtrl 1 rangeRbe) s)
def execRound (s : State) : Out := .next (when s.timed (rangeCtrl 2 rangeRound) s)
def execLfZone (s : State) : Out :=
  .next (when s.timed (rangeCtrl 3 (fun w t s => rangeBegin (.lf (bits w 6 4)) (bits w 3 3) (bits w 2 0) t (dropLate 7 s))) s)
def execCal (s : State) : Out := .next (when s.timed (rangeCtrl 5 rangeCal) s)

/-- The tick of the burst or frame boundary at which a STOP ends a run: the next challenge of an exchange, none once the
last has left; for a round the STOP itself, from which `roundStop` finds the frame boundary; at once for an LF run (R717, R729,
R745). -/
def stopTick (s : State) (r : RangeRun) : Option Nat :=
  let bursts := fun (n : Nat) =>
    let first := r.t0 + 4992 + 5 * 936
    if s.clk.tb ≤ first then some first
    else
      let k := (s.clk.tb - first + 935) / 936
      if k < n then some (first + k * 936) else none
  match r.kind with
  | .rbe _ => bursts 64
  | .cal _ => bursts 16
  | .round _ => some s.clk.tb
  | .lf _ => some s.clk.tb

/-- STOP: the loaded sets are cleared, and the running exchange ends with ABORTED at its next boundary (R715, R745). -/
def rangeStop (s : State) : State :=
  let s := clearSets s
  withSome s.range.run (fun r s => s.onRange (fun x => { x with run := some { r with aborted := r.aborted.or (stopTick s r) } })) s

def execRangeStop (s : State) : Out :=
  .next (when s.timed (fun s => withSome (s.ctrlHead 0x74 4) (fun _ s => rangeStop (cDrop 0x74 s)) s) s)

/-- QUENCH: what runs ends at thaw with ABORTED (R750). -/
def rangeThaw (s : State) : State :=
  s.onRange (fun x => { x with run := x.run.map (fun r => { r with aborted := some s.clk.tb }) })

/-! ### The end of a run (R739) -/

/-- The first tick at which what the radio received ends the run: a result is not written before the event that decides it
(R717, R719 to R721, R730). -/
def rangeDue (s : State) (r : RangeRun) (meas : RangeMeas) : Nat :=
  let at_ := fun (x : RbeSet) (i : Nat) => r.t0 + 4992 + (i + 5) * 936 + x.ta / 1024
  match r.kind, meas with
  | .rbe x, .burst none _ _ => r.t0 + 4992 + (x.ta + 12779) / 1024
  | .rbe x, .burst (some a) replies _ =>
    let dly := antDelay s r.port
    let ref : Int := (a.toNat : Int) - dly - (x.ta : Nat)
    if 1277952 < ref * 100 then r.t0 + 4992 + (x.ta + 12779) / 1024
    else at_ x (((judgeReplies x (s.fld rRANGE_CFG 15 12) (s.fld rRANGE_CFG 9 8) dly ref 0 0 replies).map Prod.fst).getD 63)
  | .cal _, .burst none _ _ => r.t0 + 4992 + 5 * 936
  | .cal x, _ => at_ x 15
  | .round _, .phone (some p) fin _ =>
    -- FINAL has its slot after the last RESP; one that does not come is known missing at the end of that slot
    if slotTicks s ≤ p.toNat then r.t0 + slotTicks s
    else r.t0 + p.toNat + ((roundSlots s).length - b2n fin.isSome) * slotTicks s
  | .round _, _ => r.t0 + slotTicks s
  | _, _ => r.t0

/-- The LF words of R744 that wait on DIN. -/
def lfWords (s : State) : Option (Word × Word) :=
  match (s.chan 0x72).q with
  | a :: b :: _ => some (a.w, b.w)
  | _ => none

/-- A run judged on what the radio received; a measurement of another kind, or a radio that is off, is no reception. -/
def judgeRun (r : RangeRun) (meas : RangeMeas) (s : State) : State :=
  let on := s.rbit rUWB_CFG 31
  match r.kind, meas with
  | .rbe x, .burst ack rs sats => judgeRbe r x (if on then ack else none) rs sats s
  | .rbe _, _ => endCause r 1 [] s
  | .cal x, .burst ack rs _ => judgeCal r x (if on then ack else none) rs s
  | .cal x, _ => judgeCal r x none [] s
  | .round _, .phone poll fin anchors => judgeRound r (on && poll.any (fun p => p.toNat < slotTicks s)) fin anchors s
  | .round _, _ => endCause r 1 [] s
  | .lf gen, _ =>
    match lfWords s with
    | some (a, b) => judgeLf r gen a b (cDrop 0x72 (cDrop 0x72 s))
    | none => s

/-- A BOUND of an aborted run: 0 for LF and CAL, else not stated. -/
def rangeAbort (r : RangeRun) (s : State) : State :=
  match r.kind with
  | .lf _ => rangeReport [] (rangeWord 0 0xF 9 r.kind.method r.purpose r.session) s
  | .cal _ => rangeReport [] (rangeWord 0 0xF 9 5 r.purpose r.session) s
  | _ => endCause r 9 [] s

/-- The frame boundary at which a round stopped at tick t ends: the next slot counted from the POLL's RMARKER, or at once
before POLL has come (R729, R745). -/
def roundStop (s : State) (r : RangeRun) (meas : RangeMeas) (t : Nat) : Nat :=
  match r.kind, meas with
  | .round _, .phone (some p) _ _ =>
    let first := r.t0 + p.toNat
    if t ≤ first then t else first + (t - first + slotTicks s - 1) / slotTicks s * slotTicks s
  | _, _ => t

/-- The run ends and its result is written. -/
def rangeResult (meas : RangeMeas) (s : State) : State :=
  match s.range.run with
  | none => s
  | some r =>
    let ended := s.onRange (fun x => { x with run := none })
    match r.aborted with
    | some t => if roundStop s r meas t ≤ s.clk.tb then rangeAbort r ended else s
    | none =>
      match r.kind with
      | .lf _ => if (lfWords s).isSome then judgeRun r meas ended else s
      | _ => if rangeDue s r meas ≤ s.clk.tb then judgeRun r meas ended else s

/-! ### Registers -/

/-- UWB_STAT as it reads. LOCK follows EN, as the spec gives no lock time (log entry 23). -/
def uwbStat (s : State) : Word :=
  wd (fld 2 (b2n s.range.rbe.isSome) + fld 1 (b2n s.range.run.isSome) + b2n (s.rbit rUWB_CFG 31))

/-- A write of a UWB or RANGE register whose stored value differs from the written one. -/
def uwbWrite (a : Nat) (v : Word) (s : State) : Option State :=
  if a = rUWB_CFG then
    let v := if 9 ≤ bits v 27 24 && bits v 27 24 ≤ 12 then v else setBits v 27 24 9
    some (s.setReg a (setBits v 23 20 (max 4 (bits v 23 20)) &&& 0xCFF003FF))
  else if a = rRANGE_CFG then some (s.setReg a (setBits v 15 12 (min 8 (bits v 15 12)) &&& 0xFFF0F301))
  else if a = rRANGE_LFCFG then
    some (s.setReg a ((if 6 ≤ bits v 2 0 then setBits v 2 0 0 else v) &&& 0x80000007))
  else if rRANGE_LFZONE ≤ a && a < rRANGE_LFZONE + 32 then
    some (s.setReg a ((if 6 ≤ bits v 26 24 then setBits v 26 24 0 else v) &&& 0xC700FFFF))
  else none

end Sys2Proof.Machine
end

