-- ==== Sys2Proof/Machine/StartLock.lean ====
section
/-! DEFINITION. The start lock: presence marks, the partner frames, CRANK, key rolls and mating to the engine controller
(18). -/
namespace Sys2Proof.Machine

/-! ### Presence marks and grants from RANGE results (R888, R889) -/

def State.onStart (s : State) (f : Start → Start) : State := { s with start := f s.start }

def startEvent (b : Nat) (s : State) : State := s.setRbit rSTART_EVT b true

/-- A presence mark set now. -/
def setMark (cls cred : Nat) (s : State) : State :=
  let s := (s.setReg rSTART_PRES_ID (wd (fld 31 1 + fld 16 cls + cred))).setReg rSTART_PRES_T s.tbLo
  s.onStart (fun x => { x with markAt := some s.clk.tb })

/-- The METHOD that a class of credential needs (R742, R888). -/
def classMethod (cls : Nat) : Option Nat :=
  match cls with
  | 0 => some 4 | 1 => some 3 | 2 => some 1 | 4 => some 2 | _ => none

/-- FLAGS of a slot or RIGHTS of the session's ticket, 0 for one that is revoked or gone. -/
def credRights (s : State) (k : KSession) (cred cls : Nat) : Nat :=
  if cls = 4 then (k.ticket.map TicketBind.rights).getD 0
  else if slotRevoked s cred then 0
  else ((credSlot s cred).map (fun p => leAt p 2 2)).getD 0

/-- A RANGE result of PASS 1 gives the session's verified credential a grant or a presence mark (R59, R888). -/
def creditRange (w : Word) (s : State) : State :=
  let k := s.ksess (bits w 2 0)
  match k.verified with
  | none => s
  | some (cred, cls) =>
    let rights := credRights s k cred cls
    if !bit w 7 || !s.sys.active.getLsbD (bits w 2 0) || classMethod cls != some (bits w 6 4) then s
    else if bit w 3 then when (rights.testBit 1) (setMark cls cred) s
    else when (rights.testBit 0 && cls != 0) (setGrant (bits w 2 0)) s

/-- After a rapid bit exchange or a phone round, ANCH_POLL goes to every BOUND position whose anchor is enabled (R1019). -/
def anchPolls (r : Option RangeRun) (s : State) : State :=
  match r.map RangeRun.kind with
  | some (.rbe _) | some (.round _) =>
    let n := ((List.range 8).filter (fun p => s.rbit (rRANGE_ANCH + 4 * p) 31 && satGives s p)).length
    when (s.rbit rADIT_CFG 31) (fun s => s.setFld rADIT_STAT 31 16 (s.fld rADIT_STAT 31 16 + n)) s
  | _ => s

def execRangeResult (meas : RangeMeas) (s : State) : Out :=
  .next (when s.timed (fun s =>
    let t := rangeResult meas s
    let t := if t.range.run.isNone then anchPolls s.range.run t else t
    when (s.range.run.isSome && t.range.run.isNone && t.kiln.ready) (creditRange (t.reg rRANGE_RESULT)) t) s)

/-! ### Withdrawing the release (R913, R937, R939, R1111) -/

/-- The release is withdrawn: T13 with cause 0x0B. -/
def withdraw (s : State) : State := when (s.sys.mode == .drive) (commit .access 0x0B) s

/-- The presence mark is cleared (R913). -/
def clearMark (s : State) : State :=
  withdraw (((s.setReg rSTART_PRES_ID 0).setReg rSTART_PRES_T 0).onStart (fun x => { x with markAt := none }))

/-- The tick at which presence supervision expires. -/
def supervisionEnd (s : State) : Nat := (s.start.markAt.getD 0) + msTicks 1000 * s.fld rSTART_PRES 31 16

def execPresenceSupervision (s : State) : Out :=
  .next (when (s.live && s.sys.mode == .drive && (s.start.markAt.isNone || supervisionEnd s ≤ s.clk.tb)) withdraw s)

/-! ### Record 3 (R391 to R395) -/

def rec3 (s : State) : Bytes := slice ((payload s 3).getD []) 0 68
def rec3State (s : State) : Nat := leAt (rec3 s) 0 1
def rec3Ceil (s : State) : Nat := leAt (rec3 s) 4 4

/-- The payload of record 3. -/
def rec3Body (state roll ceil : Nat) (cur pend : Bytes) (rxid txid : Word) (can : Nat) : Bytes :=
  leBytes 1 state ++ [0] ++ leBytes 2 roll ++ leBytes 4 ceil ++ slice cur 0 24 ++ slice pend 0 24 ++
  leOfWord rxid ++ leOfWord txid ++ leBytes 1 can ++ [0, 0, 0]

/-- Record 3 with STATE 0x01 and a key in CUR (R392, R942). -/
def rec3Single (s : State) (cur : Bytes) (ceil : Nat) : Bytes :=
  let r := rec3 s
  rec3Body 1 (leAt r 2 2) ceil cur [] (wordOfLe (slice r 0x38 4)) (wordOfLe (slice r 0x3C 4)) (leAt r 0x40 1)

/-- Record 3 with only its ceiling changed. -/
def rec3Raised (s : State) (ceil : Nat) : Bytes :=
  let r := rec3 s
  r.take 4 ++ leBytes 4 ceil ++ r.drop 8

def curKey (s : State) : Option Bytes := recordKey s 3 8
def pendKey (s : State) : Option Bytes := recordKey s 3 0x20

/-- The keys that record 3 offers, PENDING first (R394); true marks PENDING. -/
def offered (s : State) : List (Bool × Bytes) :=
  let cur := (curKey s).toList.map (fun k => (false, k))
  if rec3State s = 2 then (pendKey s).toList.map (fun k => (true, k)) ++ cur
  else if rec3State s = 1 then cur else []

/-- The START block loads its registers from record 3 (R945, R395). -/
def startLoad (s : State) : State :=
  let r := rec3 s
  let s := s.setReg rSTART_CFG (wd (fld 31 (b2n (rec3State s != 0)) + leAt r 0x40 1 % 4))
  let s := (s.setReg rSTART_RXID (wordOfLe (slice r 0x38 4))).setReg rSTART_TXID (wordOfLe (slice r 0x3C 4))
  let s := (s.setReg rSTART_COUNT (wd (rec3Ceil s))).setReg rSTART_PRES (regReset rSTART_PRES)
  let s := ((s.setReg rSTART_EVT 0).setReg rSTART_PRES_ID 0).setReg rSTART_PRES_T 0
  s.onStart (fun _ => Start.idle)

/-- START_STAT as it reads (R945). -/
def startStat (s : State) : Word :=
  let rel := b2n s.crankRelease
  let fresh := s.start.markAt.any (fun t => s.clk.tb ≤ t + msTicks (s.fld rSTART_PRES 15 0))
  wd (fld 7 (b2n fresh) + fld 4 (b2n (rec3State s = 2)) + fld 3 (b2n (rec3State s != 0)) + fld 2 (1 - rel) + fld 1 rel + rel)

/-- A write of a START register whose stored value differs from the written one. -/
def startWrite (a : Nat) (v : Word) (s : State) : Option State :=
  if a = rSTART_PRES then
    some (s.setReg a (wd (fld 16 (clamp 1 3600 (bits v 31 16)) + clamp 500 60000 (bits v 15 0))))
  else none

/-! ### Partner frames (R927, R928) -/

/-- The controller that START_CFG names. -/
def startCan (s : State) : Nat := s.fld rSTART_CFG 1 0

/-- The next COUNTER value, used (R930). -/
def drawCount (s : State) : Nat × State :=
  let n := (s.reg rSTART_COUNT).toNat
  (n, s.setReg rSTART_COUNT (wd (n + 1)))

/-- A START command ends. -/
def startDone (status reason value : Nat) (s : State) : State :=
  kilnDone 0xC status reason value (s.onStart (fun x => { x with crank := none, roll := none, mate := none }))

/-- A CHALLENGE verifies under none of the keys that record 3 offers: REPLACED while MATED is 1 (R944). -/
def replaced (s : State) : State :=
  let s := startDone 0xC 0x10 0 (startEvent 3 s)
  when s.sys.mated (raiseLockdown 0) s

/-- The key under which a CHALLENGE verifies (R394, R928). -/
def challengeKey (s : State) (c : Bytes) : Option (Bool × Bytes) :=
  (offered s).find? (fun k => mac8 k.2 (0x45 :: c.take 24) = slice c 24 8)

/-- A job put behind those that wait. -/
def addJob (writes : List JobWrite) (effs fail : List Eff) (s : State) : State :=
  { s with creds := { s.creds with jobs := s.creds.jobs ++ [⟨writes, effs, fail⟩] } }

/-! ### CRANK (R931 to R936, R943) -/

def fail1B : List Eff := [.done 0xC (doneW 5 0x1B 0)]

/-- The verdict is release (R932, R947, R1111). -/
def verdict (s : State) (chal : Challenge) : Bool :=
  let age := chal.tick - s.start.markAt.getD 0
  s.sys.mated && s.start.markAt.isSome && !s.assay.ballLow &&
  (match s.sys.mode with
   | .access => age ≤ msTicks (s.fld rSTART_PRES 15 0)
   | .drive => age ≤ msTicks 1000 * s.fld rSTART_PRES 31 16
   | _ => false)

/-- The bytes of an ANSWER (R927, R928). -/
def answerFrame (key : Bytes) (chal : Bytes) (release : Bool) (count : Nat) : Bytes :=
  let a : Bytes := [0xA1, if release then 0x5A else 0xA5, 0, 0] ++ beBytes 4 count
  a ++ mac8 key (0x41 :: a ++ slice chal 8 16 ++ slice chal 4 4)

/-- The tick after which no ANSWER is sent (R933). -/
def answerBy (c : Challenge) : Nat := c.tick + msTicks 20

/-- A CRANK misses its deadline (R933). -/
def crankLate (s : State) : State := startDone 5 0x19 0 (startEvent 4 s)

/-- The ANSWER of a CRANK whose CHALLENGE has verified and whose counter lies below CEIL: the counter is drawn, the ANSWER
queued and, with a release in ACCESS, T12 committed in one step (R936). A roll that it settles is written next (R943). -/
def crankAnswer (s : State) : State :=
  match s.start.crank with
  | none => s
  | some c =>
    match c.chal with
    | none => s
    | some ch =>
      if answerBy ch < s.clk.tb then crankLate s
      else
        let rel := verdict s ch
        let (n, s) := drawCount s
        let s := s.onStart (fun x => { x with crank := some { c with drawn := some n, answered := some rel } })
        let s := sendPartner (startCan s) (s.reg rSTART_TXID) (answerFrame c.key ch.bytes rel n) s
        let s := match c.settle with
          | some body => addJob [.record 3 body] [.crank] fail1B s
          | none => s
        when (rel && s.sys.mode == .access) (commit .drive 0x0A) s

/-- A CRANK whose CHALLENGE has verified: CEIL is raised first when the counter has reached it, in one write with the roll
it settles (R395, R943). -/
def crankGo (c : CrankRun) (ch : Challenge) (k : Bool × Bytes) (s : State) : State :=
  let settle := rec3State s = 2
  let cur := kwWrap (wrapKey s) k.2
  let next := (s.reg rSTART_COUNT).toNat
  let c := { c with chal := some ch, key := k.2 }
  if next < rec3Ceil s then
    crankAnswer (s.onStart (fun x => { x with crank := some { c with
      settle := if settle then some (rec3Single s cur (rec3Ceil s)) else none } }))
  else
    let body := if settle then rec3Single s cur (rec3Ceil s + 256) else rec3Raised s (rec3Ceil s + 256)
    addJob [.record 3 body] [.crank] fail1B (s.onStart (fun x => { x with crank := some { c with settle := none } }))

/-- A waiting CRANK takes the latest CHALLENGE when it may (R931). -/
def crankTry (s : State) : State :=
  match s.start.crank, s.start.chal with
  | some c, some ch =>
    if c.chal.isSome || ch.used || ch.tick + msTicks 5 < c.dispatchedAt then s
    else
      let s := s.onStart (fun x => { x with chal := some { ch with used := true } })
      match challengeKey s ch.bytes with
      | none => replaced s
      | some k => crankGo c ch k s
  | _, _ => s

/-- Effect of a verified write of record 3 for a CRANK: its ANSWER, or, when that is queued, the roll is settled. -/
def crankWritten (s : State) : State :=
  match s.start.crank with
  | none => s
  | some c =>
    if c.answered.isNone then crankAnswer s
    else s.onStart (fun x => { x with crank := some { c with settle := none } })

/-- A CRANK whose ANSWER has left and whose roll is settled ends (R934). -/
def crankEnd (s : State) : State :=
  match s.start.crank with
  | none => s
  | some c =>
    match c.answered with
    | none => s
    | some rel =>
      if !c.sent || c.settle.isSome then s
      else startDone 0 (if rel then 0 else 0x20) (c.drawn.getD 0) s

/-- The image of a START command whose PARAM, BUF0, BUF1 and KEY are 0. -/
def startZero (img : Bytes) : Bool := (slice img 0x10 0x30).all (fun b => b == 0)

/-- The tick of the dispatch of the running START command. -/
def startDispatch (s : State) : Nat := ((s.dispatched 0xC).map Dispatched.sentAt).getD s.clk.tb

def opCrank (img : Bytes) (s : State) : KRes KEnd :=
  (kcheck (startZero img) 5 1 s).andThen (fun _ s =>
    .ok .later (crankTry (s.onStart (fun x => { x with
      crank := some ⟨startDispatch s, none, none, [], none, none, false⟩ }))))

/-- CRANK_DEADLINE: no ANSWER has started 20 ms after the CHALLENGE. -/
def crankDeadline (s : State) : State :=
  match s.start.crank with
  | none => s
  | some c =>
    if c.chal.any (fun ch => answerBy ch < s.clk.tb) && !c.sent && !(c.answered.isSome && partnerOnWire s) then
      crankLate (dropPartner s)
    else s

def execCrankDeadline (s : State) : Out := .next (when s.timed crankDeadline s)

/-! ### Key rolls (R940 to R946) -/

/-- ROLL_ENGINE: the first write of R392, with CEIL raised when the ROLL's counter needs it. -/
def opRollEngine (img : Bytes) (s : State) : KRes KEnd :=
  (kcheck (startZero img) 5 1 s).andThen (fun _ s =>
  (kcheck (rec3State s = 1 && (curKey s).isSome) 5 0x17 s).andThen (fun _ s =>
  (kdraw 16 s).andThen (fun new s =>
    let r := rec3 s
    let ceil := if (s.reg rSTART_COUNT).toNat < rec3Ceil s then rec3Ceil s else rec3Ceil s + 256
    let body := [2, 0] ++ leBytes 2 (leAt r 2 2 + 1) ++ leBytes 4 ceil ++ slice r 8 24 ++
      kwWrap (wrapKey s) new ++ slice r 0x38 12
    .ok (.job ⟨[.record 3 body], [.rollSend], fail1B⟩)
      (s.onStart (fun x => { x with roll := some ⟨[], new, 0, 0, s.clk.tb, false⟩ })))))

/-- The bytes of a ROLL (R927, R928). -/
def rollFrame (cur new : Bytes) (roll count : Nat) : Bytes :=
  let b : Bytes := [0xB1, 0] ++ beBytes 2 roll ++ beBytes 4 count ++ kwWrap cur new
  b ++ mac8 cur (0x72 :: b) ++ List.replicate 8 0

/-- The first write has been verified: the ROLL is sent (R393). -/
def rollSend (s : State) : State :=
  match s.start.roll with
  | none => s
  | some r =>
    let (n, s) := drawCount s
    let f := rollFrame ((curKey s).getD []) r.newKey (leAt (rec3 s) 2 2) n
    let s := s.onStart (fun x => { x with roll := some { r with frame := f, count := n, sent := 1, sentAt := s.clk.tb } })
    sendPartner (startCan s) (s.reg rSTART_TXID) f s

/-- PENDING is confirmed: the second write of R392. -/
def rollConfirm (r : RollRun) (s : State) : State :=
  let body := rec3Single s (kwWrap (wrapKey s) r.newKey) (rec3Ceil s)
  addJob [.record 3 body] [.rollEnd] fail1B (dropPartner (s.onStart (fun x => { x with roll := some { r with confirmed := true } })))

/-- A CHALLENGE while ROLL_ENGINE runs (R940 step 3, R942, R944, R946). -/
def rollChallenge (r : RollRun) (ch : Challenge) (s : State) : State :=
  let s := s.onStart (fun x => { x with chal := some { ch with used := true } })
  match challengeKey s ch.bytes with
  | none => if r.confirmed then s else replaced (dropPartner s)
  | some (pend, k) =>
    if r.confirmed || r.frame.isEmpty then s
    else if pend then rollConfirm r s
    else
      addJob [.record 3 (rec3Single s (kwWrap (wrapKey s) k) (rec3Ceil s))] [.done 0xC (doneW 5 0x18 0)] fail1B
        (dropPartner (s.onStart (fun x => { x with roll := some { r with confirmed := true } })))

/-- A ROLL_ACK whose KMAC verifies under PENDING confirms the roll; another is ignored. -/
def rollAck (bs : Bytes) (s : State) : State :=
  match s.start.roll with
  | none => s
  | some r =>
    if r.confirmed || r.frame.isEmpty then s
    else if mac8 r.newKey (0x73 :: bs.take 8 ++ beBytes 4 r.count) = slice bs 8 8 then rollConfirm r s else s

/-- The ROLL sent again, at most twice, 50 ms after the last one left. -/
def rollRepeat (s : State) : State :=
  match s.start.roll with
  | none => s
  | some r =>
    if r.confirmed || r.sent = 0 || 3 ≤ r.sent || s.clk.tb < r.sentAt + msTicks 50 then s
    else
      let s := s.onStart (fun x => { x with roll := some { r with sent := r.sent + 1, sentAt := s.clk.tb } })
      sendPartner (startCan s) (s.reg rSTART_TXID) r.frame (dropPartner s)

def rollTimeout (s : State) : State :=
  match s.start.roll with
  | none => s
  | some r =>
    if r.confirmed || r.sent < 3 || s.clk.tb < r.sentAt + msTicks 150 then s
    else startDone 5 0x18 0 (dropPartner s)

def execRollRepeat (s : State) : Out := .next (when s.timed rollRepeat s)
def execRollTimeout (s : State) : Out := .next (when s.timed rollTimeout s)

/-! ### Mating to the engine controller (R922, R923) -/

/-- The identifiers of PARAM are such as START_RXID holds. -/
def mateIdOk (w : Word) : Bool := bits w 30 29 = 0 && (bit w 31 || bits w 28 0 < 2048)

def mateParamOk (img : Bytes) : Bool :=
  paramZero img [0, 1, 2, 3, 4, 5, 6, 7, 8] && (slice img 0x10 24).all (fun b => b == 0) && imgParam img 8 1 ≤ 3 &&
  mateIdOk (wd (imgParam img 0 4)) && mateIdOk (wd (imgParam img 4 4))

/-- A MATE_OFFER frame. -/
def offerFrame (part : Nat) (coord : Bytes) : Bytes :=
  [0xD1, BitVec.ofNat 8 part] ++ List.replicate 6 0 ++ coord ++ List.replicate 8 0

def opMateEngine (img : Bytes) (s : State) : KRes KEnd :=
  (noKey img s).andThen (fun _ s =>
  (kcheck (mateParamOk img) 5 1 s).andThen (fun _ s =>
  (kscalar 8 s).andThen (fun d s =>
    let m : MateRun := ⟨wd (imgParam img 0 4), wd (imgParam img 4 4), imgParam img 8 1, d, none, none, s.clk.tb, none⟩
    let pub := pubOf d
    let s := s.onStart (fun x => { x with mate := some m })
    .ok .later (sendPartner m.can m.txid (offerFrame 1 (pub.drop 32)) (sendPartner m.can m.txid (offerFrame 0 (pub.take 32)) s)))))

/-- The partner's ephemeral key, when both of its frames have come. -/
def matePeer (m : MateRun) : Option Bytes :=
  match m.x, m.y with
  | some x, some y => some (x ++ y)
  | _, _ => none

def mateReply (bs : Bytes) (s : State) : State :=
  match s.start.mate with
  | none => s
  | some m =>
    if m.confirmed.isSome || 1 < leAt bs 1 1 then s
    else
      let m := { m with lastAt := s.clk.tb }
      let m := if leAt bs 1 1 = 0 then { m with x := some (slice bs 8 32) } else { m with y := some (slice bs 8 32) }
      let s := s.onStart (fun x => { x with mate := some m })
      if (matePeer m).any (fun p => !pubOk p) then startDone 5 6 0 s else s

/-- K of R922. -/
def mateKey (m : MateRun) : Option Bytes :=
  (matePeer m).bind (fun p => (ecdh m.scalar p).map (fun z => derive z [0x45, 0x4D, 0x41, 0x54] devIdBytes 16))

def mateConfirm (bs : Bytes) (s : State) : State :=
  match s.start.mate with
  | none => s
  | some m =>
    match m.confirmed, mateKey m with
    | none, some k =>
      if mac8 k (0x4D :: bs.take 8 ++ devIdBytes) = slice bs 8 8 then
        addJob [.record 3 (rec3Body 1 0 256 (kwWrap (wrapKey s) k) [] m.rxid m.txid m.can),
          .record 0 (modePayload true s.sys.lockCause (storedMatings s + 1))] [.mated, .mateEnd] fail1B
          (s.onStart (fun x => { x with mate := some { m with confirmed := some k, lastAt := s.clk.tb } }))
      else startDone 0xC 0x10 0 s
    | _, _ => s

/-- No frame arrived within 200 ms of its predecessor. -/
def mateTimeout (s : State) : State :=
  match s.start.mate with
  | none => s
  | some m =>
    if m.confirmed.isSome || s.clk.tb < m.lastAt + msTicks 200 then s
    else startDone 5 0x18 0 (dropPartner s)

def execMateFrameTimeout (s : State) : Out := .next (when s.timed mateTimeout s)

/-- Record 3 of a mating has been verified: START_CFG and the ID registers from it, and the counter below the CEIL of 256
that it holds. -/
def mateLoad (s : State) : State :=
  match s.start.mate with
  | none => s
  | some m =>
    let s := s.setReg rSTART_CFG (wd (fld 31 1 + m.can))
    ((s.setReg rSTART_RXID m.rxid).setReg rSTART_TXID m.txid).setReg rSTART_COUNT 0

/-- The mode record shows MATED 0x01, and SYS_MODE.MATED reads 1. -/
def mateEnd (s : State) : State := startDone 0 0 0 { s with sys := { s.sys with mated := true } }

/-! ### Frames of the engine controller (R927, R969) -/

/-- The controller and identifier on which the START block takes frames: START_CFG's, or those of a running mating. -/
def partnerPath (s : State) : Option (Nat × Word) :=
  match s.start.mate with
  | some m => some (m.can, m.rxid)
  | none => if s.rbit rSTART_CFG 31 then some (startCan s, s.reg rSTART_RXID) else none

def takeChallenge (bs : Bytes) (s : State) : State :=
  let ch : Challenge := ⟨bs, s.clk.tb, false⟩
  let s := (startEvent 0 s).onStart (fun x => { x with chal := some ch })
  match s.start.roll with
  | some r => rollChallenge r ch s
  | none => crankTry s

/-- A frame that the START block takes; one of another TYPE or length is ignored. -/
def partnerTake (bs : Bytes) (s : State) : State :=
  match leAt bs 0 1, bs.length with
  | 0xC1, 32 => takeChallenge bs s
  | 0xB2, 16 => rollAck bs s
  | 0xD2, 48 => mateReply bs s
  | 0xD3, 16 => mateConfirm bs s
  | _, _ => s

/-- A frame of one TYPE from the engine controller. -/
def partnerRow (type : Nat) (bs : Bytes) (s : State) : State :=
  when (s.timed && (partnerPath s).isSome && leAt bs 0 1 = type) (partnerTake bs) s

/-! ### Timers of credentials (R897, R903) -/

/-- A class's hold-off ends (R897). -/
def holdOffEnd (c : Nat) (s : State) : State :=
  when ((aget? s.creds.holdFrom c).isSome && !heldOff s c)
    (fun s => { s with creds := { s.creds with holdFrom := adel s.creds.holdFrom c } }) s

def execHoldOffEnd (cls : Fin 8) (s : State) : Out := .next (when s.timed (holdOffEnd cls.val) s)

/-- After 24 h of RTC time without one, vehicle time is written to record 7 (R903). -/
def timeWrite (s : State) : State :=
  match vehicleNow s with
  | none => s
  | some t =>
    if s.clk.rtc < s.creds.timeWritten + 86400 * 32768 || (payload s 7).isNone then s
    else addJob [.record 7 (rec7With s t)] [] [] { s with creds := { s.creds with timeWritten := s.clk.rtc } }

/-- The hold-offs that run again in full from the end of SCAN (R390). -/
def holdAll (s : State) : State :=
  let cs := (List.range 8).filter (fun c => leAt (delayRecord s) (4 * c + 2) 1 != 0)
  { s with creds := { s.creds with holdFrom := cs.map (fun c => (c, s.clk.tb)) } }

/-- A session whose credential is revoked loses its verification and its grant (R913). -/
def revokeSession (n : Nat) (s : State) : State :=
  let s := s.setKsess n { s.ksess n with verified := none }
  { s with sys := { s.sys with grants := adel s.sys.grants n } }

/-- REVOKE has been written: it acts on the sessions bound to what it revokes, and clears a presence mark that names a revoked
credential (R913). -/
def revoke (sessions : List Nat) (mark : Bool) (s : State) : State := when mark clearMark (forEach sessions revokeSession s)

end Sys2Proof.Machine
end

