-- ==== Sys2Proof/Machine/Runtime.lean ====
section
/-! DEFINITION. The ledger writes of the Kiln runtime's operations, what follows them, and the LEDGER engine (08, 18). An
operation that needs ledger writes is a job: its writes run through the port one by one, and its effects and its DONE word
come when the last one is verified (R896, R1185). -/
namespace Sys2Proof.Machine

/-! ### Effects -/

def onCreds (f : Creds → Creds) (s : State) : State := { s with creds := f s.creds }

/-- A DONE word; one of the START engine ends what its block runs. -/
def effDone (e : Nat) (w : Word) (s : State) : State :=
  kilnSend e w (if e = 0xC then s.onStart (fun x => { x with crank := none, roll := none, mate := none }) else s)

/-- Bytes written through a relocated buffer, then OK, or what the access answered. -/
def effBuf (e ctx addr : Nat) (bs : Bytes) (s : State) : State :=
  match ansRes (devWrite e ctx addr bs s) with
  | .ok _ s => kilnDone e 0 0 0 s
  | .fail st re s => kilnDone e st re 0 s
  | .wait => kilnDone e 5 8 0 s

/-- A service token acts in the mode that holds now (R917, R918). -/
def effService (sec : Nat) (s : State) : State :=
  if takesService s.sys.mode then
    let s := { s with creds := { s.creds with tokenNonce := none } }
    let s := { s with sys := { s.sys with tokenEnd := some (s.clk.rtc + 32768 * sec) } }
    kilnDone 2 0 0 0 (if s.sys.mode == .service then s else commit .service 0x0C s)
  else kilnDone 2 5 0x17 0 s

/-- The causes and the tamper latch cleared, and T20 committed (R99, R100, R919). MATED and record 3 stay: an original controller
that is refitted is released under its old key (DESIGN CHOICE, log entry 103). -/
def enterRecovery (sec : Nat) (s : State) : State :=
  let s := s.setRbit rPWR_TAMPER 1 false
  let s := { s with sys := { s.sys with lockCause := 0, recovering := none, tokenEnd := some (s.clk.rtc + 32768 * sec) } }
  commit .service 0x0E { s with creds := { s.creds with tokenNonce := none } }

/-- The recovery write has been verified: T20, unless a cause has come since (R100, R108). -/
def effRecovery (sec : Nat) (s : State) : State :=
  if s.sys.mode == .lockdown && s.sys.recovering.isSome then kilnDone 2 0 0 0 (enterRecovery sec s)
  else kilnDone 2 5 0x1A 0 (wantModeRecord { s with sys := { s.sys with recovering := none } })

/-- The recovery write failed: the record regains its causes (R100). -/
def effRecoveryFailed (s : State) : State :=
  kilnDone 2 5 0x1B 0 (wantModeRecord { s with sys := { s.sys with recovering := none } })

/-- One effect of an operation. -/
def runEff (x : Eff) (s : State) : State :=
  match x with
  | .done e w => effDone e w s
  | .bufDone e ctx addr bs => effBuf e ctx addr bs s
  | .session n k => when (s.sys.active.getLsbD n) (fun s => s.setKsess n k) s
  | .grant n => setGrant n s
  | .load ws => portSend 0x76 (withEom ws) s
  | .holdOff c => onCreds (fun x => { x with holdFrom := ains x.holdFrom c s.clk.tb }) s
  | .vehicleTime t rtc => onCreds (fun x => { x with time := some (t, rtc) }) s
  | .runtimeKey n k => placeKey n k 5 0 0 s
  | .zap n => zapSlot n s
  | .consume => onCreds (fun x => { x with tokenNonce := none }) s
  | .service sec => effService sec s
  | .recovery sec => effRecovery sec s
  | .recoveryFailed => effRecoveryFailed s
  | .retire => raiseLockdown 3 s
  | .revoked ns mark => revoke ns mark s
  | .bind p => writeBind p s
  | .bound p => when (posState s p == 5) (posBound p) s
  | .untrust p => writeUntrust p s
  | .satAuth p nonce n => onCreds (fun x => { x with satAuth := ains x.satAuth p (nonce, n), scnt := n + 1 }) s
  | .satMateEnd p => onCreds (fun x => { x with satMate := adel x.satMate p }) s
  | .crank => crankEnd (crankWritten s)
  | .rollSend => rollSend s
  | .rollEnd => startDone 0 0 0 s
  | .mated => mateLoad s
  | .mateEnd => mateEnd s

def runEffs (xs : List Eff) (s : State) : State := forEach xs runEff s

/-! ### Jobs -/

/-- The body of a record as its copy holds it: a firmware record's is whole, the mode record takes LOCK as it stands unless
a recovery clears it (R57, R386). -/
def jobBody (rec : Nat) (body : Bytes) (s : State) : Bytes :=
  if 64 ≤ rec then body
  else if rec = 0 && s.sys.recovering.isNone then
    deviceBody 0 (body.take 1 ++ [BitVec.ofNat 8 s.sys.lockCause.toNat] ++ body.drop 2)
  else deviceBody rec body

/-- The port takes a unit write: no write runs, and a request of the mode machine that does not wait for a scan itself goes
first (R372, R383, R403). -/
def unitFree (s : State) : Bool := s.led.writing.isNone && (!s.sys.recordWanted || s.led.scanFrom.isSome)

/-- The first write of a job may begin: the port serves it, and the mode machine's own request goes first (R372, R383). -/
def jobReady (w : JobWrite) (s : State) : Bool :=
  match w with
  | .record _ _ => portFree s && !s.sys.recordWanted
  | .unit _ _ => unitFree s

/-- A job's write would exceed the SEQ limit (R369). -/
def jobWorn (w : JobWrite) (s : State) : Bool :=
  match w with
  | .record rec _ => wornOut s rec
  | .unit _ _ => false

def beginJob (w : JobWrite) (s : State) : State :=
  match w with
  | .record rec body => beginCopy rec (jobBody rec body s) .job s
  | .unit u bs => beginUnit u bs .job s

/-- The job at the front goes on: its next write begins when it may, and a job without writes has its effects at once. -/
def kickJobs : Nat → State → State
  | 0, s => s
  | fuel + 1, s =>
    match s.creds.jobs with
    | [] => s
    | j :: rest =>
      if s.creds.jobRuns then s
      else match j.writes with
        | [] => kickJobs fuel (runEffs j.effs (onCreds (fun c => { c with jobs := rest }) s))
        | w :: _ =>
          if !jobReady w s then s
          else if jobWorn w s then
            kickJobs fuel (runEffs j.fail (onCreds (fun c => { c with jobs := rest }) (s.setRbit rLEDGER_STAT 4 true)))
          else onCreds (fun c => { c with jobRuns := true }) (beginJob w s)

def kick4 (s : State) : State := kickJobs 4 s

/-- The effects that belong to the write of a record and not to the end of its job. -/
def writeEffs (w : JobWrite) (effs : List Eff) : List Eff :=
  match w with
  | .record 7 _ => effs.filter (fun x => match x with | .vehicleTime _ _ => true | _ => false)
  | .record 3 _ => effs.filter (fun x => match x with | .mated => true | _ => false)
  | _ => []

/-- A verified write of record 7 starts the 24 h of R903 again. -/
def noteWrite (w : JobWrite) (s : State) : State :=
  match w with
  | .record 7 _ => onCreds (fun c => { c with timeWritten := s.clk.rtc }) s
  | _ => s

/-- The write of the job at the front has ended. -/
def jobWritten (ok : Bool) (s : State) : State :=
  match s.creds.jobs with
  | [] => s
  | j :: rest =>
    let s := onCreds (fun c => { c with jobRuns := false }) s
    match ok, j.writes with
    | true, w :: ws =>
      let early := writeEffs w j.effs
      let s := runEffs early (noteWrite w s)
      kick4 (onCreds (fun c => { c with jobs := { j with writes := ws, effs := j.effs.filter (fun x => !early.contains x) } :: rest }) s)
    | _, _ => kick4 (runEffs j.fail (onCreds (fun c => { c with jobs := rest }) s))

/-- The engine whose operation a job is, by the DONE word of its failure; a write of vehicle time has none. -/
def jobEngine (j : Job) : Option Nat :=
  j.fail.findSome? (fun x => match x with | .done e _ => some e | .recoveryFailed => some 2 | _ => none)

/-- What is left of a LEDGER operation whose write runs at its cancellation: that write, and, where it was not the last, an
end that is no success (R408). -/
def cutJob (j : Job) : Job :=
  match j.writes with
  | w :: _ :: _ => if jobEngine j = some 5 then { j with writes := [w], effs := [.done 5 5] } else j
  | _ => j

/-- A cancellation drops an engine's job whose write has not begun (R408). One whose write has begun goes on (log entry 10). -/
def dropJobs (e : Nat) (s : State) : State :=
  let keep := fun (j : Job) => jobEngine j != some e
  onCreds (fun c => { c with jobs :=
    match c.jobs with
    | j :: rest => if c.jobRuns then (if keep j then j else cutJob j) :: rest.filter keep else (j :: rest).filter keep
    | [] => [] }) s

/-- An operation of an engine, and its job where it has one. -/
def credOp (e op : Nat) (body : Bytes → State → KRes KEnd) (s : State) : State := kick4 (kilnOp e op body s)

/-! ### The ends of ledger writes (R374, R377) -/

/-- The requester of a write goes on, and then whoever waits at the arbiter (R372, R403). A failed write of the mode record is
made again (R57). -/
def writeAnswered (w : LedgerWrite) (ok : Bool) (s : State) : State :=
  let s := match w.asked with
    | .channel => endChannelWrite w ok s
    | .job => jobWritten ok s
    | .modeRecord => if ok then s else wantModeRecord s
  kick4 (if s.sys.recordWanted then s else startWaitingWrite s)

/-- A write has ended. In a freeze its acknowledge waits for the thaw (R414); a device held in reset has no requester any
more (R415). -/
def writeEnded (w : LedgerWrite) (ok : Bool) (s : State) : State :=
  let s := endWrite ok s
  if s.sys.mode == .quenched || s.assay.freezing then { s with led := { s.led with ackDue := some (w, ok) } }
  else if s.live then writeAnswered w ok s
  else s

/-- The acknowledge that a freeze has held back. -/
def releaseAck (s : State) : State :=
  match s.led.ackDue with
  | none => s
  | some (w, ok) => writeAnswered w ok { s with led := { s.led with ackDue := none } }

/-- A running write of this kind has ended. -/
def endRunning (unit ok : Bool) (s : State) : State :=
  match s.led.writing with
  | none => s
  | some w =>
    let isUnit := match w.target with | .unit _ => true | .copy _ _ => false
    when (s.sys.mode != .off && isUnit == unit) (writeEnded w ok) s

def execCommitWordVerified (ok : Bool) (s : State) : Out := .next (endRunning false ok s)
def execUnitWriteDone (ok : Bool) (s : State) : Out := .next (endRunning true ok s)

/-- The scan or rescan completes; who waits at the port goes on (R372, R382, R403). -/
def scanDone (s : State) : State := kick4 (startWaitingWrite (scanResult s))

/-! ### LEDGER engine (R397 to R399, R442) -/

/-- The DONE word of a LEDGER command. -/
def ledgerDone (seq reason status : Nat) (s : State) : State := firmwareDone 5 (ledgerStat seq reason status) s

def ledgerIdx (img : Bytes) : Nat := imgParam img 0 2
def ledgerArg (img : Bytes) : Nat := imgParam img 4 4

/-- The fields that R442 requires to be 0 (reason 0x09). -/
def ledgerFormat (img : Bytes) : Bool :=
  paramZero img [0, 1, 4, 5, 6, 7] && (slice img 0x1C 12).all (fun b => b == 0) && imgKey img = 0

/-- BUF0 is long enough and open (reason 0x08). -/
def ledgerBuf (img : Bytes) (n : Nat) (write : Bool) : Bool :=
  let b := imgBuf img 0
  n ≤ b.len && (if write then b.access / 2 % 2 = 1 else b.access % 2 = 1)

/-- The answer of a buffer access of the LEDGER engine (reason 0x07). -/
def ledgerAns (r : Ans × State) : KRes Bytes :=
  match r with
  | (.ok bs, s) => .ok bs s
  | (.stall, _) => .wait
  | (.torn, s) => .fail 0xF 0 s
  | (.fault, s) => .fail 3 0 s
  | (_, s) => .fail 5 7 s

/-- A scan or rescan runs: LEDGER_BUSY (R383). -/
def ledgerIdle (s : State) : KRes Unit := kcheck s.led.scanFrom.isNone 0xA 0 s

def ledgerRead (img : Bytes) (s : State) : KRes KEnd :=
  let n := ledgerIdx img
  let b := imgBuf img 0
  (kcheck (n ≤ 239) 5 1 s).andThen (fun _ s =>
  (ledgerIdle s).andThen (fun _ s =>
  (kcheck (!(currentBytes s n).any (fun c => leAt c 3 1 % 2 = 1)) 5 2 s).andThen (fun _ s =>
  (kcheck (ledgerBuf img 256 true) 5 8 s).andThen (fun _ s =>
  (kcheck (ledgerFormat img) 5 9 s).andThen (fun _ s =>
  (ledgerAns (devWrite 5 b.ctx b.addr ((currentBytes s n).getD erasedCopy) s)).andThen (fun _ s =>
    .ok (.done 0 0 0) s))))))

/-- The port takes a record write of a command only when nothing else holds it. -/
def ledgerFree (s : State) : Bool := s.led.writing.isNone && !s.led.rescanWanted && !s.sys.recordWanted

/-- A record write of a command: begun at once, so that SEQ is the one that its DONE word carries. -/
def ledgerCommit (n : Nat) (body : Bytes) (s : State) : KRes KEnd :=
  if !ledgerFree s then .wait
  else if wornOut s n then .fail 5 6 (s.setRbit rLEDGER_STAT 4 true)
  else .ok (.job ⟨[.record n body], [.done 5 (ledgerStat (currentSeq s n + 1) 0 0)], [.done 5 (ledgerStat 0 5 5)]⟩) s

/-- The bytes of a WRITE are such as R362 and R398 allow. -/
def writeBytesOk (b : Bytes) : Bool :=
  let t := leAt b 0 2
  leAt b 2 1 ≤ 240 && leAt b 3 1 ≤ 1 && leAt b 4 4 = 0 && t != 0 && !(0x8000 ≤ t && t ≤ 0x80FF)

/-- WRITE, and WRITE_IF with its expected SEQ (R398). Where several reasons apply the first of this order ends the command: record,
owner, BUSY, SEQ, buffer, format (DESIGN CHOICE, log entry 66). -/
def ledgerWrite (cond : Bool) (img : Bytes) (s : State) : KRes KEnd :=
  let n := ledgerIdx img
  let b := imgBuf img 0
  (kcheck (n ≤ 239) 5 1 s).andThen (fun _ s =>
  (kcheck (64 ≤ n) 5 2 s).andThen (fun _ s =>
  (ledgerIdle s).andThen (fun _ s =>
    if !ledgerFree s then .wait else
  (kcheck (!cond || currentSeq s n = ledgerArg img) 5 3 s).andThen (fun _ s =>
  (kcheck (ledgerBuf img 248 false) 5 8 s).andThen (fun _ s =>
  (kcheck (ledgerFormat img) 5 9 s).andThen (fun _ s =>
  (ledgerAns (devRead 5 b.ctx b.addr 248 s)).andThen (fun bs s =>
  (kcheck (writeBytesOk bs) 5 4 s).andThen (fun _ s =>
    let len := leAt bs 2 1
    ledgerCommit n (bs.take (8 + len) ++ List.replicate (240 - len) 0) s))))))))

def ledgerErase (img : Bytes) (s : State) : KRes KEnd :=
  let n := ledgerIdx img
  (kcheck (n ≤ 239) 5 1 s).andThen (fun _ s =>
  (kcheck (64 ≤ n) 5 2 s).andThen (fun _ s =>
  (ledgerIdle s).andThen (fun _ s =>
  (kcheck (ledgerFormat img) 5 9 s).andThen (fun _ s => ledgerCommit n (copyBody 0 0 []) s))))

/-- A job of unit writes (R377, R380). -/
def unitJob (ws : List JobWrite) (s : State) : KRes KEnd :=
  if !unitFree s then .wait else .ok (.job ⟨ws, [.done 5 (ledgerStat 0 0 0)], [.done 5 (ledgerStat 0 5 5)]⟩) s

def ledgerQuick (img : Bytes) (s : State) : KRes KEnd :=
  let n := ledgerIdx img
  let b := imgBuf img 0
  (kcheck (n ≤ 255) 5 1 s).andThen (fun _ s =>
  (kcheck (16 ≤ n) 5 2 s).andThen (fun _ s =>
  (kcheck (ledgerBuf img 16 false) 5 8 s).andThen (fun _ s =>
  (kcheck (ledgerFormat img) 5 9 s).andThen (fun _ s =>
  (ledgerAns (devRead 5 b.ctx b.addr 16 s)).andThen (fun bs s => unitJob [.unit n bs] s)))))

def ledgerRaise (img : Bytes) (s : State) : KRes KEnd :=
  let v := ledgerArg img
  (kcheck (ledgerFormat img) 5 9 s).andThen (fun _ s =>
    if v ≤ rollbackMin s then .ok (.done 0 0 0) s
    else unitJob [.unit 1 (leBytes 16 v), .unit 2 (leBytes 16 v)] s)

/-- A LEDGER operation: served when its CMD word is at the head; an OP outside R397 is taken by READ and ends with reason
0x09. -/
def ledgerOp (op : Nat) (body : Bytes → State → KRes KEnd) (s : State) : State :=
  if !s.kilnUp then s
  else match cmdImage 5 s with
    | none => ((imageLost 5 s).filter (fun _ => op == 1)).elim s (ledgerDone 0 7 5)
    | some img =>
      let other := !(1 ≤ imgOp img && imgOp img ≤ 6)
      if imgOp img != op && !(op == 1 && other) then s
      else
        let t := cDrop (cmdKey 5) s
        match (if other then KRes.fail 5 9 t else body img t) with
        | .wait => s
        | .fail st re t => ledgerDone 0 re st t
        | .ok (.done st re v) t => ledgerDone v re st t
        | .ok .later t => t
        | .ok (.job j) t => kick4 { t with creds := { t.creds with jobs := t.creds.jobs ++ [j] } }

def execLedgerRead (s : State) : Out := .next (ledgerOp 1 ledgerRead s)
def execLedgerWrite (s : State) : Out := .next (ledgerOp 2 (ledgerWrite false) s)
def execWriteIf (s : State) : Out := .next (ledgerOp 3 (ledgerWrite true) s)
def execLedgerErase (s : State) : Out := .next (ledgerOp 4 ledgerErase s)
def execQuickWrite (s : State) : Out := .next (ledgerOp 5 ledgerQuick s)
def execRaise (s : State) : Out := .next (ledgerOp 6 ledgerRaise s)

/-! ### Credential operations (R891, R1015) -/

def execCredNonce (s : State) : Out := .next (credOp 2 0x30 opCredNonce s)
def execCredVerify (s : State) : Out := .next (credOp 2 0x31 opCredVerify s)
def execTicketOpen (s : State) : Out := .next (credOp 2 0x32 opTicketOpen s)
def execVmac (s : State) : Out := .next (credOp 2 0x33 opVmac s)
def execTokenNonce (s : State) : Out := .next (credOp 2 0x34 opTokenNonce s)
def execToken (s : State) : Out := .next (credOp 2 0x35 opToken s)
def execRevoke (s : State) : Out := .next (credOp 2 0x36 opRevoke s)
def execEnrolBegin (s : State) : Out := .next (credOp 2 0x37 opEnrolBegin s)
def execEnrolOrigin (s : State) : Out := .next (credOp 2 0x38 opEnrolOrigin s)
def execEnrolKey (s : State) : Out := .next (credOp 2 0x39 opEnrolKey s)
def execEnrolCommit (s : State) : Out := .next (credOp 2 0x3A opEnrolCommit s)
def execCredErase (s : State) : Out := .next (credOp 2 0x3B opCredErase s)
def execMateVehicle (s : State) : Out := .next (credOp 2 0x3C opMateVehicle s)
def execTrustSet (s : State) : Out := .next (credOp 2 0x3D opTrustSet s)
def execSatAuthReq (s : State) : Out := .next (credOp 2 0x40 opSatAuthReq s)
def execSatAuthCheck (s : State) : Out := .next (credOp 2 0x41 opSatAuthCheck s)
def execSatMateOffer (s : State) : Out := .next (credOp 2 0x42 opSatMateOffer s)
def execSatMateKey (s : State) : Out := .next (credOp 2 0x43 opSatMateKey s)
def execSatMateConfirm (s : State) : Out := .next (credOp 2 0x44 opSatMateConfirm s)
def execSatRoll (s : State) : Out := .next (credOp 2 0x45 opSatRoll s)
def execSatRollConfirm (s : State) : Out := .next (credOp 2 0x46 opSatRollConfirm s)

/-- Vehicle time written after 24 h (R903). -/
def execVehicleTimeWrite (s : State) : Out := .next (when s.kilnUp (fun s => kick4 (timeWrite s)) s)

/-! ### START operations and frames (R922, R931, R940) -/

def execCrank (s : State) : Out := .next (credOp 0xC 1 opCrank s)
def execMateEngine (s : State) : Out := .next (credOp 0xC 2 opMateEngine s)
def execRollEngine (s : State) : Out := .next (credOp 0xC 3 opRollEngine s)
def execChallenge (frame : List Byte) (s : State) : Out := .next (kick4 (partnerRow 0xC1 frame s))
def execMateReply (frame : List Byte) (s : State) : Out := .next (kick4 (partnerRow 0xD2 frame s))
def execMateConfirm (frame : List Byte) (s : State) : Out := .next (kick4 (partnerRow 0xD3 frame s))
def execRollAck (frame : List Byte) (s : State) : Out := .next (kick4 (partnerRow 0xB2 frame s))

end Sys2Proof.Machine
end

