-- ==== Sys2Proof/Machine/Networks.lean ====
section
/-! DEFINITION. The vehicle networks: receive rings, the NET engine, CAN frames, LIN and the Ethernet switch (19). The foreman
firmware that serves NET is part of the rows: an operation is taken from the engine's CMD port, and its DONE word comes from
the row that ends it. -/
namespace Sys2Proof.Machine

/-! ### Receive rings (R974 to R976, R986) -/

/-- RXBASE of controller n, or of switch port 4 for n = 4; RXSIZE, RXWR, RXRD and RXDROP follow it. -/
def ringReg (n : Nat) : Nat := if n = 4 then rSW_RXBASE else canReg n 0x40

def ringSize (s : State) (n : Nat) : Nat := 2 ^ s.fld (ringReg n + 4) 4 0
def ringWr (s : State) (n : Nat) : Nat := s.fld (ringReg n + 8) 19 0
def ringRd (s : State) (n : Nat) : Nat := s.fld (ringReg n + 12) 19 3 * 8

/-- Bytes in the ring. -/
def ringUsed (s : State) (n : Nat) : Nat := (ringWr s n + ringSize s n - ringRd s n % ringSize s n) % ringSize s n

/-- The ring's event: RX_DROP. -/
def ringDropEvent (n : Nat) (s : State) : State :=
  if n = 4 then blockEvent rSW_EVT rSW_IE rSW_IE 16 15 4 s else canEvent n 4 s

/-- Bytes written at an offset of the ring, wrapping from its last byte to byte 0. -/
def ringWrite (s : State) (n off : Nat) (bs : Bytes) : Ans × State :=
  let base := (s.reg (ringReg n)).toNat
  let k := ringSize s n - off % ringSize s n
  match physWrite (eccSrc 9) (base + off % ringSize s n) (bs.take k) s with
  | (.ok _, s) => physWrite (eccSrc 9) base (bs.drop k) s
  | r => r

/-- Bytes read at an offset of the ring. -/
def ringRead (s : State) (n off len : Nat) : Ans × State :=
  let base := (s.reg (ringReg n)).toNat
  let k := min len (ringSize s n - off % ringSize s n)
  match physRead (eccSrc 9) (base + off % ringSize s n) k s with
  | (.ok a, s) =>
    match physRead (eccSrc 9) base (len - k) s with
    | (.ok b, s) => (.ok (a ++ b), s)
    | r => r
  | r => r

/-- A record dropped whole (R976). -/
def ringDrop (n : Nat) (s : State) : State := ringDropEvent n (s.satFld (ringReg n + 16) 31 0)

/-- A record written to a ring, or dropped when it would leave fewer than 8 free bytes; RXWR advances after the record is
visible. A ring outside shared SRAM takes nothing. -/
def ringPut (n : Nat) (rec : Bytes) (ev : State → State) (s : State) : State :=
  if !s.rbit (ringReg n + 4) 31 then s
  else if ringSize s n < ringUsed s n + rec.length + 8 then ringDrop n s
  else match ringWrite s n (ringWr s n) rec with
    | (.ok _, s) => ev (s.setReg (ringReg n + 8) (wd ((ringWr s n + rec.length) % ringSize s n)))
    | (_, s) => ringDrop n s

/-- A record of R975. -/
def netRecord (src flags : Nat) (id af : Word) (fine ts : Nat) (data : Bytes) : Bytes :=
  let pad := (8 - data.length % 8) % 8
  leBytes 2 data.length ++ leBytes 1 src ++ leBytes 1 flags ++ leOfWord id ++ leOfWord af ++ leBytes 2 fine ++ [0, 0] ++
  leBytes 8 ts ++ data ++ List.replicate pad 0

/-! ### NET commands (R977, R980) -/

def netDone (status reason value : Nat) (s : State) : State := firmwareDone 9 (doneW status reason value) s

/-- A NET operation taken from the CMD port; the first operation of the table ends an OP outside it (reason 0x01). -/
def netOp (op : Nat) (body : Bytes → State → KRes KEnd) (s : State) : State :=
  if !s.timed then s
  else match cmdImage 9 s with
    | none => ((imageLost 9 s).filter (fun _ => op == 1)).elim s (netDone 5 8 0)
    | some img =>
      let other := !(1 ≤ imgOp img && imgOp img ≤ 4)
      if imgOp img != op && !(op == 1 && other) then s
      else
        let t := cDrop (cmdKey 9) s
        match (if other then KRes.fail 5 1 t else body img t) with
        | .wait => s
        | .fail st re t => netDone st re 0 t
        | .ok (.done st re v) t => netDone st re v t
        | .ok _ t => t

/-- BUF1 of a command, kept until its end. -/
def buf1 (img : Bytes) : Nat × Nat × Nat × Nat :=
  let b := imgBuf img 1
  (b.ctx, b.addr, b.len, b.access)

/-- The end of a NET command that writes BUF1. -/
def netBufDone (buf : Nat × Nat × Nat × Nat) (value : Nat) (bs : Bytes) (s : State) : State :=
  match ansRes (devWrite 9 buf.1 buf.2.1 bs s) with
  | .ok _ s => netDone 0 0 value s
  | .fail st re s => netDone st re 0 s
  | .wait => netDone 5 8 0 s

/-! ### CAN (R966 to R969, R977) -/

/-- The data length is valid for FORMAT (R963). -/
def canLenOk (fmt n : Nat) : Bool :=
  match fmt with
  | 0 => n ≤ 8
  | 1 => n ≤ 8 || [12, 16, 20, 24, 32, 48, 64].contains n
  | _ => 1 ≤ n && n ≤ 2048

/-- PARAM of CAN_SEND: flags and ID are such as the format has. -/
def canParamOk (img : Bytes) : Bool :=
  let fmt := imgParam img 1 1
  let fl := imgParam img 2 1
  let id := wd (imgParam img 4 4)
  paramZero img [0, 1, 2, 4, 5, 6, 7, 8, 9, 10, 11] && imgParam img 0 1 ≤ 3 && fmt ≤ 2 && fl < 16 &&
  canLenOk fmt (imgBuf img 0).len &&
  (match fmt with
   | 0 => !fl.testBit 1 && !fl.testBit 3
   | 1 => !fl.testBit 2 && !fl.testBit 3
   | _ => fl &&& 7 = 0) &&
  (if fmt = 2 then bits id 15 11 = 0 else bits id 31 29 = 0 && (fl.testBit 0 || bits id 28 11 = 0))

/-- FLAGS of a record for a CAN_SEND. -/
def canFlags (fmt fl : Nat) : BitVec 8 :=
  BitVec.ofNat 8 (fl % 2 + fld 1 (b2n (fmt = 1)) + fld 2 (b2n (fmt = 2)) + fld 3 (b2n (fl.testBit 1)) + fld 5 (b2n (fl.testBit 2)))

/-- The controller and the format are enabled (reason 0x02). -/
def canEnabled (s : State) (n fmt : Nat) : Bool := canOn s n && (fmt = 0 || s.rbit (rCAN_CFG n) fmt)

def netCanSend (img : Bytes) (s : State) : KRes KEnd :=
  let n := imgParam img 0 1
  let fmt := imgParam img 1 1
  let fl := imgParam img 2 1
  (kcheck (canParamOk img) 5 1 s).andThen (fun _ s =>
  (needRead img 0 (imgBuf img 0).len s).andThen (fun _ s =>
  (kcheck (canEnabled s n fmt) 5 2 s).andThen (fun _ s =>
  (kcheck (canState s n != 2) 5 3 s).andThen (fun _ s =>
  (kread 9 img 0 0 (imgBuf img 0).len s).andThen (fun data s =>
    let f : CanFrame := ⟨wd (imgParam img 4 4), canFlags fmt fl, fl.testBit 3, if fmt = 2 then wd (imgParam img 8 4) else 0, data⟩
    .ok .later (canArb n (s.onCan n (fun c => { c with tx0 := some ⟨f, 0⟩ }))))))))

def execCanSend (s : State) : Out := .next (netOp 1 netCanSend s)

/-- The NET frame of a controller ends (R967, R968). -/
def canNetEnd (n status reason : Nat) (s : State) : State :=
  let s := s.onCan n (fun c => { c with tx0 := none })
  let s := when (status = 0) (lateSuccess 9) s
  netDone status reason 0 (canEvent n 0 s)

/-- What bus-off does to the frames that wait (R968). -/
def canBusOff (n : Nat) (s : State) : State :=
  if canState s n != 2 then s
  else
    let had := (s.canCtl n).tx0.isSome
    let s := s.onCan n (fun c => { c with tx1 := [], onWire := none })
    when had (canNetEnd n 5 3) s

/-- No further transmission of a frame follows: its limit is reached, or its command is cancelled (R510, R967). -/
def canSpent (s : State) (n tries : Nat) : Bool :=
  let retx := s.fld (rCAN_CFG n) 27 24
  retx != 15 && retx < tries

/-- A partner frame has left the bus: what waits for it goes on (R934, R940, R923). -/
def partnerSent (s : State) : State :=
  let s := s.onStart (fun x => { x with
    crank := x.crank.map (fun c => if c.answered.isSome then { c with sent := true } else c)
    roll := x.roll.map (fun r => { r with sentAt := s.clk.tb })
    mate := x.mate.map (fun m => { m with lastAt := s.clk.tb }) })
  let s := match s.start.crank.bind CrankRun.answered with
    | some rel => startEvent (if rel then 1 else 2) s
    | none => s
  crankEnd s

/-- The START block runs nothing whose frames it could repeat. -/
def startQuiet (s : State) : Bool := s.start.crank.isNone && s.start.roll.isNone && s.start.mate.isNone

/-- The last frame of a cancelled START command has left the bus, and the runtime ends the flush (R511; log entry 10). -/
def startDrained (s : State) : State :=
  when (s.flushed 0xC && startQuiet s && !s.creds.jobs.any (fun j => jobEngine j == some 0xC)) (endFlush 0xC) s

/-- The frame of TXB1 ends or is sent again; one of a cancelled command is not (R510). -/
def canEnd1 (n : Nat) (o : CanEnd) (s : State) : State :=
  let tries := ((s.canCtl n).tx1.head?.map CanTx.tries).getD 0
  let drop := fun (s : State) => s.onCan n (fun c => { c with tx1 := c.tx1.drop 1 })
  match o with
  | .ok => startDrained (partnerSent (drop (when (startQuiet s) (lateSuccess 0xC) s)))
  | _ => if canSpent s n tries || startQuiet s then startDrained (drop s) else s

/-- The frame of TXB0 ends or is sent again. -/
def canEnd0 (n : Nat) (o : CanEnd) (s : State) : State :=
  let tries := ((s.canCtl n).tx0.map CanTx.tries).getD 0
  match o with
  | .ok => canNetEnd n 0 0 s
  | _ => if canSpent s n tries || !s.mayAttempt 9 then canNetEnd n 5 9 s else s

/-- A transmission ends: the error counters, the frame, and the next arbitration start, at which no ANSWER past its tick is
offered (R933). -/
def canFrameEnd (n : Nat) (o : CanEnd) (s : State) : State :=
  match (s.canCtl n).onWire with
  | none => s
  | some b =>
    let s := s.onCan n (fun c => { c with onWire := none })
    let s := match o with
      | .ok => canTxOk n s
      | .error => canTxError n s
      | .noAck => if canState s n = 1 then s else canTxError n s
      | .lost => s
    if canState s n = 2 then canBusOff n s
    else canArb n (crankDeadline (if b = 1 then canEnd1 n o s else canEnd0 n o s))

def execCanFrameEnd (n : Fin 4) (outcome : CanEnd) (s : State) : Out := .next (when s.timed (canFrameEnd n.val outcome) s)

/-- Filter k of controller n admits a frame (R969). -/
def canFilter (s : State) (n : Nat) (id : Word) (ide : Bool) (k : Nat) : Bool :=
  let f := s.reg (canReg n 0x100 + 8 * k)
  let m := s.reg (canReg n 0x104 + 8 * k)
  bit f 31 && bit f 30 == ide && ((id ^^^ f) &&& m &&& 0x1FFFFFFF) == 0

/-- A frame for the START block alone: the partner's identifier on its controller. -/
def isPartner (s : State) (n : Nat) (id : Word) (flags : BitVec 6) : Bool :=
  (partnerPath s).any (fun p => p.1 == n && bit p.2 31 == flags.getLsbD 0 && bits p.2 28 0 == bits id 28 0 && !flags.getLsbD 2)

/-- A frame received without error: to the START block alone, or to the ring when a filter admits it; TS is TB_NOW at its
SOF. -/
def canTake (n : Nat) (id : Word) (flags : BitVec 6) (af : Word) (data : Bytes) (ago : Nat) (s : State) : State :=
  let xl := flags.getLsbD 2
  let key := if xl then id &&& 0x7FF else id &&& 0x1FFFFFFF
  if isPartner s n id flags then kick4 (partnerTake data s)
  else if (List.range 16).any (canFilter s n key (flags.getLsbD 0 && !xl)) then
    ringPut n (netRecord n flags.toNat id (if xl then af else 0) 0 (s.clk.tb - ago) data) (canEvent n 1) s
  else s

/-- The controller takes frames of this format: it is on and not bus-off, and FD and XL are allowed (R963, R970). -/
def canHears (s : State) (n : Nat) (flags : BitVec 6) : Bool :=
  canOn s n && canState s n ≤ 1 && (!flags.getLsbD 1 || s.rbit (rCAN_CFG n) 1) && (!flags.getLsbD 2 || s.rbit (rCAN_CFG n) 2)

def execCanReceive (n : Fin 4) (id : Word) (flags : BitVec 6) (af : Word) (data : List Byte) (ago : Nat) (ok : Bool)
    (s : State) : Out :=
  .next (when (s.timed && canHears s n.val flags) (fun s =>
    let s := canRxCount n.val ok s
    when ok (canTake n.val id flags af data ago) s) s)

def execBusOffRecovery (n : Fin 4) (s : State) : Out := .next (when s.timed (fun s => canRecovered n.val (crankDeadline s)) s)

/-- A write of CANn_CFG (R964, R968, R985): ignored with CFG_ERR when it would change another field than EN and RECOVER while
EN is 1; EN at 1 refused when a phase's timing is outside R963. -/
def canCfgWrite (n : Nat) (v : Word) (s : State) : State :=
  let old := s.reg (rCAN_CFG n)
  let new := v &&& 0xFF000006
  let on := bit old 31
  if on && (new &&& 0x7FFFFFFF) != (old &&& 0x7FFFFFFF) then canEvent n 5 s
  else
    let s := when (bit v 3 && canState s n = 2 && !bit old 29) (fun s => s.onCan n (fun c => { c with recovering := true })) s
    if !on && bit v 31 then
      if canTimingOk s n v then canEnable n (s.setReg (rCAN_CFG n) new)
      else canEvent n 5 (s.setReg (rCAN_CFG n) (setBit new 31 false))
    else if on && !bit v 31 then
      let had := (s.canCtl n).tx0.isSome
      let s := (s.setReg (rCAN_CFG n) new).setFld (rCAN_STAT n) 3 2 3
      let s := s.onCan n (fun c => { c with tx1 := [], onWire := none, recovering := false })
      when had (canNetEnd n 5 2) s
    else s.setReg (rCAN_CFG n) new

/-- CANn_NBT, CANn_DBT, CANn_XBT: ignored with CFG_ERR while EN is 1; BRP 0 is stored as 1; TDC_EN is reserved in NBT. -/
def canTimingWrite (n off : Nat) (v : Word) (s : State) : State :=
  if canOn s n then canEvent n 5 s
  else
    let v := if bits v 31 24 = 0 then setBits v 31 24 1 else v
    s.setReg (canReg n off) (v &&& (if off = 4 then 0xFFFF7F7F else 0xFFFFFF7F))

/-- RXBASE sets RXWR and RXRD to 0; LOG2 is stored within 12 to 20 (R986). -/
def ringRegWrite (n off : Nat) (v : Word) (s : State) : Option State :=
  let b := ringReg n
  if off = 0 then some (((s.setReg b (v &&& 0xFFFFFFC0)).setReg (b + 8) 0).setReg (b + 12) 0)
  else if off = 4 then some (s.setReg (b + 4) (setBits v 4 0 (clamp 12 20 (bits v 4 0)) &&& 0x8000001F))
  else none

/-- A write of a register of controller n that does more than store its word. -/
def canWrite (n off : Nat) (v : Word) (s : State) : Option State :=
  if off = 0 then some (canCfgWrite n v s)
  else if off = 4 || off = 8 || off = 12 then some (canTimingWrite n off v s)
  else if 0x40 ≤ off && off < 0x54 then ringRegWrite n (off - 0x40) v s
  else none

def execRecover (who : Req) (n : Fin 4) (s : State) : Out :=
  .next (when (s.timed && Writers.app.permits who) (fun s => canCfgWrite n.val (s.reg (rCAN_CFG n.val) ||| 8) s) s)

/-! ### LIN (R971 to R973, R977, R992) -/

def linReg (n off : Nat) : Nat := rLIN0_CFG + n * 0x1000 + off

def State.linRun (s : State) (n : Nat) : Option LinRun := (s.net.lin.get (Fin.ofNat 2 n)).run

def State.setLin (s : State) (n : Nat) (r : Option LinRun) : State :=
  { s with net := { s.net with lin := s.net.lin.set (n % 2) ⟨r⟩ (Nat.mod_lt _ (by decide)) } }

/-- A bit of LINn_EVT: 0 DONE, 1 ERR, 2 WAKE_RX, 3 DOMINANT, 4 CFG_ERR. -/
def linEvent (n b : Nat) (s : State) : State := blockEvent (linReg n 4) (linReg n 8) (linReg n 8) 16 15 b s

def linParamOk (img : Bytes) : Bool :=
  let dir := imgParam img 1 1
  let n := imgParam img 4 1
  let b0 := (imgBuf img 0).len
  paramZero img [0, 1, 2, 3, 4, 12, 13, 14, 15] && imgParam img 0 1 ≤ 1 && dir ≤ 3 && imgParam img 2 1 ≤ 1 &&
  imgParam img 3 1 ≤ 63 && (dir != 0 || (1 ≤ b0 && b0 ≤ 8)) && (dir != 1 || (1 ≤ n && n ≤ 8))

def netLin (img : Bytes) (s : State) : KRes KEnd :=
  let n := imgParam img 0 1
  let dir := imgParam img 1 1
  let b0 := if dir = 0 then (imgBuf img 0).len else 0
  let len := if dir = 1 then imgParam img 4 1 else b0
  let start := wd (imgParam img 12 4)
  (kcheck (linParamOk img) 5 1 s).andThen (fun _ s =>
  (needRead img 0 b0 s).andThen (fun _ s =>
  (needWrite img 1 (if dir = 1 then len else 0) s).andThen (fun _ s =>
  (kcheck (s.rbit (linReg n 0) 31) 5 2 s).andThen (fun _ s =>
  (kread 9 img 0 0 b0 s).andThen (fun data s =>
    let late := start != 0 && tickPassed start s.tbLo
    .ok .later (s.setLin n (some ⟨dir, imgParam img 2 1, imgParam img 3 1, len, data,
      if start = 0 then none else some start, s.clk.tb, late, false, buf1 img⟩)))))))

def execLinMaster (s : State) : Out := .next (netOp 2 netLin s)

/-- The break starts at its tick: exactly at the target, at the first tick after arrival when that had passed, or at once. -/
def linDue (s : State) (r : LinRun) : Bool :=
  match r.target with
  | none => true
  | some t => if r.late then r.startAt < s.clk.tb else tickDue t s.tbLo

def linBreak (n : Nat) (s : State) : State :=
  match s.linRun n with
  | none => s
  | some r =>
    if r.begun || !linDue s r || !s.mayAttempt 9 then s
    else
      let at_ := match r.target with
        | some t => if r.late then r.startAt + 1 else s.clk.tb - (s.tbLo - t).toNat
        | none => r.startAt
      attempt 9 (s.setLin n (some { r with begun := true, startAt := at_ }))

def execLinBreakStart (n : Fin 2) (s : State) : Out := .next (when s.timed (linBreak n.val) s)

/-- The protected identifier: two parity bits over the identifier (ISO 17987). -/
def linPid (id : Nat) : Nat :=
  let b := fun (i : Nat) => b2n (id.testBit i)
  id + fld 6 ((b 0 + b 1 + b 2 + b 4) % 2) + fld 7 ((1 + b 1 + b 3 + b 4 + b 5) % 2)

/-- The LIN checksum: the inverted sum with carry, over the protected identifier too when enhanced; classic for identifiers
0x3C and 0x3D (R972). -/
def linSum (r : LinRun) (data : Bytes) : Byte :=
  let enhanced := r.checksum = 1 && r.id != 0x3C && r.id != 0x3D
  let bs := (if enhanced then [linPid r.id] else []) ++ data.map BitVec.toNat
  BitVec.ofNat 8 (255 - bs.foldl (fun a b => if 255 < a + b then a + b - 255 else a + b) 0)

/-- The earliest end of a frame in bit times after its break started: header of 34 + BRK bits, then what came or the expected
response time (R972). -/
def linBits (s : State) (n : Nat) (r : LinRun) (resp : Bytes) : Nat :=
  let header := 34 + s.fld (linReg n 0) 29 28
  match r.dir with
  | 0 => header + 10 * (r.n + 1)
  | 1 => header + (if resp.length = r.n + 1 then 10 * (r.n + 1) else 14 * (r.n + 1))
  | _ => header

def linEndTick (s : State) (n : Nat) (r : LinRun) (resp : Bytes) (bitError : Bool) : Nat :=
  if bitError then r.startAt
  else if r.dir = 3 then r.startAt + msTicks 1
  else r.startAt + linBits s n r resp * s.fld (linReg n 0) 15 0

/-- A LIN frame or signal ends with a reason. -/
def linEnd (n : Nat) (r : LinRun) (reason : Nat) (data : Bytes) (s : State) : State :=
  let s := linEvent n 0 (s.setLin n none)
  if reason = 0 then
    let s := lateSuccess 9 (s.incFld (linReg n 12) 31 16)
    if r.dir = 1 then netBufDone r.buf (b2n r.late) data s else netDone 0 0 (b2n r.late) s
  else netDone 5 reason (b2n r.late) (linEvent n 1 s)

/-- The reason with which a response ends the frame (R980). -/
def linReason (r : LinRun) (resp : Bytes) (bitError : Bool) : Nat :=
  if bitError then 6
  else if r.dir != 1 then 0
  else if resp.isEmpty then 4
  else if resp.length = r.n + 1 && resp.getD r.n 0 = linSum r (resp.take r.n) then 0 else 5

def linFrameEnd (n : Nat) (resp : Bytes) (bitError : Bool) (s : State) : State :=
  match s.linRun n with
  | none => s
  | some r =>
    if !r.begun || s.clk.tb < linEndTick s n r resp bitError then s
    else linEnd n r (linReason r resp bitError) (resp.take r.n) s

def execLinFrameEnd (n : Fin 2) (response : List Byte) (bitError : Bool) (s : State) : Out :=
  .next (when s.timed (linFrameEnd n.val response bitError) s)

/-- The bus was dominant for 20 ms (R973). -/
def linDominant (n : Nat) (s : State) : State :=
  let s := linEvent n 3 s
  match s.linRun n with
  | some r => if r.begun then linEnd n r 6 [] s else s
  | none => s

def execDominant (n : Fin 2) (s : State) : Out :=
  .next (when (s.timed && s.rbit (linReg n.val 0) 31) (linDominant n.val) s)

def execWakeRx (n : Fin 2) (s : State) : Out :=
  .next (when (s.timed && s.rbit (linReg n.val 0) 31 && !(s.linRun n.val).any LinRun.begun) (linEvent n.val 2) s)

/-- LINn_STAT as it reads; the level of the bus is not known to the model, so DOM is free (log entry 4). -/
def linStat (s : State) (n : Nat) : Word × State :=
  let (w, s) := s.freshWord
  let on := s.rbit (linReg n 0) 31
  (setBit (setBit (s.reg (linReg n 12)) 0 ((s.linRun n).any LinRun.begun)) 1 (on && bit w 0), s)

/-- A write of LINn_CFG (R985); clearing EN ends a running frame with reason 0x02. -/
def linWrite (n off : Nat) (v : Word) (s : State) : Option State :=
  if off != 0 then none
  else
    let old := s.reg (linReg n 0)
    let new := setBits v 15 0 (clamp 3120 62400 (bits v 15 0)) &&& 0xB000FFFF
    if bit old 31 && (new &&& 0x7FFFFFFF) != (old &&& 0x7FFFFFFF) then some (linEvent n 4 s)
    else
      let s := s.setReg (linReg n 0) new
      some (if bit old 31 && !bit v 31 && (s.linRun n).isSome then netDone 5 2 0 (s.setLin n none) else s)

/-! ### Ethernet switch (R956 to R962) -/

def swEvent (b : Nat) (s : State) : State := blockEvent rSW_EVT rSW_IE rSW_IE 16 15 b s

def portReg (p : Nat) : Nat := rSW_PORT + 4 * p

/-- A port is enabled and, but for port 4, has link. -/
def portUp (s : State) (p : Nat) : Bool := s.rbit (portReg p) 31 && (p = 4 || s.rbit (portReg p) 30)

def bePair (bs : Bytes) (off : Nat) : Nat := beNat (slice bs off 2)

def ethTagged (f : Bytes) : Bool := bePair f 12 = 0x8100

/-- The VID and PCP of a frame at its ingress port (R958). -/
def ethVlan (s : State) (p : Nat) (f : Bytes) : Nat × Nat :=
  if ethTagged f then (bePair f 14 % 4096, bePair f 14 / 8192)
  else (s.fld (portReg p) 11 0, s.fld (portReg p) 14 12)

def ethType (f : Bytes) : Nat := if ethTagged f then bePair f 16 else bePair f 12

def ethDst (f : Bytes) : Nat := beNat (slice f 0 6)
def ethSrc (f : Bytes) : Nat := beNat (slice f 6 6)
def ptpDst : Nat := 0x0180C200000E

/-- The enabled entry of a VID. -/
def vlanOf (s : State) (vid : Nat) : Option Word :=
  ((List.range 64).map (fun v => s.reg (rSW_VLAN + 4 * v))).find? (fun w => bit w 31 && bits w 11 0 = vid)

/-- The frame passes the checks of R959 at its ingress port: the entry it belongs to. -/
def ethIngress (s : State) (p : Nat) (f : Bytes) : Option Word :=
  if !ethTagged f && s.rbit (portReg p) 28 then none
  else (vlanOf s (ethVlan s p f).1).filter (fun w => bit w (15 + p))

/-- The frame as it leaves a port: untagged, or tagged with its VID and PCP. -/
def ethLeaves (untag : Bool) (vid pcp : Nat) (f : Bytes) : Bytes :=
  let body := if ethTagged f then f.drop 16 else f.drop 12
  f.take 12 ++ (if untag then [] else [0x81, 0x00] ++ beBytes 2 (pcp * 8192 + vid)) ++ body

/-- A source address learned (R960); a full table learns nothing more. -/
def ethLearn (p vid mac : Nat) (s : State) : State :=
  if !s.rbit rSW_CFG 30 then s
  else
    let others := s.net.macs.filter (fun e => !(e.mac == mac && e.vid == vid))
    if 1024 ≤ others.length then s
    else { s with net := { s.net with macs := ⟨mac, vid, p, s.clk.tb⟩ :: others } }

/-- The egress ports of a frame from port p (R960, R962). -/
def ethPorts (s : State) (p vid dst : Nat) (entry : Word) : List Nat :=
  let all := (List.range 5).filter (fun q => q != p && portUp s q)
  if dst = ptpDst then (if p = 4 then [] else all.filter (fun q => q == 4))
  else if (dst / 2 ^ 40).testBit 0 then all.filter (fun q => bit entry (15 + q))
  else match s.net.macs.find? (fun e => e.mac == dst && e.vid == vid) with
    | some e => all.filter (fun q => q == e.port)
    | none => all.filter (fun q => bit entry (15 + q))

def ethQueue (s : State) (p q : Nat) : List EthFrame := agetD s.net.queues (4 * p + q) []

def setEthQueue (p q : Nat) (l : List EthFrame) (s : State) : State :=
  { s with net := { s.net with queues := asetD [] s.net.queues (4 * p + q) l } }

/-- A frame dropped at egress. -/
def ethDrop (s : State) : State := swEvent 5 (s.satFld rSW_QDROP 31 0)

/-- A frame put into an egress queue of 16, or dropped (R961); a frame of the running ETH_SEND is counted (R981). -/
def ethEnqueue (p q : Nat) (f : EthFrame) (s : State) : State :=
  let l := ethQueue s p q
  if 16 ≤ l.length then ethDrop s
  else
    let s := setEthQueue p q (l ++ [f]) s
    if f.ours then
      attempt 9 { s with net := { s.net with eth := s.net.eth.map (fun e => { e with left := e.left + 1 }) } }
    else s

/-- A frame forwarded to the ports that take it. -/
def ethForward (p : Nat) (ours : Bool) (tick fine : Nat) (f : Bytes) (s : State) : State :=
  match ethIngress s p f with
  | none => s
  | some entry =>
    let v := ethVlan s p f
    let s := ethLearn p v.1 (ethSrc f) s
    let q := bits (s.reg rSW_PCPMAP) (2 * v.2 + 1) (2 * v.2)
    forEach (ethPorts s p v.1 (ethDst f) entry) (fun o s =>
      ethEnqueue o q ⟨ethLeaves (bit entry (20 + o)) v.1 v.2 f, ours, p, v.1, tick, fine⟩ s) s

/-- A frame of 64 to 1522 bytes whose FCS matches (R958). -/
def ethGood (frame : Bytes) (fcs : Word) : Bool := 60 ≤ frame.length && frame.length ≤ 1518 && crc32 frame == fcs

/-- A frame and its FCS arrive at a port. -/
def execEthReceive (port : Fin 4) (frame : List Byte) (fcs : BitVec 32) (ago : Nat) (fine : BitVec 10) (s : State) : Out :=
  .next (when (s.timed && s.rbit rSW_CFG 31 && portUp s port.val && ethGood frame fcs)
    (ethForward port.val false (s.clk.tb - ago) fine.toNat frame) s)

def ethParamOk (img : Bytes) : Bool :=
  let fl := imgParam img 0 1
  let ports := imgParam img 1 1
  let n := (imgBuf img 0).len
  paramZero img [0, 1, 2] && fl < 4 && ports < 16 && imgParam img 2 1 ≤ 3 && 14 ≤ n && n ≤ 1518 &&
  (!fl.testBit 0 || ports != 0) && (!fl.testBit 1 || (fl.testBit 0 && [1, 2, 4, 8].contains ports))

/-- Ports of a mask. -/
def maskPorts (m : Nat) : List Nat := (List.range 4).filter (fun p => m.testBit p)

/-- The switch and the ports that a command names are enabled (reason 0x02). -/
def ethEnabled (s : State) (direct : Bool) (ports : Nat) : Bool :=
  s.rbit rSW_CFG 31 && s.rbit (portReg 4) 31 && (!direct || (maskPorts ports).all (fun p => s.rbit (portReg p) 31))

/-- The running ETH_SEND ends when every copy has left or been lost (R978). -/
def ethSendEnd (s : State) : State :=
  match s.net.eth with
  | none => s
  | some e =>
    if e.left != 0 then s
    else
      let s := { s with net := { s.net with eth := none } }
      if e.out = 0 then netDone 5 7 0 s
      else
        let s := lateSuccess 9 s
        match e.ts, e.stamp with
        | some p, some (t, fine) =>
          netBufDone e.buf 0 (leBytes 8 t ++ leBytes 2 fine ++ leBytes 1 p ++ List.replicate 5 0) s
        | _, _ => netDone 0 0 0 s

def netEthSend (img : Bytes) (s : State) : KRes KEnd :=
  let fl := imgParam img 0 1
  let ports := imgParam img 1 1
  let direct := fl.testBit 0
  let n := (imgBuf img 0).len
  (kcheck (ethParamOk img) 5 1 s).andThen (fun _ s =>
  (needRead img 0 n s).andThen (fun _ s =>
  (needWrite img 1 (if fl.testBit 1 then 16 else 0) s).andThen (fun _ s =>
  (kcheck (ethEnabled s direct ports) 5 2 s).andThen (fun _ s =>
  (kread 9 img 0 0 n s).andThen (fun f s =>
    let s := { s with net := { s.net with eth := some ⟨0, 0, if fl.testBit 1 then (maskPorts ports).head? else none, buf1 img, none⟩ } }
    let s := if direct then
        forEach (maskPorts ports) (fun p s => ethEnqueue p (imgParam img 2 1) ⟨f, true, 4, (ethVlan s 4 f).1, s.clk.tb, 0⟩ s) s
      else ethForward 4 true s.clk.tb 0 f s
    .ok .later (ethSendEnd s))))))

def execEthSend (s : State) : Out := .next (netOp 3 netEthSend s)

/-- The queue that a port serves next: the highest that holds a frame (R961). -/
def ethNext (s : State) (p : Nat) : Option (Nat × EthFrame × List EthFrame) :=
  [3, 2, 1, 0].findSome? (fun q => match ethQueue s p q with
    | [] => none
    | f :: l => some (q, f, l))

/-- A frame of the running ETH_SEND has left a port, or has been lost. -/
def ethOut (p : Nat) (f : EthFrame) (ok : Bool) (fine : Nat) (s : State) : State :=
  if !f.ours then s
  else ethSendEnd { s with net := { s.net with eth := s.net.eth.map (fun e => { e with
    left := e.left - 1, out := e.out + b2n ok
    stamp := if ok && e.ts = some p then some (s.clk.tb, fine) else e.stamp }) } }

/-- A frame has left a port; port 4 writes it to its ring. -/
def ethEgress (p fine : Nat) (s : State) : State :=
  match ethNext s p with
  | none => s
  | some (q, f, l) =>
    let s := setEthQueue p q l s
    if p = 4 then
      ringPut 4 (netRecord 0x20 (b2n (ethType f.bytes = 0x88F7)) (wd f.ingress) (wd f.vid) f.fine f.tick f.bytes) (fun s => s) s
    else ethOut p f true fine s

def execEthEgressDone (port : Fin 5) (fine : BitVec 10) (s : State) : Out :=
  .next (when (s.timed && s.rbit rSW_CFG 31 && portUp s port.val) (ethEgress port.val fine.toNat) s)

/-- Learned addresses that are SW_CFG.AGE seconds old go (R960). -/
def execAgeing (s : State) : Out :=
  .next (when s.timed (fun s => { s with net := { s.net with
    macs := s.net.macs.filter (fun e => s.clk.tb < e.seen + msTicks 1000 * s.fld rSW_CFG 29 20) } }) s)

def execLinkChange (port : Fin 4) (linked : Bool) (s : State) : Out :=
  .next (when (s.timed && s.rbit (portReg port.val) 30 != linked) (fun s =>
    swEvent port.val (s.setRbit (portReg port.val) 30 linked)) s)

/-- A write of a SWITCH register that does more than store its word. -/
def swWrite (a : Nat) (v : Word) (s : State) : Option State :=
  if a = rSW_CFG then some (s.setReg a (setBits v 29 20 (clamp 1 1000 (bits v 29 20)) &&& 0xFFF00000))
  else if rSW_PORT ≤ a && a < rSW_PORT + 20 then
    let p := (a - rSW_PORT) / 4
    let v := if 3 ≤ p then setBit v 29 false else v
    let link := if p = 4 then bit v 31 else s.rbit a 30
    some (s.setReg a (setBit (v &&& 0xB0007FFF) 30 link))
  else if rSW_RXBASE ≤ a && a < rSW_RXBASE + 20 then ringRegWrite 4 (a - rSW_RXBASE) v s
  else none

/-! ### RX_TAKE (R979, R990) -/

/-- The whole records from an offset that fit in n bytes: their count and their bytes. -/
def takeRecords : Nat → Nat → Nat → Nat → Nat → State → (Nat × Bytes) × State
  | 0, _, _, _, _, s => ((0, []), s)
  | fuel + 1, r, off, left, room, s =>
    if left < 24 then ((0, []), s)
    else match ringRead s r off 2 with
      | (.ok h, s) =>
        let len := 24 + (leNat h + 7) / 8 * 8
        if left < len || room < len then ((0, []), s)
        else match ringRead s r off len with
          | (.ok bs, s) =>
            let (x, s) := takeRecords fuel r (off + len) (left - len) (room - len) s
            ((x.1 + 1, bs ++ x.2), s)
          | (_, s) => ((0, []), s)
      | (_, s) => ((0, []), s)

def netRxTake (img : Bytes) (s : State) : KRes KEnd :=
  let src := imgParam img 0 1
  let r := if src = 0x20 then 4 else src
  let b := imgBuf img 1
  (kcheck (paramZero img [0] && (src ≤ 3 || src = 0x20)) 5 1 s).andThen (fun _ s =>
  (needWrite img 1 b.len s).andThen (fun _ s =>
    let (x, s) := takeRecords (b.len / 24 + 1) r (ringRd s r) (ringUsed s r) b.len s
    (kwrite 9 img 1 x.2 s).andThen (fun _ s =>
      let rd := (ringRd s r + x.2.length) % ringSize s r
      .ok (.done 0 0 x.1) (s.setReg (ringReg r + 12) (wd rd)))))

def execRxTake (s : State) : Out := .next (netOp 4 netRxTake s)

/-! ### QUENCH and cancellation (R983, R988) -/

/-- At thaw: cut CAN frames are sent again as new attempts within RETX, cut LIN frames end, and the Ethernet frames that the
ports were sending are lost and counted (R983). -/
def netThaw (s : State) : State :=
  let s := forEach [0, 1, 2, 3] (fun n s => canFrameEnd n .lost s) s
  let s := forEach [0, 1] (fun n s =>
    match s.linRun n with
    | some r => if r.begun then linEnd n r 6 [] s else s
    | none => s) s
  forEach [0, 1, 2, 3] (fun p s =>
    match if s.rbit rSW_CFG 31 && portUp s p then ethNext s p else none with
    | some (q, f, l) => ethOut p f false 0 ((setEthQueue p q l s).satFld rSW_QDROP 31 0)
    | none => s) s

/-- A cancelled NET command starts nothing more (R510): a CAN frame that waits and a LIN break that has not started go. -/
def netCancel (s : State) : State :=
  let s := forEach [0, 1, 2, 3] (fun n s => s.onCan n (fun c =>
    { c with tx0 := if c.onWire = some 0 then c.tx0 else none })) s
  forEach [0, 1] (fun n s => if (s.linRun n).any LinRun.begun then s else s.setLin n none) s

end Sys2Proof.Machine
end

