-- ==== Sys2Proof/Machine/Adit.lean ====
section
/-! DEFINITION. The Adit satellite link: commands, replies, heartbeats, probes and rebinding (20). -/
namespace Sys2Proof.Machine

/-! ### Frames of the field core (R1009, R1017, R1018) -/

/-- The words that wait on DIN join the frame. -/
def drainAdit : Nat → State → State
  | 0, s => s
  | n + 1, s =>
    match s.adit.dinEom, (s.chan 0xB2).q.head? with
    | false, some h => drainAdit n ((cDrop 0xB2 s).onAdit (fun a => { a with din := a.din ++ [h.w], dinEom := h.eom }))
    | _, _ => s

/-- TYPE of a frame's header word, and KIND of a KEYX. -/
def dinType (s : State) : Nat := bits (s.adit.din.getD 0 0) 31 24
def dinPos (s : State) : Nat := bits (s.adit.din.getD 0 0) 2 0
def dinPayload (s : State) : Bytes := (bytesOf (s.adit.din.drop 1)).take (bits (s.adit.din.getD 0 0) 23 16)

/-- The operation of R1017 that a frame belongs to: 1 SEND, 2 ENUM, 3 AUTH, 4 MATE, 5 ROLL; a TYPE outside the table is
SEND's, which discards it. -/
def dinOp (s : State) : Nat :=
  match dinType s with
  | 2 => 2
  | 3 => 3
  | 8 => 4
  | 9 => if leAt (dinPayload s) 0 1 = 1 then 5 else 4
  | _ => 1

/-- The frame is one that the field core may send: a TYPE of R999 that no supervision owns, and LEN bytes of payload. -/
def dinOk (s : State) : Bool :=
  let n := bits (s.adit.din.getD 0 0) 23 16
  [2, 3, 4, 5, 6, 8, 9].contains (dinType s) && n ≤ 64 && n ≤ 4 * (s.adit.din.length - 1)

/-- A complete frame of an operation is taken when the line is free: sent, or ended at once when its position is not BOUND
and the operation needs that (R1009). -/
def aditOp (op : Nat) (s : State) : State :=
  let s := drainAdit 4 s
  if !s.adit.dinEom || dinOp s != op then s
  else
    let drop := fun (s : State) => s.onAdit (fun a => { a with din := [], dinEom := false })
    let p := dinPos s
    if !dinOk s then drop s
    else if (op = 1 || op = 5) && posState s p != 1 then endSatLost p (aditOut 2 (dinType s) p [] (drop s))
    else if s.adit.req.isSome || !aditOn s || !s.mayAttempt 11 then s
    else aditSendFrame ⟨p, dinType s, dinPayload s, .command, 0, 0⟩ (drop s)

def execAditSend (s : State) : Out := .next (when s.timed (aditOp 1) s)
def execEnum (s : State) : Out := .next (when s.timed (aditOp 2) s)
def execAuth (s : State) : Out := .next (when s.timed (aditOp 3) s)
def execAditMate (s : State) : Out := .next (when s.timed (aditOp 4) s)
def execAditRoll (s : State) : Out := .next (when s.timed (aditOp 5) s)

/-! ### Heartbeats, probes and timers (R1007, R1008, R1026) -/

def supervised (s : State) : Bool := aditOn s && s.rbit rADIT_CFG 30

/-- A heartbeat is due at a BOUND position. -/
def heartbeatDue (s : State) (p : Nat) : Bool :=
  supervised s && posState s p == 1 && (s.aditPos p).nextHb ≤ s.clk.tb

def heartbeat (p : Nat) (s : State) : State :=
  if s.adit.req.isSome || !heartbeatDue s p then s
  else
    let x := s.aditPos p
    aditSendFrame ⟨p, 1, [], .heartbeat, 0, 0⟩ (s.setAditPos p { x with nextHb := x.nextHb + msTicks (s.fld rADIT_CFG 3 0) })

def probeDue (s : State) (p : Nat) : Bool := supervised s && posState s p == 2 && (s.aditPos p).nextProbe ≤ s.clk.tb

def probe (p : Nat) (s : State) : State :=
  if s.adit.req.isSome || !probeDue s p then s
  else
    let x := s.aditPos p
    aditSendFrame ⟨p, 1, [], .probe, 0, 0⟩ (s.setAditPos p { x with nextProbe := x.nextProbe + msTicks (s.fld rADIT_CFG 15 8) })

/-- The rebind timer expires; a probe that fell due by then is sent and judged first (R1026). -/
def rebindExpiry (p : Nat) (s : State) : State :=
  let due := (s.aditPos p).lostAt + msTicks (10 * s.fld rADIT_CFG 23 16)
  let probing := s.adit.req.any (fun r => r.pos == p && r.why == .probe)
  when (posState s p == 2 && due ≤ s.clk.tb && !probing && !(probeDue s p && (s.aditPos p).nextProbe ≤ due))
    (setPosState p 4) s

def execHeartbeat (p : Fin 8) (s : State) : Out := .next (when s.timed (heartbeat p.val) s)
def execProbe (p : Fin 8) (s : State) : Out := .next (when s.timed (probe p.val) s)
def execRebindExpiry (p : Fin 8) (s : State) : Out := .next (when s.timed (rebindExpiry p.val) s)

/-! ### Replies and failed attempts (R996, R997, R1006, R1010, R1027, R1028) -/

def freeLine (s : State) : State := s.onAdit (fun a => { a with req := none })

/-- The command frame that waits is sent once more after the heartbeat of its position (R1010, R1028). -/
def resendAfter (p : Nat) (s : State) : State :=
  match s.adit.again with
  | some r =>
    if r.pos == p && posState s p == 1 && s.mayAttempt 11 && s.adit.req.isNone then
      aditSendFrame r (s.onAdit (fun a => { a with again := none }))
    else s
  | none => s

/-- One attempt of a request has failed. -/
def attemptFailed (r : AditReq) (s : State) : State :=
  let s := freeLine s
  let p := r.pos
  match r.why with
  | .heartbeat =>
    let m := satInc 255 (s.fld (posReg p) 23 16)
    let s := s.setFld (posReg p) 23 16 m
    if s.fld rADIT_CFG 7 4 ≤ m then posLost p s else resendAfter p s
  | .probe => s
  | .rebind => if r.tries < 3 then aditSendFrame r s else posLost p s
  | .command =>
    if !s.mayAttempt 11 then s
    else if r.tries < 3 then aditSendFrame r s
    else if posState s p == 1 then s.onAdit (fun a => { a with again := some r })
    else aditOut 1 r.type p [] s
  | .cancelled => s

/-- The reply of a command's frame on DOUT. -/
def aditDeliver (r : AditReq) (payload : Bytes) (s : State) : State :=
  let s := s.onAdit (fun a => { a with delivered := some (r.pos, s.clk.tb, (aditWords 0 0 0 payload).length) })
  aditOut 0 (r.type + 0x80) r.pos payload s

/-- A valid reply. A RESET_STATE is acknowledged by STATUS done; another STATUS is no acknowledgement. -/
def aditReplied (r : AditReq) (payload : Bytes) (s : State) : State :=
  let p := r.pos
  match r.why with
  | .heartbeat =>
    let s := (freeLine s).setFld (posReg p) 23 16 0
    resendAfter p (when ((payload.getD 0 0).getLsbD 0) (aditEvent (16 + p)) s)
  | .probe => when (posState s p == 2) (setPosState p 3) (freeLine s)
  | .rebind => if payload.getD 0 0xFF = 0 then posBound p (freeLine s) else attemptFailed r s
  | .command => aditDeliver r payload (freeLine s)
  | .cancelled => lateSuccess 11 (freeLine s)

/-- The payload of a reply whose CRC, over ADDR to the last payload byte, matches; a frame that does not answer this request is
none (R998; log entry 67). -/
def aditPayload (r : AditReq) (f : Bytes) : Option Bytes :=
  let n := leAt f 2 1
  if n ≤ 64 && f == aditFrame (0x80 + r.pos) (r.type + 0x80) (slice f 3 n) then some (slice f 3 n) else none

/-- The ticks of a frame's bytes after its delimiter. -/
def aditFieldTicks (n : Nat) : Nat := n * 2496 / 100

/-- The reply's delimiter came after the request and no later than 6.0 µs after it (R996, R1027). -/
def aditInTime (r : AditReq) (f : Bytes) (s : State) : Bool :=
  let at_ := s.clk.tb - aditFieldTicks f.length
  r.endAt ≤ at_ && at_ < r.endAt + 375

/-- A reply, from ADDR to its CRC, has arrived: one with a wrong CRC fails the attempt, and one that is too late is discarded. -/
def aditReply (frame : Bytes) (s : State) : State :=
  match s.adit.req with
  | none => s
  | some r =>
    if !aditInTime r frame s then s
    else aditKick (match aditPayload r frame with
      | some payload => aditReplied r payload s
      | none => attemptFailed r (aditEvent 1 s))

/-- A reply's bytes from ADDR on, and the CRC that follows them (R998). -/
def execAditReply (frame : List Byte) (crc : BitVec 16) (s : State) : Out :=
  .next (when s.timed (aditReply (frame ++ beBytes 2 crc.toNat)) s)

/-- 6.0 µs after the end of a request without a reply delimiter. -/
def noReply (s : State) : State :=
  match s.adit.req with
  | none => s
  | some r => if s.clk.tb < r.endAt + 375 then s else aditKick (attemptFailed r s)

def execAttemptFailed (s : State) : Out := .next (when s.timed noReply s)

/-! ### Register writes (R1006, R1011, R1025) -/

def execRebind (who : Req) (p : Fin 8) (s : State) : Out :=
  .next (when (s.timed && Writers.appField.permits who) (writeRebind p.val) s)
def execRelease (who : Req) (p : Fin 8) (s : State) : Out :=
  .next (when (s.timed && Writers.appField.permits who) (writeRelease p.val) s)
def execBind (who : Req) (p : Fin 8) (s : State) : Out :=
  .next (when (s.timed && Writers.kiln.permits who) (writeBind p.val) s)
def execUntrust (who : Req) (p : Fin 8) (s : State) : Out :=
  .next (when (s.timed && Writers.kiln.permits who) (writeUntrust p.val) s)

/-- A write of ADIT_POSn, each bit under the right of its own actor. -/
def posWrite (who : Req) (p : Nat) (v : Word) (s : State) : State :=
  let af := Writers.appField.permits who
  let k := Writers.kiln.permits who
  when (k && bit v 25) (writeUntrust p) (when (k && bit v 26) (writeBind p)
    (when (af && bit v 24) (writeRelease p) (when (af && bit v 27) (writeRebind p) s)))

/-- A write of ADIT_CFG with its limits; the link that goes on sends what waits. -/
def aditCfgWrite (v : Word) (s : State) : State :=
  let v := setBits v 23 16 (max 1 (bits v 23 16))
  let v := setBits v 15 8 (max 1 (bits v 15 8))
  let v := setBits (setBits v 7 4 (max 1 (bits v 7 4))) 3 0 (max 2 (bits v 3 0))
  aditKick (s.setReg rADIT_CFG (v &&& 0xC0FFFFFF))

/-- A write of an ADIT register that does more than store its word. -/
def aditWrite (who : Req) (a : Nat) (v : Word) (s : State) : Option State :=
  if rADIT_POS ≤ a && a < rADIT_POS + 32 then some (posWrite who ((a - rADIT_POS) / 4) v s)
  else if !Writers.appField.permits who then some s
  else if a = rADIT_CFG then some (aditCfgWrite v s)
  else none

/-- ADIT_STAT as it reads. -/
def aditStat (s : State) : Word := setBit (s.reg rADIT_STAT) 0 s.adit.req.isSome

/-! ### BANKED and cancellation (R510, R1020 to R1022) -/

/-- A wake pulse in BANKED, or while the entry runs (R1022, R1031). -/
def aditPulse (s : State) : State :=
  when ((s.sys.mode == .banked || s.pwr.entering) && s.rbit rPWR_WAKE_EN 2) (fun s =>
    presentWake 2 (if s.rbit rADIT_WAKE 0 then s else aditEvent 0 (s.setRbit rADIT_WAKE 0 true))) s

def execAditWake (s : State) : Out := .next (aditPulse s)

/-- The entry sequence sends SLEEP to every BOUND position before T05 (R1020). -/
def aditSleep (s : State) : State :=
  let n := ((List.range 8).filter (fun p => posState s p == 1)).length
  when (aditOn s) (fun s => s.setFld rADIT_STAT 31 16 (s.fld rADIT_STAT 31 16 + n)) s

/-- At the wake the heartbeats restart with MISSES at 0 (R1021). -/
def aditResume (s : State) : State :=
  let s := s.onAdit (fun a => { a with req := none, again := none, din := [], dinEom := false })
  forEach ((List.range 8).filter (fun p => posState s p == 1)) (fun p s =>
    (s.setFld (posReg p) 23 16 0).setAditPos p { s.aditPos p with nextHb := s.clk.tb + msTicks (s.fld rADIT_CFG 3 0) }) s

/-- A cancelled command is sent no more (R510, R1010). -/
def aditCancel (s : State) : State :=
  s.onAdit (fun a => { a with
    req := a.req.map (fun r => if r.why == .command then { r with why := .cancelled } else r)
    again := none, din := [], dinEom := false })

end Sys2Proof.Machine
end

