-- ==== Sys2Proof/Machine/Image.lean ====
section
/-! DEFINITION. Image headers, the judgement of a slot and of a staged image, and rescue installs (07, 21). -/
namespace Sys2Proof.Machine

/-! ### The header (R324, R325, R803) -/

/-- The base of slot 0 (A) or 1 (B) (R321). -/
def slotBase (n : Nat) : Nat := 0x08000000 + n * 0x180000

/-- The SLOT byte that names a slot. -/
def slotCode (n : Nat) : Nat := 0xA + n

def hdrVersion (h : Bytes) : Nat := leAt h 8 4
def hdrBodyLen (h : Bytes) : Nat := leAt h 0xC 4

/-- The CVEC field of core 1 to 4. -/
def hdrCvec (h : Bytes) (core : Nat) : Nat := leAt h (0xC + 4 * core) 4
def hdrKilnOff (h : Bytes) : Nat := leAt h 0x20 4
def hdrKilnLen (h : Bytes) : Nat := leAt h 0x24 4

/-- The length of the image: its header and its body. -/
def hdrEnd (h : Bytes) : Nat := 0x100 + hdrBodyLen h

/-- An offset that R325 allows. -/
def offOk (h : Bytes) (o : Nat) : Bool := o % 0x100 = 0 && 0x100 ≤ o && o < hdrEnd h

/-- No cause of code 0x1 applies: the fields of R324 are as stated, R325 and R803 hold. -/
def headerOk (h : Bytes) : Bool :=
  leAt h 0 4 = 0x0960F1A5 && leAt h 4 1 = 1 && leAt h 5 1 = 0 && (leAt h 6 1 = 0xA || leAt h 6 1 = 0xB) && leAt h 7 1 = 0 &&
  (slice h 0x28 24).all (fun b => b == 0) && (slice h 0xE0 32).all (fun b => b == 0) &&
  hdrBodyLen h % 16 = 0 && 16 ≤ hdrBodyLen h && hdrBodyLen h ≤ 0x17FF00 &&
  [1, 2, 3, 4].all (fun c => hdrCvec h c = 0 || offOk h (hdrCvec h c)) && offOk h (hdrKilnOff h) &&
  hdrKilnLen h % 16 = 0 && 16 ≤ hdrKilnLen h && hdrKilnLen h ≤ 0x30000 && hdrKilnOff h + hdrKilnLen h ≤ hdrEnd h

/-! ### Judgement (R328 to R334) -/

/-- The slot's sectors that its image touches are not all free of TORN marks (R328). -/
def touchesTorn (s : State) (n : Nat) (h : Bytes) : Bool :=
  (List.range ((hdrEnd h + 4095) / 4096)).any (fun i => s.flash.torn.contains (384 * n + i))

/-- The codes that the header alone gives: none for one that the Kiln core must judge. `torn` says whether TORN marks
count: a staged image lies in SRAM and touches no sector. -/
def judgeHeader (s : State) (n : Nat) (torn : Bool) (h : Bytes) : Option Nat :=
  if torn && s.flash.torn.contains (384 * n) then some 2
  else if !headerOk h then some 1
  else if torn && touchesTorn s n h then some 2
  else if leAt h 6 1 != slotCode n then some 7
  else if hdrVersion h < rollbackMin s then some 5
  else none

/-- SIGN_KEY is the one that the fuses name, or any while no hash is programmed and the factory is open (R329, R331). -/
def signKeyOk (s : State) (h : Bytes) : Bool :=
  match imageKeyHash s with
  | none => !s.fuses.closed
  | some k => sha256 (slice h 0x60 64) = k

/-- The codes that need the Kiln core. -/
def judgeBody (s : State) (h body : Bytes) : Nat :=
  if !signKeyOk s h || !ecdsaVerify (slice h 0x60 64) (sha256 (slice h 0 0xA0)) (slice h 0xA0 64) then 4
  else if sha256 body != slice h 0x40 32 then 3
  else 0

/-- The code of R329 for an image whose bytes `rd` reads. -/
def judgeImage (s : State) (n : Nat) (torn : Bool) (rd : Nat → Nat → Bytes) : Nat :=
  let h := rd 0 256
  (judgeHeader s n torn h).getD (judgeBody s h (rd 0x100 (hdrBodyLen h)))

/-- Bytes of a slot, as the boot ROM reads them. -/
def slotRead (s : State) (n off len : Nat) : Bytes := readBytes s (slotBase n + off) len

/-- The result field of a slot in FLASH_BOOT. -/
def bootResult (s : State) (n : Nat) : Nat := s.fld rFLASH_BOOT (11 + 4 * n) (8 + 4 * n)

def setBootResult (n code : Nat) (s : State) : State := s.setFld rFLASH_BOOT (11 + 4 * n) (8 + 4 * n) code

/-- Stage 1 of R334, for the slots that have no result yet. -/
def stageOne (s : State) : State :=
  forEach [0, 1] (fun n s =>
    if bootResult s n != 6 then s
    else match judgeHeader s n true (slotRead s n 0 256) with
      | some c => setBootResult n c s
      | none => s) s

/-- The slot that stage 2 passes to the Kiln core next: the higher IMG_VERSION first, slot A on a tie, and none once a slot is
valid. -/
def nextSlot (s : State) : Option Nat :=
  let left := [0, 1].filter (fun n => bootResult s n = 6)
  if bootResult s 0 = 0 || bootResult s 1 = 0 then none
  else match left with
    | [0, 1] => some (if hdrVersion (slotRead s 0 0 256) < hdrVersion (slotRead s 1 0 256) then 1 else 0)
    | n :: _ => some n
    | [] => none

/-- SCAN runs and the boot ROM has not chosen yet. -/
def State.choosing (s : State) : Bool := s.live && s.sys.mode == .scan && !s.sys.imageChosen

/-- A mailbox word sent from one core to another, once there is room, and received there by the boot code. -/
def passWord (a b : Nat) (w : Word) (s : State) : State :=
  when (s.cRoom (mailKey a b)) (fun s => (cTake (mailKey a b) (cPut (mailKey a b) w true 0 s)).2) s

/-- Core 0 passes the base of the slot to the Kiln core over channel 0x05, and the Kiln core returns its code over channel 0x00
(R332). -/
def kilnJudgement (s : State) : State :=
  let s := stageOne s
  withSome (nextSlot s) (fun n s =>
    let s := passWord 0 5 (wd (slotBase n)) s
    let code := judgeImage s n true (slotRead s n)
    setBootResult n code (passWord 5 0 (wd code) s)) s

/-- A read of the rollback minimum waits for the write of one of its units (R377). -/
def rollbackBusy (s : State) : Bool :=
  s.led.writing.any (fun w => w.target == .unit 1 || w.target == .unit 2)

def execKilnJudgement (s : State) : Out := .next (when (s.choosing && !rollbackBusy s) kilnJudgement s)

/-! ### The Kiln runtime (R802, R804, R805) -/

/-- The runtime of the image that FLASH_BOOT names copied into private SRAM; it sends SIG to core 0 when it is ready. -/
def loadRuntime (s : State) : State :=
  let b := imageBase s
  let h := readBytes s b 256
  let s := writeWithin inKilnSram 0x10000000 (readBytes s (b + hdrKilnOff h) (hdrKilnLen h)) s
  ({ s with kiln := { s.kiln with ready := true } }).setE 0 0x0080

/-! ### Rescue installs (R1064, R1190) -/

/-- The staged image. -/
def stage : Nat := 0x20100000

/-- Bytes of the staged image, coherent with the caches. -/
def stageRead (s : State) (off len : Nat) : Bytes :=
  readBytes (forEach (linesOf (stage + off) len) (fun l t => recallLine l none t) s) (stage + off) len

/-- HOSTIF_RESCUE_STAT.BUSY: an install erases or programs. -/
def installing (s : State) : Bool := s.host.install.isSome

/-- The next FLASH command of an install: the erases of all 384 sectors, then the programs of the image, 4 KiB at a time;
none when nothing is left. -/
def installStep (s : State) : State :=
  match s.host.install with
  | none => s
  | some x =>
    let base := slotBase x.slot
    if x.erased < 384 then flashEraseAt (base + 4096 * x.erased) s
    else
      let n := min 4096 (x.len - x.programmed)
      { s with flash := { s.flash with running := some (.program (base + x.programmed) (stage + x.programmed) n) } }

/-- A FLASH command of an install has ended: the next one, the reset after the last, or the stop of R1190. -/
def installNext (status value : Nat) (s : State) : State :=
  match s.host.install with
  | none => s
  | some x =>
    let stop := fun (s : State) => ({ s with host := { s.host with install := none } }).setRbit rHOSTIF_RESCUE_STAT 5 false
    if status != 0 then
      (((stop s).setRbit rHOSTIF_RESCUE_STAT 6 true).setFld rHOSTIF_RESCUE_STAT 15 8 status).setFld rHOSTIF_RESCUE_STAT 23 16 value
    else
      let x := if x.erased < 384 then { x with erased := x.erased + 1 } else { x with programmed := min x.len (x.programmed + 4096) }
      if x.erased = 384 && x.len ≤ x.programmed then requestReset 4 0 (stop s)
      else installStep { s with host := { s.host with install := some x } }

/-- The rescue loader can take an install (R1190). -/
def rescueReady (s : State) : Bool := s.host.rescue && !installing s && s.flash.running.isNone

/-- The staged image judged as a slot: the code, and the state in which RESCUE_STAT shows it and, for a valid image, the
install has begun. FAILED, FSTATUS and FVALUE are cleared. -/
def rescue (n : Nat) (s : State) : Nat × State :=
  let code := judgeImage s n false (stageRead s)
  let s := s.setReg rHOSTIF_RESCUE_STAT (wd (fld 4 1 + code))
  if code = 0 then
    let len := hdrEnd (stageRead s 0 256)
    (code, installStep (({ s with host := { s.host with install := some ⟨n, 0, 0, len⟩ } }).setRbit rHOSTIF_RESCUE_STAT 5 true))
  else (code, s)

/-- A write of HOSTIF_RESCUE by a host interface or an application core. -/
def rescueWrite (v : Word) (s : State) : State :=
  if bits v 31 16 = 0x5253 && (bits v 3 0 = 0xA || bits v 3 0 = 0xB) && rescueReady s then (rescue (bits v 3 0 - 0xA) s).2 else s

/-- A PROGRAM or ERASE ends (R343); one that an install runs leads to the next (R1064). A device that is held in reset runs no
command to its end. -/
def execFlashDone (failed : Option (Fin 256)) (s : State) : Out :=
  .next (when (s.live && s.flash.running.isSome && !s.flash.suspended) (fun s =>
    let r := flashFinish (failed.map Fin.val) s
    if installing s then installNext r.1.1 r.1.2 r.2 else r.2) s)

end Sys2Proof.Machine
end

