-- ==== Sys2Proof/Machine/Nfc.lean ====
section
/-! DEFINITION. The NFC reader behind its engine's ports (15). -/
namespace Sys2Proof.Machine

def State.setNfc (s : State) (n : Nfc) : State := { s with nfc := n }
def State.onNfc (s : State) (f : Nfc → Nfc) : State := { s with nfc := f s.nfc }

def nfcEvent (b : Nat) (s : State) : State := blockEvent rNFC_EVT rNFC_IE rNFC_IE 16 14 b s

/-- 5.1 ms (R781). -/
def nfcSettle : Nat := 318240

/-! ### The TX word (R780) -/

def txLen (w : Word) : Nat := bits w 8 0
def txRate (w : Word) : Nat := bits w 26 25
def txTypeB (w : Word) : Bool := bit w 27
def txCrc (w : Word) : Nat := b2n (bit w 24)

/-- The bit durations of a frame: Type A with start, parity and end, a short last byte without parity; Type B with SOF,
10-bit characters and EOF (log entry 25). -/
def txBits (w : Word) : Nat :=
  let n := txLen w + 2 * txCrc w
  if txTypeB w then 22 + 10 * n
  else if bits w 22 20 = 0 then 9 * n + 2
  else 9 * (n - 1) + bits w 22 20 + 2

/-- A number of bit durations of 128 carrier periods of 13.56 MHz, halved with each rate step, in ticks, rounded up. -/
def nfcTicks (n rate : Nat) : Nat := (n * 798720 + 1356 * 2 ^ rate - 1) / (1356 * 2 ^ rate)

/-- The tick at which the frame of a TX ends. -/
def NfcTx.endAt (t : NfcTx) : Nat := t.startAt + nfcTicks (txBits t.word) (txRate t.word)

def NfcTx.rxEn (t : NfcTx) : Bool := bit t.word 23

/-- Whole bytes of the frame sent by a tick. -/
def NfcTx.sent (t : NfcTx) (now : Nat) : Nat :=
  if !t.begun then 0
  else if t.endAt ≤ now then txLen t.word
  else min (txLen t.word) ((now - t.startAt) / nfcTicks (if txTypeB t.word then 10 else 9) (txRate t.word))

/-- The CRC of ISO/IEC 14443-3, least significant bit first: CRC_A from 0x6363, or CRC_B from 0xFFFF and complemented; the low
byte is sent first (R778; log entry 110). -/
def cardCrc (typeB : Bool) (bs : Bytes) : Bytes :=
  let c := bs.foldl (crcByte (0x8408 : BitVec 16)) (if typeB then 0xFFFF else 0x6363)
  leBytes 2 (if typeB then ~~~c else c).toNat

/-- The bytes of a frame as it is sent (R778). -/
def NfcTx.frame (t : NfcTx) : Bytes :=
  let bs := t.bytes.take (txLen t.word)
  if bit t.word 24 then bs ++ cardCrc (txTypeB t.word) bs else bs

/-- The CRC of a response is right: its last two bytes are the CRC of the others (R778). -/
def cardCrcOk (typeB : Bool) (bs : Bytes) : Bool :=
  decide (2 ≤ bs.length) && cardCrc typeB (bs.take (bs.length - 2)) == bs.drop (bs.length - 2)

/-! ### Words of the ports -/

/-- A STAT word (R786). -/
def nfcStat (sent status : Nat) (s : State) : State := portSend 0xA5 [(wd (fld 16 sent + status), false)] s

/-- A TX ends with its STAT word, unless a cancellation made it silent (R786, R787). -/
def nfcEndTx (t : NfcTx) (status : Nat) (s : State) : State :=
  let s := s.onNfc (fun n => { n with tx := none, air := if t.begun && t.endAt ≤ s.clk.tb then t.frame else n.air })
  if t.silent then s else nfcStat (t.sent s.clk.tb) status s

/-- The DOUT words of a response (R784). -/
def nfcHeader (status bits_ coll : Nat) (bs : Bytes) : List (Word × Bool) :=
  withEom (wd (fld 28 1 + fld 24 status + fld 21 bits_ + fld 12 bs.length + coll) ::
    (chunks 4 (bs.length / 4 + 1) bs).map wordOfLe)

/-- A response delivered at its tick: dropped whole when its words do not fit (R785; log entry 20). -/
def nfcDeliver (tick status : Nat) (ws : List (Word × Bool)) (s : State) : State :=
  let c := s.chan 0xA3
  if s.flushed 0xA then s
  else if 4 < c.q.length + ws.length || !c.back.isEmpty then nfcEvent 2 s
  else
    let s := s.setChan 0xA3 { c with q := c.q ++ ws.map (fun e => ⟨e.1, e.2, tick, 0⟩) }
    nfcEvent (if status = 0 then 0 else 1) (s.incFld rNFC_STAT 31 16)

/-! ### CTRL words -/

def nfcWord (op : Nat) (f : Word → Nat → State → State) (s : State) : State :=
  withSome (s.ctrlHead 0xA4 op) (fun h s => f h.w h.tick (cDrop 0xA4 s)) s

/-- The tick at which a FIELD_ON may take effect (R781). -/
def nfcOnFrom (s : State) : Nat := (s.nfc.offAt.map (fun t => t + nfcSettle)).getD 0

/-- The field goes on (R781, R786). -/
def nfcOn (s : State) : State :=
  nfcStat 0 1 (s.onNfc (fun n => { n with onAt := some s.clk.tb, waiting := false }))

/-- FIELD_ON; with EN at 0 there is no reader to switch on, and the word is refused (log entry 25). -/
def fieldOn (_w : Word) (_t : Nat) (s : State) : State :=
  if !s.rbit rNFC_CFG 31 then nfcStat 0 5 s
  else if s.nfc.onAt.isSome then nfcStat 0 1 s
  else if nfcOnFrom s ≤ s.clk.tb then nfcOn s
  else s.onNfc (fun n => { n with waiting := true })

/-- The FIELD_ON that acts next: one behind TX words of its own tick acts before them (R794). -/
def fieldOnWord (s : State) : Option ChWord :=
  let q := (s.chan 0xA4).q
  q.head?.bind (fun h => (q.dropWhile (fun w => bits w.w 31 28 == 3 && w.tick == h.tick)).head?.filter
    (fun w => bits w.w 31 28 == 1 && w.tick == h.tick))

def fieldOnNow (s : State) : State := withSome (fieldOnWord s) (fun w s => fieldOn w.w w.tick (cTakeOut 0xA4 w s)) s

def execFieldOn (s : State) : Out := .next (when s.timed fieldOnNow s)

def execFieldOnTakesEffect (s : State) : Out :=
  .next (when (s.timed && s.nfc.waiting && nfcOnFrom s ≤ s.clk.tb) nfcOn s)

/-- The carrier goes off at once (R789, R796). -/
def nfcCarrierOff (s : State) : State :=
  s.onNfc (fun n => { n with
    onAt := none, waiting := false
    offAt := if n.onAt.isSome then some s.clk.tb else n.offAt })

/-- FIELD_OFF: a reception ends with NO_RESPONSE and a TX STOPPED; a FIELD_ON that waits ends STOPPED (R786, R796). -/
def fieldOff (_w : Word) (_t : Nat) (s : State) : State :=
  let wasWaiting := s.nfc.waiting
  let s := nfcCarrierOff s
  let s := when wasWaiting (nfcStat 0 2) s
  let s := withSome s.nfc.tx (fun t s =>
    let s := when (t.begun && t.rxEn && !t.silent) (nfcDeliver s.clk.tb 4 (nfcHeader 4 0 0 [])) s
    nfcEndTx t 2 s) s
  nfcStat 0 1 s

def execFieldOff (s : State) : Out := .next (when s.timed (nfcWord 2 fieldOff) s)

/-- The DIN words that wait belong to the TX that runs, up to the one with EOM (R780). -/
def nfcDrain : Nat → State → State
  | 0, s => s
  | n + 1, s =>
    match s.nfc.tx, (s.chan 0xA2).q.head? with
    | some t, some h =>
      if txLen t.word ≤ t.bytes.length then s
      else
        let s := cDrop 0xA2 (s.onNfc (fun x => { x with tx := some { t with bytes := t.bytes ++ leOfWord h.w } }))
        if h.eom then s else nfcDrain n s
    | _, _ => s

/-- A TX frame starts on the air: one attempt (R500, R787). -/
def nfcBegin (t : NfcTx) (s : State) : State :=
  nfcDrain 4 (attempt 0xA (s.onNfc (fun n => { n with tx := some { t with begun := true } })))

/-- The frames that R783 refuses. BITS is for Type A, ACOL for Type A at 106 kbit/s, and RATE 0b11 names no rate (R780). -/
def txRefused (w : Word) (s : State) : Bool :=
  (s.nfc.onAt.isNone && !s.nfc.waiting) || s.nfc.tx.isSome || txLen w = 0 || 258 < txLen w || bits w 18 9 != 0 ||
  txRate w = 3 || (txTypeB w && bits w 22 20 != 0) || (bit w 19 && (txTypeB w || txRate w != 0))

/-- A TX word taken at tick t (R781, R783). -/
def nfcTx (w : Word) (t : Nat) (s : State) : State :=
  if txRefused w s then nfcStat 0 5 s
  else if !s.mayAttempt 0xA then s
  else
    let on := match s.nfc.onAt with | some x => x | none => nfcOnFrom s
    let from_ := max (on + nfcSettle) ((s.nfc.cardEnd.map (fun c => c + 5394)).getD 0)
    let x : NfcTx := ⟨w, [], max t from_, false, none, false⟩
    if from_ ≤ t then nfcBegin x s else nfcDrain 4 (s.onNfc (fun n => { n with tx := some x }))

def execTx (s : State) : Out := .next (when s.timed (fun s => nfcWord 3 nfcTx (fieldOnNow s)) s)

def execDeferredTxStart (s : State) : Out :=
  .next (when s.timed (fun s => withSome s.nfc.tx (fun t s =>
    when (!t.begun && s.nfc.onAt.isSome && t.startAt ≤ s.clk.tb) (nfcBegin t) s) s) s)

/-- STOP: the frame or its reception ends at once, without a DOUT word (R795). -/
def nfcStop (_w : Word) (_t : Nat) (s : State) : State := withSome s.nfc.tx (fun t s => nfcEndTx t 2 s) s

def execNfcStop (s : State) : Out := .next (when s.timed (nfcWord 4 nfcStop) s)

/-! ### Responses (R779, R782, R784) -/

/-- The acquisition converter converts NFC_RX without interruption (R779). -/
def nfcListens (s : State) : Bool := inputNow s == some 6

/-- The tick at which the wait for a response expires (R782). -/
def nfcExpiry (s : State) (t : NfcTx) : Nat := t.endAt + 64 * s.fld rNFC_FWT 22 0

/-- The converter has left NFC_RX by a tick, in a reception whose frame has ended (R779). -/
def NfcTx.gapBy (t : NfcTx) (now : Nat) : Bool := t.gapAt.any (fun g => g ≤ now)

/-- STATUS of a response: a gap, what the demodulator found in its bits, then its CRC where the TX word asks for the check. A
collision shows only with ACOL, and otherwise as a framing error (R784, R797; log entry 110). -/
def nfcVerdict (t : NfcTx) (ended status : Nat) (bs : Bytes) : Nat :=
  if t.gapBy ended then 6
  else if status = 3 && !bit t.word 19 then 5
  else if status != 0 then status
  else b2n (bit t.word 24 && !cardCrcOk (txTypeB t.word) bs)

/-- A card frame whose start was detected at tick `began` and whose end lay at tick `ended`: what the demodulator found in its
bits, its bytes, the valid bits of the last one, and the first colliding bit. -/
def nfcResponse (began ended status bits_ coll : Nat) (bs : Bytes) (s : State) : State :=
  withSome s.nfc.tx (fun t s =>
    let due := t.begun && t.rxEn && t.endAt ≤ began && began ≤ nfcExpiry s t && began ≤ ended && ended + 1248 ≤ s.clk.tb
    when due (fun s =>
      let st := nfcVerdict t ended status bs
      let s := s.onNfc (fun n => { n with cardEnd := some ended })
      let s := when (!t.silent) (nfcDeliver (ended + 1248) st (nfcHeader st bits_ (if st = 3 then coll else 0) bs)) s
      nfcEndTx t 1 (when (t.silent && st = 0) (lateSuccess 0xA) s)) s) s

def execNfcResponse (began ended : Nat) (status : Fin 6) (lastBits : Fin 8) (coll : BitVec 12) (response : List Byte)
    (s : State) : Out :=
  .next (when (s.timed && status.val != 1 && status.val != 4 && response.length ≤ 258)
    (nfcResponse began ended status.val lastBits.val coll.toNat response) s)

/-- No response started in time (R782, R785). -/
def execNoResponse (s : State) : Out :=
  .next (when s.timed (fun s => withSome s.nfc.tx (fun t s =>
    when (t.begun && t.rxEn && nfcExpiry s t + 1248 ≤ s.clk.tb) (fun s =>
      let st := if t.gapBy (nfcExpiry s t) then 6 else 4
      let s := when (!t.silent) (nfcDeliver (nfcExpiry s t + 1248) st (nfcHeader st 0 0 [])) s
      nfcEndTx t 1 s) s) s) s)

/-- The reader at one tick: DIN words of a running TX, an interruption of the converter while a response may arrive, and
the end of a TX that awaits none. -/
def nfcTick (s : State) : State :=
  let s := nfcDrain 4 s
  match s.nfc.tx with
  | none => s
  | some t =>
    if !t.begun || s.clk.tb < t.endAt then s
    else if !t.rxEn then nfcEndTx t 1 (when t.silent (lateSuccess 0xA) s)
    else if nfcListens s then s
    else s.onNfc (fun n => { n with tx := some { t with gapAt := t.gapAt.or (some s.clk.tb) } })

/-- A cancellation: the frame that runs goes on in silence, one that has not started never does, and a FIELD_ON that waits
leaves the field off (R510, R787). -/
def nfcCancel (s : State) : State :=
  withSome s.nfc.tx (fun t s => s.onNfc (fun n => { n with tx := if t.begun then some { t with silent := true } else none }))
    (s.onNfc (fun n => { n with waiting := false }))

/-- At thaw a TX ends STOPPED; the field, off since the freeze, stays off (R789). -/
def nfcThaw (s : State) : State := withSome s.nfc.tx (fun t s => nfcEndTx t 2 s) s

/-! ### Registers (R790) -/

def nfcStatReg (s : State) : Word :=
  let run := s.nfc.tx.filter NfcTx.begun
  wd (fld 16 (s.fld rNFC_STAT 31 16) + fld 2 (b2n (run.any (fun t => t.rxEn && t.endAt ≤ s.clk.tb)))
    + fld 1 (b2n (run.any (fun t => s.clk.tb < t.endAt))) + b2n s.nfc.onAt.isSome)

/-- A write of an NFC register that does more than store its word: the reader switched off drops the field. -/
def nfcWrite (a : Nat) (v : Word) (s : State) : Option State :=
  if a = rNFC_FWT then some (s.setReg a (wd (max 1 (bits v 22 0))))
  else if a = rNFC_CFG then
    let s := s.setReg a (v &&& 0x8000000F)
    some (when (!bit v 31) (fun s => nfcThaw (nfcCarrierOff s)) s)
  else none

end Sys2Proof.Machine
end

