-- ==== Sys2Proof/Machine/Bus.lean ====
section
/-! DEFINITION. Control space as requesters read and write it: what each register reads as, and what a write of it does
(R14, R265, and the register sections of every chapter). -/
namespace Sys2Proof.Machine

/-! ### Quench requests (R1108, R1109) -/

/-- A freeze starts; its sources are bits 1 to 3 of ASSAY_STAT: ball, ASSAY_CTL, 1149.1. Sources of one freeze join it until
its coherent stop (R1132). -/
def startFreeze (src : Nat) (s : State) : State :=
  { s with assay := { s.assay with
    freezing := true
    srcs := (if s.assay.freezing then s.assay.srcs else 0) ||| BitVec.ofNat 4 (1 <<< src)
    holdsReset := s.pwr.resetReq.isSome } }

/-- A quench request: honoured in FACTORY and SERVICE, else ignored with REQ_IGNORED. -/
def quenchRequest (src : Nat) (s : State) : State :=
  if s.sys.mode == .off then s
  else if quenchable s.sys.mode then startFreeze src s
  else s.setRbit rASSAY_STAT 7 true

/-- A write of ASSAY_CTL (R1131). -/
def assayCtl (who : Req) (key : BitVec 16) (s : State) : State :=
  when (Writers.appHost.permits who && key == 0x5155) (quenchRequest 2) s

/-- R1127 masks: outside FACTORY, and in QUENCHED unless the freeze came from FACTORY. -/
def kilnMasked (s : State) : Bool :=
  !(s.sys.mode == .factory || (s.sys.mode == .quenched && s.fld rASSAY_STAT 11 8 == Mode.factory.code))

/-- ASSAY_STAT as it reads. -/
def assayStat (s : State) : Word := setBit (setBit (s.reg rASSAY_STAT) 4 s.assay.ballLow) 6 (kilnMasked s)

/-! ### XLATE invalidations (R307, R308) -/

/-- The invalidation that the fields of XLATE_INV name; BUSY until every walk begun before has finished. A further write while
BUSY is 1 runs at once, and one XLATE_INV_DONE ends both (DESIGN CHOICE, log entry 105). -/
def xlateInv (op ctx page : Nat) (s : State) : State :=
  let gone := fun (e : TlbEntry) =>
    match op with
    | 1 => e.ctx == ctx && e.page == page
    | 2 => e.ctx == ctx
    | _ => true
  if op = 0 then s
  else { s with mem := { s.mem with tlb := s.mem.tlb.filter (fun e => !gone e), xlateBusy := true } }

def xlateInvWrite (who : Req) (op ctx page : Nat) (s : State) : State := when (Writers.app.permits who) (xlateInv op ctx page) s

def execXlateInvPage (who : Req) (ctx : Fin 64) (page : BitVec 20) (s : State) : Out :=
  .next (when s.live (xlateInvWrite who 1 ctx.val page.toNat) s)

def execXlateInvContext (who : Req) (ctx : Fin 64) (s : State) : Out :=
  .next (when s.live (xlateInvWrite who 2 ctx.val 0) s)

def execXlateInvAll (who : Req) (s : State) : Out := .next (when s.live (xlateInvWrite who 3 0 0) s)

/-- The invalidation is complete. -/
def execXlateInvDone (s : State) : Out :=
  .next (when (s.live && s.mem.xlateBusy) (fun s => { s with mem := { s.mem with xlateBusy := false } }) s)

/-! ### Which copy of a banked register a requester reaches (R422, R1065) -/

/-- The registers banked per host interface. -/
def hostBanked (a : Nat) : Bool := a == rHOSTIF_EVT || a == rHOSTIF_IVEC || a == rHOSTIF_PEND || a == rHOSTIF_PMASK

/-- The requester whose copy an access reaches: a core reaches that of the first active host interface (log entry 30). -/
def copyOwner (s : State) (who : Req) (a : Nat) : Req :=
  match Req.iface who with
  | some _ => who
  | none => if hostBanked a then (hostReqs.find? (fun r => s.hostActive r)).getD .pcie else who

def State.keyOf (s : State) (who : Req) (a : Nat) : Nat := regKey (copyOwner s who a) a

/-! ### What registers read as -/

def sysMode (s : State) : Word :=
  wd (fld 20 (modeCode s.sys.prev) + fld 16 (modeCode s.sys.bankFrom) + fld 8 (popCount s.sys.active) + fld 4 (b2n s.sys.mated)
    + s.sys.mode.code)

def sysSession (s : State) : Word := wd (fld 16 (s.sys.grants.map (fun e => 2 ^ e.1)).sum + s.sys.active.toNat)

def hostSel (s : State) : Word :=
  wd (fld 10 (b2n s.host.linkUp) + fld 8 s.host.speed.toNat + fld 4 s.host.active.toNat + s.host.hsel.toNat)

/-- The registers of blocks SYS, PWR and TB that are not read as they are stored. -/
def readSys (who : Req) (a : Nat) (s : State) : Option (Word × State) :=
  if a = rSYS_MODE then some (sysMode s, s)
  else if a = rSYS_MODE_CAUSE then some (wd s.sys.cause, s)
  else if a = rSYS_LOCK_CAUSE then some (wd s.sys.lockCause.toNat, s)
  else if a = rSYS_SESSION then some (sysSession s, s)
  else if a = rTB_NOW_LO then some (readTbLo who s)
  else if a = rRTC_NOW_LO then some (readRtcLo who s)
  else none

/-- The registers of FRONT, FLASH, XLATE, ASSAY and HOSTIF that are not read as they are stored. -/
def readFabric (who : Req) (a : Nat) (s : State) : Option (Word × State) :=
  if a = rFRONT_STAT then some (frontStat s, s)
  else if rFRONT_CAGE ≤ a && a < rFRONT_CAGE + 32 then some (frontCage (cageNo ((a - rFRONT_CAGE) / 4)) s, s)
  else if rFRONT_QPTR ≤ a && a < rFRONT_QPTR + 2048 then some (frontQptr ((a - rFRONT_QPTR) / 4) s, s)
  else if rFRONT_DONE ≤ a && a < rFRONT_DONE + 1024 then some (frontDone ((a - rFRONT_DONE) / 4) s, s)
  else if a = rFRONT_QCNT then some (frontQcnt ((s.reg (regKey who rFRONT_QSEL)).toNat % 512) s, s)
  else if a = rFLASH_STAT then some (flashStat s, s)
  else if rFLASH_TORN ≤ a && a < rFLASH_TORN + 128 then some (tornWord s ((a - rFLASH_TORN) / 4), s)
  else if a = rXLATE_INV then some (setBit 0 2 s.mem.xlateBusy, s)
  else if a = rASSAY_STAT then some (assayStat s, s)
  else if a = rHOSTIF_SEL then some (hostSel s, s)
  else none

/-- The registers of the engines that are not read as they are stored. -/
def readBlock (a : Nat) (s : State) : Option (Word × State) :=
  if a = rADC_STAT then some (adcStatWord s, s)
  else if a = rLF_STAT then some (lfStatReg s, s)
  else if a = rUHF_STAT then some (uhfStat s, s)
  else if a = rUWB_STAT then some (uwbStat s, s)
  else if a = rBLE_STAT then some (bleStat s, s)
  else if a = rBLE_HCI_RXD then some (bleRxd s, s)
  else if a = rNFC_STAT then some (nfcStatReg s, s)
  else if rKATTR ≤ a && a < rKATTR + 256 then some (kattr ((a - rKATTR) / 4) s, s)
  else if a = rCIPHER_STAT then some (cipherStat s, s)
  else if a = rCIPHER_DEVID_LO then some (wd (Config.deviceId.toNat), s)
  else if a = rCIPHER_DEVID_HI then some (wd (Config.deviceId.toNat / 2 ^ 32), s)
  else if a = rENT_STAT then some (entStat s, s)
  else if a = rENT_DATA then some (readEntData s)
  else if a = rSTART_STAT then some (startStat s, s)
  else if rCAN0_CFG ≤ a && a < rCAN0_CFG + 0x4000 && a % 0x1000 = 0x10 then some (canStat s ((a - rCAN0_CFG) / 0x1000), s)
  else if rLIN0_CFG ≤ a && a < rLIN0_CFG + 0x2000 && a % 0x1000 = 0xC then some (linStat s ((a - rLIN0_CFG) / 0x1000))
  else if a = rADIT_STAT then some (aditStat s, s)
  else none

/-- An aligned read of a register; none is the error answer of an offset that no register table defines (R265). -/
def regRead (who : Req) (a : Nat) (s : State) : Option (Word × State) :=
  if (regDef? a).isNone then none
  else some (((readSys who a s).orElse (fun _ => (readFabric who a s).orElse (fun _ => readBlock a s))).getD
    (s.reg (s.keyOf who a), s))

/-! ### What writes do -/

/-- A write of a SYS, PWR or TB register that does more than its access codes say. -/
def writeSys (who : Req) (a : Nat) (v : Word) (s : State) : Option State :=
  if a = rSYS_MODE_REQ then some (modeRequest who (BitVec.ofNat 16 (bits v 31 16)) (bits v 3 0) s)
  else if a = rSYS_SESSION then some (sessionWrite who (BitVec.ofNat 8 (bits v 15 8)) (BitVec.ofNat 8 (bits v 7 0)) s)
  else if a = rSYS_APPROACH_TMO then
    some (when (Writers.appKiln.permits who) (fun s => s.setReg a (wd (clamp 100 10000 (bits v 13 0)))) s)
  else if a = rSYS_MODE_IE then
    some (when (Writers.appKiln.permits who) (fun s => s.modeEdge (fun s => s.setReg a (v &&& 0xF))) s)
  else if a = rSYS_ECC_STAT then
    let s := s.setReg a (s.reg a &&& ~~~(v &&& 0xE))
    some (when (bit v 1) (fun s => s.setFld a 31 16 0) s)
  else if a = rPWR_RESET_REQ then some (softwareReset who (BitVec.ofNat 16 (bits v 31 16)) s)
  else if a = rPWR_WDT_CFG then some (wdtWrite who v s)
  else if a = rPWR_WDT_KICK then some (kick who (BitVec.ofNat 16 (bits v 31 16)) s)
  else if a = rPWR_VCORE then some (vcoreWrite who v s)
  else none

/-- A write of a LEDGER, FLASH, ENT, ASSAY, HOSTIF or XLATE register that does more than its access codes say. -/
def writeFabric (who : Req) (a : Nat) (v : Word) (s : State) : Option State :=
  if a = rLEDGER_CTL then some (ledgerCtl who (BitVec.ofNat 16 (bits v 31 16)) (bit v 0) s)
  else if a = rFLASH_CMD then some (flashCmd who (BitVec.ofNat 16 (bits v 31 16)) (bits v 3 0) s)
  else if a = rASSAY_CTL then some (when (bit v 0) (assayCtl who (BitVec.ofNat 16 (bits v 31 16))) s)
  else if a = rXLATE_INV then some (xlateInvWrite who (bits v 1 0) (bits v 11 6) (bits v 31 12) s)
  else if a = rHOSTIF_RESCUE then some (when (Writers.hostApp.permits who) (rescueWrite v) s)
  else if a = rHOSTIF_UART_BAUD then
    some (when (Writers.hostApp.permits who) (fun s => s.setReg a (wd (max 3994 (bits v 23 0)))) s)
  else none

/-- A write, by a permitted writer, of a register of a radio, network or engine block that does more than its access codes
say. -/
def writeBlock (a : Nat) (v : Word) (s : State) : Option State :=
  match a / 0x1000 - 0x40000 with
  | 3 => adcWrite a v s
  | 4 => lfWrite a v s
  | 5 => uhfWrite a v s
  | 6 => uwbWrite a v s
  | 7 => bleWrite a v s
  | 8 => nfcWrite a v s
  | 9 => capWrite a v s
  | 11 => swWrite a v s
  | 12 => canWrite 0 (a % 0x1000) v s
  | 13 => canWrite 1 (a % 0x1000) v s
  | 14 => canWrite 2 (a % 0x1000) v s
  | 15 => canWrite 3 (a % 0x1000) v s
  | 16 => linWrite 0 (a % 0x1000) v s
  | 17 => linWrite 1 (a % 0x1000) v s
  | 23 => startWrite a v s
  | _ => none

/-- The registers whose writers are not one set for the whole register, or that act on a write alone. -/
def writeOwn (who : Req) (a : Nat) (v : Word) (s : State) : Option State :=
  match a / 0x1000 - 0x40000 with
  | 0 => writeSys who a v s
  | 1 => writeSys who a v s
  | 2 => frontWrite who a v s
  | 10 => aditWrite who a v s
  | 20 => entWrite who a v s
  | _ => writeFabric who a v s

/-- A write that is stored, clears and sets as the access codes of its bits say (R14, R18). -/
def plainWrite (d : RegDef) (k : Nat) (v : Word) (s : State) : State := s.setReg k (writeMasked d (s.reg k) v)

/-- An aligned write of a register of control space; none is the error answer of an undefined offset (R265). A write by a
requester that the register does not accept is ignored (R13). -/
def regWrite (who : Req) (a : Nat) (v : Word) (s : State) : Option State :=
  match regDef? a with
  | none => none
  | some d =>
    if inKilnRegs a then some (when (d.who.permits who) (kattrWrite ((a - rKATTR) / 4) v) s)
    else match writeOwn who a v s with
      | some t => some t
      | none =>
        if !d.who.permits who then some s
        else match writeBlock a v s with
          | some t => some t
          | none => some (plainWrite d (s.keyOf who a) v s)

/-! ### CPRIV_CACHE (R266 to R268) -/

/-- A core's write of bytes of its CPRIV_CACHE: the bytes it addresses, then the operations they start, which are complete
before the core goes on. -/
def privWrite (c : Fin 6) (off : Nat) (bs : Bytes) (s : State) : State :=
  let k := regKey (.core c) rCPRIV_CACHE
  let v := wordOfLe (patch (leOfWord (s.reg k &&& 3)) off bs)
  let s := s.setReg k (v &&& 3)
  when (bit v 3) (invI c) (when (bit v 2) (flushD c) s)

def execFlushD (c : Fin 6) (s : State) : Out := .next (when (s.runs c) (flushD c) s)
def execInvI (c : Fin 6) (s : State) : Out := .next (when (s.runs c) (invI c) s)

end Sys2Proof.Machine
end

