-- ==== Sys2Proof/Machine/Flags.lean ====
section
/-! DEFINITION. The flags word FLG and what arithmetic leaves in it (R150, R159 to R163). FLG is held as its bits [3:0]:
V, C, N, Z from the top. -/
namespace Sys2Proof.Machine

/-- FLG from its four flags. -/
def packFlags (v c n z : Bool) : BitVec 4 := BitVec.ofNat 4 (8 * b2n v + 4 * b2n c + 2 * b2n n + b2n z)

def flagV (f : BitVec 4) : Bool := f.getLsbD 3
def flagC (f : BitVec 4) : Bool := f.getLsbD 2
def flagN (f : BitVec 4) : Bool := f.getLsbD 1
def flagZ (f : BitVec 4) : Bool := f.getLsbD 0

def withV (f : BitVec 4) (v : Bool) : BitVec 4 := packFlags v (flagC f) (flagN f) (flagZ f)
def withC (f : BitVec 4) (c : Bool) : BitVec 4 := packFlags (flagV f) c (flagN f) (flagZ f)
def withZ (f : BitVec 4) (z : Bool) : BitVec 4 := packFlags (flagV f) (flagC f) (flagN f) z

/-- Z and N of a result. -/
def flagsZN (f : BitVec 4) (r : Word) : BitVec 4 := packFlags (flagV f) (flagC f) r.msb (r == 0)

/-- Z and N of a result, and V. -/
def flagsZNV (f : BitVec 4) (r : Word) (v : Bool) : BitVec 4 := packFlags v (flagC f) r.msb (r == 0)

/-- Z and N of a result, and C where the shift amount is not 0. -/
def flagsShift (f : BitVec 4) (r : Word) (n : Nat) (c : Bool) : BitVec 4 :=
  packFlags (flagV f) (if n = 0 then flagC f else c) r.msb (r == 0)

/-! ### Addition and subtraction (R160) -/

/-- The 33-bit sum of the pseudocode of R160. -/
def wideSum (a b : Word) (cin : Bool) : Nat := a.toNat + b.toNat + b2n cin

def addRes (a b : Word) (cin : Bool) : Word := wd (wideSum a b cin)

/-- Carry out of the addition. -/
def addCarry (a b : Word) (cin : Bool) : Bool := 2 ^ 32 ≤ wideSum a b cin

/-- Signed overflow of the addition. -/
def addOverflow (a b : Word) (cin : Bool) : Bool := (~~~(a ^^^ b) &&& (a ^^^ addRes a b cin)).msb

/-- The sum with the flags it leaves. -/
def addWithFlags (a b : Word) (cin : Bool) : Word × BitVec 4 :=
  let r := addRes a b cin
  (r, packFlags (addOverflow a b cin) (addCarry a b cin) r.msb (r == 0))

/-! ### The operations of formats A and I: operands and FLG in, result and FLG out -/

/-- An operation on two operands. -/
abbrev BinOp := BitVec 4 → Word → Word → Word × BitVec 4

def opAdd : BinOp := fun _ a b => addWithFlags a b false
def opSub : BinOp := fun _ a b => addWithFlags a (~~~b) true
def opAdc : BinOp := fun f a b => addWithFlags a b (flagC f)
def opSbc : BinOp := fun f a b => addWithFlags a (~~~b) (flagC f)

/-- An operation that names Z and N. -/
def plainOp (g : Word → Word → Word) : BinOp := fun f a b => (g a b, flagsZN f (g a b))

def opAnd : BinOp := plainOp (fun a b => a &&& b)
def opOr : BinOp := plainOp (fun a b => a ||| b)
def opXor : BinOp := plainOp (fun a b => a ^^^ b)
def opAndn : BinOp := plainOp (fun a b => a &&& ~~~b)

/-- The shift amount, b & 31. -/
def shAmt (b : Word) : Nat := b.toNat % 32

def opShl : BinOp := fun f a b => let n := shAmt b; let r := a <<< n; (r, flagsShift f r n (a.getLsbD (32 - n)))
def opShr : BinOp := fun f a b => let n := shAmt b; let r := a >>> n; (r, flagsShift f r n (a.getLsbD (n - 1)))
def opSar : BinOp := fun f a b => let n := shAmt b; let r := a.sshiftRight n; (r, flagsShift f r n (a.getLsbD (n - 1)))
def opRor : BinOp := fun f a b => let n := shAmt b; let r := a.rotateRight n; (r, flagsShift f r n r.msb)

/-- A comparison as 1 or 0. -/
def truth (p : Bool) : Word := if p then 1 else 0

def opSlt : BinOp := plainOp (fun a b => truth (a.slt b))
def opSltu : BinOp := plainOp (fun a b => truth (a.ult b))

/-- Leading zero bits, 32 for 0. -/
def clz (a : Word) : Nat := ((List.range 32).takeWhile (fun i => !a.getLsbD (31 - i))).length

def opClz : BinOp := plainOp (fun a _ => wd (clz a))
def opSexb : BinOp := plainOp (fun a _ => (a.setWidth 8).signExtend 32)
def opSexh : BinOp := plainOp (fun a _ => (a.setWidth 16).signExtend 32)

/-! ### Multiplication and division (R162, R163) -/

def opMul : BinOp := plainOp (fun a b => a * b)
def opMulh : BinOp := plainOp (fun a b => BitVec.ofInt 32 (a.toInt * b.toInt / 2 ^ 32))
def opMulhu : BinOp := plainOp (fun a b => wd (a.toNat * b.toNat / 2 ^ 32))

/-- The exceptional cases of a signed division. -/
def divExc (a b : Word) : Bool := b == 0 || (a == 0x80000000 && b == 0xFFFFFFFF)

def opDiv : BinOp := fun f a b =>
  let r : Word := if b = 0 then 0xFFFFFFFF else BitVec.ofInt 32 (Int.tdiv a.toInt b.toInt)
  (r, flagsZNV f r (divExc a b))
def opDivu : BinOp := fun f a b =>
  let r : Word := if b = 0 then 0xFFFFFFFF else wd (a.toNat / b.toNat)
  (r, flagsZNV f r (b == 0))
def opRem : BinOp := fun f a b =>
  let r : Word := if b = 0 then a else BitVec.ofInt 32 (Int.tmod a.toInt b.toInt)
  (r, flagsZNV f r (divExc a b))
def opRemu : BinOp := fun f a b =>
  let r : Word := if b = 0 then a else wd (a.toNat % b.toNat)
  (r, flagsZNV f r (b == 0))

/-! ### Conditions (R177) -/

/-- The condition of BC; 0xF is undefined and raises ILLEGAL before it is tested. -/
def condHolds (c : Nat) (f : BitVec 4) : Bool :=
  let v := flagV f
  let cy := flagC f
  let n := flagN f
  let z := flagZ f
  match c with
  | 0 => z
  | 1 => !z
  | 2 => cy
  | 3 => !cy
  | 4 => n
  | 5 => !n
  | 6 => v
  | 7 => !v
  | 8 => cy && !z
  | 9 => !cy || z
  | 10 => n == v
  | 11 => n != v
  | 12 => !z && n == v
  | 13 => z || n != v
  | _ => true

end Sys2Proof.Machine
end

