-- ==== Sys2Proof/Machine/Operands.lean ====
section
/-! DEFINITION. The instruction formats (R152 to R154): the word that the fields of an instruction make, which is what ILLEGAL
leaves in cbad, and the immediate forms. -/
namespace Sys2Proof.Machine

/-- Format A: register-register. -/
def encA (major : Nat) (rd ra rb : Fin 16) (fn : Nat) (rsv : BitVec 7) (f : Bool) : Word :=
  wd (fld 26 major + fld 22 rd.val + fld 18 ra.val + fld 14 rb.val + fld 8 fn + fld 1 rsv.toNat + b2n f)

/-- Format I: 12-bit immediate. -/
def encI (major : Nat) (rd ra : Fin 16) (imm12 : BitVec 12) (rsv : BitVec 5) (f : Bool) : Word :=
  wd (fld 26 major + fld 22 rd.val + fld 18 ra.val + fld 6 imm12.toNat + fld 1 rsv.toNat + b2n f)

/-- Format I as MOVU, ORL and ADPC use it: 16-bit immediate (R154). -/
def encI16 (major : Nat) (rd : Fin 16) (imm16 : BitVec 16) (rsv : BitVec 5) (f : Bool) : Word :=
  wd (fld 26 major + fld 22 rd.val + fld 6 imm16.toNat + fld 1 rsv.toNat + b2n f)

/-- Format M: memory. -/
def encM (major : Nat) (rd ra : Fin 16) (imm12 : BitVec 12) (rsv : BitVec 6) : Word :=
  wd (fld 26 major + fld 22 rd.val + fld 18 ra.val + fld 6 imm12.toNat + rsv.toNat)

/-- Format B: branch. -/
def encB (major : Nat) (c : Nat) (rsv : BitVec 6) (off16 : BitVec 16) : Word :=
  wd (fld 26 major + fld 22 c + fld 16 rsv.toNat + off16.toNat)

/-- Format J: jump. -/
def encJ (major : Nat) (off24 : BitVec 24) (rsv : BitVec 2) : Word := wd (fld 26 major + fld 2 off24.toNat + rsv.toNat)

/-- Format C: channel. -/
def encC (major : Nat) (rd ra : Fin 16) (aux : BitVec 10) (ch : BitVec 8) : Word :=
  wd (fld 26 major + fld 22 rd.val + fld 18 ra.val + fld 8 aux.toNat + ch.toNat)

/-- Format S: system. -/
def encS (fn : Nat) (rd ra : Fin 16) (imm12 : BitVec 12) : Word :=
  wd (fld 26 0x3C + fld 22 rd.val + fld 18 ra.val + fld 12 fn + imm12.toNat)

/-- A 12-bit immediate, sign-extended. -/
def sext12 (i : BitVec 12) : Word := i.signExtend 32

/-- A 12-bit immediate, zero-extended. -/
def zext12 (i : BitVec 12) : Word := i.setWidth 32

/-- A word offset of a branch, in bytes. -/
def off16Bytes (o : BitVec 16) : Word := o.signExtend 32 <<< 2

/-- A word offset of a jump, in bytes. -/
def off24Bytes (o : BitVec 24) : Word := o.signExtend 32 <<< 2

/-- A format A instruction whose reserved field is 0. -/
def legalA (rsv : BitVec 7) : Bool := rsv == 0

/-- A shift by an immediate whose imm12 [11:5] is 0. -/
def legalShift (imm12 : BitVec 12) (rsv : BitVec 5) : Bool := rsv == 0 && imm12.toNat < 32

end Sys2Proof.Machine
end

