-- ==== Sys2Proof/Machine/Cores.lean ====
section
/-! DEFINITION. How a core executes an instruction: its boundary, the fetch, exceptions, double faults and interrupts
(R148, R156, R180, R219, R240 to R244). An instruction command names its core and carries every field of the word
(log entry 8). -/
namespace Sys2Proof.Machine

/-! ### Registers of a core (R148) -/

/-- A general register; g0 reads 0. -/
def Core.get (k : Core) (r : Fin 16) : Word := if r = 0 then 0 else k.g.get r

/-- A general register written; a write of g0 is discarded. -/
def Core.put (rd : Fin 16) (v : Word) (k : Core) : Core := if rd = 0 then k else { k with g := k.g.set rd v }

/-- The core goes on at the next word. -/
def Core.advance (k : Core) : Core := { k with pc := k.pc + 4, run := .running }

/-- An instruction that writes one register and goes on. -/
def Core.write (rd : Fin 16) (v : Word) (k : Core) : Core := (k.put rd v).advance

/-! ### Exceptions and interrupts (R241, R242, R244) -/

/-- cstat on the entry to a handler: PIE and PEXC take IE and EXC, IE is 0 and EXC is 1. -/
def enterStat (st : Word) : Word := setBit (setBit (setBit (setBit st 3 (bit st 2)) 2 false) 1 (bit st 0)) 0 true

/-- The core enters the handler at cvec + off. -/
def Core.vector (k : Core) (off cause : Word) : Core :=
  { k with cepc := k.pc, cstat := enterStat k.cstat, ccause := cause, pc := k.cvec + off, run := .running }

/-- A synchronous exception: the vector, or a double fault while EXC is 1. -/
def raise (c : Fin 6) (code sub : Nat) (bad : Word) (s : State) : State :=
  let k := s.cores.get c
  if bit k.cstat 0 then doubleFault c s
  else s.setCore c { k.vector 0x20 (wd (fld 8 sub + code)) with cbad := bad }

def raiseIllegal (c : Fin 6) (word : Word) (s : State) : State := raise c 1 0 word s
def raiseMisaligned (c : Fin 6) (a : Word) (s : State) : State := raise c 2 0 a s
def raiseBus (c : Fin 6) (a : Word) (s : State) : State := raise c 3 0 a s
def raiseChan (c : Fin 6) (ch : BitVec 8) (sub : Nat) (s : State) : State := raise c 5 sub (ch.setWidth 32) s
def raiseKey (c : Fin 6) (handle : Word) (sub : Nat) (s : State) : State := raise c 6 sub handle s

/-- The events that a core takes as interrupts now (R219). -/
def Core.due (k : Core) : BitVec 16 := if bit k.cstat 2 then k.e &&& BitVec.ofNat 16 (bits k.cstat 31 16) else 0

/-- The lowest-numbered bit that is set. -/
def lowestBit (m : BitVec 16) : Nat := ((List.range 16).find? (fun i => m.getLsbD i)).getD 0

/-- A core is at an instruction boundary, or blocked in an instruction that it leaves for an interrupt (R213, R255). A core
whose access is stalled by its target completes it first (R195). -/
def Core.interruptible (k : Core) : Bool :=
  match k.run with
  | .running => true
  | .blocked .ledgerAck => false
  | .blocked _ => true
  | _ => false

/-- The core takes an interrupt: the boundary before its next instruction, or the instruction in which it was blocked,
which has made no transfer and is executed again after ERET (R213, R219, R220, R242). -/
def interrupt (c : Fin 6) (s : State) : State :=
  let k := s.cores.get c
  s.setCore c (k.vector 0x40 (wd (2 ^ 31 + lowestBit k.due)))

def execInterrupt (c : Fin 6) (s : State) : Out :=
  let k := s.cores.get c
  .next (when (s.coreUp c && k.interruptible && k.due != 0) (interrupt c) s)

/-! ### An instruction -/

/-- A core takes this instruction word now: it runs with no interrupt due, or its stalled access is this instruction's
(log entry 9). -/
def State.takes (s : State) (c : Fin 6) (word : Word) : Bool :=
  let k := s.cores.get c
  s.coreUp c && (match k.run with
    | .running => k.due == 0
    | .stalled w => w == word
    | _ => false)

/-- The access of an instruction waits for its target. -/
def stall (c : Fin 6) (word : Word) (s : State) : State := s.onCore c (fun k => { k with run := .stalled word })

/-- The fetch, the decode and the execution of an instruction, in the order of R241. -/
def perform (c : Fin 6) (word : Word) (legal : Bool) (body : State → State) (s : State) : State :=
  let pc := (s.cores.get c).pc
  if !fetchable c pc.toNat then raiseBus c pc s
  else match coreFetch c pc.toNat s with
    | (.stall, s) => stall c word s
    | (.ok _, s) => if legal then body s else raiseIllegal c word s
    | (_, s) => raiseBus c pc s

/-- An instruction as a command. -/
def instruction (c : Fin 6) (word : Word) (legal : Bool) (body : State → State) (s : State) : Out :=
  .next (when (s.takes c word) (perform c word legal body) s)

/-! ### Register results (R159) -/

/-- An operation's result written to rd, FLG updated where F is 1, and the next word. -/
def regResult (c : Fin 6) (rd : Fin 16) (f : Bool) (op : BinOp) (a b : Core → Word) (s : State) : State :=
  s.onCore c (fun k =>
    let r := op k.flg (a k) (b k)
    { k.write rd r.1 with flg := if f then r.2 else k.flg })

/-- An instruction of format A on registers ra and rb. -/
def opA (major fn : Nat) (op : BinOp) (usesRb : Bool) (c : Fin 6) (rd ra rb : Fin 16) (rsv : BitVec 7) (f : Bool)
    (s : State) : Out :=
  instruction c (encA major rd ra rb fn rsv f) (legalA rsv && (usesRb || rb == 0))
    (regResult c rd f op (fun k => k.get ra) (fun k => k.get rb)) s

/-- An instruction of format I on register ra and an immediate operand. -/
def opI (major : Nat) (op : BinOp) (legal : Bool) (b : Word) (c : Fin 6) (rd ra : Fin 16) (imm12 : BitVec 12) (rsv : BitVec 5)
    (f : Bool) (s : State) : Out :=
  instruction c (encI major rd ra imm12 rsv f) (rsv == 0 && legal) (regResult c rd f op (fun k => k.get ra) (fun _ => b)) s

/-- An instruction with a 16-bit immediate. -/
def opI16 (major : Nat) (op : BinOp) (legal : Bool) (a : Core → Word) (b : Word) (c : Fin 6) (rd : Fin 16) (imm16 : BitVec 16)
    (rsv : BitVec 5) (f : Bool) (s : State) : Out :=
  instruction c (encI16 major rd imm16 rsv f) (rsv == 0 && legal) (regResult c rd f op a (fun _ => b)) s

end Sys2Proof.Machine
end

