-- ==== Sys2Proof/Machine/Alu.lean ====
section
/-! DEFINITION. The register-register instructions of the majors ALU and MULDIV and the immediate instructions (R161 to R163,
R165). -/
namespace Sys2Proof.Machine

/-! ### Major 0x01: ALU -/

def execAdd (c : Fin 6) (rd ra rb : Fin 16) (rsv : BitVec 7) (f : Bool) (s : State) : Out :=
  opA 0x01 0x00 opAdd true c rd ra rb rsv f s

def execSub (c : Fin 6) (rd ra rb : Fin 16) (rsv : BitVec 7) (f : Bool) (s : State) : Out :=
  opA 0x01 0x01 opSub true c rd ra rb rsv f s

def execAdc (c : Fin 6) (rd ra rb : Fin 16) (rsv : BitVec 7) (f : Bool) (s : State) : Out :=
  opA 0x01 0x02 opAdc true c rd ra rb rsv f s

def execSbc (c : Fin 6) (rd ra rb : Fin 16) (rsv : BitVec 7) (f : Bool) (s : State) : Out :=
  opA 0x01 0x03 opSbc true c rd ra rb rsv f s

def execAnd (c : Fin 6) (rd ra rb : Fin 16) (rsv : BitVec 7) (f : Bool) (s : State) : Out :=
  opA 0x01 0x04 opAnd true c rd ra rb rsv f s

def execOr (c : Fin 6) (rd ra rb : Fin 16) (rsv : BitVec 7) (f : Bool) (s : State) : Out :=
  opA 0x01 0x05 opOr true c rd ra rb rsv f s

def execXor (c : Fin 6) (rd ra rb : Fin 16) (rsv : BitVec 7) (f : Bool) (s : State) : Out :=
  opA 0x01 0x06 opXor true c rd ra rb rsv f s

def execAndn (c : Fin 6) (rd ra rb : Fin 16) (rsv : BitVec 7) (f : Bool) (s : State) : Out :=
  opA 0x01 0x07 opAndn true c rd ra rb rsv f s

def execShl (c : Fin 6) (rd ra rb : Fin 16) (rsv : BitVec 7) (f : Bool) (s : State) : Out :=
  opA 0x01 0x08 opShl true c rd ra rb rsv f s

def execShr (c : Fin 6) (rd ra rb : Fin 16) (rsv : BitVec 7) (f : Bool) (s : State) : Out :=
  opA 0x01 0x09 opShr true c rd ra rb rsv f s

def execSar (c : Fin 6) (rd ra rb : Fin 16) (rsv : BitVec 7) (f : Bool) (s : State) : Out :=
  opA 0x01 0x0A opSar true c rd ra rb rsv f s

def execRor (c : Fin 6) (rd ra rb : Fin 16) (rsv : BitVec 7) (f : Bool) (s : State) : Out :=
  opA 0x01 0x0B opRor true c rd ra rb rsv f s

def execSlt (c : Fin 6) (rd ra rb : Fin 16) (rsv : BitVec 7) (f : Bool) (s : State) : Out :=
  opA 0x01 0x0C opSlt true c rd ra rb rsv f s

def execSltu (c : Fin 6) (rd ra rb : Fin 16) (rsv : BitVec 7) (f : Bool) (s : State) : Out :=
  opA 0x01 0x0D opSltu true c rd ra rb rsv f s

def execClz (c : Fin 6) (rd ra rb : Fin 16) (rsv : BitVec 7) (f : Bool) (s : State) : Out :=
  opA 0x01 0x0E opClz false c rd ra rb rsv f s

def execSexb (c : Fin 6) (rd ra rb : Fin 16) (rsv : BitVec 7) (f : Bool) (s : State) : Out :=
  opA 0x01 0x0F opSexb false c rd ra rb rsv f s

def execSexh (c : Fin 6) (rd ra rb : Fin 16) (rsv : BitVec 7) (f : Bool) (s : State) : Out :=
  opA 0x01 0x10 opSexh false c rd ra rb rsv f s

/-! ### Major 0x02: MULDIV -/

def execMul (c : Fin 6) (rd ra rb : Fin 16) (rsv : BitVec 7) (f : Bool) (s : State) : Out :=
  opA 0x02 0x00 opMul true c rd ra rb rsv f s

def execMulh (c : Fin 6) (rd ra rb : Fin 16) (rsv : BitVec 7) (f : Bool) (s : State) : Out :=
  opA 0x02 0x01 opMulh true c rd ra rb rsv f s

def execMulhu (c : Fin 6) (rd ra rb : Fin 16) (rsv : BitVec 7) (f : Bool) (s : State) : Out :=
  opA 0x02 0x02 opMulhu true c rd ra rb rsv f s

def execDiv (c : Fin 6) (rd ra rb : Fin 16) (rsv : BitVec 7) (f : Bool) (s : State) : Out :=
  opA 0x02 0x03 opDiv true c rd ra rb rsv f s

def execDivu (c : Fin 6) (rd ra rb : Fin 16) (rsv : BitVec 7) (f : Bool) (s : State) : Out :=
  opA 0x02 0x04 opDivu true c rd ra rb rsv f s

def execRem (c : Fin 6) (rd ra rb : Fin 16) (rsv : BitVec 7) (f : Bool) (s : State) : Out :=
  opA 0x02 0x05 opRem true c rd ra rb rsv f s

def execRemu (c : Fin 6) (rd ra rb : Fin 16) (rsv : BitVec 7) (f : Bool) (s : State) : Out :=
  opA 0x02 0x06 opRemu true c rd ra rb rsv f s

/-! ### Immediate instructions -/

def execAddi (c : Fin 6) (rd ra : Fin 16) (imm12 : BitVec 12) (rsv : BitVec 5) (f : Bool) (s : State) : Out :=
  opI 0x08 opAdd true (sext12 imm12) c rd ra imm12 rsv f s

def execAndi (c : Fin 6) (rd ra : Fin 16) (imm12 : BitVec 12) (rsv : BitVec 5) (f : Bool) (s : State) : Out :=
  opI 0x09 opAnd true (zext12 imm12) c rd ra imm12 rsv f s

def execOri (c : Fin 6) (rd ra : Fin 16) (imm12 : BitVec 12) (rsv : BitVec 5) (f : Bool) (s : State) : Out :=
  opI 0x0A opOr true (zext12 imm12) c rd ra imm12 rsv f s

def execXori (c : Fin 6) (rd ra : Fin 16) (imm12 : BitVec 12) (rsv : BitVec 5) (f : Bool) (s : State) : Out :=
  opI 0x0B opXor true (zext12 imm12) c rd ra imm12 rsv f s

def execShli (c : Fin 6) (rd ra : Fin 16) (imm12 : BitVec 12) (rsv : BitVec 5) (f : Bool) (s : State) : Out :=
  opI 0x0C opShl (legalShift imm12 rsv) (zext12 imm12) c rd ra imm12 rsv f s

def execShri (c : Fin 6) (rd ra : Fin 16) (imm12 : BitVec 12) (rsv : BitVec 5) (f : Bool) (s : State) : Out :=
  opI 0x0D opShr (legalShift imm12 rsv) (zext12 imm12) c rd ra imm12 rsv f s

def execSari (c : Fin 6) (rd ra : Fin 16) (imm12 : BitVec 12) (rsv : BitVec 5) (f : Bool) (s : State) : Out :=
  opI 0x0E opSar (legalShift imm12 rsv) (zext12 imm12) c rd ra imm12 rsv f s

def execRori (c : Fin 6) (rd ra : Fin 16) (imm12 : BitVec 12) (rsv : BitVec 5) (f : Bool) (s : State) : Out :=
  opI 0x0F opRor (legalShift imm12 rsv) (zext12 imm12) c rd ra imm12 rsv f s

def execSlti (c : Fin 6) (rd ra : Fin 16) (imm12 : BitVec 12) (rsv : BitVec 5) (f : Bool) (s : State) : Out :=
  opI 0x10 opSlt true (sext12 imm12) c rd ra imm12 rsv f s

def execSltui (c : Fin 6) (rd ra : Fin 16) (imm12 : BitVec 12) (rsv : BitVec 5) (f : Bool) (s : State) : Out :=
  opI 0x11 opSltu true (sext12 imm12) c rd ra imm12 rsv f s

def execSubi (c : Fin 6) (rd ra : Fin 16) (imm12 : BitVec 12) (rsv : BitVec 5) (f : Bool) (s : State) : Out :=
  opI 0x14 opSub true (sext12 imm12) c rd ra imm12 rsv f s

def execMovu (c : Fin 6) (rd : Fin 16) (imm16 : BitVec 16) (rsv : BitVec 5) (f : Bool) (s : State) : Out :=
  opI16 0x12 opOr true (fun _ => 0) (imm16.setWidth 32 <<< 16) c rd imm16 rsv f s

def execOrl (c : Fin 6) (rd : Fin 16) (imm16 : BitVec 16) (rsv : BitVec 5) (f : Bool) (s : State) : Out :=
  opI16 0x13 opOr true (fun k => k.get rd) (imm16.setWidth 32) c rd imm16 rsv f s

/-- rd = PC + the word offset; F must be 0. -/
def execAdpc (c : Fin 6) (rd : Fin 16) (imm16 : BitVec 16) (rsv : BitVec 5) (f : Bool) (s : State) : Out :=
  opI16 0x15 opAdd (!f) (fun k => k.pc) (off16Bytes imm16) c rd imm16 rsv f s

end Sys2Proof.Machine
end

