-- ==== Sys2Proof/Machine/Branch.lean ====
section
/-! DEFINITION. Branches and jumps (R176 to R178). -/
namespace Sys2Proof.Machine

/-- The core goes on at a target. Where the target's region refuses fetches and no interrupt is due, the BUS_ERROR of the fetch
is taken with it (R172, R241). -/
def branchTo (c : Fin 6) (t : Word) (s : State) : State :=
  let s := s.onCore c (fun k => { k with pc := t, run := .running })
  if !fetchable c t.toNat && (s.cores.get c).due == 0 then raiseBus c t s else s

/-- A branch with a 16-bit word offset. -/
def branch (major cf : Nat) (legal : Bool) (taken : Core → Bool) (c : Fin 6) (rsv : BitVec 6) (off16 : BitVec 16) (s : State) : Out :=
  instruction c (encB major cf rsv off16) (rsv == 0 && legal) (fun s =>
    let k := s.cores.get c
    if taken k then branchTo c (k.pc + off16Bytes off16) s else s.onCore c Core.advance) s

def execBc (c : Fin 6) (cond : BitVec 4) (rsv : BitVec 6) (off16 : BitVec 16) (s : State) : Out :=
  branch 0x20 cond.toNat (cond != 0xF) (fun k => condHolds cond.toNat k.flg) c rsv off16 s

def execBz (c : Fin 6) (ra : Fin 16) (rsv : BitVec 6) (off16 : BitVec 16) (s : State) : Out :=
  branch 0x21 ra.val true (fun k => k.get ra == 0) c rsv off16 s

def execBnz (c : Fin 6) (ra : Fin 16) (rsv : BitVec 6) (off16 : BitVec 16) (s : State) : Out :=
  branch 0x22 ra.val true (fun k => k.get ra != 0) c rsv off16 s

def execJmp (c : Fin 6) (off24 : BitVec 24) (rsv : BitVec 2) (s : State) : Out :=
  instruction c (encJ 0x24 off24 rsv) (rsv == 0) (fun s => branchTo c ((s.cores.get c).pc + off24Bytes off24) s) s

/-- lk = g14 takes the address of the next instruction (R149). -/
def execCall (c : Fin 6) (off24 : BitVec 24) (rsv : BitVec 2) (s : State) : Out :=
  instruction c (encJ 0x25 off24 rsv) (rsv == 0) (fun s =>
    let pc := (s.cores.get c).pc
    branchTo c (pc + off24Bytes off24) (s.onCore c (Core.put 14 (pc + 4)))) s

/-- ra is read before rd is written (R196); a misaligned target leaves rd unchanged (R178). -/
def execJrl (c : Fin 6) (rd ra rb : Fin 16) (fn : BitVec 6) (rsv : BitVec 7) (f : Bool) (s : State) : Out :=
  instruction c (encA 0x03 rd ra rb fn.toNat rsv f) (legalA rsv && rb == 0 && fn == 0 && !f) (fun s =>
    let k := s.cores.get c
    let t := k.get ra
    if t.toNat % 4 != 0 then raiseMisaligned c t s
    else branchTo c t (s.onCore c (Core.put rd (k.pc + 4)))) s

end Sys2Proof.Machine
end

