-- ==== Sys2Proof/Machine/SysOps.lean ====
section
/-! DEFINITION. The SYS functions: FENCE, FLG and control-register access, ERET, TRAP and BANK, and the TIMER compare
(R179, R188, R235 to R239, R245 to R247). -/
namespace Sys2Proof.Machine

/-- Accesses of a core take effect one by one in program order, so every order that FENCE asks for holds already. -/
def execFence (c : Fin 6) (rd ra : Fin 16) (imm12 : BitVec 12) (s : State) : Out :=
  instruction c (encS 0x00 rd ra imm12) (rd == 0 && ra == 0 && imm12.toNat < 32) (fun s => s.onCore c Core.advance) s

def execRdf (c : Fin 6) (rd ra : Fin 16) (imm12 : BitVec 12) (s : State) : Out :=
  instruction c (encS 0x08 rd ra imm12) (ra == 0 && imm12 == 0) (fun s =>
    s.onCore c (fun k => k.write rd (k.flg.setWidth 32))) s

def execWrf (c : Fin 6) (rd ra : Fin 16) (imm12 : BitVec 12) (s : State) : Out :=
  instruction c (encS 0x09 rd ra imm12) (rd == 0 && imm12 == 0) (fun s =>
    s.onCore c (fun k => { k.advance with flg := (k.get ra).setWidth 4 })) s

/-! ### Control registers (R236, R237) -/

/-- ccore: REV 0x01, the variant and the core number. -/
def ccore (c : Fin 6) : Word :=
  wd (fld 8 1 + fld 4 (if c.val = 4 then 1 else if c.val = 5 then 2 else 0) + c.val)

/-- A control register's value; none for a number that none has. -/
def creg (s : State) (c : Fin 6) (n : Nat) : Option Word :=
  let k := s.cores.get c
  match n with
  | 0 => some k.cstat
  | 1 => some k.cvec
  | 2 => some k.cepc
  | 3 => some k.ccause
  | 4 => some k.cbad
  | 5 => some (ccore c)
  | 6 => some s.tbLo
  | _ => none

/-- cstat written: IMASK, PIE, IE, PEXC and EXC take the value, a 0 disarms TARM, and TLATE stays. -/
def writeStat (old v : Word) : Word :=
  (v &&& 0xFFFF000F) ||| (old &&& 0x20) ||| (old &&& v &&& 0x10)

/-- An armed compare is due: E.TIMER set, TARM cleared, TLATE as the write found it (R238). -/
def fireTimer (now : Word) (k : Core) : Core :=
  if bit k.cstat 4 && tickDue k.cmp now then
    { k with e := k.e ||| 1, cstat := setBit (setBit k.cstat 4 false) 5 k.cmpLate }
  else k

/-- ctb written: the TIMER compare armed. One for a tick that has passed fires at the first tick after the write (R238). A
compare that is due by then has its event first (R258). -/
def armTimer (now v : Word) (k : Core) : Core :=
  let late := tickPassed v now
  let k := fireTimer now k
  { k with cmp := if late then now + 1 else v, cmpLate := late, cstat := setBit k.cstat 4 true }

/-- A control register written; none for one that does not exist or whose fields are all RO. -/
def cregWrite (c : Fin 6) (n : Nat) (now v : Word) (k : Core) : Option Core :=
  match n with
  | 0 => some { k with cstat := writeStat k.cstat v }
  | 1 => if c.val = 5 then none else some { k with cvec := v &&& 0xFFFFFF00 }
  | 2 => some { k with cepc := v &&& 0xFFFFFFFC }
  | 6 => some (armTimer now v k)
  | _ => none

def execCrd (c : Fin 6) (rd ra : Fin 16) (imm12 : BitVec 12) (s : State) : Out :=
  instruction c (encS 0x01 rd ra imm12) (ra == 0 && (creg s c imm12.toNat).isSome) (fun s =>
    withSome (creg s c imm12.toNat) (fun v s => s.onCore c (Core.write rd v)) s) s

def execCwr (c : Fin 6) (rd ra : Fin 16) (imm12 : BitVec 12) (s : State) : Out :=
  instruction c (encS 0x02 rd ra imm12)
    (rd == 0 && (cregWrite c imm12.toNat s.tbLo 0 (s.cores.get c)).isSome) (fun s =>
      let k := s.cores.get c
      withSome (cregWrite c imm12.toNat s.tbLo (k.get ra) k) (fun k s => s.setCore c k.advance) s) s

def execTimerCompare (c : Fin 6) (s : State) : Out :=
  .next (when (s.live && (s.cores.get c).run != .reset) (fun s => s.onCore c (fireTimer s.tbLo)) s)

/-! ### ERET and TRAP -/

def execEret (c : Fin 6) (rd ra : Fin 16) (imm12 : BitVec 12) (s : State) : Out :=
  instruction c (encS 0x03 rd ra imm12) (rd == 0 && ra == 0 && imm12 == 0) (fun s =>
    let k := s.cores.get c
    branchTo c k.cepc (s.setCore c { k with cstat := setBit (setBit k.cstat 2 (bit k.cstat 3)) 0 (bit k.cstat 1) })) s

def execTrap (c : Fin 6) (rd ra : Fin 16) (imm12 : BitVec 12) (s : State) : Out :=
  instruction c (encS 0x04 rd ra imm12) (rd == 0 && ra == 0) (raise c 4 0 (zext12 imm12)) s

/-! ### BANK (R245 to R247, R1187) -/

/-- The words buffered in a channel discarded; a device port that still has words to send goes on. -/
def cFlush (k : Nat) (s : State) : State := cRefill k (s.setChan k { s.chan k with q := [] })

/-- The channels to and from a core. -/
def coreChans (c : Fin 6) : List Nat :=
  ((List.range 6).filter (fun n => n != c.val)).flatMap (fun n => [mailKey c.val n, mailKey n c.val])
    ++ (servedBy c).flatMap engineChans ++ (if c.val = 5 then [0xE0, 0x76] else [])

/-- Core 0's BANK may start the entry (R246). -/
def bankAccepted (s : State) : Bool :=
  (s.sys.mode == .unmated || s.sys.mode == .parked || s.sys.mode == .lockdown) && s.sys.active == 0 &&
  allCages.all (fun c => (s.cage c).disp.isNone) &&
  [1, 2, 3, 4, 5].all (fun c => (s.cores.get c).run == .banked || (s.cores.get c).run == .reset)

/-- BANK on core 0: the entry starts, or the instruction completes with Z at 0 and REQ_REFUSED. -/
def bankMaster (s : State) : State :=
  if bankAccepted s then
    { s.onCore 0 (fun k => { k with run := .banked }) with pwr := { s.pwr with entering := true } }
  else modeEvent 2 (s.onCore 0 (fun k => { k.advance with flg := withZ k.flg false }))

/-- A core stopped in BANK whose entry core 0 has not begun goes on once its E.SIG0 is set (R247). -/
def resumeBanked (c : Fin 6) (s : State) : State :=
  let k := s.cores.get c
  when (c.val != 0 && k.run == .banked && bit k.e 2 && !s.pwr.entering) (fun s => s.onCore c Core.advance) s

/-- The Kiln runtime has no command, ledger write or known-answer test in hand (R1187). -/
def kilnIdle (s : State) : Bool :=
  s.creds.jobs.isEmpty && s.led.writing.isNone && s.led.waiting.isNone && s.ent.katFor.isNone &&
  (servedBy 5).all (fun e => (s.engine e).cage.isNone && (s.engine e).draining.isNone)

/-- The words that wait in a core's timed queues discarded (R222). -/
def dropTimed (c : Fin 6) (s : State) : State :=
  { s with chans := { s.chans with timed := s.chans.timed.filter (fun e => !(servedBy c).contains (e.1 / 16)) } }

/-- BANK on another core: its channels flushed, and the core stopped. -/
def bankOther (c : Fin 6) (s : State) : State :=
  resumeBanked c ((dropTimed c (forEach (coreChans c) cFlush s)).onCore c (fun k => { k with run := .banked }))

/-- Core 0 has asked the Kiln runtime for its BANK by the word of R1187 on mailbox channel 0x05. -/
def bankAsked (s : State) : Bool := (s.chan (mailKey 0 5)).q.any (fun h => h.w == 0x42414E4B)

/-- The Kiln runtime executes BANK only when core 0 has asked for it, and once it has nothing in hand (R1187). -/
def execBank (c : Fin 6) (rd ra : Fin 16) (imm12 : BitVec 12) (s : State) : Out :=
  if c.val = 5 && !(bankAsked s && kilnIdle s) then .next s
  else instruction c (encS 0x05 rd ra imm12) (rd == 0 && ra == 0 && imm12 == 0)
    (if c.val = 0 then bankMaster else bankOther c) s

end Sys2Proof.Machine
end

