-- ==== Sys2Proof/Machine/Channel.lean ====
section
/-! DEFINITION. The channel map and the channel and event instructions (R199 to R218). -/
namespace Sys2Proof.Machine

/-! ### The channel map (R202, R203) -/

/-- What a channel number is to a core. -/
inductive Port where
  /-- the mailbox of another core, both directions -/
  | mailbox (n : Nat)
  /-- a channel that the core receives from -/
  | recv
  /-- a channel that the core sends to -/
  | send
  /-- a key input of the Kiln core -/
  | keyIn
  /-- a key output of the Kiln core -/
  | keyOut
  deriving DecidableEq, Repr

/-- The port of an engine's channel by its number within the engine. -/
def enginePort (p : Nat) : Option Port :=
  match p with
  | 0 => some .recv
  | 1 => some .send
  | 2 => some .send
  | 3 => some .recv
  | 4 => some .send
  | 5 => some .recv
  | _ => none

/-- The channel map: none where the core has no such channel. -/
def portOf (c : Fin 6) (ch : Nat) : Option Port :=
  if ch < 6 then (if ch = c.val then none else some (.mailbox ch))
  else if c.val = 5 && ch = 0x76 then some .send
  else if c.val = 5 && ch = 0xE0 then some .recv
  else if c.val = 5 && (ch = 0x27 || ch = 0x37 || ch = 0x47) then some .keyIn
  else if c.val = 5 && (ch = 0x28 || ch = 0x38) then some .keyOut
  else if ch = 0x10 then (if 1 ≤ c.val && c.val ≤ 3 then some .recv else none)
  else if ch = 0x11 then (if 1 ≤ c.val && c.val ≤ 3 then some .send else none)
  else if 2 ≤ ch / 16 && ch / 16 ≤ 12 && servingCore (ch / 16) == c then enginePort (ch % 16)
  else none

/-- The table key of the channel that a core sends to. -/
def sendKey (c : Fin 6) (ch : Nat) : Nat :=
  if ch < 6 then mailKey c.val ch else if ch = 0x11 then coreDoneKey c.val else ch

/-- The table key of the channel that a core receives from. -/
def recvKey (c : Fin 6) (ch : Nat) : Nat :=
  if ch < 6 then mailKey ch c.val else if ch = 0x10 then coreCmdKey c.val else ch

/-- The SUB of the CHAN_FAULT that sending on a channel raises, none where it may be sent on (R201, R234, R240). -/
def sendFault (c : Fin 6) (ch : Nat) : Option Nat :=
  match portOf c ch with
  | none => some 1
  | some .recv => some 2
  | some .keyIn => some 3
  | some .keyOut => some 3
  | _ => none

/-- The SUB of the CHAN_FAULT that receiving on a channel raises. -/
def recvFault (c : Fin 6) (ch : Nat) : Option Nat :=
  match portOf c ch with
  | none => some 1
  | some .send => some 2
  | some .keyIn => some 3
  | some .keyOut => some 3
  | _ => none

/-- The engine of a channel of a core; mailboxes and ENT belong to none. -/
def chanEngine (c : Fin 6) (ch : Nat) : Option Nat := if ch < 6 || ch = 0xE0 then none else some (engineOfChan c ch)

/-- The channel is the CMD port of its engine. -/
def isCmd (ch : Nat) : Bool := ch = 0x10 || (6 ≤ ch && ch % 16 = 0 && ch != 0xE0)

/-- The flush of R212 holds for an instruction on this channel: its engine's ports are flushed, and it is not the CMD port. -/
def State.flushes (s : State) (c : Fin 6) (ch : Nat) : Bool := !isCmd ch && (chanEngine c ch).any (fun e => s.flushed e)

/-! ### Sending -/

/-- The words of a command port that its table gives no meaning, and the words of the ADC's DIN, are discarded as they are sent
(R586; log entry 31). -/
def discards (ch : Nat) (w : Word) : Bool :=
  let op := bits w 31 28
  ch = 0x82 || ((ch = 0x64 || ch = 0x84) && !(1 ≤ op && op ≤ 3)) || ((ch = 0xA4 || ch = 0x54) && !(1 ≤ op && op ≤ 4))
    || (ch = 0x74 && !(1 ≤ op && op ≤ 5))

/-- A word put into a channel that has room. -/
def placeWord (c : Fin 6) (ch : Nat) (w : Word) (eom : Bool) (s : State) : State :=
  when (!discards ch w) (cPut (sendKey c ch) w eom 0) s

/-- The channel has room for a word (R199); the ADC's DIN takes and discards every word at once (R586). -/
def State.roomFor (s : State) (c : Fin 6) (ch : Nat) : Bool := ch == 0x82 || s.cRoom (sendKey c ch)

/-- A word of the ledger's CTRL port asks for a write: WRITE or a unit write. -/
def isWriteWord (w : Word) : Bool := bits w 31 28 == 2 || bits w 31 28 == 3

/-- The last DIN word of a write is sent, to which a word on CTRL belongs, taken by the port already or not: its acknowledge
is withheld (R371, R401). -/
def withholds (ch : Nat) (eom : Bool) (s : State) : Bool :=
  ch = 0x52 && eom && (s.led.collecting.isSome || (s.chan 0x54).q.any (fun h => isWriteWord h.w))

/-- A word sent: placed, and the core goes on, or waits for the acknowledge that the ledger port withholds. -/
def sendWord (c : Fin 6) (ch : Nat) (w : Word) (eom : Bool) (flags : BitVec 4 → BitVec 4) (s : State) : State :=
  let s := placeWord c ch w eom (s.onCore c (fun k => { k with flg := flags k.flg }))
  if withholds ch eom s then drainLedgerDin 4 (s.onCore c (fun k => { k with run := .blocked .ledgerAck }))
  else s.onCore c Core.advance

/-- A send under a flush: V set, no transfer (R212). -/
def flushedSend (c : Fin 6) (flags : BitVec 4 → BitVec 4) (s : State) : State :=
  s.onCore c (fun k => { k.advance with flg := flags (withV k.flg true) })

/-- A DONE word with status OK on a flushed port is a late success (R512). -/
def lateDone (c : Fin 6) (ch : Nat) (w : Word) (s : State) : State :=
  when ((ch == 0x11 || (6 ≤ ch && ch % 16 == 1)) && bits w 7 0 == 0) (withSome (chanEngine c ch) lateSuccess) s

/-- An instruction of format C. -/
def chanInstr (major : Nat) (c : Fin 6) (rd ra : Fin 16) (aux : BitVec 10) (ch : BitVec 8) (legal : Bool)
    (body : State → State) (s : State) : Out :=
  instruction c (encC major rd ra aux ch) legal body s

/-- aux holds the EOM bit alone. -/
def auxEom (aux : BitVec 10) : Bool := aux.toNat < 2

def execSnd (c : Fin 6) (rd ra : Fin 16) (aux : BitVec 10) (ch : BitVec 8) (s : State) : Out :=
  chanInstr 0x28 c rd ra aux ch (rd == 0 && auxEom aux) (fun s =>
    let w := (s.cores.get c).get ra
    match sendFault c ch.toNat with
    | some sub => raiseChan c ch sub s
    | none =>
      if s.flushes c ch.toNat then flushedSend c id (lateDone c ch.toNat w s)
      else if s.roomFor c ch.toNat then sendWord c ch.toNat w (bit aux 0) (fun f => withV f false) s
      else s.onCore c (fun k => { k with run := .blocked (.snd ch.toNat w (bit aux 0)) })) s

/-- The ledger port holds no write of the channel: neither one that runs nor one that waits or is collected. -/
def noChannelWrite (s : State) : Bool :=
  !s.led.writing.any (fun w => w.asked == .channel) && s.led.waiting.isNone && s.led.collecting.isNone

/-- A blocked SND finds room, or its engine's ports are flushed; and the SND whose acknowledge the ledger port withholds
completes under a flush once its write is dropped (R212, R252, R408). -/
def execSndUnblock (c : Fin 6) (s : State) : Out :=
  let k := s.cores.get c
  .next (when (s.coreUp c && (k.due == 0 || k.run == .blocked .ledgerAck)) (fun s =>
    match k.run with
    | .blocked (.snd ch w eom) =>
      if s.flushes c ch then flushedSend c id (lateDone c ch w s)
      else if s.roomFor c ch then sendWord c ch w eom (fun f => withV f false) s
      else s
    | .blocked .ledgerAck => when (s.flushes c 0x52 && noChannelWrite s) (flushedSend c id) s
    | _ => s) s)

def execSndt (c : Fin 6) (rd ra : Fin 16) (aux : BitVec 10) (ch : BitVec 8) (s : State) : Out :=
  chanInstr 0x2A c rd ra aux ch (rd == 0 && auxEom aux) (fun s =>
    let w := (s.cores.get c).get ra
    match sendFault c ch.toNat with
    | some sub => raiseChan c ch sub s
    | none =>
      if s.flushes c ch.toNat then flushedSend c (fun f => withZ f false) (lateDone c ch.toNat w s)
      else if s.roomFor c ch.toNat then sendWord c ch.toNat w (bit aux 0) (fun f => withZ (withV f false) true) s
      else s.onCore c (fun k => { k.advance with flg := withZ (withV k.flg false) false })) s

/-! ### Receiving -/

/-- RCV or RCVT on a CMD port ends the flush: the engine has drained (R212, R515). -/
def endFlushAt (c : Fin 6) (ch : Nat) (s : State) : State :=
  match isCmd ch, chanEngine c ch with
  | true, some e => when (s.flushed e) (endFlush e) s
  | _, _ => s

/-- A received word: rd, C its EOM bit, V 0. -/
def receive (c : Fin 6) (rd : Fin 16) (h : ChWord) (flags : BitVec 4 → BitVec 4) (s : State) : State :=
  s.onCore c (fun k => { k.write rd h.w with flg := flags (withC (withV k.flg false) h.eom) })

/-- A receive under a flush: rd 0, V set, C unchanged. -/
def flushedRecv (c : Fin 6) (rd : Fin 16) (flags : BitVec 4 → BitVec 4) (s : State) : State :=
  s.onCore c (fun k => { k.write rd 0 with flg := flags (withV k.flg true) })

def execRcv (c : Fin 6) (rd ra : Fin 16) (aux : BitVec 10) (ch : BitVec 8) (s : State) : Out :=
  chanInstr 0x29 c rd ra aux ch (ra == 0 && aux == 0) (fun s =>
    match recvFault c ch.toNat with
    | some sub => raiseChan c ch sub s
    | none =>
      let s := endFlushAt c ch.toNat s
      if s.flushes c ch.toNat then flushedRecv c rd id s
      else match cTake (recvKey c ch.toNat) s with
        | (some h, s) => receive c rd h id s
        | (none, s) => s.onCore c (fun k => { k with run := .blocked (.rcv ch.toNat rd) })) s

/-- A blocked RCV finds a word, or its engine's ports are flushed. A core that was blocked on a CMD port when the engine's
command was cancelled ends the flush there, and stays blocked for the next word. -/
def execRcvUnblock (c : Fin 6) (s : State) : Out :=
  let k := s.cores.get c
  .next (when (s.coreUp c && k.due == 0) (fun s =>
    match k.run with
    | .blocked (.rcv ch rd) =>
      if s.flushes c ch then flushedRecv c rd id s
      else
        let s := endFlushAt c ch s
        match cTake (recvKey c ch) s with
        | (some h, t) => receive c rd h id t
        | (none, _) => s
    | _ => s) s)

def execRcvt (c : Fin 6) (rd ra : Fin 16) (aux : BitVec 10) (ch : BitVec 8) (s : State) : Out :=
  chanInstr 0x2B c rd ra aux ch (ra == 0 && aux == 0) (fun s =>
    match recvFault c ch.toNat with
    | some sub => raiseChan c ch sub s
    | none =>
      let s := endFlushAt c ch.toNat s
      if s.flushes c ch.toNat then flushedRecv c rd (fun f => withZ f false) s
      else match cTake (recvKey c ch.toNat) s with
        | (some h, s) => receive c rd h (fun f => withZ f true) s
        | (none, s) => s.onCore c (fun k => { k.advance with flg := withZ (withV k.flg false) false })) s

/-- The count that PEEK gives (R211). While the engine's ports are flushed it is that of the emptied channel (DESIGN CHOICE, log
entry 104). -/
def peekCount (s : State) (c : Fin 6) (ch : Nat) : Nat :=
  match portOf c ch with
  | some .send => 4 - (s.chan (sendKey c ch)).q.length
  | _ => (s.chan (recvKey c ch)).q.length

/-- The SUB of the CHAN_FAULT of PEEK: the channel is absent or a key port. -/
def peekFault (c : Fin 6) (ch : Nat) : Option Nat :=
  match portOf c ch with
  | none => some 1
  | some .keyIn => some 3
  | some .keyOut => some 3
  | _ => none

def execPeek (c : Fin 6) (rd ra : Fin 16) (aux : BitVec 10) (ch : BitVec 8) (s : State) : Out :=
  chanInstr 0x2C c rd ra aux ch (ra == 0 && aux == 0) (fun s =>
    match peekFault c ch.toNat with
    | some sub => raiseChan c ch sub s
    | none =>
      let n := peekCount s c ch.toNat
      s.onCore c (fun k => { k.write rd (wd n) with flg := withZ k.flg (n != 0) })) s

/-! ### Events (R214 to R218) -/

/-- The events that WAITE takes: written to rd, and cleared unless KEEP is 1; a bit whose source is a level that still holds
is set again (R215, R216). -/
def takeEvents (c : Fin 6) (rd : Fin 16) (mask : BitVec 16) (keep : Bool) (s : State) : State :=
  let s := s.onCore c (fun k =>
    let got := k.e &&& mask
    { k.write rd (got.setWidth 32) with e := if keep then k.e else k.e &&& ~~~mask })
  (s.levelCmd c).levelMode

/-- A masked event is set, or the mask is 0. -/
def eventsDue (k : Core) (mask : BitVec 16) : Bool := mask == 0 || k.e &&& mask != 0

def execWaite (c : Fin 6) (rd ra : Fin 16) (aux : BitVec 10) (ch : BitVec 8) (s : State) : Out :=
  chanInstr 0x2D c rd ra aux ch (auxEom aux && ch == 0) (fun s =>
    let k := s.cores.get c
    let mask := (k.get ra).setWidth 16
    if eventsDue k mask then takeEvents c rd mask (bit aux 0) s
    else s.onCore c (fun k => { k with run := .blocked (.waite rd mask (bit aux 0)) })) s

def execWaiteUnblock (c : Fin 6) (s : State) : Out :=
  let k := s.cores.get c
  .next (when (s.coreUp c && k.due == 0) (fun s =>
    match k.run with
    | .blocked (.waite rd mask keep) => when (eventsDue k mask) (takeEvents c rd mask keep) s
    | _ => s) s)

/-- Bit 2 + its own number in the latch of the core named; a SIG of core 0 lets a core stopped in BANK go on (R218,
R247). -/
def signal (c n : Fin 6) (s : State) : State :=
  resumeBanked n ((s.onCore c Core.advance).setE n (BitVec.ofNat 16 (1 <<< (2 + c.val))))

def execSig (c : Fin 6) (rd ra : Fin 16) (aux : BitVec 10) (ch : BitVec 8) (s : State) : Out :=
  chanInstr 0x2E c rd ra aux ch (rd == 0 && ra == 0 && aux == 0 && ch.toNat < 6) (signal c (Fin.ofNat 6 ch.toNat)) s

end Sys2Proof.Machine
end

