-- ==== Sys2Proof/Machine/Cancel.lean ====
section
/-! DEFINITION. Timeouts, cancellation, draining and hangs (R506 to R538). -/
namespace Sys2Proof.Machine

/-- The front end's note that an engine drains from now on (R515). -/
def beginDrain (e queue : Nat) (critical : Bool) (s : State) : State :=
  s.setEngine e { s.engine e with cage := none, attempts := 0, draining := some ⟨s.clk.tb, queue, critical, false, false⟩ }

/-- A START operation whose final ledger writes run goes on with them; everything else of it ends, and its frames that wait
for a bus are not sent (R510; log entry 10). -/
def startCancel (s : State) : State :=
  let s := dropJobs 0xC (dropPartner s)
  let runs := s.creds.jobs.any (fun j => jobEngine j == some 0xC)
  s.onStart (fun x => { x with
    crank := none
    roll := x.roll.filter (fun r => runs && r.confirmed)
    mate := x.mate.filter (fun m => runs && m.confirmed.isSome) })

/-- The LEDGER operation of the Kiln core through its port: a write whose first step has not begun is dropped (R408). -/
def ledgerCancel (s : State) : State :=
  let s := dropJobs 5 s
  { s with led := { s.led with collecting := none, waiting := none } }

/-- What a cancellation does in the engine itself, to the command of this image once it was taken (R510, R619, R749, R787, R849, R988, R1010). An exchange of RANGE runs to
its end, and a CORE engine has nothing beside its ports. -/
def cancelEngine (e : Nat) (img : Bytes) (s : State) : State :=
  match e with
  | 2 => dropJobs 2 (kilnCancel img s)
  | 5 => ledgerCancel s
  | 6 => lfCancel s
  | 9 => netCancel s
  | 0xA => nfcCancel s
  | 0xB => aditCancel s
  | 0xC => startCancel s
  | _ => s

/-- A NET operation still has a frame on a wire or in the switch. -/
def netBusy (s : State) : Bool :=
  s.net.can.toList.any (fun c => c.tx0.isSome) || s.net.lin.toList.any (fun l => l.run.isSome) || s.net.eth.isSome

/-- Mupor's firmware still has something of the cancelled command to end before it receives on the engine's CMD port again
(log entry 10). -/
def firmwareBusy (e : Nat) (s : State) : Bool :=
  s.creds.jobs.any (fun j => jobEngine j == some e) ||
  (match e with
    | 2 => s.fuses.running.isSome || s.ent.katFor == some (some 2)
    | 9 => netBusy s
    | 0xC => partnerOnWire s
    | _ => false)

/-- The engines that Mupor's own firmware serves: those of the Kiln core, and NET on core 0 (R203, R805). -/
def firmwareServed (e : Nat) : Bool := servingCore e == 5 || e == 9

/-- The instruction in which a core is blocked at a port of an engine completes under its flush, without a transfer (R212,
R408). -/
def unblockFlushed (e : Nat) (c : Fin 6) (s : State) : State :=
  match (s.cores.get c).run with
  | .blocked (.snd ch w _) => if s.flushes c ch && chanEngine c ch == some e then flushedSend c id (lateDone c ch w s) else s
  | .blocked (.tat ch _ _ _) => if s.flushes c ch && chanEngine c ch == some e then flushedSend c id s else s
  | .blocked (.rcv ch rd) => if s.flushes c ch && chanEngine c ch == some e then flushedRecv c rd id s else s
  | .blocked .ledgerAck => if e == 5 && s.flushes c 0x52 && noChannelWrite s then flushedSend c id s else s
  | _ => s

/-- The command of a cage is cancelled: its engine's ports are flushed and it drains (R510, R515). Where Mupor's firmware ends
the flush itself, an instruction blocked at a port completes before (R212; log entry 10). A DONE word with OK that the flush
discards is a late success (R512, R530). -/
def cancel (d : Dispatched) (critical : Bool) (s : State) : State :=
  let img := readBytes s d.image 64
  let taken := (s.chan (cmdKey d.engine)).q.isEmpty
  let sent := (s.chan (doneKey d.engine)).q.any (fun h => bits h.w 7 0 == 0)
  let s := when sent (lateSuccess d.engine) (beginDrain d.engine d.queue critical s)
  let s := cancelEngine d.engine (if taken then img else []) (flushEngine d.engine s)
  let s := when (firmwareServed d.engine) (forEach allCores (unblockFlushed d.engine)) s
  when (firmwareServed d.engine && !firmwareBusy d.engine s) (endFlush d.engine) s

/-- The timeout of the command a cage has dispatched expires (R509). -/
def timeOut (c : Fin 8) (s : State) : State :=
  match (s.cage c).disp with
  | none => s
  | some d =>
    if s.clk.tb < d.expiry then s
    else
      let critical := (s.queue? d.queue).any Queue.critical
      let tries := (s.engine d.engine).attempts
      let s := cancel d critical s
      let s := tally d.queue d.index d.desc 1 0 tries 8 d.sentAt s
      let s := s.onQueue d.queue (fun q => { q with timeouts := satInc 0xFFFF q.timeouts })
      sweepGuilty 8 (boundary c (s.setCage c { s.cage c with disp := none }))

def execTimeout (cage : Fin 8) (s : State) : Out := .next (when s.up (timeOut cage) s)

/-! ### Hangs (R516 to R521) -/

/-- The engine's drain has lasted HANG_MS, and its hang has not been acted on. A drain that ends in the tick of the expiry wins,
so the hang acts in the next tick (R119, R533). -/
def hangDue (s : State) (d : Draining) : Bool := !d.hung && d.since + msTicks (s.fld rFRONT_HANG 7 0) < s.clk.tb

/-- A guilty-queue reset begins: the queue enters GUILTY and its cage passes on. Its other steps follow at once, or when the
command that it still has at another engine has ended (R477, R517). -/
def guiltyReset (e n : Nat) (s : State) : State :=
  match s.queue? n with
  | none => resetServed e s
  | some q =>
    let s := dropFetched n s
    let s := s.putQueue n { q with st := .guilty, stopping := false, waitFrom := none, held := none, guilty := some (e, q.tail) }
    sweepGuilty 8 (passCages n s)

/-- The ID of an engine (R440). -/
def engineId (e : Nat) : Nat := if 0x10 ≤ e then 1 else e

/-- Every other dispatched command ends with DEVICE_RESET, and the reset is requested (R520). -/
def criticalHang (e : Nat) (s : State) : State :=
  let s := forEach allCages (fun c s =>
    match (s.cage c).disp with
    | none => s
    | some d =>
      let s := tally d.queue d.index d.desc 8 0 (s.engine d.engine).attempts 8 d.sentAt s
      freeEngine d.engine (s.setCage c { s.cage c with disp := none })) s
  requestReset 5 (engineId e) s

/-- The engine whose hang comes first: of those due, one of a CRITICAL queue (R534). -/
def firstHang (e : Nat) (s : State) : Nat :=
  (allEngines.find? (fun x => (s.engine x).draining.any (fun d => d.critical && hangDue s d))).getD e

def hangOf (e : Nat) (s : State) : State :=
  match (s.engine e).draining with
  | none => s
  | some d =>
    if !hangDue s d then s
    else
      let s := s.setEngine e { s.engine e with draining := some { d with hung := true } }
      if d.critical then criticalHang e s else guiltyReset e d.queue s

def hang (e : Nat) (s : State) : State :=
  when ((s.engine e).draining.any (hangDue s)) (fun s => hangOf (firstHang e s) s) s

def execHang (engine : Nat) (s : State) : Out := .next (when s.up (hang engine) s)

end Sys2Proof.Machine
end

