-- ==== Sys2Proof/Machine/Boot.lean ====
section
/-! DEFINITION. Entering SCAN, what a reset clears and keeps, the boot, and the end of SCAN (02, 07, 08, 16, 22). -/
namespace Sys2Proof.Machine

/-! ### What an entry to SCAN keeps (R1060, R1076, R1083) -/

/-- A register of the CAP block, which the always-on domain holds (R639). -/
def capReg (k : Nat) : Bool := 0x40009000 ≤ k && k < 0x4000A000

/-- The registers that the always-on domain holds. -/
def aonReg (k : Nat) : Bool := k == rSYS_EPOCH || k == rPWR_OFF_CAUSE || k == rPWR_TAMPER || capReg k

/-- The HOSTIF registers that only OFF loses (R1060). -/
def hostKept (k : Nat) : Bool :=
  k == rHOSTIF_OB_LO || k == rHOSTIF_OB_HI || hostReqs.any (fun r => k == hostKey r rHOSTIF_IVEC || k == hostKey r rHOSTIF_PMASK)

/-- The registers after an entry to SCAN: those that are kept, SYS_EPOCH advanced (R526), and PWR_RESET_CAUSE (R1080). -/
def scanRegs (powerOn : Bool) (cause detail : Nat) (s : State) : State :=
  let s := { s with regs := s.regs.filter (fun e => aonReg e.1 || (!powerOn && hostKept e.1)) }
  let s := (s.incFld rSYS_EPOCH 31 0).setReg rPWR_RESET_CAUSE (wd (fld 8 detail + cause))
  s.setRbit rSYS_ECC_STAT 0 (!powerOn)

/-- Memory after an entry to SCAN: shared SRAM kept unless the device comes from OFF; caches and translations empty. -/
def scanMemory (powerOn : Bool) (s : State) : State :=
  let gone := fun (a : Nat) => inKilnSram a || (powerOn && inSram a)
  { s with mem := { Memory.reset with
    cells := s.mem.cells.filter (fun e => !gone e.1)
    badGranules := s.mem.badGranules.filter (fun g => !gone g)
    flips := s.mem.flips.filter (fun g => !gone g)
    host := s.mem.host
    scrubAt := s.clk.tb
    clearing := if powerOn then some 0x20000000 else none } }

/-- The interfaces that HSEL1 and HSEL0 select (R1034). -/
def hselActive (hsel : BitVec 2) : BitVec 3 :=
  if hsel == 0 then 0b011 else if hsel == 1 then 0b101 else if hsel == 2 then 0b110 else 0b001

/-- The host interfaces after an entry to SCAN. -/
def scanHost (powerOn : Bool) (hsel : BitVec 2) (s : State) : State :=
  let act := hselActive hsel
  let h := s.host
  if powerOn then { s with host := { HostIf.reset with active := act, hsel := hsel } }
  else { s with host := { HostIf.reset with
    active := act, hsel := hsel
    linkUp := h.linkUp && act.getLsbD 0, speed := h.speed
    busMaster := h.busMaster, msixEnable := h.msixEnable, msixMask := h.msixMask
    msixTable := h.msixTable, pba := h.pba, lastMsix := h.lastMsix } }

/-- The timebase: cleared from OFF, else kept (R128, R130). -/
def scanClock (powerOn : Bool) (s : State) : State :=
  { s with clk := { s.clk with
    tb := if powerOn then 0 else s.clk.tb
    rem := if powerOn then 0 else s.clk.rem
    running := true, unlockedAt := none, relockedAt := none } }

/-- The TAP and the QUENCH ball, which a reset of the device leaves as they are (R1179). -/
def scanAssay (powerOn : Bool) (s : State) : State :=
  if powerOn then { s with assay := { Assay.reset with ballLow := s.assay.ballLow } }
  else { s with assay := { s.assay with freezing := false, srcs := 0, holdsReset := false, thawAt := none, bankLatch := false } }

/-- The blocks whose state a reset clears whole. -/
def scanBlocks (s : State) : State :=
  { s with
    cores := coresReset, chans := Chans.reset, front := Front.reset, adc := Adc.reset, lf := Lf.reset, uhf := Uhf.reset
    range := Range.reset, ble := Ble.reset, nfc := Nfc.reset, start := Start.idle, net := Net.reset, adit := Adit.reset }

/-- Ledger, code flash and Kiln at the start of SCAN: the ledger is scanned (R382), each sector whose marker is set is TORN
(R326), the Kiln starts empty (R801), and the entropy source runs (R856). Vehicle time is the always-on domain's (R904). -/
def scanStores (s : State) : State :=
  let s := { s with
    led := { Ledger.reset with copies := s.led.copies, units := s.led.units, tornUnits := s.led.tornUnits, scanFrom := some s.clk.tb }
    flash := { Flash.reset with markers := s.flash.markers, torn := s.flash.markers }
    ent := { Ent.idle with runFrom := some s.clk.tb }
    creds := { Creds.reset with time := s.creds.time, timeWritten := s.creds.timeWritten } }
  kilnClear s

/-- The device enters SCAN by T02 or T03. A PROGRAM that the reset cuts off leaves its unit undefined (R352), and a fuse that
was being programmed is torn (R824). -/
def enterScan (powerOn : Bool) (cause detail : Nat) (hsel : BitVec 2) (s : State) : State :=
  let s := scanClock powerOn (tearFuse (cutFlash s))
  let s := scanHost powerOn hsel (scanAssay powerOn (scanRegs powerOn cause detail s))
  let s := scanStores (scanBlocks (scanMemory powerOn s))
  { s with
    sys := { Sys.reset with scanFrom := s.clk.tb }
    pwr := { Pwr.reset with aon := s.pwr.aon, valid := s.pwr.valid, vbatLow := s.pwr.vbatLow, buckAt := s.clk.tb } }

/-! ### T02 and T03 -/

/-- The last supply has become valid: T02, or with RESET_N low the wait of R1175, whose request this RTC edge is. -/
def powerOn (resetNHigh : Bool) (hsel : BitVec 2) (s : State) : State :=
  if resetNHigh then enterScan true 1 0 hsel s
  else { s with pwr := { s.pwr with resetReq := some ⟨1, 0, s.clk.rtc⟩ } }

/-- A supply becomes valid: T02 once all four are (R1071, R1072, R1175). -/
def execSupplyValid (supply : Fin 4) (pins : Sys2Proof.ResetPins) (s : State) : Out :=
  .next (when (s.pwr.aon && s.clk.rtcRuns) (fun s =>
    let s := { s with pwr := { s.pwr with valid := s.pwr.valid ||| BitVec.ofNat 4 (1 <<< supply.val) } }
    when (s.pwr.valid == 0b1111 && s.pwr.resetReq.isNone && s.sys.mode == .off) (powerOn pins.resetNHigh pins.hsel) s) s)

/-- The always-on domain powers up: every register, counter and latch of it at its reset value (R1076, R1083). -/
def alwaysOnReset (s : State) : State :=
  { s with
    regs := s.regs.filter (fun e => !aonReg e.1)
    cap := Cap.reset
    clk := { s.clk with rtc := 0, frac := 0, rtcRuns := false }
    pwr := { s.pwr with aon := true }
    kiln := { s.kiln with slots := [] }
    creds := { s.creds with time := none, timeWritten := 0 } }

def execAlwaysOnPowerUp (s : State) : Out := .next (when (s.sys.mode == .off && !s.pwr.aon) alwaysOnReset s)

/-- The device may leave its reset (R133, R415, R1082, R1107). -/
def resetOver (resetNHigh : Bool) (r : ResetReq) (s : State) : Bool :=
  resetNHigh && s.led.writing.isNone && r.since + 2 ≤ s.clk.rtc && s.clk.unlockedAt.isNone &&
  (r.cause != 8 || s.clk.relockedAt.any (fun t => t + 4 ≤ s.clk.rtc)) &&
  !(s.assay.holdsReset && (s.assay.freezing || s.sys.mode == .quenched))

/-- The reset ends in SCAN: by T02 where it is the wait of R1175, which alone runs in OFF, else by T03. -/
def execResetEnterScan (resetNHigh : Bool) (hsel : BitVec 2) (s : State) : Out :=
  .next (withSome s.pwr.resetReq (fun r s =>
    when (resetOver resetNHigh r s) (enterScan (s.sys.mode == .off) r.cause r.detail hsel) s) s)

/-! ### The end of SCAN (R62, R64, R92, R945) -/

def tamperLatched (s : State) : Bool := s.rbit rPWR_TAMPER 1

/-- The next mode (R64). -/
def afterScan (s : State) : Mode :=
  if !s.fuses.closed then .factory
  else if storedLock s != 0 || tamperLatched s then .lockdown
  else if storedMated s then .parked
  else .unmated

/-- SYS_MODE.MATED and SYS_LOCK_CAUSE take what the mode record and the tamper latch hold; where SCAN ends in LOCKDOWN, the
record gains the TAMPER that it lacks (R92). -/
def loadMode (s : State) : State :=
  let lock := storedLock s ||| (if tamperLatched s then 0b00010 else 0)
  let wanted := afterScan s == .lockdown && lock != storedLock s
  { s with sys := { s.sys with mated := storedMated s, lockCause := lock, recordWanted := wanted } }

/-- The Kiln's own start: its fixed slots, the runtime of the chosen image, the satellite counter at its CEIL and vehicle time
from record 7 where the always-on domain has none (R395, R802, R903, R904, R1001). -/
def kilnStart (s : State) : State :=
  let s := fillFixed s
  let time := s.creds.time.or ((payload s 7).map (fun p => (leAt p 0 4, s.clk.rtc)))
  let s := { s with creds := { s.creds with scnt := satCeil (rec4 s), time := time } }
  when (s.fld rFLASH_BOOT 1 0 != 0) loadRuntime s

/-- A core released by the boot ROM with its cvec written and its caches enabled (R239, R335, R1182). -/
def releaseCore (base : Nat) (h : Bytes) (c : Fin 6) (s : State) : State :=
  let off := hdrCvec h c.val
  if off = 0 then s
  else
    let v := wd (base + off) &&& 0xFFFFFF00
    (s.setCore c (Core.reset v .running)).setReg (regKey (.core c) rCPRIV_CACHE) 3

/-- Cores 1 to 3 and the field core, which SCAN holds in reset, start on the image that FLASH_BOOT names (R79, R335). -/
def releaseCores (s : State) : State :=
  match s.fld rFLASH_BOOT 1 0 with
  | 0 => s
  | n + 1 => forEach [1, 2, 3, 4] (releaseCore (slotBase n) (slotRead s n 0 256)) s

/-- SCAN ends: T04. -/
def endScan (s : State) : State :=
  let dst := afterScan s
  let s := commit dst (if dst == .lockdown then 0x16 else 0x03) (loadMode s)
  releaseCores (forEach hostReqs (hostEvent 0) (holdAll (startLoad (kilnStart s))))

/-- SCAN ends once the ledger scan and the choice of an image are both complete. -/
def scanEnds (s : State) : State :=
  when (s.sys.mode == .scan && s.sys.imageChosen && s.led.scanFrom.isNone) endScan s

def execLedgerScanDone (s : State) : Out :=
  .next (when (s.live && s.led.scanFrom.isSome) (fun s => scanEnds (scanDone s)) s)

/-- The boot ROM's choice: a valid slot, or the rescue loader when there is none (R335, R336). -/
def chooseImage (s : State) : State :=
  let s := stageOne s
  match nextSlot s with
  | some _ => s
  | none =>
    let s := { s with sys := { s.sys with imageChosen := true } }
    match [0, 1].find? (fun n => bootResult s n = 0) with
    | some n => scanEnds ((s.setRbit rFLASH_PROT n true).setFld rFLASH_BOOT 1 0 (n + 1))
    | none => scanEnds ({ s with host := { s.host with rescue := true } }.setFld rFLASH_BOOT 1 0 0)

def execImageChosen (s : State) : Out := .next (when (s.choosing && !rollbackBusy s) chooseImage s)

end Sys2Proof.Machine
end

