-- ==== Sys2Proof/Machine/Sleep.lean ====
section
/-! DEFINITION. BANKED: its entry, what it loses, and the end of a wake (06, 22). -/
namespace Sys2Proof.Machine

/-! ### T05 (R1087, step 1 to 4) -/

/-- A register of a block that loses its registers in BANKED: ADC, LF, UHF, RANGE, NFC, the switch, CAN, LIN, ENT, START and
XLATE (R280, R590, R630, R697, R748, R788, R879, R945, R982). -/
def bankLost (k : Nat) : Bool :=
  let b := k / 0x1000
  (0x40003 ≤ b && b ≤ 0x40006) || b == 0x40008 || (0x4000B ≤ b && b ≤ 0x40011) || b == 0x40014 || b == 0x40017 || b == 0x4001C

/-- The blocks that BANKED stops and clears. BLE, CAP and ADIT go on; no cage keeps a command it has fetched. -/
def bankBlocks (s : State) : State :=
  { s with
    regs := s.regs.filter (fun e => !bankLost e.1)
    adc := Adc.reset, lf := Lf.reset, uhf := Uhf.reset, range := Range.reset, nfc := Nfc.reset, start := Start.idle, net := Net.reset
    ent := Ent.idle
    chans := { s.chans with ch := [], timed := [] }
    front := { s.front with cages := s.front.cages.map (fun g => { g with cur := none, preload := none }) }
    kiln := { s.kiln with ready := false } }

/-- The PCIe link goes up or down, with HOSTIF_EVT.LINK in the PCIe copy when that is a change. -/
def setLink (up : Bool) (speed : BitVec 2) (s : State) : State :=
  if s.host.linkUp == up then { s with host := { s.host with speed := if up then speed else 0 } }
  else hostEvent 2 .pcie { s with host := { s.host with linkUp := up, speed := if up then speed else 0 } }

/-- T05 commits: SLEEP has gone to every BOUND satellite, connections are terminated, and every MODIFIED line is in SRAM. -/
def enterBanked (s : State) : State :=
  let s := bankBlocks (flushAllCaches (bleBank (aditSleep s)))
  let s := setLink false 0 { s with sys := { s.sys with bankFrom := some s.sys.mode } }
  let s := commit .banked 0x04 s
  capHeld { s with pwr := { s.pwr with entering := false, t05At := some s.clk.rtc, wdtFrom := none } }

/-- The entry goes on once no FLASH command and no ledger write runs; a suspended erase is resumed (R355, R413). -/
def execT05 (s : State) : Out :=
  .next (when (s.live && s.pwr.entering) (fun s =>
    if s.flash.suspended then flashResume s
    else when (s.flash.running.isNone && s.led.writing.isNone) enterBanked s) s)

/-! ### Completion of entry (step 5) -/

/-- The memories that BANKED loses: the upper 7 MiB of shared SRAM, the Kiln's private SRAM, every cache and translation
(R280). -/
def bankMemory (s : State) : State :=
  let gone := fun (a : Nat) => inKilnSram a || (inSram a && 0x20100000 ≤ a)
  { s with mem := { s.mem with
    cells := s.mem.cells.filter (fun e => !gone e.1)
    badGranules := s.mem.badGranules.filter (fun g => !gone g)
    flips := s.mem.flips.filter (fun g => !gone g)
    dcache := Vector.replicate 6 [], icache := Vector.replicate 6 [], tlb := [], xlateBusy := false } }

/-- The second RTC period after the first edge that follows T05: the timebase stops, and a wake source or a reset request
held until then is taken at once (R111, R1088, R1101). -/
def completeEntry (s : State) : State :=
  let s := bankMemory s
  takeWake { s with
    clk := { s.clk with running := false, unlockedAt := none }
    pwr := { s.pwr with t05At := none, entryRtc := some s.clk.rtc } }

def execCompletionOfEntry (s : State) : Out :=
  .next (when (s.sys.mode == .banked && s.pwr.t05At.any (fun t => t + 3 ≤ s.clk.rtc)) completeEntry s)

def State.onAssay (s : State) (f : Assay → Assay) : State := { s with assay := f s.assay }

/-! ### The end of a wake (R1092, step 5) -/

/-- A core at a wake (R248). -/
def wakeCore (k : Core) : Core :=
  if k.run == .reset then k
  else { Core.reset 0 .running with pc := k.cvec, cvec := k.cvec, ccause := 0x10 }

/-- The mode machine at a wake: T19 with the tamper latch set, else T06 (R66, R74). -/
def wakeMode (s : State) : State :=
  if tamperLatched s then
    let new := !s.sys.lockCause.getLsbD 1
    let s := { s with sys := { s.sys with lockCause := s.sys.lockCause ||| 0b00010 } }
    when new wantModeRecord (commit .lockdown 0x12 s)
  else commit (s.sys.bankFrom.getD .parked) 0x05 s

/-- A falling edge of the QUENCH ball that the wake logic has held (R1110). -/
def wakeQuench (s : State) : State :=
  when s.assay.bankLatch (fun s =>
    modeEvent 3 ((s.satFld rASSAY_IGNORED 31 0).onAssay (fun a => { a with bankLatch := false }))) s

/-- Every block starts: the Kiln empty and reloaded, the entropy source, the start lock's registers, the satellites'
heartbeats and the watchdog. -/
def wakeBlocks (s : State) : State :=
  let s := { s with cores := s.cores.map wakeCore }
  let s := kilnStart (entRun (kilnClear s))
  let s := aditResume (startLoad s)
  { s with
    front := { s.front with held := true }
    creds := { s.creds with sess := [], tokenNonce := none, satAuth := [], satMate := [] }
    pwr := { s.pwr with
      wakeAt := none, entryRtc := none
      wdtFrom := if s.rbit rPWR_WDT_CFG 31 then some s.clk.tb else none } }

/-- A reset that was requested after T05 follows the wake (R1101). -/
def wakeReset (s : State) : State :=
  withSome s.pwr.resetWake (fun r s => requestReset r.cause r.detail { s with pwr := { s.pwr with resetWake := none } }) s

/-- A loss of lock that was reported with the wake event has its effect once the wake is complete (R145). -/
def wakeLock (s : State) : State := when (s.clk.running && s.clk.unlockedAt.isSome) loseLock s

def wakeComplete (s : State) : State := wakeReset (wakeLock (wakeMode (wakeQuench (wakeBlocks s))))

def execWakeComplete (s : State) : Out :=
  .next (when (s.sys.mode == .banked && s.pwr.wakeAt.any (fun w => w + 12 ≤ s.clk.rtc)) wakeComplete s)

end Sys2Proof.Machine
end

