-- ==== Sys2Proof/Machine/HostAccess.lean ====
section
/-! DEFINITION. Accesses from outside the cores: PCIe, SPI and UART requests, the MSI-X table, the rescue loader's requests, and
a register write by any requester (21). -/
namespace Sys2Proof.Machine

/-! ### Which words a host interface reaches (R1037, R1059, R1063) -/

def inHostif (a : Nat) : Bool := 0x4001B000 ≤ a && a < 0x4001C000
def inRescue (a : Nat) : Bool := 0x20100000 ≤ a && a < 0x20280000

/-- A word that a host interface may read or write now. -/
def hostMay (s : State) (write : Bool) (a : Nat) : Bool :=
  if s.sys.mode == .scan then !write && (a == rHOSTIF_SEL || a == rHOSTIF_EVT || a == rSYS_EPOCH)
  else if s.host.rescue then inRescue a || (if write then a == rHOSTIF_RESCUE else inHostif a)
  else inControl a || inSram a

/-- One word read; none is an error answer. HOSTIF_PEND reads 0 in the PCIe copy. -/
def hostRead (who : Req) (a : Nat) (s : State) : Option (Word × State) :=
  if inSram a then
    match readSram 0x21 a 4 s with
    | (.ok bs, s) => some (wordOfLe bs, s)
    | _ => none
  else if a == rHOSTIF_PEND && who == .pcie then some (0, s)
  else regRead who a s

/-- The state after a read that is answered with an error: an SRAM error is recorded. -/
def hostReadErr (a : Nat) (s : State) : State := if inSram a then (readSram 0x21 a 4 s).2 else s

/-- One word written; none is an error answer. -/
def hostWrite (who : Req) (a : Nat) (v : Word) (s : State) : Option State :=
  if inSram a then
    match writeSram 0x21 a (leOfWord v) s with
    | (.ok _, s) => some s
    | _ => none
  else regWrite who a v s

/-- The state after a write that is answered with an error. -/
def hostWriteErr (a : Nat) (v : Word) (s : State) : State := if inSram a then (writeSram 0x21 a (leOfWord v) s).2 else s

/-- Words read at ascending addresses; false when one was answered with an error (R1049). -/
def hostReads (who : Req) : Nat → Nat → State → Bool × List Word × State
  | 0, _, s => (true, [], s)
  | n + 1, a, s =>
    match hostRead who a s with
    | none => (false, [], hostReadErr a s)
    | some (w, s) =>
      let r := hostReads who n (a + 4) s
      (r.1, w :: r.2.1, r.2.2)

/-- Words written at ascending addresses; false when one was answered with an error. -/
def hostWrites (who : Req) : List Word → Nat → State → Bool × State
  | [], _, s => (true, s)
  | v :: vs, a, s =>
    match hostWrite who a v s with
    | none => (false, hostWriteErr a v s)
    | some s => hostWrites who vs (a + 4) s

/-- Every word of a request may be accessed. -/
def hostMayAll (s : State) (write : Bool) (a n : Nat) : Bool := (List.range n).all (fun i => hostMay s write (a + 4 * i))

/-! ### PCIe (R1041 to R1045) -/

/-- A request that is refused or answered with an error: Completer Abort for a read, discarded for a write, and ACC_ERR. -/
def pcieError (s : State) : State := answer 0 [] true (hostEvent 1 .pcie s)

/-- A request to control space, as aligned words. -/
def pcieControl (a len : Nat) (write : Option (List Byte)) (s : State) : State :=
  let n := len / 4
  if a % 4 != 0 || len % 4 != 0 || len = 0 || !hostMayAll s write.isSome a n then pcieError s
  else match write with
    | none =>
      match hostReads .pcie n a s with
      | (true, ws, s) => answer 0 ws false s
      | (false, _, s) => pcieError s
    | some bs =>
      match hostWrites .pcie ((wordsOf bs).take n) a s with
      | (true, s) => answer 0 [] false s
      | (false, s) => pcieError s

/-- A request to shared SRAM, of any length and alignment. -/
def pcieSram (a len : Nat) (write : Option (List Byte)) (s : State) : State :=
  let bytes := (List.range len).map (fun i => a + i)
  if len = 0 || !bytes.all (fun x => inSram x && hostMay s write.isSome (x / 4 * 4)) then pcieError s
  else match write with
    | none =>
      match readSram 0x21 a len s with
      | (.ok bs, s) => answer 0 (wordsOf bs) false s
      | (_, s) => pcieError s
    | some bs =>
      match writeSram 0x21 a (slice bs 0 len) s with
      | (.ok _, s) => answer 0 [] false s
      | (_, s) => pcieError s

/-- The MSI-X messages that a mask has held back and holds back no more are sent. -/
def pcieFlush (s : State) : State :=
  forEach (List.range 32) (fun v s =>
    if s.host.pba.getLsbD v && !s.host.msixMask && s.host.msixEnable && !bit (agetD s.host.msixTable (4 * v + 3) 1) 0 then
      raiseVector .pcie v { s with host := { s.host with pba := s.host.pba &&& ~~~(BitVec.ofNat 32 (1 <<< v)) } }
    else s) s

/-- A word of BAR4: the MSI-X table at 0x0000, the PBA at 0x2000; what lies elsewhere reads 0 (log entry 34). -/
def msixWord (s : State) (off : Nat) : Word :=
  if off < 0x200 then agetD s.host.msixTable (off / 4) (if off / 4 % 4 = 3 then 1 else 0)
  else if off = 0x2000 then s.host.pba
  else 0

def msixWrite (off : Nat) (v : Word) (s : State) : State :=
  if off < 0x200 then { s with host := { s.host with msixTable := ains s.host.msixTable (off / 4) v } } else s

/-- A request to BAR4, as aligned words; in SCAN and under the rescue loader it is refused (R1059, R1063). -/
def pcieMsix (off len : Nat) (write : Option (List Byte)) (s : State) : State :=
  let n := len / 4
  if s.sys.mode == .scan || s.host.rescue || off % 4 != 0 || len % 4 != 0 || len = 0 || 0x4000 < off + len then answer 0 [] true s
  else match write with
    | none => answer 0 ((List.range n).map (fun i => msixWord s (off + 4 * i))) false s
    | some bs =>
      let ws := ((wordsOf bs).take n).zipIdx
      answer 0 [] false (pcieFlush (forEach ws (fun e s => msixWrite (off + 4 * e.2) e.1 s) s))

/-- A PCIe request is served. -/
def pcieServe (tgt : PcieTo) (len : Nat) (write : Option (List Byte)) (s : State) : State :=
  match tgt with
  | .bar0 off => pcieControl (0x40000000 + off.toNat) len write s
  | .bar2 off => pcieSram (0x20000000 + off.toNat) len write s
  | .bar4 off => pcieMsix off.toNat len write s
  | .config m e f =>
    if write.isNone then answer 0 [] false s
    else answer 0 [] false (pcieFlush { s with host := { s.host with busMaster := m, msixEnable := e, msixMask := f } })

/-- The device is frozen or about to be: a host access that arrives waits for the thaw (R1062). -/
def State.frozen (s : State) : Bool := s.sys.mode == .quenched || s.assay.freezing

/-- A host access put behind those that wait. -/
def holdAccess (x : HostWait) (s : State) : State := { s with host := { s.host with waiting := s.host.waiting ++ [x] } }

/-- A request over PCIe, whose link must be up; a device held in reset does not answer (log entry 35). -/
def execPcieAccess (tgt : PcieTo) (len : Nat) (write : Option (List Byte)) (s : State) : Out :=
  .next (when (s.host.linkUp && s.hostActive .pcie) (fun s =>
    if s.frozen then holdAccess (.pcie tgt len write) s else when s.live (pcieServe tgt len write) s) s)

/-- PERST_N: the configuration space, the MSI-X table and the link (R1044). -/
def execPerstN (s : State) : Out :=
  .next (when (s.sys.mode != .off) (fun s =>
    let s := setLink false 0 s
    { s with host := { s.host with busMaster := false, msixEnable := false, msixMask := false, msixTable := [], pba := 0 } }) s)

def execPcieLinkChange (linked : Bool) (speed : BitVec 2) (s : State) : Out :=
  .next (when (s.live && s.hostActive .pcie) (setLink linked speed) s)

/-! ### Serial requests (R1047 to R1057) -/

def serialReq (uart : Bool) : Req := if uart then .uart else .spi

/-- The OP byte of a request. -/
def serialOp (quad : Bool) (r : Serial) : Nat :=
  (match r with | .read _ _ => 1 | .write _ _ => 2 | .install _ _ => 0x20) + if quad then 0x80 else 0

/-- RESCUE_INSTALL (R1064, R1190): an RCODE, the data word of the reply, and the state. -/
def serialInstall (len : BitVec 8) (addr : BitVec 32) (s : State) : Nat × List Word × State :=
  let n := addr.toNat
  if len != 0 || !(n == 0xA || n == 0xB) then (6, [], s)
  else if s.sys.mode == .scan then (4, [], s)
  else if !rescueReady s then (7, [], s)
  else
    let r := rescue (n - 0xA) s
    (0, [wd r.1], r.2)

/-- A request whose check words are right is performed: RCODE, data words, state. LEN and alignment are judged before the
address (log entry 36). QUAD is an OP of SPI alone. -/
def serialServe (uart quad : Bool) (r : Serial) (s : State) : Nat × List Word × State :=
  let who := serialReq uart
  if uart && quad then (6, [], s)
  else match r with
    | .read len addr =>
      let a := addr.toNat
      let n := len.toNat + 1
      if a % 4 != 0 then (6, [], s)
      else if !hostMayAll s false a n then (4, [], s)
      else match hostReads who n a s with
        | (true, ws, s) => (0, ws, s)
        | (false, _, s) => (3, [], s)
    | .write addr ws =>
      let a := addr.toNat
      if a % 4 != 0 || ws.isEmpty || 256 < ws.length then (6, [], s)
      else if !hostMayAll s true a ws.length then (4, [], s)
      else match hostWrites who ws a s with
        | (true, s) => (0, [], s)
        | (false, s) => (3, [], s)
    | .install len addr => serialInstall len addr s

/-- LEN and ADDR of a request's header (R1047). -/
def serialLenAddr (r : Serial) : Nat × Nat :=
  match r with
  | .read len addr => (len.toNat, addr.toNat)
  | .write addr ws => (ws.length - 1, addr.toNat)
  | .install len addr => (len.toNat, addr.toNat)

/-- The words of a request or reply, each most significant byte first. -/
def serialData (ws : List Word) : Bytes := ws.flatMap (fun w => beBytes 4 w.toNat)

/-- The HCRC of a request is that of its bytes 0 to 5 (R1047). -/
def serialHeaderOk (quad : Bool) (r : Serial) (hcrc : BitVec 16) : Bool :=
  crc16 (leBytes 1 (serialOp quad r) ++ leBytes 1 (serialLenAddr r).1 ++ beBytes 4 (serialLenAddr r).2) == hcrc

/-- The bytes of a reply: RCODE, then DATA and DCRC where there are data on SPI; SOF, RCODE, LEN, DATA and RCRC on UART (R1048,
R1055). -/
def replyBytes (uart : Bool) (len rcode : Nat) (ws : List Word) : Bytes :=
  let data := serialData ws
  if uart then
    let body := leBytes 1 rcode ++ leBytes 1 len ++ data
    0x7E :: body ++ beBytes 2 (crc16 body).toNat
  else leBytes 1 rcode ++ (if data.isEmpty then [] else data ++ beBytes 2 (crc16 data).toNat)

/-- A reply; its LEN is the request's for a READ that is answered with OK (R1055). -/
def reply (uart : Bool) (r : Serial) (rcode : Nat) (ws : List Word) (s : State) : State :=
  let len := match r with
    | .read len _ => if rcode = 0 then len.toNat else 0
    | _ => 0
  answer rcode ws false { s with host := { s.host with reply := replyBytes uart len rcode ws } }

/-- A served request and its reply. -/
def serialAnswer (uart quad : Bool) (r : Serial) (s : State) : State :=
  let x := serialServe uart quad r s
  reply uart r x.1 x.2.1 x.2.2

/-- A request that was answered PENDING ends into HOSTIF_SPI_LAST (R1052). -/
def serialLate (quad : Bool) (r : Serial) (s : State) : State :=
  let x := serialServe false quad r s
  let n := x.2.2.fld rHOSTIF_SPI_LAST 31 16 + 1
  x.2.2.setReg rHOSTIF_SPI_LAST (wd (fld 16 (n % 65536) + fld 8 (serialOp quad r) + x.1))

/-- A host interface takes requests: it is active, and the device is not in OFF or BANKED (R1061). -/
def serialHears (uart : Bool) (s : State) : Bool :=
  s.hostActive (serialReq uart) && s.sys.mode != .off && s.sys.mode != .banked

/-- HOSTIF_EVT.UART_ERR, and bytes are discarded until the next 0x7E (R1056). -/
def uartErr (s : State) : State := hostEvent 4 .uart { s with host := { s.host with uartDiscard := true } }

/-- The bytes of a UART request, of which a frozen device holds 64 (R1055, R1062). -/
def uartBytes (r : Serial) : Nat :=
  match r with
  | .write _ ws => 9 + 4 * ws.length + 2
  | _ => 9

/-- A request whose check words are right arrives. -/
def serialArrive (uart quad : Bool) (r : Serial) (s : State) : State :=
  let s := if uart then { s with host := { s.host with uartDiscard := false } } else s
  if s.frozen then (if uart && 64 < uartBytes r then uartErr s else holdAccess (.serial uart quad r false) s)
  else when s.live (serialAnswer uart quad r) s

/-- A request whose HCRC differs: RCODE 0x01 on SPI, no reply on UART. -/
def badHeader (uart : Bool) (r : Serial) (s : State) : State := if uart then uartErr s else when s.live (reply false r 1 []) s

/-- A request whose header has arrived with its HCRC. -/
def serialHeader (uart quad : Bool) (r : Serial) (hcrc : BitVec 16) (s : State) : State :=
  if serialHeaderOk quad r hcrc then serialArrive uart quad r s else badHeader uart r s

def execSerialRead (uart quad : Bool) (len : BitVec 8) (addr : BitVec 32) (hcrc : BitVec 16) (s : State) : Out :=
  .next (when (serialHears uart s) (serialHeader uart quad (.read len addr) hcrc) s)

/-- A WRITE whose DCRC differs writes nothing: RCODE 0x02. -/
def execSerialWrite (uart quad : Bool) (addr : BitVec 32) (words : List Word) (hcrc dcrc : BitVec 16) (s : State) : Out :=
  .next (when (serialHears uart s) (fun s =>
    if serialHeaderOk quad (.write addr words) hcrc && crc16 (serialData words) != dcrc then
      when s.live (reply uart (.write addr words) 2 []) s
    else serialHeader uart quad (.write addr words) hcrc s) s)

def execRescueInstall (src : RescueBy) (s : State) : Out :=
  .next (match src with
    | .register who value => when (s.live && s.sys.mode != .scan && Writers.hostApp.permits who) (rescueWrite value) s
    | .request uart quad len addr hcrc => when (serialHears uart s) (serialHeader uart quad (.install len addr) hcrc) s)

/-- The SPI request that waits for a thaw is answered PENDING. -/
def pendWaiting (s : State) : State :=
  { s with host := { s.host with waiting := s.host.waiting.map (fun x =>
    match x with
    | .serial false quad r _ => .serial false quad r true
    | x => x) } }

/-- An SPI access that is not complete after 64 wait bytes: one that goes on now, or one that a freeze holds back. -/
def execPending (quad : Bool) (req : Option Serial) (s : State) : Out :=
  .next (when (serialHears false s) (fun s =>
    match req with
    | some r => if s.frozen then reply false r 5 [] (holdAccess (.serial false quad r true) s)
      else when s.live (fun s => reply false r 5 [] (serialLate quad r s)) s
    | none => when s.frozen (fun s => reply false (.install 0 0) 5 [] (pendWaiting s)) s) s)

/-- CS_N rises early: after the header, and a WRITE's DCRC, the access is made all the same; before that the request is
discarded (none). -/
def execSpiCut (quad : Bool) (req : Option Serial) (s : State) : Out :=
  .next (when (serialHears false s) (withSome req (fun r s => hostEvent 3 .spi (serialArrive false quad r s))) s)

def execUartErr (s : State) : Out := .next (when (serialHears true s) uartErr s)

/-- The accesses that a freeze held back are served, in the order of their arrival (R1039, R1062). -/
def serveWaiting (s : State) : State :=
  let xs := s.host.waiting
  forEach xs (fun x s =>
    match x with
    | .pcie tgt len write => pcieServe tgt len write s
    | .serial uart quad r pended => if pended then serialLate quad r s else serialAnswer uart quad r s)
    { s with host := { s.host with waiting := [] } }

/-! ### A register write by any requester (R14) -/

/-- A write of a word of control space, of the Kiln's register block by the Kiln core, or of a core's own private block; one
that is answered with an error changes nothing. -/
def writeAny (who : Req) (a : Nat) (v : Word) (s : State) : State :=
  match who with
  | .core c =>
    if inPrivate a then (if a == rCPRIV_CACHE then privWrite c 0 (leOfWord v) s else s)
    else if inKilnRegs a && c.val != 5 then s
    else (regWrite who a v s).getD s
  | _ => if hostMay s true a && inControl a then (regWrite who a v s).getD s else s

def execRegisterWrite (who : Req) (addr : BitVec 32) (value : Word) (s : State) : Out :=
  .next (when (s.live && addr.toNat % 4 == 0) (writeAny who addr.toNat value) s)

end Sys2Proof.Machine
end

