-- ==== Sys2Proof/Machine/Pins.lean ====
section
/-! DEFINITION. What stands on the digital balls that the boundary register reaches (R1162 to R1165, R1168, R1169). -/
namespace Sys2Proof.Machine

/-- What a ball's output does: driven high or low, high impedance (with a weak pull while its supply is present), or a level
that the spec does not state. -/
inductive Level where
  | high | low | z | pullUp | pullDown | unstated
  deriving DecidableEq, Repr

/-- The columns of the ball list (R1165); every other mode is a run mode or BANKED. -/
inductive PinState where
  | off | reset | scan | quenched | banked | run
  deriving DecidableEq, Repr

/-- The device is held in reset while a request waits to enter SCAN, a freeze apart, which halts the reset (R1107). -/
def State.pinState (s : State) : PinState :=
  match s.sys.mode with
  | .off => .off
  | .quenched => .quenched
  | .banked => .banked
  | m => if s.pwr.resetReq.isSome then .reset else if m == .scan then .scan else .run

/-- A ball in OFF keeps its weak pull while its supply is present (R1162): bit 1 VDDIO_H, 2 VDDIO_V, 3 VDDA_RF. -/
def offLevel (supply : Nat) (pull : Level) (s : State) : Level := if s.pwr.valid.getLsbD supply then pull else .z

/-- CANn_TX: recessive in reset, SCAN and QUENCHED, high impedance in OFF (R1163), recessive where the controller only monitors
(R970); the spec gives no level for BANKED, and the frame bits of a running controller are not the model's. -/
def canTxLevel (n : Nat) (s : State) : Level :=
  match s.pinState with
  | .off => offLevel 2 .pullUp s
  | .reset | .scan | .quenched => .high
  | .banked => .unstated
  | .run => if s.rbit (rCAN_CFG n) 31 && s.rbit (rCAN_CFG n) 30 then .high else .unstated

def uartTxLevel (s : State) : Level :=
  match s.pinState with
  | .off => offLevel 1 .pullUp s
  | .reset | .quenched => .high
  | .scan | .banked | .run => .unstated

/-- HIRQ0_N of SPI and HIRQ1_N of UART: low while a pending vector is unmasked (R1045), released in BANKED (R1061); a freeze
holds the level. -/
def hirqLevel (who : Req) (s : State) : Level :=
  match s.pinState with
  | .off | .reset | .scan | .banked => .z
  | .quenched | .run =>
    if s.reg (hostKey who rHOSTIF_PEND) &&& s.reg (hostKey who rHOSTIF_PMASK) = 0 then .z else .low

def sioLevel (s : State) : Level :=
  match s.pinState with
  | .off | .reset => .z
  | .scan | .quenched | .banked | .run => .unstated

def tcxoEnLevel (s : State) : Level :=
  match s.pinState with
  | .off => offLevel 3 .pullDown s
  | .reset | .scan | .quenched => .high
  | .banked | .run => .unstated

/-- CRANK_PERMIT_P, and its complement on CRANK_PERMIT_N (R43, R1147). -/
def crankLevel (positive : Bool) (s : State) : Level :=
  if s.sys.mode == .off then .z else if s.crankRelease == positive then .high else .low

/-- The outputs among the 28 balls of R1168, in its order; none is an input-only ball. -/
def pinLevel (k : Nat) (s : State) : Option Level :=
  match k with
  | 4 => some (uartTxLevel s)
  | 6 => some (hirqLevel .spi s)
  | 7 => some (hirqLevel .uart s)
  | 11 | 12 | 13 | 14 => some (sioLevel s)
  | 17 => some (tcxoEnLevel s)
  | 18 => some (canTxLevel 0 s)
  | 20 => some (canTxLevel 1 s)
  | 22 => some (canTxLevel 2 s)
  | 24 => some (canTxLevel 3 s)
  | 26 => some (crankLevel true s)
  | 27 => some (crankLevel false s)
  | _ => none

/-- The three cells of a ball, input, output data and output enable, over bits that nothing constrains: an input-only ball's
output cells capture 0 (R1169), and an enable cell is 1 while the output drives (log entry 97). -/
def pinCells (l : Option Level) (any_ : List Bool) : List Bool :=
  let f := fun i => any_.getD i false
  match l with
  | none => [f 0, false, false]
  | some .high => [true, true, true]
  | some .low => [false, false, true]
  | some .unstated => [f 0, f 1, f 2]
  | some _ => [f 0, f 1, false]

/-- What the 84 cells capture: cell 3k is the input of ball k; ball 0 is QUENCH, whose level the model holds. -/
def boundaryCells (s : State) (any_ : List Bool) : List Bool :=
  ((List.range 28).flatMap (fun k => pinCells (pinLevel k s) (any_.drop (3 * k)))).set 0 (!s.assay.ballLow)

end Sys2Proof.Machine
end

