-- ==== Sys2Proof/Machine/Quench.lean ====
section
/-! DEFINITION. QUENCH: the ball, quench requests, the coherent stop and the thaw (23). -/
namespace Sys2Proof.Machine

/-! ### The ball (R1108, R1110, R1111) -/

/-- A falling edge in a mode that does not honour it; in DRIVE the release is withdrawn. -/
def quenchIgnored (s : State) : State :=
  let s := modeEvent 3 (s.satFld rASSAY_IGNORED 31 0)
  withdraw s

/-- A fall in the RTC period in which a THAW was updated prevails over it (R1137; log entry 111). -/
def ballHolds (s : State) : State :=
  when (s.assay.thawAt == some s.clk.rtc) (fun s => (s.setRbit rASSAY_STAT 5 true).onAssay (fun a => { a with thawAt := none })) s

/-- What a falling edge does in the mode it finds. -/
def ballFalls (s : State) : State :=
  match s.sys.mode with
  | .off => s
  | .quenched => ballHolds s
  | .factory => startFreeze 1 s
  | .service => startFreeze 1 s
  | .banked => s.onAssay (fun a => { a with bankLatch := true })
  | _ => quenchIgnored s

def execQuenchBallFall (s : State) : Out :=
  .next (when (!s.assay.ballLow) (fun s => ballFalls (s.onAssay (fun a => { a with ballLow := true }))) s)

def execQuenchBallRise (s : State) : Out := .next (s.onAssay (fun a => { a with ballLow := false }))

/-- A write of ASSAY_CTL with QREQ at 1 (R1109, R1131). -/
def execQuenchRequest (who : Req) (key : BitVec 16) (s : State) : Out := .next (when s.live (assayCtl who key) s)

/-! ### The coherent stop (R356, R1112, R1113, R1132) -/

/-- ASSAY_STAT and the captured times of a freeze. -/
def noteFreeze (s : State) : State :=
  let w := s.reg rASSAY_STAT
  let kept := fld 5 (bits w 5 5) + fld 7 (bits w 7 7)
  let n := fld 16 ((bits w 31 16 + 1) % 65536) + fld 8 s.sys.mode.code + s.assay.srcs.toNat + 1
  let s := s.setReg rASSAY_STAT (wd (n + kept))
  let s := (s.setReg rASSAY_FREEZE_TB_LO (wd s.clk.tb)).setReg rASSAY_FREEZE_TB_HI (wd (s.clk.tb / 2 ^ 32))
  s.setReg rASSAY_FREEZE_RTC (wd s.clk.rtc)

/-- A PROGRAM stops after the unit being written: what is left of it goes on at the thaw (R356). -/
def freezeProgram (addr src len : Nat) (s : State) : State :=
  let (k, s) := unitInWork (len / 16) s
  let r := programUnits (min (len / 16) (k + 1)) addr src s
  let d := 16 * r.1.1
  { r.2 with flash := { r.2.flash with running := some (.program (addr + d) (src + d) (len - d)) } }

/-- A running erase is suspended, and a PROGRAM stops between two units (R356). -/
def freezeFlash (s : State) : State :=
  match s.flash.running with
  | some (.program addr src len) => freezeProgram addr src len s
  | _ => when (erasePulse s) (fun s => { s with flash := { s.flash with suspending := false, suspended := true, frozen := true } }) s

/-- T16. -/
def coherentStop (s : State) : State :=
  let s := freezeFlash (noteFreeze s)
  let s := s.onAssay (fun a => { a with freezing := false })
  commit .quenched 0x0F (nfcCarrierOff { s with clk := { s.clk with running := false } })

def execCoherentStop (s : State) : Out :=
  .next (when (s.assay.freezing && quenchable s.sys.mode) coherentStop s)

/-! ### The thaw (R1128 to R1130, R1134) -/

/-- THAW updated with a 1. -/
def thawUpdate (s : State) : State :=
  if s.sys.mode == .quenched && !s.assay.ballLow then
    s.onAssay (fun a => { a with thawAt := a.thawAt.or (some s.clk.rtc) })
  else s.setRbit rASSAY_STAT 5 true

/-- The mode that ASSAY_STAT.FROM names. -/
def thawMode (s : State) : Mode := if s.fld rASSAY_STAT 11 8 = Mode.factory.code then .factory else .service

/-- Each block reports the interruption as its chapter states, and a suspended erase goes on. -/
def thawBlocks (s : State) : State :=
  let s := when s.flash.frozen (fun s => { s with flash := { s.flash with suspended := false, frozen := false } }) s
  releaseAck (netThaw (nfcThaw (bleThaw (rangeThaw (uhfOff (lfOff (adcThaw s)))))))

/-- T17 with all that happens at its moment; a tamper latch set in the freeze then has its effect, and a service token whose
validity has ended ends SERVICE. -/
def thawResume (s : State) : State :=
  let s := { s with clk := { s.clk with running := true, unlockedAt := none } }
  let s := ((s.setRbit rTB_STAT 2 true).setRbit rTB_STAT 0 true).setReg rASSAY_THAW_RTC (wd s.clk.rtc)
  let s := (s.setRbit rASSAY_STAT 0 false).onAssay (fun a => { a with thawAt := none })
  let s := thawBlocks (commit (thawMode s) 0x10 s)
  let s := when (tamperLatched s) (raiseLockdown 1) s
  serveWaiting (serviceEnd s)

def execThawResume (s : State) : Out :=
  .next (when (s.sys.mode == .quenched && s.assay.thawAt.isSome) thawResume s)

end Sys2Proof.Machine
end

