-- ==== Sys2Proof/Machine/Jtag.lean ====
section
/-! DEFINITION. The 1149.1 port and the assay instructions (R1118 to R1127, R1168, R1179). Each command is one pass through an
instruction: its code in the instruction register, then the data register captured, shifted and updated; `shiftOut` holds the
bits that left the port, least significant first. -/
namespace Sys2Proof.Machine

/-! ### Bits -/

def bitsOfByte (b : Byte) : List Bool := (List.range 8).map (fun i => b.getLsbD i)
def bitsOfBytes (bs : Bytes) : List Bool := bs.flatMap bitsOfByte
def bitsOfWord (w : Word) : List Bool := (List.range 32).map (fun i => w.getLsbD i)
def zeros (n : Nat) : List Bool := List.replicate n false

/-- The mask pattern of R1127. -/
def maskPattern (n : Nat) : List Bool := (List.range n).map (fun i => (0xC3 : Byte).getLsbD (i % 8))

/-- n bits that nothing constrains (log entry 4). -/
def freshBits (n : Nat) (s : State) : List Bool × State :=
  let (bs, s) := s.freshBytes ((n + 7) / 8)
  ((bitsOfBytes bs).take n, s)

/-- An instruction's pass: the instruction register and what left the port. -/
def tap (ir : Nat) (out : List Bool) (s : State) : State := s.onAssay (fun a => { a with ir := ir, shiftOut := out })

/-- The port is powered. -/
def tapUp (s : State) : Bool := s.sys.mode != .off

def isQuenched (s : State) : Bool := s.sys.mode == .quenched

/-! ### QUENCH and THAW -/

def execQuench (update : Bool) (s : State) : Out :=
  .next (when (tapUp s) (fun s => when update (quenchRequest 3) (tap 0x10 [false] s)) s)

def execThaw (update : Bool) (s : State) : Out :=
  .next (when (tapUp s) (fun s => when update thawUpdate (tap 0x11 [false] s)) s)

/-! ### The instructions of 1149.1 -/

/-- What shifts through a 1-bit register that captures 0. -/
def bypass (tdi : List Bool) : List Bool := (false :: tdi).take tdi.length

def execBypass (tdi : List Bool) (s : State) : Out := .next (when (tapUp s) (tap 0xFF (bypass tdi)) s)

def execIdcode (s : State) : Out := .next (when (tapUp s) (fun s => tap 1 (bitsOfWord (s.reg rASSAY_ID)) s) s)

def execStatus (s : State) : Out := .next (when (tapUp s) (fun s => tap 0x12 (bitsOfWord (assayStat s)) s) s)

/-- What the 84 boundary cells capture (R1168); the levels on the inputs are free. -/
def boundaryCapture (s : State) : List Bool × State :=
  let (f, s) := freshBits 84 s
  (boundaryCells s f, s)

/-- SAMPLE/PRELOAD: the cells captured, and the boundary register loaded. -/
def execSamplePreload (cells : List Bool) (s : State) : Out :=
  .next (when (tapUp s) (fun s =>
    let (out, s) := boundaryCapture s
    (tap 2 out s).onAssay (fun a => { a with boundary := cells })) s)

/-- EXTEST in FACTORY; elsewhere it acts as BYPASS. CRANK_PERMIT follows the mode alone (R1120). -/
def execExtest (cells : List Bool) (s : State) : Out :=
  .next (when (tapUp s) (fun s =>
    if s.sys.mode == .factory then
      let (out, s) := boundaryCapture s
      (tap 3 out s).onAssay (fun a => { a with boundary := cells })
    else tap 3 (bypass cells) s) s)

/-! ### Chains (R1124 to R1127) -/

/-- The length of a chain. -/
def chainLength (n : Nat) : Nat :=
  if n ≤ 5 then 1024
  else if (0x08 ≤ n && n ≤ 0x0C) || (0x10 ≤ n && n ≤ 0x14) then 155648
  else if n = 0x0D || n = 0x15 then 77824
  else if n = 0x18 then 123904
  else if n = 0x19 then 6400
  else if n = 0x1A then 75776
  else if n = 0x1B then 27136
  else 1

/-- A chain marked "Kiln". -/
def kilnChain (n : Nat) : Bool := n = 5 || n = 0x0D || n = 0x15 || n = 0x1B

/-- The unfinished instruction of a core and PENDING (R1114). The word of an SND that waits for the ledger port's acknowledge is
not held by the model. -/
def pendingWord (k : Core) (any_ : Word) : Word × Bool :=
  match k.run with
  | .stalled w => (w, true)
  | .blocked .ledgerAck => (any_, true)
  | _ => (0, false)

/-- A core chain. The fetch buffer's content is not stated. -/
def coreChain (c : Fin 6) (s : State) : List Bool × State :=
  let k := s.cores.get c
  let (f, s) := freshBits 128 s
  let (w, s) := s.freshWord
  let p := pendingWord k w
  let cregs := (List.range 7).flatMap (fun n => bitsOfWord ((creg s c n).getD 0))
  (bitsOfWord k.pc ++ k.g.toList.flatMap bitsOfWord ++ (List.range 4).map (fun i => k.flg.getLsbD i) ++ cregs ++
    (List.range 16).map (fun i => k.e.getLsbD i) ++ bitsOfWord p.1 ++ [p.2] ++ f ++ zeros 75, s)

/-- The code of a line state in a tag word. -/
def LineState.code : LineState → Nat
  | .shared => 1 | .exclusive => 2 | .modified => 3

/-- The 608 bits of one way of one set, over bits that nothing constrains: the check bits, and the data and address of a line
that is INVALID. -/
def lineBits (l : Option Line) (any_ : List Bool) : List Bool :=
  match l with
  | some l => bitsOfBytes (slice l.data 0 64) ++ (any_.drop 512).take 64 ++ bitsOfWord (wd (fld 26 l.st.code + l.addr / 64 % 2 ^ 26))
  | none => any_.take 602 ++ zeros 6

/-- A cache chain (R1126). -/
def cacheChain (c : Fin 6) (ls : List Line) (s : State) : List Bool × State :=
  let ways := waysOf c
  let places := (List.range 64).flatMap (fun i => (List.range ways).map (fun w => (i, w)))
  let (bs, s) := s.freshBytes (76 * places.length)
  let parts := places.zip (chunks 76 places.length bs)
  (parts.flatMap (fun p =>
    lineBits (ls.find? (fun l => setOf l.addr == p.1.1 && l.way == p.1.2)) (bitsOfBytes p.2)), s)

/-- The core of a cache chain. -/
def chainCore (n : Nat) : Fin 6 := Fin.ofNat 6 (n % 8)

/-- A chain's bits. The spec gives no layout for the directory, XLATE, front-end and key chains, so nothing constrains their
bits; a chain number outside the table gives one 0. -/
def chainBits (n : Nat) (s : State) : List Bool × State :=
  if kilnChain n && kilnMasked s then (maskPattern (chainLength n), s)
  else if n ≤ 5 then coreChain (Fin.ofNat 6 n) s
  else if 0x08 ≤ n && n ≤ 0x0D then cacheChain (chainCore n) (s.ilines (chainCore n)) s
  else if 0x10 ≤ n && n ≤ 0x15 then cacheChain (chainCore n) (s.lines (chainCore n)) s
  else if 0x18 ≤ n && n ≤ 0x1B then freshBits (chainLength n) s
  else ([false], s)

/-- SEL: the port shows the number held before (log entry 37). -/
def execSel (n : BitVec 8) (s : State) : Out :=
  .next (when (tapUp s) (fun s =>
    if isQuenched s then
      (tap 0x13 ((bitsOfWord (wd s.assay.chain)).take 8) s).onAssay (fun a => { a with chain := n.toNat })
    else tap 0x13 (zeros 8) s) s)

def execChain (s : State) : Out :=
  .next (when (tapUp s) (fun s =>
    if isQuenched s then
      let (out, s) := chainBits s.assay.chain s
      tap 0x14 out s
    else tap 0x14 (zeros (chainLength s.assay.chain)) s) s)

/-! ### SRAM (R1122, R1127) -/

/-- ADDR: [31:3] granule address, [47:32] granule count − 1; the port shows what it held before (log entry 37). -/
def execAddr (v : BitVec 48) (s : State) : Out :=
  .next (when (tapUp s) (fun s =>
    if isQuenched s then
      (tap 0x15 (bitsOfWord (wd s.assay.addr) ++ (bitsOfWord (wd (s.assay.count - 1))).take 16) s).onAssay (fun a =>
        { a with addr := bits v 31 3 * 8, count := bits v 47 32 + 1 })
    else tap 0x15 (zeros 48) s) s)

/-- The 72 bits of a granule; the check bits are not stated. -/
def granuleBits (a : Nat) (any_ : Byte) (s : State) : List Bool :=
  if inKilnSram a then
    if kilnMasked s then maskPattern 72 else bitsOfBytes (readBytes s a 8) ++ bitsOfByte any_
  else if inSram a then bitsOfBytes (readBytes s a 8) ++ bitsOfByte any_
  else zeros 72

/-- SRAM: the granules from the ADDR address upwards. -/
def execSram (s : State) : Out :=
  .next (when (tapUp s) (fun s =>
    let n := s.assay.count
    if isQuenched s then
      let (bs, s) := s.freshBytes n
      tap 0x16 (bs.zipIdx.flatMap (fun e => granuleBits (s.assay.addr + 8 * e.2) e.1 s)) s
    else tap 0x16 (zeros (72 * n)) s) s)

/-! ### REG (R1121, R1123, R1127) -/

/-- The word of a register without the side effects of an ordinary read; a banked register shows the first copy (log entry
37). -/
def regCapture (a : Nat) (s : State) : Word × State :=
  if !inControl a || a % 4 != 0 then (0, s)
  else if a = rCIPHER_CFG && kilnMasked s then (0xC3C3C3C3, s)
  else match regRead (.core 0) a s with
    | none => (0, s)
    | some (w, t) => (w, { s with free := t.free })

/-- REG: the data of the address shifted in before. -/
def execReg (a : BitVec 32) (s : State) : Out :=
  .next (when (tapUp s) (fun s =>
    if isQuenched s then
      let (w, s) := regCapture s.assay.regAddr s
      (tap 0x17 (bitsOfWord (wd s.assay.regAddr) ++ bitsOfWord w) s).onAssay (fun x => { x with regAddr := a.toNat })
    else tap 0x17 (zeros 64) s) s)

/-- TRST_N: the TAP is in Test-Logic-Reset, with IDCODE in its instruction register. -/
def execTrstNLow (s : State) : Out := .next (when (tapUp s) (fun s => s.onAssay (fun a => { a with ir := 1 })) s)

end Sys2Proof.Machine
end

