-- ==== Sys2Proof/Machine/Loads.lean ====
section
/-! DEFINITION. Loads, stores and atomic instructions: which region takes an access, its alignment, and what it does
(R166 to R175, R262 to R268). -/
namespace Sys2Proof.Machine

/-! ### Regions (R171, R798) -/

/-- An address of Normal memory that a core may load from. -/
def normalLoad (c : Fin 6) (a : Nat) : Bool := inRom a || inFlash a || inSram a || (c.val == 5 && inKilnSram a)

/-- An address of Normal memory that a core may store to, and use atomics on (R174). -/
def normalStore (c : Fin 6) (a : Nat) : Bool := inSram a || (c.val == 5 && inKilnSram a)

/-- A load at an offset of the ledger read window (R262 to R264, R377, R378, R406). -/
def ledgerLoadAt (c : Fin 6) (off n : Nat) (s : State) : Ans × State :=
  if off < 0x1000 then
    if s.led.writing.any (fun w => w.target == .unit (off / 16)) then (.stall, s)
    else if s.led.tornUnits.contains (off / 16) then (.err, s)
    else (.ok (slice (unitBytes s (off / 16)) (off % 16) n), s)
  else if s.led.scanFrom.isSome then (.err, s)
  else (.ok (slice (slotBytes s ((off - 0x1000) / 256) (c.val == 5)) (off % 256) n), s)

def ledgerLoad (c : Fin 6) (a n : Nat) (s : State) : Ans × State := ledgerLoadAt c (a - 0x30000000) n s

/-- A word load from control space or the Kiln register block. -/
def regLoad (c : Fin 6) (a n : Nat) (s : State) : Ans × State :=
  if n != 4 then (.err, s)
  else match regRead (.core c) a s with
    | none => (.err, s)
    | some (w, s) => (.ok (leOfWord w), s)

/-- A load from core-private space; BUSY reads 0, because an operation is complete before the core goes on (R268). -/
def privLoad (c : Fin 6) (a n : Nat) (s : State) : Ans × State :=
  if a - 0xE0000000 < 4 then
    (.ok (slice (leOfWord (s.reg (regKey (.core c) rCPRIV_CACHE))) (a - 0xE0000000) n), s)
  else (.err, s)

/-- A core's aligned load of n bytes: refused by its region, or answered by its target (R168, R169, R171). -/
def load (c : Fin 6) (a n : Nat) (s : State) : Ans × State :=
  if normalLoad c a then coreRead c a n s
  else if inLedger a then ledgerLoad c a n s
  else if inControl a || (c.val == 5 && inKilnRegs a) then regLoad c a n s
  else if inOutbound a then readOutbound a n s
  else if inPrivate a then privLoad c a n s
  else (.err, s)

/-- A core's aligned store of bytes. -/
def store (c : Fin 6) (a : Nat) (bs : Bytes) (s : State) : Ans × State :=
  if normalStore c a then coreWrite c a bs s
  else if inControl a || (c.val == 5 && inKilnRegs a) then
    if bs.length != 4 then (.err, s)
    else match regWrite (.core c) a (wordOfLe bs) s with
      | none => (.err, s)
      | some t => (.ok [], t)
  else if inOutbound a then writeOutbound a bs s
  else if inPrivate a then
    if a - 0xE0000000 < 4 then (.ok [], privWrite c (a - 0xE0000000) bs s) else (.err, s)
  else (.err, s)

/-! ### Load and store instructions -/

/-- The effective address ra + sext(imm12) (R166). -/
def effAddr (k : Core) (ra : Fin 16) (imm12 : BitVec 12) : Word := k.get ra + sext12 imm12

/-- A load whose value `conv` makes from the bytes read. -/
def loadInstr (major n : Nat) (conv : Bytes → Word) (c : Fin 6) (rd ra : Fin 16) (imm12 : BitVec 12) (rsv : BitVec 6)
    (s : State) : Out :=
  let word := encM major rd ra imm12 rsv
  instruction c word (rsv == 0) (fun s =>
    let ea := effAddr (s.cores.get c) ra imm12
    if ea.toNat % n != 0 then raiseMisaligned c ea s
    else match load c ea.toNat n s with
      | (.ok bs, s) => s.onCore c (Core.write rd (conv bs))
      | (.stall, s) => stall c word s
      | (_, s) => raiseBus c ea s) s

/-- A store of the low n bytes of rd. The core goes on first, so that what the store does to this core, such as the reset of
a double fault or a stop, holds afterwards. -/
def storeInstr (major n : Nat) (c : Fin 6) (rd ra : Fin 16) (imm12 : BitVec 12) (rsv : BitVec 6) (s : State) : Out :=
  let word := encM major rd ra imm12 rsv
  instruction c word (rsv == 0) (fun s =>
    let k := s.cores.get c
    let ea := effAddr k ra imm12
    if ea.toNat % n != 0 then raiseMisaligned c ea s
    else match store c ea.toNat ((leOfWord (k.get rd)).take n) (s.onCore c Core.advance) with
      | (.ok _, t) => t
      | (.stall, t) => stall c word (t.setCore c k)
      | (_, t) => raiseBus c ea (t.setCore c k)) s

/-- Bytes sign-extended. -/
def sextBytes (bs : Bytes) : Word := BitVec.ofInt 32 (sgn (8 * bs.length) (leNat bs))

def execLdw (c : Fin 6) (rd ra : Fin 16) (imm12 : BitVec 12) (rsv : BitVec 6) (s : State) : Out :=
  loadInstr 0x18 4 wordOfLe c rd ra imm12 rsv s

def execLdh (c : Fin 6) (rd ra : Fin 16) (imm12 : BitVec 12) (rsv : BitVec 6) (s : State) : Out :=
  loadInstr 0x19 2 sextBytes c rd ra imm12 rsv s

def execLdhu (c : Fin 6) (rd ra : Fin 16) (imm12 : BitVec 12) (rsv : BitVec 6) (s : State) : Out :=
  loadInstr 0x1A 2 wordOfLe c rd ra imm12 rsv s

def execLdb (c : Fin 6) (rd ra : Fin 16) (imm12 : BitVec 12) (rsv : BitVec 6) (s : State) : Out :=
  loadInstr 0x1B 1 sextBytes c rd ra imm12 rsv s

def execLdbu (c : Fin 6) (rd ra : Fin 16) (imm12 : BitVec 12) (rsv : BitVec 6) (s : State) : Out :=
  loadInstr 0x1C 1 wordOfLe c rd ra imm12 rsv s

def execStw (c : Fin 6) (rd ra : Fin 16) (imm12 : BitVec 12) (rsv : BitVec 6) (s : State) : Out :=
  storeInstr 0x1D 4 c rd ra imm12 rsv s

def execSth (c : Fin 6) (rd ra : Fin 16) (imm12 : BitVec 12) (rsv : BitVec 6) (s : State) : Out :=
  storeInstr 0x1E 2 c rd ra imm12 rsv s

def execStb (c : Fin 6) (rd ra : Fin 16) (imm12 : BitVec 12) (rsv : BitVec 6) (s : State) : Out :=
  storeInstr 0x1F 1 c rd ra imm12 rsv s

/-! ### Atomic instructions (R173 to R175) -/

/-- One indivisible read and write of the word at ra; `new` gives the word to write, none for no write, and `flags` what FLG
becomes, both from the old word. -/
def atomic (fn : Nat) (new : Core → Word → Option Word) (flags : Core → Word → BitVec 4) (c : Fin 6) (rd ra rb : Fin 16)
    (rsv : BitVec 7) (f : Bool) (s : State) : Out :=
  let word := encA 0x04 rd ra rb fn rsv f
  instruction c word (legalA rsv && !f) (fun s =>
    let k := s.cores.get c
    let ea := k.get ra
    if ea.toNat % 4 != 0 then raiseMisaligned c ea s
    else if !normalStore c ea.toNat then raiseBus c ea s
    else match coreRead c ea.toNat 4 s with
      | (.ok bs, s) =>
        let old := wordOfLe bs
        match ((new k old).map (fun w => coreWrite c ea.toNat (leOfWord w) s)).getD (.ok [], s) with
        | (.ok _, s) => s.onCore c (fun k => { k.write rd old with flg := flags k old })
        | (_, s) => raiseBus c ea s
      | (.stall, s) => stall c word s
      | (_, s) => raiseBus c ea s) s

def execSwp (c : Fin 6) (rd ra rb : Fin 16) (rsv : BitVec 7) (f : Bool) (s : State) : Out :=
  atomic 0x00 (fun k _ => some (k.get rb)) (fun k _ => k.flg) c rd ra rb rsv f s

def execCas (c : Fin 6) (rd ra rb : Fin 16) (rsv : BitVec 7) (f : Bool) (s : State) : Out :=
  atomic 0x01 (fun k old => if old == k.get rd then some (k.get rb) else none) (fun k old => withZ k.flg (old == k.get rd))
    c rd ra rb rsv f s

def execFadd (c : Fin 6) (rd ra rb : Fin 16) (rsv : BitVec 7) (f : Bool) (s : State) : Out :=
  atomic 0x02 (fun k old => some (old + k.get rb)) (fun k _ => k.flg) c rd ra rb rsv f s

end Sys2Proof.Machine
end

