-- ==== Sys2Proof/Machine/Scrub.lean ====
section
/-! DEFINITION. The scrubber of shared SRAM (R273 to R278, R314). -/
namespace Sys2Proof.Machine

/-- The scrubber's period in ticks, none while it is stopped (R277). -/
def scrubPeriod (s : State) : Option Nat :=
  let r := s.fld rSYS_ECC_CTL 3 0
  if r = 0 then none else some (2 ^ (r + 6))

/-- A granule with one flipped bit, which a granule already in error keeps as it is. -/
def setFlip (g : Nat) (s : State) : State :=
  if s.granuleBad g || s.mem.flips.contains g then s else { s with mem := { s.mem with flips := g :: s.mem.flips } }

/-- The line of an address with an upset. -/
def upsetLine (a : Nat) (several : Bool) (l : Line) : Line :=
  if l.addr == lineOf a then (if several then { l with bad := true } else { l with flip := true }) else l

/-- What the environment has done to stored bits. The SECDED code covers shared SRAM, the Kiln's private SRAM, the data caches
and the Kiln core's instruction cache. -/
def applyUpset (upset : Upset) (s : State) : State :=
  match upset with
  | .none => s
  | .granule addr several =>
    let g := granule addr.toNat
    if !(inSram g || inKilnSram g) then s else if several then setBad g s else setFlip g s
  | .line c instr addr several =>
    if !instr then s.setLines c ((s.lines c).map (upsetLine addr.toNat several))
    else if c.val = 5 then s.setIlines c ((s.ilines c).map (upsetLine addr.toNat several))
    else s

/-- The scrubber reads its granule and goes on to the next one. -/
def scrubRead (upset : Upset) (s : State) : State :=
  let g := 0x20000000 + s.mem.scrubPos
  let s := correct g 8 (applyUpset upset s)
  let s := when (s.granuleBad g) (recordUe g 0x20) s
  { s with mem := { s.mem with scrubPos := (s.mem.scrubPos + 8) % 0x800000, scrubAt := s.clk.tb } }

def execScrub (upset : Upset) (s : State) : Out :=
  .next (when (s.live && (scrubPeriod s).any (fun p => s.mem.scrubAt + p ≤ s.clk.tb)) (scrubRead upset) s)

end Sys2Proof.Machine
end

