-- ==== Sys2Proof/Machine/Secure.lean ====
section
/-! DEFINITION. The secure extension of the Kiln core: KLD, KST and KZAP (R229 to R234, R807 to R813). -/
namespace Sys2Proof.Machine

/-- The slot that a handle names. -/
def handleSlot (h : Word) : Nat := h.toNat % 64

/-- The handle's generation is the slot's (R807, R808); bits above 15 belong to no handle. -/
def handleOk (s : State) (h : Word) : Bool := h.toNat / 64 == (s.slot (handleSlot h)).gen

/-- The engine that a key port belongs to uses keys for these USE bits: CIPHER bits 0 to 5 and 9, PKA 6 and 7, HASH 8
(R811). -/
def portUses (ch : Nat) : Nat :=
  if ch / 16 = 2 then 0x23F else if ch / 16 = 3 then 0xC0 else 0x100

/-- The key sizes that a KIN port expects: an AES key at CIPHER, 32 bytes at PKA and HASH (R810; log entry 33). -/
def portSizeOk (ch n : Nat) : Bool := if ch / 16 = 2 then n == 16 || n == 24 || n == 32 else n == 32

/-- The SUB of the KEY_FAULT of a KLD, none where the key may be copied (R232, R813). -/
def kldFault (s : State) (h : Word) (ch : Nat) : Option Nat :=
  let x := s.slot (handleSlot h)
  if !handleOk s h then some 1
  else if x.key.isNone then some 2
  else if handleSlot h = 2 || Nat.land x.use (portUses ch) = 0 then some 4
  else if !portSizeOk ch (x.key.getD []).length then some 5
  else none

/-- The SUB of the CHAN_FAULT of a key instruction on a channel that is not a key port of its kind (R201; log entry 33). -/
def keyChanFault (c : Fin 6) (ch : Nat) (want : Port) : Option Nat :=
  match portOf c ch with
  | none => some 1
  | some p => if p == want then none else some 2

def execKld (c : Fin 6) (rd ra : Fin 16) (aux : BitVec 10) (ch : BitVec 8) (s : State) : Out :=
  chanInstr 0x34 c rd ra aux ch (c.val == 5 && rd == 0 && aux == 0) (fun s =>
    let h := (s.cores.get c).get ra
    match keyChanFault c ch.toNat .keyIn with
    | some sub => raiseChan c ch sub s
    | none =>
      match kldFault s h ch.toNat with
      | some sub => raiseKey c h sub s
      | none =>
        let x := s.slot (handleSlot h)
        ({ s with kiln := { s.kiln with kin := ains s.kiln.kin ch.toNat (x.key.getD [], x.use) } }).onCore c Core.advance) s

/-- The SUB of the KEY_FAULT of a KST. -/
def kstFault (s : State) (h : Word) (ch : Nat) : Option Nat :=
  if !handleOk s h then some 1
  else if (aget? s.kiln.kout ch).isNone then some 2
  else if (s.slot (handleSlot h)).key.isSome then some 3
  else none

/-- The TYPE that KST sets from the size of the key; the keys of PKA are P-256 scalars (R810). -/
def kstType (ch n : Nat) : Nat := if ch / 16 = 3 then 3 else if n = 16 then 0 else if n = 24 then 1 else 2

def execKst (c : Fin 6) (rd ra : Fin 16) (aux : BitVec 10) (ch : BitVec 8) (s : State) : Out :=
  chanInstr 0x35 c rd ra aux ch (c.val == 5 && rd == 0 && aux == 0) (fun s =>
    let h := (s.cores.get c).get ra
    match keyChanFault c ch.toNat .keyOut with
    | some sub => raiseChan c ch sub s
    | none =>
      match kstFault s h ch.toNat with
      | some sub => raiseKey c h sub s
      | none =>
        let n := handleSlot h
        let key := (aget? s.kiln.kout ch.toNat).getD []
        let s := s.setSlot n { s.slot n with key := some key, type := kstType ch.toNat key.length }
        ({ s with kiln := { s.kiln with kout := adel s.kiln.kout ch.toNat } }).onCore c Core.advance) s

/-- The SUB of the KEY_FAULT of a KZAP (R232, R813). -/
def kzapFault (s : State) (h : Word) : Option Nat :=
  if !handleOk s h then some 1 else if fixedSlot (handleSlot h) then some 4 else none

def execKzap (c : Fin 6) (rd ra : Fin 16) (aux : BitVec 10) (ch : BitVec 8) (s : State) : Out :=
  chanInstr 0x36 c rd ra aux ch (c.val == 5 && aux == 0 && ch == 0) (fun s =>
    let h := (s.cores.get c).get ra
    match kzapFault s h with
    | some sub => raiseKey c h sub s
    | none =>
      let n := handleSlot h
      let s := zapSlot n s
      s.onCore c (Core.write rd (wd (handleOf s n)))) s

end Sys2Proof.Machine
end

