-- ==== Sys2Proof/Machine/Timed.lean ====
section
/-! DEFINITION. The timed extension of the field core: TAT, TIN and TMARK (R221 to R228). -/
namespace Sys2Proof.Machine

/-- The engines whose ports the timed extension reaches: FIELD, RANGE, ADC, NFC and ADIT. -/
def timedEngine (e : Nat) : Bool := e == 6 || e == 7 || e == 8 || e == 10 || e == 11

/-- A port of TAT: DIN or CTRL. -/
def tatPort (ch : Nat) : Bool := timedEngine (ch / 16) && (ch % 16 == 2 || ch % 16 == 4)

/-- A port of TIN: DOUT or STAT. -/
def tinPort (ch : Nat) : Bool := timedEngine (ch / 16) && (ch % 16 == 3 || ch % 16 == 5)

/-- The SUB of the CHAN_FAULT of TAT or TIN (R224). -/
def timedFault (c : Fin 6) (ch : Nat) (ok : Bool) : Option Nat :=
  match portOf c ch with
  | none => some 1
  | some _ => if ok then none else some 4

def State.timedQ (s : State) (ch : Nat) : List TimedWord := agetD s.chans.timed ch []

def State.setTimedQ (s : State) (ch : Nat) (q : List TimedWord) : State :=
  { s with chans := { s.chans with timed := asetD [] s.chans.timed ch q } }

/-- A word queued for its target tick; C tells that the target had passed on arrival (R222, R223). -/
def queueTimed (c : Fin 6) (ch : Nat) (w : Word) (eom : Bool) (target : Word) (s : State) : State :=
  let late := tickPassed target s.tbLo
  let s := s.setTimedQ ch (s.timedQ ch ++ [⟨w, eom, target, late, s.clk.tb⟩])
  s.onCore c (fun k => { k.advance with flg := withC (withV k.flg false) late })

def execTat (c : Fin 6) (rd ra : Fin 16) (aux : BitVec 10) (ch : BitVec 8) (s : State) : Out :=
  chanInstr 0x30 c rd ra aux ch (c.val == 4 && auxEom aux) (fun s =>
    let k := s.cores.get c
    match timedFault c ch.toNat (tatPort ch.toNat) with
    | some sub => raiseChan c ch sub s
    | none =>
      if s.flushes c ch.toNat then flushedSend c id s
      else if (s.timedQ ch.toNat).length < 4 then queueTimed c ch.toNat (k.get rd) (bit aux 0) (k.get ra) s
      else s.onCore c (fun k => { k with run := .blocked (.tat ch.toNat (k.get rd) (bit aux 0) (k.get ra)) })) s

/-- A blocked TAT finds room in the timed queue, or its engine's ports are flushed. -/
def execTatUnblock (c : Fin 6) (s : State) : Out :=
  let k := s.cores.get c
  .next (when (s.coreUp c && k.due == 0) (fun s =>
    match k.run with
    | .blocked (.tat ch w eom target) =>
      if s.flushes c ch then flushedSend c id s
      else if (s.timedQ ch).length < 4 then queueTimed c ch w eom target s
      else s
    | _ => s) s)

/-- The tick at which a timed word is applied: its target, or the first tick after its arrival when that had passed, as a
count of the whole timebase. -/
def applyTick (now : Nat) (t : TimedWord) : Nat :=
  if t.late then t.arrived + 1 else now - ((wd now) - t.target).toNat

/-- A timed word is due. -/
def timedDue (now : Nat) (t : TimedWord) : Bool := if t.late then t.arrived + 1 ≤ now else tickDue t.target (wd now)

/-- The due word with the earliest tick, the one queued first among equals. -/
def firstDue (now : Nat) (q : List TimedWord) : Option TimedWord :=
  (q.filter (timedDue now)).foldl (fun best t =>
    match best with
    | none => some t
    | some b => if applyTick now t < applyTick now b then some t else some b) none

/-- The port applies a timed word: it enters the channel with the tick of its application (R222, R223). The channel must have
room (log entry 32). -/
def execTatApply (ch : BitVec 8) (s : State) : Out :=
  let n := ch.toNat
  .next (when (s.live && tatPort n) (fun s =>
    match firstDue s.clk.tb (s.timedQ n) with
    | none => s
    | some t =>
      if discards n t.w then s.setTimedQ n ((s.timedQ n).erase t)
      else if !s.cRoom n then s
      else
        let s := s.setTimedQ n ((s.timedQ n).erase t)
        let c := s.chan n
        s.setChan n { c with q := c.q ++ [⟨t.w, t.eom, applyTick s.clk.tb t, 0⟩] }) s)

/-- The stamp that TIN writes (R225, R226). -/
def tinStamp (fine : Bool) (t : Nat × Nat) : Word := if fine then wd (1024 * t.1 + t.2) else wd t.1

def execTin (c : Fin 6) (rd ra : Fin 16) (aux : BitVec 10) (ch : BitVec 8) (s : State) : Out :=
  chanInstr 0x31 c rd ra aux ch (c.val == 4 && ra == 0 && auxEom aux) (fun s =>
    match timedFault c ch.toNat (tinPort ch.toNat) with
    | some sub => raiseChan c ch sub s
    | none =>
      let t := (s.chan ch.toNat).taken
      s.onCore c (fun k =>
        { k.write rd ((t.map (tinStamp (bit aux 0))).getD 0) with flg := withZ k.flg t.isSome })) s

/-- TMARK ends: rd the tick of release, C where the target had passed on arrival (R228). -/
def release (c : Fin 6) (rd : Fin 16) (late : Bool) (s : State) : State :=
  s.onCore c (fun k => { k.write rd s.tbLo with flg := withC k.flg late })

def execTmark (c : Fin 6) (rd ra : Fin 16) (aux : BitVec 10) (ch : BitVec 8) (s : State) : Out :=
  chanInstr 0x32 c rd ra aux ch (c.val == 4 && aux == 0 && ch == 0) (fun s =>
    let target := (s.cores.get c).get ra
    if tickDue target s.tbLo then release c rd (tickPassed target s.tbLo) s
    else s.onCore c (fun k => { k with run := .blocked (.tmark rd target false) })) s

def execTmarkRelease (c : Fin 6) (s : State) : Out :=
  let k := s.cores.get c
  .next (when (s.coreUp c && k.due == 0) (fun s =>
    match k.run with
    | .blocked (.tmark rd target late) => when (tickDue target s.tbLo) (release c rd late) s
    | _ => s) s)

end Sys2Proof.Machine
end

