-- ==== Sys2Proof/Machine/Dispatch.lean ====
section
/-! DEFINITION. Which meaning each command has: one arm for each constructor of Instr. -/
namespace Sys2Proof.Machine

/-- The effect of a command on everything but the queue. -/
def exec (i : Instr) (s : State) : Host.Outcome State Fault Refusal :=
  match i with
  | .supplyInvalid supply high outsideRatings => Sys2Proof.Machine.execSupplyInvalid supply high outsideRatings s
  | .supplyValid supply pins => Sys2Proof.Machine.execSupplyValid supply pins s
  | .alwaysOnPowerUp => Sys2Proof.Machine.execAlwaysOnPowerUp s
  | .alwaysOnLoss => Sys2Proof.Machine.execAlwaysOnLoss s
  | .pinReset => Sys2Proof.Machine.execPinReset s
  | .softwareReset who key => Sys2Proof.Machine.execSoftwareReset who key s
  | .watchdog => Sys2Proof.Machine.execWatchdog s
  | .watchdogEnable who value => Sys2Proof.Machine.execWatchdogEnable who value s
  | .kick who key => Sys2Proof.Machine.execKick who key s
  | .scanStall => Sys2Proof.Machine.execScanStall s
  | .tbLockLoss => Sys2Proof.Machine.execTbLockLoss s
  | .tbLock => Sys2Proof.Machine.execTbLock s
  | .tbRelock => Sys2Proof.Machine.execTbRelock s
  | .resetEnterScan resetNHigh hsel => Sys2Proof.Machine.execResetEnterScan resetNHigh hsel s
  | .ledgerScanDone => Sys2Proof.Machine.execLedgerScanDone s
  | .imageChosen => Sys2Proof.Machine.execImageChosen s
  | .kilnJudgement => Sys2Proof.Machine.execKilnJudgement s
  | .modeReqParked who key => Sys2Proof.Machine.execModeReqParked who key s
  | .modeReqAccess who key => Sys2Proof.Machine.execModeReqAccess who key s
  | .modeReqLockdown who key => Sys2Proof.Machine.execModeReqLockdown who key s
  | .sessionClose who mask => Sys2Proof.Machine.execSessionClose who mask s
  | .sessionOpen who mask => Sys2Proof.Machine.execSessionOpen who mask s
  | .approachTimeout => Sys2Proof.Machine.execApproachTimeout s
  | .grantExpiry session => Sys2Proof.Machine.execGrantExpiry session s
  | .serviceEnd => Sys2Proof.Machine.execServiceEnd s
  | .modeRecordWrite => Sys2Proof.Machine.execModeRecordWrite s
  | .commitWordVerified ok => Sys2Proof.Machine.execCommitWordVerified ok s
  | .unitWriteDone ok => Sys2Proof.Machine.execUnitWriteDone ok s
  | .quenchBallFall => Sys2Proof.Machine.execQuenchBallFall s
  | .quenchBallRise => Sys2Proof.Machine.execQuenchBallRise s
  | .quenchRequest who key => Sys2Proof.Machine.execQuenchRequest who key s
  | .coherentStop => Sys2Proof.Machine.execCoherentStop s
  | .quench update => Sys2Proof.Machine.execQuench update s
  | .thaw update => Sys2Proof.Machine.execThaw update s
  | .thawResume => Sys2Proof.Machine.execThawResume s
  | .bypass tdi => Sys2Proof.Machine.execBypass tdi s
  | .idcode => Sys2Proof.Machine.execIdcode s
  | .samplePreload cells => Sys2Proof.Machine.execSamplePreload cells s
  | .extest cells => Sys2Proof.Machine.execExtest cells s
  | .status => Sys2Proof.Machine.execStatus s
  | .sel n => Sys2Proof.Machine.execSel n s
  | .chain => Sys2Proof.Machine.execChain s
  | .addr v => Sys2Proof.Machine.execAddr v s
  | .sram => Sys2Proof.Machine.execSram s
  | .reg a => Sys2Proof.Machine.execReg a s
  | .trstNLow => Sys2Proof.Machine.execTrstNLow s
  | .tamper => Sys2Proof.Machine.execTamper s
  | .bank c rd ra imm12 => Sys2Proof.Machine.execBank c rd ra imm12 s
  | .t05 => Sys2Proof.Machine.execT05 s
  | .completionOfEntry => Sys2Proof.Machine.execCompletionOfEntry s
  | .wakeEvent => Sys2Proof.Machine.execWakeEvent s
  | .rtcWake => Sys2Proof.Machine.execRtcWake s
  | .hwake => Sys2Proof.Machine.execHwake s
  | .wakeComplete => Sys2Proof.Machine.execWakeComplete s
  | .sramInitDone => Sys2Proof.Machine.execSramInitDone s
  | .vcoreTargetWrite who value => Sys2Proof.Machine.execVcoreTargetWrite who value s
  | .buckStep => Sys2Proof.Machine.execBuckStep s
  | .vcoreSettled => Sys2Proof.Machine.execVcoreSettled s
  | .tbNowLo who => Sys2Proof.Machine.execTbNowLo who s
  | .rtcNowLo who => Sys2Proof.Machine.execRtcNowLo who s
  | .timerCompare c => Sys2Proof.Machine.execTimerCompare c s
  | .interrupt c => Sys2Proof.Machine.execInterrupt c s
  | .add c rd ra rb rsv f => Sys2Proof.Machine.execAdd c rd ra rb rsv f s
  | .sub c rd ra rb rsv f => Sys2Proof.Machine.execSub c rd ra rb rsv f s
  | .adc c rd ra rb rsv f => Sys2Proof.Machine.execAdc c rd ra rb rsv f s
  | .sbc c rd ra rb rsv f => Sys2Proof.Machine.execSbc c rd ra rb rsv f s
  | .and c rd ra rb rsv f => Sys2Proof.Machine.execAnd c rd ra rb rsv f s
  | .or c rd ra rb rsv f => Sys2Proof.Machine.execOr c rd ra rb rsv f s
  | .xor c rd ra rb rsv f => Sys2Proof.Machine.execXor c rd ra rb rsv f s
  | .andn c rd ra rb rsv f => Sys2Proof.Machine.execAndn c rd ra rb rsv f s
  | .shl c rd ra rb rsv f => Sys2Proof.Machine.execShl c rd ra rb rsv f s
  | .shr c rd ra rb rsv f => Sys2Proof.Machine.execShr c rd ra rb rsv f s
  | .sar c rd ra rb rsv f => Sys2Proof.Machine.execSar c rd ra rb rsv f s
  | .ror c rd ra rb rsv f => Sys2Proof.Machine.execRor c rd ra rb rsv f s
  | .slt c rd ra rb rsv f => Sys2Proof.Machine.execSlt c rd ra rb rsv f s
  | .sltu c rd ra rb rsv f => Sys2Proof.Machine.execSltu c rd ra rb rsv f s
  | .clz c rd ra rb rsv f => Sys2Proof.Machine.execClz c rd ra rb rsv f s
  | .sexb c rd ra rb rsv f => Sys2Proof.Machine.execSexb c rd ra rb rsv f s
  | .sexh c rd ra rb rsv f => Sys2Proof.Machine.execSexh c rd ra rb rsv f s
  | .mul c rd ra rb rsv f => Sys2Proof.Machine.execMul c rd ra rb rsv f s
  | .mulh c rd ra rb rsv f => Sys2Proof.Machine.execMulh c rd ra rb rsv f s
  | .mulhu c rd ra rb rsv f => Sys2Proof.Machine.execMulhu c rd ra rb rsv f s
  | .div c rd ra rb rsv f => Sys2Proof.Machine.execDiv c rd ra rb rsv f s
  | .divu c rd ra rb rsv f => Sys2Proof.Machine.execDivu c rd ra rb rsv f s
  | .rem c rd ra rb rsv f => Sys2Proof.Machine.execRem c rd ra rb rsv f s
  | .remu c rd ra rb rsv f => Sys2Proof.Machine.execRemu c rd ra rb rsv f s
  | .addi c rd ra imm12 rsv f => Sys2Proof.Machine.execAddi c rd ra imm12 rsv f s
  | .andi c rd ra imm12 rsv f => Sys2Proof.Machine.execAndi c rd ra imm12 rsv f s
  | .ori c rd ra imm12 rsv f => Sys2Proof.Machine.execOri c rd ra imm12 rsv f s
  | .xori c rd ra imm12 rsv f => Sys2Proof.Machine.execXori c rd ra imm12 rsv f s
  | .shli c rd ra imm12 rsv f => Sys2Proof.Machine.execShli c rd ra imm12 rsv f s
  | .shri c rd ra imm12 rsv f => Sys2Proof.Machine.execShri c rd ra imm12 rsv f s
  | .sari c rd ra imm12 rsv f => Sys2Proof.Machine.execSari c rd ra imm12 rsv f s
  | .rori c rd ra imm12 rsv f => Sys2Proof.Machine.execRori c rd ra imm12 rsv f s
  | .slti c rd ra imm12 rsv f => Sys2Proof.Machine.execSlti c rd ra imm12 rsv f s
  | .sltui c rd ra imm12 rsv f => Sys2Proof.Machine.execSltui c rd ra imm12 rsv f s
  | .movu c rd imm16 rsv f => Sys2Proof.Machine.execMovu c rd imm16 rsv f s
  | .orl c rd imm16 rsv f => Sys2Proof.Machine.execOrl c rd imm16 rsv f s
  | .subi c rd ra imm12 rsv f => Sys2Proof.Machine.execSubi c rd ra imm12 rsv f s
  | .adpc c rd imm16 rsv f => Sys2Proof.Machine.execAdpc c rd imm16 rsv f s
  | .ldw c rd ra imm12 rsv => Sys2Proof.Machine.execLdw c rd ra imm12 rsv s
  | .ldh c rd ra imm12 rsv => Sys2Proof.Machine.execLdh c rd ra imm12 rsv s
  | .ldhu c rd ra imm12 rsv => Sys2Proof.Machine.execLdhu c rd ra imm12 rsv s
  | .ldb c rd ra imm12 rsv => Sys2Proof.Machine.execLdb c rd ra imm12 rsv s
  | .ldbu c rd ra imm12 rsv => Sys2Proof.Machine.execLdbu c rd ra imm12 rsv s
  | .stw c rd ra imm12 rsv => Sys2Proof.Machine.execStw c rd ra imm12 rsv s
  | .sth c rd ra imm12 rsv => Sys2Proof.Machine.execSth c rd ra imm12 rsv s
  | .stb c rd ra imm12 rsv => Sys2Proof.Machine.execStb c rd ra imm12 rsv s
  | .swp c rd ra rb rsv f => Sys2Proof.Machine.execSwp c rd ra rb rsv f s
  | .cas c rd ra rb rsv f => Sys2Proof.Machine.execCas c rd ra rb rsv f s
  | .fadd c rd ra rb rsv f => Sys2Proof.Machine.execFadd c rd ra rb rsv f s
  | .bc c cond rsv off16 => Sys2Proof.Machine.execBc c cond rsv off16 s
  | .bz c ra rsv off16 => Sys2Proof.Machine.execBz c ra rsv off16 s
  | .bnz c ra rsv off16 => Sys2Proof.Machine.execBnz c ra rsv off16 s
  | .jmp c off24 rsv => Sys2Proof.Machine.execJmp c off24 rsv s
  | .call c off24 rsv => Sys2Proof.Machine.execCall c off24 rsv s
  | .jrl c rd ra rb fn rsv f => Sys2Proof.Machine.execJrl c rd ra rb fn rsv f s
  | .fence c rd ra imm12 => Sys2Proof.Machine.execFence c rd ra imm12 s
  | .rdf c rd ra imm12 => Sys2Proof.Machine.execRdf c rd ra imm12 s
  | .wrf c rd ra imm12 => Sys2Proof.Machine.execWrf c rd ra imm12 s
  | .crd c rd ra imm12 => Sys2Proof.Machine.execCrd c rd ra imm12 s
  | .cwr c rd ra imm12 => Sys2Proof.Machine.execCwr c rd ra imm12 s
  | .eret c rd ra imm12 => Sys2Proof.Machine.execEret c rd ra imm12 s
  | .trap c rd ra imm12 => Sys2Proof.Machine.execTrap c rd ra imm12 s
  | .snd c rd ra aux ch => Sys2Proof.Machine.execSnd c rd ra aux ch s
  | .sndUnblock c => Sys2Proof.Machine.execSndUnblock c s
  | .rcv c rd ra aux ch => Sys2Proof.Machine.execRcv c rd ra aux ch s
  | .rcvUnblock c => Sys2Proof.Machine.execRcvUnblock c s
  | .sndt c rd ra aux ch => Sys2Proof.Machine.execSndt c rd ra aux ch s
  | .rcvt c rd ra aux ch => Sys2Proof.Machine.execRcvt c rd ra aux ch s
  | .peek c rd ra aux ch => Sys2Proof.Machine.execPeek c rd ra aux ch s
  | .waite c rd ra aux ch => Sys2Proof.Machine.execWaite c rd ra aux ch s
  | .waiteUnblock c => Sys2Proof.Machine.execWaiteUnblock c s
  | .sig c rd ra aux ch => Sys2Proof.Machine.execSig c rd ra aux ch s
  | .tat c rd ra aux ch => Sys2Proof.Machine.execTat c rd ra aux ch s
  | .tatUnblock c => Sys2Proof.Machine.execTatUnblock c s
  | .tatApply ch => Sys2Proof.Machine.execTatApply ch s
  | .tin c rd ra aux ch => Sys2Proof.Machine.execTin c rd ra aux ch s
  | .tmark c rd ra aux ch => Sys2Proof.Machine.execTmark c rd ra aux ch s
  | .tmarkRelease c => Sys2Proof.Machine.execTmarkRelease c s
  | .kld c rd ra aux ch => Sys2Proof.Machine.execKld c rd ra aux ch s
  | .kst c rd ra aux ch => Sys2Proof.Machine.execKst c rd ra aux ch s
  | .kzap c rd ra aux ch => Sys2Proof.Machine.execKzap c rd ra aux ch s
  | .flushD c => Sys2Proof.Machine.execFlushD c s
  | .invI c => Sys2Proof.Machine.execInvI c s
  | .scrub upset => Sys2Proof.Machine.execScrub upset s
  | .xlateInvPage who ctx page => Sys2Proof.Machine.execXlateInvPage who ctx page s
  | .xlateInvContext who ctx => Sys2Proof.Machine.execXlateInvContext who ctx s
  | .xlateInvAll who => Sys2Proof.Machine.execXlateInvAll who s
  | .xlateInvDone => Sys2Proof.Machine.execXlateInvDone s
  | .program who key => Sys2Proof.Machine.execProgram who key s
  | .erase who key => Sys2Proof.Machine.execErase who key s
  | .suspend who key => Sys2Proof.Machine.execSuspend who key s
  | .flashResume who key => Sys2Proof.Machine.execFlashResume who key s
  | .flashDone failed => Sys2Proof.Machine.execFlashDone failed s
  | .rescan src => Sys2Proof.Machine.execRescan src s
  | .readCopy => Sys2Proof.Machine.execReadCopy s
  | .writeCopy => Sys2Proof.Machine.execWriteCopy s
  | .unitWrite => Sys2Proof.Machine.execUnitWrite s
  | .ledgerRead => Sys2Proof.Machine.execLedgerRead s
  | .ledgerWrite => Sys2Proof.Machine.execLedgerWrite s
  | .writeIf => Sys2Proof.Machine.execWriteIf s
  | .ledgerErase => Sys2Proof.Machine.execLedgerErase s
  | .quickWrite => Sys2Proof.Machine.execQuickWrite s
  | .raise => Sys2Proof.Machine.execRaise s
  | .qCreate who operand => Sys2Proof.Machine.execQCreate who operand s
  | .qDestroy who operand => Sys2Proof.Machine.execQDestroy who operand s
  | .qStop who operand => Sys2Proof.Machine.execQStop who operand s
  | .qStart who operand => Sys2Proof.Machine.execQStart who operand s
  | .qBind who operand => Sys2Proof.Machine.execQBind who operand s
  | .qQuery who operand => Sys2Proof.Machine.execQQuery who operand s
  | .bReg who operand => Sys2Proof.Machine.execBReg who operand s
  | .bUnreg who operand => Sys2Proof.Machine.execBUnreg who operand s
  | .eAlloc who operand => Sys2Proof.Machine.execEAlloc who operand s
  | .eFree who operand => Sys2Proof.Machine.execEFree who operand s
  | .eQuery who operand => Sys2Proof.Machine.execEQuery who operand s
  | .resume who operand => Sys2Proof.Machine.execResume who operand s
  | .doorbell who value => Sys2Proof.Machine.execDoorbell who value s
  | .descriptorFetch cage => Sys2Proof.Machine.execDescriptorFetch cage s
  | .engineGrant engine => Sys2Proof.Machine.execEngineGrant engine s
  | .dispatch cage => Sys2Proof.Machine.execDispatch cage s
  | .endAtFrontEnd cage => Sys2Proof.Machine.execEndAtFrontEnd cage s
  | .sliceEnd cage => Sys2Proof.Machine.execSliceEnd cage s
  | .doneWord engine => Sys2Proof.Machine.execDoneWord engine s
  | .waitTmo queue => Sys2Proof.Machine.execWaitTmo queue s
  | .timeout cage => Sys2Proof.Machine.execTimeout cage s
  | .hang engine => Sys2Proof.Machine.execHang engine s
  | .adcStart via => Sys2Proof.Machine.execAdcStart via s
  | .adcStop via => Sys2Proof.Machine.execAdcStop via s
  | .adcInject via => Sys2Proof.Machine.execAdcInject via s
  | .adcTrig rising => Sys2Proof.Machine.execAdcTrig rising s
  | .adcResult codes => Sys2Proof.Machine.execAdcResult codes s
  | .converged => Sys2Proof.Machine.execConverged s
  | .adcCalRestart who => Sys2Proof.Machine.execAdcCalRestart who s
  | .fieldStart => Sys2Proof.Machine.execFieldStart s
  | .fieldStop => Sys2Proof.Machine.execFieldStop s
  | .carrier => Sys2Proof.Machine.execCarrier s
  | .underrun => Sys2Proof.Machine.execUnderrun s
  | .maxon => Sys2Proof.Machine.execMaxon s
  | .telegramEnd => Sys2Proof.Machine.execTelegramEnd s
  | .measurementWindow amp phase => Sys2Proof.Machine.execMeasurementWindow amp phase s
  | .short ch => Sys2Proof.Machine.execShort ch s
  | .vbatLow low => Sys2Proof.Machine.execVbatLow low s
  | .capScan low high => Sys2Proof.Machine.execCapScan low high s
  | .uhfFrame ch sync frame power fine => Sys2Proof.Machine.execUhfFrame ch sync frame power fine s
  | .loadRbe => Sys2Proof.Machine.execLoadRbe s
  | .loadSts => Sys2Proof.Machine.execLoadSts s
  | .loadExpired => Sys2Proof.Machine.execLoadExpired s
  | .rbe => Sys2Proof.Machine.execRbe s
  | .round => Sys2Proof.Machine.execRound s
  | .lfZone => Sys2Proof.Machine.execLfZone s
  | .rangeStop => Sys2Proof.Machine.execRangeStop s
  | .cal => Sys2Proof.Machine.execCal s
  | .rangeResult meas => Sys2Proof.Machine.execRangeResult meas s
  | .hciTxd who value => Sys2Proof.Machine.execHciTxd who value s
  | .hciPacket => Sys2Proof.Machine.execHciPacket s
  | .muporSetBankAdvertising => Sys2Proof.Machine.execMuporSetBankAdvertising s
  | .rxpop who value => Sys2Proof.Machine.execRxpop who value s
  | .resync who value => Sys2Proof.Machine.execResync who value s
  | .bleRxPacket acl packet => Sys2Proof.Machine.execBleRxPacket acl packet s
  | .bleWake conn adv => Sys2Proof.Machine.execBleWake conn adv s
  | .fieldOn => Sys2Proof.Machine.execFieldOn s
  | .fieldOff => Sys2Proof.Machine.execFieldOff s
  | .tx => Sys2Proof.Machine.execTx s
  | .nfcStop => Sys2Proof.Machine.execNfcStop s
  | .nfcResponse began ended status lastBits coll response => Sys2Proof.Machine.execNfcResponse began ended status lastBits coll response s
  | .noResponse => Sys2Proof.Machine.execNoResponse s
  | .kattrWrite slot value => Sys2Proof.Machine.execKattrWrite slot value s
  | .encrypt => Sys2Proof.Machine.execEncrypt s
  | .decrypt => Sys2Proof.Machine.execDecrypt s
  | .update => Sys2Proof.Machine.execUpdate s
  | .save => Sys2Proof.Machine.execSave s
  | .restore => Sys2Proof.Machine.execRestore s
  | .free => Sys2Proof.Machine.execFree s
  | .genkey => Sys2Proof.Machine.execGenkey s
  | .unwrapKey => Sys2Proof.Machine.execUnwrapKey s
  | .wrapKey => Sys2Proof.Machine.execWrapKey s
  | .derive => Sys2Proof.Machine.execDerive s
  | .zap => Sys2Proof.Machine.execZap s
  | .fuseRead => Sys2Proof.Machine.execFuseRead s
  | .fuseWrite ok => Sys2Proof.Machine.execFuseWrite ok s
  | .fuseClose ok => Sys2Proof.Machine.execFuseClose ok s
  | .sign => Sys2Proof.Machine.execSign s
  | .verify => Sys2Proof.Machine.execVerify s
  | .ecdh => Sys2Proof.Machine.execEcdh s
  | .genkeyEc => Sys2Proof.Machine.execGenkeyEc s
  | .pubkey => Sys2Proof.Machine.execPubkey s
  | .attest => Sys2Proof.Machine.execAttest s
  | .sha256 => Sys2Proof.Machine.execSha256 s
  | .hmac => Sys2Proof.Machine.execHmac s
  | .hmacVerify => Sys2Proof.Machine.execHmacVerify s
  | .random => Sys2Proof.Machine.execRandom s
  | .entKat => Sys2Proof.Machine.execEntKat s
  | .entPattern => Sys2Proof.Machine.execEntPattern s
  | .credNonce => Sys2Proof.Machine.execCredNonce s
  | .credVerify => Sys2Proof.Machine.execCredVerify s
  | .ticketOpen => Sys2Proof.Machine.execTicketOpen s
  | .vmac => Sys2Proof.Machine.execVmac s
  | .tokenNonce => Sys2Proof.Machine.execTokenNonce s
  | .token => Sys2Proof.Machine.execToken s
  | .revoke => Sys2Proof.Machine.execRevoke s
  | .enrolBegin => Sys2Proof.Machine.execEnrolBegin s
  | .enrolOrigin => Sys2Proof.Machine.execEnrolOrigin s
  | .enrolKey => Sys2Proof.Machine.execEnrolKey s
  | .enrolCommit => Sys2Proof.Machine.execEnrolCommit s
  | .credErase => Sys2Proof.Machine.execCredErase s
  | .mateVehicle => Sys2Proof.Machine.execMateVehicle s
  | .trustSet => Sys2Proof.Machine.execTrustSet s
  | .satAuthReq => Sys2Proof.Machine.execSatAuthReq s
  | .satAuthCheck => Sys2Proof.Machine.execSatAuthCheck s
  | .satMateOffer => Sys2Proof.Machine.execSatMateOffer s
  | .satMateKey => Sys2Proof.Machine.execSatMateKey s
  | .satMateConfirm => Sys2Proof.Machine.execSatMateConfirm s
  | .satRoll => Sys2Proof.Machine.execSatRoll s
  | .satRollConfirm => Sys2Proof.Machine.execSatRollConfirm s
  | .crank => Sys2Proof.Machine.execCrank s
  | .mateEngine => Sys2Proof.Machine.execMateEngine s
  | .rollEngine => Sys2Proof.Machine.execRollEngine s
  | .challenge frame => Sys2Proof.Machine.execChallenge frame s
  | .crankDeadline => Sys2Proof.Machine.execCrankDeadline s
  | .mateReply frame => Sys2Proof.Machine.execMateReply frame s
  | .mateConfirm frame => Sys2Proof.Machine.execMateConfirm frame s
  | .mateFrameTimeout => Sys2Proof.Machine.execMateFrameTimeout s
  | .rollAck frame => Sys2Proof.Machine.execRollAck frame s
  | .rollRepeat => Sys2Proof.Machine.execRollRepeat s
  | .rollTimeout => Sys2Proof.Machine.execRollTimeout s
  | .presenceSupervision => Sys2Proof.Machine.execPresenceSupervision s
  | .holdOffEnd cls => Sys2Proof.Machine.execHoldOffEnd cls s
  | .vehicleTimeWrite => Sys2Proof.Machine.execVehicleTimeWrite s
  | .rawSampleBlock samples => Sys2Proof.Machine.execRawSampleBlock samples s
  | .drbgInstantiate => Sys2Proof.Machine.execDrbgInstantiate s
  | .generate => Sys2Proof.Machine.execGenerate s
  | .reseed who => Sys2Proof.Machine.execReseed who s
  | .restart who => Sys2Proof.Machine.execRestart who s
  | .clrCnt who => Sys2Proof.Machine.execClrCnt who s
  | .kat who => Sys2Proof.Machine.execKat who s
  | .katComplete pass => Sys2Proof.Machine.execKatComplete pass s
  | .entData who => Sys2Proof.Machine.execEntData who s
  | .canSend => Sys2Proof.Machine.execCanSend s
  | .linMaster => Sys2Proof.Machine.execLinMaster s
  | .ethSend => Sys2Proof.Machine.execEthSend s
  | .rxTake => Sys2Proof.Machine.execRxTake s
  | .canFrameEnd n outcome => Sys2Proof.Machine.execCanFrameEnd n outcome s
  | .canReceive n id flags af data ago ok => Sys2Proof.Machine.execCanReceive n id flags af data ago ok s
  | .busOffRecovery n => Sys2Proof.Machine.execBusOffRecovery n s
  | .recover who n => Sys2Proof.Machine.execRecover who n s
  | .linBreakStart n => Sys2Proof.Machine.execLinBreakStart n s
  | .linFrameEnd n response bitError => Sys2Proof.Machine.execLinFrameEnd n response bitError s
  | .dominant n => Sys2Proof.Machine.execDominant n s
  | .wakeRx n => Sys2Proof.Machine.execWakeRx n s
  | .ethReceive port frame fcs ago fine => Sys2Proof.Machine.execEthReceive port frame fcs ago fine s
  | .ethEgressDone port fine => Sys2Proof.Machine.execEthEgressDone port fine s
  | .ageing => Sys2Proof.Machine.execAgeing s
  | .linkChange port linked => Sys2Proof.Machine.execLinkChange port linked s
  | .heartbeat p => Sys2Proof.Machine.execHeartbeat p s
  | .aditReply frame crc => Sys2Proof.Machine.execAditReply frame crc s
  | .attemptFailed => Sys2Proof.Machine.execAttemptFailed s
  | .probe p => Sys2Proof.Machine.execProbe p s
  | .rebindExpiry p => Sys2Proof.Machine.execRebindExpiry p s
  | .rebind who p => Sys2Proof.Machine.execRebind who p s
  | .bind who p => Sys2Proof.Machine.execBind who p s
  | .untrust who p => Sys2Proof.Machine.execUntrust who p s
  | .release who p => Sys2Proof.Machine.execRelease who p s
  | .aditSend => Sys2Proof.Machine.execAditSend s
  | .enum => Sys2Proof.Machine.execEnum s
  | .auth => Sys2Proof.Machine.execAuth s
  | .aditMate => Sys2Proof.Machine.execAditMate s
  | .aditRoll => Sys2Proof.Machine.execAditRoll s
  | .aditWake => Sys2Proof.Machine.execAditWake s
  | .serialRead uart quad len addr hcrc => Sys2Proof.Machine.execSerialRead uart quad len addr hcrc s
  | .serialWrite uart quad addr words hcrc dcrc => Sys2Proof.Machine.execSerialWrite uart quad addr words hcrc dcrc s
  | .rescueInstall src => Sys2Proof.Machine.execRescueInstall src s
  | .pcieAccess tgt len write => Sys2Proof.Machine.execPcieAccess tgt len write s
  | .perstN => Sys2Proof.Machine.execPerstN s
  | .pcieLinkChange linked speed => Sys2Proof.Machine.execPcieLinkChange linked speed s
  | .pending quad req => Sys2Proof.Machine.execPending quad req s
  | .spiCut quad req => Sys2Proof.Machine.execSpiCut quad req s
  | .uartErr => Sys2Proof.Machine.execUartErr s
  | .registerWrite who addr value => Sys2Proof.Machine.execRegisterWrite who addr value s
  | .rawSample sample => Sys2Proof.Machine.execRawSample sample s
  | .suspendTakesEffect => Sys2Proof.Machine.execSuspendTakesEffect s
  | .rtcOscillatorRuns => Sys2Proof.Machine.execRtcOscillatorRuns s
  | .fieldOnTakesEffect => Sys2Proof.Machine.execFieldOnTakesEffect s
  | .deferredTxStart => Sys2Proof.Machine.execDeferredTxStart s

end Sys2Proof.Machine
end

