-- ==== Sys2Proof/Machine/Tick.lean ====
section
/-! DEFINITION. What one timebase tick does when no command waits: time passes, and what the blocks do at a tick happens
(log entry 2). A deadline takes its effect with the command that names it. -/
namespace Sys2Proof.Machine

/-- TB_NOW advances while the timebase runs, and the RTC counts one period for every 121 875/64 ticks (R128, R129). -/
def passTime (s : State) : State :=
  let f := s.clk.frac + 64
  let s := { s with clk := { s.clk with
    tb := if s.clk.running then (s.clk.tb + 1) % 2 ^ 64 else s.clk.tb
    frac := if f < 121875 then f else f - 121875 } }
  if f < 121875 then s else rtcEdge s

/-- What the blocks do at a tick by themselves: what the ADC receives or stops, the LF chips, the words that the RANGE, ADIT and ledger hardware takes from its
channels, and the NFC reader. -/
def blockTick (s : State) : State :=
  when s.up (drainLedgerDin 4) (when s.timed (fun s => uhfTick (nfcTick (drainAdit 4 (drainLoad 4 (capOverlap (lfTick (adcTick1 s))))))) s)

/-- The device with no command waiting passes one tick. -/
def idle (s : State) : State :=
  let t := passTime s
  blockTick (when (t.clk.rtc != s.clk.rtc) (fun t => bleEdge (capEdge t)) t)

end Sys2Proof.Machine
end

