-- ==== Sys2Proof/Safety.lean ====
section
/-! DEFINITION. Safety: the terms in which the statements speak of a state. `Inv` holds the shape that every state the
device reaches has; `Fuses.Keeps` says what no command may undo; `Fetches` says when a
core stands before an instruction, `memByte` what a byte of memory reads as, and `Notified` what telling cores and hosts of an
event changes. -/
namespace Sys2Proof.Machine

/-! ### Tables in canonical form -/

/-- A table whose keys rise strictly and which lists no value equal to what its key reads as when it is not listed. -/
def tableWf {α : Type} [DecidableEq α] (d : Nat → α) (m : Assoc α) : Bool :=
  asorted m && m.all (fun e => !(decide (e.2 = d e.1)))

/-- The canonical form of memory: equal memories are equal data. -/
def Memory.wf (m : Memory) : Bool := tableWf memDefault m.cells && asorted m.host

/-- The canonical form of the register file. -/
def regsWf (m : Assoc Word) : Bool := tableWf regReset m

/-! ### Cores (R148, R236, R237) -/

/-- A word whose bits under the mask are 0. -/
def clear (w mask : Word) : Bool := w &&& mask == 0

/-- g0 holds 0 (R148); pc and cepc name instruction words; cvec [7:0] and cstat [15:6] are reserved and hold 0 (R236); the
Kiln core's cvec is 0x0000_C000 (R237). -/
def coreOk (c : Fin 6) (k : Core) : Bool :=
  k.g.get 0 == 0 && clear k.pc 3 && clear k.cepc 3 && clear k.cvec 0xFF && clear k.cstat 0xFFC0 &&
  (c.val != 5 || k.cvec == 0xC000)

/-! ### Channels (R199, R222) -/

/-- A channel buffers at most four words, and a timed queue holds at most four. -/
def chansOk (x : Chans) : Bool :=
  x.ch.all (fun e => e.2.q.length ≤ 4) && x.timed.all (fun e => e.2.length ≤ 4)

/-! ### Cache lines (R286, R287) -/

/-- A data-cache line that may differ from memory, or that only this cache holds. -/
def Line.owned (l : Line) : Bool := l.st != .shared

/-- An EXCLUSIVE or MODIFIED line is the only cached copy of it, and lies in shared SRAM. -/
def OwnedAlone (m : Memory) : Prop :=
  ∀ (c : Fin 6) (l : Line), l ∈ m.dcache.get c → l.owned = true →
    inSram l.addr = true ∧ l.addr % 64 = 0 ∧
    (∀ d : Fin 6, d ≠ c → ∀ x ∈ m.dcache.get d, x.addr ≠ l.addr) ∧
    ∀ d : Fin 6, ∀ x ∈ m.icache.get d, x.addr ≠ l.addr

/-- A data cache holds no line twice, and every line has 64 bytes (R285). -/
def linesWf (ls : List Line) : Prop := (ls.map Line.addr).Nodup ∧ ∀ l ∈ ls, l.data.length = 64 ∧ l.addr % 64 = 0

/-- A line of shared SRAM that is not MODIFIED holds what SRAM holds (R286, R291). -/
def CleanLines (m : Memory) : Prop :=
  ∀ (c : Fin 6) (l : Line), l ∈ m.dcache.get c → l.st ≠ .modified → inSram l.addr = true →
    ∀ i, i < 64 → l.data.getD i 0 = agetD m.cells (l.addr + i) (memDefault (l.addr + i))

/-- The caches: what is owned is alone, every data cache is well-formed, and a clean line holds what memory holds. -/
def Coherent (m : Memory) : Prop := OwnedAlone m ∧ (∀ c : Fin 6, linesWf (m.dcache.get c)) ∧ CleanLines m

/-! ### Fuses (R820 to R824) -/

/-- What is being programmed was not programmed before. -/
def fusesOk (f : Fuses) : Bool :=
  match f.running with
  | some (.bdAddr _) => f.bdAddr == .unprogrammed
  | some (.hash k _) => f.hashes.get k == .unprogrammed
  | _ => true

/-- A fuse field keeps what it holds once it holds anything. -/
def FuseField.Keeps (a b : FuseField) : Prop := a ≠ .unprogrammed → b = a

/-- No fuse field that is programmed or torn changes, and FACTORY_CLOSED never opens again. -/
structure Fuses.Keeps (f g : Fuses) : Prop where
  devSeed : f.devSeed.Keeps g.devSeed
  devId : f.devId.Keeps g.devId
  devCert : f.devCert.Keeps g.devCert
  bdAddr : f.bdAddr.Keeps g.bdAddr
  hashes : ∀ k : Fin 2, (f.hashes.get k).Keeps (g.hashes.get k)
  closed : f.closed = true → g.closed = true

/-! ### The invariant -/

/-- What every state of the device has. -/
structure Inv (s : State) : Prop where
  mem : s.mem.wf = true
  regs : regsWf s.regs = true
  cores : ∀ c : Fin 6, coreOk c (s.cores.get c) = true
  chans : chansOk s.chans = true
  caches : Coherent s.mem
  fuses : fusesOk s.fuses = true


/-! ### Cores before an instruction -/

/-- Core c stands before an instruction: what it depends on operates (R29), the core executes, no interrupt is due (R219), its pc's region
permits fetches (R172), and the fetch is answered. `t` is the state after the fetch. -/
def Fetches (c : Fin 6) (s t : State) : Prop :=
  s.coreUp c = true ∧ (s.cores.get c).run = .running ∧ (s.cores.get c).due = 0 ∧
  fetchable (c) (s.cores.get c).pc.toNat = true ∧ ∃ bs, coreFetch c (s.cores.get c).pc.toNat s = (.ok bs, t)

/-- The instructions of the cores, BANK apart: the core, the instruction word (R153 to R158) and whether the word is free of
what raises ILLEGAL: an extension that the core lacks, and a reserved field, an unused field, a function or an F bit that is
not what its instruction table requires (R147, R156, R207, R221, R229, R236). -/
def coreInstr : Instr → Option (Fin 6 × Word × Bool)
  | .add c rd ra rb rsv f => some (c, encA 0x01 rd ra rb 0x00 rsv f, rsv == 0)
  | .sub c rd ra rb rsv f => some (c, encA 0x01 rd ra rb 0x01 rsv f, rsv == 0)
  | .adc c rd ra rb rsv f => some (c, encA 0x01 rd ra rb 0x02 rsv f, rsv == 0)
  | .sbc c rd ra rb rsv f => some (c, encA 0x01 rd ra rb 0x03 rsv f, rsv == 0)
  | .and c rd ra rb rsv f => some (c, encA 0x01 rd ra rb 0x04 rsv f, rsv == 0)
  | .or c rd ra rb rsv f => some (c, encA 0x01 rd ra rb 0x05 rsv f, rsv == 0)
  | .xor c rd ra rb rsv f => some (c, encA 0x01 rd ra rb 0x06 rsv f, rsv == 0)
  | .andn c rd ra rb rsv f => some (c, encA 0x01 rd ra rb 0x07 rsv f, rsv == 0)
  | .shl c rd ra rb rsv f => some (c, encA 0x01 rd ra rb 0x08 rsv f, rsv == 0)
  | .shr c rd ra rb rsv f => some (c, encA 0x01 rd ra rb 0x09 rsv f, rsv == 0)
  | .sar c rd ra rb rsv f => some (c, encA 0x01 rd ra rb 0x0A rsv f, rsv == 0)
  | .ror c rd ra rb rsv f => some (c, encA 0x01 rd ra rb 0x0B rsv f, rsv == 0)
  | .slt c rd ra rb rsv f => some (c, encA 0x01 rd ra rb 0x0C rsv f, rsv == 0)
  | .sltu c rd ra rb rsv f => some (c, encA 0x01 rd ra rb 0x0D rsv f, rsv == 0)
  | .clz c rd ra rb rsv f => some (c, encA 0x01 rd ra rb 0x0E rsv f, rsv == 0 && rb == 0)
  | .sexb c rd ra rb rsv f => some (c, encA 0x01 rd ra rb 0x0F rsv f, rsv == 0 && rb == 0)
  | .sexh c rd ra rb rsv f => some (c, encA 0x01 rd ra rb 0x10 rsv f, rsv == 0 && rb == 0)
  | .mul c rd ra rb rsv f => some (c, encA 0x02 rd ra rb 0x00 rsv f, rsv == 0)
  | .mulh c rd ra rb rsv f => some (c, encA 0x02 rd ra rb 0x01 rsv f, rsv == 0)
  | .mulhu c rd ra rb rsv f => some (c, encA 0x02 rd ra rb 0x02 rsv f, rsv == 0)
  | .div c rd ra rb rsv f => some (c, encA 0x02 rd ra rb 0x03 rsv f, rsv == 0)
  | .divu c rd ra rb rsv f => some (c, encA 0x02 rd ra rb 0x04 rsv f, rsv == 0)
  | .rem c rd ra rb rsv f => some (c, encA 0x02 rd ra rb 0x05 rsv f, rsv == 0)
  | .remu c rd ra rb rsv f => some (c, encA 0x02 rd ra rb 0x06 rsv f, rsv == 0)
  | .jrl c rd ra rb fn rsv f => some (c, encA 0x03 rd ra rb fn.toNat rsv f, rsv == 0 && rb == 0 && fn == 0 && !f)
  | .swp c rd ra rb rsv f => some (c, encA 0x04 rd ra rb 0x00 rsv f, rsv == 0 && !f)
  | .cas c rd ra rb rsv f => some (c, encA 0x04 rd ra rb 0x01 rsv f, rsv == 0 && !f)
  | .fadd c rd ra rb rsv f => some (c, encA 0x04 rd ra rb 0x02 rsv f, rsv == 0 && !f)
  | .addi c rd ra imm12 rsv f => some (c, encI 0x08 rd ra imm12 rsv f, rsv == 0)
  | .andi c rd ra imm12 rsv f => some (c, encI 0x09 rd ra imm12 rsv f, rsv == 0)
  | .ori c rd ra imm12 rsv f => some (c, encI 0x0A rd ra imm12 rsv f, rsv == 0)
  | .xori c rd ra imm12 rsv f => some (c, encI 0x0B rd ra imm12 rsv f, rsv == 0)
  | .shli c rd ra imm12 rsv f => some (c, encI 0x0C rd ra imm12 rsv f, rsv == 0 && imm12.toNat < 32)
  | .shri c rd ra imm12 rsv f => some (c, encI 0x0D rd ra imm12 rsv f, rsv == 0 && imm12.toNat < 32)
  | .sari c rd ra imm12 rsv f => some (c, encI 0x0E rd ra imm12 rsv f, rsv == 0 && imm12.toNat < 32)
  | .rori c rd ra imm12 rsv f => some (c, encI 0x0F rd ra imm12 rsv f, rsv == 0 && imm12.toNat < 32)
  | .slti c rd ra imm12 rsv f => some (c, encI 0x10 rd ra imm12 rsv f, rsv == 0)
  | .sltui c rd ra imm12 rsv f => some (c, encI 0x11 rd ra imm12 rsv f, rsv == 0)
  | .movu c rd imm16 rsv f => some (c, encI16 0x12 rd imm16 rsv f, rsv == 0)
  | .orl c rd imm16 rsv f => some (c, encI16 0x13 rd imm16 rsv f, rsv == 0)
  | .subi c rd ra imm12 rsv f => some (c, encI 0x14 rd ra imm12 rsv f, rsv == 0)
  | .adpc c rd imm16 rsv f => some (c, encI16 0x15 rd imm16 rsv f, rsv == 0 && !f)
  | .ldw c rd ra imm12 rsv => some (c, encM 0x18 rd ra imm12 rsv, rsv == 0)
  | .ldh c rd ra imm12 rsv => some (c, encM 0x19 rd ra imm12 rsv, rsv == 0)
  | .ldhu c rd ra imm12 rsv => some (c, encM 0x1A rd ra imm12 rsv, rsv == 0)
  | .ldb c rd ra imm12 rsv => some (c, encM 0x1B rd ra imm12 rsv, rsv == 0)
  | .ldbu c rd ra imm12 rsv => some (c, encM 0x1C rd ra imm12 rsv, rsv == 0)
  | .stw c rd ra imm12 rsv => some (c, encM 0x1D rd ra imm12 rsv, rsv == 0)
  | .sth c rd ra imm12 rsv => some (c, encM 0x1E rd ra imm12 rsv, rsv == 0)
  | .stb c rd ra imm12 rsv => some (c, encM 0x1F rd ra imm12 rsv, rsv == 0)
  | .bc c cond rsv off16 => some (c, encB 0x20 cond.toNat rsv off16, rsv == 0 && cond != 0xF)
  | .bz c ra rsv off16 => some (c, encB 0x21 ra.val rsv off16, rsv == 0)
  | .bnz c ra rsv off16 => some (c, encB 0x22 ra.val rsv off16, rsv == 0)
  | .jmp c off24 rsv => some (c, encJ 0x24 off24 rsv, rsv == 0)
  | .call c off24 rsv => some (c, encJ 0x25 off24 rsv, rsv == 0)
  | .snd c rd ra aux ch => some (c, encC 0x28 rd ra aux ch, rd == 0 && aux.toNat < 2)
  | .rcv c rd ra aux ch => some (c, encC 0x29 rd ra aux ch, ra == 0 && aux == 0)
  | .sndt c rd ra aux ch => some (c, encC 0x2A rd ra aux ch, rd == 0 && aux.toNat < 2)
  | .rcvt c rd ra aux ch => some (c, encC 0x2B rd ra aux ch, ra == 0 && aux == 0)
  | .peek c rd ra aux ch => some (c, encC 0x2C rd ra aux ch, ra == 0 && aux == 0)
  | .waite c rd ra aux ch => some (c, encC 0x2D rd ra aux ch, aux.toNat < 2 && ch == 0)
  | .sig c rd ra aux ch => some (c, encC 0x2E rd ra aux ch, rd == 0 && ra == 0 && aux == 0 && ch.toNat < 6)
  | .tat c rd ra aux ch => some (c, encC 0x30 rd ra aux ch, c.val == 4 && aux.toNat < 2)
  | .tin c rd ra aux ch => some (c, encC 0x31 rd ra aux ch, c.val == 4 && ra == 0 && aux.toNat < 2)
  | .tmark c rd ra aux ch => some (c, encC 0x32 rd ra aux ch, c.val == 4 && aux == 0 && ch == 0)
  | .kld c rd ra aux ch => some (c, encC 0x34 rd ra aux ch, c.val == 5 && rd == 0 && aux == 0)
  | .kst c rd ra aux ch => some (c, encC 0x35 rd ra aux ch, c.val == 5 && rd == 0 && aux == 0)
  | .kzap c rd ra aux ch => some (c, encC 0x36 rd ra aux ch, c.val == 5 && aux == 0 && ch == 0)
  | .fence c rd ra imm12 => some (c, encS 0x00 rd ra imm12, rd == 0 && ra == 0 && imm12.toNat < 32)
  | .crd c rd ra imm12 => some (c, encS 0x01 rd ra imm12, ra == 0 && imm12.toNat < 7)
  | .cwr c rd ra imm12 => some (c, encS 0x02 rd ra imm12, rd == 0 && (imm12 == 0 || (imm12 == 1 && c.val != 5) || imm12 == 2 || imm12 == 6))
  | .eret c rd ra imm12 => some (c, encS 0x03 rd ra imm12, rd == 0 && ra == 0 && imm12 == 0)
  | .trap c rd ra imm12 => some (c, encS 0x04 rd ra imm12, rd == 0 && ra == 0)
  | .rdf c rd ra imm12 => some (c, encS 0x08 rd ra imm12, ra == 0 && imm12 == 0)
  | .wrf c rd ra imm12 => some (c, encS 0x09 rd ra imm12, rd == 0 && imm12 == 0)
  | _ => none

/-- What a register instruction leaves in its core: rd written, FLG replaced, the next word. -/
def Core.result (k : Core) (rd : Fin 16) (v : Word) (flg : BitVec 4) : Core :=
  { Core.put rd v k with pc := k.pc + 4, flg := flg, run := .running }

/-- FLG after an operation with F at 0 or 1 (R159): V and C as given, N and Z from the result. -/
def namedVCZN (f : Bool) (old : BitVec 4) (v c : Bool) (r : Word) : BitVec 4 :=
  if f then packFlags v c (decide (r.toInt < 0)) (r == 0) else old

/-- FLG after an operation that names Z and N alone. -/
def namedZN (f : Bool) (old : BitVec 4) (r : Word) : BitVec 4 := namedVCZN f old (flagV old) (flagC old) r

/-- cstat on the entry to a handler (R242): PIE takes IE, PEXC takes EXC, IE is 0 and EXC is 1; every other bit stays. -/
def entryStat (st : Word) : Word := (st &&& 0xFFFFFFF0) ||| ((st <<< 1) &&& 0xA) ||| 1

/-- cstat after ERET (R235): IE takes PIE and EXC takes PEXC. -/
def eretStat (st : Word) : Word := (st &&& 0xFFFFFFFA) ||| ((st >>> 1) &&& 5)

/-- A core that has taken an exception of its present instruction (R240, R242). -/
def Core.excepted (k : Core) (cause bad : Word) : Core :=
  { k with cepc := k.pc, cstat := entryStat k.cstat, ccause := cause, cbad := bad, pc := k.cvec + 0x20, run := .running }

/-- A core that goes on at an address. -/
def Core.goesTo (k : Core) (a : Word) : Core := { k with pc := a, run := .running }

/-- A core that is not handling an exception or an interrupt. -/
def Core.plain (k : Core) : Bool := !bit k.cstat 0

/-! ### Memory as the cores see it -/

/-- The MODIFIED line that covers an address, in whichever data cache holds it (R286). -/
def State.dirty (s : State) (a : Nat) : Option Line :=
  allCores.findSome? (fun c => (s.lines c).find? (fun l => l.st == .modified && l.addr == lineOf a))

/-- One byte of memory as a coherent read finds it: from the MODIFIED line that covers it, else from memory itself (R291). -/
def memByte (s : State) (a : Nat) : Byte :=
  match s.dirty a with
  | some l => l.data.getD (a - lineOf a) 0
  | none => readByte s a

/-- Every byte of memory reads the same. -/
def SameBytes (s t : State) : Prop := ∀ x, memByte t x = memByte s x

/-- The bytes from a on read as `bs`, and every other byte of memory as before. -/
def StoredAt (a : Nat) (bs : Bytes) (s t : State) : Prop :=
  ∀ x, memByte t x = if a ≤ x ∧ x < a + bs.length then bs.getD (x - a) 0 else memByte s x

/-- The registers in which errors of memory are recorded (R273, R274). -/
def eccKeys : List Nat := [rSYS_ECC_STAT, rSYS_ECC_ADDR]

/-- t is s but for stored bytes, check bits and cached lines, the record of memory errors and the event latches that report them: what an access changes
besides the core that makes it (R273 to R276, R285). -/
structure MemOnly (s t : State) : Prop where
  rest : t = { s with mem := t.mem, regs := t.regs, cores := t.cores }
  kept : t.mem.clearing = s.mem.clearing ∧ t.mem.tlb = s.mem.tlb ∧ t.mem.host = s.mem.host
  regs : ∀ k, k ∉ eccKeys → t.reg k = s.reg k
  cores : ∀ c, ∃ e, t.cores.get c = { s.cores.get c with e := (s.cores.get c).e ||| e }

/-! ### Events and vectors -/

/-- Where a register is a HOSTIF_PEND copy, in which a vector raised on a serial interface waits (R1045). -/
def pendKeys : List Nat := hostReqs.map (fun r => hostKey r rHOSTIF_PEND)

/-- t is s with cores and hosts told of events: bits set in event latches, vectors raised on host interfaces, and nothing
else. -/
structure Notified (s t : State) : Prop where
  rest : t = { s with cores := t.cores, regs := t.regs, host := t.host, mem := { s.mem with host := t.mem.host } }
  cores : ∀ c, ∃ e, t.cores.get c = { s.cores.get c with e := (s.cores.get c).e ||| e }
  regs : ∀ k, k ∉ pendKeys → t.reg k = s.reg k
  host : t.host = { s.host with pba := t.host.pba, lastMsix := t.host.lastMsix }

/-! ### Commands of the engines that the Kiln runtime serves (R204, R446, R447, R805, R826) -/

/-- The runtime serves, and the CMD port of engine e names a descriptor image with this OP; t is the state with its word
taken. -/
def Serves (e op : Nat) (img : Bytes) (s t : State) : Prop :=
  s.kilnUp = true ∧ s.fuses.running = none ∧ cmdImage e s = some img ∧ imgOp img = op ∧ t = cDrop (cmdKey e) s

/-- A handle names this slot, which holds a key of the generation and of the command's owner (R826). -/
def Names (img : Bytes) (h : Nat) (s : State) (x : Slot) : Prop :=
  s.slot (h % 64) = x ∧ x.key ≠ none ∧ h / 64 = x.gen ∧ x.owner = imgOwner img

/-- Buffer k of the command can be read, or written, from its start over n bytes (R447). -/
def Readable (img : Bytes) (k n : Nat) : Prop := n = 0 ∨ (n ≤ (imgBuf img k).len ∧ (imgBuf img k).access % 2 = 1)
def Writable (img : Bytes) (k n : Nat) : Prop := n = 0 ∨ (n ≤ (imgBuf img k).len ∧ (imgBuf img k).access / 2 % 2 = 1)

end Sys2Proof.Machine
end

