-- ==== Sys2Proof/Certificates/Slice0/Obligations.lean ====
section
/-! DEFINITION. The statements about the model, each with the rules of spec/ that it states. -/

section

open Sys2Proof Sys2Proof.Machine

/-- A step takes the front command and runs it on the state with the rest of the queue (the model's form of a block, log entry 1). -/
def Obligations.StepRunsFront : Prop :=
  ∀ (s : State) (c : Instr) (cs : List Instr), s.pending = c :: cs → step s = exec c { s with pending := cs }

/-- The idle step is the model's own (DESIGN CHOICE, log entry 2): one tick of the timebase passes. -/
def Obligations.IdleStep : Prop :=
  ∀ s : State, s.pending = [] →
    (∃ t, step s = .next t ∧ t.pending = []) ∧
    (s.up = false → s.clk.frac + 64 < 121875 → step s = .next { s with clk := { s.clk with
      tb := if s.clk.running then (s.clk.tb + 1) % 2 ^ 64 else s.clk.tb, frac := s.clk.frac + 64 } })

/-- The state after reset. -/
def Obligations.ResetState : Prop :=
  State.reset.pending = [] ∧ State.reset.sys.mode = .scan ∧ State.reset.sys.prev = none ∧ State.reset.sys.mated = false ∧
  State.reset.sys.active = 0 ∧ State.reset.sys.lockCause = 0 ∧
  (State.reset.cores.get 0).run = .running ∧ (State.reset.cores.get 0).pc = 0 ∧
  (State.reset.cores.get 5).run = .running ∧ (State.reset.cores.get 5).pc = 0xC000 ∧ (State.reset.cores.get 5).cvec = 0xC000 ∧
  (∀ c : Fin 6, c ≠ 0 → c ≠ 5 → (State.reset.cores.get c).run = .reset) ∧
  (∀ (c : Fin 6) (r : Fin 16), (State.reset.cores.get c).get r = 0 ∧ (State.reset.cores.get c).flg = 0) ∧
  (∀ k, k ≠ rSYS_EPOCH → State.reset.reg k = regReset k) ∧ State.reset.reg rSYS_EPOCH = 1 ∧
  State.reset.front.queues = [] ∧ State.reset.front.buffers = [] ∧ State.reset.front.edges = [] ∧
  (∀ n, (State.reset.slot n).key = none) ∧ (∀ k, (State.reset.chan k).q = []) ∧ State.reset.led.scanFrom ≠ none

/-- The invariant holds at reset. -/
def Obligations.ResetInv : Prop := Inv State.reset

/-- Whatever command stands in front, and for the idle tick (R148, R199, R222, R236, R237, R285 to R287, R820). -/
def Obligations.StepKeepsInv : Prop :=
  ∀ s t : State, Inv s → step s = .next t → Inv t

/-- A fuse is programmed once (R818 to R824). -/
def Obligations.StepKeepsFuses : Prop :=
  ∀ s t : State, Inv s → step s = .next t → s.fuses.Keeps t.fuses

/-- exec changes everything but the queue. -/
def Obligations.CommandKeepsQueue : Prop :=
  ∀ (i : Instr) (s t : State), exec i s = .next t → t.pending = s.pending

/-- What a fetch leaves: the frame that the statements about instructions rest on. -/
def Obligations.FetchFrame : Prop :=
  ∀ (c : Fin 6) (s t : State), Inv s → Fetches c s t →
    MemOnly s t ∧ (∃ e, t.cores.get c = { s.cores.get c with e := e }) ∧ SameBytes s t ∧ Inv t

/-- The register file (R148). -/
def Obligations.RegisterFileReadsLastWrite : Prop :=
  ∀ (k : Machine.Core) (rd r : Fin 16) (v : Word),
    k.get 0 = 0 ∧ Machine.Core.put 0 v k = k ∧
    (rd ≠ 0 → (Machine.Core.put rd v k).get rd = v) ∧ (r ≠ rd → (Machine.Core.put rd v k).get r = k.get r)

/-- ADD, SUB, ADC and SBC (R160, R161): rd takes the sum or difference modulo 2^32; with F at 1, V tells that the exact signed
result does not fit, C the carry out (of a subtraction: that nothing is borrowed), N and Z the result; with F at 0 FLG stays.
Nothing else of the state after the fetch changes. A write of g0 is discarded by `Core.put`. -/
def Obligations.AddSubResults : Prop :=
  ∀ (c : Fin 6) (s t : State) (rd ra rb : Fin 16) (f : Bool), Fetches c s t →
    let k := t.cores.get c
    let a := k.get ra
    let b := k.get rb
    let cy := b2n (flagC k.flg)
    let done := fun (r : Word) (exact : Int) (carry : Prop) [Decidable carry] =>
      (Host.Outcome.next (t.setCore c (k.result rd r (namedVCZN f k.flg (decide (r.toInt ≠ exact)) (decide carry) r))) : Out)
    exec (.add c rd ra rb 0 f) s = done (a + b) (a.toInt + b.toInt) (2 ^ 32 ≤ a.toNat + b.toNat) ∧
    exec (.adc c rd ra rb 0 f) s = done (a + b + wd cy) (a.toInt + b.toInt + cy) (2 ^ 32 ≤ a.toNat + b.toNat + cy) ∧
    exec (.sub c rd ra rb 0 f) s = done (a - b) (a.toInt - b.toInt) (b.toNat ≤ a.toNat) ∧
    exec (.sbc c rd ra rb 0 f) s = done (a - b - wd (1 - cy)) (a.toInt - b.toInt - (1 - cy)) (b.toNat + (1 - cy) ≤ a.toNat)

/-- The ALU functions that name Z and N (R159, R161). CLZ is the number n of R161's row: 2^(31 - n) is the weight of the highest
bit that is set, and 32 for 0. -/
def Obligations.LogicResults : Prop :=
  ∀ (c : Fin 6) (s t : State) (rd ra rb : Fin 16) (f : Bool), Fetches c s t →
    let k := t.cores.get c
    let a := k.get ra
    let b := k.get rb
    let done := fun (r : Word) => (Host.Outcome.next (t.setCore c (k.result rd r (namedZN f k.flg r))) : Out)
    exec (.and c rd ra rb 0 f) s = done (a &&& b) ∧ exec (.or c rd ra rb 0 f) s = done (a ||| b) ∧
    exec (.xor c rd ra rb 0 f) s = done (a ^^^ b) ∧ exec (.andn c rd ra rb 0 f) s = done (a &&& ~~~b) ∧
    exec (.slt c rd ra rb 0 f) s = done (if a.toInt < b.toInt then 1 else 0) ∧
    exec (.sltu c rd ra rb 0 f) s = done (if a.toNat < b.toNat then 1 else 0) ∧
    (∃ n : Nat, exec (.clz c rd ra 0 0 f) s = done (wd n) ∧
      (if a = 0 then n = 32 else n < 32 ∧ 2 ^ (31 - n) ≤ a.toNat ∧ a.toNat < 2 ^ (32 - n))) ∧
    exec (.sexb c rd ra 0 0 f) s = done (BitVec.ofInt 32 (sgn 8 a.toNat)) ∧
    exec (.sexh c rd ra 0 0 f) s = done (BitVec.ofInt 32 (sgn 16 a.toNat))

/-- The shifts (R161, R165): the amount n is the low five bits of rb, or an immediate below 32. -/
def Obligations.ShiftResults : Prop :=
  ∀ (c : Fin 6) (s t : State) (rd ra rb : Fin 16) (imm : BitVec 12) (f : Bool), Fetches c s t → imm.toNat < 32 →
    let k := t.cores.get c
    let a := k.get ra
    let done := fun (n : Nat) (r : Word) (carry : Bool) =>
      (Host.Outcome.next (t.setCore c
        (k.result rd r (namedVCZN f k.flg (flagV k.flg) (if n = 0 then flagC k.flg else carry) r))) : Out)
    let shl := fun n : Nat => done n (wd (a.toNat * 2 ^ n)) (decide (a.toNat / 2 ^ (32 - n) % 2 = 1))
    let shr := fun n : Nat => done n (wd (a.toNat / 2 ^ n)) (decide (a.toNat / 2 ^ (n - 1) % 2 = 1))
    let sar := fun n : Nat => done n (BitVec.ofInt 32 (a.toInt / 2 ^ n)) (decide (a.toNat / 2 ^ (n - 1) % 2 = 1))
    let ror := fun n : Nat =>
      let r := wd (a.toNat / 2 ^ n + a.toNat % 2 ^ n * 2 ^ (32 - n))
      done n r (decide (r.toInt < 0))
    let b := (k.get rb).toNat % 32
    (exec (.shl c rd ra rb 0 f) s = shl b ∧ exec (.shli c rd ra imm 0 f) s = shl imm.toNat) ∧
    (exec (.shr c rd ra rb 0 f) s = shr b ∧ exec (.shri c rd ra imm 0 f) s = shr imm.toNat) ∧
    (exec (.sar c rd ra rb 0 f) s = sar b ∧ exec (.sari c rd ra imm 0 f) s = sar imm.toNat) ∧
    (exec (.ror c rd ra rb 0 f) s = ror b ∧ exec (.rori c rd ra imm 0 f) s = ror imm.toNat)

/-- The MULDIV major (R162, R163). A signed division of 0x8000_0000 by 0xFFFF_FFFF is stated by itself. -/
def Obligations.MulDivResults : Prop :=
  ∀ (c : Fin 6) (s t : State) (rd ra rb : Fin 16) (f : Bool), Fetches c s t →
    let k := t.cores.get c
    let a := k.get ra
    let b := k.get rb
    let done := fun (v : Bool) (r : Word) =>
      (Host.Outcome.next (t.setCore c (k.result rd r (namedVCZN f k.flg v (flagC k.flg) r))) : Out)
    exec (.mul c rd ra rb 0 f) s = done (flagV k.flg) (wd (a.toNat * b.toNat)) ∧
    exec (.mulh c rd ra rb 0 f) s = done (flagV k.flg) (BitVec.ofInt 32 (a.toInt * b.toInt / 2 ^ 32)) ∧
    exec (.mulhu c rd ra rb 0 f) s = done (flagV k.flg) (wd (a.toNat * b.toNat / 2 ^ 32)) ∧
    (b = 0 →
      exec (.div c rd ra rb 0 f) s = done true 0xFFFFFFFF ∧ exec (.divu c rd ra rb 0 f) s = done true 0xFFFFFFFF ∧
      exec (.rem c rd ra rb 0 f) s = done true a ∧ exec (.remu c rd ra rb 0 f) s = done true a) ∧
    (a = 0x80000000 → b = 0xFFFFFFFF →
      exec (.div c rd ra rb 0 f) s = done true 0x80000000 ∧ exec (.rem c rd ra rb 0 f) s = done true 0) ∧
    (b ≠ 0 →
      exec (.divu c rd ra rb 0 f) s = done false (wd (a.toNat / b.toNat)) ∧
      exec (.remu c rd ra rb 0 f) s = done false (wd (a.toNat % b.toNat)) ∧
      (¬(a = 0x80000000 ∧ b = 0xFFFFFFFF) →
        exec (.div c rd ra rb 0 f) s = done false (BitVec.ofInt 32 (a.toInt.tdiv b.toInt)) ∧
        exec (.rem c rd ra rb 0 f) s = done false (BitVec.ofInt 32 (a.toInt.tmod b.toInt))))

/-- The immediate instructions other than shifts (R165). -/
def Obligations.ImmediateResults : Prop :=
  ∀ (c : Fin 6) (s t : State) (rd ra : Fin 16) (imm : BitVec 12) (imm16 : BitVec 16) (f : Bool), Fetches c s t →
    let k := t.cores.get c
    let a := k.get ra
    let i := BitVec.ofInt 32 imm.toInt
    let z := wd imm.toNat
    let next := fun (v cy : Bool) (r : Word) => (Host.Outcome.next (t.setCore c (k.result rd r (namedVCZN f k.flg v cy r))) : Out)
    let plain := next (flagV k.flg) (flagC k.flg)
    exec (.addi c rd ra imm 0 f) s = next (decide ((a + i).toInt ≠ a.toInt + imm.toInt)) (decide (2 ^ 32 ≤ a.toNat + i.toNat)) (a + i) ∧
    exec (.subi c rd ra imm 0 f) s = next (decide ((a - i).toInt ≠ a.toInt - imm.toInt)) (decide (i.toNat ≤ a.toNat)) (a - i) ∧
    exec (.andi c rd ra imm 0 f) s = plain (a &&& z) ∧ exec (.ori c rd ra imm 0 f) s = plain (a ||| z) ∧
    exec (.xori c rd ra imm 0 f) s = plain (a ^^^ z) ∧
    exec (.slti c rd ra imm 0 f) s = plain (if a.toInt < imm.toInt then 1 else 0) ∧
    exec (.sltui c rd ra imm 0 f) s = plain (if a.toNat < i.toNat then 1 else 0) ∧
    exec (.movu c rd imm16 0 f) s = plain (wd (imm16.toNat * 2 ^ 16)) ∧
    exec (.orl c rd imm16 0 f) s = plain (k.get rd ||| wd imm16.toNat) ∧
    exec (.adpc c rd imm16 0 false) s = .next (t.setCore c (k.result rd (k.pc + BitVec.ofInt 32 (4 * imm16.toInt)) k.flg))

/-- An instruction word that is not legal (R156, R229, R236): ILLEGAL and nothing else. -/
def Obligations.IllegalRaises : Prop :=
  ∀ (i : Instr) (c : Fin 6) (w : Word) (s t : State), coreInstr i = some (c, w, false) → Fetches c s t →
    (t.cores.get c).plain = true → exec i s = .next (t.setCore c ((t.cores.get c).excepted 1 w))

/-- A fetch from a region that refuses fetches (R172). -/
def Obligations.FetchRefusedRaises : Prop :=
  ∀ (i : Instr) (c : Fin 6) (w : Word) (l : Bool) (s : State), coreInstr i = some (c, w, l) → s.coreUp c = true →
    (s.cores.get c).run = .running → (s.cores.get c).due = 0 → fetchable c (s.cores.get c).pc.toNat = false →
    (s.cores.get c).plain = true → exec i s = .next (s.setCore c ((s.cores.get c).excepted 3 (s.cores.get c).pc))

/-- A double fault (R244). A second request before the reset keeps the first of the lowest cause, which `mergeReset` says. -/
def Obligations.DoubleFaultEffect : Prop :=
  ∀ (i : Instr) (c : Fin 6) (w : Word) (s t : State), coreInstr i = some (c, w, false) → Fetches c s t →
    (t.cores.get c).plain = false →
    (c.val = 0 ∨ c.val = 5 → ∃ u, exec i s = .next u ∧ u.cores = t.cores ∧ u.mem = t.mem ∧ u.chans = s.chans ∧ u.live = false ∧
      u.pwr.resetReq = some ⟨7, c.val, s.clk.rtc⟩) ∧
    (c.val ≠ 0 → c.val ≠ 5 → (c.val = 4 → s.lf.run = none) → (∀ e ∈ servedBy c, s.dispatched e = none) → (∀ e ∈ s.front.queues, e.2.guilty = none) →
      ∃ u, exec i s = .next u ∧ u.pwr = s.pwr ∧ (u.cores.get c).run = .running ∧ (u.cores.get c).pc = (t.cores.get c).cvec ∧
        (u.cores.get c).cvec = (t.cores.get c).cvec ∧ (u.cores.get c).cstat = 0 ∧ (u.cores.get c).flg = 0 ∧
        (∀ r : Fin 16, (u.cores.get c).get r = 0) ∧ (u.cores.get c).e &&& 0xFAFF = 0 ∧
        ∀ d, d ≠ c → ∃ m, u.cores.get d = { t.cores.get d with e := (t.cores.get d).e ||| m })

/-- INTERRUPT (R219, R220, R242): the lowest event of E that IMASK enables. E is not cleared. -/
def Obligations.InterruptTaken : Prop :=
  ∀ (c : Fin 6) (s : State) (n : Nat),
    let k := s.cores.get c
    s.coreUp c = true → (k.run = .running ∨ ∃ b, k.run = .blocked b ∧ b ≠ .ledgerAck) → bit k.cstat 2 = true →
    n < 16 → (bit k.e n = true ∧ bit k.cstat (16 + n) = true) → (∀ m, m < n → ¬(bit k.e m = true ∧ bit k.cstat (16 + m) = true)) →
    exec (.interrupt c) s = .next (s.setCore c { k with
      cepc := k.pc, cstat := entryStat k.cstat, ccause := wd (0x80000000 + n), pc := k.cvec + 0x40, run := .running })

/-- Branches and jumps (R176, R177) whose target can be fetched. Conditions 2n + 1 negate conditions 2n, but 14 always holds. -/
def Obligations.BranchResults : Prop :=
  ∀ (c : Fin 6) (s t : State) (rd ra : Fin 16) (cond : BitVec 4) (o : BitVec 16) (far : BitVec 24), Fetches c s t →
    let k := t.cores.get c
    let next := fun k : Core => (Host.Outcome.next (t.setCore c k) : Out)
    let near := k.pc + BitVec.ofInt 32 (4 * o.toInt)
    let away := k.pc + BitVec.ofInt 32 (4 * far.toInt)
    let z := bit k.flg 0
    let n := bit k.flg 1
    let cy := bit k.flg 2
    let v := bit k.flg 3
    let even := match cond.toNat / 2 with
      | 0 => z | 1 => cy | 2 => n | 3 => v | 4 => cy && !z | 5 => n == v | 6 => !z && (n == v) | _ => true
    let holds := if cond.toNat % 2 = 1 then !even else even
    (fetchable c near.toNat = true →
      (cond ≠ 0xF → exec (.bc c cond 0 o) s = next (if holds then k.goesTo near else k.goesTo (k.pc + 4))) ∧
      exec (.bz c ra 0 o) s = next (if k.get ra = 0 then k.goesTo near else k.goesTo (k.pc + 4)) ∧
      exec (.bnz c ra 0 o) s = next (if k.get ra = 0 then k.goesTo (k.pc + 4) else k.goesTo near)) ∧
    (fetchable c away.toNat = true →
      exec (.jmp c far 0) s = next (k.goesTo away) ∧
      exec (.call c far 0) s = next ((Core.put 14 (k.pc + 4) k).goesTo away)) ∧
    ((k.get ra).toNat % 4 = 0 → fetchable c (k.get ra).toNat = true →
      exec (.jrl c rd ra 0 0 0 false) s = next ((Core.put rd (k.pc + 4) k).goesTo (k.get ra)))

/-- Jumps that end in an exception (R172, R178, R241). -/
def Obligations.BranchFaults : Prop :=
  ∀ (c : Fin 6) (s t : State) (rd ra : Fin 16) (o : BitVec 16) (far : BitVec 24), Fetches c s t →
    (t.cores.get c).plain = true →
    let k := t.cores.get c
    let lost := fun (k : Core) (a : Word) =>
      (Host.Outcome.next (t.setCore c (if k.due = 0 then (k.goesTo a).excepted 3 a else k.goesTo a)) : Out)
    let near := k.pc + BitVec.ofInt 32 (4 * o.toInt)
    let away := k.pc + BitVec.ofInt 32 (4 * far.toInt)
    (fetchable c near.toNat = false →
      exec (.bc c 14 0 o) s = lost k near ∧ (k.get ra = 0 → exec (.bz c ra 0 o) s = lost k near) ∧
      (k.get ra ≠ 0 → exec (.bnz c ra 0 o) s = lost k near)) ∧
    (fetchable c away.toNat = false →
      exec (.jmp c far 0) s = lost k away ∧ exec (.call c far 0) s = lost (Core.put 14 (k.pc + 4) k) away) ∧
    ((k.get ra).toNat % 4 = 0 → fetchable c (k.get ra).toNat = false →
      exec (.jrl c rd ra 0 0 0 false) s = lost (Core.put rd (k.pc + 4) k) (k.get ra)) ∧
    ((k.get ra).toNat % 4 ≠ 0 → exec (.jrl c rd ra 0 0 0 false) s = .next (t.setCore c (k.excepted 2 (k.get ra))))

/-- The SYS functions but BANK (R179, R235 to R238). A compare for a tick that has passed fires one tick later, with TLATE. -/
def Obligations.SysResults : Prop :=
  ∀ (c : Fin 6) (s t : State) (rd ra : Fin 16) (imm : BitVec 12), Fetches c s t →
    let k := t.cores.get c
    let next := fun k : Core => (Host.Outcome.next (t.setCore c k) : Out)
    let read := fun v : Word => next (k.result rd v k.flg)
    let v := k.get ra
    let on := k.pc + 4
    let now := wd t.clk.tb
    let fired : Core := if bit k.cstat 4 = true ∧ (k.cmp - now).toInt ≤ 0 then
      { k with e := k.e ||| 1, cstat := setBit (setBit k.cstat 4 false) 5 k.cmpLate } else k
    (imm.toNat < 32 → exec (.fence c 0 0 imm) s = next (k.goesTo on)) ∧
    exec (.rdf c rd 0 0) s = read (wd k.flg.toNat) ∧
    exec (.wrf c 0 ra 0) s = next { k.goesTo on with flg := BitVec.ofNat 4 v.toNat } ∧
    (exec (.crd c rd 0 0) s = read k.cstat ∧ exec (.crd c rd 0 1) s = read k.cvec ∧ exec (.crd c rd 0 2) s = read k.cepc ∧
      exec (.crd c rd 0 3) s = read k.ccause ∧ exec (.crd c rd 0 4) s = read k.cbad ∧ exec (.crd c rd 0 6) s = read now ∧
      exec (.crd c rd 0 5) s = read (wd (0x100 + (if c = 4 then 0x10 else if c = 5 then 0x20 else 0) + c.val))) ∧
    (exec (.cwr c 0 ra 0) s = next { k.goesTo on with
        cstat := (v &&& 0xFFFF000F) ||| (k.cstat &&& 0x20) ||| (k.cstat &&& v &&& 0x10) } ∧
      (c ≠ 5 → exec (.cwr c 0 ra 1) s = next { k.goesTo on with cvec := v &&& 0xFFFFFF00 }) ∧
      exec (.cwr c 0 ra 2) s = next { k.goesTo on with cepc := v &&& 0xFFFFFFFC } ∧
      (¬ (v - now).toInt < 0 →
        exec (.cwr c 0 ra 6) s = next { fired.goesTo on with cmp := v, cmpLate := false, cstat := setBit fired.cstat 4 true }) ∧
      ((v - now).toInt < 0 →
        exec (.cwr c 0 ra 6) s = next { fired.goesTo on with cmp := now + 1, cmpLate := true, cstat := setBit fired.cstat 4 true })) ∧
    (fetchable c k.cepc.toNat = true →
      exec (.eret c 0 0 0) s = next { k with pc := k.cepc, cstat := eretStat k.cstat, run := .running }) ∧
    (k.plain = true → exec (.trap c 0 0 imm) s = next (k.excepted 4 (wd imm.toNat)))

/-- TIMER_COMPARE (R238) and BANK (R245 to R247). -/
def Obligations.TimerAndBank : Prop :=
  (∀ (c : Fin 6) (s : State), s.live = true →
    let k := s.cores.get c
    k.run ≠ .reset → bit k.cstat 4 = true → (k.cmp - wd s.clk.tb).toInt ≤ 0 →
    exec (.timerCompare c) s = .next (s.setCore c { k with
      e := k.e ||| 1, cstat := setBit (setBit k.cstat 4 false) 5 k.cmpLate })) ∧
  (∀ s t : State, Fetches 0 s t →
    let ready := (s.sys.mode = .unmated ∨ s.sys.mode = .parked ∨ s.sys.mode = .lockdown) ∧ s.sys.active = 0 ∧
      (∀ g : Fin 8, (s.cage g).disp = none) ∧
      ∀ c : Fin 6, c ≠ 0 → (s.cores.get c).run = .banked ∨ (s.cores.get c).run = .reset
    let k := t.cores.get 0
    (ready → exec (.bank 0 0 0 0) s =
      .next { t.setCore 0 { k with run := .banked } with pwr := { s.pwr with entering := true } }) ∧
    (¬ ready → ∃ u, exec (.bank 0 0 0 0) s = .next u ∧ Notified ((t.setCore 0 { k.goesTo (k.pc + 4) with
      flg := packFlags (bit k.flg 3) (bit k.flg 2) (bit k.flg 1) false }).setRbit rSYS_MODE_EVT 2 true) u)) ∧
  (∀ (c : Fin 6) (s t : State), c ≠ 0 → (c = 5 → bankAsked s = true ∧ kilnIdle s = true) → Fetches c s t →
    let k := t.cores.get c
    ∃ u, exec (.bank c 0 0 0) s = .next u ∧
      u = { t.setCore c (if bit k.e 2 && !s.pwr.entering then k.goesTo (k.pc + 4) else { k with run := .banked }) with chans := u.chans } ∧
      u.chans.timed = s.chans.timed.filter (fun e => !(servedBy c).contains (e.1 / 16)) ∧ u.chans.flushed = s.chans.flushed ∧
      (∀ x ∈ coreChans c, (s.chan x).back = [] → (u.chan x).q = []) ∧ ∀ x, x ∉ coreChans c → u.chan x = s.chan x)

/-- Loads (R166, R170, R171). `load` is the access to the region that ea lies in; a load to g0 makes its access and discards
the value, as `Core.put` does. -/
def Obligations.LoadResults : Prop :=
  ∀ (c : Fin 6) (s t u : State) (rd ra : Fin 16) (imm : BitVec 12) (bs : Bytes), Fetches c s t →
    let ea := (t.cores.get c).get ra + BitVec.ofInt 32 imm.toInt
    let done := fun v : Word => (Host.Outcome.next (u.setCore c ((u.cores.get c).result rd v (u.cores.get c).flg)) : Out)
    (ea.toNat % 4 = 0 → load c ea.toNat 4 t = (.ok bs, u) → exec (.ldw c rd ra imm 0) s = done (wd (leNat bs))) ∧
    (ea.toNat % 2 = 0 → load c ea.toNat 2 t = (.ok bs, u) → bs.length = 2 →
      exec (.ldh c rd ra imm 0) s = done (BitVec.ofInt 32 (sgn 16 (leNat bs)))) ∧
    (ea.toNat % 2 = 0 → load c ea.toNat 2 t = (.ok bs, u) → exec (.ldhu c rd ra imm 0) s = done (wd (leNat bs))) ∧
    (load c ea.toNat 1 t = (.ok bs, u) → bs.length = 1 →
      exec (.ldb c rd ra imm 0) s = done (BitVec.ofInt 32 (sgn 8 (leNat bs)))) ∧
    (load c ea.toNat 1 t = (.ok bs, u) → exec (.ldbu c rd ra imm 0) s = done (wd (leNat bs))) ∧
    (∀ n, Inv s → normalStore c ea.toNat = true → (n = 1 ∨ n = 2 ∨ n = 4) → ea.toNat % n = 0 →
      load c ea.toNat n t = (.ok bs, u) →
      bs = (List.range n).map (fun i => memByte s (ea.toNat + i)) ∧ SameBytes s u ∧ MemOnly s u)

/-- Stores (R166, R171). `memByte` is the model's coherent read of one byte; the bytes stored to are computed from ea. -/
def Obligations.StoreResults : Prop :=
  ∀ (c : Fin 6) (s t : State) (rd ra : Fin 16) (imm : BitVec 12), Fetches c s t →
    let k := t.cores.get c
    let ea := k.get ra + BitVec.ofInt 32 imm.toInt
    let on := t.setCore c (k.goesTo (k.pc + 4))
    let stores := fun (i : Instr) (w : Word) (n : Nat) => ea.toNat % n = 0 →
      let stored := (leOfWord (k.get rd)).take n
      (∀ b u, store c ea.toNat stored on = (.ok b, u) → exec i s = .next u ∧
        (Inv s → normalStore c ea.toNat = true → StoredAt ea.toNat stored s u ∧ MemOnly on u)) ∧
      (∀ u, store c ea.toNat stored on = (.stall, u) → exec i s = .next (u.setCore c { k with run := .stalled w })) ∧
      (normalStore c ea.toNat = true → t.mem.clearing = none → (∀ d, ∀ l ∈ t.lines d, l.bad = false) →
        ∃ b u, store c ea.toNat stored on = (.ok b, u))
    stores (.stw c rd ra imm 0) (encM 0x1D rd ra imm 0) 4 ∧ stores (.sth c rd ra imm 0) (encM 0x1E rd ra imm 0) 2 ∧
      stores (.stb c rd ra imm 0) (encM 0x1F rd ra imm 0) 1

/-- The exceptions of accesses (R167 to R169, R174, R197). -/
def Obligations.AccessFaults : Prop :=
  ∀ (c : Fin 6) (s t : State) (rd ra rb : Fin 16) (imm : BitVec 12), Fetches c s t → (t.cores.get c).plain = true →
    let k := t.cores.get c
    let ea := k.get ra + BitVec.ofInt 32 imm.toInt
    let a := ea.toNat
    let raises := fun (code : Word) (at_ : Word) => (Host.Outcome.next (t.setCore c (k.excepted code at_)) : Out)
    let mapped := inControl a || inOutbound a || inPrivate a || (c.val == 5 && inKilnRegs a)
    (a % 4 ≠ 0 → exec (.ldw c rd ra imm 0) s = raises 2 ea ∧ exec (.stw c rd ra imm 0) s = raises 2 ea) ∧
    (a % 2 ≠ 0 → exec (.ldh c rd ra imm 0) s = raises 2 ea ∧ exec (.ldhu c rd ra imm 0) s = raises 2 ea ∧
      exec (.sth c rd ra imm 0) s = raises 2 ea) ∧
    (normalLoad c a = false → inLedger a = false → mapped = false →
      (a % 4 = 0 → exec (.ldw c rd ra imm 0) s = raises 3 ea) ∧
      (a % 2 = 0 → exec (.ldh c rd ra imm 0) s = raises 3 ea ∧ exec (.ldhu c rd ra imm 0) s = raises 3 ea) ∧
      exec (.ldb c rd ra imm 0) s = raises 3 ea ∧ exec (.ldbu c rd ra imm 0) s = raises 3 ea) ∧
    (normalStore c a = false → mapped = false →
      (a % 4 = 0 → exec (.stw c rd ra imm 0) s = raises 3 ea) ∧ (a % 2 = 0 → exec (.sth c rd ra imm 0) s = raises 3 ea) ∧
      exec (.stb c rd ra imm 0) s = raises 3 ea) ∧
    (∀ e u, load c a 4 t = (e, u) → (e = .err ∨ e = .torn) → (u.cores.get c).plain = true → a % 4 = 0 →
      exec (.ldw c rd ra imm 0) s = .next (u.setCore c ((u.cores.get c).excepted 3 ea))) ∧
    (∀ u, load c a 4 t = (.stall, u) → a % 4 = 0 →
      exec (.ldw c rd ra imm 0) s = .next (u.setCore c { u.cores.get c with run := .stalled (encM 0x18 rd ra imm 0) })) ∧
    (let at_ := k.get ra
     let all := fun r : Word => exec (.swp c rd ra rb 0 false) s = raises r at_ ∧ exec (.cas c rd ra rb 0 false) s = raises r at_ ∧
       exec (.fadd c rd ra rb 0 false) s = raises r at_
     (at_.toNat % 4 ≠ 0 → all 2) ∧ (at_.toNat % 4 = 0 → normalStore c at_.toNat = false → all 3))

/-- Atomics (R173, R175): the read and the write are one step. `w` is the state before the core itself changes. -/
def Obligations.AtomicResults : Prop :=
  ∀ (c : Fin 6) (s t v : State) (rd ra rb : Fin 16) (bs : Bytes), Fetches c s t → Inv s →
    let k := t.cores.get c
    let a := (k.get ra).toNat
    a % 4 = 0 → normalStore c a = true → coreRead c a 4 t = (.ok bs, v) →
    let old := wd (leNat ((List.range 4).map (fun i => memByte s (a + i))))
    let leaves := fun (i : Instr) (new : Option Word) (flg : BitVec 4) => ∃ w,
      exec i s = .next (w.setCore c ((w.cores.get c).result rd old flg)) ∧ MemOnly s w ∧
      match new with
      | some x => StoredAt a (leOfWord x) s w
      | none => SameBytes s w
    leaves (.swp c rd ra rb 0 false) (some (k.get rb)) k.flg ∧
    leaves (.cas c rd ra rb 0 false) (if old = k.get rd then some (k.get rb) else none)
      (BitVec.ofNat 4 (k.flg.toNat / 2 * 2 + if old = k.get rd then 1 else 0)) ∧
    leaves (.fadd c rd ra rb 0 false) (some (old + k.get rb)) k.flg

/-- SND, SNDT and SND_UNBLOCK (R199, R206 to R212, R371, R401). -/
def Obligations.SendResults : Prop :=
  ∀ (c : Fin 6) (s t : State) (ra : Fin 16) (eom : Bool) (ch : BitVec 8),
    let k := t.cores.get c
    let w := k.get ra
    let aux : BitVec 10 := if eom then 1 else 0
    let n := ch.toNat
    let key := sendKey c n
    let free := fun u : State => n = 0x82 ∨ (u.chan key).q.length < 4
    let held := fun u : State => n = 0x52 ∧ eom = true ∧ (u.led.collecting ≠ none ∨ ∃ h ∈ (u.chan 0x54).q, isWriteWord h.w = true)
    let placed := fun (w : Word) (t : State) => if discards n w then t else
      t.setChan key { t.chan key with q := (t.chan key).q ++ [⟨w, eom, t.clk.tb, 0⟩] }
    let flg := fun (k : Machine.Core) (v z : Bool) => packFlags v (bit k.flg 2) (bit k.flg 1) z
    let on := fun (u : State) (v z : Bool) => (Host.Outcome.next (u.setCore c { k.goesTo (k.pc + 4) with flg := flg k v z }) : Out)
    let waits := fun (u : State) (z : Bool) => (Host.Outcome.next (drainLedgerDin 4 (u.setCore c { k with
      flg := flg k false z, run := .blocked .ledgerAck })) : Out)
    let z := bit k.flg 0
    let snd := Instr.snd c 0 ra aux ch
    let sndt := Instr.sndt c 0 ra aux ch
    (Fetches c s t →
      (sendFault c n = none → t.flushes c n = false →
        (free t → ¬ held t → exec snd s = on (placed w t) false z ∧ exec sndt s = on (placed w t) false true) ∧
        (free t → held t → exec snd s = waits (placed w t) z ∧ exec sndt s = waits (placed w t) true) ∧
        (¬ free t →
          exec snd s = .next (t.setCore c { k with run := .blocked (.snd n w eom) }) ∧ exec sndt s = on t false false)) ∧
      (sendFault c n = none → t.flushes c n = true →
        exec snd s = on (lateDone c n w t) true z ∧ exec sndt s = on (lateDone c n w t) true false) ∧
      (∀ sub, sendFault c n = some sub → k.plain = true →
        let e := (Host.Outcome.next (t.setCore c (k.excepted (wd (256 * sub + 5)) (wd n))) : Out)
        exec snd s = e ∧ exec sndt s = e)) ∧
    (∀ w, let k := s.cores.get c
      s.coreUp c = true → k.due = 0 → k.run = .blocked (.snd n w eom) → s.flushes c n = false → free s → ¬ held s →
      exec (.sndUnblock c) s = .next ((placed w s).setCore c { k.goesTo (k.pc + 4) with flg := flg k false (bit k.flg 0) }))

/-- RCV, RCVT, PEEK and RCV_UNBLOCK (R199, R207, R209, R211, R212, R225). -/
def Obligations.ReceiveResults : Prop :=
  ∀ (c : Fin 6) (s t : State) (rd : Fin 16) (ch : BitVec 8),
    let k := t.cores.get c
    let n := ch.toNat
    let key := recvKey c n
    let z := bit k.flg 0
    let flg := fun (v cy z : Bool) => packFlags v cy (bit k.flg 1) z
    let on := fun (u : State) (v : Word) (f : BitVec 4) => (Host.Outcome.next (u.setCore c (k.result rd v f)) : Out)
    let rcv := Instr.rcv c rd 0 0 ch
    let rcvt := Instr.rcvt c rd 0 0 ch
    let taken := fun (u : State) (h : ChWord) (q : List ChWord) =>
      cRefill key (u.setChan key { u.chan key with q := q, taken := some (h.tick, h.fine) })
    (Fetches c s t →
      (recvFault c n = none →
        (isCmd n = true → ∀ e, chanEngine c n = some e → t.flushed e = true →
          (t.chan key).q = [] → exec rcv s = .next ((endFlush e t).setCore c { k with run := .blocked (.rcv n rd) })) ∧
        ((∀ e, chanEngine c n = some e → t.flushed e = false) →
          (∀ h q, (t.chan key).q = h :: q →
            exec rcv s = on (taken t h q) h.w (flg false h.eom z) ∧ exec rcvt s = on (taken t h q) h.w (flg false h.eom true)) ∧
          ((t.chan key).q = [] → exec rcv s = .next (t.setCore c { k with run := .blocked (.rcv n rd) }) ∧
            exec rcvt s = .next (t.setCore c { k.goesTo (k.pc + 4) with flg := flg false (bit k.flg 2) false }))) ∧
        (t.flushes c n = true → exec rcv s = on t 0 (flg true (bit k.flg 2) z) ∧ exec rcvt s = on t 0 (flg true (bit k.flg 2) false))) ∧
      (∀ sub, recvFault c n = some sub → k.plain = true →
        let e := (Host.Outcome.next (t.setCore c (k.excepted (wd (256 * sub + 5)) (wd n))) : Out)
        exec rcv s = e ∧ exec rcvt s = e) ∧
      (∀ p, portOf c n = some p → p ≠ .keyIn → p ≠ .keyOut →
        let m := if p = .send then 4 - (t.chan (sendKey c n)).q.length else (t.chan key).q.length
        exec (.peek c rd 0 0 ch) s = on t (wd m) (packFlags (bit k.flg 3) (bit k.flg 2) (bit k.flg 1) (decide (m ≠ 0))))) ∧
    (let k := s.cores.get c;
      s.coreUp c = true → k.due = 0 → k.run = .blocked (.rcv n rd) → (∀ e, chanEngine c n = some e → s.flushed e = false) →
      ∀ h q, (s.chan key).q = h :: q → exec (.rcvUnblock c) s = .next ((taken s h q).setCore c
        (k.result rd h.w (packFlags false h.eom (bit k.flg 1) (bit k.flg 0)))))

/-- WAITE, WAITE_UNBLOCK and SIG (R214 to R218, R247). MODE is E[8] and CMD E[10]. -/
def Obligations.EventResults : Prop :=
  ∀ (c : Fin 6) (s t : State) (rd ra : Fin 16) (keep : Bool) (d : Fin 6),
    let k := t.cores.get c
    let m : BitVec 16 := (k.get ra).setWidth 16
    let aux : BitVec 10 := if keep then 1 else 0
    let takes := fun (i : Instr) (u : State) (m : BitVec 16) => ∃ v, exec i s = .next v ∧ v = { u with cores := v.cores } ∧
      ∀ x, v.cores.get x =
        let k := u.cores.get c
        let y := if x = c then { k.result rd ((k.e &&& m).setWidth 32) k.flg with e := if keep then k.e else k.e &&& ~~~m }
          else u.cores.get x
        { y with e := y.e ||| (if x = c ∧ u.cmdWaits c = true then 0x0400 else 0) ||| (if u.modeInt then 0x0100 else 0) }
    (Fetches c s t → (m = 0 ∨ k.e &&& m ≠ 0) → takes (.waite c rd ra aux 0) t m) ∧
    (Fetches c s t → m ≠ 0 → k.e &&& m = 0 →
      exec (.waite c rd ra aux 0) s = .next (t.setCore c { k with run := .blocked (.waite rd m keep) })) ∧
    (let k := s.cores.get c
      ∀ m, s.coreUp c = true → k.due = 0 → k.run = .blocked (.waite rd m keep) → (m = 0 ∨ k.e &&& m ≠ 0) →
        takes (.waiteUnblock c) s m) ∧
    (Fetches c s t → ∃ v, exec (.sig c 0 0 0 (BitVec.ofNat 8 d.val)) s = .next v ∧ v = { t with cores := v.cores } ∧
      let going := fun x : Fin 6 => if x = c then k.goesTo (k.pc + 4) else t.cores.get x
      let told := { going d with e := (going d).e ||| BitVec.ofNat 16 (2 ^ (2 + c.val)) }
      (∀ x, x ≠ d → v.cores.get x = going x) ∧
      v.cores.get d = if d ≠ 0 ∧ told.run = .banked ∧ told.e.getLsbD 2 = true ∧ s.pwr.entering = false then
        told.goesTo (told.pc + 4) else told)

/-- TAT, TIN, TMARK, TAT_UNBLOCK, TMARK_RELEASE and TAT_APPLY (R221 to R228). `tatPort` and `tinPort` are the rows of R224. -/
def Obligations.TimedResults : Prop :=
  ∀ (s t : State) (rd ra : Fin 16) (b : Bool) (ch : BitVec 8),
    let k := t.cores.get 4
    let aux : BitVec 10 := if b then 1 else 0
    let n := ch.toNat
    let past := fun (u : State) (target : Word) => (target - wd u.clk.tb).toInt
    let queued := fun (i : Instr) (u : State) (w target : Word) => (u.timedQ n).length < 4 → exec i s =
      .next ((u.setTimedQ n (u.timedQ n ++ [⟨w, b, target, decide (past u target < 0), u.clk.tb⟩])).setCore 4
        (let k := u.cores.get 4
         { k.goesTo (k.pc + 4) with flg := packFlags false (decide (past u target < 0)) (bit k.flg 1) (bit k.flg 0) }))
    let released := fun (i : Instr) (u : State) (target : Word) (late : Bool) => past u target ≤ 0 → exec i s =
      .next (u.setCore 4 (let k := u.cores.get 4
        k.result rd (wd u.clk.tb) (packFlags (bit k.flg 3) late (bit k.flg 1) (bit k.flg 0))))
    (Fetches 4 s t → (portOf 4 n).isSome = true → tatPort n = true → t.flushes 4 n = false →
      queued (.tat 4 rd ra aux ch) t (k.get rd) (k.get ra) ∧
      (4 ≤ (t.timedQ n).length → exec (.tat 4 rd ra aux ch) s =
        .next (t.setCore 4 { k with run := .blocked (.tat n (k.get rd) b (k.get ra)) }))) ∧
    (∀ w target, s.coreUp 4 = true → (s.cores.get 4).due = 0 → (s.cores.get 4).run = .blocked (.tat n w b target) → s.flushes 4 n = false →
      queued (.tatUnblock 4) s w target) ∧
    (Fetches 4 s t → (portOf 4 n).isSome = true → tinPort n = true →
      exec (.tin 4 rd 0 aux ch) s = .next (t.setCore 4 (match (t.chan n).taken with
        | some (tick, fine) => k.result rd (wd (if b then 1024 * tick + fine else tick)) (packFlags (bit k.flg 3) (bit k.flg 2) (bit k.flg 1) true)
        | none => k.result rd 0 (packFlags (bit k.flg 3) (bit k.flg 2) (bit k.flg 1) false)))) ∧
    (Fetches 4 s t → released (.tmark 4 rd ra 0 0) t (k.get ra) (decide (past t (k.get ra) < 0)) ∧
      (0 < past t (k.get ra) → exec (.tmark 4 rd ra 0 0) s =
        .next (t.setCore 4 { k with run := .blocked (.tmark rd (k.get ra) false) }))) ∧
    (∀ target late, s.coreUp 4 = true → (s.cores.get 4).due = 0 → (s.cores.get 4).run = .blocked (.tmark rd target late) →
      released (.tmarkRelease 4) s target late) ∧
    (∀ w, s.live = true → tatPort n = true → firstDue s.clk.tb (s.timedQ n) = some w → discards n w.w = false →
      (s.chan n).q.length < 4 →
      let u := s.setTimedQ n ((s.timedQ n).erase w)
      w ∈ s.timedQ n ∧ timedDue s.clk.tb w = true ∧
      (∀ x ∈ s.timedQ n, timedDue s.clk.tb x = true → applyTick s.clk.tb w ≤ applyTick s.clk.tb x) ∧
      exec (.tatApply ch) s = .next (u.setChan n { u.chan n with q := (u.chan n).q ++ [⟨w.w, w.eom, applyTick s.clk.tb w, 0⟩] }))

/-- KLD, KST and KZAP (R229 to R232, R807, R808, R810). A handle holds the generation above its six slot bits; a handle with a
higher bit set is stale. The order in which several KEY_FAULT reasons are judged is the model's (log entry 33). -/
def Obligations.KeyInstructions : Prop :=
  ∀ (s t : State) (rd ra : Fin 16) (ch : BitVec 8), Fetches 5 s t →
    let k := t.cores.get 5
    let h := k.get ra
    let n := h.toNat % 64
    let x := s.slot n
    let at_ := ch.toNat
    let fault := fun sub : Nat => (Host.Outcome.next (t.setCore 5 (k.excepted (wd (256 * sub + 6)) h)) : Out)
    let fresh := h.toNat / 64 = x.gen
    let kin := at_ = 0x27 ∨ at_ = 0x37 ∨ at_ = 0x47
    let kout := at_ = 0x28 ∨ at_ = 0x38
    let uses := if at_ = 0x27 then 0x23F else if at_ = 0x37 then 0xC0 else 0x100
    let sized := fun (key : Bytes) => key.length = 32 ∨ (at_ = 0x27 ∧ (key.length = 16 ∨ key.length = 24))
    let kld := Instr.kld 5 0 ra 0 ch
    let kst := Instr.kst 5 0 ra 0 ch
    let kzap := Instr.kzap 5 rd ra 0 0
    (kin → fresh →
      (∀ key, x.key = some key → n ≠ 2 → Nat.land x.use uses ≠ 0 →
        (sized key → exec kld s = .next ({ t with kiln := { t.kiln with kin := ains t.kiln.kin at_ (key, x.use) } }.setCore 5 (k.goesTo (k.pc + 4)))) ∧
        (¬ sized key → k.plain = true → exec kld s = fault 5)) ∧
      (x.key = none → k.plain = true → exec kld s = fault 2) ∧
      (x.key ≠ none → (n = 2 ∨ Nat.land x.use uses = 0) → k.plain = true → exec kld s = fault 4)) ∧
    (kout → fresh →
      (∀ key, aget? s.kiln.kout at_ = some key → x.key = none →
        let type := if at_ = 0x38 then 3 else if key.length = 16 then 0 else if key.length = 24 then 1 else 2
        let u := t.setSlot n { x with key := some key, type := type }
        exec kst s = .next ({ u with kiln := { u.kiln with kout := adel u.kiln.kout at_ } }.setCore 5 (k.goesTo (k.pc + 4)))) ∧
      (aget? s.kiln.kout at_ = none → k.plain = true → exec kst s = fault 2) ∧
      (aget? s.kiln.kout at_ ≠ none → x.key ≠ none → k.plain = true → exec kst s = fault 3)) ∧
    (fresh → (3 ≤ n → exec kzap s = .next ((t.setSlot n ⟨none, nextGen x.gen, 0, 0, 0⟩).setCore 5
        (k.result rd (wd (nextGen x.gen * 64 + n)) k.flg))) ∧
      (n < 3 → k.plain = true → exec kzap s = fault 4)) ∧
    (¬ fresh → k.plain = true → (kin → exec kld s = fault 1) ∧ (kout → exec kst s = fault 1) ∧ exec kzap s = fault 1)

/-- SUPPLY_INVALID, SUPPLY_VALID, ALWAYS_ON_LOSS, ALWAYS_ON_POWER_UP and RTC_OSCILLATOR_RUNS (R1071 to R1076, R526). -/
def Obligations.SupplyResults : Prop :=
  ∀ (s : State) (supply : Fin 4) (high out resetN : Bool) (hsel : BitVec 2),
    let one : BitVec 4 := BitVec.ofNat 4 (2 ^ supply.val)
    (¬ (supply = 0 ∧ high = true ∧ out = true) → ∃ t, exec (.supplyInvalid supply high out) s = .next t ∧
      t.sys.mode = .off ∧ t.pwr.valid = s.pwr.valid &&& ~~~one ∧
      t.rbit rPWR_OFF_CAUSE (supply.val + if high then 4 else 0) = true ∧
      (∀ c, ∃ e, t.cores.get c = { s.cores.get c with e := (s.cores.get c).e ||| e }) ∧ t.front.queues = s.front.queues ∧
      t.pwr.resetReq = none ∧
      (s.sys.mode ≠ .off → t.led.writing = none ∧ t.flash.running = none ∧ t.sys.active = 0 ∧ t.sys.grants = [] ∧
        t.clk = { s.clk with running := false })) ∧
    exec (.supplyInvalid 0 true true) s = .fault .outsideRatings ∧
    (s.pwr.aon = true → s.clk.rtcRuns = true →
      ((s.pwr.valid ||| one ≠ 0b1111 ∨ s.pwr.resetReq ≠ none ∨ s.sys.mode ≠ .off) →
        exec (.supplyValid supply ⟨resetN, hsel⟩) s = .next { s with pwr := { s.pwr with valid := s.pwr.valid ||| one } }) ∧
      (s.pwr.valid ||| one = 0b1111 → s.pwr.resetReq = none → s.sys.mode = .off → exec (.supplyValid supply ⟨false, hsel⟩) s = .next
        { s with pwr := { s.pwr with valid := 0b1111, resetReq := some ⟨1, 0, s.clk.rtc⟩ } }) ∧
      (s.pwr.valid ||| one = 0b1111 → s.pwr.resetReq = none → s.sys.mode = .off → ∃ t, exec (.supplyValid supply ⟨true, hsel⟩) s = .next t ∧
        t.sys.mode = .scan ∧ t.reg rPWR_RESET_CAUSE = 1 ∧ t.reg rSYS_EPOCH = s.reg rSYS_EPOCH + 1 ∧ t.clk.tb = 0 ∧
        t.cores = coresReset ∧ t.pwr.valid = 0b1111 ∧ t.pending = s.pending)) ∧
    (s.sys.mode = .off → s.pwr.aon = true → exec .alwaysOnLoss s =
      .next { s with pwr := { s.pwr with aon := false }, clk := { s.clk with rtcRuns := false } }) ∧
    (s.sys.mode = .off → s.pwr.aon = false → ∃ t, exec .alwaysOnPowerUp s = .next t ∧ t.pwr = { s.pwr with aon := true } ∧
      t.clk = { s.clk with rtc := 0, frac := 0, rtcRuns := false } ∧ t.creds.time = none ∧ t.reg rSYS_EPOCH = 0 ∧
      t.reg rPWR_OFF_CAUSE = 0 ∧ t.reg rPWR_TAMPER = 0 ∧ t.mem = s.mem ∧ t.led = s.led ∧ t.fuses = s.fuses) ∧
    (s.pwr.aon = true → s.clk.rtcRuns = false → exec .rtcOscillatorRuns s = .next { s with clk := { s.clk with rtcRuns := true } })

/-- PIN_RESET, SOFTWARE_RESET, WATCHDOG, SCAN_STALL, TB_LOCK and RESET_ENTER_SCAN (R63, R1080 to R1082, R1084, R1099, R1101). -/
def Obligations.ResetResults : Prop :=
  ∀ (s : State) (who : Req) (key : BitVec 16) (c : Fin 6) (hsel : BitVec 2),
    let order := [1, 8, 2, 5, 7, 3, 6, 4]
    let asks (cause detail : Nat) : State :=
      { s with pwr := { s.pwr with entering := false, heldSrc := 0, resetReq := some ⟨cause, detail, s.clk.rtc⟩ } }
    (s.sys.mode ≠ .off → s.sys.mode ≠ .banked → s.pwr.resetReq = none → exec .pinReset s = .next (asks 2 0)) ∧
    (s.sys.mode = .off → exec .pinReset s = .next s) ∧
    (∀ r, s.sys.mode ≠ .off → s.sys.mode ≠ .banked → s.pwr.resetReq = some r → r.cause ∈ order →
      ∃ t, exec .pinReset s = .next t ∧
        t.pwr.resetReq = some (if order.idxOf 2 < order.idxOf r.cause then ⟨2, 0, r.since⟩ else r)) ∧
    (s.sys.mode = .banked → s.pwr.resetWake = none →
      exec .pinReset s = .next { s with pwr := { s.pwr with resetWake := some ⟨2, 0, s.clk.rtc⟩ } }) ∧
    (s.live = true → c ≠ 4 → exec (.softwareReset (.core c) 0x5254) s = .next (asks 4 c.val)) ∧
    (s.live = true → (key ≠ 0x5254 ∨ who = .core 4 ∨ who ∈ hostReqs) → exec (.softwareReset who key) s = .next s) ∧
    (∀ n, s.live = true → s.pwr.wdtFrom = some n → n + 62400 * s.fld rPWR_WDT_CFG 15 0 ≤ s.clk.tb →
      exec .watchdog s = .next (asks 3 0)) ∧
    (s.live = true → s.sys.mode = .scan → s.sys.scanFrom + 6240000 ≤ s.clk.tb → exec .scanStall s = .next (asks 6 0)) ∧
    (∀ n, s.sys.mode ≠ .off → s.sys.mode ≠ .banked → s.sys.mode ≠ .quenched → s.assay.freezing = false → s.pwr.resetReq = none →
      s.clk.running = false → s.clk.unlockedAt = some n → n + 4 ≤ s.clk.rtc →
      exec .tbLock s = .next (asks 8 0)) ∧
    (∀ r, s.pwr.resetReq = some r → s.sys.mode ≠ .quenched → s.assay.freezing = false →
      s.led.writing = none → r.since + 2 ≤ s.clk.rtc → s.clk.unlockedAt = none →
      (r.cause = 8 → ∃ n, s.clk.relockedAt = some n ∧ n + 4 ≤ s.clk.rtc) →
      ∃ t, exec (.resetEnterScan true hsel) s = .next t ∧ t.sys.mode = .scan ∧ t.sys.scanFrom = t.clk.tb ∧
        t.reg rPWR_RESET_CAUSE = wd (r.cause + 256 * r.detail) ∧ t.reg rSYS_EPOCH = s.reg rSYS_EPOCH + 1 ∧
        t.cores = coresReset ∧ t.pwr.resetReq = none ∧ t.clk.tb = (if s.sys.mode = .off then 0 else s.clk.tb) ∧ t.host.hsel = hsel)

/-- WATCHDOG_ENABLE, KICK, TB_LOCK_LOSS and TB_RELOCK (R133, R1084, R1085, R1098). -/
def Obligations.WatchdogAndLock : Prop :=
  ∀ (s : State) (who : Req) (key : BitVec 16) (v : Word) (c : Fin 6),
    (s.live = true → c ≠ 4 → s.rbit rPWR_WDT_CFG 31 = false → v.getLsbD 31 = true →
      ∃ t, exec (.watchdogEnable (.core c) v) s = .next t ∧ t.rbit rPWR_WDT_CFG 31 = true ∧
        t.fld rPWR_WDT_CFG 15 0 = max 10 (min 60000 (v.toNat % 65536)) ∧ (∀ k, k ≠ rPWR_WDT_CFG → t.reg k = s.reg k) ∧
        t = { s with regs := t.regs, pwr := { s.pwr with wdtFrom := some s.clk.tb } }) ∧
    (s.live = true → s.rbit rPWR_WDT_CFG 31 = true → exec (.watchdogEnable who v) s = .next s) ∧
    (∀ n, s.live = true → c.val < 4 → s.pwr.wdtFrom = some n →
      exec (.kick (.core c) 0x574B) s = .next { s with pwr := { s.pwr with wdtFrom := some s.clk.tb } }) ∧
    (s.live = true → (key ≠ 0x574B ∨ who = .core 4 ∨ who = .core 5 ∨ who ∈ hostReqs) → exec (.kick who key) s = .next s) ∧
    (s.clk.running = true → s.sys.mode ≠ .off → s.sys.mode ≠ .banked → s.sys.mode ≠ .quenched → s.assay.freezing = false →
      ∃ t, exec .tbLockLoss s = .next t ∧ t.rbit rTB_STAT 0 = false ∧ (∀ k, k ≠ rTB_STAT → t.reg k = s.reg k) ∧
        t = { s with regs := t.regs, clk := { s.clk with running := false, unlockedAt := some s.clk.rtc, relockedAt := none } }) ∧
    (s.clk.unlockedAt ≠ none → s.clk.running = false → s.sys.mode ≠ .off → s.sys.mode ≠ .banked → s.sys.mode ≠ .quenched →
      s.assay.freezing = false → ∃ t, exec .tbRelock s = .next t ∧ t.rbit rTB_STAT 0 = true ∧ (∀ k, k ≠ rTB_STAT → t.reg k = s.reg k) ∧
        t = { s with regs := t.regs, clk := { s.clk with running := true, unlockedAt := none, relockedAt := some s.clk.rtc } })

/-- MODE_REQ_PARKED, MODE_REQ_ACCESS and MODE_REQ_LOCKDOWN (R67, R76, R88 to R90, R97, R98). -/
def Obligations.ModeRequests : Prop :=
  ∀ (s : State) (c : Fin 6) (who : Req) (key : BitVec 16), s.live = true →
    let moved (dst : Mode) (cause : Nat) : Sys :=
      { s.sys with mode := dst, prev := some s.sys.mode, cause := cause, approachEnd := none, tokenEnd := none }
    let changed (t : State) (y : Sys) : Prop := t.sys = y ∧ t.rbit rSYS_MODE_EVT 0 = true ∧ t.clk = s.clk ∧ t.led = s.led
    let refused (i : Instr) : Prop := ∃ t, exec i s = .next t ∧ Notified (s.setRbit rSYS_MODE_EVT 2 true) t
    let badKey (i : Instr) : Prop := ∃ t, exec i s = .next t ∧ Notified (s.setRbit rSYS_MODE_EVT 1 true) t
    (c ≠ 4 → (∀ e, s.sys.mode = .approach → s.sys.approachEnd = some e → s.clk.tb < e) →
      (s.sys.mode = .access → ∃ t, exec (.modeReqParked (.core c) 0x4D4F) s = .next t ∧
        changed t { moved .parked 0x04 with active := 0, grants := [] }) ∧
      (s.sys.mode = .service → ∃ t, exec (.modeReqParked (.core c) 0x4D4F) s = .next t ∧
        changed t { moved (if s.sys.mated then .parked else .unmated) 0x04 with active := 0, grants := [] }) ∧
      (s.sys.mode ≠ .access → s.sys.mode ≠ .service → refused (.modeReqParked (.core c) 0x4D4F)) ∧
      (s.sys.mode = .drive → ∃ t, exec (.modeReqAccess (.core c) 0x4D4F) s = .next t ∧ changed t (moved .access 0x04)) ∧
      (∀ n tick, s.sys.mode = .approach → asorted s.sys.grants = true → aget? s.sys.grants n = some tick →
        s.sys.active.getLsbD n = true → (∀ m, m < n → s.sys.active.getLsbD m = true → aget? s.sys.grants m = none) →
        ∃ t, exec (.modeReqAccess (.core c) 0x4D4F) s = .next t ∧
          changed t { moved .access 0x09 with grants := adel s.sys.grants n }) ∧
      (s.sys.mode ≠ .drive → s.sys.mode ≠ .approach → refused (.modeReqAccess (.core c) 0x4D4F)) ∧
      (s.sys.mode = .approach → (∀ e ∈ s.sys.grants, s.sys.active.getLsbD e.1 = false) →
        refused (.modeReqAccess (.core c) 0x4D4F)) ∧
      (s.sys.mode ∈ [.approach, .access, .drive, .service] → ∃ t, exec (.modeReqLockdown (.core c) 0x4D4F) s = .next t ∧
        changed t { moved .lockdown 0x15 with
          lockCause := s.sys.lockCause ||| 16, recordWanted := true, active := 0, grants := [] }) ∧
      (s.sys.mode ∈ [.unmated, .parked] → ∃ t, exec (.modeReqLockdown (.core c) 0x4D4F) s = .next t ∧
        changed t { moved .lockdown 0x15 with lockCause := s.sys.lockCause ||| 16, recordWanted := true }) ∧
      (s.sys.mode = .lockdown → exec (.modeReqLockdown (.core c) 0x4D4F) s =
        .next { s with sys := { s.sys with lockCause := s.sys.lockCause ||| 16, recordWanted := true, recovering := none } }) ∧
      (s.sys.mode ∈ [.scan, .factory] → refused (.modeReqLockdown (.core c) 0x4D4F))) ∧
    (∀ e, c ≠ 4 → s.sys.mode = .approach → s.sys.approachEnd = some e → e ≤ s.clk.tb →
      ∃ u, exec .approachTimeout s = .next u ∧ u.sys = { moved .parked 0x08 with active := 0, grants := [] } ∧
        (∃ t, exec (.modeReqParked (.core c) 0x4D4F) s = .next t ∧ Notified (u.setRbit rSYS_MODE_EVT 2 true) t) ∧
        (∃ t, exec (.modeReqAccess (.core c) 0x4D4F) s = .next t ∧ Notified (u.setRbit rSYS_MODE_EVT 2 true) t) ∧
        (∃ t, exec (.modeReqLockdown (.core c) 0x4D4F) s = .next t ∧
          t.sys = { u.sys with mode := .lockdown, prev := some .parked, cause := 0x15, lockCause := u.sys.lockCause ||| 16, recordWanted := true })) ∧
    (key ≠ 0x4D4F ∨ c = 4 → badKey (.modeReqParked (.core c) key) ∧ badKey (.modeReqAccess (.core c) key) ∧
      badKey (.modeReqLockdown (.core c) key)) ∧
    (who ∈ hostReqs → exec (.modeReqParked who key) s = .next s ∧ exec (.modeReqAccess who key) s = .next s ∧
      exec (.modeReqLockdown who key) s = .next s)

/-- SESSION_OPEN, SESSION_CLOSE, APPROACH_TIMEOUT, GRANT_EXPIRY, SERVICE_END and MODE_RECORD_WRITE (R57, R60, R67 to R70, R95 to
R98, R1186). -/
def Obligations.SessionResults : Prop :=
  ∀ (s : State) (c : Fin 6) (who : Req) (mask : BitVec 8) (n : Fin 8), s.live = true →
    let moved (dst : Mode) (cause : Nat) : Sys :=
      { s.sys with mode := dst, prev := some s.sys.mode, cause := cause, approachEnd := none, tokenEnd := none }
    let changed (t : State) (y : Sys) : Prop := t.sys = y ∧ t.rbit rSYS_MODE_EVT 0 = true ∧ t.clk = s.clk ∧ t.led = s.led
    let left : BitVec 8 := s.sys.active &&& ~~~mask
    let kept : Assoc Nat := s.sys.grants.filter (fun e => !(mask.getLsbD e.1 && s.sys.active.getLsbD e.1))
    (s.sys.mode ∈ [.access, .drive, .service] ∨ (s.sys.mode = .approach ∧ s.sys.active ||| mask ≠ 0) →
      ∃ t, exec (.sessionOpen (.core c) mask) s = .next t ∧ t = { s with sys := { s.sys with active := s.sys.active ||| mask } }) ∧
    (s.sys.mode = .parked → s.sys.active ||| mask ≠ 0 → ∃ t, exec (.sessionOpen (.core c) mask) s = .next t ∧
      changed t { moved .approach 0x06 with
        active := s.sys.active ||| mask, tokenEnd := none
        approachEnd := some (s.clk.tb + 62400 * s.fld rSYS_APPROACH_TMO 13 0) }) ∧
    (s.sys.mode ∈ [.scan, .factory, .unmated, .lockdown] → mask ≠ 0 →
      ∃ t, exec (.sessionOpen (.core c) mask) s = .next t ∧ Notified (s.setRbit rSYS_MODE_EVT 2 true) t) ∧
    ((s.sys.mode ≠ .parked ∨ left = 0) → (s.sys.mode ≠ .approach ∨ left ≠ 0) → ∃ t, exec (.sessionClose (.core c) mask) s = .next t ∧
      t = { s with sys := { s.sys with active := left, grants := kept }, kiln := t.kiln, creds := t.creds }) ∧
    (s.sys.mode = .approach → left = 0 → ∃ t, exec (.sessionClose (.core c) mask) s = .next t ∧
      changed t { moved .parked 0x07 with active := 0, grants := kept }) ∧
    (who ∈ hostReqs → exec (.sessionOpen who mask) s = .next s ∧ exec (.sessionClose who mask) s = .next s) ∧
    (∀ e, s.sys.mode = .approach → s.sys.approachEnd = some e → e ≤ s.clk.tb → ∃ t, exec .approachTimeout s = .next t ∧
      changed t { moved .parked 0x08 with active := 0, grants := [] }) ∧
    (∀ e, aget? s.sys.grants n.val = some e → e + 31200000 ≤ s.clk.tb →
      exec (.grantExpiry n) s = .next { s with sys := { s.sys with grants := adel s.sys.grants n.val } }) ∧
    (∀ e, s.sys.mode = .service → s.sys.tokenEnd = some e → e ≤ s.clk.rtc → ∃ t, exec .serviceEnd s = .next t ∧
      changed t { moved (if s.sys.mated then .parked else .unmated) 0x0D with active := 0, grants := [] }) ∧
    (s.sys.recordWanted = true → s.led.writing = none → s.led.scanFrom = none → s.led.rescanWanted = false →
      currentSeq s 0 < 200000 → ∃ t, exec .modeRecordWrite s = .next t ∧ t.rbit rLEDGER_STAT 2 = true ∧
        t.led.writing = some ⟨.copy 0 (if current s 0 = some 0 then 1 else 0),
          copyImage (deviceBody 0 (leBytes 1 (if s.sys.mated then 1 else 0) ++ leBytes 1 s.sys.lockCause.toNat ++ leBytes 2 0 ++
            leBytes 4 (storedMatings s))) (currentSeq s 0 + 1), .modeRecord⟩ ∧
        (∀ k, k ≠ rLEDGER_STAT → t.reg k = s.reg k) ∧
        t = { s with sys := { s.sys with recordWanted := false }, led := t.led, regs := t.regs })

/-- LEDGER_SCAN_DONE, KILN_JUDGEMENT and IMAGE_CHOSEN (R62, R64, R79, R329, R332, R334 to R336, R377, R382). -/
def Obligations.BootResults : Prop :=
  ∀ (s : State), s.live = true →
    (∀ n, s.led.scanFrom = some n → s.led.waiting = none → s.creds.jobs = [] →
      (s.sys.mode ≠ .scan ∨ s.sys.imageChosen = false → ∃ t, exec .ledgerScanDone s = .next t ∧
        t.rbit rLEDGER_STAT 0 = false ∧ t.rbit rLEDGER_STAT 1 = true ∧ t.reg rLEDGER_SCAN_TIME = wd (s.clk.tb - n) ∧
        (∀ k, k ∉ [rLEDGER_STAT, rLEDGER_SCAN, rLEDGER_SCAN_TIME] → t.reg k = s.reg k) ∧
        t = { s with led := { s.led with scanFrom := none }, regs := t.regs }) ∧
      (s.sys.mode = .scan → s.sys.imageChosen = true → ∃ t, exec .ledgerScanDone s = .next t ∧
        t.sys.mode = (if s.fuses.closed = false then .factory
          else if storedLock s ≠ 0 ∨ s.rbit rPWR_TAMPER 1 = true then .lockdown
          else if storedMated s = true then .parked else .unmated) ∧
        t.sys.prev = some .scan ∧ t.sys.cause = (if t.sys.mode = .lockdown then 0x16 else 0x03) ∧
        t.sys.mated = storedMated s ∧
        t.sys.lockCause = storedLock s ||| (if s.rbit rPWR_TAMPER 1 = true then 2 else 0) ∧
        t.rbit rLEDGER_STAT 1 = true ∧
        ∀ c : Fin 6,
          let n := s.fld rFLASH_BOOT 1 0 - 1
          let off := leAt (slotRead t n 0 256) (0xC + 4 * c.val) 4
          if 1 ≤ c.val ∧ c.val ≤ 4 ∧ s.fld rFLASH_BOOT 1 0 ≠ 0 ∧ off ≠ 0 then
            t.cores.get c = Core.reset (wd (0x08000000 + n * 0x180000 + off) &&& 0xFFFFFF00) .running
          else ∃ e, t.cores.get c = { s.cores.get c with e := (s.cores.get c).e ||| e })) ∧
    (s.sys.mode = .scan → s.sys.imageChosen = false →
      (∀ w, s.led.writing = some w → w.target ≠ .unit 1 ∧ w.target ≠ .unit 2) →
      (∀ n ∈ [0, 1], bootResult s n = 6 → judgeHeader s n true (slotRead s n 0 256) = none) →
      (∀ n, (bootResult s 0 = 6 ∧ bootResult s 1 = 6 ∧
          n = (if hdrVersion (slotRead s 0 0 256) < hdrVersion (slotRead s 1 0 256) then 1 else 0)) ∨
        (bootResult s 0 = 6 ∧ bootResult s 1 ∉ [0, 6] ∧ n = 0) ∨ (bootResult s 1 = 6 ∧ bootResult s 0 ∉ [0, 6] ∧ n = 1) →
        ∃ t, exec .kilnJudgement s = .next t ∧ (∀ k, k ≠ rFLASH_BOOT → t.reg k = s.reg k) ∧ t = { s with regs := t.regs, chans := t.chans } ∧
          ((s.chan (mailKey 0 5)).q = [] ∧ (s.chan (mailKey 0 5)).back = [] → (s.chan (mailKey 5 0)).q = [] ∧ (s.chan (mailKey 5 0)).back = [] →
            ∀ k, (t.chan k).q = (s.chan k).q) ∧
          let h := slotRead s n 0 256
          bootResult t n =
            (if signKeyOk s h = false ∨ ecdsaVerify (slice h 0x60 64) (sha256 (slice h 0 0xA0)) (slice h 0xA0 64) = false then 4
            else if sha256 (slotRead s n 0x100 (hdrBodyLen h)) ≠ slice h 0x40 32 then 3 else 0)) ∧
      (s.led.scanFrom ≠ none →
        (∀ n, (bootResult s 0 = 0 ∧ n = 0) ∨ (bootResult s 0 ≠ 0 ∧ bootResult s 1 = 0 ∧ n = 1) →
          ∃ t, exec .imageChosen s = .next t ∧ t.sys = { s.sys with imageChosen := true } ∧ t.rbit rFLASH_PROT n = true ∧
            t.fld rFLASH_BOOT 1 0 = n + 1 ∧ t.cores = s.cores) ∧
        (bootResult s 0 ∉ [0, 6] → bootResult s 1 ∉ [0, 6] → ∃ t, exec .imageChosen s = .next t ∧
          t.sys = { s.sys with imageChosen := true } ∧ t.fld rFLASH_BOOT 1 0 = 0 ∧ t.host.rescue = true ∧ t.cores = s.cores)))

/-- ENCRYPT, DECRYPT, UPDATE, SAVE, RESTORE, FREE, ZAP and KATTR_WRITE (R812, R826, R828, R829, R832, R835 to R838, R839, R840); `aesBlocks key` runs the
blocks of a command under that key. How many DRBG words a block takes is the model's choice (log entry 102). -/
def Obligations.CipherResults : Prop :=
  ∀ (s t u v : State) (img bs z : Bytes) (x : Slot) (key : Bytes),
    let p := dataParam img
    let len := (imgBuf img 0).len
    let iv := bs.take p.nlen
    let aad := (bs.drop p.nlen).take p.aadlen
    let ready (op : Nat) (enc : Bool) : Prop := Serves 2 op img s t ∧ Names img (imgKey img) t x ∧ x.key = some key ∧ x.type ≠ 3 ∧
      x.use.testBit (if p.mode = 4 then 2 else if enc then 0 else 1) = true ∧ dataParamOk img p = true ∧ Readable img 0 len ∧
      kread 2 img 0 0 len t = .ok bs u
    (∀ out, ready 1 true → p.more = false → p.nlen + p.aadlen ≤ len → dataLenOk p true (len - (p.nlen + p.aadlen)) = true →
      Writable img 1 (outLen p true (len - (p.nlen + p.aadlen))) →
      oneShot p true key iv aad ((bs.drop (p.nlen + p.aadlen)).take (len - (p.nlen + p.aadlen)))
        (bs.drop len) = some out →
      kwrite 2 img 1 out (aesBlocks key u) = .ok z v → exec .encrypt s = .next (kilnDone 2 0 0 0 v)) ∧
    (ready 2 false → p.more = false → p.mode ≠ 4 →
      let used := p.nlen + p.aadlen + (if p.mode = 2 ∨ p.mode = 3 then p.taglen else 0)
      used ≤ len → dataLenOk p false (len - used) = true → Writable img 1 (outLen p false (len - used)) →
      let res := oneShot p false key iv aad ((bs.drop (p.nlen + p.aadlen)).take (len - used)) (bs.drop (p.nlen + p.aadlen + (len - used)))
      (∀ out, res = some out → kwrite 2 img 1 out (aesBlocks key u) = .ok z v → exec .decrypt s = .next (kilnDone 2 0 0 0 v)) ∧
      (res = none → kwrite 2 img 1 (List.replicate (outLen p false (len - used)) 0) (aesBlocks key u) = .ok z v →
        exec .decrypt s = .next (kilnDone 2 0xC 0x10 0 v))) ∧
    (ready 1 true → p.more = true → p.nlen + p.aadlen ≤ len → dataLenOk p true (len - (p.nlen + p.aadlen)) = true →
      Writable img 1 (outLen p true (len - (p.nlen + p.aadlen))) → t.ctx? p.ctx = none →
      let r := (Ctx.start (imgOwner img) p.mode true (imgKey img % 64) key iv aad p.taglen).absorb
        ((bs.drop (p.nlen + p.aadlen)).take (len - (p.nlen + p.aadlen)))
      kwrite 2 img 1 r.2 (aesBlocks key u) = .ok z v → exec .encrypt s = .next (kilnDone 2 0 0 0 (v.setCtx p.ctx r.1))) ∧
    (∀ c, imgKey img = 0 → ctxParamOk img = true → t.ctx? (imgParam img 1 1) = some c → c.owner = imgOwner img →
      (Serves 2 6 img s t → exec .free s = .next (kilnDone 2 0 0 0 (clearCtx (imgParam img 1 1) t))) ∧
      (Serves 2 3 img s t → imgParam img 0 1 = c.mode → imgParam img 6 1 = 1 → len % 16 = 0 → c.mode = 0 ∨ c.mode = 1 ∨ c.mode = 3 →
        Readable img 0 len → Writable img 1 len → kread 2 img 0 0 len t = .ok bs u → kwrite 2 img 1 (c.absorb bs).2 (aesBlocks c.key u) = .ok z v →
        exec .update s = .next (kilnDone 2 0 0 0 (v.setCtx (imgParam img 1 1) (c.absorb bs).1))) ∧
      (Serves 2 4 img s t → Writable img 1 144 →
        let n := imgParam img 1 1
        let no := t.kiln.saveNo + 1
        let plain := (List.range 112).map (fun i => Config.freeByte (t.free + i))
        let key2 := (t.slot 2).key.getD []
        let cipher := gcmCrypt key2 (List.replicate 4 0 ++ beBytes 8 no) plain
        let head := blobHead n c no
        kwrite 2 img 1 (head ++ cipher ++ gcmFull key2 (List.replicate 4 0 ++ beBytes 8 no) head cipher 16)
          (aesBlocks key2 { t with free := t.free + 112 }) = .ok z v →
        exec .save s = .next (kilnDone 2 0 0 0
          (clearCtx n { v with kiln := { v.kiln with saveNo := no, saves := ains v.kiln.saves n (no, c) } })))) ∧
    (∀ c, Serves 2 5 img s t → imgKey img = 0 → ctxParamOk img = true → Readable img 0 144 → kread 2 img 0 0 144 t = .ok bs u →
      let n := imgParam img 1 1
      let no := leAt bs 8 8
      slice bs 0x80 16 = gcmFull ((u.slot 2).key.getD []) (List.replicate 4 0 ++ beBytes 8 no) (bs.take 16) (slice bs 16 112) 16 →
      leAt bs 4 1 = n → leAt bs 6 1 = imgOwner img → u.ctx? n = none → aget? u.kiln.saves n = some (no, c) →
      let w := aesBlocks ((u.slot 2).key.getD []) u
      exec .restore s = .next (kilnDone 2 0 0 0 ({ w with kiln := { w.kiln with saves := adel u.kiln.saves n } }.setCtx n c))) ∧
    (Serves 2 0xB img s t → Names img (imgKey img) t x → paramZero img [] = true → 3 ≤ imgKey img % 64 →
      exec .zap s = .next (kilnDone 2 0 0 0 (zapSlot (imgKey img % 64) (clearCtxsOf (imgKey img % 64) t)))) ∧
    (∀ (n : Fin 64) (w : Word), s.live = true →
      (((s.slot n.val).key = none ∧ 3 ≤ n.val) →
        exec (.kattrWrite n w) s = .next (s.setSlot n.val { s.slot n.val with owner := bits w 19 16, use := bits w 9 0 })) ∧
      (((s.slot n.val).key ≠ none ∨ n.val < 3) → exec (.kattrWrite n w) s = .next s)) ∧
    (let most := if s.sys.mode = .factory then s.fld rCIPHER_CFG 2 0 else 7
     let rounds := key.length / 4 + 6
     ∃ run n, aesBlocks key s = { s with free := n, kiln := { s.kiln with aesRun := some run } } ∧
       run.places.length ≤ most ∧ ∀ p ∈ run.places, p ≤ rounds)

/-- GENKEY, UNWRAP_KEY, WRAP_KEY, DERIVE, ECDH, GENKEY_EC and PUBKEY (R807, R809, R826 to R828, R830, R833, R834, R842, R843, R1180). -/
def Obligations.KeyResults : Prop :=
  ∀ (s t u v : State) (img bs z : Bytes) (x y : Slot) (n : Nat),
    let type := imgParam img 0 1
    let use := imgParam img 2 2
    let len := (imgBuf img 0).len
    -- the key placed in slot n of state w, and OK with its handle
    let makes (e : Nat) (key : Bytes) (ty : Nat) (w : State) : State :=
      kilnDone e 0 0 ((w.slot n).gen * 64 + n) (w.setSlot n ⟨some key, (w.slot n).gen, imgOwner img, ty, use⟩)
    let key := x.key.getD []
    (Serves 2 7 img s t → imgKey img = 0 → keyParamOk img false = true → type ≠ 3 → emptySlot t 32 64 = some n →
      drawBytes (if type = 0 then 16 else if type = 1 then 24 else 32) t = some (bs, u) → emptySlot u 32 64 = some n →
      exec .genkey s = .next (makes 2 bs type u)) ∧
    (Serves 2 8 img s t → Names img (imgKey img) t x → keyParamOk img false = true →
      len = (if type = 0 then 16 else if type = 1 then 24 else 32) + 8 → Readable img 0 len → x.use.testBit 4 = true →
      emptySlot t 32 64 ≠ none → kread 2 img 0 0 len t = .ok bs u →
      (∀ k, kwUnwrap key bs = some k → emptySlot u 32 64 = some n → exec .unwrapKey s = .next (makes 2 k type (aesBlocks key u))) ∧
      (kwUnwrap key bs = none → exec .unwrapKey s = .next (kilnDone 2 0xC 0x10 0 (aesBlocks key u)))) ∧
    (Serves 2 9 img s t → Names img (imgKey img) t x → Names img (imgParam img 4 2) t y → keyParamOk img true = true →
      (y.key.getD []).length = (if type = 0 then 16 else if type = 1 then 24 else 32) →
      Writable img 1 ((if type = 0 then 16 else if type = 1 then 24 else 32) + 8) → x.use.testBit 3 = true → y.use.testBit 9 = true →
      kwrite 2 img 1 (kwWrap key (y.key.getD [])) (aesBlocks key t) = .ok z u → exec .wrapKey s = .next (kilnDone 2 0 0 0 u)) ∧
    (Serves 2 0xA img s t → Names img (imgKey img) t x → keyParamOk img false = true → 1 ≤ len → len ≤ 64 → Readable img 0 len →
      x.use.testBit 5 = true → emptySlot t 32 64 ≠ none → kread 2 img 0 0 len t = .ok bs u → emptySlot u 32 64 = some n →
      exec .derive s = .next (makes 2 (kdf key bs (if type = 0 then 16 else if type = 1 then 24 else 32)) type (aesBlocks key u))) ∧
    (Serves 3 3 img s t → Names img (imgKey img) t x → paramZero img [2, 3] = true → use &&& 0x120 = use → Readable img 0 64 →
      x.use.testBit 7 = true → x.type = 3 → emptySlot t 32 64 ≠ none → kread 3 img 0 0 64 t = .ok bs u →
      (∀ k, ecdh (beNat key) bs = some k → emptySlot u 32 64 = some n → exec .ecdh s = .next (makes 3 k 2 (pkaMasks u))) ∧
      (ecdh (beNat key) bs = none → exec .ecdh s = .next (kilnDone 3 5 6 0 u))) ∧
    (∀ d, Serves 3 4 img s t → imgKey img = 0 → paramZero img [2, 3] = true → use < 1024 → Writable img 1 64 →
      emptySlot t 32 64 ≠ none → kscalar 8 t = .ok d u → kwrite 3 img 1 (pubOf d) (pkaMasks u) = .ok z v → emptySlot v 32 64 = some n →
      exec .genkeyEc s = .next (makes 3 (beBytes 32 d) 3 v)) ∧
    (Serves 3 5 img s t → Names img (imgKey img) t x → paramZero img [] = true → Writable img 1 64 → x.type = 3 →
      kwrite 3 img 1 (pubOf (beNat key)) (pkaMasks t) = .ok z u → exec .pubkey s = .next (kilnDone 3 0 0 0 u))

/-- SIGN, VERIFY, ATTEST, SHA256, HMAC, HMAC_VERIFY, RANDOM, FUSE_READ, FUSE_WRITE and FUSE_CLOSE (R819 to R823, R842 to R845, R877). -/
def Obligations.SignHashFuseResults : Prop :=
  ∀ (s t u v w : State) (img bs z sig : Bytes) (x : Slot),
    let key := x.key.getD []
    let len := (imgBuf img 0).len
    let plain : Prop := imgKey img = 0 ∧ paramZero img [] = true
    let keyed (b : Nat) : Prop := Names img (imgKey img) t x ∧ x.use.testBit b = true ∧ paramZero img [] = true
    (Serves 3 1 img s t → keyed 6 → x.type = 3 → Readable img 0 32 → Writable img 1 64 → kread 3 img 0 0 32 t = .ok bs u →
      ksign (beNat key) bs u = .ok sig v → kwrite 3 img 1 sig v = .ok z w → exec .sign s = .next (kilnDone 3 0 0 0 w)) ∧
    (Serves 3 2 img s t → plain → Readable img 0 160 → kread 3 img 0 0 160 t = .ok bs u → exec .verify s = .next
      (if ecdsaVerify (bs.take 64) (slice bs 64 32) (slice bs 96 64) = true then kilnDone 3 0 0 0 (pkaMasks u) else kilnDone 3 0xC 0x10 0 (pkaMasks u))) ∧
    (∀ u1 u2 ver hash, Serves 3 6 img s t → plain → Readable img 0 32 → Writable img 1 320 → kread 3 img 0 0 32 t = .ok bs u →
      kflash (imageBase u + 8) 4 u = .ok ver u1 → kflash (imageBase u1 + 0x40) 32 u1 = .ok hash u2 →
      ksign (beNat ((u2.slot 0).key.getD [])) (sha256 (attestBody u2 bs ver hash)) u2 = .ok sig v →
      kwrite 3 img 1 (attestBody u2 bs ver hash ++ sig) v = .ok z w → exec .attest s = .next (kilnDone 3 0 0 0 w)) ∧
    (Serves 4 1 img s t → plain → len ≤ 0x1000000 → Readable img 0 len → Writable img 1 32 → kread 4 img 0 0 len t = .ok bs u →
      kwrite 4 img 1 (sha256 bs) u = .ok z v → exec .sha256 s = .next (kilnDone 4 0 0 0 v)) ∧
    (Serves 4 2 img s t → keyed 8 → len ≤ 0x1000000 → Readable img 0 len → Writable img 1 32 → kread 4 img 0 0 len t = .ok bs u →
      kwrite 4 img 1 (hmac key bs) u = .ok z v → exec .hmac s = .next (kilnDone 4 0 0 0 v)) ∧
    (Serves 4 3 img s t → keyed 8 → len ≤ 0x1000000 → Readable img 0 len → Readable img 1 32 → kread 4 img 0 0 len t = .ok bs u →
      kread 4 img 1 0 32 u = .ok z v → exec .hmacVerify s = .next
        (if z = hmac key bs then kilnDone 4 0 0 0 v else kilnDone 4 0xC 0x10 0 v)) ∧
    (∀ n, Serves 2 0x20 img s t → plain → n = (imgBuf img 1).len → 1 ≤ n → n ≤ 4096 → Writable img 1 n → drawBytes n t = some (bs, u) →
      kwrite 2 img 1 bs u = .ok z v → exec .random s = .next (kilnDone 2 0 0 0 v)) ∧
    (Serves 2 0x50 img s t → plain → Writable img 1 128 → kwrite 2 img 1 (fuseImage t) t = .ok z v →
      exec .fuseRead s = .next (kilnDone 2 0 0 0 v)) ∧
    (∀ ok, Serves 2 0x51 img s t → imgKey img = 0 → paramZero img [0] = true → t.pwr.vbatLow = false → u.fuses = t.fuses →
      (imgParam img 0 1 = 3 → t.fuses.bdAddr = .unprogrammed → Readable img 0 6 → kread 2 img 0 0 6 t = .ok bs u →
        exec (.fuseWrite ok) s = .next { u with fuses := { u.fuses with running := some (.bdAddr bs) } }) ∧
      (imgParam img 0 1 = 4 → Readable img 0 32 → kread 2 img 0 0 32 t = .ok bs u →
        (t.fuses.hashes.get 0 = .unprogrammed →
          exec (.fuseWrite ok) s = .next { u with fuses := { u.fuses with running := some (.hash 0 bs) } }) ∧
        (t.fuses.hashes.get 0 ≠ .unprogrammed → t.fuses.hashes.get 1 = .unprogrammed →
          exec (.fuseWrite ok) s = .next { u with fuses := { u.fuses with running := some (.hash 1 bs) } }))) ∧
    (∀ ok, Serves 2 0x52 img s t → plain → t.pwr.vbatLow = false →
      fuseSet t.fuses.devSeed = true → fuseSet t.fuses.devId = true → fuseSet t.fuses.devCert = true → imageKeyHash t ≠ none →
      exec (.fuseClose ok) s = .next { t with fuses := { t.fuses with running := some .close } }) ∧
    (s.up = true → s.pwr.vbatLow = false →
      (s.fuses.running = some (.bdAddr bs) →
        exec (.fuseWrite true) s = .next (kilnDone 2 0 0 0 { s with fuses := { s.fuses with running := none, bdAddr := .data bs } }) ∧
        exec (.fuseWrite false) s = .next (kilnDone 2 5 0x1E 0 { s with fuses := { s.fuses with running := none, bdAddr := .torn } })) ∧
      (s.fuses.running = some .close →
        exec (.fuseClose true) s = .next (kilnDone 2 0 0 0 { s with fuses := { s.fuses with running := none, closed := true } })))

/-- READ, WRITE, WRITE_IF, ERASE, QUICK_WRITE and RAISE of the LEDGER engine (R397 to R399, R442). -/
def Obligations.LedgerCommandResults : Prop :=
  ∀ (s t u : State) (img bs z : Bytes),
    let n := ledgerIdx img
    let b := imgBuf img 0
    let serves (op : Nat) : Prop := s.kilnUp = true ∧ cmdImage 5 s = some img ∧ imgOp img = op ∧ t = cDrop (cmdKey 5) s
    -- the port is free and the mode machine asks for nothing
    let free (v : State) : Prop := portFree v = true ∧ v.sys.recordWanted = false ∧ v.creds.jobs = [] ∧ v.creds.jobRuns = false
    -- the same for a write of units, which a scan does not keep waiting
    let unitsFree (v : State) : Prop := v.led.writing = none ∧ (v.sys.recordWanted = false ∨ v.led.scanFrom ≠ none) ∧ v.creds.jobs = [] ∧
      v.creds.jobRuns = false
    -- the operation's first write has begun on v
    let begins (ws : List JobWrite) (seq : Nat) (w : JobWrite) (v : State) : State :=
      onCreds (fun c => { c with jobRuns := true }) (beginJob w (onCreds (fun c => { c with jobs :=
        [⟨ws, [.done 5 (ledgerStat seq 0 0)], [.done 5 (ledgerStat 0 5 5)]⟩] }) v))
    let record (body : Bytes) (v : State) : State := begins [.record n body] (currentSeq v n + 1) (.record n body) v
    (serves 1 → n ≤ 239 → t.led.scanFrom = none → (currentBytes t n).any (fun c => leAt c 3 1 % 2 = 1) = false →
      ledgerBuf img 256 true = true → ledgerFormat img = true →
      devWrite 5 b.ctx b.addr ((currentBytes t n).getD erasedCopy) t = (.ok z, u) → exec .ledgerRead s = .next (ledgerDone 0 0 0 u)) ∧
    (serves 1 → n ≤ 239 → t.led.scanFrom ≠ none → exec .ledgerRead s = .next (ledgerDone 0 0 0xA t)) ∧
    (serves 1 → n ≤ 239 → t.led.scanFrom = none → (currentBytes t n).any (fun c => leAt c 3 1 % 2 = 1) = true →
      exec .ledgerRead s = .next (ledgerDone 0 2 5 t)) ∧
    (n ≤ 63 → (serves 2 → exec .ledgerWrite s = .next (ledgerDone 0 2 5 t)) ∧ (serves 3 → exec .writeIf s = .next (ledgerDone 0 2 5 t)) ∧
      (serves 4 → exec .ledgerErase s = .next (ledgerDone 0 2 5 t))) ∧
    (64 ≤ n → n ≤ 239 → free t →
      (serves 3 → currentSeq t n ≠ ledgerArg img → exec .writeIf s = .next (ledgerDone 0 3 5 t)) ∧
      (serves 4 → ledgerFormat img = true → wornOut t n = false →
        exec .ledgerErase s = .next (record (copyBody 0 0 []) t)) ∧
      (ledgerBuf img 248 false = true → ledgerFormat img = true → devRead 5 b.ctx b.addr 248 t = (.ok bs, u) → writeBytesOk bs = true →
        free u → wornOut u n = false →
        let body := bs.take (8 + leAt bs 2 1) ++ List.replicate (240 - leAt bs 2 1) 0
        (serves 2 → exec .ledgerWrite s = .next (record body u)) ∧
        (serves 3 → currentSeq t n = ledgerArg img → exec .writeIf s = .next (record body u)))) ∧
    (serves 5 → 16 ≤ n → n ≤ 255 → ledgerBuf img 16 false = true → ledgerFormat img = true →
      devRead 5 b.ctx b.addr 16 t = (.ok bs, u) → unitsFree u → exec .quickWrite s = .next (begins [.unit n bs] 0 (.unit n bs) u)) ∧
    (serves 6 → ledgerFormat img = true →
      let v := leBytes 16 (ledgerArg img)
      (ledgerArg img ≤ rollbackMin t → exec .raise s = .next (ledgerDone 0 0 0 t)) ∧
      (rollbackMin t < ledgerArg img → unitsFree t → exec .raise s = .next (begins [.unit 1 v, .unit 2 v] 0 (.unit 1 v) t)))

/-- The port of the ledger (R368, R369, R371, R374, R376, R378, R400 to R402, R406, R414, R417). -/
def Obligations.LedgerPortResults : Prop :=
  ∀ (s : State) (w : Word),
    let t := cDrop 0x54 s
    let n := bits w 15 8
    (s.live = true → s.led.scanFrom = none → s.led.rescanWanted = false → ∀ c : Fin 6, c ≠ 4 →
      ((s.sys.mode = .factory ∨ s.sys.mode = .service) → s.led.writing = none →
        (ledgerCtrl s 4 = some w → exec (.rescan .port) s = .next (beginScan t)) ∧
        exec (.rescan (.register (.core c) 0x4C47)) s = .next (beginScan s)) ∧
      ((s.sys.mode = .factory ∨ s.sys.mode = .service) → s.led.writing ≠ none →
        exec (.rescan (.register (.core c) 0x4C47)) s = .next { s with led := { s.led with rescanWanted := true } }) ∧
      (s.sys.mode ≠ .factory → s.sys.mode ≠ .service → exec (.rescan (.register (.core c) 0x4C47)) s = .next s)) ∧
    (s.live = true → ledgerCtrl s 1 = some w →
      (s.led.scanFrom ≠ none → exec .readCopy s = .next (devSend 0x55 [(0x0000000A, false)] t)) ∧
      (s.led.scanFrom = none → 239 < n → exec .readCopy s = .next (devSend 0x55 [(0x00000105, false)] t)) ∧
      (s.led.scanFrom = none → n ≤ 239 →
        exec .readCopy s = .next (devSend 0x55 [(0, false)] (devSend 0x53 (withEom (wordsOf (slotBytes t n true))) t)))) ∧
    (s.live = true → s.led.collecting = none → s.led.waiting = none → (s.chan 0x52).q = [] →
      (ledgerCtrl s 2 = some w → exec .writeCopy s = .next { t with led := { t.led with collecting := some (if s.led.scanFrom = none then 2 else 0xA, n, []) } }) ∧
      (ledgerCtrl s 3 = some w → exec .unitWrite s = .next { t with led := { t.led with collecting := some (3, n, []) } })) ∧
    (∀ (op m : Nat) (ws : List Word) (x : ChWord) (q : List ChWord),
      s.live = true → s.led.collecting = some (op, m, ws) → (s.chan 0x52).q = x :: q → (s.chan 0x52).back = [] →
      let u := cDrop 0x52 s
      (x.eom = false → q = [] → exec .writeCopy s = .next { u with led := { u.led with collecting := some (op, m, ws ++ [x.w]) } }) ∧
      (x.eom = true →
        let v := { u with led := { u.led with collecting := none } }
        (op = 2 → m ≤ 239 → ws.length = 61 → portFree s = true →
          (wornOut s m = false → exec .writeCopy s = .next (beginCopy m (bytesOf (ws ++ [x.w])) .channel v)) ∧
          (wornOut s m = true →
            exec .writeCopy s = .next (sendLedgerStat 0 6 5 (ackLedgerSnd (v.setRbit rLEDGER_STAT 4 true))))) ∧
        (op = 0xA → exec .writeCopy s = .next (sendLedgerStat 0 0 0xA (ackLedgerSnd v))) ∧
        (op = 3 → ws.length = 3 → s.led.writing = none → exec .unitWrite s = .next (beginUnit m (bytesOf (ws ++ [x.w])) .channel v)))) ∧
    (∀ (x : LedgerWrite) (ok : Bool), s.led.writing = some x → s.led.rescanWanted = false →
      let u := endWrite ok s
      (s.sys.mode = .quenched →
        let v := { u with led := { u.led with ackDue := some (x, ok) } }
        ((∃ r k, x.target = .copy r k) → exec (.commitWordVerified ok) s = .next v) ∧
        ((∃ i, x.target = .unit i) → exec (.unitWriteDone ok) s = .next v)) ∧
      (s.live = true → ok = true → x.asked = .modeRecord → (∃ r k, x.target = .copy r k) → s.led.waiting = none →
        s.sys.recordWanted = false → s.creds.jobs = [] → exec (.commitWordVerified ok) s = .next u) ∧
      (s.live = true → x.asked = .channel → (∃ i, x.target = .unit i) → s.led.waiting = none →
        s.sys.recordWanted = false → s.creds.jobs = [] → exec (.unitWriteDone ok) s =
          .next (sendLedgerStat 0 (if ok then 0 else 5) (if ok then 0 else 5) (ackLedgerSnd u))) ∧
      u.led.writing = none ∧ u.rbit rLEDGER_STAT 2 = false ∧
      (∀ r k, x.target = .copy r k →
        copyOf u r k = (if ok then x.bytes else (s.freshBytes 0xF8).1 ++ List.replicate 8 0) ∧
        (∀ r' k', 2 * r' + k' ≠ 2 * r + k → copyOf u r' k' = copyOf s r' k') ∧ u.led.units = s.led.units) ∧
      (∀ i, x.target = .unit i →
        (ok = true → unitBytes u i = x.bytes ∧ i ∉ u.led.tornUnits) ∧ (ok = false → i ∈ u.led.tornUnits) ∧
        u.led.copies = s.led.copies))

/-- QUENCH (R1108 to R1111, R1113, R1128, R1129, R1131). -/
def Obligations.QuenchResults : Prop :=
  ∀ s : State,
    let freeze (src : BitVec 4) (x : State) : State := { x with assay := { x.assay with
      freezing := true, srcs := (if x.assay.freezing then x.assay.srcs else 0) ||| src, holdsReset := x.pwr.resetReq.isSome } }
    let low := { s with assay := { s.assay with ballLow := true } }
    let factoryOrService : Prop := s.sys.mode = .factory ∨ s.sys.mode = .service
    (s.assay.ballLow = false →
      (factoryOrService → exec .quenchBallFall s = .next (freeze 0b0010 low)) ∧
      (s.sys.mode = .banked → exec .quenchBallFall s = .next { low with assay := { low.assay with bankLatch := true } }) ∧
      (s.sys.mode = .off ∨ (s.sys.mode = .quenched ∧ s.assay.thawAt ≠ some s.clk.rtc) → exec .quenchBallFall s = .next low) ∧
      (s.sys.mode = .quenched → s.assay.thawAt = some s.clk.rtc → exec .quenchBallFall s =
        .next { low.setRbit rASSAY_STAT 5 true with assay := { low.assay with thawAt := none } }) ∧
      (s.sys.mode ∈ [.scan, .unmated, .parked, .approach, .access, .lockdown] →
        exec .quenchBallFall s = .next (modeEvent 3 (low.satFld rASSAY_IGNORED 31 0))) ∧
      (s.sys.mode = .drive → ∃ t, exec .quenchBallFall s = .next t ∧ t = commit .access 0x0B (modeEvent 3 (low.satFld rASSAY_IGNORED 31 0)) ∧
        t.sys.mode = .access ∧ t.sys.cause = 0x0B)) ∧
    exec .quenchBallRise s = .next { s with assay := { s.assay with ballLow := false } } ∧
    (∀ who, s.live = true → ((∃ c : Fin 6, c.val < 4 ∧ who = .core c) ∨ who ∈ hostReqs) →
      (factoryOrService → exec (.quenchRequest who 0x5155) s = .next (freeze 0b0100 s)) ∧
      (¬ factoryOrService → exec (.quenchRequest who 0x5155) s = .next (s.setRbit rASSAY_STAT 7 true))) ∧
    (∀ who key, s.live = true → key ≠ 0x5155 → exec (.quenchRequest who key) s = .next s) ∧
    (s.sys.mode ≠ .off →
      let p (ir : Nat) := { s with assay := { s.assay with ir := ir, shiftOut := [false] } }
      (factoryOrService → exec (.quench true) s = .next (freeze 0b1000 (p 0x10))) ∧
      (¬ factoryOrService → exec (.quench true) s = .next ((p 0x10).setRbit rASSAY_STAT 7 true)) ∧
      (s.sys.mode = .quenched → s.assay.ballLow = false → s.assay.thawAt = none →
        exec (.thaw true) s = .next { p 0x11 with assay := { (p 0x11).assay with thawAt := some s.clk.rtc } }) ∧
      ((s.sys.mode ≠ .quenched ∨ s.assay.ballLow = true) → exec (.thaw true) s = .next ((p 0x11).setRbit rASSAY_STAT 5 true))) ∧
    (s.assay.freezing = true → factoryOrService → ∃ t, exec .coherentStop s = .next t ∧
      t.sys.mode = .quenched ∧ t.sys.prev = some s.sys.mode ∧ t.sys.cause = 0x0F ∧ t.clk = { s.clk with running := false } ∧
      t.reg rASSAY_STAT = wd (65536 * ((s.fld rASSAY_STAT 31 16 + 1) % 65536) + 256 * s.sys.mode.code + s.assay.srcs.toNat + 1 +
        (32 * s.fld rASSAY_STAT 5 5 + 128 * s.fld rASSAY_STAT 7 7)) ∧
      t.reg rASSAY_FREEZE_TB_LO = wd s.clk.tb ∧ t.reg rASSAY_FREEZE_TB_HI = wd (s.clk.tb / 2 ^ 32) ∧
      t.reg rASSAY_FREEZE_RTC = wd s.clk.rtc) ∧
    (s.sys.mode = .quenched → s.assay.thawAt ≠ none → ∃ v,
      exec .thawResume s = .next (serveWaiting (serviceEnd (when (tamperLatched (thawBlocks v)) (raiseLockdown 1) (thawBlocks v)))) ∧
      v.sys.mode = (if s.fld rASSAY_STAT 11 8 = 3 then .factory else .service) ∧ v.sys.prev = some .quenched ∧ v.sys.cause = 0x10 ∧
      v.clk = { s.clk with running := true, unlockedAt := none } ∧ v.rbit rTB_STAT 2 = true ∧ v.rbit rTB_STAT 0 = true ∧ v.reg rASSAY_THAW_RTC = wd s.clk.rtc ∧
      v.rbit rASSAY_STAT 0 = false)

/-- The 1149.1 port (R1118 to R1125, R1127, R1168, R1179). -/
def Obligations.AssayPortResults : Prop :=
  ∀ (s : State), s.sys.mode ≠ .off →
    -- the port alone has changed: instruction, what left it, and free values drawn
    let port (ir : Nat) (out : List Bool) (free : Nat) : State := { s with free := free, assay := { s.assay with ir := ir, shiftOut := out } }
    (∀ tdi, exec (.bypass tdi) s = .next (port 0xFF ((false :: tdi).take tdi.length) s.free)) ∧
    exec .idcode s = .next (port 1 (bitsOfWord (s.reg rASSAY_ID)) s.free) ∧
    exec .status s = .next (port 0x12 (bitsOfWord (assayStat s)) s.free) ∧
    (∀ cells, ∃ out f, out.length = 84 ∧ out[0]? = some (!s.assay.ballLow) ∧
      (out.drop 78).take 3 = [s.crankRelease, s.crankRelease, true] ∧ (out.drop 81).take 3 = [!s.crankRelease, !s.crankRelease, true] ∧
      (s.sys.mode = .scan ∨ s.sys.mode = .quenched → ∀ k ∈ [18, 20, 22, 24], (out.drop (3 * k)).take 3 = [true, true, true]) ∧
      (let t := port 2 out f
       exec (.samplePreload cells) s = .next { t with assay := { t.assay with boundary := cells } }) ∧
      (s.sys.mode = .factory → let t := port 3 out f
       exec (.extest cells) s = .next { t with assay := { t.assay with boundary := cells } })) ∧
    (∀ cells, s.sys.mode ≠ .factory → exec (.extest cells) s = .next (port 3 ((false :: cells).take cells.length) s.free)) ∧
    exec .trstNLow s = .next { s with assay := { s.assay with ir := 1 } } ∧
    (s.sys.mode ≠ .quenched →
      (∀ n, exec (.sel n) s = .next (port 0x13 (List.replicate 8 false) s.free)) ∧
      exec .chain s = .next (port 0x14 (List.replicate (chainLength s.assay.chain) false) s.free) ∧
      (∀ v, exec (.addr v) s = .next (port 0x15 (List.replicate 48 false) s.free)) ∧
      exec .sram s = .next (port 0x16 (List.replicate (72 * s.assay.count) false) s.free) ∧
      (∀ a, exec (.reg a) s = .next (port 0x17 (List.replicate 64 false) s.free))) ∧
    (s.sys.mode = .quenched →
      (∀ n : BitVec 8, ∃ out, out.length = 8 ∧
        (let t := port 0x13 out s.free
         exec (.sel n) s = .next { t with assay := { t.assay with chain := n.toNat } })) ∧
      (∃ out f, exec .chain s = .next (port 0x14 out f) ∧
        (kilnChain s.assay.chain = true → kilnMasked s = true → out = maskPattern (chainLength s.assay.chain)) ∧
        (s.assay.chain < 5 → out.take 32 = bitsOfWord (s.cores.get (Fin.ofNat 6 s.assay.chain)).pc) ∧
        (0x1B < s.assay.chain → out = [false])) ∧
      (∀ v : BitVec 48, ∃ out, out.length = 48 ∧
        (let t := port 0x15 out s.free
         exec (.addr v) s = .next { t with assay := { t.assay with addr := bits v 31 3 * 8, count := bits v 47 32 + 1 } })) ∧
      (∃ checks : Bytes, checks.length = s.assay.count ∧
        exec .sram s = .next (port 0x16 (checks.zipIdx.flatMap (fun e => granuleBits (s.assay.addr + 8 * e.2) e.1 s)) (s.free + s.assay.count))) ∧
      (∀ a : BitVec 32, ∃ w f,
        (inControl s.assay.regAddr = false → w = 0) ∧
        (let t := port 0x17 (bitsOfWord (wd s.assay.regAddr) ++ bitsOfWord w) f
         exec (.reg a) s = .next { t with assay := { t.assay with regAddr := a.toNat } })))

/-- BANKED and its wake (R74, R280, R1087 to R1092, R1095, R1191). -/
def Obligations.BankedResults : Prop :=
  ∀ s : State,
    let held (src : Nat) (x : State) : State := { x with pwr := { x.pwr with heldSrc := x.pwr.heldSrc ||| BitVec.ofNat 6 (1 <<< src) } }
    let latched := s.setRbit rPWR_TAMPER 1 true
    (s.pwr.aon = true → s.rbit rPWR_TAMPER 0 = true → s.rbit rPWR_TAMPER 1 = false →
      (s.sys.mode = .off → exec .tamper s = .next latched) ∧
      (s.sys.mode = .banked → s.pwr.wakeAt = none → exec .tamper s = .next (held 5 latched)) ∧
      (s.live = true → s.sys.mode ∈ [.unmated, .parked, .approach, .access, .drive, .service] → ∃ t, exec .tamper s = .next t ∧
        t.sys.mode = .lockdown ∧ t.sys.prev = some s.sys.mode ∧ t.sys.cause = 0x12 ∧ t.sys.lockCause = s.sys.lockCause ||| 2 ∧
        t.sys.recordWanted = true ∧ t.rbit rSYS_MODE_EVT 0 = true)) ∧
    (s.live = true → s.pwr.entering = true → s.flash.suspended = false → s.flash.running = none → s.led.writing = none →
      ∃ t, exec .t05 s = .next t ∧ t.sys.mode = .banked ∧ t.sys.prev = some s.sys.mode ∧ t.sys.bankFrom = some s.sys.mode ∧
        t.sys.cause = 0x04 ∧ t.pwr = { s.pwr with entering := false, t05At := some s.clk.rtc, wdtFrom := none, heldSrc := t.pwr.heldSrc } ∧
        ((∀ m, s.cap.touched ≠ some (s.clk.rtc, m)) → t.pwr.heldSrc = s.pwr.heldSrc) ∧
        t.rbit rSYS_MODE_EVT 0 = true ∧ t.led = s.led ∧ t.clk = s.clk) ∧
    (s.sys.mode = .banked → ∀ n, s.pwr.t05At = some n → n + 3 ≤ s.clk.rtc →
      let lost : Nat → Bool := fun a => inKilnSram a || (inSram a && 0x20100000 ≤ a)
      let base := { s with
        mem := { s.mem with
          cells := s.mem.cells.filter (fun e => !lost e.1), badGranules := s.mem.badGranules.filter (fun g => !lost g)
          flips := s.mem.flips.filter (fun g => !lost g)
          dcache := Vector.replicate 6 [], icache := Vector.replicate 6 [], tlb := [], xlateBusy := false }
        clk := { s.clk with running := false, unlockedAt := none }, pwr := { s.pwr with t05At := none, entryRtc := some s.clk.rtc } }
      (s.pwr.heldSrc = 0 → s.pwr.resetWake = none → exec .completionOfEntry s = .next base) ∧
      exec .completionOfEntry s = exec .wakeEvent base) ∧
    (wd s.clk.rtc = s.reg rPWR_WAKE_RTC →
      (s.rbit rPWR_WAKE_EN 4 = false → exec .rtcWake s = .next s) ∧
      (s.rbit rPWR_WAKE_EN 4 = true → s.sys.mode = .banked → s.pwr.wakeAt = none → exec .rtcWake s = .next (held 4 s)) ∧
      (s.rbit rPWR_WAKE_EN 4 = true → s.sys.mode = .banked → s.pwr.wakeAt ≠ none →
        exec .rtcWake s = .next (s.setRbit rPWR_WAKE_SRC 4 true))) ∧
    (s.sys.mode = .banked → s.pwr.wakeAt = none →
      (s.rbit rPWR_WAKE_EN 3 = true → exec .hwake s = .next (forEach hostReqs (hostEvent 5) (held 3 s))) ∧
      (s.rbit rPWR_WAKE_EN 3 = false → exec .hwake s = .next s) ∧
      (s.pwr.entryRtc ≠ none → s.pwr.heldSrc ≠ 0 ∨ s.pwr.resetWake ≠ none →
        let t := (s.setFld rPWR_WAKE_SRC 5 0 s.pwr.heldSrc.toNat).setRbit rSYS_ECC_STAT 0 false
        exec .wakeEvent s = .next { t with
          clk := { t.clk with unlockedAt := t.clk.unlockedAt.filter (fun n => n = s.clk.rtc) }
          pwr := { t.pwr with wakeAt := some s.clk.rtc, heldSrc := 0 } })) ∧
    (s.sys.mode = .banked → ∀ w, s.pwr.wakeAt = some w → w + 12 ≤ s.clk.rtc → s.rbit rPWR_TAMPER 1 = false →
      s.assay.bankLatch = false → s.pwr.resetWake = none →
      ∃ t, exec .wakeComplete s = .next t ∧ t.sys.mode = s.sys.bankFrom.getD .parked ∧ t.sys.prev = some .banked ∧ t.sys.cause = 0x05 ∧
        t.pwr.wakeAt = none ∧ t.pwr.entryRtc = none ∧ t.rbit rSYS_MODE_EVT 0 = true) ∧
    (s.sys.mode ≠ .off → s.mem.clearing ≠ none →
      let t := s.setRbit rSYS_ECC_STAT 0 true
      exec .sramInitDone s = .next { t with mem := { t.mem with clearing := none } })

/-- Clocks and VCORE (R124, R125, R134, R141), registers (R14, R265), caches (R268), the scrubber (R277), the translation
cache (R308) and code flash (R337 to R343, R1184). -/
def Obligations.UpkeepResults : Prop :=
  ∀ (s : State) (who : Req) (v : Word) (c : Fin 6),
    let target := min (bits v 4 0) 0x1E
    let now := s.fld rPWR_VCORE_STAT 12 8
    let goal := s.fld rPWR_VCORE 4 0
    (s.vcoreOpen = true → Writers.appKiln.permits who = true → target ≠ goal →
      exec (.vcoreTargetWrite who v) s = .next { (s.setFld rPWR_VCORE 4 0 target).setRbit rPWR_VCORE_STAT 1 false with
        pwr := { s.pwr with buckAt := if now = goal then s.clk.tb else s.pwr.buckAt } }) ∧
    (s.vcoreOpen = true → (Writers.appKiln.permits who = false ∨ target = goal) → exec (.vcoreTargetWrite who v) s = .next s) ∧
    (s.live = true ∨ (s.sys.mode = .banked ∧ s.clk.running = true) →
      (now ≠ goal → s.pwr.buckAt + 125 ≤ s.clk.tb →
        exec .buckStep s = .next { s.setFld rPWR_VCORE_STAT 12 8 (if now < goal then now + 1 else now - 1) with
          pwr := { s.pwr with buckAt := s.pwr.buckAt + 125 } }) ∧
      (now = goal → s.rbit rPWR_VCORE_STAT 1 = false → s.pwr.buckAt + 625 ≤ s.clk.tb →
        exec .vcoreSettled s = .next ((s.setRbit rPWR_VCORE_STAT 1 true).setRbit rPWR_VCORE_STAT 0 true))) ∧
    (s.live = true →
      let answered (k w : Nat) (lo : Word) : State :=
        { s.setReg (regKey who k) (wd w) with host := { s.host with answer := ⟨0, [lo], false⟩ } }
      exec (.tbNowLo who) s = .next (answered rTB_NOW_HI (s.clk.tb / 2 ^ 32) (wd s.clk.tb)) ∧
      exec (.rtcNowLo who) s = .next (answered rRTC_NOW_HI (s.clk.rtc / 2 ^ 32 % 2 ^ 16) (wd s.clk.rtc))) ∧
    (∀ (a : BitVec 32), s.live = true → a.toNat % 4 = 0 → inPrivate a.toNat = false → inKilnRegs a.toNat = false →
      (regDef? a.toNat = none → exec (.registerWrite (.core c) a v) s = .next s) ∧
      ∀ d, regDef? a.toNat = some d → writeOwn (.core c) a.toNat v s = none →
        (d.who.permits (.core c) = false → exec (.registerWrite (.core c) a v) s = .next s) ∧
        (d.who.permits (.core c) = true → writeBlock a.toNat v s = none →
          exec (.registerWrite (.core c) a v) s = .next (s.setReg (s.keyOf (.core c) a.toNat)
            ((s.reg (s.keyOf (.core c) a.toNat) &&& ~~~d.rw &&& ~~~(d.w1c &&& v)) ||| (v &&& d.rw) ||| (v &&& d.w1s))))) ∧
    (s.runs c = true → Inv s → ∃ t, exec (.flushD c) s = .next t ∧ t.lines c = [] ∧ SameBytes s t ∧ MemOnly s t) ∧
    (s.runs c = true → exec (.invI c) s = .next (s.setIlines c [])) ∧
    (s.live = true → s.fld rSYS_ECC_CTL 3 0 ≠ 0 → s.mem.scrubAt + 2 ^ (s.fld rSYS_ECC_CTL 3 0 + 6) ≤ s.clk.tb →
      let next := (s.mem.scrubPos + 8) % 0x800000
      (∀ u, ∃ t, exec (.scrub u) s = .next t ∧ t.mem.scrubPos = next ∧ t.mem.scrubAt = s.clk.tb ∧
        ∀ k, k ∉ eccKeys → t.reg k = s.reg k) ∧
      (s.granuleBad (0x20000000 + s.mem.scrubPos) = false → s.mem.flips = [] →
        exec (.scrub .none) s = .next { s with mem := { s.mem with scrubPos := next, scrubAt := s.clk.tb } })) ∧
    (s.live = true → Writers.app.permits who = true → ∀ (ctx : Fin 64) (page : BitVec 20),
      let kept (p : TlbEntry → Bool) : State := { s with mem := { s.mem with tlb := s.mem.tlb.filter p, xlateBusy := true } }
      exec (.xlateInvPage who ctx page) s = .next (kept (fun e => !(e.ctx == ctx.val && e.page == page.toNat))) ∧
      exec (.xlateInvContext who ctx) s = .next (kept (fun e => !(e.ctx == ctx.val))) ∧
      exec (.xlateInvAll who) s = .next (kept (fun _ => false))) ∧
    (s.live = true → s.mem.xlateBusy = true →
      exec .xlateInvDone s = .next { s with mem := { s.mem with xlateBusy := false } }) ∧
    (s.live = true → Writers.appKiln.permits who = true →
      let rejected := s.setRbit rFLASH_STAT 2 true
      let addr := (s.reg rFLASH_ADDR).toNat
      let src := (s.reg rFLASH_SRC).toNat
      let len := s.fld rFLASH_LEN 12 0
      (∀ key, key ≠ 0x464C → exec (.program who key) s = .next (s.setRbit rFLASH_STAT 3 true) ∧
        exec (.suspend who key) s = .next (s.setRbit rFLASH_STAT 3 true) ∧
        exec (.flashResume who key) s = .next (s.setRbit rFLASH_STAT 3 true)) ∧
      (s.flash.running ≠ none → exec (.program who 0x464C) s = .next rejected) ∧
      (s.flash.running = none → inFlash addr = true → addr % 16 = 0 → src % 16 = 0 → len % 16 = 0 → 16 ≤ len → len ≤ 4096 →
        addr % 4096 + len ≤ 4096 → inSram src = true → inSram (src + len - 1) = true → protectedAddr addr s = false →
        sectorOf addr ∉ s.flash.torn →
        exec (.program who 0x464C) s = .next { s with flash := { s.flash with running := some (.program addr src len) } }) ∧
      (erasePulse s = true →
        exec (.suspend who 0x464C) s = .next { s with flash := { s.flash with suspending := true } }) ∧
      (erasePulse s = false → exec (.suspend who 0x464C) s = .next rejected) ∧
      (s.flash.suspended = true →
        exec (.flashResume who 0x464C) s = .next { s with flash := { s.flash with suspended := false } }) ∧
      (s.flash.suspended = false → exec (.flashResume who 0x464C) s = .next rejected)) ∧
    (s.live = true → s.flash.suspending = true → erasePulse s = true →
      exec .suspendTakesEffect s = .next { s with flash := { s.flash with suspending := false, suspended := true } }) ∧
    (∀ sec, s.live = true → s.flash.running = some (.erase sec) → s.flash.suspended = false → s.host.install = none →
      ∃ t, exec (.flashDone none) s = .next t ∧ t.flash = { s.flash with
          running := none, suspending := false, suspended := false
          markers := s.flash.markers.filter (fun x => !(x == sec)), torn := s.flash.torn.filter (fun x => !(x == sec)) } ∧
        t.reg rFLASH_DONE = wd ((s.fld rFLASH_DONE 31 16 + 1) % 65536 * 65536) ∧
        ∀ k, k ≠ rFLASH_DONE → t.reg k = s.reg k)

/-- The control operations (R422 to R429, R443, R444, R450, R457, R463, R479 to R483, R1188) and the doorbell (R433, R519). -/
def Obligations.QueueControlResults : Prop :=
  ∀ (s t : State) (who : Req) (operand : BitVec 16) (b : Bytes) (n : Nat) (q : Queue) (x : Buffer) (e : Edge),
    let owner := Req.code who
    let arg := (s.reg (regKey who rFRONT_ARG)).toNat
    let num := operand.toNat
    -- the result in the requester's FRONT_RES
    let ends (code value : Nat) (u : State) : State := u.setReg (regKey who rFRONT_RES) (wd (code * 2 ^ 24 + value))
    let refused (code : Nat) : State := (ends code 0 s).setRbit rFRONT_EVT 4 true
    let serves : Prop := s.live = true ∧ s.sys.mode ≠ .scan ∧ (s.front.held = false ∨ owner = 0)
    -- the setup block that FRONT_ARG names is read, and t is the state after the read
    let block (len : Nat) : Prop := num = 0 ∧ arg % len = 0 ∧ inSram arg = true ∧ inSram (arg + len - 1) = true ∧
      physRead 0x22 arg len s = (.ok b, t)
    -- no cage holds the queue, nor has one preloaded a command of it
    let outOfCages : Prop := ∀ c, (s.cage c).queue ≠ some num ∧ ∀ p, (s.cage c).preload = some p → p.1 ≠ num
    let named : Prop := num ≤ 511 ∧ arg = 0 ∧ s.queue? num = some q
    let owned : Prop := named ∧ q.owner = owner
    (serves → block 32 → queueSetupOk t owner b = true → lowestFree 512 t.front.queues = some n →
      exec (.qCreate who operand) s = .next (ends 0 n { t with front := { t.front with
        past := adel t.front.past n, queues := ains t.front.queues n (newQueue t owner b) } })) ∧
    (serves → owned → q.st = .idle ∨ q.st = .stopped → dispatchedOf s num = false →
      exec (.qDestroy who operand) s = .next (ends 0 0 { s with front := { s.front with
        queues := adel s.front.queues num, past := ains s.front.past num (q.poll, q.timeouts, q.lateDiscard) } })) ∧
    (serves → owned → q.st ≠ .idle → q.st ≠ .stopped → exec (.qDestroy who operand) s = .next (refused 4)) ∧
    (serves → named → q.owner ≠ owner → exec (.qDestroy who operand) s = .next (refused 3) ∧
      exec (.qStop who operand) s = .next (refused 3) ∧ exec (.qStart who operand) s = .next (refused 3)) ∧
    (serves → owned →
      (q.st = .stopped → exec (.qStop who operand) s = .next (ends 0 0 s)) ∧
      (q.st = .guilty → exec (.qStop who operand) s = .next (refused 4)) ∧
      (q.st ≠ .stopped → q.st ≠ .guilty → dispatchedOf s num = true → ∃ u, exec (.qStop who operand) s = .next (ends 0 0 u) ∧
        u.queue? num = some { q with stopping := true } ∧ u.mem = s.mem ∧ u.regs = s.regs) ∧
      (q.st ≠ .stopped → q.st ≠ .guilty → dispatchedOf s num = false → outOfCages → exec (.qStop who operand) s =
        .next (ends 0 0 (s.putQueue num { q with st := .stopped, stopReason := 1, stopping := false, waitFrom := none })))) ∧
    (serves → owned →
      (q.st ≠ .stopped → exec (.qStart who operand) s = .next (refused 4)) ∧
      (q.st = .stopped → q.head = q.tail → exec (.qStart who operand) s =
        .next (ends 0 0 (feed (s.putQueue num { q with st := .idle, stopReason := 0, held := none })))) ∧
      (q.st = .stopped → q.head ≠ q.tail → q.held = none → exec (.qStart who operand) s =
        .next (ends 0 0 (feed (s.putQueue num { q with st := .ready, stopReason := 0 }))))) ∧
    (serves → owner = 0 → num < 4096 → arg = 0 → s.queue? (num % 512) = some q →
      s.critOnly (cageNo (num / 512 % 8)) = q.critical →
      (q.st = .running ∨ dispatchedOf s (num % 512) = true →
        exec (.qBind who operand) s = .next (ends 0 0 (s.putQueue (num % 512) { q with bindTo := some (num / 512 % 8) }))) ∧
      (q.st ≠ .running → dispatchedOf s (num % 512) = false →
        exec (.qBind who operand) s = .next (ends 0 0 (feed (s.putQueue (num % 512) { q with cage := num / 512 % 8 }))))) ∧
    (serves → owner ≠ 0 → exec (.qBind who operand) s = .next (refused 3) ∧ exec (.resume who operand) s = .next (refused 3)) ∧
    (serves → named → exec (.qQuery who operand) s = .next (ends 0 (fld 20 q.st.code + fld 17 q.cage + fld 16 (b2n q.critical) +
      fld 12 q.owner + fld 9 q.stopReason) s)) ∧
    (serves → block 16 → bufSetupOk b = true → lowestFree 1024 t.front.buffers = some n →
      let gen := agetD t.front.bufGen n 0 % 63 + 1
      exec (.bReg who operand) s = .next (ends 0 (gen * 1024 + n) { t with front := { t.front with
        buffers := ains t.front.buffers n ⟨owner, leAt b 0 6, leAt b 8 4, leAt b 0xC 1, leAt b 0xD 1⟩
        bufGen := ains t.front.bufGen n gen } })) ∧
    (serves → arg = 0 → s.bufAt num = some x → x.owner = owner → handleHeld s num = false →
      exec (.bUnreg who operand) s = .next (ends 0 0 { s with front := { s.front with buffers := adel s.front.buffers (num % 1024) } })) ∧
    (serves → num = 0 → arg ≤ 1 → lowestFree 4096 s.front.edges = some n →
      let gen := agetD s.front.edgeGen n 0 % 15 + 1
      exec (.eAlloc who operand) s = .next (ends 0 (gen * 4096 + n) { s with front := { s.front with
        edges := ains s.front.edges n ⟨.armed, owner, arg = 1⟩, edgeGen := ains s.front.edgeGen n gen } })) ∧
    (serves → arg = 0 → s.edgeAt num = some e →
      exec (.eQuery who operand) s = .next (ends 0 e.st.code s) ∧
      (e.owner = owner → edgeInUse s num = false →
        exec (.eFree who operand) s = .next (ends 0 0 { s with front := { s.front with edges := adel s.front.edges (num % 4096) } })) ∧
      (e.owner = owner → edgeInUse s num = true → exec (.eFree who operand) s = .next (refused 4))) ∧
    (serves → owner = 0 → num = 0 → arg = 0 →
      exec (.resume who operand) s = .next (ends 0 0 (feed { s with front := { s.front with held := false } }))) ∧
    ((∀ c, (s.cage c).queue ≠ none) → feed s = s) ∧
    (s.live = true → s.sys.mode = .scan → exec (.qCreate who operand) s = .next (refused 6)) ∧
    (∀ (v : Word), s.live = true →
      (s.queue? (bits v 8 0) = none → exec (.doorbell who v) s = .next (s.setRbit rFRONT_EVT 2 true)) ∧
      (s.queue? (bits v 8 0) = some q → q.owner ≠ owner → exec (.doorbell who v) s = .next (s.setRbit rFRONT_EVT 2 true)) ∧
      (s.queue? (bits v 8 0) = some q → q.owner = owner →
        let tail := bits v 31 16
        let d := (tail + 65536 - q.head) % 65536
        (d ≤ 2 ^ q.size → (tail + 65536 - q.tail) % 65536 ≤ d → exec (.doorbell who v) s = .next (feed (s.putQueue (bits v 8 0)
          { q with tail := tail, st := if q.st = .idle ∧ q.head ≠ tail then .ready else q.st }))) ∧
        (¬ (d ≤ 2 ^ q.size ∧ (tail + 65536 - q.tail) % 65536 ≤ d) →
          exec (.doorbell who v) s = .next (s.setRbit rFRONT_EVT 1 true))))

/-- The steps of the front end (R446, R455, R456, R465, R469, R472 to R476, R487, R509, R516 to R521). -/
def Obligations.DispatchResults : Prop :=
  ∀ (s t : State) (c : Fin 8) (n e : Nat) (q : Queue) (f : Fetched) (d : Dispatched) (img : Bytes) (b : Bool) (w : Word),
    let g := s.cage c
    let runs : Prop := s.up = true ∧ s.front.held = false
    -- the queue's HEAD descriptor is read, and t is the state after the read
    let reads : Prop := g.queue = some n ∧ s.queue? n = some q ∧ g.disp = none ∧ g.cur = none ∧ q.st = .running ∧ q.head ≠ q.tail ∧
      q.held = none ∧ devRead 0 q.ctx (q.ring + q.head % 2 ^ q.size * 64) 64 s = (.ok img, t)
    let fetched (failed : Option (Nat × Nat)) : State := t.setCage c { t.cage c with cur := some (⟨img, q.head, failed⟩, false) }
    -- the cage has fetched f of queue n
    let has : Prop := g.queue = some n ∧ s.queue? n = some q ∧ g.disp = none ∧ g.cur = some (f, b)
    (runs → reads →
      (descEngine img = none ∨ descReservedOk img = false → exec (.descriptorFetch c) s = .next (fetched (some (5, 2)))) ∧
      (descEngine img ≠ none → descReservedOk img = true → refsOk t q.owner img = false →
        exec (.descriptorFetch c) s = .next (fetched (some (4, 2)))) ∧
      (descEngine img ≠ none → descReservedOk img = true → refsOk t q.owner img = true →
        exec (.descriptorFetch c) s = .next (fetched none))) ∧
    (runs → has → f.failed = none →
      (awaitsArmed s f.desc = true → exec (.dispatch c) s = .next (boundary c
        ((s.putQueue n { q with st := .waiting, waitFrom := some s.clk.tb, held := some f }).setCage c { g with cur := none }))) ∧
      (awaitsArmed s f.desc = false → dependencyFailed s f.desc = true →
        exec (.dispatch c) s = .next (s.setCage c { g with cur := some ({ f with failed := some (6, 3) }, false) })) ∧
      (awaitsArmed s f.desc = false → dependencyFailed s f.desc = false → refsOk s q.owner f.desc = true → descFlag f.desc 1 = false →
        descEngine f.desc = some e →
        let accepted := modeAccepts s.sys.mode (leAt f.desc 0 1) (descOp f.desc) (leAt f.desc 0x2C 2)
        let waits := s.setCage c { g with cur := some (f, true) }
        (accepted = false → exec (.dispatch c) s =
          .next (s.setCage c { g with cur := some ({ f with failed := some (9, 6) }, false) })) ∧
        (accepted = true → s.engineFree e = false → exec (.dispatch c) s = .next waits) ∧
        (accepted = true → s.engineFree e = true → grantee waits e = some c → (s.chan (cmdKey e)).q = [] → (s.chan (cmdKey e)).back = [] →
          Inv s →
          let addr := 0x207FFC00 + c.val * 0x80 + g.slot * 0x40
          let image := imageOf s q.owner f.desc f.desc
          (writeSram 0x22 addr image s).1 = .ok [] →
          ∃ u, exec (.dispatch c) s = .next u ∧ u.queue? n = some { q with head := (q.head + 1) % 65536 } ∧
            u.cage c = { g with
              cur := none, slot := 1 - g.slot
              disp := some ⟨n, f.index, f.desc, e, addr, s.clk.tb, s.clk.tb + q.tmo * 6240, false⟩ } ∧
            u.engine e = { s.engine e with cage := some c.val, attempts := 0, lastCage := c.val } ∧
            u.cHead (cmdKey e) = some (wd addr) ∧ StoredAt addr image s u))) ∧
    (runs → s.engineFree e = true →
      (grantee s e = some c → exec (.engineGrant e) s = exec (.dispatch c) s) ∧
      (grantee s e = none → exec (.engineGrant e) s = .next s)) ∧
    (∀ st stage, runs → has → f.failed = some (st, stage) → st ≠ 0xFF →
      exec (.endAtFrontEnd c) s = .next (boundary c (tally n f.index f.desc st 0 0 stage 0
        ((s.putQueue n { q with head := (q.head + 1) % 65536 }).setCage c { g with cur := none })))) ∧
    (runs → g.queue = some n → g.sliceEnd ≤ s.clk.tb →
      (waitsFor s c = some e → exec (.sliceEnd c) s = .next (boundary c s)) ∧
      (waitsFor s c = none → exec (.sliceEnd c) s = .next s)) ∧
    (s.up = true → allEngines.contains e = true →
      (s.cHead (doneKey e) = none → exec (.doneWord e) s = .next s) ∧
      (s.cHead (doneKey e) = some w →
        let u := cDrop (doneKey e) s
        (u.dispatched e = some d → frontOnly (bits w 7 0) = false → exec (.doneWord e) s = .next (finish e (bits w 7 0) (bits w 31 8) u)) ∧
        (u.dispatched e = some d → frontOnly (bits w 7 0) = true → d.withheld = false →
          exec (.doneWord e) s = .next (finish e 5 (bits w 31 8) u)) ∧
        (u.dispatched e = none → exec (.doneWord e) s = .next (if bits w 7 0 = 0 then lateSuccess e u else u)))) ∧
    (∀ (m : Fin 512) (at_ : Nat), s.up = true → s.queue? m.val = some q → q.st = .waiting → q.waitFrom = some at_ → q.held = some f →
      q.waitTmo ≠ 0 →
      (s.clk.tb < at_ + msTicks q.waitTmo → exec (.waitTmo m) s = .next s) ∧
      (at_ + msTicks q.waitTmo ≤ s.clk.tb → signalWaits s f.desc = false →
        let head := (q.head + 1) % 65536
        exec (.waitTmo m) s = .next (feed (tally m.val f.index f.desc 6 0 0 3 0 (s.putQueue m.val { q with
          head := head, waitFrom := none, held := none, st := if head = q.tail then .idle else .ready }))))) ∧
    (s.up = true → g.disp = some d →
      (s.clk.tb < d.expiry → exec (.timeout c) s = .next s) ∧
      (d.expiry ≤ s.clk.tb →
        let cancelled := cancel d ((s.queue? d.queue).any Queue.critical) s
        let told := tally d.queue d.index d.desc 1 0 (s.engine d.engine).attempts 8 d.sentAt cancelled
        let counted := told.onQueue d.queue (fun q => { q with timeouts := satInc 0xFFFF q.timeouts })
        exec (.timeout c) s = .next (sweepGuilty 8 (boundary c (counted.setCage c { counted.cage c with disp := none }))))) ∧
    (∀ (x : Draining), s.up = true → e ∈ allEngines → (s.engine e).draining = some x → (∀ i ∈ allEngines, i ≠ e → (s.engine i).draining = none) →
      let marked := s.setEngine e { s.engine e with draining := some { x with hung := true } }
      (s.clk.tb ≤ x.since + msTicks (s.fld rFRONT_HANG 7 0) ∨ x.hung = true → exec (.hang e) s = .next s) ∧
      (x.hung = false → x.since + msTicks (s.fld rFRONT_HANG 7 0) < s.clk.tb → x.critical = false →
        exec (.hang e) s = .next (guiltyReset e x.queue marked)) ∧
      (x.hung = false → x.since + msTicks (s.fld rFRONT_HANG 7 0) < s.clk.tb → x.critical = true → (∀ i, (s.cage i).disp = none) →
        exec (.hang e) s = .next { marked with
          pwr := { s.pwr with entering := false, heldSrc := 0, resetReq := some ⟨5, if 0x10 ≤ e then 1 else e, s.clk.rtc⟩ } }))

/-- Starts (R559 to R561, R564), STOP (R565), injections (R566, R570), triggers (R562), results (R540, R543, R555, R556, R571) and
the correction (R553, R554). -/
def Obligations.AcquisitionResults : Prop :=
  ∀ (s u : State) (who : Req) (via : Via) (h : ChWord) (at_ : Nat) (r : AdcRun) (code : BitVec 12),
    let lp := s.rbit rADC_CTL 1
    let powered : Prop := s.timed = true ∧ s.rbit rADC_CTL 0 = true
    -- the command reaches the ADC at tick at_ and leaves u
    let takes (op : Nat) : Prop := powered ∧
      ((via = .reg who ∧ Writers.appField.permits who = true ∧ at_ = s.clk.tb ∧ u = s) ∨
       (via = .port ∧ s.ctrlHead 0x84 op = some h ∧ at_ = h.tick ∧ u = cDrop 0x84 s))
    let entriesOk : Prop := ∀ n, n ≤ s.fld rADC_CTL 15 12 → entOk lp (s.reg (rADC_ENT + 4 * n)) = true
    let w0 := s.reg rADC_ENT
    let wi := s.reg rADC_ENT_INJ
    (takes 1 → s.fld rADC_CTL 9 8 = 0 → s.adc.seq = none → s.adc.inj = none → entriesOk → ∃ t, exec (.adcStart via) s = .next t ∧
      t.adc.seq = some (AdcRun.start lp w0 0 (bits w0 19 18) 0 (adcBoundary lp at_)) ∧ t.rbit rADC_STAT 2 = true ∧ t.adc.inj = none ∧
      t.adc.stopAt = none ∧ ∀ k, k ≠ rADC_STAT → t.reg k = s.reg k) ∧
    (takes 1 → s.fld rADC_CTL 9 8 ≠ 0 ∨ s.adc.seq ≠ none → exec (.adcStart via) s = .next (adcEvent 8 u)) ∧
    (takes 1 → s.fld rADC_CTL 9 8 = 0 → s.adc.seq = none → (¬ entriesOk) → exec (.adcStart via) s = .next (adcEvent 6 u)) ∧
    (takes 2 → s.adc.seq = none → exec (.adcStop via) s = .next u) ∧
    (takes 2 → s.adc.seq = some r → 100 * s.clk.tb < 39 * adcBoundary lp at_ → ∃ t, exec (.adcStop via) s = .next t ∧
      t.adc = { s.adc with stopAt := some (adcBoundary lp at_) } ∧ ∀ k, k ≠ rADC_STAT → t.reg k = s.reg k) ∧
    (takes 3 → s.adc.inj = none → entOk lp wi = true → ∃ t, exec (.adcInject via) s = .next t ∧
      t.adc.inj = some (AdcRun.start lp wi 16 (bits wi 19 18) 0 (adcBoundary lp at_)) ∧ t.rbit rADC_STAT 3 = true ∧
      t.adc.seq = s.adc.seq ∧ ∀ k, k ≠ rADC_STAT → t.reg k = s.reg k) ∧
    (takes 3 → s.adc.inj ≠ none ∨ entOk lp wi = false → exec (.adcInject via) s = .next (adcEvent 7 u)) ∧
    (∀ rising, powered → exec (.adcTrig rising) s = .next { s.setReg rADC_TRIG_STAMP (wd s.clk.tb) with
      adc := { s.adc with trigAt := some (s.clk.tb + 2, rising) } }) ∧
    (powered → s.adc.seq = some r → s.adc.inj = none → s.adc.stopAt = none → r.settle = 0 → r.got = 0 → r.sum = 0 → r.switchAt = none →
      r.seam = false → r.seamDue = false → r.seamKept = false → r.clip = false → s.rbit rADC_CTL 10 = false →
      let w := s.reg (entReg r.entry)
      bit w 20 = false → bit w 31 = false → entAvg w = 0 → r.made + 1 < bits w 12 0 →
      (39 * (r.pos + 12) ≤ 100 * s.clk.tb → ∃ t, exec (.adcResult [code]) s = .next t ∧
        t.reg (resReg r.entry) = wd (fld 28 (s.fld (resReg r.entry) 31 28 + 1) + fld 25 (b2n r.gap) + fld 24 0 +
          fld 23 (b2n (code.toInt == -2048 || code.toInt == 2047)) + fld 21 r.range +
          (BitVec.ofInt 16 (code.toInt * rangeMul r.range)).toNat) ∧
        t.adc.seq.map AdcRun.made = some (r.made + 1) ∧ t.adc.results = s.adc.results + 1) ∧
      (100 * s.clk.tb < 39 * (r.pos + 12) → exec (.adcResult [code]) s = .next s)) ∧
    (powered → ∀ since, s.adc.convFrom = some since → since + msTicks 2 ≤ s.clk.tb → ∃ t, exec .converged s = .next t ∧
      t.rbit rADC_STAT 4 = true ∧ t.adc.convFrom = none ∧ (∀ k, k ≠ rADC_STAT → t.reg k = s.reg k) ∧
      (s.rbit rADC_CAL 0 = true ∨ lp = true → t.adc.coeffs = s.adc.coeffs)) ∧
    (s.timed = true → Writers.appField.permits who = true → ∃ t, exec (.adcCalRestart who) s = .next t ∧
      t.rbit rADC_STAT 4 = false ∧ t.adc.convFrom = some s.clk.tb ∧ (∀ k, k ≠ rADC_STAT → t.reg k = s.reg k) ∧
      (s.rbit rADC_CAL 0 = true ∨ lp = true → t.adc.coeffs = s.adc.coeffs))

/-- The LF driver (R612 to R619, R645), its tap (R622, R625) and the capacitive scan (R632, R633). -/
def Obligations.LfCapResults : Prop :=
  ∀ (s : State) (h d : ChWord) (rest ds : List ChWord) (r : LfRun) (amp : BitVec 11) (phase : BitVec 8) (low high : List (BitVec 16)),
    let ch := bits h.w 27 25
    let n := bits h.w 15 0
    let next := cDrop 0x64 s
    -- h is the head word of CTRL with this OP, and no STOP of its tick waits behind it
    let word (op : Nat) : Prop := s.timed = true ∧ (s.chan 0x64).q = h :: rest ∧ bits h.w 31 28 = op ∧
      ∀ w ∈ rest, w.tick = h.tick → bits w.w 31 28 ≠ 2
    let inOrder : Prop := s.lf.run = none ∧ ch ≤ 5 ∧ bits h.w 24 16 = 0 ∧ n ≠ 0 ∧ s.rbit (rLF_CH + 4 * ch) 31 = true ∧
      s.fld (rLF_CH + 4 * ch) 5 0 ≠ 0
    let started (telegram : Bool) : LfRun :=
      { ch := ch, n := n, telegram := telegram, t0 := h.tick, freq := (s.reg rLF_FREQ).toNat
        chip := s.fld rLF_CFG 13 8, mw := s.fld rLF_CFG 6 4, skip := s.fld rLF_CFG 3 0, next := 1, word := 0
        eom := !telegram, onSince := none, offAt := none, winFrom := 0, stopping := false, ended := none }
    let busy (t : State) : Prop := t.fld rLF_STAT 31 16 = 0 ∧ t.rbit rLF_STAT 4 = true ∧ ∀ k, k ≠ rLF_STAT → t.reg k = s.reg k
    let ends (chips : Nat) (t : State) : Prop := t.lf.run = none ∧ t.fld rLF_STAT 31 16 = chips % 65536 ∧ t.rbit rLF_STAT 4 = false ∧
      t.rbit rLF_EVT 8 = true
    (word 1 → inOrder → s.lf.discard = false → (s.chan 0x62).q = d :: ds → h.tick ≤ s.clk.tb → ∃ t, exec .fieldStart s = .next t ∧ busy t ∧
      t.lf.run = some { started true with
        word := d.w, eom := d.eom, onSince := if bit d.w 0 then some h.tick else none
        winFrom := if bit d.w 0 then s.fld rLF_CFG 3 0 else 0 }) ∧
    (word 3 → inOrder → s.lf.discard = false → h.tick ≤ s.clk.tb → ∃ t, exec .carrier s = .next t ∧ busy t ∧
      t.lf.run = some { started false with onSince := some h.tick, winFrom := s.fld rLF_CFG 3 0 }) ∧
    (¬ inOrder → (word 1 → exec .fieldStart s = .next (lfRefuse ch next)) ∧ (word 3 → exec .carrier s = .next (lfRefuse ch next))) ∧
    ((lfRefuse ch next).rbit rLF_EVT 11 = true ∧ (lfRefuse ch next).lf = s.lf ∧
      ∀ k, k ≠ rLF_EVT → (lfRefuse ch next).reg k = s.reg k) ∧
    (s.timed = true → lfStopWord s = some h →
      (s.lf.run = none → exec .fieldStop s = .next (cTakeOut 0x64 h s)) ∧
      (s.lf.run = some r → ∃ t, exec .fieldStop s = .next t ∧ ends (r.done s.clk.tb) t)) ∧
    (s.timed = true → s.lf.run = some r →
      (r.ended = some 3 → ∃ t, exec .underrun s = .next t ∧ ends r.next t ∧ t.rbit rLF_EVT 9 = true) ∧
      (∀ since, r.ended = none → r.onSince = some since → since + msTicks (s.fld rLF_CFG 25 16) ≤ s.clk.tb →
        ∃ t, exec .maxon s = .next t ∧ ends (r.done s.clk.tb) t ∧ t.rbit rLF_EVT 10 = true) ∧
      (r.ended = some 1 → r.onSince = none → ∃ t, exec .telegramEnd s = .next t ∧ ends r.n t) ∧
      (r.ended = some 2 → ∃ t, exec .telegramEnd s = .next t ∧ ends r.next t) ∧
      (lfWindowEnds r s = true → r.ch < 6 → ∃ t, exec (.measurementWindow amp phase) s = .next t ∧
        t.reg (rLF_MEAS + 4 * r.ch) =
          wd (fld 28 (s.fld (rLF_MEAS + 4 * r.ch) 31 28 + 1) + fld 16 phase.toNat + amp.toNat) ∧ t.mem = s.mem ∧ t.chans = s.chans) ∧
      (lfWindowEnds r s = false → exec (.measurementWindow amp phase) s = .next s)) ∧
    (∀ c : Fin 6, s.timed = true → ∃ t, exec (.short c) s = .next t ∧ t.rbit (rLF_CH + 4 * c.val) 31 = false ∧
      t.rbit (rLF_DIAG + 4 * c.val) 3 = true ∧
      (s.lf.run = some r → r.ch = c.val → ends (r.done s.clk.tb) t) ∧ (s.lf.run = none → t.lf = s.lf)) ∧
    (s.capRuns = true →
      let chs := (List.finRange 8).filter (fun n => s.rbit (rCAP_CH + 4 * n.val) 31)
      (s.clk.rtc % capPeriod (s.reg rCAP_CFG) = 0 → s.cap.lastScan ≠ some s.clk.rtc → ∃ t, exec (.capScan low high) s = .next t ∧
        t.cap = { s.cap with
          lastScan := some s.clk.rtc
          scan := if chs = [] then none else some ⟨chs, low ++ high, s.clk.rtc + 2, s.carrierOn⟩ } ∧
        t.fld rCAP_STAT 31 16 = (s.fld rCAP_STAT 31 16 + 1) % 65536 ∧ ∀ k, k ≠ rCAP_STAT → t.reg k = s.reg k) ∧
      (s.clk.rtc % capPeriod (s.reg rCAP_CFG) ≠ 0 → exec (.capScan low high) s = .next s))

/-- The UHF receiver (R665, R692) and the ranging hardware: sets (R713 to R715), CTRL words (R717, R743, R745) and results (R739,
R740). -/
def Obligations.ReceiverAndRangingResults : Prop :=
  ∀ (s : State) (ch : Fin 4) (sync : BitVec 24) (frame : List Byte) (power : BitVec 8) (fine : BitVec 10) (h : ChWord) (x : RbeSet) (y : StsSet)
    (r : RangeRun) (meas : RangeMeas),
    let ws := s.range.load
    let w0 := ws.getD 0 0
    let bs := bytesOf ws
    let purpose := bits h.w 3 3
    let session := bits h.w 2 0
    let free : State := cDrop 0x74 s
    let word (op : Nat) : Prop := s.timed = true ∧ s.ctrlHead 0x74 op = some h
    let port := s.fld rRANGE_CFG 0 0
    -- the run that starts, whatever INIT frame it sends
    let starts (k : RangeKind) (p n : Nat) (t : State) : Prop := ∃ init, t.range.run = some ⟨k, p, n, h.tick, port, none, init⟩
    -- a result of this method and cause, with its event
    let result (cause method p n : Nat) (t : State) : Prop := t.fld rRANGE_RESULT 11 8 = cause ∧ t.fld rRANGE_RESULT 6 4 = method ∧
      t.fld rRANGE_RESULT 3 3 = p ∧ t.fld rRANGE_RESULT 2 0 = n ∧ t.rbit rRANGE_RESULT 7 = false ∧ t.rbit rUWB_EVT 0 = true ∧ t.rbit rUWB_EVT 1 = true
    let hears : Bool := s.timed && uhfLocked s && s.rbit rUHF_CFG ch.val && uhfSynced s sync &&
      !s.uhf.rx.any (fun f => f.ch == ch.val && s.clk.tb < f.endAt)
    (exec (.uhfFrame ch sync frame power fine) s = .next (if hears then
      { s with uhf := { s.uhf with rx := s.uhf.rx ++ [⟨ch.val, frame, s.clk.tb + frame.length * uhfByte, power, fine.toNat⟩] } } else s)) ∧
    (s.timed = true → s.range.loadEom = true →
      (ws.length = 8 → bits w0 31 28 = 1 → ∃ t, exec .loadRbe s = .next t ∧ t.rbit rRANGE_RESULT 7 = false ∧
        (∀ k, k ≠ rRANGE_RESULT → t.reg k = s.reg k) ∧ t.chans = s.chans ∧ t.range = { s.range with
          load := []
          loadEom := false
          rbe := some ⟨bits w0 2 0, (ws.getD 1 0).toNat, slice bs 8 8, slice bs 16 8, slice bs 24 8, s.clk.tb⟩ }) ∧
      (ws.length = 8 → bits w0 31 28 = 2 → ∃ t, exec .loadSts s = .next t ∧ t.rbit rRANGE_RESULT 7 = false ∧
        (∀ k, k ≠ rRANGE_RESULT → t.reg k = s.reg k) ∧ t.chans = s.chans ∧ t.range = { s.range with
          load := []
          loadEom := false
          sts := some ⟨bits w0 2 0, slice bs 4 16, slice bs 20 12, s.clk.tb⟩ }) ∧
      (ws.length ≠ 8 ∨ (bits w0 31 28 ≠ 1 ∧ bits w0 31 28 ≠ 2) →
        exec .loadRbe s = .next { s with range := { s.range with load := [], loadEom := false } } ∧
        exec .loadSts s = .next { s with range := { s.range with load := [], loadEom := false } })) ∧
    (s.timed = true → s.range.rbe = some x → x.at_ + msTicks 100 ≤ s.clk.tb → s.range.sts = none → ∃ t, exec .loadExpired s = .next t ∧
      t.range = { s.range with rbe := none } ∧ t.rbit rUWB_EVT 3 = true ∧ ∀ k, k ≠ rUWB_EVT → t.reg k = s.reg k) ∧
    (s.range.run = none →
      (word 1 → s.range.rbe = some x → x.session = session → ∃ t, exec .rbe s = .next t ∧ t.regs = s.regs ∧
        starts (.rbe x) purpose session t ∧ t.range.rbe = none ∧ t.range.sts = s.range.sts) ∧
      (word 2 → s.range.sts = some y → y.session = session → ∃ t, exec .round s = .next t ∧ t.regs = s.regs ∧
        starts (.round y) purpose session t ∧ t.range.sts = none ∧ t.range.rbe = s.range.rbe) ∧
      (word 3 → ∃ t, exec .lfZone s = .next t ∧ t.regs = s.regs ∧ starts (.lf (bits h.w 6 4)) purpose session t ∧
        t.range.rbe = s.range.rbe ∧ t.range.sts = s.range.sts) ∧
      (word 5 → s.sys.mode = .factory ∨ s.sys.mode = .service → s.range.rbe = some x → ∃ t, exec .cal s = .next t ∧ t.regs = s.regs ∧
        starts (.cal x) 0 x.session t ∧ t.range.rbe = none) ∧
      (word 1 → (∀ z, s.range.rbe = some z → z.session ≠ session) → ∃ t, exec .rbe s = .next t ∧ result 8 1 purpose session t ∧
        t.range = s.range) ∧
      (word 2 → (∀ z, s.range.sts = some z → z.session ≠ session) → ∃ t, exec .round s = .next t ∧ result 8 2 purpose session t ∧
        t.range = s.range) ∧
      (word 5 → s.sys.mode ≠ .factory → s.sys.mode ≠ .service → ∃ t, exec .cal s = .next t ∧ result 7 5 0 0 t ∧ t.range = s.range)) ∧
    (s.range.run = some r →
      (word 1 → exec .rbe s = .next (uwbEvent 2 free)) ∧ (word 2 → exec .round s = .next (uwbEvent 2 free)) ∧
      (word 3 → exec .lfZone s = .next (uwbEvent 2 free)) ∧ (word 5 → exec .cal s = .next (uwbEvent 2 free))) ∧
    (word 4 → exec .rangeStop s = .next { free with range := { s.range with
      rbe := none, sts := none, run := s.range.run.map (fun q => { q with aborted := q.aborted.or (stopTick free q) }) } }) ∧
    (s.timed = true → s.range.run = none → exec (.rangeResult meas) s = .next s) ∧
    (s.timed = true → s.range.run = some r →
      (∀ a, r.aborted = some a → roundStop s r meas a ≤ s.clk.tb → r.session < 8 → r.purpose < 2 → ∃ t, exec (.rangeResult meas) s = .next t ∧
        t.range = { s.range with run := none } ∧ result 9 r.kind.method r.purpose r.session t) ∧
      (∀ reps sats, r.aborted = none → r.kind = .rbe x → meas = .burst none reps sats → rangeDue s r meas ≤ s.clk.tb → r.session < 8 → r.purpose < 2 →
        ∃ t, exec (.rangeResult meas) s = .next t ∧ t.range = { s.range with run := none } ∧ result 1 1 r.purpose r.session t))

/-- The BLE controller's transport (R760 to R764, R767, R772) and the NFC reader (R780 to R784, R795, R796). -/
def Obligations.PhoneAndCardResults : Prop :=
  ∀ (s : State) (who : Req) (value : Word) (ind : Nat) (bs : Bytes) (rest : List Word) (conn : BitVec 12) (adv : BitVec 8) (h : ChWord) (x : NfcTx)
    (b0 e0 : Nat) (st : Fin 6) (lb : Fin 8) (coll : BitVec 12),
    let op := leAt bs 0 2
    let p := slice (bs.drop 3) 0 (leAt bs 2 1)
    let hs := (List.range (leAt p 0 1)).map (fun i => leAt p (1 + i) 1)
    let taken : State := { s with ble := { s.ble with tx := rest } }
    (s.live = true → Writers.app.permits who = true →
      (s.rbit rBLE_STAT 2 = true → exec (.hciTxd who value) s = .next s) ∧
      (s.rbit rBLE_STAT 2 = false → s.rbit rBLE_CFG 31 = false ∨ 128 ≤ s.ble.tx.length → exec (.hciTxd who value) s = .next (bleEvent 1 s)) ∧
      (s.rbit rBLE_STAT 2 = false → s.rbit rBLE_CFG 31 = true → s.ble.tx.length < 128 →
        exec (.hciTxd who value) s = .next { s with ble := { s.ble with tx := s.ble.tx ++ [value] } }) ∧
      (bit value 0 = true → s.ble.held = [] → exec (.rxpop who value) s = .next { s with ble := { s.ble with rx := s.ble.rx.drop 1 } }) ∧
      (bit value 0 = true → bit value 31 = false ∨ s.ble.started = true → ∃ t, exec (.resync who value) s = .next t ∧
        t.ble = { s.ble with tx := [] } ∧ t.rbit rBLE_STAT 2 = false ∧ t.rbit rBLE_CFG 31 = bit value 31)) ∧
    (∀ b < 32, (bleEvent b s).ble = s.ble ∧ (bleEvent b s).chans = s.chans ∧ (bleEvent b s).rbit rBLE_EVT b = true) ∧
    (s.bleUp = true →
      (hciHead s.ble.tx = .bad → ∃ t, exec .hciPacket s = .next t ∧ t.ble = { s.ble with tx := [] } ∧ t.rbit rBLE_STAT 2 = true ∧
        t.rbit rBLE_EVT 2 = true) ∧
      (hciHead s.ble.tx = .packet ind bs rest →
        (ind ≠ 1 → exec .hciPacket s = .next taken) ∧
        (ind = 1 → hciSupported op = false → exec .hciPacket s = .next (commandStatus op 1 taken)) ∧
        (ind = 1 → op = 0xFC01 → leAt p 0 1 ≤ 2 → p.length = leAt p 0 1 + 1 →
          (∀ k ∈ hs, ∃ a, advSet? s k = some a ∧ a.phy ≠ 2) → exec .muporSetBankAdvertising s = .next (commandComplete 0xFC01 [0]
            { s with ble := { s.ble with tx := rest, bankSets := hs } })) ∧
        (ind = 1 → op = 0xFC01 → 2 < leAt p 0 1 → exec .muporSetBankAdvertising s = .next (commandComplete 0xFC01 [0x12] taken)))) ∧
    (s.bleUp = true → bs.length ≤ 2044 →
      (exec (.bleRxPacket true bs) s = .next (bleEmit 2 bs s)) ∧
      (connOpened bs = none → connClosed bs = none → exec (.bleRxPacket false bs) s = .next (bleEmit 4 bs s)) ∧
      (∀ c, connOpened bs = some c → s.ble.conns.length < 4 → exec (.bleRxPacket false bs) s = .next (bleEmit 4 bs
        { s with ble := { s.ble with conns := s.ble.conns.filter (fun k => k != c) ++ [c] } })) ∧
      (∀ c, connOpened bs = some c → 4 ≤ s.ble.conns.length → exec (.bleRxPacket false bs) s = .next s)) ∧
    (s.ble.held = [] → s.ble.rx.length + (hciWords ind bs).length ≤ 512 → (bleEmit ind bs s).ble = { s.ble with rx := s.ble.rx ++ hciWords ind bs } ∧
      (bleEmit ind bs s).rbit rBLE_EVT 0 = true) ∧
    (s.sys.mode = .banked → s.rbit rBLE_CFG 31 = true → s.ble.bankSets.contains adv.toNat = true → s.ble.conns.length < 4 →
      (∃ a, advSet? s adv.toNat = some a ∧ a.enabled = true ∧ a.connectable = true) → s.rbit rBLE_WAKE 0 = false →
      ∃ t, exec (.bleWake conn adv) s = .next t ∧ t.ble.conns = s.ble.conns ++ [conn.toNat] ∧ t.rbit rBLE_EVT 3 = true ∧
        t.reg rBLE_WAKE = wd (fld 16 conn.toNat + fld 8 adv.toNat + 1) ∧
        t.ble.sets = s.ble.sets.map (fun a => if a.handle = adv.toNat then { a with enabled := false } else a)) ∧
    (s.timed = true →
      (fieldOnWord s = some h → s.rbit rNFC_CFG 31 = true →
        (s.nfc.onAt = none → nfcOnFrom s ≤ s.clk.tb → ∃ t, exec .fieldOn s = .next t ∧ t.regs = s.regs ∧
          t.nfc = { s.nfc with onAt := some s.clk.tb, waiting := false }) ∧
        (s.nfc.onAt = none → s.clk.tb < nfcOnFrom s → ∃ t, exec .fieldOn s = .next t ∧ t.regs = s.regs ∧ t.nfc = { s.nfc with waiting := true }) ∧
        (s.nfc.onAt ≠ none → ∃ t, exec .fieldOn s = .next t ∧ t.regs = s.regs ∧ t.nfc = s.nfc)) ∧
      (fieldOnWord s = some h → s.rbit rNFC_CFG 31 = false → ∃ t, exec .fieldOn s = .next t ∧ t.regs = s.regs ∧ t.nfc = s.nfc) ∧
      (s.nfc.waiting = true → nfcOnFrom s ≤ s.clk.tb → ∃ t, exec .fieldOnTakesEffect s = .next t ∧ t.regs = s.regs ∧
        t.nfc = { s.nfc with onAt := some s.clk.tb, waiting := false }) ∧
      (s.nfc.waiting = false ∨ s.clk.tb < nfcOnFrom s → exec .fieldOnTakesEffect s = .next s) ∧
      (s.ctrlHead 0xA4 2 = some h → ∃ t, exec .fieldOff s = .next t ∧ t.nfc.onAt = none ∧ t.nfc.waiting = false ∧ t.nfc.tx = none ∧
        t.nfc.offAt = if s.nfc.onAt.isSome then some s.clk.tb else s.nfc.offAt) ∧
      (fieldOnWord s = none → s.ctrlHead 0xA4 3 = some h →
        (txRefused h.w (cDrop 0xA4 s) = true → ∃ t, exec .tx s = .next t ∧ t.regs = s.regs ∧ t.nfc = s.nfc) ∧
        (∀ on, txRefused h.w (cDrop 0xA4 s) = false → s.mayAttempt 0xA = true → s.nfc.onAt = some on → (s.chan 0xA2).q = [] →
          let from_ := max (on + nfcSettle) ((s.nfc.cardEnd.map (fun c => c + 5394)).getD 0)
          ∃ t, exec .tx s = .next t ∧ t.regs = s.regs ∧
            t.nfc = { s.nfc with tx := some ⟨h.w, [], max h.tick from_, decide (from_ ≤ h.tick), none, false⟩ })) ∧
      (s.nfc.tx = some x →
        (x.begun = false → s.nfc.onAt ≠ none → x.startAt ≤ s.clk.tb → (s.chan 0xA2).q = [] → ∃ t, exec .deferredTxStart s = .next t ∧
          t.regs = s.regs ∧ t.nfc = { s.nfc with tx := some { x with begun := true } }) ∧
        (s.ctrlHead 0xA4 4 = some h → ∃ t, exec .nfcStop s = .next t ∧ t.regs = s.regs ∧ t.nfc.tx = none ∧ t.nfc.onAt = s.nfc.onAt) ∧
        (x.begun = true → x.rxEn = true →
          (x.endAt ≤ b0 → b0 ≤ nfcExpiry s x → b0 ≤ e0 → e0 + 1248 ≤ s.clk.tb → st.val ≠ 1 → st.val ≠ 4 → bs.length ≤ 258 →
            ∃ t, exec (.nfcResponse b0 e0 st lb coll bs) s = .next t ∧ t.nfc.tx = none ∧ t.nfc.cardEnd = some e0 ∧ t.nfc.onAt = s.nfc.onAt) ∧
          (nfcExpiry s x + 1248 ≤ s.clk.tb → ∃ t, exec .noResponse s = .next t ∧ t.nfc.tx = none ∧ t.nfc.cardEnd = s.nfc.cardEnd ∧
            t.nfc.onAt = s.nfc.onAt))) ∧
      (s.nfc.tx = none → exec .deferredTxStart s = .next s ∧ exec .noResponse s = .next s ∧ exec (.nfcResponse b0 e0 st lb coll bs) s = .next s ∧
        (s.ctrlHead 0xA4 4 = some h → exec .nfcStop s = .next (cDrop 0xA4 s))))

/-- Samples (R855, R862), the DRBG (R863 to R867), requests (R876, R878, R882), tests (R871, R872) and ENT_DATA (R869, R870). -/
def Obligations.EntropyResults : Prop :=
  ∀ (s t : State) (who : Req) (raw : BitVec 8) (raws : List (BitVec 8)) (img : Bytes) (d : Drbg) (pass : Bool) (e : Nat),
    let at_ := s.ent.runFrom.getD 0 + 8 * 1312
    (s.entUp = true →
      (sampleDue s 1 = true → ∃ u, exec (.rawSample raw) s = .next u ∧ u.ent.n = s.ent.n + 1 ∧ u.ent.last = entSource raw s ∧
        u.ent.runFrom = s.ent.runFrom ∧ u.ent.drbg = s.ent.drbg ∧ u.ent.regBuf = s.ent.regBuf) ∧
      (sampleDue s 1 = false → exec (.rawSample raw) s = .next s) ∧
      (1024 ≤ s.ent.n → raws.length = 96 - s.ent.gathered.length → sampleDue s raws.length = true →
        ∃ u, exec (.rawSampleBlock raws) s = .next u ∧ u.ent.n = s.ent.n + raws.length ∧ u.ent.runFrom = s.ent.runFrom ∧
          u.ent.drbg = s.ent.drbg ∧ u.ent.regBuf = s.ent.regBuf) ∧
      (s.ent.drbg = none → 1312 ≤ s.ent.n → s.ent.blocks.length = 3 → ∃ u, exec .drbgInstantiate s = .next u ∧
        u.ent = { s.ent with blocks := [], drbg := some (drbgInit s.ent.blocks.flatten (drbgPersonal s at_)) } ∧
        u.rbit rENT_STAT 0 = true ∧ u.reg rENT_DRBG = 0) ∧
      (s.ent.drbg = some d → s.ent.reseedDue = true → 3 ≤ s.ent.blocks.length → s.ent.katFor = none → ∃ u, exec (.reseed none) s = .next u ∧
        u.ent = { s.ent with blocks := [], reseedDue := false, drbg := some (drbgUpdate d s.ent.blocks.flatten) } ∧
        u.fld rENT_DRBG 15 0 = 0 ∧ u.fld rENT_DRBG 31 16 = (s.fld rENT_DRBG 31 16 + 1) % 65536) ∧
      (s.ent.drbg = some d → s.ent.blocks.length < 3 → s.ent.katFor = none → Writers.appKiln.permits who = true →
        exec (.reseed (some who)) s = .next { s with ent := { s.ent with reseedDue := true } }) ∧
      (kilnBufEmpty s = false → s.ent.regBuf ≠ [] → exec .generate s = .next (fillBootKey s)) ∧
      (kilnBufEmpty s = false → s.ent.regBuf = [] → s.ent.drbg = some d → s.ent.reseedDue = false → s.ent.katFor = none →
        ∃ u, exec .generate s = .next (fillBootKey u) ∧ u.ent = { s.ent with
          regBuf := wordsOf (drbgGenerate d).1
          drbg := some (drbgGenerate d).2
          reseedDue := s.fld rENT_CFG 31 16 ≤ s.fld rENT_DRBG 15 0 + 1 }) ∧
      (Writers.appKiln.permits who = true →
        (s.ent.katFor = none → ∃ u, exec (.restart who) s = .next u ∧ u.ent = { Ent.idle with runFrom := some s.clk.tb, queued := s.ent.queued } ∧
          u.rbit rENT_STAT 0 = false ∧ u.rbit rENT_STAT 2 = false ∧ (u.chan 0xE0).q = [] ∧ (u.chan 0xE0).back = []) ∧
        (s.ent.katFor ≠ none → exec (.restart who) s = .next { s with ent := { s.ent with queued := s.ent.queued ++ [.restart] } }) ∧
        (who = .core 5 → ∃ u, exec (.clrCnt who) s = .next u ∧ u.reg rENT_HCNT0 = 0 ∧ u.reg rENT_HCNT1 = s.reg rENT_HCNT1 &&& 0xFF000000 ∧
          u.ent = s.ent) ∧
        (who ≠ .core 5 → exec (.clrCnt who) s = .next s) ∧
        (s.ent.katFor = none → ∃ u, exec (.kat who) s = .next u ∧ u.ent = { s.ent with katFor := some none } ∧ u.rbit rENT_STAT 4 = true) ∧
        (s.ent.katFor ≠ none → exec (.kat who) s = .next s)) ∧
      (s.ent.katFor = none → exec (.katComplete pass) s = .next s) ∧
      (s.ent.katFor = some none → exec (.katComplete pass) s = .next (katEnd pass s)) ∧
      (s.ent.katFor = some (some e) → exec (.katComplete pass) s = .next
        (if pass then kilnDone e 0 0 0 (katEnd pass s) else kilnDone e 5 9 0 (katEnd pass s))) ∧
      (s.ent.queued = [] → (katEnd pass s).ent = { s.ent with katFor := none } ∧ (katEnd pass s).rbit rENT_STAT 4 = false ∧
        (katEnd pass s).rbit rENT_STAT (if pass then 5 else 6) = true)) ∧
    (s.live = true → (Req.iface who).all (fun _ => s.hostActive who) = true → ∃ u, exec (.entData who) s = .next u ∧
      u.host.answer = ⟨0, [s.ent.regBuf.headD 0], false⟩ ∧ u.ent = { s.ent with regBuf := s.ent.regBuf.tail } ∧
      (s.ent.regBuf = [] → u.rbit rENT_STAT 1 = true) ∧ (s.ent.regBuf ≠ [] → u.regs = s.regs)) ∧
    (Serves 2 0x21 img s t → imgKey img = 0 → paramZero img [] = true →
      (t.ent.katFor = none → exec .entKat s = .next (katStart (some 2) t)) ∧
      (t.ent.katFor ≠ none → exec .entKat s = .next s)) ∧
    (Serves 2 0x22 img s t → imgKey img = 0 → paramZero img [0, 4, 5, 6, 7] = true → imgParam img 0 1 ≤ 1 →
      (t.ent.katFor = none → exec .entPattern s = .next (kilnDone 2 0 0 0 (entPattern (imgParam img 0 1 = 1) (wd (imgParam img 4 4)) t)) ∧
        (t.sys.mode ≠ .factory → (entPattern (imgParam img 0 1 = 1) (wd (imgParam img 4 4)) t).rbit rENT_CFG 0 = false)) ∧
      (t.ent.katFor ≠ none → exec .entPattern s = .next s))

/-- The SECURE operations of 0x30 to 0x3D (R891 to R921), vehicle time (R903) and the hold-off (R897). The bytes that the DRBG and
the flash give are hypotheses, whatever they are. -/
def Obligations.CredentialResults : Prop :=
  ∀ (s t u v w x : State) (img bs z lab msg key : Bytes) (n : Nat) (tm : Option Nat) (e : Enrol) (cls : Fin 8),
    let sess := imgParam img 0 1
    let serves (op : Nat) : Prop := Serves 2 op img s t ∧ imgKey img = 0
    let active (y : State) : Prop := sess ≤ 7 ∧ y.sys.active.getLsbD sess = true
    let ends (st re : Nat) (y : State) : State := kick4 (kilnDone 2 st re 0 y)
    let ok : Eff := .done 2 (doneW 0 0 0)
    -- the operation's ledger writes and effects put behind the jobs that wait
    let works (writes : List JobWrite) (effs : List Eff) (y : State) : State :=
      kick4 { y with creds := { y.creds with jobs := y.creds.jobs ++ [⟨writes, effs, [.done 2 (doneW 5 0x1B 0)]⟩] } }
    let raise := raiseWrites tm
    (serves 0x30 → paramZero img [0, 1] = true → imgParam img 1 1 = n → n = 4 ∨ n = 16 → Writable img 1 n → active t → kdraw n t = .ok bs u →
      kwrite 2 img 1 bs u = .ok z v → exec .credNonce s = .next (ends 0 0 (v.setKsess sess { v.ksess sess with nonce := some bs }))) ∧
    (serves 0x33 → paramZero img [0] = true → Writable img 1 8 → active t →
      (∀ fob g, (t.ksess sess).vmac = some (fob, key) → groupMsg t = some g → kwrite 2 img 1 (mac8 key (0x56 :: g ++ fob)) t = .ok z u →
        exec .vmac s = .next (ends 0 0 u)) ∧
      ((t.ksess sess).vmac = none → exec .vmac s = .next (ends 5 0x17 t))) ∧
    (serves 0x31 → paramZero img [0, 1, 4, 5, 6, 7, 8, 9, 10, 11] = true → imgParam img 1 1 ≤ 4 → Readable img 0 1 → active t →
      let c := imgParam img 1 1
      (heldOff t c = true → exec .credVerify s = .next (ends 0xD 0 t)) ∧
      (heldOff t c = false → kread 2 img 0 0 1 t = .ok lab u → Readable img 0 ((labelLen (leNat lab)).getD 1) →
        kread 2 img 0 0 ((labelLen (leNat lab)).getD 1) u = .ok msg v → ticketGone sess c v = .ok false w →
        (∀ reason, judgeCred w sess c msg (slice img 0x30 8) = .error reason →
          exec .credVerify s = .next (works (delayWrites w c false) [.holdOff c, .done 2 (doneW 0xC reason 0)] w)) ∧
        (∀ m effs, judgeCred w sess c msg (slice img 0x30 8) = .ok m → acceptEffs w sess c m msg = .ok effs x →
          exec .credVerify s = .next (works (delayWrites x c true) effs x)))) ∧
    (serves 0x32 → paramZero img [0, 4, 5] = true → imgParam img 4 2 ≤ 2047 → active t → kflash (ticketAddr (imgParam img 4 2)) 0x100 t = .ok bs u →
      verifyRecord 1 0xC0 bs (ticketFormat bs) u = .ok tm v → listed (hdrId bs) v = .ok false w → rec7Field w 12 ≤ hdrIssued bs →
      unwrapSecret (slice bs 0x28 64) (slice bs 0x68 24) (hdrId bs) w = .ok key w →
      runtimeSlot ((w.ksess sess).ticket.map TicketBind.slot) w = .ok n w →
      exec .ticketOpen s = .next (works (raise w).1 ((raise w).2 ++
        [.runtimeKey n (derive key [0x50, 0x41, 0x55, 0x54] (hdrId bs) 16),
         .session sess { w.ksess sess with ticket := some ⟨imgParam img 4 2, hdrId bs, leAt bs 0x24 2, n⟩ },
         .load (wd (0x20000000 + sess) :: wordsOf (derive key [0x50, 0x53, 0x54, 0x53] (hdrId bs) 16 ++
           derive key [0x50, 0x53, 0x49, 0x56] (hdrId bs) 12)), ok]) w)) ∧
    (serves 0x34 → paramZero img [] = true → Writable img 1 16 → kdraw 16 t = .ok bs u → kwrite 2 img 1 bs u = .ok z v →
      exec .tokenNonce s = .next (ends 0 0 { v with creds := { v.creds with tokenNonce := some bs } })) ∧
    (serves 0x35 → paramZero img [] = true → Readable img 0 128 → kread 2 img 0 0 128 t = .ok bs u →
      verifyRecord (leAt bs 4 1) 0x40 bs (tokenFormat bs) u = .ok tm v →
      (v.creds.tokenNonce ≠ some (slice bs 0x30 16) → exec .token s = .next (works (raise v).1 ((raise v).2 ++ [.done 2 (doneW 0xC 0x12 0)]) v)) ∧
      (v.creds.tokenNonce = some (slice bs 0x30 16) → leAt bs 4 1 = 2 →
        (takesService v.sys.mode = true → exec .token s = .next (works (raise v).1 ((raise v).2 ++ [.service (leAt bs 0x24 4)]) v)) ∧
        (takesService v.sys.mode = false → exec .token s = .next (ends 5 0x17 v)))) ∧
    (serves 0x36 → paramZero img [0] = true → imgParam img 0 1 ≤ 1 → kflash (bankBase (imgParam img 0 1)) 0x40 t = .ok lab u → leAt lab 0x24 4 = n →
      n ≤ 32000 → kflash (bankBase (imgParam img 0 1)) (0x80 + 8 * n) u = .ok bs v →
      verifyRecord 5 (0x40 + 8 * n) bs (listFormat bs n) v = .ok tm w →
      (leAt bs 8 4 ≤ rec7Field w 8 → exec .revoke s = .next (works (raise w).1 ((raise w).2 ++ [.done 2 (doneW 0xC 0x12 0)]) w)) ∧
      (∀ gone mark, rec7Field w 8 < leAt bs 8 4 →
        goneSessions (leAt bs 0x2C 4) (chunks 8 n (slice bs 0x40 (8 * n))) (List.range 8) w = .ok gone w →
        goneMark (leAt bs 0x2C 4) (chunks 8 n (slice bs 0x40 (8 * n))) w = .ok mark w →
        exec .revoke s = .next (works [.record 7 (leBytes 4 ((tm.or (vehicleNow w)).getD (hdrIssued bs)) ++
          [BitVec.ofNat 8 (imgParam img 0 1), 0, 0, 0] ++ leBytes 4 (leAt bs 8 4) ++ slice bs 0x28 8 ++ leBytes 4 n)]
          ((match tm with | some k => [Eff.vehicleTime k w.clk.rtc] | none => []) ++ [.revoked gone mark, ok]) w))) ∧
    (serves 0x37 → paramZero img [0] = true → Readable img 0 264 → active t → rec1 t ≠ none →
      (enrolLimit t ≤ enrolCount t → exec .enrolBegin s = .next (ends 5 0x16 (raiseLockdown 2 t))) ∧
      (enrolCount t < enrolLimit t → kread 2 img 0 0 264 t = .ok bs u → verifyRecord 6 0xC8 bs (enrolFormat bs) u = .ok tm v →
        runtimeSlot ((v.ksess sess).enrol.map Enrol.transport) v = .ok n v →
        unwrapSecret (slice bs 0x28 64) (slice bs 0x68 24) (hdrId bs) v = .ok key v →
        exec .enrolBegin s = .next (works ((raise v).1 ++ [.record 1 (leBytes 2 (enrolCount v + 1) ++ leBytes 2 (enrolLimit v))])
          ((raise v).2 ++ [.runtimeKey n key, .session sess { v.ksess sess with vmac := none, enrol := some (enrolOf bs n) }, ok]) v))) ∧
    ((t.ksess sess).enrol = some e → active t →
      (serves 0x38 → paramZero img [0] = true → Readable img 0 72 → e.cls ≤ 2 → (t.ksess sess).vmac ≠ none → kread 2 img 0 0 72 t = .ok bs u →
        (bs.take 8 = e.credId → ecdsaVerify e.makerPub (sha256 (bs.take 8)) (bs.drop 8) = true →
          exec .enrolOrigin s = .next (ends 0 0 (setEnrol sess (some { e with origin := true }) u))) ∧
        (bs.take 8 ≠ e.credId → exec .enrolOrigin s = .next (ends 0xC 0x15 u))) ∧
      (serves 0x39 → paramZero img [0] = true → Writable img 1 24 → e.cls ≤ 2 → e.origin = true → e.newKey = none → kdraw 16 t = .ok key u →
        kwrite 2 img 1 (kwWrap ((u.slot e.transport).key.getD []) key) u = .ok z v →
        exec .enrolKey s = .next (ends 0 0 (setEnrol sess (some { e with newKey := some key }) v))) ∧
      (serves 0x3A → paramZero img [0, 4, 5, 6, 7] = true → e.proved = true → e.origin = true → e.cls = 2 →
        exec .enrolCommit s = .next (works [.record (16 + e.slot) (credBody 2 e.flags e.credId (imgParam img 4 4)
          (kwWrap (wrapKey t) (e.newKey.getD [])) ((vehicleNow t).getD 0))]
          [.zap e.transport, .session sess { t.ksess sess with enrol := none, vmac := none }, ok] t)) ∧
      (serves 0x3A → paramZero img [0, 4, 5, 6, 7] = true → e.proved = false → exec .enrolCommit s = .next (ends 5 0x17 t))) ∧
    (serves 0x3B → paramZero img [0] = true → imgParam img 0 1 ≤ 31 →
      exec .credErase s = .next (works [.record (16 + imgParam img 0 1) (List.replicate 44 0)] [ok] t)) ∧
    (∀ d, serves 0x3C → paramZero img [0, 1, 2, 4, 5] = true → Writable img 1 64 → imgParam img 4 2 = n → n ≠ 0 →
      (enrolCount t < n → kscalar 8 t = .ok d u → exec .mateVehicle s = .next (works
        [.record 5 (leBytes 3 (imgParam img 0 3) ++ [0] ++ kwWrap (wrapKey u) (beBytes 32 d) ++ pubOf d),
         .record 1 (leBytes 2 (enrolCount u) ++ leBytes 2 n)] [.bufDone 2 (imgBuf img 1).ctx (imgBuf img 1).addr (pubOf d)] u)) ∧
      (n ≤ enrolCount t → exec .mateVehicle s = .next (ends 5 0x17 t))) ∧
    (serves 0x3D → paramZero img [] = true →
      (t.sys.mode = .unmated → payload t 6 = none → Readable img 0 136 → kread 2 img 0 0 136 t = .ok bs u → anchorsFormat bs = true →
        anchorsOnCurve bs = true → exec .trustSet s = .next (works [.record 6 bs] [ok] u)) ∧
      (t.sys.mode ≠ .unmated → t.sys.mode ≠ .service → exec .trustSet s = .next (ends 5 0x17 t))) ∧
    (∀ now, s.kilnUp = true → vehicleNow s = some now → s.creds.timeWritten + 86400 * 32768 ≤ s.clk.rtc → payload s 7 ≠ none →
      exec .vehicleTimeWrite s = .next (kick4 (addJob [.record 7 (rec7With s now)] [] []
        { s with creds := { s.creds with timeWritten := s.clk.rtc } }))) ∧
    (s.timed = true → (aget? s.creds.holdFrom cls.val).isSome = true →
      (heldOff s cls.val = false → exec (.holdOffEnd cls) s = .next { s with creds := { s.creds with holdFrom := adel s.creds.holdFrom cls.val } }) ∧
      (heldOff s cls.val = true → exec (.holdOffEnd cls) s = .next s))

/-- CRANK (R931 to R936, R943), key rolls (R940 to R946), mating (R922, R923), frames (R927) and supervision (R939). -/
def Obligations.StartLockResults : Prop :=
  ∀ (s t u : State) (img key new frame : Bytes) (c : CrankRun) (ch : Challenge) (r : RollRun) (m : MateRun) (k : Bool × Bytes) (d : Nat),
    let serves (op : Nat) : Prop := Serves 0xC op img s t
    let waits (y : State) : State := { y with start := { y.start with crank := some ⟨startDispatch y, none, none, [], none, none, false⟩ } }
    let used (q : Challenge) (y : State) : State := { y with start := { y.start with chal := some { q with used := true } } }
    let ends (st re : Nat) (y : State) : State := kick4 (kilnDone 0xC st re 0 y)
    let partner (type : Nat) : Prop := s.timed = true ∧ (partnerPath s).isSome = true ∧ leAt frame 0 1 = type
    let heard : Challenge := ⟨frame, s.clk.tb, false⟩
    let latched : State := (startEvent 0 s).onStart (fun x => { x with chal := some heard })
    (serves 1 → startZero img = false → exec .crank s = .next (ends 5 1 t)) ∧
    (serves 1 → startZero img = true →
      (t.start.chal = none → exec .crank s = .next (kick4 (waits t))) ∧
      (t.start.chal = some ch → ch.used = true ∨ ch.tick + msTicks 5 < startDispatch t → exec .crank s = .next (kick4 (waits t))) ∧
      (t.start.chal = some ch → ch.used = false → startDispatch t ≤ ch.tick + msTicks 5 →
        (challengeKey (used ch (waits t)) ch.bytes = none → exec .crank s = .next (kick4 (replaced (used ch (waits t))))) ∧
        (challengeKey (used ch (waits t)) ch.bytes = some k → exec .crank s = .next (kick4
          (crankGo ⟨startDispatch t, none, none, [], none, none, false⟩ ch k (used ch (waits t))))))) ∧
    (s.start.crank = some c → c.chal = some ch →
      (answerBy ch < s.clk.tb → crankAnswer s = crankLate s) ∧
      (s.clk.tb ≤ answerBy ch → c.settle = none → verdict s ch = false → (crankAnswer s).reg rSTART_COUNT = wd ((s.reg rSTART_COUNT).toNat + 1) ∧
        (crankAnswer s).start.crank = some { c with drawn := some (s.reg rSTART_COUNT).toNat, answered := some false } ∧
        (crankAnswer s).sys = s.sys)) ∧
    (∀ st re v, (startDone st re v s).start.crank = none ∧ (startDone st re v s).start.roll = none ∧ (startDone st re v s).start.mate = none) ∧
    (serves 3 → startZero img = true → rec3State t = 1 → curKey t ≠ none → kdraw 16 t = .ok new u →
      let ceil := if (u.reg rSTART_COUNT).toNat < rec3Ceil u then rec3Ceil u else rec3Ceil u + 256
      exec .rollEngine s = .next (kick4 { u with
        start := { u.start with roll := some ⟨[], new, 0, 0, u.clk.tb, false⟩ }
        creds := { u.creds with jobs := u.creds.jobs ++ [⟨[.record 3 ([2, 0] ++ leBytes 2 (leAt (rec3 u) 2 2 + 1) ++ leBytes 4 ceil ++
          slice (rec3 u) 8 24 ++ kwWrap (wrapKey u) new ++ slice (rec3 u) 0x38 12)], [.rollSend], [.done 0xC (doneW 5 0x1B 0)]⟩] } })) ∧
    (serves 3 → startZero img = true → rec3State t ≠ 1 → exec .rollEngine s = .next (ends 5 0x17 t)) ∧
    (serves 2 → imgKey img = 0 → mateParamOk img = true → kscalar 8 t = .ok d u →
      let can := imgParam img 8 1
      let txid := wd (imgParam img 4 4)
      let mate : MateRun := ⟨wd (imgParam img 0 4), txid, can, d, none, none, u.clk.tb, none⟩
      exec .mateEngine s = .next (kick4 (sendPartner can txid (offerFrame 1 ((pubOf d).drop 32))
        (sendPartner can txid (offerFrame 0 ((pubOf d).take 32)) { u with start := { u.start with mate := some mate } })))) ∧
    (partner 0xC1 → frame.length = 32 →
      (s.start.roll = none → s.start.crank = none → exec (.challenge frame) s = .next (kick4 latched)) ∧
      (s.start.roll = none → s.start.crank = some c → c.chal = none → c.dispatchedAt ≤ s.clk.tb + msTicks 5 →
        challengeKey (used heard latched) frame = some k → exec (.challenge frame) s = .next (kick4 (crankGo c heard k (used heard latched)))) ∧
      (s.start.roll = some r → exec (.challenge frame) s = .next (kick4 (rollChallenge r heard latched)))) ∧
    (partner 0xB2 → frame.length = 16 → s.start.roll = some r → r.confirmed = false → r.frame ≠ [] →
      (mac8 r.newKey (0x73 :: frame.take 8 ++ beBytes 4 r.count) = slice frame 8 8 → exec (.rollAck frame) s = .next (kick4 (rollConfirm r s))) ∧
      (mac8 r.newKey (0x73 :: frame.take 8 ++ beBytes 4 r.count) ≠ slice frame 8 8 → exec (.rollAck frame) s = .next (kick4 s))) ∧
    (partner 0xD2 → frame.length = 48 → s.start.mate = some m → m.confirmed = none →
      (leAt frame 1 1 = 0 → m.y = none → exec (.mateReply frame) s = .next (kick4
        { s with start := { s.start with mate := some { m with lastAt := s.clk.tb, x := some (slice frame 8 32) } } })) ∧
      (∀ x, leAt frame 1 1 = 1 → m.x = some x → pubOk (x ++ slice frame 8 32) = false → exec (.mateReply frame) s = .next (kick4 (startDone 5 6 0
        { s with start := { s.start with mate := some { m with lastAt := s.clk.tb, y := some (slice frame 8 32) } } })))) ∧
    (partner 0xD3 → frame.length = 16 → s.start.mate = some m → m.confirmed = none → mateKey m = some key →
      (mac8 key (0x4D :: frame.take 8 ++ devIdBytes) = slice frame 8 8 → exec (.mateConfirm frame) s = .next (kick4 (addJob
        [.record 3 (rec3Body 1 0 256 (kwWrap (wrapKey s) key) [] m.rxid m.txid m.can),
         .record 0 (modePayload true s.sys.lockCause (storedMatings s + 1))] [.mated, .mateEnd] [.done 0xC (doneW 5 0x1B 0)]
        { s with start := { s.start with mate := some { m with confirmed := some key, lastAt := s.clk.tb } } }))) ∧
      (mac8 key (0x4D :: frame.take 8 ++ devIdBytes) ≠ slice frame 8 8 → exec (.mateConfirm frame) s = .next (kick4 (startDone 0xC 0x10 0 s)))) ∧
    (leAt frame 0 1 ≠ 0xC1 → exec (.challenge frame) s = .next (kick4 s)) ∧
    (s.timed = true →
      (s.start.crank = some c → c.chal = some ch → answerBy ch < s.clk.tb → c.sent = false → c.answered = none →
        exec .crankDeadline s = .next (crankLate (dropPartner s))) ∧
      (s.start.crank = none → exec .crankDeadline s = .next s) ∧
      (s.start.mate = some m → m.confirmed = none →
        (m.lastAt + msTicks 200 ≤ s.clk.tb → exec .mateFrameTimeout s = .next (startDone 5 0x18 0 (dropPartner s))) ∧
        (s.clk.tb < m.lastAt + msTicks 200 → exec .mateFrameTimeout s = .next s)) ∧
      (s.start.roll = some r → r.confirmed = false →
        (r.sent = 1 ∨ r.sent = 2 → r.sentAt + msTicks 50 ≤ s.clk.tb → exec .rollRepeat s = .next (sendPartner (startCan s) (s.reg rSTART_TXID) r.frame
          (dropPartner { s with start := { s.start with roll := some { r with sent := r.sent + 1, sentAt := s.clk.tb } } }))) ∧
        (3 ≤ r.sent → exec .rollRepeat s = .next s) ∧
        (3 ≤ r.sent → r.sentAt + msTicks 150 ≤ s.clk.tb → exec .rollTimeout s = .next (startDone 5 0x18 0 (dropPartner s))) ∧
        (r.sent < 3 → exec .rollTimeout s = .next s))) ∧
    (s.live = true →
      (s.sys.mode = .drive → s.start.markAt = none ∨ supervisionEnd s ≤ s.clk.tb → exec .presenceSupervision s = .next (commit .access 0x0B s)) ∧
      (s.sys.mode = .drive → s.start.markAt ≠ none → s.clk.tb < supervisionEnd s → exec .presenceSupervision s = .next s) ∧
      (s.sys.mode ≠ .drive → exec .presenceSupervision s = .next s))

/-- SAT_AUTH_REQ to SAT_ROLL_CONFIRM (R1002, R1004, R1015), with record 4 (R395, R396, R926, R1001). -/
def Obligations.SatelliteKeyResults : Prop :=
  ∀ (s t u v : State) (img bs pub cur pend : Bytes) (z : Bytes) (d n : Nat) (nonce : Bytes),
    let p := imgParam img 0 1
    let serves (op : Nat) : Prop := Serves 2 op img s t ∧ imgKey img = 0 ∧ paramZero img [0] = true ∧ p ≤ 7
    let current : Prop := payload t 4 ≠ none ∧ payload t 5 ≠ none
    let ok : Eff := .done 2 (doneW 0 0 0)
    let ends (st re : Nat) (y : State) : State := kick4 (kilnDone 2 st re 0 y)
    let works (writes : List JobWrite) (effs : List Eff) (y : State) : State :=
      kick4 { y with creds := { y.creds with jobs := y.creds.jobs ++ [⟨writes, effs, [.done 2 (doneW 5 0x1B 0)]⟩] } }
    let buf (b : Bytes) : Eff := .bufDone 2 (imgBuf img 1).ctx (imgBuf img 1).addr b
    -- the state once the position's nonce has been used up
    let asked (y : State) : State := { y with creds := { y.creds with satAuth := adel y.creds.satAuth p } }
    let keyx (k : Bytes) (y : State) : Bytes := mac8 k (satMsg y 0x62 p n)
    (serves 0x40 → Writable img 1 20 → ¬ current → exec .satAuthReq s = .next (ends 5 0x17 t)) ∧
    (serves 0x40 → Writable img 1 20 → current → kdraw 16 t = .ok bs u → exec .satAuthReq s = .next (works
      (satWrites u (satRaise (rec4 u) u.creds.scnt)) [.satAuth p bs u.creds.scnt, buf (bs ++ leBytes 4 u.creds.scnt)] u)) ∧
    (serves 0x41 → Readable img 0 10 → current → kread 2 img 0 0 10 t = .ok bs u →
      (aget? u.creds.satAuth p = none → exec .satAuthCheck s = .next (ends 5 0x17 u)) ∧
      (aget? u.creds.satAuth p = some (nonce, n) →
        let hit := (satOffered (asked u) p).find? (fun k => mac8 k.2 (satMsg (asked u) 0x61 p n ++ nonce) = slice bs 2 8)
        (leAt bs 0 1 = 0 → leAt bs 1 1 = p → hit = some (false, cur) →
          exec .satAuthCheck s = .next (works (satWrites (asked u) (rec4 (asked u))) [.bind p, ok] (asked u))) ∧
        (leAt bs 0 1 = 0 → leAt bs 1 1 = p → hit = some (true, pend) → satState (rec4 (asked u)) p = 2 →
          exec .satAuthCheck s = .next (works (satWrites (asked u) (satPromote (withSat (rec4 (asked u)) p 3))) [.bind p, ok] (asked u))) ∧
        (hit = none → exec .satAuthCheck s = .next (ends 0xC 0x10 (writeUntrust p (asked u)))))) ∧
    (serves 0x42 → Writable img 1 64 → kscalar 8 t = .ok d u → kwrite 2 img 1 (pubOf d) u = .ok z v →
      exec .satMateOffer s = .next (ends 0 0 { v with creds := { v.creds with satMate := ains v.creds.satMate p d } })) ∧
    (serves 0x43 → Readable img 0 64 → Writable img 1 28 → payload t 5 ≠ none → kread 2 img 0 0 64 t = .ok pub u →
      (aget? u.creds.satMate p = none → exec .satMateKey s = .next (ends 5 0x17 u)) ∧
      (aget? u.creds.satMate p = some d → ecdh d pub = none → exec .satMateKey s = .next (ends 5 6 u)) ∧
      (aget? u.creds.satMate p = some d → ecdh d pub = some z → satCur u = some cur → exec .satMateKey s = .next (works
        (satWrites u (satRaise (rec4 u) u.creds.scnt)) [.satAuth p [] u.creds.scnt,
          buf (leBytes 4 u.creds.scnt ++ kwWrap (derive z [0x53, 0x4D, 0x41, 0x54] devIdBytes 16) cur)] u))) ∧
    (serves 0x44 → Readable img 0 8 → current → aget? t.creds.satMate p ≠ none → kread 2 img 0 0 8 t = .ok bs u →
      aget? u.creds.satAuth p = some (nonce, n) → satCur t = some cur →
      (keyx cur u = bs → exec .satMateConfirm s = .next (works (satWrites (asked u) (withSat (rec4 (asked u)) p 1))
        [.bound p, .satMateEnd p, ok] (asked u))) ∧
      (keyx cur u ≠ bs → exec .satMateConfirm s = .next (ends 0xC 0x10 (asked u)))) ∧
    (serves 0x45 → Writable img 1 28 → current →
      (satCur t = none ∨ satState (rec4 t) p = 0 → exec .satRoll s = .next (ends 5 0x17 t)) ∧
      (satCur t = some cur → satPend t = some pend → satState (rec4 t) p = 1 ∨ satState (rec4 t) p = 2 → exec .satRoll s = .next (works
        (satWrites t (satRaise (withSat (rec4 t) p 2) t.creds.scnt)) [.satAuth p [] t.creds.scnt,
          buf (leBytes 4 t.creds.scnt ++ kwWrap cur pend)] t))) ∧
    (serves 0x46 → Readable img 0 8 → current →
      (satState (rec4 t) p ≠ 2 → exec .satRollConfirm s = .next (ends 5 0x17 t)) ∧
      (satState (rec4 t) p = 2 → kread 2 img 0 0 8 t = .ok bs u → aget? u.creds.satAuth p = some (nonce, n) → satPend t = some pend →
        (keyx pend u = bs → exec .satRollConfirm s = .next (works (satWrites (asked u) (satPromote (withSat (rec4 (asked u)) p 3))) [ok] (asked u))) ∧
        (keyx pend u ≠ bs → exec .satRollConfirm s = .next (ends 0xC 0x10 (asked u)))))

/-- The NET engine's operations (R977 to R980), the CAN and LIN controllers (R967 to R973) and the switch (R956 to R961). -/
def Obligations.NetworkResults : Prop :=
  ∀ (s t u v : State) (img data resp frame : Bytes) (z : Bytes) (n : Fin 4) (m : Fin 2) (q5 : Fin 5) (o : CanEnd) (x : CanTx) (r : LinRun)
    (w : Word) (id af fcs : Word) (fl : BitVec 6) (ago fine cnt q : Nat) (fine10 : BitVec 10) (f : EthFrame) (l : List EthFrame) (linked bad : Bool) (who : Req),
    let serves (op : Nat) : Prop := s.timed = true ∧ cmdImage 9 s = some img ∧ imgOp img = op ∧ t = cDrop (cmdKey 9) s
    let c := imgParam img 0 1
    let fmt := imgParam img 1 1
    let fl8 := imgParam img 2 1
    let len := (imgBuf img 0).len
    let cf : CanFrame := ⟨wd (imgParam img 4 4), canFlags fmt fl8, fl8.testBit 3, if fmt = 2 then wd (imgParam img 8 4) else 0, data⟩
    -- CAN_SEND and the frame on the wire
    (serves 1 → canParamOk img = false → exec .canSend s = .next (netDone 5 1 0 t)) ∧
    (serves 1 → canParamOk img = true → Readable img 0 len →
      (canEnabled t c fmt = false → exec .canSend s = .next (netDone 5 2 0 t)) ∧
      (canEnabled t c fmt = true → canState t c = 2 → exec .canSend s = .next (netDone 5 3 0 t)) ∧
      (canEnabled t c fmt = true → canState t c ≠ 2 → kread 9 img 0 0 len t = .ok data u → exec .canSend s = .next
        (canArb c (u.onCan c (fun k => { k with tx0 := some ⟨cf, 0⟩ }))))) ∧
    (canSends s n.val = true → (s.canCtl n.val).onWire = none → (s.canCtl n.val).tx1 = [] → (s.canCtl n.val).tx0 = some x → s.mayAttempt 9 = true →
      (canArb n.val s).canCtl n.val = { s.canCtl n.val with tx0 := some { x with tries := x.tries + 1 }, onWire := some 0 }) ∧
    (s.timed = true →
      ((s.canCtl n.val).onWire = none → exec (.canFrameEnd n o) s = .next s) ∧
      (∀ y, (s.canCtl n.val).onWire = some 0 → (s.canCtl n.val).tx0 = some x → y = s.onCan n.val (fun k => { k with onWire := none }) →
        (canState (canTxOk n.val y) n.val ≠ 2 →
          exec (.canFrameEnd n .ok) s = .next (canArb n.val (crankDeadline (canNetEnd n.val 0 0 (canTxOk n.val y))))) ∧
        (canState s n.val ≠ 2 → canSpent s n.val x.tries = false → s.mayAttempt 9 = true →
          exec (.canFrameEnd n .lost) s = .next (canArb n.val (crankDeadline y))) ∧
        (canState s n.val ≠ 2 → canSpent s n.val x.tries = true ∨ s.mayAttempt 9 = false →
          exec (.canFrameEnd n .lost) s = .next (canArb n.val (crankDeadline (canNetEnd n.val 5 9 y)))) ∧
        (canState (canTxError n.val y) n.val = 2 →
          exec (.canFrameEnd n .error) s = .next (canBusOff n.val (canTxError n.val y)))) ∧
      (canHears s n.val fl = false → exec (.canReceive n id fl af data ago bad) s = .next s) ∧
      (canHears s n.val fl = true → exec (.canReceive n id fl af data ago false) s = .next (canRxCount n.val false s)) ∧
      (∀ y, canHears s n.val fl = true → y = canRxCount n.val true s → isPartner y n.val id fl = false →
        (List.range 16).any (canFilter y n.val (if fl.getLsbD 2 then id &&& 0x7FF else id &&& 0x1FFFFFFF) (fl.getLsbD 0 && !fl.getLsbD 2)) = false →
        exec (.canReceive n id fl af data ago true) s = .next y) ∧
      (∀ y, canHears s n.val fl = true → y = canRxCount n.val true s → isPartner y n.val id fl = false →
        (List.range 16).any (canFilter y n.val (if fl.getLsbD 2 then id &&& 0x7FF else id &&& 0x1FFFFFFF) (fl.getLsbD 0 && !fl.getLsbD 2)) = true →
        exec (.canReceive n id fl af data ago true) s = .next (ringPut n.val (netRecord n.val fl.toNat id (if fl.getLsbD 2 then af else 0) 0
          (y.clk.tb - ago) data) (canEvent n.val 1) y)) ∧
      (canState (crankDeadline s) n.val = 2 → ((crankDeadline s).canCtl n.val).recovering = true → ∃ y, exec (.busOffRecovery n) s = .next y ∧
        y.reg (rCAN_STAT n.val) = 0 ∧ (y.canCtl n.val).wasOff = false ∧ (y.canCtl n.val).recovering = false) ∧
      (canState (crankDeadline s) n.val ≠ 2 → exec (.busOffRecovery n) s = .next (crankDeadline s)) ∧
      (Writers.app.permits who = true → s.reg (rCAN_CFG n.val) &&& 0xFF000006 = s.reg (rCAN_CFG n.val) →
        canState s n.val = 2 → s.rbit (rCAN_CFG n.val) 29 = false → ∃ y, exec (.recover who n) s = .next y ∧
          (y.canCtl n.val) = { s.canCtl n.val with recovering := true } ∧ y.regs = (s.setReg (rCAN_CFG n.val) (s.reg (rCAN_CFG n.val))).regs)) ∧
    -- the receive ring
    (∀ rec ev, s.rbit (ringReg n.val + 4) 31 = true →
      (ringSize s n.val < ringUsed s n.val + rec.length + 8 → ringPut n.val rec ev s = ringDrop n.val s) ∧
      (ringUsed s n.val + rec.length + 8 ≤ ringSize s n.val → ringWrite s n.val (ringWr s n.val) rec = (.ok z, u) →
        ringPut n.val rec ev s = ev (u.setReg (ringReg n.val + 8) (wd ((ringWr u n.val + rec.length) % ringSize u n.val))))) ∧
    -- LIN
    (serves 2 → linParamOk img = false → exec .linMaster s = .next (netDone 5 1 0 t)) ∧
    (serves 2 → linParamOk img = true → Readable img 0 (if fmt = 0 then len else 0) →
      Writable img 1 (if fmt = 1 then (if fmt = 1 then imgParam img 4 1 else if fmt = 0 then len else 0) else 0) →
      (t.rbit (linReg c 0) 31 = false → exec .linMaster s = .next (netDone 5 2 0 t)) ∧
      (t.rbit (linReg c 0) 31 = true → kread 9 img 0 0 (if fmt = 0 then len else 0) t = .ok data u → exec .linMaster s = .next (u.setLin c (some
        ⟨fmt, fl8, imgParam img 3 1, if fmt = 1 then imgParam img 4 1 else if fmt = 0 then len else 0, data,
          if wd (imgParam img 12 4) = 0 then none else some (wd (imgParam img 12 4)), u.clk.tb,
          wd (imgParam img 12 4) != 0 && tickPassed (wd (imgParam img 12 4)) u.tbLo, false, buf1 img⟩)))) ∧
    (s.timed = true →
      (s.linRun m.val = none → exec (.linBreakStart m) s = .next s ∧ exec (.linFrameEnd m resp bad) s = .next s) ∧
      (s.linRun m.val = some r →
        (r.begun = false → r.target = none → s.mayAttempt 9 = true → ∃ y, exec (.linBreakStart m) s = .next y ∧
          y.linRun m.val = some { r with begun := true }) ∧
        (r.begun = false → r.target = some w → r.late = false → tickDue w s.tbLo = true → s.mayAttempt 9 = true →
          ∃ y, exec (.linBreakStart m) s = .next y ∧ y.linRun m.val = some { r with begun := true, startAt := s.clk.tb - (s.tbLo - w).toNat }) ∧
        (r.begun = false → r.target = some w → r.late = false → tickDue w s.tbLo = false → exec (.linBreakStart m) s = .next s) ∧
        (r.begun = true → linEndTick s m.val r resp true ≤ s.clk.tb → exec (.linFrameEnd m resp true) s = .next (linEnd m.val r 6 (resp.take r.n) s)) ∧
        (r.begun = true → linEndTick s m.val r resp false ≤ s.clk.tb →
          (r.dir ≠ 1 → exec (.linFrameEnd m resp false) s = .next (linEnd m.val r 0 (resp.take r.n) s)) ∧
          (r.dir = 1 → resp = [] → exec (.linFrameEnd m resp false) s = .next (linEnd m.val r 4 (resp.take r.n) s)) ∧
          (r.dir = 1 → resp ≠ [] → resp.length = r.n + 1 → resp.getD r.n 0 = linSum r (resp.take r.n) →
            exec (.linFrameEnd m resp false) s = .next (linEnd m.val r 0 (resp.take r.n) s)) ∧
          (r.dir = 1 → resp ≠ [] → resp.length ≠ r.n + 1 ∨ resp.getD r.n 0 ≠ linSum r (resp.take r.n) →
            exec (.linFrameEnd m resp false) s = .next (linEnd m.val r 5 (resp.take r.n) s))) ∧
        (s.rbit (linReg m.val 0) 31 = true → (linEvent m.val 3 s).linRun m.val = some r ∧
          (r.begun = true → exec (.dominant m) s = .next (linEnd m.val r 6 [] (linEvent m.val 3 s))) ∧
          (r.begun = false → exec (.dominant m) s = .next (linEvent m.val 3 s)))) ∧
      (s.rbit (linReg m.val 0) 31 = false → exec (.dominant m) s = .next s ∧ exec (.wakeRx m) s = .next s) ∧
      (s.rbit (linReg m.val 0) 31 = true → s.linRun m.val = none → ∃ y, exec (.wakeRx m) s = .next y ∧ y.rbit (linReg m.val 4) 2 = true ∧ y.net = s.net)) ∧
    -- the switch
    (serves 3 → ethParamOk img = false → exec .ethSend s = .next (netDone 5 1 0 t)) ∧
    (serves 3 → ethParamOk img = true → Readable img 0 len → Writable img 1 (if c.testBit 1 then 16 else 0) →
      (ethEnabled t (c.testBit 0) fmt = false → exec .ethSend s = .next (netDone 5 2 0 t)) ∧
      (∀ y, ethEnabled t (c.testBit 0) fmt = true → kread 9 img 0 0 len t = .ok data u →
        y = { u with net := { u.net with eth := some ⟨0, 0, if c.testBit 1 then (maskPorts fmt).head? else none, buf1 img, none⟩ } } →
        (c.testBit 0 = false → exec .ethSend s = .next (ethSendEnd (ethForward 4 true y.clk.tb 0 data y))) ∧
        (∀ p, c.testBit 0 = true → maskPorts fmt = [p] → exec .ethSend s = .next (ethSendEnd
          (ethEnqueue p fl8 ⟨data, true, 4, (ethVlan y 4 data).1, y.clk.tb, 0⟩ y))))) ∧
    (∀ p, f.ours = false →
      ((ethQueue s p q).length < 16 → ethEnqueue p q f s = setEthQueue p q (ethQueue s p q ++ [f]) s) ∧
      (16 ≤ (ethQueue s p q).length → ethEnqueue p q f s = ethDrop s)) ∧
    (s.timed = true →
      (s.rbit rSW_CFG 31 = false ∨ portUp s n.val = false ∨ ethGood frame fcs = false → exec (.ethReceive n frame fcs ago fine10) s = .next s) ∧
      (s.rbit rSW_CFG 31 = true → portUp s n.val = true → ethGood frame fcs = true →
        (ethIngress s n.val frame = none → exec (.ethReceive n frame fcs ago fine10) s = .next s) ∧
        (∀ e p y, ethIngress s n.val frame = some e → y = ethLearn n.val (ethVlan s n.val frame).1 (ethSrc frame) s →
          ethPorts y n.val (ethVlan s n.val frame).1 (ethDst frame) e = [p] → exec (.ethReceive n frame fcs ago fine10) s = .next (ethEnqueue p
            (bits (y.reg rSW_PCPMAP) (2 * (ethVlan s n.val frame).2 + 1) (2 * (ethVlan s n.val frame).2))
            ⟨ethLeaves (bit e (20 + p)) (ethVlan s n.val frame).1 (ethVlan s n.val frame).2 frame, false, n.val, (ethVlan s n.val frame).1,
              s.clk.tb - ago, fine10.toNat⟩ y))) ∧
      (s.rbit rSW_CFG 31 = true → portUp s q5.val = true →
        (ethNext s q5.val = none → exec (.ethEgressDone q5 fine10) s = .next s) ∧
        (ethNext s q5.val = some (q, f, l) → q5.val ≠ 4 → f.ours = false → exec (.ethEgressDone q5 fine10) s = .next (setEthQueue q5.val q l s)) ∧
        (ethNext s q5.val = some (q, f, l) → q5.val = 4 → exec (.ethEgressDone q5 fine10) s = .next (ringPut 4
          (netRecord 0x20 (b2n (ethType f.bytes = 0x88F7)) (wd f.ingress) (wd f.vid) f.fine f.tick f.bytes) (fun y => y) (setEthQueue 4 q l s)))) ∧
      (∃ y, exec .ageing s = .next y ∧ y.regs = s.regs ∧
        y.net = { s.net with macs := s.net.macs.filter (fun e => s.clk.tb < e.seen + msTicks 1000 * s.fld rSW_CFG 29 20) }) ∧
      (s.rbit (portReg n.val) 30 = linked → exec (.linkChange n linked) s = .next s) ∧
      (s.rbit (portReg n.val) 30 ≠ linked → ∃ y, exec (.linkChange n linked) s = .next y ∧ y.rbit rSW_EVT n.val = true ∧ y.net = s.net)) ∧
    -- RX_TAKE
    (serves 4 → ¬ (paramZero img [0] = true ∧ (c ≤ 3 ∨ c = 0x20)) → exec .rxTake s = .next (netDone 5 1 0 t)) ∧
    (∀ k, serves 4 → paramZero img [0] = true → c ≤ 3 ∨ c = 0x20 → k = (if c = 0x20 then 4 else c) → Writable img 1 (imgBuf img 1).len →
      takeRecords ((imgBuf img 1).len / 24 + 1) k (ringRd t k) (ringUsed t k) (imgBuf img 1).len t = ((cnt, data), u) →
      kwrite 9 img 1 data u = .ok z v →
      exec .rxTake s = .next (netDone 0 0 cnt (v.setReg (ringReg k + 12) (wd ((ringRd v k + data.length) % ringSize v k)))))

/-- The Adit link (R996 to R1012, R1017, R1018, R1022). -/
def Obligations.SatelliteLinkResults : Prop :=
  ∀ (s y : State) (p : Fin 8) (r : AditReq) (who : Req) (frame payload : Bytes) (crc : BitVec 16) (op : Nat) (i : Instr),
    let drop (u : State) : State := u.onAdit (fun a => { a with din := [], dinEom := false })
    let on := s.rbit rADIT_CFG 31
    -- the frames of the field core
    ((i, op) ∈ [(Instr.aditSend, 1), (.enum, 2), (.auth, 3), (.aditMate, 4), (.aditRoll, 5)] → s.timed = true → y = drainAdit 4 s →
      (y.adit.dinEom = false ∨ dinOp y ≠ op → exec i s = .next y) ∧
      (y.adit.dinEom = true → dinOp y = op → dinOk y = false → exec i s = .next (drop y)) ∧
      (y.adit.dinEom = true → dinOp y = op → dinOk y = true → (op = 1 ∨ op = 5) → posState y (dinPos y) ≠ 1 →
        exec i s = .next (endSatLost (dinPos y) (aditOut 2 (dinType y) (dinPos y) [] (drop y)))) ∧
      (y.adit.dinEom = true → dinOp y = op → dinOk y = true → (op ≠ 1 ∧ op ≠ 5) ∨ posState y (dinPos y) = 1 →
        (y.adit.req = none → y.rbit rADIT_CFG 31 = true → y.mayAttempt 11 = true →
          exec i s = .next (aditSendFrame ⟨dinPos y, dinType y, dinPayload y, .command, 0, 0⟩ (drop y))) ∧
        (y.adit.req ≠ none ∨ y.rbit rADIT_CFG 31 = false ∨ y.mayAttempt 11 = false → exec i s = .next y))) ∧
    (aditSendFrame r s).adit = { s.adit with line := aditFrame r.pos r.type r.payload
                                             req := some { r with tries := r.tries + 1, endAt := s.clk.tb + frameTicks r.payload.length } } ∧
    (∀ st < 16, posState (setPosState p.val st s) p.val = st ∧ (setPosState p.val st s).rbit rADIT_EVT (24 + p.val) = true) ∧
    -- the timers
    (s.timed = true →
      (s.adit.req = none → on = true → s.rbit rADIT_CFG 30 = true → posState s p.val = 1 →
        ((s.aditPos p.val).nextHb ≤ s.clk.tb → exec (.heartbeat p) s = .next (aditSendFrame ⟨p.val, 1, [], .heartbeat, 0, 0⟩ (s.setAditPos p.val
          { s.aditPos p.val with nextHb := (s.aditPos p.val).nextHb + msTicks (s.fld rADIT_CFG 3 0) }))) ∧
        (s.clk.tb < (s.aditPos p.val).nextHb → exec (.heartbeat p) s = .next s)) ∧
      (s.adit.req ≠ none ∨ posState s p.val ≠ 1 → exec (.heartbeat p) s = .next s) ∧
      (s.adit.req = none → on = true → s.rbit rADIT_CFG 30 = true → posState s p.val = 2 →
        ((s.aditPos p.val).nextProbe ≤ s.clk.tb → exec (.probe p) s = .next (aditSendFrame ⟨p.val, 1, [], .probe, 0, 0⟩ (s.setAditPos p.val
          { s.aditPos p.val with nextProbe := (s.aditPos p.val).nextProbe + msTicks (s.fld rADIT_CFG 15 8) }))) ∧
        (s.clk.tb < (s.aditPos p.val).nextProbe → exec (.probe p) s = .next s)) ∧
      (s.adit.req ≠ none ∨ posState s p.val ≠ 2 → exec (.probe p) s = .next s) ∧
      (posState s p.val = 2 → s.adit.req = none → (s.aditPos p.val).lostAt + msTicks (10 * s.fld rADIT_CFG 23 16) ≤ s.clk.tb →
        s.clk.tb < (s.aditPos p.val).nextProbe → exec (.rebindExpiry p) s = .next (setPosState p.val 4 s)) ∧
      (posState s p.val ≠ 2 ∨ s.clk.tb < (s.aditPos p.val).lostAt + msTicks (10 * s.fld rADIT_CFG 23 16) → exec (.rebindExpiry p) s = .next s) ∧
      -- the actors' bits of ADIT_POSn
      (Writers.appField.permits who = true →
        (posState s p.val = 0 ∨ posState s p.val = 4 → exec (.rebind who p) s = .next (posLost p.val s)) ∧
        (posState s p.val ≠ 0 → posState s p.val ≠ 4 → exec (.rebind who p) s = .next s) ∧
        (posState s p.val = 0 ∨ posState s p.val = 5 → exec (.release who p) s = .next s) ∧
        (posState s p.val = 1 → exec (.release who p) s = .next (leaveBound p.val (setPosState p.val 0 (dropBind p.val s)))) ∧
        (2 ≤ posState s p.val → posState s p.val ≠ 5 → exec (.release who p) s = .next (setPosState p.val 0 (dropBind p.val s)))) ∧
      (Writers.appField.permits who = false → exec (.rebind who p) s = .next s ∧ exec (.release who p) s = .next s) ∧
      (Writers.kiln.permits who = true →
        (posState s p.val = 3 → exec (.untrust who p) s = .next (setPosState p.val 5 (dropBind p.val s))) ∧
        (posState s p.val ≠ 3 → exec (.untrust who p) s = .next s ∧ exec (.bind who p) s = .next s) ∧
        (posState s p.val = 3 → bindRuns s p.val = true → exec (.bind who p) s = .next s) ∧
        (posState s p.val = 3 → bindRuns s p.val = false → s.adit.req = none → s.adit.binding = [] → on = true →
          exec (.bind who p) s = .next (aditSendFrame ⟨p.val, 4, [1], .rebind, 0, 0⟩ (s.onAdit (fun a => { a with binding := [] }))))) ∧
      (Writers.kiln.permits who = false → exec (.untrust who p) s = .next s ∧ exec (.bind who p) s = .next s) ∧
      -- replies
      (s.adit.req = none → exec (.aditReply frame crc) s = .next s ∧ exec .attemptFailed s = .next s) ∧
      (s.adit.req = some r →
        (aditInTime r (frame ++ beBytes 2 crc.toNat) s = false → exec (.aditReply frame crc) s = .next s) ∧
        (aditInTime r (frame ++ beBytes 2 crc.toNat) s = true →
          (aditPayload r (frame ++ beBytes 2 crc.toNat) = none →
            exec (.aditReply frame crc) s = .next (aditKick (attemptFailed r (aditEvent 1 s)))) ∧
          (aditPayload r (frame ++ beBytes 2 crc.toNat) = some payload →
            (r.why = .command → exec (.aditReply frame crc) s = .next (aditKick (aditDeliver r payload (freeLine s)))) ∧
            (r.why = .probe → posState s r.pos = 2 → exec (.aditReply frame crc) s = .next (aditKick (setPosState r.pos 3 (freeLine s)))) ∧
            (r.why = .rebind → payload.getD 0 0xFF = 0 → exec (.aditReply frame crc) s = .next (aditKick (posBound r.pos (freeLine s)))) ∧
            (r.why = .rebind → payload.getD 0 0xFF ≠ 0 → exec (.aditReply frame crc) s = .next (aditKick (attemptFailed r s))) ∧
            (r.why = .heartbeat → (payload.getD 0 0).getLsbD 0 = false → exec (.aditReply frame crc) s = .next (aditKick (resendAfter r.pos
              ((freeLine s).setFld (posReg r.pos) 23 16 0)))))) ∧
        (s.clk.tb < r.endAt + 375 → exec .attemptFailed s = .next s) ∧
        (r.endAt + 375 ≤ s.clk.tb → exec .attemptFailed s = .next (aditKick (attemptFailed r s))) ∧
        (r.why = .command → s.mayAttempt 11 = true →
          (r.tries < 3 → attemptFailed r s = aditSendFrame r (freeLine s)) ∧
          (3 ≤ r.tries → posState s r.pos = 1 → attemptFailed r s = (freeLine s).onAdit (fun a => { a with again := some r })) ∧
          (3 ≤ r.tries → posState s r.pos ≠ 1 → attemptFailed r s = aditOut 1 r.type r.pos [] (freeLine s))) ∧
        (r.why = .heartbeat → ∀ k, k = satInc 255 (s.fld (posReg r.pos) 23 16) →
          (s.fld rADIT_CFG 7 4 ≤ k → attemptFailed r s = posLost r.pos ((freeLine s).setFld (posReg r.pos) 23 16 k)) ∧
          (k < s.fld rADIT_CFG 7 4 → attemptFailed r s = resendAfter r.pos ((freeLine s).setFld (posReg r.pos) 23 16 k))) ∧
        (r.why = .rebind → (r.tries < 3 → attemptFailed r s = aditSendFrame r (freeLine s)) ∧
          (3 ≤ r.tries → attemptFailed r s = posLost r.pos (freeLine s))) ∧
        (r.why = .probe → attemptFailed r s = freeLine s))) ∧
    -- the wake pulse
    (s.sys.mode = .banked ∨ s.pwr.entering = true → s.rbit rPWR_WAKE_EN 2 = true →
      (s.rbit rADIT_WAKE 0 = true → exec .aditWake s = .next (presentWake 2 s)) ∧
      (s.rbit rADIT_WAKE 0 = false → exec .aditWake s = .next (presentWake 2 (aditEvent 0 (s.setRbit rADIT_WAKE 0 true))))) ∧
    ((s.sys.mode ≠ .banked ∧ s.pwr.entering = false) ∨ s.rbit rPWR_WAKE_EN 2 = false → exec .aditWake s = .next s)

/-- Host accesses (R1037 to R1064, R1190). -/
def Obligations.HostInterfaceResults : Prop :=
  ∀ (s t : State) (who : Req) (tgt : PcieTo) (off : BitVec 17) (soff : BitVec 23) (len : Nat) (write : Option (List Byte)) (bs : Bytes) (ws : List Word) (linked : Bool)
    (speed : BitVec 2) (uart quad : Bool) (l8 : BitVec 8) (addr : BitVec 32) (hcrc dcrc : BitVec 16) (value : Word) (r : Serial),
    -- PCIe
    (s.host.linkUp = true → s.hostActive .pcie = true →
      (s.frozen = true → exec (.pcieAccess tgt len write) s = .next { s with host := { s.host with waiting := s.host.waiting ++ [.pcie tgt len write] } }) ∧
      (s.frozen = false → s.live = true →
        (∀ a, tgt = .bar0 off → a = 0x40000000 + off.toNat →
          (a % 4 ≠ 0 ∨ len % 4 ≠ 0 ∨ len = 0 ∨ hostMayAll s write.isSome a (len / 4) = false → exec (.pcieAccess tgt len write) s = .next (pcieError s)) ∧
          (a % 4 = 0 → len % 4 = 0 → len ≠ 0 → hostMayAll s write.isSome a (len / 4) = true →
            (write = none → hostReads .pcie (len / 4) a s = (true, ws, t) → exec (.pcieAccess tgt len write) s = .next (answer 0 ws false t)) ∧
            (write = none → hostReads .pcie (len / 4) a s = (false, ws, t) → exec (.pcieAccess tgt len write) s = .next (pcieError t)) ∧
            (write = some bs → hostWrites .pcie ((wordsOf bs).take (len / 4)) a s = (true, t) →
              exec (.pcieAccess tgt len write) s = .next (answer 0 [] false t)) ∧
            (write = some bs → hostWrites .pcie ((wordsOf bs).take (len / 4)) a s = (false, t) →
              exec (.pcieAccess tgt len write) s = .next (pcieError t)))) ∧
        (∀ z, tgt = .bar2 soff → len ≠ 0 →
          (∀ i < len, inSram (0x20000000 + soff.toNat + i) = true ∧ hostMay s write.isSome ((0x20000000 + soff.toNat + i) / 4 * 4) = true) →
            (write = none → readSram 0x21 (0x20000000 + soff.toNat) len s = (.ok z, t) →
              exec (.pcieAccess tgt len write) s = .next (answer 0 (wordsOf z) false t)) ∧
            (write = some bs → writeSram 0x21 (0x20000000 + soff.toNat) (slice bs 0 len) s = (.ok z, t) →
              exec (.pcieAccess tgt len write) s = .next (answer 0 [] false t))))) ∧
    (s.host.linkUp = false ∨ s.hostActive .pcie = false → exec (.pcieAccess tgt len write) s = .next s) ∧
    (answer 0 ws false s).host.answer = ⟨0, ws, false⟩ ∧ (pcieError s).host.answer = ⟨0, [], true⟩ ∧
    (s.sys.mode ≠ .off → ∃ y, exec .perstN s = .next y ∧ y.host.linkUp = false ∧ y.host.speed = 0 ∧ y.host.busMaster = false ∧
      y.host.msixEnable = false ∧ y.host.msixMask = false ∧ y.host.msixTable = [] ∧ y.host.pba = 0 ∧ y.front = s.front ∧ y.chans = s.chans ∧ y.mem = s.mem) ∧
    (s.sys.mode = .off → exec .perstN s = .next s) ∧
    (s.live = true → s.hostActive .pcie = true →
      (s.host.linkUp = linked → exec (.pcieLinkChange linked speed) s = .next { s with host := { s.host with speed := if linked then speed else 0 } }) ∧
      (s.host.linkUp ≠ linked → exec (.pcieLinkChange linked speed) s = .next (hostEvent 2 .pcie
        { s with host := { s.host with linkUp := linked, speed := if linked then speed else 0 } }))) ∧
    -- serial requests
    (∀ i, (i, r) ∈ [(Instr.serialRead uart quad l8 addr hcrc, Serial.read l8 addr), (.rescueInstall (.request uart quad l8 addr hcrc), .install l8 addr)] →
      serialHears uart s = true →
        (serialHeaderOk quad r hcrc = true → exec i s = .next (serialArrive uart quad r s)) ∧
        (serialHeaderOk quad r hcrc = false → uart = true → exec i s = .next (uartErr s)) ∧
        (serialHeaderOk quad r hcrc = false → uart = false → s.live = true → exec i s = .next (reply false r 1 [] s))) ∧
    (serialHears uart s = true →
      (serialHeaderOk quad (.write addr ws) hcrc = true → crc16 (serialData ws) = dcrc →
        exec (.serialWrite uart quad addr ws hcrc dcrc) s = .next (serialArrive uart quad (.write addr ws) s)) ∧
      (serialHeaderOk quad (.write addr ws) hcrc = true → crc16 (serialData ws) ≠ dcrc → s.live = true →
        exec (.serialWrite uart quad addr ws hcrc dcrc) s = .next (reply uart (.write addr ws) 2 [] s))) ∧
    (serialHears uart s = false → exec (.serialRead uart quad l8 addr hcrc) s = .next s ∧ exec (.serialWrite uart quad addr ws hcrc dcrc) s = .next s) ∧
    (s.frozen = false → s.live = true → serialArrive false quad r s = serialAnswer false quad r s) ∧
    (s.frozen = true → serialArrive false quad r s = holdAccess (.serial false quad r false) s) ∧
    ((uart && quad) = false →
      (addr.toNat % 4 ≠ 0 → serialServe uart quad (.read l8 addr) s = (6, [], s) ∧ serialServe uart quad (.write addr ws) s = (6, [], s)) ∧
      (addr.toNat % 4 = 0 → hostMayAll s false addr.toNat (l8.toNat + 1) = false → serialServe uart quad (.read l8 addr) s = (4, [], s)) ∧
      (addr.toNat % 4 = 0 → hostMayAll s false addr.toNat (l8.toNat + 1) = true →
        (hostReads (serialReq uart) (l8.toNat + 1) addr.toNat s = (true, ws, t) → serialServe uart quad (.read l8 addr) s = (0, ws, t)) ∧
        (hostReads (serialReq uart) (l8.toNat + 1) addr.toNat s = (false, ws, t) → serialServe uart quad (.read l8 addr) s = (3, [], t))) ∧
      (addr.toNat % 4 = 0 → ws ≠ [] → ws.length ≤ 256 → hostMayAll s true addr.toNat ws.length = true → hostWrites (serialReq uart) ws addr.toNat s = (true, t) →
        serialServe uart quad (.write addr ws) s = (0, [], t)) ∧
      (l8 = 0 → addr = 0xA ∨ addr = 0xB → s.sys.mode ≠ .scan → rescueReady s = true →
        serialServe uart quad (.install l8 addr) s = (0, [wd (rescue (addr.toNat - 0xA) s).1], (rescue (addr.toNat - 0xA) s).2)) ∧
      (l8 = 0 → addr = 0xA ∨ addr = 0xB → s.sys.mode ≠ .scan → rescueReady s = false → serialServe uart quad (.install l8 addr) s = (7, [], s))) ∧
    (Writers.hostApp.permits who = true → s.live = true → s.sys.mode ≠ .scan → bits value 31 16 = 0x5253 → bits value 3 0 = 0xA ∨ bits value 3 0 = 0xB →
      (rescueReady s = true → exec (.rescueInstall (.register who value)) s = .next (rescue (bits value 3 0 - 0xA) s).2) ∧
      (rescueReady s = false → exec (.rescueInstall (.register who value)) s = .next s)) ∧
    (serialHears false s = true → exec (.spiCut quad none) s = .next s ∧
      exec (.spiCut quad (some r)) s = .next (hostEvent 3 .spi (serialArrive false quad r s))) ∧
    (serialHears false s = false → exec (.spiCut quad (some r)) s = .next s) ∧
    (serialHears true s = true → exec .uartErr s = .next (hostEvent 4 .uart { s with host := { s.host with uartDiscard := true } })) ∧
    (serialHears true s = false → exec .uartErr s = .next s)

end
end

