-- ==== Sys2Proof/Laws/Tables.lean ====
section
/-! SUPPORT. Laws of the sparse tables: what a lookup gives after a change, and that every change keeps the canonical form. -/
namespace Sys2Proof.Machine

/-! ### Lookups -/

theorem aget?_ains {α : Type} (m : Assoc α) (k j : Nat) (v : α) :
    aget? (ains m k v) j = if j = k then some v else aget? m j := by
  induction m with
  | nil => rfl
  | cons e m ih =>
    simp only [ains]
    split_ifs <;> simp_all [aget?]

theorem aget?_adel {α : Type} (m : Assoc α) (k j : Nat) :
    aget? (adel m k) j = if j = k then none else aget? m j := by
  induction m with
  | nil => simp [adel, aget?]
  | cons e m ih =>
    obtain ⟨a, b⟩ := e
    simp only [adel] at ih
    by_cases h : a = k
    · subst h
      simp only [adel, List.filter_cons, beq_self_eq_true, Bool.not_true, Bool.false_eq_true, if_false, ih, aget?]
      split_ifs <;> rfl
    · simp only [adel, List.filter_cons, h, Bool.not_eq_true', beq_eq_false_iff_ne, ne_eq, not_false_eq_true,
        if_true, aget?, ih]
      split_ifs <;> simp_all

/-- A table reads at a key what was last written there, and elsewhere what it read before. -/
theorem agetD_asetD {α : Type} [DecidableEq α] (d : α) (m : Assoc α) (k j : Nat) (v e : α) (h : j = k → e = d) :
    agetD (asetD d m k v) j e = if j = k then v else agetD m j e := by
  unfold asetD agetD
  split_ifs with hv hj hj
  · simp [aget?_adel, hj, h hj, hv]
  · simp [aget?_adel, hj]
  · simp [aget?_ains, hj]
  · simp [aget?_ains, hj]

theorem agetD_asetD_self {α : Type} [DecidableEq α] (d : α) (m : Assoc α) (k : Nat) (v : α) :
    agetD (asetD d m k v) k d = v := by simp [agetD_asetD d m k k v d (fun _ => rfl)]

/-- A value that a lookup gives is listed, or the default. -/
theorem agetD_cases {α : Type} (m : Assoc α) (k : Nat) (d : α) :
    agetD m k d = d ∨ ∃ e ∈ m, e.2 = agetD m k d := by
  induction m with
  | nil => exact .inl rfl
  | cons e m ih =>
    unfold agetD aget?
    split_ifs with h
    · exact .inr ⟨e, by simp, rfl⟩
    · exact ih.imp id (fun ⟨x, hx, hv⟩ => ⟨x, by simp [hx], hv⟩)

/-- What is listed after a write is the value written, or was listed before. -/
theorem mem_ains {α : Type} {m : Assoc α} {k : Nat} {v : α} {e : Nat × α} (h : e ∈ ains m k v) : e = (k, v) ∨ e ∈ m := by
  induction m with
  | nil => exact .inl (by simpa [ains] using h)
  | cons a m ih =>
    simp only [ains] at h
    split_ifs at h <;> simp only [List.mem_cons] at h ⊢
    · tauto
    · tauto
    · rcases h with h | h
      · tauto
      · rcases ih h with h | h <;> tauto

theorem mem_asetD {α : Type} [DecidableEq α] {d : α} {m : Assoc α} {k : Nat} {v : α} {e : Nat × α} (h : e ∈ asetD d m k v) :
    e = (k, v) ∨ e ∈ m := by
  unfold asetD at h
  split_ifs at h
  · exact .inr (List.mem_of_mem_filter h)
  · exact mem_ains h

theorem mem_asetD_value {α : Type} [DecidableEq α] {d : α} {m : Assoc α} {k : Nat} {v : α} {e : Nat × α}
    (h : e ∈ asetD d m k v) : e = (k, v) ∧ v ≠ d ∨ e ∈ m := by
  unfold asetD at h
  split_ifs at h with hv
  · exact .inr (List.mem_of_mem_filter h)
  · exact (mem_ains h).imp (fun e => ⟨e, hv⟩) id

/-! ### The canonical form -/

theorem asorted_cons {α : Type} (e : Nat × α) (m : Assoc α) :
    asorted (e :: m) = true ↔ (∀ x ∈ m, e.1 < x.1) ∧ asorted m = true := by
  induction m generalizing e with
  | nil => simp [asorted]
  | cons a m ih =>
    obtain ⟨k, v⟩ := e
    simp only [asorted, Bool.and_eq_true, decide_eq_true_eq, List.mem_cons, forall_eq_or_imp]
    constructor
    · rintro ⟨h, hs⟩
      exact ⟨⟨h, fun x hx => lt_trans h (((ih a).1 hs).1 x hx)⟩, hs⟩
    · rintro ⟨⟨h, -⟩, hs⟩
      exact ⟨h, hs⟩

theorem asorted_filter {α : Type} {m : Assoc α} (p : Nat × α → Bool) (h : asorted m = true) : asorted (m.filter p) = true := by
  induction m with
  | nil => rfl
  | cons e m ih =>
    obtain ⟨hlt, hs⟩ := (asorted_cons e m).1 h
    by_cases hp : p e = true
    · rw [List.filter_cons_of_pos hp, asorted_cons]
      exact ⟨fun x hx => hlt x (List.mem_of_mem_filter hx), ih hs⟩
    · rw [List.filter_cons_of_neg hp]
      exact ih hs

theorem asorted_ains {α : Type} {m : Assoc α} (k : Nat) (v : α) (h : asorted m = true) : asorted (ains m k v) = true := by
  induction m with
  | nil => rfl
  | cons e m ih =>
    obtain ⟨a, b⟩ := e
    obtain ⟨hlt, hs⟩ := (asorted_cons _ m).1 h
    simp only [ains]
    split_ifs with h1 h2
    · rw [asorted_cons]
      refine ⟨fun x hx => ?_, h⟩
      rcases List.mem_cons.1 hx with rfl | hx
      · exact h1
      · exact lt_trans h1 (hlt x hx)
    · subst h2
      rw [asorted_cons]
      exact ⟨hlt, hs⟩
    · rw [asorted_cons]
      refine ⟨fun x hx => ?_, ih hs⟩
      rcases mem_ains hx with rfl | hx
      · exact lt_of_le_of_ne (not_lt.1 h1) (fun e => h2 e.symm)
      · exact hlt x hx

theorem tableWf_filter {α : Type} [DecidableEq α] {d : Nat → α} {m : Assoc α} (p : Nat × α → Bool) (h : tableWf d m = true) :
    tableWf d (m.filter p) = true := by
  simp only [tableWf, Bool.and_eq_true, List.all_eq_true] at h ⊢
  exact ⟨asorted_filter p h.1, fun e he => h.2 e (List.mem_of_mem_filter he)⟩

theorem tableWf_asetD {α : Type} [DecidableEq α] {d : Nat → α} {m : Assoc α} (k : Nat) (v : α) (h : tableWf d m = true) :
    tableWf d (asetD (d k) m k v) = true := by
  simp only [tableWf, Bool.and_eq_true, List.all_eq_true] at h ⊢
  refine ⟨?_, fun e he => ?_⟩
  · unfold asetD
    split_ifs
    · exact asorted_filter _ h.1
    · exact asorted_ains k v h.1
  · rcases mem_asetD_value he with ⟨rfl, hv⟩ | he
    · simpa using hv
    · exact h.2 e he

end Sys2Proof.Machine
end

