-- ==== Sys2Proof/Laws/Evolves.lean ====
section
/-! SUPPORT. How a state evolves: the queue stays, the invariant holds on, and no fuse is undone. The laws of the operations
through which every block changes registers, memory, cores, channels, caches and fuses. -/
namespace Sys2Proof.Machine

/-- What every effect of a command keeps. -/
structure Evolves (s t : State) : Prop where
  pending : t.pending = s.pending
  inv : Inv s → Inv t
  fuses : Inv s → s.fuses.Keeps t.fuses

theorem Fuses.Keeps.rfl {f : Fuses} : f.Keeps f :=
  ⟨fun _ => Eq.refl _, fun _ => Eq.refl _, fun _ => Eq.refl _, fun _ => Eq.refl _, fun _ _ => Eq.refl _, id⟩

theorem FuseField.Keeps.trans {a b c : FuseField} (h : a.Keeps b) (h' : b.Keeps c) : a.Keeps c := fun ha => by
  have e := h ha
  subst e
  exact h' ha

theorem Fuses.Keeps.trans {f g h : Fuses} (a : f.Keeps g) (b : g.Keeps h) : f.Keeps h :=
  ⟨a.devSeed.trans b.devSeed, a.devId.trans b.devId, a.devCert.trans b.devCert, a.bdAddr.trans b.bdAddr,
    fun k => (a.hashes k).trans (b.hashes k), fun x => b.closed (a.closed x)⟩

namespace Evolves

theorem refl (s : State) : Evolves s s := ⟨Eq.refl _, id, fun _ => Fuses.Keeps.rfl⟩

theorem trans {s t u : State} (h : Evolves s t) (h' : Evolves t u) : Evolves s u :=
  ⟨h'.pending.trans h.pending, fun i => h'.inv (h.inv i), fun i => (h.fuses i).trans (h'.fuses (h.inv i))⟩

/-- A change of other fields. -/
theorem upd {s0 s t : State} (h : Evolves s0 s) (e1 : t.pending = s.pending) (e2 : t.mem.cells = s.mem.cells)
    (e3 : t.mem.host = s.mem.host) (e4 : t.mem.dcache = s.mem.dcache) (e5 : t.mem.icache = s.mem.icache)
    (e6 : t.regs = s.regs) (e7 : t.cores = s.cores) (e8 : t.chans.ch = s.chans.ch) (e9 : t.chans.timed = s.chans.timed)
    (e10 : t.fuses = s.fuses) : Evolves s0 t := by
  refine h.trans ⟨e1, fun i => ⟨?_, ?_, ?_, ?_, ?_, ?_⟩, fun _ => ?_⟩
  · have := i.mem; simpa only [Memory.wf, e2, e3] using this
  · simpa only [e6] using i.regs
  · simpa only [e7] using i.cores
  · have := i.chans; simpa only [chansOk, e8, e9] using this
  · have := i.caches; simpa only [Coherent, OwnedAlone, CleanLines, e2, e4, e5] using this
  · simpa only [e10] using i.fuses
  · rw [e10]; exact Fuses.Keeps.rfl

/-- A change of fields that the invariant does not speak of, as the record it makes. -/
theorem rest {s0 s : State} {free : Nat} {sys : Sys} {clk : Clock} {pwr : Pwr} {assay : Assay} {chans : Chans} {mem : Memory}
    {flash : Flash} {led : Ledger} {front : Front} {adc : Adc} {lf : Lf} {cap : Cap} {uhf : Uhf} {range : Range} {ble : Ble}
    {nfc : Nfc} {kiln : Kiln} {ent : Ent} {creds : Creds} {start : Start} {net : Net} {adit : Adit} {host : HostIf}
    (h : Evolves s0 s) (e2 : mem.cells = s.mem.cells) (e3 : mem.host = s.mem.host) (e4 : mem.dcache = s.mem.dcache)
    (e5 : mem.icache = s.mem.icache) (e8 : chans.ch = s.chans.ch) (e9 : chans.timed = s.chans.timed) :
    Evolves s0 ⟨s.pending, free, s.regs, sys, clk, pwr, assay, s.cores, chans, mem, flash, led, front, adc, lf, cap, uhf, range,
      ble, nfc, s.fuses, kiln, ent, creds, start, net, adit, host⟩ :=
  h.upd rfl e2 e3 e4 e5 rfl rfl e8 e9 rfl

/-- A change of the memory's cells. -/
theorem updCells {s0 s t : State} (h : Evolves s0 s) (hw : tableWf memDefault s.mem.cells = true → tableWf memDefault t.mem.cells = true)
    (hl : Inv s0 → Coherent s.mem → CleanLines t.mem)
    (e1 : t.pending = s.pending) (e3 : t.mem.host = s.mem.host) (e4 : t.mem.dcache = s.mem.dcache) (e5 : t.mem.icache = s.mem.icache)
    (e6 : t.regs = s.regs) (e7 : t.cores = s.cores) (e8 : t.chans.ch = s.chans.ch) (e9 : t.chans.timed = s.chans.timed)
    (e10 : t.fuses = s.fuses) : Evolves s0 t := by
  refine ⟨e1.trans h.pending, fun i0 => ?_, fun i0 => (h.fuses i0).trans (by rw [e10]; exact Fuses.Keeps.rfl)⟩
  have i := h.inv i0
  refine ⟨?_, ?_, ?_, ?_, ?_, ?_⟩
  · have := i.mem
    simp only [Memory.wf, e3, Bool.and_eq_true] at this ⊢
    exact ⟨hw this.1, this.2⟩
  · simpa only [e6] using i.regs
  · simpa only [e7] using i.cores
  · have := i.chans; simpa only [chansOk, e8, e9] using this
  · have hc := i.caches
    refine ⟨?_, ?_, hl i0 hc⟩
    · have := hc.1; simpa only [OwnedAlone, e4, e5] using this
    · have := hc.2.1; simpa only [e4] using this
  · simpa only [e10] using i.fuses

/-- A change of the bytes written to host memory. -/
theorem updHost {s0 s t : State} (h : Evolves s0 s) (hw : asorted s.mem.host = true → asorted t.mem.host = true)
    (e1 : t.pending = s.pending) (e2 : t.mem.cells = s.mem.cells) (e4 : t.mem.dcache = s.mem.dcache)
    (e5 : t.mem.icache = s.mem.icache) (e6 : t.regs = s.regs) (e7 : t.cores = s.cores) (e8 : t.chans.ch = s.chans.ch)
    (e9 : t.chans.timed = s.chans.timed) (e10 : t.fuses = s.fuses) : Evolves s0 t := by
  refine h.trans ⟨e1, fun i => ⟨?_, ?_, ?_, ?_, ?_, ?_⟩, fun _ => ?_⟩
  · have := i.mem
    simp only [Memory.wf, e2, Bool.and_eq_true] at this ⊢
    exact ⟨this.1, hw this.2⟩
  · simpa only [e6] using i.regs
  · simpa only [e7] using i.cores
  · have := i.chans; simpa only [chansOk, e8, e9] using this
  · have := i.caches; simpa only [Coherent, OwnedAlone, CleanLines, e2, e4, e5] using this
  · simpa only [e10] using i.fuses
  · rw [e10]; exact Fuses.Keeps.rfl

/-- A change of registers. -/
theorem updRegs {s0 s t : State} (h : Evolves s0 s) (hw : regsWf s.regs = true → regsWf t.regs = true)
    (e1 : t.pending = s.pending) (e2 : t.mem.cells = s.mem.cells) (e3 : t.mem.host = s.mem.host)
    (e4 : t.mem.dcache = s.mem.dcache) (e5 : t.mem.icache = s.mem.icache) (e7 : t.cores = s.cores)
    (e8 : t.chans.ch = s.chans.ch) (e9 : t.chans.timed = s.chans.timed) (e10 : t.fuses = s.fuses) : Evolves s0 t := by
  refine h.trans ⟨e1, fun i => ⟨?_, ?_, ?_, ?_, ?_, ?_⟩, fun _ => ?_⟩
  · have := i.mem; simpa only [Memory.wf, e2, e3] using this
  · exact hw i.regs
  · simpa only [e7] using i.cores
  · have := i.chans; simpa only [chansOk, e8, e9] using this
  · have := i.caches; simpa only [Coherent, OwnedAlone, CleanLines, e2, e4, e5] using this
  · simpa only [e10] using i.fuses
  · rw [e10]; exact Fuses.Keeps.rfl

/-- A change of cores. -/
theorem updCores {s0 s t : State} (h : Evolves s0 s)
    (hw : Inv s0 → (∀ c : Fin 6, coreOk c (s.cores.get c) = true) → ∀ c : Fin 6, coreOk c (t.cores.get c) = true)
    (e1 : t.pending = s.pending) (e2 : t.mem.cells = s.mem.cells) (e3 : t.mem.host = s.mem.host)
    (e4 : t.mem.dcache = s.mem.dcache) (e5 : t.mem.icache = s.mem.icache) (e6 : t.regs = s.regs)
    (e8 : t.chans.ch = s.chans.ch) (e9 : t.chans.timed = s.chans.timed) (e10 : t.fuses = s.fuses) : Evolves s0 t := by
  refine ⟨e1.trans h.pending, fun i0 => ?_, fun i0 => (h.fuses i0).trans (by rw [e10]; exact Fuses.Keeps.rfl)⟩
  have i := h.inv i0
  refine ⟨?_, ?_, ?_, ?_, ?_, ?_⟩
  · have := i.mem; simpa only [Memory.wf, e2, e3] using this
  · simpa only [e6] using i.regs
  · exact hw i0 i.cores
  · have := i.chans; simpa only [chansOk, e8, e9] using this
  · have := i.caches; simpa only [Coherent, OwnedAlone, CleanLines, e2, e4, e5] using this
  · simpa only [e10] using i.fuses

/-- A change of channels. -/
theorem updChans {s0 s t : State} (h : Evolves s0 s) (hw : chansOk s.chans = true → chansOk t.chans = true)
    (e1 : t.pending = s.pending) (e2 : t.mem.cells = s.mem.cells) (e3 : t.mem.host = s.mem.host)
    (e4 : t.mem.dcache = s.mem.dcache) (e5 : t.mem.icache = s.mem.icache) (e6 : t.regs = s.regs) (e7 : t.cores = s.cores)
    (e10 : t.fuses = s.fuses) : Evolves s0 t := by
  refine h.trans ⟨e1, fun i => ⟨?_, ?_, ?_, ?_, ?_, ?_⟩, fun _ => ?_⟩
  · have := i.mem; simpa only [Memory.wf, e2, e3] using this
  · simpa only [e6] using i.regs
  · simpa only [e7] using i.cores
  · exact hw i.chans
  · have := i.caches; simpa only [Coherent, OwnedAlone, CleanLines, e2, e4, e5] using this
  · simpa only [e10] using i.fuses
  · rw [e10]; exact Fuses.Keeps.rfl

/-- A change of cached lines. -/
theorem updCaches {s0 s t : State} (h : Evolves s0 s) (hw : Inv s0 → Coherent s.mem → Coherent t.mem)
    (e1 : t.pending = s.pending) (e2 : t.mem.cells = s.mem.cells) (e3 : t.mem.host = s.mem.host)
    (e6 : t.regs = s.regs) (e7 : t.cores = s.cores) (e8 : t.chans.ch = s.chans.ch) (e9 : t.chans.timed = s.chans.timed)
    (e10 : t.fuses = s.fuses) : Evolves s0 t := by
  refine ⟨e1.trans h.pending, fun i0 => ?_, fun i0 => (h.fuses i0).trans (by rw [e10]; exact Fuses.Keeps.rfl)⟩
  have i := h.inv i0
  refine ⟨?_, ?_, ?_, ?_, ?_, ?_⟩
  · have := i.mem; simpa only [Memory.wf, e2, e3] using this
  · simpa only [e6] using i.regs
  · simpa only [e7] using i.cores
  · have := i.chans; simpa only [chansOk, e8, e9] using this
  · exact hw i0 i.caches
  · simpa only [e10] using i.fuses

/-- A change of memory, registers, cores and channels at once. -/
theorem all {s0 s t : State} (h : Evolves s0 s) (e1 : t.pending = s.pending) (hm : s.mem.wf = true → t.mem.wf = true)
    (hr : regsWf s.regs = true → regsWf t.regs = true)
    (hk : (∀ c : Fin 6, coreOk c (s.cores.get c) = true) → ∀ c : Fin 6, coreOk c (t.cores.get c) = true)
    (hc : chansOk s.chans = true → chansOk t.chans = true) (hl : Coherent s.mem → Coherent t.mem) (e10 : t.fuses = s.fuses) :
    Evolves s0 t :=
  h.trans ⟨e1, fun i => ⟨hm i.mem, hr i.regs, hk i.cores, hc i.chans, hl i.caches, by rw [e10]; exact i.fuses⟩,
    fun _ => by rw [e10]; exact Fuses.Keeps.rfl⟩

/-- A change of fuses. -/
theorem updFuses {s0 s t : State} (h : Evolves s0 s)
    (hw : fusesOk s.fuses = true → fusesOk t.fuses = true ∧ s.fuses.Keeps t.fuses)
    (e1 : t.pending = s.pending) (e2 : t.mem.cells = s.mem.cells) (e3 : t.mem.host = s.mem.host)
    (e4 : t.mem.dcache = s.mem.dcache) (e5 : t.mem.icache = s.mem.icache) (e6 : t.regs = s.regs) (e7 : t.cores = s.cores)
    (e8 : t.chans.ch = s.chans.ch) (e9 : t.chans.timed = s.chans.timed) : Evolves s0 t := by
  refine h.trans ⟨e1, fun i => ⟨?_, ?_, ?_, ?_, ?_, ?_⟩, fun i => (hw i.fuses).2⟩
  · have := i.mem; simpa only [Memory.wf, e2, e3] using this
  · simpa only [e6] using i.regs
  · simpa only [e7] using i.cores
  · have := i.chans; simpa only [chansOk, e8, e9] using this
  · have := i.caches; simpa only [Coherent, OwnedAlone, CleanLines, e2, e4, e5] using this
  · exact (hw i.fuses).1

/-- The state of an answer that has been taken apart. -/
theorem pair {α : Type} {s0 t : State} {p : α × State} {x : α} (h : Evolves s0 p.2) (e : p = (x, t)) : Evolves s0 t := by
  subst e; exact h

theorem triple {α β : Type} {s0 t : State} {p : α × β × State} {x : α} {y : β} (h : Evolves s0 p.2.2) (e : p = (x, y, t)) :
    Evolves s0 t := by
  subst e; exact h

end Evolves

/-! ### Control flow -/

/-- What an optional answer's state is. -/
def OptEv (s0 : State) (o : Option State) : Prop := ∀ t, o = some t → Evolves s0 t

def OptPairEv {α : Type} (s0 : State) (o : Option (α × State)) : Prop := ∀ x t, o = some (x, t) → Evolves s0 t

/-- What a command's answer is. -/
def OutEv (s0 : State) (o : Out) : Prop := ∀ t, o = .next t → Evolves s0 t

/-- What a part of a Kiln operation answers. -/
def KEv {α : Type} (s0 : State) (r : KRes α) : Prop :=
  (∀ a t, r = .ok a t → Evolves s0 t) ∧ ∀ x y t, r = .fail x y t → Evolves s0 t

theorem OptEv.none {s0 : State} : OptEv s0 Option.none := fun _ e => by cases e
theorem OptEv.some {s0 t : State} (h : Evolves s0 t) : OptEv s0 (Option.some t) := fun _ e => by cases e; exact h
theorem OptEv.get {s0 t : State} {o : Option State} (h : OptEv s0 o) (e : o = Option.some t) : Evolves s0 t := h t e
theorem OptPairEv.none {α : Type} {s0 : State} : OptPairEv (α := α) s0 Option.none := fun _ _ e => by cases e
theorem OptPairEv.some {α : Type} {s0 t : State} {x : α} (h : Evolves s0 t) : OptPairEv s0 (Option.some (x, t)) :=
  fun _ _ e => by cases e; exact h
theorem OptPairEv.get {α : Type} {s0 t : State} {x : α} {o : Option (α × State)} (h : OptPairEv s0 o) (e : o = Option.some (x, t)) :
    Evolves s0 t := h x t e
theorem OptPairEv.of {α : Type} {s0 : State} {p : α × State} (h : Evolves s0 p.2) : OptPairEv s0 (Option.some p) :=
  fun _ _ e => by cases e; exact h
theorem OptPairEv.ite {α : Type} {s0 : State} {p : Prop} [Decidable p] {a b : Option (α × State)} (h : OptPairEv s0 a)
    (h' : OptPairEv s0 b) : OptPairEv s0 (if p then a else b) := by
  split
  · exact h
  · exact h'
theorem OptPairEv.orElse {α : Type} {s0 : State} {a : Option (α × State)} {f : Unit → Option (α × State)} (h : OptPairEv s0 a)
    (h' : OptPairEv s0 (f ())) : OptPairEv s0 (a.orElse f) := by
  cases a with
  | none => exact h'
  | some p => exact h
theorem OptPairEv.getD {α : Type} {s0 : State} {a : Option (α × State)} {d : α × State} (h : OptPairEv s0 a)
    (h' : Evolves s0 d.2) : Evolves s0 (a.getD d).2 := by
  cases a with
  | none => exact h'
  | some p => exact h p.1 p.2 rfl
theorem OutEv.next {s0 t : State} (h : Evolves s0 t) : OutEv s0 (.next t) := fun _ e => by cases e; exact h
theorem OutEv.fault {s0 : State} {r : Fault} : OutEv s0 (.fault r) := fun _ e => by cases e
theorem OutEv.refused {s0 : State} {r : Refusal} : OutEv s0 (.refused r) := fun _ e => by cases e
theorem KEv.ok {α : Type} {s0 t : State} {a : α} (h : Evolves s0 t) : KEv s0 (.ok a t) :=
  ⟨fun _ _ e => (by cases e; exact h), fun _ _ _ e => (by cases e)⟩
theorem KEv.fail {α : Type} {s0 t : State} {x y : Nat} (h : Evolves s0 t) : KEv (α := α) s0 (.fail x y t) :=
  ⟨fun _ _ e => (by cases e), fun _ _ _ e => (by cases e; exact h)⟩
theorem KEv.wait {α : Type} {s0 : State} : KEv (α := α) s0 .wait := ⟨fun _ _ e => (by cases e), fun _ _ _ e => (by cases e)⟩
theorem KEv.getOk {α : Type} {s0 t : State} {a : α} {r : KRes α} (h : KEv s0 r) (e : r = .ok a t) : Evolves s0 t := h.1 _ _ e
theorem KEv.getFail {α : Type} {s0 t : State} {x y : Nat} {r : KRes α} (h : KEv s0 r) (e : r = .fail x y t) : Evolves s0 t :=
  h.2 _ _ _ e

theorem KRes.andThen_ev {α β : Type} {s0 : State} {r : KRes α} {f : α → State → KRes β} (h : KEv s0 r)
    (hf : ∀ a u, Evolves s0 u → KEv s0 (f a u)) : KEv s0 (r.andThen f) := by
  cases r with
  | ok a t => exact hf a t (h.1 a t rfl)
  | fail x y t => exact KEv.fail (h.2 x y t rfl)
  | wait => exact KEv.wait

theorem when_ev {p : Bool} {f : State → State} {s0 s : State} (h : Evolves s0 s) (hf : ∀ u, Evolves s0 u → Evolves s0 (f u)) :
    Evolves s0 (when p f s) := by
  unfold when
  split
  · exact hf _ h
  · exact h

theorem withSome_ev {α : Type} {o : Option α} {f : α → State → State} {s0 s : State} (h : Evolves s0 s)
    (hf : ∀ a u, Evolves s0 u → Evolves s0 (f a u)) : Evolves s0 (withSome o f s) := by
  cases o with
  | none => exact h
  | some a => exact hf a _ h

theorem forEach_ev {α : Type} {xs : List α} {f : α → State → State} {s0 s : State} (h : Evolves s0 s)
    (hf : ∀ a u, Evolves s0 u → Evolves s0 (f a u)) : Evolves s0 (forEach xs f s) := by
  unfold forEach
  induction xs generalizing s with
  | nil => exact h
  | cons x xs ih => exact ih (hf x _ h)

/-! ### Registers, memory, cores, channels -/

theorem State.setReg_ev {s0 s : State} (k : Nat) (w : Word) (h : Evolves s0 s) : Evolves s0 (s.setReg k w) :=
  h.updRegs (fun hw => tableWf_asetD k w hw) rfl rfl rfl rfl rfl rfl rfl rfl rfl

/-- A vector reads at an index what was last written there. -/
theorem get_set {α : Type} {n : Nat} (v : Vector α n) (c d : Fin n) (k : α) :
    (v.set c k).get d = if d = c then k else v.get d := by
  have h : ∀ (u : Vector α n) (i : Fin n), u.get i = u[i.val] := fun _ _ => rfl
  rw [h, h, Vector.getElem_set]
  simp only [Fin.ext_iff, eq_comm]

theorem State.setCore_ev {s0 s : State} (c : Fin 6) (k : Core) (h : Evolves s0 s)
    (hk : Inv s0 → coreOk c k = true) : Evolves s0 (s.setCore c k) := by
  refine h.updCores (fun i hw d => ?_) rfl rfl rfl rfl rfl rfl rfl rfl rfl
  unfold State.setCore
  rw [get_set]
  split_ifs with e
  · subst e
    exact hk i
  · exact hw d

theorem coreOk_of_ev {s0 s : State} {c : Fin 6} (i : Inv s0) (h : Evolves s0 s) : coreOk c (s.cores.get c) = true :=
  (h.inv i).cores c

/-- A core whose registers, pc and control registers stay. -/
theorem coreOk_same {c : Fin 6} {k : Core} {flg : BitVec 4} {ccause cbad cmp : Word} {cmpLate : Bool} {e : BitVec 16} {run : Run}
    (h : coreOk c k = true) : coreOk c ⟨k.g, flg, k.pc, k.cstat, k.cvec, k.cepc, ccause, cbad, cmp, cmpLate, e, run⟩ = true := h

theorem clear_three (w : Word) : clear w 3 = true ↔ w.toNat % 4 = 0 := by
  simp only [clear, beq_iff_eq]
  rw [← BitVec.toNat_inj, BitVec.toNat_and]
  exact Eq.congr_left (Nat.and_two_pow_sub_one_eq_mod w.toNat 2)

theorem clear_add {a b : Word} (ha : clear a 3 = true) (hb : clear b 3 = true) : clear (a + b) 3 = true := by
  rw [clear_three] at *
  rw [BitVec.toNat_add]
  omega

/-- A core that goes on at the next word. -/
theorem coreOk_next {c : Fin 6} {k : Core} {flg : BitVec 4} {ccause cbad cmp : Word} {cmpLate : Bool} {e : BitVec 16} {run : Run}
    (h : coreOk c k = true) : coreOk c ⟨k.g, flg, k.pc + 4, k.cstat, k.cvec, k.cepc, ccause, cbad, cmp, cmpLate, e, run⟩ = true := by
  simp only [coreOk, Bool.and_eq_true] at h ⊢
  exact ⟨⟨⟨⟨⟨h.1.1.1.1.1, clear_add h.1.1.1.1.2 rfl⟩, h.1.1.1.2⟩, h.1.1.2⟩, h.1.2⟩, h.2⟩

theorem State.onCore_ev {s0 s : State} (c : Fin 6) (f : Core → Core) (h : Evolves s0 s)
    (hf : ∀ k, coreOk c k = true → coreOk c (f k) = true) : Evolves s0 (s.onCore c f) :=
  State.setCore_ev c _ h (fun i => hf _ (coreOk_of_ev i h))

theorem chan_length {s : State} (h : chansOk s.chans = true) (k : Nat) : (s.chan k).q.length ≤ 4 := by
  simp only [chansOk, Bool.and_eq_true, List.all_eq_true, decide_eq_true_eq] at h
  unfold State.chan
  rcases agetD_cases s.chans.ch k Chan.empty with e | ⟨e, he, hv⟩
  · rw [e]; simp [Chan.empty]
  · rw [← hv]; exact h.1 e he

theorem State.setChan_ev {s0 s : State} (k : Nat) (c : Chan) (h : Evolves s0 s)
    (hc : (s.chan k).q.length ≤ 4 → c.q.length ≤ 4) : Evolves s0 (s.setChan k c) := by
  refine h.updChans (fun hw => ?_) rfl rfl rfl rfl rfl rfl rfl rfl
  have hl := hc (chan_length hw k)
  simp only [chansOk, State.setChan, Bool.and_eq_true, List.all_eq_true, decide_eq_true_eq] at hw ⊢
  refine ⟨fun e he => ?_, hw.2⟩
  rcases mem_asetD he with rfl | he
  · exact hl
  · exact hw.1 e he

theorem timed_length {s : State} (h : chansOk s.chans = true) (k : Nat) : (s.timedQ k).length ≤ 4 := by
  simp only [chansOk, Bool.and_eq_true, List.all_eq_true, decide_eq_true_eq] at h
  unfold State.timedQ
  rcases agetD_cases s.chans.timed k [] with e | ⟨e, he, hv⟩
  · rw [e]; simp
  · rw [← hv]; exact h.2 e he

theorem State.setTimedQ_ev {s0 s : State} (k : Nat) (q : List TimedWord) (h : Evolves s0 s)
    (hc : (s.timedQ k).length ≤ 4 → q.length ≤ 4) : Evolves s0 (s.setTimedQ k q) := by
  refine h.updChans (fun hw => ?_) rfl rfl rfl rfl rfl rfl rfl rfl
  have hl := hc (timed_length hw k)
  simp only [chansOk, State.setTimedQ, Bool.and_eq_true, List.all_eq_true, decide_eq_true_eq] at hw ⊢
  refine ⟨hw.1, fun e he => ?_⟩
  rcases mem_asetD he with rfl | he
  · exact hl
  · exact hw.2 e he

theorem cPut_ev {s0 s : State} (k : Nat) (w : Word) (eom : Bool) (fine : Nat) (h : Evolves s0 s) (hr : s.cRoom k = true) :
    Evolves s0 (cPut k w eom fine s) := by
  refine State.setChan_ev k _ h (fun _ => ?_)
  simp only [State.cRoom, decide_eq_true_eq] at hr
  simp
  omega

theorem cRefill_ev {s0 s : State} (k : Nat) (h : Evolves s0 s) : Evolves s0 (cRefill k s) := by
  refine State.setChan_ev k _ h (fun hl => ?_)
  simp
  omega

theorem setBacklog_ev {s0 s : State} (k : Nat) (b : List (Word × Bool)) (h : Evolves s0 s) :
    Evolves s0 (s.setChan k { s.chan k with back := b }) := State.setChan_ev k _ h id

theorem devSend_ev {s0 s : State} (k : Nat) (ws : List (Word × Bool)) (h : Evolves s0 s) : Evolves s0 (devSend k ws s) :=
  cRefill_ev k (setBacklog_ev k _ h)

theorem portTry_ev {s0 s : State} (ch : Nat) (w : Word) (eom : Bool) (tick fine : Nat) (h : Evolves s0 s) :
    Evolves s0 (portTry ch w eom tick fine s).2 := by
  unfold portTry
  split
  · exact h
  · rename_i hr
    refine State.setChan_ev ch _ h (fun _ => ?_)
    simp only [State.cRoom, Bool.or_eq_true, Bool.not_eq_true', decide_eq_false_iff_not, not_or, not_lt, not_le] at hr
    simp
    omega

theorem cTake_ev {s0 s : State} (k : Nat) (h : Evolves s0 s) : Evolves s0 (cTake k s).2 := by
  unfold cTake
  dsimp only
  split
  · exact h
  · rename_i hq
    refine cRefill_ev k (State.setChan_ev k _ h (fun hl => ?_))
    rw [hq] at hl
    exact Nat.le_of_succ_le hl

theorem cDrop_ev {s0 s : State} (k : Nat) (h : Evolves s0 s) : Evolves s0 (cDrop k s) := by
  refine cRefill_ev k (State.setChan_ev k _ h (fun hl => ?_))
  simp
  omega

theorem cClear_ev {s0 s : State} (k : Nat) (h : Evolves s0 s) : Evolves s0 (cClear k s) :=
  State.setChan_ev k _ h (fun _ => by simp)

end Sys2Proof.Machine
end

