-- ==== Sys2Proof/Laws/Coherence.lean ====
section
/-! SUPPORT. The data caches and their directory: what a recall and an invalidation leave in each cache, and that a line that
may differ from memory stays the only copy (R287, R291). -/
namespace Sys2Proof.Machine

/-! ### Stores keep every cached line -/

/-- The caches of two states agree. -/
def SameLines (s t : State) : Prop := t.mem.dcache = s.mem.dcache ∧ t.mem.icache = s.mem.icache

theorem SameLines.refl (s : State) : SameLines s s := ⟨rfl, rfl⟩

theorem SameLines.trans {s t u : State} (h : SameLines s t) (h' : SameLines t u) : SameLines s u :=
  ⟨h'.1.trans h.1, h'.2.trans h.2⟩

theorem forEach_sameLines {α : Type} (xs : List α) (f : α → State → State) (hf : ∀ a s, SameLines s (f a s)) (s : State) :
    SameLines s (forEach xs f s) := by
  unfold forEach
  induction xs generalizing s with
  | nil => exact SameLines.refl s
  | cons x xs ih => exact (hf x s).trans (ih (f x s))

theorem writeBytes_sameLines (bs : Bytes) (a : Nat) (s : State) : SameLines s (writeBytes a bs s) := by
  induction bs generalizing a s with
  | nil => exact SameLines.refl s
  | cons b bs ih => exact SameLines.trans ⟨rfl, rfl⟩ (ih (a + 1) (writeByte a b s))

theorem setBad_sameLines (g : Nat) (s : State) : SameLines s (setBad g s) := by
  unfold setBad
  split <;> exact ⟨rfl, rfl⟩

theorem mergeSram_sameLines (a : Nat) (bs : Bytes) (s : State) : SameLines s (mergeSram a bs s) :=
  (writeBytes_sameLines bs a s).trans (forEach_sameLines _ clearBad (fun _ _ => ⟨rfl, rfl⟩) _)

/-- Telling cores of an event leaves memory and caches alone. -/
theorem routeE_mem (route b : Nat) (s : State) : (s.routeE route b).mem = s.mem := by
  unfold State.routeE forEach
  generalize allCores.filter _ = xs
  induction xs generalizing s with
  | nil => rfl
  | cons x xs ih => exact ih _

theorem recordUe_mem (a src : Nat) (s : State) : (recordUe a src s).mem = s.mem := by
  unfold recordUe eccEvent
  rw [routeE_mem]
  split <;> rfl

theorem recordCe_mem (s : State) : (recordCe s).mem = s.mem := by
  unfold recordCe eccEvent
  dsimp only
  unfold when
  split
  · rw [routeE_mem]; rfl
  · rfl

theorem whenCe_mem (p : Bool) (s : State) : (when p recordCe s).mem = s.mem := by
  unfold when
  split
  · exact recordCe_mem s
  · rfl

theorem SameLines.of_mem {s t : State} (h : t.mem = s.mem) : SameLines s t := ⟨by rw [h], by rw [h]⟩

/-- A write-back changes memory, and no cached line. -/
theorem writeBack_sameLines (l : Line) (s : State) : SameLines s (writeBack l s) := by
  unfold writeBack
  split
  · dsimp only
    refine (SameLines.of_mem (whenCe_mem l.flip s)).trans ((mergeSram_sameLines l.addr l.data _).trans ?_)
    generalize mergeSram l.addr l.data _ = u
    unfold when
    split
    · exact forEach_sameLines _ _ setBad_sameLines _
    · exact SameLines.refl _
  · exact SameLines.refl s

/-! ### Lines of a cache -/

theorem lines_eq {s t : State} (h : SameLines s t) (c : Fin 6) : t.lines c = s.lines c := by
  unfold State.lines; rw [h.1]

theorem ilines_eq {s t : State} (h : SameLines s t) (c : Fin 6) : t.ilines c = s.ilines c := by
  unfold State.ilines; rw [h.2]

theorem setLines_lines (s : State) (c d : Fin 6) (ls : List Line) :
    (s.setLines c ls).lines d = if d = c then ls else s.lines d := get_set s.mem.dcache c d ls

theorem setLines_ilines (s : State) (c d : Fin 6) (ls : List Line) : (s.setLines c ls).ilines d = s.ilines d := rfl

theorem setIlines_ilines (s : State) (c d : Fin 6) (ls : List Line) :
    (s.setIlines c ls).ilines d = if d = c then ls else s.ilines d := get_set s.mem.icache c d ls

theorem setIlines_lines (s : State) (c d : Fin 6) (ls : List Line) : (s.setIlines c ls).lines d = s.lines d := rfl

theorem get_map {α β : Type} {n : Nat} (v : Vector α n) (f : α → β) (c : Fin n) : (v.map f).get c = f (v.get c) := by
  have h : ∀ {γ : Type} (u : Vector γ n) (i : Fin n), u.get i = u[i.val] := fun _ _ => rfl
  rw [h, h, Vector.getElem_map]

theorem dropIlines_ilines (a : Nat) (s : State) (c : Fin 6) : (dropIlines a s).ilines c = dropLine (s.ilines c) a :=
  get_map s.mem.icache _ c

theorem findLine_none {ls : List Line} {a : Nat} (h : findLine ls a = none) : ∀ x ∈ ls, x.addr ≠ lineOf a := fun x hx e => by
  have := List.find?_eq_none.1 h x hx
  simp [e] at this

theorem findLine_some {ls : List Line} {a : Nat} {l : Line} (h : findLine ls a = some l) : l ∈ ls ∧ l.addr = lineOf a :=
  ⟨List.mem_of_find?_eq_some h, by simpa using List.find?_some h⟩

theorem mem_dropLine {ls : List Line} {a : Nat} {x : Line} : x ∈ dropLine ls a ↔ x ∈ ls ∧ x.addr ≠ lineOf a := by
  simp [dropLine]

/-- The lines of a cache after a recall. -/
def recalled (a : Nat) (ls : List Line) : List Line :=
  ls.map (fun x => if x.addr == lineOf a then { x with st := .shared } else x)

theorem recalled_none {ls : List Line} {a : Nat} (h : findLine ls a = none) : recalled a ls = ls := by
  unfold recalled
  refine (List.map_congr_left (fun x hx => ?_)).trans (List.map_id ls)
  simp [findLine_none h x hx]

theorem dropLine_none {ls : List Line} {a : Nat} (h : findLine ls a = none) : dropLine ls a = ls := by
  unfold dropLine
  refine List.filter_eq_self.2 (fun x hx => ?_)
  simp [findLine_none h x hx]

/-- A change made to each core's data cache by itself. -/
theorem forEach_lines {f : Fin 6 → State → State} {φ : Fin 6 → List Line → List Line}
    (hf : ∀ c s d, (f c s).lines d = if d = c then φ c (s.lines c) else s.lines d) (s : State) (d : Fin 6) :
    (forEach allCores f s).lines d = φ d (s.lines d) := by
  simp only [forEach, allCores, List.foldl, hf]
  fin_cases d <;> rfl

theorem forEach_ilines {f : Fin 6 → State → State} (hf : ∀ c s d, (f c s).ilines d = s.ilines d) (s : State) (d : Fin 6) :
    (forEach allCores f s).ilines d = s.ilines d := by
  simp only [forEach, allCores, List.foldl, hf]

/-- After a recall every copy but the requester's is SHARED. -/
theorem recallLine_lines (a : Nat) (keep : Option (Fin 6)) (s : State) (d : Fin 6) :
    (recallLine a keep s).lines d = if keep = some d then s.lines d else recalled a (s.lines d) := by
  refine forEach_lines (φ := fun d ls => if keep = some d then ls else recalled a ls) (fun c s d => ?_) s d
  by_cases hk : keep = some c
  · simp only [hk, beq_self_eq_true, if_true]
    split_ifs with e <;> simp_all
  · simp only [beq_iff_eq, hk, if_false]
    cases hfl : findLine (s.lines c) a with
    | none =>
      simp only [recalled_none hfl]
      split_ifs with e <;> simp_all
    | some l =>
      simp only [setLines_lines, lines_eq (writeBack_sameLines l s), recalled, beq_iff_eq]

theorem recallLine_ilines (a : Nat) (keep : Option (Fin 6)) (s : State) (d : Fin 6) :
    (recallLine a keep s).ilines d = s.ilines d := by
  refine forEach_ilines (fun c s d => ?_) s d
  split
  · rfl
  · split
    · rfl
    · rename_i l _
      exact ilines_eq (writeBack_sameLines l s) d

/-- After an invalidation no cache but the requester's data cache holds the line. -/
theorem invalidateLine_lines (a : Nat) (keep : Option (Fin 6)) (s : State) (d : Fin 6) :
    (invalidateLine a keep s).lines d = if keep = some d then s.lines d else dropLine (s.lines d) a := by
  have h0 : ∀ d, (dropIlines a s).lines d = s.lines d := fun _ => rfl
  rw [← h0 d]
  refine forEach_lines (φ := fun d ls => if keep = some d then ls else dropLine ls a) (fun c s d => ?_) _ d
  by_cases hk : keep = some c
  · simp only [hk, beq_self_eq_true, if_true]
    split_ifs with e <;> simp_all
  · simp only [beq_iff_eq, hk, if_false]
    cases hfl : findLine (s.lines c) a with
    | none =>
      simp only [dropLine_none hfl]
      split_ifs with e <;> simp_all
    | some l => simp only [setLines_lines, lines_eq (writeBack_sameLines l s)]

theorem invalidateLine_ilines (a : Nat) (keep : Option (Fin 6)) (s : State) (d : Fin 6) :
    (invalidateLine a keep s).ilines d = dropLine (s.ilines d) a := by
  rw [← dropIlines_ilines a s d]
  refine forEach_ilines (fun c s d => ?_) _ d
  split
  · rfl
  · split
    · rfl
    · rename_i l _
      exact ilines_eq (writeBack_sameLines l s) d

/-! ### Coherence -/

theorem Coherent.line {s : State} (h : Coherent s.mem) {c : Fin 6} {l : Line} (hl : l ∈ s.lines c) (ho : l.owned = true) :
    inSram l.addr = true ∧ l.addr % 64 = 0 ∧ (∀ d : Fin 6, d ≠ c → ∀ x ∈ s.lines d, x.addr ≠ l.addr) ∧
    ∀ d : Fin 6, ∀ x ∈ s.ilines d, x.addr ≠ l.addr := h.1 c l hl ho

theorem Coherent.wf {s : State} (h : Coherent s.mem) (c : Fin 6) : linesWf (s.lines c) := h.2.1 c

/-- A line holds what memory holds at its address. -/
def Holds (s : State) (l : Line) : Prop := ∀ i, i < 64 → l.data.getD i 0 = readByte s (l.addr + i)

theorem Coherent.clean {s : State} (h : Coherent s.mem) {c : Fin 6} {l : Line} (hl : l ∈ s.lines c) (hm : l.st ≠ .modified)
    (ha : inSram l.addr = true) : Holds s l := h.2.2 c l hl hm ha

/-- The clean lines after one data cache changes. -/
theorem setLines_clean {s : State} (h : Coherent s.mem) (c : Fin 6) {ls : List Line}
    (hl : ∀ y ∈ ls, y.st ≠ .modified → inSram y.addr = true → Holds s y) : CleanLines (s.setLines c ls).mem := by
  intro d y hy hm ha
  change y ∈ (s.setLines c ls).lines d at hy
  rw [setLines_lines] at hy
  split_ifs at hy
  · exact hl y hy hm ha
  · exact h.clean hy hm ha

/-- The other data caches stay well-formed when one changes. -/
theorem setLines_wf {s : State} (h : Coherent s.mem) (c : Fin 6) {ls : List Line} (hw : linesWf ls) (d : Fin 6) :
    linesWf ((s.setLines c ls).mem.dcache.get d) := by
  change linesWf ((s.setLines c ls).lines d)
  rw [setLines_lines]
  split
  · exact hw
  · exact h.wf d

/-- Fewer lines, or the same, with other states. -/
theorem linesWf_sub {ls ls' : List Line} (h : linesWf ls) (ha : (ls'.map Line.addr).Sublist (ls.map Line.addr))
    (hd : ∀ l ∈ ls', l.data.length = 64) : linesWf ls' := by
  refine ⟨h.1.sublist ha, fun l hl => ⟨hd l hl, ?_⟩⟩
  obtain ⟨x, hx, hxa⟩ := List.mem_map.1 (ha.subset (List.mem_map_of_mem hl))
  rw [← hxa]
  exact (h.2 x hx).2

theorem linesWf_filter {ls : List Line} (p : Line → Bool) (h : linesWf ls) : linesWf (ls.filter p) :=
  linesWf_sub h (List.filter_sublist.map _) (fun l hl => (h.2 l (List.mem_of_mem_filter hl)).1)

/-- The lines of a cache changed in place. -/
theorem linesWf_map {ls : List Line} (f : Line → Line) (h : linesWf ls) (ha : ∀ l, (f l).addr = l.addr)
    (hd : ∀ l, (f l).data = l.data) : linesWf (ls.map f) := by
  refine linesWf_sub h (by rw [List.map_map]; exact (List.map_congr_left (fun l _ => ha l)) ▸ List.Sublist.refl _) (fun l hl => ?_)
  obtain ⟨x, hx, rfl⟩ := List.mem_map.1 hl
  rw [hd]
  exact (h.2 x hx).1

/-- A line put at the front of lines that do not hold its address. -/
theorem linesWf_cons {ls : List Line} {l : Line} (h : linesWf ls) (hn : ∀ x ∈ ls, x.addr ≠ l.addr) (hd : l.data.length = 64)
    (ha : l.addr % 64 = 0) : linesWf (l :: ls) := by
  refine ⟨List.nodup_cons.2 ⟨fun hm => ?_, h.1⟩, fun x hx => ?_⟩
  · obtain ⟨x, hx, hxa⟩ := List.mem_map.1 hm
    exact hn x hx hxa
  · rcases List.mem_cons.1 hx with rfl | hx
    · exact ⟨hd, ha⟩
    · exact h.2 x hx

/-- A data cache whose lines become fewer, or shared, or the same. -/
theorem State.setLines_ev {s0 s : State} (c : Fin 6) (ls : List Line) (h : Evolves s0 s)
    (hl : ∀ l ∈ ls, ∃ x ∈ s.lines c, x.addr = l.addr ∧ (l.owned = true → x.owned = true))
    (hw : linesWf (s.lines c) → linesWf ls)
    (hh : Inv s0 → Coherent s.mem → ∀ y ∈ ls, y.st ≠ .modified → inSram y.addr = true → Holds s y) : Evolves s0 (s.setLines c ls) := by
  refine h.updCaches (fun i hc => ⟨?_, setLines_wf hc c (hw (hc.wf c)), setLines_clean hc c (hh i hc)⟩) rfl rfl rfl rfl rfl rfl rfl rfl
  intro d l hm ho
  change l ∈ (s.setLines c ls).lines d at hm
  change _ ∧ _ ∧ (∀ e : Fin 6, e ≠ d → ∀ x ∈ (s.setLines c ls).lines e, x.addr ≠ l.addr) ∧
    ∀ e : Fin 6, ∀ x ∈ s.ilines e, x.addr ≠ l.addr
  simp only [setLines_lines] at hm ⊢
  by_cases hd : d = c
  · subst hd
    rw [if_pos rfl] at hm
    obtain ⟨x, hx, hxa, hxo⟩ := hl l hm
    obtain ⟨h1, h2, h3, h4⟩ := hc.line hx (hxo ho)
    rw [hxa] at h1 h2 h3 h4
    refine ⟨h1, h2, fun e he y hy => ?_, h4⟩
    rw [if_neg he] at hy
    exact h3 e he y hy
  · rw [if_neg hd] at hm
    obtain ⟨h1, h2, h3, h4⟩ := hc.line hm ho
    refine ⟨h1, h2, fun e he y hy => ?_, h4⟩
    split_ifs at hy with hec
    · subst hec
      obtain ⟨x, hx, hxa, -⟩ := hl y hy
      rw [← hxa]
      exact h3 _ he x hx
    · exact h3 e he y hy

/-- An instruction cache whose lines become fewer, or stay. -/
theorem State.setIlines_ev {s0 s : State} (c : Fin 6) (ls : List Line) (h : Evolves s0 s)
    (hl : ∀ l ∈ ls, ∃ x ∈ s.ilines c, x.addr = l.addr) : Evolves s0 (s.setIlines c ls) := by
  refine h.updCaches (fun _ hc => ⟨?_, hc.2⟩) rfl rfl rfl rfl rfl rfl rfl rfl
  intro d l hm ho
  obtain ⟨h1, h2, h3, h4⟩ := hc.line hm ho
  refine ⟨h1, h2, h3, fun e x hx => ?_⟩
  change x ∈ (s.setIlines c ls).ilines e at hx
  rw [setIlines_ilines] at hx
  split_ifs at hx with hec
  · subst hec
    obtain ⟨y, hy, hya⟩ := hl x hx
    rw [← hya]
    exact h4 _ y hy
  · exact h4 e x hx

/-- An instruction cache that gains one line of which nobody owns a copy. -/
theorem addIline_ev {s0 s : State} (c : Fin 6) (ls : List Line) (a : Nat) (h : Evolves s0 s)
    (hl : ∀ l ∈ ls, l.addr = a ∨ ∃ x ∈ s.ilines c, x.addr = l.addr)
    (hn : Coherent s.mem → ∀ d : Fin 6, ∀ x ∈ s.lines d, x.addr = a → x.owned = false) : Evolves s0 (s.setIlines c ls) := by
  refine h.updCaches (fun _ hc => ⟨?_, hc.2⟩) rfl rfl rfl rfl rfl rfl rfl rfl
  intro d l hm ho
  obtain ⟨h1, h2, h3, h4⟩ := hc.line hm ho
  refine ⟨h1, h2, h3, fun e x hx => ?_⟩
  change x ∈ (s.setIlines c ls).ilines e at hx
  rw [setIlines_ilines] at hx
  split_ifs at hx with hec
  · subst hec
    rcases hl x hx with rfl | ⟨y, hy, hya⟩
    · intro he
      have := hn hc d l hm he.symm
      simp [ho] at this
    · rw [← hya]
      exact h4 _ y hy
  · exact h4 e x hx

/-- A data cache that gains one line: SHARED where nobody else owns a copy, owned where nobody else has one. -/
theorem addLine_ev {s0 s : State} (c : Fin 6) (ls : List Line) (n : Line) (h : Evolves s0 s)
    (hl : ∀ l ∈ ls, (l.addr = n.addr ∧ l.st = n.st) ∨ (l ∈ s.lines c ∧ l.addr ≠ n.addr))
    (hs : Coherent s.mem → ∀ d : Fin 6, d ≠ c → ∀ x ∈ s.lines d, x.addr = n.addr → x.owned = false)
    (ho : n.owned = true → inSram n.addr = true ∧ n.addr % 64 = 0 ∧ (∀ d : Fin 6, d ≠ c → ∀ x ∈ s.lines d, x.addr ≠ n.addr) ∧
      ∀ d : Fin 6, ∀ x ∈ s.ilines d, x.addr ≠ n.addr)
    (hw : Inv s0 → linesWf (s.lines c) → linesWf ls)
    (hh : Inv s0 → Coherent s.mem → ∀ y ∈ ls, y.st ≠ .modified → inSram y.addr = true → Holds s y) : Evolves s0 (s.setLines c ls) := by
  refine h.updCaches (fun i hc => ⟨?_, setLines_wf hc c (hw i (hc.wf c)), setLines_clean hc c (hh i hc)⟩) rfl rfl rfl rfl rfl rfl rfl rfl
  intro d l hm hlo
  change l ∈ (s.setLines c ls).lines d at hm
  change _ ∧ _ ∧ (∀ e : Fin 6, e ≠ d → ∀ x ∈ (s.setLines c ls).lines e, x.addr ≠ l.addr) ∧
    ∀ e : Fin 6, ∀ x ∈ s.ilines e, x.addr ≠ l.addr
  simp only [setLines_lines] at hm ⊢
  by_cases hd : d = c
  · subst hd
    rw [if_pos rfl] at hm
    rcases hl l hm with ⟨ha, hst⟩ | ⟨hml, -⟩
    · have hno : n.owned = true := by rw [Line.owned, hst] at hlo; exact hlo
      obtain ⟨h1, h2, h3, h4⟩ := ho hno
      rw [ha]
      refine ⟨h1, h2, fun e he y hy => ?_, h4⟩
      rw [if_neg he] at hy
      exact h3 e he y hy
    · obtain ⟨h1, h2, h3, h4⟩ := hc.line hml hlo
      refine ⟨h1, h2, fun e he y hy => ?_, h4⟩
      rw [if_neg he] at hy
      exact h3 e he y hy
  · rw [if_neg hd] at hm
    obtain ⟨h1, h2, h3, h4⟩ := hc.line hm hlo
    refine ⟨h1, h2, fun e he y hy => ?_, h4⟩
    split_ifs at hy with hec
    · subst hec
      rcases hl y hy with ⟨ha, -⟩ | ⟨hyl, -⟩
      · intro hya
        have := hs hc d hd l hm (hya.symm.trans ha)
        simp [hlo] at this
      · exact h3 _ he y hyl
    · exact h3 e he y hy

/-! ### Bytes -/

/-- A byte reads back, and every other byte stays. -/
theorem readByte_writeByte (a x : Nat) (b : Byte) (s : State) :
    readByte (writeByte a b s) x = if x = a then b else readByte s x :=
  agetD_asetD (memDefault a) s.mem.cells a x b (memDefault x) (fun e => by rw [e])

theorem readByte_writeBytes (bs : Bytes) (a x : Nat) (s : State) :
    readByte (writeBytes a bs s) x = if a ≤ x ∧ x < a + bs.length then bs.getD (x - a) 0 else readByte s x := by
  induction bs generalizing a s with
  | nil => rw [if_neg (by simp only [List.length_nil]; omega)]; rfl
  | cons b bs ih =>
    rw [writeBytes, ih, readByte_writeByte]
    by_cases h1 : x = a
    · subst h1
      simp
    · by_cases h2 : a + 1 ≤ x ∧ x < a + 1 + bs.length
      · rw [if_pos h2, if_pos (by simp only [List.length_cons]; omega), show x - a = (x - (a + 1)) + 1 by omega]
        rfl
      · rw [if_neg h2, if_neg h1, if_neg (by simp only [List.length_cons]; omega)]

/-- A byte outside what is stored stays. -/
theorem readByte_writeBytes_outside {bs : Bytes} {a x : Nat} (s : State) (h : x < a ∨ a + bs.length ≤ x) :
    readByte (writeBytes a bs s) x = readByte s x := by
  rw [readByte_writeBytes, if_neg (by omega)]

theorem forEach_cells {α : Type} (xs : List α) (f : α → State → State) (hf : ∀ a s, (f a s).mem.cells = s.mem.cells) (s : State) :
    (forEach xs f s).mem.cells = s.mem.cells := by
  unfold forEach
  induction xs generalizing s with
  | nil => rfl
  | cons x xs ih => exact (ih (f x s)).trans (hf x s)

theorem readByte_of_cells {s t : State} (h : t.mem.cells = s.mem.cells) (x : Nat) : readByte t x = readByte s x := by
  unfold readByte; rw [h]

theorem setBad_cells (g : Nat) (s : State) : (setBad g s).mem.cells = s.mem.cells := by unfold setBad; split <;> rfl

theorem readByte_mergeSram (a x : Nat) (bs : Bytes) (s : State) : readByte (mergeSram a bs s) x = readByte (writeBytes a bs s) x :=
  readByte_of_cells (forEach_cells _ clearBad (fun _ _ => rfl) _) x

/-- What memory holds after a write-back. -/
theorem readByte_writeBack (l : Line) (x : Nat) (s : State) : readByte (writeBack l s) x =
    if l.st = .modified ∧ inSram l.addr = true ∧ l.addr ≤ x ∧ x < l.addr + l.data.length then l.data.getD (x - l.addr) 0
    else readByte s x := by
  unfold writeBack
  by_cases h : l.st = .modified ∧ inSram l.addr = true
  · rw [if_pos (by simp [h])]
    dsimp only
    have e : ∀ u, readByte (when l.bad (forEach (granulesOf l.addr 64) setBad) u) x = readByte u x := fun u => by
      refine readByte_of_cells ?_ x
      unfold when
      split
      · exact forEach_cells _ setBad setBad_cells _
      · rfl
    rw [e, readByte_mergeSram, readByte_writeBytes, readByte_of_cells (congrArg Memory.cells (whenCe_mem l.flip s))]
    simp [h]
  · rw [if_neg (by simpa using h), if_neg (fun hh => h ⟨hh.1, hh.2.1⟩)]

/-! ### Corrections, and what a read finds -/

theorem forEach_sameAs {α : Type} (xs : List α) (f : α → State → State) (hl : ∀ a s, SameLines s (f a s))
    (hc : ∀ a s, (f a s).mem.cells = s.mem.cells) (s : State) :
    SameLines s (forEach xs f s) ∧ (forEach xs f s).mem.cells = s.mem.cells :=
  ⟨forEach_sameLines xs f hl s, forEach_cells xs f hc s⟩

/-- A correction leaves every line and every byte. -/
theorem correct_same (a n : Nat) (s : State) : SameLines s (correct a n s) ∧ (correct a n s).mem.cells = s.mem.cells := by
  have hm : ∀ (g : Nat) (u : State), (recordCe (dropFlip g u)).mem = (dropFlip g u).mem := fun g u => recordCe_mem _
  exact forEach_sameAs _ _ (fun g u => SameLines.trans (t := dropFlip g u) ⟨rfl, rfl⟩ (SameLines.of_mem (hm g u)))
    (fun g u => by rw [hm]; rfl) s

/-- So does the read of a merge write. -/
theorem mergeRead_same (src a n : Nat) (s : State) :
    SameLines s (mergeRead src a n s) ∧ (mergeRead src a n s).mem.cells = s.mem.cells := by
  refine forEach_sameAs _ _ (fun g u => ?_) (fun g u => ?_) s
  · unfold when
    split
    · exact (correct_same g 8 u).1.trans (SameLines.of_mem (recordUe_mem _ _ _))
    · exact (correct_same g 8 u).1
  · unfold when
    split
    · rw [recordUe_mem]; exact (correct_same g 8 u).2
    · exact (correct_same g 8 u).2

theorem evictLine_sameLines (c : Fin 6) (l : Line) (s : State) : SameLines s (evictLine c l s) := by
  unfold evictLine
  generalize he : writeBack l s = u
  have h : SameLines s u := he ▸ writeBack_sameLines l s
  unfold when
  split
  · exact h.trans (SameLines.of_mem (recordUe_mem _ _ _))
  · exact h

theorem dropCopies_lines (a : Nat) (c : Fin 6) (s : State) (d : Fin 6) :
    (dropCopies a c s).lines d = if d = c then s.lines d else dropLine (s.lines d) a := by
  have h0 : ∀ d, (dropIlines a s).lines d = s.lines d := fun _ => rfl
  rw [← h0 d]
  refine forEach_lines (φ := fun d ls => if d = c then ls else dropLine ls a) (fun e s d => ?_) _ d
  by_cases hk : e = c
  · simp only [hk, beq_self_eq_true, if_true]
    split_ifs with e <;> simp_all
  · simp only [beq_iff_eq, hk, if_false, setLines_lines]

theorem dropCopies_ilines (a : Nat) (c : Fin 6) (s : State) (d : Fin 6) :
    (dropCopies a c s).ilines d = dropLine (s.ilines d) a := by
  rw [← dropIlines_ilines a s d]
  refine forEach_ilines (fun e s d => ?_) _ d
  split <;> rfl

/-- A line of another cache that is MODIFIED. -/
theorem ownerOf_line {s : State} {a : Nat} {keep : Option (Fin 6)} {o : Line} (h : s.ownerOf a keep = some o) :
    ∃ d : Fin 6, keep ≠ some d ∧ o ∈ s.lines d ∧ o.addr = lineOf a ∧ o.st = .modified := by
  unfold State.ownerOf at h
  obtain ⟨d, -, hd⟩ := List.exists_of_findSome?_eq_some h
  by_cases hk : keep = some d
  · simp [hk] at hd
  · simp only [beq_iff_eq, hk, if_false, Option.filter_eq_some_iff] at hd
    obtain ⟨h1, h2⟩ := findLine_some hd.1
    exact ⟨d, hk, h1, h2, by simpa using hd.2⟩

theorem ownerOf_some {s : State} {a : Nat} {c : Fin 6} {o : Line} (h : s.ownerOf a (some c) = some o) :
    ∃ d : Fin 6, d ≠ c ∧ o ∈ s.lines d ∧ o.addr = lineOf a ∧ o.st = .modified := by
  obtain ⟨d, hk, h1⟩ := ownerOf_line h
  exact ⟨d, fun e => hk (by rw [e]), h1⟩

/-- No other cache holds the line MODIFIED. -/
theorem ownerOf_none {s : State} {a : Nat} {c : Fin 6} (h : s.ownerOf a (some c) = none) {d : Fin 6} (hd : d ≠ c) {x : Line}
    (hw : linesWf (s.lines d)) (hx : x ∈ s.lines d) (hxa : x.addr = lineOf a) : x.st ≠ .modified := by
  intro hm
  unfold State.ownerOf at h
  rw [List.findSome?_eq_none_iff] at h
  have hall : ∀ d : Fin 6, d ∈ allCores := by decide
  have := h d (hall d)
  have hk : ¬(some c = some d) := fun e => hd (by cases e; rfl)
  simp only [beq_iff_eq, hk, if_false, Option.filter_eq_none_iff] at this
  cases hf : findLine (s.lines d) a with
  | none => exact findLine_none hf x hx hxa
  | some y =>
    obtain ⟨h1, h2⟩ := findLine_some hf
    have e := List.inj_on_of_nodup_map hw.1 hx h1 (hxa.trans h2.symm)
    exact this y hf (by rw [← e]; simpa using hm)

/-! ### Writes that cached lines do not see -/

/-- No clean line of shared SRAM covers a byte of [a, a + n). -/
def Apart (s : State) (a n : Nat) : Prop :=
  ∀ (c : Fin 6) (l : Line), l ∈ s.lines c → l.st ≠ .modified → inSram l.addr = true →
    ∀ x, a ≤ x → x < a + n → x < l.addr ∨ l.addr + 64 ≤ x

theorem writeByte_ev {s0 s : State} (a : Nat) (b : Byte) (h : Evolves s0 s) (hx : Inv s0 → Apart s a 1) :
    Evolves s0 (writeByte a b s) := by
  refine h.updCells (fun hw => tableWf_asetD a b hw) (fun i hc => ?_) rfl rfl rfl rfl rfl rfl rfl rfl rfl
  intro c l hl hm ha j hj
  have := hc.clean hl hm ha j hj
  rw [this]
  have e : readByte (writeByte a b s) (l.addr + j) = readByte s (l.addr + j) := by
    rw [readByte_writeByte, if_neg]
    rcases hx i c l hl hm ha a (by omega) (by omega) with h | h <;> omega
  exact e.symm

theorem writeBytes_ev {s0 s : State} (a : Nat) (bs : Bytes) (h : Evolves s0 s) (hx : Inv s0 → Apart s a bs.length) :
    Evolves s0 (writeBytes a bs s) := by
  induction bs generalizing a s with
  | nil => exact h
  | cons b bs ih =>
    refine ih (a + 1) (writeByte_ev a b h (fun i c l hl hm ha x h1 h2 => ?_)) (fun i c l hl hm ha x h1 h2 => ?_)
    · exact hx i c l hl hm ha x h1 (by simp only [List.length_cons]; omega)
    · exact hx i c l hl hm ha x (by omega) (by simp only [List.length_cons]; omega)

/-- A line of shared SRAM lies in it whole. -/
theorem line_inSram {a x : Nat} (ha : inSram a = true) (hm : a % 64 = 0) (h1 : a ≤ x) (h2 : x < a + 64) : inSram x = true := by
  simp only [inSram, inRange, Bool.and_eq_true, decide_eq_true_eq] at *
  omega

theorem flash_not_sram (x : Nat) (h : inFlash x = true) : inSram x = false := by
  simp only [inFlash, inImages, inBooking, inSram, inRange, Bool.or_eq_true, Bool.and_eq_true, decide_eq_true_eq] at *
  simp only [Bool.and_eq_false_iff, decide_eq_false_iff_not]
  omega

theorem kiln_not_sram (x : Nat) (h : inKilnSram x = true) : inSram x = false := by
  simp only [inKilnSram, inSram, inRange, Bool.and_eq_true, decide_eq_true_eq] at *
  simp only [Bool.and_eq_false_iff, decide_eq_false_iff_not]
  omega

/-- Bytes stored in a region outside shared SRAM. -/
theorem writeWithin_ev {s0 s : State} (region : Nat → Bool) (a : Nat) (bs : Bytes) (h : Evolves s0 s)
    (hr : ∀ x, region x = true → inSram x = false) : Evolves s0 (writeWithin region a bs s) := by
  induction bs generalizing a s with
  | nil => exact h
  | cons b bs ih =>
    refine ih (a + 1) ?_
    unfold when
    split
    · rename_i hp
      refine writeByte_ev a b h (fun i c l hl hm ha x h1 h2 => ?_)
      have hxa : x = a := by omega
      subst hxa
      by_contra hn
      have h64 := (((h.inv i).caches.wf c).2 l hl).2
      have := line_inSram ha h64 (x := x) (by omega) (by omega)
      rw [hr x hp] at this
      cases this
    · exact h

/-- Every other line lies apart from a MODIFIED one. -/
theorem apart_of_modified {s : State} (hc : Coherent s.mem) {c : Fin 6} {l : Line} (hl : l ∈ s.lines c) (hm : l.st = .modified) :
    Apart s l.addr l.data.length := by
  intro d x hx hxm _ z hz1 hz2
  have ho : l.owned = true := by simp [Line.owned, hm]
  obtain ⟨-, h64, h3, -⟩ := hc.line hl ho
  have hlen := ((hc.wf c).2 l hl).1
  have hx64 := ((hc.wf d).2 x hx).2
  have hne : x.addr ≠ l.addr := by
    by_cases hd : d = c
    · subst hd
      intro e
      have := List.inj_on_of_nodup_map (hc.wf d).1 hx hl e
      subst this
      exact hxm hm
    · exact h3 d hd x hx
  rw [hlen] at hz2
  omega

theorem aget?_filter {α : Type} (m : Assoc α) (p : Nat → Bool) (k : Nat) (h : p k = true) :
    aget? (m.filter (fun e => p e.1)) k = aget? m k := by
  induction m with
  | nil => rfl
  | cons e m ih =>
    obtain ⟨j, v⟩ := e
    by_cases hp : p j = true
    · rw [List.filter_cons_of_pos (by exact hp)]
      simp only [aget?, ih]
    · rw [List.filter_cons_of_neg (by exact hp), ih]
      have : k ≠ j := fun e => hp (e ▸ h)
      simp [aget?, this]

end Sys2Proof.Machine
end

