-- ==== Sys2Proof/Laws/Cores.lean ====
section
/-! SUPPORT. A core's registers: reading back what was written, and the changes that keep a core well-formed (R148, R236, R237). -/
namespace Sys2Proof.Machine

/-- g0 reads 0. -/
@[simp] theorem Core.get_zero (k : Core) : k.get 0 = 0 := rfl

/-- g0 discards writes. -/
@[simp] theorem Core.put_zero (v : Word) (k : Core) : Core.put 0 v k = k := rfl

theorem Core.get_put {rd r : Fin 16} (v : Word) (k : Core) :
    (Core.put rd v k).get r = if r = rd ∧ rd ≠ 0 then v else k.get r := by
  unfold Core.get Core.put
  by_cases h : rd = 0
  · simp [h]
  · rw [if_neg h]
    simp only [get_set]
    split_ifs <;> simp_all

@[simp] theorem Core.put_pc (rd : Fin 16) (v : Word) (k : Core) : (Core.put rd v k).pc = k.pc := by unfold Core.put; split <;> rfl
@[simp] theorem Core.put_flg (rd : Fin 16) (v : Word) (k : Core) : (Core.put rd v k).flg = k.flg := by unfold Core.put; split <;> rfl
@[simp] theorem Core.put_cstat (rd : Fin 16) (v : Word) (k : Core) : (Core.put rd v k).cstat = k.cstat := by
  unfold Core.put; split <;> rfl
@[simp] theorem Core.put_cvec (rd : Fin 16) (v : Word) (k : Core) : (Core.put rd v k).cvec = k.cvec := by
  unfold Core.put; split <;> rfl
@[simp] theorem Core.put_cepc (rd : Fin 16) (v : Word) (k : Core) : (Core.put rd v k).cepc = k.cepc := by
  unfold Core.put; split <;> rfl
@[simp] theorem Core.put_ccause (rd : Fin 16) (v : Word) (k : Core) : (Core.put rd v k).ccause = k.ccause := by
  unfold Core.put; split <;> rfl
@[simp] theorem Core.put_cbad (rd : Fin 16) (v : Word) (k : Core) : (Core.put rd v k).cbad = k.cbad := by
  unfold Core.put; split <;> rfl
@[simp] theorem Core.put_e (rd : Fin 16) (v : Word) (k : Core) : (Core.put rd v k).e = k.e := by unfold Core.put; split <;> rfl
@[simp] theorem Core.put_run (rd : Fin 16) (v : Word) (k : Core) : (Core.put rd v k).run = k.run := by unfold Core.put; split <;> rfl

/-- A core reads back what it was set to, and the other cores stay. -/
theorem State.get_setCore (s : State) (c d : Fin 6) (k : Core) :
    (s.setCore c k).cores.get d = if d = c then k else s.cores.get d := get_set s.cores c d k

@[simp] theorem State.setCore_get (s : State) (c : Fin 6) (k : Core) : (s.setCore c k).cores.get c = k := by
  simp [State.get_setCore]

@[simp] theorem State.setCore_setCore (s : State) (c : Fin 6) (k k' : Core) : (s.setCore c k).setCore c k' = s.setCore c k' := by
  unfold State.setCore
  simp [Vector.set_set]

theorem State.onCore_eq (s : State) (c : Fin 6) (f : Core → Core) : s.onCore c f = s.setCore c (f (s.cores.get c)) := rfl

theorem State.setCore_onCore (s : State) (c : Fin 6) (k : Core) (f : Core → Core) : (s.setCore c k).onCore c f = s.setCore c (f k) := by
  simp [State.onCore]

/-! ### Well-formed cores -/

theorem coreOk_iff (c : Fin 6) (k : Core) : coreOk c k = true ↔
    k.g.get 0 = 0 ∧ clear k.pc 3 = true ∧ clear k.cepc 3 = true ∧ clear k.cvec 0xFF = true ∧ clear k.cstat 0xFFC0 = true ∧
      (c.val = 5 → k.cvec = 0xC000) := by
  simp only [coreOk, Bool.and_eq_true, beq_iff_eq, Bool.or_eq_true, bne_iff_ne, ne_eq, and_assoc, imp_iff_not_or]

theorem coreOk_put {c : Fin 6} {k : Core} {rd : Fin 16} {v : Word} (h : coreOk c k = true) : coreOk c (Core.put rd v k) = true := by
  rw [coreOk_iff] at *
  simp only [Core.put_pc, Core.put_cepc, Core.put_cvec, Core.put_cstat]
  refine ⟨?_, h.2⟩
  unfold Core.put
  split
  · exact h.1
  · rename_i hr
    simp only [get_set]
    rw [if_neg (fun e => hr e.symm)]
    exact h.1

theorem coreOk_advance {c : Fin 6} {k : Core} (h : coreOk c k = true) : coreOk c k.advance = true := coreOk_next h

theorem coreOk_write {c : Fin 6} {k : Core} {rd : Fin 16} {v : Word} (h : coreOk c k = true) : coreOk c (Core.write rd v k) = true :=
  coreOk_advance (coreOk_put h)

/-- A core that goes on at an aligned address. -/
theorem coreOk_goto {c : Fin 6} {k : Core} {t : Word} {run : Run} (h : coreOk c k = true) (ht : clear t 3 = true) :
    coreOk c { k with pc := t, run := run } = true := by
  rw [coreOk_iff] at *
  exact ⟨h.1, ht, h.2.2⟩

theorem clear_vector {w : Word} (h : clear w 0xFF = true) : clear w 3 = true := by
  simp only [clear, beq_iff_eq] at h ⊢
  have e3 : (3 : Word) = 0xFF &&& 3 := by decide
  rw [e3, ← BitVec.and_assoc, h]
  decide

/-- A word whose low two bits are cut off. -/
theorem clear_shl (w : Word) : clear (w <<< 2) 3 = true := by
  rw [clear_three, BitVec.toNat_shiftLeft, Nat.shiftLeft_eq]
  omega

theorem clear_mask (v m n : Word) (h : m &&& n = 0) : clear (v &&& m) n = true := by
  simp only [clear, beq_iff_eq, BitVec.and_assoc, h]
  exact BitVec.and_zero

/-- A bit outside the mask may be written. -/
theorem clear_setBit {w m : Word} {i : Nat} {b : Bool} (h : clear w m = true)
    (hi : BitVec.ofNat 32 (1 <<< i) &&& m = 0) : clear (setBit w i b) m = true := by
  simp only [clear, beq_iff_eq] at h ⊢
  unfold setBit setBits
  have z : ∀ x : Word, (0 : Word) &&& x = 0 := fun _ => BitVec.zero_and
  rw [BitVec.and_comm, BitVec.and_or_distrib_left, ← BitVec.and_assoc, BitVec.and_comm m w, h, z]
  cases b
  · simp
  · simpa [BitVec.and_comm] using hi

theorem clear_enterStat {w : Word} (h : clear w 0xFFC0 = true) : clear (enterStat w) 0xFFC0 = true := by
  unfold enterStat
  exact clear_setBit (clear_setBit (clear_setBit (clear_setBit h (by decide)) (by decide)) (by decide)) (by decide)

/-- A core that has entered a handler. -/
theorem coreOk_vector {c : Fin 6} {k : Core} {off cause : Word} (h : coreOk c k = true) (ho : clear off 3 = true) :
    coreOk c (k.vector off cause) = true := by
  rw [coreOk_iff] at *
  obtain ⟨h1, h2, h3, h4, h5, h6⟩ := h
  exact ⟨h1, clear_add (clear_vector h4) ho, h2, h4, clear_enterStat h5, h6⟩

theorem clear_writeStat (w v : Word) : clear (writeStat w v) 0xFFC0 = true := by
  simp only [clear, beq_iff_eq]
  unfold writeStat
  rw [BitVec.and_comm, BitVec.and_or_distrib_left, BitVec.and_or_distrib_left]
  have e : ∀ x y : Word, (0xFFC0 : Word) &&& (x &&& y) = x &&& (0xFFC0 &&& y) := fun x y => by
    rw [← BitVec.and_assoc, BitVec.and_comm 0xFFC0 x, BitVec.and_assoc]
  rw [e v, e w, e (w &&& v)]
  rw [show (0xFFC0 : Word) &&& 0xFFFF000F = 0 by decide, show (0xFFC0 : Word) &&& 0x20 = 0 by decide,
    show (0xFFC0 : Word) &&& 0x10 = 0 by decide]
  simp

/-- A core whose cstat changes in its defined bits. -/
theorem coreOk_stat {c : Fin 6} {k : Core} {flg : BitVec 4} {st ccause cbad cmp : Word} {cmpLate : Bool} {e : BitVec 16} {run : Run}
    (h : coreOk c k = true) (hs : clear st 0xFFC0 = true) :
    coreOk c ⟨k.g, flg, k.pc, st, k.cvec, k.cepc, ccause, cbad, cmp, cmpLate, e, run⟩ = true := by
  rw [coreOk_iff] at *
  obtain ⟨h1, h2, h3, h4, -, h6⟩ := h
  exact ⟨h1, h2, h3, h4, hs, h6⟩

theorem coreOk_fireTimer {c : Fin 6} {k : Core} (now : Word) (h : coreOk c k = true) : coreOk c (fireTimer now k) = true := by
  unfold fireTimer
  split
  · exact coreOk_stat h (clear_setBit (clear_setBit ((coreOk_iff _ _).1 h).2.2.2.2.1 (by decide)) (by decide))
  · exact h

theorem coreOk_armTimer {c : Fin 6} {k : Core} (now v : Word) (h : coreOk c k = true) : coreOk c (armTimer now v k) = true :=
  coreOk_stat (coreOk_fireTimer now h) (clear_setBit ((coreOk_iff _ _).1 (coreOk_fireTimer now h)).2.2.2.2.1 (by decide))

/-- A control register written. -/
theorem coreOk_cregWrite {c : Fin 6} {n : Nat} {now v : Word} {k k' : Core} (h : coreOk c k = true)
    (hw : cregWrite c n now v k = some k') : coreOk c k' = true := by
  have h0 := h
  rw [coreOk_iff] at h
  obtain ⟨h1, h2, h3, h4, h5, h6⟩ := h
  unfold cregWrite at hw
  split at hw
  · cases hw
    exact (coreOk_iff _ _).2 ⟨h1, h2, h3, h4, clear_writeStat _ _, h6⟩
  · split at hw
    · cases hw
    · rename_i hc
      cases hw
      exact (coreOk_iff _ _).2 ⟨h1, h2, h3, clear_mask _ _ _ (by decide), h5, fun e => absurd e hc⟩
  · cases hw
    exact (coreOk_iff _ _).2 ⟨h1, h2, clear_mask _ _ _ (by decide), h4, h5, h6⟩
  · cases hw
    exact coreOk_armTimer now v h0
  · cases hw

end Sys2Proof.Machine
end

