-- ==== Sys2Proof/Laws/KeepsMem.lean ====
section
/-! SUPPORT. Every operation on registers, events, channels and memory keeps the invariant, the queue and the fuses; in particular every memory operation keeps the canonical form. -/
namespace Sys2Proof.Machine

theorem State.setFld_ev {s0 s : State} (k hi lo v : Nat) (h : Evolves s0 s) : Evolves s0 (State.setFld s k hi lo v) := by
  unfold State.setFld
  with_reducible repeat' (first | assumption | apply State.setReg_ev)

theorem State.setRbit_ev {s0 s : State} (k i : Nat) (b : Bool) (h : Evolves s0 s) : Evolves s0 (State.setRbit s k i b) := by
  unfold State.setRbit
  with_reducible repeat' (first | assumption | apply State.setReg_ev)

theorem State.incFld_ev {s0 s : State} (k hi lo : Nat) (h : Evolves s0 s) : Evolves s0 (State.incFld s k hi lo) := by
  unfold State.incFld
  with_reducible repeat' (first | assumption | apply State.setFld_ev)

theorem State.satFld_ev {s0 s : State} (k hi lo : Nat) (h : Evolves s0 s) : Evolves s0 (State.satFld s k hi lo) := by
  unfold State.satFld
  with_reducible repeat' (first | assumption | apply State.setFld_ev)

theorem State.freshWord_ev {s0 s : State} (h : Evolves s0 s) : Evolves s0 (State.freshWord s).2 := by
  unfold State.freshWord
  with_reducible repeat' (first
    | assumption | dsimp only | fail_if_no_progress (refine Evolves.rest ?_ rfl rfl rfl rfl rfl rfl))

theorem State.freshBytes_ev {s0 s : State} (n : Nat) (h : Evolves s0 s) : Evolves s0 (State.freshBytes s n).2 := by
  unfold State.freshBytes
  with_reducible repeat' (first
    | assumption | dsimp only | fail_if_no_progress (refine Evolves.rest ?_ rfl rfl rfl rfl rfl rfl))

theorem State.setE_ev {s0 s : State} (c : Fin 6) (m : BitVec 16) (h : Evolves s0 s) : Evolves s0 (State.setE s c m) := by
  unfold State.setE
  with_reducible repeat' (first | assumption | apply State.onCore_ev | intro _ | apply coreOk_same)

theorem State.routeE_ev {s0 s : State} (route : Nat) (b : Nat) (h : Evolves s0 s) :
    Evolves s0 (State.routeE s route b) := by
  unfold State.routeE
  with_reducible repeat' (first | assumption | apply forEach_ev | apply State.setE_ev | intro _)

theorem asorted_foldl {α : Type} (bs : List α) (m : Assoc Byte) (g : α → Nat) (v : α → Byte) (h : asorted m = true) :
    asorted (bs.foldl (fun m b => ains m (g b) (v b)) m) = true := by
  induction bs generalizing m with
  | nil => exact h
  | cons b bs ih => exact ih _ (asorted_ains _ _ h)

theorem raiseVector_ev {s0 s : State} (r : Sys2Proof.Req) (v : Nat) (h : Evolves s0 s) :
    Evolves s0 (raiseVector r v s) := by
  unfold raiseVector
  split
  · exact h
  · split
    · exact h
    · split
      · exact h
      · split
        · with_reducible refine Evolves.rest h rfl rfl rfl rfl rfl rfl
        · exact h.updHost (fun hw => asorted_foldl _ _ _ _ hw) rfl rfl rfl rfl rfl rfl rfl rfl rfl
    · exact State.setReg_ev _ _ h

theorem hostEvent_ev {s0 s : State} (b : Nat) (r : Sys2Proof.Req) (h : Evolves s0 s) : Evolves s0 (hostEvent b r s) := by
  unfold hostEvent
  split
  · exact h
  · exact when_ev (State.setRbit_ev _ _ _ h) (fun u hu => raiseVector_ev _ _ hu)

theorem blockEvent_ev {s0 s : State} (evt ie rreg rlo ev b : Nat) (h : Evolves s0 s) :
    Evolves s0 (blockEvent evt ie rreg rlo ev b s) := by
  unfold blockEvent
  with_reducible repeat' (first
    | assumption | apply State.setRbit_ev | apply when_ev | apply State.routeE_ev | intro _ | dsimp only | split)

theorem State.levelMode_ev {s0 s : State} (h : Evolves s0 s) : Evolves s0 (State.levelMode s) := by
  unfold State.levelMode
  with_reducible repeat' (first | assumption | apply when_ev | apply forEach_ev | apply State.setE_ev | intro _)

theorem State.modeEdge_ev {s0 s : State} (f : State → State) (h : Evolves s0 s) (evf : ∀ a0, Evolves s0 a0 → Evolves s0
    (f a0)) :
    Evolves s0 (State.modeEdge s f) := by
  unfold State.modeEdge
  with_reducible repeat' (first
    | assumption | apply State.levelMode_ev | apply forEach_ev | apply raiseVector_ev | apply evf | intro _ | dsimp only
    | split)

theorem modeEvent_ev {s0 s : State} (b : Nat) (h : Evolves s0 s) : Evolves s0 (modeEvent b s) := by
  unfold modeEvent
  with_reducible repeat' (first | assumption | apply State.modeEdge_ev | apply State.setRbit_ev | intro _)

theorem State.levelCmd_ev {s0 s : State} (c : Fin 6) (h : Evolves s0 s) : Evolves s0 (State.levelCmd s c) := by
  unfold State.levelCmd
  with_reducible repeat' (first | assumption | apply when_ev | apply State.setE_ev | intro _)

theorem portSend_ev {s0 s : State} (ch : Nat) (ws : List (Word × Bool)) (h : Evolves s0 s) :
    Evolves s0 (portSend ch ws s) := by
  unfold portSend
  with_reducible repeat' (first | assumption | apply devSend_ev | split)

theorem cTakeOut_ev {s0 s : State} (k : Nat) (w : ChWord) (h : Evolves s0 s) : Evolves s0 (cTakeOut k w s) := by
  refine cRefill_ev k (State.setChan_ev k _ h (fun hl => ?_))
  exact (List.erase_sublist.length_le).trans hl

theorem cmdSend_ev {s0 s : State} (e : Nat) (w : Word) (h : Evolves s0 s) : Evolves s0 (cmdSend e w s) := by
  unfold cmdSend
  with_reducible repeat' (first | assumption | apply devSend_ev | apply State.levelCmd_ev)

theorem dropFlip_ev {s0 s : State} (g : Nat) (h : Evolves s0 s) : Evolves s0 (dropFlip g s) :=
  Evolves.rest h rfl rfl rfl rfl rfl rfl

theorem setBad_ev {s0 s : State} (g : Nat) (h : Evolves s0 s) : Evolves s0 (setBad g s) := by
  unfold setBad
  split
  · exact h
  · exact dropFlip_ev g (Evolves.rest h rfl rfl rfl rfl rfl rfl)

theorem clearBad_ev {s0 s : State} (g : Nat) (h : Evolves s0 s) : Evolves s0 (clearBad g s) :=
  dropFlip_ev g (Evolves.rest h rfl rfl rfl rfl rfl rfl)

theorem eccEvent_ev {s0 s : State} (h : Evolves s0 s) : Evolves s0 (eccEvent s) := by
  unfold eccEvent
  with_reducible repeat' (first | assumption | apply State.routeE_ev)

theorem recordUe_ev {s0 s : State} (a src : Nat) (h : Evolves s0 s) : Evolves s0 (recordUe a src s) := by
  unfold recordUe
  with_reducible repeat' (first
    | assumption | apply eccEvent_ev | apply State.setRbit_ev | apply State.setReg_ev | apply State.setFld_ev | split)

theorem recordCe_ev {s0 s : State} (h : Evolves s0 s) : Evolves s0 (recordCe s) := by
  unfold recordCe
  with_reducible repeat' (first
    | assumption | apply State.satFld_ev | apply when_ev | apply eccEvent_ev | apply State.setRbit_ev)

theorem correct_ev {s0 s : State} (a n : Nat) (h : Evolves s0 s) : Evolves s0 (correct a n s) :=
  forEach_ev h (fun _ _ hu => recordCe_ev (dropFlip_ev _ hu))

theorem mergeRead_ev {s0 s : State} (src a n : Nat) (h : Evolves s0 s) : Evolves s0 (mergeRead src a n s) :=
  forEach_ev h (fun g _ hu => when_ev (correct_ev g 8 hu) (fun _ hv => recordUe_ev _ _ hv))

theorem mergeSram_ev {s0 s : State} (a : Nat) (bs : Bytes) (h : Evolves s0 s) (hx : Inv s0 → Apart s a bs.length) :
    Evolves s0 (mergeSram a bs s) := by
  unfold mergeSram
  exact forEach_ev (writeBytes_ev a bs h hx) (fun g u hu => clearBad_ev g hu)

theorem Apart.of_lines {s t : State} {a n : Nat} (h : Apart s a n) (hl : ∀ c, t.lines c = s.lines c) : Apart t a n :=
  fun c l hm => h c l (by rwa [hl] at hm)

theorem writeBack_ev {s0 s : State} (l : Line) (h : Evolves s0 s)
    (hx : Inv s0 → l.st = .modified → inSram l.addr = true → Apart s l.addr l.data.length) : Evolves s0 (writeBack l s) := by
  unfold writeBack
  split
  · rename_i hm
    simp only [Bool.and_eq_true, beq_iff_eq] at hm
    exact when_ev (mergeSram_ev _ _ (when_ev h (fun _ hu => recordCe_ev hu))
      (fun i => (hx i hm.1 hm.2).of_lines (lines_eq (SameLines.of_mem (whenCe_mem l.flip s)))))
      (fun u hu => forEach_ev hu (fun g v hv => setBad_ev g hv))
  · exact h

theorem evictLine_ev {s0 s : State} (c : Fin 6) (l : Line) (h : Evolves s0 s)
    (hx : Inv s0 → l.st = .modified → inSram l.addr = true → Apart s l.addr l.data.length) : Evolves s0 (evictLine c l s) :=
  when_ev (writeBack_ev l h hx) (fun _ hu => recordUe_ev _ _ hu)

/-- A cached line taken to memory. -/

theorem writeBack_line_ev {s0 s : State} {c : Fin 6} {l : Line} (h : Evolves s0 s) (hl : l ∈ s.lines c) : Evolves s0
    (writeBack l s) :=
  writeBack_ev l h (fun i hm _ => apart_of_modified (h.inv i).caches hl hm)

/-- Memory holds a line that has been written back. -/

theorem holds_writeBack {l : Line} (s : State) (hm : l.st = .modified) (ha : inSram l.addr = true) (hd : l.data.length = 64) :
    Holds (writeBack l s) l := fun i hi => by
  rw [readByte_writeBack, if_pos ⟨hm, ha, by omega, by omega⟩]
  congr 1
  omega

/-- What the directory does to one core's data cache when it recalls a line. -/

theorem recallStep_ev {s0 u : State} (a : Nat) (keep : Option (Fin 6)) (c : Fin 6) (hu : Evolves s0 u) :
    Evolves s0 (if keep == some c then u else
      match findLine (u.lines c) a with
      | none => u
      | some l =>
        let u := writeBack l u
        u.setLines c ((u.lines c).map (fun x => if x.addr == lineOf a then { x with st := .shared } else x))) := by
  split
  · exact hu
  · split
    · exact hu
    · rename_i l hf
      obtain ⟨hm, hla⟩ := findLine_some hf
      refine State.setLines_ev c _ (writeBack_line_ev hu hm) (fun l hl => ?_) (fun hw => linesWf_map _ hw
        (fun l => by split_ifs <;> rfl) (fun l => by split_ifs <;> rfl)) (fun i hc y hy hym hya => ?_)
      · obtain ⟨x, hx, rfl⟩ := List.mem_map.1 hl
        refine ⟨x, hx, ?_⟩
        split_ifs <;> simp [Line.owned]
      · obtain ⟨x, hx, rfl⟩ := List.mem_map.1 hy
        by_cases hxa : x.addr = lineOf a
        · have hxa' : (x.addr == lineOf a) = true := by simpa using hxa
          simp only [hxa', if_true] at hya ⊢
          by_cases hxm : x.st = .modified
          · rw [lines_eq (writeBack_sameLines l u)] at hx
            have hw := (hu.inv i).caches.wf c
            have e := List.inj_on_of_nodup_map hw.1 hx hm (hxa.trans hla.symm)
            subst e
            exact holds_writeBack u hxm hya (hw.2 x hx).1
          · exact fun i hi => hc.clean hx hxm hya i hi
        · have hxa' : (x.addr == lineOf a) = false := by simpa using hxa
          simp only [hxa'] at hym hya ⊢
          exact fun i hi => hc.clean hx (by simpa using hym) (by simpa using hya) i hi

theorem recallLine_ev {s0 s : State} (a : Nat) (keep : Option (Fin 6)) (h : Evolves s0 s) :
    Evolves s0 (recallLine a keep s) := forEach_ev h (fun c _ hu => recallStep_ev a keep c hu)

theorem dropIlines_ev {s0 s : State} (a : Nat) (h : Evolves s0 s) : Evolves s0 (dropIlines a s) := by
  refine h.updCaches (fun _ hc => ⟨?_, hc.2⟩) rfl rfl rfl rfl rfl rfl rfl rfl
  intro c l hm ho
  obtain ⟨h1, h2, h3, h4⟩ := hc.line hm ho
  refine ⟨h1, h2, h3, fun d x hx => ?_⟩
  change x ∈ (dropIlines a s).ilines d at hx
  rw [dropIlines_ilines, mem_dropLine] at hx
  exact h4 d x hx.1

/-- What the directory does to one core's data cache when it invalidates a line. -/

theorem invalidateStep_ev {s0 u : State} (a : Nat) (keep : Option (Fin 6)) (c : Fin 6) (hu : Evolves s0 u) :
    Evolves s0 (if keep == some c then u else
      match findLine (u.lines c) a with
      | none => u
      | some l =>
        let u := writeBack l u
        u.setLines c (dropLine (u.lines c) a)) := by
  split
  · exact hu
  · split
    · exact hu
    · rename_i l hf
      refine State.setLines_ev c _ (writeBack_line_ev hu (findLine_some hf).1) (fun l hl => ?_) (linesWf_filter _)
        (fun _ hc y hy => hc.clean (mem_dropLine.1 hy).1)
      exact ⟨l, (mem_dropLine.1 hl).1, rfl, id⟩

theorem invalidateLine_ev {s0 s : State} (a : Nat) (keep : Option (Fin 6)) (h : Evolves s0 s) :
    Evolves s0 (invalidateLine a keep s) := forEach_ev (dropIlines_ev a h) (fun c _ hu => invalidateStep_ev a keep c hu)

theorem lineOf_lineOf (a : Nat) : lineOf (lineOf a) = lineOf a := by unfold lineOf; omega

theorem lineOf_mod (a : Nat) : lineOf a % 64 = 0 := by unfold lineOf; omega

theorem lineOf_of_mod {a : Nat} (h : a % 64 = 0) : lineOf a = a := by unfold lineOf; omega

theorem inSram_lineOf (a : Nat) : inSram (lineOf a) = inSram a := by
  unfold inSram inRange lineOf
  rw [Bool.eq_iff_iff]
  simp only [Bool.and_eq_true, decide_eq_true_eq]
  omega

/-- A line put into a cache takes the place of its address, and every other line stays or is evicted. -/

theorem mem_putLine {ways : Nat} {l x : Line} {ls : List Line} (ha : l.addr % 64 = 0) (h : x ∈ (putLine ways l ls).1) :
    (x.addr = l.addr ∧ x.st = l.st) ∨ (x ∈ ls ∧ x.addr ≠ l.addr) := by
  have hd : ∀ y, y ∈ dropLine ls l.addr → y ∈ ls ∧ y.addr ≠ l.addr := fun y hy => by
    have := mem_dropLine.1 hy
    rwa [lineOf_of_mod ha] at this
  unfold putLine at h
  dsimp only at h
  split at h
  · rcases List.mem_cons.1 h with rfl | h
    · exact .inl ⟨rfl, rfl⟩
    · exact .inr (hd x h)
  · split at h
    · rcases List.mem_cons.1 h with rfl | h
      · exact .inl ⟨rfl, rfl⟩
      · exact .inr (hd x h)
    · rcases List.mem_cons.1 h with rfl | h
      · exact .inl ⟨rfl, rfl⟩
      · exact .inr (hd x (mem_dropLine.1 h).1)

/-- A cache that takes in a whole line stays well-formed. -/

theorem linesWf_putLine {ways : Nat} {l : Line} {ls : List Line} (h : linesWf ls) (ha : l.addr % 64 = 0)
    (hd : l.data.length = 64) : linesWf (putLine ways l ls).1 := by
  have h1 : linesWf (dropLine ls l.addr) := linesWf_filter _ h
  have hn : ∀ x ∈ dropLine ls l.addr, x.addr ≠ l.addr := fun x hx => by
    have := (mem_dropLine.1 hx).2
    rwa [lineOf_of_mod ha] at this
  unfold putLine
  dsimp only
  split
  · exact linesWf_cons h1 hn hd ha
  · split
    · exact linesWf_cons h1 hn hd ha
    · exact linesWf_cons (linesWf_filter _ h1) (fun x hx => hn x (mem_dropLine.1 hx).1) hd ha

theorem mem_putLine_data {ways : Nat} {l x : Line} {ls : List Line} (h : x ∈ (putLine ways l ls).1) :
    (x.addr = l.addr ∧ x.st = l.st ∧ x.data = l.data) ∨ x ∈ ls := by
  unfold putLine at h
  dsimp only at h
  split at h
  · rcases List.mem_cons.1 h with rfl | h
    · exact .inl ⟨rfl, rfl, rfl⟩
    · exact .inr (mem_dropLine.1 h).1
  · split at h
    · rcases List.mem_cons.1 h with rfl | h
      · exact .inl ⟨rfl, rfl, rfl⟩
      · exact .inr (mem_dropLine.1 h).1
    · rcases List.mem_cons.1 h with rfl | h
      · exact .inl ⟨rfl, rfl, rfl⟩
      · exact .inr (mem_dropLine.1 (mem_dropLine.1 h).1).1

/-- A line that a cache gives up was in it, and is in it no more. -/

theorem putLine_evicted {ways : Nat} {l v : Line} {ls : List Line} (hw : linesWf ls) (ha : l.addr % 64 = 0)
    (h : (putLine ways l ls).2 = some v) : v ∈ ls ∧ v.addr ≠ l.addr ∧ ∀ x ∈ (putLine ways l ls).1, x.addr ≠ v.addr := by
  unfold putLine at h ⊢
  dsimp only at h ⊢
  split at h
  · cases h
  · rename_i hn
    rw [if_neg hn]
    split at h
    · cases h
    · rename_i v' hv'
      cases h
      have hm := List.mem_of_mem_filter (List.mem_of_getLast? hv')
      obtain ⟨hm1, hm2⟩ := mem_dropLine.1 hm
      rw [lineOf_of_mod ha] at hm2
      refine ⟨hm1, hm2, fun x hx => ?_⟩
      rcases List.mem_cons.1 hx with rfl | hx
      · exact fun e => hm2 e.symm
      · have := (mem_dropLine.1 hx).2
        rwa [lineOf_of_mod (hw.2 v hm1).2] at this

theorem installLine_ev {s0 s : State} (c : Fin 6) (l : Line) (h : Evolves s0 s) (ha : l.addr % 64 = 0)
    (hd : Inv s0 → l.data.length = 64)
    (hh : l.st ≠ .modified → inSram l.addr = true → Holds s l)
    (hs : Coherent s.mem → ∀ d : Fin 6, d ≠ c → ∀ x ∈ s.lines d, x.addr = l.addr → x.owned = false)
    (ho : l.owned = true → inSram l.addr = true ∧ (∀ d : Fin 6, d ≠ c → ∀ x ∈ s.lines d, x.addr ≠ l.addr) ∧
      ∀ d : Fin 6, ∀ x ∈ s.ilines d, x.addr ≠ l.addr) : Evolves s0 (installLine c l s) := by
  unfold installLine
  dsimp only
  have h1 : Evolves s0 (s.setLines c (putLine (waysOf c) l (s.lines c)).1) := ?_
  · cases he : (putLine (waysOf c) l (s.lines c)).2 with
    | none => exact h1
    | some v =>
      refine evictLine_ev c v h1 (fun i hm hva => ?_)
      have hc := (h.inv i).caches
      obtain ⟨e1, e2, e3⟩ := putLine_evicted (hc.wf c) ha he
      have ho : v.owned = true := by simp [Line.owned, hm]
      obtain ⟨-, h64, h3, -⟩ := hc.line e1 ho
      intro d x hx hxm _ z hz1 hz2
      have hx64 := (((h1.inv i).caches.wf d).2 x hx).2
      have hne : x.addr ≠ v.addr := by
        rw [setLines_lines] at hx
        split_ifs at hx with hdc
        · exact e3 x hx
        · exact h3 d hdc x hx
      rw [((hc.wf c).2 v e1).1] at hz2
      omega
  refine addLine_ev c _ l h (fun x hx => mem_putLine ha hx) hs (fun o => ?_) (fun i hw => linesWf_putLine hw ha (hd i))
    (fun _ hc y hy hm hya => ?_)
  swap
  · rcases mem_putLine_data hy with ⟨a1, a2, a3⟩ | hy
    · intro i hi
      rw [a3, a1]
      exact hh (by rwa [a2] at hm) (by rwa [a1] at hya) i hi
    · exact hc.clean hy hm hya
  obtain ⟨h1, h2, h3⟩ := ho o
  exact ⟨h1, ha, h2, h3⟩

theorem flushD_ev {s0 s : State} (c : Fin 6) (h : Evolves s0 s) : Evolves s0 (flushD c s) := by
  unfold flushD
  have hf : ∀ (ls : List Line) (u : State), Evolves s0 u → (∀ l ∈ ls, l ∈ u.lines c) → Evolves s0
      (forEach ls (evictLine c) u) := by
    intro ls
    induction ls with
    | nil => intro u hu _; exact hu
    | cons l ls ih =>
      intro u hu hl
      refine ih (evictLine c l u) (evictLine_ev c l hu (fun i hm _ => apart_of_modified (hu.inv i).caches (hl l (by simp)) hm)) (fun x hx => ?_)
      rw [lines_eq (evictLine_sameLines c l u)]
      exact hl x (by simp [hx])
  exact State.setLines_ev c [] (hf _ s h (fun _ hl => hl)) (by simp) (fun _ => ⟨List.nodup_nil, by simp⟩) (by simp)

theorem invI_ev {s0 s : State} (c : Fin 6) (h : Evolves s0 s) : Evolves s0 (invI c s) := State.setIlines_ev c [] h (by simp)

theorem flushAllCaches_ev {s0 s : State} (h : Evolves s0 s) : Evolves s0 (flushAllCaches s) :=
  forEach_ev h (fun c _ hu => invI_ev c (flushD_ev c hu))

theorem flashErr_ev {s0 s : State} (a status : Nat) (h : Evolves s0 s) : Evolves s0 (flashErr a status s) := by
  unfold flashErr
  with_reducible repeat' (first
    | assumption | apply State.setRbit_ev | apply State.setReg_ev | apply State.setFld_ev | split)

theorem readFlashFor_ev {s0 s : State} (x a n : Nat) (h : Evolves s0 s) : Evolves s0 (readFlashFor x a n s).2 := by
  unfold readFlashFor
  with_reducible repeat' (first | assumption | apply flashErr_ev | dsimp only | split)

theorem readFlash_ev {s0 s : State} (a n : Nat) (h : Evolves s0 s) : Evolves s0 (readFlash a n s).2 := by
  unfold readFlash
  with_reducible repeat' (first | assumption | apply readFlashFor_ev)

theorem readOutbound_ev {s0 s : State} (a n : Nat) (h : Evolves s0 s) : Evolves s0 (readOutbound a n s).2 := by
  unfold readOutbound
  with_reducible repeat' (first
    | assumption | dsimp only | split | fail_if_no_progress (refine Evolves.rest ?_ rfl rfl rfl rfl rfl rfl))

theorem writeOutbound_ev {s0 s : State} (a : Nat) (bs : Bytes) (h : Evolves s0 s) :
    Evolves s0 (writeOutbound a bs s).2 := by
  unfold writeOutbound
  split
  · exact h
  · exact h.updHost (fun hw => asorted_foldl _ _ _ _ hw) rfl rfl rfl rfl rfl rfl rfl rfl rfl

theorem readSram_ev {s0 s : State} (src a n : Nat) (h : Evolves s0 s) : Evolves s0 (readSram src a n s).2 := by
  unfold readSram
  dsimp only
  have hr := correct_ev a n (forEach_ev (xs := linesOf a n) (f := fun l t => recallLine l none t) h
    (fun l u hu => recallLine_ev l none hu))
  generalize correct a n _ = u at hr ⊢
  split
  · exact recordUe_ev _ _ hr
  · exact hr

/-- What is left in the data caches once lines have been invalidated. -/

theorem invalidated_lines (as : List Nat) (s : State) (d : Fin 6) :
    ∀ x ∈ (forEach as (fun l t => invalidateLine l none t) s).lines d, x ∈ s.lines d ∧ ∀ m ∈ as, x.addr ≠ lineOf m := by
  unfold forEach
  induction as generalizing s with
  | nil => exact fun x hx => ⟨hx, by simp⟩
  | cons m as ih =>
    intro x hx
    rw [List.foldl_cons] at hx
    obtain ⟨h1, h2⟩ := ih (invalidateLine m none s) x hx
    rw [invalidateLine_lines, if_neg (by simp)] at h1
    obtain ⟨h3, h4⟩ := mem_dropLine.1 h1
    refine ⟨h3, fun k hk => ?_⟩
    rcases List.mem_cons.1 hk with rfl | hk
    · exact h4
    · exact h2 k hk

/-- A line that overlaps a range is one of the range's lines. -/

theorem mem_linesOf {a n x z : Nat} (hx : x % 64 = 0) (h1 : a ≤ z) (h2 : z < a + n) (h3 : x ≤ z) (h4 : z < x + 64) :
    x ∈ linesOf a n := by
  unfold linesOf
  rw [if_neg (by omega), List.mem_map]
  refine ⟨x / 64 - a / 64, List.mem_range.2 (by omega), ?_⟩
  unfold lineOf
  omega

theorem writeSram_ev {s0 s : State} (src a : Nat) (bs : Bytes) (h : Evolves s0 s) : Evolves s0 (writeSram src a bs s).2 := by
  unfold writeSram
  have h1 := forEach_ev (xs := linesOf a bs.length) (f := fun l t => invalidateLine l none t) h
    (fun l u hu => invalidateLine_ev l none hu)
  dsimp only
  split
  · exact recordUe_ev _ _ h1
  · refine mergeSram_ev a bs (mergeRead_ev _ _ _ h1) (fun i c l hl hm ha z hz1 hz2 => ?_)
    rw [lines_eq (mergeRead_same _ _ _ _).1] at hl
    obtain ⟨-, h3⟩ := invalidated_lines _ s c l hl
    have h64 := (((h1.inv i).caches.wf c).2 l hl).2
    by_contra hn
    have := h3 l.addr (mem_linesOf h64 hz1 hz2 (by omega) (by omega))
    rw [lineOf_of_mod h64] at this
    exact this rfl

theorem physRead_ev {s0 s : State} (src a n : Nat) (h : Evolves s0 s) : Evolves s0 (physRead src a n s).2 := by
  unfold physRead
  with_reducible repeat' (first | assumption | apply readSram_ev | apply readFlash_ev | apply readOutbound_ev | split)

theorem physWrite_ev {s0 s : State} (src a : Nat) (bs : Bytes) (h : Evolves s0 s) : Evolves s0 (physWrite src a bs s).2 := by
  unfold physWrite
  with_reducible repeat' (first | assumption | apply writeSram_ev | apply writeOutbound_ev | split)

theorem xlateFault_ev {s0 s : State} (ctx va engine reason : Nat) (write : Bool) (h : Evolves s0 s) :
    Evolves s0 (xlateFault ctx va engine reason write s) := by
  unfold xlateFault
  with_reducible repeat' (first | assumption | apply State.setRbit_ev | apply State.setReg_ev | split)

theorem tableRead_ev {s0 s : State} (engine a : Nat) (h : Evolves s0 s) : Evolves s0 (tableRead engine a s).2 := by
  unfold tableRead
  split
  · exact h
  · split <;> exact Evolves.pair (readSram_ev _ a 4 h) ‹_›

theorem walk_ev {s0 s : State} (engine ctx va : Nat) (h : Evolves s0 s) : Evolves s0 (walk engine ctx va s).2 := by
  unfold walk
  dsimp only
  split
  · exact h
  · split
    · exact Evolves.pair (tableRead_ev _ _ h) ‹_›
    · rename_i h1
      have h2 := Evolves.pair (tableRead_ev _ _ h) h1
      split
      · exact h2
      · split
        · exact Evolves.pair (tableRead_ev _ _ h2) ‹_›
        · rename_i h3
          have h4 := Evolves.pair (tableRead_ev _ _ h2) h3
          split
          · exact h4
          · with_reducible refine Evolves.rest h4 rfl rfl rfl rfl rfl rfl

theorem translate_ev {s0 s : State} (engine ctx va : Nat) (write : Bool) (h : Evolves s0 s) :
    Evolves s0 (translate engine ctx va write s).2 := by
  unfold translate
  dsimp only
  split
  · exact xlateFault_ev _ _ _ _ _ h
  · split
    · exact xlateFault_ev _ _ _ _ _ h
    · split
      · exact xlateFault_ev _ _ _ _ _ (Evolves.pair (walk_ev _ _ _ h) ‹_›)
      · rename_i hw
        have h2 := Evolves.pair (walk_ev _ _ _ h) hw
        split
        · exact xlateFault_ev _ _ _ _ _ h2
        · split
          · exact h2
          · exact xlateFault_ev _ _ _ _ _ h2

theorem foldl_ev {α β : Type} {s0 : State} (xs : List α) (f : β × State → α → β × State)
    (hf : ∀ p a, Evolves s0 p.2 → Evolves s0 (f p a).2) (p : β × State) (h : Evolves s0 p.2) :
    Evolves s0 (xs.foldl f p).2 := by
  induction xs generalizing p with
  | nil => exact h
  | cons x xs ih => exact ih _ (hf p x h)

theorem foldl1_ev {α β γ : Type} {s0 : State} (xs : List α) (f : (β × State) × γ → α → (β × State) × γ)
    (hf : ∀ p a, Evolves s0 p.1.2 → Evolves s0 (f p a).1.2) (p : (β × State) × γ) (h : Evolves s0 p.1.2) :
    Evolves s0 (xs.foldl f p).1.2 := by
  induction xs generalizing p with
  | nil => exact h
  | cons x xs ih => exact ih _ (hf p x h)

theorem devRead_ev {s0 s : State} (engine ctx va n : Nat) (h : Evolves s0 s) : Evolves s0 (devRead engine ctx va n s).2 := by
  unfold devRead
  split
  · split
    · exact physRead_ev _ _ _ h
    · exact h
  · refine foldl_ev _ _ (fun p a hp => ?_) _ h
    split
    · split
      · exact Evolves.pair (translate_ev _ _ _ _ hp) ‹_›
      · rename_i ht
        have h2 := Evolves.pair (translate_ev _ _ _ _ hp) ht
        split
        · exact Evolves.pair (physRead_ev _ _ _ h2) ‹_›
        · exact physRead_ev _ _ _ h2
    · exact hp

theorem devWrite_ev {s0 s : State} (engine ctx va : Nat) (bs : Bytes) (h : Evolves s0 s) :
    Evolves s0 (devWrite engine ctx va bs s).2 := by
  unfold devWrite
  split
  · split
    · exact physWrite_ev _ _ _ h
    · exact h
  · refine foldl1_ev _ _ (fun p a hp => ?_) _ h
    split
    · rename_i he
      have h1 := Evolves.pair hp he
      split
      · exact Evolves.pair (translate_ev _ _ _ _ h1) ‹_›
      · rename_i ht
        exact physWrite_ev _ _ _ (Evolves.pair (translate_ev _ _ _ _ h1) ht)
    · exact hp

theorem readBytes_length (s : State) (a n : Nat) : (readBytes s a n).length = n := by simp [readBytes]

theorem holds_readBytes (s : State) (a w : Nat) (st : LineState)
    (b f : Bool) : Holds s ⟨a, w, st, readBytes s a 64, b, f⟩ := fun i hi => by
  simp [readBytes, hi]

theorem readFlashFor_length {x a n : Nat} {s t : State} {bs : Bytes} (h : readFlashFor x a n s =
    (.ok bs, t)) : bs.length = n := by
  unfold readFlashFor at h
  repeat' split at h
  all_goals first
    | (cases h; exact readBytes_length _ _ _)
    | cases h

theorem unowned {s : State} {a : Nat} (ha : ¬inSram a = true) (hc : Coherent s.mem) (d : Fin 6) :
    ∀ x ∈ s.lines d, x.addr = lineOf a → x.owned = false := fun x hx he => by
  by_contra ho
  have := (hc.line hx (by simpa using ho)).1
  rw [he, inSram_lineOf] at this
  exact ha this

theorem recalled_unowned {a : Nat} {ls : List Line} : ∀ x ∈ recalled a ls, x.addr = lineOf a → x.owned = false := by
  intro x hx he
  obtain ⟨y, hy, rfl⟩ := List.mem_map.1 hx
  by_cases hya : y.addr = lineOf a
  · simp [hya, Line.owned]
  · simp [hya] at he

theorem correct_lines (a n : Nat) (s : State) (d : Fin 6) : (correct a n s).lines d = s.lines d := lines_eq (correct_same a n s).1 d

theorem correct_ilines (a n : Nat) (s : State) (d : Fin 6) : (correct a n s).ilines d = s.ilines d :=
  ilines_eq (correct_same a n s).1 d

theorem fillLine_ev {s0 s : State} (c : Fin 6) (a : Nat) (h : Evolves s0 s) : Evolves s0 (fillLine c a s).2 := by
  unfold fillLine
  split
  · rename_i ha
    have hr := correct_ev (lineOf a) 64 (recallLine_ev a (some c) h)
    have hl := correct_lines (lineOf a) 64 (recallLine a (some c) s)
    dsimp only
    generalize correct (lineOf a) 64 (recallLine a (some c) s) = u at hr hl ⊢
    split
    · exact recordUe_ev _ _ hr
    · refine installLine_ev c _ hr (lineOf_mod a) (fun _ => readBytes_length _ _ _) (fun _ _ => holds_readBytes _ _ _ _ _ _)
        (fun _ d hd x hx he => ?_) (fun ho => ?_)
      · rw [hl, recallLine_lines, if_neg (by simpa using fun e => hd e.symm)] at hx
        exact recalled_unowned x hx he
      · have hne : ¬u.heldElsewhere c a = true := by
          intro hh
          simp [hh, Line.owned] at ho
        simp only [State.heldElsewhere, List.any_eq_true, not_exists, not_and, Bool.or_eq_true, not_or, Bool.and_eq_true,
          Bool.not_eq_true', beq_eq_false_iff_ne, Option.not_isSome_iff_eq_none] at hne
        have hall : ∀ d : Fin 6, d ∈ allCores := by decide
        refine ⟨(inSram_lineOf a).trans ha, fun d hd x hx => ?_, fun d x hx => ?_⟩
        · exact findLine_none ((hne d (hall d)).1 hd) x hx
        · exact findLine_none (hne d (hall d)).2 x hx
  · rename_i ha
    split
    · split
      · rename_i he
        refine installLine_ev c _ (Evolves.pair (readFlashFor_ev a _ _ h) he) (lineOf_mod a) (fun _ => readFlashFor_length he)
          (fun _ hs => absurd hs (by rw [inSram_lineOf]; exact ha))
          (fun hc d _ x hx e => unowned ha hc d x hx e) (fun ho => ?_)
        simp [Line.owned] at ho
      · exact readFlashFor_ev a _ _ h
    · refine installLine_ev c _ h (lineOf_mod a) (fun _ => by simp) (fun _ hs => absurd hs (by rw [inSram_lineOf]; exact ha))
        (fun hc d _ x hx e => unowned ha hc d x hx e) (fun ho => ?_)
      simp [Line.owned] at ho

theorem hitLine_ev {s0 s : State} (c : Fin 6) (a : Nat) (l : Line) (ls : List Line) (put : List Line → State → State)
    (h : Evolves s0 s) (hp : ∀ u, Evolves s0 u → u.mem = s.mem → Evolves s0 (put ({ l with flip := false } :: dropLine ls a) u)) :
    Evolves s0 (hitLine c a l ls put s).2 := by
  unfold hitLine
  split
  · exact recordUe_ev _ _ h
  · exact hp _ (when_ev h (fun _ hu => recordCe_ev hu)) (whenCe_mem _ _)

theorem readKilnSram_ev {s0 s : State} (a n : Nat) (h : Evolves s0 s) : Evolves s0 (readKilnSram a n s).2 := by
  unfold readKilnSram
  split
  · exact h
  · exact forEach_ev h (fun g _ hu => dropFlip_ev g hu)

theorem touchLine {ls : List Line} {a : Nat} {l : Line} (h : findLine ls a = some l) :
    ∀ x ∈ ({ l with flip := false } : Line) :: dropLine ls a, ∃ y ∈ ls, y.addr = x.addr ∧ (x.owned = true → y.owned = true) :=
  fun x hx => by
    rcases List.mem_cons.1 hx with rfl | hx
    · exact ⟨l, (findLine_some h).1, rfl, id⟩
    · exact ⟨x, (mem_dropLine.1 hx).1, rfl, id⟩

/-- A line moved to the front. -/

theorem linesWf_touch {ls : List Line} {a : Nat} {l : Line} (h : linesWf ls) (hf : findLine ls a = some l) :
    linesWf (({ l with flip := false } : Line) :: dropLine ls a) := by
  obtain ⟨hm, ha⟩ := findLine_some hf
  exact linesWf_cons (linesWf_filter _ h) (fun x hx => by rw [show ({ l with flip := false } : Line).addr = lineOf a from ha]; exact
    (mem_dropLine.1 hx).2) (h.2 l hm).1 (h.2 l hm).2

theorem lines_of_mem {s t : State} (h : t.mem = s.mem) (c : Fin 6) : t.lines c = s.lines c := by unfold State.lines; rw [h]

theorem ilines_of_mem {s t : State} (h : t.mem = s.mem) (c : Fin 6) : t.ilines c = s.ilines c := by unfold State.ilines; rw [h]

theorem readByte_of_mem {s t : State} (h : t.mem = s.mem) (x : Nat) : readByte t x = readByte s x := by unfold readByte; rw [h]

/-- A data-cache line read by its core. -/

theorem hitData_ev {s0 s : State} (c : Fin 6) (a : Nat) (l : Line) (h : Evolves s0 s) (hf : findLine (s.lines c) a = some l) :
    Evolves s0 (hitLine c a l (s.lines c) (fun ls s => s.setLines c ls) s).2 := by
  refine hitLine_ev c a l _ _ h (fun u hu hm => ?_)
  rw [← lines_of_mem hm c] at hf ⊢
  exact State.setLines_ev c _ hu (touchLine hf) (fun hw => linesWf_touch hw hf)
    (fun _ hc y hy => (List.mem_cons.1 hy).elim (fun e => by subst e; exact hc.clean (l := l) (findLine_some hf).1)
      (fun hy => hc.clean (mem_dropLine.1 hy).1))

theorem coreRead_ev {s0 s : State} (c : Fin 6) (a n : Nat) (h : Evolves s0 s) : Evolves s0 (coreRead c a n s).2 := by
  unfold coreRead
  split
  · exact readKilnSram_ev _ _ h
  · split
    · exact h
    · split
      · dsimp only
        have hr : Evolves s0 (match findLine (s.lines c) a with
            | some _ => ((Ans.ok [] : Ans), s)
            | none => fillLine c a s).2 := by
          split
          · exact h
          · exact fillLine_ev c a h
        split
        · rename_i he
          have h2 := Evolves.pair hr he
          split
          · exact h2
          · rename_i hf
            split
            · rename_i hh
              exact Evolves.pair (hitData_ev c a _ h2 hf) hh
            · exact hitData_ev c a _ h2 hf
        · exact hr
      · split
        · exact readSram_ev _ _ _ h
        · split
          · exact readFlash_ev _ _ h
          · exact h

theorem dropCopies_ev {s0 s : State} (a : Nat) (keep : Fin 6) (h : Evolves s0 s) : Evolves s0 (dropCopies a keep s) := by
  refine forEach_ev (dropIlines_ev a h) (fun c u hu => ?_)
  split
  · exact hu
  · exact State.setLines_ev c _ hu (fun l hl => ⟨l, (mem_dropLine.1 hl).1, rfl, id⟩) (linesWf_filter _)
      (fun _ hc y hy => hc.clean (mem_dropLine.1 hy).1)

theorem patch_length {data bs : Bytes} {off : Nat} (hd : data.length = 64) (ho : off + bs.length ≤ 64) :
    (patch data off bs).length = 64 := by
  simp only [patch, List.length_append, List.length_take, List.length_drop, hd]
  omega

theorem sub_lineOf (a : Nat) : a - lineOf a = a % 64 := by unfold lineOf; omega

/-- A line that no cache but one core's data cache holds is stored to there. -/

theorem putModified_ev {s0 s : State} (c : Fin 6) (a : Nat) (bs : Bytes) (l : Line) (h : Evolves s0 s)
    (hs : inSram a = true) (hb : a % 64 + bs.length ≤ 64) (hf : findLine (s.lines c) a = some l)
    (hd : ∀ d : Fin 6, d ≠ c → ∀ x ∈ s.lines d, x.addr ≠ lineOf a) (hil : ∀ d : Fin 6, ∀ x ∈ s.ilines d, x.addr ≠ lineOf a) :
    Evolves s0 (s.setLines c ({ l with st := .modified, data := patch l.data (a - l.addr) bs } :: dropLine (s.lines c) a)) := by
  obtain ⟨hm, hla⟩ := findLine_some hf
  refine addLine_ev c _ { l with st := .modified, data := patch l.data (a - l.addr) bs } h (fun x hx => ?_)
    (fun _ d he x hx hxa => absurd (hxa.trans hla) (hd d he x hx)) (fun _ => ?_) (fun _ hw => ?_)
    (fun _ hc y hy hm hya => (List.mem_cons.1 hy).elim (fun e => absurd (by rw [e]) hm) (fun hy => hc.clean
        (mem_dropLine.1 hy).1 hm hya))
  · rcases List.mem_cons.1 hx with rfl | hx
    · exact .inl ⟨rfl, rfl⟩
    · exact .inr ⟨(mem_dropLine.1 hx).1, fun e => (mem_dropLine.1 hx).2 (e.trans hla)⟩
  · refine ⟨?_, ?_, fun d he x hx hxa => hd d he x hx (hxa.trans hla), fun d x hx hxa => hil d x hx (hxa.trans hla)⟩
    · show inSram l.addr = true
      rw [hla, inSram_lineOf, hs]
    · show l.addr % 64 = 0
      rw [hla, lineOf_mod]
  · refine linesWf_cons (linesWf_filter _ hw) (fun x hx => by rw [show
      ({ l with st := .modified, data := patch l.data (a - l.addr) bs } : Line).addr = lineOf a from hla]; exact
      (mem_dropLine.1 hx).2)
      (patch_length ?_ ?_) (hw.2 l hm).2
    · exact (hw.2 l hm).1
    · rw [hla, sub_lineOf]; exact hb

theorem dropCopies_others (a : Nat) (c : Fin 6) (s : State) :
    (∀ d : Fin 6, d ≠ c → ∀ x ∈ (dropCopies a c s).lines d, x.addr ≠ lineOf a) ∧
    ∀ d : Fin 6, ∀ x ∈ (dropCopies a c s).ilines d, x.addr ≠ lineOf a := by
  refine ⟨fun d hd x hx => ?_, fun d x hx => ?_⟩
  · rw [dropCopies_lines, if_neg hd] at hx
    exact (mem_dropLine.1 hx).2
  · rw [dropCopies_ilines] at hx
    exact (mem_dropLine.1 hx).2

/-- A line that no other cache holds, brought in to be stored to. -/

theorem freshModified_ev {s0 s : State} (c : Fin 6) (a : Nat) (bs data : Bytes) (h : Evolves s0 s)
    (hs : inSram a = true) (hb : a % 64 + bs.length ≤ 64) (hdl : Inv s0 → data.length = 64)
    (hd : ∀ d : Fin 6, d ≠ c → ∀ x ∈ s.lines d, x.addr ≠ lineOf a) (hil : ∀ d : Fin 6, ∀ x ∈ s.ilines d, x.addr ≠ lineOf a) :
    Evolves s0 (installLine c ⟨lineOf a, 0, .modified, patch data (a - lineOf a) bs, false, false⟩ s) := by
  exact installLine_ev c _ h (lineOf_mod a) (fun i => patch_length (hdl i) (by rw [sub_lineOf]; exact hb))
    (fun hm => absurd rfl hm) (fun _ d he x hx hxa => absurd hxa (hd d he x hx))
    (fun _ => ⟨(inSram_lineOf a).trans hs, hd, hil⟩)

theorem storeLine_ev {s0 s : State} (c : Fin 6) (a : Nat) (bs : Bytes) (h : Evolves s0 s) (hs : inSram a = true)
    (hb : a % 64 + bs.length ≤ 64) : Evolves s0 (storeLine c a bs s).2 := by
  have hd := dropCopies_ev a c h
  obtain ⟨h1, h2⟩ := dropCopies_others a c s
  unfold storeLine
  dsimp only
  split
  · rename_i l hf
    have hf' : findLine ((dropCopies a c s).lines c) a = some l := by rw [dropCopies_lines, if_pos rfl]; exact hf
    exact putModified_ev c a bs l hd hs hb hf' h1 h2
  · rename_i o _ ho
    obtain ⟨d, -, hm, -⟩ := ownerOf_some ho
    have hm' := whenCe_mem o.flip (dropCopies a c s)
    exact freshModified_ev c a bs o.data (when_ev hd (fun _ hu => recordCe_ev hu)) hs hb
      (fun i => (((h.inv i).caches.wf d).2 o hm).1)
      (fun d hdc x hx => h1 d hdc x (by rwa [lines_of_mem hm'] at hx)) (fun d x hx => h2 d x (by rwa [ilines_of_mem hm'] at hx))
  · have hc := correct_ev (lineOf a) 64 hd
    have hl := correct_lines (lineOf a) 64 (dropCopies a c s)
    have hi := correct_ilines (lineOf a) 64 (dropCopies a c s)
    generalize correct (lineOf a) 64 (dropCopies a c s) = u at hc hl hi ⊢
    split
    · exact writeSram_ev _ _ _ hc
    · exact freshModified_ev c a bs _ hc hs hb (fun _ => readBytes_length _ _ _) (fun d hdc x hx => h1 d hdc x (by rwa [hl] at hx))
        (fun d x hx => h2 d x (by rwa [hi] at hx))

theorem coreWrite_ev {s0 s : State} (c : Fin 6) (a : Nat) (bs : Bytes) (h : Evolves s0 s)
    (ha : inSram a = true ∨ inKilnSram a = true) (hb : a % 64 + bs.length ≤ 64) : Evolves s0 (coreWrite c a bs s).2 := by
  unfold coreWrite
  split
  · rename_i hk
    refine mergeSram_ev _ _ h (fun _ d l _ _ hl x h1 h2 => ?_)
    simp only [inKilnSram, inSram, inRange, Bool.and_eq_true, decide_eq_true_eq] at hk hl
    omega
  · rename_i hk
    have hsram : inSram a = true := ha.resolve_right hk
    split
    · exact h
    · split
      · split
        · exact recordUe_ev _ _ (invalidateLine_ev a (some c) h)
        · exact storeLine_ev c a bs h hsram hb
      · exact writeSram_ev _ _ _ h

theorem invalidateSector_ev {s0 s : State} (sec : Nat) (h : Evolves s0 s) : Evolves s0 (invalidateSector sec s) := by
  unfold invalidateSector
  refine forEach_ev h (fun c u hu => ?_)
  refine State.setIlines_ev c _ (State.setLines_ev c _ hu (fun l hl => ⟨l, List.mem_of_mem_filter hl, rfl, id⟩)
      (linesWf_filter _)
    (fun _ hc y hy => hc.clean (List.mem_of_mem_filter hy)))
    (fun l hl => ?_)
  exact ⟨l, List.mem_of_mem_filter hl, rfl⟩

theorem putIline {ways : Nat} {l x : Line} {ls : List Line} (ha : l.addr % 64 = 0) (h : x ∈ (putLine ways l ls).1) :
    x.addr = l.addr ∨ ∃ y ∈ ls, y.addr = x.addr :=
  (mem_putLine ha h).imp And.left (fun hx => ⟨x, hx.1, rfl⟩)

theorem fetchLine_ev {s0 s : State} (c : Fin 6) (a : Nat) (h : Evolves s0 s) : Evolves s0 (fetchLine c a s).2 := by
  unfold fetchLine
  dsimp only
  split
  · have hr := correct_ev (lineOf a) 64 (recallLine_ev a none h)
    have hl := correct_lines (lineOf a) 64 (recallLine a none s)
    generalize correct (lineOf a) 64 (recallLine a none s) = u at hr hl ⊢
    split
    · exact recordUe_ev _ _ hr
    · refine addIline_ev c _ (lineOf a) hr (fun x hx => putIline (lineOf_mod a) hx) (fun _ d x hx he => ?_)
      rw [hl, recallLine_lines, if_neg (by simp)] at hx
      exact recalled_unowned x hx he
  · rename_i ha
    split
    · split
      · rename_i he
        exact addIline_ev c _ (lineOf a) (Evolves.pair (readFlashFor_ev a _ _ h) he) (fun x hx => putIline (lineOf_mod a) hx)
          (fun hc d x hx e => unowned ha hc d x hx e)
      · exact readFlashFor_ev a _ _ h
    · exact addIline_ev c _ (lineOf a) h (fun x hx => putIline (lineOf_mod a) hx) (fun hc d x hx e => unowned ha hc d x hx e)

theorem coreFetch_ev {s0 s : State} (c : Fin 6) (a : Nat) (h : Evolves s0 s) : Evolves s0 (coreFetch c a s).2 := by
  unfold coreFetch
  split
  · exact readKilnSram_ev _ _ h
  · split
    · exact h
    · split
      · split
        · rename_i hf
          refine hitLine_ev c a _ _ _ h (fun u hu hm => ?_)
          rw [← ilines_of_mem hm c] at hf ⊢
          refine State.setIlines_ev c _ hu (fun x hx => ?_)
          obtain ⟨y, hy, e, -⟩ := touchLine hf x hx
          exact ⟨y, hy, e⟩
        · exact fetchLine_ev c a h
      · split
        · exact readSram_ev _ _ _ h
        · split
          · exact readFlash_ev _ _ h
          · exact h

end Sys2Proof.Machine
end

