-- ==== Sys2Proof/Laws/Memory.lean ====
section
/-! SUPPORT. Memory: a byte read back is the byte written, and no memory operation changes anything but memory and the record of its errors. -/
namespace Sys2Proof.Machine

/-! ### What a memory operation leaves alone -/

/-- A register reads back, and the others stay. -/
theorem State.reg_setReg (s : State) (k j : Nat) (w : Word) : (s.setReg k w).reg j = if j = k then w else s.reg j :=
  agetD_asetD (regReset k) s.regs k j w (regReset j) (fun e => by rw [e])

@[simp] theorem State.reg_setReg_self (s : State) (k : Nat) (w : Word) : (s.setReg k w).reg k = w := by simp [State.reg_setReg]

theorem MemOnly.of_mem {s t : State} (h : t = { s with mem := t.mem })
    (k : t.mem.clearing = s.mem.clearing ∧ t.mem.tlb = s.mem.tlb ∧ t.mem.host = s.mem.host) : MemOnly s t := by
  rw [h]
  exact ⟨rfl, k, fun _ _ => rfl, fun c => ⟨0, by simp⟩⟩

theorem MemOnly.refl (s : State) : MemOnly s s := MemOnly.of_mem rfl ⟨rfl, rfl, rfl⟩

theorem MemOnly.trans {s t u : State} (h : MemOnly s t) (h' : MemOnly t u) : MemOnly s u := by
  obtain ⟨a1, ⟨x1, x2, x3⟩, a2, a3⟩ := h
  obtain ⟨b1, ⟨y1, y2, y3⟩, b2, b3⟩ := h'
  refine ⟨?_, ⟨y1.trans x1, y2.trans x2, y3.trans x3⟩, fun k hk => (b2 k hk).trans (a2 k hk), fun c => ?_⟩
  · rw [b1, a1]
  · obtain ⟨e, he⟩ := a3 c
    obtain ⟨f, hf⟩ := b3 c
    exact ⟨e ||| f, by rw [hf, he]; simp [BitVec.or_assoc]⟩

theorem forEach_memOnly {α : Type} (xs : List α) (f : α → State → State) (hf : ∀ a s, MemOnly s (f a s)) (s : State) :
    MemOnly s (forEach xs f s) := by
  unfold forEach
  induction xs generalizing s with
  | nil => exact MemOnly.refl s
  | cons x xs ih => exact (hf x s).trans (ih (f x s))

theorem when_memOnly (p : Bool) (f : State → State) (hf : ∀ s, MemOnly s (f s)) (s : State) : MemOnly s (when p f s) := by
  unfold when
  split
  · exact hf s
  · exact MemOnly.refl s

theorem setReg_memOnly (s : State) (k : Nat) (w : Word) (hk : k ∈ eccKeys) : MemOnly s (s.setReg k w) :=
  ⟨rfl, ⟨rfl, rfl, rfl⟩, fun j hj => by rw [State.reg_setReg, if_neg (show ¬ j = k from fun e => hj (by rw [e]; exact hk))], fun c => ⟨0, by simp [State.setReg]⟩⟩

theorem setE_memOnly (c : Fin 6) (m : BitVec 16) (s : State) : MemOnly s (s.setE c m) := by
  refine ⟨rfl, ⟨rfl, rfl, rfl⟩, fun _ _ => rfl, fun d => ?_⟩
  unfold State.setE State.onCore
  rw [State.get_setCore]
  split
  · rename_i h; subst h; exact ⟨_, rfl⟩
  · exact ⟨0, by simp⟩

theorem routeE_memOnly (route b : Nat) (s : State) : MemOnly s (s.routeE route b) :=
  forEach_memOnly _ _ (fun c t => setE_memOnly c _ t) s

theorem recordUe_memOnly (a src : Nat) (s : State) : MemOnly s (recordUe a src s) := by
  unfold recordUe eccEvent
  refine MemOnly.trans ?_ (routeE_memOnly _ _ _)
  split
  · exact setReg_memOnly _ _ _ (by decide)
  · exact ((setReg_memOnly s rSYS_ECC_ADDR _ (by decide)).trans (setReg_memOnly _ rSYS_ECC_STAT _ (by decide))).trans
      (setReg_memOnly _ rSYS_ECC_STAT _ (by decide))

theorem recordCe_memOnly (s : State) : MemOnly s (recordCe s) := by
  unfold recordCe
  exact ((setReg_memOnly s rSYS_ECC_STAT _ (by decide)).trans (setReg_memOnly _ rSYS_ECC_STAT _ (by decide))).trans
    (when_memOnly _ _ (fun s => routeE_memOnly _ _ s) _)

theorem writeBytes_memOnly (bs : Bytes) (a : Nat) (s : State) : MemOnly s (writeBytes a bs s) := by
  induction bs generalizing a s with
  | nil => exact MemOnly.refl s
  | cons b bs ih => exact (MemOnly.of_mem (t := writeByte a b s) rfl ⟨rfl, rfl, rfl⟩).trans (ih (a + 1) (writeByte a b s))

theorem setBad_memOnly (g : Nat) (s : State) : MemOnly s (setBad g s) := by
  unfold setBad
  split
  · exact MemOnly.refl s
  · exact MemOnly.of_mem rfl ⟨rfl, rfl, rfl⟩

theorem correct_memOnly (a n : Nat) (s : State) : MemOnly s (correct a n s) :=
  forEach_memOnly _ _ (fun g s => (MemOnly.of_mem (t := dropFlip g s) rfl ⟨rfl, rfl, rfl⟩).trans (recordCe_memOnly _)) s

theorem mergeRead_memOnly (src a n : Nat) (s : State) : MemOnly s (mergeRead src a n s) :=
  forEach_memOnly _ _ (fun g s => (correct_memOnly g 8 s).trans (when_memOnly _ _ (recordUe_memOnly g src) _)) s

theorem mergeSram_memOnly (a : Nat) (bs : Bytes) (s : State) : MemOnly s (mergeSram a bs s) :=
  (writeBytes_memOnly bs a s).trans (forEach_memOnly _ clearBad (fun _ _ => MemOnly.of_mem rfl ⟨rfl, rfl, rfl⟩) _)

theorem writeBack_memOnly (l : Line) (s : State) : MemOnly s (writeBack l s) := by
  unfold writeBack
  split
  · exact ((when_memOnly l.flip recordCe recordCe_memOnly s).trans (mergeSram_memOnly l.addr l.data _)).trans
      (when_memOnly _ _ (fun t => forEach_memOnly _ _ setBad_memOnly t) _)
  · exact MemOnly.refl s

theorem evictLine_memOnly (c : Fin 6) (l : Line) (s : State) : MemOnly s (evictLine c l s) :=
  (writeBack_memOnly l s).trans (when_memOnly _ _ (recordUe_memOnly _ _) _)

theorem setLines_memOnly (c : Fin 6) (ls : List Line) (s : State) : MemOnly s (s.setLines c ls) := MemOnly.of_mem rfl ⟨rfl, rfl, rfl⟩

theorem setIlines_memOnly (c : Fin 6) (ls : List Line) (s : State) : MemOnly s (s.setIlines c ls) := MemOnly.of_mem rfl ⟨rfl, rfl, rfl⟩

theorem recallLine_memOnly (a : Nat) (keep : Option (Fin 6)) (s : State) : MemOnly s (recallLine a keep s) := by
  refine forEach_memOnly _ _ (fun c s => ?_) s
  split
  · exact MemOnly.refl s
  · split
    · exact MemOnly.refl s
    · exact (writeBack_memOnly _ s).trans (setLines_memOnly _ _ _)

theorem invalidateLine_memOnly (a : Nat) (keep : Option (Fin 6)) (s : State) : MemOnly s (invalidateLine a keep s) := by
  refine (MemOnly.of_mem (t := dropIlines a s) rfl ⟨rfl, rfl, rfl⟩).trans (forEach_memOnly _ _ (fun c s => ?_) _)
  split
  · exact MemOnly.refl s
  · split
    · exact MemOnly.refl s
    · exact (writeBack_memOnly _ s).trans (setLines_memOnly _ _ _)

theorem dropCopies_memOnly (a : Nat) (keep : Fin 6) (s : State) : MemOnly s (dropCopies a keep s) := by
  refine (MemOnly.of_mem (t := dropIlines a s) rfl ⟨rfl, rfl, rfl⟩).trans (forEach_memOnly _ _ (fun c s => ?_) _)
  split
  · exact MemOnly.refl s
  · exact setLines_memOnly _ _ _

theorem installLine_memOnly (c : Fin 6) (l : Line) (s : State) : MemOnly s (installLine c l s) := by
  unfold installLine
  dsimp only
  refine (setLines_memOnly c (putLine (waysOf c) l (s.lines c)).1 s).trans ?_
  unfold withSome
  split
  · exact evictLine_memOnly _ _ _
  · exact MemOnly.refl _

theorem flushD_memOnly (c : Fin 6) (s : State) : MemOnly s (flushD c s) :=
  (forEach_memOnly _ _ (evictLine_memOnly c) s).trans (setLines_memOnly _ _ _)

/-- A store to shared SRAM past the caches. -/
theorem writeSram_memOnly (src a : Nat) (bs : Bytes) (s : State) : MemOnly s (writeSram src a bs s).2 := by
  have h := forEach_memOnly (linesOf a bs.length) (fun l t => invalidateLine l none t) (fun l t => invalidateLine_memOnly l none t) s
  unfold writeSram
  dsimp only
  split
  · exact h.trans (recordUe_memOnly _ _ _)
  · exact (h.trans (mergeRead_memOnly src a bs.length _)).trans (mergeSram_memOnly a bs _)

/-- A read of shared SRAM. -/
theorem readSram_memOnly (src a n : Nat) (s : State) : MemOnly s (readSram src a n s).2 := by
  have h := (forEach_memOnly (linesOf a n) (fun l t => recallLine l none t) (fun l t => recallLine_memOnly l none t) s).trans
    (correct_memOnly a n _)
  unfold readSram
  dsimp only
  split
  · exact h.trans (recordUe_memOnly _ _ _)
  · exact h

theorem readFlashFor_ok {x a n : Nat} {s t : State} {bs : Bytes} (h : readFlashFor x a n s = (.ok bs, t)) : t = s := by
  unfold readFlashFor at h
  repeat' split at h
  all_goals first | (cases h; rfl) | cases h

theorem readKilnSram_memOnly (a n : Nat) (s : State) : MemOnly s (readKilnSram a n s).2 := by
  unfold readKilnSram
  split
  · exact MemOnly.refl s
  · exact forEach_memOnly _ dropFlip (fun _ _ => MemOnly.of_mem rfl ⟨rfl, rfl, rfl⟩) s

theorem hitLine_memOnly (c : Fin 6) (a : Nat) (l : Line) (ls : List Line) (put : List Line → State → State)
    (hp : ∀ ls s, MemOnly s (put ls s)) (s : State) : MemOnly s (hitLine c a l ls put s).2 := by
  unfold hitLine
  split
  · exact recordUe_memOnly _ _ _
  · exact (when_memOnly _ _ recordCe_memOnly s).trans (hp _ _)

theorem fetchLine_memOnly {c : Fin 6} {a : Nat} {s t : State} {bs : Bytes} (h : fetchLine c a s = (.ok bs, t)) : MemOnly s t := by
  unfold fetchLine at h
  dsimp only at h
  split at h
  · split at h
    · cases h
    · cases h
      exact ((recallLine_memOnly a none s).trans (correct_memOnly _ _ _)).trans (setIlines_memOnly _ _ _)
  · split at h
    · split at h
      · rename_i he
        cases h
        rw [readFlashFor_ok he]
        exact setIlines_memOnly _ _ _
      · rename_i hne
        exact absurd h (hne _ _)
    · cases h
      exact setIlines_memOnly _ _ _

theorem snd_of_eq {α β : Type} {p : α × β} {a : α} {b : β} (h : p = (a, b)) {q : β → Prop} (hq : q p.2) : q b := by
  rw [h] at hq; exact hq

/-- A fetch that is answered changes memory and the record of its errors alone: no queue, no clock, no mode. -/
theorem coreFetch_memOnly {c : Fin 6} {a : Nat} {s t : State} {bs : Bytes} (h : coreFetch c a s = (.ok bs, t)) : MemOnly s t := by
  unfold coreFetch at h
  split at h
  · exact snd_of_eq h (readKilnSram_memOnly _ _ _)
  · split at h
    · cases h
    · split at h
      · split at h
        · exact snd_of_eq h (hitLine_memOnly _ _ _ _ _ (fun _ _ => setIlines_memOnly _ _ _) _)
        · exact fetchLine_memOnly h
      · split at h
        · exact snd_of_eq h (readSram_memOnly _ _ _ _)
        · split at h
          · rw [readFlashFor_ok h]
            exact MemOnly.refl _
          · cases h
            exact MemOnly.refl _

end Sys2Proof.Machine
end

