-- ==== Sys2Proof/Laws/Bytes.lean ====
section
/-! SUPPORT. Memory as the cores see it: what the caches do changes no byte, a load reads memory's bytes, and a store
changes its own bytes alone. -/
namespace Sys2Proof.Machine

theorem mem_allCores (c : Fin 6) : c ∈ allCores := by revert c; decide

theorem dirty_some {s : State} {a : Nat} {l : Line} (h : s.dirty a = some l) :
    ∃ c, l ∈ s.lines c ∧ l.st = .modified ∧ l.addr = lineOf a := by
  obtain ⟨c, -, hc⟩ := List.exists_of_findSome?_eq_some h
  have := List.find?_some hc
  simp only [Bool.and_eq_true, beq_iff_eq] at this
  exact ⟨c, List.mem_of_find?_eq_some hc, this⟩

theorem dirty_none {s : State} {a : Nat} (h : s.dirty a = none) (c : Fin 6) (l : Line) (hl : l ∈ s.lines c)
    (hm : l.st = .modified) : l.addr ≠ lineOf a := by
  have := List.findSome?_eq_none_iff.1 h c (mem_allCores c)
  rw [List.find?_eq_none] at this
  have := this l hl
  simpa [hm] using this

theorem owned_modified {l : Line} (h : l.st = .modified) : l.owned = true := by simp [Line.owned, h]

/-- Two caches, or two places of one, do not hold a line that one of them has MODIFIED. -/
theorem modified_unique {s : State} (hc : Coherent s.mem) {c d : Fin 6} {l x : Line} (hl : l ∈ s.lines c) (hm : l.st = .modified)
    (hx : x ∈ s.lines d) (ha : x.addr = l.addr) : x = l := by
  by_cases hd : d = c
  · subst hd
    exact List.inj_on_of_nodup_map (hc.wf d).1 hx hl ha
  · exact absurd ha ((hc.line hl (owned_modified hm)).2.2.1 d hd x hx)

theorem memByte_modified {s : State} (hc : Coherent s.mem) {c : Fin 6} {l : Line} {x : Nat} (hl : l ∈ s.lines c)
    (hm : l.st = .modified) (ha : l.addr = lineOf x) : memByte s x = l.data.getD (x - lineOf x) 0 := by
  unfold memByte
  cases h : s.dirty x with
  | none => exact absurd ha (dirty_none h c l hl hm)
  | some l' =>
    obtain ⟨d, h1, h2, h3⟩ := dirty_some h
    rw [modified_unique hc hl hm h1 (h3.trans ha.symm)]

theorem memByte_clean {s : State} {x : Nat} (h : ∀ c : Fin 6, ∀ l ∈ s.lines c, l.st = .modified → l.addr ≠ lineOf x) :
    memByte s x = readByte s x := by
  unfold memByte
  cases hd : s.dirty x with
  | none => rfl
  | some l =>
    obtain ⟨c, h1, h2, h3⟩ := dirty_some hd
    exact absurd h3 (h c l h1 h2)

theorem lineOf_add (x : Nat) : lineOf x + (x - lineOf x) = x := by unfold lineOf; omega

theorem sub_lineOf_lt (x : Nat) : x - lineOf x < 64 := by unfold lineOf; omega

/-- Every cached copy of a byte of shared SRAM is what memory reads as. -/
theorem cached_memByte {s : State} (hc : Coherent s.mem) {c : Fin 6} {l : Line} {x : Nat} (hl : l ∈ s.lines c)
    (ha : l.addr = lineOf x) (hs : inSram x = true) : l.data.getD (x - lineOf x) 0 = memByte s x := by
  by_cases hm : l.st = .modified
  · exact (memByte_modified hc hl hm ha).symm
  · rw [memByte_clean, hc.clean hl hm (by rw [ha, inSram_lineOf]; exact hs) _ (sub_lineOf_lt x), ha, lineOf_add]
    intro d y hy hym hya
    have := modified_unique hc hy hym hl (ha.trans hya.symm)
    exact hm (this ▸ hym)

/-- Nothing is MODIFIED outside shared SRAM. -/
theorem memByte_other {s : State} (hc : Coherent s.mem) {x : Nat} (hs : inSram x = false) : memByte s x = readByte s x :=
  memByte_clean fun c l hl hm ha => by
    have := (hc.line hl (owned_modified hm)).1
    rw [ha, inSram_lineOf, hs] at this
    cases this

theorem memByte_congr {s t : State} (hs : Coherent s.mem) (ht : Coherent t.mem) {x : Nat}
    (hm : ∀ l, l.st = .modified → l.addr = lineOf x → ((∃ c, l ∈ t.lines c) ↔ ∃ c, l ∈ s.lines c))
    (hr : readByte t x = readByte s x) : memByte t x = memByte s x := by
  cases hd : t.dirty x with
  | some l =>
    obtain ⟨c, h1, h2, h3⟩ := dirty_some hd
    obtain ⟨d, hdl⟩ := (hm l h2 h3).1 ⟨c, h1⟩
    rw [memByte_modified ht h1 h2 h3, memByte_modified hs hdl h2 h3]
  | none =>
    have hn : ∀ c : Fin 6, ∀ l ∈ s.lines c, l.st = .modified → l.addr ≠ lineOf x := fun c l hl hlm ha => by
      obtain ⟨d, hdl⟩ := (hm l hlm ha).2 ⟨c, hl⟩
      exact dirty_none hd d l hdl hlm ha
    rw [memByte_clean hn, memByte_clean (fun c l hl hlm => dirty_none hd c l hl hlm), hr]

theorem SameBytes.refl (s : State) : SameBytes s s := fun _ => rfl

theorem SameBytes.trans {s t u : State} (h : SameBytes s t) (h' : SameBytes t u) : SameBytes s u := fun x => (h' x).trans (h x)

/-- States that agree in their lines and cells. -/
theorem sameBytes_of_lines {s t : State} (hl : ∀ c, t.lines c = s.lines c) (hr : ∀ x, readByte t x = readByte s x) : SameBytes s t :=
  fun x => by unfold memByte State.dirty; simp only [hl, hr]

theorem sameBytes_of_mem {s t : State} (h : t.mem = s.mem) : SameBytes s t :=
  sameBytes_of_lines (fun c => by unfold State.lines; rw [h]) (fun x => by unfold readByte; rw [h])

theorem sameBytes_of_same {s t : State} (h : SameLines s t ∧ t.mem.cells = s.mem.cells) : SameBytes s t :=
  sameBytes_of_lines (lines_eq h.1) (readByte_of_cells h.2)

theorem lineOf_of_mem {a x : Nat} (ha : a % 64 = 0) : lineOf x = a ↔ a ≤ x ∧ x < a + 64 := by unfold lineOf; omega

/-- A line taken to memory and dropped, or made SHARED. -/
theorem takeBack_bytes {s : State} (hs : Coherent s.mem) {c : Fin 6} {l : Line} (hl : l ∈ s.lines c) {ls : List Line}
    (ht : Coherent ((writeBack l s).setLines c ls).mem)
    (hm : ∀ y, y.st = .modified → (y ∈ ls ↔ y ∈ s.lines c ∧ y.addr ≠ l.addr)) : SameBytes s ((writeBack l s).setLines c ls) := by
  have h64 := ((hs.wf c).2 l hl).2
  have hlen := ((hs.wf c).2 l hl).1
  have hlines : ∀ d, ((writeBack l s).setLines c ls).lines d = if d = c then ls else s.lines d := fun d => by
    rw [setLines_lines, lines_eq (writeBack_sameLines l s)]
  have hread : ∀ x, readByte ((writeBack l s).setLines c ls) x = readByte (writeBack l s) x := fun _ => rfl
  intro x
  by_cases hx : lineOf x = l.addr
  · have hin := (lineOf_of_mem h64).1 hx
    have hn : ∀ d : Fin 6, ∀ y ∈ ((writeBack l s).setLines c ls).lines d, y.st = .modified → y.addr ≠ lineOf x := by
      intro d y hy hym hya
      rw [hlines] at hy
      split_ifs at hy with hd
      · exact ((hm y hym).1 hy).2 (hya.trans hx)
      · exact (hs.line hy (owned_modified hym)).2.2.1 c (fun e => hd e.symm) l hl (hx.symm.trans hya.symm)
    rw [memByte_clean hn, hread, readByte_writeBack]
    by_cases hlm : l.st = .modified
    · rw [if_pos ⟨hlm, (hs.line hl (owned_modified hlm)).1, hin.1, by omega⟩, memByte_modified hs hl hlm hx.symm, hx]
    · rw [if_neg (fun h => hlm h.1), memByte_clean]
      intro d y hy hym hya
      have := modified_unique hs hy hym hl (hx.symm.trans hya.symm)
      exact hlm (this ▸ hym)
  · refine memByte_congr hs ht (fun y hym hya => ?_) ?_
    · simp only [hlines]
      constructor
      · rintro ⟨d, hd⟩
        split_ifs at hd with hdc
        · exact ⟨c, ((hm y hym).1 hd).1⟩
        · exact ⟨d, hd⟩
      · rintro ⟨d, hd⟩
        by_cases hdc : d = c
        · subst hdc
          exact ⟨d, by rw [if_pos rfl]; exact (hm y hym).2 ⟨hd, fun e => hx (hya ▸ e)⟩⟩
        · exact ⟨d, by rw [if_neg hdc]; exact hd⟩
    · rw [hread, readByte_writeBack, if_neg]
      rintro ⟨-, -, h1, h2⟩
      exact hx ((lineOf_of_mem h64).2 ⟨h1, by omega⟩)

theorem Inv.of_ev {s t : State} (h : Evolves s t) (i : Inv s) : Inv t := h.inv i

/-- Changes that each leave memory's bytes alone. -/
theorem forEach_bytes {α : Type} (xs : List α) (f : α → State → State) (he : ∀ a u, Evolves u (f a u))
    (hf : ∀ a u, Inv u → SameBytes u (f a u)) (s : State) (hs : Inv s) : SameBytes s (forEach xs f s) := by
  unfold forEach
  induction xs generalizing s with
  | nil => exact SameBytes.refl s
  | cons x xs ih => exact (hf x s hs).trans (ih (f x s) ((he x s).inv hs))

theorem recallLine_bytes (a : Nat) (keep : Option (Fin 6)) {s : State} (hs : Inv s) : SameBytes s (recallLine a keep s) := by
  have step : ∀ (c : Fin 6) (u : State), Evolves u (if keep == some c then u else
      match findLine (u.lines c) a with
      | none => u
      | some l =>
        let u := writeBack l u
        u.setLines c ((u.lines c).map (fun x => if x.addr == lineOf a then { x with st := .shared } else x))) := fun c u =>
    recallStep_ev a keep c (Evolves.refl u)
  refine forEach_bytes allCores _ step (fun c u hu => ?_) s hs
  have hev := step c u
  split
  · exact SameBytes.refl u
  · rename_i hk
    rw [if_neg hk] at hev
    split
    · exact SameBytes.refl u
    · rename_i l hf
      rw [hf] at hev
      obtain ⟨hl, hla⟩ := findLine_some hf
      refine takeBack_bytes hu.caches hl (hev.inv hu).caches (fun y hy => ?_)
      rw [lines_eq (writeBack_sameLines l u), List.mem_map]
      constructor
      · rintro ⟨z, hz, rfl⟩
        by_cases hza : z.addr = lineOf a
        · simp [hza] at hy
        · have : (z.addr == lineOf a) = false := by simpa using hza
          simp only [this] at hy ⊢
          exact ⟨hz, fun e => hza (e.trans hla)⟩
      · rintro ⟨hyl, hya⟩
        exact ⟨y, hyl, by simp [show (y.addr == lineOf a) = false by simpa using fun e => hya (e.trans hla.symm)]⟩

theorem invalidateLine_bytes (a : Nat) (keep : Option (Fin 6)) {s : State} (hs : Inv s) : SameBytes s (invalidateLine a keep s) := by
  have step : ∀ (c : Fin 6) (u : State), Evolves u (if keep == some c then u else
      match findLine (u.lines c) a with
      | none => u
      | some l =>
        let u := writeBack l u
        u.setLines c (dropLine (u.lines c) a)) := fun c u => invalidateStep_ev a keep c (Evolves.refl u)
  refine SameBytes.trans (t := dropIlines a s) (sameBytes_of_lines (fun _ => rfl) (fun _ => rfl)) ?_
  refine forEach_bytes allCores _ step (fun c u hu => ?_) _ ((dropIlines_ev a (Evolves.refl s)).inv hs)
  have hev := step c u
  split
  · exact SameBytes.refl u
  · rename_i hk
    rw [if_neg hk] at hev
    split
    · exact SameBytes.refl u
    · rename_i l hf
      rw [hf] at hev
      obtain ⟨hl, hla⟩ := findLine_some hf
      refine takeBack_bytes hu.caches hl (hev.inv hu).caches (fun y _ => ?_)
      rw [lines_eq (writeBack_sameLines l u), mem_dropLine, hla]

/-- Bytes put into memory where no MODIFIED line covers them. -/
theorem mergeSram_bytes {s : State} (hs : Coherent s.mem) {a : Nat} {bs : Bytes} (ht : Coherent (mergeSram a bs s).mem)
    (hn : ∀ c : Fin 6, ∀ l ∈ s.lines c, l.st = .modified → ∀ x, a ≤ x → x < a + bs.length → l.addr ≠ lineOf x) :
    StoredAt a bs s (mergeSram a bs s) := by
  have hl : ∀ c, (mergeSram a bs s).lines c = s.lines c := lines_eq (mergeSram_sameLines a bs s)
  intro x
  by_cases hx : a ≤ x ∧ x < a + bs.length
  · rw [if_pos hx, memByte_clean (fun c l hlm hm => hn c l (hl c ▸ hlm) hm x hx.1 hx.2), readByte_mergeSram, readByte_writeBytes,
      if_pos hx]
  · rw [if_neg hx]
    refine memByte_congr hs ht (fun l _ _ => by simp only [hl]) ?_
    rw [readByte_mergeSram, readByte_writeBytes, if_neg hx]

/-- A store to shared SRAM past the caches that is answered. -/
theorem writeSram_bytes {src a : Nat} {bs b : Bytes} {s t : State} (hs : Inv s) (h : writeSram src a bs s = (.ok b, t)) :
    StoredAt a bs s t := by
  have h1 := forEach_ev (xs := linesOf a bs.length) (f := fun l t => invalidateLine l none t) (Evolves.refl s)
    (fun l u hu => invalidateLine_ev l none hu)
  have hb := forEach_bytes (linesOf a bs.length) (fun l t => invalidateLine l none t)
    (fun l u => invalidateLine_ev l none (Evolves.refl u)) (fun l u hu => invalidateLine_bytes l none hu) s hs
  have h2 := (writeSram_ev src a bs (Evolves.refl s)).inv hs
  have hl := invalidated_lines (linesOf a bs.length) s
  unfold writeSram at h h2
  dsimp only at h h2
  generalize forEach (linesOf a bs.length) (fun l t => invalidateLine l none t) s = u at *
  split at h
  · cases h
  · rename_i he
    rw [he] at h2
    cases h
    have hm := mergeSram_bytes (a := a) (bs := bs) ((mergeRead_ev src a bs.length h1).inv hs).caches h2.caches
      (fun c l hlm hm x hx1 hx2 hla => by
        rw [lines_eq (mergeRead_same src a bs.length u).1] at hlm
        obtain ⟨-, h3⟩ := hl c l hlm
        have h64 : l.addr % 64 = 0 := by rw [hla]; exact lineOf_mod x
        have hin := (lineOf_of_mem h64).1 hla.symm
        have := h3 l.addr (mem_linesOf h64 hx1 hx2 hin.1 hin.2)
        rw [lineOf_of_mod h64] at this
        exact this rfl)
    intro x
    rw [hm x, sameBytes_of_same (mergeRead_same src a bs.length u) x, hb x]

/-- A line that a cache keeps when another is put into it. -/
theorem putLine_keeps {ways : Nat} {l y : Line} {ls : List Line} (hw : linesWf ls) (ha : l.addr % 64 = 0) (hy : y ∈ ls)
    (hne : y.addr ≠ l.addr) (hv : ∀ v, (putLine ways l ls).2 = some v → y.addr ≠ v.addr) : y ∈ (putLine ways l ls).1 := by
  have hd : y ∈ dropLine ls l.addr := mem_dropLine.2 ⟨hy, by rwa [lineOf_of_mod ha]⟩
  unfold putLine at hv ⊢
  dsimp only at hv ⊢
  split
  · exact List.mem_cons_of_mem _ hd
  · rename_i hn
    rw [if_neg hn] at hv
    split
    · exact List.mem_cons_of_mem _ hd
    · rename_i v hlast
      rw [hlast] at hv
      refine List.mem_cons_of_mem _ (mem_dropLine.2 ⟨hd, ?_⟩)
      have hm := (mem_dropLine.1 (List.mem_of_mem_filter (List.mem_of_getLast? hlast))).1
      rw [lineOf_of_mod (hw.2 v hm).2]
      exact hv v rfl

theorem putLine_holds (ways : Nat) (l : Line) (ls : List Line) :
    ∃ y ∈ (putLine ways l ls).1, y.addr = l.addr ∧ y.st = l.st ∧ y.data = l.data ∧ y.bad = l.bad := by
  unfold putLine
  dsimp only
  split
  · exact ⟨_, List.mem_cons_self, rfl, rfl, rfl, rfl⟩
  · split
    · exact ⟨_, List.mem_cons_self, rfl, rfl, rfl, rfl⟩
    · exact ⟨_, List.mem_cons_self, rfl, rfl, rfl, rfl⟩

theorem installLine_lines (c : Fin 6) (l : Line) (s : State) (d : Fin 6) :
    (installLine c l s).lines d = if d = c then (putLine (waysOf c) l (s.lines c)).1 else s.lines d := by
  unfold installLine withSome
  dsimp only
  split
  · rw [lines_eq (evictLine_sameLines _ _ _), setLines_lines]
  · rw [setLines_lines]

theorem readByte_evictLine (c : Fin 6) (l : Line) (x : Nat) (s : State) :
    readByte (evictLine c l s) x = readByte (writeBack l s) x := by
  unfold evictLine
  generalize writeBack l s = u
  unfold when
  split
  · exact readByte_of_mem (recordUe_mem _ _ _) x
  · rfl

theorem readByte_installLine (c : Fin 6) (l : Line) (s : State) (x : Nat) (h : ∀ v, (putLine (waysOf c) l (s.lines c)).2 = some v →
    v.st = .modified → inSram v.addr = true → x < v.addr ∨ v.addr + v.data.length ≤ x) :
    readByte (installLine c l s) x = readByte s x := by
  unfold installLine withSome
  dsimp only
  split
  · rename_i v hv
    rw [readByte_evictLine, readByte_writeBack, if_neg]
    · rfl
    · rintro ⟨h1, h2, h3, h4⟩
      rcases h v hv h1 h2 with h | h <;> omega
  · rfl

/-- A line put into a cache: a MODIFIED line is what its bytes are from then on, every other byte stays. -/
theorem installLine_bytes {s : State} (hs : Coherent s.mem) (c : Fin 6) (l : Line) (ht : Coherent (installLine c l s).mem)
    (ha : l.addr % 64 = 0) (hn : ∀ d : Fin 6, ∀ x ∈ s.lines d, x.st = .modified → x.addr ≠ l.addr) (x : Nat) :
    memByte (installLine c l s) x =
      if l.st = .modified ∧ lineOf x = l.addr then l.data.getD (x - lineOf x) 0 else memByte s x := by
  have hlines := installLine_lines c l s
  by_cases hx : l.st = .modified ∧ lineOf x = l.addr
  · rw [if_pos hx]
    obtain ⟨y, hy, h1, h2, h3, -⟩ := putLine_holds (waysOf c) l (s.lines c)
    rw [memByte_modified ht (c := c) (l := y) (by rw [hlines, if_pos rfl]; exact hy) (h2.trans hx.1) (h1.trans hx.2.symm), h3]
  · rw [if_neg hx]
    cases hv : (putLine (waysOf c) l (s.lines c)).2 with
    | none =>
      refine memByte_congr hs ht (fun y hym hya => ?_) (readByte_installLine c l s x (fun v h => by rw [hv] at h; cases h))
      simp only [hlines]
      constructor
      · rintro ⟨d, hd⟩
        split_ifs at hd with hdc
        · rcases mem_putLine ha hd with ⟨h1, h2⟩ | h
          · exact absurd ⟨h2 ▸ hym, hya ▸ h1⟩ hx
          · exact ⟨c, h.1⟩
        · exact ⟨d, hd⟩
      · rintro ⟨d, hd⟩
        by_cases hdc : d = c
        · subst hdc
          exact ⟨d, by rw [if_pos rfl]; exact putLine_keeps (hs.wf d) ha hd (hn d y hd hym) (fun v h => by rw [hv] at h; cases h)⟩
        · exact ⟨d, by rw [if_neg hdc]; exact hd⟩
    | some v =>
      obtain ⟨e1, e2, e3⟩ := putLine_evicted (hs.wf c) ha hv
      have hv64 := ((hs.wf c).2 v e1).2
      have hvlen := ((hs.wf c).2 v e1).1
      by_cases hxv : lineOf x = v.addr
      · have hin := (lineOf_of_mem hv64).1 hxv
        have hnone : ∀ d : Fin 6, ∀ y ∈ (installLine c l s).lines d, y.st = .modified → y.addr ≠ lineOf x := by
          intro d y hy hym hya
          rw [hlines] at hy
          split_ifs at hy with hd
          · exact e3 y hy (hya.trans hxv)
          · exact (hs.line hy (owned_modified hym)).2.2.1 c (fun e => hd e.symm) v e1 (hxv.symm.trans hya.symm)
        rw [memByte_clean hnone]
        by_cases hvm : v.st = .modified
        · rw [memByte_modified hs e1 hvm hxv.symm]
          unfold installLine withSome
          dsimp only
          rw [hv]
          dsimp only
          rw [readByte_evictLine, readByte_writeBack, if_pos ⟨hvm, (hs.line e1 (owned_modified hvm)).1, hin.1, by omega⟩, hxv]
        · rw [readByte_installLine c l s x (fun w hw hm => by rw [hv] at hw; cases hw; exact absurd hm hvm), memByte_clean]
          intro d y hy hym hya
          have := modified_unique hs hy hym e1 (hxv.symm.trans hya.symm)
          exact hvm (this ▸ hym)
      · refine memByte_congr hs ht (fun y hym hya => ?_) (readByte_installLine c l s x (fun w hw hm hws => ?_))
        · simp only [hlines]
          constructor
          · rintro ⟨d, hd⟩
            split_ifs at hd with hdc
            · rcases mem_putLine ha hd with ⟨h1, h2⟩ | h
              · exact absurd ⟨h2 ▸ hym, hya ▸ h1⟩ hx
              · exact ⟨c, h.1⟩
            · exact ⟨d, hd⟩
          · rintro ⟨d, hd⟩
            by_cases hdc : d = c
            · subst hdc
              refine ⟨d, ?_⟩
              rw [if_pos rfl]
              refine putLine_keeps (hs.wf d) ha hd (hn d y hd hym) (fun w h e => ?_)
              rw [hv] at h; cases h
              exact hxv (hya.symm.trans e)
            · exact ⟨d, by rw [if_neg hdc]; exact hd⟩
        · rw [hv] at hw; cases hw
          have : ¬(v.addr ≤ x ∧ x < v.addr + 64) := fun h => hxv ((lineOf_of_mem hv64).2 h)
          omega

theorem readFlashFor_bytes (x a n : Nat) (s : State) : SameBytes s (readFlashFor x a n s).2 := by
  unfold readFlashFor flashErr
  repeat' split
  all_goals exact sameBytes_of_mem rfl

theorem heldElsewhere_not {s : State} {c : Fin 6} {a : Nat} (h : ¬s.heldElsewhere c a = true) (d : Fin 6) (hd : d ≠ c) :
    ∀ x ∈ s.lines d, x.addr ≠ lineOf a := by
  simp only [State.heldElsewhere, List.any_eq_true, not_exists, not_and, Bool.or_eq_true, not_or, Bool.and_eq_true,
    Bool.not_eq_true', beq_eq_false_iff_ne, Option.not_isSome_iff_eq_none] at h
  exact findLine_none ((h d (mem_allCores d)).1 hd)

theorem recalled_modified {a : Nat} {ls : List Line} {x : Line} (hx : x ∈ recalled a ls) (hm : x.st = .modified) :
    x.addr ≠ lineOf a := fun e => by
  have := recalled_unowned x hx e
  rw [owned_modified hm] at this
  cases this

/-- A core's miss brings the line in and changes no byte. -/
theorem fillLine_bytes (c : Fin 6) (a : Nat) {s : State} (hs : Inv s) (hf : findLine (s.lines c) a = none) :
    SameBytes s (fillLine c a s).2 := by
  have hev := (fillLine_ev c a (Evolves.refl s)).inv hs
  unfold fillLine at hev ⊢
  by_cases hi : inSram a = true
  · rw [if_pos hi] at hev ⊢
    have hr := (correct_ev (lineOf a) 64 (recallLine_ev a (some c) (Evolves.refl s))).inv hs
    have hb := (recallLine_bytes a (some c) hs).trans (sameBytes_of_same (correct_same (lineOf a) 64 (recallLine a (some c) s)))
    have hl := correct_lines (lineOf a) 64 (recallLine a (some c) s)
    dsimp only at hev ⊢
    generalize correct (lineOf a) 64 (recallLine a (some c) s) = u at *
    refine hb.trans ?_
    split
    · exact sameBytes_of_mem (recordUe_mem _ _ _)
    · rename_i hn
      rw [hn] at hev
      intro x
      rw [installLine_bytes hr.caches c _ hev.caches (lineOf_mod a) (fun d y hy hym hya => ?_) x, if_neg]
      · split <;> simp
      · rw [hl, recallLine_lines] at hy
        split_ifs at hy with hd
        · simp only [Option.some.injEq] at hd
          subst hd
          exact findLine_none hf y hy hya
        · exact recalled_modified hy hym hya
  · rw [if_neg hi] at hev ⊢
    have hother : ∀ d : Fin 6, ∀ y ∈ s.lines d, y.st = .modified → y.addr ≠ lineOf a := fun d y hy hym hya => by
      have := (hs.caches.line hy (owned_modified hym)).1
      rw [hya, inSram_lineOf] at this
      exact hi this
    split
    · rename_i hfl
      rw [if_pos hfl] at hev
      split
      · rename_i bs t he
        rw [he] at hev
        dsimp only at hev ⊢
        have ht := readFlashFor_ok he
        subst ht
        intro x
        rw [installLine_bytes hs.caches c _ hev.caches (lineOf_mod a) hother x, if_neg (by simp)]
      · rename_i r hne
        exact readFlashFor_bytes _ _ _ _
    · rename_i hfl
      rw [if_neg hfl] at hev
      intro x
      rw [installLine_bytes hs.caches c _ hev.caches (lineOf_mod a) hother x, if_neg (by simp)]

/-- Bytes of a line. -/
theorem slice_eq {data : Bytes} {off n : Nat} (h : off + n ≤ data.length) :
    slice data off n = (List.range n).map (fun i => data.getD (off + i) 0) := by
  have hl : ((data.drop off).take n).length = n := by simp; omega
  unfold slice
  dsimp only
  rw [hl, Nat.sub_self, List.replicate_zero, List.append_nil]
  apply List.ext_getElem (by rw [hl]; simp)
  intro i h1 h2
  simp only [List.getElem_take, List.getElem_drop, List.getElem_map, List.getElem_range]
  rw [List.getD_eq_getElem]

theorem patch_getD {data bs : Bytes} {off i : Nat} (h : off + bs.length ≤ data.length) :
    (patch data off bs).getD i 0 = if off ≤ i ∧ i < off + bs.length then bs.getD (i - off) 0 else data.getD i 0 := by
  simp only [patch, List.getD_eq_getElem?_getD, List.getElem?_append, List.length_append, List.length_take, List.getElem?_take,
    List.getElem?_drop]
  rw [Nat.min_eq_left (by omega)]
  split_ifs <;> first | omega | rfl | (congr 2; omega)

theorem readKilnSram_bytes (a n : Nat) (s : State) : SameBytes s (readKilnSram a n s).2 := by
  unfold readKilnSram
  split
  · exact SameBytes.refl s
  · exact sameBytes_of_same (forEach_sameAs _ dropFlip (fun _ _ => ⟨rfl, rfl⟩) (fun _ _ => rfl) s)

/-- A read past the caches leaves no MODIFIED line over its bytes. -/
theorem recalled_lines (as : List Nat) (d : Fin 6) (s : State) : ∀ x ∈ (forEach as (fun l t => recallLine l none t) s).lines d,
    x.st = .modified → x ∈ s.lines d ∧ ∀ m ∈ as, x.addr ≠ lineOf m := by
  unfold forEach
  induction as generalizing s with
  | nil => exact fun x hx _ => ⟨hx, by simp⟩
  | cons m as ih =>
    intro x hx hxm
    rw [List.foldl_cons] at hx
    obtain ⟨h1, h2⟩ := ih (recallLine m none s) x hx hxm
    rw [recallLine_lines, if_neg (by simp)] at h1
    have h3 := recalled_modified h1 hxm
    refine ⟨?_, fun k hk => ?_⟩
    · obtain ⟨y, hy, rfl⟩ := List.mem_map.1 h1
      by_cases hya : y.addr = lineOf m
      · simp [hya] at hxm
      · rw [show (y.addr == lineOf m) = false by simpa using hya]
        exact hy
    · rcases List.mem_cons.1 hk with rfl | hk
      · exact h3
      · exact h2 k hk

/-- A read of shared SRAM past the caches: memory's bytes where it is answered, and none of them changed. -/
theorem readSram_bytes (src a n : Nat) {s : State} (hs : Inv s) : SameBytes s (readSram src a n s).2 ∧
    ∀ bs t, readSram src a n s = (.ok bs, t) → bs = (List.range n).map (fun i => memByte s (a + i)) := by
  have hb := forEach_bytes (linesOf a n) (fun l t => recallLine l none t)
    (fun l u => recallLine_ev l none (Evolves.refl u)) (fun l u hu => recallLine_bytes l none hu) s hs
  have hl := fun d => recalled_lines (linesOf a n) d s
  unfold readSram
  dsimp only
  generalize forEach (linesOf a n) (fun l t => recallLine l none t) s = v at *
  have hc := correct_same a n v
  have hcl := correct_lines a n v
  generalize correct a n v = u at *
  replace hb := hb.trans (sameBytes_of_same hc)
  split
  · exact ⟨hb.trans (sameBytes_of_mem (recordUe_mem _ _ _)), fun bs t h => by cases h⟩
  · refine ⟨hb, fun bs t h => ?_⟩
    cases h
    refine List.map_congr_left (fun i hi => ?_)
    have hi := List.mem_range.1 hi
    rw [← hb (a + i), memByte_clean]
    intro d l hld hm hla
    rw [hcl] at hld
    obtain ⟨-, h2⟩ := hl d l hld hm
    have h64 : l.addr % 64 = 0 := by rw [hla]; exact lineOf_mod _
    have hin := (lineOf_of_mem h64).1 hla.symm
    have := h2 l.addr (mem_linesOf h64 (z := a + i) (by omega) (by omega) hin.1 hin.2)
    rw [lineOf_of_mod h64] at this
    exact this rfl

/-- A line moved to the front of its cache, corrected. -/
theorem touch_bytes {u w : State} (hu : Inv u) {c : Fin 6} {a : Nat} {l : Line} (hf : findLine (u.lines c) a = some l)
    (hm : w.mem = u.mem) (hw : Inv (w.setLines c ({ l with flip := false } :: dropLine (u.lines c) a))) :
    SameBytes u (w.setLines c ({ l with flip := false } :: dropLine (u.lines c) a)) := by
  obtain ⟨hl, hla⟩ := findLine_some hf
  intro x
  by_cases hx : lineOf x = lineOf a
  · by_cases hlm : l.st = .modified
    · rw [memByte_modified hu.caches hl hlm (hla.trans hx.symm), memByte_modified hw.caches (c := c) (l := { l with flip := false })
        (by rw [setLines_lines, if_pos rfl]; exact List.mem_cons_self) hlm (hla.trans hx.symm)]
    · have hn : ∀ (v : State), (∀ d : Fin 6, ∀ y ∈ v.lines d, y.st = .modified → y.addr = lineOf a → y ∈ u.lines d) →
          memByte v x = readByte v x := fun v hv => memByte_clean (fun d y hy hym hya => by
        have := modified_unique hu.caches (hv d y hy hym (hya.trans hx)) hym hl (hla.trans (hya.trans hx).symm)
        exact hlm (this ▸ hym))
      rw [hn u (fun _ _ h _ _ => h), hn _ (fun d y hy hym hya => ?_)]
      · exact readByte_of_mem (s := u) (t := w) hm x
      · rw [setLines_lines] at hy
        split_ifs at hy with hd
        · subst hd
          rcases List.mem_cons.1 hy with rfl | hy
          · exact absurd hym hlm
          · exact (mem_dropLine.1 hy).1
        · rwa [lines_of_mem hm] at hy
  · refine memByte_congr hu.caches hw.caches (fun y _ hya => ?_) (readByte_of_mem (s := u) (t := w) hm x)
    simp only [setLines_lines, lines_of_mem hm]
    constructor
    · rintro ⟨d, hd⟩
      split_ifs at hd with hdc
      · rcases List.mem_cons.1 hd with rfl | hd
        · exact absurd (hya.symm.trans hla) hx
        · exact ⟨c, (mem_dropLine.1 hd).1⟩
      · exact ⟨d, hd⟩
    · rintro ⟨d, hd⟩
      refine ⟨d, ?_⟩
      split_ifs with hdc
      · subst hdc
        exact List.mem_cons_of_mem _ (mem_dropLine.2 ⟨hd, fun e => hx (hya.symm.trans e)⟩)
      · exact hd

/-- A core's load of bytes of shared SRAM or Kiln private SRAM that is answered reads memory's bytes, and changes none. -/
theorem coreRead_bytes {c : Fin 6} {a n : Nat} {s t : State} {bs : Bytes} (hs : Inv s) (h : coreRead c a n s = (.ok bs, t))
    (ha : inSram a = true ∨ inKilnSram a = true) (hn : a % 64 + n ≤ 64) :
    bs = (List.range n).map (fun i => memByte s (a + i)) ∧ SameBytes s t := by
  have hsram : ∀ i, i < n → inSram a = true → inSram (a + i) = true := fun i hi h =>
    line_inSram (a := lineOf a) (by rw [inSram_lineOf]; exact h) (lineOf_mod a) (by unfold lineOf; omega) (by unfold lineOf; omega)
  unfold coreRead at h
  split at h
  · rename_i hk
    refine ⟨?_, snd_of_eq h (readKilnSram_bytes a n s)⟩
    unfold readKilnSram at h
    split at h
    · cases h
    · cases h
      refine List.map_congr_left (fun i hi => (memByte_other hs.caches (kiln_not_sram _ ?_)).symm)
      have : a + i < lineOf a + 64 := by have := List.mem_range.1 hi; unfold lineOf; omega
      simp only [inKilnSram, inRange, Bool.and_eq_true, decide_eq_true_eq, lineOf] at *
      omega
  · rename_i hk
    have ha := ha.resolve_right hk
    split at h
    · cases h
    · split at h
      · dsimp only at h
        have hbody : ∀ u, Inv u → SameBytes s u → (match findLine (u.lines c) a with
            | none => (Ans.err, u)
            | some l => match hitLine c a l (u.lines c) (fun ls s => s.setLines c ls) u with
              | (.ok bs, s) => (.ok (slice bs (a - l.addr) n), s)
              | r => r) = (.ok bs, t) →
            bs = (List.range n).map (fun i => memByte s (a + i)) ∧ SameBytes s t := by
          intro u hu hsu h
          split at h
          · cases h
          · rename_i l hf
            have hu2 := (hitData_ev c a l (Evolves.refl u) hf).inv hu
            obtain ⟨hl, hla⟩ := findLine_some hf
            have hlen := ((hu.caches.wf c).2 l hl).1
            unfold hitLine at h hu2
            split at h
            · rename_i bs' w hw
              split at hw
              · cases hw
              · rename_i hbad
                rw [if_neg hbad] at hu2
                cases hw
                cases h
                constructor
                · rw [slice_eq (by rw [hlen, hla, sub_lineOf]; exact hn)]
                  refine List.map_congr_left (fun i hi => ?_)
                  have hi := List.mem_range.1 hi
                  have hla' : lineOf (a + i) = lineOf a := by unfold lineOf; omega
                  rw [← hsu (a + i), ← cached_memByte hu.caches hl (x := a + i) (hla.trans hla'.symm) (hsram i hi ha), hla', hla]
                  congr 1
                  unfold lineOf; omega
                · exact hsu.trans (touch_bytes hu hf (whenCe_mem _ _) hu2)
            · rename_i hne
              split at h
              · cases h
              · rename_i hb
                exact absurd (if_neg hb) (hne _ _)
        cases hf : findLine (s.lines c) a with
        | some l =>
          rw [hf] at h
          dsimp only at h
          exact hbody s hs (SameBytes.refl s) h
        | none =>
          rw [hf] at h
          dsimp only at h
          have h1 := fillLine_bytes c a hs hf
          have h2 := (fillLine_ev c a (Evolves.refl s)).inv hs
          cases hr : fillLine c a s with
          | mk r u =>
            rw [hr] at h h1 h2
            cases r with
            | ok b => exact hbody u h2 h1 h
            | err => simp at h
            | torn => simp at h
            | fault => simp at h
            | stall => simp at h
      · obtain ⟨hb, hr⟩ := readSram_bytes c.val a n hs
        exact ⟨hr _ _ h, snd_of_eq h hb⟩

/-- Every byte that no dropped copy covered reads as before. -/
theorem dropCopies_cells (a : Nat) (c : Fin 6) (s : State) : (dropCopies a c s).mem.cells = s.mem.cells := by
  unfold dropCopies
  rw [forEach_cells _ _ (fun d u => by split <;> rfl)]
  rfl

theorem dropCopies_away {s : State} (hs : Inv s) (a : Nat) (c : Fin 6) {x : Nat} (hx : lineOf x ≠ lineOf a) :
    memByte (dropCopies a c s) x = memByte s x := by
  refine memByte_congr hs.caches ((dropCopies_ev a c (Evolves.refl s)).inv hs).caches (fun y _ hya => ?_)
    (readByte_of_cells (dropCopies_cells a c s) x)
  simp only [dropCopies_lines]
  constructor
  · rintro ⟨d, hd⟩
    split_ifs at hd with hdc
    · exact ⟨d, hd⟩
    · exact ⟨d, (mem_dropLine.1 hd).1⟩
  · rintro ⟨d, hd⟩
    refine ⟨d, ?_⟩
    split_ifs
    · exact hd
    · exact mem_dropLine.2 ⟨hd, fun e => hx (hya.symm.trans e)⟩

/-- The bytes of a line that is stored to, in the cache that holds it from then on. -/
theorem patched_bytes {s : State} {t : Nat → Byte} {a : Nat} {data bs : Bytes} (hd : data.length = 64) (hb : a % 64 + bs.length ≤ 64)
    (hold : ∀ x, lineOf x = lineOf a → data.getD (x - lineOf x) 0 = memByte s x)
    (hin : ∀ x, lineOf x = lineOf a → t x = (patch data (a - lineOf a) bs).getD (x - lineOf x) 0)
    (hout : ∀ x, lineOf x ≠ lineOf a → t x = memByte s x) (x : Nat) :
    t x = if a ≤ x ∧ x < a + bs.length then bs.getD (x - a) 0 else memByte s x := by
  by_cases hx : lineOf x = lineOf a
  · rw [hin x hx, patch_getD (by rw [hd, sub_lineOf]; exact hb)]
    by_cases hr : a ≤ x ∧ x < a + bs.length
    · rw [if_pos hr, if_pos (by unfold lineOf at *; omega)]
      congr 1
      unfold lineOf at *; omega
    · rw [if_neg (by unfold lineOf at *; omega), if_neg hr, hold x hx]
  · rw [hout x hx, if_neg]
    intro hr
    exact hx (by unfold lineOf at *; omega)

/-- A store through a data cache writes its bytes and no other. -/
theorem storeLine_bytes {c : Fin 6} {a : Nat} {bs b : Bytes} {s t : State} (hs : Inv s) (h : storeLine c a bs s = (.ok b, t))
    (ha : inSram a = true) (hn : a % 64 + bs.length ≤ 64) : StoredAt a bs s t := by
  have hev : Inv t := snd_of_eq h ((storeLine_ev c a bs (Evolves.refl s) ha hn).inv hs)
  have hdi := (dropCopies_ev a c (Evolves.refl s)).inv hs
  have hsx : ∀ x, lineOf x = lineOf a → inSram x = true := fun x hx => by rw [← inSram_lineOf, hx, inSram_lineOf]; exact ha
  have hd := (dropCopies_others a c s).1
  unfold storeLine at h
  dsimp only at h
  split at h
  · rename_i l hf
    obtain ⟨hl, hla⟩ := findLine_some hf
    cases h
    refine patched_bytes ((hs.caches.wf c).2 l hl).1 hn (fun x hx => cached_memByte hs.caches hl (hla.trans hx.symm) (hsx x hx))
      (fun x hx => ?_) (fun x hx => ?_)
    · rw [← hla]
      exact memByte_modified hev.caches (c := c) (l := { l with st := .modified, data := patch l.data (a - l.addr) bs })
        (by rw [setLines_lines, if_pos rfl]; exact List.mem_cons_self) rfl (hla.trans hx.symm)
    · rw [← dropCopies_away hs a c hx]
      refine memByte_congr hdi.caches hev.caches (fun y _ hya => ?_) rfl
      simp only [setLines_lines]
      constructor
      · rintro ⟨d, hdl⟩
        split_ifs at hdl with hdc
        · rcases List.mem_cons.1 hdl with rfl | hdl
          · exact absurd (hya.symm.trans hla) hx
          · exact ⟨c, (mem_dropLine.1 hdl).1⟩
        · exact ⟨d, hdl⟩
      · rintro ⟨d, hdl⟩
        refine ⟨d, ?_⟩
        split_ifs with hdc
        · subst hdc
          exact List.mem_cons_of_mem _ (mem_dropLine.2 ⟨hdl, fun e => hx (hya.symm.trans e)⟩)
        · exact hdl
  · rename_i o hf ho
    obtain ⟨e, hec, hm, hoa, hom⟩ := ownerOf_some ho
    cases h
    have hm' := whenCe_mem o.flip (dropCopies a c s)
    have hui := (when_ev (p := o.flip) (Evolves.refl (dropCopies a c s)) (fun _ hu => recordCe_ev hu)).inv hdi
    have hnone : ∀ d : Fin 6, ∀ y ∈ (when o.flip recordCe (dropCopies a c s)).lines d, y.addr ≠ lineOf a := fun d y hy => by
      rw [lines_of_mem hm'] at hy
      by_cases hdc : d = c
      · subst hdc
        rw [dropCopies_lines, if_pos rfl] at hy
        exact findLine_none hf y hy
      · exact hd d hdc y hy
    have hput := installLine_bytes hui.caches c _ hev.caches (lineOf_mod a) (fun d y hy _ => hnone d y hy)
    refine patched_bytes ((hs.caches.wf e).2 o hm).1 hn (fun x hx => cached_memByte hs.caches hm (hoa.trans hx.symm) (hsx x hx))
      (fun x hx => ?_) (fun x hx => ?_)
    · rw [hput x, if_pos ⟨rfl, hx⟩]
    · rw [hput x, if_neg (fun h => hx h.2), sameBytes_of_mem hm' x, dropCopies_away hs a c hx]
  · rename_i hf ho
    have hclean : ∀ x, lineOf x = lineOf a → memByte s x = readByte s x := fun x hx => memByte_clean (fun d y hy hym hya => by
      by_cases hdc : d = c
      · subst hdc; exact findLine_none hf y hy (hya.trans hx)
      · exact ownerOf_none ho hdc (hs.caches.wf d) hy (hya.trans hx) hym)
    have hnd : ∀ d : Fin 6, ∀ y ∈ (dropCopies a c s).lines d, y.addr ≠ lineOf a := fun d y hy => by
      by_cases hdc : d = c
      · subst hdc
        rw [dropCopies_lines, if_pos rfl] at hy
        exact findLine_none hf y hy
      · exact hd d hdc y hy
    have hdrop : SameBytes s (dropCopies a c s) := fun x => by
      by_cases hx : lineOf x = lineOf a
      · rw [hclean x hx, memByte_clean (fun d y hy _ => by rw [hx]; exact hnd d y hy)]
        exact readByte_of_cells (dropCopies_cells a c s) x
      · exact dropCopies_away hs a c hx
    have hsame := correct_same (lineOf a) 64 (dropCopies a c s)
    have hui := (correct_ev (lineOf a) 64 (Evolves.refl (dropCopies a c s))).inv hdi
    have hl := correct_lines (lineOf a) 64 (dropCopies a c s)
    generalize correct (lineOf a) 64 (dropCopies a c s) = u at *
    have hsu := hdrop.trans (sameBytes_of_same hsame)
    split at h
    · intro x
      rw [writeSram_bytes hui h x, hsu x]
    · cases h
      have hput := installLine_bytes hui.caches c _ hev.caches (lineOf_mod a) (fun d y hy _ => hnd d y (by rwa [hl] at hy))
      refine patched_bytes (readBytes_length u (lineOf a) 64) hn (fun x hx => ?_) (fun x hx => ?_) (fun x hx => ?_)
      · rw [readBytes, List.getD_eq_getElem _ _ (by simpa using sub_lineOf_lt x)]
        simp only [List.getElem_map, List.getElem_range]
        rw [← hx, lineOf_add, ← hsu x, memByte_clean]
        intro d y hy _ hya
        exact hnd d y (by rwa [hl] at hy) (hya.trans hx)
      · rw [hput x, if_pos ⟨rfl, hx⟩]
      · rw [hput x, if_neg (fun h => hx h.2), hsu x]

/-- A core's store to shared SRAM or Kiln private SRAM that is answered writes its bytes and no other. -/
theorem coreWrite_bytes {c : Fin 6} {a : Nat} {bs b : Bytes} {s t : State} (hs : Inv s) (h : coreWrite c a bs s = (.ok b, t))
    (ha : inSram a = true ∨ inKilnSram a = true) (hn : a % 64 + bs.length ≤ 64) : StoredAt a bs s t := by
  have hev : Inv t := snd_of_eq h ((coreWrite_ev c a bs (Evolves.refl s) ha hn).inv hs)
  unfold coreWrite at h
  split at h
  · rename_i hk
    cases h
    refine mergeSram_bytes hs.caches hev.caches (fun d l hl hm x hx1 hx2 hla => ?_)
    have := (hs.caches.line hl (owned_modified hm)).1
    rw [hla, inSram_lineOf, kiln_not_sram] at this
    · cases this
    · simp only [inKilnSram, inRange, Bool.and_eq_true, decide_eq_true_eq] at *
      omega
  · rename_i hk
    split at h
    · cases h
    · split at h
      · split at h
        · cases h
        · exact storeLine_bytes hs h (ha.resolve_right hk) hn
      · exact writeSram_bytes hs h

/-- A fetch changes no byte of memory. -/
theorem coreFetch_bytes {c : Fin 6} {a : Nat} {s t : State} {r : Ans} (hs : Inv s) (h : coreFetch c a s = (r, t)) : SameBytes s t := by
  have hil : ∀ (u : State) ls, SameBytes u (u.setIlines c ls) := fun u ls => sameBytes_of_lines (fun _ => rfl) (fun _ => rfl)
  unfold coreFetch at h
  split at h
  · exact snd_of_eq h (readKilnSram_bytes a 4 s)
  · split at h
    · cases h; exact SameBytes.refl s
    · split at h
      · split at h
        · unfold hitLine at h
          split at h
          · cases h; exact sameBytes_of_mem (recordUe_mem _ _ _)
          · cases h; exact (sameBytes_of_mem (whenCe_mem _ s)).trans (hil _ _)
        · unfold fetchLine at h
          dsimp only at h
          have hb := (recallLine_bytes a none hs).trans (sameBytes_of_same (correct_same (lineOf a) 64 (recallLine a none s)))
          split at h
          · split at h
            · cases h
              exact hb.trans (sameBytes_of_mem (recordUe_mem _ _ _))
            · cases h
              exact hb.trans (hil _ _)
          · split at h
            · split at h
              · rename_i he
                cases h
                exact (snd_of_eq he (readFlashFor_bytes a (lineOf a) 64 s)).trans (hil _ _)
              · exact snd_of_eq h (readFlashFor_bytes a (lineOf a) 64 s)
            · cases h; exact hil _ _
      · split at h
        · exact snd_of_eq h (readSram_bytes c.val a 4 hs).1
        · split at h
          · exact snd_of_eq h (readFlashFor_bytes a a 4 s)
          · cases h; exact SameBytes.refl _

theorem storeLine_memOnly (c : Fin 6) (a : Nat) (bs : Bytes) (s : State) : MemOnly s (storeLine c a bs s).2 := by
  have hd := dropCopies_memOnly a c s
  unfold storeLine
  dsimp only
  split
  · exact hd.trans (setLines_memOnly _ _ _)
  · exact (hd.trans (when_memOnly _ _ recordCe_memOnly _)).trans (installLine_memOnly _ _ _)
  · have hc := hd.trans (correct_memOnly (lineOf a) 64 _)
    split
    · exact hc.trans (writeSram_memOnly _ _ _ _)
    · exact hc.trans (installLine_memOnly _ _ _)

/-- A store to shared SRAM or Kiln private SRAM changes memory and the record of its errors alone. -/
theorem coreWrite_memOnly (c : Fin 6) (a : Nat) (bs : Bytes) (s : State) : MemOnly s (coreWrite c a bs s).2 := by
  unfold coreWrite
  split
  · exact mergeSram_memOnly _ _ _
  · split
    · exact MemOnly.refl s
    · split
      · split
        · exact (invalidateLine_memOnly a (some c) s).trans (recordUe_memOnly _ _ _)
        · exact storeLine_memOnly _ _ _ _
      · exact writeSram_memOnly _ _ _ _

theorem fillLine_memOnly {c : Fin 6} {a : Nat} {s u : State} {b : Bytes} (h : fillLine c a s = (.ok b, u)) : MemOnly s u := by
  unfold fillLine at h
  dsimp only at h
  split at h
  · split at h
    · cases h
    · cases h
      exact ((recallLine_memOnly _ _ _).trans (correct_memOnly _ _ _)).trans (installLine_memOnly _ _ _)
  · split at h
    · split at h
      · rename_i he
        cases h
        rw [readFlashFor_ok he]
        exact installLine_memOnly _ _ _
      · rename_i hne
        exact absurd h (hne _ _)
    · cases h
      exact installLine_memOnly _ _ _

/-- A load of Normal memory that is answered changes memory and the record of its errors alone. -/
theorem coreRead_memOnly {c : Fin 6} {a n : Nat} {s t : State} {bs : Bytes} (h : coreRead c a n s = (.ok bs, t)) : MemOnly s t := by
  unfold coreRead at h
  split at h
  · exact snd_of_eq h (readKilnSram_memOnly _ _ _)
  · split at h
    · cases h
    · split at h
      · dsimp only at h
        have hbody : ∀ u, MemOnly s u → (match findLine (u.lines c) a with
            | none => (Ans.err, u)
            | some l => match hitLine c a l (u.lines c) (fun ls s => s.setLines c ls) u with
              | (.ok bs, s) => (.ok (slice bs (a - l.addr) n), s)
              | r => r) = (.ok bs, t) → MemOnly s t := by
          intro u hu h
          split at h
          · cases h
          · rename_i l _
            have hh := hitLine_memOnly c a l (u.lines c) (fun ls s => s.setLines c ls) (fun _ _ => setLines_memOnly _ _ _) u
            split at h
            · rename_i he
              cases h
              rw [he] at hh
              exact hu.trans hh
            · rename_i hne
              exact absurd h (hne _ _)
        cases hf : findLine (s.lines c) a with
        | some l =>
          rw [hf] at h
          dsimp only at h
          exact hbody s (MemOnly.refl s) h
        | none =>
          rw [hf] at h
          dsimp only at h
          cases hr : fillLine c a s with
          | mk r u =>
            rw [hr] at h
            cases r with
            | ok b => exact hbody u (fillLine_memOnly hr) h
            | err => simp at h
            | torn => simp at h
            | fault => simp at h
            | stall => simp at h
      · split at h
        · exact snd_of_eq h (readSram_memOnly _ _ _ _)
        · split at h
          · unfold readFlash at h
            rw [readFlashFor_ok h]
            exact MemOnly.refl _
          · cases h
            exact MemOnly.refl _

theorem den_kept {s t : State} (h : MemOnly s t) (c : Fin 6) : t.den c = s.den c := by
  unfold State.den State.rbit
  rw [h.regs]
  intro hk
  simp only [eccKeys, List.mem_cons, List.not_mem_nil, or_false] at hk
  revert hk
  revert c
  decide

theorem waitsClear_kept {s t : State} (h : MemOnly s t) (a n : Nat) : t.waitsClear a n = s.waitsClear a n := by
  unfold State.waitsClear
  rw [h.kept.1]

/-- Where the word at an address has been read, a store to it is answered. -/
theorem coreWrite_after_read {c : Fin 6} {a n : Nat} {bs w : Bytes} {s v : State} (hs : Inv s)
    (h : coreRead c a n s = (.ok bs, v)) (ha : inSram a = true ∨ inKilnSram a = true) (hn : w.length = n) :
    ∃ b u, coreWrite c a w v = (.ok b, u) := by
  have hm := coreRead_memOnly h
  have hv : Inv v := snd_of_eq h ((coreRead_ev c a n (Evolves.refl s)).inv hs)
  unfold coreWrite
  split
  · exact ⟨_, _, rfl⟩
  · rename_i hk
    have hsr := ha.resolve_right hk
    unfold coreRead at h
    rw [if_neg hk] at h
    rw [waitsClear_kept hm, den_kept hm, hn]
    split at h
    · cases h
    · rename_i hw
      rw [if_neg hw]
      split at h
      · rename_i hd
        rw [if_pos hd]
        have hheld : ∃ l, findLine (v.lines c) a = some l := by
          have hbody : ∀ u, (match findLine (u.lines c) a with
              | none => (Ans.err, u)
              | some l => match hitLine c a l (u.lines c) (fun ls s => s.setLines c ls) u with
                | (.ok bs, s) => (.ok (slice bs (a - l.addr) n), s)
                | r => r) = (.ok bs, v) → ∃ l, findLine (v.lines c) a = some l := by
            intro u h
            split at h
            · cases h
            · rename_i l hf
              split at h
              · rename_i he
                unfold hitLine at he
                split at he
                · cases he
                · cases he
                  cases h
                  refine ⟨{ l with flip := false }, ?_⟩
                  rw [setLines_lines, if_pos rfl]
                  have := (findLine_some hf).2
                  simp [findLine, this]
              · rename_i hne
                exact absurd h (hne _ _)
          dsimp only at h
          cases hf : findLine (s.lines c) a with
          | some l =>
            rw [hf] at h
            dsimp only at h
            exact hbody s h
          | none =>
            rw [hf] at h
            dsimp only at h
            cases hr : fillLine c a s with
            | mk r u =>
              rw [hr] at h
              cases r with
              | ok b => exact hbody u h
              | err => simp at h
              | torn => simp at h
              | fault => simp at h
              | stall => simp at h
        obtain ⟨l, hl⟩ := hheld
        have ho : v.ownerOf a (some c) = none := by
          cases ho : v.ownerOf a (some c) with
          | none => rfl
          | some o =>
            obtain ⟨d, hd, h1, h2, h3⟩ := ownerOf_some ho
            obtain ⟨g1, g2⟩ := findLine_some hl
            exact absurd (g2.trans h2.symm) ((hv.caches.line h1 (owned_modified h3)).2.2.1 c (Ne.symm hd) l g1)
        unfold State.badOwner storeLine
        rw [ho, hl]
        exact ⟨_, _, rfl⟩
      · rename_i hd
        rw [if_neg hd]
        have hno : ∀ l ∈ linesOf a n, ∀ d, ∀ o ∈ v.lines d, o.st = .modified → o.addr ≠ lineOf l := by
          have hl := fun d => recalled_lines (linesOf a n) d s
          have hcl := correct_lines a n (forEach (linesOf a n) (fun l t => recallLine l none t) s)
          unfold readSram at h
          dsimp only at h
          split at h
          · cases h
          · cases h
            intro l hll d o ho hom
            rw [hcl] at ho
            exact (hl d o ho hom).2 l hll
        unfold writeSram
        dsimp only
        split
        · rename_i l hf
          have hb := List.find?_some hf
          unfold State.badOwner at hb
          cases ho : v.ownerOf l none with
          | none => rw [ho] at hb; cases hb
          | some o =>
            obtain ⟨d, -, h1, h2, h3⟩ := ownerOf_line ho
            have hmem := List.mem_of_find?_eq_some hf
            rw [hn] at hmem
            exact absurd h2 (hno l hmem d o h1 h3)
        · exact ⟨_, _, rfl⟩

/-- A store is answered where nothing waits for memory to be cleared and no cached line holds an uncorrectable error. -/
theorem coreWrite_answered (c : Fin 6) (a : Nat) (bs : Bytes) {s : State} (hc : s.mem.clearing = none)
    (hb : ∀ d, ∀ l ∈ s.lines d, l.bad = false) : ∃ b u, coreWrite c a bs s = (.ok b, u) := by
  have hno : ∀ u : State, (∀ d, ∀ l ∈ u.lines d, l.bad = false) → ∀ a keep, u.badOwner a keep = false := fun u hu a keep => by
    unfold State.badOwner
    cases ho : u.ownerOf a keep with
    | none => rfl
    | some o =>
      obtain ⟨d, -, h1, -, -⟩ := ownerOf_line ho
      exact hu d o h1
  have hw : ∀ u : State, (∀ d, ∀ l ∈ u.lines d, l.bad = false) → ∃ b v, writeSram c.val a bs u = (.ok b, v) := fun u hu => by
    unfold writeSram
    dsimp only
    split
    · rename_i l hf
      have := List.find?_some hf
      rw [hno u hu] at this
      cases this
    · exact ⟨_, _, rfl⟩
  unfold coreWrite
  split
  · exact ⟨_, _, rfl⟩
  · rw [if_neg (by simp [State.waitsClear, hc])]
    split
    · rw [if_neg (by rw [hno s hb]; decide)]
      unfold storeLine
      dsimp only
      split
      · exact ⟨_, _, rfl⟩
      · exact ⟨_, _, rfl⟩
      · have hl : ∀ d, ∀ l ∈ (correct (lineOf a) 64 (dropCopies a c s)).lines d, l.bad = false := fun d l hl => by
          rw [correct_lines, dropCopies_lines] at hl
          split_ifs at hl
          · exact hb d l hl
          · exact hb d l (mem_dropLine.1 hl).1
        generalize correct (lineOf a) 64 (dropCopies a c s) = u at *
        split
        · exact hw u hl
        · exact ⟨_, _, rfl⟩
    · exact hw s hb

end Sys2Proof.Machine
end

