-- ==== Sys2Proof/Laws/Instructions.lean ====
section
/-! SUPPORT. The instructions of the cores: what each shared operation answers for a core that stands before its instruction, the
values and flags of the arithmetic in the terms of the specification, and what telling cores and hosts of events changes. -/

namespace Sys2Proof.Machine

theorem Fetches.same {c : Fin 6} {s t : State} (h : Fetches c s t) : MemOnly s t := by
  obtain ⟨-, -, -, -, bs, h⟩ := h
  exact coreFetch_memOnly h

/-- An instruction of a core that stands before it is fetched and performed. -/
theorem instruction_fetched {c : Fin 6} {s t : State} (h : Fetches c s t) (word : Word) (legal : Bool) (body : State → State) :
    instruction c word legal body s = .next (if legal then body t else raiseIllegal c word t) := by
  obtain ⟨hl, hr, hd, hf, bs, hc⟩ := h
  simp only [instruction, State.takes, when, hl, hr, hd, perform, hf, hc]
  simp

theorem msb_eq_neg (w : Word) : w.msb = decide (w.toInt < 0) := by
  rw [BitVec.msb_eq_decide, BitVec.toInt_eq_toNat_cond]
  have := w.isLt
  congr 1
  apply propext
  constructor <;> intro h <;> split at * <;> omega

theorem regResult_eq (c : Fin 6) (t : State) (rd : Fin 16) (f : Bool) (op : BinOp) (a b : Core → Word) :
    regResult c rd f op a b t = t.setCore c ((t.cores.get c).result rd
      (op (t.cores.get c).flg (a (t.cores.get c)) (b (t.cores.get c))).1
      (if f then (op (t.cores.get c).flg (a (t.cores.get c)) (b (t.cores.get c))).2 else (t.cores.get c).flg)) := by
  simp [regResult, State.onCore, Core.result, Core.write, Core.advance]

theorem flagsZN_eq (f : Bool) (old : BitVec 4) (r : Word) : (if f then flagsZN old r else old) = namedZN f old r := by
  unfold namedZN namedVCZN flagsZN
  rw [msb_eq_neg]

/-- A format A instruction of a core that stands before it. -/
theorem opA_fetched {c : Fin 6} {s t : State} (h : Fetches c s t) (major fn : Nat) (op : BinOp) (usesRb : Bool)
    (rd ra rb : Fin 16) (f : Bool) (hb : usesRb = true ∨ rb = 0) :
    opA major fn op usesRb c rd ra rb 0 f s = .next (t.setCore c ((t.cores.get c).result rd
      (op (t.cores.get c).flg ((t.cores.get c).get ra) ((t.cores.get c).get rb)).1
      (if f then (op (t.cores.get c).flg ((t.cores.get c).get ra) ((t.cores.get c).get rb)).2 else (t.cores.get c).flg))) := by
  rw [opA, instruction_fetched h, if_pos (by rcases hb with h | h <;> simp [h, legalA]), regResult_eq]

theorem opI_fetched {c : Fin 6} {s t : State} (h : Fetches c s t) (major : Nat) (op : BinOp) (legal : Bool) (b : Word)
    (rd ra : Fin 16) (imm12 : BitVec 12) (f : Bool) (hl : legal = true) :
    opI major op legal b c rd ra imm12 0 f s = .next (t.setCore c ((t.cores.get c).result rd
      (op (t.cores.get c).flg ((t.cores.get c).get ra) b).1
      (if f then (op (t.cores.get c).flg ((t.cores.get c).get ra) b).2 else (t.cores.get c).flg))) := by
  rw [opI, instruction_fetched h, if_pos (by simp [hl]), regResult_eq]

theorem opI16_fetched {c : Fin 6} {s t : State} (h : Fetches c s t) (major : Nat) (op : BinOp) (legal : Bool) (a : Core → Word)
    (b : Word) (rd : Fin 16) (imm16 : BitVec 16) (f : Bool) (hl : legal = true) :
    opI16 major op legal a b c rd imm16 0 f s = .next (t.setCore c ((t.cores.get c).result rd
      (op (t.cores.get c).flg (a (t.cores.get c)) b).1
      (if f then (op (t.cores.get c).flg (a (t.cores.get c)) b).2 else (t.cores.get c).flg))) := by
  rw [opI16, instruction_fetched h, if_pos (by simp [hl]), regResult_eq]

theorem sign_rule (p q r : Prop) [Decidable p] [Decidable q] [Decidable r] :
    (!(decide p ^^ decide q) && (decide p ^^ decide r)) = true ↔ (p ↔ q) ∧ ¬(p ↔ r) := by
  by_cases p <;> by_cases q <;> by_cases r <;> simp [*]

/-- Signed overflow is the exact sum falling outside the word. -/
theorem addOverflow_eq (a b : Word) (cin : Bool) :
    addOverflow a b cin = decide ((addRes a b cin).toInt ≠ a.toInt + b.toInt + (b2n cin : Nat)) := by
  have ha := a.isLt
  have hb := b.isLt
  have hr : (addRes a b cin).toNat = (a.toNat + b.toNat + b2n cin) % 2 ^ 32 := by
    simp [addRes, wideSum, wd]
  have hc : b2n cin ≤ 1 := by cases cin <;> simp [b2n]
  have hx := (addRes a b cin).isLt
  unfold addOverflow
  rw [BitVec.msb_and, BitVec.msb_not, BitVec.msb_xor, BitVec.msb_xor, decide_eq_true (show 0 < 32 by omega), Bool.true_and,
    Bool.eq_iff_iff, decide_eq_true_eq]
  simp only [BitVec.msb_eq_decide]
  rw [sign_rule]
  simp only [BitVec.toInt_eq_toNat_cond]
  split_ifs <;> omega

theorem addRes_sub (a b : Word) : addRes a (~~~b) true = a - b := by
  apply BitVec.eq_of_toNat_eq
  have := b.isLt
  simp only [addRes, wideSum, wd, b2n, if_true, BitVec.toNat_ofNat, BitVec.toNat_not, BitVec.toNat_sub]
  omega

theorem addRes_sbc (a b : Word) (cin : Bool) : addRes a (~~~b) cin = a - b - wd (1 - b2n cin) := by
  apply BitVec.eq_of_toNat_eq
  have := b.isLt
  have := a.isLt
  cases cin <;>
  simp only [addRes, wideSum, wd, b2n, if_true, BitVec.toNat_ofNat, BitVec.toNat_not, BitVec.toNat_sub] <;> simp <;> omega

theorem addRes_add (a b : Word) (cin : Bool) : addRes a b cin = a + b + wd (b2n cin) := by
  apply BitVec.eq_of_toNat_eq
  simp only [addRes, wideSum, wd, BitVec.toNat_ofNat, BitVec.toNat_add]
  omega

theorem toInt_not (b : Word) : (~~~b).toInt = -b.toInt - 1 := by
  have := b.isLt
  simp only [BitVec.toInt_eq_toNat_cond, BitVec.toNat_not]
  split_ifs <;> omega

theorem addWithFlags_eq (f : Bool) (old : BitVec 4) (a b : Word) (cin : Bool) :
    (if f then (addWithFlags a b cin).2 else old) =
      namedVCZN f old (decide ((addWithFlags a b cin).1.toInt ≠ a.toInt + b.toInt + (b2n cin : Nat)))
        (decide (2 ^ 32 ≤ a.toNat + b.toNat + b2n cin)) (addWithFlags a b cin).1 := by
  unfold namedVCZN addWithFlags
  simp only [msb_eq_neg, addOverflow_eq, addCarry, wideSum]
  cases f
  · rfl
  · simp only [if_true]; congr
theorem flagsShift_eq (f : Bool) (old : BitVec 4) (r : Word) (n : Nat) (c : Bool) :
    (if f then flagsShift old r n c else old) = namedVCZN f old (flagV old) (if n = 0 then flagC old else c) r := by
  unfold flagsShift namedVCZN
  rw [msb_eq_neg]
theorem flagsZNV_eq (f : Bool) (old : BitVec 4) (r : Word) (v : Bool) :
    (if f then flagsZNV old r v else old) = namedVCZN f old v (flagC old) r := by
  unfold flagsZNV namedVCZN
  rw [msb_eq_neg]
theorem getLsbD_div (a : Word) (i : Nat) : a.getLsbD i = decide (a.toNat / 2 ^ i % 2 = 1) := by
  rw [BitVec.getLsbD, Nat.testBit_eq_decide_div_mod_eq]
theorem shl_eq (a : Word) (n : Nat) : a <<< n = wd (a.toNat * 2 ^ n) := by
  apply BitVec.eq_of_toNat_eq
  simp [wd, BitVec.toNat_shiftLeft, Nat.shiftLeft_eq]
theorem shr_eq (a : Word) (n : Nat) : a >>> n = wd (a.toNat / 2 ^ n) := by
  apply BitVec.eq_of_toNat_eq
  have : a.toNat / 2 ^ n < 2 ^ 32 := lt_of_le_of_lt (Nat.div_le_self _ _) a.isLt
  rw [wd, BitVec.toNat_ofNat, BitVec.toNat_ushiftRight, Nat.shiftRight_eq_div_pow, Nat.mod_eq_of_lt this]
theorem sar_eq (a : Word) (n : Nat) : a.sshiftRight n = BitVec.ofInt 32 (a.toInt / 2 ^ n) := by
  rw [BitVec.sshiftRight, Int.shiftRight_eq_div_pow]
  norm_cast
theorem ror_eq (a : Word) (n : Nat) (hn : n < 32) : a.rotateRight n = wd (a.toNat / 2 ^ n + a.toNat % 2 ^ n * 2 ^ (32 - n)) := by
  have hp : 2 ^ 32 = 2 ^ n * 2 ^ (32 - n) := by rw [← Nat.pow_add]; congr 1; omega
  have hd : a.toNat / 2 ^ n < 2 ^ (32 - n) := Nat.div_lt_of_lt_mul (hp ▸ a.isLt)
  have hm : a.toNat % 2 ^ n < 2 ^ n := Nat.mod_lt _ (by positivity)
  have hl : a.toNat % 2 ^ n * 2 ^ (32 - n) < 2 ^ 32 := by
    rw [hp]; exact (Nat.mul_lt_mul_right (by positivity)).2 hm
  rw [BitVec.rotateRight_def, Nat.mod_eq_of_lt hn]
  apply BitVec.eq_of_toNat_eq
  rw [BitVec.toNat_or, BitVec.toNat_ushiftRight, BitVec.toNat_shiftLeft, Nat.shiftRight_eq_div_pow, Nat.shiftLeft_eq]
  have e : a.toNat * 2 ^ (32 - n) % 2 ^ 32 = 2 ^ (32 - n) * (a.toNat % 2 ^ n) := by
    rw [hp, Nat.mul_mod_mul_right, Nat.mul_comm]
  have ho : 2 ^ (32 - n) * (a.toNat % 2 ^ n) + a.toNat / 2 ^ n < 2 ^ 32 := by
    have : a.toNat % 2 ^ n + 1 ≤ 2 ^ n := hm
    calc _ < 2 ^ (32 - n) * (a.toNat % 2 ^ n) + 2 ^ (32 - n) := by omega
      _ = 2 ^ (32 - n) * (a.toNat % 2 ^ n + 1) := by ring
      _ ≤ 2 ^ (32 - n) * 2 ^ n := Nat.mul_le_mul_left _ this
      _ = 2 ^ 32 := by rw [hp, Nat.mul_comm]
  rw [e, Nat.or_comm, ← Nat.two_pow_add_eq_or_of_lt hd, wd, BitVec.toNat_ofNat,
    show a.toNat / 2 ^ n + a.toNat % 2 ^ n * 2 ^ (32 - n) = 2 ^ (32 - n) * (a.toNat % 2 ^ n) + a.toNat / 2 ^ n by
      rw [Nat.add_comm, Nat.mul_comm (a.toNat % 2 ^ n)], Nat.mod_eq_of_lt ho]
theorem plainOp_fetched {c : Fin 6} {s t : State} (h : Fetches c s t) (major fn : Nat) (g : Word → Word → Word) (usesRb : Bool)
    (rd ra rb : Fin 16) (f : Bool) (hb : usesRb = true ∨ rb = 0) {r : Word}
    (hr : g ((t.cores.get c).get ra) ((t.cores.get c).get rb) = r) :
    opA major fn (plainOp g) usesRb c rd ra rb 0 f s =
      .next (t.setCore c ((t.cores.get c).result rd r (namedZN f (t.cores.get c).flg r))) := by
  rw [opA_fetched h _ _ _ _ _ _ _ _ hb]
  simp only [plainOp, flagsZN_eq, hr]

theorem takeWhile_length_range (p : Nat → Bool) (n : Nat) :
    ((List.range n).takeWhile p).length ≤ n ∧ (∀ i, i < ((List.range n).takeWhile p).length → p i = true) ∧
      (((List.range n).takeWhile p).length < n → p ((List.range n).takeWhile p).length = false) := by
  induction n with
  | zero => simp
  | succ n ih =>
    obtain ⟨h1, h2, h3⟩ := ih
    rw [List.range_succ, List.takeWhile_append]
    split
    · rename_i he
      simp only [List.length_range] at he
      by_cases hp : p n = true
      · simp only [List.takeWhile_cons, hp, if_true, List.takeWhile_nil, List.length_append, List.length_range, List.length_cons, List.length_nil]
        refine ⟨by omega, fun i hi => ?_, by omega⟩
        by_cases hin : i = n
        · rw [hin]; exact hp
        · exact h2 i (by omega)
      · simp only [List.takeWhile_cons, hp, List.length_append, List.length_range]
        refine ⟨by simp, fun i hi => h2 i (by simp at hi; omega), fun _ => by simpa using hp⟩
    · rename_i he
      simp only [List.length_range] at he
      exact ⟨by omega, h2, fun _ => h3 (by omega)⟩

theorem clz_spec (a : Word) : if a = 0 then clz a = 32 else clz a < 32 ∧ 2 ^ (31 - clz a) ≤ a.toNat ∧ a.toNat < 2 ^ (32 - clz a) := by
  obtain ⟨h1, h2, h3⟩ := takeWhile_length_range (fun i => !a.getLsbD (31 - i)) 32
  change clz a ≤ 32 at h1
  change ∀ i, i < clz a → _ at h2
  change clz a < 32 → (!a.getLsbD (31 - clz a)) = false at h3
  have hu : a.toNat < 2 ^ (32 - clz a) := by
    refine Nat.lt_pow_two_of_testBit _ (fun i hi => ?_)
    by_cases hw : i < 32
    · have := h2 (31 - i) (by omega)
      rw [show 31 - (31 - i) = i by omega] at this
      simpa [BitVec.getLsbD] using this
    · exact Nat.testBit_lt_two_pow (lt_of_lt_of_le a.isLt (Nat.pow_le_pow_right (by omega) (by omega)))
  split
  · rename_i h0
    by_contra hne
    have := h3 (by omega)
    simp [h0] at this
  · rename_i h0
    have hlt : clz a < 32 := by
      by_contra hge
      rw [show clz a = 32 by omega] at hu
      exact h0 (BitVec.eq_of_toNat_eq (by simpa using hu))
    refine ⟨hlt, ?_, hu⟩
    have := h3 hlt
    simp only [Bool.not_eq_false', BitVec.getLsbD] at this
    exact Nat.ge_two_pow_of_testBit this

theorem sext_sgn (n : Nat) (hn : 0 < n) (hm : n ≤ 32) (a : Word) : (a.setWidth n).signExtend 32 = BitVec.ofInt 32 (sgn n a.toNat) := by
  rw [BitVec.signExtend]
  congr 1
  rw [BitVec.toInt_eq_toNat_cond, sgn, BitVec.toNat_setWidth]
  have : 2 ^ n = 2 * 2 ^ (n - 1) := by rw [← Nat.pow_succ']; congr 1; omega
  split_ifs <;> first | rfl | omega

theorem shAmt_zext {imm : BitVec 12} (h : imm.toNat < 32) : shAmt (zext12 imm) = imm.toNat := by
  simp only [shAmt, zext12, BitVec.toNat_setWidth]
  omega

theorem sext12_toInt (i : BitVec 12) : (BitVec.ofInt 32 i.toInt).toInt = i.toInt :=
  by have := BitVec.toInt_signExtend_of_le (x := i) (v := 32) (by omega); simpa [BitVec.signExtend] using this

theorem off16_eq (o : BitVec 16) : off16Bytes o = BitVec.ofInt 32 (4 * o.toInt) := by
  apply BitVec.eq_of_toInt_eq
  unfold off16Bytes BitVec.signExtend
  rw [show ∀ w : Word, w <<< 2 = w * 4#32 from fun w => by
    apply BitVec.eq_of_toNat_eq; simp [BitVec.toNat_shiftLeft, Nat.shiftLeft_eq]]
  rw [show (4#32 : Word) = BitVec.ofInt 32 4 from rfl, ← BitVec.ofInt_mul, Int.mul_comm]

theorem bit_setBit (w : Word) (i j : Nat) (b : Bool) (hj : j < 32) : (setBit w i b).getLsbD j = if j = i then b else w.getLsbD j := by
  unfold setBit setBits
  simp only [Nat.add_sub_cancel_left, pow_one, BitVec.getLsbD_or, BitVec.getLsbD_and, BitVec.getLsbD_not, BitVec.getLsbD_ofNat,
    Nat.testBit_shiftLeft, hj, decide_true, Bool.true_and]
  by_cases h : j = i
  · subst h
    cases b <;> simp
  · rw [if_neg h]
    by_cases hji : i ≤ j
    · have hd : j - i ≠ 0 := by omega
      have e : ∀ n, n < 2 → n.testBit (j - i) = false := fun n hn => Nat.testBit_lt_two_pow (lt_of_lt_of_le hn (by
        calc 2 = 2 ^ 1 := rfl
          _ ≤ 2 ^ (j - i) := Nat.pow_le_pow_right (by omega) (by omega)))
      cases b <;> simp [e]
    · simp [hji]

theorem enterStat_eq (st : Word) : enterStat st = entryStat st := by
  apply BitVec.eq_of_getLsbD_eq
  intro i hi
  unfold enterStat entryStat
  simp only [bit_setBit _ _ _ _ hi, BitVec.getLsbD_or, BitVec.getLsbD_and, BitVec.getLsbD_shiftLeft, bit]
  interval_cases i <;> simp

theorem eretStat_eq (st : Word) : setBit (setBit st 2 (bit st 3)) 0 (bit st 1) = eretStat st := by
  apply BitVec.eq_of_getLsbD_eq
  intro i hi
  unfold eretStat
  simp only [bit_setBit _ _ _ _ hi, BitVec.getLsbD_or, BitVec.getLsbD_and, BitVec.getLsbD_ushiftRight, bit]
  interval_cases i <;> simp

/-- An exception of a core that handles none enters its handler. -/
theorem raise_plain {c : Fin 6} {s : State} (h : (s.cores.get c).plain = true) (code sub : Nat) (bad : Word) :
    raise c code sub bad s = s.setCore c ((s.cores.get c).excepted (wd (fld 8 sub + code)) bad) := by
  simp only [Core.plain, Bool.not_eq_true'] at h
  simp [raise, h, Core.vector, Core.excepted, enterStat_eq]

theorem raise_double {c : Fin 6} {s : State} (h : (s.cores.get c).plain = false) (code sub : Nat) (bad : Word) :
    raise c code sub bad s = doubleFault c s := by
  simp only [Core.plain, Bool.not_eq_false'] at h
  simp [raise, h]

/-- What a core's instruction does is the meaning of a word that is legal or not. -/
theorem coreInstr_exec {i : Instr} {c : Fin 6} {w : Word} {l : Bool} (h : coreInstr i = some (c, w, l)) (s : State) :
    ∃ body legal, exec i s = instruction c w legal body s ∧ legal = l := by
  cases i
  case cwr c' rd ra imm12 =>
    simp only [coreInstr, Option.some.injEq, Prod.mk.injEq] at h
    obtain ⟨rfl, rfl, rfl⟩ := h
    refine ⟨_, _, rfl, ?_⟩
    congr 1
    have e : ∀ n : Nat, n < 4096 → (imm12 == BitVec.ofNat 12 n) = (imm12.toNat == n) := fun n hn => by
      rw [Bool.eq_iff_iff, beq_iff_eq, beq_iff_eq]
      constructor
      · intro h; rw [h, BitVec.toNat_ofNat]; omega
      · intro h; rw [← h]; simp
    have e0 := e 0 (by omega); have e1 := e 1 (by omega); have e2 := e 2 (by omega); have e6 := e 6 (by omega)
    change (imm12 == 0) = _ at e0; change (imm12 == 1) = _ at e1; change (imm12 == 2) = _ at e2; change (imm12 == 6) = _ at e6
    rw [e0, e1, e2, e6]
    generalize imm12.toNat = n
    unfold cregWrite
    split
    · rfl
    · by_cases h : c'.val = 5 <;> simp [h]
    · simp
    · simp
    · rename_i h0 h1 h2 h6
      have : n ≠ 0 := h0
      have : n ≠ 1 := h1
      have : n ≠ 2 := h2
      have : n ≠ 6 := h6
      simp [*]
  case crd c' rd ra imm12 =>
    simp only [coreInstr, Option.some.injEq, Prod.mk.injEq] at h
    obtain ⟨rfl, rfl, rfl⟩ := h
    refine ⟨_, _, rfl, ?_⟩
    congr 1
    generalize imm12.toNat = n
    unfold creg
    by_cases h : n < 7
    · interval_cases n <;> rfl
    · split <;> first | omega | simp [h]
  all_goals first
    | (simp only [coreInstr, Option.some.injEq, Prod.mk.injEq] at h
       obtain ⟨rfl, rfl, rfl⟩ := h
       exact ⟨_, _, rfl, by simp [legalA, legalShift, auxEom]⟩)
    | cases h

/-! ### Events -/

theorem Notified.refl (s : State) : Notified s s :=
  ⟨rfl, fun c => ⟨0, by simp⟩, fun _ _ => rfl, rfl⟩

theorem Notified.trans {s t u : State} (h : Notified s t) (h' : Notified t u) : Notified s u := by
  obtain ⟨a1, a2, a3, a4⟩ := h
  obtain ⟨b1, b2, b3, b4⟩ := h'
  refine ⟨?_, fun c => ?_, fun k hk => (b3 k hk).trans (a3 k hk), ?_⟩
  · rw [b1, a1]
  · obtain ⟨e, he⟩ := a2 c
    obtain ⟨f, hf⟩ := b2 c
    exact ⟨e ||| f, by rw [hf, he]; simp [BitVec.or_assoc]⟩
  · rw [b4, a4]

theorem forEach_notified {α : Type} (xs : List α) (f : α → State → State) (hf : ∀ a s, Notified s (f a s)) (s : State) :
    Notified s (forEach xs f s) := by
  unfold forEach
  induction xs generalizing s with
  | nil => exact Notified.refl s
  | cons x xs ih => exact (hf x s).trans (ih (f x s))

theorem when_notified (p : Bool) (f : State → State) (hf : ∀ s, Notified s (f s)) (s : State) : Notified s (when p f s) := by
  unfold when
  split
  · exact hf s
  · exact Notified.refl s

theorem setE_notified (c : Fin 6) (m : BitVec 16) (s : State) : Notified s (s.setE c m) := by
  refine ⟨rfl, fun d => ?_, fun _ _ => rfl, rfl⟩
  unfold State.setE State.onCore
  rw [State.get_setCore]
  split
  · rename_i h; subst h; exact ⟨m, rfl⟩
  · exact ⟨0, by simp⟩

theorem routeE_notified (route b : Nat) (s : State) : Notified s (s.routeE route b) :=
  forEach_notified _ _ (fun c t => setE_notified c _ t) s

theorem levelMode_notified (s : State) : Notified s s.levelMode :=
  when_notified _ _ (fun s => forEach_notified _ _ (fun c t => setE_notified c _ t) s) s

theorem levelCmd_notified (s : State) (c : Fin 6) : Notified s (s.levelCmd c) :=
  when_notified _ _ (fun s => setE_notified c _ s) s

theorem setReg_notified (s : State) (k : Nat) (w : Word) (hk : k ∈ pendKeys) : Notified s (s.setReg k w) :=
  ⟨rfl, fun c => ⟨0, by simp [State.setReg]⟩, fun j hj => by
    rw [State.reg_setReg, if_neg (show ¬ j = k from fun e => hj (by rw [e]; exact hk))], rfl⟩

theorem raiseVector_notified (r : Req) (v : Nat) (s : State) : Notified s (raiseVector r v s) := by
  have hp : ∀ r ∈ hostReqs, ∀ w, Notified s (s.setReg (hostKey r rHOSTIF_PEND) w) := fun r hr w =>
    setReg_notified s _ w (List.mem_map_of_mem (f := fun r => hostKey r rHOSTIF_PEND) hr)
  unfold raiseVector
  split
  · exact Notified.refl s
  · split
    · exact Notified.refl s
    · split
      · exact Notified.refl s
      · split
        · exact ⟨rfl, fun c => ⟨0, by simp⟩, fun _ _ => rfl, rfl⟩
        · exact ⟨rfl, fun c => ⟨0, by simp⟩, fun _ _ => rfl, rfl⟩
    · rename_i h1 h2
      cases r with
      | core c => exact absurd rfl (h1 c)
      | pcie => exact absurd rfl h2
      | spi => exact hp .spi (by decide) _
      | uart => exact hp .uart (by decide) _

theorem modeEdge_notified (f : State → State) (s : State) : Notified (f s) (s.modeEdge f) := by
  unfold State.modeEdge
  dsimp only
  split
  · exact (levelMode_notified (f s)).trans (forEach_notified _ _ (fun r u => raiseVector_notified r _ u) _)
  · exact levelMode_notified (f s)

/-- A mode event sets its bit of SYS_MODE_EVT, and what follows is notice. -/
theorem modeEvent_notified (b : Nat) (s : State) : Notified (s.setRbit rSYS_MODE_EVT b true) (modeEvent b s) :=
  modeEdge_notified (fun s => s.setRbit rSYS_MODE_EVT b true) s

theorem blockEvent_notified (evt ie rreg rlo ev b : Nat) (s : State) :
    Notified (if s.rbit evt b then s else s.setRbit evt b true) (blockEvent evt ie rreg rlo ev b s) := by
  unfold blockEvent
  split
  · exact Notified.refl s
  · exact when_notified _ _ (fun s => routeE_notified _ _ s) _

theorem hostEvent_notified (b : Nat) (r : Req) (s : State) :
    Notified (if !s.hostActive r || s.rbit (hostKey r rHOSTIF_EVT) b then s else s.setRbit (hostKey r rHOSTIF_EVT) b true)
      (hostEvent b r s) := by
  unfold hostEvent
  split
  · exact Notified.refl s
  · exact when_notified _ _ (fun s => raiseVector_notified _ _ s) _

end Sys2Proof.Machine
end

