-- ==== Sys2Proof/Laws/KeepsFront.lean ====
section
/-! SUPPORT. What the modes, resets, code flash, the ledger port, acquisition, LF and the command front end do keeps the invariant. -/
namespace Sys2Proof.Machine

theorem beginCopy_ev {s0 s : State} (rec : Nat) (body : Bytes) (who : LedgerFor) (h : Evolves s0 s) :
    Evolves s0 (beginCopy rec body who s) := by
  unfold beginCopy
  with_reducible repeat' (first
    | assumption | apply State.setRbit_ev | dsimp only
    | fail_if_no_progress (refine Evolves.rest ?_ rfl rfl rfl rfl rfl rfl))

theorem beginUnit_ev {s0 s : State} (u : Nat) (bs : Bytes) (who : LedgerFor) (h : Evolves s0 s) :
    Evolves s0 (beginUnit u bs who s) := by
  unfold beginUnit
  with_reducible repeat' (first
    | assumption | apply State.setRbit_ev | dsimp only
    | fail_if_no_progress (refine Evolves.rest ?_ rfl rfl rfl rfl rfl rfl))

theorem beginScan_ev {s0 s : State} (h : Evolves s0 s) : Evolves s0 (beginScan s) := by
  unfold beginScan
  with_reducible repeat' (first
    | assumption | apply State.setRbit_ev | dsimp only
    | fail_if_no_progress (refine Evolves.rest ?_ rfl rfl rfl rfl rfl rfl))

theorem startWaitingRescan_ev {s0 s : State} (h : Evolves s0 s) : Evolves s0 (startWaitingRescan s) := by
  unfold startWaitingRescan
  with_reducible repeat' (first | assumption | apply when_ev | apply beginScan_ev)

theorem endWrite_ev {s0 s : State} (ok : Bool) (h : Evolves s0 s) : Evolves s0 (endWrite ok s) := by
  unfold endWrite
  with_reducible repeat' (first
    | assumption | apply State.incFld_ev | apply State.freshBytes_ev | apply startWaitingRescan_ev
    | apply State.setRbit_ev | apply State.setReg_ev | intro _ | dsimp only | split
    | refine Evolves.pair ?_ (by assumption) | fail_if_no_progress (refine Evolves.rest ?_ rfl rfl rfl rfl rfl rfl))

theorem tearWrite_ev {s0 s : State} (h : Evolves s0 s) : Evolves s0 (tearWrite s) := by
  unfold tearWrite
  with_reducible repeat' (first
    | assumption | apply State.freshBytes_ev | dsimp only | split
    | fail_if_no_progress (refine Evolves.rest ?_ rfl rfl rfl rfl rfl rfl))

theorem scanResult_ev {s0 s : State} (h : Evolves s0 s) : Evolves s0 (scanResult s) := by
  unfold scanResult
  with_reducible repeat' (first
    | assumption | apply State.setReg_ev | apply State.setRbit_ev | dsimp only
    | fail_if_no_progress (refine Evolves.rest ?_ rfl rfl rfl rfl rfl rfl))

theorem State.setSlot_ev {s0 s : State} (n : Nat) (x : Slot) (h : Evolves s0 s) : Evolves s0 (State.setSlot s n x) := by
  unfold State.setSlot
  with_reducible repeat' (first
    | assumption | dsimp only | fail_if_no_progress (refine Evolves.rest ?_ rfl rfl rfl rfl rfl rfl))

theorem zapSlot_ev {s0 s : State} (n : Nat) (h : Evolves s0 s) : Evolves s0 (zapSlot n s) := by
  unfold zapSlot
  with_reducible repeat' (first | assumption | apply State.setSlot_ev)

theorem placeKey_ev {s0 s : State} (n : Nat) (key : Bytes) (owner type use : Nat) (h : Evolves s0 s) :
    Evolves s0 (placeKey n key owner type use s) := by
  unfold placeKey
  with_reducible repeat' (first | assumption | apply State.setSlot_ev)

theorem State.setKsess_ev {s0 s : State} (n : Nat) (k : KSession) (h : Evolves s0 s) :
    Evolves s0 (State.setKsess s n k) := by
  unfold State.setKsess
  with_reducible repeat' (first
    | assumption | dsimp only | fail_if_no_progress (refine Evolves.rest ?_ rfl rfl rfl rfl rfl rfl))

theorem dropSession_ev {s0 s : State} (n : Nat) (h : Evolves s0 s) : Evolves s0 (dropSession n s) := by
  unfold dropSession
  with_reducible repeat' (first
    | assumption | apply withSome_ev | apply zapSlot_ev | apply State.setKsess_ev | intro _ | dsimp only | split
    | fail_if_no_progress (refine Evolves.rest ?_ rfl rfl rfl rfl rfl rfl))

theorem dropSessions_ev {s0 s : State} (m : BitVec 8) (h : Evolves s0 s) : Evolves s0 (dropSessions m s) := by
  unfold dropSessions
  with_reducible repeat' (first | assumption | apply forEach_ev | apply dropSession_ev | intro _)

theorem closeAllSessions_ev {s0 s : State} (h : Evolves s0 s) : Evolves s0 (closeAllSessions s) := by
  unfold closeAllSessions
  with_reducible repeat' (first
    | assumption | apply dropSessions_ev | dsimp only
    | fail_if_no_progress (refine Evolves.rest ?_ rfl rfl rfl rfl rfl rfl))

theorem withholdCrank_ev {s0 s : State} (h : Evolves s0 s) : Evolves s0 (withholdCrank s) := by
  unfold withholdCrank
  with_reducible repeat' (first
    | assumption | apply portSend_ev | apply cClear_ev | dsimp only | split
    | fail_if_no_progress (refine Evolves.rest ?_ rfl rfl rfl rfl rfl rfl))

theorem leaveStart_ev {s0 s : State} (fr dst : Mode) (h : Evolves s0 s) : Evolves s0 (leaveStart fr dst s) := by
  unfold leaveStart
  with_reducible repeat' (first | assumption | apply when_ev | apply State.setRbit_ev | apply withholdCrank_ev | intro _)

theorem commit_ev {s0 s : State} (dst : Mode) (cause : Nat) (h : Evolves s0 s) : Evolves s0 (commit dst cause s) := by
  unfold commit
  with_reducible repeat' (first
    | assumption | apply leaveStart_ev | apply when_ev | apply closeAllSessions_ev | apply modeEvent_ev | intro _
    | dsimp only | split | fail_if_no_progress (refine Evolves.rest ?_ rfl rfl rfl rfl rfl rfl))

theorem wantModeRecord_ev {s0 s : State} (h : Evolves s0 s) : Evolves s0 (wantModeRecord s) := by
  unfold wantModeRecord
  with_reducible repeat' (first
    | assumption | dsimp only | fail_if_no_progress (refine Evolves.rest ?_ rfl rfl rfl rfl rfl rfl))

theorem refuseBank_ev {s0 s : State} (h : Evolves s0 s) : Evolves s0 (refuseBank s) := by
  unfold refuseBank
  with_reducible repeat' (first
    | assumption | apply modeEvent_ev | apply State.onCore_ev | intro _ | dsimp only | apply coreOk_next
    | fail_if_no_progress (refine Evolves.rest ?_ rfl rfl rfl rfl rfl rfl))

theorem raiseLockdown_ev {s0 s : State} (b : Nat) (h : Evolves s0 s) : Evolves s0 (raiseLockdown b s) := by
  unfold raiseLockdown
  with_reducible repeat' (first
    | assumption | apply when_ev | apply refuseBank_ev | apply wantModeRecord_ev | apply commit_ev | dsimp only | split
    | fail_if_no_progress (refine Evolves.rest ?_ rfl rfl rfl rfl rfl rfl))

theorem approachExpiry_ev {s0 s : State} (h : Evolves s0 s) : Evolves s0 (approachExpiry s) := by
  unfold approachExpiry
  with_reducible repeat' (first | assumption | apply when_ev | apply commit_ev | intro _ | dsimp only | split)

theorem modeTable_ev {s0 s : State} (target : Nat) (h : Evolves s0 s) : Evolves s0 (modeTable target s) := by
  unfold modeTable
  with_reducible repeat' (first
    | assumption | apply commit_ev | apply modeEvent_ev | apply raiseLockdown_ev | intro _ | dsimp only | split
    | fail_if_no_progress (refine Evolves.rest ?_ rfl rfl rfl rfl rfl rfl))

theorem modeTarget_ev {s0 s : State} (target : Nat) (h : Evolves s0 s) : Evolves s0 (modeTarget target s) := by
  unfold modeTarget
  with_reducible repeat' (first
    | assumption | apply modeTable_ev | apply approachExpiry_ev | intro _ | dsimp only | split)

theorem modeRequest_ev {s0 s : State} (who : Sys2Proof.Req) (key : BitVec 16) (target : Nat) (h : Evolves s0 s) :
    Evolves s0 (modeRequest who key target s) := by
  unfold modeRequest
  with_reducible repeat' (first | assumption | apply modeTarget_ev | apply modeEvent_ev | split)

theorem sessionWrite_ev {s0 s : State} (who : Sys2Proof.Req) (close open_ : BitVec 8) (h : Evolves s0 s) :
    Evolves s0 (sessionWrite who close open_ s) := by
  unfold sessionWrite
  with_reducible repeat' (first
    | assumption | apply dropSessions_ev | apply when_ev | apply modeEvent_ev | apply commit_ev | intro _ | dsimp only
    | split | fail_if_no_progress (refine Evolves.rest ?_ rfl rfl rfl rfl rfl rfl))

theorem setGrant_ev {s0 s : State} (n : Nat) (h : Evolves s0 s) : Evolves s0 (setGrant n s) := by
  unfold setGrant
  with_reducible repeat' (first
    | assumption | apply when_ev | intro _ | dsimp only
    | fail_if_no_progress (refine Evolves.rest ?_ rfl rfl rfl rfl rfl rfl))

theorem execModeReqParked_ev {s0 s : State} (who : Sys2Proof.Req) (key : BitVec 16) (h : Evolves s0 s) :
    OutEv s0 (execModeReqParked who key s) := by
  unfold execModeReqParked
  with_reducible repeat' (first | assumption | apply when_ev | apply modeRequest_ev | apply OutEv.next | intro _)

theorem execModeReqAccess_ev {s0 s : State} (who : Sys2Proof.Req) (key : BitVec 16) (h : Evolves s0 s) :
    OutEv s0 (execModeReqAccess who key s) := by
  unfold execModeReqAccess
  with_reducible repeat' (first | assumption | apply when_ev | apply modeRequest_ev | apply OutEv.next | intro _)

theorem execModeReqLockdown_ev {s0 s : State} (who : Sys2Proof.Req) (key : BitVec 16) (h : Evolves s0 s) :
    OutEv s0 (execModeReqLockdown who key s) := by
  unfold execModeReqLockdown
  with_reducible repeat' (first | assumption | apply when_ev | apply modeRequest_ev | apply OutEv.next | intro _)

theorem execSessionClose_ev {s0 s : State} (who : Sys2Proof.Req) (mask : BitVec 8) (h : Evolves s0 s) :
    OutEv s0 (execSessionClose who mask s) := by
  unfold execSessionClose
  with_reducible repeat' (first | assumption | apply when_ev | apply sessionWrite_ev | apply OutEv.next | intro _)

theorem execSessionOpen_ev {s0 s : State} (who : Sys2Proof.Req) (mask : BitVec 8) (h : Evolves s0 s) :
    OutEv s0 (execSessionOpen who mask s) := by
  unfold execSessionOpen
  with_reducible repeat' (first | assumption | apply when_ev | apply sessionWrite_ev | apply OutEv.next | intro _)

theorem execApproachTimeout_ev {s0 s : State} (h : Evolves s0 s) : OutEv s0 (execApproachTimeout s) := by
  unfold execApproachTimeout
  with_reducible repeat' (first
    | assumption | apply when_ev | apply approachExpiry_ev | apply OutEv.next | exact OutEv.fault | intro _ | dsimp only
    | split)

theorem execGrantExpiry_ev {s0 s : State} (session : Fin 8) (h : Evolves s0 s) : OutEv s0 (execGrantExpiry session s) := by
  unfold execGrantExpiry
  with_reducible repeat' (first
    | assumption | apply when_ev | apply OutEv.next | intro _ | dsimp only
    | fail_if_no_progress (refine Evolves.rest ?_ rfl rfl rfl rfl rfl rfl))

theorem serviceEnd_ev {s0 s : State} (h : Evolves s0 s) : Evolves s0 (serviceEnd s) := by
  unfold serviceEnd
  with_reducible repeat' (first | assumption | apply when_ev | apply commit_ev | intro _)

theorem execServiceEnd_ev {s0 s : State} (h : Evolves s0 s) : OutEv s0 (execServiceEnd s) := by
  unfold execServiceEnd
  with_reducible repeat' (first | assumption | apply when_ev | apply serviceEnd_ev | apply OutEv.next)

theorem execModeRecordWrite_ev {s0 s : State} (h : Evolves s0 s) : OutEv s0 (execModeRecordWrite s) := by
  unfold execModeRecordWrite
  with_reducible repeat' (first
    | assumption | apply when_ev | apply State.setRbit_ev | apply beginCopy_ev | apply OutEv.next | intro _ | dsimp only
    | split | fail_if_no_progress (refine Evolves.rest ?_ rfl rfl rfl rfl rfl rfl))

theorem requestReset_ev {s0 s : State} (cause detail : Nat) (h : Evolves s0 s) :
    Evolves s0 (requestReset cause detail s) := by
  unfold requestReset
  with_reducible repeat' (first
    | assumption | dsimp only | split | fail_if_no_progress (refine Evolves.rest ?_ rfl rfl rfl rfl rfl rfl))

theorem execPinReset_ev {s0 s : State} (h : Evolves s0 s) : OutEv s0 (execPinReset s) := by
  unfold execPinReset
  with_reducible repeat' (first | assumption | apply requestReset_ev | apply OutEv.next)

theorem softwareReset_ev {s0 s : State} (who : Sys2Proof.Req) (key : BitVec 16) (h : Evolves s0 s) :
    Evolves s0 (softwareReset who key s) := by
  unfold softwareReset
  with_reducible repeat' (first | assumption | apply when_ev | apply requestReset_ev | intro _)

theorem execSoftwareReset_ev {s0 s : State} (who : Sys2Proof.Req) (key : BitVec 16) (h : Evolves s0 s) :
    OutEv s0 (execSoftwareReset who key s) := by
  unfold execSoftwareReset
  with_reducible repeat' (first | assumption | apply when_ev | apply softwareReset_ev | apply OutEv.next | intro _)

theorem wdtWrite_ev {s0 s : State} (who : Sys2Proof.Req) (v : Word) (h : Evolves s0 s) : Evolves s0 (wdtWrite who v s) := by
  unfold wdtWrite
  with_reducible repeat' (first
    | assumption | apply State.setReg_ev | apply when_ev | intro _ | dsimp only | split
    | fail_if_no_progress (refine Evolves.rest ?_ rfl rfl rfl rfl rfl rfl))

theorem execWatchdogEnable_ev {s0 s : State} (who : Sys2Proof.Req) (value : Word) (h : Evolves s0 s) :
    OutEv s0 (execWatchdogEnable who value s) := by
  unfold execWatchdogEnable
  with_reducible repeat' (first | assumption | apply when_ev | apply wdtWrite_ev | apply OutEv.next | intro _)

theorem kick_ev {s0 s : State} (who : Sys2Proof.Req) (key : BitVec 16) (h : Evolves s0 s) :
    Evolves s0 (kick who key s) := by
  unfold kick
  with_reducible repeat' (first
    | assumption | apply when_ev | intro _ | dsimp only
    | fail_if_no_progress (refine Evolves.rest ?_ rfl rfl rfl rfl rfl rfl))

theorem execKick_ev {s0 s : State} (who : Sys2Proof.Req) (key : BitVec 16) (h : Evolves s0 s) :
    OutEv s0 (execKick who key s) := by
  unfold execKick
  with_reducible repeat' (first | assumption | apply when_ev | apply kick_ev | apply OutEv.next | intro _)

theorem execWatchdog_ev {s0 s : State} (h : Evolves s0 s) : OutEv s0 (execWatchdog s) := by
  unfold execWatchdog
  with_reducible repeat' (first | assumption | apply when_ev | apply requestReset_ev | apply OutEv.next | intro _)

theorem execScanStall_ev {s0 s : State} (h : Evolves s0 s) : OutEv s0 (execScanStall s) := by
  unfold execScanStall
  with_reducible repeat' (first | assumption | apply when_ev | apply requestReset_ev | apply OutEv.next | intro _)

theorem loseLock_ev {s0 s : State} (h : Evolves s0 s) : Evolves s0 (loseLock s) := by
  unfold loseLock
  with_reducible repeat' (first
    | assumption | apply State.setRbit_ev | intro _ | dsimp only | split
    | fail_if_no_progress (refine Evolves.rest ?_ rfl rfl rfl rfl rfl rfl))

theorem execTbLockLoss_ev {s0 s : State} (h : Evolves s0 s) : OutEv s0 (execTbLockLoss s) := by
  unfold execTbLockLoss
  with_reducible repeat' (first
    | assumption | apply when_ev | apply loseLock_ev | apply OutEv.next | exact OutEv.fault | intro _ | dsimp only | split
    | fail_if_no_progress (refine Evolves.rest ?_ rfl rfl rfl rfl rfl rfl))

theorem execTbLock_ev {s0 s : State} (h : Evolves s0 s) : OutEv s0 (execTbLock s) := by
  unfold execTbLock
  with_reducible repeat' (first | assumption | apply when_ev | apply requestReset_ev | apply OutEv.next | intro _)

theorem execTbRelock_ev {s0 s : State} (h : Evolves s0 s) : OutEv s0 (execTbRelock s) := by
  unfold execTbRelock
  with_reducible repeat' (first
    | assumption | apply when_ev | apply State.setRbit_ev | apply OutEv.next | exact OutEv.fault | intro _ | dsimp only
    | split | fail_if_no_progress (refine Evolves.rest ?_ rfl rfl rfl rfl rfl rfl))

theorem vcoreWrite_ev {s0 s : State} (who : Sys2Proof.Req) (v : Word) (h : Evolves s0 s) :
    Evolves s0 (vcoreWrite who v s) := by
  unfold vcoreWrite
  with_reducible repeat' (first
    | assumption | apply State.setFld_ev | apply State.setRbit_ev | dsimp only | split
    | fail_if_no_progress (refine Evolves.rest ?_ rfl rfl rfl rfl rfl rfl))

theorem execVcoreTargetWrite_ev {s0 s : State} (who : Sys2Proof.Req) (value : Word) (h : Evolves s0 s) :
    OutEv s0 (execVcoreTargetWrite who value s) := by
  unfold execVcoreTargetWrite
  with_reducible repeat' (first | assumption | apply when_ev | apply vcoreWrite_ev | apply OutEv.next | intro _)

theorem execBuckStep_ev {s0 s : State} (h : Evolves s0 s) : OutEv s0 (execBuckStep s) := by
  unfold execBuckStep
  with_reducible repeat' (first
    | assumption | apply when_ev | apply State.setFld_ev | apply OutEv.next | intro _ | dsimp only | split
    | fail_if_no_progress (refine Evolves.rest ?_ rfl rfl rfl rfl rfl rfl))

theorem execVcoreSettled_ev {s0 s : State} (h : Evolves s0 s) : OutEv s0 (execVcoreSettled s) := by
  unfold execVcoreSettled
  with_reducible repeat' (first | assumption | apply when_ev | apply State.setRbit_ev | apply OutEv.next | intro _)

theorem presentWake_ev {s0 s : State} (src : Nat) (h : Evolves s0 s) : Evolves s0 (presentWake src s) := by
  unfold presentWake
  with_reducible repeat' (first
    | assumption | apply State.setRbit_ev | dsimp only | split
    | fail_if_no_progress (refine Evolves.rest ?_ rfl rfl rfl rfl rfl rfl))

theorem takeWake_ev {s0 s : State} (h : Evolves s0 s) : Evolves s0 (takeWake s) := by
  unfold takeWake
  with_reducible repeat' (first
    | assumption | apply when_ev | apply State.setFld_ev | apply State.setRbit_ev | intro _ | dsimp only | split
    | fail_if_no_progress (refine Evolves.rest ?_ rfl rfl rfl rfl rfl rfl))

theorem execWakeEvent_ev {s0 s : State} (h : Evolves s0 s) : OutEv s0 (execWakeEvent s) := by
  unfold execWakeEvent
  with_reducible repeat' (first
    | assumption | apply takeWake_ev | apply OutEv.next | exact OutEv.fault | intro _ | dsimp only | split)

theorem execRtcWake_ev {s0 s : State} (h : Evolves s0 s) : OutEv s0 (execRtcWake s) := by
  unfold execRtcWake
  with_reducible repeat' (first | assumption | apply when_ev | apply presentWake_ev | apply OutEv.next | intro _)

theorem execHwake_ev {s0 s : State} (h : Evolves s0 s) : OutEv s0 (execHwake s) := by
  unfold execHwake
  with_reducible repeat' (first
    | assumption | apply when_ev | apply forEach_ev | apply hostEvent_ev | apply presentWake_ev | apply OutEv.next
    | intro _)

theorem restartTimebase_ev {s0 s : State} (w e : Nat) (h : Evolves s0 s) : Evolves s0 (restartTimebase w e s) := by
  unfold restartTimebase
  with_reducible repeat' (first
    | assumption | apply State.setRbit_ev | apply State.setReg_ev | dsimp only
    | fail_if_no_progress (refine Evolves.rest ?_ rfl rfl rfl rfl rfl rfl))

theorem rtcEdge_ev {s0 s : State} (h : Evolves s0 s) : Evolves s0 (rtcEdge s) := by
  unfold rtcEdge
  with_reducible repeat' (first
    | assumption | apply restartTimebase_ev | dsimp only | split
    | fail_if_no_progress (refine Evolves.rest ?_ rfl rfl rfl rfl rfl rfl))

theorem execSramInitDone_ev {s0 s : State} (h : Evolves s0 s) : OutEv s0 (execSramInitDone s) := by
  unfold execSramInitDone
  with_reducible repeat' (first
    | assumption | apply when_ev | apply State.setRbit_ev | apply OutEv.next | intro _ | dsimp only
    | fail_if_no_progress (refine Evolves.rest ?_ rfl rfl rfl rfl rfl rfl))

theorem execTamper_ev {s0 s : State} (h : Evolves s0 s) : OutEv s0 (execTamper s) := by
  unfold execTamper
  with_reducible repeat' (first
    | assumption | apply when_ev | apply State.setRbit_ev | apply presentWake_ev | apply raiseLockdown_ev
    | apply OutEv.next | intro _ | dsimp only | split)

theorem unitSource_ev {s0 s : State} (addr src : Nat) (h : Evolves s0 s) : Evolves s0 (unitSource addr src s).2 := by
  unfold unitSource
  with_reducible repeat' (first
    | assumption | apply readSram_ev | intro _ | dsimp only | split | refine Evolves.pair ?_ (by assumption)
    | fail_if_no_progress (refine Evolves.rest ?_ rfl rfl rfl rfl rfl rfl))

theorem programUnits_ev {s0 s : State} (n addr src : Nat) (h : Evolves s0 s) :
    Evolves s0 (programUnits n addr src s).2 := by
  induction n generalizing s addr src with
  | zero => unfold programUnits; first | exact h | exact KEv.wait | exact OptPairEv.some h
  | succ n ih =>
    unfold programUnits
    with_reducible repeat' (first
      | apply ih | assumption | apply unitSource_ev | apply writeWithin_ev | intro _ | dsimp only | split
      | refine Evolves.pair ?_ (by assumption) | exact flash_not_sram _ (by assumption)
      | exact kiln_not_sram _ (by assumption) | fail_if_no_progress (refine Evolves.rest ?_ rfl rfl rfl rfl rfl rfl))

theorem spoil_ev {s0 s : State} (a n : Nat) (h : Evolves s0 s) : Evolves s0 (spoil a n s) := by
  unfold spoil
  with_reducible repeat' (first
    | assumption | apply writeWithin_ev | apply State.freshBytes_ev | intro _ | exact flash_not_sram _ (by assumption))

theorem unitInWork_ev {s0 s : State} (n : Nat) (h : Evolves s0 s) : Evolves s0 (unitInWork n s).2 := by
  unfold unitInWork
  with_reducible repeat' (first
    | assumption | intro _ | dsimp only | split | fail_if_no_progress (refine Evolves.rest ?_ rfl rfl rfl rfl rfl rfl))

theorem cutProgram_ev {s0 s : State} (addr src len : Nat) (h : Evolves s0 s) : Evolves s0 (cutProgram addr src len s) := by
  unfold cutProgram
  with_reducible repeat' (first
    | assumption | apply unitInWork_ev | apply programUnits_ev | apply spoil_ev | intro _ | dsimp only | split
    | refine Evolves.pair ?_ (by assumption))

theorem cutFlash_ev {s0 s : State} (h : Evolves s0 s) : Evolves s0 (cutFlash s) := by
  unfold cutFlash
  with_reducible repeat' (first
    | assumption | apply when_ev | apply cutProgram_ev | intro _ | dsimp only | split
    | fail_if_no_progress (refine Evolves.rest ?_ rfl rfl rfl rfl rfl rfl))

theorem supplyLost_ev {s0 s : State} (supply : Nat) (high : Bool) (h : Evolves s0 s) :
    Evolves s0 (supplyLost supply high s) := by
  unfold supplyLost
  with_reducible repeat' (first
    | assumption | apply State.setRbit_ev | apply cutFlash_ev | apply tearWrite_ev | dsimp only | split
    | fail_if_no_progress (refine Evolves.rest ?_ rfl rfl rfl rfl rfl rfl))

theorem execSupplyInvalid_ev {s0 s : State} (supply : Fin 4) (high outsideRatings : Bool) (h : Evolves s0 s) :
    OutEv s0 (execSupplyInvalid supply high outsideRatings s) := by
  unfold execSupplyInvalid
  with_reducible repeat' (first | assumption | apply supplyLost_ev | apply OutEv.next | exact OutEv.fault | split)

theorem execAlwaysOnLoss_ev {s0 s : State} (h : Evolves s0 s) : OutEv s0 (execAlwaysOnLoss s) := by
  unfold execAlwaysOnLoss
  with_reducible repeat' (first
    | assumption | apply when_ev | apply OutEv.next | intro _ | dsimp only
    | fail_if_no_progress (refine Evolves.rest ?_ rfl rfl rfl rfl rfl rfl))

theorem execRtcOscillatorRuns_ev {s0 s : State} (h : Evolves s0 s) : OutEv s0 (execRtcOscillatorRuns s) := by
  unfold execRtcOscillatorRuns
  with_reducible repeat' (first
    | assumption | apply when_ev | apply OutEv.next | intro _ | dsimp only
    | fail_if_no_progress (refine Evolves.rest ?_ rfl rfl rfl rfl rfl rfl))

theorem readTbLo_ev {s0 s : State} (who : Sys2Proof.Req) (h : Evolves s0 s) : Evolves s0 (readTbLo who s).2 := by
  unfold readTbLo
  with_reducible repeat' (first | assumption | apply State.setReg_ev)

theorem readRtcLo_ev {s0 s : State} (who : Sys2Proof.Req) (h : Evolves s0 s) : Evolves s0 (readRtcLo who s).2 := by
  unfold readRtcLo
  with_reducible repeat' (first | assumption | apply State.setReg_ev)

theorem answer_ev {s0 s : State} (rcode : Nat) (ws : List Word) (err : Bool) (h : Evolves s0 s) :
    Evolves s0 (answer rcode ws err s) := by
  unfold answer
  with_reducible repeat' (first
    | assumption | dsimp only | fail_if_no_progress (refine Evolves.rest ?_ rfl rfl rfl rfl rfl rfl))

theorem execTbNowLo_ev {s0 s : State} (who : Sys2Proof.Req) (h : Evolves s0 s) : OutEv s0 (execTbNowLo who s) := by
  unfold execTbNowLo
  with_reducible repeat' (first
    | assumption | apply when_ev | apply readTbLo_ev | apply answer_ev | apply OutEv.next | intro _)

theorem execRtcNowLo_ev {s0 s : State} (who : Sys2Proof.Req) (h : Evolves s0 s) : OutEv s0 (execRtcNowLo who s) := by
  unfold execRtcNowLo
  with_reducible repeat' (first
    | assumption | apply when_ev | apply readRtcLo_ev | apply answer_ev | apply OutEv.next | intro _)

theorem flashDoneWord_ev {s0 s : State} (status value : Nat) (h : Evolves s0 s) :
    Evolves s0 (flashDoneWord status value s) := by
  unfold flashDoneWord
  with_reducible repeat' (first | assumption | apply State.setReg_ev)

theorem flashProgram_ev {s0 s : State} (h : Evolves s0 s) : Evolves s0 (flashProgram s) := by
  unfold flashProgram
  with_reducible repeat' (first
    | assumption | apply State.setRbit_ev | apply flashDoneWord_ev | dsimp only | split
    | fail_if_no_progress (refine Evolves.rest ?_ rfl rfl rfl rfl rfl rfl))

theorem flashEraseAt_ev {s0 s : State} (addr : Nat) (h : Evolves s0 s) : Evolves s0 (flashEraseAt addr s) := by
  unfold flashEraseAt
  with_reducible repeat' (first
    | assumption | apply State.setRbit_ev | apply flashDoneWord_ev | dsimp only | split
    | fail_if_no_progress (refine Evolves.rest ?_ rfl rfl rfl rfl rfl rfl))

theorem flashErase_ev {s0 s : State} (h : Evolves s0 s) : Evolves s0 (flashErase s) := by
  unfold flashErase
  with_reducible repeat' (first | assumption | apply flashEraseAt_ev)

theorem flashSuspend_ev {s0 s : State} (h : Evolves s0 s) : Evolves s0 (flashSuspend s) := by
  unfold flashSuspend
  with_reducible repeat' (first
    | assumption | apply State.setRbit_ev | dsimp only | split
    | fail_if_no_progress (refine Evolves.rest ?_ rfl rfl rfl rfl rfl rfl))

theorem flashResume_ev {s0 s : State} (h : Evolves s0 s) : Evolves s0 (flashResume s) := by
  unfold flashResume
  with_reducible repeat' (first
    | assumption | apply State.setRbit_ev | dsimp only | split
    | fail_if_no_progress (refine Evolves.rest ?_ rfl rfl rfl rfl rfl rfl))

theorem flashCmd_ev {s0 s : State} (who : Sys2Proof.Req) (key : BitVec 16) (op : Nat) (h : Evolves s0 s) :
    Evolves s0 (flashCmd who key op s) := by
  unfold flashCmd
  with_reducible repeat' (first
    | assumption | apply State.setRbit_ev | apply flashProgram_ev | apply flashErase_ev | apply flashSuspend_ev
    | apply flashResume_ev | split)

theorem execProgram_ev {s0 s : State} (who : Sys2Proof.Req) (key : BitVec 16) (h : Evolves s0 s) :
    OutEv s0 (execProgram who key s) := by
  unfold execProgram
  with_reducible repeat' (first | assumption | apply when_ev | apply flashCmd_ev | apply OutEv.next | intro _)

theorem execErase_ev {s0 s : State} (who : Sys2Proof.Req) (key : BitVec 16) (h : Evolves s0 s) :
    OutEv s0 (execErase who key s) := by
  unfold execErase
  with_reducible repeat' (first | assumption | apply when_ev | apply flashCmd_ev | apply OutEv.next | intro _)

theorem execSuspend_ev {s0 s : State} (who : Sys2Proof.Req) (key : BitVec 16) (h : Evolves s0 s) :
    OutEv s0 (execSuspend who key s) := by
  unfold execSuspend
  with_reducible repeat' (first | assumption | apply when_ev | apply flashCmd_ev | apply OutEv.next | intro _)

theorem execFlashResume_ev {s0 s : State} (who : Sys2Proof.Req) (key : BitVec 16) (h : Evolves s0 s) :
    OutEv s0 (execFlashResume who key s) := by
  unfold execFlashResume
  with_reducible repeat' (first | assumption | apply when_ev | apply flashCmd_ev | apply OutEv.next | intro _)

theorem execSuspendTakesEffect_ev {s0 s : State} (h : Evolves s0 s) : OutEv s0 (execSuspendTakesEffect s) := by
  unfold execSuspendTakesEffect
  with_reducible repeat' (first
    | assumption | apply when_ev | apply OutEv.next | intro _ | dsimp only
    | fail_if_no_progress (refine Evolves.rest ?_ rfl rfl rfl rfl rfl rfl))

theorem flashEnd_ev {s0 s : State} (sec status value : Nat) (h : Evolves s0 s) :
    Evolves s0 (flashEnd sec status value s).2 := by
  unfold flashEnd
  with_reducible repeat' (first
    | assumption | apply flashDoneWord_ev | apply invalidateSector_ev | dsimp only
    | fail_if_no_progress (refine Evolves.rest ?_ rfl rfl rfl rfl rfl rfl))

theorem eraseSector_ev {s0 s : State} (sec : Nat) (h : Evolves s0 s) : Evolves s0 (eraseSector sec s) := by
  unfold eraseSector
  generalize List.replicate 4096 (0xFF : Byte) = bs
  exact Evolves.rest (writeWithin_ev inFlash _ bs h flash_not_sram) rfl rfl rfl rfl rfl rfl

theorem programEnd_ev {s0 s : State} (failed : Option Nat) (addr src len : Nat) (h : Evolves s0 s) :
    Evolves s0 (programEnd failed addr src len s).2 := by
  unfold programEnd
  with_reducible repeat' (first
    | assumption | apply programUnits_ev | apply unitSource_ev | apply spoil_ev | intro _ | dsimp only | split
    | refine Evolves.pair ?_ (by assumption) | fail_if_no_progress (refine Evolves.rest ?_ rfl rfl rfl rfl rfl rfl))

theorem flashFinish_ev {s0 s : State} (failed : Option Nat) (h : Evolves s0 s) : Evolves s0 (flashFinish failed s).2 := by
  unfold flashFinish
  with_reducible repeat' (first
    | assumption | apply programEnd_ev | apply flashEnd_ev | apply eraseSector_ev | apply spoil_ev | intro _ | dsimp only
    | split | refine Evolves.pair ?_ (by assumption)
    | fail_if_no_progress (refine Evolves.rest ?_ rfl rfl rfl rfl rfl rfl))

theorem sendLedgerStat_ev {s0 s : State} (seq reason status : Nat) (h : Evolves s0 s) :
    Evolves s0 (sendLedgerStat seq reason status s) := by
  unfold sendLedgerStat
  with_reducible repeat' (first | assumption | apply devSend_ev)

theorem rescan_ev {s0 s : State} (h : Evolves s0 s) : Evolves s0 (rescan s) := by
  unfold rescan
  with_reducible repeat' (first
    | assumption | apply beginScan_ev | dsimp only | split
    | fail_if_no_progress (refine Evolves.rest ?_ rfl rfl rfl rfl rfl rfl))

theorem ledgerCtl_ev {s0 s : State} (who : Sys2Proof.Req) (key : BitVec 16) (bit0 : Bool) (h : Evolves s0 s) :
    Evolves s0 (ledgerCtl who key bit0 s) := by
  unfold ledgerCtl
  with_reducible repeat' (first | assumption | apply when_ev | apply rescan_ev)

theorem execRescan_ev {s0 s : State} (src : RescanBy) (h : Evolves s0 s) : OutEv s0 (execRescan src s) := by
  unfold execRescan
  with_reducible repeat' (first
    | assumption | apply when_ev | apply ledgerCtl_ev | apply rescan_ev | apply cDrop_ev | apply OutEv.next | intro _
    | split)

theorem execReadCopy_ev {s0 s : State} (h : Evolves s0 s) : OutEv s0 (execReadCopy s) := by
  unfold execReadCopy
  with_reducible repeat' (first
    | assumption | apply when_ev | apply withSome_ev | apply cDrop_ev | apply sendLedgerStat_ev | apply devSend_ev
    | apply OutEv.next | intro _ | dsimp only | split)

theorem ackLedgerSnd_ev {s0 s : State} (h : Evolves s0 s) : Evolves s0 (ackLedgerSnd s) := by
  unfold ackLedgerSnd
  with_reducible repeat' (first | assumption | apply when_ev | apply State.onCore_ev | intro _ | apply coreOk_next)

theorem takeChannelWrite_ev {s0 s : State} (op n : Nat) (ws : List Word) (h : Evolves s0 s) :
    Evolves s0 (takeChannelWrite op n ws s) := by
  unfold takeChannelWrite
  with_reducible repeat' (first
    | assumption | apply sendLedgerStat_ev | apply ackLedgerSnd_ev | apply State.setRbit_ev | apply beginCopy_ev
    | apply beginUnit_ev | dsimp only | split | fail_if_no_progress (refine Evolves.rest ?_ rfl rfl rfl rfl rfl rfl))

theorem drainLedgerDin_ev {s0 s : State} (n : Nat) (h : Evolves s0 s) : Evolves s0 (drainLedgerDin n s) := by
  induction n generalizing s with
  | zero => unfold drainLedgerDin; exact h
  | succ n ih =>
    unfold drainLedgerDin
    with_reducible repeat' (first
      | apply ih | assumption | apply cDrop_ev | apply takeChannelWrite_ev | dsimp only | split
      | fail_if_no_progress (refine Evolves.rest ?_ rfl rfl rfl rfl rfl rfl))

theorem takeWriteWord_ev {s0 s : State} (op : Nat) (h : Evolves s0 s) : Evolves s0 (takeWriteWord op s) := by
  unfold takeWriteWord
  with_reducible repeat' (first
    | assumption | apply drainLedgerDin_ev | apply withSome_ev | apply cDrop_ev | intro _ | dsimp only | split
    | fail_if_no_progress (refine Evolves.rest ?_ rfl rfl rfl rfl rfl rfl))

theorem execWriteCopy_ev {s0 s : State} (h : Evolves s0 s) : OutEv s0 (execWriteCopy s) := by
  unfold execWriteCopy
  with_reducible repeat' (first | assumption | apply when_ev | apply takeWriteWord_ev | apply OutEv.next | intro _)

theorem execUnitWrite_ev {s0 s : State} (h : Evolves s0 s) : OutEv s0 (execUnitWrite s) := by
  unfold execUnitWrite
  with_reducible repeat' (first | assumption | apply when_ev | apply takeWriteWord_ev | apply OutEv.next | intro _)

theorem startWaitingWrite_ev {s0 s : State} (h : Evolves s0 s) : Evolves s0 (startWaitingWrite s) := by
  unfold startWaitingWrite
  with_reducible repeat' (first
    | assumption | apply takeChannelWrite_ev | dsimp only | split
    | fail_if_no_progress (refine Evolves.rest ?_ rfl rfl rfl rfl rfl rfl))

theorem endChannelWrite_ev {s0 s : State} (w : LedgerWrite) (ok : Bool) (h : Evolves s0 s) :
    Evolves s0 (endChannelWrite w ok s) := by
  unfold endChannelWrite
  with_reducible repeat' (first | assumption | apply sendLedgerStat_ev | apply ackLedgerSnd_ev)

theorem State.putQueue_ev {s0 s : State} (n : Nat) (q : Queue) (h : Evolves s0 s) : Evolves s0 (State.putQueue s n q) := by
  unfold State.putQueue
  with_reducible repeat' (first
    | assumption | dsimp only | fail_if_no_progress (refine Evolves.rest ?_ rfl rfl rfl rfl rfl rfl))

theorem State.onQueue_ev {s0 s : State} (n : Nat) (f : Queue → Queue) (h : Evolves s0 s) :
    Evolves s0 (State.onQueue s n f) := by
  unfold State.onQueue
  with_reducible repeat' (first | assumption | apply State.putQueue_ev | split)

theorem State.setCage_ev {s0 s : State} (c : Fin 8) (g : Cage) (h : Evolves s0 s) : Evolves s0 (State.setCage s c g) := by
  unfold State.setCage
  with_reducible repeat' (first
    | assumption | dsimp only | fail_if_no_progress (refine Evolves.rest ?_ rfl rfl rfl rfl rfl rfl))

theorem State.setEngine_ev {s0 s : State} (e : Nat) (x : Engine) (h : Evolves s0 s) :
    Evolves s0 (State.setEngine s e x) := by
  unfold State.setEngine
  with_reducible repeat' (first
    | assumption | dsimp only | fail_if_no_progress (refine Evolves.rest ?_ rfl rfl rfl rfl rfl rfl))

theorem frontEvent_ev {s0 s : State} (b : Nat) (h : Evolves s0 s) : Evolves s0 (frontEvent b s) := by
  unfold frontEvent
  with_reducible repeat' (first | assumption | apply State.setRbit_ev)

theorem attempt_ev {s0 s : State} (e : Nat) (h : Evolves s0 s) : Evolves s0 (attempt e s) := by
  unfold attempt
  with_reducible repeat' (first | assumption | apply State.setEngine_ev)

theorem countLate_ev {s0 s : State} (q : Nat) (h : Evolves s0 s) : Evolves s0 (countLate q s) := by
  unfold countLate
  with_reducible repeat' (first | assumption | apply State.onQueue_ev)

theorem lateSuccess_ev {s0 s : State} (e : Nat) (h : Evolves s0 s) : Evolves s0 (lateSuccess e s) := by
  unfold lateSuccess
  with_reducible repeat' (first | assumption | apply countLate_ev | apply State.setEngine_ev | dsimp only | split)

theorem adcEvent_ev {s0 s : State} (b : Nat) (h : Evolves s0 s) : Evolves s0 (adcEvent b s) := by
  unfold adcEvent
  with_reducible repeat' (first | assumption | apply blockEvent_ev)

theorem adcDrop_ev {s0 s : State} (h : Evolves s0 s) : Evolves s0 (adcDrop s) := by
  unfold adcDrop
  with_reducible repeat' (first
    | assumption | apply adcEvent_ev | apply State.satFld_ev | dsimp only
    | fail_if_no_progress (refine Evolves.rest ?_ rfl rfl rfl rfl rfl rfl))

theorem adcStore_ev {s0 s : State} (ws : List Word) (h : Evolves s0 s) : Evolves s0 (adcStore ws s) := by
  unfold adcStore
  with_reducible repeat' (first
    | assumption | apply forEach_ev | apply physWrite_ev | apply when_ev | apply adcEvent_ev | apply State.setFld_ev
    | intro _)

theorem adcMarker_ev {s0 s : State} (inj : Bool) (entry : Nat) (resumed : Bool) (first : Nat) (h : Evolves s0 s) :
    Evolves s0 (adcMarker inj entry resumed first s) := by
  unfold adcMarker
  with_reducible repeat' (first | assumption | apply adcStore_ev | apply adcDrop_ev | dsimp only | split)

theorem adcWindow_ev {s0 s : State} (n : Nat) (norm : Int) (h : Evolves s0 s) : Evolves s0 (adcWindow n norm s) := by
  unfold adcWindow
  with_reducible repeat' (first
    | assumption | apply when_ev | apply adcEvent_ev | apply State.setRbit_ev | intro _ | dsimp only | split
    | fail_if_no_progress (refine Evolves.rest ?_ rfl rfl rfl rfl rfl rfl))

theorem adcRing_ev {s0 s : State} (inj : Bool) (entry : Nat) (marker : Option Bool) (x : AdcResult) (h : Evolves s0 s) :
    Evolves s0 (adcRing inj entry marker x s).2 := by
  unfold adcRing
  with_reducible repeat' (first
    | assumption | apply withSome_ev | apply when_ev | apply adcMarker_ev | apply adcStore_ev | apply adcDrop_ev | intro _
    | dsimp only | split | fail_if_no_progress (refine Evolves.rest ?_ rfl rfl rfl rfl rfl rfl))

theorem adcCopy_ev {s0 s : State} (rec_ : Word) (lastOfRun : Bool) (x : AdcResult) (h : Evolves s0 s) :
    Evolves s0 (adcCopy rec_ lastOfRun x s) := by
  unfold adcCopy
  with_reducible repeat' (first | assumption | apply portTry_ev | apply adcEvent_ev | dsimp only | split)

theorem adcDeliver_ev {s0 s : State} (inj : Bool) (entry : Nat) (marker : Option Bool) (lastOfRun : Bool) (x : AdcResult)
    (h : Evolves s0 s) :
    Evolves s0 (adcDeliver inj entry marker lastOfRun x s) := by
  unfold adcDeliver
  with_reducible repeat' (first
    | assumption | apply adcRing_ev | apply State.setReg_ev | apply when_ev | apply adcCopy_ev | apply adcWindow_ev
    | intro _)

theorem adcStat_ev {s0 s : State} (n kind : Nat) (h : Evolves s0 s) : Evolves s0 (adcStat n kind s) := by
  unfold adcStat
  with_reducible repeat' (first | assumption | apply portTry_ev)

theorem State.setSeq_ev {s0 s : State} (r : Option AdcRun) (h : Evolves s0 s) : Evolves s0 (State.setSeq s r) := by
  unfold State.setSeq
  with_reducible repeat' (first
    | assumption | dsimp only | fail_if_no_progress (refine Evolves.rest ?_ rfl rfl rfl rfl rfl rfl))

theorem adcFlags_ev {s0 s : State} (h : Evolves s0 s) : Evolves s0 (adcFlags s) := by
  unfold adcFlags
  with_reducible repeat' (first | assumption | apply State.setRbit_ev | apply State.setFld_ev | dsimp only | split)

theorem adcNext_ev {s0 s : State} (r : AdcRun) (h : Evolves s0 s) : Evolves s0 (adcNext r s) := by
  unfold adcNext
  with_reducible repeat' (first
    | assumption | apply State.setSeq_ev | apply adcStat_ev | apply adcEvent_ev | apply State.incFld_ev | dsimp only
    | split | fail_if_no_progress (refine Evolves.rest ?_ rfl rfl rfl rfl rfl rfl))

theorem adcStopDue_ev {s0 s : State} (h : Evolves s0 s) : Evolves s0 (adcStopDue s) := by
  unfold adcStopDue
  with_reducible repeat' (first
    | assumption | apply adcFlags_ev | intro _ | dsimp only | split
    | fail_if_no_progress (refine Evolves.rest ?_ rfl rfl rfl rfl rfl rfl))

theorem adcConvert_ev {s0 s : State} (codes : List (BitVec 12)) (n k : Nat) (h : Evolves s0 s) :
    Evolves s0 (adcConvert codes n k s).2 := by
  induction n generalizing s k with
  | zero => unfold adcConvert; exact h
  | succ n ih =>
    unfold adcConvert
    with_reducible repeat' (first
      | apply ih | assumption | apply State.setSeq_ev | dsimp only | split
      | fail_if_no_progress (refine Evolves.rest ?_ rfl rfl rfl rfl rfl rfl))

theorem adcAfter_ev {s0 s : State} (inj : Bool) (r r' : AdcRun) (x : AdcResult) (h : Evolves s0 s) :
    Evolves s0 (adcAfter inj r r' x s) := by
  unfold adcAfter
  with_reducible repeat' (first
    | assumption | apply adcDeliver_ev | apply adcEvent_ev | apply adcStat_ev | apply adcNext_ev | dsimp only | split
    | fail_if_no_progress (refine Evolves.rest ?_ rfl rfl rfl rfl rfl rfl))

theorem adcResult_ev {s0 s : State} (codes : List (BitVec 12)) (h : Evolves s0 s) : Evolves s0 (adcResult codes s) := by
  unfold adcResult
  with_reducible repeat' (first
    | assumption | apply adcConvert_ev | apply adcFlags_ev | apply adcStopDue_ev | apply adcAfter_ev | split
    | refine Evolves.pair ?_ (by assumption))

theorem execAdcResult_ev {s0 s : State} (codes : List (BitVec 12)) (h : Evolves s0 s) :
    OutEv s0 (execAdcResult codes s) := by
  unfold execAdcResult
  with_reducible repeat' (first | assumption | apply when_ev | apply adcResult_ev | apply OutEv.next | intro _)

theorem adcBegin_ev {s0 s : State} (t : Nat) (h : Evolves s0 s) : Evolves s0 (adcBegin t s) := by
  unfold adcBegin
  with_reducible repeat' (first
    | assumption | apply adcEvent_ev | apply adcFlags_ev | apply State.setSeq_ev | apply State.setFld_ev | intro _
    | dsimp only | split | fail_if_no_progress (refine Evolves.rest ?_ rfl rfl rfl rfl rfl rfl))

theorem adcSoftStart_ev {s0 s : State} (t : Nat) (h : Evolves s0 s) : Evolves s0 (adcSoftStart t s) := by
  unfold adcSoftStart
  with_reducible repeat' (first | assumption | apply adcBegin_ev | apply adcEvent_ev | split)

theorem adcStop_ev {s0 s : State} (t : Nat) (h : Evolves s0 s) : Evolves s0 (adcStop t s) := by
  unfold adcStop
  with_reducible repeat' (first
    | assumption | apply when_ev | apply adcFlags_ev | apply adcStopDue_ev | intro _ | dsimp only
    | fail_if_no_progress (refine Evolves.rest ?_ rfl rfl rfl rfl rfl rfl))

theorem adcInject_ev {s0 s : State} (t : Nat) (h : Evolves s0 s) : Evolves s0 (adcInject t s) := by
  unfold adcInject
  with_reducible repeat' (first
    | assumption | apply adcEvent_ev | apply adcFlags_ev | dsimp only | split
    | fail_if_no_progress (refine Evolves.rest ?_ rfl rfl rfl rfl rfl rfl))

theorem adcVia_ev {s0 s : State} (via : Via) (op : Nat) (f : Nat → State → State) (h : Evolves s0 s)
    (evf : ∀ a0 a1, Evolves s0 a1 → Evolves s0 (f a0 a1)) :
    Evolves s0 (adcVia via op f s) := by
  unfold adcVia
  with_reducible repeat' (first
    | assumption | apply when_ev | apply withSome_ev | apply cDrop_ev | apply evf | intro _ | split)

theorem execAdcStart_ev {s0 s : State} (via : Via) (h : Evolves s0 s) : OutEv s0 (execAdcStart via s) := by
  unfold execAdcStart
  with_reducible repeat' (first
    | assumption | apply when_ev | apply adcVia_ev | apply adcSoftStart_ev | apply OutEv.next | intro _)

theorem execAdcStop_ev {s0 s : State} (via : Via) (h : Evolves s0 s) : OutEv s0 (execAdcStop via s) := by
  unfold execAdcStop
  with_reducible repeat' (first
    | assumption | apply when_ev | apply adcVia_ev | apply adcStop_ev | apply OutEv.next | intro _)

theorem execAdcInject_ev {s0 s : State} (via : Via) (h : Evolves s0 s) : OutEv s0 (execAdcInject via s) := by
  unfold execAdcInject
  with_reducible repeat' (first
    | assumption | apply when_ev | apply adcVia_ev | apply adcInject_ev | apply OutEv.next | intro _)

theorem adcTrig_ev {s0 s : State} (rising : Bool) (h : Evolves s0 s) : Evolves s0 (adcTrig rising s) := by
  unfold adcTrig
  with_reducible repeat' (first
    | assumption | apply State.setReg_ev | intro _ | dsimp only | split
    | fail_if_no_progress (refine Evolves.rest ?_ rfl rfl rfl rfl rfl rfl))

theorem adcTrigDue_ev {s0 s : State} (h : Evolves s0 s) : Evolves s0 (adcTrigDue s) := by
  unfold adcTrigDue
  with_reducible repeat' (first
    | assumption | apply adcBegin_ev | apply adcEvent_ev | intro _ | dsimp only | split
    | fail_if_no_progress (refine Evolves.rest ?_ rfl rfl rfl rfl rfl rfl))

theorem adcTick1_ev {s0 s : State} (h : Evolves s0 s) : Evolves s0 (adcTick1 s) := by
  unfold adcTick1
  with_reducible repeat' (first
    | assumption | apply when_ev | apply adcStopDue_ev | apply adcTrigDue_ev | intro _ | dsimp only | split)

theorem execAdcTrig_ev {s0 s : State} (rising : Bool) (h : Evolves s0 s) : OutEv s0 (execAdcTrig rising s) := by
  unfold execAdcTrig
  with_reducible repeat' (first | assumption | apply when_ev | apply adcTrig_ev | apply OutEv.next | intro _)

theorem adcCorrector_ev {s0 s : State} (h : Evolves s0 s) : Evolves s0 (adcCorrector s) := by
  unfold adcCorrector
  with_reducible repeat' (first
    | assumption | apply State.freshBytes_ev | intro _ | dsimp only | split | refine Evolves.pair ?_ (by assumption)
    | fail_if_no_progress (refine Evolves.rest ?_ rfl rfl rfl rfl rfl rfl))

theorem adcConverge_ev {s0 s : State} (h : Evolves s0 s) : Evolves s0 (adcConverge s) := by
  unfold adcConverge
  with_reducible repeat' (first
    | assumption | apply adcCorrector_ev | apply State.setRbit_ev | intro _ | dsimp only | split
    | fail_if_no_progress (refine Evolves.rest ?_ rfl rfl rfl rfl rfl rfl))

theorem adcCalRestart_ev {s0 s : State} (who : Sys2Proof.Req) (h : Evolves s0 s) : Evolves s0 (adcCalRestart who s) := by
  unfold adcCalRestart
  with_reducible repeat' (first | assumption | apply when_ev | apply adcConverge_ev)

theorem execAdcCalRestart_ev {s0 s : State} (who : Sys2Proof.Req) (h : Evolves s0 s) :
    OutEv s0 (execAdcCalRestart who s) := by
  unfold execAdcCalRestart
  with_reducible repeat' (first | assumption | apply when_ev | apply adcCalRestart_ev | apply OutEv.next | intro _)

theorem execConverged_ev {s0 s : State} (h : Evolves s0 s) : OutEv s0 (execConverged s) := by
  unfold execConverged
  with_reducible repeat' (first
    | assumption | apply when_ev | apply adcCorrector_ev | apply State.setRbit_ev | apply OutEv.next | exact OutEv.fault
    | intro _ | dsimp only | split | fail_if_no_progress (refine Evolves.rest ?_ rfl rfl rfl rfl rfl rfl))

theorem adcCtlWrite_ev {s0 s : State} (v : Word) (h : Evolves s0 s) : Evolves s0 (adcCtlWrite v s) := by
  unfold adcCtlWrite
  with_reducible repeat' (first
    | assumption | apply adcEvent_ev | apply State.setReg_ev | apply when_ev | apply adcConverge_ev | apply adcFlags_ev
    | apply State.setRbit_ev | intro _ | dsimp only | split
    | fail_if_no_progress (refine Evolves.rest ?_ rfl rfl rfl rfl rfl rfl))

theorem adcCmdWrite_ev {s0 s : State} (v : Word) (h : Evolves s0 s) : Evolves s0 (adcCmdWrite v s) := by
  unfold adcCmdWrite
  with_reducible repeat' (first
    | assumption | apply when_ev | apply adcSoftStart_ev | apply adcStop_ev | apply adcInject_ev | intro _)

theorem adcWrite_ev {s0 s : State} (a : Nat) (v : Word) (h : Evolves s0 s) : OptEv s0 (adcWrite a v s) := by
  unfold adcWrite
  with_reducible repeat' (first
    | assumption | apply adcCtlWrite_ev | apply adcCmdWrite_ev | apply State.setRbit_ev | apply when_ev
    | apply adcConverge_ev | apply adcEvent_ev | apply State.setReg_ev | apply State.setFld_ev | apply OptEv.some
    | exact OptEv.none | dsimp only | split)

theorem adcThaw_ev {s0 s : State} (h : Evolves s0 s) : Evolves s0 (adcThaw s) := by
  unfold adcThaw
  with_reducible repeat' (first
    | assumption | dsimp only | fail_if_no_progress (refine Evolves.rest ?_ rfl rfl rfl rfl rfl rfl))

theorem lfEvent_ev {s0 s : State} (b : Nat) (h : Evolves s0 s) : Evolves s0 (lfEvent b s) := by
  unfold lfEvent
  with_reducible repeat' (first | assumption | apply blockEvent_ev)

theorem State.setLf_ev {s0 s : State} (r : Option LfRun) (h : Evolves s0 s) : Evolves s0 (State.setLf s r) := by
  unfold State.setLf
  with_reducible repeat' (first
    | assumption | dsimp only | fail_if_no_progress (refine Evolves.rest ?_ rfl rfl rfl rfl rfl rfl))

theorem lfDiscard_ev {s0 s : State} (n : Nat) (h : Evolves s0 s) : Evolves s0 (lfDiscard n s) := by
  induction n generalizing s with
  | zero => unfold lfDiscard; exact h
  | succ n ih =>
    unfold lfDiscard
    with_reducible repeat' (first
      | apply ih | assumption | apply cDrop_ev | dsimp only | split
      | fail_if_no_progress (refine Evolves.rest ?_ rfl rfl rfl rfl rfl rfl))

theorem lfStopAt_ev {s0 s : State} (status : Nat) (r : LfRun) (h : Evolves s0 s) : Evolves s0 (lfStopAt status r s) := by
  unfold lfStopAt
  with_reducible repeat' (first | assumption | apply State.setLf_ev)

theorem lfAttempt_ev {s0 s : State} (r : LfRun) (w : Word) (h : Evolves s0 s) : Evolves s0 (lfAttempt r w s) := by
  unfold lfAttempt
  with_reducible repeat' (first | assumption | apply when_ev | apply attempt_ev | intro _)

theorem lfChip_ev {s0 s : State} (r : LfRun) (h : Evolves s0 s) : Evolves s0 (lfChip r s) := by
  unfold lfChip
  with_reducible repeat' (first
    | assumption | apply State.setLf_ev | apply lfStopAt_ev | apply lfAttempt_ev | apply cDrop_ev | dsimp only | split)

theorem lfDue_ev {s0 s : State} (h : Evolves s0 s) : Evolves s0 (lfDue s) := by
  unfold lfDue
  with_reducible repeat' (first | assumption | apply lfStopAt_ev | apply lfChip_ev | split)

theorem lfWindow_ev {s0 s : State} (h : Evolves s0 s) : Evolves s0 (lfWindow s) := by
  unfold lfWindow
  with_reducible repeat' (first | assumption | apply State.setLf_ev | dsimp only | split)

theorem lfTick_ev {s0 s : State} (h : Evolves s0 s) : Evolves s0 (lfTick s) := by
  unfold lfTick
  with_reducible repeat' (first | assumption | apply lfWindow_ev | apply lfDue_ev | apply lfDiscard_ev)

theorem lfEnd_ev {s0 s : State} (chips status : Nat) (r : LfRun) (h : Evolves s0 s) :
    Evolves s0 (lfEnd chips status r s) := by
  unfold lfEnd
  with_reducible repeat' (first
    | assumption | apply State.setFld_ev | apply portSend_ev | apply when_ev | apply lfEvent_ev | apply lfDiscard_ev
    | apply State.setRbit_ev | intro _ | dsimp only
    | fail_if_no_progress (refine Evolves.rest ?_ rfl rfl rfl rfl rfl rfl))

theorem lfRefuse_ev {s0 s : State} (ch : Nat) (h : Evolves s0 s) : Evolves s0 (lfRefuse ch s) := by
  unfold lfRefuse
  with_reducible repeat' (first | assumption | apply lfEvent_ev | apply portSend_ev)

theorem lfBegin_ev {s0 s : State} (telegram : Bool) (w : Word) (t : Nat) (h : Evolves s0 s) :
    Evolves s0 (lfBegin telegram w t s) := by
  unfold lfBegin
  with_reducible repeat' (first
    | assumption | apply lfRefuse_ev | apply State.setFld_ev | apply lfDue_ev | apply lfDiscard_ev | apply State.setLf_ev
    | apply State.setRbit_ev | intro _ | dsimp only | split
    | fail_if_no_progress (refine Evolves.rest ?_ rfl rfl rfl rfl rfl rfl))

theorem lfWord_ev {s0 s : State} (op : Nat) (f : Word → Nat → State → State) (h : Evolves s0 s)
    (evf : ∀ a0 a1 a2, Evolves s0 a2 → Evolves s0 (f a0 a1 a2)) :
    Evolves s0 (lfWord op f s) := by
  unfold lfWord
  with_reducible repeat' (first | assumption | apply withSome_ev | apply cDrop_ev | apply evf | intro _)

theorem lfStop_ev {s0 s : State} (status : Nat) (h : Evolves s0 s) : Evolves s0 (lfStop status s) := by
  unfold lfStop
  with_reducible repeat' (first | assumption | apply withSome_ev | apply lfEnd_ev | intro _)

theorem lfStopNow_ev {s0 s : State} (h : Evolves s0 s) : Evolves s0 (lfStopNow s) := by
  unfold lfStopNow
  with_reducible repeat' (first
    | assumption | apply withSome_ev | apply lfStop_ev | apply cTakeOut_ev | intro _ | dsimp only | split
    | fail_if_no_progress (refine Evolves.rest ?_ rfl rfl rfl rfl rfl rfl))

theorem execFieldStart_ev {s0 s : State} (h : Evolves s0 s) : OutEv s0 (execFieldStart s) := by
  unfold execFieldStart
  with_reducible repeat' (first
    | assumption | apply when_ev | apply lfWord_ev | apply lfBegin_ev | apply lfStopNow_ev | apply OutEv.next
    | exact OutEv.fault | intro _ | dsimp only | split)

theorem execCarrier_ev {s0 s : State} (h : Evolves s0 s) : OutEv s0 (execCarrier s) := by
  unfold execCarrier
  with_reducible repeat' (first
    | assumption | apply when_ev | apply lfWord_ev | apply lfBegin_ev | apply lfStopNow_ev | apply OutEv.next
    | exact OutEv.fault | intro _ | dsimp only | split)

theorem execFieldStop_ev {s0 s : State} (h : Evolves s0 s) : OutEv s0 (execFieldStop s) := by
  unfold execFieldStop
  with_reducible repeat' (first
    | assumption | apply when_ev | apply lfStopNow_ev | apply OutEv.next | exact OutEv.fault | intro _ | dsimp only
    | split)

theorem execUnderrun_ev {s0 s : State} (h : Evolves s0 s) : OutEv s0 (execUnderrun s) := by
  unfold execUnderrun
  with_reducible repeat' (first
    | assumption | apply when_ev | apply withSome_ev | apply lfEnd_ev | apply OutEv.next | intro _)

theorem execMaxon_ev {s0 s : State} (h : Evolves s0 s) : OutEv s0 (execMaxon s) := by
  unfold execMaxon
  with_reducible repeat' (first
    | assumption | apply when_ev | apply withSome_ev | apply lfEnd_ev | apply OutEv.next | intro _)

theorem execTelegramEnd_ev {s0 s : State} (h : Evolves s0 s) : OutEv s0 (execTelegramEnd s) := by
  unfold execTelegramEnd
  with_reducible repeat' (first
    | assumption | apply when_ev | apply withSome_ev | apply lfEnd_ev | apply OutEv.next | intro _ | split)

theorem lfCancel_ev {s0 s : State} (h : Evolves s0 s) : Evolves s0 (lfCancel s) := by
  unfold lfCancel
  with_reducible repeat' (first | assumption | apply withSome_ev | apply State.setLf_ev | intro _)

theorem lfOff_ev {s0 s : State} (h : Evolves s0 s) : Evolves s0 (lfOff s) := by
  unfold lfOff
  with_reducible repeat' (first | assumption | apply lfStop_ev)

theorem lfDiag_ev {s0 s : State} (n b : Nat) (h : Evolves s0 s) : Evolves s0 (lfDiag n b s) := by
  unfold lfDiag
  with_reducible repeat' (first | assumption | apply lfEvent_ev | apply State.setRbit_ev | split)

theorem lfRetune_ev {s0 s : State} (n : Nat) (h : Evolves s0 s) : Evolves s0 (lfRetune n s) := by
  unfold lfRetune
  with_reducible repeat' (first | assumption | apply withSome_ev | apply when_ev | apply State.setLf_ev | intro _)

theorem lfDiagnose_ev {s0 s : State} (n amp : Nat) (phase : Int) (h : Evolves s0 s) :
    Evolves s0 (lfDiagnose n amp phase s) := by
  unfold lfDiagnose
  with_reducible repeat' (first
    | assumption | apply when_ev | apply lfDiag_ev | intro _ | dsimp only | split
    | fail_if_no_progress (refine Evolves.rest ?_ rfl rfl rfl rfl rfl rfl))

theorem lfTune_ev {s0 s : State} (n : Nat) (phase : Int) (h : Evolves s0 s) : Evolves s0 (lfTune n phase s) := by
  unfold lfTune
  with_reducible repeat' (first | assumption | apply lfRetune_ev | apply State.setFld_ev | dsimp only | split)

theorem execMeasurementWindow_ev {s0 s : State} (amp : BitVec 11) (phase : BitVec 8) (h : Evolves s0 s) :
    OutEv s0 (execMeasurementWindow amp phase s) := by
  unfold execMeasurementWindow
  with_reducible repeat' (first
    | assumption | apply when_ev | apply withSome_ev | apply State.setReg_ev | apply State.setLf_ev | apply lfTune_ev
    | apply lfDiagnose_ev | apply OutEv.next | intro _)

theorem execShort_ev {s0 s : State} (ch : Fin 6) (h : Evolves s0 s) : OutEv s0 (execShort ch s) := by
  unfold execShort
  with_reducible repeat' (first
    | assumption | apply when_ev | apply lfDiag_ev | apply State.setRbit_ev | apply withSome_ev | apply lfEnd_ev
    | apply OutEv.next | intro _)

theorem execVbatLow_ev {s0 s : State} (low : Bool) (h : Evolves s0 s) : OutEv s0 (execVbatLow low s) := by
  unfold execVbatLow
  with_reducible repeat' (first
    | assumption | apply when_ev | apply lfEvent_ev | apply OutEv.next | exact OutEv.fault | intro _ | dsimp only | split
    | fail_if_no_progress (refine Evolves.rest ?_ rfl rfl rfl rfl rfl rfl))

theorem lfWrite_ev {s0 s : State} (a : Nat) (v : Word) (h : Evolves s0 s) : OptEv s0 (lfWrite a v s) := by
  unfold lfWrite
  with_reducible repeat' (first
    | assumption | apply State.setReg_ev | apply when_ev | apply lfRetune_ev | apply OptEv.some | exact OptEv.none
    | intro _ | dsimp only | split)

theorem capEvent_ev {s0 s : State} (b : Nat) (h : Evolves s0 s) : Evolves s0 (capEvent b s) := by
  unfold capEvent
  with_reducible repeat' (first | assumption | apply blockEvent_ev)

theorem State.setCap_ev {s0 s : State} (n : Fin 8) (c : CapChan) (h : Evolves s0 s) : Evolves s0 (State.setCap s n c) := by
  unfold State.setCap
  with_reducible repeat' (first
    | assumption | dsimp only | fail_if_no_progress (refine Evolves.rest ?_ rfl rfl rfl rfl rfl rfl))

theorem capWake_ev {s0 s : State} (n : Fin 8) (h : Evolves s0 s) : Evolves s0 (capWake n s) := by
  unfold capWake
  with_reducible repeat' (first
    | assumption | apply when_ev | apply presentWake_ev | apply State.setRbit_ev | intro _ | dsimp only | split
    | fail_if_no_progress (refine Evolves.rest ?_ rfl rfl rfl rfl rfl rfl))

theorem capHeld_ev {s0 s : State} (h : Evolves s0 s) : Evolves s0 (capHeld s) := by
  unfold capHeld
  with_reducible repeat' (first
    | assumption | apply when_ev | apply presentWake_ev | apply State.setReg_ev | intro _ | dsimp only | split
    | fail_if_no_progress (refine Evolves.rest ?_ rfl rfl rfl rfl rfl rfl))

theorem capMeasure_ev {s0 s : State} (n : Fin 8) (raw : Nat) (h : Evolves s0 s) : Evolves s0 (capMeasure n raw s) := by
  unfold capMeasure
  with_reducible repeat' (first
    | assumption | apply State.setReg_ev | apply State.setCap_ev | apply capEvent_ev | apply State.setRbit_ev
    | apply capWake_ev | dsimp only | split)

theorem capScan_ev {s0 s : State} (raw : List (BitVec 16)) (h : Evolves s0 s) : Evolves s0 (capScan raw s) := by
  unfold capScan
  with_reducible repeat' (first
    | assumption | apply State.incFld_ev | apply State.setFld_ev | intro _ | dsimp only | split
    | fail_if_no_progress (refine Evolves.rest ?_ rfl rfl rfl rfl rfl rfl))

theorem execCapScan_ev {s0 s : State} (low high : List (BitVec 16)) (h : Evolves s0 s) : OutEv s0 (execCapScan low high s) := by
  unfold execCapScan
  with_reducible repeat' (first
    | assumption | apply when_ev | apply capScan_ev | apply OutEv.next | exact OutEv.fault | intro _ | dsimp only | split)

theorem capEdge_ev {s0 s : State} (h : Evolves s0 s) : Evolves s0 (capEdge s) := by
  unfold capEdge
  with_reducible repeat' (first
    | assumption | apply State.setRbit_ev | apply capMeasure_ev | intro _ | dsimp only | split
    | fail_if_no_progress (refine Evolves.rest ?_ rfl rfl rfl rfl rfl rfl))

theorem capOverlap_ev {s0 s : State} (h : Evolves s0 s) : Evolves s0 (capOverlap s) := by
  unfold capOverlap
  with_reducible repeat' (first
    | assumption | apply when_ev | intro _ | dsimp only | split
    | fail_if_no_progress (refine Evolves.rest ?_ rfl rfl rfl rfl rfl rfl))

theorem capWrite_ev {s0 s : State} (a : Nat) (v : Word) (h : Evolves s0 s) : OptEv s0 (capWrite a v s) := by
  unfold capWrite
  with_reducible repeat' (first
    | assumption | apply State.setReg_ev | apply when_ev | apply State.setCap_ev | apply OptEv.some | exact OptEv.none
    | intro _ | dsimp only | split)

theorem wakeWaiters_ev {s0 s : State} (h : Evolves s0 s) : Evolves s0 (wakeWaiters s) := by
  unfold wakeWaiters
  with_reducible repeat' (first | assumption | apply forEach_ev | apply State.putQueue_ev | intro _ | dsimp only | split)

theorem stopQueue_ev {s0 s : State} (n reason : Nat) (h : Evolves s0 s) : Evolves s0 (stopQueue n reason s) := by
  unfold stopQueue
  with_reducible repeat' (first | assumption | apply State.onQueue_ev)

theorem faultStop_ev {s0 s : State} (n reason : Nat) (h : Evolves s0 s) : Evolves s0 (faultStop n reason s) := by
  unfold faultStop
  with_reducible repeat' (first | assumption | apply frontEvent_ev | apply stopQueue_ev)

theorem signalEdge_ev {s0 s : State} (owner ref : Nat) (ok : Bool) (h : Evolves s0 s) :
    Evolves s0 (signalEdge owner ref ok s) := by
  unfold signalEdge
  with_reducible repeat' (first
    | assumption | apply wakeWaiters_ev | apply frontEvent_ev | dsimp only | split
    | fail_if_no_progress (refine Evolves.rest ?_ rfl rfl rfl rfl rfl rfl))

theorem notifyOwner_ev {s0 s : State} (q : Queue) (d : Bytes) (h : Evolves s0 s) : Evolves s0 (notifyOwner q d s) := by
  unfold notifyOwner
  with_reducible repeat' (first
    | assumption | apply State.setE_ev | apply withSome_ev | apply when_ev | apply raiseVector_ev | intro _ | split)

theorem tally_ev {s0 s : State} (n index : Nat) (d : Bytes) (status value attempts stage sent : Nat) (h : Evolves s0 s) :
    Evolves s0 (tally n index d status value attempts stage sent s) := by
  unfold tally
  with_reducible repeat' (first
    | assumption | apply devWrite_ev | apply State.onQueue_ev | apply notifyOwner_ev | apply signalEdge_ev
    | apply faultStop_ev | dsimp only | split | refine Evolves.pair ?_ (by assumption))

theorem adopt_ev {s0 s : State} (c : Fin 8) (h : Evolves s0 s) : Evolves s0 (adopt c s) := by
  unfold adopt
  with_reducible repeat' (first | assumption | apply State.setCage_ev | dsimp only | split)

theorem takeCage_ev {s0 s : State} (c : Fin 8) (n : Nat) (h : Evolves s0 s) : Evolves s0 (takeCage c n s) := by
  unfold takeCage
  with_reducible repeat' (first | assumption | apply State.onQueue_ev | apply adopt_ev | apply State.setCage_ev)

theorem turn_ev {s0 s : State} (c : Fin 8) (h : Evolves s0 s) : Evolves s0 (turn c s) := by
  unfold turn
  with_reducible repeat' (first
    | assumption | apply adopt_ev | apply takeCage_ev | apply State.onQueue_ev | apply State.setCage_ev | dsimp only
    | split)

theorem feed_ev {s0 s : State} (h : Evolves s0 s) : Evolves s0 (feed s) := by
  unfold feed
  with_reducible repeat' (first | assumption | apply forEach_ev | apply when_ev | apply turn_ev | intro _)

theorem settle_ev {s0 s : State} (n : Nat) (h : Evolves s0 s) : Evolves s0 (settle n s) := by
  unfold settle
  with_reducible repeat' (first | assumption | apply State.onQueue_ev)

theorem leaveMoved_ev {s0 s : State} (c : Fin 8) (n : Nat) (h : Evolves s0 s) : Evolves s0 (leaveMoved c n s) := by
  unfold leaveMoved
  with_reducible repeat' (first | assumption | apply State.onQueue_ev)

theorem boundary_ev {s0 s : State} (c : Fin 8) (h : Evolves s0 s) : Evolves s0 (boundary c s) := by
  unfold boundary
  with_reducible repeat' (first
    | assumption | apply leaveMoved_ev | apply settle_ev | apply feed_ev | apply turn_ev | dsimp only | split)

theorem adel_all {α : Type} {p : Nat × α → Bool} {m : Assoc α} (k : Nat) (h : m.all p = true) : (adel m k).all p = true := by
  rw [List.all_eq_true] at *
  exact fun e he => h e (List.mem_of_mem_filter he)

theorem clearPorts_ev {s0 s : State} (e : Nat) (h : Evolves s0 s) : Evolves s0 (clearPorts e s) := by
  unfold clearPorts
  refine forEach_ev h (fun k u hu => ?_)
  refine (cClear_ev k hu).updChans (fun hc => ?_) rfl rfl rfl rfl rfl rfl rfl rfl
  simp only [chansOk, Bool.and_eq_true] at hc ⊢
  exact ⟨hc.1, adel_all k hc.2⟩

theorem flushEngine_ev {s0 s : State} (e : Nat) (h : Evolves s0 s) : Evolves s0 (flushEngine e s) := by
  unfold flushEngine
  with_reducible repeat' (first
    | assumption | apply clearPorts_ev | dsimp only | split
    | fail_if_no_progress (refine Evolves.rest ?_ rfl rfl rfl rfl rfl rfl))

theorem endFlush_ev {s0 s : State} (e : Nat) (h : Evolves s0 s) : Evolves s0 (endFlush e s) := by
  unfold endFlush
  with_reducible repeat' (first
    | assumption | apply State.setEngine_ev | dsimp only
    | fail_if_no_progress (refine Evolves.rest ?_ rfl rfl rfl rfl rfl rfl))

/-- A core at its reset values that starts at its own cvec. -/

theorem coreOk_start {c : Fin 6} {k : Core} {flg : BitVec 4} {ccause cbad cmp : Word} {cmpLate : Bool} {e : BitVec 16} {run : Run}
    (h : coreOk c k = true) :
    coreOk c ⟨Vector.replicate 16 0, flg, k.cvec, 0, k.cvec, 0, ccause, cbad, cmp, cmpLate, e, run⟩ = true := by
  simp only [coreOk, Bool.and_eq_true] at h ⊢
  refine ⟨⟨⟨⟨⟨by decide, ?_⟩, rfl⟩, h.1.1.2⟩, rfl⟩, h.2⟩
  have h2 := h.1.1.2
  simp only [clear, beq_iff_eq] at h2 ⊢
  have e3 : (3 : Word) = 0xFF &&& 3 := by decide
  rw [e3, ← BitVec.and_assoc, h2]
  decide

theorem clearCore_ev {s0 s : State} (c : Fin 6) (h : Evolves s0 s) : Evolves s0 (clearCore c s) := by
  unfold clearCore
  dsimp only
  refine Evolves.updChans (State.setCore_ev c _ h (fun i => coreOk_start (coreOk_of_ev i h)))
      (fun hc => ?_) rfl rfl rfl rfl rfl rfl rfl rfl
  simp only [chansOk, Bool.and_eq_true, List.all_eq_true, decide_eq_true_eq] at hc ⊢
  refine ⟨fun e he => ?_, hc.2⟩
  obtain ⟨x, hx, rfl⟩ := List.mem_map.1 (List.mem_of_mem_filter he)
  exact hc.1 x hx

theorem resetCore_ev {s0 s : State} (c : Fin 6) (h : Evolves s0 s) : Evolves s0 (resetCore c s) :=
  State.levelMode_ev (State.levelCmd_ev c (clearCore_ev c h))

theorem freeEngine_ev {s0 s : State} (e : Nat) (h : Evolves s0 s) : Evolves s0 (freeEngine e s) := by
  unfold freeEngine
  with_reducible repeat' (first | assumption | apply State.setEngine_ev)

theorem guiltyTallies_ev {s0 s : State} (n tail : Nat) (k : Nat) (h : Evolves s0 s) :
    Evolves s0 (guiltyTallies n tail k s) := by
  induction k generalizing s with
  | zero => unfold guiltyTallies; exact h
  | succ k ih =>
    unfold guiltyTallies
    with_reducible repeat' (first
      | apply ih | assumption | apply devRead_ev | apply State.onQueue_ev | apply tally_ev | apply faultStop_ev
      | dsimp only | split | refine Evolves.pair ?_ (by assumption))

theorem endCommand_ev {s0 s : State} (e status value : Nat) (h : Evolves s0 s) :
    Evolves s0 (endCommand e status value s) := by
  unfold endCommand
  with_reducible repeat' (first
    | assumption | apply tally_ev | apply boundary_ev | apply freeEngine_ev | apply State.setCage_ev | dsimp only | split)

theorem clearSets_ev {s0 s : State} (h : Evolves s0 s) : Evolves s0 (clearSets s) := by
  unfold clearSets
  with_reducible repeat' (first
    | assumption | intro _ | dsimp only | split | fail_if_no_progress (refine Evolves.rest ?_ rfl rfl rfl rfl rfl rfl))

theorem failServed_ev {s0 s : State} (c : Fin 6) (h : Evolves s0 s) : Evolves s0 (failServed c s) := by
  unfold failServed
  with_reducible repeat' (first
    | assumption | apply when_ev | apply clearSets_ev | apply lfOff_ev | apply resetCore_ev | apply forEach_ev
    | apply endFlush_ev | apply endCommand_ev | intro _ | dsimp only | split | apply coreOk_write | apply coreOk_advance
    | apply coreOk_put | exact coreOk_of_ev (by assumption) (by assumption) | apply coreOk_same | apply coreOk_next)

theorem resetServed_ev {s0 s : State} (e : Nat) (h : Evolves s0 s) : Evolves s0 (resetServed e s) := by
  unfold resetServed
  with_reducible repeat' (first | assumption | apply clearPorts_ev | apply failServed_ev | dsimp only | split)

theorem guiltySteps_ev {s0 s : State} (n e tail : Nat) (h : Evolves s0 s) : Evolves s0 (guiltySteps n e tail s) := by
  unfold guiltySteps
  with_reducible repeat' (first
    | assumption | apply State.onQueue_ev | apply resetServed_ev | apply guiltyTallies_ev | apply feed_ev
    | apply State.satFld_ev | apply State.setFld_ev | intro _ | dsimp only | split
    | fail_if_no_progress (refine Evolves.rest ?_ rfl rfl rfl rfl rfl rfl))

theorem sweepGuilty_ev {s0 s : State} (k : Nat) (h : Evolves s0 s) : Evolves s0 (sweepGuilty k s) := by
  induction k generalizing s with
  | zero => unfold sweepGuilty; exact h
  | succ k ih =>
    unfold sweepGuilty
    with_reducible repeat' (first | apply ih | assumption | apply guiltySteps_ev | split)

theorem finish_ev {s0 s : State} (e status value : Nat) (h : Evolves s0 s) : Evolves s0 (finish e status value s) := by
  unfold finish
  with_reducible repeat' (first | assumption | apply sweepGuilty_ev | apply endCommand_ev)

theorem doubleFault_ev {s0 s : State} (c : Fin 6) (h : Evolves s0 s) : Evolves s0 (doubleFault c s) := by
  unfold doubleFault
  with_reducible repeat' (first | assumption | apply requestReset_ev | apply sweepGuilty_ev | apply failServed_ev | split)

theorem doneWord_ev {s0 s : State} (e : Nat) (w : Word) (h : Evolves s0 s) : Evolves s0 (doneWord e w s) := by
  unfold doneWord
  with_reducible repeat' (first | assumption | apply finish_ev | apply lateSuccess_ev | dsimp only | split)

theorem execDoneWord_ev {s0 s : State} (engine : Nat) (h : Evolves s0 s) : OutEv s0 (execDoneWord engine s) := by
  unfold execDoneWord
  with_reducible repeat' (first
    | assumption | apply when_ev | apply withSome_ev | apply doneWord_ev | apply cDrop_ev | apply OutEv.next | intro _)

theorem fetch_ev {s0 s : State} (q : Queue) (h : Evolves s0 s) : Evolves s0 (fetch q s).2 := by
  unfold fetch
  with_reducible repeat' (first
    | assumption | apply devRead_ev | dsimp only | split | refine Evolves.pair ?_ (by assumption))

theorem headCommand_ev {s0 s : State} (n : Nat) (q : Queue) (h : Evolves s0 s) : Evolves s0 (headCommand n q s).2 := by
  unfold headCommand
  with_reducible repeat' (first | assumption | apply State.onQueue_ev | apply fetch_ev | split)

theorem ringFault_ev {s0 s : State} (c : Fin 8) (n : Nat) (h : Evolves s0 s) : Evolves s0 (ringFault c n s) := by
  unfold ringFault
  with_reducible repeat' (first | assumption | apply boundary_ev | apply faultStop_ev | apply State.setCage_ev)

theorem fetchHead_ev {s0 s : State} (c : Fin 8) (n : Nat) (q : Queue) (h : Evolves s0 s) :
    Evolves s0 (fetchHead c n q s) := by
  unfold fetchHead
  with_reducible repeat' (first
    | assumption | apply headCommand_ev | apply ringFault_ev | apply State.setCage_ev | dsimp only | split
    | refine Evolves.pair ?_ (by assumption))

theorem preloadNext_ev {s0 s : State} (c : Fin 8) (n : Nat) (h : Evolves s0 s) : Evolves s0 (preloadNext c n s) := by
  unfold preloadNext
  with_reducible repeat' (first
    | assumption | apply headCommand_ev | apply State.setCage_ev | dsimp only | split
    | refine Evolves.pair ?_ (by assumption))

theorem descriptorFetch_ev {s0 s : State} (c : Fin 8) (h : Evolves s0 s) : Evolves s0 (descriptorFetch c s) := by
  unfold descriptorFetch
  with_reducible repeat' (first
    | assumption | apply when_ev | apply preloadNext_ev | apply fetchHead_ev | intro _ | dsimp only | split)

theorem execDescriptorFetch_ev {s0 s : State} (cage : Fin 8) (h : Evolves s0 s) :
    OutEv s0 (execDescriptorFetch cage s) := by
  unfold execDescriptorFetch
  with_reducible repeat' (first | assumption | apply when_ev | apply descriptorFetch_ev | apply OutEv.next | intro _)

theorem failAt_ev {s0 s : State} (c : Fin 8) (f : Fetched) (status stage : Nat) (h : Evolves s0 s) :
    Evolves s0 (failAt c f status stage s) := by
  unfold failAt
  with_reducible repeat' (first | assumption | apply State.setCage_ev)

theorem waitOn_ev {s0 s : State} (c : Fin 8) (n : Nat) (f : Fetched) (h : Evolves s0 s) : Evolves s0 (waitOn c n f s) := by
  unfold waitOn
  with_reducible repeat' (first | assumption | apply State.onQueue_ev | apply boundary_ev | apply State.setCage_ev)

theorem indirect_ev {s0 s : State} (owner : Nat) (d : Bytes) (h : Evolves s0 s) : Evolves s0 (indirect owner d s).2 := by
  unfold indirect
  with_reducible repeat' (first
    | assumption | apply devRead_ev | dsimp only | split | refine Evolves.pair ?_ (by assumption))

theorem send_ev {s0 s : State} (c : Fin 8) (n : Nat) (q : Queue) (f : Fetched) (e : Nat) (withParam : Bytes)
    (h : Evolves s0 s) :
    Evolves s0 (send c n q f e withParam s) := by
  unfold send
  with_reducible repeat' (first
    | assumption | apply writeSram_ev | apply State.onQueue_ev | apply State.setCage_ev | apply State.setEngine_ev
    | apply cmdSend_ev)

theorem dispatchStages_ev {s0 s : State} (c : Fin 8) (n : Nat) (q : Queue) (f : Fetched) (h : Evolves s0 s) :
    Evolves s0 (dispatchStages c n q f s) := by
  unfold dispatchStages
  with_reducible repeat' (first
    | assumption | apply waitOn_ev | apply failAt_ev | apply indirect_ev | apply State.setCage_ev | apply send_ev
    | dsimp only | split | refine Evolves.pair ?_ (by assumption))

theorem dispatch_ev {s0 s : State} (c : Fin 8) (h : Evolves s0 s) : Evolves s0 (dispatch c s) := by
  unfold dispatch
  with_reducible repeat' (first | assumption | apply withSome_ev | apply dispatchStages_ev | intro _)

theorem execDispatch_ev {s0 s : State} (cage : Fin 8) (h : Evolves s0 s) : OutEv s0 (execDispatch cage s) := by
  unfold execDispatch
  with_reducible repeat' (first | assumption | apply when_ev | apply dispatch_ev | apply OutEv.next | intro _)

theorem execEngineGrant_ev {s0 s : State} (engine : Nat) (h : Evolves s0 s) : OutEv s0 (execEngineGrant engine s) := by
  unfold execEngineGrant
  with_reducible repeat' (first
    | assumption | apply when_ev | apply withSome_ev | apply dispatch_ev | apply OutEv.next | intro _)

theorem endAtFrontEnd_ev {s0 s : State} (c : Fin 8) (h : Evolves s0 s) : Evolves s0 (endAtFrontEnd c s) := by
  unfold endAtFrontEnd
  with_reducible repeat' (first
    | assumption | apply ringFault_ev | apply State.onQueue_ev | apply State.setCage_ev | apply boundary_ev
    | apply tally_ev | dsimp only | split)

theorem execEndAtFrontEnd_ev {s0 s : State} (cage : Fin 8) (h : Evolves s0 s) : OutEv s0 (execEndAtFrontEnd cage s) := by
  unfold execEndAtFrontEnd
  with_reducible repeat' (first | assumption | apply when_ev | apply endAtFrontEnd_ev | apply OutEv.next | intro _)

theorem execSliceEnd_ev {s0 s : State} (cage : Fin 8) (h : Evolves s0 s) : OutEv s0 (execSliceEnd cage s) := by
  unfold execSliceEnd
  with_reducible repeat' (first | assumption | apply when_ev | apply boundary_ev | apply OutEv.next | intro _)

theorem waitTmo_ev {s0 s : State} (n : Nat) (h : Evolves s0 s) : Evolves s0 (waitTmo n s) := by
  unfold waitTmo
  with_reducible repeat' (first
    | assumption | apply State.putQueue_ev | apply feed_ev | apply tally_ev | dsimp only | split)

theorem execWaitTmo_ev {s0 s : State} (queue : Fin 512) (h : Evolves s0 s) : OutEv s0 (execWaitTmo queue s) := by
  unfold execWaitTmo
  with_reducible repeat' (first | assumption | apply when_ev | apply waitTmo_ev | apply OutEv.next | intro _)

theorem setupBlock_ev {s0 s : State} (addr align len : Nat) (h : Evolves s0 s) :
    Evolves s0 (setupBlock addr align len s).2 := by
  unfold setupBlock
  with_reducible repeat' (first
    | assumption | apply physRead_ev | dsimp only | split | refine Evolves.pair ?_ (by assumption))

theorem qCreate_ev {s0 s : State} (owner operand arg : Nat) (h : Evolves s0 s) :
    Evolves s0 (qCreate owner operand arg s).2 := by
  unfold qCreate
  with_reducible repeat' (first
    | assumption | apply setupBlock_ev | apply State.putQueue_ev | intro _ | dsimp only | split
    | refine Evolves.pair ?_ (by assumption) | fail_if_no_progress (refine Evolves.rest ?_ rfl rfl rfl rfl rfl rfl))

theorem qDestroy_ev {s0 s : State} (owner operand arg : Nat) (h : Evolves s0 s) :
    Evolves s0 (qDestroy owner operand arg s).2 := by
  unfold qDestroy
  with_reducible repeat' (first
    | assumption | dsimp only | split | fail_if_no_progress (refine Evolves.rest ?_ rfl rfl rfl rfl rfl rfl))

theorem dropFetched_ev {s0 s : State} (n : Nat) (h : Evolves s0 s) : Evolves s0 (dropFetched n s) := by
  unfold dropFetched
  with_reducible repeat' (first | assumption | apply forEach_ev | apply State.setCage_ev | intro _)

theorem passCages_ev {s0 s : State} (n : Nat) (h : Evolves s0 s) : Evolves s0 (passCages n s) := by
  unfold passCages
  with_reducible repeat' (first
    | assumption | apply forEach_ev | apply when_ev | apply boundary_ev | intro _ | dsimp only | split)

theorem qStop_ev {s0 s : State} (owner operand arg : Nat) (h : Evolves s0 s) :
    Evolves s0 (qStop owner operand arg s).2 := by
  unfold qStop
  with_reducible repeat' (first
    | assumption | apply dropFetched_ev | apply State.onQueue_ev | apply passCages_ev | apply stopQueue_ev | intro _
    | dsimp only | split | fail_if_no_progress (refine Evolves.rest ?_ rfl rfl rfl rfl rfl rfl))

theorem qStart_ev {s0 s : State} (owner operand arg : Nat) (h : Evolves s0 s) :
    Evolves s0 (qStart owner operand arg s).2 := by
  unfold qStart
  with_reducible repeat' (first | assumption | apply feed_ev | apply State.putQueue_ev | dsimp only | split)

theorem qBind_ev {s0 s : State} (operand arg : Nat) (h : Evolves s0 s) : Evolves s0 (qBind operand arg s).2 := by
  unfold qBind
  with_reducible repeat' (first | assumption | apply State.putQueue_ev | apply feed_ev | dsimp only | split)

theorem qQuery_ev {s0 s : State} (operand arg : Nat) (h : Evolves s0 s) : Evolves s0 (qQuery operand arg s).2 := by
  unfold qQuery
  with_reducible repeat' (first | assumption | split)

theorem bReg_ev {s0 s : State} (owner operand arg : Nat) (h : Evolves s0 s) : Evolves s0 (bReg owner operand arg s).2 := by
  unfold bReg
  with_reducible repeat' (first
    | assumption | apply setupBlock_ev | dsimp only | split | refine Evolves.pair ?_ (by assumption)
    | fail_if_no_progress (refine Evolves.rest ?_ rfl rfl rfl rfl rfl rfl))

theorem bUnreg_ev {s0 s : State} (owner operand arg : Nat) (h : Evolves s0 s) :
    Evolves s0 (bUnreg owner operand arg s).2 := by
  unfold bUnreg
  with_reducible repeat' (first
    | assumption | dsimp only | split | fail_if_no_progress (refine Evolves.rest ?_ rfl rfl rfl rfl rfl rfl))

theorem eAlloc_ev {s0 s : State} (owner operand arg : Nat) (h : Evolves s0 s) :
    Evolves s0 (eAlloc owner operand arg s).2 := by
  unfold eAlloc
  with_reducible repeat' (first
    | assumption | dsimp only | split | fail_if_no_progress (refine Evolves.rest ?_ rfl rfl rfl rfl rfl rfl))

theorem eFree_ev {s0 s : State} (owner operand arg : Nat) (h : Evolves s0 s) :
    Evolves s0 (eFree owner operand arg s).2 := by
  unfold eFree
  with_reducible repeat' (first
    | assumption | dsimp only | split | fail_if_no_progress (refine Evolves.rest ?_ rfl rfl rfl rfl rfl rfl))

theorem eQuery_ev {s0 s : State} (operand arg : Nat) (h : Evolves s0 s) : Evolves s0 (eQuery operand arg s).2 := by
  unfold eQuery
  with_reducible repeat' (first | assumption | split)

theorem resume_ev {s0 s : State} (operand arg : Nat) (h : Evolves s0 s) : Evolves s0 (resume operand arg s).2 := by
  unfold resume
  with_reducible repeat' (first
    | assumption | apply feed_ev | dsimp only | split
    | fail_if_no_progress (refine Evolves.rest ?_ rfl rfl rfl rfl rfl rfl))

theorem ctlOp_ev {s0 s : State} (op owner operand arg : Nat) (h : Evolves s0 s) :
    Evolves s0 (ctlOp op owner operand arg s).2 := by
  unfold ctlOp
  with_reducible repeat' (first
    | assumption | apply qCreate_ev | apply qDestroy_ev | apply qStop_ev | apply qStart_ev | apply qBind_ev
    | apply qQuery_ev | apply bReg_ev | apply bUnreg_ev | apply eAlloc_ev | apply eFree_ev | apply eQuery_ev
    | apply resume_ev | split)

theorem frontCtl_ev {s0 s : State} (who : Sys2Proof.Req) (op operand : Nat) (h : Evolves s0 s) :
    Evolves s0 (frontCtl who op operand s) := by
  unfold frontCtl
  with_reducible repeat' (first
    | assumption | apply ctlOp_ev | apply State.setReg_ev | apply when_ev | apply frontEvent_ev | intro _ | split)

theorem execQCreate_ev {s0 s : State} (who : Sys2Proof.Req) (operand : BitVec 16) (h : Evolves s0 s) :
    OutEv s0 (execQCreate who operand s) := by
  unfold execQCreate
  with_reducible repeat' (first | assumption | apply when_ev | apply frontCtl_ev | apply OutEv.next | intro _)

theorem execQDestroy_ev {s0 s : State} (who : Sys2Proof.Req) (operand : BitVec 16) (h : Evolves s0 s) :
    OutEv s0 (execQDestroy who operand s) := by
  unfold execQDestroy
  with_reducible repeat' (first | assumption | apply when_ev | apply frontCtl_ev | apply OutEv.next | intro _)

theorem execQStop_ev {s0 s : State} (who : Sys2Proof.Req) (operand : BitVec 16) (h : Evolves s0 s) :
    OutEv s0 (execQStop who operand s) := by
  unfold execQStop
  with_reducible repeat' (first | assumption | apply when_ev | apply frontCtl_ev | apply OutEv.next | intro _)

theorem execQStart_ev {s0 s : State} (who : Sys2Proof.Req) (operand : BitVec 16) (h : Evolves s0 s) :
    OutEv s0 (execQStart who operand s) := by
  unfold execQStart
  with_reducible repeat' (first | assumption | apply when_ev | apply frontCtl_ev | apply OutEv.next | intro _)

theorem execQBind_ev {s0 s : State} (who : Sys2Proof.Req) (operand : BitVec 16) (h : Evolves s0 s) :
    OutEv s0 (execQBind who operand s) := by
  unfold execQBind
  with_reducible repeat' (first | assumption | apply when_ev | apply frontCtl_ev | apply OutEv.next | intro _)

theorem execQQuery_ev {s0 s : State} (who : Sys2Proof.Req) (operand : BitVec 16) (h : Evolves s0 s) :
    OutEv s0 (execQQuery who operand s) := by
  unfold execQQuery
  with_reducible repeat' (first | assumption | apply when_ev | apply frontCtl_ev | apply OutEv.next | intro _)

theorem execBReg_ev {s0 s : State} (who : Sys2Proof.Req) (operand : BitVec 16) (h : Evolves s0 s) :
    OutEv s0 (execBReg who operand s) := by
  unfold execBReg
  with_reducible repeat' (first | assumption | apply when_ev | apply frontCtl_ev | apply OutEv.next | intro _)

theorem execBUnreg_ev {s0 s : State} (who : Sys2Proof.Req) (operand : BitVec 16) (h : Evolves s0 s) :
    OutEv s0 (execBUnreg who operand s) := by
  unfold execBUnreg
  with_reducible repeat' (first | assumption | apply when_ev | apply frontCtl_ev | apply OutEv.next | intro _)

theorem execEAlloc_ev {s0 s : State} (who : Sys2Proof.Req) (operand : BitVec 16) (h : Evolves s0 s) :
    OutEv s0 (execEAlloc who operand s) := by
  unfold execEAlloc
  with_reducible repeat' (first | assumption | apply when_ev | apply frontCtl_ev | apply OutEv.next | intro _)

theorem execEFree_ev {s0 s : State} (who : Sys2Proof.Req) (operand : BitVec 16) (h : Evolves s0 s) :
    OutEv s0 (execEFree who operand s) := by
  unfold execEFree
  with_reducible repeat' (first | assumption | apply when_ev | apply frontCtl_ev | apply OutEv.next | intro _)

theorem execEQuery_ev {s0 s : State} (who : Sys2Proof.Req) (operand : BitVec 16) (h : Evolves s0 s) :
    OutEv s0 (execEQuery who operand s) := by
  unfold execEQuery
  with_reducible repeat' (first | assumption | apply when_ev | apply frontCtl_ev | apply OutEv.next | intro _)

theorem execResume_ev {s0 s : State} (who : Sys2Proof.Req) (operand : BitVec 16) (h : Evolves s0 s) :
    OutEv s0 (execResume who operand s) := by
  unfold execResume
  with_reducible repeat' (first | assumption | apply when_ev | apply frontCtl_ev | apply OutEv.next | intro _)

theorem doorbell_ev {s0 s : State} (who : Sys2Proof.Req) (v : Word) (h : Evolves s0 s) : Evolves s0 (doorbell who v s) := by
  unfold doorbell
  with_reducible repeat' (first
    | assumption | apply frontEvent_ev | apply feed_ev | apply State.putQueue_ev | dsimp only | split)

theorem execDoorbell_ev {s0 s : State} (who : Sys2Proof.Req) (value : Word) (h : Evolves s0 s) :
    OutEv s0 (execDoorbell who value s) := by
  unfold execDoorbell
  with_reducible repeat' (first | assumption | apply when_ev | apply doorbell_ev | apply OutEv.next | intro _)

theorem cageWrite_ev {s0 s : State} (c : Fin 8) (v : Word) (h : Evolves s0 s) : Evolves s0 (cageWrite c v s) := by
  unfold cageWrite
  with_reducible repeat' (first | assumption | apply when_ev | apply frontEvent_ev | apply State.setReg_ev | intro _)

theorem frontWrite_ev {s0 s : State} (who : Sys2Proof.Req) (a : Nat) (v : Word) (h : Evolves s0 s) :
    OptEv s0 (frontWrite who a v s) := by
  unfold frontWrite
  with_reducible repeat' (first
    | assumption | apply frontCtl_ev | apply doorbell_ev | apply when_ev | apply cageWrite_ev | apply State.setReg_ev
    | apply OptEv.some | exact OptEv.none | intro _ | split)

end Sys2Proof.Machine
end

