-- ==== Sys2Proof/Laws/KeepsKiln.lean ====
section
/-! SUPPORT. What the radios, the entropy source and the Kiln engines do keeps the invariant. -/
namespace Sys2Proof.Machine

theorem uhfEvent_ev {s0 s : State} (b : Nat) (h : Evolves s0 s) : Evolves s0 (uhfEvent b s) := by
  unfold uhfEvent
  with_reducible repeat' (first | assumption | apply blockEvent_ev)

theorem uhfFrame_ev {s0 s : State} (ch : Fin 4) (sync : BitVec 24) (frame : Bytes) (power : BitVec 8) (fine : BitVec 10) (h : Evolves s0 s) :
    Evolves s0 (uhfFrame ch sync frame power fine s) := by
  unfold uhfFrame
  with_reducible repeat' (first
    | assumption | apply when_ev | intro _ | dsimp only | split
    | fail_if_no_progress (refine Evolves.rest ?_ rfl rfl rfl rfl rfl rfl))

theorem execUhfFrame_ev {s0 s : State} (ch : Fin 4) (sync : BitVec 24) (frame : List Byte) (power : BitVec 8) (fine : BitVec 10) (h : Evolves s0 s) :
    OutEv s0 (execUhfFrame ch sync frame power fine s) := by
  unfold execUhfFrame
  with_reducible repeat' (first
    | assumption | apply when_ev | apply uhfFrame_ev | apply OutEv.next | exact OutEv.fault | intro _ | dsimp only | split)

theorem uhfDeliver_ev {s0 s : State} (x : UhfRx) (h : Evolves s0 s) : Evolves s0 (uhfDeliver x s) := by
  unfold uhfDeliver
  with_reducible repeat' (first
    | assumption | apply uhfEvent_ev | apply portTry_ev | apply portSend_ev | apply State.incFld_ev | intro _ | dsimp only
    | split | refine Evolves.pair ?_ (by assumption)
    | fail_if_no_progress (refine Evolves.rest ?_ rfl rfl rfl rfl rfl rfl))

theorem uhfTick_ev {s0 s : State} (h : Evolves s0 s) : Evolves s0 (uhfTick s) := by
  unfold uhfTick
  with_reducible repeat' (first
    | assumption | apply forEach_ev | apply uhfDeliver_ev | intro _ | dsimp only | split
    | fail_if_no_progress (refine Evolves.rest ?_ rfl rfl rfl rfl rfl rfl))

theorem uhfOff_ev {s0 s : State} (h : Evolves s0 s) : Evolves s0 (uhfOff s) := by
  unfold uhfOff
  with_reducible repeat' (first
    | assumption | intro _ | dsimp only | split | fail_if_no_progress (refine Evolves.rest ?_ rfl rfl rfl rfl rfl rfl))

theorem uhfWrite_ev {s0 s : State} (a : Nat) (v : Word) (h : Evolves s0 s) : OptEv s0 (uhfWrite a v s) := by
  unfold uhfWrite
  with_reducible repeat' (first
    | assumption | apply State.setReg_ev | apply uhfOff_ev | apply OptEv.some | apply OptPairEv.some | exact OptEv.none
    | exact OptPairEv.none | intro _ | dsimp only | split
    | fail_if_no_progress (refine Evolves.rest ?_ rfl rfl rfl rfl rfl rfl))

theorem uwbEvent_ev {s0 s : State} (b : Nat) (h : Evolves s0 s) : Evolves s0 (uwbEvent b s) := by
  unfold uwbEvent
  with_reducible repeat' (first | assumption | apply blockEvent_ev)

theorem State.onRange_ev {s0 s : State} (f : Range → Range) (h : Evolves s0 s) : Evolves s0 (State.onRange s f) := by
  unfold State.onRange
  with_reducible repeat' (first | assumption | fail_if_no_progress (refine Evolves.rest ?_ rfl rfl rfl rfl rfl rfl))

theorem clearPass_ev {s0 s : State} (h : Evolves s0 s) : Evolves s0 (clearPass s) := by
  unfold clearPass
  with_reducible repeat' (first | assumption | apply State.setRbit_ev)

theorem loadRbe_ev {s0 s : State} (session ta : Nat) (chal zero one : Bytes) (h : Evolves s0 s) :
    Evolves s0 (loadRbe session ta chal zero one s) := by
  unfold loadRbe
  with_reducible repeat' (first | assumption | apply clearPass_ev | apply State.onRange_ev)

theorem loadSts_ev {s0 s : State} (session : Nat) (key iv : Bytes) (h : Evolves s0 s) :
    Evolves s0 (loadSts session key iv s) := by
  unfold loadSts
  with_reducible repeat' (first | assumption | apply clearPass_ev | apply State.onRange_ev)

theorem drainLoad_ev {s0 s : State} (n : Nat) (h : Evolves s0 s) : Evolves s0 (drainLoad n s) := by
  induction n generalizing s with
  | zero => unfold drainLoad; exact h
  | succ n ih =>
    unfold drainLoad
    with_reducible repeat' (first | apply ih | assumption | apply cDrop_ev | apply State.onRange_ev | split)

theorem takeLoad_ev {s0 s : State} (kind : Nat) (h : Evolves s0 s) : Evolves s0 (takeLoad kind s) := by
  unfold takeLoad
  with_reducible repeat' (first
    | assumption | apply drainLoad_ev | apply State.onRange_ev | apply loadRbe_ev | apply loadSts_ev | dsimp only | split)

theorem execLoadRbe_ev {s0 s : State} (h : Evolves s0 s) : OutEv s0 (execLoadRbe s) := by
  unfold execLoadRbe
  with_reducible repeat' (first | assumption | apply when_ev | apply takeLoad_ev | apply OutEv.next | intro _)

theorem execLoadSts_ev {s0 s : State} (h : Evolves s0 s) : OutEv s0 (execLoadSts s) := by
  unfold execLoadSts
  with_reducible repeat' (first | assumption | apply when_ev | apply takeLoad_ev | apply OutEv.next | intro _)

theorem execLoadExpired_ev {s0 s : State} (h : Evolves s0 s) : OutEv s0 (execLoadExpired s) := by
  unfold execLoadExpired
  with_reducible repeat' (first
    | assumption | apply when_ev | apply uwbEvent_ev | apply State.onRange_ev | apply OutEv.next | intro _)

theorem rangeReport_ev {s0 s : State} (dists : List (Nat × Nat)) (w : Word) (h : Evolves s0 s) :
    Evolves s0 (rangeReport dists w s) := by
  unfold rangeReport
  with_reducible repeat' (first
    | assumption | apply portSend_ev | apply when_ev | apply lateSuccess_ev | apply uwbEvent_ev | apply State.setReg_ev
    | intro _)

theorem freshBound_ev {s0 s : State} (h : Evolves s0 s) : Evolves s0 (freshBound s).2 := by
  unfold freshBound
  with_reducible repeat' (first | assumption | apply State.freshWord_ev)

theorem judgeZones_ev {s0 s : State} (r : RangeRun) (bound : Option Nat) (dists : List (Nat × Nat)) (h : Evolves s0 s) :
    Evolves s0 (judgeZones r bound dists s) := by
  unfold judgeZones
  with_reducible repeat' (first | assumption | apply freshBound_ev | apply rangeReport_ev | dsimp only | split)

theorem endCause_ev {s0 s : State} (r : RangeRun) (cause : Nat) (dists : List (Nat × Nat)) (h : Evolves s0 s) :
    Evolves s0 (endCause r cause dists s) := by
  unfold endCause
  with_reducible repeat' (first | assumption | apply freshBound_ev | apply rangeReport_ev)

theorem judgeRbe_ev {s0 s : State} (r : RangeRun) (x : RbeSet) (ack : Option (BitVec 32)) (replies : List
    (Option RbeReply)) (sats : List (Option (BitVec 32))) (h : Evolves s0 s) :
    Evolves s0 (judgeRbe r x ack replies sats s) := by
  unfold judgeRbe
  with_reducible repeat' (first | assumption | apply endCause_ev | apply judgeZones_ev | dsimp only | split)

theorem judgeCal_ev {s0 s : State} (r : RangeRun) (x : RbeSet) (ack : Option (BitVec 32)) (replies : List
    (Option RbeReply)) (h : Evolves s0 s) :
    Evolves s0 (judgeCal r x ack replies s) := by
  unfold judgeCal
  with_reducible repeat' (first | assumption | apply rangeReport_ev | apply portSend_ev | dsimp only | split)

theorem judgeRound_ev {s0 s : State} (r : RangeRun) (poll : Bool) (final : Option Bytes) (anchors : List (Option AnchorTimes)) (h : Evolves s0 s) :
    Evolves s0 (judgeRound r poll final anchors s) := by
  unfold judgeRound
  with_reducible repeat' (first
    | assumption | apply endCause_ev | apply judgeZones_ev | intro _ | dsimp only | split
    | fail_if_no_progress (refine Evolves.rest ?_ rfl rfl rfl rfl rfl rfl))

theorem judgeLf_ev {s0 s : State} (r : RangeRun) (gen : Nat) (w0 w1 : Word) (h : Evolves s0 s) :
    Evolves s0 (judgeLf r gen w0 w1 s) := by
  unfold judgeLf
  with_reducible repeat' (first | assumption | apply rangeReport_ev | dsimp only | split)

theorem rangeBegin_ev {s0 s : State} (k : RangeKind) (purpose session t : Nat) (h : Evolves s0 s) :
    Evolves s0 (rangeBegin k purpose session t s) := by
  unfold rangeBegin
  with_reducible repeat' (first | assumption | apply State.onRange_ev)

theorem sendInit_ev {s0 s : State} (h : Evolves s0 s) : Evolves s0 (sendInit s) := by
  unfold sendInit
  with_reducible repeat' (first
    | assumption | apply State.freshBytes_ev | apply State.onRange_ev | intro _ | dsimp only | split
    | refine Evolves.pair ?_ (by assumption) | fail_if_no_progress (refine Evolves.rest ?_ rfl rfl rfl rfl rfl rfl))

theorem notLoaded_ev {s0 s : State} (k : Nat) (purpose session : Nat) (h : Evolves s0 s) :
    Evolves s0 (notLoaded k purpose session s) := by
  unfold notLoaded
  with_reducible repeat' (first | assumption | apply freshBound_ev | apply rangeReport_ev | split)

theorem rangeCtrl_ev {s0 s : State} (op : Nat) (f : Word → Nat → State → State) (h : Evolves s0 s)
    (evf : ∀ a0 a1 a2, Evolves s0 a2 → Evolves s0 (f a0 a1 a2)) :
    Evolves s0 (rangeCtrl op f s) := by
  unfold rangeCtrl
  with_reducible repeat' (first
    | assumption | apply withSome_ev | apply cDrop_ev | apply uwbEvent_ev | apply evf | intro _ | dsimp only | split)

theorem rangeRbe_ev {s0 s : State} (w : Word) (t : Nat) (h : Evolves s0 s) : Evolves s0 (rangeRbe w t s) := by
  unfold rangeRbe
  with_reducible repeat' (first
    | assumption | apply attempt_ev | apply sendInit_ev | apply rangeBegin_ev | apply State.onRange_ev
    | apply notLoaded_ev | intro _ | dsimp only | split
    | fail_if_no_progress (refine Evolves.rest ?_ rfl rfl rfl rfl rfl rfl))

theorem rangeRound_ev {s0 s : State} (w : Word) (t : Nat) (h : Evolves s0 s) : Evolves s0 (rangeRound w t s) := by
  unfold rangeRound
  with_reducible repeat' (first
    | assumption | apply attempt_ev | apply rangeBegin_ev | apply State.onRange_ev | apply notLoaded_ev | split)

theorem rangeCal_ev {s0 s : State} (_w : Word) (t : Nat) (h : Evolves s0 s) : Evolves s0 (rangeCal _w t s) := by
  unfold rangeCal
  with_reducible repeat' (first
    | assumption | apply rangeReport_ev | apply notLoaded_ev | apply attempt_ev | apply sendInit_ev | apply rangeBegin_ev
    | apply State.onRange_ev | intro _ | dsimp only | split
    | fail_if_no_progress (refine Evolves.rest ?_ rfl rfl rfl rfl rfl rfl))

theorem dropLate_ev {s0 s : State} (e : Nat) (h : Evolves s0 s) : Evolves s0 (dropLate e s) := by
  unfold dropLate
  with_reducible repeat' (first
    | assumption | apply State.setEngine_ev | intro _ | dsimp only | split
    | fail_if_no_progress (refine Evolves.rest ?_ rfl rfl rfl rfl rfl rfl))

theorem execRbe_ev {s0 s : State} (h : Evolves s0 s) : OutEv s0 (execRbe s) := by
  unfold execRbe
  with_reducible repeat' (first
    | assumption | apply when_ev | apply rangeCtrl_ev | apply rangeRbe_ev | apply OutEv.next | intro _)

theorem execRound_ev {s0 s : State} (h : Evolves s0 s) : OutEv s0 (execRound s) := by
  unfold execRound
  with_reducible repeat' (first
    | assumption | apply when_ev | apply rangeCtrl_ev | apply rangeRound_ev | apply OutEv.next | intro _)

theorem execLfZone_ev {s0 s : State} (h : Evolves s0 s) : OutEv s0 (execLfZone s) := by
  unfold execLfZone
  with_reducible repeat' (first
    | assumption | apply when_ev | apply rangeCtrl_ev | apply rangeBegin_ev | apply dropLate_ev | apply OutEv.next
    | exact OutEv.fault | intro _ | dsimp only | split)

theorem execCal_ev {s0 s : State} (h : Evolves s0 s) : OutEv s0 (execCal s) := by
  unfold execCal
  with_reducible repeat' (first
    | assumption | apply when_ev | apply rangeCtrl_ev | apply rangeCal_ev | apply OutEv.next | intro _)

theorem rangeStop_ev {s0 s : State} (h : Evolves s0 s) : Evolves s0 (rangeStop s) := by
  unfold rangeStop
  with_reducible repeat' (first
    | assumption | apply clearSets_ev | apply withSome_ev | apply State.onRange_ev | intro _ | dsimp only | split
    | fail_if_no_progress (refine Evolves.rest ?_ rfl rfl rfl rfl rfl rfl))

theorem execRangeStop_ev {s0 s : State} (h : Evolves s0 s) : OutEv s0 (execRangeStop s) := by
  unfold execRangeStop
  with_reducible repeat' (first
    | assumption | apply when_ev | apply withSome_ev | apply rangeStop_ev | apply cDrop_ev | apply OutEv.next | intro _)

theorem rangeThaw_ev {s0 s : State} (h : Evolves s0 s) : Evolves s0 (rangeThaw s) := by
  unfold rangeThaw
  with_reducible repeat' (first | assumption | apply State.onRange_ev)

theorem judgeRun_ev {s0 s : State} (r : RangeRun) (meas : RangeMeas) (h : Evolves s0 s) :
    Evolves s0 (judgeRun r meas s) := by
  unfold judgeRun
  with_reducible repeat' (first
    | assumption | apply judgeRbe_ev | apply endCause_ev | apply judgeCal_ev | apply judgeRound_ev | apply judgeLf_ev
    | apply cDrop_ev | intro _ | dsimp only | split | fail_if_no_progress (refine Evolves.rest ?_ rfl rfl rfl rfl rfl rfl))

theorem rangeAbort_ev {s0 s : State} (r : RangeRun) (h : Evolves s0 s) : Evolves s0 (rangeAbort r s) := by
  unfold rangeAbort
  with_reducible repeat' (first | assumption | apply rangeReport_ev | apply endCause_ev | split)

theorem rangeResult_ev {s0 s : State} (meas : RangeMeas) (h : Evolves s0 s) : Evolves s0 (rangeResult meas s) := by
  unfold rangeResult
  with_reducible repeat' (first
    | assumption | apply State.onRange_ev | apply rangeAbort_ev | apply judgeRun_ev | dsimp only | split)

theorem uwbWrite_ev {s0 s : State} (a : Nat) (v : Word) (h : Evolves s0 s) : OptEv s0 (uwbWrite a v s) := by
  unfold uwbWrite
  with_reducible repeat' (first
    | assumption | apply State.setReg_ev | apply OptEv.some | exact OptEv.none | dsimp only | split)

theorem State.onBle_ev {s0 s : State} (f : Ble → Ble) (h : Evolves s0 s) : Evolves s0 (State.onBle s f) := by
  unfold State.onBle
  with_reducible repeat' (first | assumption | fail_if_no_progress (refine Evolves.rest ?_ rfl rfl rfl rfl rfl rfl))

theorem bleEvent_ev {s0 s : State} (b : Nat) (h : Evolves s0 s) : Evolves s0 (bleEvent b s) := by
  unfold bleEvent
  with_reducible repeat' (first | assumption | apply blockEvent_ev)

theorem blePlace_ev {s0 s : State} (n : Nat) (h : Evolves s0 s) : Evolves s0 (blePlace n s) := by
  induction n generalizing s with
  | zero => unfold blePlace; exact h
  | succ n ih =>
    unfold blePlace
    with_reducible repeat' (first | apply ih | assumption | apply bleEvent_ev | apply State.onBle_ev | split)

theorem bleEmit_ev {s0 s : State} (ind : Nat) (bs : Bytes) (h : Evolves s0 s) : Evolves s0 (bleEmit ind bs s) := by
  unfold bleEmit
  with_reducible repeat' (first | assumption | apply State.onBle_ev | apply blePlace_ev)

theorem commandComplete_ev {s0 s : State} (op : Nat) (params : Bytes) (h : Evolves s0 s) :
    Evolves s0 (commandComplete op params s) := by
  unfold commandComplete
  with_reducible repeat' (first | assumption | apply bleEmit_ev)

theorem commandStatus_ev {s0 s : State} (op : Nat) (status : Byte) (h : Evolves s0 s) :
    Evolves s0 (commandStatus op status s) := by
  unfold commandStatus
  with_reducible repeat' (first | assumption | apply bleEmit_ev)

theorem bleDropAll_ev {s0 s : State} (reason : Byte) (h : Evolves s0 s) : Evolves s0 (bleDropAll reason s) := by
  unfold bleDropAll
  with_reducible repeat' (first | assumption | apply forEach_ev | apply bleEmit_ev | apply State.onBle_ev | intro _)

theorem advParams_ev {s0 s : State} (p : Bytes) (h : Evolves s0 s) : Evolves s0 (advParams p s) := by
  unfold advParams
  with_reducible repeat' (first
    | assumption | apply State.freshWord_ev | apply State.onBle_ev | intro _ | dsimp only | split
    | refine Evolves.pair ?_ (by assumption) | fail_if_no_progress (refine Evolves.rest ?_ rfl rfl rfl rfl rfl rfl))

theorem advEnable_ev {s0 s : State} (p : Bytes) (h : Evolves s0 s) : Evolves s0 (advEnable p s) := by
  unfold advEnable
  with_reducible repeat' (first | assumption | apply State.onBle_ev)

theorem setBankAdv_ev {s0 s : State} (p : Bytes) (h : Evolves s0 s) : Evolves s0 (setBankAdv p s) := by
  unfold setBankAdv
  with_reducible repeat' (first | assumption | apply commandComplete_ev | apply State.onBle_ev | dsimp only | split)

theorem hciCommand_ev {s0 s : State} (bs : Bytes) (h : Evolves s0 s) : Evolves s0 (hciCommand bs s) := by
  unfold hciCommand
  with_reducible repeat' (first
    | assumption | apply commandStatus_ev | apply setBankAdv_ev | apply commandComplete_ev | apply State.onBle_ev
    | apply advParams_ev | apply advEnable_ev | dsimp only | split)

theorem bleTake_ev {s0 s : State} (want : Nat → Bytes → Bool) (h : Evolves s0 s) : Evolves s0 (bleTake want s) := by
  unfold bleTake
  with_reducible repeat' (first
    | assumption | apply bleEvent_ev | apply State.onBle_ev | apply hciCommand_ev | apply State.setRbit_ev | dsimp only
    | split)

theorem execHciPacket_ev {s0 s : State} (h : Evolves s0 s) : OutEv s0 (execHciPacket s) := by
  unfold execHciPacket
  with_reducible repeat' (first | assumption | apply when_ev | apply bleTake_ev | apply OutEv.next | intro _)

theorem execMuporSetBankAdvertising_ev {s0 s : State} (h : Evolves s0 s) : OutEv s0 (execMuporSetBankAdvertising s) := by
  unfold execMuporSetBankAdvertising
  with_reducible repeat' (first | assumption | apply when_ev | apply bleTake_ev | apply OutEv.next | intro _)

theorem bleTxd_ev {s0 s : State} (v : Word) (h : Evolves s0 s) : Evolves s0 (bleTxd v s) := by
  unfold bleTxd
  with_reducible repeat' (first | assumption | apply bleEvent_ev | apply State.onBle_ev | split)

theorem bleRxPop_ev {s0 s : State} (h : Evolves s0 s) : Evolves s0 (bleRxPop s) := by
  unfold bleRxPop
  with_reducible repeat' (first | assumption | apply State.onBle_ev | apply blePlace_ev)

theorem bleCfg_ev {s0 s : State} (v : Word) (h : Evolves s0 s) : Evolves s0 (bleCfg v s) := by
  unfold bleCfg
  with_reducible repeat' (first
    | assumption | apply when_ev | apply State.onBle_ev | apply State.setRbit_ev | apply commandComplete_ev | intro _)

theorem bleWrite_ev {s0 s : State} (a : Nat) (v : Word) (h : Evolves s0 s) : OptEv s0 (bleWrite a v s) := by
  unfold bleWrite
  with_reducible repeat' (first
    | assumption | apply bleCfg_ev | apply bleTxd_ev | apply when_ev | apply bleRxPop_ev | apply OptEv.some
    | exact OptEv.none | split)

theorem execHciTxd_ev {s0 s : State} (who : Sys2Proof.Req) (value : Word) (h : Evolves s0 s) :
    OutEv s0 (execHciTxd who value s) := by
  unfold execHciTxd
  with_reducible repeat' (first | assumption | apply when_ev | apply bleTxd_ev | apply OutEv.next | intro _)

theorem execRxpop_ev {s0 s : State} (who : Sys2Proof.Req) (value : Word) (h : Evolves s0 s) :
    OutEv s0 (execRxpop who value s) := by
  unfold execRxpop
  with_reducible repeat' (first | assumption | apply when_ev | apply bleRxPop_ev | apply OutEv.next)

theorem execResync_ev {s0 s : State} (who : Sys2Proof.Req) (value : Word) (h : Evolves s0 s) :
    OutEv s0 (execResync who value s) := by
  unfold execResync
  with_reducible repeat' (first | assumption | apply when_ev | apply bleCfg_ev | apply OutEv.next | intro _)

theorem bleRxPacket_ev {s0 s : State} (acl : Bool) (bs : Bytes) (h : Evolves s0 s) : Evolves s0 (bleRxPacket acl bs s) := by
  unfold bleRxPacket
  with_reducible repeat' (first
    | assumption | apply bleEmit_ev | apply State.onBle_ev | apply withSome_ev | intro _ | dsimp only | split)

theorem execBleRxPacket_ev {s0 s : State} (acl : Bool) (packet : List Byte) (h : Evolves s0 s) :
    OutEv s0 (execBleRxPacket acl packet s) := by
  unfold execBleRxPacket
  with_reducible repeat' (first | assumption | apply when_ev | apply bleRxPacket_ev | apply OutEv.next | intro _)

theorem advFirst_ev {s0 s : State} (a : AdvSet) (h : Evolves s0 s) : Evolves s0 (advFirst a s).2 := by
  unfold advFirst
  with_reducible repeat' (first
    | assumption | apply State.freshWord_ev | intro _ | dsimp only | split | refine Evolves.pair ?_ (by assumption)
    | fail_if_no_progress (refine Evolves.rest ?_ rfl rfl rfl rfl rfl rfl))

theorem advNext_ev {s0 s : State} (a : AdvSet) (h : Evolves s0 s) : Evolves s0 (advNext a s).2 := by
  unfold advNext
  with_reducible repeat' (first
    | assumption | apply State.freshWord_ev | intro _ | dsimp only | split | refine Evolves.pair ?_ (by assumption)
    | fail_if_no_progress (refine Evolves.rest ?_ rfl rfl rfl rfl rfl rfl))

theorem onSets_ev {s0 s : State} (p : AdvSet → Bool) (f : AdvSet → State → AdvSet × State) (h : Evolves s0 s)
    (hf : ∀ a u, Evolves s0 u → Evolves s0 (f a u).2) : Evolves s0 (onSets p f s) := by
  unfold onSets
  refine State.onBle_ev _ (foldl_ev _ _ (fun acc a ha => ?_) _ h)
  dsimp only
  split
  · exact hf a _ ha
  · exact ha

theorem bleEdge_ev {s0 s : State} (h : Evolves s0 s) : Evolves s0 (bleEdge s) := by
  unfold bleEdge
  with_reducible repeat' (first
    | assumption | apply when_ev | apply onSets_ev | apply advNext_ev | intro _ | dsimp only | split
    | refine Evolves.pair ?_ (by assumption))

theorem bleBank_ev {s0 s : State} (h : Evolves s0 s) : Evolves s0 (bleBank s) := by
  unfold bleBank
  with_reducible repeat' (first
    | assumption | apply bleDropAll_ev | apply onSets_ev | apply advFirst_ev | intro _ | dsimp only | split
    | refine Evolves.pair ?_ (by assumption))

theorem bleThaw_ev {s0 s : State} (h : Evolves s0 s) : Evolves s0 (bleThaw s) := by
  unfold bleThaw
  with_reducible repeat' (first | assumption | apply bleDropAll_ev)

theorem enhancedComplete_ev {s0 s : State} (conn : Nat) (h : Evolves s0 s) : Evolves s0 (enhancedComplete conn s) := by
  unfold enhancedComplete
  with_reducible repeat' (first | assumption | apply State.freshBytes_ev | apply bleEmit_ev)

theorem bleWake_ev {s0 s : State} (conn adv : Nat) (h : Evolves s0 s) : Evolves s0 (bleWake conn adv s) := by
  unfold bleWake
  with_reducible repeat' (first
    | assumption | apply when_ev | apply State.setReg_ev | apply State.onBle_ev | apply presentWake_ev
    | apply enhancedComplete_ev | apply bleEvent_ev | intro _)

theorem execBleWake_ev {s0 s : State} (conn : BitVec 12) (adv : BitVec 8) (h : Evolves s0 s) :
    OutEv s0 (execBleWake conn adv s) := by
  unfold execBleWake
  with_reducible repeat' (first | assumption | apply when_ev | apply bleWake_ev | apply OutEv.next | intro _)

theorem State.setNfc_ev {s0 s : State} (n : Nfc) (h : Evolves s0 s) : Evolves s0 (State.setNfc s n) := by
  unfold State.setNfc
  with_reducible repeat' (first | assumption | fail_if_no_progress (refine Evolves.rest ?_ rfl rfl rfl rfl rfl rfl))

theorem State.onNfc_ev {s0 s : State} (f : Nfc → Nfc) (h : Evolves s0 s) : Evolves s0 (State.onNfc s f) := by
  unfold State.onNfc
  with_reducible repeat' (first | assumption | fail_if_no_progress (refine Evolves.rest ?_ rfl rfl rfl rfl rfl rfl))

theorem nfcEvent_ev {s0 s : State} (b : Nat) (h : Evolves s0 s) : Evolves s0 (nfcEvent b s) := by
  unfold nfcEvent
  with_reducible repeat' (first | assumption | apply blockEvent_ev)

theorem nfcStat_ev {s0 s : State} (sent status : Nat) (h : Evolves s0 s) : Evolves s0 (nfcStat sent status s) := by
  unfold nfcStat
  with_reducible repeat' (first | assumption | apply portSend_ev)

theorem nfcEndTx_ev {s0 s : State} (t : NfcTx) (status : Nat) (h : Evolves s0 s) : Evolves s0 (nfcEndTx t status s) := by
  unfold nfcEndTx
  with_reducible repeat' (first | assumption | apply State.onNfc_ev | apply nfcStat_ev | dsimp only | split)

theorem nfcDeliver_ev {s0 s : State} (tick status : Nat) (ws : List (Word × Bool)) (h : Evolves s0 s) :
    Evolves s0 (nfcDeliver tick status ws s) := by
  unfold nfcDeliver
  dsimp only
  split
  · exact h
  · split
    · exact nfcEvent_ev _ h
    · rename_i hw
      refine nfcEvent_ev _ (State.incFld_ev _ _ _ (State.setChan_ev _ _ h (fun _ => ?_)))
      simp only [Bool.or_eq_true, decide_eq_true_eq, not_or] at hw
      simp only [List.length_append, List.length_map]
      omega

theorem nfcWord_ev {s0 s : State} (op : Nat) (f : Word → Nat → State → State) (h : Evolves s0 s)
    (evf : ∀ a0 a1 a2, Evolves s0 a2 → Evolves s0 (f a0 a1 a2)) :
    Evolves s0 (nfcWord op f s) := by
  unfold nfcWord
  with_reducible repeat' (first | assumption | apply withSome_ev | apply cDrop_ev | apply evf | intro _)

theorem nfcOn_ev {s0 s : State} (h : Evolves s0 s) : Evolves s0 (nfcOn s) := by
  unfold nfcOn
  with_reducible repeat' (first | assumption | apply nfcStat_ev | apply State.onNfc_ev)

theorem fieldOn_ev {s0 s : State} (_w : Word) (_t : Nat) (h : Evolves s0 s) : Evolves s0 (fieldOn _w _t s) := by
  unfold fieldOn
  with_reducible repeat' (first | assumption | apply nfcStat_ev | apply nfcOn_ev | apply State.onNfc_ev | split)

theorem fieldOnNow_ev {s0 s : State} (h : Evolves s0 s) : Evolves s0 (fieldOnNow s) := by
  unfold fieldOnNow
  with_reducible repeat' (first
    | assumption | apply withSome_ev | apply fieldOn_ev | apply cTakeOut_ev | intro _ | dsimp only | split
    | fail_if_no_progress (refine Evolves.rest ?_ rfl rfl rfl rfl rfl rfl))

theorem execFieldOn_ev {s0 s : State} (h : Evolves s0 s) : OutEv s0 (execFieldOn s) := by
  unfold execFieldOn
  with_reducible repeat' (first
    | assumption | apply when_ev | apply fieldOnNow_ev | apply OutEv.next | exact OutEv.fault | intro _ | dsimp only
    | split)

theorem execFieldOnTakesEffect_ev {s0 s : State} (h : Evolves s0 s) : OutEv s0 (execFieldOnTakesEffect s) := by
  unfold execFieldOnTakesEffect
  with_reducible repeat' (first | assumption | apply when_ev | apply nfcOn_ev | apply OutEv.next)

theorem nfcCarrierOff_ev {s0 s : State} (h : Evolves s0 s) : Evolves s0 (nfcCarrierOff s) := by
  unfold nfcCarrierOff
  with_reducible repeat' (first | assumption | apply State.onNfc_ev)

theorem fieldOff_ev {s0 s : State} (_w : Word) (_t : Nat) (h : Evolves s0 s) : Evolves s0 (fieldOff _w _t s) := by
  unfold fieldOff
  with_reducible repeat' (first
    | assumption | apply nfcCarrierOff_ev | apply when_ev | apply nfcStat_ev | apply withSome_ev | apply nfcDeliver_ev
    | apply nfcEndTx_ev | intro _)

theorem execFieldOff_ev {s0 s : State} (h : Evolves s0 s) : OutEv s0 (execFieldOff s) := by
  unfold execFieldOff
  with_reducible repeat' (first
    | assumption | apply when_ev | apply nfcWord_ev | apply fieldOff_ev | apply OutEv.next | intro _)

theorem nfcDrain_ev {s0 s : State} (n : Nat) (h : Evolves s0 s) : Evolves s0 (nfcDrain n s) := by
  induction n generalizing s with
  | zero => unfold nfcDrain; exact h
  | succ n ih =>
    unfold nfcDrain
    with_reducible repeat' (first | apply ih | assumption | apply cDrop_ev | apply State.onNfc_ev | dsimp only | split)

theorem nfcBegin_ev {s0 s : State} (t : NfcTx) (h : Evolves s0 s) : Evolves s0 (nfcBegin t s) := by
  unfold nfcBegin
  with_reducible repeat' (first | assumption | apply nfcDrain_ev | apply attempt_ev | apply State.onNfc_ev)

theorem nfcTx_ev {s0 s : State} (w : Word) (t : Nat) (h : Evolves s0 s) : Evolves s0 (nfcTx w t s) := by
  unfold nfcTx
  with_reducible repeat' (first
    | assumption | apply nfcStat_ev | apply nfcBegin_ev | apply nfcDrain_ev | apply State.onNfc_ev | dsimp only | split)

theorem execTx_ev {s0 s : State} (h : Evolves s0 s) : OutEv s0 (execTx s) := by
  unfold execTx
  with_reducible repeat' (first
    | assumption | apply when_ev | apply nfcWord_ev | apply nfcTx_ev | apply fieldOnNow_ev | apply OutEv.next
    | exact OutEv.fault | intro _ | dsimp only | split)

theorem execDeferredTxStart_ev {s0 s : State} (h : Evolves s0 s) : OutEv s0 (execDeferredTxStart s) := by
  unfold execDeferredTxStart
  with_reducible repeat' (first
    | assumption | apply when_ev | apply withSome_ev | apply nfcBegin_ev | apply OutEv.next | intro _)

theorem nfcStop_ev {s0 s : State} (_w : Word) (_t : Nat) (h : Evolves s0 s) : Evolves s0 (nfcStop _w _t s) := by
  unfold nfcStop
  with_reducible repeat' (first | assumption | apply withSome_ev | apply nfcEndTx_ev | intro _)

theorem execNfcStop_ev {s0 s : State} (h : Evolves s0 s) : OutEv s0 (execNfcStop s) := by
  unfold execNfcStop
  with_reducible repeat' (first
    | assumption | apply when_ev | apply nfcWord_ev | apply nfcStop_ev | apply OutEv.next | intro _)

theorem nfcResponse_ev {s0 s : State} (began ended status bits_ coll : Nat) (bs : Bytes) (h : Evolves s0 s) :
    Evolves s0 (nfcResponse began ended status bits_ coll bs s) := by
  unfold nfcResponse
  with_reducible repeat' (first
    | assumption | apply withSome_ev | apply when_ev | apply State.onNfc_ev | apply nfcDeliver_ev | apply nfcEndTx_ev
    | apply lateSuccess_ev | intro _)

theorem execNfcResponse_ev {s0 s : State} (began ended : Nat) (status : Fin 6) (lastBits : Fin 8) (coll : BitVec 12)
    (response : List Byte) (h : Evolves s0 s) :
    OutEv s0 (execNfcResponse began ended status lastBits coll response s) := by
  unfold execNfcResponse
  with_reducible repeat' (first | assumption | apply when_ev | apply nfcResponse_ev | apply OutEv.next | intro _)

theorem execNoResponse_ev {s0 s : State} (h : Evolves s0 s) : OutEv s0 (execNoResponse s) := by
  unfold execNoResponse
  with_reducible repeat' (first
    | assumption | apply when_ev | apply withSome_ev | apply nfcDeliver_ev | apply nfcEndTx_ev | apply OutEv.next
    | intro _)

theorem nfcTick_ev {s0 s : State} (h : Evolves s0 s) : Evolves s0 (nfcTick s) := by
  unfold nfcTick
  with_reducible repeat' (first
    | assumption | apply nfcDrain_ev | apply nfcEndTx_ev | apply when_ev | apply lateSuccess_ev | apply State.onNfc_ev
    | intro _ | dsimp only | split)

theorem nfcCancel_ev {s0 s : State} (h : Evolves s0 s) : Evolves s0 (nfcCancel s) := by
  unfold nfcCancel
  with_reducible repeat' (first | assumption | apply withSome_ev | apply State.onNfc_ev | intro _)

theorem nfcThaw_ev {s0 s : State} (h : Evolves s0 s) : Evolves s0 (nfcThaw s) := by
  unfold nfcThaw
  with_reducible repeat' (first | assumption | apply withSome_ev | apply nfcEndTx_ev | apply nfcCarrierOff_ev | intro _)

theorem nfcWrite_ev {s0 s : State} (a : Nat) (v : Word) (h : Evolves s0 s) : OptEv s0 (nfcWrite a v s) := by
  unfold nfcWrite
  with_reducible repeat' (first
    | assumption | apply State.setReg_ev | apply when_ev | apply nfcThaw_ev | apply nfcCarrierOff_ev | apply OptEv.some
    | apply OptPairEv.some | exact OptEv.none | exact OptPairEv.none | intro _ | dsimp only | split)

theorem State.onEnt_ev {s0 s : State} (f : Ent → Ent) (h : Evolves s0 s) : Evolves s0 (State.onEnt s f) := by
  unfold State.onEnt
  with_reducible repeat' (first | assumption | fail_if_no_progress (refine Evolves.rest ?_ rfl rfl rfl rfl rfl rfl))

theorem entRun_ev {s0 s : State} (h : Evolves s0 s) : Evolves s0 (entRun s) := by
  unfold entRun
  with_reducible repeat' (first | assumption | apply State.onEnt_ev | apply State.setRbit_ev | apply State.setFld_ev)

theorem entRestart_ev {s0 s : State} (h : Evolves s0 s) : Evolves s0 (entRestart s) := by
  unfold entRestart
  with_reducible repeat' (first | assumption | apply entRun_ev | apply cClear_ev)

theorem entRct_ev {s0 s : State} (b : Byte) (h : Evolves s0 s) : Evolves s0 (entRct b s) := by
  unfold entRct
  with_reducible repeat' (first | assumption | apply State.onEnt_ev | apply State.satFld_ev | dsimp only | split)

theorem entApt_ev {s0 s : State} (b : Byte) (h : Evolves s0 s) : Evolves s0 (entApt b s) := by
  unfold entApt
  with_reducible repeat' (first
    | assumption | apply State.onEnt_ev | apply when_ev | apply State.satFld_ev | intro _ | dsimp only | split)

theorem entAlive_ev {s0 s : State} (b : Byte) (k : Fin 8) (h : Evolves s0 s) : Evolves s0 (entAlive b k s) := by
  unfold entAlive
  with_reducible repeat' (first
    | assumption | apply State.onEnt_ev | apply State.setRbit_ev | apply when_ev | apply State.satFld_ev | intro _)

theorem entLocked_ev {s0 s : State} (b : Byte) (i : Fin 28) (h : Evolves s0 s) : Evolves s0 (entLocked b i s) := by
  unfold entLocked
  with_reducible repeat' (first | assumption | apply State.onEnt_ev | apply when_ev | apply State.satFld_ev | intro _)

theorem entCondition_ev {s0 s : State} (b : Byte) (h : Evolves s0 s) : Evolves s0 (entCondition b s) := by
  unfold entCondition
  with_reducible repeat' (first | assumption | apply State.onEnt_ev | dsimp only | split)

theorem entSample_ev {s0 s : State} (raw : Byte) (h : Evolves s0 s) : Evolves s0 (entSample raw s) := by
  unfold entSample
  with_reducible repeat' (first
    | assumption | apply entApt_ev | apply entRct_ev | apply forEach_ev | apply entAlive_ev | apply entLocked_ev
    | apply when_ev | apply entCondition_ev | apply State.onEnt_ev | apply State.setRbit_ev | intro _)

theorem execRawSample_ev {s0 s : State} (sample : BitVec 8) (h : Evolves s0 s) : OutEv s0 (execRawSample sample s) := by
  unfold execRawSample
  with_reducible repeat' (first | assumption | apply when_ev | apply entSample_ev | apply OutEv.next | intro _)

theorem execRawSampleBlock_ev {s0 s : State} (samples : List (BitVec 8)) (h : Evolves s0 s) :
    OutEv s0 (execRawSampleBlock samples s) := by
  unfold execRawSampleBlock
  with_reducible repeat' (first
    | assumption | apply when_ev | apply forEach_ev | apply entSample_ev | apply OutEv.next | intro _)

theorem instantiate_ev {s0 s : State} (h : Evolves s0 s) : Evolves s0 (instantiate s) := by
  unfold instantiate
  with_reducible repeat' (first | assumption | apply State.onEnt_ev | apply State.setReg_ev | apply State.setRbit_ev)

theorem execDrbgInstantiate_ev {s0 s : State} (h : Evolves s0 s) : OutEv s0 (execDrbgInstantiate s) := by
  unfold execDrbgInstantiate
  with_reducible repeat' (first | assumption | apply when_ev | apply instantiate_ev | apply OutEv.next)

theorem reseed_ev {s0 s : State} (h : Evolves s0 s) : Evolves s0 (reseed s) := by
  unfold reseed
  with_reducible repeat' (first
    | assumption | apply State.onEnt_ev | apply State.incFld_ev | apply State.setFld_ev | dsimp only | split)

theorem generate_ev {s0 s : State} (h : Evolves s0 s) : OptPairEv s0 (generate s) := by
  unfold generate
  with_reducible repeat' (first
    | assumption | apply reseed_ev | apply State.onEnt_ev | apply State.setFld_ev | apply OptPairEv.some
    | exact OptPairEv.none | dsimp only | split)

theorem fillKiln_ev {s0 s : State} (h : Evolves s0 s) : Evolves s0 (fillKiln s) := by
  unfold fillKiln
  with_reducible repeat' (first
    | assumption | apply generate_ev | apply devSend_ev | split | refine OptPairEv.get ?_ (by assumption))

theorem fillBuffers_ev {s0 s : State} (h : Evolves s0 s) : Evolves s0 (fillBuffers s) := by
  unfold fillBuffers
  with_reducible repeat' (first
    | assumption | apply fillKiln_ev | apply generate_ev | apply State.onEnt_ev | split
    | refine OptPairEv.get ?_ (by assumption))

theorem OptPairEv.map {α β : Type} {s0 : State} {o : Option (α × State)} {f : α × State → β × State} (h : OptPairEv s0 o)
    (hf : ∀ p, (f p).2 = p.2) : OptPairEv s0 (o.map f) := by
  intro x t e
  cases o with
  | none => cases e
  | some p =>
    have e' : f p = (x, t) := Option.some.inj e
    have := hf p
    rw [e'] at this
    subst this
    exact h p.1 p.2 rfl

theorem drawWords_ev {s0 s : State} (n : Nat) (h : Evolves s0 s) : OptPairEv s0 (drawWords n s) := by
  induction n generalizing s with
  | zero => exact OptPairEv.some h
  | succ n ih =>
    unfold drawWords
    dsimp only
    split
    · exact OptPairEv.none
    · refine OptPairEv.map (ih ?_) (fun _ => rfl)
      refine Evolves.pair (cTake_ev 0xE0 ?_) (by assumption)
      split
      · exact fillKiln_ev h
      · exact h

theorem drawBytes_ev {s0 s : State} (n : Nat) (h : Evolves s0 s) : OptPairEv s0 (drawBytes n s) :=
  OptPairEv.map (drawWords_ev _ h) (fun _ => rfl)

theorem entPattern_ev {s0 s : State} (on : Bool) (pat : Word) (h : Evolves s0 s) : Evolves s0 (entPattern on pat s) := by
  unfold entPattern
  with_reducible repeat' (first
    | assumption | apply State.setRbit_ev | apply when_ev | apply entRestart_ev | apply State.setReg_ev)

theorem entAct_ev {s0 s : State} (r : EntRequest) (h : Evolves s0 s) : Evolves s0 (entAct r s) := by
  unfold entAct
  with_reducible repeat' (first
    | assumption | apply entRestart_ev | apply reseed_ev | apply State.onEnt_ev | apply entPattern_ev | split)

theorem entAsk_ev {s0 s : State} (r : EntRequest) (h : Evolves s0 s) : Evolves s0 (entAsk r s) := by
  unfold entAsk
  with_reducible repeat' (first | assumption | apply State.onEnt_ev | apply entAct_ev | split)

theorem katStart_ev {s0 s : State} (who : Option Nat) (h : Evolves s0 s) : Evolves s0 (katStart who s) := by
  unfold katStart
  with_reducible repeat' (first | assumption | apply State.onEnt_ev | apply State.setRbit_ev | split)

theorem katEnd_ev {s0 s : State} (pass : Bool) (h : Evolves s0 s) : Evolves s0 (katEnd pass s) := by
  unfold katEnd
  with_reducible repeat' (first
    | assumption | apply State.setRbit_ev | apply forEach_ev | apply entAct_ev | apply State.onEnt_ev | intro _)

theorem entCtl_ev {s0 s : State} (who : Sys2Proof.Req) (v : Word) (h : Evolves s0 s) : Evolves s0 (entCtl who v s) := by
  unfold entCtl
  with_reducible repeat' (first
    | assumption | apply when_ev | apply State.setReg_ev | apply entAsk_ev | apply katStart_ev | intro _ | dsimp only
    | split)

theorem execRestart_ev {s0 s : State} (who : Sys2Proof.Req) (h : Evolves s0 s) : OutEv s0 (execRestart who s) := by
  unfold execRestart
  with_reducible repeat' (first | assumption | apply when_ev | apply entCtl_ev | apply OutEv.next | intro _)

theorem execReseed_ev {s0 s : State} (who : Option Sys2Proof.Req) (h : Evolves s0 s) : OutEv s0 (execReseed who s) := by
  unfold execReseed
  with_reducible repeat' (first
    | assumption | apply when_ev | apply entCtl_ev | apply reseed_ev | apply OutEv.next | intro _ | split)

theorem execClrCnt_ev {s0 s : State} (who : Sys2Proof.Req) (h : Evolves s0 s) : OutEv s0 (execClrCnt who s) := by
  unfold execClrCnt
  with_reducible repeat' (first | assumption | apply when_ev | apply entCtl_ev | apply OutEv.next | intro _)

theorem execKat_ev {s0 s : State} (who : Sys2Proof.Req) (h : Evolves s0 s) : OutEv s0 (execKat who s) := by
  unfold execKat
  with_reducible repeat' (first | assumption | apply when_ev | apply entCtl_ev | apply OutEv.next | intro _)

theorem entWrite_ev {s0 s : State} (who : Sys2Proof.Req) (a : Nat) (v : Word) (h : Evolves s0 s) :
    OptEv s0 (entWrite who a v s) := by
  unfold entWrite
  with_reducible repeat' (first
    | assumption | apply entCtl_ev | apply State.setFld_ev | apply entAsk_ev | apply OptEv.some | exact OptEv.none
    | dsimp only | split)

theorem readEntData_ev {s0 s : State} (h : Evolves s0 s) : Evolves s0 (readEntData s).2 := by
  unfold readEntData
  with_reducible repeat' (first | assumption | apply State.setRbit_ev | apply State.onEnt_ev | split)

theorem execEntData_ev {s0 s : State} (who : Sys2Proof.Req) (h : Evolves s0 s) : OutEv s0 (execEntData who s) := by
  unfold execEntData
  with_reducible repeat' (first
    | assumption | apply when_ev | apply readEntData_ev | apply answer_ev | apply OutEv.next | intro _)

theorem kcheck_ev {s0 s : State} (p : Bool) (status reason : Nat) (h : Evolves s0 s) :
    KEv s0 (kcheck p status reason s) := by
  unfold kcheck
  with_reducible repeat' (first | assumption | apply KEv.ok | apply KEv.fail | split)

theorem firmwareDone_ev {s0 s : State} (e : Nat) (w : Word) (h : Evolves s0 s) : Evolves s0 (firmwareDone e w s) := by
  unfold firmwareDone
  with_reducible repeat' (first
    | assumption | apply endFlush_ev | apply when_ev | apply lateSuccess_ev | apply portSend_ev | intro _ | split)

theorem kilnSend_ev {s0 s : State} (e : Nat) (w : Word) (h : Evolves s0 s) : Evolves s0 (kilnSend e w s) := by
  unfold kilnSend
  with_reducible repeat' (first | assumption | apply when_ev | apply State.incFld_ev | apply firmwareDone_ev | intro _)

theorem kilnDone_ev {s0 s : State} (e status reason value : Nat) (h : Evolves s0 s) :
    Evolves s0 (kilnDone e status reason value s) := by
  unfold kilnDone
  with_reducible repeat' (first | assumption | apply kilnSend_ev)

theorem imageLost_ev {s0 s : State} (e : Nat) (h : Evolves s0 s) : OptEv s0 (imageLost e s) := by
  unfold imageLost
  with_reducible repeat' (first
    | assumption | apply readSram_ev | apply cDrop_ev | apply OptEv.some | apply OptPairEv.some | exact OptEv.none
    | exact OptPairEv.none | intro _ | dsimp only | split | refine Evolves.pair ?_ (by assumption)
    | fail_if_no_progress (refine Evolves.rest ?_ rfl rfl rfl rfl rfl rfl))

theorem needRead_ev {s0 s : State} (img : Bytes) (k n : Nat) (h : Evolves s0 s) : KEv s0 (needRead img k n s) := by
  unfold needRead
  with_reducible repeat' (first | assumption | apply kcheck_ev)

theorem needWrite_ev {s0 s : State} (img : Bytes) (k n : Nat) (h : Evolves s0 s) : KEv s0 (needWrite img k n s) := by
  unfold needWrite
  with_reducible repeat' (first | assumption | apply kcheck_ev)

theorem ansRes_ev {s0 : State} (r : Ans × State) (h : Evolves s0 r.2) : KEv s0 (ansRes r) := by
  unfold ansRes
  split
  · exact KEv.ok h
  · exact KEv.fail h
  · exact KEv.fail h
  · exact KEv.fail h
  · exact KEv.wait

theorem kflash_ev {s0 s : State} (a n : Nat) (h : Evolves s0 s) : KEv s0 (kflash a n s) := by
  unfold kflash
  with_reducible repeat' (first | assumption | apply ansRes_ev | apply readFlash_ev | apply KEv.ok | split)

theorem kread_ev {s0 s : State} (e : Nat) (img : Bytes) (k off n : Nat) (h : Evolves s0 s) :
    KEv s0 (kread e img k off n s) := by
  unfold kread
  with_reducible repeat' (first | assumption | apply ansRes_ev | apply devRead_ev | apply KEv.ok | dsimp only | split)

theorem kwrite_ev {s0 s : State} (e : Nat) (img : Bytes) (k : Nat) (bs : Bytes) (h : Evolves s0 s) :
    KEv s0 (kwrite e img k bs s) := by
  unfold kwrite
  with_reducible repeat' (first | assumption | apply ansRes_ev | apply devWrite_ev | apply KEv.ok | dsimp only | split)

theorem kslot_ev {s0 s : State} (img : Bytes) (h : Nat) (hs0 : Evolves s0 s) : KEv s0 (kslot img h s) := by
  unfold kslot
  with_reducible repeat' (first | assumption | apply KEv.ok | apply KEv.fail | dsimp only | split)

theorem noKey_ev {s0 s : State} (img : Bytes) (h : Evolves s0 s) : KEv s0 (noKey img s) := by
  unfold noKey
  with_reducible repeat' (first
    | assumption | apply kslot_ev | apply KRes.andThen_ev | apply KEv.ok | apply KEv.fail | intro _ | split)

theorem kuse_ev {s0 s : State} (x : Slot) (b : Nat) (h : Evolves s0 s) : KEv s0 (kuse x b s) := by
  unfold kuse
  with_reducible repeat' (first | assumption | apply kcheck_ev)

theorem newKey_ev {s0 s : State} (img key : Bytes) (type use : Nat) (h : Evolves s0 s) :
    KEv s0 (newKey img key type use s) := by
  unfold newKey
  with_reducible repeat' (first | assumption | apply placeKey_ev | apply KEv.ok | apply KEv.fail | dsimp only | split)

theorem kdraw_ev {s0 s : State} (n : Nat) (h : Evolves s0 s) : KEv s0 (kdraw n s) := by
  unfold kdraw
  with_reducible repeat' (first
    | assumption | apply drawBytes_ev | apply KEv.ok | exact KEv.wait | split | refine OptPairEv.get ?_ (by assumption))

theorem kscalar_ev {s0 s : State} (n : Nat) (h : Evolves s0 s) : KEv s0 (kscalar n s) := by
  induction n generalizing s with
  | zero => unfold kscalar; exact KEv.wait
  | succ n ih =>
    unfold kscalar
    with_reducible repeat' (first
      | apply ih | assumption | apply kdraw_ev | apply KRes.andThen_ev | apply KEv.ok | intro _ | dsimp only | split)

theorem kilnCmd_ev {s0 s : State} (e op : Nat) (table : List Nat) (h : Evolves s0 s) : OptPairEv s0
    (kilnCmd e op table s) := by
  unfold kilnCmd
  intro x t he
  obtain ⟨img, -, he⟩ := Option.bind_eq_some_iff.1 he
  split at he
  · cases he
    exact cDrop_ev _ h
  · cases he

theorem State.setCtx_ev {s0 s : State} (n : Nat) (c : Ctx) (h : Evolves s0 s) : Evolves s0 (State.setCtx s n c) := by
  unfold State.setCtx
  with_reducible repeat' (first
    | assumption | dsimp only | fail_if_no_progress (refine Evolves.rest ?_ rfl rfl rfl rfl rfl rfl))

theorem clearCtx_ev {s0 s : State} (n : Nat) (h : Evolves s0 s) : Evolves s0 (clearCtx n s) := by
  unfold clearCtx
  with_reducible repeat' (first
    | assumption | dsimp only | fail_if_no_progress (refine Evolves.rest ?_ rfl rfl rfl rfl rfl rfl))

theorem clearCtxsOf_ev {s0 s : State} (slot : Nat) (h : Evolves s0 s) : Evolves s0 (clearCtxsOf slot s) := by
  unfold clearCtxsOf
  with_reducible repeat' (first
    | assumption | dsimp only | fail_if_no_progress (refine Evolves.rest ?_ rfl rfl rfl rfl rfl rfl))

theorem kattrWrite_ev {s0 s : State} (n : Nat) (v : Word) (h : Evolves s0 s) : Evolves s0 (kattrWrite n v s) := by
  unfold kattrWrite
  with_reducible repeat' (first | assumption | apply State.setSlot_ev | dsimp only | split)

theorem execKattrWrite_ev {s0 s : State} (slot : Fin 64) (value : Word) (h : Evolves s0 s) :
    OutEv s0 (execKattrWrite slot value s) := by
  unfold execKattrWrite
  with_reducible repeat' (first | assumption | apply when_ev | apply kattrWrite_ev | apply OutEv.next | intro _)

theorem kilnClear_ev {s0 s : State} (h : Evolves s0 s) : Evolves s0 (kilnClear s) := by
  unfold kilnClear
  dsimp only
  refine Evolves.rest ?_ rfl rfl rfl rfl rfl rfl
  refine forEach_ev (forEach_ev ?_ (fun n u hu => zapSlot_ev n hu)) (fun n u hu => State.setSlot_ev n _ hu)
  refine h.updCells (fun hw => tableWf_filter _ hw) (fun _ hc c l hl hm ha i hi => ?_) rfl rfl rfl rfl rfl rfl rfl rfl rfl
  have := hc.clean hl hm ha i hi
  have hs := line_inSram ha ((hc.wf c).2 l hl).2 (x := l.addr + i) (by omega) (by omega)
  have hp : (fun a => !inKilnSram a) (l.addr + i) = true := by
    cases hk : inKilnSram (l.addr + i)
    · simp [hk]
    · rw [kiln_not_sram _ hk] at hs
      cases hs
  rw [this]
  exact congrArg (fun o => Option.getD o (memDefault (l.addr + i))) (aget?_filter s.mem.cells (fun a => !inKilnSram a)
      (l.addr + i) hp).symm

theorem fillFixed_ev {s0 s : State} (h : Evolves s0 s) : Evolves s0 (fillFixed s) := by
  unfold fillFixed
  with_reducible repeat' (first | assumption | apply placeKey_ev)

theorem fillBootKey_ev {s0 s : State} (h : Evolves s0 s) : Evolves s0 (fillBootKey s) := by
  unfold fillBootKey
  with_reducible repeat' (first
    | assumption | apply drawBytes_ev | apply placeKey_ev | split | refine OptPairEv.get ?_ (by assumption))

theorem execGenerate_ev {s0 s : State} (h : Evolves s0 s) : OutEv s0 (execGenerate s) := by
  unfold execGenerate
  with_reducible repeat' (first
    | assumption | apply when_ev | apply fillBootKey_ev | apply fillBuffers_ev | apply OutEv.next | intro _)

theorem dataKey_ev {s0 s : State} (p : DataParam) (enc : Bool) (x : Nat × Slot) (h : Evolves s0 s) :
    KEv s0 (dataKey p enc x s) := by
  unfold dataKey
  with_reducible repeat' (first
    | assumption | apply kuse_ev | apply kcheck_ev | apply KRes.andThen_ev | apply KEv.ok | intro _)

theorem dataEnd_ev {s0 s : State} (e : Nat) (img : Bytes) (n : Nat) (out : Option Bytes) (h : Evolves s0 s) :
    KEv s0 (dataEnd e img n out s) := by
  unfold dataEnd
  with_reducible repeat' (first
    | assumption | apply kwrite_ev | apply KRes.andThen_ev | apply KEv.ok | apply KEv.fail | intro _ | split)

theorem macCheck_ev {s0 s : State} (e : Nat) (img : Bytes) (taglen : Nat) (mac : Bytes) (h : Evolves s0 s) :
    KEv s0 (macCheck e img taglen mac s) := by
  unfold macCheck
  with_reducible repeat' (first
    | assumption | apply kread_ev | apply KRes.andThen_ev | apply KEv.ok | apply KEv.fail | intro _ | split)

theorem dataBuffers_ev {s0 s : State} (img : Bytes) (p : DataParam) (enc : Bool) (n : Nat) (h : Evolves s0 s) :
    KEv s0 (dataBuffers img p enc n s) := by
  unfold dataBuffers
  with_reducible repeat' (first
    | assumption | apply needRead_ev | apply needWrite_ev | apply KRes.andThen_ev | apply KEv.ok | intro _ | split)

theorem drawAesRun_ev {s0 s : State} (n : Nat) (h : Evolves s0 s) : Evolves s0 (drawAesRun n s).2 := by
  unfold drawAesRun
  with_reducible repeat' (first
    | assumption | apply State.freshWord_ev | apply State.freshBytes_ev | intro _ | dsimp only | split
    | refine Evolves.pair ?_ (by assumption))

theorem aesBlocks_ev {s0 s : State} (key : Bytes) (h : Evolves s0 s) : Evolves s0 (aesBlocks key s) := by
  unfold aesBlocks
  with_reducible repeat' (first
    | assumption | apply drawAesRun_ev | intro _ | dsimp only | split | refine Evolves.pair ?_ (by assumption)
    | fail_if_no_progress (refine Evolves.rest ?_ rfl rfl rfl rfl rfl rfl))

theorem dataRun_ev {s0 s : State} (img : Bytes) (p : DataParam) (enc : Bool) (slot : Nat) (key : Bytes) (n : Nat)
    (bs : Bytes) (h : Evolves s0 s) :
    KEv s0 (dataRun img p enc slot key n bs s) := by
  unfold dataRun
  with_reducible repeat' (first
    | assumption | apply kwrite_ev | apply State.setCtx_ev | apply macCheck_ev | apply dataEnd_ev | apply KRes.andThen_ev
    | apply KEv.ok | intro _ | dsimp only | split)

theorem cipherData_ev {s0 s : State} (enc : Bool) (img : Bytes) (h : Evolves s0 s) : KEv s0 (cipherData enc img s) := by
  unfold cipherData
  with_reducible repeat' (first
    | assumption | apply kslot_ev | apply kcheck_ev | apply dataBuffers_ev | apply dataKey_ev | apply kread_ev
    | apply dataRun_ev | apply aesBlocks_ev | apply KRes.andThen_ev | apply KEv.ok | apply KEv.fail | exact KEv.wait
    | intro _ | dsimp only | split | refine KEv.getOk ?_ (by assumption) | refine KEv.getFail ?_ (by assumption))

theorem ownCtx_ev {s0 s : State} (img : Bytes) (h : Evolves s0 s) : KEv s0 (ownCtx img s) := by
  unfold ownCtx
  with_reducible repeat' (first | assumption | apply KEv.ok | apply KEv.fail | split)

theorem clearOnFail_ev {s0 : State} (img : Bytes) (r : KRes KEnd) (h : KEv s0 r) : KEv s0 (clearOnFail img r) := by
  unfold clearOnFail
  split
  · rename_i s
    have hs : Evolves s0 s := h.2 _ _ _ rfl
    refine KEv.fail ?_
    split
    · split
      · exact clearCtx_ev _ hs
      · exact hs
    · exact hs
  · exact h

theorem updateEnd_ev {s0 s : State} (img : Bytes) (c : Ctx) (n : Nat) (bs : Bytes) (h : Evolves s0 s) :
    KEv s0 (updateEnd img c n bs s) := by
  unfold updateEnd
  with_reducible repeat' (first
    | assumption | apply clearCtx_ev | apply dataEnd_ev | apply macCheck_ev | dsimp only | split)

theorem cipherUpdate_ev {s0 s : State} (img : Bytes) (h : Evolves s0 s) : KEv s0 (cipherUpdate img s) := by
  unfold cipherUpdate
  with_reducible repeat' (first
    | assumption | apply clearOnFail_ev | apply noKey_ev | apply kcheck_ev | apply ownCtx_ev | apply dataBuffers_ev
    | apply kread_ev | apply aesBlocks_ev | apply kwrite_ev | apply State.setCtx_ev | apply updateEnd_ev
    | apply KRes.andThen_ev | apply KEv.ok | apply KEv.fail | exact KEv.wait | intro _ | dsimp only | split
    | refine KEv.getOk ?_ (by assumption) | refine KEv.getFail ?_ (by assumption))

theorem cipherSave_ev {s0 s : State} (img : Bytes) (h : Evolves s0 s) : KEv s0 (cipherSave img s) := by
  unfold cipherSave
  with_reducible repeat' (first
    | assumption | apply clearOnFail_ev | apply noKey_ev | apply kcheck_ev | apply ownCtx_ev | apply needWrite_ev
    | apply State.freshBytes_ev | apply aesBlocks_ev | apply kwrite_ev | apply clearCtx_ev | apply KRes.andThen_ev
    | apply KEv.ok | apply KEv.fail | exact KEv.wait | intro _ | dsimp only | split
    | refine Evolves.pair ?_ (by assumption) | refine KEv.getOk ?_ (by assumption) | refine KEv.getFail ?_ (by assumption)
    | fail_if_no_progress (refine Evolves.rest ?_ rfl rfl rfl rfl rfl rfl))

theorem cipherRestore_ev {s0 s : State} (img : Bytes) (h : Evolves s0 s) : KEv s0 (cipherRestore img s) := by
  unfold cipherRestore
  with_reducible repeat' (first
    | assumption | apply noKey_ev | apply kcheck_ev | apply needRead_ev | apply kread_ev | apply aesBlocks_ev
    | apply KRes.andThen_ev | apply State.setCtx_ev | apply KEv.ok | apply KEv.fail | exact KEv.wait | intro _
    | dsimp only | split | refine KEv.getOk ?_ (by assumption) | refine KEv.getFail ?_ (by assumption)
    | fail_if_no_progress (refine Evolves.rest ?_ rfl rfl rfl rfl rfl rfl))

theorem cipherFree_ev {s0 s : State} (img : Bytes) (h : Evolves s0 s) : KEv s0 (cipherFree img s) := by
  unfold cipherFree
  with_reducible repeat' (first
    | assumption | apply noKey_ev | apply kcheck_ev | apply ownCtx_ev | apply clearCtx_ev | apply KRes.andThen_ev
    | apply KEv.ok | intro _)

theorem cipherGenkey_ev {s0 s : State} (img : Bytes) (h : Evolves s0 s) : KEv s0 (cipherGenkey img s) := by
  unfold cipherGenkey
  with_reducible repeat' (first
    | assumption | apply noKey_ev | apply kcheck_ev | apply kscalar_ev | apply newKey_ev | apply kdraw_ev
    | apply KRes.andThen_ev | intro _ | split)

theorem cipherUnwrapKey_ev {s0 s : State} (img : Bytes) (h : Evolves s0 s) : KEv s0 (cipherUnwrapKey img s) := by
  unfold cipherUnwrapKey
  with_reducible repeat' (first
    | assumption | apply kslot_ev | apply kcheck_ev | apply needRead_ev | apply kuse_ev | apply kread_ev
    | apply aesBlocks_ev | apply newKey_ev | apply KRes.andThen_ev | apply KEv.ok | apply KEv.fail | exact KEv.wait
    | intro _ | dsimp only | split | refine KEv.getOk ?_ (by assumption) | refine KEv.getFail ?_ (by assumption)
    | fail_if_no_progress (refine Evolves.rest ?_ rfl rfl rfl rfl rfl rfl))

theorem cipherWrapKey_ev {s0 s : State} (img : Bytes) (h : Evolves s0 s) : KEv s0 (cipherWrapKey img s) := by
  unfold cipherWrapKey
  with_reducible repeat' (first
    | assumption | apply kslot_ev | apply kcheck_ev | apply needWrite_ev | apply kuse_ev | apply kwrite_ev
    | apply aesBlocks_ev | apply KRes.andThen_ev | apply KEv.ok | apply KEv.fail | exact KEv.wait | intro _ | dsimp only
    | split | refine KEv.getOk ?_ (by assumption) | refine KEv.getFail ?_ (by assumption))

theorem cipherDerive_ev {s0 s : State} (img : Bytes) (h : Evolves s0 s) : KEv s0 (cipherDerive img s) := by
  unfold cipherDerive
  with_reducible repeat' (first
    | assumption | apply kslot_ev | apply kcheck_ev | apply needRead_ev | apply kuse_ev | apply kread_ev | apply newKey_ev
    | apply aesBlocks_ev | apply KRes.andThen_ev | apply KEv.ok | apply KEv.fail | exact KEv.wait | intro _ | dsimp only
    | split | refine KEv.getOk ?_ (by assumption) | refine KEv.getFail ?_ (by assumption))

theorem cipherZap_ev {s0 s : State} (img : Bytes) (h : Evolves s0 s) : KEv s0 (cipherZap img s) := by
  unfold cipherZap
  with_reducible repeat' (first
    | assumption | apply kslot_ev | apply kcheck_ev | apply zapSlot_ev | apply clearCtxsOf_ev | apply KRes.andThen_ev
    | apply KEv.ok | intro _)

theorem cipherRandom_ev {s0 s : State} (img : Bytes) (h : Evolves s0 s) : KEv s0 (cipherRandom img s) := by
  unfold cipherRandom
  with_reducible repeat' (first
    | assumption | apply noKey_ev | apply kcheck_ev | apply needWrite_ev | apply kdraw_ev | apply kwrite_ev
    | apply KRes.andThen_ev | apply KEv.ok | intro _)

theorem cipherEntKat_ev {s0 s : State} (img : Bytes) (h : Evolves s0 s) : KEv s0 (cipherEntKat img s) := by
  unfold cipherEntKat
  with_reducible repeat' (first
    | assumption | apply noKey_ev | apply kcheck_ev | apply katStart_ev | apply KRes.andThen_ev | apply KEv.ok
    | exact KEv.wait | intro _ | split)

theorem cipherEntPattern_ev {s0 s : State} (img : Bytes) (h : Evolves s0 s) : KEv s0 (cipherEntPattern img s) := by
  unfold cipherEntPattern
  with_reducible repeat' (first
    | assumption | apply noKey_ev | apply kcheck_ev | apply entPattern_ev | apply KRes.andThen_ev | apply KEv.ok
    | exact KEv.wait | intro _ | split)

theorem pkaMasks_ev {s0 s : State} (h : Evolves s0 s) : Evolves s0 (pkaMasks s) := by
  unfold pkaMasks
  with_reducible repeat' (first
    | assumption | apply State.freshBytes_ev | intro _ | dsimp only | split | refine Evolves.pair ?_ (by assumption)
    | fail_if_no_progress (refine Evolves.rest ?_ rfl rfl rfl rfl rfl rfl))

theorem ksign_ev {s0 s : State} (d : Nat) (digest : Bytes) (h : Evolves s0 s) : KEv s0 (ksign d digest s) := by
  unfold ksign
  with_reducible repeat' (first
    | assumption | apply kscalar_ev | apply pkaMasks_ev | apply KRes.andThen_ev | apply KEv.ok | apply KEv.fail
    | exact KEv.wait | intro _ | dsimp only | split | refine KEv.getOk ?_ (by assumption)
    | refine KEv.getFail ?_ (by assumption) | fail_if_no_progress (refine Evolves.rest ?_ rfl rfl rfl rfl rfl rfl))

theorem pkaSign_ev {s0 s : State} (img : Bytes) (h : Evolves s0 s) : KEv s0 (pkaSign img s) := by
  unfold pkaSign
  with_reducible repeat' (first
    | assumption | apply kslot_ev | apply kcheck_ev | apply needRead_ev | apply needWrite_ev | apply kuse_ev
    | apply kread_ev | apply ksign_ev | apply kwrite_ev | apply KRes.andThen_ev | apply KEv.ok | intro _)

theorem pkaVerify_ev {s0 s : State} (img : Bytes) (h : Evolves s0 s) : KEv s0 (pkaVerify img s) := by
  unfold pkaVerify
  with_reducible repeat' (first
    | assumption | apply noKey_ev | apply kcheck_ev | apply needRead_ev | apply kread_ev | apply pkaMasks_ev
    | apply KRes.andThen_ev | apply KEv.ok | apply KEv.fail | exact KEv.wait | intro _ | dsimp only | split
    | refine KEv.getOk ?_ (by assumption) | refine KEv.getFail ?_ (by assumption))

theorem pkaEcdh_ev {s0 s : State} (img : Bytes) (h : Evolves s0 s) : KEv s0 (pkaEcdh img s) := by
  unfold pkaEcdh
  with_reducible repeat' (first
    | assumption | apply kslot_ev | apply kcheck_ev | apply needRead_ev | apply kuse_ev | apply kread_ev | apply newKey_ev
    | apply pkaMasks_ev | apply KRes.andThen_ev | apply KEv.ok | apply KEv.fail | exact KEv.wait | intro _ | dsimp only
    | split | refine KEv.getOk ?_ (by assumption) | refine KEv.getFail ?_ (by assumption)
    | fail_if_no_progress (refine Evolves.rest ?_ rfl rfl rfl rfl rfl rfl))

theorem pkaGenkeyEc_ev {s0 s : State} (img : Bytes) (h : Evolves s0 s) : KEv s0 (pkaGenkeyEc img s) := by
  unfold pkaGenkeyEc
  with_reducible repeat' (first
    | assumption | apply noKey_ev | apply kcheck_ev | apply needWrite_ev | apply kscalar_ev | apply kwrite_ev
    | apply pkaMasks_ev | apply newKey_ev | apply KRes.andThen_ev | apply KEv.ok | apply KEv.fail | exact KEv.wait
    | intro _ | dsimp only | split | refine KEv.getOk ?_ (by assumption) | refine KEv.getFail ?_ (by assumption))

theorem pkaPubkey_ev {s0 s : State} (img : Bytes) (h : Evolves s0 s) : KEv s0 (pkaPubkey img s) := by
  unfold pkaPubkey
  with_reducible repeat' (first
    | assumption | apply kslot_ev | apply kcheck_ev | apply needWrite_ev | apply kwrite_ev | apply pkaMasks_ev
    | apply KRes.andThen_ev | apply KEv.ok | apply KEv.fail | exact KEv.wait | intro _ | dsimp only | split
    | refine KEv.getOk ?_ (by assumption) | refine KEv.getFail ?_ (by assumption))

theorem pkaAttest_ev {s0 s : State} (img : Bytes) (h : Evolves s0 s) : KEv s0 (pkaAttest img s) := by
  unfold pkaAttest
  with_reducible repeat' (first
    | assumption | apply noKey_ev | apply kcheck_ev | apply needRead_ev | apply needWrite_ev | apply kread_ev
    | apply kflash_ev | apply ksign_ev | apply kwrite_ev | apply KRes.andThen_ev | apply KEv.ok | apply KEv.fail
    | exact KEv.wait | intro _ | dsimp only | split | refine KEv.getOk ?_ (by assumption)
    | refine KEv.getFail ?_ (by assumption))

theorem hashBuf_ev {s0 s : State} (img : Bytes) (f : Bytes → Bytes) (h : Evolves s0 s) : KEv s0 (hashBuf img f s) := by
  unfold hashBuf
  with_reducible repeat' (first
    | assumption | apply kcheck_ev | apply needRead_ev | apply kread_ev | apply KRes.andThen_ev | apply KEv.ok | intro _)

theorem hashSha256_ev {s0 s : State} (img : Bytes) (h : Evolves s0 s) : KEv s0 (hashSha256 img s) := by
  unfold hashSha256
  with_reducible repeat' (first
    | assumption | apply noKey_ev | apply kcheck_ev | apply needWrite_ev | apply hashBuf_ev | apply kwrite_ev
    | apply KRes.andThen_ev | apply KEv.ok | intro _)

theorem hashHmac_ev {s0 s : State} (img : Bytes) (h : Evolves s0 s) : KEv s0 (hashHmac img s) := by
  unfold hashHmac
  with_reducible repeat' (first
    | assumption | apply kslot_ev | apply kcheck_ev | apply needWrite_ev | apply kuse_ev | apply hashBuf_ev
    | apply kwrite_ev | apply KRes.andThen_ev | apply KEv.ok | intro _)

theorem hashHmacVerify_ev {s0 s : State} (img : Bytes) (h : Evolves s0 s) : KEv s0 (hashHmacVerify img s) := by
  unfold hashHmacVerify
  with_reducible repeat' (first
    | assumption | apply kslot_ev | apply kcheck_ev | apply needRead_ev | apply kuse_ev | apply hashBuf_ev
    | apply kread_ev | apply KRes.andThen_ev | apply KEv.ok | apply KEv.fail | intro _ | split)

theorem fuseRead_ev {s0 s : State} (img : Bytes) (h : Evolves s0 s) : KEv s0 (fuseRead img s) := by
  unfold fuseRead
  with_reducible repeat' (first
    | assumption | apply noKey_ev | apply kcheck_ev | apply needWrite_ev | apply kwrite_ev | apply KRes.andThen_ev
    | apply KEv.ok | intro _)

theorem FuseField.keeps_of_unprogrammed {a b : FuseField} (h : (a == FuseField.unprogrammed) = true) : a.Keeps b :=
  fun ha => absurd (by simpa using h) ha

/-- The hash copy that is being programmed was unprogrammed, and the other stays. -/

theorem hashes_keep {v : Vector FuseField 2} {k : Fin 2} {b : FuseField} (h : (v.get k == FuseField.unprogrammed) = true)
    (j : Fin 2) :
    (v.get j).Keeps ((v.set k b).get j) := by
  rw [get_set]
  split_ifs with e
  · subst e
    exact FuseField.keeps_of_unprogrammed h
  · exact fun _ => rfl

theorem tearFuse_ev {s0 s : State} (h : Evolves s0 s) : Evolves s0 (tearFuse s) := by
  unfold tearFuse
  split
  · exact h
  · rename_i r hr
    dsimp only
    split
    · refine h.updFuses (fun hw => ?_) rfl rfl rfl rfl rfl rfl rfl rfl rfl
      simp only [fusesOk, hr] at hw
      exact ⟨rfl, fun _ => rfl, fun _ => rfl, fun _ => rfl, FuseField.keeps_of_unprogrammed hw, fun _ _ => rfl, id⟩
    · refine h.updFuses (fun hw => ?_) rfl rfl rfl rfl rfl rfl rfl rfl rfl
      simp only [fusesOk, hr] at hw
      exact ⟨rfl, fun _ => rfl, fun _ => rfl, fun _ => rfl, fun _ => rfl, hashes_keep hw, id⟩
    · refine h.updFuses (fun hw => ?_) rfl rfl rfl rfl rfl rfl rfl rfl rfl
      exact ⟨rfl, fun _ => rfl, fun _ => rfl, fun _ => rfl, fun _ => rfl, fun _ _ => rfl, fun hc => by simp [hc, State.freshWord]⟩

theorem burnFuse_ev {s0 s : State} (h : Evolves s0 s) : Evolves s0 (burnFuse s) := by
  unfold burnFuse
  split
  · exact h
  · rename_i r hr
    dsimp only
    split
    · refine h.updFuses (fun hw => ?_) rfl rfl rfl rfl rfl rfl rfl rfl rfl
      simp only [fusesOk, hr] at hw
      exact ⟨rfl, fun _ => rfl, fun _ => rfl, fun _ => rfl, FuseField.keeps_of_unprogrammed hw, fun _ _ => rfl, id⟩
    · refine h.updFuses (fun hw => ?_) rfl rfl rfl rfl rfl rfl rfl rfl rfl
      simp only [fusesOk, hr] at hw
      exact ⟨rfl, fun _ => rfl, fun _ => rfl, fun _ => rfl, fun _ => rfl, hashes_keep hw, id⟩
    · refine h.updFuses (fun hw => ?_) rfl rfl rfl rfl rfl rfl rfl rfl rfl
      exact ⟨rfl, fun _ => rfl, fun _ => rfl, fun _ => rfl, fun _ => rfl, fun _ _ => rfl, fun _ => rfl⟩

theorem fuseTarget_ok {f : Nat} {bs : Bytes} {s : State} {r : FuseRun} (h : fuseTarget f bs s = some r) :
    fusesOk { s.fuses with running := some r } = true := by
  unfold fuseTarget at h
  split at h
  · split at h
    · cases h
      simpa [fusesOk]
    · cases h
  · unfold freeHash at h
    split at h
    · cases h
      simpa [fusesOk]
    · split at h
      · cases h
        simpa [fusesOk]
      · cases h

theorem fuseWrite_ev {s0 s : State} (img : Bytes) (h : Evolves s0 s) : KEv s0 (fuseWrite img s) := by
  unfold fuseWrite
  dsimp only
  refine KRes.andThen_ev (noKey_ev _ h) (fun _ u hu => ?_)
  refine KRes.andThen_ev (kcheck_ev _ _ _ hu) (fun _ u hu => ?_)
  refine KRes.andThen_ev (needRead_ev _ _ _ hu) (fun _ u hu => ?_)
  refine KRes.andThen_ev (kcheck_ev _ _ _ hu) (fun _ u hu => ?_)
  refine KRes.andThen_ev (kcheck_ev _ _ _ hu) (fun _ u hu => ?_)
  refine KRes.andThen_ev (kread_ev _ _ _ _ _ hu) (fun bs u hu => ?_)
  split
  · exact KEv.fail hu
  · rename_i r hr
    exact KEv.ok (hu.updFuses
        (fun _ => ⟨fuseTarget_ok hr, fun _ => rfl, fun _ => rfl, fun _ => rfl, fun _ => rfl, fun _ _ => rfl, id⟩)
      rfl rfl rfl rfl rfl rfl rfl rfl rfl)

theorem fuseClose_ev {s0 s : State} (img : Bytes) (h : Evolves s0 s) : KEv s0 (fuseClose img s) := by
  unfold fuseClose
  dsimp only
  refine KRes.andThen_ev (noKey_ev _ h) (fun _ u hu => ?_)
  refine KRes.andThen_ev (kcheck_ev _ _ _ hu) (fun _ u hu => ?_)
  refine KRes.andThen_ev (kcheck_ev _ _ _ hu) (fun _ u hu => ?_)
  refine KRes.andThen_ev (kcheck_ev _ _ _ hu) (fun _ u hu => ?_)
  exact KEv.ok (hu.updFuses (fun _ => ⟨rfl, fun _ => rfl, fun _ => rfl, fun _ => rfl, fun _ => rfl, fun _ _ => rfl, id⟩)
      rfl rfl rfl rfl rfl rfl rfl rfl rfl)

theorem fuseEnd_ev {s0 s : State} (ok : Bool) (h : Evolves s0 s) : Evolves s0 (fuseEnd ok s) := by
  unfold fuseEnd
  with_reducible repeat' (first | assumption | apply kilnDone_ev | apply burnFuse_ev | apply tearFuse_ev | split)

theorem elim_ev {s0 s : State} {o : Option State} {f : State → State} (h : Evolves s0 s) (ho : OptEv s0 o)
    (hf : ∀ u, Evolves s0 u → Evolves s0 (f u)) : Evolves s0 (o.elim s f) := by
  cases o with
  | none => exact h
  | some u => exact hf u (ho u rfl)

theorem OptEv.filter {s0 : State} {o : Option State} (p : State → Bool) (h : OptEv s0 o) : OptEv s0 (o.filter p) :=
  fun _ e => h _ (Option.filter_eq_some_iff.1 e).1

theorem kilnOp_ev {s0 s : State} (e op : Nat) (body : Bytes → State → KRes KEnd) (h : Evolves s0 s)
    (hf : ∀ a u, Evolves s0 u → KEv s0 (body a u)) : Evolves s0 (kilnOp e op body s) := by
  unfold kilnOp
  split
  · exact h
  · split
    · exact elim_ev h ((imageLost_ev e h).filter _) (fun _ hu => kilnDone_ev _ _ _ _ hu)
    · rename_i img t he
      have ht : Evolves s0 t := kilnCmd_ev _ _ _ h _ _ he
      have hr : KEv s0 (if imgOp img = op then body img t else KRes.fail 5 1 t) := by
        split
        · exact hf _ _ ht
        · exact KEv.fail ht
      split
      · exact h
      · exact kilnDone_ev _ _ _ _ (hr.getFail (by assumption))
      · exact kilnDone_ev _ _ _ _ (hr.getOk (by assumption))
      · exact hr.getOk (by assumption)
      · exact Evolves.rest (hr.getOk (by assumption)) rfl rfl rfl rfl rfl rfl

theorem execEncrypt_ev {s0 s : State} (h : Evolves s0 s) : OutEv s0 (execEncrypt s) := by
  unfold execEncrypt
  with_reducible repeat' (first | assumption | apply kilnOp_ev | apply cipherData_ev | apply OutEv.next | intro _)

theorem execDecrypt_ev {s0 s : State} (h : Evolves s0 s) : OutEv s0 (execDecrypt s) := by
  unfold execDecrypt
  with_reducible repeat' (first | assumption | apply kilnOp_ev | apply cipherData_ev | apply OutEv.next | intro _)

theorem execUpdate_ev {s0 s : State} (h : Evolves s0 s) : OutEv s0 (execUpdate s) := by
  unfold execUpdate
  with_reducible repeat' (first | assumption | apply kilnOp_ev | apply cipherUpdate_ev | apply OutEv.next | intro _)

theorem execSave_ev {s0 s : State} (h : Evolves s0 s) : OutEv s0 (execSave s) := by
  unfold execSave
  with_reducible repeat' (first | assumption | apply kilnOp_ev | apply cipherSave_ev | apply OutEv.next | intro _)

theorem execRestore_ev {s0 s : State} (h : Evolves s0 s) : OutEv s0 (execRestore s) := by
  unfold execRestore
  with_reducible repeat' (first | assumption | apply kilnOp_ev | apply cipherRestore_ev | apply OutEv.next | intro _)

theorem execFree_ev {s0 s : State} (h : Evolves s0 s) : OutEv s0 (execFree s) := by
  unfold execFree
  with_reducible repeat' (first | assumption | apply kilnOp_ev | apply cipherFree_ev | apply OutEv.next | intro _)

theorem execGenkey_ev {s0 s : State} (h : Evolves s0 s) : OutEv s0 (execGenkey s) := by
  unfold execGenkey
  with_reducible repeat' (first | assumption | apply kilnOp_ev | apply cipherGenkey_ev | apply OutEv.next | intro _)

theorem execUnwrapKey_ev {s0 s : State} (h : Evolves s0 s) : OutEv s0 (execUnwrapKey s) := by
  unfold execUnwrapKey
  with_reducible repeat' (first | assumption | apply kilnOp_ev | apply cipherUnwrapKey_ev | apply OutEv.next | intro _)

theorem execWrapKey_ev {s0 s : State} (h : Evolves s0 s) : OutEv s0 (execWrapKey s) := by
  unfold execWrapKey
  with_reducible repeat' (first | assumption | apply kilnOp_ev | apply cipherWrapKey_ev | apply OutEv.next | intro _)

theorem execDerive_ev {s0 s : State} (h : Evolves s0 s) : OutEv s0 (execDerive s) := by
  unfold execDerive
  with_reducible repeat' (first | assumption | apply kilnOp_ev | apply cipherDerive_ev | apply OutEv.next | intro _)

theorem execZap_ev {s0 s : State} (h : Evolves s0 s) : OutEv s0 (execZap s) := by
  unfold execZap
  with_reducible repeat' (first | assumption | apply kilnOp_ev | apply cipherZap_ev | apply OutEv.next | intro _)

theorem execRandom_ev {s0 s : State} (h : Evolves s0 s) : OutEv s0 (execRandom s) := by
  unfold execRandom
  with_reducible repeat' (first | assumption | apply kilnOp_ev | apply cipherRandom_ev | apply OutEv.next | intro _)

theorem execEntKat_ev {s0 s : State} (h : Evolves s0 s) : OutEv s0 (execEntKat s) := by
  unfold execEntKat
  with_reducible repeat' (first | assumption | apply kilnOp_ev | apply cipherEntKat_ev | apply OutEv.next | intro _)

theorem execEntPattern_ev {s0 s : State} (h : Evolves s0 s) : OutEv s0 (execEntPattern s) := by
  unfold execEntPattern
  with_reducible repeat' (first | assumption | apply kilnOp_ev | apply cipherEntPattern_ev | apply OutEv.next | intro _)

theorem execSign_ev {s0 s : State} (h : Evolves s0 s) : OutEv s0 (execSign s) := by
  unfold execSign
  with_reducible repeat' (first | assumption | apply kilnOp_ev | apply pkaSign_ev | apply OutEv.next | intro _)

theorem execVerify_ev {s0 s : State} (h : Evolves s0 s) : OutEv s0 (execVerify s) := by
  unfold execVerify
  with_reducible repeat' (first | assumption | apply kilnOp_ev | apply pkaVerify_ev | apply OutEv.next | intro _)

theorem execEcdh_ev {s0 s : State} (h : Evolves s0 s) : OutEv s0 (execEcdh s) := by
  unfold execEcdh
  with_reducible repeat' (first | assumption | apply kilnOp_ev | apply pkaEcdh_ev | apply OutEv.next | intro _)

theorem execGenkeyEc_ev {s0 s : State} (h : Evolves s0 s) : OutEv s0 (execGenkeyEc s) := by
  unfold execGenkeyEc
  with_reducible repeat' (first | assumption | apply kilnOp_ev | apply pkaGenkeyEc_ev | apply OutEv.next | intro _)

theorem execPubkey_ev {s0 s : State} (h : Evolves s0 s) : OutEv s0 (execPubkey s) := by
  unfold execPubkey
  with_reducible repeat' (first | assumption | apply kilnOp_ev | apply pkaPubkey_ev | apply OutEv.next | intro _)

theorem execAttest_ev {s0 s : State} (h : Evolves s0 s) : OutEv s0 (execAttest s) := by
  unfold execAttest
  with_reducible repeat' (first | assumption | apply kilnOp_ev | apply pkaAttest_ev | apply OutEv.next | intro _)

theorem execSha256_ev {s0 s : State} (h : Evolves s0 s) : OutEv s0 (execSha256 s) := by
  unfold execSha256
  with_reducible repeat' (first | assumption | apply kilnOp_ev | apply hashSha256_ev | apply OutEv.next | intro _)

theorem execHmac_ev {s0 s : State} (h : Evolves s0 s) : OutEv s0 (execHmac s) := by
  unfold execHmac
  with_reducible repeat' (first | assumption | apply kilnOp_ev | apply hashHmac_ev | apply OutEv.next | intro _)

theorem execHmacVerify_ev {s0 s : State} (h : Evolves s0 s) : OutEv s0 (execHmacVerify s) := by
  unfold execHmacVerify
  with_reducible repeat' (first | assumption | apply kilnOp_ev | apply hashHmacVerify_ev | apply OutEv.next | intro _)

theorem execFuseRead_ev {s0 s : State} (h : Evolves s0 s) : OutEv s0 (execFuseRead s) := by
  unfold execFuseRead
  with_reducible repeat' (first | assumption | apply kilnOp_ev | apply fuseRead_ev | apply OutEv.next | intro _)

theorem execFuseWrite_ev {s0 s : State} (ok : Bool) (h : Evolves s0 s) : OutEv s0 (execFuseWrite ok s) := by
  unfold execFuseWrite
  with_reducible repeat' (first
    | assumption | apply kilnOp_ev | apply fuseWrite_ev | apply when_ev | apply fuseEnd_ev | apply OutEv.next | intro _
    | split)

theorem execFuseClose_ev {s0 s : State} (ok : Bool) (h : Evolves s0 s) : OutEv s0 (execFuseClose ok s) := by
  unfold execFuseClose
  with_reducible repeat' (first
    | assumption | apply kilnOp_ev | apply fuseClose_ev | apply when_ev | apply fuseEnd_ev | apply OutEv.next | intro _
    | split)

theorem execKatComplete_ev {s0 s : State} (pass : Bool) (h : Evolves s0 s) : OutEv s0 (execKatComplete pass s) := by
  unfold execKatComplete
  with_reducible repeat' (first
    | assumption | apply when_ev | apply withSome_ev | apply kilnDone_ev | apply katEnd_ev | apply OutEv.next | intro _
    | split)

theorem kilnCancel_ev {s0 s : State} (img : Bytes) (h : Evolves s0 s) : Evolves s0 (kilnCancel img s) := by
  unfold kilnCancel
  with_reducible repeat' (first | assumption | apply when_ev | apply clearCtx_ev | intro _ | dsimp only | split)

end Sys2Proof.Machine
end

