-- ==== Sys2Proof/Laws/KeepsFleet.lean ====
section
/-! SUPPORT. What credentials, the start lock, the Kiln runtime and the vehicle networks do keeps the invariant. -/
namespace Sys2Proof.Machine

theorem aditEvent_ev {s0 s : State} (b : Nat) (h : Evolves s0 s) : Evolves s0 (aditEvent b s) := by
  unfold aditEvent
  with_reducible repeat' (first | assumption | apply blockEvent_ev)

theorem setPosState_ev {s0 s : State} (p st : Nat) (h : Evolves s0 s) : Evolves s0 (setPosState p st s) := by
  unfold setPosState
  with_reducible repeat' (first | assumption | apply aditEvent_ev | apply State.setFld_ev)

theorem State.onAdit_ev {s0 s : State} (f : Adit → Adit) (h : Evolves s0 s) : Evolves s0 (State.onAdit s f) := by
  unfold State.onAdit
  with_reducible repeat' (first | assumption | fail_if_no_progress (refine Evolves.rest ?_ rfl rfl rfl rfl rfl rfl))

theorem State.setAditPos_ev {s0 s : State} (p : Nat) (x : AditPos) (h : Evolves s0 s) :
    Evolves s0 (State.setAditPos s p x) := by
  unfold State.setAditPos
  with_reducible repeat' (first | assumption | apply State.onAdit_ev)

theorem posBound_ev {s0 s : State} (p : Nat) (h : Evolves s0 s) : Evolves s0 (posBound p s) := by
  unfold posBound
  with_reducible repeat' (first | assumption | apply setPosState_ev | apply State.setAditPos_ev | apply State.setFld_ev)

theorem aditOut_ev {s0 s : State} (status type p : Nat) (payload : Bytes) (h : Evolves s0 s) :
    Evolves s0 (aditOut status type p payload s) := by
  unfold aditOut
  with_reducible repeat' (first | assumption | apply portSend_ev)

theorem aditTakeBack_ev {s0 s : State} (n : Nat) (h : Evolves s0 s) : Evolves s0 (aditTakeBack n s) :=
  State.setChan_ev _ _ h (fun hl => (List.length_take_le' _ _).trans hl)

theorem aditUndeliver_ev {s0 s : State} (p : Nat) (h : Evolves s0 s) : Evolves s0 (aditUndeliver p s) := by
  unfold aditUndeliver
  with_reducible repeat' (first
    | assumption | apply withSome_ev | apply aditTakeBack_ev | apply State.onAdit_ev | intro _ | dsimp only | split
    | fail_if_no_progress (refine Evolves.rest ?_ rfl rfl rfl rfl rfl rfl))

theorem endSatLost_ev {s0 s : State} (p : Nat) (h : Evolves s0 s) : Evolves s0 (endSatLost p s) := by
  unfold endSatLost
  with_reducible repeat' (first | assumption | apply when_ev | apply portSend_ev | intro _)

theorem leaveBound_ev {s0 s : State} (p : Nat) (h : Evolves s0 s) : Evolves s0 (leaveBound p s) := by
  unfold leaveBound
  with_reducible repeat' (first
    | assumption | apply aditUndeliver_ev | apply State.onAdit_ev | apply endSatLost_ev | apply when_ev | apply aditOut_ev
    | intro _ | dsimp only | split | fail_if_no_progress (refine Evolves.rest ?_ rfl rfl rfl rfl rfl rfl))

theorem posLost_ev {s0 s : State} (p : Nat) (h : Evolves s0 s) : Evolves s0 (posLost p s) := by
  unfold posLost
  with_reducible repeat' (first
    | assumption | apply setPosState_ev | apply State.setAditPos_ev | apply when_ev | apply leaveBound_ev | intro _)

theorem aditSendFrame_ev {s0 s : State} (r : AditReq) (h : Evolves s0 s) : Evolves s0 (aditSendFrame r s) := by
  unfold aditSendFrame
  with_reducible repeat' (first
    | assumption | apply State.incFld_ev | apply when_ev | apply attempt_ev | apply State.onAdit_ev | intro _)

theorem aditKick_ev {s0 s : State} (h : Evolves s0 s) : Evolves s0 (aditKick s) := by
  unfold aditKick
  with_reducible repeat' (first | assumption | apply aditSendFrame_ev | apply State.onAdit_ev | split)

theorem writeBind_ev {s0 s : State} (p : Nat) (h : Evolves s0 s) : Evolves s0 (writeBind p s) := by
  unfold writeBind
  with_reducible repeat' (first | assumption | apply when_ev | apply aditKick_ev | apply State.onAdit_ev | intro _)

theorem dropBind_ev {s0 s : State} (p : Nat) (h : Evolves s0 s) : Evolves s0 (dropBind p s) := by
  unfold dropBind
  with_reducible repeat' (first | assumption | apply State.onAdit_ev)

theorem writeUntrust_ev {s0 s : State} (p : Nat) (h : Evolves s0 s) : Evolves s0 (writeUntrust p s) := by
  unfold writeUntrust
  with_reducible repeat' (first | assumption | apply when_ev | apply setPosState_ev | apply dropBind_ev | intro _)

theorem writeRebind_ev {s0 s : State} (p : Nat) (h : Evolves s0 s) : Evolves s0 (writeRebind p s) := by
  unfold writeRebind
  with_reducible repeat' (first | assumption | apply when_ev | apply posLost_ev | intro _)

theorem writeRelease_ev {s0 s : State} (p : Nat) (h : Evolves s0 s) : Evolves s0 (writeRelease p s) := by
  unfold writeRelease
  with_reducible repeat' (first
    | assumption | apply when_ev | apply leaveBound_ev | apply setPosState_ev | apply dropBind_ev | intro _ | dsimp only
    | split)

theorem verifyRecord_ev {s0 s : State} (type sig : Nat) (r : Bytes) (format : Bool) (h : Evolves s0 s) :
    KEv s0 (verifyRecord type sig r format s) := by
  unfold verifyRecord
  with_reducible repeat' (first | assumption | apply kcheck_ev | apply KRes.andThen_ev | apply KEv.ok | intro _)

theorem endRaise_ev {s0 s : State} (t : Option Nat) (status reason : Nat) (h : Evolves s0 s) :
    KEv s0 (endRaise t status reason s) := by
  unfold endRaise
  with_reducible repeat' (first | assumption | apply KEv.ok)

theorem withRaise_ev {s0 s : State} (t : Option Nat) (writes : List JobWrite) (effs : List Eff) (h : Evolves s0 s) :
    KEv s0 (withRaise t writes effs s) := by
  unfold withRaise
  with_reducible repeat' (first | assumption | apply KEv.ok)

theorem listed_ev {s0 s : State} (id : Bytes) (h : Evolves s0 s) : KEv s0 (listed id s) := by
  unfold listed
  with_reducible repeat' (first | assumption | apply kflash_ev | apply KRes.andThen_ev | apply KEv.ok | intro _ | split)

theorem credGone_ev {s0 s : State} (mask : Nat) (ids : List Bytes) (cred cls : Nat) (h : Evolves s0 s) :
    KEv s0 (credGone mask ids cred cls s) := by
  unfold credGone
  with_reducible repeat' (first
    | assumption | apply kflash_ev | apply KRes.andThen_ev | apply KEv.ok | apply KEv.fail | exact KEv.wait | intro _
    | dsimp only | split | refine KEv.getOk ?_ (by assumption) | refine KEv.getFail ?_ (by assumption))

theorem goneSessions_ev {s0 : State} (mask : Nat) (ids : List Bytes) : ∀ (ns : List Nat) (s : State), Evolves s0 s →
    KEv s0 (goneSessions mask ids ns s) := by
  intro ns
  induction ns with
  | nil => exact fun s h => KEv.ok h
  | cons n ns ih =>
    intro s h
    unfold goneSessions
    refine KRes.andThen_ev ?_ (fun g u hu => KRes.andThen_ev (ih u hu) (fun l v hv => KEv.ok hv))
    split
    · exact KEv.ok h
    · exact credGone_ev _ _ _ _ h

theorem goneMark_ev {s0 s : State} (mask : Nat) (ids : List Bytes) (h : Evolves s0 s) : KEv s0 (goneMark mask ids s) := by
  unfold goneMark
  with_reducible repeat' (first
    | assumption | apply credGone_ev | apply KEv.ok | apply KEv.fail | exact KEv.wait | intro _ | dsimp only | split
    | refine KEv.getOk ?_ (by assumption) | refine KEv.getFail ?_ (by assumption))

theorem opRevoke_ev {s0 s : State} (img : Bytes) (h : Evolves s0 s) : KEv s0 (opRevoke img s) := by
  unfold opRevoke
  with_reducible repeat' (first
    | assumption | apply noKey_ev | apply kcheck_ev | apply kflash_ev | apply verifyRecord_ev | apply endRaise_ev
    | apply goneSessions_ev | apply goneMark_ev | apply KRes.andThen_ev | apply KEv.ok | apply KEv.fail | exact KEv.wait
    | intro _ | dsimp only | split | refine KEv.getOk ?_ (by assumption) | refine KEv.getFail ?_ (by assumption)
    | fail_if_no_progress (refine Evolves.rest ?_ rfl rfl rfl rfl rfl rfl))

theorem unwrapSecret_ev {s0 s : State} (eph enc id : Bytes) (h : Evolves s0 s) : KEv s0 (unwrapSecret eph enc id s) := by
  unfold unwrapSecret
  with_reducible repeat' (first | assumption | apply KEv.ok | apply KEv.fail | split)

theorem raiseOnFail_ev {s0 : State} (t : Option Nat) (r : KRes KEnd) (h : KEv s0 r) : KEv s0 (raiseOnFail t r) := by
  unfold raiseOnFail
  split
  · exact endRaise_ev _ _ _ (h.2 _ _ _ rfl)
  · exact h

theorem sessionOpen_ev {s0 s : State} (n : Nat) (h : Evolves s0 s) : KEv s0 (sessionOpen n s) := by
  unfold sessionOpen
  with_reducible repeat' (first | assumption | apply kcheck_ev)

theorem runtimeSlot_ev {s0 s : State} (old : Option Nat) (h : Evolves s0 s) : KEv s0 (runtimeSlot old s) := by
  unfold runtimeSlot
  with_reducible repeat' (first | assumption | apply KEv.ok | apply KEv.fail | split)

theorem bindTicket_ev {s0 s : State} (sess idx : Nat) (t : Option Nat) (r : Bytes) (h : Evolves s0 s) :
    KEv s0 (bindTicket sess idx t r s) := by
  unfold bindTicket
  with_reducible repeat' (first
    | assumption | apply listed_ev | apply kcheck_ev | apply unwrapSecret_ev | apply runtimeSlot_ev | apply withRaise_ev
    | apply KRes.andThen_ev | intro _)

theorem opTicketOpen_ev {s0 s : State} (img : Bytes) (h : Evolves s0 s) : KEv s0 (opTicketOpen img s) := by
  unfold opTicketOpen
  with_reducible repeat' (first
    | assumption | apply noKey_ev | apply kcheck_ev | apply sessionOpen_ev | apply kflash_ev | apply verifyRecord_ev
    | apply raiseOnFail_ev | apply bindTicket_ev | apply KRes.andThen_ev | intro _)

theorem opTokenNonce_ev {s0 s : State} (img : Bytes) (h : Evolves s0 s) : KEv s0 (opTokenNonce img s) := by
  unfold opTokenNonce
  with_reducible repeat' (first
    | assumption | apply noKey_ev | apply kcheck_ev | apply needWrite_ev | apply kdraw_ev | apply kwrite_ev
    | apply KRes.andThen_ev | apply KEv.ok | intro _ | dsimp only
    | fail_if_no_progress (refine Evolves.rest ?_ rfl rfl rfl rfl rfl rfl))

theorem tokenAct_ev {s0 s : State} (t : Option Nat) (r : Bytes) (h : Evolves s0 s) : KEv s0 (tokenAct t r s) := by
  unfold tokenAct
  with_reducible repeat' (first
    | assumption | apply withRaise_ev | apply endRaise_ev | apply KEv.ok | dsimp only | split
    | fail_if_no_progress (refine Evolves.rest ?_ rfl rfl rfl rfl rfl rfl))

theorem opToken_ev {s0 s : State} (img : Bytes) (h : Evolves s0 s) : KEv s0 (opToken img s) := by
  unfold opToken
  with_reducible repeat' (first
    | assumption | apply noKey_ev | apply kcheck_ev | apply needRead_ev | apply kread_ev | apply verifyRecord_ev
    | apply tokenAct_ev | apply endRaise_ev | apply KRes.andThen_ev | intro _ | split)

theorem opTrustSet_ev {s0 s : State} (img : Bytes) (h : Evolves s0 s) : KEv s0 (opTrustSet img s) := by
  unfold opTrustSet
  with_reducible repeat' (first
    | assumption | apply noKey_ev | apply kcheck_ev | apply needRead_ev | apply kread_ev | apply verifyRecord_ev
    | apply withRaise_ev | apply endRaise_ev | apply KRes.andThen_ev | apply KEv.ok | apply KEv.fail | intro _
    | dsimp only | split)

theorem opMateVehicle_ev {s0 s : State} (img : Bytes) (h : Evolves s0 s) : KEv s0 (opMateVehicle img s) := by
  unfold opMateVehicle
  with_reducible repeat' (first
    | assumption | apply noKey_ev | apply kcheck_ev | apply needWrite_ev | apply kscalar_ev | apply KRes.andThen_ev
    | apply KEv.ok | intro _)

theorem enrolOpen_ev {s0 s : State} (sess : Nat) (t : Option Nat) (r : Bytes) (h : Evolves s0 s) :
    KEv s0 (enrolOpen sess t r s) := by
  unfold enrolOpen
  with_reducible repeat' (first
    | assumption | apply runtimeSlot_ev | apply unwrapSecret_ev | apply withRaise_ev | apply KRes.andThen_ev
    | apply KEv.fail | exact KEv.wait | intro _ | dsimp only | split | refine KEv.getOk ?_ (by assumption)
    | refine KEv.getFail ?_ (by assumption))

theorem opEnrolBegin_ev {s0 s : State} (img : Bytes) (h : Evolves s0 s) : KEv s0 (opEnrolBegin img s) := by
  unfold opEnrolBegin
  with_reducible repeat' (first
    | assumption | apply noKey_ev | apply kcheck_ev | apply needRead_ev | apply sessionOpen_ev | apply raiseLockdown_ev
    | apply kread_ev | apply verifyRecord_ev | apply raiseOnFail_ev | apply enrolOpen_ev | apply KRes.andThen_ev
    | apply KEv.fail | intro _ | split)

theorem inEnrol_ev {s0 s : State} (sess : Nat) (h : Evolves s0 s) : KEv s0 (inEnrol sess s) := by
  unfold inEnrol
  with_reducible repeat' (first | assumption | apply KEv.ok | apply KEv.fail | split)

theorem setEnrol_ev {s0 s : State} (sess : Nat) (e : Option Enrol) (h : Evolves s0 s) : Evolves s0 (setEnrol sess e s) := by
  unfold setEnrol
  with_reducible repeat' (first | assumption | apply State.setKsess_ev)

theorem opEnrolOrigin_ev {s0 s : State} (img : Bytes) (h : Evolves s0 s) : KEv s0 (opEnrolOrigin img s) := by
  unfold opEnrolOrigin
  with_reducible repeat' (first
    | assumption | apply noKey_ev | apply kcheck_ev | apply needRead_ev | apply sessionOpen_ev | apply inEnrol_ev
    | apply kread_ev | apply setEnrol_ev | apply KRes.andThen_ev | apply KEv.ok | intro _)

theorem opEnrolKey_ev {s0 s : State} (img : Bytes) (h : Evolves s0 s) : KEv s0 (opEnrolKey img s) := by
  unfold opEnrolKey
  with_reducible repeat' (first
    | assumption | apply noKey_ev | apply kcheck_ev | apply needWrite_ev | apply sessionOpen_ev | apply inEnrol_ev
    | apply kdraw_ev | apply kwrite_ev | apply setEnrol_ev | apply KRes.andThen_ev | apply KEv.ok | intro _ | split)

theorem opEnrolCommit_ev {s0 s : State} (img : Bytes) (h : Evolves s0 s) : KEv s0 (opEnrolCommit img s) := by
  unfold opEnrolCommit
  with_reducible repeat' (first
    | assumption | apply noKey_ev | apply kcheck_ev | apply sessionOpen_ev | apply inEnrol_ev | apply KRes.andThen_ev
    | apply KEv.ok | intro _)

theorem opCredErase_ev {s0 s : State} (img : Bytes) (h : Evolves s0 s) : KEv s0 (opCredErase img s) := by
  unfold opCredErase
  with_reducible repeat' (first
    | assumption | apply noKey_ev | apply kcheck_ev | apply KRes.andThen_ev | apply KEv.ok | intro _)

theorem opCredNonce_ev {s0 s : State} (img : Bytes) (h : Evolves s0 s) : KEv s0 (opCredNonce img s) := by
  unfold opCredNonce
  with_reducible repeat' (first
    | assumption | apply noKey_ev | apply kcheck_ev | apply needWrite_ev | apply sessionOpen_ev | apply kdraw_ev
    | apply kwrite_ev | apply State.setKsess_ev | apply KRes.andThen_ev | apply KEv.ok | intro _)

theorem opVmac_ev {s0 s : State} (img : Bytes) (h : Evolves s0 s) : KEv s0 (opVmac img s) := by
  unfold opVmac
  with_reducible repeat' (first
    | assumption | apply noKey_ev | apply kcheck_ev | apply needWrite_ev | apply sessionOpen_ev | apply kwrite_ev
    | apply KRes.andThen_ev | apply KEv.ok | apply KEv.fail | intro _ | split)

theorem acceptEffs_ev {s0 s : State} (sess c : Nat) (m : Matched) (msg : Bytes) (h : Evolves s0 s) :
    KEv s0 (acceptEffs s sess c m msg) := by
  unfold acceptEffs
  with_reducible repeat' (first
    | assumption | apply kdraw_ev | apply KRes.andThen_ev | apply KEv.ok | intro _ | dsimp only | split)

theorem ticketGone_ev {s0 s : State} (sess c : Nat) (h : Evolves s0 s) : KEv s0 (ticketGone sess c s) := by
  unfold ticketGone
  with_reducible repeat' (first | assumption | apply listed_ev | apply KEv.ok | split)

theorem opCredVerify_ev {s0 s : State} (img : Bytes) (h : Evolves s0 s) : KEv s0 (opCredVerify img s) := by
  unfold opCredVerify
  with_reducible repeat' (first
    | assumption | apply noKey_ev | apply kcheck_ev | apply needRead_ev | apply sessionOpen_ev | apply kread_ev
    | apply ticketGone_ev | apply acceptEffs_ev | apply KRes.andThen_ev | apply KEv.ok | intro _ | dsimp only | split)

theorem State.onCan_ev {s0 s : State} (n : Nat) (f : CanCtl → CanCtl) (h : Evolves s0 s) :
    Evolves s0 (State.onCan s n f) := by
  unfold State.onCan
  with_reducible repeat' (first
    | assumption | dsimp only | fail_if_no_progress (refine Evolves.rest ?_ rfl rfl rfl rfl rfl rfl))

theorem canEvent_ev {s0 s : State} (n b : Nat) (h : Evolves s0 s) : Evolves s0 (canEvent n b s) := by
  unfold canEvent
  with_reducible repeat' (first | assumption | apply blockEvent_ev)

theorem canArb_ev {s0 s : State} (n : Nat) (h : Evolves s0 s) : Evolves s0 (canArb n s) := by
  unfold canArb
  with_reducible repeat' (first | assumption | apply State.onCan_ev | apply attempt_ev | dsimp only | split)

theorem sendPartner_ev {s0 s : State} (n : Nat) (id : Word) (bs : Bytes) (h : Evolves s0 s) :
    Evolves s0 (sendPartner n id bs s) := by
  unfold sendPartner
  with_reducible repeat' (first | assumption | apply canArb_ev | apply State.onCan_ev)

theorem dropPartner_ev {s0 s : State} (h : Evolves s0 s) : Evolves s0 (dropPartner s) := by
  unfold dropPartner
  with_reducible repeat' (first | assumption | apply forEach_ev | apply State.onCan_ev | intro _)

theorem canErrState_ev {s0 s : State} (n : Nat) (h : Evolves s0 s) : Evolves s0 (canErrState n s) := by
  unfold canErrState
  with_reducible repeat' (first
    | assumption | apply State.setFld_ev | apply when_ev | apply canEvent_ev | intro _ | dsimp only | split)

theorem canTxError_ev {s0 s : State} (n : Nat) (h : Evolves s0 s) : Evolves s0 (canTxError n s) := by
  unfold canTxError
  with_reducible repeat' (first
    | assumption | apply State.setFld_ev | apply canEvent_ev | apply State.onCan_ev | apply canErrState_ev | dsimp only
    | split)

theorem canTxOk_ev {s0 s : State} (n : Nat) (h : Evolves s0 s) : Evolves s0 (canTxOk n s) := by
  unfold canTxOk
  with_reducible repeat' (first | assumption | apply canErrState_ev | apply State.setFld_ev)

theorem canRxCount_ev {s0 s : State} (n : Nat) (ok : Bool) (h : Evolves s0 s) : Evolves s0 (canRxCount n ok s) := by
  unfold canRxCount
  with_reducible repeat' (first
    | assumption | apply canErrState_ev | apply State.setFld_ev | apply State.freshWord_ev | dsimp only | split)

theorem canRecovered_ev {s0 s : State} (n : Nat) (h : Evolves s0 s) : Evolves s0 (canRecovered n s) := by
  unfold canRecovered
  with_reducible repeat' (first
    | assumption | apply when_ev | apply canArb_ev | apply State.setReg_ev | apply State.onCan_ev | intro _)

theorem canEnable_ev {s0 s : State} (n : Nat) (h : Evolves s0 s) : Evolves s0 (canEnable n s) := by
  unfold canEnable
  with_reducible repeat' (first
    | assumption | apply State.setFld_ev | apply canArb_ev | apply State.onCan_ev | dsimp only | split)

theorem State.onStart_ev {s0 s : State} (f : Start → Start) (h : Evolves s0 s) : Evolves s0 (State.onStart s f) := by
  unfold State.onStart
  with_reducible repeat' (first | assumption | fail_if_no_progress (refine Evolves.rest ?_ rfl rfl rfl rfl rfl rfl))

theorem startEvent_ev {s0 s : State} (b : Nat) (h : Evolves s0 s) : Evolves s0 (startEvent b s) := by
  unfold startEvent
  with_reducible repeat' (first | assumption | apply State.setRbit_ev)

theorem setMark_ev {s0 s : State} (cls cred : Nat) (h : Evolves s0 s) : Evolves s0 (setMark cls cred s) := by
  unfold setMark
  with_reducible repeat' (first | assumption | apply State.setReg_ev | apply State.onStart_ev)

theorem creditRange_ev {s0 s : State} (w : Word) (h : Evolves s0 s) : Evolves s0 (creditRange w s) := by
  unfold creditRange
  with_reducible repeat' (first
    | assumption | apply when_ev | apply setMark_ev | apply setGrant_ev | intro _ | dsimp only | split)

theorem anchPolls_ev {s0 s : State} (r : Option RangeRun) (h : Evolves s0 s) : Evolves s0 (anchPolls r s) := by
  unfold anchPolls
  with_reducible repeat' (first | assumption | apply when_ev | apply State.setFld_ev | intro _ | dsimp only | split)

theorem execRangeResult_ev {s0 s : State} (meas : RangeMeas) (h : Evolves s0 s) : OutEv s0 (execRangeResult meas s) := by
  unfold execRangeResult
  with_reducible repeat' (first
    | assumption | apply when_ev | apply rangeResult_ev | apply anchPolls_ev | apply creditRange_ev | apply OutEv.next
    | intro _ | split)

theorem withdraw_ev {s0 s : State} (h : Evolves s0 s) : Evolves s0 (withdraw s) := by
  unfold withdraw
  with_reducible repeat' (first | assumption | apply when_ev | apply commit_ev | intro _)

theorem clearMark_ev {s0 s : State} (h : Evolves s0 s) : Evolves s0 (clearMark s) := by
  unfold clearMark
  with_reducible repeat' (first | assumption | apply withdraw_ev | apply State.setReg_ev | apply State.onStart_ev)

theorem execPresenceSupervision_ev {s0 s : State} (h : Evolves s0 s) : OutEv s0 (execPresenceSupervision s) := by
  unfold execPresenceSupervision
  with_reducible repeat' (first | assumption | apply when_ev | apply withdraw_ev | apply OutEv.next)

theorem startLoad_ev {s0 s : State} (h : Evolves s0 s) : Evolves s0 (startLoad s) := by
  unfold startLoad
  with_reducible repeat' (first | assumption | apply State.setReg_ev | apply State.onStart_ev)

theorem startWrite_ev {s0 s : State} (a : Nat) (v : Word) (h : Evolves s0 s) : OptEv s0 (startWrite a v s) := by
  unfold startWrite
  with_reducible repeat' (first | assumption | apply State.setReg_ev | apply OptEv.some | exact OptEv.none | split)

theorem drawCount_ev {s0 s : State} (h : Evolves s0 s) : Evolves s0 (drawCount s).2 := by
  unfold drawCount
  with_reducible repeat' (first | assumption | apply State.setReg_ev)

theorem startDone_ev {s0 s : State} (status reason value : Nat) (h : Evolves s0 s) :
    Evolves s0 (startDone status reason value s) := by
  unfold startDone
  with_reducible repeat' (first | assumption | apply kilnDone_ev | apply State.onStart_ev)

theorem replaced_ev {s0 s : State} (h : Evolves s0 s) : Evolves s0 (replaced s) := by
  unfold replaced
  with_reducible repeat' (first
    | assumption | apply startDone_ev | apply startEvent_ev | apply when_ev | apply raiseLockdown_ev | intro _)

theorem addJob_ev {s0 s : State} (writes : List JobWrite) (effs fail : List Eff) (h : Evolves s0 s) :
    Evolves s0 (addJob writes effs fail s) := by
  unfold addJob
  with_reducible repeat' (first
    | assumption | dsimp only | fail_if_no_progress (refine Evolves.rest ?_ rfl rfl rfl rfl rfl rfl))

theorem crankLate_ev {s0 s : State} (h : Evolves s0 s) : Evolves s0 (crankLate s) := by
  unfold crankLate
  with_reducible repeat' (first | assumption | apply startDone_ev | apply startEvent_ev)

theorem crankAnswer_ev {s0 s : State} (h : Evolves s0 s) : Evolves s0 (crankAnswer s) := by
  unfold crankAnswer
  with_reducible repeat' (first
    | assumption | apply crankLate_ev | apply drawCount_ev | apply State.onStart_ev | apply sendPartner_ev
    | apply addJob_ev | apply when_ev | apply commit_ev | intro _ | dsimp only | split)

theorem crankGo_ev {s0 s : State} (c : CrankRun) (ch : Challenge) (k : Bool × Bytes) (h : Evolves s0 s) :
    Evolves s0 (crankGo c ch k s) := by
  unfold crankGo
  with_reducible repeat' (first
    | assumption | apply crankAnswer_ev | apply State.onStart_ev | apply addJob_ev | dsimp only | split)

theorem crankTry_ev {s0 s : State} (h : Evolves s0 s) : Evolves s0 (crankTry s) := by
  unfold crankTry
  with_reducible repeat' (first
    | assumption | apply State.onStart_ev | apply replaced_ev | apply crankGo_ev | dsimp only | split)

theorem crankWritten_ev {s0 s : State} (h : Evolves s0 s) : Evolves s0 (crankWritten s) := by
  unfold crankWritten
  with_reducible repeat' (first | assumption | apply crankAnswer_ev | apply State.onStart_ev | split)

theorem crankEnd_ev {s0 s : State} (h : Evolves s0 s) : Evolves s0 (crankEnd s) := by
  unfold crankEnd
  with_reducible repeat' (first | assumption | apply startDone_ev | split)

theorem opCrank_ev {s0 s : State} (img : Bytes) (h : Evolves s0 s) : KEv s0 (opCrank img s) := by
  unfold opCrank
  with_reducible repeat' (first
    | assumption | apply kcheck_ev | apply crankTry_ev | apply State.onStart_ev | apply KRes.andThen_ev | apply KEv.ok
    | intro _)

theorem crankDeadline_ev {s0 s : State} (h : Evolves s0 s) : Evolves s0 (crankDeadline s) := by
  unfold crankDeadline
  with_reducible repeat' (first | assumption | apply crankLate_ev | apply dropPartner_ev | split)

theorem execCrankDeadline_ev {s0 s : State} (h : Evolves s0 s) : OutEv s0 (execCrankDeadline s) := by
  unfold execCrankDeadline
  with_reducible repeat' (first | assumption | apply when_ev | apply crankDeadline_ev | apply OutEv.next)

theorem opRollEngine_ev {s0 s : State} (img : Bytes) (h : Evolves s0 s) : KEv s0 (opRollEngine img s) := by
  unfold opRollEngine
  with_reducible repeat' (first
    | assumption | apply kcheck_ev | apply kdraw_ev | apply State.onStart_ev | apply KRes.andThen_ev | apply KEv.ok
    | intro _)

theorem rollSend_ev {s0 s : State} (h : Evolves s0 s) : Evolves s0 (rollSend s) := by
  unfold rollSend
  with_reducible repeat' (first
    | assumption | apply drawCount_ev | apply State.onStart_ev | apply sendPartner_ev | dsimp only | split)

theorem rollConfirm_ev {s0 s : State} (r : RollRun) (h : Evolves s0 s) : Evolves s0 (rollConfirm r s) := by
  unfold rollConfirm
  with_reducible repeat' (first | assumption | apply addJob_ev | apply dropPartner_ev | apply State.onStart_ev)

theorem rollChallenge_ev {s0 s : State} (r : RollRun) (ch : Challenge) (h : Evolves s0 s) :
    Evolves s0 (rollChallenge r ch s) := by
  unfold rollChallenge
  with_reducible repeat' (first
    | assumption | apply State.onStart_ev | apply replaced_ev | apply dropPartner_ev | apply rollConfirm_ev
    | apply addJob_ev | dsimp only | split)

theorem rollAck_ev {s0 s : State} (bs : Bytes) (h : Evolves s0 s) : Evolves s0 (rollAck bs s) := by
  unfold rollAck
  with_reducible repeat' (first | assumption | apply rollConfirm_ev | split)

theorem rollRepeat_ev {s0 s : State} (h : Evolves s0 s) : Evolves s0 (rollRepeat s) := by
  unfold rollRepeat
  with_reducible repeat' (first
    | assumption | apply State.onStart_ev | apply sendPartner_ev | apply dropPartner_ev | dsimp only | split)

theorem rollTimeout_ev {s0 s : State} (h : Evolves s0 s) : Evolves s0 (rollTimeout s) := by
  unfold rollTimeout
  with_reducible repeat' (first | assumption | apply startDone_ev | apply dropPartner_ev | split)

theorem execRollRepeat_ev {s0 s : State} (h : Evolves s0 s) : OutEv s0 (execRollRepeat s) := by
  unfold execRollRepeat
  with_reducible repeat' (first | assumption | apply when_ev | apply rollRepeat_ev | apply OutEv.next)

theorem execRollTimeout_ev {s0 s : State} (h : Evolves s0 s) : OutEv s0 (execRollTimeout s) := by
  unfold execRollTimeout
  with_reducible repeat' (first | assumption | apply when_ev | apply rollTimeout_ev | apply OutEv.next)

theorem opMateEngine_ev {s0 s : State} (img : Bytes) (h : Evolves s0 s) : KEv s0 (opMateEngine img s) := by
  unfold opMateEngine
  with_reducible repeat' (first
    | assumption | apply noKey_ev | apply kcheck_ev | apply kscalar_ev | apply State.onStart_ev | apply sendPartner_ev
    | apply KRes.andThen_ev | apply KEv.ok | intro _)

theorem mateReply_ev {s0 s : State} (bs : Bytes) (h : Evolves s0 s) : Evolves s0 (mateReply bs s) := by
  unfold mateReply
  with_reducible repeat' (first | assumption | apply State.onStart_ev | apply startDone_ev | dsimp only | split)

theorem mateConfirm_ev {s0 s : State} (bs : Bytes) (h : Evolves s0 s) : Evolves s0 (mateConfirm bs s) := by
  unfold mateConfirm
  with_reducible repeat' (first | assumption | apply addJob_ev | apply State.onStart_ev | apply startDone_ev | split)

theorem mateTimeout_ev {s0 s : State} (h : Evolves s0 s) : Evolves s0 (mateTimeout s) := by
  unfold mateTimeout
  with_reducible repeat' (first | assumption | apply startDone_ev | apply dropPartner_ev | split)

theorem execMateFrameTimeout_ev {s0 s : State} (h : Evolves s0 s) : OutEv s0 (execMateFrameTimeout s) := by
  unfold execMateFrameTimeout
  with_reducible repeat' (first | assumption | apply when_ev | apply mateTimeout_ev | apply OutEv.next)

theorem mateLoad_ev {s0 s : State} (h : Evolves s0 s) : Evolves s0 (mateLoad s) := by
  unfold mateLoad
  with_reducible repeat' (first | assumption | apply State.setReg_ev | dsimp only | split)

theorem mateEnd_ev {s0 s : State} (h : Evolves s0 s) : Evolves s0 (mateEnd s) := by
  unfold mateEnd
  with_reducible repeat' (first
    | assumption | apply startDone_ev | dsimp only | fail_if_no_progress (refine Evolves.rest ?_ rfl rfl rfl rfl rfl rfl))

theorem takeChallenge_ev {s0 s : State} (bs : Bytes) (h : Evolves s0 s) : Evolves s0 (takeChallenge bs s) := by
  unfold takeChallenge
  with_reducible repeat' (first
    | assumption | apply startEvent_ev | apply rollChallenge_ev | apply crankTry_ev | apply State.onStart_ev | dsimp only
    | split)

theorem partnerTake_ev {s0 s : State} (bs : Bytes) (h : Evolves s0 s) : Evolves s0 (partnerTake bs s) := by
  unfold partnerTake
  with_reducible repeat' (first
    | assumption | apply takeChallenge_ev | apply rollAck_ev | apply mateReply_ev | apply mateConfirm_ev | split)

theorem partnerRow_ev {s0 s : State} (type : Nat) (bs : Bytes) (h : Evolves s0 s) : Evolves s0 (partnerRow type bs s) := by
  unfold partnerRow
  with_reducible repeat' (first | assumption | apply when_ev | apply partnerTake_ev | intro _)

theorem holdOffEnd_ev {s0 s : State} (c : Nat) (h : Evolves s0 s) : Evolves s0 (holdOffEnd c s) := by
  unfold holdOffEnd
  with_reducible repeat' (first
    | assumption | apply when_ev | intro _ | dsimp only
    | fail_if_no_progress (refine Evolves.rest ?_ rfl rfl rfl rfl rfl rfl))

theorem execHoldOffEnd_ev {s0 s : State} (cls : Fin 8) (h : Evolves s0 s) : OutEv s0 (execHoldOffEnd cls s) := by
  unfold execHoldOffEnd
  with_reducible repeat' (first | assumption | apply when_ev | apply holdOffEnd_ev | apply OutEv.next | intro _)

theorem timeWrite_ev {s0 s : State} (h : Evolves s0 s) : Evolves s0 (timeWrite s) := by
  unfold timeWrite
  with_reducible repeat' (first
    | assumption | apply addJob_ev | dsimp only | split
    | fail_if_no_progress (refine Evolves.rest ?_ rfl rfl rfl rfl rfl rfl))

theorem holdAll_ev {s0 s : State} (h : Evolves s0 s) : Evolves s0 (holdAll s) := by
  unfold holdAll
  with_reducible repeat' (first
    | assumption | dsimp only | fail_if_no_progress (refine Evolves.rest ?_ rfl rfl rfl rfl rfl rfl))

theorem revokeSession_ev {s0 s : State} (n : Nat) (h : Evolves s0 s) : Evolves s0 (revokeSession n s) := by
  unfold revokeSession
  with_reducible repeat' (first
    | assumption | apply State.setKsess_ev | dsimp only | split
    | fail_if_no_progress (refine Evolves.rest ?_ rfl rfl rfl rfl rfl rfl))

theorem revoke_ev {s0 s : State} (sessions : List Nat) (mark : Bool) (h : Evolves s0 s) :
    Evolves s0 (revoke sessions mark s) := by
  unfold revoke
  with_reducible repeat' (first
    | assumption | apply when_ev | apply clearMark_ev | apply forEach_ev | apply revokeSession_ev | intro _ | dsimp only
    | split)

theorem satPos_ev {s0 s : State} (img : Bytes) (h : Evolves s0 s) : KEv s0 (satPos img s) := by
  unfold satPos
  with_reducible repeat' (first
    | assumption | apply noKey_ev | apply kcheck_ev | apply KRes.andThen_ev | apply KEv.ok | intro _)

theorem satReady_ev {s0 s : State} (h : Evolves s0 s) : KEv s0 (satReady s) := by
  unfold satReady
  with_reducible repeat' (first | assumption | apply kcheck_ev)

theorem opSatAuthReq_ev {s0 s : State} (img : Bytes) (h : Evolves s0 s) : KEv s0 (opSatAuthReq img s) := by
  unfold opSatAuthReq
  with_reducible repeat' (first
    | assumption | apply satPos_ev | apply needWrite_ev | apply satReady_ev | apply kdraw_ev | apply KRes.andThen_ev
    | apply KEv.ok | intro _)

theorem satAsked_ev {s0 s : State} (p : Nat) (h : Evolves s0 s) : KEv s0 (satAsked p s) := by
  unfold satAsked
  with_reducible repeat' (first
    | assumption | apply KEv.ok | apply KEv.fail | dsimp only | split
    | fail_if_no_progress (refine Evolves.rest ?_ rfl rfl rfl rfl rfl rfl))

theorem opSatAuthCheck_ev {s0 s : State} (img : Bytes) (h : Evolves s0 s) : KEv s0 (opSatAuthCheck img s) := by
  unfold opSatAuthCheck
  with_reducible repeat' (first
    | assumption | apply satPos_ev | apply needRead_ev | apply satReady_ev | apply kread_ev | apply satAsked_ev
    | apply writeUntrust_ev | apply KRes.andThen_ev | apply KEv.ok | intro _ | dsimp only | split)

theorem opSatMateOffer_ev {s0 s : State} (img : Bytes) (h : Evolves s0 s) : KEv s0 (opSatMateOffer img s) := by
  unfold opSatMateOffer
  with_reducible repeat' (first
    | assumption | apply satPos_ev | apply needWrite_ev | apply kscalar_ev | apply kwrite_ev | apply KRes.andThen_ev
    | apply KEv.ok | intro _ | dsimp only | fail_if_no_progress (refine Evolves.rest ?_ rfl rfl rfl rfl rfl rfl))

theorem satMateKey_ev {s0 s : State} (h : Evolves s0 s) : KEv s0 (satMateKey s) := by
  unfold satMateKey
  with_reducible repeat' (first
    | assumption | apply kdraw_ev | apply KRes.andThen_ev | apply KEv.ok | intro _ | dsimp only | split)

theorem opSatMateKey_ev {s0 s : State} (img : Bytes) (h : Evolves s0 s) : KEv s0 (opSatMateKey img s) := by
  unfold opSatMateKey
  with_reducible repeat' (first
    | assumption | apply satPos_ev | apply needRead_ev | apply needWrite_ev | apply kcheck_ev | apply kread_ev
    | apply satMateKey_ev | apply KRes.andThen_ev | apply KEv.ok | apply KEv.fail | intro _ | dsimp only | split)

theorem keyxCheck_ev {s0 s : State} (img : Bytes) (p : Nat) (key : Option Bytes) (h : Evolves s0 s) :
    KEv s0 (keyxCheck img p key s) := by
  unfold keyxCheck
  with_reducible repeat' (first
    | assumption | apply kread_ev | apply satAsked_ev | apply KRes.andThen_ev | apply KEv.ok | intro _)

theorem opSatMateConfirm_ev {s0 s : State} (img : Bytes) (h : Evolves s0 s) : KEv s0 (opSatMateConfirm img s) := by
  unfold opSatMateConfirm
  with_reducible repeat' (first
    | assumption | apply satPos_ev | apply needRead_ev | apply satReady_ev | apply kcheck_ev | apply keyxCheck_ev
    | apply KRes.andThen_ev | apply KEv.ok | apply KEv.fail | intro _ | split)

theorem satRollKey_ev {s0 s : State} (h : Evolves s0 s) : KEv s0 (satRollKey s) := by
  unfold satRollKey
  with_reducible repeat' (first
    | assumption | apply kdraw_ev | apply KRes.andThen_ev | apply KEv.ok | intro _ | dsimp only | split)

theorem opSatRoll_ev {s0 s : State} (img : Bytes) (h : Evolves s0 s) : KEv s0 (opSatRoll img s) := by
  unfold opSatRoll
  with_reducible repeat' (first
    | assumption | apply satPos_ev | apply needWrite_ev | apply satReady_ev | apply satRollKey_ev | apply KRes.andThen_ev
    | apply KEv.ok | apply KEv.fail | intro _ | dsimp only | split)

theorem opSatRollConfirm_ev {s0 s : State} (img : Bytes) (h : Evolves s0 s) : KEv s0 (opSatRollConfirm img s) := by
  unfold opSatRollConfirm
  with_reducible repeat' (first
    | assumption | apply satPos_ev | apply needRead_ev | apply satReady_ev | apply kcheck_ev | apply keyxCheck_ev
    | apply KRes.andThen_ev | apply KEv.ok | apply KEv.fail | intro _ | split)

theorem onCreds_ev {s0 s : State} (f : Creds → Creds) (h : Evolves s0 s) : Evolves s0 (onCreds f s) := by
  unfold onCreds
  with_reducible repeat' (first | assumption | fail_if_no_progress (refine Evolves.rest ?_ rfl rfl rfl rfl rfl rfl))

theorem effDone_ev {s0 s : State} (e : Nat) (w : Word) (h : Evolves s0 s) : Evolves s0 (effDone e w s) := by
  unfold effDone
  with_reducible repeat' (first | assumption | apply kilnSend_ev | apply State.onStart_ev | split)

theorem effBuf_ev {s0 s : State} (e ctx addr : Nat) (bs : Bytes) (h : Evolves s0 s) :
    Evolves s0 (effBuf e ctx addr bs s) := by
  unfold effBuf
  with_reducible repeat' (first
    | assumption | apply ansRes_ev | apply devWrite_ev | apply kilnDone_ev | split | refine KEv.getOk ?_ (by assumption)
    | refine KEv.getFail ?_ (by assumption))

theorem effService_ev {s0 s : State} (sec : Nat) (h : Evolves s0 s) : Evolves s0 (effService sec s) := by
  unfold effService
  with_reducible repeat' (first
    | assumption | apply kilnDone_ev | apply commit_ev | dsimp only | split
    | fail_if_no_progress (refine Evolves.rest ?_ rfl rfl rfl rfl rfl rfl))

theorem enterRecovery_ev {s0 s : State} (sec : Nat) (h : Evolves s0 s) : Evolves s0 (enterRecovery sec s) := by
  unfold enterRecovery
  with_reducible repeat' (first
    | assumption | apply State.setRbit_ev | apply commit_ev | dsimp only
    | fail_if_no_progress (refine Evolves.rest ?_ rfl rfl rfl rfl rfl rfl))

theorem effRecovery_ev {s0 s : State} (sec : Nat) (h : Evolves s0 s) : Evolves s0 (effRecovery sec s) := by
  unfold effRecovery
  with_reducible repeat' (first
    | assumption | apply kilnDone_ev | apply enterRecovery_ev | apply wantModeRecord_ev | dsimp only | split
    | fail_if_no_progress (refine Evolves.rest ?_ rfl rfl rfl rfl rfl rfl))

theorem effRecoveryFailed_ev {s0 s : State} (h : Evolves s0 s) : Evolves s0 (effRecoveryFailed s) := by
  unfold effRecoveryFailed
  with_reducible repeat' (first
    | assumption | apply kilnDone_ev | apply wantModeRecord_ev | dsimp only
    | fail_if_no_progress (refine Evolves.rest ?_ rfl rfl rfl rfl rfl rfl))

theorem runEff_ev {s0 s : State} (x : Eff) (h : Evolves s0 s) : Evolves s0 (runEff x s) := by
  unfold runEff
  with_reducible repeat' (first
    | assumption | apply effDone_ev | apply effBuf_ev | apply when_ev | apply State.setKsess_ev | apply setGrant_ev
    | apply load_ev | apply portSend_ev | apply onCreds_ev | apply placeKey_ev | apply zapSlot_ev | apply effService_ev
    | apply effRecovery_ev | apply effRecoveryFailed_ev | apply raiseLockdown_ev | apply revoke_ev | apply writeBind_ev
    | apply posBound_ev | apply writeUntrust_ev | apply crankEnd_ev | apply crankWritten_ev | apply rollSend_ev
    | apply startDone_ev | apply mateLoad_ev | apply mateEnd_ev | intro _ | dsimp only | split
    | refine Evolves.pair ?_ (by assumption) | fail_if_no_progress (refine Evolves.rest ?_ rfl rfl rfl rfl rfl rfl))

theorem runEffs_ev {s0 s : State} (xs : List Eff) (h : Evolves s0 s) : Evolves s0 (runEffs xs s) := by
  unfold runEffs
  with_reducible repeat' (first | assumption | apply forEach_ev | apply runEff_ev | intro _)

theorem beginJob_ev {s0 s : State} (w : JobWrite) (h : Evolves s0 s) : Evolves s0 (beginJob w s) := by
  unfold beginJob
  with_reducible repeat' (first | assumption | apply beginCopy_ev | apply beginUnit_ev | split)

theorem kickJobs_ev {s0 s : State} (n : Nat) (h : Evolves s0 s) : Evolves s0 (kickJobs n s) := by
  induction n generalizing s with
  | zero => unfold kickJobs; exact h
  | succ n ih =>
    unfold kickJobs
    with_reducible repeat' (first
      | apply ih | assumption | apply runEffs_ev | apply onCreds_ev | apply State.setRbit_ev | apply beginJob_ev | split)

theorem kick4_ev {s0 s : State} (h : Evolves s0 s) : Evolves s0 (kick4 s) := by
  unfold kick4
  with_reducible repeat' (first | assumption | apply kickJobs_ev)

theorem noteWrite_ev {s0 s : State} (w : JobWrite) (h : Evolves s0 s) : Evolves s0 (noteWrite w s) := by
  unfold noteWrite
  with_reducible repeat' (first | assumption | apply onCreds_ev | split)

theorem jobWritten_ev {s0 s : State} (ok : Bool) (h : Evolves s0 s) : Evolves s0 (jobWritten ok s) := by
  unfold jobWritten
  with_reducible repeat' (first
    | assumption | apply onCreds_ev | apply runEffs_ev | apply noteWrite_ev | apply kick4_ev | dsimp only | split)

theorem dropJobs_ev {s0 s : State} (e : Nat) (h : Evolves s0 s) : Evolves s0 (dropJobs e s) := by
  unfold dropJobs
  with_reducible repeat' (first | assumption | apply onCreds_ev)

theorem credOp_ev {s0 s : State} (e op : Nat) (body : Bytes → State → KRes KEnd) (h : Evolves s0 s)
    (evbody : ∀ a0 a1, Evolves s0 a1 → KEv s0 (body a0 a1)) :
    Evolves s0 (credOp e op body s) := by
  unfold credOp
  with_reducible repeat' (first | assumption | apply kick4_ev | apply kilnOp_ev)

theorem writeAnswered_ev {s0 s : State} (w : LedgerWrite) (ok : Bool) (h : Evolves s0 s) :
    Evolves s0 (writeAnswered w ok s) := by
  unfold writeAnswered
  with_reducible repeat' (first
    | assumption | apply endChannelWrite_ev | apply jobWritten_ev | apply wantModeRecord_ev | apply kick4_ev
    | apply startWaitingWrite_ev | split)

theorem writeEnded_ev {s0 s : State} (w : LedgerWrite) (ok : Bool) (h : Evolves s0 s) : Evolves s0 (writeEnded w ok s) := by
  unfold writeEnded
  with_reducible repeat' (first
    | assumption | apply endWrite_ev | apply writeAnswered_ev | dsimp only | split
    | fail_if_no_progress (refine Evolves.rest ?_ rfl rfl rfl rfl rfl rfl))

theorem releaseAck_ev {s0 s : State} (h : Evolves s0 s) : Evolves s0 (releaseAck s) := by
  unfold releaseAck
  with_reducible repeat' (first
    | assumption | apply writeAnswered_ev | dsimp only | split
    | fail_if_no_progress (refine Evolves.rest ?_ rfl rfl rfl rfl rfl rfl))

theorem endRunning_ev {s0 s : State} (unit ok : Bool) (h : Evolves s0 s) : Evolves s0 (endRunning unit ok s) := by
  unfold endRunning
  with_reducible repeat' (first | assumption | apply when_ev | apply writeEnded_ev | intro _ | dsimp only | split)

theorem execCommitWordVerified_ev {s0 s : State} (ok : Bool) (h : Evolves s0 s) :
    OutEv s0 (execCommitWordVerified ok s) := by
  unfold execCommitWordVerified
  with_reducible repeat' (first | assumption | apply endRunning_ev | apply OutEv.next)

theorem execUnitWriteDone_ev {s0 s : State} (ok : Bool) (h : Evolves s0 s) : OutEv s0 (execUnitWriteDone ok s) := by
  unfold execUnitWriteDone
  with_reducible repeat' (first | assumption | apply endRunning_ev | apply OutEv.next)

theorem scanDone_ev {s0 s : State} (h : Evolves s0 s) : Evolves s0 (scanDone s) := by
  unfold scanDone
  with_reducible repeat' (first | assumption | apply kick4_ev | apply startWaitingWrite_ev | apply scanResult_ev)

theorem ledgerDone_ev {s0 s : State} (seq reason status : Nat) (h : Evolves s0 s) :
    Evolves s0 (ledgerDone seq reason status s) := by
  unfold ledgerDone
  with_reducible repeat' (first | assumption | apply firmwareDone_ev)

theorem ledgerAns_ev {s0 : State} (r : Ans × State) (h : Evolves s0 r.2) : KEv s0 (ledgerAns r) := by
  unfold ledgerAns
  split
  · exact KEv.ok h
  · exact KEv.wait
  · exact KEv.fail h
  · exact KEv.fail h
  · exact KEv.fail h

theorem ledgerIdle_ev {s0 s : State} (h : Evolves s0 s) : KEv s0 (ledgerIdle s) := by
  unfold ledgerIdle
  with_reducible repeat' (first | assumption | apply kcheck_ev)

theorem ledgerRead_ev {s0 s : State} (img : Bytes) (h : Evolves s0 s) : KEv s0 (ledgerRead img s) := by
  unfold ledgerRead
  with_reducible repeat' (first
    | assumption | apply kcheck_ev | apply ledgerIdle_ev | apply ledgerAns_ev | apply devWrite_ev | apply KRes.andThen_ev
    | apply KEv.ok | intro _)

theorem ledgerCommit_ev {s0 s : State} (n : Nat) (body : Bytes) (h : Evolves s0 s) : KEv s0 (ledgerCommit n body s) := by
  unfold ledgerCommit
  with_reducible repeat' (first
    | assumption | apply State.setRbit_ev | apply KEv.ok | apply KEv.fail | exact KEv.wait | split)

theorem ledgerWrite_ev {s0 s : State} (cond : Bool) (img : Bytes) (h : Evolves s0 s) : KEv s0 (ledgerWrite cond img s) := by
  unfold ledgerWrite
  with_reducible repeat' (first
    | assumption | apply kcheck_ev | apply ledgerIdle_ev | apply ledgerAns_ev | apply devRead_ev | apply ledgerCommit_ev
    | apply KRes.andThen_ev | exact KEv.wait | intro _ | dsimp only | split)

theorem ledgerErase_ev {s0 s : State} (img : Bytes) (h : Evolves s0 s) : KEv s0 (ledgerErase img s) := by
  unfold ledgerErase
  with_reducible repeat' (first
    | assumption | apply kcheck_ev | apply ledgerIdle_ev | apply ledgerCommit_ev | apply KRes.andThen_ev | intro _)

theorem unitJob_ev {s0 s : State} (ws : List JobWrite) (h : Evolves s0 s) : KEv s0 (unitJob ws s) := by
  unfold unitJob
  with_reducible repeat' (first | assumption | apply KEv.ok | exact KEv.wait | split)

theorem ledgerQuick_ev {s0 s : State} (img : Bytes) (h : Evolves s0 s) : KEv s0 (ledgerQuick img s) := by
  unfold ledgerQuick
  with_reducible repeat' (first
    | assumption | apply kcheck_ev | apply ledgerAns_ev | apply devRead_ev | apply unitJob_ev | apply KRes.andThen_ev
    | intro _)

theorem ledgerRaise_ev {s0 s : State} (img : Bytes) (h : Evolves s0 s) : KEv s0 (ledgerRaise img s) := by
  unfold ledgerRaise
  with_reducible repeat' (first
    | assumption | apply kcheck_ev | apply unitJob_ev | apply KRes.andThen_ev | apply KEv.ok | intro _ | split)

theorem ledgerOp_ev {s0 s : State} (op : Nat) (body : Bytes → State → KRes KEnd) (h : Evolves s0 s)
    (evbody : ∀ a0 a1, Evolves s0 a1 → KEv s0 (body a0 a1)) :
    Evolves s0 (ledgerOp op body s) := by
  unfold ledgerOp
  with_reducible repeat' (first
    | assumption | apply elim_ev | apply OptEv.filter | apply imageLost_ev | apply cDrop_ev | apply ledgerDone_ev
    | apply kick4_ev | apply evbody | apply KEv.fail | intro _ | dsimp only
    | split | refine KEv.getOk ?_ (by assumption) | refine KEv.getFail ?_ (by assumption)
    | fail_if_no_progress (refine Evolves.rest ?_ rfl rfl rfl rfl rfl rfl))

theorem execLedgerRead_ev {s0 s : State} (h : Evolves s0 s) : OutEv s0 (execLedgerRead s) := by
  unfold execLedgerRead
  with_reducible repeat' (first | assumption | apply ledgerOp_ev | apply ledgerRead_ev | apply OutEv.next | intro _)

theorem execLedgerWrite_ev {s0 s : State} (h : Evolves s0 s) : OutEv s0 (execLedgerWrite s) := by
  unfold execLedgerWrite
  with_reducible repeat' (first | assumption | apply ledgerOp_ev | apply ledgerWrite_ev | apply OutEv.next | intro _)

theorem execWriteIf_ev {s0 s : State} (h : Evolves s0 s) : OutEv s0 (execWriteIf s) := by
  unfold execWriteIf
  with_reducible repeat' (first | assumption | apply ledgerOp_ev | apply ledgerWrite_ev | apply OutEv.next | intro _)

theorem execLedgerErase_ev {s0 s : State} (h : Evolves s0 s) : OutEv s0 (execLedgerErase s) := by
  unfold execLedgerErase
  with_reducible repeat' (first | assumption | apply ledgerOp_ev | apply ledgerErase_ev | apply OutEv.next | intro _)

theorem execQuickWrite_ev {s0 s : State} (h : Evolves s0 s) : OutEv s0 (execQuickWrite s) := by
  unfold execQuickWrite
  with_reducible repeat' (first | assumption | apply ledgerOp_ev | apply ledgerQuick_ev | apply OutEv.next | intro _)

theorem execRaise_ev {s0 s : State} (h : Evolves s0 s) : OutEv s0 (execRaise s) := by
  unfold execRaise
  with_reducible repeat' (first | assumption | apply ledgerOp_ev | apply ledgerRaise_ev | apply OutEv.next | intro _)

theorem execCredNonce_ev {s0 s : State} (h : Evolves s0 s) : OutEv s0 (execCredNonce s) := by
  unfold execCredNonce
  with_reducible repeat' (first | assumption | apply credOp_ev | apply opCredNonce_ev | apply OutEv.next | intro _)

theorem execCredVerify_ev {s0 s : State} (h : Evolves s0 s) : OutEv s0 (execCredVerify s) := by
  unfold execCredVerify
  with_reducible repeat' (first | assumption | apply credOp_ev | apply opCredVerify_ev | apply OutEv.next | intro _)

theorem execTicketOpen_ev {s0 s : State} (h : Evolves s0 s) : OutEv s0 (execTicketOpen s) := by
  unfold execTicketOpen
  with_reducible repeat' (first | assumption | apply credOp_ev | apply opTicketOpen_ev | apply OutEv.next | intro _)

theorem execVmac_ev {s0 s : State} (h : Evolves s0 s) : OutEv s0 (execVmac s) := by
  unfold execVmac
  with_reducible repeat' (first | assumption | apply credOp_ev | apply opVmac_ev | apply OutEv.next | intro _)

theorem execTokenNonce_ev {s0 s : State} (h : Evolves s0 s) : OutEv s0 (execTokenNonce s) := by
  unfold execTokenNonce
  with_reducible repeat' (first | assumption | apply credOp_ev | apply opTokenNonce_ev | apply OutEv.next | intro _)

theorem execToken_ev {s0 s : State} (h : Evolves s0 s) : OutEv s0 (execToken s) := by
  unfold execToken
  with_reducible repeat' (first | assumption | apply credOp_ev | apply opToken_ev | apply OutEv.next | intro _)

theorem execRevoke_ev {s0 s : State} (h : Evolves s0 s) : OutEv s0 (execRevoke s) := by
  unfold execRevoke
  with_reducible repeat' (first | assumption | apply credOp_ev | apply opRevoke_ev | apply OutEv.next | intro _)

theorem execEnrolBegin_ev {s0 s : State} (h : Evolves s0 s) : OutEv s0 (execEnrolBegin s) := by
  unfold execEnrolBegin
  with_reducible repeat' (first | assumption | apply credOp_ev | apply opEnrolBegin_ev | apply OutEv.next | intro _)

theorem execEnrolOrigin_ev {s0 s : State} (h : Evolves s0 s) : OutEv s0 (execEnrolOrigin s) := by
  unfold execEnrolOrigin
  with_reducible repeat' (first | assumption | apply credOp_ev | apply opEnrolOrigin_ev | apply OutEv.next | intro _)

theorem execEnrolKey_ev {s0 s : State} (h : Evolves s0 s) : OutEv s0 (execEnrolKey s) := by
  unfold execEnrolKey
  with_reducible repeat' (first | assumption | apply credOp_ev | apply opEnrolKey_ev | apply OutEv.next | intro _)

theorem execEnrolCommit_ev {s0 s : State} (h : Evolves s0 s) : OutEv s0 (execEnrolCommit s) := by
  unfold execEnrolCommit
  with_reducible repeat' (first | assumption | apply credOp_ev | apply opEnrolCommit_ev | apply OutEv.next | intro _)

theorem execCredErase_ev {s0 s : State} (h : Evolves s0 s) : OutEv s0 (execCredErase s) := by
  unfold execCredErase
  with_reducible repeat' (first | assumption | apply credOp_ev | apply opCredErase_ev | apply OutEv.next | intro _)

theorem execMateVehicle_ev {s0 s : State} (h : Evolves s0 s) : OutEv s0 (execMateVehicle s) := by
  unfold execMateVehicle
  with_reducible repeat' (first | assumption | apply credOp_ev | apply opMateVehicle_ev | apply OutEv.next | intro _)

theorem execTrustSet_ev {s0 s : State} (h : Evolves s0 s) : OutEv s0 (execTrustSet s) := by
  unfold execTrustSet
  with_reducible repeat' (first | assumption | apply credOp_ev | apply opTrustSet_ev | apply OutEv.next | intro _)

theorem execSatAuthReq_ev {s0 s : State} (h : Evolves s0 s) : OutEv s0 (execSatAuthReq s) := by
  unfold execSatAuthReq
  with_reducible repeat' (first | assumption | apply credOp_ev | apply opSatAuthReq_ev | apply OutEv.next | intro _)

theorem execSatAuthCheck_ev {s0 s : State} (h : Evolves s0 s) : OutEv s0 (execSatAuthCheck s) := by
  unfold execSatAuthCheck
  with_reducible repeat' (first | assumption | apply credOp_ev | apply opSatAuthCheck_ev | apply OutEv.next | intro _)

theorem execSatMateOffer_ev {s0 s : State} (h : Evolves s0 s) : OutEv s0 (execSatMateOffer s) := by
  unfold execSatMateOffer
  with_reducible repeat' (first | assumption | apply credOp_ev | apply opSatMateOffer_ev | apply OutEv.next | intro _)

theorem execSatMateKey_ev {s0 s : State} (h : Evolves s0 s) : OutEv s0 (execSatMateKey s) := by
  unfold execSatMateKey
  with_reducible repeat' (first | assumption | apply credOp_ev | apply opSatMateKey_ev | apply OutEv.next | intro _)

theorem execSatMateConfirm_ev {s0 s : State} (h : Evolves s0 s) : OutEv s0 (execSatMateConfirm s) := by
  unfold execSatMateConfirm
  with_reducible repeat' (first | assumption | apply credOp_ev | apply opSatMateConfirm_ev | apply OutEv.next | intro _)

theorem execSatRoll_ev {s0 s : State} (h : Evolves s0 s) : OutEv s0 (execSatRoll s) := by
  unfold execSatRoll
  with_reducible repeat' (first | assumption | apply credOp_ev | apply opSatRoll_ev | apply OutEv.next | intro _)

theorem execSatRollConfirm_ev {s0 s : State} (h : Evolves s0 s) : OutEv s0 (execSatRollConfirm s) := by
  unfold execSatRollConfirm
  with_reducible repeat' (first | assumption | apply credOp_ev | apply opSatRollConfirm_ev | apply OutEv.next | intro _)

theorem execVehicleTimeWrite_ev {s0 s : State} (h : Evolves s0 s) : OutEv s0 (execVehicleTimeWrite s) := by
  unfold execVehicleTimeWrite
  with_reducible repeat' (first
    | assumption | apply when_ev | apply kick4_ev | apply timeWrite_ev | apply OutEv.next | intro _)

theorem execCrank_ev {s0 s : State} (h : Evolves s0 s) : OutEv s0 (execCrank s) := by
  unfold execCrank
  with_reducible repeat' (first | assumption | apply credOp_ev | apply opCrank_ev | apply OutEv.next | intro _)

theorem execMateEngine_ev {s0 s : State} (h : Evolves s0 s) : OutEv s0 (execMateEngine s) := by
  unfold execMateEngine
  with_reducible repeat' (first | assumption | apply credOp_ev | apply opMateEngine_ev | apply OutEv.next | intro _)

theorem execRollEngine_ev {s0 s : State} (h : Evolves s0 s) : OutEv s0 (execRollEngine s) := by
  unfold execRollEngine
  with_reducible repeat' (first | assumption | apply credOp_ev | apply opRollEngine_ev | apply OutEv.next | intro _)

theorem execChallenge_ev {s0 s : State} (frame : List Byte) (h : Evolves s0 s) : OutEv s0 (execChallenge frame s) := by
  unfold execChallenge
  with_reducible repeat' (first | assumption | apply kick4_ev | apply partnerRow_ev | apply OutEv.next)

theorem execMateReply_ev {s0 s : State} (frame : List Byte) (h : Evolves s0 s) : OutEv s0 (execMateReply frame s) := by
  unfold execMateReply
  with_reducible repeat' (first | assumption | apply kick4_ev | apply partnerRow_ev | apply OutEv.next)

theorem execMateConfirm_ev {s0 s : State} (frame : List Byte) (h : Evolves s0 s) : OutEv s0 (execMateConfirm frame s) := by
  unfold execMateConfirm
  with_reducible repeat' (first | assumption | apply kick4_ev | apply partnerRow_ev | apply OutEv.next)

theorem execRollAck_ev {s0 s : State} (frame : List Byte) (h : Evolves s0 s) : OutEv s0 (execRollAck frame s) := by
  unfold execRollAck
  with_reducible repeat' (first | assumption | apply kick4_ev | apply partnerRow_ev | apply OutEv.next)

theorem ringDropEvent_ev {s0 s : State} (n : Nat) (h : Evolves s0 s) : Evolves s0 (ringDropEvent n s) := by
  unfold ringDropEvent
  with_reducible repeat' (first | assumption | apply blockEvent_ev | apply canEvent_ev | split)

theorem ringWrite_ev {s0 s : State} (n off : Nat) (bs : Bytes) (h : Evolves s0 s) :
    Evolves s0 (ringWrite s n off bs).2 := by
  unfold ringWrite
  with_reducible repeat' (first
    | assumption | apply physWrite_ev | dsimp only | split | refine Evolves.pair ?_ (by assumption))

theorem ringRead_ev {s0 s : State} (n off len : Nat) (h : Evolves s0 s) : Evolves s0 (ringRead s n off len).2 := by
  unfold ringRead
  with_reducible repeat' (first
    | assumption | apply physRead_ev | dsimp only | split | refine Evolves.pair ?_ (by assumption))

theorem ringDrop_ev {s0 s : State} (n : Nat) (h : Evolves s0 s) : Evolves s0 (ringDrop n s) := by
  unfold ringDrop
  with_reducible repeat' (first | assumption | apply ringDropEvent_ev | apply State.satFld_ev)

theorem ringPut_ev {s0 s : State} (n : Nat) (rec : Bytes) (ev : State → State) (h : Evolves s0 s)
    (evev : ∀ a0, Evolves s0 a0 → Evolves s0 (ev a0)) :
    Evolves s0 (ringPut n rec ev s) := by
  unfold ringPut
  with_reducible repeat' (first
    | assumption | apply ringDrop_ev | apply ringWrite_ev | apply State.setReg_ev | apply evev | split
    | refine Evolves.pair ?_ (by assumption))

theorem netDone_ev {s0 s : State} (status reason value : Nat) (h : Evolves s0 s) :
    Evolves s0 (netDone status reason value s) := by
  unfold netDone
  with_reducible repeat' (first | assumption | apply firmwareDone_ev)

theorem netOp_ev {s0 s : State} (op : Nat) (body : Bytes → State → KRes KEnd) (h : Evolves s0 s)
    (evbody : ∀ a0 a1, Evolves s0 a1 → KEv s0 (body a0 a1)) :
    Evolves s0 (netOp op body s) := by
  unfold netOp
  with_reducible repeat' (first
    | assumption | apply elim_ev | apply OptEv.filter | apply imageLost_ev | apply cDrop_ev | apply netDone_ev | apply evbody
    | apply KEv.fail | intro _ | dsimp only | split
    | refine KEv.getOk ?_ (by assumption) | refine KEv.getFail ?_ (by assumption))

theorem netBufDone_ev {s0 s : State} (buf : Nat × Nat × Nat × Nat) (value : Nat) (bs : Bytes) (h : Evolves s0 s) :
    Evolves s0 (netBufDone buf value bs s) := by
  unfold netBufDone
  with_reducible repeat' (first
    | assumption | apply ansRes_ev | apply devWrite_ev | apply netDone_ev | split | refine KEv.getOk ?_ (by assumption)
    | refine KEv.getFail ?_ (by assumption))

theorem netCanSend_ev {s0 s : State} (img : Bytes) (h : Evolves s0 s) : KEv s0 (netCanSend img s) := by
  unfold netCanSend
  with_reducible repeat' (first
    | assumption | apply kcheck_ev | apply needRead_ev | apply kread_ev | apply canArb_ev | apply State.onCan_ev
    | apply KRes.andThen_ev | apply KEv.ok | intro _)

theorem execCanSend_ev {s0 s : State} (h : Evolves s0 s) : OutEv s0 (execCanSend s) := by
  unfold execCanSend
  with_reducible repeat' (first | assumption | apply netOp_ev | apply netCanSend_ev | apply OutEv.next | intro _)

theorem canNetEnd_ev {s0 s : State} (n status reason : Nat) (h : Evolves s0 s) :
    Evolves s0 (canNetEnd n status reason s) := by
  unfold canNetEnd
  with_reducible repeat' (first
    | assumption | apply State.onCan_ev | apply when_ev | apply lateSuccess_ev | apply netDone_ev | apply canEvent_ev
    | intro _)

theorem canBusOff_ev {s0 s : State} (n : Nat) (h : Evolves s0 s) : Evolves s0 (canBusOff n s) := by
  unfold canBusOff
  with_reducible repeat' (first
    | assumption | apply State.onCan_ev | apply when_ev | apply canNetEnd_ev | intro _ | dsimp only | split)

theorem partnerSent_ev {s0 s : State} (h : Evolves s0 s) : Evolves s0 (partnerSent s) := by
  unfold partnerSent
  with_reducible repeat' (first | assumption | apply State.onStart_ev | apply startEvent_ev | apply crankEnd_ev | split)

theorem startDrained_ev {s0 s : State} (h : Evolves s0 s) : Evolves s0 (startDrained s) := by
  unfold startDrained
  with_reducible repeat' (first | assumption | apply when_ev | apply endFlush_ev | intro _)

theorem canEnd1_ev {s0 s : State} (n : Nat) (o : CanEnd) (h : Evolves s0 s) : Evolves s0 (canEnd1 n o s) := by
  unfold canEnd1
  with_reducible repeat' (first
    | assumption | apply State.onCan_ev | apply startDrained_ev | apply partnerSent_ev | apply when_ev
    | apply lateSuccess_ev | intro _ | dsimp only | split)

theorem canEnd0_ev {s0 s : State} (n : Nat) (o : CanEnd) (h : Evolves s0 s) : Evolves s0 (canEnd0 n o s) := by
  unfold canEnd0
  with_reducible repeat' (first | assumption | apply canNetEnd_ev | dsimp only | split)

theorem canFrameEnd_ev {s0 s : State} (n : Nat) (o : CanEnd) (h : Evolves s0 s) : Evolves s0 (canFrameEnd n o s) := by
  unfold canFrameEnd
  with_reducible repeat' (first
    | assumption | apply State.onCan_ev | apply canTxOk_ev | apply canTxError_ev | apply canBusOff_ev | apply canArb_ev
    | apply crankDeadline_ev | apply canEnd1_ev | apply canEnd0_ev | dsimp only | split)

theorem execCanFrameEnd_ev {s0 s : State} (n : Fin 4) (outcome : CanEnd) (h : Evolves s0 s) :
    OutEv s0 (execCanFrameEnd n outcome s) := by
  unfold execCanFrameEnd
  with_reducible repeat' (first | assumption | apply when_ev | apply canFrameEnd_ev | apply OutEv.next | intro _)

theorem canTake_ev {s0 s : State} (n : Nat) (id : Word) (flags : BitVec 6) (af : Word) (data : Bytes) (ago : Nat)
    (h : Evolves s0 s) :
    Evolves s0 (canTake n id flags af data ago s) := by
  unfold canTake
  with_reducible repeat' (first
    | assumption | apply kick4_ev | apply partnerTake_ev | apply ringPut_ev | apply canEvent_ev | intro _ | dsimp only
    | split)

theorem execCanReceive_ev {s0 s : State} (n : Fin 4) (id : Word) (flags : BitVec 6) (af : Word) (data : List Byte)
    (ago : Nat) (ok : Bool) (h : Evolves s0 s) :
    OutEv s0 (execCanReceive n id flags af data ago ok s) := by
  unfold execCanReceive
  with_reducible repeat' (first
    | assumption | apply when_ev | apply canRxCount_ev | apply canTake_ev | apply OutEv.next | intro _)

theorem execBusOffRecovery_ev {s0 s : State} (n : Fin 4) (h : Evolves s0 s) : OutEv s0 (execBusOffRecovery n s) := by
  unfold execBusOffRecovery
  with_reducible repeat' (first
    | assumption | apply when_ev | apply canRecovered_ev | apply crankDeadline_ev | apply OutEv.next | intro _)

theorem canCfgWrite_ev {s0 s : State} (n : Nat) (v : Word) (h : Evolves s0 s) : Evolves s0 (canCfgWrite n v s) := by
  unfold canCfgWrite
  with_reducible repeat' (first
    | assumption | apply canEvent_ev | apply when_ev | apply State.onCan_ev | apply canEnable_ev | apply State.setReg_ev
    | apply canNetEnd_ev | apply State.setFld_ev | intro _ | dsimp only | split)

theorem canTimingWrite_ev {s0 s : State} (n off : Nat) (v : Word) (h : Evolves s0 s) :
    Evolves s0 (canTimingWrite n off v s) := by
  unfold canTimingWrite
  with_reducible repeat' (first | assumption | apply canEvent_ev | apply State.setReg_ev | dsimp only | split)

theorem ringRegWrite_ev {s0 s : State} (n off : Nat) (v : Word) (h : Evolves s0 s) : OptEv s0 (ringRegWrite n off v s) := by
  unfold ringRegWrite
  with_reducible repeat' (first
    | assumption | apply State.setReg_ev | apply OptEv.some | exact OptEv.none | dsimp only | split)

theorem canWrite_ev {s0 s : State} (n off : Nat) (v : Word) (h : Evolves s0 s) : OptEv s0 (canWrite n off v s) := by
  unfold canWrite
  with_reducible repeat' (first
    | assumption | apply canCfgWrite_ev | apply canTimingWrite_ev | apply ringRegWrite_ev | apply OptEv.some
    | exact OptEv.none | split)

theorem execRecover_ev {s0 s : State} (who : Req) (n : Fin 4) (h : Evolves s0 s) : OutEv s0 (execRecover who n s) := by
  unfold execRecover
  with_reducible repeat' (first | assumption | apply when_ev | apply canCfgWrite_ev | apply OutEv.next | intro _)

theorem State.setLin_ev {s0 s : State} (n : Nat) (r : Option LinRun) (h : Evolves s0 s) :
    Evolves s0 (State.setLin s n r) := by
  unfold State.setLin
  with_reducible repeat' (first
    | assumption | dsimp only | fail_if_no_progress (refine Evolves.rest ?_ rfl rfl rfl rfl rfl rfl))

theorem linEvent_ev {s0 s : State} (n b : Nat) (h : Evolves s0 s) : Evolves s0 (linEvent n b s) := by
  unfold linEvent
  with_reducible repeat' (first | assumption | apply blockEvent_ev)

theorem netLin_ev {s0 s : State} (img : Bytes) (h : Evolves s0 s) : KEv s0 (netLin img s) := by
  unfold netLin
  with_reducible repeat' (first
    | assumption | apply kcheck_ev | apply needRead_ev | apply needWrite_ev | apply kread_ev | apply State.setLin_ev
    | apply KRes.andThen_ev | apply KEv.ok | intro _)

theorem execLinMaster_ev {s0 s : State} (h : Evolves s0 s) : OutEv s0 (execLinMaster s) := by
  unfold execLinMaster
  with_reducible repeat' (first | assumption | apply netOp_ev | apply netLin_ev | apply OutEv.next | intro _)

theorem linBreak_ev {s0 s : State} (n : Nat) (h : Evolves s0 s) : Evolves s0 (linBreak n s) := by
  unfold linBreak
  with_reducible repeat' (first | assumption | apply attempt_ev | apply State.setLin_ev | dsimp only | split)

theorem execLinBreakStart_ev {s0 s : State} (n : Fin 2) (h : Evolves s0 s) : OutEv s0 (execLinBreakStart n s) := by
  unfold execLinBreakStart
  with_reducible repeat' (first | assumption | apply when_ev | apply linBreak_ev | apply OutEv.next | intro _)

theorem linEnd_ev {s0 s : State} (n : Nat) (r : LinRun) (reason : Nat) (data : Bytes) (h : Evolves s0 s) :
    Evolves s0 (linEnd n r reason data s) := by
  unfold linEnd
  with_reducible repeat' (first
    | assumption | apply linEvent_ev | apply State.setLin_ev | apply lateSuccess_ev | apply State.incFld_ev
    | apply netBufDone_ev | apply netDone_ev | dsimp only | split)

theorem linFrameEnd_ev {s0 s : State} (n : Nat) (resp : Bytes) (bitError : Bool) (h : Evolves s0 s) :
    Evolves s0 (linFrameEnd n resp bitError s) := by
  unfold linFrameEnd
  with_reducible repeat' (first | assumption | apply linEnd_ev | split)

theorem execLinFrameEnd_ev {s0 s : State} (n : Fin 2) (response : List Byte) (bitError : Bool) (h : Evolves s0 s) :
    OutEv s0 (execLinFrameEnd n response bitError s) := by
  unfold execLinFrameEnd
  with_reducible repeat' (first | assumption | apply when_ev | apply linFrameEnd_ev | apply OutEv.next | intro _)

theorem linDominant_ev {s0 s : State} (n : Nat) (h : Evolves s0 s) : Evolves s0 (linDominant n s) := by
  unfold linDominant
  with_reducible repeat' (first | assumption | apply linEvent_ev | apply linEnd_ev | dsimp only | split)

theorem execDominant_ev {s0 s : State} (n : Fin 2) (h : Evolves s0 s) : OutEv s0 (execDominant n s) := by
  unfold execDominant
  with_reducible repeat' (first | assumption | apply when_ev | apply linDominant_ev | apply OutEv.next | intro _)

theorem execWakeRx_ev {s0 s : State} (n : Fin 2) (h : Evolves s0 s) : OutEv s0 (execWakeRx n s) := by
  unfold execWakeRx
  with_reducible repeat' (first | assumption | apply when_ev | apply linEvent_ev | apply OutEv.next | intro _)

theorem linStat_ev {s0 s : State} (n : Nat) (h : Evolves s0 s) : Evolves s0 (linStat s n).2 := by
  unfold linStat
  with_reducible repeat' (first | assumption | apply State.freshWord_ev)

theorem linWrite_ev {s0 s : State} (n off : Nat) (v : Word) (h : Evolves s0 s) : OptEv s0 (linWrite n off v s) := by
  unfold linWrite
  with_reducible repeat' (first
    | assumption | apply linEvent_ev | apply State.setReg_ev | apply netDone_ev | apply State.setLin_ev | apply OptEv.some
    | exact OptEv.none | dsimp only | split)

theorem swEvent_ev {s0 s : State} (b : Nat) (h : Evolves s0 s) : Evolves s0 (swEvent b s) := by
  unfold swEvent
  with_reducible repeat' (first | assumption | apply blockEvent_ev)

theorem ethLearn_ev {s0 s : State} (p vid mac : Nat) (h : Evolves s0 s) : Evolves s0 (ethLearn p vid mac s) := by
  unfold ethLearn
  with_reducible repeat' (first
    | assumption | dsimp only | split | fail_if_no_progress (refine Evolves.rest ?_ rfl rfl rfl rfl rfl rfl))

theorem setEthQueue_ev {s0 s : State} (p q : Nat) (l : List EthFrame) (h : Evolves s0 s) :
    Evolves s0 (setEthQueue p q l s) := by
  unfold setEthQueue
  with_reducible repeat' (first
    | assumption | dsimp only | fail_if_no_progress (refine Evolves.rest ?_ rfl rfl rfl rfl rfl rfl))

theorem ethDrop_ev {s0 s : State} (h : Evolves s0 s) : Evolves s0 (ethDrop s) := by
  unfold ethDrop
  with_reducible repeat' (first | assumption | apply swEvent_ev | apply State.satFld_ev)

theorem ethEnqueue_ev {s0 s : State} (p q : Nat) (f : EthFrame) (h : Evolves s0 s) : Evolves s0 (ethEnqueue p q f s) := by
  unfold ethEnqueue
  with_reducible repeat' (first
    | assumption | apply ethDrop_ev | apply setEthQueue_ev | apply attempt_ev | dsimp only | split
    | fail_if_no_progress (refine Evolves.rest ?_ rfl rfl rfl rfl rfl rfl))

theorem ethForward_ev {s0 s : State} (p : Nat) (ours : Bool) (tick fine : Nat) (f : Bytes) (h : Evolves s0 s) :
    Evolves s0 (ethForward p ours tick fine f s) := by
  unfold ethForward
  with_reducible repeat' (first
    | assumption | apply ethLearn_ev | apply forEach_ev | apply ethEnqueue_ev | intro _ | dsimp only | split)

theorem execEthReceive_ev {s0 s : State} (port : Fin 4) (frame : List Byte) (fcs : BitVec 32) (ago : Nat) (fine : BitVec 10) (h : Evolves s0 s) :
    OutEv s0 (execEthReceive port frame fcs ago fine s) := by
  unfold execEthReceive
  with_reducible repeat' (first
    | assumption | apply when_ev | apply ethForward_ev | apply OutEv.next | exact OutEv.fault | intro _ | dsimp only
    | split)

theorem ethSendEnd_ev {s0 s : State} (h : Evolves s0 s) : Evolves s0 (ethSendEnd s) := by
  unfold ethSendEnd
  with_reducible repeat' (first
    | assumption | apply netDone_ev | apply lateSuccess_ev | apply netBufDone_ev | dsimp only | split
    | fail_if_no_progress (refine Evolves.rest ?_ rfl rfl rfl rfl rfl rfl))

theorem netEthSend_ev {s0 s : State} (img : Bytes) (h : Evolves s0 s) : KEv s0 (netEthSend img s) := by
  unfold netEthSend
  with_reducible repeat' (first
    | assumption | apply kcheck_ev | apply needRead_ev | apply needWrite_ev | apply kread_ev | apply forEach_ev
    | apply ethEnqueue_ev | apply ethForward_ev | apply ethSendEnd_ev | apply KRes.andThen_ev | apply KEv.ok | intro _
    | dsimp only | split | fail_if_no_progress (refine Evolves.rest ?_ rfl rfl rfl rfl rfl rfl))

theorem execEthSend_ev {s0 s : State} (h : Evolves s0 s) : OutEv s0 (execEthSend s) := by
  unfold execEthSend
  with_reducible repeat' (first | assumption | apply netOp_ev | apply netEthSend_ev | apply OutEv.next | intro _)

theorem ethOut_ev {s0 s : State} (p : Nat) (f : EthFrame) (ok : Bool) (fine : Nat) (h : Evolves s0 s) :
    Evolves s0 (ethOut p f ok fine s) := by
  unfold ethOut
  with_reducible repeat' (first
    | assumption | apply ethSendEnd_ev | dsimp only | split
    | fail_if_no_progress (refine Evolves.rest ?_ rfl rfl rfl rfl rfl rfl))

theorem ethEgress_ev {s0 s : State} (p fine : Nat) (h : Evolves s0 s) : Evolves s0 (ethEgress p fine s) := by
  unfold ethEgress
  with_reducible repeat' (first
    | assumption | apply setEthQueue_ev | apply ringPut_ev | apply ethOut_ev | intro _ | dsimp only | split)

theorem execEthEgressDone_ev {s0 s : State} (port : Fin 5) (fine : BitVec 10) (h : Evolves s0 s) :
    OutEv s0 (execEthEgressDone port fine s) := by
  unfold execEthEgressDone
  with_reducible repeat' (first | assumption | apply when_ev | apply ethEgress_ev | apply OutEv.next | intro _)

theorem execAgeing_ev {s0 s : State} (h : Evolves s0 s) : OutEv s0 (execAgeing s) := by
  unfold execAgeing
  with_reducible repeat' (first
    | assumption | apply when_ev | apply OutEv.next | intro _ | dsimp only
    | fail_if_no_progress (refine Evolves.rest ?_ rfl rfl rfl rfl rfl rfl))

theorem execLinkChange_ev {s0 s : State} (port : Fin 4) (linked : Bool) (h : Evolves s0 s) :
    OutEv s0 (execLinkChange port linked s) := by
  unfold execLinkChange
  with_reducible repeat' (first
    | assumption | apply when_ev | apply swEvent_ev | apply State.setRbit_ev | apply OutEv.next | intro _)

theorem swWrite_ev {s0 s : State} (a : Nat) (v : Word) (h : Evolves s0 s) : OptEv s0 (swWrite a v s) := by
  unfold swWrite
  with_reducible repeat' (first
    | assumption | apply State.setReg_ev | apply ringRegWrite_ev | apply OptEv.some | exact OptEv.none | dsimp only
    | split)

theorem takeRecords_ev {s0 s : State} (n r off left room : Nat) (h : Evolves s0 s) :
    Evolves s0 (takeRecords n r off left room s).2 := by
  induction n generalizing s r off left room with
  | zero => unfold takeRecords; exact h
  | succ n ih =>
    unfold takeRecords
    with_reducible repeat' (first
      | apply ih | assumption | apply ringRead_ev | dsimp only | split | refine Evolves.pair ?_ (by assumption))

theorem netRxTake_ev {s0 s : State} (img : Bytes) (h : Evolves s0 s) : KEv s0 (netRxTake img s) := by
  unfold netRxTake
  with_reducible repeat' (first
    | assumption | apply kcheck_ev | apply needWrite_ev | apply takeRecords_ev | apply kwrite_ev | apply State.setReg_ev
    | apply KRes.andThen_ev | apply KEv.ok | intro _)

theorem execRxTake_ev {s0 s : State} (h : Evolves s0 s) : OutEv s0 (execRxTake s) := by
  unfold execRxTake
  with_reducible repeat' (first | assumption | apply netOp_ev | apply netRxTake_ev | apply OutEv.next | intro _)

theorem netThaw_ev {s0 s : State} (h : Evolves s0 s) : Evolves s0 (netThaw s) := by
  unfold netThaw
  with_reducible repeat' (first
    | assumption | apply forEach_ev | apply canFrameEnd_ev | apply linEnd_ev | apply ethOut_ev | apply setEthQueue_ev
    | apply State.satFld_ev | intro _ | dsimp only | split
    | fail_if_no_progress (refine Evolves.rest ?_ rfl rfl rfl rfl rfl rfl))

theorem netCancel_ev {s0 s : State} (h : Evolves s0 s) : Evolves s0 (netCancel s) := by
  unfold netCancel
  with_reducible repeat' (first
    | assumption | apply forEach_ev | apply State.onCan_ev | apply State.setLin_ev | intro _ | split)

end Sys2Proof.Machine
end

