-- ==== Sys2Proof/Laws/KeepsCore.lean ====
section
/-! SUPPORT. What the register bus and the instructions of the cores do keeps the invariant. -/
namespace Sys2Proof.Machine

theorem drainAdit_ev {s0 s : State} (n : Nat) (h : Evolves s0 s) : Evolves s0 (drainAdit n s) := by
  induction n generalizing s with
  | zero => unfold drainAdit; exact h
  | succ n ih =>
    unfold drainAdit
    with_reducible repeat' (first | apply ih | assumption | apply cDrop_ev | apply State.onAdit_ev | split)

theorem aditOp_ev {s0 s : State} (op : Nat) (h : Evolves s0 s) : Evolves s0 (aditOp op s) := by
  unfold aditOp
  with_reducible repeat' (first
    | assumption | apply drainAdit_ev | apply State.onAdit_ev | apply endSatLost_ev | apply aditOut_ev
    | apply aditSendFrame_ev | dsimp only | split)

theorem execAditSend_ev {s0 s : State} (h : Evolves s0 s) : OutEv s0 (execAditSend s) := by
  unfold execAditSend
  with_reducible repeat' (first | assumption | apply when_ev | apply aditOp_ev | apply OutEv.next | intro _)

theorem execEnum_ev {s0 s : State} (h : Evolves s0 s) : OutEv s0 (execEnum s) := by
  unfold execEnum
  with_reducible repeat' (first | assumption | apply when_ev | apply aditOp_ev | apply OutEv.next | intro _)

theorem execAuth_ev {s0 s : State} (h : Evolves s0 s) : OutEv s0 (execAuth s) := by
  unfold execAuth
  with_reducible repeat' (first | assumption | apply when_ev | apply aditOp_ev | apply OutEv.next | intro _)

theorem execAditMate_ev {s0 s : State} (h : Evolves s0 s) : OutEv s0 (execAditMate s) := by
  unfold execAditMate
  with_reducible repeat' (first | assumption | apply when_ev | apply aditOp_ev | apply OutEv.next | intro _)

theorem execAditRoll_ev {s0 s : State} (h : Evolves s0 s) : OutEv s0 (execAditRoll s) := by
  unfold execAditRoll
  with_reducible repeat' (first | assumption | apply when_ev | apply aditOp_ev | apply OutEv.next | intro _)

theorem heartbeat_ev {s0 s : State} (p : Nat) (h : Evolves s0 s) : Evolves s0 (heartbeat p s) := by
  unfold heartbeat
  with_reducible repeat' (first | assumption | apply aditSendFrame_ev | apply State.setAditPos_ev | dsimp only | split)

theorem probe_ev {s0 s : State} (p : Nat) (h : Evolves s0 s) : Evolves s0 (probe p s) := by
  unfold probe
  with_reducible repeat' (first | assumption | apply aditSendFrame_ev | apply State.setAditPos_ev | dsimp only | split)

theorem rebindExpiry_ev {s0 s : State} (p : Nat) (h : Evolves s0 s) : Evolves s0 (rebindExpiry p s) := by
  unfold rebindExpiry
  with_reducible repeat' (first | assumption | apply when_ev | apply setPosState_ev | intro _)

theorem execHeartbeat_ev {s0 s : State} (p : Fin 8) (h : Evolves s0 s) : OutEv s0 (execHeartbeat p s) := by
  unfold execHeartbeat
  with_reducible repeat' (first | assumption | apply when_ev | apply heartbeat_ev | apply OutEv.next | intro _)

theorem execProbe_ev {s0 s : State} (p : Fin 8) (h : Evolves s0 s) : OutEv s0 (execProbe p s) := by
  unfold execProbe
  with_reducible repeat' (first | assumption | apply when_ev | apply probe_ev | apply OutEv.next | intro _)

theorem execRebindExpiry_ev {s0 s : State} (p : Fin 8) (h : Evolves s0 s) : OutEv s0 (execRebindExpiry p s) := by
  unfold execRebindExpiry
  with_reducible repeat' (first | assumption | apply when_ev | apply rebindExpiry_ev | apply OutEv.next | intro _)

theorem freeLine_ev {s0 s : State} (h : Evolves s0 s) : Evolves s0 (freeLine s) := by
  unfold freeLine
  with_reducible repeat' (first | assumption | apply State.onAdit_ev)

theorem resendAfter_ev {s0 s : State} (p : Nat) (h : Evolves s0 s) : Evolves s0 (resendAfter p s) := by
  unfold resendAfter
  with_reducible repeat' (first | assumption | apply aditSendFrame_ev | apply State.onAdit_ev | split)

theorem attemptFailed_ev {s0 s : State} (r : AditReq) (h : Evolves s0 s) : Evolves s0 (attemptFailed r s) := by
  unfold attemptFailed
  with_reducible repeat' (first
    | assumption | apply freeLine_ev | apply State.setFld_ev | apply posLost_ev | apply resendAfter_ev
    | apply aditSendFrame_ev | apply State.onAdit_ev | apply aditOut_ev | dsimp only | split)

theorem aditDeliver_ev {s0 s : State} (r : AditReq) (payload : Bytes) (h : Evolves s0 s) :
    Evolves s0 (aditDeliver r payload s) := by
  unfold aditDeliver
  with_reducible repeat' (first
    | assumption | apply State.onAdit_ev | apply aditOut_ev | intro _ | dsimp only | split
    | fail_if_no_progress (refine Evolves.rest ?_ rfl rfl rfl rfl rfl rfl))

theorem aditReplied_ev {s0 s : State} (r : AditReq) (payload : Bytes) (h : Evolves s0 s) :
    Evolves s0 (aditReplied r payload s) := by
  unfold aditReplied
  with_reducible repeat' (first
    | assumption | apply heartbeat_ev | apply freeLine_ev | apply resendAfter_ev | apply when_ev | apply aditEvent_ev
    | apply probe_ev | apply setPosState_ev | apply posBound_ev | apply attemptFailed_ev | apply aditDeliver_ev
    | apply lateSuccess_ev | apply State.setFld_ev | intro _ | dsimp only | split
    | fail_if_no_progress (refine Evolves.rest ?_ rfl rfl rfl rfl rfl rfl))

theorem aditReply_ev {s0 s : State} (frame : Bytes) (h : Evolves s0 s) : Evolves s0 (aditReply frame s) := by
  unfold aditReply
  with_reducible repeat' (first
    | assumption | apply aditKick_ev | apply aditReplied_ev | apply attemptFailed_ev | apply aditEvent_ev | intro _
    | dsimp only | split | fail_if_no_progress (refine Evolves.rest ?_ rfl rfl rfl rfl rfl rfl))

theorem execAditReply_ev {s0 s : State} (frame : List Byte) (crc : BitVec 16) (h : Evolves s0 s) : OutEv s0 (execAditReply frame crc s) := by
  unfold execAditReply
  with_reducible repeat' (first
    | assumption | apply when_ev | apply aditReply_ev | apply OutEv.next | exact OutEv.fault | intro _ | dsimp only
    | split)

theorem noReply_ev {s0 s : State} (h : Evolves s0 s) : Evolves s0 (noReply s) := by
  unfold noReply
  with_reducible repeat' (first | assumption | apply aditKick_ev | apply attemptFailed_ev | split)

theorem execAttemptFailed_ev {s0 s : State} (h : Evolves s0 s) : OutEv s0 (execAttemptFailed s) := by
  unfold execAttemptFailed
  with_reducible repeat' (first | assumption | apply when_ev | apply noReply_ev | apply OutEv.next)

theorem execRebind_ev {s0 s : State} (who : Req) (p : Fin 8) (h : Evolves s0 s) : OutEv s0 (execRebind who p s) := by
  unfold execRebind
  with_reducible repeat' (first | assumption | apply when_ev | apply writeRebind_ev | apply OutEv.next | intro _)

theorem execRelease_ev {s0 s : State} (who : Req) (p : Fin 8) (h : Evolves s0 s) : OutEv s0 (execRelease who p s) := by
  unfold execRelease
  with_reducible repeat' (first | assumption | apply when_ev | apply writeRelease_ev | apply OutEv.next | intro _)

theorem execBind_ev {s0 s : State} (who : Req) (p : Fin 8) (h : Evolves s0 s) : OutEv s0 (execBind who p s) := by
  unfold execBind
  with_reducible repeat' (first | assumption | apply when_ev | apply writeBind_ev | apply OutEv.next | intro _)

theorem execUntrust_ev {s0 s : State} (who : Req) (p : Fin 8) (h : Evolves s0 s) : OutEv s0 (execUntrust who p s) := by
  unfold execUntrust
  with_reducible repeat' (first | assumption | apply when_ev | apply writeUntrust_ev | apply OutEv.next | intro _)

theorem posWrite_ev {s0 s : State} (who : Req) (p : Nat) (v : Word) (h : Evolves s0 s) :
    Evolves s0 (posWrite who p v s) := by
  unfold posWrite
  with_reducible repeat' (first
    | assumption | apply when_ev | apply writeUntrust_ev | apply writeBind_ev | apply writeRelease_ev
    | apply writeRebind_ev | intro _)

theorem aditCfgWrite_ev {s0 s : State} (v : Word) (h : Evolves s0 s) : Evolves s0 (aditCfgWrite v s) := by
  unfold aditCfgWrite
  with_reducible repeat' (first | assumption | apply aditKick_ev | apply State.setReg_ev)

theorem aditWrite_ev {s0 s : State} (who : Req) (a : Nat) (v : Word) (h : Evolves s0 s) :
    OptEv s0 (aditWrite who a v s) := by
  unfold aditWrite
  with_reducible repeat' (first
    | assumption | apply posWrite_ev | apply aditCfgWrite_ev | apply OptEv.some | exact OptEv.none | split)

theorem aditPulse_ev {s0 s : State} (h : Evolves s0 s) : Evolves s0 (aditPulse s) := by
  unfold aditPulse
  with_reducible repeat' (first
    | assumption | apply when_ev | apply presentWake_ev | apply aditEvent_ev | apply State.setRbit_ev | intro _ | split)

theorem execAditWake_ev {s0 s : State} (h : Evolves s0 s) : OutEv s0 (execAditWake s) := by
  unfold execAditWake
  with_reducible repeat' (first | assumption | apply aditPulse_ev | apply OutEv.next)

theorem aditSleep_ev {s0 s : State} (h : Evolves s0 s) : Evolves s0 (aditSleep s) := by
  unfold aditSleep
  with_reducible repeat' (first | assumption | apply when_ev | apply State.setFld_ev | intro _)

theorem aditResume_ev {s0 s : State} (h : Evolves s0 s) : Evolves s0 (aditResume s) := by
  unfold aditResume
  with_reducible repeat' (first
    | assumption | apply State.onAdit_ev | apply forEach_ev | apply State.setFld_ev | apply State.setAditPos_ev | intro _)

theorem aditCancel_ev {s0 s : State} (h : Evolves s0 s) : Evolves s0 (aditCancel s) := by
  unfold aditCancel
  with_reducible repeat' (first | assumption | apply State.onAdit_ev)

theorem setBootResult_ev {s0 s : State} (n code : Nat) (h : Evolves s0 s) : Evolves s0 (setBootResult n code s) := by
  unfold setBootResult
  with_reducible repeat' (first | assumption | apply State.setFld_ev)

theorem stageOne_ev {s0 s : State} (h : Evolves s0 s) : Evolves s0 (stageOne s) := by
  unfold stageOne
  with_reducible repeat' (first | assumption | apply forEach_ev | apply setBootResult_ev | intro _ | split)

theorem passWord_ev {s0 s : State} (a b : Nat) (w : Word) (h : Evolves s0 s) : Evolves s0 (passWord a b w s) := by
  unfold passWord when
  split
  · exact cTake_ev _ (cPut_ev _ _ _ _ h ‹_›)
  · exact h

theorem kilnJudgement_ev {s0 s : State} (h : Evolves s0 s) : Evolves s0 (kilnJudgement s) := by
  unfold kilnJudgement
  with_reducible repeat' (first
    | assumption | apply stageOne_ev | apply withSome_ev | apply passWord_ev | apply setBootResult_ev | intro _
    | dsimp only | split | fail_if_no_progress (refine Evolves.rest ?_ rfl rfl rfl rfl rfl rfl))

theorem execKilnJudgement_ev {s0 s : State} (h : Evolves s0 s) : OutEv s0 (execKilnJudgement s) := by
  unfold execKilnJudgement
  with_reducible repeat' (first | assumption | apply when_ev | apply kilnJudgement_ev | apply OutEv.next)

theorem loadRuntime_ev {s0 s : State} (h : Evolves s0 s) : Evolves s0 (loadRuntime s) := by
  unfold loadRuntime
  with_reducible repeat' (first
    | assumption | apply writeWithin_ev | apply State.setE_ev | intro _ | dsimp only
    | exact kiln_not_sram _ (by assumption) | fail_if_no_progress (refine Evolves.rest ?_ rfl rfl rfl rfl rfl rfl))

theorem installStep_ev {s0 s : State} (h : Evolves s0 s) : Evolves s0 (installStep s) := by
  unfold installStep
  with_reducible repeat' (first
    | assumption | apply flashEraseAt_ev | dsimp only | split
    | fail_if_no_progress (refine Evolves.rest ?_ rfl rfl rfl rfl rfl rfl))

theorem installNext_ev {s0 s : State} (status value : Nat) (h : Evolves s0 s) :
    Evolves s0 (installNext status value s) := by
  unfold installNext
  with_reducible repeat' (first
    | assumption | apply requestReset_ev | apply installStep_ev | apply State.setRbit_ev | apply State.setFld_ev
    | dsimp only | split | fail_if_no_progress (refine Evolves.rest ?_ rfl rfl rfl rfl rfl rfl))

theorem rescue_ev {s0 s : State} (n : Nat) (h : Evolves s0 s) : Evolves s0 (rescue n s).2 := by
  unfold rescue
  with_reducible repeat' (first
    | assumption | apply State.setReg_ev | apply installStep_ev | apply State.setRbit_ev | dsimp only | split
    | fail_if_no_progress (refine Evolves.rest ?_ rfl rfl rfl rfl rfl rfl))

theorem rescueWrite_ev {s0 s : State} (v : Word) (h : Evolves s0 s) : Evolves s0 (rescueWrite v s) := by
  unfold rescueWrite
  with_reducible repeat' (first | assumption | apply rescue_ev | split)

theorem execFlashDone_ev {s0 s : State} (failed : Option (Fin 256)) (h : Evolves s0 s) :
    OutEv s0 (execFlashDone failed s) := by
  unfold execFlashDone
  with_reducible repeat' (first
    | assumption | apply when_ev | apply flashFinish_ev | apply installNext_ev | apply OutEv.next | exact OutEv.fault
    | intro _ | dsimp only | split | refine Evolves.pair ?_ (by assumption))

theorem startFreeze_ev {s0 s : State} (src : Nat) (h : Evolves s0 s) : Evolves s0 (startFreeze src s) := by
  unfold startFreeze
  with_reducible repeat' (first
    | assumption | dsimp only | split | fail_if_no_progress (refine Evolves.rest ?_ rfl rfl rfl rfl rfl rfl))

theorem quenchRequest_ev {s0 s : State} (src : Nat) (h : Evolves s0 s) : Evolves s0 (quenchRequest src s) := by
  unfold quenchRequest
  with_reducible repeat' (first | assumption | apply startFreeze_ev | apply State.setRbit_ev | split)

theorem assayCtl_ev {s0 s : State} (who : Req) (key : BitVec 16) (h : Evolves s0 s) : Evolves s0 (assayCtl who key s) := by
  unfold assayCtl
  with_reducible repeat' (first | assumption | apply when_ev | apply quenchRequest_ev | intro _)

theorem xlateInv_ev {s0 s : State} (op ctx page : Nat) (h : Evolves s0 s) : Evolves s0 (xlateInv op ctx page s) := by
  unfold xlateInv
  with_reducible repeat' (first
    | assumption | dsimp only | split | fail_if_no_progress (refine Evolves.rest ?_ rfl rfl rfl rfl rfl rfl))

theorem xlateInvWrite_ev {s0 s : State} (who : Req) (op ctx page : Nat) (h : Evolves s0 s) :
    Evolves s0 (xlateInvWrite who op ctx page s) := by
  unfold xlateInvWrite
  with_reducible repeat' (first | assumption | apply when_ev | apply xlateInv_ev | intro _)

theorem execXlateInvPage_ev {s0 s : State} (who : Req) (ctx : Fin 64) (page : BitVec 20) (h : Evolves s0 s) :
    OutEv s0 (execXlateInvPage who ctx page s) := by
  unfold execXlateInvPage
  with_reducible repeat' (first | assumption | apply when_ev | apply xlateInvWrite_ev | apply OutEv.next | intro _)

theorem execXlateInvContext_ev {s0 s : State} (who : Req) (ctx : Fin 64) (h : Evolves s0 s) :
    OutEv s0 (execXlateInvContext who ctx s) := by
  unfold execXlateInvContext
  with_reducible repeat' (first | assumption | apply when_ev | apply xlateInvWrite_ev | apply OutEv.next | intro _)

theorem execXlateInvAll_ev {s0 s : State} (who : Req) (h : Evolves s0 s) : OutEv s0 (execXlateInvAll who s) := by
  unfold execXlateInvAll
  with_reducible repeat' (first | assumption | apply when_ev | apply xlateInvWrite_ev | apply OutEv.next | intro _)

theorem execXlateInvDone_ev {s0 s : State} (h : Evolves s0 s) : OutEv s0 (execXlateInvDone s) := by
  unfold execXlateInvDone
  with_reducible repeat' (first
    | assumption | apply when_ev | apply OutEv.next | intro _ | dsimp only
    | fail_if_no_progress (refine Evolves.rest ?_ rfl rfl rfl rfl rfl rfl))

theorem readSys_ev {s0 s : State} (who : Req) (a : Nat) (h : Evolves s0 s) : OptPairEv s0 (readSys who a s) := by
  unfold readSys
  with_reducible repeat' (first
    | assumption | apply readTbLo_ev | apply readRtcLo_ev | apply OptPairEv.some | exact OptPairEv.none | split)

theorem readFabric_ev {s0 s : State} (who : Req) (a : Nat) (h : Evolves s0 s) : OptPairEv s0 (readFabric who a s) := by
  unfold readFabric
  with_reducible repeat' (first | assumption | apply OptPairEv.some | exact OptPairEv.none | split)

theorem readBlock_ev {s0 s : State} (a : Nat) (h : Evolves s0 s) : OptPairEv s0 (readBlock a s) := by
  unfold readBlock
  with_reducible repeat' (first
    | exact OptPairEv.some h | exact OptPairEv.none | apply OptPairEv.of | apply OptPairEv.ite | exact uhfStat_ev h
    | exact readEntData_ev h | exact linStat_ev _ h)

theorem regRead_ev {s0 s : State} (who : Sys2Proof.Req) (a : Nat) (h : Evolves s0 s) : OptPairEv s0 (regRead who a s) := by
  unfold regRead
  split
  · exact OptPairEv.none
  · exact OptPairEv.of (OptPairEv.getD
      (OptPairEv.orElse (readSys_ev who a h) (OptPairEv.orElse (readFabric_ev who a h) (readBlock_ev a h))) h)

theorem writeSys_ev {s0 s : State} (who : Req) (a : Nat) (v : Word) (h : Evolves s0 s) : OptEv s0 (writeSys who a v s) := by
  unfold writeSys
  with_reducible repeat' (first
    | assumption | apply modeRequest_ev | apply sessionWrite_ev | apply when_ev | apply State.setReg_ev
    | apply State.modeEdge_ev | apply State.setFld_ev | apply softwareReset_ev | apply wdtWrite_ev | apply kick_ev
    | apply vcoreWrite_ev | apply OptEv.some | exact OptEv.none | intro _ | dsimp only | split)

theorem writeFabric_ev {s0 s : State} (who : Req) (a : Nat) (v : Word) (h : Evolves s0 s) :
    OptEv s0 (writeFabric who a v s) := by
  unfold writeFabric
  with_reducible repeat' (first
    | assumption | apply ledgerCtl_ev | apply flashCmd_ev | apply when_ev | apply assayCtl_ev | apply xlateInvWrite_ev
    | apply rescueWrite_ev | apply State.setReg_ev | apply OptEv.some | exact OptEv.none | intro _ | split)

theorem writeBlock_ev {s0 s : State} (a : Nat) (v : Word) (h : Evolves s0 s) : OptEv s0 (writeBlock a v s) := by
  unfold writeBlock
  with_reducible repeat' (first
    | assumption | apply adcWrite_ev | apply lfWrite_ev | apply uhfWrite_ev | apply uwbWrite_ev | apply bleWrite_ev
    | apply nfcWrite_ev | apply capWrite_ev | apply swWrite_ev | apply canWrite_ev | apply linWrite_ev
    | apply startWrite_ev | exact OptEv.none | split)

theorem writeOwn_ev {s0 s : State} (who : Req) (a : Nat) (v : Word) (h : Evolves s0 s) : OptEv s0 (writeOwn who a v s) := by
  unfold writeOwn
  with_reducible repeat' (first
    | assumption | apply writeSys_ev | apply frontWrite_ev | apply aditWrite_ev | apply entWrite_ev | apply writeFabric_ev
    | split)

theorem plainWrite_ev {s0 s : State} (d : RegDef) (k : Nat) (v : Word) (h : Evolves s0 s) :
    Evolves s0 (plainWrite d k v s) := by
  unfold plainWrite
  with_reducible repeat' (first | assumption | apply State.setReg_ev)

theorem regWrite_ev {s0 s : State} (who : Req) (a : Nat) (v : Word) (h : Evolves s0 s) : OptEv s0 (regWrite who a v s) := by
  unfold regWrite
  with_reducible repeat' (first
    | assumption | apply when_ev | apply kattrWrite_ev | apply writeOwn_ev | apply writeBlock_ev | apply plainWrite_ev
    | apply OptEv.some | exact OptEv.none | intro _ | split | refine OptEv.get ?_ (by assumption))

theorem privWrite_ev {s0 s : State} (c : Fin 6) (off : Nat) (bs : Bytes) (h : Evolves s0 s) :
    Evolves s0 (privWrite c off bs s) := by
  unfold privWrite
  with_reducible repeat' (first
    | assumption | apply State.setReg_ev | apply when_ev | apply invI_ev | apply flushD_ev | intro _)

theorem execFlushD_ev {s0 s : State} (c : Fin 6) (h : Evolves s0 s) : OutEv s0 (execFlushD c s) := by
  unfold execFlushD
  with_reducible repeat' (first | assumption | apply when_ev | apply flushD_ev | apply OutEv.next | intro _)

theorem execInvI_ev {s0 s : State} (c : Fin 6) (h : Evolves s0 s) : OutEv s0 (execInvI c s) := by
  unfold execInvI
  with_reducible repeat' (first | assumption | apply when_ev | apply invI_ev | apply OutEv.next | intro _)

theorem raise_ev {s0 s : State} (c : Fin 6) (code sub : Nat) (bad : Word) (h : Evolves s0 s) :
    Evolves s0 (raise c code sub bad s) := by
  unfold raise
  dsimp only
  split
  · exact doubleFault_ev c h
  · exact State.setCore_ev c _ h (fun i => coreOk_same (coreOk_vector (coreOk_of_ev i h) rfl))

theorem raiseIllegal_ev {s0 s : State} (c : Fin 6) (word : Word) (h : Evolves s0 s) :
    Evolves s0 (raiseIllegal c word s) := by
  unfold raiseIllegal
  with_reducible repeat' (first | assumption | apply raise_ev)

theorem raiseMisaligned_ev {s0 s : State} (c : Fin 6) (a : Word) (h : Evolves s0 s) :
    Evolves s0 (raiseMisaligned c a s) := by
  unfold raiseMisaligned
  with_reducible repeat' (first | assumption | apply raise_ev)

theorem raiseBus_ev {s0 s : State} (c : Fin 6) (a : Word) (h : Evolves s0 s) : Evolves s0 (raiseBus c a s) := by
  unfold raiseBus
  with_reducible repeat' (first | assumption | apply raise_ev)

theorem raiseChan_ev {s0 s : State} (c : Fin 6) (ch : BitVec 8) (sub : Nat) (h : Evolves s0 s) :
    Evolves s0 (raiseChan c ch sub s) := by
  unfold raiseChan
  with_reducible repeat' (first | assumption | apply raise_ev)

theorem raiseKey_ev {s0 s : State} (c : Fin 6) (handle : Word) (sub : Nat) (h : Evolves s0 s) :
    Evolves s0 (raiseKey c handle sub s) := by
  unfold raiseKey
  with_reducible repeat' (first | assumption | apply raise_ev)

theorem interrupt_ev {s0 s : State} (c : Fin 6) (h : Evolves s0 s) : Evolves s0 (interrupt c s) :=
  State.setCore_ev c _ h (fun i => coreOk_vector (coreOk_of_ev i h) rfl)

theorem execInterrupt_ev {s0 s : State} (c : Fin 6) (h : Evolves s0 s) : OutEv s0 (execInterrupt c s) := by
  unfold execInterrupt
  with_reducible repeat' (first | assumption | apply when_ev | apply interrupt_ev | apply OutEv.next | intro _)

theorem stall_ev {s0 s : State} (c : Fin 6) (word : Word) (h : Evolves s0 s) : Evolves s0 (stall c word s) := by
  unfold stall
  with_reducible repeat' (first | assumption | apply State.onCore_ev | intro _ | apply coreOk_same)

theorem perform_ev {s0 s : State} (c : Fin 6) (word : Word) (legal : Bool) (body : State → State) (h : Evolves s0 s)
    (evbody : ∀ a0, Evolves s0 a0 → Evolves s0 (body a0)) :
    Evolves s0 (perform c word legal body s) := by
  unfold perform
  with_reducible repeat' (first
    | assumption | apply raiseBus_ev | apply coreFetch_ev | apply stall_ev | apply raiseIllegal_ev | apply evbody
    | dsimp only | split | refine Evolves.pair ?_ (by assumption))

theorem instruction_ev {s0 s : State} (c : Fin 6) (word : Word) (legal : Bool) (body : State → State) (h : Evolves s0 s)
    (evbody : ∀ a0, Evolves s0 a0 → Evolves s0 (body a0)) :
    OutEv s0 (instruction c word legal body s) := by
  unfold instruction
  with_reducible repeat' (first | assumption | apply when_ev | apply perform_ev | apply OutEv.next | intro _)

theorem regResult_ev {s0 s : State} (c : Fin 6) (rd : Fin 16) (f : Bool) (op : BinOp) (a b : Core → Word) (h : Evolves s0 s) :
    Evolves s0 (regResult c rd f op a b s) := by
  unfold regResult
  with_reducible repeat' (first
    | assumption | apply State.onCore_ev | intro _ | dsimp only | split | apply coreOk_write | apply coreOk_same)

theorem opA_ev {s0 s : State} (major fn : Nat) (op : BinOp) (usesRb : Bool) (c : Fin 6) (rd ra rb : Fin 16)
    (rsv : BitVec 7) (f : Bool) (h : Evolves s0 s) :
    OutEv s0 (opA major fn op usesRb c rd ra rb rsv f s) := by
  unfold opA
  with_reducible repeat' (first | assumption | apply instruction_ev | apply regResult_ev | intro _)

theorem opI_ev {s0 s : State} (major : Nat) (op : BinOp) (legal : Bool) (b : Word) (c : Fin 6) (rd ra : Fin 16)
    (imm12 : BitVec 12) (rsv : BitVec 5) (f : Bool) (h : Evolves s0 s) :
    OutEv s0 (opI major op legal b c rd ra imm12 rsv f s) := by
  unfold opI
  with_reducible repeat' (first | assumption | apply instruction_ev | apply regResult_ev | intro _)

theorem opI16_ev {s0 s : State} (major : Nat) (op : BinOp) (legal : Bool) (a : Core → Word) (b : Word) (c : Fin 6)
    (rd : Fin 16) (imm16 : BitVec 16) (rsv : BitVec 5) (f : Bool) (h : Evolves s0 s) :
    OutEv s0 (opI16 major op legal a b c rd imm16 rsv f s) := by
  unfold opI16
  with_reducible repeat' (first | assumption | apply instruction_ev | apply regResult_ev | intro _)

theorem execAdd_ev {s0 s : State} (c : Fin 6) (rd ra rb : Fin 16) (rsv : BitVec 7) (f : Bool) (h : Evolves s0 s) :
    OutEv s0 (execAdd c rd ra rb rsv f s) := by
  unfold execAdd
  with_reducible repeat' (first | assumption | apply opA_ev)

theorem execSub_ev {s0 s : State} (c : Fin 6) (rd ra rb : Fin 16) (rsv : BitVec 7) (f : Bool) (h : Evolves s0 s) :
    OutEv s0 (execSub c rd ra rb rsv f s) := by
  unfold execSub
  with_reducible repeat' (first | assumption | apply opA_ev)

theorem execAdc_ev {s0 s : State} (c : Fin 6) (rd ra rb : Fin 16) (rsv : BitVec 7) (f : Bool) (h : Evolves s0 s) :
    OutEv s0 (execAdc c rd ra rb rsv f s) := by
  unfold execAdc
  with_reducible repeat' (first | assumption | apply opA_ev)

theorem execSbc_ev {s0 s : State} (c : Fin 6) (rd ra rb : Fin 16) (rsv : BitVec 7) (f : Bool) (h : Evolves s0 s) :
    OutEv s0 (execSbc c rd ra rb rsv f s) := by
  unfold execSbc
  with_reducible repeat' (first | assumption | apply opA_ev)

theorem execAnd_ev {s0 s : State} (c : Fin 6) (rd ra rb : Fin 16) (rsv : BitVec 7) (f : Bool) (h : Evolves s0 s) :
    OutEv s0 (execAnd c rd ra rb rsv f s) := by
  unfold execAnd
  with_reducible repeat' (first | assumption | apply opA_ev)

theorem execOr_ev {s0 s : State} (c : Fin 6) (rd ra rb : Fin 16) (rsv : BitVec 7) (f : Bool) (h : Evolves s0 s) :
    OutEv s0 (execOr c rd ra rb rsv f s) := by
  unfold execOr
  with_reducible repeat' (first | assumption | apply opA_ev)

theorem execXor_ev {s0 s : State} (c : Fin 6) (rd ra rb : Fin 16) (rsv : BitVec 7) (f : Bool) (h : Evolves s0 s) :
    OutEv s0 (execXor c rd ra rb rsv f s) := by
  unfold execXor
  with_reducible repeat' (first | assumption | apply opA_ev)

theorem execAndn_ev {s0 s : State} (c : Fin 6) (rd ra rb : Fin 16) (rsv : BitVec 7) (f : Bool) (h : Evolves s0 s) :
    OutEv s0 (execAndn c rd ra rb rsv f s) := by
  unfold execAndn
  with_reducible repeat' (first | assumption | apply opA_ev)

theorem execShl_ev {s0 s : State} (c : Fin 6) (rd ra rb : Fin 16) (rsv : BitVec 7) (f : Bool) (h : Evolves s0 s) :
    OutEv s0 (execShl c rd ra rb rsv f s) := by
  unfold execShl
  with_reducible repeat' (first | assumption | apply opA_ev)

theorem execShr_ev {s0 s : State} (c : Fin 6) (rd ra rb : Fin 16) (rsv : BitVec 7) (f : Bool) (h : Evolves s0 s) :
    OutEv s0 (execShr c rd ra rb rsv f s) := by
  unfold execShr
  with_reducible repeat' (first | assumption | apply opA_ev)

theorem execSar_ev {s0 s : State} (c : Fin 6) (rd ra rb : Fin 16) (rsv : BitVec 7) (f : Bool) (h : Evolves s0 s) :
    OutEv s0 (execSar c rd ra rb rsv f s) := by
  unfold execSar
  with_reducible repeat' (first | assumption | apply opA_ev)

theorem execRor_ev {s0 s : State} (c : Fin 6) (rd ra rb : Fin 16) (rsv : BitVec 7) (f : Bool) (h : Evolves s0 s) :
    OutEv s0 (execRor c rd ra rb rsv f s) := by
  unfold execRor
  with_reducible repeat' (first | assumption | apply opA_ev)

theorem execSlt_ev {s0 s : State} (c : Fin 6) (rd ra rb : Fin 16) (rsv : BitVec 7) (f : Bool) (h : Evolves s0 s) :
    OutEv s0 (execSlt c rd ra rb rsv f s) := by
  unfold execSlt
  with_reducible repeat' (first | assumption | apply opA_ev)

theorem execSltu_ev {s0 s : State} (c : Fin 6) (rd ra rb : Fin 16) (rsv : BitVec 7) (f : Bool) (h : Evolves s0 s) :
    OutEv s0 (execSltu c rd ra rb rsv f s) := by
  unfold execSltu
  with_reducible repeat' (first | assumption | apply opA_ev)

theorem execClz_ev {s0 s : State} (c : Fin 6) (rd ra rb : Fin 16) (rsv : BitVec 7) (f : Bool) (h : Evolves s0 s) :
    OutEv s0 (execClz c rd ra rb rsv f s) := by
  unfold execClz
  with_reducible repeat' (first | assumption | apply opA_ev)

theorem execSexb_ev {s0 s : State} (c : Fin 6) (rd ra rb : Fin 16) (rsv : BitVec 7) (f : Bool) (h : Evolves s0 s) :
    OutEv s0 (execSexb c rd ra rb rsv f s) := by
  unfold execSexb
  with_reducible repeat' (first | assumption | apply opA_ev)

theorem execSexh_ev {s0 s : State} (c : Fin 6) (rd ra rb : Fin 16) (rsv : BitVec 7) (f : Bool) (h : Evolves s0 s) :
    OutEv s0 (execSexh c rd ra rb rsv f s) := by
  unfold execSexh
  with_reducible repeat' (first | assumption | apply opA_ev)

theorem execMul_ev {s0 s : State} (c : Fin 6) (rd ra rb : Fin 16) (rsv : BitVec 7) (f : Bool) (h : Evolves s0 s) :
    OutEv s0 (execMul c rd ra rb rsv f s) := by
  unfold execMul
  with_reducible repeat' (first | assumption | apply opA_ev)

theorem execMulh_ev {s0 s : State} (c : Fin 6) (rd ra rb : Fin 16) (rsv : BitVec 7) (f : Bool) (h : Evolves s0 s) :
    OutEv s0 (execMulh c rd ra rb rsv f s) := by
  unfold execMulh
  with_reducible repeat' (first | assumption | apply opA_ev)

theorem execMulhu_ev {s0 s : State} (c : Fin 6) (rd ra rb : Fin 16) (rsv : BitVec 7) (f : Bool) (h : Evolves s0 s) :
    OutEv s0 (execMulhu c rd ra rb rsv f s) := by
  unfold execMulhu
  with_reducible repeat' (first | assumption | apply opA_ev)

theorem execDiv_ev {s0 s : State} (c : Fin 6) (rd ra rb : Fin 16) (rsv : BitVec 7) (f : Bool) (h : Evolves s0 s) :
    OutEv s0 (execDiv c rd ra rb rsv f s) := by
  unfold execDiv
  with_reducible repeat' (first | assumption | apply opA_ev)

theorem execDivu_ev {s0 s : State} (c : Fin 6) (rd ra rb : Fin 16) (rsv : BitVec 7) (f : Bool) (h : Evolves s0 s) :
    OutEv s0 (execDivu c rd ra rb rsv f s) := by
  unfold execDivu
  with_reducible repeat' (first | assumption | apply opA_ev)

theorem execRem_ev {s0 s : State} (c : Fin 6) (rd ra rb : Fin 16) (rsv : BitVec 7) (f : Bool) (h : Evolves s0 s) :
    OutEv s0 (execRem c rd ra rb rsv f s) := by
  unfold execRem
  with_reducible repeat' (first | assumption | apply opA_ev)

theorem execRemu_ev {s0 s : State} (c : Fin 6) (rd ra rb : Fin 16) (rsv : BitVec 7) (f : Bool) (h : Evolves s0 s) :
    OutEv s0 (execRemu c rd ra rb rsv f s) := by
  unfold execRemu
  with_reducible repeat' (first | assumption | apply opA_ev)

theorem execAddi_ev {s0 s : State} (c : Fin 6) (rd ra : Fin 16) (imm12 : BitVec 12) (rsv : BitVec 5) (f : Bool)
    (h : Evolves s0 s) :
    OutEv s0 (execAddi c rd ra imm12 rsv f s) := by
  unfold execAddi
  with_reducible repeat' (first | assumption | apply opI_ev)

theorem execAndi_ev {s0 s : State} (c : Fin 6) (rd ra : Fin 16) (imm12 : BitVec 12) (rsv : BitVec 5) (f : Bool)
    (h : Evolves s0 s) :
    OutEv s0 (execAndi c rd ra imm12 rsv f s) := by
  unfold execAndi
  with_reducible repeat' (first | assumption | apply opI_ev)

theorem execOri_ev {s0 s : State} (c : Fin 6) (rd ra : Fin 16) (imm12 : BitVec 12) (rsv : BitVec 5) (f : Bool)
    (h : Evolves s0 s) :
    OutEv s0 (execOri c rd ra imm12 rsv f s) := by
  unfold execOri
  with_reducible repeat' (first | assumption | apply opI_ev)

theorem execXori_ev {s0 s : State} (c : Fin 6) (rd ra : Fin 16) (imm12 : BitVec 12) (rsv : BitVec 5) (f : Bool)
    (h : Evolves s0 s) :
    OutEv s0 (execXori c rd ra imm12 rsv f s) := by
  unfold execXori
  with_reducible repeat' (first | assumption | apply opI_ev)

theorem execShli_ev {s0 s : State} (c : Fin 6) (rd ra : Fin 16) (imm12 : BitVec 12) (rsv : BitVec 5) (f : Bool)
    (h : Evolves s0 s) :
    OutEv s0 (execShli c rd ra imm12 rsv f s) := by
  unfold execShli
  with_reducible repeat' (first | assumption | apply opI_ev)

theorem execShri_ev {s0 s : State} (c : Fin 6) (rd ra : Fin 16) (imm12 : BitVec 12) (rsv : BitVec 5) (f : Bool)
    (h : Evolves s0 s) :
    OutEv s0 (execShri c rd ra imm12 rsv f s) := by
  unfold execShri
  with_reducible repeat' (first | assumption | apply opI_ev)

theorem execSari_ev {s0 s : State} (c : Fin 6) (rd ra : Fin 16) (imm12 : BitVec 12) (rsv : BitVec 5) (f : Bool)
    (h : Evolves s0 s) :
    OutEv s0 (execSari c rd ra imm12 rsv f s) := by
  unfold execSari
  with_reducible repeat' (first | assumption | apply opI_ev)

theorem execRori_ev {s0 s : State} (c : Fin 6) (rd ra : Fin 16) (imm12 : BitVec 12) (rsv : BitVec 5) (f : Bool)
    (h : Evolves s0 s) :
    OutEv s0 (execRori c rd ra imm12 rsv f s) := by
  unfold execRori
  with_reducible repeat' (first | assumption | apply opI_ev)

theorem execSlti_ev {s0 s : State} (c : Fin 6) (rd ra : Fin 16) (imm12 : BitVec 12) (rsv : BitVec 5) (f : Bool)
    (h : Evolves s0 s) :
    OutEv s0 (execSlti c rd ra imm12 rsv f s) := by
  unfold execSlti
  with_reducible repeat' (first | assumption | apply opI_ev)

theorem execSltui_ev {s0 s : State} (c : Fin 6) (rd ra : Fin 16) (imm12 : BitVec 12) (rsv : BitVec 5) (f : Bool)
    (h : Evolves s0 s) :
    OutEv s0 (execSltui c rd ra imm12 rsv f s) := by
  unfold execSltui
  with_reducible repeat' (first | assumption | apply opI_ev)

theorem execSubi_ev {s0 s : State} (c : Fin 6) (rd ra : Fin 16) (imm12 : BitVec 12) (rsv : BitVec 5) (f : Bool)
    (h : Evolves s0 s) :
    OutEv s0 (execSubi c rd ra imm12 rsv f s) := by
  unfold execSubi
  with_reducible repeat' (first | assumption | apply opI_ev)

theorem execMovu_ev {s0 s : State} (c : Fin 6) (rd : Fin 16) (imm16 : BitVec 16) (rsv : BitVec 5) (f : Bool)
    (h : Evolves s0 s) :
    OutEv s0 (execMovu c rd imm16 rsv f s) := by
  unfold execMovu
  with_reducible repeat' (first | assumption | apply opI16_ev)

theorem execOrl_ev {s0 s : State} (c : Fin 6) (rd : Fin 16) (imm16 : BitVec 16) (rsv : BitVec 5) (f : Bool)
    (h : Evolves s0 s) :
    OutEv s0 (execOrl c rd imm16 rsv f s) := by
  unfold execOrl
  with_reducible repeat' (first | assumption | apply opI16_ev)

theorem execAdpc_ev {s0 s : State} (c : Fin 6) (rd : Fin 16) (imm16 : BitVec 16) (rsv : BitVec 5) (f : Bool)
    (h : Evolves s0 s) :
    OutEv s0 (execAdpc c rd imm16 rsv f s) := by
  unfold execAdpc
  with_reducible repeat' (first | assumption | apply opI16_ev)

theorem ledgerLoadAt_ev {s0 s : State} (c : Fin 6) (off n : Nat) (h : Evolves s0 s) :
    Evolves s0 (ledgerLoadAt c off n s).2 := by
  unfold ledgerLoadAt
  with_reducible repeat' (first | assumption | split)

theorem ledgerLoad_ev {s0 s : State} (c : Fin 6) (a n : Nat) (h : Evolves s0 s) : Evolves s0 (ledgerLoad c a n s).2 := by
  unfold ledgerLoad
  with_reducible repeat' (first | assumption | apply ledgerLoadAt_ev)

theorem regLoad_ev {s0 s : State} (c : Fin 6) (a n : Nat) (h : Evolves s0 s) : Evolves s0 (regLoad c a n s).2 := by
  unfold regLoad
  with_reducible repeat' (first
    | assumption | apply regRead_ev | dsimp only | split | refine OptPairEv.get ?_ (by assumption))

theorem privLoad_ev {s0 s : State} (c : Fin 6) (a n : Nat) (h : Evolves s0 s) : Evolves s0 (privLoad c a n s).2 := by
  unfold privLoad
  with_reducible repeat' (first | assumption | split)

theorem load_ev {s0 s : State} (c : Fin 6) (a n : Nat) (h : Evolves s0 s) : Evolves s0 (load c a n s).2 := by
  unfold load
  with_reducible repeat' (first
    | assumption | apply coreRead_ev | apply ledgerLoad_ev | apply regLoad_ev | apply readOutbound_ev | apply privLoad_ev
    | split)

theorem leBytes_length (n v : Nat) : (leBytes n v).length = n := by
  induction n generalizing v with
  | zero => rfl
  | succ n ih => simp [leBytes, ih]

theorem store_ev {s0 s : State} (c : Fin 6) (a : Nat) (bs : Bytes) (h : Evolves s0 s) (hb : a % 64 + bs.length ≤ 64) :
    Evolves s0 (store c a bs s).2 := by
  unfold store
  split
  · rename_i hn
    refine coreWrite_ev c a bs h ?_ hb
    simp only [normalStore, Bool.or_eq_true, Bool.and_eq_true] at hn
    exact hn.imp id And.right
  with_reducible repeat' (first
    | assumption | apply regWrite_ev | apply writeOutbound_ev | apply privWrite_ev | split
    | refine OptEv.get ?_ (by assumption))

theorem loadInstr_ev {s0 s : State} (major n : Nat) (conv : Bytes → Word) (c : Fin 6) (rd ra : Fin 16) (imm12 : BitVec 12)
    (rsv : BitVec 6) (h : Evolves s0 s) :
    OutEv s0 (loadInstr major n conv c rd ra imm12 rsv s) := by
  unfold loadInstr
  with_reducible repeat' (first
    | assumption | apply instruction_ev | apply raiseMisaligned_ev | apply load_ev | apply State.onCore_ev
    | apply stall_ev | apply raiseBus_ev | intro _ | dsimp only | split | refine Evolves.pair ?_ (by assumption)
    | apply coreOk_write)

theorem storeInstr_ev {s0 s : State} (major n : Nat) (c : Fin 6) (rd ra : Fin 16) (imm12 : BitVec 12) (rsv : BitVec 6)
    (hn : n = 4 ∨ n = 2 ∨ n = 1) (h : Evolves s0 s) : OutEv s0 (storeInstr major n c rd ra imm12 rsv s) := by
  unfold storeInstr
  refine instruction_ev c _ _ _ h (fun u hu => ?_)
  dsimp only
  split
  · exact raiseMisaligned_ev _ _ hu
  · rename_i hal
    have hb : (effAddr (u.cores.get c) ra imm12).toNat % 64 + ((leOfWord ((u.cores.get c).get rd)).take n).length ≤ 64 := by
      rw [List.length_take, show (leOfWord ((u.cores.get c).get rd)).length = 4 from leBytes_length 4 _]
      simp only [bne_iff_ne, ne_eq, not_not] at hal
      rcases hn with rfl | rfl | rfl <;> omega
    have ha := State.onCore_ev c Core.advance hu (fun _ => coreOk_advance)
    split
    · exact Evolves.pair (store_ev _ _ _ ha hb) (by assumption)
    · exact stall_ev _ _ (State.setCore_ev c _ (Evolves.pair (store_ev _ _ _ ha hb) (by assumption)) (fun i => coreOk_of_ev i hu))
    · exact raiseBus_ev _ _ (State.setCore_ev c _ (Evolves.pair (store_ev _ _ _ ha hb) (by assumption))
        (fun i => coreOk_of_ev i hu))

theorem execLdw_ev {s0 s : State} (c : Fin 6) (rd ra : Fin 16) (imm12 : BitVec 12) (rsv : BitVec 6) (h : Evolves s0 s) :
    OutEv s0 (execLdw c rd ra imm12 rsv s) := by
  unfold execLdw
  with_reducible repeat' (first | assumption | apply loadInstr_ev)

theorem execLdh_ev {s0 s : State} (c : Fin 6) (rd ra : Fin 16) (imm12 : BitVec 12) (rsv : BitVec 6) (h : Evolves s0 s) :
    OutEv s0 (execLdh c rd ra imm12 rsv s) := by
  unfold execLdh
  with_reducible repeat' (first | assumption | apply loadInstr_ev)

theorem execLdhu_ev {s0 s : State} (c : Fin 6) (rd ra : Fin 16) (imm12 : BitVec 12) (rsv : BitVec 6) (h : Evolves s0 s) :
    OutEv s0 (execLdhu c rd ra imm12 rsv s) := by
  unfold execLdhu
  with_reducible repeat' (first | assumption | apply loadInstr_ev)

theorem execLdb_ev {s0 s : State} (c : Fin 6) (rd ra : Fin 16) (imm12 : BitVec 12) (rsv : BitVec 6) (h : Evolves s0 s) :
    OutEv s0 (execLdb c rd ra imm12 rsv s) := by
  unfold execLdb
  with_reducible repeat' (first | assumption | apply loadInstr_ev)

theorem execLdbu_ev {s0 s : State} (c : Fin 6) (rd ra : Fin 16) (imm12 : BitVec 12) (rsv : BitVec 6) (h : Evolves s0 s) :
    OutEv s0 (execLdbu c rd ra imm12 rsv s) := by
  unfold execLdbu
  with_reducible repeat' (first | assumption | apply loadInstr_ev)

theorem execStw_ev {s0 s : State} (c : Fin 6) (rd ra : Fin 16) (imm12 : BitVec 12) (rsv : BitVec 6) (h : Evolves s0 s) :
    OutEv s0 (execStw c rd ra imm12 rsv s) := storeInstr_ev _ _ c rd ra imm12 rsv (by simp) h

theorem execSth_ev {s0 s : State} (c : Fin 6) (rd ra : Fin 16) (imm12 : BitVec 12) (rsv : BitVec 6) (h : Evolves s0 s) :
    OutEv s0 (execSth c rd ra imm12 rsv s) := storeInstr_ev _ _ c rd ra imm12 rsv (by simp) h

theorem execStb_ev {s0 s : State} (c : Fin 6) (rd ra : Fin 16) (imm12 : BitVec 12) (rsv : BitVec 6) (h : Evolves s0 s) :
    OutEv s0 (execStb c rd ra imm12 rsv s) := storeInstr_ev _ _ c rd ra imm12 rsv (by simp) h

theorem atomic_ev {s0 s : State} (fn : Nat) (new : Core → Word → Option Word) (flags : Core → Word → BitVec 4) (c : Fin 6)
    (rd ra rb : Fin 16) (rsv : BitVec 7) (f : Bool) (h : Evolves s0 s) : OutEv s0 (atomic fn new flags c rd ra rb rsv f s) := by
  unfold atomic
  refine instruction_ev c _ _ _ h (fun u hu => ?_)
  dsimp only
  split
  · exact raiseMisaligned_ev _ _ hu
  · rename_i hal
    simp only [bne_iff_ne, ne_eq, not_not] at hal
    split
    · exact raiseBus_ev _ _ hu
    · rename_i hn
      simp only [normalStore, Bool.not_eq_true', Bool.not_eq_false, Bool.or_eq_true, Bool.and_eq_true] at hn
      split
      · have hr := Evolves.pair (coreRead_ev c ((u.cores.get c).get ra).toNat 4 hu) ‹_›
        have hw : ∀ (o : Option Word) (v : State), Evolves s0 v →
            Evolves s0 ((o.map (fun w => coreWrite c ((u.cores.get c).get ra).toNat (leOfWord w) v)).getD (.ok [], v)).2 := by
          intro o v hv
          cases o with
          | none => exact hv
          | some w =>
            refine coreWrite_ev _ _ _ hv (hn.imp id And.right) ?_
            rw [show (leOfWord w).length = 4 from leBytes_length 4 _]
            omega
        split
        · exact State.onCore_ev c _ (Evolves.pair (hw _ _ hr) ‹_›) (fun k hk => coreOk_same (coreOk_write hk))
        · exact raiseBus_ev _ _ (Evolves.pair (hw _ _ hr) ‹_›)
      · exact stall_ev _ _ (Evolves.pair (coreRead_ev _ _ _ hu) (by assumption))
      · exact raiseBus_ev _ _ (Evolves.pair (coreRead_ev _ _ _ hu) (by assumption))

theorem execSwp_ev {s0 s : State} (c : Fin 6) (rd ra rb : Fin 16) (rsv : BitVec 7) (f : Bool) (h : Evolves s0 s) :
    OutEv s0 (execSwp c rd ra rb rsv f s) := by
  unfold execSwp
  with_reducible repeat' (first | assumption | apply atomic_ev)

theorem execCas_ev {s0 s : State} (c : Fin 6) (rd ra rb : Fin 16) (rsv : BitVec 7) (f : Bool) (h : Evolves s0 s) :
    OutEv s0 (execCas c rd ra rb rsv f s) := by
  unfold execCas
  with_reducible repeat' (first | assumption | apply atomic_ev)

theorem execFadd_ev {s0 s : State} (c : Fin 6) (rd ra rb : Fin 16) (rsv : BitVec 7) (f : Bool) (h : Evolves s0 s) :
    OutEv s0 (execFadd c rd ra rb rsv f s) := by
  unfold execFadd
  with_reducible repeat' (first | assumption | apply atomic_ev)

theorem branchTo_ev {s0 s : State} (c : Fin 6) (t : Word) (h : Evolves s0 s) (ht : Inv s0 → clear t 3 = true) :
    Evolves s0 (branchTo c t s) := by
  unfold branchTo
  dsimp only
  have hg : Evolves s0 (s.onCore c (fun k => { k with pc := t, run := .running })) :=
    State.setCore_ev c _ h (fun i => coreOk_goto (coreOk_of_ev i h) (ht i))
  split
  · exact raiseBus_ev _ _ hg
  · exact hg

/-- A branch from an aligned pc by whole words. -/

theorem clear_branch {s0 s : State} (c : Fin 6) (x : Word) (h : Evolves s0 s) (i : Inv s0) :
    clear ((s.cores.get c).pc + x <<< 2) 3 = true :=
  clear_add ((coreOk_iff _ _).1 (coreOk_of_ev i h)).2.1 (clear_shl x)

theorem branch_ev {s0 s : State} (major cf : Nat) (legal : Bool) (taken : Core → Bool) (c : Fin 6) (rsv : BitVec 6)
    (off16 : BitVec 16)
    (h : Evolves s0 s) : OutEv s0 (branch major cf legal taken c rsv off16 s) := by
  unfold branch
  refine instruction_ev c _ _ _ h (fun u hu => ?_)
  dsimp only
  split
  · exact branchTo_ev c _ hu (clear_branch c _ hu)
  · exact State.onCore_ev c _ hu (fun _ => coreOk_advance)

theorem execBc_ev {s0 s : State} (c : Fin 6) (cond : BitVec 4) (rsv : BitVec 6) (off16 : BitVec 16) (h : Evolves s0 s) :
    OutEv s0 (execBc c cond rsv off16 s) := by
  unfold execBc
  with_reducible repeat' (first | assumption | apply branch_ev)

theorem execBz_ev {s0 s : State} (c : Fin 6) (ra : Fin 16) (rsv : BitVec 6) (off16 : BitVec 16) (h : Evolves s0 s) :
    OutEv s0 (execBz c ra rsv off16 s) := by
  unfold execBz
  with_reducible repeat' (first | assumption | apply branch_ev)

theorem execBnz_ev {s0 s : State} (c : Fin 6) (ra : Fin 16) (rsv : BitVec 6) (off16 : BitVec 16) (h : Evolves s0 s) :
    OutEv s0 (execBnz c ra rsv off16 s) := by
  unfold execBnz
  with_reducible repeat' (first | assumption | apply branch_ev)

theorem execJmp_ev {s0 s : State} (c : Fin 6) (off24 : BitVec 24) (rsv : BitVec 2) (h : Evolves s0 s) :
    OutEv s0 (execJmp c off24 rsv s) :=
  instruction_ev c _ _ _ h (fun _ hu => branchTo_ev c _ hu (clear_branch c _ hu))

theorem execCall_ev {s0 s : State} (c : Fin 6) (off24 : BitVec 24) (rsv : BitVec 2) (h : Evolves s0 s) :
    OutEv s0 (execCall c off24 rsv s) :=
  instruction_ev c _ _ _ h (fun _ hu =>
    branchTo_ev c _ (State.onCore_ev c _ hu (fun _ => coreOk_put)) (clear_branch c _ hu))

theorem execJrl_ev {s0 s : State} (c : Fin 6) (rd ra rb : Fin 16) (fn : BitVec 6) (rsv : BitVec 7) (f : Bool)
    (h : Evolves s0 s) :
    OutEv s0 (execJrl c rd ra rb fn rsv f s) := by
  refine instruction_ev c _ _ _ h (fun u hu => ?_)
  dsimp only
  split
  · exact raiseMisaligned_ev _ _ hu
  · rename_i ht
    refine branchTo_ev c _ (State.onCore_ev c _ hu (fun _ => coreOk_put)) (fun _ => ?_)
    rw [clear_three]
    simpa using ht

theorem execFence_ev {s0 s : State} (c : Fin 6) (rd ra : Fin 16) (imm12 : BitVec 12) (h : Evolves s0 s) :
    OutEv s0 (execFence c rd ra imm12 s) := by
  unfold execFence
  with_reducible repeat' (first
    | assumption | apply instruction_ev | apply State.onCore_ev | intro _ | apply coreOk_advance)

theorem execRdf_ev {s0 s : State} (c : Fin 6) (rd ra : Fin 16) (imm12 : BitVec 12) (h : Evolves s0 s) :
    OutEv s0 (execRdf c rd ra imm12 s) := by
  unfold execRdf
  with_reducible repeat' (first
    | assumption | apply instruction_ev | apply State.onCore_ev | intro _ | apply coreOk_write)

theorem execWrf_ev {s0 s : State} (c : Fin 6) (rd ra : Fin 16) (imm12 : BitVec 12) (h : Evolves s0 s) :
    OutEv s0 (execWrf c rd ra imm12 s) := by
  unfold execWrf
  with_reducible repeat' (first
    | assumption | apply instruction_ev | apply State.onCore_ev | intro _ | dsimp only | apply coreOk_advance
    | apply coreOk_same)

theorem execCrd_ev {s0 s : State} (c : Fin 6) (rd ra : Fin 16) (imm12 : BitVec 12) (h : Evolves s0 s) :
    OutEv s0 (execCrd c rd ra imm12 s) := by
  unfold execCrd
  with_reducible repeat' (first
    | assumption | apply instruction_ev | apply withSome_ev | apply State.onCore_ev | intro _ | apply coreOk_write)

theorem execCwr_ev {s0 s : State} (c : Fin 6) (rd ra : Fin 16) (imm12 : BitVec 12) (h : Evolves s0 s) :
    OutEv s0 (execCwr c rd ra imm12 s) := by
  refine instruction_ev c _ _ _ h (fun u hu => ?_)
  dsimp only
  unfold withSome
  split
  · exact State.setCore_ev c _ hu (fun i => coreOk_advance (coreOk_cregWrite (coreOk_of_ev i hu) (by assumption)))
  · exact hu

theorem execTimerCompare_ev {s0 s : State} (c : Fin 6) (h : Evolves s0 s) : OutEv s0 (execTimerCompare c s) :=
  OutEv.next (when_ev h (fun _ hu => State.onCore_ev c _ hu (fun _ hk => coreOk_fireTimer _ hk)))

theorem execEret_ev {s0 s : State} (c : Fin 6) (rd ra : Fin 16) (imm12 : BitVec 12) (h : Evolves s0 s) :
    OutEv s0 (execEret c rd ra imm12 s) := by
  refine instruction_ev c _ _ _ h (fun u hu => ?_)
  refine branchTo_ev c _ (State.setCore_ev c _ hu (fun i => ?_)) (fun i => ((coreOk_iff _ _).1 (coreOk_of_ev i hu)).2.2.1)
  obtain ⟨h1, h2, h3, h4, h5, h6⟩ := (coreOk_iff _ _).1 (coreOk_of_ev (c := c) i hu)
  exact (coreOk_iff _ _).2 ⟨h1, h2, h3, h4, clear_setBit (clear_setBit h5 (by decide)) (by decide), h6⟩

theorem execTrap_ev {s0 s : State} (c : Fin 6) (rd ra : Fin 16) (imm12 : BitVec 12) (h : Evolves s0 s) :
    OutEv s0 (execTrap c rd ra imm12 s) := by
  unfold execTrap
  with_reducible repeat' (first | assumption | apply instruction_ev | apply raise_ev | intro _)

theorem cFlush_ev {s0 s : State} (k : Nat) (h : Evolves s0 s) : Evolves s0 (cFlush k s) :=
  cRefill_ev k (State.setChan_ev k _ h (fun _ => by simp))

theorem bankMaster_ev {s0 s : State} (h : Evolves s0 s) : Evolves s0 (bankMaster s) := by
  unfold bankMaster
  with_reducible repeat' (first
    | assumption | apply State.onCore_ev | apply modeEvent_ev | intro _ | dsimp only | split | apply coreOk_advance
    | apply coreOk_same | fail_if_no_progress (refine Evolves.rest ?_ rfl rfl rfl rfl rfl rfl))

theorem resumeBanked_ev {s0 s : State} (c : Fin 6) (h : Evolves s0 s) : Evolves s0 (resumeBanked c s) := by
  unfold resumeBanked
  with_reducible repeat' (first | assumption | apply when_ev | apply State.onCore_ev | intro _ | apply coreOk_advance)

theorem dropTimed_ev {s0 s : State} (c : Fin 6) (h : Evolves s0 s) : Evolves s0 (dropTimed c s) := by
  refine h.updChans (fun hc => ?_) rfl rfl rfl rfl rfl rfl rfl rfl
  simp only [chansOk, dropTimed, Bool.and_eq_true, List.all_eq_true, decide_eq_true_eq] at hc ⊢
  exact ⟨hc.1, fun e he => hc.2 e (List.mem_of_mem_filter he)⟩

theorem bankOther_ev {s0 s : State} (c : Fin 6) (h : Evolves s0 s) : Evolves s0 (bankOther c s) := by
  unfold bankOther
  with_reducible repeat' (first
    | assumption | apply resumeBanked_ev | apply dropTimed_ev | apply forEach_ev | apply cFlush_ev | apply State.onCore_ev
    | intro _ | dsimp only | split | apply coreOk_write | apply coreOk_advance | apply coreOk_put
    | exact coreOk_of_ev (by assumption) (by assumption) | apply coreOk_same | apply coreOk_next
    | fail_if_no_progress (refine Evolves.rest ?_ rfl rfl rfl rfl rfl rfl))

theorem execBank_ev {s0 s : State} (c : Fin 6) (rd ra : Fin 16) (imm12 : BitVec 12) (h : Evolves s0 s) :
    OutEv s0 (execBank c rd ra imm12 s) := by
  unfold execBank
  with_reducible repeat' (first
    | assumption | apply instruction_ev | apply bankMaster_ev | apply bankOther_ev | apply OutEv.next | intro _ | split)

theorem cRoom_eq {s t : State} (h : t.chans = s.chans) (k : Nat) : t.cRoom k = s.cRoom k := by
  unfold State.cRoom State.chan; rw [h]

theorem placeWord_ev {s0 s : State} (c : Fin 6) (ch : Nat) (w : Word) (eom : Bool) (h : Evolves s0 s)
    (hr : s.roomFor c ch = true) : Evolves s0 (placeWord c ch w eom s) := by
  unfold placeWord when
  split
  · rename_i hd
    refine cPut_ev _ _ _ _ h ?_
    simp only [State.roomFor, Bool.or_eq_true, beq_iff_eq] at hr
    exact hr.resolve_left (fun e => by simp [discards, e] at hd)
  · exact h

theorem sendWord_ev {s0 s : State} (c : Fin 6) (ch : Nat) (w : Word) (eom : Bool) (flags : BitVec 4 → BitVec 4)
    (h : Evolves s0 s)
    (hr : s.roomFor c ch = true) : Evolves s0 (sendWord c ch w eom flags s) := by
  unfold sendWord
  dsimp only
  have hp : Evolves s0 (placeWord c ch w eom (s.onCore c (fun k => { k with flg := flags k.flg }))) :=
    placeWord_ev c ch w eom (State.onCore_ev c _ h (fun _ => coreOk_same)) hr
  split
  · exact drainLedgerDin_ev _ (State.onCore_ev c _ hp (fun _ => coreOk_same))
  · exact State.onCore_ev c _ hp (fun _ => coreOk_advance)

theorem flushedSend_ev {s0 s : State} (c : Fin 6) (flags : BitVec 4 → BitVec 4) (h : Evolves s0 s) :
    Evolves s0 (flushedSend c flags s) := by
  unfold flushedSend
  with_reducible repeat' (first
    | assumption | apply State.onCore_ev | intro _ | dsimp only | apply coreOk_advance | apply coreOk_same)

theorem lateDone_ev {s0 s : State} (c : Fin 6) (ch : Nat) (w : Word) (h : Evolves s0 s) :
    Evolves s0 (lateDone c ch w s) := by
  unfold lateDone
  with_reducible repeat' (first | assumption | apply when_ev | apply withSome_ev | apply lateSuccess_ev | intro _)

theorem chanInstr_ev {s0 s : State} (major : Nat) (c : Fin 6) (rd ra : Fin 16) (aux : BitVec 10) (ch : BitVec 8)
    (legal : Bool) (body : State → State) (h : Evolves s0 s) (evbody : ∀ a0, Evolves s0 a0 → Evolves s0 (body a0)) :
    OutEv s0 (chanInstr major c rd ra aux ch legal body s) := by
  unfold chanInstr
  with_reducible repeat' (first | assumption | apply instruction_ev)

theorem execSnd_ev {s0 s : State} (c : Fin 6) (rd ra : Fin 16) (aux : BitVec 10) (ch : BitVec 8) (h : Evolves s0 s) :
    OutEv s0 (execSnd c rd ra aux ch s) := by
  unfold execSnd
  refine chanInstr_ev _ c _ _ _ _ _ _ h (fun u hu => ?_)
  dsimp only
  with_reducible repeat' (first
    | assumption | exact raiseChan_ev _ _ _ hu | apply flushedSend_ev | apply lateDone_ev
    | exact sendWord_ev _ _ _ _ _ hu (by assumption) | exact State.onCore_ev _ _ hu (fun _ => coreOk_same) | split)

theorem execSndUnblock_ev {s0 s : State} (c : Fin 6) (h : Evolves s0 s) : OutEv s0 (execSndUnblock c s) := by
  refine OutEv.next (when_ev h (fun u hu => ?_))
  with_reducible repeat' (first
    | assumption | apply flushedSend_ev | apply lateDone_ev | exact sendWord_ev _ _ _ _ _ hu (by assumption)
    | apply when_ev | intro _ | split)

theorem execSndt_ev {s0 s : State} (c : Fin 6) (rd ra : Fin 16) (aux : BitVec 10) (ch : BitVec 8) (h : Evolves s0 s) :
    OutEv s0 (execSndt c rd ra aux ch s) := by
  unfold execSndt
  refine chanInstr_ev _ c _ _ _ _ _ _ h (fun u hu => ?_)
  dsimp only
  with_reducible repeat' (first
    | assumption | exact raiseChan_ev _ _ _ hu | apply flushedSend_ev | apply lateDone_ev
    | exact sendWord_ev _ _ _ _ _ hu (by assumption)
    | exact State.onCore_ev _ _ hu (fun _ hk => coreOk_same (coreOk_advance hk)) | split)

theorem endFlushAt_ev {s0 s : State} (c : Fin 6) (ch : Nat) (h : Evolves s0 s) : Evolves s0 (endFlushAt c ch s) := by
  unfold endFlushAt
  with_reducible repeat' (first | assumption | apply when_ev | apply endFlush_ev | intro _ | split)

theorem receive_ev {s0 s : State} (c : Fin 6) (rd : Fin 16) (h : ChWord) (flags : BitVec 4 → BitVec 4) (hs0 : Evolves s0 s) :
    Evolves s0 (receive c rd h flags s) := by
  unfold receive
  with_reducible repeat' (first
    | assumption | apply State.onCore_ev | intro _ | dsimp only | apply coreOk_write | apply coreOk_same)

theorem flushedRecv_ev {s0 s : State} (c : Fin 6) (rd : Fin 16) (flags : BitVec 4 → BitVec 4) (h : Evolves s0 s) :
    Evolves s0 (flushedRecv c rd flags s) := by
  unfold flushedRecv
  with_reducible repeat' (first
    | assumption | apply State.onCore_ev | intro _ | dsimp only | apply coreOk_write | apply coreOk_same)

theorem execRcv_ev {s0 s : State} (c : Fin 6) (rd ra : Fin 16) (aux : BitVec 10) (ch : BitVec 8) (h : Evolves s0 s) :
    OutEv s0 (execRcv c rd ra aux ch s) := by
  unfold execRcv
  with_reducible repeat' (first
    | assumption | apply chanInstr_ev | apply raiseChan_ev | apply endFlushAt_ev | apply flushedRecv_ev | apply cTake_ev
    | apply receive_ev | apply State.onCore_ev | intro _ | dsimp only | split | refine Evolves.pair ?_ (by assumption)
    | apply coreOk_same)

theorem execRcvUnblock_ev {s0 s : State} (c : Fin 6) (h : Evolves s0 s) : OutEv s0 (execRcvUnblock c s) := by
  unfold execRcvUnblock
  with_reducible repeat' (first
    | assumption | apply when_ev | apply flushedRecv_ev | apply endFlushAt_ev | apply cTake_ev | apply receive_ev
    | apply OutEv.next | intro _ | dsimp only | split | refine Evolves.pair ?_ (by assumption))

theorem execRcvt_ev {s0 s : State} (c : Fin 6) (rd ra : Fin 16) (aux : BitVec 10) (ch : BitVec 8) (h : Evolves s0 s) :
    OutEv s0 (execRcvt c rd ra aux ch s) := by
  unfold execRcvt
  with_reducible repeat' (first
    | assumption | apply chanInstr_ev | apply raiseChan_ev | apply endFlushAt_ev | apply flushedRecv_ev | apply cTake_ev
    | apply receive_ev | apply State.onCore_ev | intro _ | dsimp only | split | refine Evolves.pair ?_ (by assumption)
    | apply coreOk_advance | apply coreOk_same)

theorem execPeek_ev {s0 s : State} (c : Fin 6) (rd ra : Fin 16) (aux : BitVec 10) (ch : BitVec 8) (h : Evolves s0 s) :
    OutEv s0 (execPeek c rd ra aux ch s) := by
  unfold execPeek
  with_reducible repeat' (first
    | assumption | apply chanInstr_ev | apply raiseChan_ev | apply State.onCore_ev | intro _ | dsimp only | split
    | apply coreOk_write | apply coreOk_same)

theorem takeEvents_ev {s0 s : State} (c : Fin 6) (rd : Fin 16) (mask : BitVec 16) (keep : Bool) (h : Evolves s0 s) :
    Evolves s0 (takeEvents c rd mask keep s) := by
  unfold takeEvents
  with_reducible repeat' (first
    | assumption | apply State.onCore_ev | apply State.levelCmd_ev | apply State.levelMode_ev | intro _ | dsimp only
    | split | apply coreOk_write | apply coreOk_same)

theorem execWaite_ev {s0 s : State} (c : Fin 6) (rd ra : Fin 16) (aux : BitVec 10) (ch : BitVec 8) (h : Evolves s0 s) :
    OutEv s0 (execWaite c rd ra aux ch s) := by
  unfold execWaite
  with_reducible repeat' (first
    | assumption | apply chanInstr_ev | apply takeEvents_ev | apply State.onCore_ev | intro _ | dsimp only | split
    | apply coreOk_same)

theorem execWaiteUnblock_ev {s0 s : State} (c : Fin 6) (h : Evolves s0 s) : OutEv s0 (execWaiteUnblock c s) := by
  unfold execWaiteUnblock
  with_reducible repeat' (first | assumption | apply when_ev | apply takeEvents_ev | apply OutEv.next | intro _ | split)

theorem signal_ev {s0 s : State} (c n : Fin 6) (h : Evolves s0 s) : Evolves s0 (signal c n s) := by
  unfold signal
  with_reducible repeat' (first
    | assumption | apply resumeBanked_ev | apply State.onCore_ev | apply State.setE_ev | intro _ | apply coreOk_advance)

theorem execSig_ev {s0 s : State} (c : Fin 6) (rd ra : Fin 16) (aux : BitVec 10) (ch : BitVec 8) (h : Evolves s0 s) :
    OutEv s0 (execSig c rd ra aux ch s) := by
  unfold execSig
  with_reducible repeat' (first | assumption | apply chanInstr_ev | apply signal_ev | intro _)

theorem queueTimed_ev {s0 s : State} (c : Fin 6) (ch : Nat) (w : Word) (eom : Bool) (target : Word) (h : Evolves s0 s)
    (hr : (s.timedQ ch).length < 4) : Evolves s0 (queueTimed c ch w eom target s) := by
  unfold queueTimed
  dsimp only
  refine State.onCore_ev c _ (State.setTimedQ_ev ch _ h (fun _ => ?_)) (fun _ hk => coreOk_same (coreOk_advance hk))
  simp
  omega

theorem execTat_ev {s0 s : State} (c : Fin 6) (rd ra : Fin 16) (aux : BitVec 10) (ch : BitVec 8) (h : Evolves s0 s) :
    OutEv s0 (execTat c rd ra aux ch s) := by
  unfold execTat
  with_reducible repeat' (first
    | assumption | apply chanInstr_ev | apply raiseChan_ev | apply flushedSend_ev | apply queueTimed_ev
    | apply State.onCore_ev | intro _ | dsimp only | split | apply coreOk_same)

theorem execTatUnblock_ev {s0 s : State} (c : Fin 6) (h : Evolves s0 s) : OutEv s0 (execTatUnblock c s) := by
  unfold execTatUnblock
  with_reducible repeat' (first
    | assumption | apply when_ev | apply flushedSend_ev | apply queueTimed_ev | apply OutEv.next | intro _ | split)

theorem execTatApply_ev {s0 s : State} (ch : BitVec 8) (h : Evolves s0 s) : OutEv s0 (execTatApply ch s) := by
  refine OutEv.next (when_ev h (fun u hu => ?_))
  have he : ∀ t : TimedWord, Evolves s0 (u.setTimedQ ch.toNat ((u.timedQ ch.toNat).erase t)) := fun t =>
    State.setTimedQ_ev _ _ hu (fun hl => le_trans List.length_erase_le hl)
  split
  · exact hu
  · split
    · exact he _
    · split
      · exact hu
      · rename_i hr
        refine State.setChan_ev _ _ (he _) (fun _ => ?_)
        simp only [State.cRoom, Bool.not_eq_true', decide_eq_false_iff_not, not_lt, not_le] at hr
        simp only [List.length_append, List.length_cons, List.length_nil]
        exact Nat.succ_le_of_lt hr

theorem execTin_ev {s0 s : State} (c : Fin 6) (rd ra : Fin 16) (aux : BitVec 10) (ch : BitVec 8) (h : Evolves s0 s) :
    OutEv s0 (execTin c rd ra aux ch s) := by
  unfold execTin
  with_reducible repeat' (first
    | assumption | apply chanInstr_ev | apply raiseChan_ev | apply State.onCore_ev | intro _ | dsimp only | split
    | apply coreOk_write | apply coreOk_same)

theorem release_ev {s0 s : State} (c : Fin 6) (rd : Fin 16) (late : Bool) (h : Evolves s0 s) :
    Evolves s0 (release c rd late s) := by
  unfold release
  with_reducible repeat' (first
    | assumption | apply State.onCore_ev | intro _ | dsimp only | apply coreOk_write | apply coreOk_same)

theorem execTmark_ev {s0 s : State} (c : Fin 6) (rd ra : Fin 16) (aux : BitVec 10) (ch : BitVec 8) (h : Evolves s0 s) :
    OutEv s0 (execTmark c rd ra aux ch s) := by
  unfold execTmark
  with_reducible repeat' (first
    | assumption | apply chanInstr_ev | apply release_ev | apply State.onCore_ev | intro _ | dsimp only | split
    | apply coreOk_same)

theorem execTmarkRelease_ev {s0 s : State} (c : Fin 6) (h : Evolves s0 s) : OutEv s0 (execTmarkRelease c s) := by
  unfold execTmarkRelease
  with_reducible repeat' (first | assumption | apply when_ev | apply release_ev | apply OutEv.next | intro _ | split)

theorem execKld_ev {s0 s : State} (c : Fin 6) (rd ra : Fin 16) (aux : BitVec 10) (ch : BitVec 8) (h : Evolves s0 s) :
    OutEv s0 (execKld c rd ra aux ch s) := by
  unfold execKld
  with_reducible repeat' (first
    | assumption | apply chanInstr_ev | apply raiseChan_ev | apply raiseKey_ev | apply State.onCore_ev | intro _
    | dsimp only | split | apply coreOk_advance | fail_if_no_progress (refine Evolves.rest ?_ rfl rfl rfl rfl rfl rfl))

theorem execKst_ev {s0 s : State} (c : Fin 6) (rd ra : Fin 16) (aux : BitVec 10) (ch : BitVec 8) (h : Evolves s0 s) :
    OutEv s0 (execKst c rd ra aux ch s) := by
  unfold execKst
  with_reducible repeat' (first
    | assumption | apply chanInstr_ev | apply raiseChan_ev | apply raiseKey_ev | apply State.setSlot_ev
    | apply State.onCore_ev | intro _ | dsimp only | split | apply coreOk_advance
    | fail_if_no_progress (refine Evolves.rest ?_ rfl rfl rfl rfl rfl rfl))

theorem execKzap_ev {s0 s : State} (c : Fin 6) (rd ra : Fin 16) (aux : BitVec 10) (ch : BitVec 8) (h : Evolves s0 s) :
    OutEv s0 (execKzap c rd ra aux ch s) := by
  unfold execKzap
  with_reducible repeat' (first
    | assumption | apply chanInstr_ev | apply raiseKey_ev | apply zapSlot_ev | apply State.onCore_ev | intro _
    | dsimp only | split | apply coreOk_write)

end Sys2Proof.Machine
end

