-- ==== Sys2Proof/Laws/KeepsHost.lean ====
section
/-! SUPPORT. What boot, BANKED, the host interfaces, QUENCH, the 1149.1 port and an idle tick do keeps the invariant. -/
namespace Sys2Proof.Machine

theorem setFlip_ev {s0 s : State} (g : Nat) (h : Evolves s0 s) : Evolves s0 (setFlip g s) := by
  unfold setFlip
  with_reducible repeat' (first
    | assumption | intro _ | dsimp only | split | fail_if_no_progress (refine Evolves.rest ?_ rfl rfl rfl rfl rfl rfl))

theorem upsetLine_same (a : Nat) (several : Bool) (l : Line) :
    (upsetLine a several l).addr = l.addr ∧ (upsetLine a several l).st = l.st ∧ (upsetLine a several l).data = l.data := by
  unfold upsetLine
  split_ifs <;> exact ⟨rfl, rfl, rfl⟩

theorem applyUpset_ev {s0 s : State} (upset : Upset) (h : Evolves s0 s) : Evolves s0 (applyUpset upset s) := by
  unfold applyUpset
  split
  · exact h
  · dsimp only
    split_ifs
    · exact h
    · exact setBad_ev _ h
    · exact setFlip_ev _ h
  · rename_i c instr a several
    split_ifs
    · refine State.setLines_ev c _ h (fun l hl => ?_) (fun hw => linesWf_map _ hw (fun l => (upsetLine_same _ _ l).1)
        (fun l => (upsetLine_same _ _ l).2.2)) (fun _ hc y hy hm ha => ?_)
      · obtain ⟨x, hx, rfl⟩ := List.mem_map.1 hl
        obtain ⟨e1, e2, -⟩ := upsetLine_same a.toNat several x
        exact ⟨x, hx, e1.symm, fun ho => by rw [Line.owned, e2] at ho; exact ho⟩
      · obtain ⟨x, hx, rfl⟩ := List.mem_map.1 hy
        obtain ⟨e1, e2, e3⟩ := upsetLine_same a.toNat several x
        intro i hi
        rw [e1, e3]
        exact hc.clean hx (by rwa [e2] at hm) (by rwa [e1] at ha) i hi
    · refine State.setIlines_ev c _ h (fun l hl => ?_)
      obtain ⟨x, hx, rfl⟩ := List.mem_map.1 hl
      exact ⟨x, hx, (upsetLine_same _ _ x).1.symm⟩
    · exact h

theorem scrubRead_ev {s0 s : State} (upset : Upset) (h : Evolves s0 s) : Evolves s0 (scrubRead upset s) := by
  unfold scrubRead
  with_reducible repeat' (first
    | assumption | apply correct_ev | apply applyUpset_ev | apply when_ev | apply recordUe_ev | intro _ | dsimp only
    | split | fail_if_no_progress (refine Evolves.rest ?_ rfl rfl rfl rfl rfl rfl))

theorem execScrub_ev {s0 s : State} (upset : Upset) (h : Evolves s0 s) : OutEv s0 (execScrub upset s) := by
  unfold execScrub
  with_reducible repeat' (first | assumption | apply when_ev | apply scrubRead_ev | apply OutEv.next | intro _)

theorem beginDrain_ev {s0 s : State} (e queue : Nat) (critical : Bool) (h : Evolves s0 s) :
    Evolves s0 (beginDrain e queue critical s) := by
  unfold beginDrain
  with_reducible repeat' (first | assumption | apply State.setEngine_ev)

theorem startCancel_ev {s0 s : State} (h : Evolves s0 s) : Evolves s0 (startCancel s) := by
  unfold startCancel
  with_reducible repeat' (first | assumption | apply dropJobs_ev | apply dropPartner_ev | apply State.onStart_ev)

theorem ledgerCancel_ev {s0 s : State} (h : Evolves s0 s) : Evolves s0 (ledgerCancel s) := by
  unfold ledgerCancel
  with_reducible repeat' (first
    | assumption | apply dropJobs_ev | dsimp only | fail_if_no_progress (refine Evolves.rest ?_ rfl rfl rfl rfl rfl rfl))

theorem cancelEngine_ev {s0 s : State} (e : Nat) (img : Bytes) (h : Evolves s0 s) : Evolves s0 (cancelEngine e img s) := by
  unfold cancelEngine
  with_reducible repeat' (first
    | assumption | apply dropJobs_ev | apply kilnCancel_ev | apply ledgerCancel_ev | apply lfCancel_ev
    | apply netCancel_ev | apply nfcCancel_ev | apply aditCancel_ev | apply startCancel_ev | split)

theorem unblockFlushed_ev {s0 s : State} (e : Nat) (c : Fin 6) (h : Evolves s0 s) : Evolves s0 (unblockFlushed e c s) := by
  unfold unblockFlushed
  with_reducible repeat' (first
    | assumption | apply flushedSend_ev | apply lateDone_ev | apply flushedRecv_ev | intro _ | dsimp only | split
    | fail_if_no_progress (refine Evolves.rest ?_ rfl rfl rfl rfl rfl rfl))

theorem cancel_ev {s0 s : State} (d : Dispatched) (critical : Bool) (h : Evolves s0 s) :
    Evolves s0 (cancel d critical s) := by
  unfold cancel
  with_reducible repeat' (first
    | assumption | apply when_ev | apply lateSuccess_ev | apply beginDrain_ev | apply cancelEngine_ev
    | apply flushEngine_ev | apply forEach_ev | apply unblockFlushed_ev | apply endFlush_ev | intro _ | dsimp only | split)

theorem timeOut_ev {s0 s : State} (c : Fin 8) (h : Evolves s0 s) : Evolves s0 (timeOut c s) := by
  unfold timeOut
  with_reducible repeat' (first
    | assumption | apply cancel_ev | apply tally_ev | apply State.onQueue_ev | apply sweepGuilty_ev | apply boundary_ev
    | apply State.setCage_ev | dsimp only | split)

theorem execTimeout_ev {s0 s : State} (cage : Fin 8) (h : Evolves s0 s) : OutEv s0 (execTimeout cage s) := by
  unfold execTimeout
  with_reducible repeat' (first | assumption | apply when_ev | apply timeOut_ev | apply OutEv.next | intro _)

theorem guiltyReset_ev {s0 s : State} (e n : Nat) (h : Evolves s0 s) : Evolves s0 (guiltyReset e n s) := by
  unfold guiltyReset
  with_reducible repeat' (first
    | assumption | apply resetServed_ev | apply dropFetched_ev | apply State.putQueue_ev | apply sweepGuilty_ev
    | apply passCages_ev | intro _ | dsimp only | split
    | fail_if_no_progress (refine Evolves.rest ?_ rfl rfl rfl rfl rfl rfl))

theorem criticalHang_ev {s0 s : State} (e : Nat) (h : Evolves s0 s) : Evolves s0 (criticalHang e s) := by
  unfold criticalHang
  with_reducible repeat' (first
    | assumption | apply forEach_ev | apply tally_ev | apply freeEngine_ev | apply State.setCage_ev
    | apply requestReset_ev | intro _ | dsimp only | split)

theorem hangOf_ev {s0 s : State} (e : Nat) (h : Evolves s0 s) : Evolves s0 (hangOf e s) := by
  unfold hangOf
  with_reducible repeat' (first
    | assumption | apply State.setEngine_ev | apply criticalHang_ev | apply guiltyReset_ev | intro _ | dsimp only | split
    | fail_if_no_progress (refine Evolves.rest ?_ rfl rfl rfl rfl rfl rfl))

theorem hang_ev {s0 s : State} (e : Nat) (h : Evolves s0 s) : Evolves s0 (hang e s) := by
  unfold hang
  with_reducible repeat' (first | assumption | apply when_ev | apply hangOf_ev | intro _ | dsimp only | split)

theorem execHang_ev {s0 s : State} (engine : Nat) (h : Evolves s0 s) : OutEv s0 (execHang engine s) := by
  unfold execHang
  with_reducible repeat' (first | assumption | apply when_ev | apply hang_ev | apply OutEv.next | intro _)

theorem scanRegs_ev {s0 s : State} (powerOn : Bool) (cause detail : Nat) (h : Evolves s0 s) :
    Evolves s0 (scanRegs powerOn cause detail s) := by
  unfold scanRegs
  dsimp only
  refine State.setRbit_ev _ _ _ (State.setReg_ev _ _ (State.incFld_ev _ _ _ ?_))
  exact h.updRegs (fun hw => tableWf_filter _ hw) rfl rfl rfl rfl rfl rfl rfl rfl rfl

/-- Empty data caches. -/

theorem coherent_empty {m : Memory} (h : m.dcache = Vector.replicate 6 []) : Coherent m := by
  have e : ∀ c : Fin 6, m.dcache.get c = [] := fun c => by
    rw [h]
    fin_cases c <;> rfl
  refine ⟨fun c l hl => ?_, fun c => ?_, fun c l hl => ?_⟩
  · rw [e] at hl
    cases hl
  · rw [e]
    exact ⟨List.nodup_nil, by simp⟩
  · rw [e] at hl
    cases hl

/-- Memory from which bytes are lost, with empty caches. -/

theorem lostMemory_ev {s0 s t : State} (h : Evolves s0 s) (p : Nat × Byte → Bool) (e1 : t.pending = s.pending)
    (e2 : t.mem.cells = s.mem.cells.filter p) (e3 : t.mem.host = s.mem.host) (e4 : t.mem.dcache = Vector.replicate 6 [])
    (e6 : t.regs = s.regs) (e7 : t.cores = s.cores) (e8 : t.chans = s.chans) (e10 : t.fuses = s.fuses) : Evolves s0 t := by
  refine h.all e1 (fun hw => ?_) (by rw [e6]; exact id) (by rw [e7]; exact id) (by rw [e8]; exact id)
      (fun _ => coherent_empty e4) e10
  simp only [Memory.wf, e2, e3, Bool.and_eq_true] at hw ⊢
  exact ⟨tableWf_filter _ hw.1, hw.2⟩

theorem scanMemory_ev {s0 s : State} (powerOn : Bool) (h : Evolves s0 s) : Evolves s0 (scanMemory powerOn s) := by
  unfold scanMemory
  dsimp only
  exact lostMemory_ev h _ rfl rfl rfl rfl rfl rfl rfl rfl

theorem scanHost_ev {s0 s : State} (powerOn : Bool) (hsel : BitVec 2) (h : Evolves s0 s) :
    Evolves s0 (scanHost powerOn hsel s) := by
  unfold scanHost
  with_reducible repeat' (first
    | assumption | dsimp only | split | fail_if_no_progress (refine Evolves.rest ?_ rfl rfl rfl rfl rfl rfl))

theorem scanClock_ev {s0 s : State} (powerOn : Bool) (h : Evolves s0 s) : Evolves s0 (scanClock powerOn s) := by
  unfold scanClock
  with_reducible repeat' (first
    | assumption | dsimp only | split | fail_if_no_progress (refine Evolves.rest ?_ rfl rfl rfl rfl rfl rfl))

theorem scanAssay_ev {s0 s : State} (powerOn : Bool) (h : Evolves s0 s) : Evolves s0 (scanAssay powerOn s) := by
  unfold scanAssay
  with_reducible repeat' (first
    | assumption | dsimp only | split | fail_if_no_progress (refine Evolves.rest ?_ rfl rfl rfl rfl rfl rfl))

theorem coresReset_ok : ∀ c : Fin 6, coreOk c (coresReset.get c) = true := by decide

theorem scanBlocks_ev {s0 s : State} (h : Evolves s0 s) : Evolves s0 (scanBlocks s) :=
  h.all rfl id id (fun _ => coresReset_ok) (fun _ => rfl) id rfl

theorem scanStores_ev {s0 s : State} (h : Evolves s0 s) : Evolves s0 (scanStores s) := by
  unfold scanStores
  with_reducible repeat' (first
    | assumption | apply kilnClear_ev | dsimp only | fail_if_no_progress (refine Evolves.rest ?_ rfl rfl rfl rfl rfl rfl))

theorem enterScan_ev {s0 s : State} (powerOn : Bool) (cause detail : Nat) (hsel : BitVec 2) (h : Evolves s0 s) :
    Evolves s0 (enterScan powerOn cause detail hsel s) := by
  unfold enterScan
  with_reducible repeat' (first
    | assumption | apply scanClock_ev | apply tearFuse_ev | apply cutFlash_ev | apply scanHost_ev | apply scanAssay_ev
    | apply scanRegs_ev | apply scanStores_ev | apply scanBlocks_ev | apply scanMemory_ev | dsimp only
    | fail_if_no_progress (refine Evolves.rest ?_ rfl rfl rfl rfl rfl rfl))

theorem powerOn_ev {s0 s : State} (resetNHigh : Bool) (hsel : BitVec 2) (h : Evolves s0 s) :
    Evolves s0 (powerOn resetNHigh hsel s) := by
  unfold powerOn
  with_reducible repeat' (first
    | assumption | apply enterScan_ev | intro _ | dsimp only | split
    | fail_if_no_progress (refine Evolves.rest ?_ rfl rfl rfl rfl rfl rfl))

theorem execSupplyValid_ev {s0 s : State} (supply : Fin 4) (pins : ResetPins) (h : Evolves s0 s) :
    OutEv s0 (execSupplyValid supply pins s) := by
  unfold execSupplyValid
  with_reducible repeat' (first
    | assumption | apply when_ev | apply powerOn_ev | apply OutEv.next | exact OutEv.fault | intro _ | dsimp only | split
    | fail_if_no_progress (refine Evolves.rest ?_ rfl rfl rfl rfl rfl rfl))

theorem alwaysOnReset_ev {s0 s : State} (h : Evolves s0 s) : Evolves s0 (alwaysOnReset s) :=
  h.updRegs (fun hw => tableWf_filter _ hw) rfl rfl rfl rfl rfl rfl rfl rfl rfl

theorem execAlwaysOnPowerUp_ev {s0 s : State} (h : Evolves s0 s) : OutEv s0 (execAlwaysOnPowerUp s) := by
  unfold execAlwaysOnPowerUp
  with_reducible repeat' (first | assumption | apply when_ev | apply alwaysOnReset_ev | apply OutEv.next)

theorem execResetEnterScan_ev {s0 s : State} (resetNHigh : Bool) (hsel : BitVec 2) (h : Evolves s0 s) :
    OutEv s0 (execResetEnterScan resetNHigh hsel s) := by
  unfold execResetEnterScan
  with_reducible repeat' (first
    | assumption | apply withSome_ev | apply when_ev | apply enterScan_ev | apply OutEv.next | intro _)

theorem loadMode_ev {s0 s : State} (h : Evolves s0 s) : Evolves s0 (loadMode s) := by
  unfold loadMode
  with_reducible repeat' (first
    | assumption | dsimp only | split | fail_if_no_progress (refine Evolves.rest ?_ rfl rfl rfl rfl rfl rfl))

theorem kilnStart_ev {s0 s : State} (h : Evolves s0 s) : Evolves s0 (kilnStart s) := by
  unfold kilnStart
  with_reducible repeat' (first
    | assumption | apply fillFixed_ev | apply when_ev | apply loadRuntime_ev | dsimp only
    | fail_if_no_progress (refine Evolves.rest ?_ rfl rfl rfl rfl rfl rfl))

theorem coreOk_reset {c : Fin 6} {v : Word} {run : Run} (hc : c.val ≠ 5) (hv : clear v 0xFF = true) :
    coreOk c (Core.reset v run) = true :=
  (coreOk_iff _ _).2 ⟨rfl, clear_vector hv, show clear 0 3 = true by decide, hv, show clear 0 0xFFC0 = true by decide,
    fun e => absurd e hc⟩

theorem releaseCore_ev {s0 s : State} (base : Nat) (hd : Bytes) (c : Fin 6) (h : Evolves s0 s) (hc : c.val ≠ 5) :
    Evolves s0 (releaseCore base hd c s) := by
  unfold releaseCore
  dsimp only
  split
  · exact h
  · exact State.setReg_ev _ _ (State.setCore_ev c _ h (fun _ => coreOk_reset hc (clear_mask _ _ _ (by decide))))

theorem releaseCores_ev {s0 s : State} (h : Evolves s0 s) : Evolves s0 (releaseCores s) := by
  unfold releaseCores
  split
  · exact h
  · simp only [forEach, List.foldl]
    exact releaseCore_ev _ _ 4 (releaseCore_ev _ _ 3 (releaseCore_ev _ _ 2 (releaseCore_ev _ _ 1 h (by decide)) (by decide))
      (by decide)) (by decide)

theorem endScan_ev {s0 s : State} (h : Evolves s0 s) : Evolves s0 (endScan s) := by
  unfold endScan
  with_reducible repeat' (first
    | assumption | apply commit_ev | apply loadMode_ev | apply releaseCores_ev | apply forEach_ev | apply hostEvent_ev
    | apply holdAll_ev | apply startLoad_ev | apply kilnStart_ev | intro _ | dsimp only | split)

theorem scanEnds_ev {s0 s : State} (h : Evolves s0 s) : Evolves s0 (scanEnds s) := by
  unfold scanEnds
  with_reducible repeat' (first | assumption | apply when_ev | apply endScan_ev)

theorem execLedgerScanDone_ev {s0 s : State} (h : Evolves s0 s) : OutEv s0 (execLedgerScanDone s) := by
  unfold execLedgerScanDone
  with_reducible repeat' (first
    | assumption | apply when_ev | apply scanEnds_ev | apply scanDone_ev | apply OutEv.next | intro _)

theorem chooseImage_ev {s0 s : State} (h : Evolves s0 s) : Evolves s0 (chooseImage s) := by
  unfold chooseImage
  with_reducible repeat' (first
    | assumption | apply stageOne_ev | apply scanEnds_ev | apply State.setFld_ev | apply State.setRbit_ev | dsimp only | split
    | fail_if_no_progress (refine Evolves.rest ?_ rfl rfl rfl rfl rfl rfl))

theorem execImageChosen_ev {s0 s : State} (h : Evolves s0 s) : OutEv s0 (execImageChosen s) := by
  unfold execImageChosen
  with_reducible repeat' (first | assumption | apply when_ev | apply chooseImage_ev | apply OutEv.next)

theorem bankBlocks_ev {s0 s : State} (h : Evolves s0 s) : Evolves s0 (bankBlocks s) :=
  h.all rfl id (fun hw => tableWf_filter _ hw) id (fun _ => rfl) id rfl

theorem setLink_ev {s0 s : State} (up : Bool) (speed : BitVec 2) (h : Evolves s0 s) : Evolves s0 (setLink up speed s) := by
  unfold setLink
  with_reducible repeat' (first
    | assumption | apply hostEvent_ev | dsimp only | split
    | fail_if_no_progress (refine Evolves.rest ?_ rfl rfl rfl rfl rfl rfl))

theorem enterBanked_ev {s0 s : State} (h : Evolves s0 s) : Evolves s0 (enterBanked s) := by
  unfold enterBanked
  with_reducible repeat' (first
    | assumption | apply bankBlocks_ev | apply flushAllCaches_ev | apply bleBank_ev | apply aditSleep_ev
    | apply setLink_ev | apply commit_ev | apply capHeld_ev | intro _ | dsimp only | split
    | fail_if_no_progress (refine Evolves.rest ?_ rfl rfl rfl rfl rfl rfl))

theorem execT05_ev {s0 s : State} (h : Evolves s0 s) : OutEv s0 (execT05 s) := by
  unfold execT05
  with_reducible repeat' (first
    | assumption | apply when_ev | apply flashResume_ev | apply enterBanked_ev | apply OutEv.next | intro _ | split)

theorem bankMemory_ev {s0 s : State} (h : Evolves s0 s) : Evolves s0 (bankMemory s) := by
  unfold bankMemory
  dsimp only
  exact lostMemory_ev h _ rfl rfl rfl rfl rfl rfl rfl rfl

theorem completeEntry_ev {s0 s : State} (h : Evolves s0 s) : Evolves s0 (completeEntry s) := by
  unfold completeEntry
  with_reducible repeat' (first
    | assumption | apply bankMemory_ev | apply takeWake_ev | intro _ | dsimp only | split
    | fail_if_no_progress (refine Evolves.rest ?_ rfl rfl rfl rfl rfl rfl))

theorem execCompletionOfEntry_ev {s0 s : State} (h : Evolves s0 s) : OutEv s0 (execCompletionOfEntry s) := by
  unfold execCompletionOfEntry
  with_reducible repeat' (first
    | assumption | apply when_ev | apply completeEntry_ev | apply OutEv.next | exact OutEv.fault | intro _ | dsimp only
    | split)

theorem State.onAssay_ev {s0 s : State} (f : Assay → Assay) (h : Evolves s0 s) : Evolves s0 (State.onAssay s f) := by
  unfold State.onAssay
  with_reducible repeat' (first | assumption | fail_if_no_progress (refine Evolves.rest ?_ rfl rfl rfl rfl rfl rfl))

theorem wakeMode_ev {s0 s : State} (h : Evolves s0 s) : Evolves s0 (wakeMode s) := by
  unfold wakeMode
  with_reducible repeat' (first
    | assumption | apply when_ev | apply wantModeRecord_ev | apply commit_ev | dsimp only | split
    | fail_if_no_progress (refine Evolves.rest ?_ rfl rfl rfl rfl rfl rfl))

theorem wakeQuench_ev {s0 s : State} (h : Evolves s0 s) : Evolves s0 (wakeQuench s) := by
  unfold wakeQuench
  with_reducible repeat' (first
    | assumption | apply when_ev | apply modeEvent_ev | apply State.satFld_ev | apply State.onAssay_ev | intro _)

theorem coreOk_wake {c : Fin 6} {k : Core} (h : coreOk c k = true) : coreOk c (wakeCore k) = true := by
  unfold wakeCore
  split
  · exact h
  · exact coreOk_start h

theorem wakeBlocks_ev {s0 s : State} (h : Evolves s0 s) : Evolves s0 (wakeBlocks s) := by
  unfold wakeBlocks
  dsimp only
  refine Evolves.rest (aditResume_ev (startLoad_ev (kilnStart_ev (entRun_ev (kilnClear_ev ?_))))) rfl rfl rfl rfl rfl rfl
  refine h.updCores (fun _ hw c => ?_) rfl rfl rfl rfl rfl rfl rfl rfl rfl
  rw [get_map]
  exact coreOk_wake (hw c)

theorem wakeReset_ev {s0 s : State} (h : Evolves s0 s) : Evolves s0 (wakeReset s) := by
  unfold wakeReset
  with_reducible repeat' (first
    | assumption | apply withSome_ev | apply requestReset_ev | intro _ | dsimp only
    | fail_if_no_progress (refine Evolves.rest ?_ rfl rfl rfl rfl rfl rfl))

theorem wakeLock_ev {s0 s : State} (h : Evolves s0 s) : Evolves s0 (wakeLock s) := by
  unfold wakeLock
  with_reducible repeat' (first | assumption | apply when_ev | apply loseLock_ev | intro _ | dsimp only | split)

theorem wakeComplete_ev {s0 s : State} (h : Evolves s0 s) : Evolves s0 (wakeComplete s) := by
  unfold wakeComplete
  with_reducible repeat' (first
    | assumption | apply wakeReset_ev | apply wakeLock_ev | apply wakeMode_ev | apply wakeQuench_ev | apply wakeBlocks_ev
    | intro _ | dsimp only | split)

theorem execWakeComplete_ev {s0 s : State} (h : Evolves s0 s) : OutEv s0 (execWakeComplete s) := by
  unfold execWakeComplete
  with_reducible repeat' (first | assumption | apply when_ev | apply wakeComplete_ev | apply OutEv.next)

theorem hostRead_ev {s0 s : State} (who : Req) (a : Nat) (h : Evolves s0 s) : OptPairEv s0 (hostRead who a s) := by
  unfold hostRead
  with_reducible repeat' (first
    | assumption | apply readSram_ev | apply regRead_ev | apply OptPairEv.some | exact OptPairEv.none | split
    | refine Evolves.pair ?_ (by assumption))

theorem hostReadErr_ev {s0 s : State} (a : Nat) (h : Evolves s0 s) : Evolves s0 (hostReadErr a s) := by
  unfold hostReadErr
  with_reducible repeat' (first | assumption | apply readSram_ev | split)

theorem hostWrite_ev {s0 s : State} (who : Req) (a : Nat) (v : Word) (h : Evolves s0 s) :
    OptEv s0 (hostWrite who a v s) := by
  unfold hostWrite
  with_reducible repeat' (first
    | assumption | apply writeSram_ev | apply regWrite_ev | apply OptEv.some | apply OptPairEv.some | exact OptEv.none
    | exact OptPairEv.none | intro _ | dsimp only | split | refine Evolves.pair ?_ (by assumption)
    | refine OptEv.get ?_ (by assumption) | fail_if_no_progress (refine Evolves.rest ?_ rfl rfl rfl rfl rfl rfl))

theorem hostWriteErr_ev {s0 s : State} (a : Nat) (v : Word) (h : Evolves s0 s) : Evolves s0 (hostWriteErr a v s) := by
  unfold hostWriteErr
  with_reducible repeat' (first
    | assumption | apply writeSram_ev | intro _ | dsimp only | split | refine Evolves.pair ?_ (by assumption))

theorem hostReads_ev {s0 s : State} (who : Req) (n a : Nat) (h : Evolves s0 s) : Evolves s0 (hostReads who n a s).2.2 := by
  induction n generalizing s a with
  | zero => unfold hostReads; exact h
  | succ n ih =>
    unfold hostReads
    with_reducible repeat' (first
      | apply ih | assumption | apply hostRead_ev | apply hostReadErr_ev | dsimp only | split
      | refine OptPairEv.get ?_ (by assumption))

theorem hostWrites_ev {s0 s : State} (who : Sys2Proof.Req) (ws : List Word) (a : Nat) (h : Evolves s0 s) :
    Evolves s0 (hostWrites who ws a s).2 := by
  induction ws generalizing a s with
  | nil => exact h
  | cons w ws ih =>
    unfold hostWrites
    split
    · exact hostWriteErr_ev _ _ h
    · exact ih _ (OptEv.get (hostWrite_ev who a w h) (by assumption))

theorem pcieError_ev {s0 s : State} (h : Evolves s0 s) : Evolves s0 (pcieError s) := by
  unfold pcieError
  with_reducible repeat' (first | assumption | apply answer_ev | apply hostEvent_ev)

theorem pcieControl_ev {s0 s : State} (a len : Nat) (write : Option (List Byte)) (h : Evolves s0 s) :
    Evolves s0 (pcieControl a len write s) := by
  unfold pcieControl
  with_reducible repeat' (first
    | assumption | apply pcieError_ev | apply hostReads_ev | apply answer_ev | apply hostWrites_ev | dsimp only | split
    | refine Evolves.pair ?_ (by assumption) | refine Evolves.triple ?_ (by assumption))

theorem pcieSram_ev {s0 s : State} (a len : Nat) (write : Option (List Byte)) (h : Evolves s0 s) :
    Evolves s0 (pcieSram a len write s) := by
  unfold pcieSram
  with_reducible repeat' (first
    | assumption | apply pcieError_ev | apply readSram_ev | apply answer_ev | apply writeSram_ev | dsimp only | split
    | refine Evolves.pair ?_ (by assumption))

theorem pcieFlush_ev {s0 s : State} (h : Evolves s0 s) : Evolves s0 (pcieFlush s) := by
  unfold pcieFlush
  with_reducible repeat' (first
    | assumption | apply forEach_ev | apply raiseVector_ev | intro _ | dsimp only | split
    | fail_if_no_progress (refine Evolves.rest ?_ rfl rfl rfl rfl rfl rfl))

theorem msixWrite_ev {s0 s : State} (off : Nat) (v : Word) (h : Evolves s0 s) : Evolves s0 (msixWrite off v s) := by
  unfold msixWrite
  with_reducible repeat' (first
    | assumption | dsimp only | split | fail_if_no_progress (refine Evolves.rest ?_ rfl rfl rfl rfl rfl rfl))

theorem pcieMsix_ev {s0 s : State} (off len : Nat) (write : Option (List Byte)) (h : Evolves s0 s) :
    Evolves s0 (pcieMsix off len write s) := by
  unfold pcieMsix
  with_reducible repeat' (first
    | assumption | apply answer_ev | apply pcieFlush_ev | apply forEach_ev | apply msixWrite_ev | intro _ | dsimp only
    | split)

theorem pcieServe_ev {s0 s : State} (tgt : PcieTo) (len : Nat) (write : Option (List Byte)) (h : Evolves s0 s) :
    Evolves s0 (pcieServe tgt len write s) := by
  unfold pcieServe
  with_reducible repeat' (first
    | assumption | apply pcieControl_ev | apply pcieSram_ev | apply pcieMsix_ev | apply answer_ev | apply pcieFlush_ev
    | dsimp only | split | fail_if_no_progress (refine Evolves.rest ?_ rfl rfl rfl rfl rfl rfl))

theorem holdAccess_ev {s0 s : State} (x : HostWait) (h : Evolves s0 s) : Evolves s0 (holdAccess x s) := by
  unfold holdAccess
  with_reducible repeat' (first
    | assumption | dsimp only | fail_if_no_progress (refine Evolves.rest ?_ rfl rfl rfl rfl rfl rfl))

theorem execPcieAccess_ev {s0 s : State} (tgt : PcieTo) (len : Nat) (write : Option (List Byte)) (h : Evolves s0 s) :
    OutEv s0 (execPcieAccess tgt len write s) := by
  unfold execPcieAccess
  with_reducible repeat' (first
    | assumption | apply when_ev | apply holdAccess_ev | apply pcieServe_ev | apply OutEv.next | intro _ | split)

theorem execPerstN_ev {s0 s : State} (h : Evolves s0 s) : OutEv s0 (execPerstN s) := by
  unfold execPerstN
  with_reducible repeat' (first
    | assumption | apply when_ev | apply setLink_ev | apply OutEv.next | intro _ | dsimp only
    | fail_if_no_progress (refine Evolves.rest ?_ rfl rfl rfl rfl rfl rfl))

theorem execPcieLinkChange_ev {s0 s : State} (linked : Bool) (speed : BitVec 2) (h : Evolves s0 s) :
    OutEv s0 (execPcieLinkChange linked speed s) := by
  unfold execPcieLinkChange
  with_reducible repeat' (first | assumption | apply when_ev | apply setLink_ev | apply OutEv.next | intro _)

theorem serialInstall_ev {s0 s : State} (len : BitVec 8) (addr : BitVec 32) (h : Evolves s0 s) :
    Evolves s0 (serialInstall len addr s).2.2 := by
  unfold serialInstall
  with_reducible repeat' (first | assumption | apply rescue_ev | dsimp only | split)

theorem serialServe_ev {s0 s : State} (uart quad : Bool) (r : Serial) (h : Evolves s0 s) :
    Evolves s0 (serialServe uart quad r s).2.2 := by
  unfold serialServe
  with_reducible repeat' (first
    | assumption | apply hostReads_ev | apply hostWrites_ev | apply serialInstall_ev | dsimp only | split
    | refine Evolves.pair ?_ (by assumption) | refine Evolves.triple ?_ (by assumption))

theorem reply_ev {s0 s : State} (uart : Bool) (r : Serial) (rcode : Nat) (ws : List Word) (h : Evolves s0 s) :
    Evolves s0 (reply uart r rcode ws s) := by
  unfold reply
  with_reducible repeat' (first
    | assumption | apply answer_ev | intro _ | dsimp only | split
    | fail_if_no_progress (refine Evolves.rest ?_ rfl rfl rfl rfl rfl rfl))

theorem serialAnswer_ev {s0 s : State} (uart quad : Bool) (r : Serial) (h : Evolves s0 s) :
    Evolves s0 (serialAnswer uart quad r s) := by
  unfold serialAnswer
  with_reducible repeat' (first
    | assumption | apply serialServe_ev | apply reply_ev | intro _ | dsimp only | split
    | refine Evolves.pair ?_ (by assumption) | refine Evolves.triple ?_ (by assumption))

theorem serialLate_ev {s0 s : State} (quad : Bool) (r : Serial) (h : Evolves s0 s) : Evolves s0 (serialLate quad r s) := by
  unfold serialLate
  with_reducible repeat' (first | assumption | apply serialServe_ev | apply State.setReg_ev)

theorem uartErr_ev {s0 s : State} (h : Evolves s0 s) : Evolves s0 (uartErr s) := by
  unfold uartErr
  with_reducible repeat' (first
    | assumption | apply hostEvent_ev | dsimp only | fail_if_no_progress (refine Evolves.rest ?_ rfl rfl rfl rfl rfl rfl))

theorem serialArrive_ev {s0 s : State} (uart quad : Bool) (r : Serial) (h : Evolves s0 s) :
    Evolves s0 (serialArrive uart quad r s) := by
  unfold serialArrive
  with_reducible repeat' (first
    | assumption | apply uartErr_ev | apply holdAccess_ev | apply when_ev | apply serialAnswer_ev | intro _ | dsimp only
    | split | fail_if_no_progress (refine Evolves.rest ?_ rfl rfl rfl rfl rfl rfl))

theorem badHeader_ev {s0 s : State} (uart : Bool) (r : Serial) (h : Evolves s0 s) : Evolves s0 (badHeader uart r s) := by
  unfold badHeader
  with_reducible repeat' (first
    | assumption | apply uartErr_ev | apply when_ev | apply reply_ev | intro _ | dsimp only | split)

theorem serialHeader_ev {s0 s : State} (uart quad : Bool) (r : Serial) (hcrc : BitVec 16) (h : Evolves s0 s) :
    Evolves s0 (serialHeader uart quad r hcrc s) := by
  unfold serialHeader
  with_reducible repeat' (first | assumption | apply serialArrive_ev | apply badHeader_ev | intro _ | dsimp only | split)

theorem execSerialRead_ev {s0 s : State} (uart quad : Bool) (len : BitVec 8) (addr : BitVec 32) (hcrc : BitVec 16) (h : Evolves s0 s) :
    OutEv s0 (execSerialRead uart quad len addr hcrc s) := by
  unfold execSerialRead
  with_reducible repeat' (first
    | assumption | apply when_ev | apply serialHeader_ev | apply OutEv.next | exact OutEv.fault | intro _ | dsimp only
    | split)

theorem execSerialWrite_ev {s0 s : State} (uart quad : Bool) (addr : BitVec 32) (words : List Word) (hcrc dcrc : BitVec 16) (h : Evolves s0 s) :
    OutEv s0 (execSerialWrite uart quad addr words hcrc dcrc s) := by
  unfold execSerialWrite
  with_reducible repeat' (first
    | assumption | apply when_ev | apply reply_ev | apply serialHeader_ev | apply OutEv.next | exact OutEv.fault | intro _
    | dsimp only | split)

theorem execRescueInstall_ev {s0 s : State} (src : RescueBy) (h : Evolves s0 s) : OutEv s0 (execRescueInstall src s) := by
  unfold execRescueInstall
  with_reducible repeat' (first
    | assumption | apply when_ev | apply rescueWrite_ev | apply serialHeader_ev | apply OutEv.next | exact OutEv.fault
    | intro _ | dsimp only | split | fail_if_no_progress (refine Evolves.rest ?_ rfl rfl rfl rfl rfl rfl))

theorem pendWaiting_ev {s0 s : State} (h : Evolves s0 s) : Evolves s0 (pendWaiting s) := by
  unfold pendWaiting
  with_reducible repeat' (first
    | assumption | dsimp only | fail_if_no_progress (refine Evolves.rest ?_ rfl rfl rfl rfl rfl rfl))

theorem execPending_ev {s0 s : State} (quad : Bool) (req : Option Serial) (h : Evolves s0 s) :
    OutEv s0 (execPending quad req s) := by
  unfold execPending
  with_reducible repeat' (first
    | assumption | apply when_ev | apply reply_ev | apply holdAccess_ev | apply serialLate_ev | apply pendWaiting_ev
    | apply OutEv.next | exact OutEv.fault | intro _ | dsimp only | split
    | fail_if_no_progress (refine Evolves.rest ?_ rfl rfl rfl rfl rfl rfl))

theorem execSpiCut_ev {s0 s : State} (quad : Bool) (req : Option Serial) (h : Evolves s0 s) :
    OutEv s0 (execSpiCut quad req s) := by
  unfold execSpiCut
  with_reducible repeat' (first
    | assumption | apply when_ev | apply withSome_ev | apply hostEvent_ev | apply serialArrive_ev | apply OutEv.next
    | intro _)

theorem execUartErr_ev {s0 s : State} (h : Evolves s0 s) : OutEv s0 (execUartErr s) := by
  unfold execUartErr
  with_reducible repeat' (first | assumption | apply when_ev | apply uartErr_ev | apply OutEv.next)

theorem serveWaiting_ev {s0 s : State} (h : Evolves s0 s) : Evolves s0 (serveWaiting s) := by
  unfold serveWaiting
  with_reducible repeat' (first
    | assumption | apply forEach_ev | apply pcieServe_ev | apply serialLate_ev | apply serialAnswer_ev | intro _
    | dsimp only | split | fail_if_no_progress (refine Evolves.rest ?_ rfl rfl rfl rfl rfl rfl))

theorem OptEv.getD {s0 s : State} {o : Option State} (h : OptEv s0 o) (h' : Evolves s0 s) : Evolves s0 (o.getD s) := by
  cases o with
  | none => exact h'
  | some t => exact h t rfl

theorem writeAny_ev {s0 s : State} (who : Sys2Proof.Req) (a : Nat) (v : Word) (h : Evolves s0 s) :
    Evolves s0 (writeAny who a v s) := by
  unfold writeAny
  split
  · split
    · split
      · exact privWrite_ev _ _ _ h
      · exact h
    · split
      · exact h
      · exact OptEv.getD (regWrite_ev _ _ _ h) h
  · split
    · exact OptEv.getD (regWrite_ev _ _ _ h) h
    · exact h

theorem execRegisterWrite_ev {s0 s : State} (who : Req) (addr : BitVec 32) (value : Word) (h : Evolves s0 s) :
    OutEv s0 (execRegisterWrite who addr value s) := by
  unfold execRegisterWrite
  with_reducible repeat' (first | assumption | apply when_ev | apply writeAny_ev | apply OutEv.next | intro _)

theorem quenchIgnored_ev {s0 s : State} (h : Evolves s0 s) : Evolves s0 (quenchIgnored s) := by
  unfold quenchIgnored
  with_reducible repeat' (first | assumption | apply modeEvent_ev | apply State.satFld_ev | apply withdraw_ev)

theorem ballHolds_ev {s0 s : State} (h : Evolves s0 s) : Evolves s0 (ballHolds s) := by
  unfold ballHolds
  with_reducible repeat' (first
    | assumption | apply when_ev | apply State.setRbit_ev | apply State.onAssay_ev | intro _ | dsimp only | split
    | fail_if_no_progress (refine Evolves.rest ?_ rfl rfl rfl rfl rfl rfl))

theorem ballFalls_ev {s0 s : State} (h : Evolves s0 s) : Evolves s0 (ballFalls s) := by
  unfold ballFalls
  with_reducible repeat' (first
    | assumption | apply ballHolds_ev | apply startFreeze_ev | apply State.onAssay_ev | apply quenchIgnored_ev | intro _
    | dsimp only | split | fail_if_no_progress (refine Evolves.rest ?_ rfl rfl rfl rfl rfl rfl))

theorem execQuenchBallFall_ev {s0 s : State} (h : Evolves s0 s) : OutEv s0 (execQuenchBallFall s) := by
  unfold execQuenchBallFall
  with_reducible repeat' (first
    | assumption | apply when_ev | apply ballFalls_ev | apply State.onAssay_ev | apply OutEv.next | intro _)

theorem execQuenchBallRise_ev {s0 s : State} (h : Evolves s0 s) : OutEv s0 (execQuenchBallRise s) := by
  unfold execQuenchBallRise
  with_reducible repeat' (first | assumption | apply State.onAssay_ev | apply OutEv.next)

theorem execQuenchRequest_ev {s0 s : State} (who : Req) (key : BitVec 16) (h : Evolves s0 s) :
    OutEv s0 (execQuenchRequest who key s) := by
  unfold execQuenchRequest
  with_reducible repeat' (first | assumption | apply when_ev | apply assayCtl_ev | apply OutEv.next | intro _)

theorem noteFreeze_ev {s0 s : State} (h : Evolves s0 s) : Evolves s0 (noteFreeze s) := by
  unfold noteFreeze
  with_reducible repeat' (first | assumption | apply State.setReg_ev)

theorem freezeProgram_ev {s0 s : State} (addr src len : Nat) (h : Evolves s0 s) :
    Evolves s0 (freezeProgram addr src len s) := by
  unfold freezeProgram
  with_reducible repeat' (first
    | assumption | apply unitInWork_ev | apply programUnits_ev | intro _ | dsimp only | split
    | refine Evolves.pair ?_ (by assumption) | fail_if_no_progress (refine Evolves.rest ?_ rfl rfl rfl rfl rfl rfl))

theorem freezeFlash_ev {s0 s : State} (h : Evolves s0 s) : Evolves s0 (freezeFlash s) := by
  unfold freezeFlash
  with_reducible repeat' (first
    | assumption | apply freezeProgram_ev | apply when_ev | intro _ | dsimp only | split
    | fail_if_no_progress (refine Evolves.rest ?_ rfl rfl rfl rfl rfl rfl))

theorem coherentStop_ev {s0 s : State} (h : Evolves s0 s) : Evolves s0 (coherentStop s) := by
  unfold coherentStop
  with_reducible repeat' (first
    | assumption | apply freezeFlash_ev | apply noteFreeze_ev | apply State.onAssay_ev | apply commit_ev
    | apply nfcCarrierOff_ev | intro _ | dsimp only | split
    | fail_if_no_progress (refine Evolves.rest ?_ rfl rfl rfl rfl rfl rfl))

theorem execCoherentStop_ev {s0 s : State} (h : Evolves s0 s) : OutEv s0 (execCoherentStop s) := by
  unfold execCoherentStop
  with_reducible repeat' (first | assumption | apply when_ev | apply coherentStop_ev | apply OutEv.next)

theorem thawUpdate_ev {s0 s : State} (h : Evolves s0 s) : Evolves s0 (thawUpdate s) := by
  unfold thawUpdate
  with_reducible repeat' (first | assumption | apply State.onAssay_ev | apply State.setRbit_ev | split)

theorem thawBlocks_ev {s0 s : State} (h : Evolves s0 s) : Evolves s0 (thawBlocks s) := by
  unfold thawBlocks
  with_reducible repeat' (first
    | assumption | apply when_ev | apply releaseAck_ev | apply netThaw_ev | apply nfcThaw_ev | apply bleThaw_ev
    | apply rangeThaw_ev | apply uhfOff_ev | apply lfOff_ev | apply adcThaw_ev | intro _ | dsimp only | split
    | fail_if_no_progress (refine Evolves.rest ?_ rfl rfl rfl rfl rfl rfl))

theorem thawResume_ev {s0 s : State} (h : Evolves s0 s) : Evolves s0 (thawResume s) := by
  unfold thawResume
  with_reducible repeat' (first
    | assumption | apply State.setRbit_ev | apply thawBlocks_ev | apply commit_ev | apply when_ev | apply raiseLockdown_ev
    | apply serveWaiting_ev | apply serviceEnd_ev | apply State.setReg_ev | apply State.onAssay_ev | intro _ | dsimp only
    | fail_if_no_progress (refine Evolves.rest ?_ rfl rfl rfl rfl rfl rfl))

theorem execThawResume_ev {s0 s : State} (h : Evolves s0 s) : OutEv s0 (execThawResume s) := by
  unfold execThawResume
  with_reducible repeat' (first | assumption | apply when_ev | apply thawResume_ev | apply OutEv.next)

theorem freshBits_ev {s0 s : State} (n : Nat) (h : Evolves s0 s) : Evolves s0 (freshBits n s).2 := by
  unfold freshBits
  with_reducible repeat' (first | assumption | apply State.freshBytes_ev)

theorem tap_ev {s0 s : State} (ir : Nat) (out : List Bool) (h : Evolves s0 s) : Evolves s0 (tap ir out s) := by
  unfold tap
  with_reducible repeat' (first | assumption | apply State.onAssay_ev)

theorem execQuench_ev {s0 s : State} (update : Bool) (h : Evolves s0 s) : OutEv s0 (execQuench update s) := by
  unfold execQuench
  with_reducible repeat' (first
    | assumption | apply when_ev | apply quenchRequest_ev | apply tap_ev | apply OutEv.next | intro _)

theorem execThaw_ev {s0 s : State} (update : Bool) (h : Evolves s0 s) : OutEv s0 (execThaw update s) := by
  unfold execThaw
  with_reducible repeat' (first
    | assumption | apply when_ev | apply thawUpdate_ev | apply tap_ev | apply OutEv.next | intro _)

theorem execBypass_ev {s0 s : State} (tdi : List Bool) (h : Evolves s0 s) : OutEv s0 (execBypass tdi s) := by
  unfold execBypass
  with_reducible repeat' (first | assumption | apply when_ev | apply tap_ev | apply OutEv.next | intro _)

theorem execIdcode_ev {s0 s : State} (h : Evolves s0 s) : OutEv s0 (execIdcode s) := by
  unfold execIdcode
  with_reducible repeat' (first | assumption | apply when_ev | apply tap_ev | apply OutEv.next | intro _)

theorem execStatus_ev {s0 s : State} (h : Evolves s0 s) : OutEv s0 (execStatus s) := by
  unfold execStatus
  with_reducible repeat' (first | assumption | apply when_ev | apply tap_ev | apply OutEv.next | intro _)

theorem boundaryCapture_ev {s0 s : State} (h : Evolves s0 s) : Evolves s0 (boundaryCapture s).2 := by
  unfold boundaryCapture
  with_reducible repeat' (first | assumption | apply freshBits_ev)

theorem execSamplePreload_ev {s0 s : State} (cells : List Bool) (h : Evolves s0 s) :
    OutEv s0 (execSamplePreload cells s) := by
  unfold execSamplePreload
  with_reducible repeat' (first
    | assumption | apply when_ev | apply boundaryCapture_ev | apply tap_ev | apply State.onAssay_ev | apply OutEv.next
    | intro _)

theorem execExtest_ev {s0 s : State} (cells : List Bool) (h : Evolves s0 s) : OutEv s0 (execExtest cells s) := by
  unfold execExtest
  with_reducible repeat' (first
    | assumption | apply when_ev | apply boundaryCapture_ev | apply tap_ev | apply State.onAssay_ev | apply OutEv.next
    | intro _ | dsimp only | split)

theorem coreChain_ev {s0 s : State} (c : Fin 6) (h : Evolves s0 s) : Evolves s0 (coreChain c s).2 := by
  unfold coreChain
  with_reducible repeat' (first | assumption | apply freshBits_ev | apply State.freshWord_ev)

theorem cacheChain_ev {s0 s : State} (c : Fin 6) (ls : List Line) (h : Evolves s0 s) :
    Evolves s0 (cacheChain c ls s).2 := by
  unfold cacheChain
  with_reducible repeat' (first | assumption | apply State.freshBytes_ev)

theorem chainBits_ev {s0 s : State} (n : Nat) (h : Evolves s0 s) : Evolves s0 (chainBits n s).2 := by
  unfold chainBits
  with_reducible repeat' (first | assumption | apply coreChain_ev | apply cacheChain_ev | apply freshBits_ev | split)

theorem execSel_ev {s0 s : State} (n : BitVec 8) (h : Evolves s0 s) : OutEv s0 (execSel n s) := by
  unfold execSel
  with_reducible repeat' (first
    | assumption | apply when_ev | apply tap_ev | apply State.onAssay_ev | apply OutEv.next | intro _ | split)

theorem execChain_ev {s0 s : State} (h : Evolves s0 s) : OutEv s0 (execChain s) := by
  unfold execChain
  with_reducible repeat' (first
    | assumption | apply when_ev | apply chainBits_ev | apply tap_ev | apply OutEv.next | intro _ | dsimp only | split)

theorem execAddr_ev {s0 s : State} (v : BitVec 48) (h : Evolves s0 s) : OutEv s0 (execAddr v s) := by
  unfold execAddr
  with_reducible repeat' (first
    | assumption | apply when_ev | apply tap_ev | apply State.onAssay_ev | apply OutEv.next | intro _ | split)

theorem execSram_ev {s0 s : State} (h : Evolves s0 s) : OutEv s0 (execSram s) := by
  unfold execSram
  with_reducible repeat' (first
    | assumption | apply when_ev | apply State.freshBytes_ev | apply tap_ev | apply OutEv.next | intro _ | dsimp only
    | split)

theorem regCapture_ev {s0 s : State} (a : Nat) (h : Evolves s0 s) : Evolves s0 (regCapture a s).2 := by
  unfold regCapture
  with_reducible repeat' (first
    | assumption | dsimp only | split | fail_if_no_progress (refine Evolves.rest ?_ rfl rfl rfl rfl rfl rfl))

theorem execReg_ev {s0 s : State} (a : BitVec 32) (h : Evolves s0 s) : OutEv s0 (execReg a s) := by
  unfold execReg
  with_reducible repeat' (first
    | assumption | apply when_ev | apply regCapture_ev | apply tap_ev | apply State.onAssay_ev | apply OutEv.next
    | intro _ | dsimp only | split)

theorem execTrstNLow_ev {s0 s : State} (h : Evolves s0 s) : OutEv s0 (execTrstNLow s) := by
  unfold execTrstNLow
  with_reducible repeat' (first | assumption | apply when_ev | apply State.onAssay_ev | apply OutEv.next | intro _)

theorem passTime_ev {s0 s : State} (h : Evolves s0 s) : Evolves s0 (passTime s) := by
  unfold passTime
  with_reducible repeat' (first
    | assumption | apply rtcEdge_ev | dsimp only | split
    | fail_if_no_progress (refine Evolves.rest ?_ rfl rfl rfl rfl rfl rfl))

theorem blockTick_ev {s0 s : State} (h : Evolves s0 s) : Evolves s0 (blockTick s) := by
  unfold blockTick
  with_reducible repeat' (first
    | assumption | apply when_ev | apply drainLedgerDin_ev | apply uhfTick_ev | apply nfcTick_ev | apply drainAdit_ev
    | apply drainLoad_ev | apply capOverlap_ev | apply lfTick_ev | apply adcTick1_ev | intro _ | dsimp only | split)

theorem idle_ev {s0 s : State} (h : Evolves s0 s) : Evolves s0 (idle s) := by
  unfold idle
  with_reducible repeat' (first
    | assumption | apply passTime_ev | apply blockTick_ev | apply when_ev | apply bleEdge_ev | apply capEdge_ev | intro _
    | dsimp only | split)

end Sys2Proof.Machine
end

