-- ==== Sys2Proof/Laws/State.lean ====
section
/-! SUPPORT. For every update of one field of State, what each other field reads after it: true by definition. -/
namespace Sys2Proof.Machine

/-! ### setReg -/

@[simp] theorem State.setReg_pending (s : State) (k : Nat) (w : Word) : (s.setReg k w).pending = s.pending := rfl
@[simp] theorem State.setReg_free (s : State) (k : Nat) (w : Word) : (s.setReg k w).free = s.free := rfl
@[simp] theorem State.setReg_sys (s : State) (k : Nat) (w : Word) : (s.setReg k w).sys = s.sys := rfl
@[simp] theorem State.setReg_clk (s : State) (k : Nat) (w : Word) : (s.setReg k w).clk = s.clk := rfl
@[simp] theorem State.setReg_pwr (s : State) (k : Nat) (w : Word) : (s.setReg k w).pwr = s.pwr := rfl
@[simp] theorem State.setReg_assay (s : State) (k : Nat) (w : Word) : (s.setReg k w).assay = s.assay := rfl
@[simp] theorem State.setReg_cores (s : State) (k : Nat) (w : Word) : (s.setReg k w).cores = s.cores := rfl
@[simp] theorem State.setReg_chans (s : State) (k : Nat) (w : Word) : (s.setReg k w).chans = s.chans := rfl
@[simp] theorem State.setReg_mem (s : State) (k : Nat) (w : Word) : (s.setReg k w).mem = s.mem := rfl
@[simp] theorem State.setReg_flash (s : State) (k : Nat) (w : Word) : (s.setReg k w).flash = s.flash := rfl
@[simp] theorem State.setReg_led (s : State) (k : Nat) (w : Word) : (s.setReg k w).led = s.led := rfl
@[simp] theorem State.setReg_front (s : State) (k : Nat) (w : Word) : (s.setReg k w).front = s.front := rfl
@[simp] theorem State.setReg_adc (s : State) (k : Nat) (w : Word) : (s.setReg k w).adc = s.adc := rfl
@[simp] theorem State.setReg_lf (s : State) (k : Nat) (w : Word) : (s.setReg k w).lf = s.lf := rfl
@[simp] theorem State.setReg_cap (s : State) (k : Nat) (w : Word) : (s.setReg k w).cap = s.cap := rfl
@[simp] theorem State.setReg_uhf (s : State) (k : Nat) (w : Word) : (s.setReg k w).uhf = s.uhf := rfl
@[simp] theorem State.setReg_range (s : State) (k : Nat) (w : Word) : (s.setReg k w).range = s.range := rfl
@[simp] theorem State.setReg_ble (s : State) (k : Nat) (w : Word) : (s.setReg k w).ble = s.ble := rfl
@[simp] theorem State.setReg_nfc (s : State) (k : Nat) (w : Word) : (s.setReg k w).nfc = s.nfc := rfl
@[simp] theorem State.setReg_fuses (s : State) (k : Nat) (w : Word) : (s.setReg k w).fuses = s.fuses := rfl
@[simp] theorem State.setReg_kiln (s : State) (k : Nat) (w : Word) : (s.setReg k w).kiln = s.kiln := rfl
@[simp] theorem State.setReg_ent (s : State) (k : Nat) (w : Word) : (s.setReg k w).ent = s.ent := rfl
@[simp] theorem State.setReg_creds (s : State) (k : Nat) (w : Word) : (s.setReg k w).creds = s.creds := rfl
@[simp] theorem State.setReg_start (s : State) (k : Nat) (w : Word) : (s.setReg k w).start = s.start := rfl
@[simp] theorem State.setReg_net (s : State) (k : Nat) (w : Word) : (s.setReg k w).net = s.net := rfl
@[simp] theorem State.setReg_adit (s : State) (k : Nat) (w : Word) : (s.setReg k w).adit = s.adit := rfl
@[simp] theorem State.setReg_host (s : State) (k : Nat) (w : Word) : (s.setReg k w).host = s.host := rfl
@[simp] theorem State.setReg_chan (s : State) (k : Nat) (w : Word) (j : Nat) : (s.setReg k w).chan j = s.chan j := rfl

/-! ### setFld -/

@[simp] theorem State.setFld_pending (s : State) (k hi lo v : Nat) : (s.setFld k hi lo v).pending = s.pending := rfl
@[simp] theorem State.setFld_free (s : State) (k hi lo v : Nat) : (s.setFld k hi lo v).free = s.free := rfl
@[simp] theorem State.setFld_sys (s : State) (k hi lo v : Nat) : (s.setFld k hi lo v).sys = s.sys := rfl
@[simp] theorem State.setFld_clk (s : State) (k hi lo v : Nat) : (s.setFld k hi lo v).clk = s.clk := rfl
@[simp] theorem State.setFld_pwr (s : State) (k hi lo v : Nat) : (s.setFld k hi lo v).pwr = s.pwr := rfl
@[simp] theorem State.setFld_assay (s : State) (k hi lo v : Nat) : (s.setFld k hi lo v).assay = s.assay := rfl
@[simp] theorem State.setFld_cores (s : State) (k hi lo v : Nat) : (s.setFld k hi lo v).cores = s.cores := rfl
@[simp] theorem State.setFld_chans (s : State) (k hi lo v : Nat) : (s.setFld k hi lo v).chans = s.chans := rfl
@[simp] theorem State.setFld_mem (s : State) (k hi lo v : Nat) : (s.setFld k hi lo v).mem = s.mem := rfl
@[simp] theorem State.setFld_flash (s : State) (k hi lo v : Nat) : (s.setFld k hi lo v).flash = s.flash := rfl
@[simp] theorem State.setFld_led (s : State) (k hi lo v : Nat) : (s.setFld k hi lo v).led = s.led := rfl
@[simp] theorem State.setFld_front (s : State) (k hi lo v : Nat) : (s.setFld k hi lo v).front = s.front := rfl
@[simp] theorem State.setFld_adc (s : State) (k hi lo v : Nat) : (s.setFld k hi lo v).adc = s.adc := rfl
@[simp] theorem State.setFld_lf (s : State) (k hi lo v : Nat) : (s.setFld k hi lo v).lf = s.lf := rfl
@[simp] theorem State.setFld_cap (s : State) (k hi lo v : Nat) : (s.setFld k hi lo v).cap = s.cap := rfl
@[simp] theorem State.setFld_uhf (s : State) (k hi lo v : Nat) : (s.setFld k hi lo v).uhf = s.uhf := rfl
@[simp] theorem State.setFld_range (s : State) (k hi lo v : Nat) : (s.setFld k hi lo v).range = s.range := rfl
@[simp] theorem State.setFld_ble (s : State) (k hi lo v : Nat) : (s.setFld k hi lo v).ble = s.ble := rfl
@[simp] theorem State.setFld_nfc (s : State) (k hi lo v : Nat) : (s.setFld k hi lo v).nfc = s.nfc := rfl
@[simp] theorem State.setFld_fuses (s : State) (k hi lo v : Nat) : (s.setFld k hi lo v).fuses = s.fuses := rfl
@[simp] theorem State.setFld_kiln (s : State) (k hi lo v : Nat) : (s.setFld k hi lo v).kiln = s.kiln := rfl
@[simp] theorem State.setFld_ent (s : State) (k hi lo v : Nat) : (s.setFld k hi lo v).ent = s.ent := rfl
@[simp] theorem State.setFld_creds (s : State) (k hi lo v : Nat) : (s.setFld k hi lo v).creds = s.creds := rfl
@[simp] theorem State.setFld_start (s : State) (k hi lo v : Nat) : (s.setFld k hi lo v).start = s.start := rfl
@[simp] theorem State.setFld_net (s : State) (k hi lo v : Nat) : (s.setFld k hi lo v).net = s.net := rfl
@[simp] theorem State.setFld_adit (s : State) (k hi lo v : Nat) : (s.setFld k hi lo v).adit = s.adit := rfl
@[simp] theorem State.setFld_host (s : State) (k hi lo v : Nat) : (s.setFld k hi lo v).host = s.host := rfl
@[simp] theorem State.setFld_chan (s : State) (k hi lo v : Nat) (j : Nat) : (s.setFld k hi lo v).chan j = s.chan j := rfl

/-! ### setRbit -/

@[simp] theorem State.setRbit_pending (s : State) (k i : Nat) (b : Bool) : (s.setRbit k i b).pending = s.pending := rfl
@[simp] theorem State.setRbit_free (s : State) (k i : Nat) (b : Bool) : (s.setRbit k i b).free = s.free := rfl
@[simp] theorem State.setRbit_sys (s : State) (k i : Nat) (b : Bool) : (s.setRbit k i b).sys = s.sys := rfl
@[simp] theorem State.setRbit_clk (s : State) (k i : Nat) (b : Bool) : (s.setRbit k i b).clk = s.clk := rfl
@[simp] theorem State.setRbit_pwr (s : State) (k i : Nat) (b : Bool) : (s.setRbit k i b).pwr = s.pwr := rfl
@[simp] theorem State.setRbit_assay (s : State) (k i : Nat) (b : Bool) : (s.setRbit k i b).assay = s.assay := rfl
@[simp] theorem State.setRbit_cores (s : State) (k i : Nat) (b : Bool) : (s.setRbit k i b).cores = s.cores := rfl
@[simp] theorem State.setRbit_chans (s : State) (k i : Nat) (b : Bool) : (s.setRbit k i b).chans = s.chans := rfl
@[simp] theorem State.setRbit_mem (s : State) (k i : Nat) (b : Bool) : (s.setRbit k i b).mem = s.mem := rfl
@[simp] theorem State.setRbit_flash (s : State) (k i : Nat) (b : Bool) : (s.setRbit k i b).flash = s.flash := rfl
@[simp] theorem State.setRbit_led (s : State) (k i : Nat) (b : Bool) : (s.setRbit k i b).led = s.led := rfl
@[simp] theorem State.setRbit_front (s : State) (k i : Nat) (b : Bool) : (s.setRbit k i b).front = s.front := rfl
@[simp] theorem State.setRbit_adc (s : State) (k i : Nat) (b : Bool) : (s.setRbit k i b).adc = s.adc := rfl
@[simp] theorem State.setRbit_lf (s : State) (k i : Nat) (b : Bool) : (s.setRbit k i b).lf = s.lf := rfl
@[simp] theorem State.setRbit_cap (s : State) (k i : Nat) (b : Bool) : (s.setRbit k i b).cap = s.cap := rfl
@[simp] theorem State.setRbit_uhf (s : State) (k i : Nat) (b : Bool) : (s.setRbit k i b).uhf = s.uhf := rfl
@[simp] theorem State.setRbit_range (s : State) (k i : Nat) (b : Bool) : (s.setRbit k i b).range = s.range := rfl
@[simp] theorem State.setRbit_ble (s : State) (k i : Nat) (b : Bool) : (s.setRbit k i b).ble = s.ble := rfl
@[simp] theorem State.setRbit_nfc (s : State) (k i : Nat) (b : Bool) : (s.setRbit k i b).nfc = s.nfc := rfl
@[simp] theorem State.setRbit_fuses (s : State) (k i : Nat) (b : Bool) : (s.setRbit k i b).fuses = s.fuses := rfl
@[simp] theorem State.setRbit_kiln (s : State) (k i : Nat) (b : Bool) : (s.setRbit k i b).kiln = s.kiln := rfl
@[simp] theorem State.setRbit_ent (s : State) (k i : Nat) (b : Bool) : (s.setRbit k i b).ent = s.ent := rfl
@[simp] theorem State.setRbit_creds (s : State) (k i : Nat) (b : Bool) : (s.setRbit k i b).creds = s.creds := rfl
@[simp] theorem State.setRbit_start (s : State) (k i : Nat) (b : Bool) : (s.setRbit k i b).start = s.start := rfl
@[simp] theorem State.setRbit_net (s : State) (k i : Nat) (b : Bool) : (s.setRbit k i b).net = s.net := rfl
@[simp] theorem State.setRbit_adit (s : State) (k i : Nat) (b : Bool) : (s.setRbit k i b).adit = s.adit := rfl
@[simp] theorem State.setRbit_host (s : State) (k i : Nat) (b : Bool) : (s.setRbit k i b).host = s.host := rfl
@[simp] theorem State.setRbit_chan (s : State) (k i : Nat) (b : Bool) (j : Nat) : (s.setRbit k i b).chan j = s.chan j := rfl

/-! ### incFld -/

@[simp] theorem State.incFld_pending (s : State) (k hi lo : Nat) : (s.incFld k hi lo).pending = s.pending := rfl
@[simp] theorem State.incFld_free (s : State) (k hi lo : Nat) : (s.incFld k hi lo).free = s.free := rfl
@[simp] theorem State.incFld_sys (s : State) (k hi lo : Nat) : (s.incFld k hi lo).sys = s.sys := rfl
@[simp] theorem State.incFld_clk (s : State) (k hi lo : Nat) : (s.incFld k hi lo).clk = s.clk := rfl
@[simp] theorem State.incFld_pwr (s : State) (k hi lo : Nat) : (s.incFld k hi lo).pwr = s.pwr := rfl
@[simp] theorem State.incFld_assay (s : State) (k hi lo : Nat) : (s.incFld k hi lo).assay = s.assay := rfl
@[simp] theorem State.incFld_cores (s : State) (k hi lo : Nat) : (s.incFld k hi lo).cores = s.cores := rfl
@[simp] theorem State.incFld_chans (s : State) (k hi lo : Nat) : (s.incFld k hi lo).chans = s.chans := rfl
@[simp] theorem State.incFld_mem (s : State) (k hi lo : Nat) : (s.incFld k hi lo).mem = s.mem := rfl
@[simp] theorem State.incFld_flash (s : State) (k hi lo : Nat) : (s.incFld k hi lo).flash = s.flash := rfl
@[simp] theorem State.incFld_led (s : State) (k hi lo : Nat) : (s.incFld k hi lo).led = s.led := rfl
@[simp] theorem State.incFld_front (s : State) (k hi lo : Nat) : (s.incFld k hi lo).front = s.front := rfl
@[simp] theorem State.incFld_adc (s : State) (k hi lo : Nat) : (s.incFld k hi lo).adc = s.adc := rfl
@[simp] theorem State.incFld_lf (s : State) (k hi lo : Nat) : (s.incFld k hi lo).lf = s.lf := rfl
@[simp] theorem State.incFld_cap (s : State) (k hi lo : Nat) : (s.incFld k hi lo).cap = s.cap := rfl
@[simp] theorem State.incFld_uhf (s : State) (k hi lo : Nat) : (s.incFld k hi lo).uhf = s.uhf := rfl
@[simp] theorem State.incFld_range (s : State) (k hi lo : Nat) : (s.incFld k hi lo).range = s.range := rfl
@[simp] theorem State.incFld_ble (s : State) (k hi lo : Nat) : (s.incFld k hi lo).ble = s.ble := rfl
@[simp] theorem State.incFld_nfc (s : State) (k hi lo : Nat) : (s.incFld k hi lo).nfc = s.nfc := rfl
@[simp] theorem State.incFld_fuses (s : State) (k hi lo : Nat) : (s.incFld k hi lo).fuses = s.fuses := rfl
@[simp] theorem State.incFld_kiln (s : State) (k hi lo : Nat) : (s.incFld k hi lo).kiln = s.kiln := rfl
@[simp] theorem State.incFld_ent (s : State) (k hi lo : Nat) : (s.incFld k hi lo).ent = s.ent := rfl
@[simp] theorem State.incFld_creds (s : State) (k hi lo : Nat) : (s.incFld k hi lo).creds = s.creds := rfl
@[simp] theorem State.incFld_start (s : State) (k hi lo : Nat) : (s.incFld k hi lo).start = s.start := rfl
@[simp] theorem State.incFld_net (s : State) (k hi lo : Nat) : (s.incFld k hi lo).net = s.net := rfl
@[simp] theorem State.incFld_adit (s : State) (k hi lo : Nat) : (s.incFld k hi lo).adit = s.adit := rfl
@[simp] theorem State.incFld_host (s : State) (k hi lo : Nat) : (s.incFld k hi lo).host = s.host := rfl
@[simp] theorem State.incFld_chan (s : State) (k hi lo : Nat) (j : Nat) : (s.incFld k hi lo).chan j = s.chan j := rfl

/-! ### satFld -/

@[simp] theorem State.satFld_pending (s : State) (k hi lo : Nat) : (s.satFld k hi lo).pending = s.pending := rfl
@[simp] theorem State.satFld_free (s : State) (k hi lo : Nat) : (s.satFld k hi lo).free = s.free := rfl
@[simp] theorem State.satFld_sys (s : State) (k hi lo : Nat) : (s.satFld k hi lo).sys = s.sys := rfl
@[simp] theorem State.satFld_clk (s : State) (k hi lo : Nat) : (s.satFld k hi lo).clk = s.clk := rfl
@[simp] theorem State.satFld_pwr (s : State) (k hi lo : Nat) : (s.satFld k hi lo).pwr = s.pwr := rfl
@[simp] theorem State.satFld_assay (s : State) (k hi lo : Nat) : (s.satFld k hi lo).assay = s.assay := rfl
@[simp] theorem State.satFld_cores (s : State) (k hi lo : Nat) : (s.satFld k hi lo).cores = s.cores := rfl
@[simp] theorem State.satFld_chans (s : State) (k hi lo : Nat) : (s.satFld k hi lo).chans = s.chans := rfl
@[simp] theorem State.satFld_mem (s : State) (k hi lo : Nat) : (s.satFld k hi lo).mem = s.mem := rfl
@[simp] theorem State.satFld_flash (s : State) (k hi lo : Nat) : (s.satFld k hi lo).flash = s.flash := rfl
@[simp] theorem State.satFld_led (s : State) (k hi lo : Nat) : (s.satFld k hi lo).led = s.led := rfl
@[simp] theorem State.satFld_front (s : State) (k hi lo : Nat) : (s.satFld k hi lo).front = s.front := rfl
@[simp] theorem State.satFld_adc (s : State) (k hi lo : Nat) : (s.satFld k hi lo).adc = s.adc := rfl
@[simp] theorem State.satFld_lf (s : State) (k hi lo : Nat) : (s.satFld k hi lo).lf = s.lf := rfl
@[simp] theorem State.satFld_cap (s : State) (k hi lo : Nat) : (s.satFld k hi lo).cap = s.cap := rfl
@[simp] theorem State.satFld_uhf (s : State) (k hi lo : Nat) : (s.satFld k hi lo).uhf = s.uhf := rfl
@[simp] theorem State.satFld_range (s : State) (k hi lo : Nat) : (s.satFld k hi lo).range = s.range := rfl
@[simp] theorem State.satFld_ble (s : State) (k hi lo : Nat) : (s.satFld k hi lo).ble = s.ble := rfl
@[simp] theorem State.satFld_nfc (s : State) (k hi lo : Nat) : (s.satFld k hi lo).nfc = s.nfc := rfl
@[simp] theorem State.satFld_fuses (s : State) (k hi lo : Nat) : (s.satFld k hi lo).fuses = s.fuses := rfl
@[simp] theorem State.satFld_kiln (s : State) (k hi lo : Nat) : (s.satFld k hi lo).kiln = s.kiln := rfl
@[simp] theorem State.satFld_ent (s : State) (k hi lo : Nat) : (s.satFld k hi lo).ent = s.ent := rfl
@[simp] theorem State.satFld_creds (s : State) (k hi lo : Nat) : (s.satFld k hi lo).creds = s.creds := rfl
@[simp] theorem State.satFld_start (s : State) (k hi lo : Nat) : (s.satFld k hi lo).start = s.start := rfl
@[simp] theorem State.satFld_net (s : State) (k hi lo : Nat) : (s.satFld k hi lo).net = s.net := rfl
@[simp] theorem State.satFld_adit (s : State) (k hi lo : Nat) : (s.satFld k hi lo).adit = s.adit := rfl
@[simp] theorem State.satFld_host (s : State) (k hi lo : Nat) : (s.satFld k hi lo).host = s.host := rfl
@[simp] theorem State.satFld_chan (s : State) (k hi lo : Nat) (j : Nat) : (s.satFld k hi lo).chan j = s.chan j := rfl

/-! ### setCore -/

@[simp] theorem State.setCore_pending (s : State) (c : Fin 6) (k : Core) : (s.setCore c k).pending = s.pending := rfl
@[simp] theorem State.setCore_free (s : State) (c : Fin 6) (k : Core) : (s.setCore c k).free = s.free := rfl
@[simp] theorem State.setCore_regs (s : State) (c : Fin 6) (k : Core) : (s.setCore c k).regs = s.regs := rfl
@[simp] theorem State.setCore_sys (s : State) (c : Fin 6) (k : Core) : (s.setCore c k).sys = s.sys := rfl
@[simp] theorem State.setCore_clk (s : State) (c : Fin 6) (k : Core) : (s.setCore c k).clk = s.clk := rfl
@[simp] theorem State.setCore_pwr (s : State) (c : Fin 6) (k : Core) : (s.setCore c k).pwr = s.pwr := rfl
@[simp] theorem State.setCore_assay (s : State) (c : Fin 6) (k : Core) : (s.setCore c k).assay = s.assay := rfl
@[simp] theorem State.setCore_chans (s : State) (c : Fin 6) (k : Core) : (s.setCore c k).chans = s.chans := rfl
@[simp] theorem State.setCore_mem (s : State) (c : Fin 6) (k : Core) : (s.setCore c k).mem = s.mem := rfl
@[simp] theorem State.setCore_flash (s : State) (c : Fin 6) (k : Core) : (s.setCore c k).flash = s.flash := rfl
@[simp] theorem State.setCore_led (s : State) (c : Fin 6) (k : Core) : (s.setCore c k).led = s.led := rfl
@[simp] theorem State.setCore_front (s : State) (c : Fin 6) (k : Core) : (s.setCore c k).front = s.front := rfl
@[simp] theorem State.setCore_adc (s : State) (c : Fin 6) (k : Core) : (s.setCore c k).adc = s.adc := rfl
@[simp] theorem State.setCore_lf (s : State) (c : Fin 6) (k : Core) : (s.setCore c k).lf = s.lf := rfl
@[simp] theorem State.setCore_cap (s : State) (c : Fin 6) (k : Core) : (s.setCore c k).cap = s.cap := rfl
@[simp] theorem State.setCore_uhf (s : State) (c : Fin 6) (k : Core) : (s.setCore c k).uhf = s.uhf := rfl
@[simp] theorem State.setCore_range (s : State) (c : Fin 6) (k : Core) : (s.setCore c k).range = s.range := rfl
@[simp] theorem State.setCore_ble (s : State) (c : Fin 6) (k : Core) : (s.setCore c k).ble = s.ble := rfl
@[simp] theorem State.setCore_nfc (s : State) (c : Fin 6) (k : Core) : (s.setCore c k).nfc = s.nfc := rfl
@[simp] theorem State.setCore_fuses (s : State) (c : Fin 6) (k : Core) : (s.setCore c k).fuses = s.fuses := rfl
@[simp] theorem State.setCore_kiln (s : State) (c : Fin 6) (k : Core) : (s.setCore c k).kiln = s.kiln := rfl
@[simp] theorem State.setCore_ent (s : State) (c : Fin 6) (k : Core) : (s.setCore c k).ent = s.ent := rfl
@[simp] theorem State.setCore_creds (s : State) (c : Fin 6) (k : Core) : (s.setCore c k).creds = s.creds := rfl
@[simp] theorem State.setCore_start (s : State) (c : Fin 6) (k : Core) : (s.setCore c k).start = s.start := rfl
@[simp] theorem State.setCore_net (s : State) (c : Fin 6) (k : Core) : (s.setCore c k).net = s.net := rfl
@[simp] theorem State.setCore_adit (s : State) (c : Fin 6) (k : Core) : (s.setCore c k).adit = s.adit := rfl
@[simp] theorem State.setCore_host (s : State) (c : Fin 6) (k : Core) : (s.setCore c k).host = s.host := rfl
@[simp] theorem State.setCore_reg (s : State) (c : Fin 6) (k : Core) (j : Nat) : (s.setCore c k).reg j = s.reg j := rfl
@[simp] theorem State.setCore_fld (s : State) (c : Fin 6) (k : Core) (j hi lo : Nat) : (s.setCore c k).fld j hi lo = s.fld j hi lo := rfl
@[simp] theorem State.setCore_rbit (s : State) (c : Fin 6) (k : Core) (j i : Nat) : (s.setCore c k).rbit j i = s.rbit j i := rfl
@[simp] theorem State.setCore_chan (s : State) (c : Fin 6) (k : Core) (j : Nat) : (s.setCore c k).chan j = s.chan j := rfl

/-! ### onCore -/

@[simp] theorem State.onCore_pending (s : State) (c : Fin 6) (f : Core → Core) : (s.onCore c f).pending = s.pending := rfl
@[simp] theorem State.onCore_free (s : State) (c : Fin 6) (f : Core → Core) : (s.onCore c f).free = s.free := rfl
@[simp] theorem State.onCore_regs (s : State) (c : Fin 6) (f : Core → Core) : (s.onCore c f).regs = s.regs := rfl
@[simp] theorem State.onCore_sys (s : State) (c : Fin 6) (f : Core → Core) : (s.onCore c f).sys = s.sys := rfl
@[simp] theorem State.onCore_clk (s : State) (c : Fin 6) (f : Core → Core) : (s.onCore c f).clk = s.clk := rfl
@[simp] theorem State.onCore_pwr (s : State) (c : Fin 6) (f : Core → Core) : (s.onCore c f).pwr = s.pwr := rfl
@[simp] theorem State.onCore_assay (s : State) (c : Fin 6) (f : Core → Core) : (s.onCore c f).assay = s.assay := rfl
@[simp] theorem State.onCore_chans (s : State) (c : Fin 6) (f : Core → Core) : (s.onCore c f).chans = s.chans := rfl
@[simp] theorem State.onCore_mem (s : State) (c : Fin 6) (f : Core → Core) : (s.onCore c f).mem = s.mem := rfl
@[simp] theorem State.onCore_flash (s : State) (c : Fin 6) (f : Core → Core) : (s.onCore c f).flash = s.flash := rfl
@[simp] theorem State.onCore_led (s : State) (c : Fin 6) (f : Core → Core) : (s.onCore c f).led = s.led := rfl
@[simp] theorem State.onCore_front (s : State) (c : Fin 6) (f : Core → Core) : (s.onCore c f).front = s.front := rfl
@[simp] theorem State.onCore_adc (s : State) (c : Fin 6) (f : Core → Core) : (s.onCore c f).adc = s.adc := rfl
@[simp] theorem State.onCore_lf (s : State) (c : Fin 6) (f : Core → Core) : (s.onCore c f).lf = s.lf := rfl
@[simp] theorem State.onCore_cap (s : State) (c : Fin 6) (f : Core → Core) : (s.onCore c f).cap = s.cap := rfl
@[simp] theorem State.onCore_uhf (s : State) (c : Fin 6) (f : Core → Core) : (s.onCore c f).uhf = s.uhf := rfl
@[simp] theorem State.onCore_range (s : State) (c : Fin 6) (f : Core → Core) : (s.onCore c f).range = s.range := rfl
@[simp] theorem State.onCore_ble (s : State) (c : Fin 6) (f : Core → Core) : (s.onCore c f).ble = s.ble := rfl
@[simp] theorem State.onCore_nfc (s : State) (c : Fin 6) (f : Core → Core) : (s.onCore c f).nfc = s.nfc := rfl
@[simp] theorem State.onCore_fuses (s : State) (c : Fin 6) (f : Core → Core) : (s.onCore c f).fuses = s.fuses := rfl
@[simp] theorem State.onCore_kiln (s : State) (c : Fin 6) (f : Core → Core) : (s.onCore c f).kiln = s.kiln := rfl
@[simp] theorem State.onCore_ent (s : State) (c : Fin 6) (f : Core → Core) : (s.onCore c f).ent = s.ent := rfl
@[simp] theorem State.onCore_creds (s : State) (c : Fin 6) (f : Core → Core) : (s.onCore c f).creds = s.creds := rfl
@[simp] theorem State.onCore_start (s : State) (c : Fin 6) (f : Core → Core) : (s.onCore c f).start = s.start := rfl
@[simp] theorem State.onCore_net (s : State) (c : Fin 6) (f : Core → Core) : (s.onCore c f).net = s.net := rfl
@[simp] theorem State.onCore_adit (s : State) (c : Fin 6) (f : Core → Core) : (s.onCore c f).adit = s.adit := rfl
@[simp] theorem State.onCore_host (s : State) (c : Fin 6) (f : Core → Core) : (s.onCore c f).host = s.host := rfl
@[simp] theorem State.onCore_reg (s : State) (c : Fin 6) (f : Core → Core) (j : Nat) : (s.onCore c f).reg j = s.reg j := rfl
@[simp] theorem State.onCore_fld (s : State) (c : Fin 6) (f : Core → Core) (j hi lo : Nat) : (s.onCore c f).fld j hi lo = s.fld j hi lo := rfl
@[simp] theorem State.onCore_rbit (s : State) (c : Fin 6) (f : Core → Core) (j i : Nat) : (s.onCore c f).rbit j i = s.rbit j i := rfl
@[simp] theorem State.onCore_chan (s : State) (c : Fin 6) (f : Core → Core) (j : Nat) : (s.onCore c f).chan j = s.chan j := rfl

/-! ### setE -/

@[simp] theorem State.setE_pending (s : State) (c : Fin 6) (m : BitVec 16) : (s.setE c m).pending = s.pending := rfl
@[simp] theorem State.setE_free (s : State) (c : Fin 6) (m : BitVec 16) : (s.setE c m).free = s.free := rfl
@[simp] theorem State.setE_regs (s : State) (c : Fin 6) (m : BitVec 16) : (s.setE c m).regs = s.regs := rfl
@[simp] theorem State.setE_sys (s : State) (c : Fin 6) (m : BitVec 16) : (s.setE c m).sys = s.sys := rfl
@[simp] theorem State.setE_clk (s : State) (c : Fin 6) (m : BitVec 16) : (s.setE c m).clk = s.clk := rfl
@[simp] theorem State.setE_pwr (s : State) (c : Fin 6) (m : BitVec 16) : (s.setE c m).pwr = s.pwr := rfl
@[simp] theorem State.setE_assay (s : State) (c : Fin 6) (m : BitVec 16) : (s.setE c m).assay = s.assay := rfl
@[simp] theorem State.setE_chans (s : State) (c : Fin 6) (m : BitVec 16) : (s.setE c m).chans = s.chans := rfl
@[simp] theorem State.setE_mem (s : State) (c : Fin 6) (m : BitVec 16) : (s.setE c m).mem = s.mem := rfl
@[simp] theorem State.setE_flash (s : State) (c : Fin 6) (m : BitVec 16) : (s.setE c m).flash = s.flash := rfl
@[simp] theorem State.setE_led (s : State) (c : Fin 6) (m : BitVec 16) : (s.setE c m).led = s.led := rfl
@[simp] theorem State.setE_front (s : State) (c : Fin 6) (m : BitVec 16) : (s.setE c m).front = s.front := rfl
@[simp] theorem State.setE_adc (s : State) (c : Fin 6) (m : BitVec 16) : (s.setE c m).adc = s.adc := rfl
@[simp] theorem State.setE_lf (s : State) (c : Fin 6) (m : BitVec 16) : (s.setE c m).lf = s.lf := rfl
@[simp] theorem State.setE_cap (s : State) (c : Fin 6) (m : BitVec 16) : (s.setE c m).cap = s.cap := rfl
@[simp] theorem State.setE_uhf (s : State) (c : Fin 6) (m : BitVec 16) : (s.setE c m).uhf = s.uhf := rfl
@[simp] theorem State.setE_range (s : State) (c : Fin 6) (m : BitVec 16) : (s.setE c m).range = s.range := rfl
@[simp] theorem State.setE_ble (s : State) (c : Fin 6) (m : BitVec 16) : (s.setE c m).ble = s.ble := rfl
@[simp] theorem State.setE_nfc (s : State) (c : Fin 6) (m : BitVec 16) : (s.setE c m).nfc = s.nfc := rfl
@[simp] theorem State.setE_fuses (s : State) (c : Fin 6) (m : BitVec 16) : (s.setE c m).fuses = s.fuses := rfl
@[simp] theorem State.setE_kiln (s : State) (c : Fin 6) (m : BitVec 16) : (s.setE c m).kiln = s.kiln := rfl
@[simp] theorem State.setE_ent (s : State) (c : Fin 6) (m : BitVec 16) : (s.setE c m).ent = s.ent := rfl
@[simp] theorem State.setE_creds (s : State) (c : Fin 6) (m : BitVec 16) : (s.setE c m).creds = s.creds := rfl
@[simp] theorem State.setE_start (s : State) (c : Fin 6) (m : BitVec 16) : (s.setE c m).start = s.start := rfl
@[simp] theorem State.setE_net (s : State) (c : Fin 6) (m : BitVec 16) : (s.setE c m).net = s.net := rfl
@[simp] theorem State.setE_adit (s : State) (c : Fin 6) (m : BitVec 16) : (s.setE c m).adit = s.adit := rfl
@[simp] theorem State.setE_host (s : State) (c : Fin 6) (m : BitVec 16) : (s.setE c m).host = s.host := rfl
@[simp] theorem State.setE_reg (s : State) (c : Fin 6) (m : BitVec 16) (j : Nat) : (s.setE c m).reg j = s.reg j := rfl
@[simp] theorem State.setE_fld (s : State) (c : Fin 6) (m : BitVec 16) (j hi lo : Nat) : (s.setE c m).fld j hi lo = s.fld j hi lo := rfl
@[simp] theorem State.setE_rbit (s : State) (c : Fin 6) (m : BitVec 16) (j i : Nat) : (s.setE c m).rbit j i = s.rbit j i := rfl
@[simp] theorem State.setE_chan (s : State) (c : Fin 6) (m : BitVec 16) (j : Nat) : (s.setE c m).chan j = s.chan j := rfl

/-! ### setChan -/

@[simp] theorem State.setChan_pending (s : State) (k : Nat) (c : Chan) : (s.setChan k c).pending = s.pending := rfl
@[simp] theorem State.setChan_free (s : State) (k : Nat) (c : Chan) : (s.setChan k c).free = s.free := rfl
@[simp] theorem State.setChan_regs (s : State) (k : Nat) (c : Chan) : (s.setChan k c).regs = s.regs := rfl
@[simp] theorem State.setChan_sys (s : State) (k : Nat) (c : Chan) : (s.setChan k c).sys = s.sys := rfl
@[simp] theorem State.setChan_clk (s : State) (k : Nat) (c : Chan) : (s.setChan k c).clk = s.clk := rfl
@[simp] theorem State.setChan_pwr (s : State) (k : Nat) (c : Chan) : (s.setChan k c).pwr = s.pwr := rfl
@[simp] theorem State.setChan_assay (s : State) (k : Nat) (c : Chan) : (s.setChan k c).assay = s.assay := rfl
@[simp] theorem State.setChan_cores (s : State) (k : Nat) (c : Chan) : (s.setChan k c).cores = s.cores := rfl
@[simp] theorem State.setChan_mem (s : State) (k : Nat) (c : Chan) : (s.setChan k c).mem = s.mem := rfl
@[simp] theorem State.setChan_flash (s : State) (k : Nat) (c : Chan) : (s.setChan k c).flash = s.flash := rfl
@[simp] theorem State.setChan_led (s : State) (k : Nat) (c : Chan) : (s.setChan k c).led = s.led := rfl
@[simp] theorem State.setChan_front (s : State) (k : Nat) (c : Chan) : (s.setChan k c).front = s.front := rfl
@[simp] theorem State.setChan_adc (s : State) (k : Nat) (c : Chan) : (s.setChan k c).adc = s.adc := rfl
@[simp] theorem State.setChan_lf (s : State) (k : Nat) (c : Chan) : (s.setChan k c).lf = s.lf := rfl
@[simp] theorem State.setChan_cap (s : State) (k : Nat) (c : Chan) : (s.setChan k c).cap = s.cap := rfl
@[simp] theorem State.setChan_uhf (s : State) (k : Nat) (c : Chan) : (s.setChan k c).uhf = s.uhf := rfl
@[simp] theorem State.setChan_range (s : State) (k : Nat) (c : Chan) : (s.setChan k c).range = s.range := rfl
@[simp] theorem State.setChan_ble (s : State) (k : Nat) (c : Chan) : (s.setChan k c).ble = s.ble := rfl
@[simp] theorem State.setChan_nfc (s : State) (k : Nat) (c : Chan) : (s.setChan k c).nfc = s.nfc := rfl
@[simp] theorem State.setChan_fuses (s : State) (k : Nat) (c : Chan) : (s.setChan k c).fuses = s.fuses := rfl
@[simp] theorem State.setChan_kiln (s : State) (k : Nat) (c : Chan) : (s.setChan k c).kiln = s.kiln := rfl
@[simp] theorem State.setChan_ent (s : State) (k : Nat) (c : Chan) : (s.setChan k c).ent = s.ent := rfl
@[simp] theorem State.setChan_creds (s : State) (k : Nat) (c : Chan) : (s.setChan k c).creds = s.creds := rfl
@[simp] theorem State.setChan_start (s : State) (k : Nat) (c : Chan) : (s.setChan k c).start = s.start := rfl
@[simp] theorem State.setChan_net (s : State) (k : Nat) (c : Chan) : (s.setChan k c).net = s.net := rfl
@[simp] theorem State.setChan_adit (s : State) (k : Nat) (c : Chan) : (s.setChan k c).adit = s.adit := rfl
@[simp] theorem State.setChan_host (s : State) (k : Nat) (c : Chan) : (s.setChan k c).host = s.host := rfl
@[simp] theorem State.setChan_reg (s : State) (k : Nat) (c : Chan) (j : Nat) : (s.setChan k c).reg j = s.reg j := rfl
@[simp] theorem State.setChan_fld (s : State) (k : Nat) (c : Chan) (j hi lo : Nat) : (s.setChan k c).fld j hi lo = s.fld j hi lo := rfl
@[simp] theorem State.setChan_rbit (s : State) (k : Nat) (c : Chan) (j i : Nat) : (s.setChan k c).rbit j i = s.rbit j i := rfl

/-! ### setTimedQ -/

@[simp] theorem State.setTimedQ_pending (s : State) (ch : Nat) (q : List TimedWord) : (s.setTimedQ ch q).pending = s.pending := rfl
@[simp] theorem State.setTimedQ_free (s : State) (ch : Nat) (q : List TimedWord) : (s.setTimedQ ch q).free = s.free := rfl
@[simp] theorem State.setTimedQ_regs (s : State) (ch : Nat) (q : List TimedWord) : (s.setTimedQ ch q).regs = s.regs := rfl
@[simp] theorem State.setTimedQ_sys (s : State) (ch : Nat) (q : List TimedWord) : (s.setTimedQ ch q).sys = s.sys := rfl
@[simp] theorem State.setTimedQ_clk (s : State) (ch : Nat) (q : List TimedWord) : (s.setTimedQ ch q).clk = s.clk := rfl
@[simp] theorem State.setTimedQ_pwr (s : State) (ch : Nat) (q : List TimedWord) : (s.setTimedQ ch q).pwr = s.pwr := rfl
@[simp] theorem State.setTimedQ_assay (s : State) (ch : Nat) (q : List TimedWord) : (s.setTimedQ ch q).assay = s.assay := rfl
@[simp] theorem State.setTimedQ_cores (s : State) (ch : Nat) (q : List TimedWord) : (s.setTimedQ ch q).cores = s.cores := rfl
@[simp] theorem State.setTimedQ_mem (s : State) (ch : Nat) (q : List TimedWord) : (s.setTimedQ ch q).mem = s.mem := rfl
@[simp] theorem State.setTimedQ_flash (s : State) (ch : Nat) (q : List TimedWord) : (s.setTimedQ ch q).flash = s.flash := rfl
@[simp] theorem State.setTimedQ_led (s : State) (ch : Nat) (q : List TimedWord) : (s.setTimedQ ch q).led = s.led := rfl
@[simp] theorem State.setTimedQ_front (s : State) (ch : Nat) (q : List TimedWord) : (s.setTimedQ ch q).front = s.front := rfl
@[simp] theorem State.setTimedQ_adc (s : State) (ch : Nat) (q : List TimedWord) : (s.setTimedQ ch q).adc = s.adc := rfl
@[simp] theorem State.setTimedQ_lf (s : State) (ch : Nat) (q : List TimedWord) : (s.setTimedQ ch q).lf = s.lf := rfl
@[simp] theorem State.setTimedQ_cap (s : State) (ch : Nat) (q : List TimedWord) : (s.setTimedQ ch q).cap = s.cap := rfl
@[simp] theorem State.setTimedQ_uhf (s : State) (ch : Nat) (q : List TimedWord) : (s.setTimedQ ch q).uhf = s.uhf := rfl
@[simp] theorem State.setTimedQ_range (s : State) (ch : Nat) (q : List TimedWord) : (s.setTimedQ ch q).range = s.range := rfl
@[simp] theorem State.setTimedQ_ble (s : State) (ch : Nat) (q : List TimedWord) : (s.setTimedQ ch q).ble = s.ble := rfl
@[simp] theorem State.setTimedQ_nfc (s : State) (ch : Nat) (q : List TimedWord) : (s.setTimedQ ch q).nfc = s.nfc := rfl
@[simp] theorem State.setTimedQ_fuses (s : State) (ch : Nat) (q : List TimedWord) : (s.setTimedQ ch q).fuses = s.fuses := rfl
@[simp] theorem State.setTimedQ_kiln (s : State) (ch : Nat) (q : List TimedWord) : (s.setTimedQ ch q).kiln = s.kiln := rfl
@[simp] theorem State.setTimedQ_ent (s : State) (ch : Nat) (q : List TimedWord) : (s.setTimedQ ch q).ent = s.ent := rfl
@[simp] theorem State.setTimedQ_creds (s : State) (ch : Nat) (q : List TimedWord) : (s.setTimedQ ch q).creds = s.creds := rfl
@[simp] theorem State.setTimedQ_start (s : State) (ch : Nat) (q : List TimedWord) : (s.setTimedQ ch q).start = s.start := rfl
@[simp] theorem State.setTimedQ_net (s : State) (ch : Nat) (q : List TimedWord) : (s.setTimedQ ch q).net = s.net := rfl
@[simp] theorem State.setTimedQ_adit (s : State) (ch : Nat) (q : List TimedWord) : (s.setTimedQ ch q).adit = s.adit := rfl
@[simp] theorem State.setTimedQ_host (s : State) (ch : Nat) (q : List TimedWord) : (s.setTimedQ ch q).host = s.host := rfl
@[simp] theorem State.setTimedQ_reg (s : State) (ch : Nat) (q : List TimedWord) (j : Nat) : (s.setTimedQ ch q).reg j = s.reg j := rfl
@[simp] theorem State.setTimedQ_fld (s : State) (ch : Nat) (q : List TimedWord) (j hi lo : Nat) : (s.setTimedQ ch q).fld j hi lo = s.fld j hi lo := rfl
@[simp] theorem State.setTimedQ_rbit (s : State) (ch : Nat) (q : List TimedWord) (j i : Nat) : (s.setTimedQ ch q).rbit j i = s.rbit j i := rfl

/-! ### setLines -/

@[simp] theorem State.setLines_pending (s : State) (c : Fin 6) (l : List Line) : (s.setLines c l).pending = s.pending := rfl
@[simp] theorem State.setLines_free (s : State) (c : Fin 6) (l : List Line) : (s.setLines c l).free = s.free := rfl
@[simp] theorem State.setLines_regs (s : State) (c : Fin 6) (l : List Line) : (s.setLines c l).regs = s.regs := rfl
@[simp] theorem State.setLines_sys (s : State) (c : Fin 6) (l : List Line) : (s.setLines c l).sys = s.sys := rfl
@[simp] theorem State.setLines_clk (s : State) (c : Fin 6) (l : List Line) : (s.setLines c l).clk = s.clk := rfl
@[simp] theorem State.setLines_pwr (s : State) (c : Fin 6) (l : List Line) : (s.setLines c l).pwr = s.pwr := rfl
@[simp] theorem State.setLines_assay (s : State) (c : Fin 6) (l : List Line) : (s.setLines c l).assay = s.assay := rfl
@[simp] theorem State.setLines_cores (s : State) (c : Fin 6) (l : List Line) : (s.setLines c l).cores = s.cores := rfl
@[simp] theorem State.setLines_chans (s : State) (c : Fin 6) (l : List Line) : (s.setLines c l).chans = s.chans := rfl
@[simp] theorem State.setLines_flash (s : State) (c : Fin 6) (l : List Line) : (s.setLines c l).flash = s.flash := rfl
@[simp] theorem State.setLines_led (s : State) (c : Fin 6) (l : List Line) : (s.setLines c l).led = s.led := rfl
@[simp] theorem State.setLines_front (s : State) (c : Fin 6) (l : List Line) : (s.setLines c l).front = s.front := rfl
@[simp] theorem State.setLines_adc (s : State) (c : Fin 6) (l : List Line) : (s.setLines c l).adc = s.adc := rfl
@[simp] theorem State.setLines_lf (s : State) (c : Fin 6) (l : List Line) : (s.setLines c l).lf = s.lf := rfl
@[simp] theorem State.setLines_cap (s : State) (c : Fin 6) (l : List Line) : (s.setLines c l).cap = s.cap := rfl
@[simp] theorem State.setLines_uhf (s : State) (c : Fin 6) (l : List Line) : (s.setLines c l).uhf = s.uhf := rfl
@[simp] theorem State.setLines_range (s : State) (c : Fin 6) (l : List Line) : (s.setLines c l).range = s.range := rfl
@[simp] theorem State.setLines_ble (s : State) (c : Fin 6) (l : List Line) : (s.setLines c l).ble = s.ble := rfl
@[simp] theorem State.setLines_nfc (s : State) (c : Fin 6) (l : List Line) : (s.setLines c l).nfc = s.nfc := rfl
@[simp] theorem State.setLines_fuses (s : State) (c : Fin 6) (l : List Line) : (s.setLines c l).fuses = s.fuses := rfl
@[simp] theorem State.setLines_kiln (s : State) (c : Fin 6) (l : List Line) : (s.setLines c l).kiln = s.kiln := rfl
@[simp] theorem State.setLines_ent (s : State) (c : Fin 6) (l : List Line) : (s.setLines c l).ent = s.ent := rfl
@[simp] theorem State.setLines_creds (s : State) (c : Fin 6) (l : List Line) : (s.setLines c l).creds = s.creds := rfl
@[simp] theorem State.setLines_start (s : State) (c : Fin 6) (l : List Line) : (s.setLines c l).start = s.start := rfl
@[simp] theorem State.setLines_net (s : State) (c : Fin 6) (l : List Line) : (s.setLines c l).net = s.net := rfl
@[simp] theorem State.setLines_adit (s : State) (c : Fin 6) (l : List Line) : (s.setLines c l).adit = s.adit := rfl
@[simp] theorem State.setLines_host (s : State) (c : Fin 6) (l : List Line) : (s.setLines c l).host = s.host := rfl
@[simp] theorem State.setLines_reg (s : State) (c : Fin 6) (l : List Line) (j : Nat) : (s.setLines c l).reg j = s.reg j := rfl
@[simp] theorem State.setLines_fld (s : State) (c : Fin 6) (l : List Line) (j hi lo : Nat) : (s.setLines c l).fld j hi lo = s.fld j hi lo := rfl
@[simp] theorem State.setLines_rbit (s : State) (c : Fin 6) (l : List Line) (j i : Nat) : (s.setLines c l).rbit j i = s.rbit j i := rfl
@[simp] theorem State.setLines_chan (s : State) (c : Fin 6) (l : List Line) (j : Nat) : (s.setLines c l).chan j = s.chan j := rfl

/-! ### setIlines -/

@[simp] theorem State.setIlines_pending (s : State) (c : Fin 6) (l : List Line) : (s.setIlines c l).pending = s.pending := rfl
@[simp] theorem State.setIlines_free (s : State) (c : Fin 6) (l : List Line) : (s.setIlines c l).free = s.free := rfl
@[simp] theorem State.setIlines_regs (s : State) (c : Fin 6) (l : List Line) : (s.setIlines c l).regs = s.regs := rfl
@[simp] theorem State.setIlines_sys (s : State) (c : Fin 6) (l : List Line) : (s.setIlines c l).sys = s.sys := rfl
@[simp] theorem State.setIlines_clk (s : State) (c : Fin 6) (l : List Line) : (s.setIlines c l).clk = s.clk := rfl
@[simp] theorem State.setIlines_pwr (s : State) (c : Fin 6) (l : List Line) : (s.setIlines c l).pwr = s.pwr := rfl
@[simp] theorem State.setIlines_assay (s : State) (c : Fin 6) (l : List Line) : (s.setIlines c l).assay = s.assay := rfl
@[simp] theorem State.setIlines_cores (s : State) (c : Fin 6) (l : List Line) : (s.setIlines c l).cores = s.cores := rfl
@[simp] theorem State.setIlines_chans (s : State) (c : Fin 6) (l : List Line) : (s.setIlines c l).chans = s.chans := rfl
@[simp] theorem State.setIlines_flash (s : State) (c : Fin 6) (l : List Line) : (s.setIlines c l).flash = s.flash := rfl
@[simp] theorem State.setIlines_led (s : State) (c : Fin 6) (l : List Line) : (s.setIlines c l).led = s.led := rfl
@[simp] theorem State.setIlines_front (s : State) (c : Fin 6) (l : List Line) : (s.setIlines c l).front = s.front := rfl
@[simp] theorem State.setIlines_adc (s : State) (c : Fin 6) (l : List Line) : (s.setIlines c l).adc = s.adc := rfl
@[simp] theorem State.setIlines_lf (s : State) (c : Fin 6) (l : List Line) : (s.setIlines c l).lf = s.lf := rfl
@[simp] theorem State.setIlines_cap (s : State) (c : Fin 6) (l : List Line) : (s.setIlines c l).cap = s.cap := rfl
@[simp] theorem State.setIlines_uhf (s : State) (c : Fin 6) (l : List Line) : (s.setIlines c l).uhf = s.uhf := rfl
@[simp] theorem State.setIlines_range (s : State) (c : Fin 6) (l : List Line) : (s.setIlines c l).range = s.range := rfl
@[simp] theorem State.setIlines_ble (s : State) (c : Fin 6) (l : List Line) : (s.setIlines c l).ble = s.ble := rfl
@[simp] theorem State.setIlines_nfc (s : State) (c : Fin 6) (l : List Line) : (s.setIlines c l).nfc = s.nfc := rfl
@[simp] theorem State.setIlines_fuses (s : State) (c : Fin 6) (l : List Line) : (s.setIlines c l).fuses = s.fuses := rfl
@[simp] theorem State.setIlines_kiln (s : State) (c : Fin 6) (l : List Line) : (s.setIlines c l).kiln = s.kiln := rfl
@[simp] theorem State.setIlines_ent (s : State) (c : Fin 6) (l : List Line) : (s.setIlines c l).ent = s.ent := rfl
@[simp] theorem State.setIlines_creds (s : State) (c : Fin 6) (l : List Line) : (s.setIlines c l).creds = s.creds := rfl
@[simp] theorem State.setIlines_start (s : State) (c : Fin 6) (l : List Line) : (s.setIlines c l).start = s.start := rfl
@[simp] theorem State.setIlines_net (s : State) (c : Fin 6) (l : List Line) : (s.setIlines c l).net = s.net := rfl
@[simp] theorem State.setIlines_adit (s : State) (c : Fin 6) (l : List Line) : (s.setIlines c l).adit = s.adit := rfl
@[simp] theorem State.setIlines_host (s : State) (c : Fin 6) (l : List Line) : (s.setIlines c l).host = s.host := rfl
@[simp] theorem State.setIlines_reg (s : State) (c : Fin 6) (l : List Line) (j : Nat) : (s.setIlines c l).reg j = s.reg j := rfl
@[simp] theorem State.setIlines_fld (s : State) (c : Fin 6) (l : List Line) (j hi lo : Nat) : (s.setIlines c l).fld j hi lo = s.fld j hi lo := rfl
@[simp] theorem State.setIlines_rbit (s : State) (c : Fin 6) (l : List Line) (j i : Nat) : (s.setIlines c l).rbit j i = s.rbit j i := rfl
@[simp] theorem State.setIlines_chan (s : State) (c : Fin 6) (l : List Line) (j : Nat) : (s.setIlines c l).chan j = s.chan j := rfl

/-! ### putQueue -/

@[simp] theorem State.putQueue_pending (s : State) (n : Nat) (q : Queue) : (s.putQueue n q).pending = s.pending := rfl
@[simp] theorem State.putQueue_free (s : State) (n : Nat) (q : Queue) : (s.putQueue n q).free = s.free := rfl
@[simp] theorem State.putQueue_regs (s : State) (n : Nat) (q : Queue) : (s.putQueue n q).regs = s.regs := rfl
@[simp] theorem State.putQueue_sys (s : State) (n : Nat) (q : Queue) : (s.putQueue n q).sys = s.sys := rfl
@[simp] theorem State.putQueue_clk (s : State) (n : Nat) (q : Queue) : (s.putQueue n q).clk = s.clk := rfl
@[simp] theorem State.putQueue_pwr (s : State) (n : Nat) (q : Queue) : (s.putQueue n q).pwr = s.pwr := rfl
@[simp] theorem State.putQueue_assay (s : State) (n : Nat) (q : Queue) : (s.putQueue n q).assay = s.assay := rfl
@[simp] theorem State.putQueue_cores (s : State) (n : Nat) (q : Queue) : (s.putQueue n q).cores = s.cores := rfl
@[simp] theorem State.putQueue_chans (s : State) (n : Nat) (q : Queue) : (s.putQueue n q).chans = s.chans := rfl
@[simp] theorem State.putQueue_mem (s : State) (n : Nat) (q : Queue) : (s.putQueue n q).mem = s.mem := rfl
@[simp] theorem State.putQueue_flash (s : State) (n : Nat) (q : Queue) : (s.putQueue n q).flash = s.flash := rfl
@[simp] theorem State.putQueue_led (s : State) (n : Nat) (q : Queue) : (s.putQueue n q).led = s.led := rfl
@[simp] theorem State.putQueue_adc (s : State) (n : Nat) (q : Queue) : (s.putQueue n q).adc = s.adc := rfl
@[simp] theorem State.putQueue_lf (s : State) (n : Nat) (q : Queue) : (s.putQueue n q).lf = s.lf := rfl
@[simp] theorem State.putQueue_cap (s : State) (n : Nat) (q : Queue) : (s.putQueue n q).cap = s.cap := rfl
@[simp] theorem State.putQueue_uhf (s : State) (n : Nat) (q : Queue) : (s.putQueue n q).uhf = s.uhf := rfl
@[simp] theorem State.putQueue_range (s : State) (n : Nat) (q : Queue) : (s.putQueue n q).range = s.range := rfl
@[simp] theorem State.putQueue_ble (s : State) (n : Nat) (q : Queue) : (s.putQueue n q).ble = s.ble := rfl
@[simp] theorem State.putQueue_nfc (s : State) (n : Nat) (q : Queue) : (s.putQueue n q).nfc = s.nfc := rfl
@[simp] theorem State.putQueue_fuses (s : State) (n : Nat) (q : Queue) : (s.putQueue n q).fuses = s.fuses := rfl
@[simp] theorem State.putQueue_kiln (s : State) (n : Nat) (q : Queue) : (s.putQueue n q).kiln = s.kiln := rfl
@[simp] theorem State.putQueue_ent (s : State) (n : Nat) (q : Queue) : (s.putQueue n q).ent = s.ent := rfl
@[simp] theorem State.putQueue_creds (s : State) (n : Nat) (q : Queue) : (s.putQueue n q).creds = s.creds := rfl
@[simp] theorem State.putQueue_start (s : State) (n : Nat) (q : Queue) : (s.putQueue n q).start = s.start := rfl
@[simp] theorem State.putQueue_net (s : State) (n : Nat) (q : Queue) : (s.putQueue n q).net = s.net := rfl
@[simp] theorem State.putQueue_adit (s : State) (n : Nat) (q : Queue) : (s.putQueue n q).adit = s.adit := rfl
@[simp] theorem State.putQueue_host (s : State) (n : Nat) (q : Queue) : (s.putQueue n q).host = s.host := rfl
@[simp] theorem State.putQueue_reg (s : State) (n : Nat) (q : Queue) (j : Nat) : (s.putQueue n q).reg j = s.reg j := rfl
@[simp] theorem State.putQueue_fld (s : State) (n : Nat) (q : Queue) (j hi lo : Nat) : (s.putQueue n q).fld j hi lo = s.fld j hi lo := rfl
@[simp] theorem State.putQueue_rbit (s : State) (n : Nat) (q : Queue) (j i : Nat) : (s.putQueue n q).rbit j i = s.rbit j i := rfl
@[simp] theorem State.putQueue_chan (s : State) (n : Nat) (q : Queue) (j : Nat) : (s.putQueue n q).chan j = s.chan j := rfl

/-! ### setCage -/

@[simp] theorem State.setCage_pending (s : State) (c : Fin 8) (g : Cage) : (s.setCage c g).pending = s.pending := rfl
@[simp] theorem State.setCage_free (s : State) (c : Fin 8) (g : Cage) : (s.setCage c g).free = s.free := rfl
@[simp] theorem State.setCage_regs (s : State) (c : Fin 8) (g : Cage) : (s.setCage c g).regs = s.regs := rfl
@[simp] theorem State.setCage_sys (s : State) (c : Fin 8) (g : Cage) : (s.setCage c g).sys = s.sys := rfl
@[simp] theorem State.setCage_clk (s : State) (c : Fin 8) (g : Cage) : (s.setCage c g).clk = s.clk := rfl
@[simp] theorem State.setCage_pwr (s : State) (c : Fin 8) (g : Cage) : (s.setCage c g).pwr = s.pwr := rfl
@[simp] theorem State.setCage_assay (s : State) (c : Fin 8) (g : Cage) : (s.setCage c g).assay = s.assay := rfl
@[simp] theorem State.setCage_cores (s : State) (c : Fin 8) (g : Cage) : (s.setCage c g).cores = s.cores := rfl
@[simp] theorem State.setCage_chans (s : State) (c : Fin 8) (g : Cage) : (s.setCage c g).chans = s.chans := rfl
@[simp] theorem State.setCage_mem (s : State) (c : Fin 8) (g : Cage) : (s.setCage c g).mem = s.mem := rfl
@[simp] theorem State.setCage_flash (s : State) (c : Fin 8) (g : Cage) : (s.setCage c g).flash = s.flash := rfl
@[simp] theorem State.setCage_led (s : State) (c : Fin 8) (g : Cage) : (s.setCage c g).led = s.led := rfl
@[simp] theorem State.setCage_adc (s : State) (c : Fin 8) (g : Cage) : (s.setCage c g).adc = s.adc := rfl
@[simp] theorem State.setCage_lf (s : State) (c : Fin 8) (g : Cage) : (s.setCage c g).lf = s.lf := rfl
@[simp] theorem State.setCage_cap (s : State) (c : Fin 8) (g : Cage) : (s.setCage c g).cap = s.cap := rfl
@[simp] theorem State.setCage_uhf (s : State) (c : Fin 8) (g : Cage) : (s.setCage c g).uhf = s.uhf := rfl
@[simp] theorem State.setCage_range (s : State) (c : Fin 8) (g : Cage) : (s.setCage c g).range = s.range := rfl
@[simp] theorem State.setCage_ble (s : State) (c : Fin 8) (g : Cage) : (s.setCage c g).ble = s.ble := rfl
@[simp] theorem State.setCage_nfc (s : State) (c : Fin 8) (g : Cage) : (s.setCage c g).nfc = s.nfc := rfl
@[simp] theorem State.setCage_fuses (s : State) (c : Fin 8) (g : Cage) : (s.setCage c g).fuses = s.fuses := rfl
@[simp] theorem State.setCage_kiln (s : State) (c : Fin 8) (g : Cage) : (s.setCage c g).kiln = s.kiln := rfl
@[simp] theorem State.setCage_ent (s : State) (c : Fin 8) (g : Cage) : (s.setCage c g).ent = s.ent := rfl
@[simp] theorem State.setCage_creds (s : State) (c : Fin 8) (g : Cage) : (s.setCage c g).creds = s.creds := rfl
@[simp] theorem State.setCage_start (s : State) (c : Fin 8) (g : Cage) : (s.setCage c g).start = s.start := rfl
@[simp] theorem State.setCage_net (s : State) (c : Fin 8) (g : Cage) : (s.setCage c g).net = s.net := rfl
@[simp] theorem State.setCage_adit (s : State) (c : Fin 8) (g : Cage) : (s.setCage c g).adit = s.adit := rfl
@[simp] theorem State.setCage_host (s : State) (c : Fin 8) (g : Cage) : (s.setCage c g).host = s.host := rfl
@[simp] theorem State.setCage_reg (s : State) (c : Fin 8) (g : Cage) (j : Nat) : (s.setCage c g).reg j = s.reg j := rfl
@[simp] theorem State.setCage_fld (s : State) (c : Fin 8) (g : Cage) (j hi lo : Nat) : (s.setCage c g).fld j hi lo = s.fld j hi lo := rfl
@[simp] theorem State.setCage_rbit (s : State) (c : Fin 8) (g : Cage) (j i : Nat) : (s.setCage c g).rbit j i = s.rbit j i := rfl
@[simp] theorem State.setCage_chan (s : State) (c : Fin 8) (g : Cage) (j : Nat) : (s.setCage c g).chan j = s.chan j := rfl

/-! ### setEngine -/

@[simp] theorem State.setEngine_pending (s : State) (e : Nat) (x : Engine) : (s.setEngine e x).pending = s.pending := rfl
@[simp] theorem State.setEngine_free (s : State) (e : Nat) (x : Engine) : (s.setEngine e x).free = s.free := rfl
@[simp] theorem State.setEngine_regs (s : State) (e : Nat) (x : Engine) : (s.setEngine e x).regs = s.regs := rfl
@[simp] theorem State.setEngine_sys (s : State) (e : Nat) (x : Engine) : (s.setEngine e x).sys = s.sys := rfl
@[simp] theorem State.setEngine_clk (s : State) (e : Nat) (x : Engine) : (s.setEngine e x).clk = s.clk := rfl
@[simp] theorem State.setEngine_pwr (s : State) (e : Nat) (x : Engine) : (s.setEngine e x).pwr = s.pwr := rfl
@[simp] theorem State.setEngine_assay (s : State) (e : Nat) (x : Engine) : (s.setEngine e x).assay = s.assay := rfl
@[simp] theorem State.setEngine_cores (s : State) (e : Nat) (x : Engine) : (s.setEngine e x).cores = s.cores := rfl
@[simp] theorem State.setEngine_chans (s : State) (e : Nat) (x : Engine) : (s.setEngine e x).chans = s.chans := rfl
@[simp] theorem State.setEngine_mem (s : State) (e : Nat) (x : Engine) : (s.setEngine e x).mem = s.mem := rfl
@[simp] theorem State.setEngine_flash (s : State) (e : Nat) (x : Engine) : (s.setEngine e x).flash = s.flash := rfl
@[simp] theorem State.setEngine_led (s : State) (e : Nat) (x : Engine) : (s.setEngine e x).led = s.led := rfl
@[simp] theorem State.setEngine_adc (s : State) (e : Nat) (x : Engine) : (s.setEngine e x).adc = s.adc := rfl
@[simp] theorem State.setEngine_lf (s : State) (e : Nat) (x : Engine) : (s.setEngine e x).lf = s.lf := rfl
@[simp] theorem State.setEngine_cap (s : State) (e : Nat) (x : Engine) : (s.setEngine e x).cap = s.cap := rfl
@[simp] theorem State.setEngine_uhf (s : State) (e : Nat) (x : Engine) : (s.setEngine e x).uhf = s.uhf := rfl
@[simp] theorem State.setEngine_range (s : State) (e : Nat) (x : Engine) : (s.setEngine e x).range = s.range := rfl
@[simp] theorem State.setEngine_ble (s : State) (e : Nat) (x : Engine) : (s.setEngine e x).ble = s.ble := rfl
@[simp] theorem State.setEngine_nfc (s : State) (e : Nat) (x : Engine) : (s.setEngine e x).nfc = s.nfc := rfl
@[simp] theorem State.setEngine_fuses (s : State) (e : Nat) (x : Engine) : (s.setEngine e x).fuses = s.fuses := rfl
@[simp] theorem State.setEngine_kiln (s : State) (e : Nat) (x : Engine) : (s.setEngine e x).kiln = s.kiln := rfl
@[simp] theorem State.setEngine_ent (s : State) (e : Nat) (x : Engine) : (s.setEngine e x).ent = s.ent := rfl
@[simp] theorem State.setEngine_creds (s : State) (e : Nat) (x : Engine) : (s.setEngine e x).creds = s.creds := rfl
@[simp] theorem State.setEngine_start (s : State) (e : Nat) (x : Engine) : (s.setEngine e x).start = s.start := rfl
@[simp] theorem State.setEngine_net (s : State) (e : Nat) (x : Engine) : (s.setEngine e x).net = s.net := rfl
@[simp] theorem State.setEngine_adit (s : State) (e : Nat) (x : Engine) : (s.setEngine e x).adit = s.adit := rfl
@[simp] theorem State.setEngine_host (s : State) (e : Nat) (x : Engine) : (s.setEngine e x).host = s.host := rfl
@[simp] theorem State.setEngine_reg (s : State) (e : Nat) (x : Engine) (j : Nat) : (s.setEngine e x).reg j = s.reg j := rfl
@[simp] theorem State.setEngine_fld (s : State) (e : Nat) (x : Engine) (j hi lo : Nat) : (s.setEngine e x).fld j hi lo = s.fld j hi lo := rfl
@[simp] theorem State.setEngine_rbit (s : State) (e : Nat) (x : Engine) (j i : Nat) : (s.setEngine e x).rbit j i = s.rbit j i := rfl
@[simp] theorem State.setEngine_chan (s : State) (e : Nat) (x : Engine) (j : Nat) : (s.setEngine e x).chan j = s.chan j := rfl

/-! ### setSlot -/

@[simp] theorem State.setSlot_pending (s : State) (n : Nat) (x : Slot) : (s.setSlot n x).pending = s.pending := rfl
@[simp] theorem State.setSlot_free (s : State) (n : Nat) (x : Slot) : (s.setSlot n x).free = s.free := rfl
@[simp] theorem State.setSlot_regs (s : State) (n : Nat) (x : Slot) : (s.setSlot n x).regs = s.regs := rfl
@[simp] theorem State.setSlot_sys (s : State) (n : Nat) (x : Slot) : (s.setSlot n x).sys = s.sys := rfl
@[simp] theorem State.setSlot_clk (s : State) (n : Nat) (x : Slot) : (s.setSlot n x).clk = s.clk := rfl
@[simp] theorem State.setSlot_pwr (s : State) (n : Nat) (x : Slot) : (s.setSlot n x).pwr = s.pwr := rfl
@[simp] theorem State.setSlot_assay (s : State) (n : Nat) (x : Slot) : (s.setSlot n x).assay = s.assay := rfl
@[simp] theorem State.setSlot_cores (s : State) (n : Nat) (x : Slot) : (s.setSlot n x).cores = s.cores := rfl
@[simp] theorem State.setSlot_chans (s : State) (n : Nat) (x : Slot) : (s.setSlot n x).chans = s.chans := rfl
@[simp] theorem State.setSlot_mem (s : State) (n : Nat) (x : Slot) : (s.setSlot n x).mem = s.mem := rfl
@[simp] theorem State.setSlot_flash (s : State) (n : Nat) (x : Slot) : (s.setSlot n x).flash = s.flash := rfl
@[simp] theorem State.setSlot_led (s : State) (n : Nat) (x : Slot) : (s.setSlot n x).led = s.led := rfl
@[simp] theorem State.setSlot_front (s : State) (n : Nat) (x : Slot) : (s.setSlot n x).front = s.front := rfl
@[simp] theorem State.setSlot_adc (s : State) (n : Nat) (x : Slot) : (s.setSlot n x).adc = s.adc := rfl
@[simp] theorem State.setSlot_lf (s : State) (n : Nat) (x : Slot) : (s.setSlot n x).lf = s.lf := rfl
@[simp] theorem State.setSlot_cap (s : State) (n : Nat) (x : Slot) : (s.setSlot n x).cap = s.cap := rfl
@[simp] theorem State.setSlot_uhf (s : State) (n : Nat) (x : Slot) : (s.setSlot n x).uhf = s.uhf := rfl
@[simp] theorem State.setSlot_range (s : State) (n : Nat) (x : Slot) : (s.setSlot n x).range = s.range := rfl
@[simp] theorem State.setSlot_ble (s : State) (n : Nat) (x : Slot) : (s.setSlot n x).ble = s.ble := rfl
@[simp] theorem State.setSlot_nfc (s : State) (n : Nat) (x : Slot) : (s.setSlot n x).nfc = s.nfc := rfl
@[simp] theorem State.setSlot_fuses (s : State) (n : Nat) (x : Slot) : (s.setSlot n x).fuses = s.fuses := rfl
@[simp] theorem State.setSlot_ent (s : State) (n : Nat) (x : Slot) : (s.setSlot n x).ent = s.ent := rfl
@[simp] theorem State.setSlot_creds (s : State) (n : Nat) (x : Slot) : (s.setSlot n x).creds = s.creds := rfl
@[simp] theorem State.setSlot_start (s : State) (n : Nat) (x : Slot) : (s.setSlot n x).start = s.start := rfl
@[simp] theorem State.setSlot_net (s : State) (n : Nat) (x : Slot) : (s.setSlot n x).net = s.net := rfl
@[simp] theorem State.setSlot_adit (s : State) (n : Nat) (x : Slot) : (s.setSlot n x).adit = s.adit := rfl
@[simp] theorem State.setSlot_host (s : State) (n : Nat) (x : Slot) : (s.setSlot n x).host = s.host := rfl
@[simp] theorem State.setSlot_reg (s : State) (n : Nat) (x : Slot) (j : Nat) : (s.setSlot n x).reg j = s.reg j := rfl
@[simp] theorem State.setSlot_fld (s : State) (n : Nat) (x : Slot) (j hi lo : Nat) : (s.setSlot n x).fld j hi lo = s.fld j hi lo := rfl
@[simp] theorem State.setSlot_rbit (s : State) (n : Nat) (x : Slot) (j i : Nat) : (s.setSlot n x).rbit j i = s.rbit j i := rfl
@[simp] theorem State.setSlot_chan (s : State) (n : Nat) (x : Slot) (j : Nat) : (s.setSlot n x).chan j = s.chan j := rfl

/-! ### setKsess -/

@[simp] theorem State.setKsess_pending (s : State) (n : Nat) (k : KSession) : (s.setKsess n k).pending = s.pending := rfl
@[simp] theorem State.setKsess_free (s : State) (n : Nat) (k : KSession) : (s.setKsess n k).free = s.free := rfl
@[simp] theorem State.setKsess_regs (s : State) (n : Nat) (k : KSession) : (s.setKsess n k).regs = s.regs := rfl
@[simp] theorem State.setKsess_sys (s : State) (n : Nat) (k : KSession) : (s.setKsess n k).sys = s.sys := rfl
@[simp] theorem State.setKsess_clk (s : State) (n : Nat) (k : KSession) : (s.setKsess n k).clk = s.clk := rfl
@[simp] theorem State.setKsess_pwr (s : State) (n : Nat) (k : KSession) : (s.setKsess n k).pwr = s.pwr := rfl
@[simp] theorem State.setKsess_assay (s : State) (n : Nat) (k : KSession) : (s.setKsess n k).assay = s.assay := rfl
@[simp] theorem State.setKsess_cores (s : State) (n : Nat) (k : KSession) : (s.setKsess n k).cores = s.cores := rfl
@[simp] theorem State.setKsess_chans (s : State) (n : Nat) (k : KSession) : (s.setKsess n k).chans = s.chans := rfl
@[simp] theorem State.setKsess_mem (s : State) (n : Nat) (k : KSession) : (s.setKsess n k).mem = s.mem := rfl
@[simp] theorem State.setKsess_flash (s : State) (n : Nat) (k : KSession) : (s.setKsess n k).flash = s.flash := rfl
@[simp] theorem State.setKsess_led (s : State) (n : Nat) (k : KSession) : (s.setKsess n k).led = s.led := rfl
@[simp] theorem State.setKsess_front (s : State) (n : Nat) (k : KSession) : (s.setKsess n k).front = s.front := rfl
@[simp] theorem State.setKsess_adc (s : State) (n : Nat) (k : KSession) : (s.setKsess n k).adc = s.adc := rfl
@[simp] theorem State.setKsess_lf (s : State) (n : Nat) (k : KSession) : (s.setKsess n k).lf = s.lf := rfl
@[simp] theorem State.setKsess_cap (s : State) (n : Nat) (k : KSession) : (s.setKsess n k).cap = s.cap := rfl
@[simp] theorem State.setKsess_uhf (s : State) (n : Nat) (k : KSession) : (s.setKsess n k).uhf = s.uhf := rfl
@[simp] theorem State.setKsess_range (s : State) (n : Nat) (k : KSession) : (s.setKsess n k).range = s.range := rfl
@[simp] theorem State.setKsess_ble (s : State) (n : Nat) (k : KSession) : (s.setKsess n k).ble = s.ble := rfl
@[simp] theorem State.setKsess_nfc (s : State) (n : Nat) (k : KSession) : (s.setKsess n k).nfc = s.nfc := rfl
@[simp] theorem State.setKsess_fuses (s : State) (n : Nat) (k : KSession) : (s.setKsess n k).fuses = s.fuses := rfl
@[simp] theorem State.setKsess_kiln (s : State) (n : Nat) (k : KSession) : (s.setKsess n k).kiln = s.kiln := rfl
@[simp] theorem State.setKsess_ent (s : State) (n : Nat) (k : KSession) : (s.setKsess n k).ent = s.ent := rfl
@[simp] theorem State.setKsess_start (s : State) (n : Nat) (k : KSession) : (s.setKsess n k).start = s.start := rfl
@[simp] theorem State.setKsess_net (s : State) (n : Nat) (k : KSession) : (s.setKsess n k).net = s.net := rfl
@[simp] theorem State.setKsess_adit (s : State) (n : Nat) (k : KSession) : (s.setKsess n k).adit = s.adit := rfl
@[simp] theorem State.setKsess_host (s : State) (n : Nat) (k : KSession) : (s.setKsess n k).host = s.host := rfl
@[simp] theorem State.setKsess_reg (s : State) (n : Nat) (k : KSession) (j : Nat) : (s.setKsess n k).reg j = s.reg j := rfl
@[simp] theorem State.setKsess_fld (s : State) (n : Nat) (k : KSession) (j hi lo : Nat) : (s.setKsess n k).fld j hi lo = s.fld j hi lo := rfl
@[simp] theorem State.setKsess_rbit (s : State) (n : Nat) (k : KSession) (j i : Nat) : (s.setKsess n k).rbit j i = s.rbit j i := rfl
@[simp] theorem State.setKsess_chan (s : State) (n : Nat) (k : KSession) (j : Nat) : (s.setKsess n k).chan j = s.chan j := rfl

/-! ### onStart -/

@[simp] theorem State.onStart_pending (s : State) (f : Start → Start) : (s.onStart f).pending = s.pending := rfl
@[simp] theorem State.onStart_free (s : State) (f : Start → Start) : (s.onStart f).free = s.free := rfl
@[simp] theorem State.onStart_regs (s : State) (f : Start → Start) : (s.onStart f).regs = s.regs := rfl
@[simp] theorem State.onStart_sys (s : State) (f : Start → Start) : (s.onStart f).sys = s.sys := rfl
@[simp] theorem State.onStart_clk (s : State) (f : Start → Start) : (s.onStart f).clk = s.clk := rfl
@[simp] theorem State.onStart_pwr (s : State) (f : Start → Start) : (s.onStart f).pwr = s.pwr := rfl
@[simp] theorem State.onStart_assay (s : State) (f : Start → Start) : (s.onStart f).assay = s.assay := rfl
@[simp] theorem State.onStart_cores (s : State) (f : Start → Start) : (s.onStart f).cores = s.cores := rfl
@[simp] theorem State.onStart_chans (s : State) (f : Start → Start) : (s.onStart f).chans = s.chans := rfl
@[simp] theorem State.onStart_mem (s : State) (f : Start → Start) : (s.onStart f).mem = s.mem := rfl
@[simp] theorem State.onStart_flash (s : State) (f : Start → Start) : (s.onStart f).flash = s.flash := rfl
@[simp] theorem State.onStart_led (s : State) (f : Start → Start) : (s.onStart f).led = s.led := rfl
@[simp] theorem State.onStart_front (s : State) (f : Start → Start) : (s.onStart f).front = s.front := rfl
@[simp] theorem State.onStart_adc (s : State) (f : Start → Start) : (s.onStart f).adc = s.adc := rfl
@[simp] theorem State.onStart_lf (s : State) (f : Start → Start) : (s.onStart f).lf = s.lf := rfl
@[simp] theorem State.onStart_cap (s : State) (f : Start → Start) : (s.onStart f).cap = s.cap := rfl
@[simp] theorem State.onStart_uhf (s : State) (f : Start → Start) : (s.onStart f).uhf = s.uhf := rfl
@[simp] theorem State.onStart_range (s : State) (f : Start → Start) : (s.onStart f).range = s.range := rfl
@[simp] theorem State.onStart_ble (s : State) (f : Start → Start) : (s.onStart f).ble = s.ble := rfl
@[simp] theorem State.onStart_nfc (s : State) (f : Start → Start) : (s.onStart f).nfc = s.nfc := rfl
@[simp] theorem State.onStart_fuses (s : State) (f : Start → Start) : (s.onStart f).fuses = s.fuses := rfl
@[simp] theorem State.onStart_kiln (s : State) (f : Start → Start) : (s.onStart f).kiln = s.kiln := rfl
@[simp] theorem State.onStart_ent (s : State) (f : Start → Start) : (s.onStart f).ent = s.ent := rfl
@[simp] theorem State.onStart_creds (s : State) (f : Start → Start) : (s.onStart f).creds = s.creds := rfl
@[simp] theorem State.onStart_net (s : State) (f : Start → Start) : (s.onStart f).net = s.net := rfl
@[simp] theorem State.onStart_adit (s : State) (f : Start → Start) : (s.onStart f).adit = s.adit := rfl
@[simp] theorem State.onStart_host (s : State) (f : Start → Start) : (s.onStart f).host = s.host := rfl
@[simp] theorem State.onStart_reg (s : State) (f : Start → Start) (j : Nat) : (s.onStart f).reg j = s.reg j := rfl
@[simp] theorem State.onStart_fld (s : State) (f : Start → Start) (j hi lo : Nat) : (s.onStart f).fld j hi lo = s.fld j hi lo := rfl
@[simp] theorem State.onStart_rbit (s : State) (f : Start → Start) (j i : Nat) : (s.onStart f).rbit j i = s.rbit j i := rfl
@[simp] theorem State.onStart_chan (s : State) (f : Start → Start) (j : Nat) : (s.onStart f).chan j = s.chan j := rfl

/-! ### onEnt -/

@[simp] theorem State.onEnt_pending (s : State) (f : Ent → Ent) : (s.onEnt f).pending = s.pending := rfl
@[simp] theorem State.onEnt_free (s : State) (f : Ent → Ent) : (s.onEnt f).free = s.free := rfl
@[simp] theorem State.onEnt_regs (s : State) (f : Ent → Ent) : (s.onEnt f).regs = s.regs := rfl
@[simp] theorem State.onEnt_sys (s : State) (f : Ent → Ent) : (s.onEnt f).sys = s.sys := rfl
@[simp] theorem State.onEnt_clk (s : State) (f : Ent → Ent) : (s.onEnt f).clk = s.clk := rfl
@[simp] theorem State.onEnt_pwr (s : State) (f : Ent → Ent) : (s.onEnt f).pwr = s.pwr := rfl
@[simp] theorem State.onEnt_assay (s : State) (f : Ent → Ent) : (s.onEnt f).assay = s.assay := rfl
@[simp] theorem State.onEnt_cores (s : State) (f : Ent → Ent) : (s.onEnt f).cores = s.cores := rfl
@[simp] theorem State.onEnt_chans (s : State) (f : Ent → Ent) : (s.onEnt f).chans = s.chans := rfl
@[simp] theorem State.onEnt_mem (s : State) (f : Ent → Ent) : (s.onEnt f).mem = s.mem := rfl
@[simp] theorem State.onEnt_flash (s : State) (f : Ent → Ent) : (s.onEnt f).flash = s.flash := rfl
@[simp] theorem State.onEnt_led (s : State) (f : Ent → Ent) : (s.onEnt f).led = s.led := rfl
@[simp] theorem State.onEnt_front (s : State) (f : Ent → Ent) : (s.onEnt f).front = s.front := rfl
@[simp] theorem State.onEnt_adc (s : State) (f : Ent → Ent) : (s.onEnt f).adc = s.adc := rfl
@[simp] theorem State.onEnt_lf (s : State) (f : Ent → Ent) : (s.onEnt f).lf = s.lf := rfl
@[simp] theorem State.onEnt_cap (s : State) (f : Ent → Ent) : (s.onEnt f).cap = s.cap := rfl
@[simp] theorem State.onEnt_uhf (s : State) (f : Ent → Ent) : (s.onEnt f).uhf = s.uhf := rfl
@[simp] theorem State.onEnt_range (s : State) (f : Ent → Ent) : (s.onEnt f).range = s.range := rfl
@[simp] theorem State.onEnt_ble (s : State) (f : Ent → Ent) : (s.onEnt f).ble = s.ble := rfl
@[simp] theorem State.onEnt_nfc (s : State) (f : Ent → Ent) : (s.onEnt f).nfc = s.nfc := rfl
@[simp] theorem State.onEnt_fuses (s : State) (f : Ent → Ent) : (s.onEnt f).fuses = s.fuses := rfl
@[simp] theorem State.onEnt_kiln (s : State) (f : Ent → Ent) : (s.onEnt f).kiln = s.kiln := rfl
@[simp] theorem State.onEnt_creds (s : State) (f : Ent → Ent) : (s.onEnt f).creds = s.creds := rfl
@[simp] theorem State.onEnt_start (s : State) (f : Ent → Ent) : (s.onEnt f).start = s.start := rfl
@[simp] theorem State.onEnt_net (s : State) (f : Ent → Ent) : (s.onEnt f).net = s.net := rfl
@[simp] theorem State.onEnt_adit (s : State) (f : Ent → Ent) : (s.onEnt f).adit = s.adit := rfl
@[simp] theorem State.onEnt_host (s : State) (f : Ent → Ent) : (s.onEnt f).host = s.host := rfl
@[simp] theorem State.onEnt_reg (s : State) (f : Ent → Ent) (j : Nat) : (s.onEnt f).reg j = s.reg j := rfl
@[simp] theorem State.onEnt_fld (s : State) (f : Ent → Ent) (j hi lo : Nat) : (s.onEnt f).fld j hi lo = s.fld j hi lo := rfl
@[simp] theorem State.onEnt_rbit (s : State) (f : Ent → Ent) (j i : Nat) : (s.onEnt f).rbit j i = s.rbit j i := rfl
@[simp] theorem State.onEnt_chan (s : State) (f : Ent → Ent) (j : Nat) : (s.onEnt f).chan j = s.chan j := rfl

end Sys2Proof.Machine
end

