-- ==== Sys2Proof/Laws/Blocks.lean ====
section
/-! SUPPORT. What the shared operations of the blocks change: one lemma for each. -/
namespace Sys2Proof.Machine

theorem getLsbD_setBits (w : Word) (hi lo v j : Nat) (hj : j < 32) :
    (setBits w hi lo v).getLsbD j = if lo ≤ j ∧ j ≤ hi then v.testBit (j - lo) else w.getLsbD j := by
  unfold setBits
  simp only [BitVec.getLsbD_or, BitVec.getLsbD_and, BitVec.getLsbD_not, BitVec.getLsbD_ofNat, hj, decide_true, Bool.true_and,
    Nat.testBit_shiftLeft, Nat.testBit_two_pow_sub_one, Nat.testBit_mod_two_pow]
  by_cases h1 : lo ≤ j
  · by_cases h2 : j ≤ hi
    · simp [h1, h2, show j - lo < hi + 1 - lo by omega]
    · simp [h1, h2, show ¬ (j - lo < hi + 1 - lo) by omega]
  · simp [h1]

theorem testBit_bits {n : Nat} (w : BitVec n) (hi lo j : Nat) : (bits w hi lo).testBit j = (decide (j < hi + 1 - lo) && w.getLsbD (lo + j)) := by
  unfold bits
  rw [Nat.testBit_mod_two_pow, Nat.testBit_shiftRight]; rfl

theorem bits_setBits (w : Word) (hi lo v : Nat) (h : hi < 32) : bits (setBits w hi lo v) hi lo = v % 2 ^ (hi + 1 - lo) := by
  apply Nat.eq_of_testBit_eq
  intro j
  rw [testBit_bits, Nat.testBit_mod_two_pow]
  by_cases hj : j < hi + 1 - lo
  · rw [getLsbD_setBits _ _ _ _ _ (by omega), if_pos (by omega)]; simp
  · simp [hj]

theorem bits_setBits_ne (w : Word) (hi lo v hi' lo' : Nat) (h : hi' < 32) (hd : hi' < lo ∨ hi < lo') :
    bits (setBits w hi lo v) hi' lo' = bits w hi' lo' := by
  apply Nat.eq_of_testBit_eq
  intro j
  rw [testBit_bits, testBit_bits]
  by_cases hj : j < hi' + 1 - lo'
  · rw [getLsbD_setBits _ _ _ _ _ (by omega), if_neg (by omega)]
  · simp [hj]

theorem bits_setBit_ne (w : Word) (i : Nat) (b : Bool) (hi lo : Nat) (h : hi < 32) (hd : hi < i ∨ i < lo) :
    bits (setBit w i b) hi lo = bits w hi lo := bits_setBits_ne _ _ _ _ _ _ h hd

theorem bits_wd (n hi lo : Nat) (h : hi < 32) : bits (wd n) hi lo = n / 2 ^ lo % 2 ^ (hi + 1 - lo) := by
  apply Nat.eq_of_testBit_eq
  intro j
  rw [testBit_bits, Nat.testBit_mod_two_pow, Nat.testBit_div_two_pow, wd, BitVec.getLsbD_ofNat]
  by_cases hj : j < hi + 1 - lo
  · simp [hj, show lo + j < 32 by omega, Nat.add_comm]
  · simp [hj]

theorem bit_setBits_ne (w : Word) (hi lo v i : Nat) (h : i < 32) (hd : i < lo ∨ hi < i) : bit (setBits w hi lo v) i = bit w i := by
  unfold bit
  rw [getLsbD_setBits _ _ _ _ _ h, if_neg (by omega)]

theorem bit_setBit_ne (w : Word) (i j : Nat) (b : Bool) (h : j < 32) (hd : j ≠ i) : bit (setBit w i b) j = bit w j := by
  unfold bit
  rw [bit_setBit _ _ _ _ h, if_neg hd]

theorem writeWithin_memOnly (r : Nat → Bool) (bs : Bytes) (a : Nat) (s : State) : MemOnly s (writeWithin r a bs s) := by
  induction bs generalizing a s with
  | nil => exact MemOnly.refl s
  | cons b bs ih => exact (when_memOnly _ _ (fun u => MemOnly.of_mem (t := writeByte a b u) rfl ⟨rfl, rfl, rfl⟩) s).trans (ih _ _)

/-- As `MemOnly`, and the count of free values may have advanced. -/
def MemFree (s t : State) : Prop := ∃ n, MemOnly { s with free := n } t

theorem MemOnly.setFree {s t : State} (h : MemOnly s t) (n : Nat) : MemOnly { s with free := n } { t with free := n } :=
  ⟨by rw [h.rest], h.kept, h.regs, h.cores⟩

theorem MemFree.trans {s t u : State} (h : MemFree s t) (h' : MemFree t u) : MemFree s u := by
  obtain ⟨n, h⟩ := h
  obtain ⟨m, h'⟩ := h'
  exact ⟨m, (h.setFree m).trans h'⟩

theorem MemOnly.memFree {s t : State} (h : MemOnly s t) : MemFree s t := ⟨s.free, h⟩

theorem memFree_of {s : State} (n : Nat) : MemFree s { s with free := n } := ⟨n, MemOnly.refl _⟩

theorem unitSource_memFree (a src : Nat) (s : State) : MemFree s (unitSource a src s).2 := by
  unfold unitSource
  split
  · exact (MemOnly.refl s).memFree
  · have h := readSram_memOnly ((Config.freeWord s.free).toNat % 256) src 16 s
    split
    · rename_i he
      rw [he] at h
      exact h.memFree
    · rename_i t _ he
      rw [he] at h
      exact h.memFree.trans (memFree_of _)

theorem programUnits_memFree (n a src : Nat) (s : State) : MemFree s (programUnits n a src s).2 := by
  induction n generalizing a src s with
  | zero => exact (MemOnly.refl s).memFree
  | succ n ih =>
    have h := unitSource_memFree a src s
    unfold programUnits
    split
    · rename_i he
      rw [he] at h
      exact h
    · rename_i bs t he
      rw [he] at h
      exact (h.trans (writeWithin_memOnly inFlash bs a t).memFree).trans (ih _ _ _)

theorem cutProgram_memFree (a src n : Nat) (s : State) : MemFree s (cutProgram a src n s) := by
  unfold cutProgram
  have h := (memFree_of (s := s) (s.free + 1)).trans (programUnits_memFree (unitInWork (n / 16) s).1 a src (unitInWork (n / 16) s).2)
  dsimp only
  split
  · exact (h.trans (memFree_of _)).trans (writeWithin_memOnly inFlash _ _ _).memFree
  · exact h

/-- What a flash command that is cut off leaves. -/
theorem cutFlash_spec (s : State) : (cutFlash s).sys = s.sys ∧ (cutFlash s).clk = s.clk ∧ (cutFlash s).pwr = s.pwr ∧
    (cutFlash s).front = s.front ∧ (cutFlash s).led = s.led ∧ (cutFlash s).flash.running = none ∧
    (∀ k, k ∉ eccKeys → (cutFlash s).reg k = s.reg k) ∧
    ∀ c, ∃ e, (cutFlash s).cores.get c = { s.cores.get c with e := (s.cores.get c).e ||| e } := by
  have key : ∀ u, MemFree s u → u.sys = s.sys ∧ u.clk = s.clk ∧ u.pwr = s.pwr ∧ u.front = s.front ∧ u.led = s.led ∧
      (∀ k, k ∉ eccKeys → u.reg k = s.reg k) ∧ ∀ c, ∃ e, u.cores.get c = { s.cores.get c with e := (s.cores.get c).e ||| e } := by
    rintro u ⟨n, h⟩
    exact ⟨by rw [h.rest], by rw [h.rest], by rw [h.rest], by rw [h.rest], by rw [h.rest], h.regs, h.cores⟩
  unfold cutFlash
  dsimp only
  split
  · rename_i a src n _
    have h : ∀ p, MemFree s (when p (cutProgram a src n) s) := fun p => by
      unfold when
      split
      · exact cutProgram_memFree _ _ _ s
      · exact (MemOnly.refl s).memFree
    replace h := h (n != 0 && !(s.sys.mode == Mode.quenched))
    obtain ⟨h1, h2, h3, h4, h5, h6, h7⟩ := key _ h
    exact ⟨h1, h2, h3, h4, h5, rfl, h6, h7⟩
  · obtain ⟨h1, h2, h3, h4, h5, h6, h7⟩ := key s (MemOnly.refl s).memFree
    exact ⟨h1, h2, h3, h4, h5, rfl, h6, h7⟩

theorem tearWrite_spec (s : State) : (tearWrite s).sys = s.sys ∧ (tearWrite s).clk = s.clk ∧ (tearWrite s).pwr = s.pwr ∧ (tearWrite s).cores = s.cores ∧
    (tearWrite s).front = s.front ∧ (tearWrite s).regs = s.regs ∧ (tearWrite s).led.writing = none := by
  unfold tearWrite
  dsimp only
  split
  · rename_i h; exact ⟨rfl, rfl, rfl, rfl, rfl, rfl, h⟩
  · split <;> exact ⟨rfl, rfl, rfl, rfl, rfl, rfl, rfl⟩

theorem bit_setBit_self (w : Word) (i : Nat) (b : Bool) (hi : i < 32) : bit (setBit w i b) i = b := by
  unfold bit; rw [bit_setBit _ _ _ _ hi, if_pos rfl]

theorem reg_filter (s : State) (p : Nat → Bool) (k : Nat) (h : p k = true) :
    ({ s with regs := s.regs.filter (fun e => p e.1) } : State).reg k = s.reg k := by
  unfold State.reg agetD
  rw [aget?_filter _ _ _ h]

theorem reg_filter_out (s : State) (p : Nat → Bool) (k : Nat) (h : p k = false) :
    ({ s with regs := s.regs.filter (fun e => p e.1) } : State).reg k = regReset k := by
  unfold State.reg agetD
  have : aget? (s.regs.filter (fun e => p e.1)) k = none := by
    induction s.regs with
    | nil => rfl
    | cons e m ih =>
      obtain ⟨j, v⟩ := e
      rw [List.filter_cons]
      split
      · rename_i hp
        have : k ≠ j := fun e => by subst e; simp [h] at hp
        simp [aget?, this, ih]
      · exact ih
  rw [this]; rfl

theorem reg_of_regs {s t : State} (h : t.regs = s.regs) (k : Nat) : t.reg k = s.reg k := by unfold State.reg; rw [h]

theorem forEach_kiln {α : Type} (f : α → State → State) (h : ∀ x u, ∃ k, f x u = { u with kiln := k }) (xs : List α) :
    ∀ u, ∃ k, forEach xs f u = { u with kiln := k } := by
  unfold forEach
  induction xs with
  | nil => intro u; exact ⟨u.kiln, rfl⟩
  | cons x xs ih =>
    intro u
    obtain ⟨k, hk⟩ := h x u
    obtain ⟨k', hk'⟩ := ih (f x u)
    exact ⟨k', by rw [List.foldl_cons, hk', hk]⟩

theorem kilnClear_spec (s : State) : ∃ k, kilnClear s = { s with kiln := k, mem := { s.mem with
    cells := s.mem.cells.filter (fun e => !inKilnSram e.1), badGranules := s.mem.badGranules.filter (fun g => !inKilnSram g)
    flips := s.mem.flips.filter (fun g => !inKilnSram g) } } := by
  unfold kilnClear
  dsimp only
  obtain ⟨k, hk⟩ := forEach_kiln zapSlot (fun x u => ⟨_, rfl⟩) ((List.range 64).filter (fun n => !fixedSlot n)) { s with mem := { s.mem with
    cells := s.mem.cells.filter (fun e => !inKilnSram e.1), badGranules := s.mem.badGranules.filter (fun g => !inKilnSram g)
    flips := s.mem.flips.filter (fun g => !inKilnSram g) } }
  rw [hk]
  obtain ⟨k', hk'⟩ := forEach_kiln (fun n s => State.setSlot s n Slot.empty) (fun x u => ⟨_, rfl⟩) [0, 1, 2] { s with kiln := k, mem := { s.mem with
    cells := s.mem.cells.filter (fun e => !inKilnSram e.1), badGranules := s.mem.badGranules.filter (fun g => !inKilnSram g)
    flips := s.mem.flips.filter (fun g => !inKilnSram g) } }
  rw [hk']
  exact ⟨_, rfl⟩

theorem kilnClear_proj {α : Sort _} (f : State → α) (h : ∀ (s : State) m k, f { s with mem := m, kiln := k } = f s) (s : State) :
    f (kilnClear s) = f s := by
  obtain ⟨k, hk⟩ := kilnClear_spec s
  rw [hk]; exact h _ _ _

theorem scanStores_proj {α : Sort _} (f : State → α)
    (h : ∀ (s : State) m k l fl e c, f { s with mem := m, kiln := k, led := l, flash := fl, ent := e, creds := c } = f s) (s : State) :
    f (scanStores s) = f s := by
  unfold scanStores
  obtain ⟨k, hk⟩ := kilnClear_spec { s with
    led := { Ledger.reset with copies := s.led.copies, units := s.led.units, tornUnits := s.led.tornUnits, scanFrom := some s.clk.tb }
    flash := { Flash.reset with markers := s.flash.markers, torn := s.flash.markers }
    ent := { Ent.idle with runFrom := some s.clk.tb }
    creds := { Creds.reset with time := s.creds.time, timeWritten := s.creds.timeWritten } }
  dsimp only
  rw [hk]
  exact h s _ k _ _ _ _

theorem enterScan_regs (p : Bool) (cause detail : Nat) (hsel : BitVec 2) (s : State) :
    (enterScan p cause detail hsel s).regs = (scanRegs p cause detail (scanClock p (tearFuse (cutFlash s)))).regs := by
  have h : ∀ u : State, (scanStores u).regs = u.regs := fun u => scanStores_proj State.regs (fun _ _ _ _ _ _ _ => rfl) _
  unfold enterScan
  dsimp only
  rw [h]
  cases p <;> rfl

theorem scanRegs_reg (p : Bool) (cause detail : Nat) (s : State) :
    (scanRegs p cause detail s).reg rPWR_RESET_CAUSE = wd (fld 8 detail + cause) ∧
    (scanRegs p cause detail s).reg rSYS_EPOCH = s.reg rSYS_EPOCH + 1 := by
  unfold scanRegs State.setRbit State.incFld State.setFld State.fld
  simp only [State.reg_setReg]
  constructor
  · rw [if_neg (by decide)]; simp only [if_true]
  · rw [if_neg (by decide), if_neg (by decide)]; simp only [if_true]
    have := reg_filter s (fun k => aonReg k || (!p && hostKept k)) rSYS_EPOCH (by cases p <;> decide)
    rw [this]
    generalize s.reg rSYS_EPOCH = w
    unfold setBits bits
    simp only [Nat.sub_zero, Nat.shiftRight_zero, Nat.shiftLeft_zero]
    apply BitVec.eq_of_toNat_eq
    have := w.isLt
    simp

theorem tearFuse_spec (s : State) : ∃ f n, tearFuse s = { s with fuses := f, free := n } := by
  unfold tearFuse
  repeat' split
  all_goals
    try rename_i h
    try (unfold State.freshWord at h)
    try (cases h)
    try exact ⟨_, _, rfl⟩

theorem tearFuse_kept (s : State) : (tearFuse s).regs = s.regs ∧ (tearFuse s).pwr = s.pwr := by
  obtain ⟨f, n, h⟩ := tearFuse_spec s
  rw [h]; exact ⟨rfl, rfl⟩

theorem enterScan_facts (p : Bool) (cause detail : Nat) (hsel : BitVec 2) (s : State) :
    (enterScan p cause detail hsel s).sys.mode = .scan ∧ (enterScan p cause detail hsel s).reg rPWR_RESET_CAUSE = wd (fld 8 detail + cause) ∧
    (enterScan p cause detail hsel s).reg rSYS_EPOCH = s.reg rSYS_EPOCH + 1 ∧ (p = true → (enterScan p cause detail hsel s).clk.tb = 0) ∧
    (enterScan p cause detail hsel s).cores = coresReset ∧ (enterScan p cause detail hsel s).pwr.valid = s.pwr.valid ∧
    (enterScan p cause detail hsel s).pending = s.pending := by
  refine ⟨rfl, ?_, ?_, fun hp => ?_, ?_, ?_, ?_⟩
  · rw [reg_of_regs (enterScan_regs _ _ _ _ _), (scanRegs_reg _ _ _ _).1]
  · rw [reg_of_regs (enterScan_regs _ _ _ _ _), (scanRegs_reg _ _ _ _).2]
    rw [show (scanClock p (tearFuse (cutFlash s))).reg rSYS_EPOCH = s.reg rSYS_EPOCH from
      (reg_of_regs (tearFuse_kept (cutFlash s)).1 _).trans ((cutFlash_spec s).2.2.2.2.2.2.1 _ (by decide))]
  · subst hp
    have h : ∀ u : State, (scanStores u).clk = u.clk := fun u => scanStores_proj State.clk (fun _ _ _ _ _ _ _ => rfl) _
    unfold enterScan
    dsimp only
    rw [h]
    rfl
  · have h : ∀ u : State, (scanStores u).cores = u.cores := fun u => scanStores_proj State.cores (fun _ _ _ _ _ _ _ => rfl) _
    unfold enterScan
    dsimp only
    rw [h]
    rfl
  · have h : ∀ u : State, (scanStores u).pwr = u.pwr := fun u => scanStores_proj State.pwr (fun _ _ _ _ _ _ _ => rfl) _
    unfold enterScan
    dsimp only
    rw [h]
    have h2 : ∀ v : State, (scanBlocks (scanMemory p (scanHost p hsel (scanAssay p v)))).pwr = v.pwr := fun v => by cases p <;> rfl
    rw [h2]
    have h3 : ∀ v : State, (scanRegs p cause detail v).pwr = v.pwr := fun v => rfl
    rw [h3]
    exact (congrArg Pwr.valid (tearFuse_kept _).2).trans (congrArg Pwr.valid (cutFlash_spec s).2.2.1)
  · have h : ∀ u : State, (scanStores u).pending = u.pending := fun u => scanStores_proj State.pending (fun _ _ _ _ _ _ _ => rfl) _
    unfold enterScan
    dsimp only
    rw [h]
    have h2 : ∀ v : State, (scanBlocks (scanMemory p (scanHost p hsel (scanAssay p (scanRegs p cause detail v))))).pending = v.pending :=
      fun v => by cases p <;> rfl
    rw [h2]
    exact ((tearFuse_ev (cutFlash_ev (Evolves.refl s)))).pending

theorem live_parts {s : State} (h : s.live = true) : s.sys.mode ≠ .off ∧ s.sys.mode ≠ .banked ∧ s.sys.mode ≠ .quenched ∧
    s.assay.freezing = false ∧ s.pwr.resetReq = none := by
  simpa [State.live, and_assoc] using h

theorem requestReset_none {s : State} (cause detail : Nat) (h1 : s.sys.mode ≠ .off) (h2 : s.sys.mode ≠ .banked) (h3 : s.pwr.resetReq = none) :
    requestReset cause detail s =
      { s with pwr := { s.pwr with entering := false, heldSrc := 0, resetReq := some ⟨cause, detail, s.clk.rtc⟩ } } := by
  unfold requestReset
  rw [if_neg (by simpa using h1), if_neg (by simpa using h2), h3]
  rfl

theorem rbit_setRbit (s : State) (k i : Nat) (b : Bool) (hi : i < 32) : (s.setRbit k i b).rbit k i = b := by
  unfold State.rbit State.setRbit
  rw [State.reg_setReg, if_pos rfl, bit_setBit_self _ _ _ hi]

theorem reg_setRbit_ne (s : State) (k i : Nat) (b : Bool) {j : Nat} (h : j ≠ k) : (s.setRbit k i b).reg j = s.reg j := by
  unfold State.setRbit
  rw [State.reg_setReg, if_neg h]

theorem reg_setReg_self (s : State) (k : Nat) (w : Word) : (s.setReg k w).reg k = w := by rw [State.reg_setReg, if_pos rfl]

theorem reg_setReg_ne (s : State) (k : Nat) (w : Word) {j : Nat} (h : j ≠ k) : (s.setReg k w).reg j = s.reg j := by
  rw [State.reg_setReg, if_neg h]

theorem rbit_setRbit_bit (s : State) (k i j : Nat) (b : Bool) (hj : j < 32) (h : j ≠ i) : (s.setRbit k i b).rbit k j = s.rbit k j := by
  unfold State.rbit State.setRbit
  rw [reg_setReg_self, bit_setBit_ne _ _ _ _ hj h]

theorem when_true {p : Bool} (h : p = true) (f : State → State) (s : State) : when p f s = f s := by unfold when; rw [if_pos h]

theorem when_false {p : Bool} (h : p = false) (f : State → State) (s : State) : when p f s = s := by
  unfold when; rw [if_neg (by rw [h]; decide)]

theorem forEach_fix {α : Type} (f : α → State → State) (s : State) (xs : List α) (h : ∀ x ∈ xs, f x s = s) : forEach xs f s = s := by
  unfold forEach
  induction xs with
  | nil => rfl
  | cons x xs ih => rw [List.foldl_cons, h x (List.mem_cons_self ..), ih (fun y hy => h y (List.mem_cons_of_mem _ hy))]

theorem forEach_cons {α : Type} (f : α → State → State) (s : State) (x : α) (xs : List α) : forEach (x :: xs) f s = forEach xs f (f x s) := rfl

theorem forEach_nil {α : Type} (f : α → State → State) (s : State) : forEach [] f s = s := rfl

theorem permits_appKiln {c : Fin 6} (h : c ≠ 4) : Writers.appKiln.permits (.core c) = true := by
  have : c.val ≠ 4 := fun e => h (Fin.ext e)
  simp [Writers.permits, this]

theorem fld_setFld (s : State) (k hi lo v : Nat) (h : hi < 32) : (s.setFld k hi lo v).fld k hi lo = v % 2 ^ (hi + 1 - lo) := by
  unfold State.fld State.setFld
  rw [State.reg_setReg, if_pos rfl, bits_setBits _ _ _ _ h]

theorem reg_setFld_ne (s : State) (k hi lo v : Nat) {j : Nat} (h : j ≠ k) : (s.setFld k hi lo v).reg j = s.reg j := by
  unfold State.setFld
  rw [State.reg_setReg, if_neg h]

theorem rbit_setFld (s : State) (k hi lo v i : Nat) (h : i < 32) (hd : i < lo ∨ hi < i) : (s.setFld k hi lo v).rbit k i = s.rbit k i := by
  unfold State.rbit State.setFld
  rw [reg_setReg_self, bit_setBits_ne _ _ _ _ _ h hd]

theorem rbit_of_reg {s t : State} {k : Nat} (h : t.reg k = s.reg k) (i : Nat) : t.rbit k i = s.rbit k i := by unfold State.rbit; rw [h]

theorem fld_of_reg {s t : State} {k : Nat} (h : t.reg k = s.reg k) (hi lo : Nat) : t.fld k hi lo = s.fld k hi lo := by
  unfold State.fld; rw [h]

theorem fld_of_regs {s t : State} (h : t.regs = s.regs) (k hi lo : Nat) : t.fld k hi lo = s.fld k hi lo := by
  unfold State.fld; rw [reg_of_regs h]

theorem rbit_of_regs {s t : State} (h : t.regs = s.regs) (k i : Nat) : t.rbit k i = s.rbit k i := by
  unfold State.rbit; rw [reg_of_regs h]

/-! ### Channels -/

theorem chan_setChan (s : State) (k j : Nat) (c : Chan) : (s.setChan k c).chan j = if j = k then c else s.chan j :=
  agetD_asetD Chan.empty s.chans.ch k j c Chan.empty (fun _ => rfl)

/-! ### The front end's tables -/

theorem engine_setEngine (s : State) (e i : Nat) (x : Engine) : (s.setEngine e x).engine i = if i = e then x else s.engine i :=
  agetD_asetD Engine.idle s.front.engines e i x Engine.idle (fun _ => rfl)

theorem queue_putQueue (s : State) (n m : Nat) (q : Queue) : (s.putQueue n q).queue? m = if m = n then some q else s.queue? m := by
  unfold State.putQueue State.queue?
  dsimp only
  rw [aget?_ains]

theorem cage_setCage (s : State) (c d : Fin 8) (g : Cage) : (s.setCage c g).cage d = if d = c then g else s.cage d :=
  get_set s.front.cages c d g

/-! ### Events told to cores -/

theorem setE_get (s : State) (c x : Fin 6) (m : BitVec 16) :
    (s.setE c m).cores.get x = { s.cores.get x with e := (s.cores.get x).e ||| (if x = c then m else 0) } := by
  unfold State.setE State.onCore
  rw [State.get_setCore]
  by_cases h : x = c
  · subst h; simp
  · simp [h]

theorem forEach_setE (m : BitVec 16) (xs : List (Fin 6)) (s : State) :
    forEach xs (fun c t => t.setE c m) s = { s with cores := (forEach xs (fun c t => t.setE c m) s).cores } ∧
    ∀ x, (forEach xs (fun c t => t.setE c m) s).cores.get x =
      { s.cores.get x with e := (s.cores.get x).e ||| (if x ∈ xs then m else 0) } := by
  unfold forEach
  induction xs generalizing s with
  | nil => exact ⟨rfl, fun x => by simp⟩
  | cons c xs ih =>
    obtain ⟨h1, h2⟩ := ih (s.setE c m)
    refine ⟨by rw [List.foldl_cons, h1]; rfl, fun x => ?_⟩
    rw [List.foldl_cons, h2, setE_get]
    have : (if x = c then m else 0) ||| (if x ∈ xs then m else 0) = if x ∈ c :: xs then m else (0 : BitVec 16) := by
      by_cases h : x = c
      · subst h; by_cases h' : x ∈ xs <;> simp [h']
      · by_cases h' : x ∈ xs <;> simp [h, h']
    dsimp only
    rw [BitVec.or_assoc, this]

theorem routeE_form (s : State) (route b : Nat) : s.routeE route b = { s with cores := (s.routeE route b).cores } := (forEach_setE _ _ s).1

/-- A block's event: its bit set, cores told, and nothing else. -/
theorem blockEvent_form (evt ie rreg rlo ev : Nat) {b : Nat} (hb : b < 32) (s : State) :
    (∃ r cs, blockEvent evt ie rreg rlo ev b s = { s with regs := r, cores := cs }) ∧
    (∀ k, k ≠ evt → (blockEvent evt ie rreg rlo ev b s).reg k = s.reg k) ∧ (blockEvent evt ie rreg rlo ev b s).rbit evt b = true ∧
    ∀ j < 32, s.rbit evt j = true → (blockEvent evt ie rreg rlo ev b s).rbit evt j = true := by
  unfold blockEvent
  split
  · rename_i h
    exact ⟨⟨_, _, rfl⟩, fun _ _ => rfl, h, fun _ _ h => h⟩
  · have hk : ∀ u : State, ∃ cs, when (u.rbit ie b) (fun s => s.routeE (s.fld rreg (rlo + 4) rlo) ev) u = { u with cores := cs } := fun u => by
      unfold when
      split
      · exact ⟨_, routeE_form _ _ _⟩
      · exact ⟨_, rfl⟩
    dsimp only
    obtain ⟨cs, h⟩ := hk (s.setRbit evt b true)
    rw [h]
    refine ⟨⟨_, _, rfl⟩, fun k hk => reg_setRbit_ne s evt b true hk, rbit_setRbit s evt b true hb, fun j hj h => ?_⟩
    by_cases hjb : j = b
    · subst hjb; exact rbit_setRbit s evt j true hb
    · exact (rbit_setRbit_bit s evt b j true hj hjb).trans h

theorem levelMode_cores (s : State) : s.levelMode = { s with cores := s.levelMode.cores } ∧
    ∀ x, s.levelMode.cores.get x = { s.cores.get x with e := (s.cores.get x).e ||| (if s.modeInt then 0x0100 else 0) } := by
  unfold State.levelMode when
  split
  · obtain ⟨h1, h2⟩ := forEach_setE 0x0100 allCores s
    refine ⟨h1, fun x => ?_⟩
    rw [h2, if_pos (by revert x; decide)]
  · exact ⟨rfl, fun x => by simp⟩

theorem levelCmd_cores (s : State) (c : Fin 6) : s.levelCmd c = { s with cores := (s.levelCmd c).cores } ∧
    ∀ x, (s.levelCmd c).cores.get x =
      { s.cores.get x with e := (s.cores.get x).e ||| (if x = c ∧ s.cmdWaits c = true then 0x0400 else 0) } := by
  unfold State.levelCmd when
  split
  · rename_i hw
    refine ⟨rfl, fun x => ?_⟩
    simp only [State.setE, State.onCore, State.setCore, get_set]
    by_cases hx : x = c
    · subst hx; simp [hw]
    · simp [hx]
  · rename_i hw
    exact ⟨rfl, fun x => by simp [hw]⟩

/-! ### The mode machine -/

theorem forEach_rel {α : Type} (R : State → State → Prop) (hr : ∀ s, R s s) (ht : ∀ s t u, R s t → R t u → R s u)
    (f : α → State → State) (hf : ∀ a s, R s (f a s)) (xs : List α) : ∀ s, R s (forEach xs f s) := by
  unfold forEach
  induction xs with
  | nil => intro s; exact hr s
  | cons x xs ih => intro s; exact ht _ _ _ (hf x s) (ih _)

theorem dropSession_spec (n : Nat) (s : State) : ∃ k c, dropSession n s = { s with kiln := k, creds := c } := by
  refine ⟨(dropSession n s).kiln, (dropSession n s).creds, ?_⟩
  unfold dropSession withSome
  dsimp only
  split <;> split <;> rfl

theorem dropSessions_spec (m : BitVec 8) (s : State) : ∃ k c, dropSessions m s = { s with kiln := k, creds := c } := by
  unfold dropSessions
  refine forEach_rel (fun s t => ∃ k c, t = { s with kiln := k, creds := c }) (fun s => ⟨_, _, rfl⟩) ?_ _ (fun a s => dropSession_spec a s) _ s
  rintro s t u ⟨k, c, rfl⟩ ⟨k', c', rfl⟩
  exact ⟨k', c', rfl⟩

theorem setChan_spec (s : State) (k : Nat) (c : Chan) : ∃ ch, s.setChan k c = { s with chans := { s.chans with ch := ch } } := ⟨_, rfl⟩

theorem cRefill_spec (k : Nat) (s : State) : ∃ ch, cRefill k s = { s with chans := { s.chans with ch := ch } } := ⟨_, rfl⟩

theorem devSend_spec (k : Nat) (ws : List (Word × Bool)) (s : State) : ∃ ch, devSend k ws s = { s with chans := { s.chans with ch := ch } } := ⟨_, rfl⟩

theorem portSend_spec (k : Nat) (ws : List (Word × Bool)) (s : State) : ∃ ch, portSend k ws s = { s with chans := { s.chans with ch := ch } } := by
  unfold portSend
  split
  · exact ⟨_, rfl⟩
  · exact devSend_spec k ws s

theorem withholdCrank_spec (s : State) : ∃ f st ch, withholdCrank s = { s with front := f, start := st, chans := ch } := by
  unfold withholdCrank
  dsimp only
  split
  · exact ⟨_, _, _, rfl⟩
  · obtain ⟨ch, h⟩ := portSend_spec 0xC1 [(wd (fld 8 (((s.start.crank.bind CrankRun.drawn).getD 0) % 65536) + 2), false)]
      (cClear (cmdKey 0xC) { s with
        front := { s.front with cages := s.front.cages.map (fun g =>
          { g with disp := g.disp.map (fun d => if openCrank d then { d with withheld := true } else d) }) }
        start := { s.start with crank := none } })
    rw [h]
    exact ⟨_, _, _, rfl⟩

theorem leaveStart_spec (fr dst : Mode) (s : State) : ∃ r f st ch, leaveStart fr dst s = { s with regs := r, front := f, start := st, chans := ch } ∧
    ∀ k, k ≠ rSTART_EVT → (leaveStart fr dst s).reg k = s.reg k := by
  unfold leaveStart when
  dsimp only
  split <;> split
  · obtain ⟨f, st, ch, h⟩ := withholdCrank_spec (s.setRbit rSTART_EVT 5 true)
    rw [h]
    exact ⟨_, _, _, _, rfl, fun k hk => reg_setRbit_ne s rSTART_EVT 5 true hk⟩
  · obtain ⟨f, st, ch, h⟩ := withholdCrank_spec s
    rw [h]
    exact ⟨_, _, _, _, rfl, fun k hk => rfl⟩
  · exact ⟨_, _, _, _, rfl, fun k hk => reg_setRbit_ne s rSTART_EVT 5 true hk⟩
  · exact ⟨_, _, _, _, rfl, fun k hk => rfl⟩

theorem closeAllSessions_spec (s : State) : ∃ k c, closeAllSessions s =
    { s with kiln := k, creds := c, sys := { s.sys with active := 0, grants := [] } } := by
  unfold closeAllSessions
  obtain ⟨k, c, h⟩ := dropSessions_spec s.sys.active s
  dsimp only
  rw [h]
  exact ⟨k, c, rfl⟩

theorem Notified.sys {s t : State} (h : Notified s t) : t.sys = s.sys := by rw [h.rest]
theorem Notified.clk {s t : State} (h : Notified s t) : t.clk = s.clk := by rw [h.rest]

theorem modeEvent_bit (b : Nat) (hb : b < 32) (s : State) : (modeEvent b s).rbit rSYS_MODE_EVT b = true := by
  unfold State.rbit
  rw [(modeEvent_notified b s).regs _ (by decide)]
  exact rbit_setRbit s rSYS_MODE_EVT b true hb

theorem modeEvent_reg (b : Nat) (s : State) {k : Nat} (h1 : k ≠ rSYS_MODE_EVT) (h2 : k ∉ pendKeys) : (modeEvent b s).reg k = s.reg k :=
  ((modeEvent_notified b s).regs _ h2).trans (reg_setRbit_ne s _ _ _ h1)

/-- What a commit leaves in the mode machine's own state. -/
def commitSys (dst : Mode) (cause : Nat) (s : State) : Sys :=
  { s.sys with
    mode := dst, prev := some s.sys.mode, cause := cause
    active := if closesSessions s.sys.mode dst cause then 0 else s.sys.active
    grants := if closesSessions s.sys.mode dst cause then [] else s.sys.grants
    approachEnd := if dst == .approach then some (s.clk.tb + msTicks (s.fld rSYS_APPROACH_TMO 13 0)) else none
    tokenEnd := if dst == .service || dst == .quenched then s.sys.tokenEnd else none }

theorem commit_form (dst : Mode) (cause : Nat) (s : State) : ∃ r f st ch k c, commit dst cause s = modeEvent 0 { s with
      regs := r, front := f, start := st, chans := ch, kiln := k, creds := c, sys := commitSys dst cause s
      assay := if s.assay.ballLow && quenchable dst then { s.assay with freezing := true, srcs := 0b0010 } else s.assay } ∧
    ∀ j, j ≠ rSTART_EVT → ({ s with regs := r } : State).reg j = s.reg j := by
  have h1 : ∃ k c, when (closesSessions s.sys.mode dst cause) closeAllSessions s = { s with kiln := k, creds := c, sys := { s.sys with
      active := if closesSessions s.sys.mode dst cause then 0 else s.sys.active
      grants := if closesSessions s.sys.mode dst cause then [] else s.sys.grants } } := by
    unfold when
    split
    · exact closeAllSessions_spec s
    · exact ⟨_, _, rfl⟩
  obtain ⟨k, c, h1⟩ := h1
  obtain ⟨r, f, st, ch, h2, h3⟩ := leaveStart_spec s.sys.mode dst { s with kiln := k, creds := c, sys := { s.sys with
      active := if closesSessions s.sys.mode dst cause then 0 else s.sys.active
      grants := if closesSessions s.sys.mode dst cause then [] else s.sys.grants } }
  have h4 : ∀ j, j ≠ rSTART_EVT → ({ s with regs := r } : State).reg j = s.reg j := fun j hj => by
    have := h3 j hj
    rw [h2] at this
    exact this
  refine ⟨r, f, st, ch, k, c, ?_, h4⟩
  unfold commit
  dsimp only
  rw [h1, h2]
  have h5 : ({ s with regs := r } : State).fld rSYS_APPROACH_TMO 13 0 = s.fld rSYS_APPROACH_TMO 13 0 := by
    unfold State.fld; rw [h4 _ (by decide)]
  unfold commitSys
  rw [← h5]
  unfold when
  dsimp only
  split <;> rfl

theorem commit_spec (dst : Mode) (cause : Nat) (s : State) :
    (commit dst cause s).sys = commitSys dst cause s ∧ (commit dst cause s).rbit rSYS_MODE_EVT 0 = true ∧
    (commit dst cause s).clk = s.clk ∧ (commit dst cause s).led = s.led ∧ (commit dst cause s).pwr = s.pwr ∧
    (∀ k, k ≠ rSTART_EVT → k ≠ rSYS_MODE_EVT → k ∉ pendKeys → (commit dst cause s).reg k = s.reg k) := by
  obtain ⟨r, f, st, ch, k, c, h, hr⟩ := commit_form dst cause s
  refine ⟨?_, ?_, ?_, ?_, ?_, fun j h1 h2 h3 => ?_⟩
  · rw [h, (modeEvent_notified 0 _).rest]; rfl
  · rw [h]; exact modeEvent_bit 0 (by omega) _
  · rw [h, (modeEvent_notified 0 _).rest]; rfl
  · rw [h, (modeEvent_notified 0 _).rest]; rfl
  · rw [h, (modeEvent_notified 0 _).rest]; rfl
  · rw [h, modeEvent_reg 0 _ h2 h3]; exact hr j h1

end Sys2Proof.Machine
end

