-- ==== Sys2Proof/Laws/Kiln.lean ====
section
/-! SUPPORT. Commands of the engines that the Kiln runtime serves: how a command that is served ends, and the checks that an
image which names its keys and buffers passes. -/
namespace Sys2Proof.Machine

theorem kilnOp_serves {e op : Nat} {img : Bytes} {s t : State} (h : Serves e op img s t) (body : Bytes → State → KRes KEnd) :
    kilnOp e op body s = match body img t with
      | .wait => s
      | .fail st re t => kilnDone e st re 0 t
      | .ok (.done st re v) t => kilnDone e st re v t
      | .ok .later t => t
      | .ok (.job j) t => { t with creds := { t.creds with jobs := t.creds.jobs ++ [j] } } := by
  obtain ⟨h1, h2, h3, h4, h5⟩ := h
  unfold kilnOp
  have hc : kilnCmd e op (opsOf e) s = some (img, t) := by
    unfold kilnCmd
    rw [h3, Option.bind_some, if_pos (by rw [h4]; simp), h5]
  rw [if_neg (by rw [h1, h2]; decide), hc]
  dsimp only
  rw [if_pos h4]
  all_goals rfl

theorem kcheck_true {p : Bool} (h : p = true) (st re : Nat) (s : State) : kcheck p st re s = .ok () s := by
  unfold kcheck; rw [if_pos h]

theorem kilnOp_done {e op : Nat} {img : Bytes} {s t u : State} {st re v : Nat} (h : Serves e op img s t) {body : Bytes → State → KRes KEnd}
    (hb : body img t = .ok (.done st re v) u) : kilnOp e op body s = kilnDone e st re v u := by
  rw [kilnOp_serves h, hb]

theorem kilnOp_fail {e op : Nat} {img : Bytes} {s t u : State} {st re : Nat} (h : Serves e op img s t) {body : Bytes → State → KRes KEnd}
    (hb : body img t = .fail st re u) : kilnOp e op body s = kilnDone e st re 0 u := by
  rw [kilnOp_serves h, hb]

theorem andThen_ok {α β : Type} (a : α) (s : State) (f : α → State → KRes β) : (KRes.ok a s).andThen f = f a s := rfl

theorem kslot_names {img : Bytes} {h : Nat} {s : State} {x : Slot} (hn : Names img h s x) : kslot img h s = .ok (h % 64, x) s := by
  obtain ⟨h1, h2, h3, h4⟩ := hn
  unfold kslot
  dsimp only
  rw [h1, if_pos]
  simp [h3, h4, Option.isSome_iff_ne_none, h2]

theorem needRead_ok {img : Bytes} {k n : Nat} (h : Readable img k n) (s : State) : needRead img k n s = .ok () s := by
  unfold needRead
  exact kcheck_true (by rcases h with h | h <;> simp [h]) _ _ _

theorem needWrite_ok {img : Bytes} {k n : Nat} (h : Writable img k n) (s : State) : needWrite img k n s = .ok () s := by
  unfold needWrite
  exact kcheck_true (by rcases h with h | h <;> simp [h]) _ _ _

theorem noKey_zero {img : Bytes} (h : imgKey img = 0) (s : State) : noKey img s = .ok () s := by
  unfold noKey; rw [if_pos h]

theorem kuse_true {x : Slot} {b : Nat} (h : x.use.testBit b = true) (s : State) : kuse x b s = .ok () s := kcheck_true h _ _ _

/-! ### Countermeasures (R839, R840) -/

theorem aesBlocks_spec (key : Bytes) (s : State) : ∃ run n, aesBlocks key s = { s with free := n, kiln := { s.kiln with aesRun := some run } } ∧
    run.places.length ≤ dummyMax s ∧ ∀ p ∈ run.places, p ≤ key.length / 4 + 6 := by
  refine ⟨_, _, rfl, ?_, fun p hp => ?_⟩
  · simp only [drawAesRun, State.freshWord, State.freshBytes, List.length_map, List.length_range]
    have := Nat.mod_lt (Config.freeWord s.free).toNat (Nat.succ_pos (dummyMax s))
    exact Nat.le_of_lt_succ this
  · simp only [drawAesRun, State.freshWord, State.freshBytes, List.mem_map] at hp
    obtain ⟨b, -, rfl⟩ := hp
    exact Nat.le_of_lt_succ (Nat.mod_lt _ (Nat.succ_pos _))

theorem aesBlocks_slot (key : Bytes) (s : State) (n : Nat) : (aesBlocks key s).slot n = s.slot n := by
  obtain ⟨r, f, h, -⟩ := aesBlocks_spec key s
  rw [h]; rfl

theorem aesBlocks_bootKey (key : Bytes) (s : State) : bootKey (aesBlocks key s) = bootKey s := by
  unfold bootKey
  rw [aesBlocks_slot]

theorem aesBlocks_ctx (key : Bytes) (s : State) (n : Nat) : (aesBlocks key s).ctx? n = s.ctx? n := by
  obtain ⟨r, f, h, -⟩ := aesBlocks_spec key s
  rw [h]; rfl

theorem aesBlocks_saves (key : Bytes) (s : State) : (aesBlocks key s).kiln.saves = s.kiln.saves := by
  obtain ⟨r, f, h, -⟩ := aesBlocks_spec key s
  rw [h]

theorem aesBlocks_empty (key : Bytes) (s : State) (a b : Nat) : emptySlot (aesBlocks key s) a b = emptySlot s a b := by
  obtain ⟨r, f, h, -⟩ := aesBlocks_spec key s
  rw [h]; rfl

end Sys2Proof.Machine
end

