-- ==== Sys2Proof/Laws/Results.lean ====
section
/-! SUPPORT. The laws of the shared operations from which the results of single commands follow. -/
namespace Sys2Proof.Machine

theorem endFlush_frame (e : Nat) (s : State) : (endFlush e s).cores = s.cores ∧ (endFlush e s).pwr = s.pwr ∧
    (endFlush e s).front.queues = s.front.queues ∧ (endFlush e s).front.cages = s.front.cages ∧
    ∀ x, ((endFlush e s).engine x).cage = (s.engine x).cage := by
  refine ⟨rfl, rfl, rfl, rfl, fun x => ?_⟩
  unfold endFlush State.engine State.setEngine
  dsimp only
  rw [agetD_asetD]
  · split
    · rename_i h; subst h; rfl
    · rfl
  · intro _; rfl

theorem endFlush_dispatched (e : Nat) (s : State) (x : Nat) : (endFlush e s).dispatched x = s.dispatched x := by
  obtain ⟨-, -, -, h4, h5⟩ := endFlush_frame e s
  unfold State.dispatched State.cage
  rw [h5, h4]

theorem endCommand_none {e : Nat} {s : State} (h : s.dispatched e = none) (st v : Nat) : endCommand e st v s = s := by
  unfold State.dispatched at h
  unfold endCommand
  split
  · rfl
  · rename_i x hx
    rw [hx] at h
    dsimp only at h ⊢
    rw [h]

theorem endAll (es : List Nat) (s : State) (h : ∀ e ∈ es, s.dispatched e = none) :
    let u := forEach es (fun e s => endFlush e (endCommand e 5 0 s)) s
    u.cores = s.cores ∧ u.pwr = s.pwr ∧ u.front.queues = s.front.queues := by
  induction es generalizing s with
  | nil => exact ⟨rfl, rfl, rfl⟩
  | cons e es ih =>
    have := ih (endFlush e (endCommand e 5 0 s)) (fun x hx => by
      rw [endCommand_none (h e (by simp)), endFlush_dispatched]; exact h x (by simp [hx]))
    rw [endCommand_none (h e (by simp))] at this
    obtain ⟨h1, h2, h3, -, -⟩ := endFlush_frame e s
    simp only [forEach, List.foldl_cons] at this ⊢
    rw [endCommand_none (h e (by simp))]
    exact ⟨this.1.trans h1, this.2.1.trans h2, this.2.2.trans h3⟩

theorem sweep_none (n : Nat) (s : State) (h : ∀ e ∈ s.front.queues, e.2.guilty = none) : sweepGuilty n s = s := by
  cases n with
  | zero => rfl
  | succ n =>
    have : s.front.queues.find? (fun e => e.2.guilty.isSome && !dispatchedOf s e.1) = none := by
      rw [List.find?_eq_none]
      intro e he
      simp [h e he]
    simp only [sweepGuilty, this]

theorem bit_imask (w : Word) (i : Nat) (hi : i < 16) : (BitVec.ofNat 16 (bits w 31 16)).getLsbD i = bit w (16 + i) := by
  have e : (31 + 1 - 16 : Nat) = 16 := rfl
  unfold bits bit
  rw [BitVec.getLsbD_ofNat, e, Nat.testBit_mod_two_pow, Nat.testBit_shiftRight]
  simp [hi, BitVec.getLsbD]

theorem due_bit (k : Core) (h : bit k.cstat 2 = true) (i : Nat) (hi : i < 16) :
    k.due.getLsbD i = (bit k.e i && bit k.cstat (16 + i)) := by
  unfold Core.due
  rw [if_pos h, BitVec.getLsbD_and, bit_imask _ _ hi]
  rfl

theorem lowestBit_eq (m : BitVec 16) (n : Nat) (hn : n < 16) (h : m.getLsbD n = true) (hl : ∀ i, i < n → m.getLsbD i = false) :
    lowestBit m = n := by
  unfold lowestBit
  have : (List.range 16).find? (fun i => m.getLsbD i) = some n := by
    rw [List.find?_range_eq_some]
    exact ⟨h, by simpa using hn, fun i hi => by simp [hl i hi]⟩
  rw [this]; rfl

theorem off24_eq (o : BitVec 24) : off24Bytes o = BitVec.ofInt 32 (4 * o.toInt) := by
  apply BitVec.eq_of_toInt_eq
  unfold off24Bytes BitVec.signExtend
  rw [show ∀ w : Word, w <<< 2 = w * 4#32 from fun w => by
    apply BitVec.eq_of_toNat_eq; simp [BitVec.toNat_shiftLeft, Nat.shiftLeft_eq]]
  rw [show (4#32 : Word) = BitVec.ofInt 32 4 from rfl, ← BitVec.ofInt_mul, Int.mul_comm]

theorem branchTo_ok {c : Fin 6} {a : Word} {s : State} (h : fetchable c a.toNat = true) :
    branchTo c a s = s.setCore c ((s.cores.get c).goesTo a) := by
  simp [branchTo, h, State.onCore, Core.goesTo]

theorem condHolds_eq (cond : BitVec 4) (h : cond ≠ 0xF) (f : BitVec 4) : condHolds cond.toNat f =
    (if cond.toNat % 2 = 1 then !(match cond.toNat / 2 with
      | 0 => bit f 0 | 1 => bit f 2 | 2 => bit f 1 | 3 => bit f 3 | 4 => bit f 2 && !bit f 0 | 5 => bit f 1 == bit f 3
      | 6 => !bit f 0 && (bit f 1 == bit f 3) | _ => true)
    else (match cond.toNat / 2 with
      | 0 => bit f 0 | 1 => bit f 2 | 2 => bit f 1 | 3 => bit f 3 | 4 => bit f 2 && !bit f 0 | 5 => bit f 1 == bit f 3
      | 6 => !bit f 0 && (bit f 1 == bit f 3) | _ => true)) := by
  revert cond f; decide

theorem goesTo_next (k : Core) : k.advance = k.goesTo (k.pc + 4) := rfl

theorem branchTo_lost {c : Fin 6} {a : Word} {s : State} (h : fetchable c a.toNat = false)
    (hp : (s.cores.get c).plain = true) : branchTo c a s = s.setCore c (if (s.cores.get c).due = 0 then
      ((s.cores.get c).goesTo a).excepted 3 a else (s.cores.get c).goesTo a) := by
  have hd' : ((s.cores.get c).goesTo a).due = (s.cores.get c).due := rfl
  have e : ({ s.cores.get c with pc := a, run := .running } : Core) = (s.cores.get c).goesTo a := rfl
  simp only [branchTo, State.onCore, h, e, State.setCore_get, hd']
  by_cases hd : (s.cores.get c).due = 0
  · rw [if_pos (by rw [hd]; rfl), if_pos hd, raiseBus, raise_plain (by rw [State.setCore_get]; exact hp), State.setCore_get,
      State.setCore_setCore]
    rfl
  · rw [if_neg (by simpa using hd), if_neg hd]

@[simp] theorem put_due (rd : Fin 16) (v : Word) (k : Core) : (Core.put rd v k).due = k.due := by simp [Core.due]

@[simp] theorem put_plain (rd : Fin 16) (v : Word) (k : Core) : (Core.put rd v k).plain = k.plain := by simp [Core.plain]

theorem Fetches.clk {c : Fin 6} {s t : State} (h : Fetches c s t) : t.clk = s.clk := by rw [h.same.rest]

theorem fence_ok (imm : BitVec 12) (h : imm.toNat < 32) : ((0 : Fin 16) == 0 && (0 : Fin 16) == 0 && decide (imm.toNat < 32)) = true := by
  simp [h]

theorem ccore_eq : ∀ c : Fin 6, ccore c = wd (0x100 + (if c = 4 then 0x10 else if c = 5 then 0x20 else 0) + c.val) := by decide

theorem fireTimer_pc (now : Word) (k : Core) : (fireTimer now k).pc = k.pc := by
  unfold fireTimer; split <;> rfl

theorem cFlush_spec (k : Nat) (s : State) : cFlush k s = { s with chans := (cFlush k s).chans } ∧
    (cFlush k s).chans.timed = s.chans.timed ∧ (cFlush k s).chans.flushed = s.chans.flushed ∧
    ((s.chan k).back = [] → ((cFlush k s).chan k).q = [] ∧ ((cFlush k s).chan k).back = []) ∧
    ∀ x, x ≠ k → (cFlush k s).chan x = s.chan x := by
  refine ⟨rfl, rfl, rfl, fun h => ?_, fun x hx => ?_⟩
  · simp [cFlush, cRefill, chan_setChan, h]
  · simp [cFlush, cRefill, chan_setChan, hx]

theorem cFlushes (xs : List Nat) (s : State) :
    let u := forEach xs cFlush s
    u = { s with chans := u.chans } ∧ u.chans.timed = s.chans.timed ∧ u.chans.flushed = s.chans.flushed ∧
    (∀ x, (s.chan x).back = [] → ((u.chan x).back = [] ∧ (x ∈ xs → (u.chan x).q = [])) ∧ ((s.chan x).q = [] → (u.chan x).q = [])) ∧
    ∀ x, x ∉ xs → u.chan x = s.chan x := by
  induction xs generalizing s with
  | nil => exact ⟨rfl, rfl, rfl, fun x h => ⟨⟨h, fun hx => by simp at hx⟩, fun h => h⟩, fun _ _ => rfl⟩
  | cons k xs ih =>
    obtain ⟨c1, c2, c3, c4, c5⟩ := cFlush_spec k s
    obtain ⟨i1, i2, i3, i4, i5⟩ := ih (cFlush k s)
    simp only [forEach, List.foldl_cons] at i1 i2 i3 i4 i5 ⊢
    refine ⟨?_, i2.trans c2, i3.trans c3, fun x hx => ?_, fun x hx => ?_⟩
    · rw [i1, c1]
    · by_cases hk : x = k
      · subst hk
        obtain ⟨q0, b0⟩ := c4 hx
        obtain ⟨⟨j1, j2⟩, j3⟩ := i4 x b0
        exact ⟨⟨j1, fun _ => j3 q0⟩, fun _ => j3 q0⟩
      · have := i4 x (by rw [c5 x hk]; exact hx)
        rw [c5 x hk] at this
        exact ⟨⟨this.1.1, fun h => this.1.2 (by simpa [hk] using h)⟩, this.2⟩
    · simp only [List.mem_cons, not_or] at hx
      rw [i5 x hx.2, c5 x hx.1]

theorem loadInstr_done {c : Fin 6} {s t u : State} (h : Fetches c s t) (major n : Nat) (conv : Bytes → Word) (rd ra : Fin 16)
    (imm : BitVec 12) {bs : Bytes} (hn : ((t.cores.get c).get ra + BitVec.ofInt 32 imm.toInt).toNat % n = 0)
    (hl : load c ((t.cores.get c).get ra + BitVec.ofInt 32 imm.toInt).toNat n t = (.ok bs, u)) :
    loadInstr major n conv c rd ra imm 0 s = .next (u.setCore c ((u.cores.get c).result rd (conv bs) (u.cores.get c).flg)) := by
  unfold loadInstr
  rw [instruction_fetched h, if_pos (by rfl)]
  dsimp only
  rw [show effAddr (t.cores.get c) ra imm = (t.cores.get c).get ra + BitVec.ofInt 32 imm.toInt from rfl,
    if_neg (by simpa using hn), hl]
  simp [State.onCore, Core.result, Core.write, Core.advance, Core.put]
  split <;> rfl

theorem align_line {a n : Nat} (h : n = 1 ∨ n = 2 ∨ n = 4) (ha : a % n = 0) : a % 64 + n ≤ 64 := by
  rcases h with rfl | rfl | rfl <;> omega

theorem normalStore_or {c : Fin 6} {a : Nat} (h : normalStore c a = true) : inSram a = true ∨ inKilnSram a = true := by
  simp only [normalStore, Bool.or_eq_true, Bool.and_eq_true] at h
  rcases h with h | h
  · exact .inl h
  · exact .inr h.2

theorem Fetches.inv {c : Fin 6} {s t : State} (h : Fetches c s t) (i : Inv s) : Inv t := by
  obtain ⟨-, -, -, -, bs, h⟩ := h
  have := (coreFetch_ev c (s.cores.get c).pc.toNat (Evolves.refl s)).inv i
  rwa [h] at this

theorem Fetches.bytes {c : Fin 6} {s t : State} (h : Fetches c s t) (i : Inv s) : SameBytes s t := by
  obtain ⟨-, -, -, -, bs, h⟩ := h
  exact coreFetch_bytes i h

theorem storeInstr_done {c : Fin 6} {s t : State} (h : Fetches c s t) (major n : Nat) (rd ra : Fin 16)
    (imm : BitVec 12) (hn : ((t.cores.get c).get ra + BitVec.ofInt 32 imm.toInt).toNat % n = 0) :
    let k := t.cores.get c
    let ea := k.get ra + BitVec.ofInt 32 imm.toInt
    let on := t.setCore c (k.goesTo (k.pc + 4))
    storeInstr major n c rd ra imm 0 s = .next (match store c ea.toNat ((leOfWord (k.get rd)).take n) on with
      | (.ok _, t) => t
      | (.stall, t) => stall c (encM major rd ra imm 0) (t.setCore c k)
      | (_, t) => raiseBus c ea (t.setCore c k)) := by
  dsimp only
  unfold storeInstr
  rw [instruction_fetched h, if_pos (by rfl)]
  dsimp only
  rw [show effAddr (t.cores.get c) ra imm = (t.cores.get c).get ra + BitVec.ofInt 32 imm.toInt from rfl,
    if_neg (by simpa using hn), State.onCore]
  rfl

theorem take_length (w : Word) {n : Nat} (h : n = 1 ∨ n = 2 ∨ n = 4) : ((leOfWord w).take n).length = n := by
  have : (leOfWord w).length = 4 := by simp [leOfWord, leBytes]
  rw [List.length_take, this]; omega

theorem setCore_ev {s : State} (c : Fin 6) (k : Core) (hk : coreOk c (s.cores.get c) = true → coreOk c k = true) :
    Evolves s (s.setCore c k) := State.setCore_ev c k (Evolves.refl s) (fun i => hk (i.cores c))

theorem raiseMisaligned_eq {c : Fin 6} {t : State} (hp : (t.cores.get c).plain = true) (a : Word) :
    raiseMisaligned c a t = t.setCore c ((t.cores.get c).excepted 2 a) := by
  rw [raiseMisaligned, raise_plain hp]; rfl

theorem raiseBus_eq {c : Fin 6} {u : State} (hp : (u.cores.get c).plain = true) (a : Word) :
    raiseBus c a u = u.setCore c ((u.cores.get c).excepted 3 a) := by
  rw [raiseBus, raise_plain hp]; rfl

theorem withZ_eq (f : BitVec 4) (p : Prop) [Decidable p] : withZ f (decide p) = BitVec.ofNat 4 (f.toNat / 2 * 2 + if p then 1 else 0) := by
  by_cases h : p <;> simp only [h, decide_true, decide_false, if_true, if_false] <;> revert f <;> decide

theorem lateSuccess_cores (e : Nat) (s : State) : (lateSuccess e s).cores = s.cores := by
  unfold lateSuccess countLate State.onQueue
  repeat' split
  all_goals rfl

theorem lateDone_cores (c : Fin 6) (ch : Nat) (w : Word) (s : State) : (lateDone c ch w s).cores = s.cores := by
  unfold lateDone when withSome
  repeat' split
  all_goals first | rfl | exact lateSuccess_cores _ _

theorem sub_code (sub : Nat) : fld 8 sub + 5 = 256 * sub + 5 := by simp [fld, Nat.shiftLeft_eq]; omega

theorem raiseChan_eq {c : Fin 6} {s : State} {k : Core} (hk : s.cores.get c = k) (hp : k.plain = true) (ch : BitVec 8) (sub : Nat) :
    raiseChan c ch sub s = s.setCore c (k.excepted (wd (256 * sub + 5)) (wd ch.toNat)) := by
  subst hk
  rw [raiseChan, raise_plain hp, sub_code]
  rw [show (ch.setWidth 32 : Word) = wd ch.toNat by apply BitVec.eq_of_toNat_eq; simp [wd]]

/-- The last DIN word of a ledger write. -/
theorem withholds_iff (ch : Nat) (eom : Bool) (s : State) : withholds ch eom s = true ↔
    ch = 0x52 ∧ eom = true ∧ (s.led.collecting ≠ none ∨ ∃ h ∈ (s.chan 0x54).q, isWriteWord h.w = true) := by
  simp [withholds, Option.isSome_iff_ne_none, and_assoc]

theorem withholds_placed (c : Fin 6) (ch : Nat) (eom : Bool) (w : Word) (s : State) (f : Core → Core) :
    withholds ch eom (placeWord c ch w eom (s.onCore c f)) = withholds ch eom s := by
  rw [Bool.eq_iff_iff, withholds_iff, withholds_iff]
  refine and_congr_right fun h => ?_
  subst h
  unfold placeWord when
  have hk : sendKey c 0x52 = 0x52 := by revert c; decide
  split
  · rw [cPut, chan_setChan, hk, if_neg (by decide)]
    rfl
  · rfl

theorem roomFor_iff (s : State) (c : Fin 6) (n : Nat) : s.roomFor c n = true ↔ n = 0x82 ∨ (s.chan (sendKey c n)).q.length < 4 := by
  simp [State.roomFor, State.cRoom]

theorem placeWord_eq {c : Fin 6} {ch : Nat} {w : Word} {eom : Bool} {s : State} {k j : Core} :
    (placeWord c ch w eom (s.setCore c k)).setCore c j = (if discards ch w then s else
      s.setChan (sendKey c ch) { s.chan (sendKey c ch) with q := (s.chan (sendKey c ch)).q ++ [⟨w, eom, s.clk.tb, 0⟩] }).setCore c j := by
  unfold placeWord when
  by_cases hd : discards ch w = true
  · simp [hd]
  · simp only [hd, Bool.not_false, if_true, cPut]
    simp [State.setChan, State.setCore, State.chan, Vector.set_set]

theorem placeWord_core (c : Fin 6) (ch : Nat) (w : Word) (eom : Bool) (s : State) : (placeWord c ch w eom s).cores = s.cores := by
  unfold placeWord when
  split <;> rfl

theorem sendWord_eq {c : Fin 6} {ch : Nat} {w : Word} {eom : Bool} {f : BitVec 4 → BitVec 4} {s : State} {k : Core}
    (hk : s.cores.get c = k) (h : withholds ch eom s = false) :
    sendWord c ch w eom f s = (if discards ch w then s else
      s.setChan (sendKey c ch) { s.chan (sendKey c ch) with q := (s.chan (sendKey c ch)).q ++ [⟨w, eom, s.clk.tb, 0⟩] }).setCore c
      { k.goesTo (k.pc + 4) with flg := f k.flg } := by
  subst hk
  unfold sendWord
  dsimp only
  rw [withholds_placed, h, if_neg (by simp), State.onCore, placeWord_core, State.onCore, State.setCore_get, placeWord_eq]
  rfl

theorem sendWord_held {c : Fin 6} {ch : Nat} {w : Word} {eom : Bool} {f : BitVec 4 → BitVec 4} {s : State} {k : Core}
    (hk : s.cores.get c = k) (h : withholds ch eom s = true) :
    sendWord c ch w eom f s = drainLedgerDin 4 ((if discards ch w then s else
      s.setChan (sendKey c ch) { s.chan (sendKey c ch) with q := (s.chan (sendKey c ch)).q ++ [⟨w, eom, s.clk.tb, 0⟩] }).setCore c
      { k with flg := f k.flg, run := .blocked .ledgerAck }) := by
  subst hk
  unfold sendWord
  dsimp only
  rw [withholds_placed, h, if_pos rfl, State.onCore, placeWord_core, State.onCore, State.setCore_get, placeWord_eq]

theorem aux_eom (eom : Bool) : bit (if eom then 1 else 0 : BitVec 10) 0 = eom ∧ auxEom (if eom then 1 else 0) = true := by
  cases eom <;> decide

theorem flag_forms (f : BitVec 4) (v z : Bool) : withV f v = packFlags v (bit f 2) (bit f 1) (bit f 0) ∧
    withZ (withV f v) z = packFlags v (bit f 2) (bit f 1) z := by
  revert f v z; decide

theorem endFlushAt_none {c : Fin 6} {ch : Nat} {s : State} (h : ∀ e, chanEngine c ch = some e → s.flushed e = false) :
    endFlushAt c ch s = s := by
  unfold endFlushAt when
  split
  · rename_i e _ he
    simp [h e he]
  · rfl

theorem flushes_none {c : Fin 6} {ch : Nat} {s : State} (h : ∀ e, chanEngine c ch = some e → s.flushed e = false) :
    s.flushes c ch = false := by
  unfold State.flushes
  cases he : chanEngine c ch with
  | none => simp
  | some e => simp [h e he]

theorem cTake_cons {key : Nat} {s : State} {h : ChWord} {q : List ChWord} (e : (s.chan key).q = h :: q) :
    cTake key s = (some h, cRefill key (s.setChan key { s.chan key with q := q, taken := some (h.tick, h.fine) })) := by
  unfold cTake
  dsimp only
  rw [e]

theorem cRefill_cores (key : Nat) (s : State) : (cRefill key s).cores = s.cores := rfl

theorem cTake_nil {key : Nat} {s : State} (e : (s.chan key).q = []) : cTake key s = (none, s) := by
  unfold cTake
  dsimp only
  rw [e]

theorem sub_code' (sub : Nat) : fld 8 sub + 5 = 256 * sub + 5 := by simp [fld, Nat.shiftLeft_eq]; omega

theorem raiseChan_eq' {c : Fin 6} {s : State} {k : Core} (hk : s.cores.get c = k) (hp : k.plain = true) (ch : BitVec 8) (sub : Nat) :
    raiseChan c ch sub s = s.setCore c (k.excepted (wd (256 * sub + 5)) (wd ch.toNat)) := by
  subst hk
  rw [raiseChan, raise_plain hp, sub_code']
  rw [show (ch.setWidth 32 : Word) = wd ch.toNat by apply BitVec.eq_of_toNat_eq; simp [wd]]

theorem receive_eq {c : Fin 6} {rd : Fin 16} {h : ChWord} {f : BitVec 4 → BitVec 4} {s : State} {k : Core}
    (hk : s.cores.get c = k) : receive c rd h f s = s.setCore c (k.result rd h.w (f (withC (withV k.flg false) h.eom))) := by
  subst hk
  simp [receive, State.onCore, Core.write, Core.advance, Core.result]

theorem flushedRecv_eq {c : Fin 6} {rd : Fin 16} {f : BitVec 4 → BitVec 4} {s : State} {k : Core}
    (hk : s.cores.get c = k) : flushedRecv c rd f s = s.setCore c (k.result rd 0 (f (withV k.flg true))) := by
  subst hk
  simp [flushedRecv, State.onCore, Core.write, Core.advance, Core.result]

theorem endFlush_cores (e : Nat) (s : State) : (endFlush e s).cores = s.cores := rfl

theorem endFlush_chan (e : Nat) (s : State) (k : Nat) : (endFlush e s).chan k = s.chan k := rfl

theorem takeEvents_spec {c : Fin 6} {u : State} {k : Core} (hk : u.cores.get c = k) (rd : Fin 16) (m : BitVec 16) (keep : Bool) :
    takeEvents c rd m keep u = { u with cores := (takeEvents c rd m keep u).cores } ∧
    ∀ x, (takeEvents c rd m keep u).cores.get x =
        let y := if x = c then { k.result rd ((k.e &&& m).setWidth 32) k.flg with e := if keep then k.e else k.e &&& ~~~m }
          else u.cores.get x
        { y with e := y.e ||| (if x = c ∧ u.cmdWaits c = true then 0x0400 else 0) ||| (if u.modeInt then 0x0100 else 0) } := by
  subst hk
  unfold takeEvents
  dsimp only
  generalize hu : u.onCore c _ = w
  have hw : w = u.setCore c { (u.cores.get c).result rd (((u.cores.get c).e &&& m).setWidth 32) (u.cores.get c).flg with
      e := if keep then (u.cores.get c).e else (u.cores.get c).e &&& ~~~m } := by
    rw [← hu]
    simp [State.onCore, Core.write, Core.advance, Core.result]
  obtain ⟨c1, c2⟩ := levelCmd_cores w c
  obtain ⟨m1, m2⟩ := levelMode_cores (w.levelCmd c)
  have hm : (w.levelCmd c).modeInt = u.modeInt := by rw [c1, hw]; rfl
  have hc : w.cmdWaits c = u.cmdWaits c := by rw [hw]; rfl
  refine ⟨?_, fun x => ?_⟩
  · rw [m1, c1, hw]; rfl
  · rw [m2, c2, hm, hc, hw, State.get_setCore]

theorem eventsDue_iff (k : Core) (m : BitVec 16) : eventsDue k m = true ↔ (m = 0 ∨ k.e &&& m ≠ 0) := by
  simp [eventsDue]

theorem firstDue_spec (now : Nat) (q : List TimedWord) (w : TimedWord) (h : firstDue now q = some w) :
    w ∈ q ∧ timedDue now w = true ∧ ∀ x ∈ q, timedDue now x = true → applyTick now w ≤ applyTick now x := by
  have key : ∀ (xs : List TimedWord) (b : Option TimedWord), (xs.foldl (fun best t =>
      match best with
      | none => some t
      | some b => if applyTick now t < applyTick now b then some t else some b) b) = some w →
      (w ∈ xs ∨ b = some w) ∧ (∀ x ∈ xs, applyTick now w ≤ applyTick now x) ∧ ∀ y, b = some y → applyTick now w ≤ applyTick now y := by
    intro xs
    induction xs with
    | nil => intro b hb; exact ⟨.inr hb, by simp, fun y hy => by simp only [List.foldl_nil] at hb; rw [hb] at hy; cases hy; exact Nat.le_refl _⟩
    | cons x xs ih =>
      intro b hb
      rw [List.foldl_cons] at hb
      obtain ⟨h1, h2, h3⟩ := ih _ hb
      cases b with
      | none =>
        dsimp only at h1 h3
        refine ⟨.inl ?_, fun z hz => ?_, by simp⟩
        · rcases h1 with h1 | h1
          · exact List.mem_cons_of_mem _ h1
          · cases h1; exact List.mem_cons_self
        · rcases List.mem_cons.1 hz with rfl | hz
          · exact h3 _ rfl
          · exact h2 z hz
      | some y =>
        dsimp only at h1 h3
        split_ifs at h1 h3 with hlt
        · refine ⟨.inl ?_, fun z hz => ?_, fun z hz => ?_⟩
          · rcases h1 with h1 | h1
            · exact List.mem_cons_of_mem _ h1
            · cases h1; exact List.mem_cons_self
          · rcases List.mem_cons.1 hz with rfl | hz
            · exact h3 _ rfl
            · exact h2 z hz
          · cases hz; have := h3 x rfl; omega
        · refine ⟨?_, fun z hz => ?_, fun z hz => ?_⟩
          · rcases h1 with h1 | h1
            · exact .inl (List.mem_cons_of_mem _ h1)
            · exact .inr h1
          · rcases List.mem_cons.1 hz with rfl | hz
            · have := h3 y rfl; omega
            · exact h2 z hz
          · cases hz; exact h3 _ rfl
  obtain ⟨h1, h2, -⟩ := key _ _ h
  have h1 := h1.resolve_right (by simp)
  rw [List.mem_filter] at h1
  exact ⟨h1.1, h1.2, fun x hx hd => h2 x (List.mem_filter.2 ⟨hx, hd⟩)⟩

theorem timedFault_none {c : Fin 6} {ch : Nat} (h : (portOf c ch).isSome = true) : timedFault c ch true = none := by
  obtain ⟨p, hp⟩ := Option.isSome_iff_exists.1 h
  rw [timedFault, hp]
  rfl

theorem raiseKey_eq {s : State} {k : Core} (hk : s.cores.get 5 = k) (hp : k.plain = true) (h : Word) (sub : Nat) :
    raiseKey 5 h sub s = s.setCore 5 (k.excepted (wd (256 * sub + 6)) h) := by
  subst hk
  rw [raiseKey, raise_plain hp, show fld 8 sub + 6 = 256 * sub + 6 by simp [fld, Nat.shiftLeft_eq]; omega]

theorem onCore_advance {u s : State} {c : Fin 6} (h : u.cores = s.cores) :
    u.onCore c Core.advance = u.setCore c ((s.cores.get c).goesTo ((s.cores.get c).pc + 4)) := by
  rw [State.onCore, h]; rfl

theorem modeReq_core {s : State} (hl : s.live = true) {c : Fin 6} (hc : c ≠ 4) (n : Nat) :
    when s.live (modeRequest (.core c) 0x4D4F n) s = modeTarget n s := by
  unfold when
  rw [if_pos hl, modeRequest]
  have : c.val ≠ 4 := fun e => hc (Fin.ext e)
  simp [modeRequester, this]

theorem modeReq_bad {s : State} (hl : s.live = true) {c : Fin 6} {key : BitVec 16} (h : key ≠ 0x4D4F ∨ c = 4) (n : Nat) :
    when s.live (modeRequest (.core c) key n) s = modeEvent 1 s := by
  unfold when
  rw [if_pos hl, modeRequest, if_neg]
  rcases h with h | h
  · simp only [Bool.and_eq_true, beq_iff_eq, not_and]; exact fun _ => h
  · subst h; simp [modeRequester]

theorem modeReq_host {s : State} {who : Req} {key : BitVec 16} (h : who ∈ hostReqs) (n : Nat) :
    when s.live (modeRequest who key n) s = s := by
  simp only [hostReqs, List.mem_cons, List.not_mem_nil, or_false] at h
  rcases h with h | h | h <;> (subst h; unfold when modeRequest; simp)

theorem sorted_lt {k n : Nat} {v x : Nat} {l : Assoc Nat} (h : asorted ((k, v) :: l) = true) (hg : aget? l n = some x) : k < n := by
  induction l generalizing k v with
  | nil => simp [aget?] at hg
  | cons e l ih =>
    obtain ⟨j, w⟩ := e
    simp only [asorted, Bool.and_eq_true, decide_eq_true_eq] at h
    rw [aget?] at hg
    split at hg
    · omega
    · exact lt_trans h.1 (ih h.2 hg)

theorem asorted_tail {k v : Nat} {l : Assoc Nat} (h : asorted ((k, v) :: l) = true) : asorted l = true := by
  cases l with
  | nil => rfl
  | cons e l =>
    obtain ⟨j, w⟩ := e
    simp only [asorted, Bool.and_eq_true] at h
    exact h.2

theorem lowest_head (p : Nat → Bool) (n x : Nat) (l : Assoc Nat) (hs : asorted l = true) (hg : aget? l n = some x) (hp : p n = true)
    (hm : ∀ m, m < n → p m = true → aget? l m = none) : (l.filter (fun e => p e.1)).head? = some (n, x) := by
  induction l with
  | nil => simp [aget?] at hg
  | cons e l ih =>
    obtain ⟨k, v⟩ := e
    rw [aget?] at hg
    split at hg
    · rename_i hk
      subst hk
      cases hg
      rw [List.filter_cons_of_pos (by exact hp)]; rfl
    · rename_i hk
      have hlt : k < n := sorted_lt hs hg
      have hpk : ¬ p k = true := fun h => by
        have := hm k hlt h
        rw [aget?, if_pos rfl] at this
        cases this
      rw [List.filter_cons_of_neg (by exact hpk)]
      refine ih (asorted_tail hs) hg (fun m h1 h2 => ?_)
      have := hm m h1 h2
      rw [aget?] at this
      split at this
      · cases this
      · exact this

theorem refuseBank_sys (s : State) : (refuseBank s).sys = s.sys ∧ (refuseBank s).clk = s.clk ∧ (refuseBank s).led = s.led := by
  unfold refuseBank
  dsimp only
  refine ⟨?_, ?_, ?_⟩ <;> (rw [(modeEvent_notified 2 _).rest]; rfl)

theorem raiseLockdown_spec (b : Nat) (s : State) (h : lockable s.sys.mode = true) :
    (raiseLockdown b s).sys = { commitSys .lockdown (0x11 + b) s with lockCause := s.sys.lockCause ||| BitVec.ofNat 5 (1 <<< b), recordWanted := true } ∧
    (raiseLockdown b s).rbit rSYS_MODE_EVT 0 = true ∧ (raiseLockdown b s).clk = s.clk ∧ (raiseLockdown b s).led = s.led := by
  unfold raiseLockdown
  rw [if_pos h]
  dsimp only
  have hb : ∃ u : State, when s.pwr.entering refuseBank s = u ∧ u.sys = s.sys ∧ u.clk = s.clk ∧ u.led = s.led := by
    unfold when
    split
    · exact ⟨_, rfl, refuseBank_sys s⟩
    · exact ⟨_, rfl, rfl, rfl, rfl⟩
  obtain ⟨u, hu, h1, h2, h3⟩ := hb
  rw [hu]
  obtain ⟨c1, c2, c3, c4, c5, c6⟩ := commit_spec .lockdown (0x11 + b) { u with sys := { u.sys with lockCause := u.sys.lockCause ||| BitVec.ofNat 5 (1 <<< b) } }
  refine ⟨?_, c2, c3.trans h2, c4.trans h3⟩
  show ({ (commit _ _ _).sys with recordWanted := true } : Sys) = _
  rw [c1]
  unfold commitSys
  dsimp only
  rw [h1]
  rfl

theorem approachExpiry_none {s : State} (h : ∀ e, s.sys.mode = .approach → s.sys.approachEnd = some e → s.clk.tb < e) :
    approachExpiry s = s := by
  unfold approachExpiry when
  rw [if_neg]
  simp only [Bool.and_eq_true, beq_iff_eq, Option.any_eq_true, decide_eq_true_eq, not_and, not_exists]
  exact fun hm e he => by have := h e hm he; omega

theorem modeTarget_refused {s : State} {n : Nat} (h : modeTable n s = modeEvent 2 s) :
    Notified (s.setRbit rSYS_MODE_EVT 2 true) (modeTable n s) := by
  rw [h]; exact modeEvent_notified 2 s

theorem modeTarget_lock (s : State) : modeTable 0xC s =
    if lockable s.sys.mode || s.sys.mode == .lockdown then raiseLockdown 4 s else modeEvent 2 s := by
  unfold modeTable
  generalize s.sys.mode = m
  cases m <;> rfl

theorem dropSessions_zero (s : State) : dropSessions 0 s = s := by
  unfold dropSessions
  rw [show (List.range 8).filter (fun n => (0 : BitVec 8).getLsbD n) = [] from by decide]
  rfl

theorem sessionWrite_open (s : State) (c : Fin 6) (mask : BitVec 8) : sessionWrite (.core c) 0 mask s =
    let s' := when (!opensSessions s.sys.mode && mask != 0) (modeEvent 2)
      { s with sys := { s.sys with active := if opensSessions s.sys.mode then s.sys.active ||| mask else s.sys.active } }
    let act := if opensSessions s.sys.mode then s.sys.active ||| mask else s.sys.active
    if s'.sys.mode == .parked && act != 0 then commit .approach 0x06 s'
    else if s'.sys.mode == .approach && act == 0 then commit .parked 0x07 s'
    else s' := by
  unfold sessionWrite
  dsimp only
  have h1 : s.sys.active &&& (0 : BitVec 8) = 0 := by simp
  have h2 : s.sys.active &&& ~~~(0 : BitVec 8) = s.sys.active := by
    show s.sys.active &&& BitVec.allOnes 8 = _
    exact BitVec.and_allOnes
  have h3 : s.sys.grants.filter (fun e => !((0 : BitVec 8).getLsbD e.1 && s.sys.active.getLsbD e.1)) = s.sys.grants := by simp
  rw [h1, h2, dropSessions_zero, h3]

theorem scanResult_spec (s : State) : scanResult s = { s with led := { s.led with scanFrom := none }, regs := (scanResult s).regs } ∧
    (scanResult s).rbit rLEDGER_STAT 0 = false ∧ (scanResult s).rbit rLEDGER_STAT 1 = true ∧
    (scanResult s).reg rLEDGER_SCAN_TIME = wd (s.clk.tb - s.led.scanFrom.getD s.clk.tb) ∧
    ∀ k, k ∉ [rLEDGER_STAT, rLEDGER_SCAN, rLEDGER_SCAN_TIME] → (scanResult s).reg k = s.reg k := by
  have h : ∃ w, scanResult s = (((({ s with led := { s.led with scanFrom := none } } : State).setReg rLEDGER_SCAN w).setReg rLEDGER_SCAN_TIME
      (wd (s.clk.tb - s.led.scanFrom.getD s.clk.tb))).setRbit rLEDGER_STAT 0 false).setRbit rLEDGER_STAT 1 true := ⟨_, rfl⟩
  obtain ⟨w, h⟩ := h
  rw [h]
  refine ⟨rfl, ?_, rbit_setRbit _ _ _ _ (by omega), ?_, fun k hk => ?_⟩
  · rw [rbit_setRbit_bit _ _ _ _ _ (by omega) (by omega), rbit_setRbit _ _ _ _ (by omega)]
  · rw [reg_setRbit_ne _ _ _ _ (by decide), reg_setRbit_ne _ _ _ _ (by decide), reg_setReg_self]
  · simp only [List.mem_cons, List.not_mem_nil, or_false, not_or] at hk
    obtain ⟨h1, h2, h3⟩ := hk
    rw [reg_setRbit_ne _ _ _ _ h1, reg_setRbit_ne _ _ _ _ h1, reg_setReg_ne _ _ _ h3, reg_setReg_ne _ _ _ h2]
    rfl

theorem current_of_copies {s t : State} (h : t.led.copies = s.led.copies) (r : Nat) : current t r = current s r := by
  unfold current copyOf; rw [h]

theorem payload_of_copies {s t : State} (h : t.led.copies = s.led.copies) (r : Nat) : payload t r = payload s r := by
  unfold payload currentBytes
  rw [current_of_copies h]
  have : copyOf t r = copyOf s r := by funext k; unfold copyOf; rw [h]
  rw [this]

theorem storedLock_of_copies {s t : State} (h : t.led.copies = s.led.copies) : storedLock t = storedLock s := by
  unfold storedLock storedModePayload; rw [payload_of_copies h]

theorem storedMated_of_copies {s t : State} (h : t.led.copies = s.led.copies) : storedMated t = storedMated s := by
  unfold storedMated storedModePayload; rw [payload_of_copies h]

theorem kick4_idle {s : State} (h : s.creds.jobs = []) : kick4 s = s := by
  unfold kick4 kickJobs
  rw [h]

theorem startWaitingWrite_none {s : State} (h : s.led.waiting = none) : startWaitingWrite s = s := by
  unfold startWaitingWrite
  rw [h]

theorem writeWithin_spec (r : Nat → Bool) (bs : Bytes) : ∀ (a : Nat) (u : State), ∃ m, (writeWithin r a bs u) = { u with mem := m } := by
  induction bs with
  | nil => intro a u; exact ⟨_, rfl⟩
  | cons b bs ih =>
    intro a u
    obtain ⟨m, h⟩ := ih (a + 1) (when (r a) (writeByte a b) u)
    rw [writeWithin, h]
    unfold when
    split <;> exact ⟨_, rfl⟩

theorem kilnStart_spec (s : State) : ∃ k c m cs r, kilnStart s = { s with kiln := k, creds := c, mem := m, cores := cs, regs := r } ∧
    (∀ k, k ∉ eccKeys → ({ s with regs := r } : State).reg k = s.reg k) ∧
    ∀ c, ∃ e, cs.get c = { s.cores.get c with e := (s.cores.get c).e ||| e } := by
  unfold kilnStart when
  dsimp only
  split
  · unfold loadRuntime
    dsimp only
    generalize hu : ({ fillFixed s with creds := _ } : State) = u
    have h := writeWithin_memOnly inKilnSram (readBytes u (imageBase u + hdrKilnOff (readBytes u (imageBase u) 256))
      (hdrKilnLen (readBytes u (imageBase u) 256))) 0x10000000 u
    generalize writeWithin _ _ _ u = v at h ⊢
    have hr : v = { u with mem := v.mem, regs := v.regs, cores := v.cores } := h.rest
    refine ⟨{ u.kiln with ready := true }, u.creds, v.mem, (({ v with kiln := { v.kiln with ready := true } } : State).setE 0 0x0080).cores, v.regs, ?_,
      fun k hk => ?_, fun c => ?_⟩
    · have h2 : ∀ w : State, (w.setE 0 0x0080) = { w with cores := (w.setE 0 0x0080).cores } := fun _ => rfl
      rw [h2]
      conv_lhs => rw [hr]
      rw [← hu]
      rfl
    · exact (h.regs k hk).trans (by rw [← hu]; rfl)
    · obtain ⟨e, he⟩ := h.cores c
      refine ⟨e ||| (if c = 0 then 0x0080 else 0), ?_⟩
      rw [setE_get]
      show ({ v.cores.get c with e := (v.cores.get c).e ||| _ } : Core) = _
      rw [he, ← hu]
      simp only [BitVec.or_assoc]
      rfl
  · exact ⟨_, _, _, _, _, rfl, fun _ _ => rfl, fun c => ⟨0, by simp; rfl⟩⟩

theorem hostEvent_sys (b : Nat) (r : Sys2Proof.Req) (s : State) : (hostEvent b r s).sys = s.sys := by
  rw [(hostEvent_notified b r s).sys]
  split
  · rfl
  · exact State.setRbit_sys _ _ _ _

theorem hostEvent_reg (b : Nat) (r : Sys2Proof.Req) (s : State) {k : Nat} (h : k ∉ pendKeys) (h2 : k ≠ hostKey r rHOSTIF_EVT) :
    (hostEvent b r s).reg k = s.reg k := by
  rw [(hostEvent_notified b r s).regs k h]
  split
  · rfl
  · exact reg_setRbit_ne _ _ _ _ h2

theorem hostEvents_sys (b : Nat) (s : State) : (forEach hostReqs (hostEvent b) s).sys = s.sys ∧
    ∀ k, k ∉ pendKeys → (∀ r ∈ hostReqs, k ≠ hostKey r rHOSTIF_EVT) → (forEach hostReqs (hostEvent b) s).reg k = s.reg k := by
  refine ⟨?_, fun k hk hk2 => ?_⟩
  · unfold hostReqs
    rw [forEach_cons, forEach_cons, forEach_cons, forEach_nil, hostEvent_sys, hostEvent_sys, hostEvent_sys]
  · unfold hostReqs
    rw [forEach_cons, forEach_cons, forEach_cons, forEach_nil, hostEvent_reg _ _ _ hk (hk2 _ (by simp [hostReqs])),
      hostEvent_reg _ _ _ hk (hk2 _ (by simp [hostReqs])), hostEvent_reg _ _ _ hk (hk2 _ (by simp [hostReqs]))]

theorem startLoad_spec (v : State) : (startLoad v).sys = v.sys ∧ (startLoad v).cores = v.cores ∧
    ∀ k, k ∉ [rSTART_CFG, rSTART_RXID, rSTART_TXID, rSTART_COUNT, rSTART_PRES, rSTART_EVT, rSTART_PRES_ID, rSTART_PRES_T] →
      (startLoad v).reg k = v.reg k := by
  have h : ∃ a b c d e, startLoad v = ((((((((v.setReg rSTART_CFG a).setReg rSTART_RXID b).setReg rSTART_TXID c).setReg rSTART_COUNT d).setReg
      rSTART_PRES e).setReg rSTART_EVT 0).setReg rSTART_PRES_ID 0).setReg rSTART_PRES_T 0).onStart (fun _ => Start.idle) := ⟨_, _, _, _, _, rfl⟩
  obtain ⟨a, b, c, d, e, h⟩ := h
  rw [h]
  refine ⟨by simp only [State.onStart_sys, State.setReg_sys], by simp only [State.onStart_cores, State.setReg_cores], fun k hk => ?_⟩
  simp only [List.mem_cons, List.not_mem_nil, or_false, not_or] at hk
  obtain ⟨h1, h2, h3, h4, h5, h6, h7, h8⟩ := hk
  rw [State.onStart_reg, reg_setReg_ne _ _ _ h8, reg_setReg_ne _ _ _ h7, reg_setReg_ne _ _ _ h6, reg_setReg_ne _ _ _ h5,
      reg_setReg_ne _ _ _ h4, reg_setReg_ne _ _ _ h3, reg_setReg_ne _ _ _ h2, reg_setReg_ne _ _ _ h1]

theorem releaseCore_get (base : Nat) (h : Bytes) (c d : Fin 6) (s : State) : (releaseCore base h c s).cores.get d =
    if d = c ∧ hdrCvec h c.val ≠ 0 then Core.reset (wd (base + hdrCvec h c.val) &&& 0xFFFFFF00) .running else s.cores.get d := by
  unfold releaseCore
  dsimp only
  by_cases h0 : hdrCvec h c.val = 0
  · rw [if_pos h0, if_neg (by simp [h0])]
  · rw [if_neg h0]
    show (s.cores.set c _).get d = _
    rw [Vector.get_eq_getElem, Vector.get_eq_getElem, Vector.getElem_set]
    by_cases hd : d = c
    · subst hd; rw [if_pos rfl, if_pos ⟨rfl, h0⟩]
    · rw [if_neg (fun e => hd (Fin.ext e.symm)), if_neg (fun e => hd e.1)]

theorem releaseCore_rest (base : Nat) (h : Bytes) (c : Fin 6) (s : State) : (releaseCore base h c s).sys = s.sys ∧ (releaseCore base h c s).led = s.led ∧
    ∀ k, k ≠ regKey (.core c) rCPRIV_CACHE → (releaseCore base h c s).reg k = s.reg k := by
  unfold releaseCore
  dsimp only
  split
  · exact ⟨rfl, rfl, fun _ _ => rfl⟩
  · refine ⟨?_, ?_, fun k hk => ?_⟩
    · rw [State.setReg_sys, State.setCore_sys]
    · rw [State.setReg_led, State.setCore_led]
    · rw [reg_setReg_ne _ _ _ hk, State.setCore_reg]

theorem releaseCore_spec (base : Nat) (h : Bytes) (c : Fin 6) (s : State) :
    releaseCore base h c s = { s with cores := (releaseCore base h c s).cores, regs := (releaseCore base h c s).regs } := by
  unfold releaseCore
  dsimp only
  split
  · rfl
  · generalize regKey _ rCPRIV_CACHE = k
    generalize Core.reset _ _ = x
    rfl

/-- The cores of a chosen image start as R335 says, and nothing else changes but CPRIV_CACHE of each. -/
theorem releaseCores_spec (s : State) : releaseCores s = { s with cores := (releaseCores s).cores, regs := (releaseCores s).regs } ∧
    (∀ k, (∀ c : Fin 6, k ≠ regKey (.core c) rCPRIV_CACHE) → (releaseCores s).reg k = s.reg k) ∧
    ∀ c : Fin 6, (releaseCores s).cores.get c =
      let off := hdrCvec (slotRead s (s.fld rFLASH_BOOT 1 0 - 1) 0 256) c.val
      if 1 ≤ c.val ∧ c.val ≤ 4 ∧ s.fld rFLASH_BOOT 1 0 ≠ 0 ∧ off ≠ 0 then
        Core.reset (wd (slotBase (s.fld rFLASH_BOOT 1 0 - 1) + off) &&& 0xFFFFFF00) .running
      else s.cores.get c := by
  unfold releaseCores
  split
  · rename_i h
    refine ⟨rfl, fun _ _ => rfl, fun c => ?_⟩
    dsimp only
    rw [if_neg (fun e => e.2.2.1 h)]
  · rename_i n h
    rw [h, show n.succ - 1 = n from rfl]
    generalize slotRead s n 0 256 = b
    have hr : forEach [1, 2, 3, 4] (releaseCore (slotBase n) b) s =
      releaseCore (slotBase n) b 4 (releaseCore (slotBase n) b 3 (releaseCore (slotBase n) b 2 (releaseCore (slotBase n) b 1 s))) := rfl
    rw [hr]
    refine ⟨?_, fun k hk => ?_, fun c => ?_⟩
    · generalize h1 : releaseCore (slotBase n) b 1 s = u1
      have e1 := releaseCore_spec (slotBase n) b 1 s
      rw [h1] at e1
      generalize h2 : releaseCore (slotBase n) b 2 u1 = u2
      have e2 := releaseCore_spec (slotBase n) b 2 u1
      rw [h2] at e2
      generalize h3 : releaseCore (slotBase n) b 3 u2 = u3
      have e3 := releaseCore_spec (slotBase n) b 3 u2
      rw [h3] at e3
      rw [releaseCore_spec (slotBase n) b 4 u3, e3, e2, e1]
    · rw [(releaseCore_rest _ _ _ _).2.2 _ (hk _), (releaseCore_rest _ _ _ _).2.2 _ (hk _), (releaseCore_rest _ _ _ _).2.2 _ (hk _),
        (releaseCore_rest _ _ _ _).2.2 _ (hk _)]
    · simp only [releaseCore_get]
      have : c = 0 ∨ c = 1 ∨ c = 2 ∨ c = 3 ∨ c = 4 ∨ c = 5 := by revert c; decide
      rcases this with h | h | h | h | h | h <;> subst h <;> simp

/-- Event bits set on cores, and nothing else. -/
def MoreEvents (a b : Vector Core 6) : Prop := ∀ c, ∃ e, b.get c = { a.get c with e := (a.get c).e ||| e }

theorem MoreEvents.refl (a : Vector Core 6) : MoreEvents a a := fun c => ⟨0, by simp⟩

theorem MoreEvents.trans {a b c : Vector Core 6} (h : MoreEvents a b) (g : MoreEvents b c) : MoreEvents a c := fun x => by
  obtain ⟨e, he⟩ := h x
  obtain ⟨f, hf⟩ := g x
  exact ⟨e ||| f, by rw [hf, he]; simp only [BitVec.or_assoc]⟩

theorem hostEvents_cores (b : Nat) (s : State) : MoreEvents s.cores (forEach hostReqs (hostEvent b) s).cores := by
  have h : ∀ r u, MoreEvents u.cores (hostEvent b r u).cores := fun r u c => by
    obtain ⟨e, he⟩ := (hostEvent_notified b r u).cores c
    refine ⟨e, he.trans ?_⟩
    split
    · rfl
    · rw [State.setRbit_cores]
  unfold hostReqs
  rw [forEach_cons, forEach_cons, forEach_cons, forEach_nil]
  exact ((h _ _).trans (h _ _)).trans (h _ _)

theorem commit_cores (dst : Mode) (cause : Nat) (s : State) : MoreEvents s.cores (commit dst cause s).cores := by
  obtain ⟨r, f, st, ch, k, c, h, hr⟩ := commit_form dst cause s
  rw [h]
  intro x
  obtain ⟨e, he⟩ := (modeEvent_notified 0 _).cores x
  exact ⟨e, he⟩

/-- What the end of SCAN leaves before any core starts. -/
theorem scanEnded (s : State) : ∃ v, endScan s = releaseCores v ∧ v.sys =
    commitSys (afterScan s) (if afterScan s == .lockdown then 0x16 else 0x03) (loadMode s) ∧
    (∀ k ∈ [rLEDGER_STAT, rFLASH_BOOT], v.reg k = s.reg k) ∧ MoreEvents s.cores v.cores := by
  unfold endScan
  dsimp only
  generalize (if (afterScan s == Mode.lockdown) = true then 0x16 else 0x03) = cause
  refine ⟨_, rfl, ?_⟩
  obtain ⟨c1, c2, c3, c4, c5, c6⟩ := commit_spec (afterScan s) cause (loadMode s)
  have c7 := commit_cores (afterScan s) cause (loadMode s)
  have hl : (loadMode s).cores = s.cores := rfl
  rw [hl] at c7
  generalize commit (afterScan s) cause (loadMode s) = u at c1 c2 c3 c4 c5 c6 c7 ⊢
  obtain ⟨k, c, m, cs, r, hk, hkr, hkc⟩ := kilnStart_spec u
  obtain ⟨hs, hsc, hr⟩ := startLoad_spec (kilnStart u)
  have hh : ∀ v : State, (holdAll v).sys = v.sys ∧ (holdAll v).regs = v.regs := fun v => ⟨rfl, rfl⟩
  obtain ⟨e1, e2⟩ := hostEvents_sys 0 (holdAll (startLoad (kilnStart u)))
  refine ⟨?_, fun x hx => ?_, ?_⟩
  · have h5 : (kilnStart u).sys = u.sys := by rw [hk]
    exact (e1.trans (hh _).1).trans (hs.trans (h5.trans c1))
  · have hx' : x ∉ pendKeys ∧ (∀ r ∈ hostReqs, x ≠ hostKey r rHOSTIF_EVT) ∧ x ∉ eccKeys ∧ x ≠ rSTART_EVT ∧ x ≠ rSYS_MODE_EVT ∧
        x ∉ [rSTART_CFG, rSTART_RXID, rSTART_TXID, rSTART_COUNT, rSTART_PRES, rSTART_EVT, rSTART_PRES_ID, rSTART_PRES_T] := by
      simp only [List.mem_cons, List.not_mem_nil, or_false] at hx
      rcases hx with hx | hx <;> subst hx
      all_goals
        refine ⟨by decide, fun r hr => ?_, by decide, by decide, by decide, by decide⟩
        simp only [hostReqs, List.mem_cons, List.not_mem_nil, or_false] at hr
        rcases hr with h | h | h <;> (subst h; decide)
    obtain ⟨h1, h2, h3, h4, h5, h6⟩ := hx'
    rw [e2 x h1 h2, reg_of_regs (hh _).2]
    refine (hr x h6).trans ?_
    have : (kilnStart u).reg x = u.reg x := by rw [hk]; exact hkr x h3
    rw [this, c6 x h4 h5 h1]
    rfl
  · have h1 : (kilnStart u).cores = cs := congrArg State.cores hk
    have hh3 : ∀ v : State, (holdAll v).cores = v.cores := fun _ => rfl
    have h2 : (holdAll (startLoad (kilnStart u))).cores = (kilnStart u).cores := (hh3 _).trans hsc
    have h3 := hostEvents_cores 0 (holdAll (startLoad (kilnStart u)))
    rw [h2, h1] at h3
    exact (MoreEvents.trans c7 hkc).trans h3

theorem endScan_spec (s : State) : (endScan s).sys =
    commitSys (afterScan s) (if afterScan s == .lockdown then 0x16 else 0x03) (loadMode s) ∧
    (endScan s).rbit rLEDGER_STAT 1 = s.rbit rLEDGER_STAT 1 ∧
    ∀ c : Fin 6,
      let n := s.fld rFLASH_BOOT 1 0 - 1
      let off := leAt (slotRead (endScan s) n 0 256) (0xC + 4 * c.val) 4
      if 1 ≤ c.val ∧ c.val ≤ 4 ∧ s.fld rFLASH_BOOT 1 0 ≠ 0 ∧ off ≠ 0 then
        (endScan s).cores.get c = Core.reset (wd (0x08000000 + n * 0x180000 + off) &&& 0xFFFFFF00) .running
      else ∃ e, (endScan s).cores.get c = { s.cores.get c with e := (s.cores.get c).e ||| e } := by
  obtain ⟨v, hv, h1, h2, h3⟩ := scanEnded s
  obtain ⟨r1, r2, r3⟩ := releaseCores_spec v
  rw [hv]
  refine ⟨?_, ?_, fun c => ?_⟩
  · rw [r1]; exact h1
  · unfold State.rbit
    rw [r2 _ (by decide), h2 _ (by simp)]
  · have hb : s.fld rFLASH_BOOT 1 0 = v.fld rFLASH_BOOT 1 0 := by unfold State.fld; rw [h2 _ (by simp)]
    have hs : ∀ n, slotRead (releaseCores v) n 0 256 = slotRead v n 0 256 := fun n => by rw [r1]; rfl
    rw [hb]
    dsimp only
    have r3c := r3 c
    dsimp only [hdrCvec] at r3c
    rw [hs, r3c]
    split
    · rfl
    · exact h3 c

theorem stageOne_done {s : State} (h : ∀ n ∈ [0, 1], bootResult s n = 6 → judgeHeader s n true (slotRead s n 0 256) = none) : stageOne s = s := by
  refine forEach_fix _ _ _ (fun n hn => ?_)
  by_cases h6 : bootResult s n = 6
  · rw [if_neg (by simp [h6]), h n hn h6]
  · rw [if_pos (by simp [h6])]

theorem rollback_free {s : State} (h : ∀ w, s.led.writing = some w → w.target ≠ .unit 1 ∧ w.target ≠ .unit 2) : rollbackBusy s = false := by
  unfold rollbackBusy
  cases hw : s.led.writing with
  | none => rfl
  | some w => simp [h w hw]

theorem passWord_spec (a b : Nat) (w : Word) (s : State) : ∃ ch, passWord a b w s = { s with chans := ch } := by
  unfold passWord when
  split
  · unfold cTake
    dsimp only
    split <;> exact ⟨_, rfl⟩
  · exact ⟨s.chans, rfl⟩

/-- A word passed through an empty mailbox leaves every channel's words as they were. -/
theorem passWord_through (a b : Nat) (w : Word) (s : State) (hq : (s.chan (mailKey a b)).q = []) (hb : (s.chan (mailKey a b)).back = []) (k : Nat) :
    ((passWord a b w s).chan k).q = (s.chan k).q ∧ ((passWord a b w s).chan k).back = (s.chan k).back := by
  unfold passWord when
  rw [if_pos (by simp [State.cRoom, hq])]
  generalize mailKey a b = m at *
  have hc : ((cPut m w true 0 s).chan m) = { s.chan m with q := [⟨w, true, s.clk.tb, 0⟩] } := by
    rw [cPut]; dsimp only; rw [chan_setChan, if_pos rfl, hq]; rfl
  have ht : cTake m (cPut m w true 0 s) = (some ⟨w, true, s.clk.tb, 0⟩, cRefill m ((cPut m w true 0 s).setChan m
      { (cPut m w true 0 s).chan m with q := [], taken := some (s.clk.tb, 0) })) := by
    unfold cTake
    dsimp only
    rw [hc]
  dsimp only
  rw [ht]
  unfold cRefill
  dsimp only
  rw [chan_setChan, chan_setChan, chan_setChan, if_pos rfl]
  by_cases hk : k = m
  · subst hk
    rw [if_pos rfl, hc]
    dsimp only
    rw [hb, hq]
    exact ⟨rfl, rfl⟩
  · rw [if_neg hk, if_neg hk, cPut]
    rw [chan_setChan, if_neg hk]
    exact ⟨rfl, rfl⟩

theorem newKey_some {img key : Bytes} {ty use n : Nat} {s : State} (h : emptySlot s 32 64 = some n) :
    newKey img key ty use s = .ok (.done 0 0 ((s.slot n).gen * 64 + n)) (s.setSlot n ⟨some key, (s.slot n).gen, imgOwner img, ty, use⟩) := by
  unfold newKey
  rw [h]
  dsimp only
  unfold placeKey handleOf
  have : ((s.setSlot n ⟨some key, (s.slot n).gen, imgOwner img, ty, use⟩).slot n).gen = (s.slot n).gen := by
    unfold State.slot State.setSlot
    rw [agetD_asetD_self]
  rw [this]

end Sys2Proof.Machine
end

