-- ==== Sys2Proof/Laws/Devices.lean ====
section
/-! SUPPORT. The laws of the shared operations of the ledger, the command front end and the device blocks. -/
namespace Sys2Proof.Machine

theorem ledgerOp_serves {op : Nat} {img : Bytes} {s t : State} (h : s.kilnUp = true ∧ cmdImage 5 s = some img ∧ imgOp img = op ∧ t = cDrop (cmdKey 5) s)
    (ho : 1 ≤ op ∧ op ≤ 6) (body : Bytes → State → KRes KEnd) :
    ledgerOp op body s = match body img t with
      | .wait => s
      | .fail st re t => ledgerDone 0 re st t
      | .ok (.done st re v) t => ledgerDone v re st t
      | .ok .later t => t
      | .ok (.job j) t => kick4 (onCreds (fun c => { c with jobs := c.jobs ++ [j] }) t) := by
  obtain ⟨h1, h2, h3, rfl⟩ := h
  unfold ledgerOp
  rw [if_neg (by rw [h1]; decide), h2]
  have ho' : (!(decide (1 ≤ imgOp img) && decide (imgOp img ≤ 6))) = false := by rw [h3]; simp [ho]
  dsimp only
  rw [if_neg (by rw [ho', h3]; simp), ho']
  rw [if_neg (by decide)]
  all_goals rfl

theorem kick4_begins {j : Job} {w : JobWrite} {ws : List JobWrite} {v : State} (hj : v.creds.jobs = []) (hr : v.creds.jobRuns = false)
    (hw : j.writes = w :: ws) (hy : jobReady w v = true) (hn : jobWorn w v = false) :
    kick4 (onCreds (fun c => { c with jobs := c.jobs ++ [j] }) v) =
      onCreds (fun c => { c with jobRuns := true }) (beginJob w (onCreds (fun c => { c with jobs := [j] }) v)) := by
  have e : onCreds (fun c => { c with jobs := c.jobs ++ [j] }) v = onCreds (fun c => { c with jobs := [j] }) v := by
    unfold onCreds; dsimp only; rw [hj]; rfl
  rw [e]
  unfold kick4 kickJobs
  have e1 : (onCreds (fun c => { c with jobs := [j] }) v).creds.jobs = [j] := rfl
  have e2 : (onCreds (fun c => { c with jobs := [j] }) v).creds.jobRuns = false := hr
  have e3 : jobReady w (onCreds (fun c => { c with jobs := [j] }) v) = true := by cases w <;> exact hy
  have e4 : jobWorn w (onCreds (fun c => { c with jobs := [j] }) v) = false := by cases w <;> exact hn
  rw [e1]
  dsimp only
  rw [if_neg (by rw [e2]; decide), hw]
  dsimp only
  rw [if_neg (by rw [e3]; decide), if_neg (by rw [e4]; decide)]

theorem ledgerCtrl_head {s : State} {op : Nat} {w : Word} (h : ledgerCtrl s op = some w) : ledgerCtrl s op = some w ∧ s.cHead 0x54 = some w := by
  refine ⟨h, ?_⟩
  unfold ledgerCtrl at h
  exact (Option.filter_eq_some_iff.mp h).1

theorem cDrop_chan_ne {k j : Nat} (h : j ≠ k) (s : State) : (cDrop k s).chan j = s.chan j := by
  unfold cDrop cRefill
  dsimp only
  rw [chan_setChan, if_neg h, chan_setChan, if_neg h]

theorem cDrop_chan_q {k : Nat} {s : State} {x : ChWord} {q : List ChWord} (h : (s.chan k).q = x :: q) (hb : (s.chan k).back = []) :
    ((cDrop k s).chan k).q = q := by
  unfold cDrop cRefill
  dsimp only
  simp [chan_setChan, h, hb]

/-- A channel's words dropped change the channels alone. -/
theorem cDrop_rest (k : Nat) (s : State) : cDrop k s = { s with chans := (cDrop k s).chans } := rfl

theorem drainLedgerDin_none {n : Nat} {s : State} (h : s.led.collecting = none) : drainLedgerDin n s = s := by
  cases n with
  | zero => rfl
  | succ n => unfold drainLedgerDin; rw [h]

theorem drainLedgerDin_empty {n : Nat} {s : State} (h : (s.chan 0x52).q = []) : drainLedgerDin n s = s := by
  cases n with
  | zero => rfl
  | succ n =>
    unfold drainLedgerDin
    rw [h]
    cases s.led.collecting <;> rfl

theorem endWrite_led {s : State} {x : LedgerWrite} (ok : Bool) (hx : s.led.writing = some x) (hr : s.led.rescanWanted = false) :
    ∃ led, (endWrite ok s).led = led ∧ led.writing = none ∧ (endWrite ok s).rbit rLEDGER_STAT 2 = false ∧
      (endWrite ok s).sys = s.sys ∧ (endWrite ok s).assay = s.assay ∧ (endWrite ok s).pwr = s.pwr ∧ (endWrite ok s).creds = s.creds ∧
      led.waiting = s.led.waiting ∧
      (∀ r k, x.target = .copy r k → led.copies = asetD erasedCopy s.led.copies (2 * r + k)
        (if ok then x.bytes else (s.freshBytes 0xF8).1 ++ List.replicate 8 0) ∧ led.units = s.led.units) ∧
      (∀ i, x.target = .unit i → led.copies = s.led.copies ∧
        (ok = true → led.units = asetD (List.replicate 16 0) s.led.units i x.bytes ∧ led.tornUnits = s.led.tornUnits.filter (fun y => !(y == i))) ∧
        (ok = false → led.tornUnits = i :: s.led.tornUnits.filter (fun y => !(y == i)))) := by
  obtain ⟨target, bytes, asked⟩ := x
  have sw : ∀ v : State, v.led.rescanWanted = false → startWaitingRescan v = v := fun v h => by
    unfold startWaitingRescan when; rw [h]; rfl
  unfold endWrite
  rw [hx]
  cases target with
  | copy r k =>
    cases ok with
    | true =>
      dsimp only
      simp only [if_true]
      rw [sw _ (by simpa using hr)]
      refine ⟨_, rfl, rfl, rbit_setRbit _ _ _ _ (by decide), rfl, rfl, rfl, rfl, rfl, ?_, ?_⟩
      · rintro r' k' h; cases h; exact ⟨rfl, rfl⟩
      · rintro i h; cases h
    | false =>
      dsimp only
      simp only [Bool.false_eq_true, if_false]
      unfold State.freshBytes
      dsimp only
      rw [sw _ (by simpa using hr)]
      refine ⟨_, rfl, rfl, rbit_setRbit _ _ _ _ (by decide), rfl, rfl, rfl, rfl, rfl, ?_, ?_⟩
      · rintro r' k' h; cases h; exact ⟨rfl, rfl⟩
      · rintro i h; cases h
  | unit i =>
    cases ok with
    | true =>
      dsimp only
      simp only [if_true]
      rw [sw _ (by simpa using hr)]
      refine ⟨_, rfl, rfl, rbit_setRbit _ _ _ _ (by decide), rfl, rfl, rfl, rfl, rfl, ?_, ?_⟩
      · rintro r' k' h; cases h
      · rintro j h; cases h; exact ⟨rfl, fun _ => ⟨rfl, rfl⟩, fun h => by cases h⟩
    | false =>
      dsimp only
      simp only [Bool.false_eq_true, if_false]
      rw [sw _ (by simpa using hr)]
      refine ⟨_, rfl, rfl, rbit_setRbit _ _ _ _ (by decide), rfl, rfl, rfl, rfl, rfl, ?_, ?_⟩
      · rintro r' k' h; cases h
      · rintro j h; cases h; exact ⟨rfl, fun h => (by cases h), fun _ => rfl⟩

/-- The state at the commit of a thaw. -/
def thawStart (s : State) : State :=
  ((((({ s with clk := { s.clk with running := true, unlockedAt := none } } : State).setRbit rTB_STAT 2 true).setRbit rTB_STAT 0 true).setReg
    rASSAY_THAW_RTC (wd s.clk.rtc)).setRbit rASSAY_STAT 0 false).onAssay (fun a => { a with thawAt := none })

theorem freezeFlash_spec (s : State) : (freezeFlash s).sys = s.sys ∧ (freezeFlash s).clk = s.clk ∧
    ∀ k, k ∉ eccKeys → (freezeFlash s).reg k = s.reg k := by
  unfold freezeFlash
  split
  · rename_i a src len _
    unfold freezeProgram
    dsimp only
    obtain ⟨n, h⟩ := (memFree_of (s := s) (s.free + 1)).trans
      (programUnits_memFree (min (len / 16) ((unitInWork (len / 16) s).1 + 1)) a src (unitInWork (len / 16) s).2)
    generalize programUnits _ a src _ = r at h ⊢
    refine ⟨?_, ?_, h.regs⟩
    · show r.2.sys = s.sys
      rw [h.rest]
    · show r.2.clk = s.clk
      rw [h.rest]
  · unfold when
    split <;> exact ⟨rfl, rfl, fun _ _ => rfl⟩

theorem freshBits_eq (n : Nat) (s : State) : ∃ out, out.length = n ∧ freshBits n s = (out, { s with free := s.free + (n + 7) / 8 }) := by
  refine ⟨_, ?_, rfl⟩
  have hb : ∀ b : Byte, (bitsOfByte b).length = 8 := fun b => by simp [bitsOfByte]
  rw [List.length_take]
  have : (bitsOfBytes ((List.range ((n + 7) / 8)).map (fun i => Config.freeByte (s.free + i)))).length = (n + 7) / 8 * 8 := by
    unfold bitsOfBytes
    rw [List.length_flatMap]
    simp [hb, Function.comp_def]
  rw [this]
  omega

theorem flatMap_three (g : Nat → List Bool) (h : ∀ i, (g i).length = 3) : ∀ n, ((List.range n).flatMap g).length = 3 * n ∧
    ∀ k, k < n → (((List.range n).flatMap g).drop (3 * k)).take 3 = g k := by
  intro n
  induction n with
  | zero => exact ⟨rfl, fun k hk => absurd hk (by omega)⟩
  | succ n ih =>
    obtain ⟨i1, i2⟩ := ih
    rw [List.range_succ, List.flatMap_append]
    have hs : [n].flatMap g = g n := by simp
    rw [hs]
    refine ⟨by rw [List.length_append, i1, h]; omega, fun k hk => ?_⟩
    by_cases hkn : k = n
    · subst hkn
      rw [List.drop_append, List.drop_of_length_le (by omega), i1, Nat.sub_self]
      simp [h]
    · rw [List.drop_append_of_le_length (by omega), List.take_append_of_le_length (by rw [List.length_drop]; omega)]
      exact i2 k (by omega)

theorem boundaryCells_spec (s : State) (f : List Bool) : (boundaryCells s f).length = 84 ∧ (boundaryCells s f)[0]? = some (!s.assay.ballLow) ∧
    ∀ k, 0 < k → k < 28 → ((boundaryCells s f).drop (3 * k)).take 3 = pinCells (pinLevel k s) (f.drop (3 * k)) := by
  have hl : ∀ l a, (pinCells l a).length = 3 := fun l a => by
    unfold pinCells
    split <;> rfl
  obtain ⟨h1, h2⟩ := flatMap_three (fun k => pinCells (pinLevel k s) (f.drop (3 * k))) (fun i => hl _ _) 28
  unfold boundaryCells
  refine ⟨by rw [List.length_set, h1], ?_, fun k h0 hk => ?_⟩
  · exact List.getElem?_set_self (by rw [h1]; omega)
  · rw [List.drop_set_of_lt (by omega)]
    exact h2 k hk

theorem granuleBits_free (a : Nat) (b : Byte) (s : State) (n : Nat) : granuleBits a b { s with free := n } = granuleBits a b s := by
  unfold granuleBits
  have h1 : kilnMasked ({ s with free := n } : State) = kilnMasked s := rfl
  have h2 : readBytes ({ s with free := n } : State) a 8 = readBytes s a 8 := rfl
  rw [h1, h2]

theorem onBle_keeps (f : Ble → Ble) (s : State) : s.onBle f = { s with ble := f s.ble } := rfl

/-- A state that differs in the BLE block, the registers, free values drawn and what cores and hosts are told. -/
structure BleOnly (s t : State) : Prop where
  rest : t = { s with free := t.free, ble := t.ble, cores := t.cores, regs := t.regs, host := t.host, mem := { s.mem with host := t.mem.host } }
  regs : ∀ k, k ∉ pendKeys → k ≠ rBLE_EVT → t.reg k = s.reg k

theorem BleOnly.refl (s : State) : BleOnly s s := ⟨rfl, fun _ _ _ => rfl⟩

theorem BleOnly.trans {s t u : State} (h : BleOnly s t) (h' : BleOnly t u) : BleOnly s u := by
  refine ⟨?_, fun k h1 h2 => (h'.regs k h1 h2).trans (h.regs k h1 h2)⟩
  rw [h'.rest, h.rest]

theorem bleEvent_only (b : Nat) (s : State) : BleOnly s (bleEvent b s) := by
  have h := blockEvent_notified rBLE_EVT rBLE_IE rBLE_IE 16 14 b s
  refine ⟨?_, fun k h1 h2 => ?_⟩
  · have hr := h.rest
    unfold bleEvent
    rw [hr]
    split <;> rfl
  · refine (h.regs k h1).trans ?_
    split
    · rfl
    · exact reg_setRbit_ne _ _ _ _ h2

theorem blePlace_only (n : Nat) (s : State) : BleOnly s (blePlace n s) := by
  induction n generalizing s with
  | zero => exact BleOnly.refl s
  | succ n ih =>
    unfold blePlace
    split
    · exact BleOnly.refl s
    · split
      · exact BleOnly.refl s
      · refine BleOnly.trans ?_ (ih _)
        exact BleOnly.trans (t := s.onBle _) ⟨rfl, fun _ _ _ => rfl⟩ (bleEvent_only 0 _)

theorem bleEmit_only (ind : Nat) (bs : Bytes) (s : State) : BleOnly s (bleEmit ind bs s) :=
  BleOnly.trans (t := s.onBle (fun b => { b with held := b.held ++ [hciWords ind bs] })) ⟨rfl, fun _ _ _ => rfl⟩ (blePlace_only _ _)

theorem bleDropAll_only (reason : Byte) (s : State) : BleOnly s (bleDropAll reason s) := by
  unfold bleDropAll
  dsimp only
  refine BleOnly.trans (t := s.onBle (fun b => { b with conns := [] })) ⟨rfl, fun _ _ _ => rfl⟩ ?_
  exact forEach_rel BleOnly BleOnly.refl (fun _ _ _ => BleOnly.trans) _ (fun a s => bleEmit_only _ _ s) _ _

theorem onSets_only (p : AdvSet → Bool) (f : AdvSet → State → AdvSet × State) (hf : ∀ a s, ∃ n, (f a s).2 = { s with free := n }) (s : State) :
    BleOnly s (onSets p f s) := by
  have h : ∀ (xs : List AdvSet) (acc : List AdvSet × State), (∃ n, acc.2 = { s with free := n }) →
      ∃ n, (xs.foldl (fun (acc : List AdvSet × State) a =>
        if p a then let (a, s) := f a acc.2; (acc.1 ++ [a], s) else (acc.1 ++ [a], acc.2)) acc).2 = { s with free := n } := by
    intro xs
    induction xs with
    | nil => exact fun acc h => h
    | cons a xs ih =>
      rintro acc ⟨n, hn⟩
      rw [List.foldl_cons]
      refine ih _ ?_
      split
      · obtain ⟨m, hm⟩ := hf a acc.2
        exact ⟨m, by show (f a acc.2).2 = _; rw [hm, hn]⟩
      · exact ⟨n, hn⟩
  obtain ⟨n, hn⟩ := h s.ble.sets ([], s) ⟨s.free, rfl⟩
  unfold onSets
  dsimp only
  generalize List.foldl _ _ _ = r at hn ⊢
  refine ⟨?_, fun k _ _ => ?_⟩
  · rw [onBle_keeps, hn]
  · rw [onBle_keeps, hn]; rfl

theorem bleBank_only (s : State) : BleOnly s (bleBank s) :=
  by
  unfold bleBank
  exact (bleDropAll_only 0x16 s).trans (onSets_only _ advFirst (fun a u => ⟨u.free + 1, rfl⟩) _)

theorem setLink_facts (up : Bool) (sp : BitVec 2) (s : State) : (setLink up sp s).sys = s.sys ∧ (setLink up sp s).pwr = s.pwr ∧
    (setLink up sp s).clk = s.clk ∧ (setLink up sp s).led = s.led ∧ (setLink up sp s).assay = s.assay ∧ (setLink up sp s).cap = s.cap := by
  unfold setLink
  split
  · exact ⟨rfl, rfl, rfl, rfl, rfl, rfl⟩
  · generalize ({ s.host with linkUp := up, speed := if up then sp else 0 } : HostIf) = y
    have h2 := (hostEvent_notified 2 .pcie { s with host := y }).rest
    rw [h2]
    split <;> exact ⟨rfl, rfl, rfl, rfl, rfl, rfl⟩

theorem flushAllCaches_same (s : State) : MemOnly s (flushAllCaches s) := by
  unfold flushAllCaches
  exact forEach_rel MemOnly MemOnly.refl (fun _ _ _ => MemOnly.trans) _
    (fun c s => (flushD_memOnly c s).trans (MemOnly.of_mem (t := invI c (flushD c s)) rfl ⟨rfl, rfl, rfl⟩)) _ s

theorem bank_facts (s : State) (x : State) (hx : x = flushAllCaches (bleBank (aditSleep s))) :
    x.sys = s.sys ∧ x.pwr = s.pwr ∧ x.clk = s.clk ∧ x.led = s.led ∧ x.cap = s.cap := by
  have ha : ∃ r, aditSleep s = { s with regs := r } := by
    unfold aditSleep when; split <;> exact ⟨_, rfl⟩
  obtain ⟨r, ha⟩ := ha
  have hb := bleBank_only (aditSleep s)
  have hf := (flushAllCaches_same (bleBank (aditSleep s))).rest
  subst hx
  rw [hf]
  dsimp only
  rw [hb.rest]
  dsimp only
  rw [ha]
  exact ⟨rfl, rfl, rfl, rfl, rfl⟩

theorem presentWake_spec (n : Nat) (s : State) : ∃ h r, presentWake n s = { s with pwr := { s.pwr with heldSrc := h }, regs := r } ∧
    ∀ k, k ≠ rPWR_WAKE_SRC → ({ s with regs := r } : State).reg k = s.reg k := by
  unfold presentWake
  split
  · exact ⟨_, _, rfl, fun _ _ => rfl⟩
  · split
    · exact ⟨s.pwr.heldSrc, _, rfl, fun k hk => reg_setRbit_ne s _ _ _ hk⟩
    · split
      · exact ⟨_, _, rfl, fun _ _ => rfl⟩
      · exact ⟨_, _, rfl, fun _ _ => rfl⟩

theorem capHeld_spec (s : State) : ∃ h r, capHeld s = { s with pwr := { s.pwr with heldSrc := h }, regs := r } ∧
    (∀ k, k ≠ rPWR_WAKE_SRC → k ≠ rCAP_WAKE → ({ s with regs := r } : State).reg k = s.reg k) ∧
    ((∀ m, s.cap.touched ≠ some (s.clk.rtc, m)) → h = s.pwr.heldSrc) := by
  unfold capHeld
  split
  · rename_i t m ht
    unfold when
    split
    · rename_i hc
      obtain ⟨h, r, e1, e2⟩ := presentWake_spec 0 (s.setReg rCAP_WAKE (s.reg rCAP_WAKE ||| wd m.toNat))
      refine ⟨h, r, e1, fun k h1 h2 => (e2 k h1).trans (reg_setReg_ne _ _ _ h2), fun hn => absurd ?_ (hn m)⟩
      rw [ht, beq_iff_eq.mp hc]
    · exact ⟨_, _, rfl, fun _ _ _ => rfl, fun _ => rfl⟩
  · exact ⟨_, _, rfl, fun _ _ _ => rfl, fun _ => rfl⟩

theorem commit_cap (dst : Mode) (cause : Nat) (s : State) : (commit dst cause s).cap = s.cap := by
  obtain ⟨r, f, st, ch, k, c, h, -⟩ := commit_form dst cause s
  rw [h, (modeEvent_notified 0 _).rest]
  rfl

theorem enterBanked_spec (s : State) : ∃ u, enterBanked s = capHeld { commit .banked 0x04 u with pwr := { (commit .banked 0x04 u).pwr with
      entering := false, t05At := some (commit .banked 0x04 u).clk.rtc, wdtFrom := none } } ∧
    u.sys = { s.sys with bankFrom := some s.sys.mode } ∧ u.pwr = s.pwr ∧ u.clk = s.clk ∧ u.led = s.led ∧ u.cap = s.cap := by
  unfold enterBanked
  obtain ⟨h1, h2, h3, h4, h5⟩ := bank_facts s _ rfl
  revert h1 h2 h3 h4 h5
  generalize flushAllCaches (bleBank (aditSleep s)) = x
  intro h1 h2 h3 h4 h5
  refine ⟨_, rfl, ?_⟩
  obtain ⟨l1, l2, l3, l4, -, l6⟩ := setLink_facts false 0 { bankBlocks x with sys := { (bankBlocks x).sys with bankFrom := some (bankBlocks x).sys.mode } }
  refine ⟨l1.trans ?_, l2.trans h2, l3.trans h3, l4.trans h4, l6.trans h5⟩
  show ({ x.sys with bankFrom := some x.sys.mode } : Sys) = _
  rw [h1]

theorem aditResume_facts (s : State) : (aditResume s).sys = s.sys ∧ (aditResume s).pwr = s.pwr ∧ (aditResume s).assay = s.assay ∧ (aditResume s).clk = s.clk ∧
    (∀ k, (∀ p, k ≠ posReg p) → (aditResume s).reg k = s.reg k) := by
  unfold aditResume
  dsimp only
  exact forEach_rel (fun s t => t.sys = s.sys ∧ t.pwr = s.pwr ∧ t.assay = s.assay ∧ t.clk = s.clk ∧ ∀ k, (∀ p, k ≠ posReg p) → t.reg k = s.reg k)
    (fun s => ⟨rfl, rfl, rfl, rfl, fun _ _ => rfl⟩)
    (fun s t u h h' => ⟨h'.1.trans h.1, h'.2.1.trans h.2.1, h'.2.2.1.trans h.2.2.1, h'.2.2.2.1.trans h.2.2.2.1, fun k hk => (h'.2.2.2.2 k hk).trans (h.2.2.2.2 k hk)⟩)
    (fun p s => (s.setFld (posReg p) 23 16 0).setAditPos p { s.aditPos p with nextHb := s.clk.tb + msTicks (s.fld rADIT_CFG 3 0) })
    (fun p s => ⟨rfl, rfl, rfl, rfl, fun k hk => (reg_of_regs (t := s.setFld (posReg p) 23 16 0) (s := s.setFld (posReg p) 23 16 0) rfl k).trans (reg_setFld_ne s (posReg p) 23 16 0 (hk p))⟩) _ (s.onAdit (fun a => { a with req := none, again := none, din := [], dinEom := false }))

theorem entRun_facts (v : State) : (entRun v).sys = v.sys ∧ (entRun v).assay = v.assay ∧ (entRun v).pwr = v.pwr ∧
    (entRun v).reg rPWR_TAMPER = v.reg rPWR_TAMPER := by
  unfold entRun
  dsimp only
  refine ⟨?_, ?_, ?_, ?_⟩
  · simp only [State.setFld_sys, State.setRbit_sys, State.onEnt_sys]
  · simp only [State.setFld_assay, State.setRbit_assay, State.onEnt_assay]
  · simp only [State.setFld_pwr, State.setRbit_pwr, State.onEnt_pwr]
  · rw [reg_setFld_ne _ _ _ _ _ (by decide), reg_setRbit_ne _ _ _ _ (by decide), reg_setRbit_ne _ _ _ _ (by decide)]
    exact reg_of_regs rfl _

theorem kilnClear_facts (s : State) : (kilnClear s).sys = s.sys ∧ (kilnClear s).assay = s.assay ∧ (kilnClear s).pwr = s.pwr ∧ (kilnClear s).regs = s.regs := by
  obtain ⟨k0, hk0⟩ := kilnClear_spec s
  rw [hk0]
  exact ⟨rfl, rfl, rfl, rfl⟩

theorem kilnStart_facts (z : State) : (kilnStart z).sys = z.sys ∧ (kilnStart z).assay = z.assay ∧ (kilnStart z).pwr = z.pwr ∧
    ∀ k, k ∉ eccKeys → (kilnStart z).reg k = z.reg k := by
  obtain ⟨k1, c1, m1, cs1, r1, hk1, hr1, -⟩ := kilnStart_spec z
  rw [hk1]
  exact ⟨rfl, rfl, rfl, hr1⟩

theorem wakeKiln_facts (x : State) : (kilnStart (entRun (kilnClear x))).sys = x.sys ∧ (kilnStart (entRun (kilnClear x))).assay = x.assay ∧
    (kilnStart (entRun (kilnClear x))).pwr = x.pwr ∧ (kilnStart (entRun (kilnClear x))).reg rPWR_TAMPER = x.reg rPWR_TAMPER := by
  obtain ⟨a1, a2, a3, a4⟩ := kilnClear_facts x
  obtain ⟨b1, b2, b3, b4⟩ := entRun_facts (kilnClear x)
  obtain ⟨c1, c2, c3, c4⟩ := kilnStart_facts (entRun (kilnClear x))
  exact ⟨c1.trans (b1.trans a1), c2.trans (b2.trans a2), c3.trans (b3.trans a3), (c4 _ (by decide)).trans (b4.trans (reg_of_regs a4 _))⟩

theorem startLoad_facts (v : State) : (startLoad v).sys = v.sys ∧ (startLoad v).assay = v.assay ∧ (startLoad v).pwr = v.pwr := by
  unfold startLoad
  dsimp only
  exact ⟨by simp only [State.onStart_sys, State.setReg_sys], by simp only [State.onStart_assay, State.setReg_assay], by simp only [State.onStart_pwr, State.setReg_pwr]⟩

theorem wakeBlocks_facts (s : State) : (wakeBlocks s).sys = s.sys ∧ (wakeBlocks s).assay = s.assay ∧ (wakeBlocks s).pwr.resetWake = s.pwr.resetWake ∧
    (wakeBlocks s).pwr.wakeAt = none ∧ (wakeBlocks s).pwr.entryRtc = none ∧ (wakeBlocks s).reg rPWR_TAMPER = s.reg rPWR_TAMPER := by
  obtain ⟨y1, y2, y3, y4⟩ := wakeKiln_facts { s with cores := s.cores.map wakeCore }
  unfold wakeBlocks
  dsimp only
  revert y1 y2 y3 y4
  generalize kilnStart (entRun (kilnClear { s with cores := s.cores.map wakeCore })) = y
  intro y1 y2 y3 y4
  obtain ⟨a1, a2, a3, a4, a5⟩ := aditResume_facts (startLoad y)
  obtain ⟨b1, b2, b3⟩ := startLoad_facts y
  have b4 := (startLoad_spec y).2.2 rPWR_TAMPER (by decide)
  have a6 := a5 rPWR_TAMPER (by intro p h; simp only [posReg, rADIT_POS, rPWR_TAMPER] at h; omega)
  have a7 := (a6.trans (b4.trans y4)).trans (reg_of_regs (s := s) rfl rPWR_TAMPER)
  have a8 := a1.trans (b1.trans y1)
  have a9 := a3.trans (b2.trans y2)
  have a10 : (aditResume (startLoad y)).pwr = s.pwr := a2.trans (b3.trans y3)
  revert a7 a8 a9 a10
  clear a1 a2 a3 a4 a5 a6 b1 b2 b3 b4
  generalize aditResume (startLoad y) = z
  intro a7 a8 a9 a10
  refine ⟨a8, a9, ?_, rfl, rfl, a7⟩
  show z.pwr.resetWake = _
  rw [a10]

theorem wakeLock_facts (s : State) : (wakeLock s).sys = s.sys ∧ (wakeLock s).pwr = s.pwr ∧
    (wakeLock s).rbit rSYS_MODE_EVT 0 = s.rbit rSYS_MODE_EVT 0 := by
  unfold wakeLock when
  split
  · refine ⟨rfl, rfl, ?_⟩
    unfold State.rbit
    exact congrArg (fun w => bit w 0) (reg_setRbit_ne s rTB_STAT 0 false (by decide))
  · exact ⟨rfl, rfl, rfl⟩

theorem answered_eq (s : State) (k : Nat) (x lo : Word) : (match (lo, s.setReg k x) with | (w, t) => answer 0 [w] false t) =
    { s.setReg k x with host := { s.host with answer := ⟨0, [lo], false⟩ } } := rfl

theorem evictLine_cells (c : Fin 6) (l : Line) (s : State) : (evictLine c l s).mem.cells = (writeBack l s).mem.cells := by
  unfold evictLine when
  split
  · rw [recordUe_mem]
  · rfl

theorem readByte_evictAll (c : Fin 6) (x : Nat) (ls : List Line) (hn : (ls.map Line.addr).Nodup)
    (hw : ∀ l ∈ ls, l.data.length = 64 ∧ l.addr % 64 = 0) (hm : ∀ l ∈ ls, l.st = .modified → inSram l.addr = true) (s : State) :
    (∀ l ∈ ls, l.st = .modified → l.addr = lineOf x → readByte (forEach ls (evictLine c) s) x = l.data.getD (x - lineOf x) 0) ∧
    ((∀ l ∈ ls, l.st = .modified → l.addr ≠ lineOf x) → readByte (forEach ls (evictLine c) s) x = readByte s x) := by
  induction ls generalizing s with
  | nil => exact ⟨fun l hl => absurd hl (List.not_mem_nil), fun _ => rfl⟩
  | cons a ls ih =>
    rw [forEach_cons]
    rw [List.map_cons, List.nodup_cons] at hn
    obtain ⟨i1, i2⟩ := ih hn.2 (fun l hl => hw l (List.mem_cons_of_mem _ hl)) (fun l hl => hm l (List.mem_cons_of_mem _ hl)) (evictLine c a s)
    have hr : readByte (evictLine c a s) x = readByte (writeBack a s) x := readByte_of_cells (evictLine_cells c a s) x
    obtain ⟨ha1, ha2⟩ := hw a (List.mem_cons_self ..)
    refine ⟨fun l hl hlm hla => ?_, fun h => ?_⟩
    · rcases List.mem_cons.1 hl with rfl | hl'
      · rw [i2 (fun y hy _ e => hn.1 (by rw [hla, ← e]; exact List.mem_map_of_mem hy)), hr, readByte_writeBack,
          if_pos ⟨hlm, hm _ (List.mem_cons_self ..) hlm, by have := (lineOf_of_mem ha2).1 hla.symm; omega,
            by have := (lineOf_of_mem ha2).1 hla.symm; omega⟩, hla]
      · exact i1 l hl' hlm hla
    · rw [i2 (fun l hl => h l (List.mem_cons_of_mem _ hl)), hr, readByte_writeBack, if_neg]
      rintro ⟨h1, -, h3, h4⟩
      exact h a (List.mem_cons_self ..) h1 ((lineOf_of_mem ha2).2 ⟨h3, by omega⟩).symm

theorem flushD_lines (c d : Fin 6) (s : State) : (flushD c s).lines d = if d = c then [] else s.lines d := by
  unfold flushD
  rw [setLines_lines]
  split
  · rfl
  · exact lines_eq (forEach_rel SameLines SameLines.refl (fun _ _ _ => SameLines.trans) _ (fun l u => evictLine_sameLines c l u) _ s) d

/-- FLUSH_D changes no byte of memory as a coherent read finds it (R268, R291). -/
theorem flushD_bytes (c : Fin 6) {s : State} (hs : Inv s) : SameBytes s (flushD c s) := by
  have hc := hs.caches
  intro x
  have hm : ∀ l ∈ s.lines c, l.st = .modified → inSram l.addr = true := fun l hl h => (hc.line hl (owned_modified h)).1
  obtain ⟨r1, r2⟩ := readByte_evictAll c x (s.lines c) (hc.wf c).1 (hc.wf c).2 hm s
  have hread : readByte (flushD c s) x = readByte (forEach (s.lines c) (evictLine c) s) x := rfl
  by_cases hex : ∃ l ∈ s.lines c, l.st = .modified ∧ l.addr = lineOf x
  · obtain ⟨l, hl, hlm, hla⟩ := hex
    rw [memByte_modified hc hl hlm hla, memByte_clean, hread, r1 l hl hlm hla]
    intro d y hy hym hya
    rw [flushD_lines] at hy
    split_ifs at hy with hd
    · cases hy
    · exact (hc.line hl (owned_modified hlm)).2.2.1 d hd y hy (hya.trans hla.symm)
  · have hn : ∀ l ∈ s.lines c, l.st = .modified → l.addr ≠ lineOf x := fun l hl h e => hex ⟨l, hl, h, e⟩
    have hrd : readByte (flushD c s) x = readByte s x := hread.trans (r2 hn)
    refine memByte_congr hc ((flushD_ev c (Evolves.refl s)).inv hs).caches (fun y hym hya => ?_) hrd
    simp only [flushD_lines]
    constructor
    · rintro ⟨d, hd⟩
      split_ifs at hd with h
      · cases hd
      · exact ⟨d, hd⟩
    · rintro ⟨d, hd⟩
      by_cases h : d = c
      · subst h; exact absurd hya (hn y hd hym)
      · exact ⟨d, by rw [if_neg h]; exact hd⟩

theorem scrubRead_kept (u : Upset) (s : State) : (scrubRead u s).mem.scrubPos = (s.mem.scrubPos + 8) % 0x800000 ∧
    (scrubRead u s).mem.scrubAt = s.clk.tb ∧ ∀ k, k ∉ eccKeys → (scrubRead u s).reg k = s.reg k := by
  have hu : (applyUpset u s).clk = s.clk ∧ (applyUpset u s).mem.scrubPos = s.mem.scrubPos ∧ (applyUpset u s).regs = s.regs := by
    unfold applyUpset setBad setFlip
    repeat' split
    all_goals
      try dsimp only
      repeat' split
    all_goals exact ⟨rfl, rfl, rfl⟩
  have hc := (correct_memOnly (0x20000000 + s.mem.scrubPos) 8 (applyUpset u s))
  have hp : ∀ v, (correct (0x20000000 + s.mem.scrubPos) 8 v).mem.scrubPos = v.mem.scrubPos := fun v =>
    (forEach_rel (fun x y => y.mem.scrubPos = x.mem.scrubPos) (fun _ => rfl) (fun _ _ _ h h' => h'.trans h) _
      (fun g x => by rw [recordCe_mem]; rfl) _ v)
  unfold scrubRead
  dsimp only
  have hw := when_memOnly ((correct (0x20000000 + s.mem.scrubPos) 8 (applyUpset u s)).granuleBad (0x20000000 + s.mem.scrubPos))
    (recordUe (0x20000000 + s.mem.scrubPos) 0x20) (fun x => recordUe_memOnly _ _ x) (correct (0x20000000 + s.mem.scrubPos) 8 (applyUpset u s))
  have hwm : ∀ p x, (when p (recordUe (0x20000000 + s.mem.scrubPos) 0x20) x).mem = x.mem := fun p x => by
    unfold when; split
    · rw [recordUe_mem]
    · rfl
  refine ⟨?_, ?_, fun k hk => ?_⟩
  · rw [hwm, hp, hu.2.1]
  · rw [hw.rest]; dsimp only; rw [hc.rest]; dsimp only; rw [hu.1]
  · exact (hw.regs k hk).trans ((hc.regs k hk).trans (reg_of_regs hu.2.2 k))

theorem writeWithin_mem (r : Nat → Bool) (bs : Bytes) (a : Nat) (s : State) : ∃ m, writeWithin r a bs s = { s with mem := m } := by
  induction bs generalizing a s with
  | nil => exact ⟨_, rfl⟩
  | cons b bs ih =>
    have h : ∃ m, when (r a) (writeByte a b) s = { s with mem := m } := by unfold when; split <;> exact ⟨_, rfl⟩
    obtain ⟨m, h⟩ := h
    obtain ⟨n, hn⟩ := ih (a + 1) (when (r a) (writeByte a b) s)
    refine ⟨n, ?_⟩
    unfold writeWithin
    rw [hn, h]

theorem flashFinish_erase (sec : Nat) {s : State} (h : s.flash.running = some (.erase sec)) :
    (flashFinish none s).2.flash = { s.flash with
          running := none, suspending := false, suspended := false
          markers := s.flash.markers.filter (fun x => !(x == sec)), torn := s.flash.torn.filter (fun x => !(x == sec)) } ∧
    (flashFinish none s).2.reg rFLASH_DONE = wd ((s.fld rFLASH_DONE 31 16 + 1) % 65536 * 65536) ∧
    ∀ k, k ≠ rFLASH_DONE → (flashFinish none s).2.reg k = s.reg k := by
  unfold flashFinish
  rw [h]
  dsimp only
  rw [if_pos (by decide)]
  obtain ⟨mw, hw⟩ := writeWithin_mem inFlash (List.replicate 4096 0xFF) (sectorBase sec) s
  have hi : ∀ v, ∃ m, invalidateSector sec v = { v with mem := m } := fun v =>
    forEach_rel (fun x y => ∃ m, y = { x with mem := m }) (fun x => ⟨_, rfl⟩)
      (fun x y z ⟨m, h⟩ ⟨n, h'⟩ => ⟨n, by rw [h', h]⟩) _ (fun c x => ⟨_, rfl⟩) _ v
  unfold flashEnd eraseSector
  generalize writeWithin inFlash (sectorBase sec) (List.replicate 4096 0xFF) s = u at hw ⊢
  dsimp only
  obtain ⟨m, hm⟩ := hi { u with flash := { u.flash with
    running := none, suspending := false, suspended := false
    markers := u.flash.markers.filter (fun x => !(x == sec)), torn := u.flash.torn.filter (fun x => !(x == sec)) } }
  rw [hm]
  subst hw
  refine ⟨rfl, ?_, fun k hk => ?_⟩
  · unfold flashDoneWord
    rw [reg_setReg_self]
    have e : ∀ n : Nat, fld 16 n + fld 8 0 + 0 = n * 65536 := fun n => by
      unfold fld; rw [Nat.shiftLeft_eq, Nat.shiftLeft_eq]; omega
    rw [e]
    rfl
  · unfold flashDoneWord
    rw [reg_setReg_ne _ _ _ hk]
    rfl

/-- A control operation that its requester may perform (R423, R1188). -/
theorem frontCtl_runs {who : Req} {op operand v : Nat} {s u : State} {r : Nat} (ho : 1 ≤ op ∧ op ≤ 0xC) (hm : s.sys.mode ≠ .scan)
    (hh : s.front.held = false ∨ Req.code who = 0) (hz : coreZeroOp op = true → Req.code who = 0)
    (h : ctlOp op (Req.code who) operand (s.reg (regKey who rFRONT_ARG)).toNat s = ((r, v), u)) :
    frontCtl who op operand s = when (r != 0) (frontEvent 4) (u.setReg (regKey who rFRONT_RES) (wd (r * 2 ^ 24 + v))) := by
  unfold frontCtl
  dsimp only
  rw [if_neg (by simp only [Bool.or_eq_true, decide_eq_true_eq]; omega), if_neg (by rcases hh with h | h <;> simp [hm, h]), if_neg (by
    rintro hc
    simp only [Bool.and_eq_true, bne_iff_ne, ne_eq] at hc
    exact hc.2 (hz hc.1)), h]
  unfold fld
  rw [Nat.shiftLeft_eq]

theorem frontCtl_ok {who : Req} {op operand v : Nat} {s u : State} (ho : 1 ≤ op ∧ op ≤ 0xC) (hm : s.sys.mode ≠ .scan)
    (hh : s.front.held = false ∨ Req.code who = 0) (hz : coreZeroOp op = true → Req.code who = 0)
    (h : ctlOp op (Req.code who) operand (s.reg (regKey who rFRONT_ARG)).toNat s = ((0, v), u)) :
    frontCtl who op operand s = u.setReg (regKey who rFRONT_RES) (wd (0 * 2 ^ 24 + v)) := by
  rw [frontCtl_runs ho hm hh hz h, when_false (by decide)]

theorem frontCtl_refused {who : Req} {op operand r : Nat} {s : State} (ho : 1 ≤ op ∧ op ≤ 0xC) (hm : s.sys.mode ≠ .scan)
    (hh : s.front.held = false ∨ Req.code who = 0) (hz : coreZeroOp op = true → Req.code who = 0) (hr : (r != 0) = true)
    (h : ctlOp op (Req.code who) operand (s.reg (regKey who rFRONT_ARG)).toNat s = ((r, 0), s)) :
    frontCtl who op operand s = (s.setReg (regKey who rFRONT_RES) (wd (r * 2 ^ 24 + 0))).setRbit rFRONT_EVT 4 true := by
  rw [frontCtl_runs ho hm hh hz h, when_true hr]; rfl

theorem ownQueue_ok {owner num arg : Nat} {s : State} {q : Queue} (h1 : num ≤ 511) (h2 : arg = 0) (h3 : s.queue? num = some q)
    (h4 : q.owner = owner) : ownQueue owner num arg s = .ok q := by
  unfold ownQueue
  rw [if_neg (by simp [h2]; omega), h3]
  dsimp only
  rw [if_pos h4]

theorem ownQueue_foreign {owner num arg : Nat} {s : State} {q : Queue} (h1 : num ≤ 511) (h2 : arg = 0) (h3 : s.queue? num = some q)
    (h4 : q.owner ≠ owner) : ownQueue owner num arg s = .error 3 := by
  unfold ownQueue
  rw [if_neg (by simp [h2]; omega), h3]
  dsimp only
  rw [if_neg h4]

theorem setupBlock_ok {addr len : Nat} {s t : State} {b : Bytes} (h1 : addr % len = 0) (h2 : inSram addr = true)
    (h3 : inSram (addr + len - 1) = true) (h4 : physRead 0x22 addr len s = (.ok b, t)) : setupBlock addr len len s = (.ok b, t) := by
  unfold setupBlock
  rw [if_neg (by simp [h1, h2, h3]), h4]

theorem queue_dropFetched (n m : Nat) (s : State) : ∃ cs, dropFetched n s = { s with front := { s.front with cages := cs } } := by
  unfold dropFetched
  exact forEach_rel (fun s t => ∃ cs, t = { s with front := { s.front with cages := cs } }) (fun s => ⟨_, rfl⟩)
    (fun x y z ⟨a, h⟩ ⟨b, h'⟩ => ⟨b, by rw [h', h]⟩) _ (fun c s => ⟨_, rfl⟩) _ s

theorem setCage_self (s : State) (c : Fin 8) : s.setCage c (s.cage c) = s := by
  unfold State.setCage State.cage
  have : s.front.cages.set c (s.front.cages.get c) = s.front.cages := by
    apply Vector.ext
    intro i hi
    simp only [Vector.getElem_set]
    split
    · subst_vars; rfl
    · rfl
  rw [this]

theorem dropFetched_out {n : Nat} {s : State} (h : ∀ c, (s.cage c).queue ≠ some n ∧ ∀ p, (s.cage c).preload = some p → p.1 ≠ n) :
    dropFetched n s = s := by
  unfold dropFetched
  refine forEach_fix _ s _ (fun c _ => ?_)
  dsimp only
  have hp : (s.cage c).preload.any (fun p => p.1 == n) = false := by
    cases hx : (s.cage c).preload with
    | none => rfl
    | some p => simpa using (h c).2 p hx
  rw [hp]
  have h1 : ((s.cage c).queue == some n) = false := by simpa using (h c).1
  simp only [Bool.false_eq_true, if_false, h1]
  exact setCage_self s c

theorem dispatched_dropFetched (n m : Nat) (s : State) : dispatchedOf (dropFetched n s) m = dispatchedOf s m := by
  have h : ∀ c, ((dropFetched n s).cage c).disp = (s.cage c).disp := by
    unfold dropFetched
    refine forEach_rel (fun s t => ∀ c, (t.cage c).disp = (s.cage c).disp) (fun _ _ => rfl) (fun _ _ _ h h' c => (h' c).trans (h c)) _
      (fun c s d => ?_) _ s
    dsimp only
    rw [cage_setCage]
    split
    · subst_vars; split <;> split <;> rfl
    · rfl
  unfold dispatchedOf
  simp only [h]

theorem feed_held {s : State} (h : ∀ c, (s.cage c).queue ≠ none) : feed s = s := by
  unfold feed
  refine forEach_fix _ s _ (fun c _ => when_false ?_ _ s)
  have := h c
  cases hx : (s.cage c).queue with
  | none => exact absurd hx this
  | some n => rfl

theorem cmdSend_spec (e : Nat) (w : Word) (s : State) : (∃ ch cs, cmdSend e w s = { s with chans := { s.chans with ch := ch }, cores := cs }) ∧
    ((s.chan (cmdKey e)).q = [] → (s.chan (cmdKey e)).back = [] → (cmdSend e w s).cHead (cmdKey e) = some w) := by
  obtain ⟨ch, hd⟩ := devSend_spec (cmdKey e) [(w, false)] s
  obtain ⟨hl, -⟩ := levelCmd_cores (devSend (cmdKey e) [(w, false)] s) (servingCore e)
  refine ⟨⟨ch, ((devSend (cmdKey e) [(w, false)] s).levelCmd (servingCore e)).cores, ?_⟩, fun h1 h2 => ?_⟩
  · unfold cmdSend
    rw [hl, hd]
  · have hc : ∀ k, (cmdSend e w s).chan k = (devSend (cmdKey e) [(w, false)] s).chan k := fun k => by
      unfold cmdSend; rw [hl]; rfl
    unfold State.cHead
    rw [hc]
    unfold devSend cRefill
    dsimp only
    rw [chan_setChan, if_pos rfl, chan_setChan, if_pos rfl, h1, h2]
    rfl

theorem dispatch_stages {c : Fin 8} {n : Nat} {q : Queue} {f : Fetched} {b : Bool} {s : State} (hup : s.up = true) (hh : s.front.held = false)
    (h1 : (s.cage c).queue = some n) (h2 : s.queue? n = some q) (h3 : (s.cage c).disp = none) (h4 : (s.cage c).cur = some (f, b))
    (h5 : f.failed = none) : exec (.dispatch c) s = .next (dispatchStages c n q f s) := by
  have : exec (.dispatch c) s = execDispatch c s := rfl
  rw [this]
  unfold execDispatch
  rw [when_true (by unfold State.dispatches; rw [hup, hh]; rfl)]
  unfold dispatch readyCur
  rw [h1, h4, h3]
  dsimp only
  rw [h5, h2]
  rfl

theorem adcFlags_spec (s : State) : (∃ r, adcFlags s = { s with regs := r }) ∧ (∀ k, k ≠ rADC_STAT → (adcFlags s).reg k = s.reg k) ∧
    (adcFlags s).rbit rADC_STAT 2 = s.adc.seq.isSome ∧ (adcFlags s).rbit rADC_STAT 3 = s.adc.inj.isSome := by
  unfold adcFlags
  dsimp only
  have h0 : ∀ u : State, ∀ b : Bool, ∀ i < 32, (u.setRbit rADC_STAT i b).rbit rADC_STAT i = b := fun u b i hi => rbit_setRbit u _ i b hi
  have a2 : ((s.setRbit rADC_STAT 2 s.adc.seq.isSome).setRbit rADC_STAT 3 s.adc.inj.isSome).rbit rADC_STAT 2 = s.adc.seq.isSome := by
    rw [rbit_setRbit_bit _ _ _ _ _ (by decide) (by decide), h0 _ _ 2 (by decide)]
  have a3 : ((s.setRbit rADC_STAT 2 s.adc.seq.isSome).setRbit rADC_STAT 3 s.adc.inj.isSome).rbit rADC_STAT 3 = s.adc.inj.isSome :=
    h0 _ _ 3 (by decide)
  have ak : ∀ k, k ≠ rADC_STAT → ((s.setRbit rADC_STAT 2 s.adc.seq.isSome).setRbit rADC_STAT 3 s.adc.inj.isSome).reg k = s.reg k :=
    fun k hk => (reg_setRbit_ne _ _ _ _ hk).trans (reg_setRbit_ne _ _ _ _ hk)
  have as' : ((s.setRbit rADC_STAT 2 s.adc.seq.isSome).setRbit rADC_STAT 3 s.adc.inj.isSome).adc = s.adc := rfl
  have ar : ∃ r, (s.setRbit rADC_STAT 2 s.adc.seq.isSome).setRbit rADC_STAT 3 s.adc.inj.isSome = { s with regs := r } := ⟨_, rfl⟩
  generalize (s.setRbit rADC_STAT 2 s.adc.seq.isSome).setRbit rADC_STAT 3 s.adc.inj.isSome = u at a2 a3 ak as' ar ⊢
  obtain ⟨r, rfl⟩ := ar
  split
  · rename_i q hq
    refine ⟨⟨_, rfl⟩, fun k hk => (reg_setFld_ne _ _ _ _ _ hk).trans (ak k hk), ?_, ?_⟩
    · rw [rbit_setFld _ _ _ _ _ _ (by decide) (by decide)]; exact a2
    · rw [rbit_setFld _ _ _ _ _ _ (by decide) (by decide)]; exact a3
  · exact ⟨⟨_, rfl⟩, ak, a2, a3⟩

/-- The two forms of an ADC command (R561, R586, R592). -/
theorem adcVia_takes {s u : State} {who : Req} {via : Via} {h : ChWord} {at_ op : Nat} (hp : s.timed = true ∧ s.rbit rADC_CTL 0 = true)
    (hv : (via = .reg who ∧ Writers.appField.permits who = true ∧ at_ = s.clk.tb ∧ u = s) ∨
       (via = .port ∧ s.ctrlHead 0x84 op = some h ∧ at_ = h.tick ∧ u = cDrop 0x84 s)) (f : Nat → State → State) :
    adcVia via op f s = f at_ u ∧ u.regs = s.regs ∧ u.adc = s.adc ∧ u.clk = s.clk := by
  have hup : s.adcUp = true := by unfold State.adcUp; rw [hp.1, hp.2]; rfl
  rcases hv with ⟨rfl, h2, rfl, rfl⟩ | ⟨rfl, h2, rfl, rfl⟩
  · refine ⟨?_, rfl, rfl, rfl⟩
    unfold adcVia
    dsimp only
    rw [when_true (by rw [h2, hup]; rfl)]
  · have hc : (cDrop 0x84 s).regs = s.regs ∧ (cDrop 0x84 s).adc = s.adc ∧ (cDrop 0x84 s).clk = s.clk := ⟨rfl, rfl, rfl⟩
    refine ⟨?_, hc⟩
    unfold adcVia
    dsimp only
    rw [h2]
    unfold withSome
    dsimp only
    rw [when_true hup]

theorem entStart_first {s v : State} (hv : v.regs = s.regs) (hr : v.adc.ranges.getD 0 0 = bits (s.reg rADC_ENT) 19 18)
    (hq : v.adc.quiets.getD 0 0 = 0) (pos : Nat) :
    entStart v 0 pos = AdcRun.start (s.rbit rADC_CTL 1) (s.reg rADC_ENT) 0 (bits (s.reg rADC_ENT) 19 18) 0 pos := by
  have he : v.reg (entReg 0) = s.reg rADC_ENT := reg_of_regs hv _
  have hl : v.adcLp = s.rbit rADC_CTL 1 := rbit_of_regs hv _ _
  unfold entStart entRange
  rw [he, hq, hl]
  dsimp only
  rw [hr]
  split <;> rfl

theorem adcCorrector_spec (s : State) : ∃ f c, adcCorrector s = { s with free := f, adc := { s.adc with coeffs := c } } ∧
    (s.rbit rADC_CAL 0 = true ∨ s.rbit rADC_CTL 1 = true → c = s.adc.coeffs) := by
  unfold adcCorrector
  by_cases h : s.rbit rADC_CAL 0 = true ∨ s.rbit rADC_CTL 1 = true
  · rw [if_pos (by unfold State.adcLp; rcases h with h | h <;> simp [h])]
    exact ⟨_, _, rfl, fun _ => rfl⟩
  · rw [if_neg (by unfold State.adcLp; simpa using h)]
    exact ⟨_, _, rfl, fun h' => absurd h' h⟩

/-- One sample of an entry with AVG 0 is one result (R543, R556). -/
theorem sample_single (lp : Bool) (w : Word) (code : BitVec 12) {r : AdcRun} (h1 : r.settle = 0) (h2 : r.got = 0) (h3 : r.sum = 0)
    (h4 : r.switchAt = none) (h5 : r.seam = false) (h6 : r.seamDue = false) (h7 : r.seamKept = false) (h8 : r.clip = false)
    (w1 : bit w 20 = false) (w2 : entAvg w = 0) : ∃ r', r.sample lp w code = (r', some ⟨code.toInt * rangeMul r.range, r.range, false,
      code.toInt == -2048 || code.toInt == 2047, r.gap, r.pos, r.pos⟩) ∧ r'.made = r.made + 1 ∧ r'.entry = r.entry ∧ r'.range = r.range := by
  have hb : r.atBoundary = r := by unfold AdcRun.atBoundary; rw [h4]
  have hd : ∀ q : AdcRun, q.decide lp w code = q := fun q => by
    unfold AdcRun.decide upSwitch AdcRun.downs
    rw [w1]
    simp
  unfold AdcRun.sample
  rw [hb, hd]
  dsimp only
  have hs : (r.count lp code).settle = 0 := h1
  rw [if_neg (by rw [hs]; decide), w2, if_neg (by
    have : ((r.count lp code).add lp code).got = r.got + 1 := rfl
    rw [this, h2]; decide)]
  unfold AdcRun.emit AdcRun.add AdcRun.count resultNorm
  dsimp only
  rw [h3, h5, h6, h7, h8]
  simp only [if_true, Int.zero_add, Bool.false_or, Nat.add_sub_cancel, Nat.pow_zero, Nat.sub_self, Nat.zero_mul, Nat.sub_zero]
  exact ⟨_, rfl, rfl, rfl, rfl⟩

theorem ent_res_ne (n : Nat) : entReg n ≠ resReg n := by
  unfold entReg resReg
  split
  · decide
  · unfold rADC_ENT rADC_RES; omega

theorem res_stat_ne (n : Nat) : resReg n ≠ rADC_STAT := by
  unfold resReg
  split
  · decide
  · unfold rADC_RES rADC_STAT; omega

/-- A result of the sequence that no ring, window or next entry follows (R571). -/
theorem adcDeliver_plain {s : State} {n : Nat} {m : Option Bool} (l : Bool) (x : AdcResult) (hd : s.rbit rADC_CTL 10 = false)
    (hw : s.rbit (entReg n) 31 = false) : adcDeliver false n m l x s =
      s.setReg (resReg n) (wd (fld 28 (s.fld (resReg n) 31 28 + 1) + resultBits x x.gap)) := by
  have hring : adcRing false n m x s = (x.gap, s) := by
    unfold adcRing
    dsimp only
    rw [hd]
    have hm : withSome m (fun res => when false (adcMarker false n res x.first)) s = s := by
      unfold withSome; split <;> rfl
    rw [hm]
    simp only [Bool.false_and, Bool.or_false, Bool.false_eq_true, if_false]
    rfl
  unfold adcDeliver
  dsimp only
  rw [hring]
  dsimp only
  rw [when_false (by rfl)]
  simp only [Bool.false_eq_true, if_false]
  generalize wd _ = y
  unfold adcWindow
  rw [if_pos]
  unfold State.rbit at hw ⊢
  rw [reg_setReg_ne _ _ _ (ent_res_ne n), hw]
  rfl

theorem adcAfter_plain {s : State} {r r' : AdcRun} (x : AdcResult) (y : Word) (hd : s.rbit rADC_CTL 10 = false)
    (hw : s.rbit (entReg r.entry) 31 = false) (hc : r'.made < bits (s.reg (entReg r.entry)) 12 0)
    (hy : wd (fld 28 (s.fld (resReg r.entry) 31 28 + 1) + resultBits x x.gap) = y) :
    adcAfter false r r' x s = { s.setReg (resReg r.entry) y with
        adc := { s.adc with results := s.adc.results + 1, seq := some { r' with marker := none } } } := by
  unfold adcAfter
  dsimp only
  rw [adcDeliver_plain _ _ hd hw, if_neg (by decide), if_neg (by omega), hy]
  generalize resReg r.entry = k
  rfl

/-- What follows a result when no STOP is due: the flags alone. -/
theorem adcFlags_quiet {v : State} (h : v.adc.stopAt = none) : (adcFlags (adcStopDue v)).adc = v.adc ∧
    ∀ k, k ≠ rADC_STAT → (adcFlags (adcStopDue v)).reg k = v.reg k := by
  have hsd : adcStopDue v = v := by unfold adcStopDue; rw [h]
  rw [hsd]
  obtain ⟨⟨rg, f1⟩, f2, f3, f4⟩ := adcFlags_spec v
  exact ⟨by rw [f1], f2⟩

end Sys2Proof.Machine
end

