-- ==== Sys2Proof/Laws/Units.lean ====
section
/-! SUPPORT. The laws of the shared operations of the LF, UHF, ranging, phone, card and network blocks, the key core's
services and the satellites. -/
namespace Sys2Proof.Machine

theorem lfDiscard_form (n : Nat) (s : State) : ∃ ch d, lfDiscard n s = { s with chans := { s.chans with ch := ch }, lf := { s.lf with discard := d } } := by
  induction n generalizing s with
  | zero => exact ⟨_, _, rfl⟩
  | succ n ih =>
    unfold lfDiscard
    split
    · obtain ⟨ch, d, h⟩ := ih _
      exact ⟨ch, d, by rw [h]; rfl⟩
    · exact ⟨_, _, rfl⟩

theorem lfDiscard_off {s : State} (h : s.lf.discard = false) (n : Nat) : lfDiscard n s = s := by
  cases n with
  | zero => rfl
  | succ n => unfold lfDiscard; rw [h]

/-- How a telegram or carrier ends (R618). -/
theorem lfEnd_spec (chips status : Nat) (r : LfRun) (s : State) : (lfEnd chips status r s).lf.run = none ∧
    (lfEnd chips status r s).fld rLF_STAT 31 16 = chips % 65536 ∧ (lfEnd chips status r s).rbit rLF_STAT 4 = false ∧
    (lfEnd chips status r s).rbit rLF_EVT 8 = true ∧ (status = 3 → (lfEnd chips status r s).rbit rLF_EVT 9 = true) ∧
    (status = 6 → (lfEnd chips status r s).rbit rLF_EVT 10 = true) ∧
    ∀ k, k ≠ rLF_STAT → k ≠ rLF_EVT → (lfEnd chips status r s).reg k = s.reg k := by
  unfold lfEnd
  dsimp only
  generalize hu : (State.setRbit (State.setFld _ rLF_STAT 31 16 chips) rLF_STAT 4 false) = u
  have u1 : u.lf.run = none := by rw [← hu]; rfl
  have u2 : u.fld rLF_STAT 31 16 = chips % 65536 := by
    rw [← hu]
    unfold State.fld State.setRbit State.setFld
    rw [reg_setReg_self, reg_setReg_self, bits_setBit_ne _ _ _ _ _ (by decide) (by decide), bits_setBits _ _ _ _ (by decide)]
    norm_num
  have u3 : u.rbit rLF_STAT 4 = false := by rw [← hu]; exact rbit_setRbit _ _ _ _ (by decide)
  have u4 : ∀ k, k ≠ rLF_STAT → u.reg k = s.reg k := fun k hk => by
    rw [← hu, reg_setRbit_ne _ _ _ _ hk, reg_setFld_ne _ _ _ _ _ hk]; rfl
  obtain ⟨ch, hp⟩ := portSend_spec 0x65 [(lfStatWord chips r.ch status, false)] u
  rw [hp]
  have key : ∀ (v : State), v.lf.run = none → v.fld rLF_STAT 31 16 = chips % 65536 → v.rbit rLF_STAT 4 = false →
      ∀ b < 32, (lfEvent b v).lf.run = none ∧ (lfEvent b v).fld rLF_STAT 31 16 = chips % 65536 ∧ (lfEvent b v).rbit rLF_STAT 4 = false ∧
        (lfEvent b v).rbit rLF_EVT b = true ∧ (∀ j < 32, v.rbit rLF_EVT j = true → (lfEvent b v).rbit rLF_EVT j = true) ∧
        ∀ k, k ≠ rLF_EVT → (lfEvent b v).reg k = v.reg k := fun v h1 h2 h3 b hb => by
    obtain ⟨⟨rg, cs, f⟩, f1, f2, f3⟩ := blockEvent_form rLF_EVT rLF_IE rLF_IE 16 13 hb v
    have hk : (blockEvent rLF_EVT rLF_IE rLF_IE 16 13 b v).reg rLF_STAT = v.reg rLF_STAT := f1 _ (by decide)
    exact ⟨by unfold lfEvent; rw [f]; exact h1, (fld_of_reg hk 31 16).trans h2, (rbit_of_reg hk 4).trans h3, f2, f3, f1⟩
  have wk : ∀ (p : Bool) (v : State), v.lf.run = none → v.fld rLF_STAT 31 16 = chips % 65536 → v.rbit rLF_STAT 4 = false → ∀ b < 32,
      (when p (lfEvent b) v).lf.run = none ∧ (when p (lfEvent b) v).fld rLF_STAT 31 16 = chips % 65536 ∧
      (when p (lfEvent b) v).rbit rLF_STAT 4 = false ∧ (p = true → (when p (lfEvent b) v).rbit rLF_EVT b = true) ∧
      (∀ j < 32, v.rbit rLF_EVT j = true → (when p (lfEvent b) v).rbit rLF_EVT j = true) ∧
      ∀ k, k ≠ rLF_EVT → (when p (lfEvent b) v).reg k = v.reg k := fun p v h1 h2 h3 b hb => by
    obtain ⟨a1, a2, a3, a4, a5, a6⟩ := key v h1 h2 h3 b hb
    cases p with
    | true => exact ⟨a1, a2, a3, fun _ => a4, a5, a6⟩
    | false => exact ⟨h1, h2, h3, fun h => absurd h (by decide), fun _ _ h => h, fun _ _ => rfl⟩
  obtain ⟨b1, b2, b3, b4, b5, b6⟩ := wk (status = 3) { u with chans := { u.chans with ch := ch } } u1 u2 u3 9 (by decide)
  obtain ⟨c1, c2, c3, c4, c5, c6⟩ := wk (status = 6) _ b1 b2 b3 10 (by decide)
  obtain ⟨d1, d2, d3, d4, d5, d6⟩ := key _ c1 c2 c3 8 (by decide)
  generalize lfEvent 8 _ = v at d1 d2 d3 d4 d5 d6 ⊢
  obtain ⟨ch', d', hf⟩ := lfDiscard_form 4 v
  rw [hf]
  refine ⟨d1, d2, d3, d4, fun h3 => d5 9 (by decide) (c5 9 (by decide) (b4 (by simpa using h3))), fun h6 => d5 10 (by decide) (c4 (by simpa using h6)), fun k h1 h2 => ?_⟩
  exact (d6 k h2).trans ((c6 k h2).trans ((b6 k h2).trans (u4 k h1)))

/-- No STOP of the head's tick waits. -/
theorem lfStopWord_none {s : State} {h : ChWord} {rest : List ChWord} (hq : (s.chan 0x64).q = h :: rest) (h0 : bits h.w 31 28 ≠ 2)
    (hr : ∀ w ∈ rest, w.tick = h.tick → bits w.w 31 28 ≠ 2) : lfStopWord s = none := by
  unfold lfStopWord
  rw [hq]
  change List.find? _ _ = none
  simp only [List.find?_eq_none, List.mem_cons, Bool.and_eq_true, beq_iff_eq, not_and]
  rintro w (rfl | hw) h2
  · exact absurd h2 h0
  · exact fun ht => hr w hw ht h2

/-- The word that a START or CARRIER takes (R616). -/
theorem lfWord_head {op : Nat} {s : State} {h : ChWord} {rest : List ChWord} (hq : (s.chan 0x64).q = h :: rest) (ho : bits h.w 31 28 = op)
    (f : Word → Nat → State → State) : lfWord op f s = f h.w h.tick (cDrop 0x64 s) := by
  have : s.ctrlHead 0x64 op = some h := by
    unfold State.ctrlHead
    rw [hq]
    simp [ho]
  unfold lfWord
  rw [this]
  rfl

theorem lfTaken {op : Nat} {s : State} {h : ChWord} {rest : List ChWord} (h2 : op ≠ 2) (hq : (s.chan 0x64).q = h :: rest) (ho : bits h.w 31 28 = op)
    (hr : ∀ w ∈ rest, w.tick = h.tick → bits w.w 31 28 ≠ 2) (f : Word → Nat → State → State) :
    lfWord op f (lfStopNow s) = f h.w h.tick (cDrop 0x64 s) := by
  have : lfStopNow s = s := by
    unfold lfStopNow
    rw [lfStopWord_none hq (by rw [ho]; exact h2) hr]
    rfl
  rw [this, lfWord_head hq ho]

theorem chipTick_zero (r : LfRun) : r.chipTick 0 = r.t0 := by
  unfold LfRun.chipTick
  rcases Nat.eq_zero_or_pos r.freq with h | h
  · rw [h]; simp
  · rw [Nat.zero_mul, Nat.zero_mul, Nat.zero_add, Nat.div_eq_of_lt (by omega), Nat.add_zero]

theorem lfAttempt_form (r : LfRun) (w : Word) (s : State) : ∃ f, lfAttempt r w s = { s with front := f } := by
  unfold lfAttempt
  cases (r.telegram && 16 ≤ r.n && r.next = 0 && (bits w 15 8 = 0x9A || bits w 15 8 = 0x96) : Bool) with
  | true => exact ⟨_, rfl⟩
  | false => exact ⟨s.front, rfl⟩

/-- The first chip of a telegram begins (R613). -/
theorem lfChip_first {r : LfRun} {s : State} {d : ChWord} {ds : List ChWord} (h1 : r.telegram = true) (h2 : r.next = 0) (h3 : r.onSince = none)
    (hq : (s.chan 0x62).q = d :: ds) : lfChip r s = lfAttempt r d.w ((cDrop 0x62 s).setLf (some { r with
      word := d.w, eom := d.eom, next := 1, onSince := if bit d.w 0 then some r.t0 else none
      winFrom := if bit d.w 0 then r.skip else r.winFrom })) := by
  unfold lfChip
  rw [hq]
  have e : d.w.getLsbD 0 = bit d.w 0 := rfl
  simp only [h1, h2, h3, Nat.zero_mod, Bool.and_self, decide_true, if_true, Bool.true_and, Bool.not_true, Bool.false_or, Option.isSome_none,
    Bool.and_false, Bool.false_eq_true, if_false, chipTick_zero, e, Option.isNone_none, Bool.and_true, Nat.zero_mul, Nat.zero_add,
    Option.getD_none, List.head?_cons]

/-- A refused word (R617). -/
theorem lfRefuse_spec (ch : Nat) (s : State) : (lfRefuse ch s).rbit rLF_EVT 11 = true ∧ (lfRefuse ch s).lf = s.lf ∧
    ∀ k, k ≠ rLF_EVT → (lfRefuse ch s).reg k = s.reg k := by
  unfold lfRefuse
  obtain ⟨c, hp⟩ := portSend_spec 0x65 [(lfStatWord 0 ch 5, false)] s
  rw [hp]
  obtain ⟨⟨rg, cs, f⟩, f1, f2, f3⟩ := blockEvent_form rLF_EVT rLF_IE rLF_IE 16 13 (b := 11) (by decide) { s with chans := { s.chans with ch := c } }
  exact ⟨f2, by unfold lfEvent; rw [f], fun k hk => f1 k hk⟩

/-- What a START or CARRIER that is in order leaves before its first chip. -/
theorem lfBegin_ok {telegram : Bool} {w : Word} {t : Nat} {s : State} (h : s.lf.run = none ∧ bits w 27 25 ≤ 5 ∧ bits w 24 16 = 0 ∧ bits w 15 0 ≠ 0 ∧
    s.rbit (rLF_CH + 4 * bits w 27 25) 31 = true ∧ s.fld (rLF_CH + 4 * bits w 27 25) 5 0 ≠ 0) : lfBegin telegram w t s =
    lfDue (lfDiscard 4 ((((s.setFld rLF_STAT 31 16 0).setRbit rLF_STAT 4 true).setFld rLF_STAT 2 0 (bits w 27 25)).setLf (some
      { ch := bits w 27 25, n := bits w 15 0, telegram := telegram, t0 := t, freq := (s.reg rLF_FREQ).toNat
        chip := s.fld rLF_CFG 13 8, mw := s.fld rLF_CFG 6 4, skip := s.fld rLF_CFG 3 0, next := 0, word := 0
        eom := !telegram, onSince := none, offAt := none, winFrom := 0, stopping := false, ended := none }))) := by
  obtain ⟨h1, h2, h3, h4, h5, h6⟩ := h
  unfold lfBegin
  dsimp only
  rw [if_neg]
  have : ¬ 5 < bits w 27 25 := by omega
  unfold lfCh
  simp only [h1, h3, h4, h5, h6, this, Option.isSome_none, decide_false, Bool.or_self, bne_self_eq_false, Bool.not_true, Bool.false_eq_true,
    or_self, not_false_eq_true]

theorem lfBegin_bad {telegram : Bool} {w : Word} {t : Nat} {s : State} (h : ¬ (s.lf.run = none ∧ bits w 27 25 ≤ 5 ∧ bits w 24 16 = 0 ∧ bits w 15 0 ≠ 0 ∧
    s.rbit (rLF_CH + 4 * bits w 27 25) 31 = true ∧ s.fld (rLF_CH + 4 * bits w 27 25) 5 0 ≠ 0)) : lfBegin telegram w t s = lfRefuse (bits w 27 25) s := by
  unfold lfBegin
  dsimp only
  rw [if_pos]
  by_contra hc
  apply h
  unfold lfCh at hc
  simp only [not_or, Bool.or_eq_true, decide_eq_true_eq, bne_iff_ne, ne_eq, Bool.not_eq_true', Bool.not_eq_false,
    Option.isSome_iff_ne_none, not_not, not_lt] at hc
  tauto

theorem busy_regs (ch : Nat) (s : State) :
    let u := ((s.setFld rLF_STAT 31 16 0).setRbit rLF_STAT 4 true).setFld rLF_STAT 2 0 ch
    u.fld rLF_STAT 31 16 = 0 ∧ u.rbit rLF_STAT 4 = true ∧ ∀ k, k ≠ rLF_STAT → u.reg k = s.reg k := by
  dsimp only
  refine ⟨?_, ?_, fun k hk => ?_⟩
  · unfold State.fld State.setRbit State.setFld
    rw [reg_setReg_self, reg_setReg_self, reg_setReg_self, bits_setBits_ne _ _ _ _ _ _ (by decide) (by decide),
      bits_setBit_ne _ _ _ _ _ (by decide) (by decide), bits_setBits _ _ _ _ (by decide)]
    rfl
  · rw [rbit_setFld _ _ _ _ _ _ (by decide) (by decide)]
    exact rbit_setRbit _ _ _ _ (by decide)
  · rw [reg_setFld_ne _ _ _ _ _ hk, reg_setRbit_ne _ _ _ _ hk, reg_setFld_ne _ _ _ _ _ hk]

/-- What the diagnostics and the tuning of a measurement can change. -/
structure LfMeasured (s t : State) : Prop where
  mem : t.mem = s.mem
  chans : t.chans = s.chans
  reg : ∀ n < 6, t.reg (rLF_MEAS + 4 * n) = s.reg (rLF_MEAS + 4 * n)

theorem LfMeasured.trans {s t u : State} (h : LfMeasured s t) (g : LfMeasured t u) : LfMeasured s u :=
  ⟨g.1.trans h.1, g.2.trans h.2, fun n hn => (g.3 n hn).trans (h.3 n hn)⟩

theorem lfDiag_measured {n b : Nat} (hn : n < 6) (hb : n < 32) (s : State) : LfMeasured s (lfDiag n b s) := by
  unfold lfDiag
  split
  · exact ⟨rfl, rfl, fun _ _ => rfl⟩
  · obtain ⟨⟨rg, cs, f⟩, f1, -, -⟩ := blockEvent_form rLF_EVT rLF_IE rLF_IE 16 13 hb (s.setRbit (rLF_DIAG + 4 * n) b true)
    refine ⟨by unfold lfEvent; rw [f]; rfl, by unfold lfEvent; rw [f]; rfl, fun m hm => (f1 _ ?_).trans (reg_setRbit_ne _ _ _ _ ?_)⟩
    · unfold rLF_MEAS rLF_EVT; omega
    · unfold rLF_MEAS rLF_DIAG; omega

theorem when_measured {p : Bool} {f : State → State} {s : State} (h : LfMeasured s (f s)) : LfMeasured s (when p f s) := by
  cases p with
  | true => exact h
  | false => exact ⟨rfl, rfl, fun _ _ => rfl⟩

theorem lfDiagnose_measured {n amp : Nat} {phase : Int} (hn : n < 6) (s : State) : LfMeasured s (lfDiagnose n amp phase s) := by
  unfold lfDiagnose
  dsimp only
  refine LfMeasured.trans ?_ (when_measured (lfDiag_measured hn (by omega) _))
  refine LfMeasured.trans ?_ (when_measured (lfDiag_measured hn (by omega) _))
  refine LfMeasured.trans ?_ (when_measured (lfDiag_measured hn (by omega) _))
  exact ⟨rfl, rfl, fun _ _ => rfl⟩

theorem lfRetune_rest (n : Nat) (s : State) : ∃ l, lfRetune n s = { s with lf := l } := by
  unfold lfRetune
  cases s.lf.run with
  | none => exact ⟨s.lf, rfl⟩
  | some r =>
    simp only [withSome]
    cases (decide (r.ch = n)) with
    | true => exact ⟨_, rfl⟩
    | false => exact ⟨s.lf, rfl⟩

theorem lfTune_measured {n : Nat} {phase : Int} (hn : n < 6) (s : State) : LfMeasured s (lfTune n phase s) := by
  have key : ∀ v, LfMeasured s (lfRetune n (s.setFld (lfCh n) 21 16 v)) := fun v => by
    obtain ⟨l, h⟩ := lfRetune_rest n (s.setFld (lfCh n) 21 16 v)
    rw [h]
    refine LfMeasured.trans (t := s.setFld (lfCh n) 21 16 v) ⟨rfl, rfl, fun m hm => reg_setFld_ne _ _ _ _ _ ?_⟩ ⟨rfl, rfl, fun _ _ => rfl⟩
    unfold lfCh rLF_MEAS rLF_CH
    omega
  unfold lfTune
  dsimp only
  split
  · exact ⟨rfl, rfl, fun _ _ => rfl⟩
  · split
    · exact key _
    · split
      · exact key _
      · exact ⟨rfl, rfl, fun _ _ => rfl⟩

/-- What the end of a measurement window writes (R622). -/
theorem lfMeas_spec {n amp : Nat} {phase : Int} (hn : n < 6) (y : Word) (x : Option LfRun) (s : State) :
    (lfTune n phase (lfDiagnose n amp phase ((s.setReg (rLF_MEAS + 4 * n) y).setLf x))).reg (rLF_MEAS + 4 * n) = y ∧
    (lfTune n phase (lfDiagnose n amp phase ((s.setReg (rLF_MEAS + 4 * n) y).setLf x))).mem = s.mem ∧
    (lfTune n phase (lfDiagnose n amp phase ((s.setReg (rLF_MEAS + 4 * n) y).setLf x))).chans = s.chans := by
  have h0 : ((s.setReg (rLF_MEAS + 4 * n) y).setLf x).reg (rLF_MEAS + 4 * n) = y := (reg_of_regs rfl _).trans (reg_setReg_self s _ y)
  have hm := (lfDiagnose_measured (amp := amp) (phase := phase) hn ((s.setReg (rLF_MEAS + 4 * n) y).setLf x)).trans
    (lfTune_measured (phase := phase) hn _)
  exact ⟨(hm.3 _ hn).trans h0, hm.1, hm.2⟩

/-- A short's flag and its event (R625). -/
theorem lfDiag_spec {n b : Nat} (hn : n < 6) (hb : n < 32) (s : State) (h31 : b < 31) : (lfDiag n b s).rbit (rLF_DIAG + 4 * n) b = true ∧
    (lfDiag n b s).lf = s.lf ∧ (lfDiag n b s).clk = s.clk ∧ ∀ m < 6, (lfDiag n b s).reg (rLF_CH + 4 * m) = s.reg (rLF_CH + 4 * m) := by
  unfold lfDiag
  split
  · rename_i h
    exact ⟨h, rfl, rfl, fun _ _ => rfl⟩
  · obtain ⟨⟨rg, cs, f⟩, f1, -, -⟩ := blockEvent_form rLF_EVT rLF_IE rLF_IE 16 13 hb (s.setRbit (rLF_DIAG + 4 * n) b true)
    refine ⟨(rbit_of_reg (f1 _ ?_) _).trans (rbit_setRbit _ _ _ _ (by omega)), by unfold lfEvent; rw [f]; rfl, by unfold lfEvent; rw [f]; rfl,
      fun m hm => (f1 _ ?_).trans (reg_setRbit_ne _ _ _ _ ?_)⟩
    · unfold rLF_DIAG rLF_EVT; omega
    · unfold rLF_CH rLF_EVT; omega
    · unfold rLF_CH rLF_DIAG; omega

theorem lateSuccess_front (e : Nat) (s : State) : ∃ f, lateSuccess e s = { s with front := f } := by
  unfold lateSuccess countLate State.onQueue
  repeat' split
  all_goals exact ⟨_, rfl⟩

/-- The fields of a RANGE STAT word of a run that does not pass (R739). -/
theorem rangeWord_fields {b z cause m p n : Nat} (hz : z < 16) (hc : cause < 16) (h0 : cause ≠ 0) (hm : m < 8) (hp : p < 2) (hn : n < 8) :
    let w := rangeWord b z cause m p n
    bits w 11 8 = cause ∧ bits w 6 4 = m ∧ bits w 3 3 = p ∧ bits w 2 0 = n ∧ bit w 7 = false := by
  have e : rangeWord b z cause m p n = wd (min b 0xFFFF * 65536 + z * 4096 + cause * 256 + m * 16 + p * 8 + n) := by
    unfold rangeWord fld
    rw [decide_eq_false h0]
    simp [Nat.shiftLeft_eq, b2n]
  dsimp only
  rw [e]
  have hb : min b 0xFFFF ≤ 65535 := Nat.min_le_right _ _
  generalize min b 0xFFFF = b at hb ⊢
  refine ⟨?_, ?_, ?_, ?_, ?_⟩
  · rw [bits_wd _ _ _ (by decide)]; norm_num; omega
  · rw [bits_wd _ _ _ (by decide)]; norm_num; omega
  · rw [bits_wd _ _ _ (by decide)]; norm_num; omega
  · rw [bits_wd _ _ _ (by decide)]; norm_num; omega
  · unfold bit wd
    rw [BitVec.getLsbD_ofNat, Nat.testBit_eq_decide_div_mod_eq]
    norm_num
    omega

theorem uwbEvent_spec {b : Nat} (hb : b < 32) (s : State) : (uwbEvent b s).range = s.range ∧ (uwbEvent b s).rbit rUWB_EVT b = true ∧
    ∀ k, k ≠ rUWB_EVT → (uwbEvent b s).reg k = s.reg k := by
  obtain ⟨⟨rg, cs, f⟩, f1, f2, -⟩ := blockEvent_form rUWB_EVT rUWB_IE rUWB_IE 16 14 hb s
  exact ⟨by unfold uwbEvent; rw [f], f2, f1⟩

/-- A result that does not pass (R739, R740). -/
theorem rangeReport_spec (dists : List (Nat × Nat)) {w : Word} (h7 : bit w 7 = false) (s : State) :
    (rangeReport dists w s).reg rRANGE_RESULT = w ∧ (rangeReport dists w s).rbit rUWB_EVT 0 = true ∧
    (rangeReport dists w s).rbit rUWB_EVT 1 = true ∧ (rangeReport dists w s).range = s.range := by
  unfold rangeReport
  dsimp only
  rw [when_false h7, when_true (by rw [h7]; rfl)]
  obtain ⟨c, h1⟩ := portSend_spec 0x73 (withEom (dists.map (fun d => wd (fld 28 d.1 + d.2 % 65536)))) s
  rw [h1]
  obtain ⟨c', h2⟩ := portSend_spec 0x75 [(w, false)] { s with chans := { s.chans with ch := c } }
  rw [h2]
  generalize hu : (State.setReg _ rRANGE_RESULT w) = u
  have u1 : u.reg rRANGE_RESULT = w := by rw [← hu]; exact reg_setReg_self _ _ _
  have u2 : u.range = s.range := by rw [← hu]; rfl
  obtain ⟨⟨rg, cs, f⟩, f1, f2, f3⟩ := blockEvent_form rUWB_EVT rUWB_IE rUWB_IE 16 14 (b := 1) (by decide) u
  have e1 : (uwbEvent 1 u).range = u.range := by unfold uwbEvent; rw [f]
  have e2 : (uwbEvent 1 u).reg rRANGE_RESULT = u.reg rRANGE_RESULT := f1 _ (by decide)
  have e3 : (uwbEvent 1 u).rbit rUWB_EVT 1 = true := f2
  generalize uwbEvent 1 u = v at e1 e2 e3
  obtain ⟨⟨rg, cs, g⟩, g1, g2, g3⟩ := blockEvent_form rUWB_EVT rUWB_IE rUWB_IE 16 14 (b := 0) (by decide) v
  exact ⟨((g1 _ (by decide)).trans e2).trans u1, g2, g3 1 (by decide) e3, by unfold uwbEvent; rw [g]; exact e1.trans u2⟩

/-- The fields of a result register after a run that does not pass. -/
theorem rangeResult_fields (dists : List (Nat × Nat)) {b z cause m p n : Nat} (hz : z < 16) (hc : cause < 16) (h0 : cause ≠ 0) (hm : m < 8) (hp : p < 2)
    (hn : n < 8) (s : State) :
    let t := rangeReport dists (rangeWord b z cause m p n) s
    (t.fld rRANGE_RESULT 11 8 = cause ∧ t.fld rRANGE_RESULT 6 4 = m ∧ t.fld rRANGE_RESULT 3 3 = p ∧ t.fld rRANGE_RESULT 2 0 = n ∧
      t.rbit rRANGE_RESULT 7 = false ∧ t.rbit rUWB_EVT 0 = true ∧ t.rbit rUWB_EVT 1 = true) ∧ t.range = s.range := by
  obtain ⟨f1, f2, f3, f4, f5⟩ := rangeWord_fields (b := b) hz hc h0 hm hp hn
  obtain ⟨r1, r2, r3, r4⟩ := rangeReport_spec dists f5 s
  dsimp only
  unfold State.fld State.rbit at *
  rw [r1]
  exact ⟨⟨f1, f2, f3, f4, f5, r2, r3⟩, r4⟩

theorem session_lt (w : Word) : bits w 2 0 < 8 ∧ bits w 3 3 < 2 := by
  constructor
  · exact Nat.lt_of_lt_of_eq (Nat.mod_lt _ (by decide)) rfl
  · exact Nat.lt_of_lt_of_eq (Nat.mod_lt _ (by decide)) rfl

theorem drainLoad_done {s : State} (h : s.range.loadEom = true) (n : Nat) : drainLoad n s = s := by
  cases n with
  | zero => rfl
  | succ n => unfold drainLoad; rw [h]

theorem clearPass_spec (s : State) : (clearPass s).rbit rRANGE_RESULT 7 = false ∧ (∀ k, k ≠ rRANGE_RESULT → (clearPass s).reg k = s.reg k) ∧
    (clearPass s).chans = s.chans ∧ (clearPass s).range = s.range :=
  ⟨rbit_setRbit _ _ _ _ (by decide), fun k hk => reg_setRbit_ne _ _ _ _ hk, rfl, rfl⟩

theorem rangeCtrl_run {op : Nat} {s : State} {h : ChWord} (hw : s.ctrlHead 0x74 op = some h) (f : Word → Nat → State → State) :
    rangeCtrl op f s = if s.range.run.isSome then uwbEvent 2 (cDrop 0x74 s) else f h.w h.tick (cDrop 0x74 s) := by
  unfold rangeCtrl
  rw [hw]
  rfl

/-- A run begins, and the attempt is counted. -/
theorem rangeStart_spec (k : RangeKind) (p n t : Nat) (s : State) :
    (attempt 7 (sendInit (rangeBegin k p n t s))).regs = s.regs ∧
    ∃ init, (attempt 7 (sendInit (rangeBegin k p n t s))).range = { s.range with run := some ⟨k, p, n, t, s.fld rRANGE_CFG 0 0, none, init⟩ } :=
  ⟨rfl, _, rfl⟩

theorem rangeStart0_spec (k : RangeKind) (p n t : Nat) (s : State) :
    (attempt 7 (rangeBegin k p n t s)).regs = s.regs ∧
    ∃ init, (attempt 7 (rangeBegin k p n t s)).range = { s.range with run := some ⟨k, p, n, t, s.fld rRANGE_CFG 0 0, none, init⟩ } :=
  ⟨rfl, _, rfl⟩

theorem method_lt (k : RangeKind) : k.method < 8 := by
  unfold RangeKind.method
  repeat' split
  all_goals decide

theorem rangeAbort_form (r : RangeRun) (s : State) : ∃ b u, u.range = s.range ∧
    rangeAbort r s = rangeReport [] (rangeWord b 0xF 9 r.kind.method r.purpose r.session) u := by
  unfold rangeAbort endCause
  cases hk : r.kind with
  | lf g => exact ⟨_, _, rfl, rfl⟩
  | cal x => exact ⟨_, _, rfl, rfl⟩
  | rbe x => exact ⟨_, (freshBound s).2, rfl, rfl⟩
  | round x => exact ⟨_, (freshBound s).2, rfl, rfl⟩

theorem anchPolls_spec (r : Option RangeRun) (s : State) :
    (∀ k, k ≠ rADIT_STAT → (anchPolls r s).reg k = s.reg k) ∧ (anchPolls r s).range = s.range := by
  have key : ∀ n, (∀ k, k ≠ rADIT_STAT → (s.setFld rADIT_STAT 31 16 n).reg k = s.reg k) ∧
      (s.setFld rADIT_STAT 31 16 n).range = s.range := fun n => ⟨fun k hk => reg_setFld_ne _ _ _ _ _ hk, rfl⟩
  unfold anchPolls when
  dsimp only
  split
  · split
    · exact key _
    · exact ⟨fun _ _ => rfl, rfl⟩
  · split
    · exact key _
    · exact ⟨fun _ _ => rfl, rfl⟩
  · exact ⟨fun _ _ => rfl, rfl⟩

theorem creditRange_fail {w : Word} (h : bit w 7 = false) (s : State) : creditRange w s = s := by
  unfold creditRange
  rw [h]
  dsimp only
  split
  · rfl
  · rfl

/-- What follows a result leaves the result and its events. -/
theorem execRangeResult_fields {meas : RangeMeas} {s u : State} {r : RangeRun} {c m p n : Nat} (ht : s.timed = true) (hr : s.range.run = some r)
    (hu : rangeResult meas s = u) (hrange : u.range = { s.range with run := none })
    (hf : u.fld rRANGE_RESULT 11 8 = c ∧ u.fld rRANGE_RESULT 6 4 = m ∧ u.fld rRANGE_RESULT 3 3 = p ∧ u.fld rRANGE_RESULT 2 0 = n ∧
      u.rbit rRANGE_RESULT 7 = false ∧ u.rbit rUWB_EVT 0 = true ∧ u.rbit rUWB_EVT 1 = true) :
    ∃ t, execRangeResult meas s = .next t ∧ t.range = { s.range with run := none } ∧
      t.fld rRANGE_RESULT 11 8 = c ∧ t.fld rRANGE_RESULT 6 4 = m ∧ t.fld rRANGE_RESULT 3 3 = p ∧ t.fld rRANGE_RESULT 2 0 = n ∧
      t.rbit rRANGE_RESULT 7 = false ∧ t.rbit rUWB_EVT 0 = true ∧ t.rbit rUWB_EVT 1 = true := by
  unfold execRangeResult
  rw [when_true ht]
  dsimp only
  rw [hu]
  have hn : u.range.run = none := by rw [hrange]
  rw [hn]
  simp only [Option.isNone_none, if_true]
  obtain ⟨q1, q2⟩ := anchPolls_spec s.range.run u
  generalize anchPolls s.range.run u = v at q1 q2
  have key : ∀ x : State, x.range = v.range → x.regs = v.regs → x.range = { s.range with run := none } ∧
      x.fld rRANGE_RESULT 11 8 = c ∧ x.fld rRANGE_RESULT 6 4 = m ∧ x.fld rRANGE_RESULT 3 3 = p ∧ x.fld rRANGE_RESULT 2 0 = n ∧
      x.rbit rRANGE_RESULT 7 = false ∧ x.rbit rUWB_EVT 0 = true ∧ x.rbit rUWB_EVT 1 = true := fun x h1 h2 => by
    have e1 : x.reg rRANGE_RESULT = u.reg rRANGE_RESULT := (reg_of_regs h2 _).trans (q1 _ (by decide))
    have e2 : x.reg rUWB_EVT = u.reg rUWB_EVT := (reg_of_regs h2 _).trans (q1 _ (by decide))
    unfold State.fld State.rbit at *
    rw [e1, e2]
    exact ⟨h1.trans (q2.trans hrange), hf⟩
  cases ((s.range.run.isSome && v.range.run.isNone && v.kiln.ready) : Bool) with
  | false => exact ⟨_, rfl, key _ rfl rfl⟩
  | true =>
    refine ⟨_, rfl, ?_⟩
    have e7 : bit (v.reg rRANGE_RESULT) 7 = false := (key v rfl rfl).2.2.2.2.2.1
    rw [when_true rfl, creditRange_fail e7]
    exact key v rfl rfl

/-- A set that has stood unused for 100 ms (R715). -/
theorem loadExpired_rbe {s : State} {x : RbeSet} (ht : s.timed = true) (hr : s.range.rbe = some x) (hd : x.at_ + msTicks 100 ≤ s.clk.tb) (hs : s.range.sts = none) :
    execLoadExpired s = .next (uwbEvent 3 { s with range := { s.range with rbe := none } }) := by
  unfold execLoadExpired
  rw [when_true ht]
  dsimp only
  have ha : Option.any (fun x => decide (x.at_ + msTicks 100 ≤ s.clk.tb)) (some x) = true := by
    rw [Option.any_some, decide_eq_true hd]
  rw [hr, ha, Bool.true_or, when_true rfl, hs]
  rw [Option.any_none]
  unfold State.onRange
  simp only [if_true, Bool.false_eq_true, if_false]
  rw [← hs]

theorem bleEvent_spec {b : Nat} (hb : b < 32) (s : State) : (bleEvent b s).ble = s.ble ∧ (bleEvent b s).chans = s.chans ∧
    (bleEvent b s).rbit rBLE_EVT b = true ∧ ∀ k, k ≠ rBLE_EVT → (bleEvent b s).reg k = s.reg k := by
  obtain ⟨⟨rg, cs, f⟩, f1, f2, -⟩ := blockEvent_form rBLE_EVT rBLE_IE rBLE_IE 16 14 hb s
  exact ⟨by unfold bleEvent; rw [f], by unfold bleEvent; rw [f], f2, f1⟩

theorem blePlace_none {s : State} (h : s.ble.held = []) (n : Nat) : blePlace n s = s := by
  cases n with
  | zero => rfl
  | succ n => unfold blePlace; rw [h]

/-- A packet that fits enters the receive FIFO at once (R764). -/
theorem bleEmit_fits {ind : Nat} {bs : Bytes} {s : State} (h : s.ble.held = []) (hl : s.ble.rx.length + (hciWords ind bs).length ≤ 512) :
    (bleEmit ind bs s).ble = { s.ble with rx := s.ble.rx ++ hciWords ind bs } ∧ (bleEmit ind bs s).rbit rBLE_EVT 0 = true := by
  have key : bleEmit ind bs s = bleEvent 0 { s with ble := { s.ble with rx := s.ble.rx ++ hciWords ind bs, held := [] } } := by
    unfold bleEmit
    dsimp only
    have hh : (s.onBle (fun b => { b with held := b.held ++ [hciWords ind bs] })).ble.held = [hciWords ind bs] := by
      unfold State.onBle
      dsimp only
      rw [h]
      rfl
    have hr : (s.onBle (fun b => { b with held := b.held ++ [hciWords ind bs] })).ble.rx = s.ble.rx := rfl
    rw [hh]
    simp only [List.length_singleton]
    unfold blePlace
    rw [hh]
    dsimp only
    rw [hr, if_neg (by omega)]
    unfold blePlace
    rfl
  obtain ⟨e1, e2, e3, e4⟩ := bleEvent_spec (b := 0) (by decide) { s with ble := { s.ble with rx := s.ble.rx ++ hciWords ind bs, held := [] } }
  rw [key]
  refine ⟨e1.trans ?_, e3⟩
  rw [← h]

/-- What a STAT word of the NFC engine leaves. -/
theorem nfcStat_form (n st : Nat) (s : State) : ∃ ch, nfcStat n st s = { s with chans := { s.chans with ch := ch } } := portSend_spec _ _ _

/-- The end of a TX (R786, R787). -/
theorem nfcEndTx_spec (x : NfcTx) (st : Nat) (s : State) : (nfcEndTx x st s).nfc.tx = none ∧ (nfcEndTx x st s).nfc.onAt = s.nfc.onAt ∧
    (nfcEndTx x st s).nfc.offAt = s.nfc.offAt ∧ (nfcEndTx x st s).nfc.waiting = s.nfc.waiting ∧ (nfcEndTx x st s).nfc.cardEnd = s.nfc.cardEnd ∧
    (nfcEndTx x st s).regs = s.regs := by
  unfold nfcEndTx
  dsimp only
  split
  · exact ⟨rfl, rfl, rfl, rfl, rfl, rfl⟩
  · obtain ⟨c, h⟩ := nfcStat_form (x.sent s.clk.tb) st (s.onNfc (fun n => { n with tx := none, air := if x.begun && x.endAt ≤ s.clk.tb then x.frame else n.air }))
    have e : (s.onNfc (fun n => { n with tx := none, air := if x.begun && x.endAt ≤ s.clk.tb then x.frame else n.air })).clk.tb = s.clk.tb := rfl
    rw [e, h]
    exact ⟨rfl, rfl, rfl, rfl, rfl, rfl⟩

theorem nfcDeliver_nfc (tick st : Nat) (ws : List (Word × Bool)) (s : State) : (nfcDeliver tick st ws s).nfc = s.nfc := by
  have key : ∀ b < 32, ∀ u : State, (nfcEvent b u).nfc = u.nfc := fun b hb u => by
    obtain ⟨⟨rg, cs, f⟩, -, -, -⟩ := blockEvent_form rNFC_EVT rNFC_IE rNFC_IE 16 14 hb u
    unfold nfcEvent
    rw [f]
  unfold nfcDeliver
  dsimp only
  split
  · rfl
  · split
    · exact key 2 (by decide) s
    · rw [key _ (by split <;> decide)]
      rfl

theorem nfcDrain_none {s : State} (h : (s.chan 0xA2).q = []) (n : Nat) : nfcDrain n s = s := by
  cases n with
  | zero => rfl
  | succ n =>
    unfold nfcDrain
    rw [h]
    cases s.nfc.tx <;> rfl

/-- A frame starts on the air before any word of it has come (R787). -/
theorem nfcBegin_spec {x : NfcTx} {s : State} (h : (s.chan 0xA2).q = []) : (nfcBegin x s).regs = s.regs ∧
    (nfcBegin x s).nfc = { s.nfc with tx := some { x with begun := true } } := by
  unfold nfcBegin
  rw [nfcDrain_none (by exact h)]
  exact ⟨rfl, rfl⟩

theorem lateSuccess_nfc (e : Nat) (s : State) : (lateSuccess e s).nfc = s.nfc := by
  obtain ⟨f, h⟩ := lateSuccess_front e s
  rw [h]

theorem nfcWord_head {op : Nat} {s : State} {h : ChWord} (hw : s.ctrlHead 0xA4 op = some h) (f : Word → Nat → State → State) :
    nfcWord op f s = f h.w h.tick (cDrop 0xA4 s) := by
  unfold nfcWord
  rw [hw]
  rfl

theorem presentWake_rest (n : Nat) (s : State) : (presentWake n s).ble = s.ble ∧ ∀ k, k ≠ rPWR_WAKE_SRC → (presentWake n s).reg k = s.reg k := by
  unfold presentWake
  repeat' split
  all_goals first
    | exact ⟨rfl, fun _ _ => rfl⟩
    | exact ⟨rfl, fun k hk => reg_setRbit_ne _ _ _ _ hk⟩

/-- What FIELD_OFF leaves (R796). -/
theorem fieldOff_spec (w : Word) (k : Nat) (s : State) : (fieldOff w k s).nfc.onAt = none ∧ (fieldOff w k s).nfc.waiting = false ∧
    (fieldOff w k s).nfc.tx = none ∧ (fieldOff w k s).nfc.offAt = if s.nfc.onAt.isSome then some s.clk.tb else s.nfc.offAt := by
  unfold fieldOff
  dsimp only
  have u0 : (nfcCarrierOff s).nfc.onAt = none ∧ (nfcCarrierOff s).nfc.waiting = false ∧
      (nfcCarrierOff s).nfc.offAt = if s.nfc.onAt.isSome then some s.clk.tb else s.nfc.offAt := ⟨rfl, rfl, rfl⟩
  have u1 : (when s.nfc.waiting (nfcStat 0 2) (nfcCarrierOff s)).nfc = (nfcCarrierOff s).nfc := by
    cases s.nfc.waiting with
    | false => rfl
    | true =>
      obtain ⟨c, h⟩ := nfcStat_form 0 2 (nfcCarrierOff s)
      rw [when_true rfl, h]
  generalize when s.nfc.waiting (nfcStat 0 2) (nfcCarrierOff s) = v at u1 ⊢
  rw [← u1] at u0
  have last : ∀ z : State, (nfcStat 0 1 z).nfc = z.nfc := fun z => by
    obtain ⟨c, h⟩ := nfcStat_form 0 1 z
    rw [h]
  rw [last]
  obtain ⟨a1, a2, a3⟩ := u0
  rcases hq : v.nfc.tx with _ | x
  · exact ⟨a1, a2, hq, a3⟩
  · simp only [withSome]
    generalize hz : when (x.begun && x.rxEn && !x.silent) _ v = z
    have hzn : z.nfc = v.nfc := by
      rw [← hz]
      cases (x.begun && x.rxEn && !x.silent) with
      | false => rfl
      | true => exact nfcDeliver_nfc _ _ _ _
    obtain ⟨n1, n2, n3, n4, n5, n6⟩ := nfcEndTx_spec x 2 z
    exact ⟨by rw [n2, hzn]; exact a1, by rw [n4, hzn]; exact a2, n1, by rw [n3, hzn]; exact a3⟩

/-- The controller's report of a connection that wakes the device (R772). -/
theorem enhancedComplete_spec (conn : Nat) (s : State) : (enhancedComplete conn s).ble.conns = s.ble.conns ∧ (enhancedComplete conn s).ble.sets = s.ble.sets ∧
    (∀ b < 32, s.rbit rBLE_EVT b = true → (enhancedComplete conn s).rbit rBLE_EVT b = true) ∧
    ∀ k, k ≠ rBLE_EVT → (enhancedComplete conn s).reg k = s.reg k := by
  have place : ∀ n (u : State), (blePlace n u).ble.conns = u.ble.conns ∧ (blePlace n u).ble.sets = u.ble.sets ∧
      (∀ b < 32, u.rbit rBLE_EVT b = true → (blePlace n u).rbit rBLE_EVT b = true) ∧ ∀ k, k ≠ rBLE_EVT → (blePlace n u).reg k = u.reg k := by
    intro n
    induction n with
    | zero => exact fun u => ⟨rfl, rfl, fun _ _ h => h, fun _ _ => rfl⟩
    | succ n ih =>
      intro u
      unfold blePlace
      split
      · exact ⟨rfl, rfl, fun _ _ h => h, fun _ _ => rfl⟩
      · split
        · exact ⟨rfl, rfl, fun _ _ h => h, fun _ _ => rfl⟩
        · rename_i p ps hh hl
          obtain ⟨i1, i2, i3, i4⟩ := ih (bleEvent 0 (u.onBle (fun b => { b with rx := b.rx ++ p, held := ps })))
          obtain ⟨e1, e2, e3, e4⟩ := bleEvent_spec (b := 0) (by decide) (u.onBle (fun b => { b with rx := b.rx ++ p, held := ps }))
          obtain ⟨-, -, -, g⟩ := blockEvent_form rBLE_EVT rBLE_IE rBLE_IE 16 14 (b := 0) (by decide) (u.onBle (fun b => { b with rx := b.rx ++ p, held := ps }))
          exact ⟨by rw [i1, e1]; rfl, by rw [i2, e1]; rfl, fun b hb h => i3 b hb (g b hb h), fun k hk => (i4 k hk).trans ((e4 k hk).trans rfl)⟩
  unfold enhancedComplete bleEmit
  dsimp only
  obtain ⟨p1, p2, p3, p4⟩ := place _ (State.onBle (s.freshBytes 26).2 (fun b => { b with held := b.held ++ [hciWords 4 _] }))
  exact ⟨p1, p2, p3, p4⟩

/-- What the health checks and the conditioner leave of the source. -/
structure EntSame (s t : State) : Prop where
  n : t.ent.n = s.ent.n
  last : t.ent.last = s.ent.last
  from_ : t.ent.runFrom = s.ent.runFrom
  drbg : t.ent.drbg = s.ent.drbg
  buf : t.ent.regBuf = s.ent.regBuf

theorem entSame_self {s : State} : EntSame s s := ⟨rfl, rfl, rfl, rfl, rfl⟩

theorem EntSame.trans {s t u : State} (h : EntSame s t) (g : EntSame t u) : EntSame s u :=
  ⟨g.1.trans h.1, g.2.trans h.2, g.3.trans h.3, g.4.trans h.4, g.5.trans h.5⟩

theorem when_same {p : Bool} {f : State → State} {s : State} (h : EntSame s (f s)) : EntSame s (when p f s) := by
  cases p with
  | true => exact h
  | false => exact entSame_self

/-- One sample (R855). -/
theorem entSample_spec (raw : Byte) (s : State) : (entSample raw s).ent.n = s.ent.n + 1 ∧ (entSample raw s).ent.last = entSource raw s ∧
    (entSample raw s).ent.runFrom = s.ent.runFrom ∧ (entSample raw s).ent.drbg = s.ent.drbg ∧ (entSample raw s).ent.regBuf = s.ent.regBuf := by
  have h1 : ∀ b u, EntSame u (entRct b u) := fun b u => by
    unfold entRct
    dsimp only
    repeat' split
    all_goals exact ⟨rfl, rfl, rfl, rfl, rfl⟩
  have h2 : ∀ b u, EntSame u (entApt b u) := fun b u => by
    unfold entApt
    dsimp only
    split
    · exact ⟨rfl, rfl, rfl, rfl, rfl⟩
    · split
      · exact EntSame.trans (t := u.onEnt _) ⟨rfl, rfl, rfl, rfl, rfl⟩ (when_same ⟨rfl, rfl, rfl, rfl, rfl⟩)
      · exact entSame_self
  have h3 : ∀ b k u, EntSame u (entAlive b k u) := fun b k u => by
    unfold entAlive
    dsimp only
    exact EntSame.trans (t := State.setRbit (u.onEnt _) _ _ _) ⟨rfl, rfl, rfl, rfl, rfl⟩ (when_same ⟨rfl, rfl, rfl, rfl, rfl⟩)
  have h4 : ∀ b k u, EntSame u (entLocked b k u) := fun b k u => by
    unfold entLocked
    dsimp only
    exact EntSame.trans (t := u.onEnt _) ⟨rfl, rfl, rfl, rfl, rfl⟩ (when_same ⟨rfl, rfl, rfl, rfl, rfl⟩)
  have h5 : ∀ b u, EntSame u (entCondition b u) := fun b u => by
    unfold entCondition
    dsimp only
    split
    · exact ⟨rfl, rfl, rfl, rfl, rfl⟩
    · exact ⟨rfl, rfl, rfl, rfl, rfl⟩
  have fe : ∀ {α : Type} (f : α → State → State) (_ : ∀ a u, EntSame u (f a u)) (xs : List α) (u : State), EntSame u (forEach xs f u) := by
    intro α f hf xs
    induction xs with
    | nil => exact fun u => entSame_self
    | cons a l ih => exact fun u => (hf a u).trans (ih (f a u))
  unfold entSample
  dsimp only
  generalize hb : entSource raw s = b
  have k : EntSame s (when (decide (1024 ≤ (forEach (List.finRange 28) (entLocked b) (forEach (List.finRange 8) (entAlive b) (entApt b (entRct b s)))).ent.n))
      (entCondition b) (forEach (List.finRange 28) (entLocked b) (forEach (List.finRange 8) (entAlive b) (entApt b (entRct b s))))) :=
    ((((h1 b s).trans (h2 b _)).trans (fe _ (h3 b) _ _)).trans (fe _ (h4 b) _ _)).trans (when_same (h5 b _))
  generalize when (decide (1024 ≤ _)) (entCondition b) _ = u at k ⊢
  have w : ∀ p : Bool, ∀ f : State → State, (∀ x : State, (f x).ent = x.ent) → ∀ x : State, (when p f x).ent = x.ent := fun p f hf x => by
    cases p with
    | true => exact hf x
    | false => rfl
  rw [w _ (fun s => s.setRbit rENT_STAT 2 s.ent.failed) (fun _ => rfl)]
  exact ⟨by unfold State.onEnt; dsimp only; rw [k.1], rfl, k.3, k.4, k.5⟩

theorem entSamples_spec (raws : List Byte) (s : State) : (forEach raws entSample s).ent.n = s.ent.n + raws.length ∧
    (forEach raws entSample s).ent.runFrom = s.ent.runFrom ∧ (forEach raws entSample s).ent.drbg = s.ent.drbg ∧
    (forEach raws entSample s).ent.regBuf = s.ent.regBuf := by
  induction raws generalizing s with
  | nil => exact ⟨rfl, rfl, rfl, rfl⟩
  | cons a l ih =>
    obtain ⟨i1, i2, i3, i4⟩ := ih (entSample a s)
    obtain ⟨e1, e2, e3, e4, e5⟩ := entSample_spec a s
    have hl : forEach (a :: l) entSample s = forEach l entSample (entSample a s) := by
      unfold forEach
      rw [List.foldl_cons]
    rw [hl]
    exact ⟨by rw [i1, e1, List.length_cons]; omega, i2.trans e3, i3.trans e4, i4.trans e5⟩

/-- A write of ENT_CTL with one bit set, by a writer that is allowed. -/
theorem entCtl_restart {who : Req} {s : State} (h : Writers.appKiln.permits who = true) : entCtl who 1 s = entAsk .restart s := by
  unfold entCtl
  have b3 : bit (1 : Word) 3 = false := by decide
  have b0 : bit (1 : Word) 0 = true := by decide
  have b1 : bit (1 : Word) 1 = false := by decide
  have b2 : bit (1 : Word) 2 = false := by decide
  rw [h, b0, b1, b2, b3]
  simp only [when, Bool.not_true, Bool.false_eq_true, if_false, if_true, Bool.false_and]

theorem entCtl_reseed {who : Req} {s : State} (h : Writers.appKiln.permits who = true) : entCtl who 2 s = entAsk .reseed s := by
  unfold entCtl
  have b3 : bit (2 : Word) 3 = false := by decide
  have b0 : bit (2 : Word) 0 = false := by decide
  have b1 : bit (2 : Word) 1 = true := by decide
  have b2 : bit (2 : Word) 2 = false := by decide
  rw [h, b0, b1, b2, b3]
  simp only [when, Bool.not_true, Bool.false_eq_true, if_false, if_true, Bool.false_and]

theorem entCtl_kat {who : Req} {s : State} (h : Writers.appKiln.permits who = true) : entCtl who 4 s = katStart none s := by
  unfold entCtl
  have b3 : bit (4 : Word) 3 = false := by decide
  have b0 : bit (4 : Word) 0 = false := by decide
  have b1 : bit (4 : Word) 1 = false := by decide
  have b2 : bit (4 : Word) 2 = true := by decide
  rw [h, b0, b1, b2, b3]
  simp only [when, Bool.not_true, Bool.false_eq_true, if_false, if_true, Bool.false_and]

theorem entCtl_clr {who : Req} {s : State} (h : Writers.appKiln.permits who = true) : entCtl who 8 s =
    when (who == .core 5) (fun s => (s.setReg rENT_HCNT0 0).setReg rENT_HCNT1 (s.reg rENT_HCNT1 &&& 0xFF000000)) s := by
  unfold entCtl
  have b3 : bit (8 : Word) 3 = true := by decide
  have b0 : bit (8 : Word) 0 = false := by decide
  have b1 : bit (8 : Word) 1 = false := by decide
  have b2 : bit (8 : Word) 2 = false := by decide
  rw [h, b0, b1, b2, b3]
  simp only [when, Bool.not_true, Bool.false_eq_true, if_false, Bool.true_and]

/-- The end of a known-answer test with nothing queued (R872). -/
theorem katEnd_spec {s : State} (pass : Bool) (h : s.ent.queued = []) : (katEnd pass s).ent = { s.ent with katFor := none } ∧
    (katEnd pass s).rbit rENT_STAT 4 = false ∧ (katEnd pass s).rbit rENT_STAT (if pass then 5 else 6) = true := by
  have e : katEnd pass s = ((s.setRbit rENT_STAT 4 false).setRbit rENT_STAT (if pass then 5 else 6) true).onEnt
      (fun e => { e with katFor := none, queued := [] }) := by
    unfold katEnd
    dsimp only
    rw [h]
    rfl
  rw [e]
  refine ⟨?_, ?_, ?_⟩
  · unfold State.onEnt
    dsimp only
    rw [← h]
    rfl
  · have : (((s.setRbit rENT_STAT 4 false).setRbit rENT_STAT (if pass then 5 else 6) true)).rbit rENT_STAT 4 = false := by
      rw [rbit_setRbit_bit _ _ _ _ _ (by cases pass <;> decide) (by cases pass <;> decide)]
      exact rbit_setRbit _ _ _ _ (by decide)
    exact this
  · have : (((s.setRbit rENT_STAT 4 false).setRbit rENT_STAT (if pass then 5 else 6) true)).rbit rENT_STAT (if pass then 5 else 6) = true :=
      rbit_setRbit _ _ _ _ (by cases pass <;> decide)
    exact this

/-- Outside FACTORY no pattern reaches the source (R875). -/
theorem entPattern_off (on : Bool) (pat : Word) {s : State} (hm : s.sys.mode ≠ .factory) : (entPattern on pat s).rbit rENT_CFG 0 = false := by
  unfold entPattern
  have e : (on && s.sys.mode == .factory) = false := by simp [hm]
  dsimp only
  rw [e]
  have u1 : (((s.setRbit rENT_CFG 0 false).setReg rENT_PAT pat).setRbit rENT_STAT 3 false).rbit rENT_CFG 0 = false := by
    refine (rbit_of_reg (reg_setRbit_ne _ _ _ _ (by decide)) 0).trans ?_
    refine (rbit_of_reg (reg_setReg_ne _ _ _ (by decide)) 0).trans ?_
    exact rbit_setRbit _ _ _ _ (by decide)
  generalize ((s.setRbit rENT_CFG 0 false).setReg rENT_PAT pat).setRbit rENT_STAT 3 false = u at u1 ⊢
  have u2 : (entRestart u).rbit rENT_CFG 0 = u.rbit rENT_CFG 0 := by
    unfold entRestart entRun
    dsimp only
    refine (rbit_of_reg (reg_setFld_ne _ _ _ _ _ (by decide)) 0).trans ?_
    refine (rbit_of_reg (reg_setRbit_ne _ _ _ _ (by decide)) 0).trans ?_
    exact rbit_of_reg (reg_setRbit_ne _ _ _ _ (by decide)) 0
  unfold when
  split
  · exact u2.trans u1
  · exact u1

theorem andThen_fail {α β : Type} (st re : Nat) (s : State) (f : α → State → KRes β) : (KRes.fail st re s : KRes α).andThen f = .fail st re s := rfl

theorem kcheck_false {p : Bool} (h : p = false) (st re : Nat) (s : State) : kcheck p st re s = .fail st re s := by
  unfold kcheck
  rw [h]
  rfl

/-- How an operation with ledger writes of its own ends (R1185). -/
theorem credOp_done {e op : Nat} {img : Bytes} {s t u : State} {st re v : Nat} (h : Serves e op img s t) {body : Bytes → State → KRes KEnd}
    (hb : body img t = .ok (.done st re v) u) : credOp e op body s = kick4 (kilnDone e st re v u) := by
  unfold credOp
  rw [kilnOp_done h hb]

theorem credOp_fail {e op : Nat} {img : Bytes} {s t u : State} {st re : Nat} (h : Serves e op img s t) {body : Bytes → State → KRes KEnd}
    (hb : body img t = .fail st re u) : credOp e op body s = kick4 (kilnDone e st re 0 u) := by
  unfold credOp
  rw [kilnOp_fail h hb]

theorem credOp_job {e op : Nat} {img : Bytes} {s t u : State} {j : Job} (h : Serves e op img s t) {body : Bytes → State → KRes KEnd}
    (hb : body img t = .ok (.job j) u) : credOp e op body s = kick4 { u with creds := { u.creds with jobs := u.creds.jobs ++ [j] } } := by
  unfold credOp
  rw [kilnOp_serves h, hb]

theorem credOp_later {e op : Nat} {img : Bytes} {s t u : State} (h : Serves e op img s t) {body : Bytes → State → KRes KEnd}
    (hb : body img t = .ok .later u) : credOp e op body s = kick4 u := by
  unfold credOp
  rw [kilnOp_serves h, hb]

theorem sessionOpen_ok {n : Nat} {s : State} (h : n ≤ 7 ∧ s.sys.active.getLsbD n = true) : sessionOpen n s = .ok () s :=
  kcheck_true (by rw [h.2, decide_eq_true h.1]; rfl) _ _ _

theorem inEnrol_ok {n : Nat} {s : State} {e : Enrol} (h : (s.ksess n).enrol = some e) : inEnrol n s = .ok e s := by
  unfold inEnrol
  rw [h]

theorem canArb_rest (n : Nat) (s : State) : ∃ w f, canArb n s = { s with net := w, front := f } := by
  unfold canArb
  dsimp only
  repeat' split
  all_goals first | exact ⟨s.net, s.front, rfl⟩ | exact ⟨_, _, rfl⟩

/-- Sending a partner frame changes the networks and counts an attempt, nothing else. -/
theorem sendPartner_rest (n : Nat) (id : Word) (bs : Bytes) (s : State) : ∃ w f, sendPartner n id bs s = { s with net := w, front := f } := by
  unfold sendPartner
  obtain ⟨w, f, h⟩ := canArb_rest n (s.onCan n (fun c => { c with tx1 := c.tx1 ++ [⟨partnerFrame id bs, 0⟩] }))
  exact ⟨w, f, h⟩

theorem sendPartner_same (n : Nat) (id : Word) (bs : Bytes) (s : State) : (sendPartner n id bs s).reg rSTART_COUNT = s.reg rSTART_COUNT ∧
    (sendPartner n id bs s).start.crank = s.start.crank ∧ (sendPartner n id bs s).sys = s.sys := by
  obtain ⟨w, f, h⟩ := sendPartner_rest n id bs s
  rw [h]
  exact ⟨rfl, rfl, rfl⟩

theorem endFlush_start (e : Nat) (s : State) : (endFlush e s).start = s.start := rfl

theorem kilnDone_start (e st re v : Nat) (s : State) : (kilnDone e st re v s).start = s.start := by
  unfold kilnDone kilnSend
  dsimp only
  have w : ∀ p : Bool, ∀ f : State → State, (∀ x : State, (f x).start = x.start) → ∀ x : State, (when p f x).start = x.start := fun p f hf x => by
    cases p with
    | true => exact hf x
    | false => rfl
  have fd : ∀ y : State, (firmwareDone e (doneW st re v) y).start = y.start := fun y => by
    unfold firmwareDone
    split
    · rw [endFlush_start, w _ _ (fun x => by obtain ⟨f, h⟩ := lateSuccess_front e x; rw [h])]
    · obtain ⟨c, h⟩ := portSend_spec (doneKey e) [(doneW st re v, false)] y
      rw [h]
  rw [fd, w _ (fun s => s.incFld rHASH_STAT 31 16) (fun _ => rfl), w _ (fun s => s.incFld rPKA_STAT 31 16) (fun _ => rfl)]

/-- A command of the START engine ends what its block runs. -/
theorem startDone_spec (st re v : Nat) (s : State) : (startDone st re v s).start.crank = none ∧ (startDone st re v s).start.roll = none ∧
    (startDone st re v s).start.mate = none := by
  unfold startDone
  rw [kilnDone_start]
  exact ⟨rfl, rfl, rfl⟩

/-- The ANSWER of a CRANK in time that does not release (R932, R936). -/
theorem crankAnswer_spec {c : CrankRun} {ch : Challenge} {s : State} (hc : s.start.crank = some c) (hh : c.chal = some ch)
    (ht : s.clk.tb ≤ answerBy ch) (hs : c.settle = none) (hv : verdict s ch = false) :
    (crankAnswer s).reg rSTART_COUNT = wd ((s.reg rSTART_COUNT).toNat + 1) ∧
    (crankAnswer s).start.crank = some { c with drawn := some (s.reg rSTART_COUNT).toNat, answered := some false } ∧ (crankAnswer s).sys = s.sys := by
  unfold crankAnswer
  rw [hc]
  dsimp only
  rw [hh]
  dsimp only
  rw [if_neg (by omega), hv, hs]
  unfold drawCount
  dsimp only
  rw [Bool.false_and, when_false rfl]
  generalize wd _ = y
  have u1 : (s.setReg rSTART_COUNT y).reg rSTART_COUNT = y := reg_setReg_self _ _ _
  have u2 : (s.setReg rSTART_COUNT y).sys = s.sys := rfl
  generalize (s.reg rSTART_COUNT).toNat = n
  generalize s.setReg rSTART_COUNT y = u at u1 u2 ⊢
  exact ⟨(sendPartner_same ..).1.trans u1, (sendPartner_same ..).2.1, (sendPartner_same ..).2.2.trans u2⟩

theorem crankTry_wait {s : State} {c : CrankRun} (hc : s.start.crank = some c)
    (h : s.start.chal = none ∨ ∃ ch, s.start.chal = some ch ∧ (ch.used = true ∨ ch.tick + msTicks 5 < c.dispatchedAt)) : crankTry s = s := by
  unfold crankTry
  rw [hc]
  rcases h with h | ⟨ch, h, hu⟩
  · rw [h]
  · rw [h]
    dsimp only
    rw [if_pos]
    rcases hu with hu | hu
    · rw [hu]; simp
    · rw [decide_eq_true hu]; simp

theorem crankTry_go {s : State} {c : CrankRun} {ch : Challenge} (hc : s.start.crank = some c) (hn : c.chal = none) (h : s.start.chal = some ch)
    (hu : ch.used = false) (ht : c.dispatchedAt ≤ ch.tick + msTicks 5) :
    crankTry s = match challengeKey (s.onStart (fun x => { x with chal := some { ch with used := true } })) ch.bytes with
      | none => replaced (s.onStart (fun x => { x with chal := some { ch with used := true } }))
      | some k => crankGo c ch k (s.onStart (fun x => { x with chal := some { ch with used := true } })) := by
  unfold crankTry
  rw [hc, h]
  dsimp only
  refine (if_neg ?_).trans rfl
  rw [hn, hu, decide_eq_false (Nat.not_lt.2 ht)]
  decide

theorem satPos_ok {img : Bytes} (h : imgKey img = 0 ∧ paramZero img [0] = true ∧ imgParam img 0 1 ≤ 7) (s : State) :
    satPos img s = .ok (imgParam img 0 1) s := by
  unfold satPos
  rw [noKey_zero h.1, andThen_ok, kcheck_true (by rw [h.2.1, decide_eq_true h.2.2]; rfl), andThen_ok]

theorem satReady_ok {s : State} (h : payload s 4 ≠ none ∧ payload s 5 ≠ none) : satReady s = .ok () s :=
  kcheck_true (by rw [Option.isSome_iff_ne_none.2 h.1, Option.isSome_iff_ne_none.2 h.2]; rfl) _ _ _

theorem satAsked_some {p : Nat} {s : State} {x : Bytes × Nat} (h : aget? s.creds.satAuth p = some x) :
    satAsked p s = .ok x { s with creds := { s.creds with satAuth := adel s.creds.satAuth p } } := by
  unfold satAsked
  rw [h]

theorem canCtl_onCan (n : Fin 4) (f : CanCtl → CanCtl) (s : State) : (s.onCan n.val f).canCtl n.val = f (s.canCtl n.val) := by
  have e : Fin.ofNat 4 n.val = n := Fin.ext (Nat.mod_eq_of_lt n.isLt)
  have m : n.val % 4 = n.val := Nat.mod_eq_of_lt n.isLt
  unfold State.onCan State.canCtl
  dsimp only
  simp only [e, m, Vector.get_eq_getElem, Vector.getElem_set_self]

theorem linRun_setLin (n : Fin 2) (r : Option LinRun) (s : State) : (s.setLin n.val r).linRun n.val = r := by
  have e : Fin.ofNat 2 n.val = n := Fin.ext (Nat.mod_eq_of_lt n.isLt)
  have m : n.val % 2 = n.val := Nat.mod_eq_of_lt n.isLt
  unfold State.setLin State.linRun
  dsimp only
  simp only [e, m, Vector.get_eq_getElem, Vector.getElem_set_self]

/-- A NET operation in order runs its body. -/
theorem netOp_serves {op : Nat} {img : Bytes} {s t : State} {body : Bytes → State → KRes KEnd} (h4 : 1 ≤ op ∧ op ≤ 4)
    (h : s.timed = true ∧ cmdImage 9 s = some img ∧ imgOp img = op ∧ t = cDrop (cmdKey 9) s) :
    netOp op body s = match body img t with
      | .wait => s
      | .fail st re t => netDone st re 0 t
      | .ok (.done st re v) t => netDone st re v t
      | .ok _ t => t := by
  obtain ⟨h1, h2, h3, rfl⟩ := h
  unfold netOp
  have e : (!(decide (1 ≤ imgOp img) && decide (imgOp img ≤ 4))) = false := by
    rw [h3, decide_eq_true h4.1, decide_eq_true h4.2]; rfl
  rw [h1, h2]
  dsimp only
  rw [e, h3]
  simp only [bne_self_eq_false, Bool.and_false, Bool.false_or, Bool.false_eq_true, if_false, Bool.not_true]
  refine (if_neg (by decide)).trans ?_
  cases body img (cDrop (cmdKey 9) s) with
  | ok k t => cases k <;> rfl
  | fail st re t => rfl
  | wait => rfl

theorem netOp_fail {op st re : Nat} {img : Bytes} {s t u : State} {body : Bytes → State → KRes KEnd} (h4 : 1 ≤ op ∧ op ≤ 4)
    (h : s.timed = true ∧ cmdImage 9 s = some img ∧ imgOp img = op ∧ t = cDrop (cmdKey 9) s) (hb : body img t = .fail st re u) :
    netOp op body s = netDone st re 0 u := by
  rw [netOp_serves h4 h, hb]

theorem netOp_later {op : Nat} {img : Bytes} {s t u : State} {body : Bytes → State → KRes KEnd} (h4 : 1 ≤ op ∧ op ≤ 4)
    (h : s.timed = true ∧ cmdImage 9 s = some img ∧ imgOp img = op ∧ t = cDrop (cmdKey 9) s) (hb : body img t = .ok .later u) :
    netOp op body s = u := by
  rw [netOp_serves h4 h, hb]

theorem netOp_done {op st re k : Nat} {img : Bytes} {s t u : State} {body : Bytes → State → KRes KEnd} (h4 : 1 ≤ op ∧ op ≤ 4)
    (h : s.timed = true ∧ cmdImage 9 s = some img ∧ imgOp img = op ∧ t = cDrop (cmdKey 9) s) (hb : body img t = .ok (.done st re k) u) :
    netOp op body s = netDone st re k u := by
  rw [netOp_serves h4 h, hb]

theorem attempt_net (e : Nat) (s : State) : (attempt e s).net = s.net := rfl

theorem event_net (evt ie rreg rlo ev : Nat) {b : Nat} (hb : b < 32) (s : State) :
    (blockEvent evt ie rreg rlo ev b s).net = s.net ∧ (blockEvent evt ie rreg rlo ev b s).rbit evt b = true := by
  obtain ⟨⟨rg, cs, f⟩, f1, f2, -⟩ := blockEvent_form evt ie rreg rlo ev hb s
  exact ⟨by rw [f], f2⟩

theorem posReg_ne_cfg (p : Nat) : rADIT_CFG ≠ posReg p := by unfold rADIT_CFG posReg rADIT_POS; omega

/-- An event of the PCIe copy while the link is down: its vector is lost. -/
theorem hostEvent_down (b : Nat) (u : State) (h : u.host.linkUp = false) : ∃ rg, hostEvent b .pcie u = { u with regs := rg } := by
  have key : ∀ (v : Nat) (x : State), x.host.linkUp = false → raiseVector .pcie v x = x := by
    intro v x hx
    unfold raiseVector
    dsimp only
    rw [hx]
    simp
  unfold hostEvent
  cases (!u.hostActive .pcie || u.rbit (hostKey .pcie rHOSTIF_EVT) b) with
  | true => exact ⟨u.regs, rfl⟩
  | false =>
    rw [if_neg (by decide)]
    dsimp only
    unfold when
    cases ((u.setRbit (hostKey .pcie rHOSTIF_EVT) b true).rbit (hostKey .pcie rHOSTIF_IVEC) 16) with
    | true =>
      rw [if_pos rfl, key _ (u.setRbit (hostKey .pcie rHOSTIF_EVT) b true) h]
      exact ⟨_, rfl⟩
    | false =>
      rw [if_neg (by decide)]
      exact ⟨_, rfl⟩

end Sys2Proof.Machine
end

