-- ==== Sys2Proof/Machine/Words.lean ====
section
/-! DEFINITION. The words of the cores: how a 32-bit word picks its instruction (R152 to R158) and what a core does with a word
that picks none. The commands carry the fields of an instruction; `decodeWord` takes a word apart into them. -/
namespace Sys2Proof.Machine

/-! ### Fields (R153, R154) -/

/-- The register number that starts at bit n. -/
def regAt (w : Word) (n : Nat) : Fin 16 := Fin.ofNat 16 (bits w (n + 3) n)

abbrev FormA := Fin 6 → Fin 16 → Fin 16 → Fin 16 → BitVec 7 → Bool → Instr
abbrev FormI := Fin 6 → Fin 16 → Fin 16 → BitVec 12 → BitVec 5 → Bool → Instr
abbrev FormI16 := Fin 6 → Fin 16 → BitVec 16 → BitVec 5 → Bool → Instr
abbrev FormM := Fin 6 → Fin 16 → Fin 16 → BitVec 12 → BitVec 6 → Instr
abbrev FormJ := Fin 6 → BitVec 24 → BitVec 2 → Instr
abbrev FormC := Fin 6 → Fin 16 → Fin 16 → BitVec 10 → BitVec 8 → Instr
abbrev FormS := Fin 6 → Fin 16 → Fin 16 → BitVec 12 → Instr

def readA (k : FormA) (c : Fin 6) (w : Word) : Instr :=
  k c (regAt w 22) (regAt w 18) (regAt w 14) (w.extractLsb' 1 7) (bit w 0)
def readI (k : FormI) (c : Fin 6) (w : Word) : Instr :=
  k c (regAt w 22) (regAt w 18) (w.extractLsb' 6 12) (w.extractLsb' 1 5) (bit w 0)
def readI16 (k : FormI16) (c : Fin 6) (w : Word) : Instr :=
  k c (regAt w 22) (w.extractLsb' 6 16) (w.extractLsb' 1 5) (bit w 0)
def readM (k : FormM) (c : Fin 6) (w : Word) : Instr :=
  k c (regAt w 22) (regAt w 18) (w.extractLsb' 6 12) (w.extractLsb' 0 6)
def readJ (k : FormJ) (c : Fin 6) (w : Word) : Instr := k c (w.extractLsb' 2 24) (w.extractLsb' 0 2)
def readC (k : FormC) (c : Fin 6) (w : Word) : Instr :=
  k c (regAt w 22) (regAt w 18) (w.extractLsb' 8 10) (w.extractLsb' 0 8)
def readS (k : FormS) (c : Fin 6) (w : Word) : Instr := k c (regAt w 22) (regAt w 18) (w.extractLsb' 0 12)

/-! ### Functions (R158) -/

/-- The functions of ALU, from 0x00 (R161). -/
def aluForms : List FormA :=
  [.add, .sub, .adc, .sbc, .and, .or, .xor, .andn, .shl, .shr, .sar, .ror, .slt, .sltu, .clz, .sexb, .sexh]

/-- The functions of MULDIV, from 0x00 (R162). -/
def mulForms : List FormA := [.mul, .mulh, .mulhu, .div, .divu, .rem, .remu]

/-- The functions of ATOM, from 0x00 (R173). -/
def atomForms : List FormA := [.swp, .cas, .fadd]

/-- The functions of SYS; 0x06, 0x07 and 0x0A to 0x3F are undefined. -/
def sysForm (fn : Nat) : Option FormS :=
  match fn with
  | 0x00 => some .fence
  | 0x01 => some .crd
  | 0x02 => some .cwr
  | 0x03 => some .eret
  | 0x04 => some .trap
  | 0x05 => some .bank
  | 0x08 => some .rdf
  | 0x09 => some .wrf
  | _ => none

/-! ### Majors (R157) -/

/-- The majors of formats I, M, B and J. -/
def baseMajor (c : Fin 6) (w : Word) (major : Nat) : Option Instr :=
  match major with
  | 0x08 => some (readI .addi c w)
  | 0x09 => some (readI .andi c w)
  | 0x0A => some (readI .ori c w)
  | 0x0B => some (readI .xori c w)
  | 0x0C => some (readI .shli c w)
  | 0x0D => some (readI .shri c w)
  | 0x0E => some (readI .sari c w)
  | 0x0F => some (readI .rori c w)
  | 0x10 => some (readI .slti c w)
  | 0x11 => some (readI .sltui c w)
  | 0x12 => some (readI16 .movu c w)
  | 0x13 => some (readI16 .orl c w)
  | 0x14 => some (readI .subi c w)
  | 0x15 => some (readI16 .adpc c w)
  | 0x18 => some (readM .ldw c w)
  | 0x19 => some (readM .ldh c w)
  | 0x1A => some (readM .ldhu c w)
  | 0x1B => some (readM .ldb c w)
  | 0x1C => some (readM .ldbu c w)
  | 0x1D => some (readM .stw c w)
  | 0x1E => some (readM .sth c w)
  | 0x1F => some (readM .stb c w)
  | 0x20 => some (.bc c (w.extractLsb' 22 4) (w.extractLsb' 16 6) (w.extractLsb' 0 16))
  | 0x21 => some (.bz c (regAt w 22) (w.extractLsb' 16 6) (w.extractLsb' 0 16))
  | 0x22 => some (.bnz c (regAt w 22) (w.extractLsb' 16 6) (w.extractLsb' 0 16))
  | 0x24 => some (readJ .jmp c w)
  | 0x25 => some (readJ .call c w)
  | _ => none

/-- The majors of format C. -/
def chanMajor (major : Nat) : Option FormC :=
  match major with
  | 0x28 => some .snd
  | 0x29 => some .rcv
  | 0x2A => some .sndt
  | 0x2B => some .rcvt
  | 0x2C => some .peek
  | 0x2D => some .waite
  | 0x2E => some .sig
  | 0x30 => some .tat
  | 0x31 => some .tin
  | 0x32 => some .tmark
  | 0x34 => some .kld
  | 0x35 => some .kst
  | 0x36 => some .kzap
  | _ => none

/-- The instruction that a word picks by its major opcode, bits [31:26], and its function; none where either is undefined. -/
def decodeWord (c : Fin 6) (w : Word) : Option Instr :=
  let fn := bits w 13 8
  match bits w 31 26 with
  | 0x01 => (aluForms[fn]?).map (fun k => readA k c w)
  | 0x02 => (mulForms[fn]?).map (fun k => readA k c w)
  | 0x03 => some (.jrl c (regAt w 22) (regAt w 18) (regAt w 14) (w.extractLsb' 8 6) (w.extractLsb' 1 7) (bit w 0))
  | 0x04 => (atomForms[fn]?).map (fun k => readA k c w)
  | 0x3C => (sysForm (bits w 17 12)).map (fun k => readS k c w)
  | m => (baseMajor c w m).or ((chanMajor m).map (fun k => readC k c w))

/-- A core runs a word: the instruction that it picks, or ILLEGAL with the word in cbad (R156). -/
def runWord (c : Fin 6) (w : Word) (s : State) : Out :=
  match decodeWord c w with
  | some i => exec i s
  | none => instruction c w false id s

end Sys2Proof.Machine
end

