-- ==== Sys2Proof/WellFormed.lean ====
section
/-! DEFINITION. The bounds that the spec sets on the operands of a command and that their types do not: a command outside
them is one that no sender can send. -/
namespace Sys2Proof

/-- The engines of R440, CORE of target n being 0x10 + n. -/
def engineOk (e : Nat) : Bool := (2 ≤ e && e ≤ 12) || (0x11 ≤ e && e ≤ 0x13)

/-- The data of a CAN FD frame. -/
def canFd (frame : List Byte) : Bool := frame.length ≤ 64

/-- The words of one serial WRITE (R1047). -/
def wordsOk (ws : List Word) : Bool := decide (1 ≤ ws.length) && ws.length ≤ 256

def reqOk (r : Option Serial) : Bool :=
  match r with
  | some (.write _ ws) => wordsOk ws
  | _ => true

/-- A PCIe request: reads of up to 512 bytes, writes of up to 256 (R1040). -/
def pcieOk (len : Nat) (write : Option (List Byte)) : Bool :=
  match write with
  | none => decide (1 ≤ len) && len ≤ 512
  | some bs => decide (1 ≤ len) && len ≤ 256 && bs.length == len

/-- A command that a sender can send. -/
def wellFormed (i : Instr) : Bool :=
  match i with
  | .samplePreload cells => cells.length == 84
  | .extest cells => cells.length == 84
  | .engineGrant engine => engineOk engine
  | .doneWord engine => engineOk engine
  | .hang engine => engineOk engine
  | .capScan low high => low.length == 4 && high.length == 4
  | .nfcResponse began ended status _ _ response =>
    decide (began ≤ ended) && status.val != 1 && status.val != 4 && response.length ≤ 258
  | .challenge frame => canFd frame
  | .mateReply frame => canFd frame
  | .mateConfirm frame => canFd frame
  | .rollAck frame => canFd frame
  | .canReceive _ _ _ _ data _ _ => data.length ≤ 2048
  | .uhfFrame _ _ frame _ _ => decide (1 ≤ frame.length)
  | .linFrameEnd _ response _ => response.length ≤ 9
  | .ethReceive _ frame _ _ _ => decide (14 ≤ frame.length)
  | .serialWrite _ _ _ words _ _ => wordsOk words
  | .pcieAccess _ len write => pcieOk len write
  | .pending _ req => reqOk req
  | .spiCut _ req => reqOk req
  | .supplyInvalid .. | .supplyValid .. | .alwaysOnPowerUp | .alwaysOnLoss | .pinReset | .softwareReset ..
  | .watchdog | .watchdogEnable .. | .kick .. | .scanStall | .tbLockLoss | .tbLock | .tbRelock | .resetEnterScan ..
  | .ledgerScanDone | .imageChosen | .kilnJudgement | .modeReqParked .. | .modeReqAccess .. | .modeReqLockdown ..
  | .sessionClose .. | .sessionOpen .. | .approachTimeout | .grantExpiry .. | .serviceEnd | .modeRecordWrite
  | .commitWordVerified .. | .unitWriteDone .. | .quenchBallFall | .quenchBallRise | .quenchRequest ..
  | .coherentStop | .quench .. | .thaw .. | .thawResume | .bypass .. | .idcode | .status | .sel .. | .chain
  | .addr .. | .sram | .reg .. | .trstNLow | .tamper | .bank .. | .t05 | .completionOfEntry | .wakeEvent | .rtcWake
  | .hwake | .wakeComplete | .sramInitDone | .vcoreTargetWrite .. | .buckStep | .vcoreSettled | .tbNowLo ..
  | .rtcNowLo .. | .timerCompare .. | .interrupt .. | .add .. | .sub .. | .adc .. | .sbc .. | .and .. | .or ..
  | .xor .. | .andn .. | .shl .. | .shr .. | .sar .. | .ror .. | .slt .. | .sltu .. | .clz .. | .sexb .. | .sexh ..
  | .mul .. | .mulh .. | .mulhu .. | .div .. | .divu .. | .rem .. | .remu .. | .addi .. | .andi .. | .ori ..
  | .xori .. | .shli .. | .shri .. | .sari .. | .rori .. | .slti .. | .sltui .. | .movu .. | .orl .. | .subi ..
  | .adpc .. | .ldw .. | .ldh .. | .ldhu .. | .ldb .. | .ldbu .. | .stw .. | .sth .. | .stb .. | .swp .. | .cas ..
  | .fadd .. | .bc .. | .bz .. | .bnz .. | .jmp .. | .call .. | .jrl .. | .fence .. | .rdf .. | .wrf .. | .crd ..
  | .cwr .. | .eret .. | .trap .. | .snd .. | .sndUnblock .. | .rcv .. | .rcvUnblock .. | .sndt .. | .rcvt ..
  | .peek .. | .waite .. | .waiteUnblock .. | .sig .. | .tat .. | .tatUnblock .. | .tatApply .. | .tin .. | .tmark ..
  | .tmarkRelease .. | .kld .. | .kst .. | .kzap .. | .flushD .. | .invI .. | .scrub .. | .xlateInvPage ..
  | .xlateInvContext .. | .xlateInvAll .. | .xlateInvDone | .program .. | .erase .. | .suspend .. | .flashResume ..
  | .flashDone .. | .rescan .. | .readCopy | .writeCopy | .unitWrite | .ledgerRead | .ledgerWrite | .writeIf
  | .ledgerErase | .quickWrite | .raise | .qCreate .. | .qDestroy .. | .qStop .. | .qStart .. | .qBind ..
  | .qQuery .. | .bReg .. | .bUnreg .. | .eAlloc .. | .eFree .. | .eQuery .. | .resume .. | .doorbell ..
  | .descriptorFetch .. | .dispatch .. | .endAtFrontEnd .. | .sliceEnd .. | .waitTmo .. | .timeout .. | .adcStart ..
  | .adcStop .. | .adcInject .. | .adcTrig .. | .adcResult .. | .converged | .adcCalRestart .. | .fieldStart
  | .fieldStop | .carrier | .underrun | .maxon | .telegramEnd | .measurementWindow .. | .short .. | .vbatLow ..
  | .loadRbe | .loadSts | .loadExpired | .rbe | .round | .lfZone | .rangeStop | .cal | .rangeResult ..
  | .hciTxd .. | .hciPacket | .muporSetBankAdvertising | .rxpop .. | .resync .. | .bleRxPacket .. | .bleWake ..
  | .fieldOn | .fieldOff | .tx | .nfcStop | .noResponse | .kattrWrite .. | .encrypt | .decrypt | .update | .save
  | .restore | .free | .genkey | .unwrapKey | .wrapKey | .derive | .zap | .fuseRead | .fuseWrite .. | .fuseClose ..
  | .sign | .verify | .ecdh | .genkeyEc | .pubkey | .attest | .sha256 | .hmac | .hmacVerify | .random | .entKat
  | .entPattern | .credNonce | .credVerify | .ticketOpen | .vmac | .tokenNonce | .token | .revoke | .enrolBegin
  | .enrolOrigin | .enrolKey | .enrolCommit | .credErase | .mateVehicle | .trustSet | .satAuthReq | .satAuthCheck
  | .satMateOffer | .satMateKey | .satMateConfirm | .satRoll | .satRollConfirm | .crank | .mateEngine | .rollEngine
  | .crankDeadline | .mateFrameTimeout | .rollRepeat | .rollTimeout | .presenceSupervision | .holdOffEnd ..
  | .vehicleTimeWrite | .rawSampleBlock .. | .drbgInstantiate | .generate | .reseed .. | .restart .. | .clrCnt ..
  | .kat .. | .katComplete .. | .entData .. | .canSend | .linMaster | .ethSend | .rxTake | .canFrameEnd ..
  | .busOffRecovery .. | .recover .. | .linBreakStart .. | .dominant .. | .wakeRx .. | .ethEgressDone .. | .ageing
  | .linkChange .. | .heartbeat .. | .aditReply .. | .attemptFailed | .probe .. | .rebindExpiry .. | .rebind ..
  | .bind .. | .untrust .. | .release .. | .aditSend | .enum | .auth | .aditMate | .aditRoll | .aditWake
  | .serialRead .. | .rescueInstall .. | .perstN | .pcieLinkChange .. | .uartErr | .registerWrite .. | .rawSample ..
  | .suspendTakesEffect | .rtcOscillatorRuns | .fieldOnTakesEffect | .deferredTxStart => true

end Sys2Proof
end

