-- ==== Sys2Proof/Tests/Slice0.lean ====
section
/-! SUPPORT. Tests of the model: what WellFormed refuses, small examples of the specification, and states that meet the
hypotheses of the statements. -/
namespace Sys2Proof.Tests

open Sys2Proof Sys2Proof.Machine

/-! ### WellFormed refuses what no sender can send -/

theorem test_samplePreload_refused : wellFormed (.samplePreload []) = false := by decide
theorem test_extest_refused : wellFormed (.extest [true]) = false := by decide
theorem test_engineGrant_refused : wellFormed (.engineGrant 1) = false := by decide
theorem test_doneWord_refused : wellFormed (.doneWord 13) = false := by decide
theorem test_hang_refused : wellFormed (.hang 0x14) = false := by decide
theorem test_capScan_refused : wellFormed (.capScan [0, 0, 0, 0] []) = false := by decide
theorem test_nfcResponse_refused : wellFormed (.nfcResponse 2 1 0 0 0 []) = false := by decide
theorem test_challenge_refused : wellFormed (.challenge (List.replicate 65 0)) = false := by decide
theorem test_mateReply_refused : wellFormed (.mateReply (List.replicate 65 0)) = false := by decide
theorem test_mateConfirm_refused : wellFormed (.mateConfirm (List.replicate 65 0)) = false := by decide
theorem test_rollAck_refused : wellFormed (.rollAck (List.replicate 65 0)) = false := by decide
theorem test_linFrameEnd_refused : wellFormed (.linFrameEnd 0 (List.replicate 10 0) false) = false := by decide
theorem test_ethReceive_refused : wellFormed (.ethReceive 0 [] 0 0 0) = false := by decide
theorem test_uhfFrame_refused : wellFormed (.uhfFrame 0 0 [] 0 0) = false := by decide
theorem test_serialWrite_refused : wellFormed (.serialWrite false false 0 [] 0 0) = false := by decide
theorem test_pending_refused : wellFormed (.pending false (some (.write 0 []))) = false := by decide
theorem test_spiCut_refused : wellFormed (.spiCut false (some (.write 0 []))) = false := by decide
theorem test_pcieAccess_read_refused : wellFormed (.pcieAccess (.bar0 0) 0 none) = false := by decide
theorem test_pcieAccess_write_refused : wellFormed (.pcieAccess (.bar0 0) 2 (some [0])) = false := by decide
theorem test_canReceive_refused : wellFormed (.canReceive 0 0 0 0 (List.replicate 2049 0) 0 true) = false := by
  simp only [wellFormed, List.length_replicate]; decide
theorem test_engineGrant_accepted : wellFormed (.engineGrant 0x11) = true := by decide

/-! ### States that meet the hypotheses of the statements -/

-- The theorems below are checked one after another: all at once they ask for more threads than the build has memory for.
set_option Elab.async false

/-- The device after SCAN, in a mode, with the ledger's scan and the clearing of memory ended. -/
def on (m : Mode) : State :=
  let s := State.reset
  { s with
    sys := { s.sys with mode := m }
    led := { s.led with scanFrom := none }
    mem := { s.mem with clearing := none } }

/-- Core c before an instruction in the boot ROM, but for some of its fields. -/
def core (c : Fin 6) (f : Core → Core) (s : State) : State := s.setCore c (f { s.cores.get c with run := .running, pc := 0 })

def gets (r : Fin 16) (v : Word) (k : Core) : Core := k.put r v
def handles (k : Core) : Core := { k with cstat := 1 }

theorem on_inv : Inv (on .parked) where
  mem := by decide
  regs := by decide
  cores := by decide
  chans := by decide
  caches := ⟨fun c l h => absurd h (by fin_cases c <;> exact List.not_mem_nil), fun c => by fin_cases c <;> exact ⟨List.nodup_nil, fun l h => absurd h List.not_mem_nil⟩,
    fun c l h => absurd h (by fin_cases c <;> exact List.not_mem_nil)⟩
  fuses := by decide

theorem wit_StepRunsFront : ({ on .parked with pending := [.idcode] }).pending = .idcode :: [] := rfl
theorem wit_IdleStep : (on .parked).pending = [] ∧ State.reset.up = false ∧ State.reset.clk.frac + 64 < 121875 := by decide
theorem wit_StepKeepsInv : Inv (on .parked) ∧ ∃ t, step (on .parked) = .next t := ⟨on_inv, _, rfl⟩
theorem wit_CommandKeepsQueue : ∃ t, exec .idcode (on .parked) = .next t := ⟨_, rfl⟩
theorem wit_FetchFrame : Inv (on .parked) ∧ Fetches 0 (core 0 id (on .parked)) (core 0 id (on .parked)) :=
  ⟨on_inv, by decide, by decide, by decide, by decide, [], rfl⟩
/-- Core 5 before an instruction; core 4, the field core; the words of a division by 0 and of the overflow. -/
theorem wit_fetches : Fetches 5 (core 5 id (on .parked)) (core 5 id (on .parked)) ∧ Fetches 4 (core 4 id (on .parked)) (core 4 id (on .parked)) :=
  ⟨⟨by decide, by decide, by decide, by decide, [], rfl⟩, by decide, by decide, by decide, by decide, [], rfl⟩
theorem wit_MulDivResults : let s := core 1 (fun k => gets 3 (-1) (gets 2 0x80000000 k)) (on .parked)
    Fetches 1 s s ∧ (s.cores.get 1).get 1 = 0 ∧ (s.cores.get 1).get 2 = 0x80000000 ∧ (s.cores.get 1).get 3 = 0xFFFFFFFF :=
  ⟨⟨by decide, by decide, by decide, by decide, [], rfl⟩, by decide⟩
theorem wit_IllegalRaises : coreInstr (.add 0 1 2 3 1 false) = some (0, encA 1 1 2 3 0 1 false, false) ∧
    coreInstr (.tmark 1 0 0 0 0) = some (1, encC 0x32 0 0 0 0, false) ∧ ((core 0 id (on .parked)).cores.get 0).plain = true := by decide
theorem wit_FetchRefusedRaises : let s := core 1 (fun k => { k with pc := 0x40000000 }) (on .parked)
    s.coreUp 1 = true ∧ (s.cores.get 1).run = .running ∧ (s.cores.get 1).due = 0 ∧
    fetchable 1 (s.cores.get 1).pc.toNat = false ∧ (s.cores.get 1).plain = true := by decide
theorem wit_DoubleFaultEffect : let s := core 4 handles (on .parked)
    Fetches 4 s s ∧ (s.cores.get 4).plain = false ∧ s.lf.run = none ∧ (∀ e ∈ servedBy 4, s.dispatched e = none) ∧ s.front.queues = [] :=
  ⟨⟨by decide, by decide, by decide, by decide, [], rfl⟩, by decide⟩
theorem wit_InterruptTaken : let s := core 2 (fun k => { k with cstat := 0x00200004, e := 0x30, run := .blocked (.rcv 3 1) }) (on .parked)
    s.coreUp 2 = true ∧ bit (s.cores.get 2).cstat 2 = true ∧ bit (s.cores.get 2).e 5 = true ∧ bit (s.cores.get 2).cstat 21 = true ∧
    bit (s.cores.get 2).cstat 20 = false := by decide
/-- Branches forward, and back out of the boot ROM; a register jump to an address of two bytes. -/
theorem wit_Branches : let k := (core 0 (gets 1 2) (on .parked)).cores.get 0
    fetchable 0 (k.pc + BitVec.ofInt 32 (4 * (1 : BitVec 16).toInt)).toNat = true ∧
    fetchable 0 (k.pc + BitVec.ofInt 32 (4 * (0xFFFF : BitVec 16).toInt)).toNat = false ∧
    fetchable 0 (k.pc + BitVec.ofInt 32 (4 * (0x800000 : BitVec 24).toInt)).toNat = false ∧ (k.get 1).toNat % 4 = 2 ∧
    (k.get 2).toNat % 4 = 0 ∧ fetchable 0 (k.get 2).toNat = true ∧ k.plain = true := by decide
theorem wit_SysResults : let s := core 0 (fun k => gets 1 (-1) { k with cstat := 0x10 }) (on .parked)
    Fetches 0 s s ∧ ((s.cores.get 0).get 1 - wd s.clk.tb).toInt < 0 ∧ ¬ ((s.cores.get 0).get 2 - wd s.clk.tb).toInt < 0 ∧
    fetchable 0 (s.cores.get 0).cepc.toNat = true ∧ (s.cores.get 0).plain = true :=
  ⟨⟨by decide, by decide, by decide, by decide, [], rfl⟩, by decide⟩

/-- Every other core is banked; the word that asks the Kiln runtime for its BANK waits in its mailbox. -/
def banking (m : Mode) : State :=
  [1, 2, 3, 4].foldl (fun s c => s.setCore c { s.cores.get c with run := .banked }) ((on m).setCore 5 { (on m).cores.get 5 with run := .banked })
def asked : State := core 5 id ((on .parked).setChan (mailKey 0 5) ⟨[⟨0x42414E4B, false, 0, 0⟩], [], none⟩)

def timing : State := core 0 (fun k => { k with cstat := 0x10 }) (on .parked)
def last : State := core 0 id (banking .parked)

theorem wit_TimerCompare : timing.live = true ∧ bit (timing.cores.get 0).cstat 4 = true ∧ ((timing.cores.get 0).cmp - wd timing.clk.tb).toInt ≤ 0 := by decide
theorem wit_TimerAndBank : Fetches 0 last last ∧ Fetches 5 asked asked ∧ last.sys.active = 0 ∧ (∀ g : Fin 8, (last.cage g).disp = none) ∧
    (∀ c : Fin 6, c ≠ 0 → (last.cores.get c).run = .banked) ∧ bankAsked asked = true ∧ kilnIdle asked = true :=
  ⟨⟨by decide, by decide, by decide, by decide, [], rfl⟩, ⟨by decide, by decide, by decide, by decide, [], rfl⟩, by decide⟩

/-- Core 1 with the address of the last word of shared SRAM in g2, and one that is not aligned in g3. -/
def storing : State := core 1 (fun k => gets 3 0x20000003 (gets 2 0x207FFFFC (gets 4 0x40000000 k))) (on .parked)

theorem wit_LoadResults : Fetches 1 storing storing ∧ ∃ u, load 1 0x207FFFFC 4 storing = (.ok (List.replicate 4 0), u) :=
  ⟨⟨by decide, by decide, by decide, by decide, [], rfl⟩, storing, by decide⟩
theorem wit_StoreResults : Inv (on .parked) ∧ normalStore 1 0x207FFFFC = true ∧ storing.mem.clearing = none ∧
    (∀ d, ∀ l ∈ storing.lines d, l.bad = false) ∧ ∃ b u, store 1 0x207FFFFC [1, 2, 3, 4] storing = (.ok b, u) :=
  ⟨on_inv, by decide, rfl, by decide, _, _, rfl⟩
theorem wit_AccessFaults : (storing.cores.get 1).plain = true ∧ ((storing.cores.get 1).get 3).toNat % 2 = 1 ∧
    normalStore 1 0 = false ∧ normalLoad 1 0x28000000 = false ∧ inLedger 0x28000000 = false ∧
    (inControl 0x28000000 || inOutbound 0x28000000 || inPrivate 0x28000000) = false := by decide
theorem wit_AtomicResults : ∃ v, coreRead 1 0x207FFFFC 4 storing = (.ok (List.replicate 4 0), v) := ⟨storing, by decide⟩

/-- A full channel to the ledger port, and a write that collects its words. -/
def word (w : Word) : ChWord := ⟨w, false, 0, 0⟩
def ports (k : Nat) (ws : List Word) (s : State) : State := s.setChan k ⟨ws.map word, [], none⟩
def collects : State := { on .parked with led := { (on .parked).led with collecting := some (2, 64, []) } }

theorem wit_SendResults : sendFault 5 0x52 = none ∧ sendFault 0 0 = some 1 ∧ sendFault 5 0x53 = some 2 ∧ (on .parked).flushes 5 0x52 = false ∧
    ((on .parked).chan 0x52).q.length < 4 ∧ ¬ ((ports 0x52 [0, 0, 0, 0] (on .parked)).chan 0x52).q.length < 4 ∧ collects.led.collecting ≠ none ∧
    ({ on .parked with chans := { (on .parked).chans with flushed := [5] } }).flushes 5 0x52 = true := by decide
theorem wit_ReceiveResults : recvFault 5 0x53 = none ∧ recvFault 5 0x52 = some 2 ∧ ((ports 0x53 [7] (on .parked)).chan (recvKey 5 0x53)).q = [word 7] ∧
    (∀ e, chanEngine 5 0x53 = some e → (on .parked).flushed e = false) ∧ portOf 5 0x53 = some .recv ∧ portOf 5 0x52 = some .send ∧
    isCmd 0x50 = true ∧ chanEngine 5 0x50 = some 5 := by decide
theorem wit_EventResults : let s := core 0 (fun k => gets 1 0x30 { k with e := 0x10 }) (on .parked)
    Fetches 0 s s ∧ (s.cores.get 0).e &&& ((s.cores.get 0).get 1).setWidth 16 ≠ 0 ∧ (s.cores.get 0).e &&& 0x20 = 0 :=
  ⟨⟨by decide, by decide, by decide, by decide, [], rfl⟩, by decide⟩
def timedWord : TimedWord := ⟨0x10000000, false, 5, true, 0⟩
def applies : State := { on .parked with chans := { (on .parked).chans with timed := [(0x64, [timedWord])] }, clk := { (on .parked).clk with tb := 9 } }

theorem wit_TimedResults : (portOf 4 0x64).isSome = true ∧ tatPort 0x64 = true ∧ (on .parked).flushes 4 0x64 = false ∧ ((on .parked).timedQ 0x64).length < 4 ∧
    (portOf 4 0x65).isSome = true ∧ tinPort 0x65 = true ∧ applies.live = true ∧ firstDue applies.clk.tb (applies.timedQ 0x64) = some timedWord ∧
    discards 0x64 timedWord.w = false ∧ (applies.chan 0x64).q.length < 4 := by decide
/-- Slot 40 holds an AES key of generation 1 with the uses of CIPHER; slot 41 is empty. -/
def keyed : State := core 5 (fun k => gets 1 (64 + 40) (gets 2 (64 + 41) k)) ((on .parked).setSlot 40 ⟨some (List.replicate 16 0), 1, 0, 0, 3⟩
  |>.setSlot 41 ⟨none, 1, 0, 0, 0⟩)
theorem wit_KeyInstructions : Fetches 5 keyed keyed ∧ ((keyed.cores.get 5).get 1).toNat / 64 = (keyed.slot 40).gen ∧
    (keyed.slot 40).key = some (List.replicate 16 0) ∧ Nat.land (keyed.slot 40).use 0x23F ≠ 0 ∧ (keyed.slot 41).key = none ∧
    aget? ({ keyed with kiln := { keyed.kiln with kout := [(0x28, List.replicate 32 0)] } }).kiln.kout 0x28 ≠ none :=
  ⟨⟨by decide, by decide, by decide, by decide, [], rfl⟩, by decide⟩
/-! #### Supplies, resets and modes -/

def powered (m : Mode) (p : Pwr → Pwr) : State := { on m with pwr := p (on m).pwr }

theorem wit_SupplyResults : (powered .off (fun p => { p with valid := 0b0111 })).pwr.valid ||| 8 = 0b1111 ∧
    (on .off).pwr.aon = true ∧ (on .off).clk.rtcRuns = true ∧ (on .off).pwr.resetReq = none ∧ (on .off).sys.mode = .off ∧
    (powered .off (fun p => { p with aon := false })).pwr.aon = false ∧ ({ on .off with clk := { (on .off).clk with rtcRuns := false } }).clk.rtcRuns = false := by
  decide

def held (r : ResetReq) : State := powered .parked (fun p => { p with resetReq := some r })
def unlocked : State := { on .parked with clk := { (on .parked).clk with running := false, unlockedAt := some 29 } }

theorem wit_ResetResults : (on .parked).pwr.resetReq = none ∧ (held ⟨3, 0, 31⟩).pwr.resetReq = some ⟨3, 0, 31⟩ ∧ 31 + 2 ≤ (held ⟨3, 0, 31⟩).clk.rtc ∧
    (held ⟨3, 0, 31⟩).led.writing = none ∧ (held ⟨3, 0, 31⟩).clk.unlockedAt = none ∧ (on .banked).pwr.resetWake = none ∧ (on .parked).live = true ∧
    unlocked.clk.running = false ∧ unlocked.clk.unlockedAt = some 29 ∧ 29 + 4 ≤ unlocked.clk.rtc := by decide
theorem wit_watchdogDue : let s := { powered .parked (fun p => { p with wdtFrom := some 0 }) with clk := { (on .parked).clk with tb := 62400 * 60000 } }
    s.live = true ∧ s.pwr.wdtFrom = some 0 ∧ 0 + 62400 * s.fld rPWR_WDT_CFG 15 0 ≤ s.clk.tb := by decide
theorem wit_scanStalls : let s := { State.reset with clk := { State.reset.clk with tb := 6240000 } }
    s.live = true ∧ s.sys.mode = .scan ∧ s.sys.scanFrom + 6240000 ≤ s.clk.tb := by decide
theorem wit_WatchdogAndLock : (on .parked).live = true ∧ (on .parked).rbit rPWR_WDT_CFG 31 = false ∧ (0x80000000 : Word).getLsbD 31 = true ∧
    ((on .parked).setRbit rPWR_WDT_CFG 31 true).rbit rPWR_WDT_CFG 31 = true ∧ (on .parked).clk.running = true ∧ (on .parked).assay.freezing = false ∧
    unlocked.clk.unlockedAt ≠ none := by decide

/-- In APPROACH with session 3 open, a grant of it, and the timeout at tick 100. -/
def approaching (tb : Nat) : State :=
  let s := on .approach
  { s with sys := { s.sys with active := 8, grants := [(3, 40)], approachEnd := some 100 }, clk := { s.clk with tb := tb } }

theorem wit_ModeRequests : (approaching 99).live = true ∧ (approaching 99).sys.mode = .approach ∧ asorted (approaching 99).sys.grants = true ∧
    aget? (approaching 99).sys.grants 3 = some 40 ∧ (approaching 99).sys.active.getLsbD 3 = true ∧
    (∀ m, m < 3 → (approaching 99).sys.active.getLsbD m = true → aget? (approaching 99).sys.grants m = none) ∧
    (approaching 100).sys.approachEnd = some 100 ∧ 100 ≤ (approaching 100).clk.tb ∧ Req.pcie ∈ hostReqs ∧
    (∀ m ∈ [Mode.access, .service, .drive, .lockdown, .scan, .factory, .unmated, .parked], (on m).live = true) := by decide
theorem wit_SessionResults : (approaching 99).sys.active &&& ~~~(8 : BitVec 8) = 0 ∧ (approaching 99).sys.active ||| (1 : BitVec 8) ≠ 0 ∧
    ({ approaching 99 with clk := { (on .parked).clk with tb := 31200040 } }).clk.tb = 40 + 31200000 ∧
    ({ on .service with sys := { (on .service).sys with tokenEnd := some 33 } }).sys.tokenEnd = some 33 ∧ 33 ≤ (on .service).clk.rtc ∧
    ({ on .lockdown with sys := { (on .lockdown).sys with recordWanted := true } }).sys.recordWanted = true ∧ (on .lockdown).led.writing = none ∧
    (on .lockdown).led.scanFrom = none ∧ (on .lockdown).led.rescanWanted = false ∧ currentSeq (on .lockdown) 0 < 200000 := by decide

/-- The header of an image of 16 bytes for slot A, at its fields' least values. -/
def header : Bytes :=
  [0xA5, 0xF1, 0x60, 0x09, 1, 0, 0xA, 0, 0, 0, 0, 0, 16, 0, 0, 0] ++ List.replicate 17 0 ++ [1, 0, 0, 16] ++ List.replicate 219 0

/-- In SCAN with the ledger's scan running, the header in slot A, and codes of the two slots. -/
def booting (codes : Word) (chosen : Bool) : State :=
  { State.reset.setReg rFLASH_BOOT codes with
    sys := { State.reset.sys with imageChosen := chosen }
    mem := { State.reset.mem with cells := header.zipIdx.map (fun e => (slotBase 0 + e.2, e.1)) } }

theorem wit_ledgerScanDone : let s := booting 0x4300 true
    s.live = true ∧ s.led.scanFrom = some 0 ∧ s.led.waiting = none ∧ s.creds.jobs = [] ∧ s.sys.mode = .scan ∧ s.sys.imageChosen = true := by decide
theorem wit_BootResults : let s := booting 0x5600 false
    s.live = true ∧ s.sys.imageChosen = false ∧ s.led.writing = none ∧ bootResult s 0 = 6 ∧ bootResult s 1 = 5 ∧
    judgeHeader s 0 true (slotRead s 0 0 256) = none := by decide +kernel
theorem wit_imageChosen : bootResult (booting 0x4000 false) 0 = 0 ∧ bootResult (booting 0x0300 false) 1 = 0 ∧ bootResult (booting 0x0300 false) 0 = 3 ∧
    bootResult (booting 0x4300 false) 1 = 4 := by decide

/-! #### QUENCH, BANKED and upkeep -/

def quenched : State := { on .quenched with assay := { (on .quenched).assay with thawAt := some 33 } }
def freezing : State := { on .factory with assay := { (on .factory).assay with freezing := true } }

theorem wit_QuenchResults : (on .drive).assay.ballLow = false ∧ (on .factory).sys.mode = .factory ∧ (on .factory).live = true ∧ (on .drive).live = true ∧
    quenched.sys.mode = .quenched ∧ quenched.assay.thawAt = some quenched.clk.rtc ∧ freezing.assay.freezing = true ∧ freezing.sys.mode = .factory ∧
    (on .quenched).assay.ballLow = false ∧ (on .quenched).assay.thawAt = none := by decide
theorem wit_AssayPortResults : (on .factory).sys.mode ≠ .off ∧ inControl (on .quenched).assay.regAddr = false ∧ (on .quenched).assay.chain < 5 ∧
    kilnChain 5 = true ∧ kilnMasked (on .quenched) = true := by decide

def banked (p : Pwr → Pwr) : State := { on .banked with pwr := p (on .banked).pwr }
def enabled (src : Nat) (s : State) : State := s.setRbit rPWR_WAKE_EN src true

theorem wit_BankedResults : ((on .parked).setRbit rPWR_TAMPER 0 true).rbit rPWR_TAMPER 0 = true ∧ ((on .parked).setRbit rPWR_TAMPER 0 true).rbit rPWR_TAMPER 1 = false ∧
    (powered .parked (fun p => { p with entering := true })).pwr.entering = true ∧ (on .parked).flash.suspended = false ∧ (on .parked).flash.running = none ∧
    (banked (fun p => { p with t05At := some 30 })).pwr.t05At = some 30 ∧ 30 + 3 ≤ (on .banked).clk.rtc ∧ (on .banked).pwr.heldSrc = 0 ∧
    wd ((on .banked).setReg rPWR_WAKE_RTC 33).clk.rtc = ((on .banked).setReg rPWR_WAKE_RTC 33).reg rPWR_WAKE_RTC ∧
    (enabled 4 ((on .banked).setReg rPWR_WAKE_RTC 33)).rbit rPWR_WAKE_EN 4 = true ∧ (enabled 3 (on .banked)).rbit rPWR_WAKE_EN 3 = true ∧
    (banked (fun p => { p with entryRtc := some 33, heldSrc := 8 })).pwr.heldSrc ≠ 0 ∧
    (banked (fun p => { p with wakeAt := some 21 })).pwr.wakeAt = some 21 ∧ 21 + 12 ≤ (on .banked).clk.rtc ∧ (on .banked).assay.bankLatch = false ∧
    (on .banked).rbit rPWR_TAMPER 1 = false ∧ State.reset.mem.clearing ≠ none := by decide

def app : Req := .core 1
def stepping (goal : Nat) (tb : Nat) : State :=
  { (on .parked).setFld rPWR_VCORE 4 0 goal with clk := { (on .parked).clk with tb := tb } }
def flashing (r : FlashRun) : State := { on .parked with flash := { (on .parked).flash with running := some r, suspending := true } }
def programs : State := (((on .parked).setReg rFLASH_ADDR 0x0817F000).setReg rFLASH_SRC 0x20000000).setReg rFLASH_LEN 4096
def scrubs : State := { (on .parked).setFld rSYS_ECC_CTL 3 0 1 with clk := { (on .parked).clk with tb := 128 } }

theorem wit_UpkeepResults : (on .parked).vcoreOpen = true ∧ Writers.appKiln.permits app = true ∧ Writers.app.permits app = true ∧
    min (bits (0x1F : Word) 4 0) 0x1E ≠ (on .parked).fld rPWR_VCORE 4 0 ∧
    (stepping 0x1E 125).fld rPWR_VCORE_STAT 12 8 ≠ (stepping 0x1E 125).fld rPWR_VCORE 4 0 ∧ (stepping 0x1E 125).pwr.buckAt + 125 ≤ 125 ∧
    ((on .parked).setRbit rPWR_VCORE_STAT 1 false).rbit rPWR_VCORE_STAT 1 = false ∧
    (on .parked).fld rPWR_VCORE_STAT 12 8 = (on .parked).fld rPWR_VCORE 4 0 ∧ (on .parked).pwr.buckAt + 625 ≤ ({ (on .parked).clk with tb := 625 }).tb ∧
    regDef? 0x40000FFC = none ∧ (storing.runs 1 = true) ∧ scrubs.mem.scrubAt + 2 ^ (scrubs.fld rSYS_ECC_CTL 3 0 + 6) ≤ scrubs.clk.tb ∧
    scrubs.granuleBad (0x20000000 + scrubs.mem.scrubPos) = false ∧ scrubs.mem.flips = [] := by decide
theorem wit_flash : programs.flash.running = none ∧ inFlash 0x0817F000 = true ∧ (programs.reg rFLASH_ADDR).toNat = 0x0817F000 ∧ programs.fld rFLASH_LEN 12 0 = 4096 ∧
    inSram 0x20000000 = true ∧ inSram (0x20000000 + 4096 - 1) = true ∧ protectedAddr 0x0817F000 programs = false ∧ sectorOf 0x0817F000 ∉ programs.flash.torn ∧
    erasePulse (flashing (.erase 3)) = true ∧ (flashing (.erase 3)).flash.suspending = true ∧ erasePulse programs = false ∧ programs.host.install = none := by decide
theorem wit_registerWrite : ∃ d, regDef? rFRONT_ARG = some d ∧ writeOwn app rFRONT_ARG 5 (on .parked) = none ∧ d.who.permits app = true ∧
    writeBlock rFRONT_ARG 5 (on .parked) = none := ⟨_, rfl, by decide, by decide, by decide⟩

/-! #### The command front end -/

/-- The bytes n in len bytes, as descriptors and setup blocks hold them. -/
def le (len n : Nat) : Bytes := leBytes len n
/-- Bytes placed in memory from an address on. -/
def placed (a : Nat) (bs : Bytes) (s : State) : State :=
  { s with mem := { s.mem with cells := (bs.zipIdx.filter (fun e => e.1 != 0)).map (fun e => (a + e.2, e.1)) } }

/-- A queue of the least size, in shared SRAM, of an owner. -/
def queue (st : QState) (owner : Nat) : Queue :=
  { st := st, owner := owner, critical := false, ring := 0x20000000, tally := 0x20001000, ctx := 0xFF, size := 3, group := 0, msi := 0, tmo := 1, waitTmo := 1
    cage := 2, bindTo := none, stopReason := 0, stopping := false, head := 65535, tail := 65535, poll := 0, timeouts := 0, lateDiscard := 0, waitFrom := none
    held := none, guilty := none }
def queues (q : Queue) (s : State) : State := { s with front := { s.front with queues := [(511, q)] } }
def setupBlock : Bytes := le 6 0x20000000 ++ [0, 0] ++ le 6 0x20001000 ++ [0, 0, 0xFF, 3, 0, 0, 0, 0, 0, 0, 1, 0, 0, 0, 0, 0, 0, 0]
def setup (bs : Bytes) : State := placed 0x20100000 bs ((on .parked).setReg rFRONT_ARG 0x20100000)

theorem wit_qCreate : let s := setup setupBlock
    s.live = true ∧ s.sys.mode ≠ .scan ∧ s.front.held = false ∧ (s.reg (regKey (.core 0) rFRONT_ARG)).toNat % 32 = 0 ∧
    physRead 0x22 0x20100000 32 s = (.ok setupBlock, s) ∧ queueSetupOk s 0 setupBlock = true ∧ lowestFree 512 s.front.queues = some 0 := by decide +kernel
theorem wit_bReg : let b := le 6 0x207FFFFF ++ [0, 0, 1, 0, 0, 0, 0xFF, 3, 0, 0]
    physRead 0x22 0x20100000 16 (setup b) = (.ok b, setup b) ∧ bufSetupOk b = true ∧ lowestFree 1024 (setup b).front.buffers = some 0 := by decide +kernel
theorem wit_QueueControlResults : let s := queues (queue .stopped 0) (on .parked)
    Req.code (.core 0) = 0 ∧ s.queue? 511 = some (queue .stopped 0) ∧ dispatchedOf s 511 = false ∧ (∀ c, (s.cage c).queue ≠ some 511 ∧ (s.cage c).preload = none) ∧
    (s.reg (regKey (.core 0) rFRONT_ARG)).toNat = 0 ∧ (queue .idle 0).st = .idle ∧ (queue .ready 1).owner ≠ 0 ∧ s.critOnly (cageNo 2) = false ∧
    lowestFree 4096 s.front.edges = some 0 := by decide +kernel
/-- Buffer 1023 and edge 4095 in their first generations. -/
def named : State :=
  { on .parked with front := { (on .parked).front with
      buffers := [(1023, ⟨0, 0x20000000, 64, 0xFF, 3⟩)], bufGen := [(1023, 1)], edges := [(4095, ⟨.armed, 0, true⟩)], edgeGen := [(4095, 15)] } }
theorem wit_bUnreg_eFree : named.bufAt 2047 = some ⟨0, 0x20000000, 64, 0xFF, 3⟩ ∧ handleHeld named 2047 = false ∧
    named.edgeAt 0xFFFF = some ⟨.armed, 0, true⟩ ∧ edgeInUse named 0xFFFF = false := by decide
/-- DOORBELL at both ends of what the ring of 8 takes, and past it. -/
theorem wit_doorbell : (0 + 65536 - 65535) % 65536 ≤ 2 ^ (queue .idle 0).size ∧ (7 + 65536 - 65535) % 65536 = 2 ^ (queue .idle 0).size ∧
    ¬ (8 + 65536 - 65535) % 65536 ≤ 2 ^ (queue .idle 0).size ∧ (queues (queue .idle 0) (on .parked)).queue? (bits (0x000701FF : Word) 8 0) = some (queue .idle 0) := by decide

/-- A descriptor of SHA256 with empty buffers. -/
def descriptor : Bytes := [4, 1] ++ List.replicate 62 0
def caged (g : Cage → Cage) (q : Queue) (s : State) : State :=
  let s := queues q s
  s.setCage 2 (g { s.cage 2 with queue := some 511 })
def fetched (w : Bool) (f : Option (Nat × Nat)) : State :=
  caged (fun g => { g with cur := some (⟨descriptor, 65535, f⟩, w) }) { queue .running 0 with tail := 0 } (on .parked)

theorem wit_descriptorFetch : let s := placed (0x20000000 + 7 * 64) descriptor (caged id { queue .running 0 with tail := 0 } (on .parked))
    s.up = true ∧ (s.cage 2).disp = none ∧ (s.cage 2).cur = none ∧ devRead 0 0xFF (0x20000000 + 65535 % 8 * 64) 64 s = (.ok descriptor, s) ∧
    descEngine descriptor = some 4 ∧ descReservedOk descriptor = true ∧ refsOk s 0 descriptor = true := by decide
theorem wit_DispatchResults : let s := fetched false none
    s.front.held = false ∧ awaitsArmed s descriptor = false ∧ dependencyFailed s descriptor = false ∧ refsOk s 0 descriptor = true ∧ descFlag descriptor 1 = false ∧
    modeAccepts s.sys.mode 4 1 0 = true ∧ s.engineFree 4 = true ∧ grantee (fetched true none) 4 = some 2 ∧ (s.chan (cmdKey 4)).q = [] ∧
    (writeSram 0x22 (0x207FFC00 + 2 * 0x80) (imageOf s 0 descriptor descriptor) s).1 = .ok [] ∧ waitsFor (fetched true none) 2 = some 4 ∧
    (s.cage 2).sliceEnd ≤ s.clk.tb ∧ (fetched false (some (5, 2))).up = true := by decide
def dispatched : State :=
  caged (fun g => { g with disp := some ⟨511, 65535, descriptor, 4, 0x207FFD00, 0, 6240, false⟩ }) (queue .running 0)
    { (ports (doneKey 4) [0] (on .parked)).setEngine 4 { (on .parked).engine 4 with cage := some 2 } with clk := { (on .parked).clk with tb := 6240 } }
theorem wit_doneWord_timeout : dispatched.cHead (doneKey 4) = some 0 ∧ (cDrop (doneKey 4) dispatched).dispatched 4 = some ⟨511, 65535, descriptor, 4, 0x207FFD00, 0, 6240, false⟩ ∧
    frontOnly 0 = false ∧ frontOnly 0x10 = true ∧ allEngines.contains 4 = true ∧ 6240 ≤ dispatched.clk.tb := by decide
def waiting : State :=
  { queues { queue .waiting 0 with waitFrom := some 0, held := some ⟨descriptor, 65535, none⟩ } (on .parked) with clk := { (on .parked).clk with tb := 62400 } }
def hangs (crit : Bool) : State :=
  { (on .parked).setEngine 4 { (on .parked).engine 4 with draining := some ⟨0, 511, crit, false, false⟩ } with clk := { (on .parked).clk with tb := 62400 * 256 } }
theorem wit_waitTmo_hang : 0 + msTicks (queue .waiting 0).waitTmo ≤ waiting.clk.tb ∧ signalWaits waiting descriptor = false ∧
    ((hangs true).engine 4).draining = some ⟨0, 511, true, false, false⟩ ∧ (∀ i ∈ allEngines, i ≠ 4 → ((hangs true).engine i).draining = none) ∧
    0 + msTicks ((hangs true).fld rFRONT_HANG 7 0) < (hangs true).clk.tb ∧ ∀ i, ((hangs true).cage i).disp = none := by decide
/-! #### Commands of the Kiln -/

/-- A descriptor image: its operation, its two buffers, its key handle and PARAM. -/
def image (op : Byte) (b0 b1 : Bytes) (key : Nat) (param : Bytes) : Bytes :=
  [0, op] ++ List.replicate 14 0 ++ b0 ++ b1 ++ le 2 key ++ [0, 0] ++ slice param 0 20
/-- A buffer in shared SRAM, open both ways. -/
def buffer (a n : Nat) : Bytes := le 6 a ++ [0xFF, 3] ++ le 4 n
/-- The runtime with the image of a command at the head of an engine's CMD port, and a key with every USE in slots 40 (AES) and 63 (a scalar, 1). -/
def command (e : Nat) (img : Bytes) : State :=
  let s := (on .parked).setSlot 40 ⟨some (List.replicate 16 0), 1, 0, 0, 0x3FF⟩ |>.setSlot 63 ⟨some (beBytes 32 1), 1, 0, 3, 0x3FF⟩
  placed 0x20000000 img (ports (cmdKey e) [0x20000000] { s with kiln := { s.kiln with ready := true } })
def taken (e : Nat) (img : Bytes) : State := cDrop (cmdKey e) (command e img)
/-- The part of an operation that answers a value, and a test of it. -/
def gives (r : KRes Bytes) (k : Bytes → State → Bool) : Bool := match r with | .ok b s => k b s | _ => false

theorem wit_Serves : Serves 2 1 (image 1 (buffer 0x20000100 32) (buffer 0x20000200 16) 104 [0, 0xFF, 0, 16])
    (command 2 (image 1 (buffer 0x20000100 32) (buffer 0x20000200 16) 104 [0, 0xFF, 0, 16]))
    (taken 2 (image 1 (buffer 0x20000100 32) (buffer 0x20000200 16) 104 [0, 0xFF, 0, 16])) :=
  ⟨by decide, by decide, by decide +kernel, by decide +kernel, rfl⟩
/-- Buffers of the Kiln's commands, and its images: one CBC block each way, a tag that fails, and the first part of a message in context 7. -/
def source (n : Nat) : Bytes := buffer 0x20000100 n
def target (n : Nat) : Bytes := buffer 0x20000200 n
def cbcImage (op more : Byte) : Bytes := image op (source 32) (target 16) 104 [0, if more = 1 then 7 else 0xFF, 0, 16, 0, 0, more]
def tagImage : Bytes := image 2 (source 32) (target 16) 104 [3, 0xFF, 4, 12]
def readsIn (e : Nat) (img : Bytes) (k : Bytes → State → Bool) : Bool := gives (kread e img 0 0 (imgBuf img 0).len (taken e img)) k
def writesIn (e : Nat) (img bs : Bytes) (s : State) : Bool := gives (kwrite e img 1 bs s) (fun _ _ => true)

theorem wit_CipherResults_data : ∀ op ∈ [(1 : Byte), 2], ∀ more ∈ [(0 : Byte), 1], let img := cbcImage op more
    cmdImage 2 (command 2 img) = some img ∧ imgOp img = op.toNat ∧ (taken 2 img).slot (imgKey img % 64) = ⟨some (List.replicate 16 0), 1, 0, 0, 0x3FF⟩ ∧
    imgKey img / 64 = 1 ∧ imgOwner img = 0 ∧
    dataParamOk img (dataParam img) = true ∧ (dataParam img).more = (more == 1) ∧ (dataParam img).nlen + (dataParam img).aadlen = 16 ∧
    dataLenOk (dataParam img) (op == 1) 16 = true ∧ outLen (dataParam img) (op == 1) 16 = 16 ∧ 16 ≤ (imgBuf img 1).len ∧ (taken 2 img).ctx? 7 = none ∧
    readsIn 2 img (fun bs u => (oneShot (dataParam img) (op == 1) (List.replicate 16 0) (bs.take 16) [] (bs.drop 16) []).isSome &&
      writesIn 2 img (List.replicate 16 1) (aesBlocks (List.replicate 16 0) u)) = true := by
  decide +kernel
theorem wit_CipherResults_tag : cmdImage 2 (command 2 tagImage) = some tagImage ∧ dataParamOk tagImage (dataParam tagImage) = true ∧
    (dataParam tagImage).nlen + (dataParam tagImage).aadlen + (dataParam tagImage).taglen ≤ (imgBuf tagImage 0).len ∧
    dataLenOk (dataParam tagImage) false 16 = true ∧
    readsIn 2 tagImage (fun bs u => (oneShot (dataParam tagImage) false (List.replicate 16 0) (bs.take 12) [] ((bs.drop 12).take 16) (bs.drop 28)).isNone &&
      writesIn 2 tagImage (List.replicate 16 0) (aesBlocks (List.replicate 16 0) u)) = true := by
  decide +kernel

/-- Context 7 open in CBC, its save under SAVE_NO 1, and commands on it. -/
def opened : Ctx := Ctx.start 0 0 true 40 (List.replicate 16 0) (List.replicate 16 0) [] 0
def inCtx (img : Bytes) : State := let s := command 2 img; s.setCtx 7 opened
def ctxImage (op : Byte) (b0 b1 : Nat) : Bytes := image op (source b0) (target b1) 0 [0, 7, 0, 0, 0, 0, 1]
def blob : Bytes :=
  let head := blobHead 7 opened 1
  head ++ List.replicate 112 0 ++ gcmFull (List.replicate 32 0) (List.replicate 4 0 ++ beBytes 8 1) head (List.replicate 112 0) 16
def restores : State :=
  let s := (command 2 (ctxImage 5 144 0)).setSlot 2 ⟨some (List.replicate 32 0), 1, 0, 2, 0⟩
  { s with mem := { s.mem with cells := s.mem.cells ++ (blob.zipIdx.filter (fun e => e.1 != 0)).map (fun e => (0x20000100 + e.2, e.1)) }
           kiln := { s.kiln with saves := [(7, (1, opened))] } }

theorem wit_CipherResults_ctx : ∀ x ∈ [(6, 0, 0), (3, 16, 16), (4, 0, 144)], let img := ctxImage x.1 x.2.1 x.2.2
    cmdImage 2 (inCtx img) = some img ∧ imgOp img = x.1.toNat ∧ imgKey img = 0 ∧ ctxParamOk img = true ∧
    (cDrop (cmdKey 2) (inCtx img)).ctx? (imgParam img 1 1) = some opened ∧ opened.owner = imgOwner img ∧ imgParam img 0 1 = opened.mode ∧
    imgParam img 6 1 = 1 ∧ writesIn 2 img (List.replicate x.2.2 1) (inCtx img) = true := by
  decide +kernel
theorem wit_CipherResults_restore : cmdImage 2 restores = some (ctxImage 5 144 0) ∧ (restores.slot 2).key.getD [] = List.replicate 32 0 ∧ restores.ctx? 7 = none ∧
    gives (kread 2 (ctxImage 5 144 0) 0 0 144 restores) (fun bs _ => leAt bs 4 1 == 7 && leAt bs 6 1 == 0 && leAt bs 8 8 == 1 &&
      slice bs 0x80 16 == gcmFull (List.replicate 32 0) (List.replicate 4 0 ++ beBytes 8 1) (bs.take 16) (slice bs 16 112) 16) = true := by
  decide +kernel
theorem wit_CipherResults_zap : let img := image 0xB (source 0) (target 0) 104 []
    cmdImage 2 (command 2 img) = some img ∧ imgOp img = 0xB ∧ paramZero img [] = true ∧ imgKey img % 64 = 40 := by
  decide +kernel

/-- A key with every USE, its command's images and four words of the DRBG for the runtime. -/
def keyImage (op : Byte) (b0 b1 key type : Nat) : Bytes := image op (source b0) (target b1) key [.ofNat 8 type, 0, 0, 0, 104]
def drawn (e : Nat) (img : Bytes) : State := ports 0xE0 (List.replicate 8 1) (command e img)

theorem wit_KeyResults : (∀ x ∈ [(2, 7, 0, 0, 0, 2), (2, 8, 24, 0, 104, 0), (2, 9, 0, 24, 104, 0), (2, 0xA, 1, 0, 104, 0), (2, 0xA, 64, 0, 104, 2)],
      let img := keyImage (.ofNat 8 x.2.1) x.2.2.1 x.2.2.2.1 x.2.2.2.2.1 x.2.2.2.2.2
      let img := if x.2.1 = 9 then img else img.take 0x30 ++ List.replicate 16 0
      cmdImage x.1 (command x.1 img) = some img ∧ imgOp img = x.2.1 ∧ keyParamOk img (x.2.1 == 9) = true ∧
      (imgKey img = 0 ∨ (((command x.1 img).slot (imgKey img % 64)).use = 0x3FF ∧ imgKey img / 64 = 1)) ∧
      emptySlot (taken x.1 img) 32 64 = some 32 ∧ readsIn x.1 img (fun bs _ => x.2.1 != 8 || (kwUnwrap (List.replicate 16 0) bs).isNone) = true ∧
      writesIn x.1 img (List.replicate (imgBuf img 1).len 1) (taken x.1 img) = true) ∧
    (∀ x ∈ [(3, 64, 0, 64 + 63), (4, 0, 64, 0), (5, 0, 64, 64 + 63)], let img := keyImage (.ofNat 8 x.1) x.2.1 x.2.2.1 x.2.2.2 0
      let img := img.take 0x2C ++ List.replicate 20 0
      cmdImage 3 (command 3 img) = some img ∧ imgOp img = x.1 ∧ paramZero img [] = true ∧
      (imgKey img = 0 ∨ (((command 3 img).slot (imgKey img % 64)).type = 3 ∧ imgKey img / 64 = 1)) ∧
      readsIn 3 img (fun bs _ => x.1 != 3 || (ecdh 1 bs).isNone) = true ∧ writesIn 3 img (List.replicate (imgBuf img 1).len 1) (taken 3 img) = true) := by
  decide +kernel
/-- The example of RFC 3394 4.1: a key-encryption key and a wrapped key. -/
def kek : Bytes := beBytes 16 0x000102030405060708090A0B0C0D0E0F
def wrapped : Bytes := beBytes 24 0x1FA68B0A8112B447AEF34BD8FB5A7B829D3E862371D2CFE5
theorem wit_KeyResults_draws : (drawBytes 16 (drawn 2 [])).isSome = true ∧ (drawBytes 32 (drawn 2 [])).isSome = true ∧
    gives (match kscalar 8 (drawn 3 []) with | .ok _ s => .ok [] s | _ => .wait) (fun _ _ => true) = true ∧
    kwUnwrap kek wrapped = some (beBytes 16 0x00112233445566778899AABBCCDDEEFF) := by
  decide +kernel

/-- Commands that sign, hash, draw, and read or write the fuses: engine, OP, lengths of the buffers, key, PARAM byte 0. -/
def plainImage (op b0 b1 key type : Nat) : Bytes := image (.ofNat 8 op) (source b0) (target b1) key [.ofNat 8 type]

/-- A device whose Bluetooth address Mupor has not programmed, asked to program it. -/
def unaddressed : State :=
  let s := command 2 (plainImage 0x51 6 0 0 3)
  { s with fuses := { s.fuses with bdAddr := .unprogrammed } }

theorem wit_SignHashFuseResults :
    (∀ x ∈ [(3, 1, 32, 64, 127, 0), (3, 2, 160, 0, 0, 0), (3, 6, 32, 320, 0, 0), (4, 1, 64, 32, 0, 0), (4, 2, 0, 32, 104, 0), (4, 3, 0, 32, 104, 0), (2, 0x20, 0, 1, 0, 0),
        (2, 0x50, 0, 128, 0, 0), (2, 0x51, 6, 0, 0, 3), (2, 0x51, 32, 0, 0, 4), (2, 0x52, 0, 0, 0, 0)],
      let img := plainImage x.2.1 x.2.2.1 x.2.2.2.1 x.2.2.2.2.1 x.2.2.2.2.2
      cmdImage x.1 (command x.1 img) = some img ∧ imgOp img = x.2.1 ∧ paramZero img [0] = true ∧
      (imgKey img = 0 ∨ (((command x.1 img).slot (imgKey img % 64)).use = 0x3FF ∧ imgKey img / 64 = 1)) ∧
      readsIn x.1 img (fun _ _ => true) = true ∧ writesIn x.1 img (List.replicate (imgBuf img 1).len 1) (taken x.1 img) = true) ∧
    (command 2 []).pwr.vbatLow = false ∧ (command 2 []).fuses.hashes.get 1 = .unprogrammed ∧ unaddressed.fuses.bdAddr = .unprogrammed ∧
    cmdImage 2 unaddressed = some (plainImage 0x51 6 0 0 3) := by
  decide +kernel

/-- Commands of the LEDGER engine: OP, length of BUF0, record or unit, argument. -/
def recordImage (op len n arg : Nat) : Bytes := image (.ofNat 8 op) (source len) (List.replicate 12 0) 0 (le 2 n ++ [0, 0] ++ le 4 arg)
def recordState (op len n arg : Nat) : State :=
  let s := command 5 (recordImage op len n arg)
  { s with mem := { s.mem with cells := s.mem.cells ++ [(0x20000100, 1)] }, creds := { s.creds with jobs := [], jobRuns := false } }
theorem slice_len (bs : Bytes) (o n : Nat) : (slice bs o n).length = n := by
  unfold slice
  simp only [List.length_append, List.length_take, List.length_drop, List.length_replicate]
  omega
theorem leBytes_len : ∀ n v, (leBytes n v).length = n
  | 0, _ => rfl
  | n + 1, v => congrArg (· + 1) (leBytes_len n (v / 256))
theorem slice_mid {a b c : Bytes} {o n : Nat} (ha : a.length = o) (hb : b.length = n) : slice (a ++ b ++ c) o n = b := by
  subst ha hb
  unfold slice
  simp
theorem leNat_leBytes4 {v : Nat} (h : v < 2 ^ 32) : leNat (leBytes 4 v) = v := by
  simp only [leNat, leBytes, BitVec.toNat_ofNat]
  omega
/-- A copy as the device writes it is valid. -/
theorem copyImage_valid (body : Bytes) {seq : Nat} (h : 1 ≤ seq) (h2 : seq ≤ 200000) : copyValid (copyImage body seq) = true ∧ copySeq (copyImage body seq) = seq := by
  have hb := slice_len body 0 0xF8
  have hs := leBytes_len 4 seq
  generalize hc : crc32 (slice body 0 0xF8 ++ leBytes 4 seq) = crc
  have img : copyImage body seq = slice body 0 0xF8 ++ leBytes 4 seq ++ leBytes 4 crc.toNat := by rw [← hc]; rfl
  have e : copySeq (copyImage body seq) = seq := by
    rw [copySeq, leAt, img, slice_mid hb hs, leNat_leBytes4 (by omega)]
  have l : (slice body 0 0xF8 ++ leBytes 4 seq).length = 0xFC := by rw [List.length_append, hb, hs]
  have t : (copyImage body seq).take 0xFC = slice body 0 0xF8 ++ leBytes 4 seq := by rw [img, ← l, List.take_left]
  have c : leAt (copyImage body seq) 0xFC 4 = crc.toNat := by
    have : slice body 0 0xF8 ++ leBytes 4 seq ++ leBytes 4 crc.toNat = slice body 0 0xF8 ++ leBytes 4 seq ++ leBytes 4 crc.toNat ++ [] := (List.append_nil _).symm
    rw [leAt, img, this, slice_mid l (leBytes_len 4 _), leNat_leBytes4 crc.isLt]
  refine ⟨?_, e⟩
  rw [copyValid, e, c, t, hc]
  simp [h, h2]
/-- What record r holds when its first copy is one the device wrote and its second is erased. -/
theorem current_first {s : State} {r seq : Nat} {body : Bytes} (h0 : copyOf s r 0 = copyImage body seq) (h1 : copyOf s r 1 = erasedCopy) (h : 1 ≤ seq) (h2 : seq ≤ 200000) :
    currentBytes s r = some (copyImage body seq) := by
  have e : copyValid erasedCopy = false := by decide +kernel
  unfold currentBytes current
  simp only [h0, h1, (copyImage_valid body h h2).1, e, Option.map_some]
/-- A payload in record r, in the copy that the device writes first. -/
def recorded (r : Nat) (pay : Bytes) (s : State) : State := { s with led := { s.led with copies := ains s.led.copies (2 * r) (copyImage (copyBody 0 0 pay) 1) } }
/-- Record 239 at its last SEQ, in a copy whose ATTR hides it from the engine. -/
def sealed : State := { on .parked with led := { (on .parked).led with copies := [(2 * 239, copyImage (copyBody 1 1 []) 200000)] } }

/-- The command with this OP, length, record or unit and argument has all that the statement asks of it. -/
def recordReady (op len n arg : Nat) : Bool :=
  let img := recordImage op len n arg
  let s := recordState op len n arg
  let t := cDrop (cmdKey 5) s
  s.kilnUp && decide (cmdImage 5 s = some img) && imgOp img == op && ledgerIdx img == n && ledgerArg img == arg && ledgerFormat img && ledgerBuf img len true &&
  ledgerBuf img len false && portFree t && !t.sys.recordWanted && t.creds.jobs.isEmpty && !t.creds.jobRuns && (currentBytes t n).isNone && !wornOut t n &&
  rollbackMin t == 0

theorem wit_LedgerCommandResults : recordReady 1 256 239 0 = true ∧ recordReady 2 248 64 0 = true ∧ recordReady 3 248 64 0 = true ∧ recordReady 3 0 239 1 = true ∧
    recordReady 4 0 64 0 = true ∧ recordReady 4 0 239 0 = true := by decide +kernel
theorem wit_ledgerUnits : recordReady 5 16 16 0 = true ∧ recordReady 5 16 255 0 = true ∧ recordReady 6 0 0 0 = true ∧ recordReady 6 0 0 1 = true := by decide +kernel
theorem wit_ledgerWrite : gives (kread 5 (recordImage 2 248 64 0) 0 0 248 (recordState 2 248 64 0)) (fun bs _ => writeBytesOk bs) = true := by
  decide +kernel
theorem wit_ledgerRead_sealed : (currentBytes sealed 239).any (fun c => leAt c 3 1 % 2 = 1) = true ∧ wornOut sealed 239 = true := by
  rw [wornOut, currentSeq, current_first (s := sealed) (body := copyBody 1 1 []) (seq := 200000) rfl rfl (by decide) (by decide), Option.map_some, Option.getD_some,
    (copyImage_valid _ (by decide) (by decide)).2]
  exact ⟨by decide +kernel, by decide +kernel⟩

/-- A word of a ledger operation on CTRL, and the last word of its DIN in a collected write of some words. -/
def asks (op n : Nat) (m : Mode) : State := ports 0x54 [wd (fld 28 op + fld 8 n)] (on m)
def collected (op n k : Nat) (m : Mode) : State :=
  let s := (on m).setChan 0x52 ⟨[⟨7, true, 0, 0⟩], [], none⟩
  { s with led := { s.led with collecting := some (op, n, List.replicate k 0) } }
def written (t : LedgerTarget) (who : LedgerFor) (m : Mode) : State :=
  { on m with led := { (on m).led with writing := some ⟨t, List.replicate 16 1, who⟩ } }

theorem wit_LedgerPortResults :
    (∀ m ∈ [Mode.factory, .service, .drive], (on m).live = true ∧ (on m).led.scanFrom = none ∧ (on m).led.rescanWanted = false ∧ (on m).led.writing = none ∧
      ledgerCtrl (asks 4 0 m) 4 = some 0x40000000) ∧
    (∀ n ∈ [0, 239, 240], ledgerCtrl (asks 1 n .parked) 1 = some (wd (0x10000000 + fld 8 n)) ∧ (asks 1 n .parked).live = true ∧
      ledgerCtrl (asks 2 n .parked) 2 = some (wd (0x20000000 + fld 8 n)) ∧ ledgerCtrl (asks 3 n .parked) 3 = some (wd (0x30000000 + fld 8 n)) ∧
      ((asks 2 n .parked).chan 0x52).q = [] ∧ (asks 2 n .parked).led.collecting = none ∧ (asks 2 n .parked).led.waiting = none) ∧
    (∀ x ∈ [(2, 239, 61), (0xA, 0, 61), (3, 255, 3)], (collected x.1 x.2.1 x.2.2 .parked).led.collecting = some (x.1, x.2.1, List.replicate x.2.2 0) ∧
      ((collected x.1 x.2.1 x.2.2 .parked).chan 0x52).q = [⟨7, true, 0, 0⟩] ∧ portFree (collected x.1 x.2.1 x.2.2 .parked) = true ∧
      wornOut (collected x.1 x.2.1 x.2.2 .parked) 0 = false) ∧
    (∀ x ∈ [((LedgerTarget.copy 239 1), LedgerFor.modeRecord, Mode.parked), (.unit 255, .channel, .parked), (.copy 0 0, .channel, .quenched), (.unit 0, .channel, .quenched)],
      (written x.1 x.2.1 x.2.2).led.writing = some ⟨x.1, List.replicate 16 1, x.2.1⟩ ∧ (written x.1 x.2.1 x.2.2).led.rescanWanted = false ∧
      (written x.1 x.2.1 x.2.2).led.waiting = none ∧ (written x.1 x.2.1 x.2.2).sys.recordWanted = false ∧ (written x.1 x.2.1 x.2.2).creds.jobs = []) := by
  decide +kernel

/-! #### Acquisition, LF, radio -/

/-- The ADC on, in a sequence of one entry of so many results, at a tick. -/
def sampling (count tb : Nat) : State :=
  let s := ((on .parked).setReg rADC_CTL 1).setReg rADC_ENT (wd count)
  { s with clk := { s.clk with tb := tb } }
def firstRun (pos : Nat) : AdcRun := { AdcRun.start false 2 0 0 0 pos with settle := 0 }
def runs (tb : Nat) : State := let s := sampling 2 tb; { s with adc := { s.adc with seq := some (firstRun 100) } }

theorem wit_AcquisitionResults :
    (∀ n ∈ [1, 4096], (sampling n 0).timed = true ∧ (sampling n 0).rbit rADC_CTL 0 = true ∧ (sampling n 0).fld rADC_CTL 9 8 = 0 ∧ (sampling n 0).fld rADC_CTL 15 12 = 0 ∧
      entOk false ((sampling n 0).reg rADC_ENT) = true ∧ (sampling n 0).adc.seq = none ∧ (sampling n 0).adc.inj = none) ∧
    entOk false ((sampling 0 0).reg rADC_ENT) = false ∧ entOk false ((sampling 4097 0).reg rADC_ENT) = false ∧ entOk false ((sampling 0 0).reg rADC_ENT_INJ) = false ∧
    entOk false (((sampling 0 0).setReg rADC_ENT_INJ 1).reg rADC_ENT_INJ) = true ∧ Writers.appField.permits (.core 4) = true ∧
    (∀ op ∈ [1, 2, 3], (ports 0x84 [wd (fld 28 op)] (sampling 1 0)).ctrlHead 0x84 op = some (word (wd (fld 28 op)))) ∧
    (runs 43).adc.seq = some (firstRun 100) ∧ 100 * (runs 43).clk.tb < 39 * adcBoundary false 43 ∧ (runs 44).adc.stopAt = none ∧
    100 * (runs 43).clk.tb < 39 * ((firstRun 100).pos + 12) ∧ 39 * ((firstRun 100).pos + 12) ≤ 100 * (runs 44).clk.tb ∧
    bit ((runs 44).reg (entReg 0)) 20 = false ∧ entAvg ((runs 44).reg (entReg 0)) = 0 ∧ (firstRun 100).made + 1 < bits ((runs 44).reg (entReg 0)) 12 0 ∧
    0 + msTicks 2 ≤ (sampling 1 124800).clk.tb := by decide +kernel

/-- The LF driver with channel 5 enabled and tuned, a CTRL word and a DIN word, and a run. -/
def lfWords (op ch n : Nat) : State :=
  let s := (((on .parked).setReg (rLF_CH + 20) 0x80000001).setReg rLF_FREQ 1)
  ports 0x64 [wd (fld 28 op + fld 25 ch + n)] (ports 0x62 [1] s)
def lfRun (f : LfRun → LfRun) (s : State) : State :=
  { s with lf := { s.lf with run := some (f {
      ch := 5, n := 2, telegram := false, t0 := 0, freq := 1, chip := 16, mw := 0, skip := 0, next := 1, word := 0, eom := true,
      onSince := some 0, offAt := none, winFrom := 0, stopping := false, ended := none }) } }

theorem wit_LfCapResults :
    (∀ op ∈ [1, 3], ((lfWords op 5 1).chan 0x64).q = [word (wd (fld 28 op + fld 25 5 + 1))] ∧ ((lfWords op 5 1).chan 0x62).q = [word 1] ∧ (lfWords op 5 1).timed = true ∧
      (lfWords op 5 1).lf.run = none ∧ (lfWords op 5 1).lf.discard = false ∧ (lfWords op 5 1).rbit (rLF_CH + 4 * 5) 31 = true ∧
      (lfWords op 5 1).fld (rLF_CH + 4 * 5) 5 0 ≠ 0 ∧ bits (wd (fld 28 op + fld 25 6 + 1)) 27 25 = 6 ∧ bits (wd (fld 28 op + fld 25 6)) 15 0 = 0) ∧
    lfStopWord (lfWords 2 0 0) = some (word 0x20000000) ∧
    (lfRun id (lfWords 2 0 0)).lf.run.map (fun r => (r.ended, r.onSince)) = some (none, some 0) ∧
    (∀ e ∈ [1, 2, 3], (lfRun (fun r => { r with ended := some e, onSince := none }) (on .parked)).lf.run.map (fun r => (r.ended, r.onSince)) = some (some e, none)) ∧
    0 + msTicks ((lfWords 0 0 0).fld rLF_CFG 25 16) ≤ ({ (on .parked).clk with tb := 62400 * 1024 }).tb ∧ (on .parked).capRuns = true ∧
    (on .parked).clk.rtc % capPeriod (((on .parked).setReg rCAP_CFG 0x21).reg rCAP_CFG) = 0 ∧ (on .parked).cap.lastScan = none := by decide +kernel
def tapped : State :=
  let s := sampling (4096 + fld 13 5) 2
  lfRun (fun r => { r with freq := 2 ^ 31 }) { s with adc := { s.adc with seq := some (firstRun 0) } }
theorem wit_lfWindow : tapped.timed = true ∧ tapped.lf.run.any (fun r => r.ch < 6 && lfWindowEnds r tapped) = true := by decide +kernel

/-- The UHF receiver on, with its channel 3 and its sync word. -/
def hearing : State :=
  let s := ((on .parked).setReg rUHF_CFG 0x80000008)
  { s with clk := { s.clk with tb := 12480 } }
/-- Eight words of a LOAD with this code, sets for session 7, and a run. -/
def loads (k : Nat) : State := { on .parked with range := { (on .parked).range with load := wd (fld 28 k + 7) :: List.replicate 7 0, loadEom := true } }
def rbeSet : RbeSet := ⟨7, 0, [], [], [], 0⟩
def stsSet : StsSet := ⟨7, [], [], 0⟩
def ranging (op : Nat) (m : Mode) : State :=
  let s := ports 0x74 [wd (fld 28 op + fld 3 1 + 7)] (on m)
  { s with range := { s.range with rbe := some rbeSet, sts := some stsSet } }
def ranges (r : RangeRun) (tb : Nat) : State :=
  { on .parked with range := { (on .parked).range with run := some r }, clk := { (on .parked).clk with tb := tb } }

theorem wit_ReceiverAndRangingResults :
    hearing.timed = true ∧ uhfLocked hearing = true ∧ hearing.rbit rUHF_CFG 3 = true ∧ uhfSynced hearing (.ofNat 24 (0xAA0000 + hearing.fld rUHF_SYNC 15 0)) = true ∧
    hearing.uhf.rx = [] ∧ (∀ k ∈ [1, 2, 3], (loads k).range.load.length = 8 ∧ bits ((loads k).range.load.getD 0 0) 31 28 = k) ∧
    (ranging 1 .parked).range.rbe = some rbeSet ∧ rbeSet.at_ + msTicks 100 ≤ 6240000 ∧
    (∀ op ∈ [1, 2, 3, 4, 5], ∀ m ∈ [Mode.factory, .service, .parked], (ranging op m).timed = true ∧
      (ranging op m).ctrlHead 0x74 op = some (word (wd (fld 28 op + fld 3 1 + 7))) ∧ (ranging op m).range.run = none) ∧
    bits (0x1000000F : Word) 2 0 = 7 ∧
    (let r : RangeRun := ⟨.rbe rbeSet, 1, 7, 0, 0, none, none⟩
     rangeDue (ranges r 5004) r (.burst none [] []) ≤ 5004 ∧ ¬ rangeDue (ranges r 5003) r (.burst none [] []) ≤ 5003 ∧
     roundStop (ranges r 9) { r with aborted := some 9 } (.burst none [] []) 9 ≤ 9) := by decide +kernel

/-! #### Phone, card, entropy -/

/-- The Bluetooth controller enabled, with words in its transmit FIFO; the reader with a field since tick 0. -/
def phone (tx : List Word) : State := let s := (on .parked).setReg rBLE_CFG 0x80000000; { s with ble := { s.ble with tx := tx, started := true } }
def advSet : AdvSet := ⟨0xEF, true, true, 1, 32, 0, none⟩
def advertises : State :=
  let s := (on .banked).setReg rBLE_CFG 0x80000000
  { s with ble := { s.ble with sets := [advSet], bankSets := [0xEF], conns := [0, 1, 2] } }
def card (op rest : Nat) (f : Nfc → Nfc) (tb : Nat) : State :=
  let s := ports 0xA4 [wd (fld 28 op + rest)] ((on .parked).setReg rNFC_CFG 0x80000000)
  { s with nfc := f s.nfc, clk := { s.clk with tb := tb } }
/-- A TX of one byte, of Type A at 106 kbit/s, that asks for a response. -/
def txWord : Nat := fld 23 1 + 1
def begunTx : NfcTx := ⟨wd (fld 28 3 + txWord), [0], 0, true, none, false⟩

theorem wit_PhoneAndCardResults :
    (phone []).live = true ∧ (phone []).bleUp = true ∧ (phone []).rbit rBLE_STAT 2 = false ∧ ((phone []).setRbit rBLE_STAT 2 true).rbit rBLE_STAT 2 = true ∧
    (phone (List.replicate 127 0)).ble.tx.length < 128 ∧ 128 ≤ (phone (List.replicate 128 0)).ble.tx.length ∧ (on .parked).rbit rBLE_CFG 31 = false ∧
    (phone []).ble.held = [] ∧ (match hciHead [0xFFFFFFFF] with | .bad => true | _ => false) = true ∧
    (match hciHead [0x00060001, 0xEF02FC01, 0xEF01] with | .packet i b r => i == 1 && leAt b 0 2 == 0xFC01 && r.isEmpty | _ => false) = true ∧
    hciSupported 0 = false ∧ (slice ([1, 0xFC, 3, 2, 0xEF, 0xEF] : Bytes) 3 3).length = leAt (slice ([1, 0xFC, 3, 2, 0xEF, 0xEF] : Bytes) 3 3) 0 1 + 1 ∧
    connOpened [0x3E, 19, 0x0A, 0, 0xFF, 0x0E] = some 0xEFF ∧ connClosed [5, 4, 0, 0xFF, 0x0E, 0] = some 0xEFF ∧ connOpened [0xE] = none ∧ connClosed [0xE] = none ∧
    advertises.ble.bankSets.contains 0xEF = true ∧ advertises.ble.conns.length < 4 ∧ advSet? advertises 0xEF = some advSet ∧ advertises.rbit rBLE_WAKE 0 = false ∧
    fieldOnWord (card 1 0 id 0) = some (word 0x10000000) ∧ (card 1 0 id 0).rbit rNFC_CFG 31 = true ∧ (card 1 0 id 0).nfc.onAt = none ∧
    nfcOnFrom (card 1 0 (fun n => { n with offAt := some 0, waiting := true }) 318240) ≤ 318240 ∧
    318239 < nfcOnFrom (card 1 0 (fun n => { n with offAt := some 0, waiting := true }) 318239) ∧ (card 2 0 id 0).ctrlHead 0xA4 2 = some (word 0x20000000) ∧
    fieldOnWord (card 3 txWord id 0) = none ∧ txRefused (wd (fld 28 3 + txWord)) (card 3 txWord id 0) = true ∧
    txRefused (wd (fld 28 3 + txWord)) (card 3 txWord (fun n => { n with onAt := some 0 }) 318240) = false ∧ (card 3 txWord id 0).mayAttempt 0xA = true ∧
    (card 4 0 (fun n => { n with tx := some begunTx }) 0).nfc.tx = some begunTx ∧ (card 4 0 id 0).ctrlHead 0xA4 4 = some (word 0x40000000) ∧ begunTx.rxEn = true ∧
    begunTx.endAt ≤ nfcExpiry (card 4 0 id 0) begunTx ∧ nfcExpiry (card 4 0 id 0) begunTx + 1248 ≤ 62400000 := by decide +kernel

/-- The entropy source since tick 0, after n samples. -/
def source_ (f : Ent → Ent) (tb : Nat) : State :=
  { on .parked with ent := f { Ent.idle with runFrom := some 0 }, clk := { (on .parked).clk with tb := tb } }
def seeds : List Bytes := List.replicate 3 (List.replicate 16 0)
def drbg0 : Drbg := ⟨List.replicate 32 0, List.replicate 16 0⟩

theorem wit_EntropyResults :
    (source_ id 8).entUp = true ∧ sampleDue (source_ id 8) 1 = true ∧ sampleDue (source_ id 7) 1 = false ∧
    sampleDue (source_ (fun e => { e with n := 1024 }) (8 * 1120)) 96 = true ∧ (source_ id 0).ent.gathered.length = 0 ∧
    (source_ (fun e => { e with n := 1312, blocks := seeds }) 0).ent.blocks.length = 3 ∧ (source_ id 0).ent.drbg = none ∧ (source_ id 0).ent.katFor = none ∧
    (source_ (fun e => { e with drbg := some drbg0, reseedDue := true, blocks := seeds }) 0).ent.drbg = some drbg0 ∧
    Writers.appKiln.permits (.core 5) = true ∧ Writers.appKiln.permits (.core 1) = true ∧
    kilnBufEmpty ((source_ (fun e => { e with regBuf := [1] }) 0).setChan 0xE0 ⟨[], [(1, false)], none⟩) = false ∧
    (source_ (fun e => { e with katFor := some none }) 0).ent.katFor = some none ∧ (source_ (fun e => { e with katFor := some (some 2) }) 0).ent.katFor = some (some 2) ∧
    (Req.iface (.core 1)).all (fun _ => (on .parked).hostActive (.core 1)) = true ∧
    (∀ x ∈ [(0x21, 0, 0), (0x22, 0, 0), (0x22, 1, 0xFF)], let img := image (.ofNat 8 x.1) (source 0) (target 0) 0 [.ofNat 8 x.2.1, 0, 0, 0, .ofNat 8 x.2.2]
      cmdImage 2 (command 2 img) = some img ∧ imgOp img = x.1 ∧ imgKey img = 0 ∧ paramZero img [0, 4, 5, 6, 7] = true ∧ imgParam img 0 1 = x.2.1 ∧
      (taken 2 img).ent.katFor = none) := by decide +kernel

/-! #### Credentials, the start interlock and satellites -/

/-- Every session open, an enrolment in session 7, and the fleet's records. -/
def enrolment : Enrol := ⟨2, 31, 0, List.replicate 8 0, [], 3, some (List.replicate 16 0), true, true⟩
def fleet (img : Bytes) (f : State → State) : State :=
  let s := command 2 img
  f { s with sys := { s.sys with active := 0xFF } }
def credImage (op b0 b1 : Nat) (param : Bytes) : Bytes := image (.ofNat 8 op) (source b0) (target b1) 0 param

theorem wit_CredentialResults :
    (∀ x ∈ [(0x30, 0, 4, [7, 4]), (0x30, 0, 16, [7, 16]), (0x33, 0, 8, [7]), (0x31, 28, 0, [7, 4]), (0x32, 0, 0, [7, 0, 0, 0, 0xFF, 7]), (0x34, 0, 16, []),
        (0x35, 128, 0, []), (0x36, 0, 0, [1]), (0x37, 264, 0, [7]), (0x38, 72, 0, [7]), (0x39, 0, 24, [7]), (0x3A, 0, 0, [7]), (0x3B, 0, 0, [31]),
        (0x3C, 0, 64, [0, 0, 0, 0, 1]), (0x3D, 136, 0, [])],
      let img := credImage x.1 x.2.1 x.2.2.1 x.2.2.2
      cmdImage 2 (fleet img id) = some img ∧ imgOp img = x.1 ∧ imgKey img = 0 ∧ paramZero img [0, 1, 4, 5] = true ∧
      (imgBuf img 0).len = x.2.1 ∧ (imgBuf img 1).len = x.2.2.1 ∧ (imgParam img 0 1 ≤ 7 → (fleet img id).sys.active.getLsbD (imgParam img 0 1) = true)) ∧
    ([0x52, 0x4B, 0x53, 0x5A, 0x43, 0x50].map labelLen).all Option.isSome = true ∧ labelLen 0 = none := by
  decide +kernel
theorem wit_credential_draws : (drawBytes 4 (drawn 2 [])).isSome = true ∧ anchorsFormat (List.replicate 136 0) = true ∧ anchorsOnCurve (List.replicate 136 0) = true ∧
    runtimeSlot none (on .parked) = .ok 3 (on .parked) ∧ runtimeSlot (some 31) (on .parked) = .ok 31 (on .parked) ∧
    (∀ m ∈ [Mode.unmated, .parked, .service], takesService m = true) ∧ takesService .drive = false :=
  ⟨by decide +kernel, by decide, by decide, rfl, rfl, by decide, rfl⟩

/-- The payload that a record holds. -/
theorem payload_of {s : State} {r : Nat} {body : Bytes} (h0 : copyOf s r 0 = copyImage body 1) (h1 : copyOf s r 1 = erasedCopy) :
    payload s r = some (slice (copyImage body 1) 8 (leAt (copyImage body 1) 2 1)) := by
  rw [payload, current_first h0 h1 (by decide) (by decide), Option.map_some]
/-- A vehicle mated to its engine controller, two keys short of its limit of enrolments, with its satellites' keys. -/
def mated : State :=
  let keys := [1, 0, 0, 0, 0, 1, 0, 0] ++ wrapped
  recorded 1 (le 2 0 ++ le 2 1) (recorded 3 keys (recorded 4 (List.replicate 8 1 ++ List.replicate 8 0 ++ wrapped) (recorded 5 (List.replicate 8 0)
    (recorded 7 (List.replicate 24 0) ((on .parked).setSlot 1 ⟨some kek, 1, 0, 0, 0⟩)))))
theorem mated_payloads : payload mated 1 = some (le 2 0 ++ le 2 1) ∧ payload mated 3 = some ([1, 0, 0, 0, 0, 1, 0, 0] ++ wrapped) ∧
    payload mated 4 = some (List.replicate 8 1 ++ List.replicate 8 0 ++ wrapped) ∧ payload mated 5 = some (List.replicate 8 0) ∧
    payload mated 7 = some (List.replicate 24 0) := by
  refine ⟨(payload_of rfl rfl).trans ?_, (payload_of rfl rfl).trans ?_, (payload_of rfl rfl).trans ?_, (payload_of rfl rfl).trans ?_, (payload_of rfl rfl).trans ?_⟩
  all_goals decide +kernel
theorem wit_credential_records : enrolCount mated < enrolLimit mated ∧ enrolLimit (on .parked) ≤ enrolCount (on .parked) ∧ rec1 mated ≠ none ∧
    groupMsg mated ≠ none ∧ rec7Field mated 8 = 0 ∧ rec3State mated = 1 ∧ satState (rec4 mated) 7 = 1 ∧
    curKey mated = some (beBytes 16 0x00112233445566778899AABBCCDDEEFF) ∧ satCur mated = some (beBytes 16 0x00112233445566778899AABBCCDDEEFF) := by
  obtain ⟨h1, h3, h4, h5, h7⟩ := mated_payloads
  have k : wrapKey mated = kek := by decide
  have n : payload (on .parked) 1 = none := by decide +kernel
  have w : kwUnwrap kek wrapped = some (beBytes 16 0x00112233445566778899AABBCCDDEEFF) := wit_KeyResults_draws.2.2.2
  refine ⟨?_, ?_, ?_, ?_, ?_, ?_, ?_, ?_, ?_⟩
  · rw [enrolCount, enrolLimit, rec1, h1]; decide
  · rw [enrolCount, enrolLimit, rec1, n]; decide
  · rw [rec1, h1]; exact Option.some_ne_none _
  · rw [groupMsg, h5]; exact Option.some_ne_none _
  · rw [rec7Field, h7]; decide
  · rw [rec3State, rec3, h3]; decide
  · rw [rec4, h4]; decide
  · rw [curKey, recordKey, h3, Option.bind_some, k]; exact w
  · rw [satCur, recordKey, h4, Option.bind_some, k]; exact w
theorem wit_credential_time : let s := { on .parked with kiln := { (on .parked).kiln with ready := true }, creds := { (on .parked).creds with time := some (5, 0), timeWritten := 0 }, clk := { (on .parked).clk with rtc := 86400 * 32768 } }
    s.kilnUp = true ∧ vehicleNow s = some (86400 + 5) ∧ s.creds.timeWritten + 86400 * 32768 ≤ s.clk.rtc := by decide +kernel
def plainImage' (op : Nat) : Bytes := image (.ofNat 8 op) (List.replicate 12 0) (List.replicate 12 0) 0 []
/-- START commands with every field 0, and a run of each kind. -/
def startState (op : Nat) (f : Start → Start) : State := let s := command 0xC (plainImage' op); { s with start := f s.start }
def ranCrank (c : Option Challenge) : CrankRun := ⟨0, c, none, [], none, none, false⟩
def ranRoll (sent : Nat) : RollRun := ⟨[0xB1], List.replicate 16 0, 1, sent, 0, false⟩
def ranMate : MateRun := ⟨1, 2, 3, 1, some (List.replicate 32 0), none, 0, none⟩
def partnered (tb : Nat) (f : Start → Start) : State :=
  let s := (on .drive).setReg rSTART_CFG 0x80000000
  { s with start := f s.start, clk := { s.clk with tb := tb } }
/-- A CHALLENGE under the key of record 3. -/
def challenge : Bytes := 0xC1 :: List.replicate 23 0 ++ mac8 (beBytes 16 0x00112233445566778899AABBCCDDEEFF) (0x45 :: 0xC1 :: List.replicate 23 0)

theorem wit_StartLockResults :
    (∀ op ∈ [1, 3], cmdImage 0xC (startState op id) = some (plainImage' op) ∧ imgOp (plainImage' op) = op ∧ startZero (plainImage' op) = true) ∧
    startZero (plainImage 1 1 0 0 0) = false ∧ (startState 1 id).start.chal = none ∧ rec3State (startState 1 id) = 0 ∧
    startDispatch (startState 1 id) ≤ 0 + msTicks 5 ∧ challengeKey (startState 1 id) challenge = none ∧
    mateParamOk (image 2 (buffer 0 0 |>.map (fun _ => 0)) (List.replicate 12 0) 0 [1, 0, 0, 0, 2, 0, 0, 0, 3]) = true ∧
    (partnered 0 id).timed = true ∧ (partnerPath (partnered 0 id)).isSome = true ∧ challenge.length = 32 ∧ leAt challenge 0 1 = 0xC1 ∧
    (∀ tb ∈ [0, 1248000], tb ≤ answerBy ⟨challenge, 0, false⟩) ∧ answerBy ⟨challenge, 0, false⟩ < 1248001 ∧ verdict (partnered 0 id) ⟨challenge, 0, false⟩ = false ∧
    (partnered 0 (fun s => { s with crank := some (ranCrank none) })).start.crank = some (ranCrank none) ∧
    (∀ n ∈ [1, 2, 3], (partnered 9360000 (fun s => { s with roll := some (ranRoll n) })).start.roll = some (ranRoll n) ∧
      (ranRoll n).sentAt + msTicks 150 ≤ (partnered 9360000 id).clk.tb ∧ (ranRoll n).confirmed = false ∧ (ranRoll n).frame ≠ []) ∧
    ranMate.confirmed = none ∧ ranMate.lastAt + msTicks 200 ≤ 12480000 ∧ ranMate.y = none ∧ pubOk (List.replicate 64 0) = false ∧
    (partnered 0 id).sys.mode = .drive ∧ (partnered 0 id).start.markAt = none ∧
    0 < supervisionEnd (partnered 0 (fun s => { s with markAt := some 0 })) := by decide +kernel
theorem wit_challengeKey : challengeKey mated challenge = some (false, beBytes 16 0x00112233445566778899AABBCCDDEEFF) := by
  obtain ⟨-, -, -, -, -, r, -, c, -⟩ := wit_credential_records
  have e : slice challenge 24 8 = mac8 (beBytes 16 0x00112233445566778899AABBCCDDEEFF) (0x45 :: challenge.take 24) := by decide +kernel
  rw [challengeKey, offered, c, r, e]
  rw [if_neg (by decide), if_pos rfl]
  exact List.find?_cons_of_pos (decide_eq_true rfl)

/-- Commands of the satellite keys at position 7. -/
theorem wit_SatelliteKeyResults : (∀ x ∈ [(0x40, 0, 20), (0x41, 10, 0), (0x42, 0, 64), (0x43, 64, 28), (0x44, 8, 0), (0x45, 0, 28), (0x46, 8, 0)],
      let img := credImage x.1 x.2.1 x.2.2 [7]
      cmdImage 2 (command 2 img) = some img ∧ imgOp img = x.1 ∧ imgKey img = 0 ∧ paramZero img [0] = true ∧ imgParam img 0 1 = 7 ∧ (imgBuf img 0).len = x.2.1 ∧
      (imgBuf img 1).len = x.2.2 ∧ aget? (taken 2 img).creds.satAuth 7 = none ∧ aget? (taken 2 img).creds.satMate 7 = none) ∧
    aget? ({ on .parked with creds := { (on .parked).creds with satAuth := [(7, (List.replicate 16 0, 1))] } }).creds.satAuth 7 = some (List.replicate 16 0, 1) ∧
    ecdh 1 (List.replicate 64 0) = none := by decide +kernel
theorem wit_satellite_current : payload mated 4 ≠ none ∧ payload mated 5 ≠ none ∧ satCur mated ≠ none ∧ satState (rec4 mated) 7 = 1 := by
  obtain ⟨-, -, h4, h5, -⟩ := mated_payloads
  obtain ⟨-, -, -, -, -, -, s, -, c⟩ := wit_credential_records
  exact ⟨by rw [h4]; exact Option.some_ne_none _, by rw [h5]; exact Option.some_ne_none _, by rw [c]; exact Option.some_ne_none _, s⟩

/-! #### Networks, the Adit link and the host interfaces -/

/-- The networks on: controller 3 with FD and XL, LIN 1, the switch with all its ports up, and rings of 4096 bytes. -/
def wired : State :=
  let s := [3, 1, 0].foldl (fun s n => (s.setReg (rCAN_CFG n) 0x80000006).setReg (rCAN_STAT n) 0) (on .parked)
  let s := (s.setReg (linReg 1 0) 0x80000C30).setReg rSW_CFG 0x80000000
  let s := [0, 1, 2, 3, 4].foldl (fun s p => s.setReg (portReg p) 0xC0000001) s
  let s := s.setReg (rSW_VLAN) 0x800F8001
  [3, 4].foldl (fun s n => (s.setReg (ringReg n) 0x20000000).setReg (ringReg n + 4) 0x8000000C) s
def netState (img : Bytes) : State := placed 0x20000000 img (ports (cmdKey 9) [0x20000000] wired)
def netImage (op b0 b1 : Nat) (param : Bytes) : Bytes := image (.ofNat 8 op) (source b0) (target b1) 0 param
def canTx (tries : Nat) : CanTx := ⟨⟨1, 0, false, 0, []⟩, tries⟩
def canOnWire (w : Option (Fin 2)) (tries : Nat) : State := wired.onCan 3 (fun k => { k with onWire := w, tx0 := some (canTx tries) })
def linRuns (begun : Bool) (dir : Nat) (target : Option Word) : LinRun := ⟨dir, 0, 63, 1, [7], target, 0, false, begun, (0, 0, 0, 0)⟩

theorem wit_NetworkResults_commands :
    (∀ x ∈ [(1, 0, 0, [3, 0]), (1, 8, 0, [3, 0]), (1, 64, 0, [3, 1]), (2, 8, 0, [1, 0]), (2, 0, 8, [1, 1, 1, 63, 8]), (3, 14, 0, [0, 0, 3]), (3, 1518, 16, [3, 8]), (4, 0, 24, [0x20])],
      let img := netImage x.1 x.2.1 x.2.2.1 x.2.2.2
      (netState img).timed = true ∧ cmdImage 9 (netState img) = some img ∧ imgOp img = x.1 ∧ (x.1 = 1 → canParamOk img = true) ∧ (x.1 = 2 → linParamOk img = true) ∧
      (x.1 = 3 → ethParamOk img = true) ∧ (imgBuf img 0).len = x.2.1 ∧ (imgBuf img 1).len = x.2.2.1) ∧
    canParamOk (netImage 1 9 0 [0, 0]) = false ∧ linParamOk (netImage 2 9 0 [1, 0]) = false ∧ ethParamOk (netImage 3 13 0 [0, 0]) = false ∧
    paramZero (netImage 4 0 0 [0x20]) [0] = true := by decide +kernel
theorem wit_NetworkResults :
    (∀ fmt ∈ [0, 1, 2], canEnabled wired 3 fmt = true ∧ canEnabled wired 2 fmt = false) ∧ canState wired 3 = 0 ∧ canSends wired 3 = true ∧
    (canOnWire none 0).mayAttempt 9 = true ∧ ((canOnWire none 0).canCtl 3).tx0 = some (canTx 0) ∧ ((canOnWire (some 0) 1).canCtl 3).onWire = some 0 ∧
    canSpent (canOnWire (some 0) 1) 3 1 = true ∧ canSpent (canOnWire (some 0) 0) 3 0 = false ∧ canHears wired 3 7 = true ∧ canHears wired 2 0 = false ∧
    isPartner wired 3 0 0 = false ∧ (List.range 16).any (canFilter wired 3 0 false) = false ∧
    (List.range 16).any (canFilter (wired.setReg (canReg 3 0x100) 0x80000000) 3 0 false) = true ∧
    canState (wired.setFld (rCAN_STAT 3) 3 2 2) 3 = 2 ∧ wired.rbit (rCAN_CFG 3) 29 = false ∧ wired.rbit (ringReg 3 + 4) 31 = true ∧
    ringUsed wired 3 + 4080 + 8 ≤ ringSize wired 3 ∧ ringSize wired 3 < ringUsed wired 3 + 4089 + 8 ∧ wired.linRun 1 = none ∧
    (∀ b ∈ [false, true], ∀ d ∈ [0, 1, 3], (wired.setLin 1 (some (linRuns b d none))).linRun 1 = some (linRuns b d none)) ∧
    tickDue 0 wired.tbLo = true ∧ tickDue 1 wired.tbLo = false ∧ linEndTick wired 1 (linRuns true 1 none) [] true ≤ 0 ∧
    linSum (linRuns true 1 none) [7] = 0xF8 ∧ wired.rbit (linReg 1 0) 31 = true ∧ wired.rbit (linReg 0 0) 31 = false ∧
    ethEnabled wired true 8 = true ∧ ethEnabled (on .parked) false 0 = false ∧ maskPorts 8 = [3] ∧ (ethQueue wired 4 3).length < 16 ∧
    (∀ p ∈ [0, 1, 2, 3, 4], portUp wired p = true) ∧ ethGood (List.replicate 60 0) (crc32 (List.replicate 60 0)) = true ∧ ethGood (List.replicate 59 0) 0 = false ∧
    ethNext wired 4 = none ∧ wired.rbit (portReg 3) 30 = true ∧ wired.rbit rSW_CFG 31 = true := by decide +kernel

/-- The Adit link on, position 7 in a state, and a frame that waits for its reply. -/
def linked (st : Nat) (r : Option AditReq) (tb : Nat) : State :=
  let s := setPosState 7 st ((on .parked).setReg rADIT_CFG 0xC0000000)
  { s with adit := { s.adit with req := r }, clk := { s.clk with tb := tb } }
def request (why : AditWhy) (tries : Nat) : AditReq := ⟨7, 1, [], why, tries, 0⟩
def replied : Bytes := aditFrame 0x87 0x81 []
/-- A frame of the field core to position 7: SEND, ENUM, AUTH, MATE, ROLL, and a TYPE that is nobody's. -/
def din (type : Nat) (payload : Bytes) (st : Nat) : State :=
  let s := linked st none 0
  { s with adit := { s.adit with din := wd (fld 24 type + fld 16 payload.length + 7) :: wordsOf (slice payload 0 4), dinEom := true } }

theorem wit_SatelliteLinkResults :
    (∀ x ∈ [(4, [], 1), (2, [], 2), (3, [], 3), (8, [], 4), (9, [1], 5)], ∀ st ∈ [0, 1, 5], dinOp (din x.1 x.2.1 st) = x.2.2 ∧ dinOk (din x.1 x.2.1 st) = true ∧
      dinPos (din x.1 x.2.1 st) = 7 ∧ drainAdit 4 (din x.1 x.2.1 st) = din x.1 x.2.1 st ∧ posState (din x.1 x.2.1 st) 7 = st ∧ (din x.1 x.2.1 st).mayAttempt 11 = true) ∧
    dinOk (din 1 [] 1) = false ∧ (linked 1 none 0).timed = true ∧ (linked 1 none 0).rbit rADIT_CFG 30 = true ∧ ((linked 1 none 0).aditPos 7).nextHb ≤ 0 ∧
    ((linked 2 none 0).aditPos 7).nextProbe ≤ 0 ∧ Writers.appField.permits (.core 4) = true ∧ Writers.appField.permits (.core 5) = false ∧
    Writers.kiln.permits (.core 5) = true ∧ Writers.kiln.permits (.core 4) = false ∧ bindRuns (linked 3 none 0) 7 = false ∧
    bindRuns (linked 3 (some (request .rebind 1)) 0) 7 = true ∧ (linked 3 none 0).adit.binding = [] ∧
    (∀ why ∈ [AditWhy.command, .probe, .rebind, .heartbeat], ∀ tries ∈ [2, 3], (linked 1 (some (request why tries)) 375).adit.req = some (request why tries) ∧
      aditInTime (request why tries) replied (linked 1 none (aditFieldTicks replied.length)) = true ∧
      aditInTime (request why tries) replied (linked 1 none (aditFieldTicks replied.length + 375)) = false ∧ aditPayload (request why tries) replied = some [] ∧
      aditPayload (request why tries) (replied.drop 1) = none ∧ (request why tries).endAt + 375 ≤ (linked 1 none 375).clk.tb) ∧
    ((on .banked).setRbit rPWR_WAKE_EN 2 true).rbit rPWR_WAKE_EN 2 = true ∧ (on .banked).rbit rADIT_WAKE 0 = false := by decide +kernel

/-- Every host interface active and the PCIe link up, in a mode. -/
def hosted (m : Mode) : State := { on m with host := { (on m).host with active := 0xF, linkUp := true } }
/-- The rescue loader waits, with an image of slot B staged. -/
def rescuing : State := { hosted .parked with host := { (hosted .parked).host with rescue := true } }

theorem wit_HostInterfaceResults :
    (hosted .parked).host.linkUp = true ∧ (hosted .parked).hostActive .pcie = true ∧ (hosted .parked).frozen = false ∧ (hosted .quenched).frozen = true ∧
    hostMayAll (hosted .parked) false 0x40000FFC 1 = true ∧ hostMayAll (hosted .scan) true 0x40000FFC 1 = false ∧
    (∀ w ∈ [false, true], inSram (0x20000000 + 0x7FFFFF) = true ∧ hostMay (hosted .parked) w ((0x20000000 + 0x7FFFFF) / 4 * 4) = true) ∧
    (match (readSram 0x21 0x207FFFFF 1 (hosted .parked)).1 with | .ok _ => true | _ => false) = true ∧
    (match (writeSram 0x21 0x207FFFFF [1] (hosted .parked)).1 with | .ok _ => true | _ => false) = true ∧
    ({ on .parked with host := { (on .parked).host with active := 0 } }).hostActive .pcie = false ∧
    (∀ u ∈ [false, true], serialHears u (hosted .parked) = true ∧ serialHears u (hosted .off) = false ∧
      (∀ r ∈ [Serial.read 255 0x20000000, .write 0x20000000 [0], .install 0 0xB],
        serialHeaderOk u r (crc16 (leBytes 1 (serialOp u r) ++ leBytes 1 (serialLenAddr r).1 ++ beBytes 4 (serialLenAddr r).2)) = true ∧
        serialHeaderOk u r (crc16 (leBytes 1 (serialOp u r) ++ leBytes 1 (serialLenAddr r).1 ++ beBytes 4 (serialLenAddr r).2) ^^^ 1) = false)) ∧
    hostMayAll (hosted .parked) false 0x20000000 1 = true ∧ (hostReads .spi 1 0x20000000 (hosted .parked)).1 = true ∧
    (hostWrites .spi [0] 0x20000000 (hosted .parked)).1 = true ∧ rescueReady rescuing = true ∧ rescueReady (hosted .parked) = false ∧
    bits (0x5253000B : Word) 31 16 = 0x5253 ∧ Writers.hostApp.permits .pcie = true := by decide +kernel

end Sys2Proof.Tests
end

section
/-! The laws of the upkeep commands (clocks and VCORE, register writes, caches, the scrubber, the translation cache, code
flash), and the statement UpkeepResults assembled from them. -/
namespace Sys2Proof.Machine

/-- A command that makes a change where its condition holds, in a state in which it does. -/
theorem next_when {p : Bool} {f : State → State} {s t : State} (hp : p = true) (hf : f s = t) :
    (.next (when p f s) : Out) = .next t := by
  rw [when_true hp, hf]

/-! ### VCORE and its buck (R124 to R126, R141) -/

theorem vcoreWrite_changes {who : Req} {v : Word} {s : State} (hw : Writers.appKiln.permits who = true)
    (ht : min (bits v 4 0) 0x1E ≠ s.fld rPWR_VCORE 4 0) :
    vcoreWrite who v s = { (s.setFld rPWR_VCORE 4 0 (min (bits v 4 0) 0x1E)).setRbit rPWR_VCORE_STAT 1 false with
      pwr := { s.pwr with
        buckAt := if s.fld rPWR_VCORE_STAT 12 8 = s.fld rPWR_VCORE 4 0 then s.clk.tb else s.pwr.buckAt } } := by
  unfold vcoreWrite
  rw [if_neg (by simp [hw]), if_neg ht]
  by_cases hr : s.fld rPWR_VCORE_STAT 12 8 = s.fld rPWR_VCORE 4 0
  · rw [if_pos (beq_iff_eq.2 hr), if_pos hr]
    rfl
  · rw [if_neg (by simpa using hr), if_neg hr]
    rfl

theorem vcoreWrite_same {who : Req} {v : Word} {s : State}
    (h : Writers.appKiln.permits who = false ∨ min (bits v 4 0) 0x1E = s.fld rPWR_VCORE 4 0) : vcoreWrite who v s = s := by
  unfold vcoreWrite
  split
  · rfl
  · next hw => exact if_pos (h.resolve_left (by simpa using hw))

theorem State.buckRuns_iff (s : State) :
    s.buckRuns = true ↔ s.live = true ∨ (s.sys.mode = .banked ∧ s.clk.running = true) := by
  simp [State.buckRuns]

theorem exec_buckStep {s : State} (hb : s.buckRuns = true) (hn : s.fld rPWR_VCORE_STAT 12 8 ≠ s.fld rPWR_VCORE 4 0)
    (ht : s.pwr.buckAt + 125 ≤ s.clk.tb) :
    exec .buckStep s = .next { s.setFld rPWR_VCORE_STAT 12 8
        (if s.fld rPWR_VCORE_STAT 12 8 < s.fld rPWR_VCORE 4 0 then s.fld rPWR_VCORE_STAT 12 8 + 1
          else s.fld rPWR_VCORE_STAT 12 8 - 1) with
      pwr := { s.pwr with buckAt := s.pwr.buckAt + 125 } } :=
  next_when (by simp [hb, hn, ht]) rfl

theorem exec_vcoreSettled {s : State} (hb : s.buckRuns = true) (hn : s.fld rPWR_VCORE_STAT 12 8 = s.fld rPWR_VCORE 4 0)
    (hs : s.rbit rPWR_VCORE_STAT 1 = false) (ht : s.pwr.buckAt + 625 ≤ s.clk.tb) :
    exec .vcoreSettled s = .next ((s.setRbit rPWR_VCORE_STAT 1 true).setRbit rPWR_VCORE_STAT 0 true) :=
  next_when (by simp [hb, hn, hs, ht]) rfl

/-! ### Reads of the counters (R134, R139) -/

theorem answer_setReg (s : State) (k : Nat) (x lo : Word) : answer 0 [lo] false (s.setReg k x) =
    { s.setReg k x with host := { s.host with answer := ⟨0, [lo], false⟩ } } := rfl

/-- The read's result stays opaque here: the kernel must not unfold the quotient of the counter. -/
theorem exec_tbNowLo_of_read {who : Req} {s t : State} {lo : Word} (hl : s.live = true) (hr : readTbLo who s = (lo, t)) :
    exec (.tbNowLo who) s = .next (answer 0 [lo] false t) := by
  change execTbNowLo who s = _
  unfold execTbNowLo
  rw [when_true hl, hr]

theorem readTbLo_eq (who : Req) (s : State) :
    readTbLo who s = (wd s.clk.tb, s.setReg (regKey who rTB_NOW_HI) (wd (s.clk.tb / 2 ^ 32))) := rfl

theorem exec_tbNowLo {s : State} (hl : s.live = true) (who : Req) :
    exec (.tbNowLo who) s = .next { s.setReg (regKey who rTB_NOW_HI) (wd (s.clk.tb / 2 ^ 32)) with
      host := { s.host with answer := ⟨0, [wd s.clk.tb], false⟩ } } := by
  rw [exec_tbNowLo_of_read hl (readTbLo_eq who s), answer_setReg]

theorem exec_rtcNowLo_of_read {who : Req} {s t : State} {lo : Word} (hl : s.live = true) (hr : readRtcLo who s = (lo, t)) :
    exec (.rtcNowLo who) s = .next (answer 0 [lo] false t) := by
  change execRtcNowLo who s = _
  unfold execRtcNowLo
  rw [when_true hl, hr]

theorem readRtcLo_eq (who : Req) (s : State) :
    readRtcLo who s = (wd s.clk.rtc, s.setReg (regKey who rRTC_NOW_HI) (wd (s.clk.rtc / 2 ^ 32 % 2 ^ 16))) := rfl

theorem exec_rtcNowLo {s : State} (hl : s.live = true) (who : Req) :
    exec (.rtcNowLo who) s = .next { s.setReg (regKey who rRTC_NOW_HI) (wd (s.clk.rtc / 2 ^ 32 % 2 ^ 16)) with
      host := { s.host with answer := ⟨0, [wd s.clk.rtc], false⟩ } } := by
  rw [exec_rtcNowLo_of_read hl (readRtcLo_eq who s), answer_setReg]

/-! ### Register writes (R13, R14, R265) -/

theorem regWrite_undefined {a : Nat} (h : regDef? a = none) (who : Req) (v : Word) (s : State) : regWrite who a v s = none := by
  unfold regWrite
  rw [h]

theorem regWrite_refused {who : Req} {a : Nat} {v : Word} {s : State} {d : RegDef} (hd : regDef? a = some d)
    (hk : inKilnRegs a = false) (ho : writeOwn who a v s = none) (hw : d.who.permits who = false) :
    regWrite who a v s = some s := by
  simp [regWrite, hd, hk, ho, hw]

theorem regWrite_plain {who : Req} {a : Nat} {v : Word} {s : State} {d : RegDef} (hd : regDef? a = some d)
    (hk : inKilnRegs a = false) (ho : writeOwn who a v s = none) (hw : d.who.permits who = true)
    (hb : writeBlock a v s = none) : regWrite who a v s = some (plainWrite d (s.keyOf who a) v s) := by
  simp [regWrite, hd, hk, ho, hw, hb]

/-- Outside its own block and the Kiln's registers a core's write is that of the register bus. -/
theorem exec_registerWrite_core {c : Fin 6} {a : BitVec 32} {s : State} (hl : s.live = true) (ha : a.toNat % 4 = 0)
    (hp : inPrivate a.toNat = false) (hk : inKilnRegs a.toNat = false) (v : Word) :
    exec (.registerWrite (.core c) a v) s = .next ((regWrite (.core c) a.toNat v s).getD s) := by
  have hw : writeAny (.core c) a.toNat v s = (regWrite (.core c) a.toNat v s).getD s := by
    simp [writeAny, hp, hk]
  exact next_when (by simp [hl, ha]) hw

/-! ### The scrubber (R273, R277) -/

theorem exec_scrub_due {s : State} (hl : s.live = true) (hr : s.fld rSYS_ECC_CTL 3 0 ≠ 0)
    (ht : s.mem.scrubAt + 2 ^ (s.fld rSYS_ECC_CTL 3 0 + 6) ≤ s.clk.tb) (u : Upset) :
    exec (.scrub u) s = .next (scrubRead u s) := by
  have hp : scrubPeriod s = some (2 ^ (s.fld rSYS_ECC_CTL 3 0 + 6)) := if_neg hr
  exact next_when (by simp [hl, hp, ht]) rfl

theorem correct_of_no_flips {s : State} (h : s.mem.flips = []) (a n : Nat) : correct a n s = s := by
  unfold correct
  rw [h, List.filter_eq_nil_iff.2 (by simp), forEach_nil]

theorem scrubRead_clean {s : State} (hg : s.granuleBad (0x20000000 + s.mem.scrubPos) = false) (hf : s.mem.flips = []) :
    scrubRead .none s = { s with mem := { s.mem with
      scrubPos := (s.mem.scrubPos + 8) % 0x800000, scrubAt := s.clk.tb } } := by
  have hc : correct (0x20000000 + s.mem.scrubPos) 8 (applyUpset .none s) = s := correct_of_no_flips hf _ _
  unfold scrubRead
  dsimp only
  rw [hc, when_false hg]

/-! ### FLASH_CMD (R338, R341 to R343, R1184) -/

theorem flashCmd_badKey {who : Req} {key : BitVec 16} (hw : Writers.appKiln.permits who = true) (hk : key ≠ 0x464C)
    (op : Nat) (s : State) : flashCmd who key op s = s.setRbit rFLASH_STAT 3 true := by
  unfold flashCmd
  rw [if_neg (by simp [hw]), if_pos (by simpa using hk)]

theorem flashCmd_program {who : Req} (hw : Writers.appKiln.permits who = true) (s : State) :
    flashCmd who 0x464C 1 s = flashProgram s := by
  simp [flashCmd, hw]

theorem flashCmd_suspend {who : Req} (hw : Writers.appKiln.permits who = true) (s : State) :
    flashCmd who 0x464C 3 s = flashSuspend s := by
  simp [flashCmd, hw]

theorem flashCmd_resume {who : Req} (hw : Writers.appKiln.permits who = true) (s : State) :
    flashCmd who 0x464C 4 s = flashResume s := by
  simp [flashCmd, hw]

theorem flashProgram_busy {s : State} (h : s.flash.running ≠ none) : flashProgram s = s.setRbit rFLASH_STAT 2 true :=
  if_pos (Option.isSome_iff_ne_none.2 h)

theorem flashProgram_starts {s : State} (hr : s.flash.running = none)
    (hargs : programArgsOk (s.reg rFLASH_ADDR).toNat (s.reg rFLASH_SRC).toNat (s.fld rFLASH_LEN 12 0) = true)
    (hp : protectedAddr (s.reg rFLASH_ADDR).toNat s = false) (ht : sectorOf (s.reg rFLASH_ADDR).toNat ∉ s.flash.torn) :
    flashProgram s = { s with flash := { s.flash with
      running := some (.program (s.reg rFLASH_ADDR).toNat (s.reg rFLASH_SRC).toNat (s.fld rFLASH_LEN 12 0)) } } := by
  simp [flashProgram, hr, hargs, hp, ht]

theorem flashSuspend_pulse {s : State} (h : erasePulse s = true) :
    flashSuspend s = { s with flash := { s.flash with suspending := true } } := if_pos h

theorem flashSuspend_rejected {s : State} (h : erasePulse s = false) : flashSuspend s = s.setRbit rFLASH_STAT 2 true :=
  if_neg (by simp [h])

theorem flashResume_suspended {s : State} (h : s.flash.suspended = true) :
    flashResume s = { s with flash := { s.flash with suspended := false } } := if_pos h

theorem flashResume_rejected {s : State} (h : s.flash.suspended = false) : flashResume s = s.setRbit rFLASH_STAT 2 true :=
  if_neg (by simp [h])

/-- The end of an ERASE that no install runs. -/
theorem exec_flashDone_erase {s : State} {sec : Nat} (hl : s.live = true) (hr : s.flash.running = some (.erase sec))
    (hs : s.flash.suspended = false) (hi : s.host.install = none) :
    exec (.flashDone none) s = .next (flashFinish none s).2 := by
  have hn : installing s = false := by simp [installing, hi]
  exact next_when (by simp [hl, hr, hs]) (if_neg (by simp [hn]))

/-! ### The obligation -/

/-- Settles O46: each clause is the law of its block's operation, read in a state in which the command's condition holds. -/
theorem upkeepResults : Obligations.UpkeepResults := by
  unfold Obligations.UpkeepResults
  intro s who v c
  refine ⟨fun ho hw ht => next_when ho (vcoreWrite_changes hw ht), fun ho h => next_when ho (vcoreWrite_same h),
    fun h => ?buck, fun hl => ⟨exec_tbNowLo hl who, exec_rtcNowLo hl who⟩, fun a hl ha hp hk => ?registers,
    fun hc hi => ?flush, fun hc => next_when hc rfl, fun hl hr ht => ?scrubber, fun hl hw ctx page => ?translations,
    fun hl hb => next_when (by simp [hl, hb]) rfl, fun hl hw => ?flash,
    fun hl hs he => next_when (by simp [hl, hs, he]) rfl, fun sec hl hr hs hi => ?erased⟩
  case buck =>
    have hb := s.buckRuns_iff.2 h
    exact ⟨fun hn ht => exec_buckStep hb hn ht, fun hn hs ht => exec_vcoreSettled hb hn hs ht⟩
  case registers =>
    rw [exec_registerWrite_core hl ha hp hk]
    refine ⟨fun hd => by rw [regWrite_undefined hd]; rfl, fun d hd ho => ⟨fun hw => ?_, fun hw hb => ?_⟩⟩
    · rw [regWrite_refused hd hk ho hw]; rfl
    · rw [regWrite_plain hd hk ho hw hb]; rfl
  case flush =>
    exact ⟨_, next_when hc rfl, by rw [flushD_lines, if_pos rfl], flushD_bytes c hi, flushD_memOnly c s⟩
  case scrubber =>
    have hdue := exec_scrub_due hl hr ht
    exact ⟨fun u => ⟨_, hdue u, scrubRead_kept u s⟩, fun hg hf => by rw [hdue, scrubRead_clean hg hf]⟩
  case translations =>
    exact ⟨next_when hl (when_true hw _ s), next_when hl (when_true hw _ s), next_when hl (when_true hw _ s)⟩
  case flash =>
    refine ⟨fun key hk => ?_, fun hr => next_when hl ?_, fun hr h1 h2 h3 h4 h5 h6 h7 h8 h9 hp ht => next_when hl ?_,
      fun he => next_when hl ?_, fun he => next_when hl ?_, fun hs => next_when hl ?_, fun hs => next_when hl ?_⟩
    · have bad := fun op => flashCmd_badKey hw hk op s
      exact ⟨next_when hl (bad 1), next_when hl (bad 3), next_when hl (bad 4)⟩
    · rw [flashCmd_program hw, flashProgram_busy hr]
    · have hargs : programArgsOk (s.reg rFLASH_ADDR).toNat (s.reg rFLASH_SRC).toNat (s.fld rFLASH_LEN 12 0) = true := by
        simp [programArgsOk, h1, h2, h3, h4, h5, h6, h7, h8, h9]
      rw [flashCmd_program hw, flashProgram_starts hr hargs hp ht]
    · rw [flashCmd_suspend hw, flashSuspend_pulse he]
    · rw [flashCmd_suspend hw, flashSuspend_rejected he]
    · rw [flashCmd_resume hw, flashResume_suspended hs]
    · rw [flashCmd_resume hw, flashResume_rejected hs]
  case erased =>
    exact ⟨_, exec_flashDone_erase hl hr hs hi, flashFinish_erase sec hr⟩

end Sys2Proof.Machine
end

section
/-! The step, the state after reset, and what every command keeps: StepRunsFront, ResetState and CommandKeepsQueue. -/
namespace Sys2Proof.Machine

theorem step_cons {s : State} {c : Instr} {cs : List Instr} (h : s.pending = c :: cs) :
    step s = exec c { s with pending := cs } := by
  unfold step
  rw [h]

/-- Settles O1: the command in front is the one that a step takes (log entry 1). -/
theorem stepRunsFront : Obligations.StepRunsFront := fun _ _ _ => step_cons

/-! ### The state after reset -/

/-- Only SYS_EPOCH is listed after reset: every other register reads its reset value (R526). -/
theorem reset_reg (k : Nat) : State.reset.reg k = if k = rSYS_EPOCH then 1 else regReset k := by
  show (aget? [(rSYS_EPOCH, 1)] k).getD (regReset k) = _
  simp only [aget?]
  split <;> rfl

/-- Core 0 and the Kiln core run from their start addresses, and the other cores are held in reset (R79, R237). -/
theorem reset_core (c : Fin 6) : State.reset.cores.get c =
    if c = 0 then Core.reset 0 .running else if c = 5 then Core.reset 0xC000 .running else Core.reset 0 .reset := by
  revert c
  decide

theorem Core.reset_get (a : Word) (x : Run) (r : Fin 16) : (Core.reset a x).get r = 0 := by
  unfold Core.get
  split
  · rfl
  · exact Vector.getElem_replicate r.isLt

theorem reset_core_zero (c : Fin 6) (r : Fin 16) :
    (State.reset.cores.get c).get r = 0 ∧ (State.reset.cores.get c).flg = 0 := by
  rw [reset_core]
  split_ifs <;> exact ⟨Core.reset_get _ _ r, rfl⟩

theorem reset_core_held {c : Fin 6} (h0 : c ≠ 0) (h5 : c ≠ 5) : (State.reset.cores.get c).run = .reset := by
  rw [reset_core, if_neg h0, if_neg h5]
  rfl

/-- Every key slot is listed after reset, or reads as an empty one: none holds a key (R808). -/
theorem reset_slot_key (n : Nat) : (State.reset.slot n).key = none := by
  rcases agetD_cases Kiln.reset.slots n Slot.empty with h | ⟨e, he, hv⟩
  · exact congrArg Slot.key h
  · obtain ⟨i, -, rfl⟩ := List.mem_map.1 he
    exact (congrArg Slot.key hv).symm

/-- Settles O3: the fields of State.reset read one by one; the ledger's and the flash's content at the first power-on are
the model's (log entry 3) and not stated. -/
theorem resetState : Obligations.ResetState := by
  unfold Obligations.ResetState
  exact ⟨rfl, rfl, rfl, rfl, rfl, rfl, rfl, rfl, rfl, rfl, rfl, fun _ => reset_core_held, reset_core_zero,
    fun k hk => (reset_reg k).trans (if_neg hk), rfl, rfl, rfl, rfl, reset_slot_key, fun _ => rfl, by decide⟩

/-! ### Every command -/

/-- Whatever the command, the state that it answers evolves from the state it starts in: the laws of the single commands, one
for each constructor of Instr. -/
theorem exec_ev {s0 s : State} (i : Instr) (h : Evolves s0 s) : OutEv s0 (exec i s) :=
  match i with
  | .supplyInvalid supply high outsideRatings => execSupplyInvalid_ev supply high outsideRatings h
  | .supplyValid supply pins => execSupplyValid_ev supply pins h
  | .alwaysOnPowerUp => execAlwaysOnPowerUp_ev h
  | .alwaysOnLoss => execAlwaysOnLoss_ev h
  | .pinReset => execPinReset_ev h
  | .softwareReset who key => execSoftwareReset_ev who key h
  | .watchdog => execWatchdog_ev h
  | .watchdogEnable who value => execWatchdogEnable_ev who value h
  | .kick who key => execKick_ev who key h
  | .scanStall => execScanStall_ev h
  | .tbLockLoss => execTbLockLoss_ev h
  | .tbLock => execTbLock_ev h
  | .tbRelock => execTbRelock_ev h
  | .resetEnterScan resetNHigh hsel => execResetEnterScan_ev resetNHigh hsel h
  | .ledgerScanDone => execLedgerScanDone_ev h
  | .imageChosen => execImageChosen_ev h
  | .kilnJudgement => execKilnJudgement_ev h
  | .modeReqParked who key => execModeReqParked_ev who key h
  | .modeReqAccess who key => execModeReqAccess_ev who key h
  | .modeReqLockdown who key => execModeReqLockdown_ev who key h
  | .sessionClose who mask => execSessionClose_ev who mask h
  | .sessionOpen who mask => execSessionOpen_ev who mask h
  | .approachTimeout => execApproachTimeout_ev h
  | .grantExpiry session => execGrantExpiry_ev session h
  | .serviceEnd => execServiceEnd_ev h
  | .modeRecordWrite => execModeRecordWrite_ev h
  | .commitWordVerified ok => execCommitWordVerified_ev ok h
  | .unitWriteDone ok => execUnitWriteDone_ev ok h
  | .quenchBallFall => execQuenchBallFall_ev h
  | .quenchBallRise => execQuenchBallRise_ev h
  | .quenchRequest who key => execQuenchRequest_ev who key h
  | .coherentStop => execCoherentStop_ev h
  | .quench update => execQuench_ev update h
  | .thaw update => execThaw_ev update h
  | .thawResume => execThawResume_ev h
  | .bypass tdi => execBypass_ev tdi h
  | .idcode => execIdcode_ev h
  | .samplePreload cells => execSamplePreload_ev cells h
  | .extest cells => execExtest_ev cells h
  | .status => execStatus_ev h
  | .sel n => execSel_ev n h
  | .chain => execChain_ev h
  | .addr v => execAddr_ev v h
  | .sram => execSram_ev h
  | .reg a => execReg_ev a h
  | .trstNLow => execTrstNLow_ev h
  | .tamper => execTamper_ev h
  | .bank c rd ra imm12 => execBank_ev c rd ra imm12 h
  | .t05 => execT05_ev h
  | .completionOfEntry => execCompletionOfEntry_ev h
  | .wakeEvent => execWakeEvent_ev h
  | .rtcWake => execRtcWake_ev h
  | .hwake => execHwake_ev h
  | .wakeComplete => execWakeComplete_ev h
  | .sramInitDone => execSramInitDone_ev h
  | .vcoreTargetWrite who value => execVcoreTargetWrite_ev who value h
  | .buckStep => execBuckStep_ev h
  | .vcoreSettled => execVcoreSettled_ev h
  | .tbNowLo who => execTbNowLo_ev who h
  | .rtcNowLo who => execRtcNowLo_ev who h
  | .timerCompare c => execTimerCompare_ev c h
  | .interrupt c => execInterrupt_ev c h
  | .add c rd ra rb rsv f => execAdd_ev c rd ra rb rsv f h
  | .sub c rd ra rb rsv f => execSub_ev c rd ra rb rsv f h
  | .adc c rd ra rb rsv f => execAdc_ev c rd ra rb rsv f h
  | .sbc c rd ra rb rsv f => execSbc_ev c rd ra rb rsv f h
  | .and c rd ra rb rsv f => execAnd_ev c rd ra rb rsv f h
  | .or c rd ra rb rsv f => execOr_ev c rd ra rb rsv f h
  | .xor c rd ra rb rsv f => execXor_ev c rd ra rb rsv f h
  | .andn c rd ra rb rsv f => execAndn_ev c rd ra rb rsv f h
  | .shl c rd ra rb rsv f => execShl_ev c rd ra rb rsv f h
  | .shr c rd ra rb rsv f => execShr_ev c rd ra rb rsv f h
  | .sar c rd ra rb rsv f => execSar_ev c rd ra rb rsv f h
  | .ror c rd ra rb rsv f => execRor_ev c rd ra rb rsv f h
  | .slt c rd ra rb rsv f => execSlt_ev c rd ra rb rsv f h
  | .sltu c rd ra rb rsv f => execSltu_ev c rd ra rb rsv f h
  | .clz c rd ra rb rsv f => execClz_ev c rd ra rb rsv f h
  | .sexb c rd ra rb rsv f => execSexb_ev c rd ra rb rsv f h
  | .sexh c rd ra rb rsv f => execSexh_ev c rd ra rb rsv f h
  | .mul c rd ra rb rsv f => execMul_ev c rd ra rb rsv f h
  | .mulh c rd ra rb rsv f => execMulh_ev c rd ra rb rsv f h
  | .mulhu c rd ra rb rsv f => execMulhu_ev c rd ra rb rsv f h
  | .div c rd ra rb rsv f => execDiv_ev c rd ra rb rsv f h
  | .divu c rd ra rb rsv f => execDivu_ev c rd ra rb rsv f h
  | .rem c rd ra rb rsv f => execRem_ev c rd ra rb rsv f h
  | .remu c rd ra rb rsv f => execRemu_ev c rd ra rb rsv f h
  | .addi c rd ra imm12 rsv f => execAddi_ev c rd ra imm12 rsv f h
  | .andi c rd ra imm12 rsv f => execAndi_ev c rd ra imm12 rsv f h
  | .ori c rd ra imm12 rsv f => execOri_ev c rd ra imm12 rsv f h
  | .xori c rd ra imm12 rsv f => execXori_ev c rd ra imm12 rsv f h
  | .shli c rd ra imm12 rsv f => execShli_ev c rd ra imm12 rsv f h
  | .shri c rd ra imm12 rsv f => execShri_ev c rd ra imm12 rsv f h
  | .sari c rd ra imm12 rsv f => execSari_ev c rd ra imm12 rsv f h
  | .rori c rd ra imm12 rsv f => execRori_ev c rd ra imm12 rsv f h
  | .slti c rd ra imm12 rsv f => execSlti_ev c rd ra imm12 rsv f h
  | .sltui c rd ra imm12 rsv f => execSltui_ev c rd ra imm12 rsv f h
  | .movu c rd imm16 rsv f => execMovu_ev c rd imm16 rsv f h
  | .orl c rd imm16 rsv f => execOrl_ev c rd imm16 rsv f h
  | .subi c rd ra imm12 rsv f => execSubi_ev c rd ra imm12 rsv f h
  | .adpc c rd imm16 rsv f => execAdpc_ev c rd imm16 rsv f h
  | .ldw c rd ra imm12 rsv => execLdw_ev c rd ra imm12 rsv h
  | .ldh c rd ra imm12 rsv => execLdh_ev c rd ra imm12 rsv h
  | .ldhu c rd ra imm12 rsv => execLdhu_ev c rd ra imm12 rsv h
  | .ldb c rd ra imm12 rsv => execLdb_ev c rd ra imm12 rsv h
  | .ldbu c rd ra imm12 rsv => execLdbu_ev c rd ra imm12 rsv h
  | .stw c rd ra imm12 rsv => execStw_ev c rd ra imm12 rsv h
  | .sth c rd ra imm12 rsv => execSth_ev c rd ra imm12 rsv h
  | .stb c rd ra imm12 rsv => execStb_ev c rd ra imm12 rsv h
  | .swp c rd ra rb rsv f => execSwp_ev c rd ra rb rsv f h
  | .cas c rd ra rb rsv f => execCas_ev c rd ra rb rsv f h
  | .fadd c rd ra rb rsv f => execFadd_ev c rd ra rb rsv f h
  | .bc c cond rsv off16 => execBc_ev c cond rsv off16 h
  | .bz c ra rsv off16 => execBz_ev c ra rsv off16 h
  | .bnz c ra rsv off16 => execBnz_ev c ra rsv off16 h
  | .jmp c off24 rsv => execJmp_ev c off24 rsv h
  | .call c off24 rsv => execCall_ev c off24 rsv h
  | .jrl c rd ra rb fn rsv f => execJrl_ev c rd ra rb fn rsv f h
  | .fence c rd ra imm12 => execFence_ev c rd ra imm12 h
  | .rdf c rd ra imm12 => execRdf_ev c rd ra imm12 h
  | .wrf c rd ra imm12 => execWrf_ev c rd ra imm12 h
  | .crd c rd ra imm12 => execCrd_ev c rd ra imm12 h
  | .cwr c rd ra imm12 => execCwr_ev c rd ra imm12 h
  | .eret c rd ra imm12 => execEret_ev c rd ra imm12 h
  | .trap c rd ra imm12 => execTrap_ev c rd ra imm12 h
  | .snd c rd ra aux ch => execSnd_ev c rd ra aux ch h
  | .sndUnblock c => execSndUnblock_ev c h
  | .rcv c rd ra aux ch => execRcv_ev c rd ra aux ch h
  | .rcvUnblock c => execRcvUnblock_ev c h
  | .sndt c rd ra aux ch => execSndt_ev c rd ra aux ch h
  | .rcvt c rd ra aux ch => execRcvt_ev c rd ra aux ch h
  | .peek c rd ra aux ch => execPeek_ev c rd ra aux ch h
  | .waite c rd ra aux ch => execWaite_ev c rd ra aux ch h
  | .waiteUnblock c => execWaiteUnblock_ev c h
  | .sig c rd ra aux ch => execSig_ev c rd ra aux ch h
  | .tat c rd ra aux ch => execTat_ev c rd ra aux ch h
  | .tatUnblock c => execTatUnblock_ev c h
  | .tatApply ch => execTatApply_ev ch h
  | .tin c rd ra aux ch => execTin_ev c rd ra aux ch h
  | .tmark c rd ra aux ch => execTmark_ev c rd ra aux ch h
  | .tmarkRelease c => execTmarkRelease_ev c h
  | .kld c rd ra aux ch => execKld_ev c rd ra aux ch h
  | .kst c rd ra aux ch => execKst_ev c rd ra aux ch h
  | .kzap c rd ra aux ch => execKzap_ev c rd ra aux ch h
  | .flushD c => execFlushD_ev c h
  | .invI c => execInvI_ev c h
  | .scrub upset => execScrub_ev upset h
  | .xlateInvPage who ctx page => execXlateInvPage_ev who ctx page h
  | .xlateInvContext who ctx => execXlateInvContext_ev who ctx h
  | .xlateInvAll who => execXlateInvAll_ev who h
  | .xlateInvDone => execXlateInvDone_ev h
  | .program who key => execProgram_ev who key h
  | .erase who key => execErase_ev who key h
  | .suspend who key => execSuspend_ev who key h
  | .flashResume who key => execFlashResume_ev who key h
  | .flashDone failed => execFlashDone_ev failed h
  | .rescan src => execRescan_ev src h
  | .readCopy => execReadCopy_ev h
  | .writeCopy => execWriteCopy_ev h
  | .unitWrite => execUnitWrite_ev h
  | .ledgerRead => execLedgerRead_ev h
  | .ledgerWrite => execLedgerWrite_ev h
  | .writeIf => execWriteIf_ev h
  | .ledgerErase => execLedgerErase_ev h
  | .quickWrite => execQuickWrite_ev h
  | .raise => execRaise_ev h
  | .qCreate who operand => execQCreate_ev who operand h
  | .qDestroy who operand => execQDestroy_ev who operand h
  | .qStop who operand => execQStop_ev who operand h
  | .qStart who operand => execQStart_ev who operand h
  | .qBind who operand => execQBind_ev who operand h
  | .qQuery who operand => execQQuery_ev who operand h
  | .bReg who operand => execBReg_ev who operand h
  | .bUnreg who operand => execBUnreg_ev who operand h
  | .eAlloc who operand => execEAlloc_ev who operand h
  | .eFree who operand => execEFree_ev who operand h
  | .eQuery who operand => execEQuery_ev who operand h
  | .resume who operand => execResume_ev who operand h
  | .doorbell who value => execDoorbell_ev who value h
  | .descriptorFetch cage => execDescriptorFetch_ev cage h
  | .engineGrant engine => execEngineGrant_ev engine h
  | .dispatch cage => execDispatch_ev cage h
  | .endAtFrontEnd cage => execEndAtFrontEnd_ev cage h
  | .sliceEnd cage => execSliceEnd_ev cage h
  | .doneWord engine => execDoneWord_ev engine h
  | .waitTmo queue => execWaitTmo_ev queue h
  | .timeout cage => execTimeout_ev cage h
  | .hang engine => execHang_ev engine h
  | .adcStart via => execAdcStart_ev via h
  | .adcStop via => execAdcStop_ev via h
  | .adcInject via => execAdcInject_ev via h
  | .adcTrig rising => execAdcTrig_ev rising h
  | .adcResult codes => execAdcResult_ev codes h
  | .converged => execConverged_ev h
  | .adcCalRestart who => execAdcCalRestart_ev who h
  | .fieldStart => execFieldStart_ev h
  | .fieldStop => execFieldStop_ev h
  | .carrier => execCarrier_ev h
  | .underrun => execUnderrun_ev h
  | .maxon => execMaxon_ev h
  | .telegramEnd => execTelegramEnd_ev h
  | .measurementWindow amp phase => execMeasurementWindow_ev amp phase h
  | .short ch => execShort_ev ch h
  | .vbatLow low => execVbatLow_ev low h
  | .capScan low high => execCapScan_ev low high h
  | .uhfFrame ch sync frame power fine => execUhfFrame_ev ch sync frame power fine h
  | .loadRbe => execLoadRbe_ev h
  | .loadSts => execLoadSts_ev h
  | .loadExpired => execLoadExpired_ev h
  | .rbe => execRbe_ev h
  | .round => execRound_ev h
  | .lfZone => execLfZone_ev h
  | .rangeStop => execRangeStop_ev h
  | .cal => execCal_ev h
  | .rangeResult meas => execRangeResult_ev meas h
  | .hciTxd who value => execHciTxd_ev who value h
  | .hciPacket => execHciPacket_ev h
  | .muporSetBankAdvertising => execMuporSetBankAdvertising_ev h
  | .rxpop who value => execRxpop_ev who value h
  | .resync who value => execResync_ev who value h
  | .bleRxPacket acl packet => execBleRxPacket_ev acl packet h
  | .bleWake conn adv => execBleWake_ev conn adv h
  | .fieldOn => execFieldOn_ev h
  | .fieldOff => execFieldOff_ev h
  | .tx => execTx_ev h
  | .nfcStop => execNfcStop_ev h
  | .nfcResponse began ended status lastBits coll response => execNfcResponse_ev began ended status lastBits coll response h
  | .noResponse => execNoResponse_ev h
  | .kattrWrite slot value => execKattrWrite_ev slot value h
  | .encrypt => execEncrypt_ev h
  | .decrypt => execDecrypt_ev h
  | .update => execUpdate_ev h
  | .save => execSave_ev h
  | .restore => execRestore_ev h
  | .free => execFree_ev h
  | .genkey => execGenkey_ev h
  | .unwrapKey => execUnwrapKey_ev h
  | .wrapKey => execWrapKey_ev h
  | .derive => execDerive_ev h
  | .zap => execZap_ev h
  | .fuseRead => execFuseRead_ev h
  | .fuseWrite ok => execFuseWrite_ev ok h
  | .fuseClose ok => execFuseClose_ev ok h
  | .sign => execSign_ev h
  | .verify => execVerify_ev h
  | .ecdh => execEcdh_ev h
  | .genkeyEc => execGenkeyEc_ev h
  | .pubkey => execPubkey_ev h
  | .attest => execAttest_ev h
  | .sha256 => execSha256_ev h
  | .hmac => execHmac_ev h
  | .hmacVerify => execHmacVerify_ev h
  | .random => execRandom_ev h
  | .entKat => execEntKat_ev h
  | .entPattern => execEntPattern_ev h
  | .credNonce => execCredNonce_ev h
  | .credVerify => execCredVerify_ev h
  | .ticketOpen => execTicketOpen_ev h
  | .vmac => execVmac_ev h
  | .tokenNonce => execTokenNonce_ev h
  | .token => execToken_ev h
  | .revoke => execRevoke_ev h
  | .enrolBegin => execEnrolBegin_ev h
  | .enrolOrigin => execEnrolOrigin_ev h
  | .enrolKey => execEnrolKey_ev h
  | .enrolCommit => execEnrolCommit_ev h
  | .credErase => execCredErase_ev h
  | .mateVehicle => execMateVehicle_ev h
  | .trustSet => execTrustSet_ev h
  | .satAuthReq => execSatAuthReq_ev h
  | .satAuthCheck => execSatAuthCheck_ev h
  | .satMateOffer => execSatMateOffer_ev h
  | .satMateKey => execSatMateKey_ev h
  | .satMateConfirm => execSatMateConfirm_ev h
  | .satRoll => execSatRoll_ev h
  | .satRollConfirm => execSatRollConfirm_ev h
  | .crank => execCrank_ev h
  | .mateEngine => execMateEngine_ev h
  | .rollEngine => execRollEngine_ev h
  | .challenge frame => execChallenge_ev frame h
  | .crankDeadline => execCrankDeadline_ev h
  | .mateReply frame => execMateReply_ev frame h
  | .mateConfirm frame => execMateConfirm_ev frame h
  | .mateFrameTimeout => execMateFrameTimeout_ev h
  | .rollAck frame => execRollAck_ev frame h
  | .rollRepeat => execRollRepeat_ev h
  | .rollTimeout => execRollTimeout_ev h
  | .presenceSupervision => execPresenceSupervision_ev h
  | .holdOffEnd cls => execHoldOffEnd_ev cls h
  | .vehicleTimeWrite => execVehicleTimeWrite_ev h
  | .rawSampleBlock samples => execRawSampleBlock_ev samples h
  | .drbgInstantiate => execDrbgInstantiate_ev h
  | .generate => execGenerate_ev h
  | .reseed who => execReseed_ev who h
  | .restart who => execRestart_ev who h
  | .clrCnt who => execClrCnt_ev who h
  | .kat who => execKat_ev who h
  | .katComplete pass => execKatComplete_ev pass h
  | .entData who => execEntData_ev who h
  | .canSend => execCanSend_ev h
  | .linMaster => execLinMaster_ev h
  | .ethSend => execEthSend_ev h
  | .rxTake => execRxTake_ev h
  | .canFrameEnd n outcome => execCanFrameEnd_ev n outcome h
  | .canReceive n id flags af data ago ok => execCanReceive_ev n id flags af data ago ok h
  | .busOffRecovery n => execBusOffRecovery_ev n h
  | .recover who n => execRecover_ev who n h
  | .linBreakStart n => execLinBreakStart_ev n h
  | .linFrameEnd n response bitError => execLinFrameEnd_ev n response bitError h
  | .dominant n => execDominant_ev n h
  | .wakeRx n => execWakeRx_ev n h
  | .ethReceive port frame fcs ago fine => execEthReceive_ev port frame fcs ago fine h
  | .ethEgressDone port fine => execEthEgressDone_ev port fine h
  | .ageing => execAgeing_ev h
  | .linkChange port linked => execLinkChange_ev port linked h
  | .heartbeat p => execHeartbeat_ev p h
  | .aditReply frame crc => execAditReply_ev frame crc h
  | .attemptFailed => execAttemptFailed_ev h
  | .probe p => execProbe_ev p h
  | .rebindExpiry p => execRebindExpiry_ev p h
  | .rebind who p => execRebind_ev who p h
  | .bind who p => execBind_ev who p h
  | .untrust who p => execUntrust_ev who p h
  | .release who p => execRelease_ev who p h
  | .aditSend => execAditSend_ev h
  | .enum => execEnum_ev h
  | .auth => execAuth_ev h
  | .aditMate => execAditMate_ev h
  | .aditRoll => execAditRoll_ev h
  | .aditWake => execAditWake_ev h
  | .serialRead uart quad len addr hcrc => execSerialRead_ev uart quad len addr hcrc h
  | .serialWrite uart quad addr words hcrc dcrc => execSerialWrite_ev uart quad addr words hcrc dcrc h
  | .rescueInstall src => execRescueInstall_ev src h
  | .pcieAccess tgt len write => execPcieAccess_ev tgt len write h
  | .perstN => execPerstN_ev h
  | .pcieLinkChange linked speed => execPcieLinkChange_ev linked speed h
  | .pending quad req => execPending_ev quad req h
  | .spiCut quad req => execSpiCut_ev quad req h
  | .uartErr => execUartErr_ev h
  | .registerWrite who addr value => execRegisterWrite_ev who addr value h
  | .rawSample sample => execRawSample_ev sample h
  | .suspendTakesEffect => execSuspendTakesEffect_ev h
  | .rtcOscillatorRuns => execRtcOscillatorRuns_ev h
  | .fieldOnTakesEffect => execFieldOnTakesEffect_ev h
  | .deferredTxStart => execDeferredTxStart_ev h

/-- Settles O7: what a command answers evolves from the state it starts in, and that keeps the queue (log entry 94). -/
theorem commandKeepsQueue : Obligations.CommandKeepsQueue :=
  fun i s t h => (exec_ev i (Evolves.refl s) t h).pending

end Sys2Proof.Machine
end

section
/-! The laws of the reset requests and of the entry to SCAN, and the statement ResetResults assembled from them. -/
namespace Sys2Proof.Machine

/-! ### Reset requests (R1080, R1099, R1101) -/

theorem requestReset_off {s : State} (h : s.sys.mode = .off) (cause detail : Nat) : requestReset cause detail s = s :=
  if_pos (by simp [h])

theorem requestReset_banked {s : State} (h : s.sys.mode = .banked) (cause detail : Nat) : requestReset cause detail s =
    { s with pwr := { s.pwr with resetWake := some (mergeReset s.pwr.resetWake cause detail s.clk.rtc) } } := by
  unfold requestReset
  rw [if_neg (by simp [h]), if_pos (by simp [h])]

theorem requestReset_req {s : State} (h1 : s.sys.mode ≠ .off) (h2 : s.sys.mode ≠ .banked) (cause detail : Nat) :
    (requestReset cause detail s).pwr.resetReq = some (mergeReset s.pwr.resetReq cause detail s.clk.rtc) := by
  unfold requestReset
  rw [if_neg (by simpa using h1), if_neg (by simpa using h2)]

/-- The device runs and holds no request: a reset is requested. -/
theorem requestReset_live {s : State} (h : s.live = true) (cause detail : Nat) : requestReset cause detail s =
    { s with pwr := { s.pwr with entering := false, heldSrc := 0, resetReq := some ⟨cause, detail, s.clk.rtc⟩ } } := by
  obtain ⟨hoff, hbank, -, -, hreq⟩ := live_parts h
  exact requestReset_none cause detail hoff hbank hreq

/-- The reset causes in the order of R1099. -/
def resetOrder : List Nat := [1, 8, 2, 5, 7, 3, 6, 4]

theorem resetRank_eq_idxOf {cause : Nat} (h : cause ∈ resetOrder) : resetRank cause = resetOrder.idxOf cause := by
  revert cause
  decide

/-- A PIN reset beside a waiting request of a known cause. -/
theorem mergeReset_pin {r : ResetReq} (h : r.cause ∈ resetOrder) (rtc : Nat) : mergeReset (some r) 2 0 rtc =
    if resetOrder.idxOf 2 < resetOrder.idxOf r.cause then ⟨2, 0, r.since⟩ else r := by
  rw [← resetRank_eq_idxOf h, ← resetRank_eq_idxOf (by decide)]
  rfl

/-- The field core and the host interfaces may not write a register of the application cores and the Kiln core (R1098). -/
theorem appKiln_refuses {who : Req} (h : who = .core 4 ∨ who ∈ hostReqs) : Writers.appKiln.permits who = false := by
  revert h
  cases who <;> simp +decide [hostReqs, Writers.permits, Fin.ext_iff]

/-! ### The commands that request a reset -/

theorem softwareReset_key {s : State} {c : Fin 6} (h : c ≠ 4) :
    softwareReset (.core c) 0x5254 s = requestReset 4 c.val s :=
  when_true (by simp [permits_appKiln h]) _ s

theorem softwareReset_ignored {s : State} {who : Req} {key : BitVec 16}
    (h : key ≠ 0x5254 ∨ who = .core 4 ∨ who ∈ hostReqs) : softwareReset who key s = s := by
  refine when_false (Bool.and_eq_false_iff.2 ?_) _ s
  rcases h with h | h
  · exact .inr (beq_eq_false_iff_ne.2 h)
  · exact .inl (appKiln_refuses h)

theorem exec_watchdog_due {s : State} {n : Nat} (hl : s.live = true) (hw : s.pwr.wdtFrom = some n)
    (hd : n + 62400 * s.fld rPWR_WDT_CFG 15 0 ≤ s.clk.tb) : exec .watchdog s = .next (requestReset 3 0 s) := by
  refine next_when ?_ rfl
  simp [hl, wdtExpiry, hw, msTicks, Nat.mul_comm _ 62400, hd]

theorem exec_scanStall_due {s : State} (hl : s.live = true) (hm : s.sys.mode = .scan) (hd : s.sys.scanFrom + 6240000 ≤ s.clk.tb) :
    exec .scanStall s = .next (requestReset 6 0 s) :=
  next_when (by simp [hl, hm, msTicks, hd]) rfl

theorem exec_tbLock_due {s : State} {n : Nat} (hj : lockJudged s = true) (hb : s.sys.mode ≠ .banked)
    (hr : s.clk.running = false) (hu : s.clk.unlockedAt = some n) (hd : n + 4 ≤ s.clk.rtc) :
    exec .tbLock s = .next (requestReset 8 0 s) :=
  next_when (by simp [hj, hr, hu, hd, bankStopped, hb]) rfl

/-! ### The entry to SCAN (R63, R1082) -/

/-- The wait of a reset is over: RESET_N high, the ledger port idle, two RTC periods passed and the timebase in lock. -/
theorem resetOver_due {s : State} {r : ResetReq} (hq : s.sys.mode ≠ .quenched) (hf : s.assay.freezing = false)
    (hw : s.led.writing = none) (ht : r.since + 2 ≤ s.clk.rtc) (hu : s.clk.unlockedAt = none)
    (hl : r.cause = 8 → ∃ n, s.clk.relockedAt = some n ∧ n + 4 ≤ s.clk.rtc) : resetOver true r s = true := by
  have lock : (r.cause != 8 || s.clk.relockedAt.any (fun t => t + 4 ≤ s.clk.rtc)) = true := by
    by_cases h8 : r.cause = 8
    · obtain ⟨n, hn, hd⟩ := hl h8
      simp [hn, hd]
    · simp [h8]
  simp [resetOver, hw, ht, hu, lock, hf, hq]

theorem exec_resetEnterScan_over {s : State} {r : ResetReq} (hr : s.pwr.resetReq = some r) (ho : resetOver true r s = true)
    (hsel : BitVec 2) :
    exec (.resetEnterScan true hsel) s = .next (enterScan (s.sys.mode == .off) r.cause r.detail hsel s) := by
  show (.next (withSome s.pwr.resetReq _ s) : Out) = _
  rw [hr]
  exact next_when ho rfl

theorem enterScan_resetReq (p : Bool) (cause detail : Nat) (hsel : BitVec 2) (s : State) :
    (enterScan p cause detail hsel s).pwr.resetReq = none := rfl

/-- What an entry to SCAN does between the clock and the stores. -/
def scanOthers (p : Bool) (cause detail : Nat) (hsel : BitVec 2) (s : State) : State :=
  scanBlocks (scanMemory p (scanHost p hsel (scanAssay p (scanRegs p cause detail s))))

theorem scanOthers_clk (p : Bool) (cause detail : Nat) (hsel : BitVec 2) (s : State) :
    (scanOthers p cause detail hsel s).clk = s.clk := by
  cases p <;> rfl

theorem scanOthers_hsel (p : Bool) (cause detail : Nat) (hsel : BitVec 2) (s : State) :
    (scanOthers p cause detail hsel s).host.hsel = hsel := by
  cases p <;> rfl

/-- An entry to SCAN, with its last two fields left aside. -/
theorem enterScan_form (p : Bool) (cause detail : Nat) (hsel : BitVec 2) (s : State) : ∃ y w,
    enterScan p cause detail hsel s =
      { scanStores (scanOthers p cause detail hsel (scanClock p (tearFuse (cutFlash s)))) with sys := y, pwr := w } :=
  ⟨_, _, rfl⟩

theorem enterScan_clk (p : Bool) (cause detail : Nat) (hsel : BitVec 2) (s : State) :
    (enterScan p cause detail hsel s).clk = (scanClock p s).clk := by
  obtain ⟨f, n, htear⟩ := tearFuse_spec (cutFlash s)
  obtain ⟨y, w, h⟩ := enterScan_form p cause detail hsel s
  rw [h]
  dsimp only
  rw [scanStores_proj State.clk (fun _ _ _ _ _ _ _ => rfl), scanOthers_clk, htear]
  unfold scanClock
  dsimp only
  rw [(cutFlash_spec s).2.1]

theorem enterScan_scanFrom (p : Bool) (cause detail : Nat) (hsel : BitVec 2) (s : State) :
    (enterScan p cause detail hsel s).sys.scanFrom = (enterScan p cause detail hsel s).clk.tb := rfl

theorem enterScan_hsel (p : Bool) (cause detail : Nat) (hsel : BitVec 2) (s : State) :
    (enterScan p cause detail hsel s).host.hsel = hsel := by
  obtain ⟨y, w, h⟩ := enterScan_form p cause detail hsel s
  rw [h]
  dsimp only
  rw [scanStores_proj (fun u => u.host.hsel) (fun _ _ _ _ _ _ _ => rfl), scanOthers_hsel]

/-- Settles O33: each command requests the reset of its cause, and RESET_ENTER_SCAN enters SCAN once the wait is over. -/
theorem resetResults : Obligations.ResetResults := by
  unfold Obligations.ResetResults
  intro s who key c hsel
  refine ⟨fun h1 h2 h3 => congrArg Host.Outcome.next (requestReset_none 2 0 h1 h2 h3),
    fun h => congrArg Host.Outcome.next (requestReset_off h 2 0), fun r h1 h2 hr ho => ⟨_, rfl, ?pin⟩, fun hb hn => ?banked,
    fun hl hc => next_when hl ((softwareReset_key hc).trans (requestReset_live hl 4 c.val)),
    fun hl h => next_when hl (softwareReset_ignored h),
    fun n hl hw hd => (exec_watchdog_due hl hw hd).trans (congrArg _ (requestReset_live hl 3 0)),
    fun hl hm hd => (exec_scanStall_due hl hm hd).trans (congrArg _ (requestReset_live hl 6 0)),
    fun n h1 h2 h3 h4 h5 h6 h7 h8 => ?lock, fun r hr hq hf hw ht hu hl => ?scan⟩
  case pin =>
    rw [requestReset_req h1 h2, hr]
    exact congrArg some (mergeReset_pin ho _)
  case banked =>
    refine congrArg Host.Outcome.next ((requestReset_banked hb 2 0).trans ?_)
    rw [hn]
    rfl
  case lock =>
    exact (exec_tbLock_due (by simp [lockJudged, h1, h3, h4]) h2 h6 h7 h8).trans (congrArg _ (requestReset_none 8 0 h1 h2 h5))
  case scan =>
    obtain ⟨hmode, hcause, hepoch, -, hcores, -, -⟩ := enterScan_facts (s.sys.mode == .off) r.cause r.detail hsel s
    refine ⟨_, exec_resetEnterScan_over hr (resetOver_due hq hf hw ht hu hl) hsel, hmode, enterScan_scanFrom .., ?_, hepoch, hcores,
      enterScan_resetReq .., ?_, enterScan_hsel ..⟩
    · rw [hcause, fld, Nat.shiftLeft_eq, Nat.mul_comm, Nat.add_comm]
    · rw [enterScan_clk]
      simp [scanClock]

end Sys2Proof.Machine
end

section
/-! The laws of the transitions and of the requests for a mode, and the statement ModeRequests assembled from them. -/
namespace Sys2Proof.Machine

/-! ### What a transition leaves (R56, R67 to R69) -/

/-- The mode machine's state after a transition that starts no timer and closes no session. -/
def Sys.moved (y : Sys) (dst : Mode) (cause : Nat) : Sys :=
  { y with mode := dst, prev := some y.mode, cause := cause, approachEnd := none, tokenEnd := none }

/-- A transition from s to t whose mode machine then holds y: CHANGED is set, and the clock and the ledger stay. -/
def Changes (s t : State) (y : Sys) : Prop :=
  t.sys = y ∧ t.rbit rSYS_MODE_EVT 0 = true ∧ t.clk = s.clk ∧ t.led = s.led

/-- A mode whose entry leaves the timers of R67 and R70 off. -/
def untimed (m : Mode) : Prop := m ≠ .approach ∧ m ≠ .service ∧ m ≠ .quenched

theorem commitSys_keeping {s : State} {dst : Mode} {cause : Nat} (hd : untimed dst)
    (hc : closesSessions s.sys.mode dst cause = false) : commitSys dst cause s = s.sys.moved dst cause := by
  obtain ⟨ha, hs, hq⟩ := hd
  simp [commitSys, hc, ha, hs, hq, Sys.moved]

theorem commitSys_closing {s : State} {dst : Mode} {cause : Nat} (hd : untimed dst)
    (hc : closesSessions s.sys.mode dst cause = true) :
    commitSys dst cause s = { s.sys.moved dst cause with active := 0, grants := [] } := by
  obtain ⟨ha, hs, hq⟩ := hd
  simp [commitSys, hc, ha, hs, hq, Sys.moved]

theorem commit_changes (dst : Mode) (cause : Nat) (s : State) : Changes s (commit dst cause s) (commitSys dst cause s) := by
  obtain ⟨hsys, hevt, hclk, hled, -, -⟩ := commit_spec dst cause s
  exact ⟨hsys, hevt, hclk, hled⟩

theorem commit_keeping {s : State} {dst : Mode} {cause : Nat} (hd : untimed dst)
    (hc : closesSessions s.sys.mode dst cause = false) : Changes s (commit dst cause s) (s.sys.moved dst cause) :=
  commitSys_keeping hd hc ▸ commit_changes dst cause s

theorem commit_closing {s : State} {dst : Mode} {cause : Nat} (hd : untimed dst)
    (hc : closesSessions s.sys.mode dst cause = true) :
    Changes s (commit dst cause s) { s.sys.moved dst cause with active := 0, grants := [] } :=
  commitSys_closing hd hc ▸ commit_changes dst cause s

theorem raiseLockdown_changes {s : State} (h : lockable s.sys.mode = true) (b : Nat) : Changes s (raiseLockdown b s)
    { commitSys .lockdown (0x11 + b) s with lockCause := s.sys.lockCause ||| BitVec.ofNat 5 (1 <<< b), recordWanted := true } :=
  raiseLockdown_spec b s h

theorem raiseLockdown_lockdown {s : State} (h : s.sys.mode = .lockdown) (b : Nat) : raiseLockdown b s =
    { s with sys := { s.sys with
      lockCause := s.sys.lockCause ||| BitVec.ofNat 5 (1 <<< b), recordWanted := true, recovering := none } } := by
  simp [raiseLockdown, h, lockable, wantModeRecord]

/-- T09 (R67, R69). -/
theorem approachExpiry_due {s : State} {e : Nat} (hm : s.sys.mode = .approach) (he : s.sys.approachEnd = some e)
    (hd : e ≤ s.clk.tb) : approachExpiry s = commit .parked 0x08 s :=
  when_true (by simp [hm, he, hd]) _ s

theorem commit_approachExpiry (s : State) :
    Changes s (commit .parked 0x08 s) { s.sys.moved .parked 0x08 with active := 0, grants := [] } :=
  commit_closing (by simp [untimed]) (by simp [closesSessions])

/-! ### The transition table (R89, R90) -/

theorem modeTable_parked_access {s : State} (h : s.sys.mode = .access) : modeTable 5 s = commit .parked 0x04 s := by
  simp only [modeTable, h]

theorem modeTable_parked_service {s : State} (h : s.sys.mode = .service) :
    modeTable 5 s = commit (if s.sys.mated then .parked else .unmated) 0x04 s := by
  simp only [modeTable, h]

theorem modeTable_parked_refused {s : State} (ha : s.sys.mode ≠ .access) (hs : s.sys.mode ≠ .service) :
    modeTable 5 s = modeEvent 2 s := by
  unfold modeTable
  split <;> simp_all

theorem modeTable_access_drive {s : State} (h : s.sys.mode = .drive) : modeTable 8 s = commit .access 0x04 s := by
  simp only [modeTable, h]

theorem modeTable_access_grant {s : State} {n : Nat} (h : s.sys.mode = .approach) (hg : lowestGrant s = some n) :
    modeTable 8 s = commit .access 0x09 { s with sys := { s.sys with grants := adel s.sys.grants n } } := by
  simp only [modeTable, h, hg]

theorem modeTable_access_ungranted {s : State} (h : s.sys.mode = .approach) (hg : lowestGrant s = none) :
    modeTable 8 s = modeEvent 2 s := by
  simp only [modeTable, h, hg]

theorem modeTable_access_refused {s : State} (hd : s.sys.mode ≠ .drive) (ha : s.sys.mode ≠ .approach) :
    modeTable 8 s = modeEvent 2 s := by
  unfold modeTable
  split <;> simp_all

theorem modeTable_lockdown {s : State} (h : lockable s.sys.mode = true ∨ s.sys.mode = .lockdown) :
    modeTable 0xC s = raiseLockdown 4 s := by
  rw [modeTarget_lock, if_pos (by simpa using h)]

theorem modeTable_lockdown_refused {s : State} (h : lockable s.sys.mode = false) (hl : s.sys.mode ≠ .lockdown) :
    modeTable 0xC s = modeEvent 2 s := by
  rw [modeTarget_lock, if_neg (by simp [h, hl])]

/-- The grant that an ACCESS request takes is that of the lowest open session that holds one (R90). -/
theorem lowestGrant_some {s : State} {n tick : Nat} (hs : asorted s.sys.grants = true) (hg : aget? s.sys.grants n = some tick)
    (ha : s.sys.active.getLsbD n = true)
    (hm : ∀ m, m < n → s.sys.active.getLsbD m = true → aget? s.sys.grants m = none) : lowestGrant s = some n := by
  unfold lowestGrant
  rw [lowest_head (fun m => s.sys.active.getLsbD m) n tick s.sys.grants hs hg ha hm]
  rfl

theorem lowestGrant_none {s : State} (h : ∀ e ∈ s.sys.grants, s.sys.active.getLsbD e.1 = false) : lowestGrant s = none := by
  have none_open : s.sys.grants.filter (fun e => s.sys.active.getLsbD e.1) = [] :=
    List.filter_eq_nil_iff.2 (fun e he => by simp [h e he])
  rw [lowestGrant, none_open]
  rfl

/-! ### The requests (R88, R97, R104) -/

/-- A request with its key by a permitted core, with no approach timeout expired, is judged against the table. -/
theorem modeReq_unexpired {s : State} (hl : s.live = true) {c : Fin 6} (hc : c ≠ 4)
    (he : ∀ e, s.sys.mode = .approach → s.sys.approachEnd = some e → s.clk.tb < e) (n : Nat) :
    when s.live (modeRequest (.core c) 0x4D4F n) s = modeTable n s := by
  rw [modeReq_core hl hc, modeTarget, approachExpiry_none he]

/-- Where the approach timeout has expired, T09 comes before the request (R104, R106). -/
theorem modeReq_expired {s : State} (hl : s.live = true) {c : Fin 6} (hc : c ≠ 4) {e : Nat} (hm : s.sys.mode = .approach)
    (he : s.sys.approachEnd = some e) (hd : e ≤ s.clk.tb) (n : Nat) :
    when s.live (modeRequest (.core c) 0x4D4F n) s = modeTable n (commit .parked 0x08 s) := by
  rw [modeReq_core hl hc, modeTarget, approachExpiry_due hm he hd]

/-! ### LOCKDOWN from its source modes (R69, R73, R98) -/

theorem lockable_of_mem {m : Mode} (h : m ∈ [.approach, .access, .drive, .service] ∨ m ∈ [.unmated, .parked]) :
    lockable m = true := by
  revert h
  cases m <;> decide

theorem lockdown_closes {m : Mode} (h : m ∈ [.approach, .access, .drive, .service]) : closesSessions m .lockdown 0x15 = true := by
  revert h
  cases m <;> decide

theorem lockdown_keeps {m : Mode} (h : m ∈ [.unmated, .parked]) : closesSessions m .lockdown 0x15 = false := by
  revert h
  cases m <;> decide

/-- T18 from a mode in which sessions may be open. -/
theorem raiseLockdown_closing {s : State} (h : s.sys.mode ∈ [.approach, .access, .drive, .service]) :
    Changes s (raiseLockdown 4 s) { s.sys.moved .lockdown 0x15 with
      lockCause := s.sys.lockCause ||| 16, recordWanted := true, active := 0, grants := [] } := by
  have hsys := raiseLockdown_changes (lockable_of_mem (.inl h)) 4
  rw [commitSys_closing (by simp [untimed]) (lockdown_closes h)] at hsys
  exact hsys

/-- T18 from a mode without sessions. -/
theorem raiseLockdown_keeping {s : State} (h : s.sys.mode ∈ [.unmated, .parked]) :
    Changes s (raiseLockdown 4 s) { s.sys.moved .lockdown 0x15 with
      lockCause := s.sys.lockCause ||| 16, recordWanted := true } := by
  have hsys := raiseLockdown_changes (lockable_of_mem (.inr h)) 4
  rw [commitSys_keeping (by simp [untimed]) (lockdown_keeps h)] at hsys
  exact hsys

/-! ### What a request answers without the right, the key or the time -/

/-- The requests for PARKED, ACCESS and LOCKDOWN without the right or the key (R88). -/
theorem modeReq_badKey {s : State} (hl : s.live = true) {c : Fin 6} {key : BitVec 16} (h : key ≠ 0x4D4F ∨ c = 4) (n : Nat) :
    Notified (s.setRbit rSYS_MODE_EVT 1 true) (when s.live (modeRequest (.core c) key n) s) :=
  modeReq_bad hl h n ▸ modeEvent_notified 1 s

/-- The three requests where the approach timeout has expired: they meet PARKED, which only LOCKDOWN leaves. -/
theorem modeTable_after_expiry (s : State) :
    Notified ((commit .parked 0x08 s).setRbit rSYS_MODE_EVT 2 true) (modeTable 5 (commit .parked 0x08 s)) ∧
    Notified ((commit .parked 0x08 s).setRbit rSYS_MODE_EVT 2 true) (modeTable 8 (commit .parked 0x08 s)) ∧
    (modeTable 0xC (commit .parked 0x08 s)).sys = { (commit .parked 0x08 s).sys with
      mode := .lockdown, prev := some .parked, cause := 0x15
      lockCause := (commit .parked 0x08 s).sys.lockCause ||| 16, recordWanted := true } := by
  obtain ⟨hsys, -, -, -⟩ := commit_approachExpiry s
  have hmode : (commit .parked 0x08 s).sys.mode = .parked := by rw [hsys]; rfl
  obtain ⟨hlock, -, -, -⟩ := raiseLockdown_keeping (s := commit .parked 0x08 s) (by simp [hmode])
  refine ⟨modeTarget_refused (modeTable_parked_refused (by simp [hmode]) (by simp [hmode])),
    modeTarget_refused (modeTable_access_refused (by simp [hmode]) (by simp [hmode])), ?_⟩
  rw [modeTable_lockdown (.inl (by rw [hmode]; rfl)), hlock, hsys]
  rfl

/-! ### The obligation -/

/-- Settles O35: a request with its key is judged against the table, whose rows are the laws above; the others are refused. -/
theorem modeRequests : Obligations.ModeRequests := by
  unfold Obligations.ModeRequests
  intro s c who key hl
  refine ⟨fun hc he => ?table, fun e hc hm he hd => ?expired, fun h => ?badKey, fun h => ?host⟩
  case table =>
    have asks := fun n => modeReq_unexpired hl hc he n
    have answers {n : Nat} {t : State} (h : modeTable n s = t) :
        (.next (when s.live (modeRequest (.core c) 0x4D4F n) s) : Out) = .next t := congrArg _ ((asks n).trans h)
    have refused {n : Nat} (h : modeTable n s = modeEvent 2 s) : ∃ t,
        (.next (when s.live (modeRequest (.core c) 0x4D4F n) s) : Out) = .next t ∧ Notified (s.setRbit rSYS_MODE_EVT 2 true) t :=
      ⟨_, answers h, modeEvent_notified 2 s⟩
    refine ⟨fun h => ⟨_, answers (modeTable_parked_access h), commit_closing (by simp [untimed]) (by rw [h]; rfl)⟩,
      fun h => ⟨_, answers (modeTable_parked_service h), commit_closing ?_ (by rw [h]; rfl)⟩,
      fun h h' => refused (modeTable_parked_refused h h'),
      fun h => ⟨_, answers (modeTable_access_drive h), commit_keeping (by simp [untimed]) (by rw [h]; rfl)⟩,
      fun n tick h hs hg ha hlow => ⟨_, answers (modeTable_access_grant h (lowestGrant_some hs hg ha hlow)),
        commit_keeping (by simp [untimed]) (by rw [h]; rfl)⟩,
      fun h h' => refused (modeTable_access_refused h h'),
      fun h hg => refused (modeTable_access_ungranted h (lowestGrant_none hg)),
      fun h => ⟨_, answers (modeTable_lockdown (.inl (lockable_of_mem (.inl h)))), raiseLockdown_closing h⟩,
      fun h => ⟨_, answers (modeTable_lockdown (.inl (lockable_of_mem (.inr h)))), raiseLockdown_keeping h⟩,
      fun h => answers ((modeTable_lockdown (.inr h)).trans (raiseLockdown_lockdown h 4)),
      fun h => refused (modeTable_lockdown_refused ?_ ?_)⟩
    · split <;> simp [untimed]
    · revert h; cases s.sys.mode <;> decide
    · revert h; cases s.sys.mode <;> decide
  case expired =>
    obtain ⟨hparked, haccess, hlockdown⟩ := modeTable_after_expiry s
    obtain ⟨hsys, -, -, -⟩ := commit_approachExpiry s
    have answers := fun n => congrArg (Host.Outcome.next (φ := Fault) (ρ := Refusal)) (modeReq_expired hl hc hm he hd n)
    refine ⟨_, next_when hl (approachExpiry_due hm he hd), hsys, ⟨_, answers 5, hparked⟩, ⟨_, answers 8, haccess⟩, _, answers 0xC, hlockdown⟩
  case badKey =>
    exact ⟨⟨_, rfl, modeReq_badKey hl h 5⟩, ⟨_, rfl, modeReq_badKey hl h 8⟩, ⟨_, rfl, modeReq_badKey hl h 0xC⟩⟩
  case host =>
    have keeps := fun n => congrArg (Host.Outcome.next (φ := Fault) (ρ := Refusal)) (modeReq_host (s := s) (key := key) h n)
    exact ⟨keeps 5, keeps 8, keeps 0xC⟩

end Sys2Proof.Machine
end

section
/-! The laws of the session register, of the timers of the mode machine and of the mode record, and the statement
SessionResults assembled from them. -/
namespace Sys2Proof.Machine

/-! ### SESSION_OPEN (R67, R95, R1186) -/

/-- The state with further sessions open. -/
def State.opened (s : State) (mask : BitVec 8) : State := { s with sys := { s.sys with active := s.sys.active ||| mask } }

/-- Sessions opened where none of the two transitions follows. -/
theorem sessionWrite_opens {s : State} {mask : BitVec 8} (ho : opensSessions s.sys.mode = true) (hp : s.sys.mode ≠ .parked)
    (ha : s.sys.mode ≠ .approach ∨ s.sys.active ||| mask ≠ 0) (c : Fin 6) : sessionWrite (.core c) 0 mask s = s.opened mask := by
  have last_closed : ¬ (s.sys.mode = .approach ∧ s.sys.active ||| mask = 0) := fun h => ha.elim (· h.1) (· h.2)
  rw [sessionWrite_open, ho]
  simp only [Bool.not_true, Bool.false_and, when_false, if_true, Bool.and_eq_true, beq_iff_eq, hp, false_and, if_false,
    last_closed]
  rfl

/-- Sessions opened in PARKED: T07. -/
theorem sessionWrite_parked {s : State} {mask : BitVec 8} (hm : s.sys.mode = .parked) (ha : s.sys.active ||| mask ≠ 0) (c : Fin 6) :
    sessionWrite (.core c) 0 mask s = commit .approach 0x06 (s.opened mask) := by
  have ho : opensSessions s.sys.mode = true := by rw [hm]; rfl
  rw [sessionWrite_open, ho]
  exact if_pos (by simpa [when_false, hm] using ha)

/-- T07 starts the approach timeout (R67). -/
theorem commitSys_approach {s : State} {cause : Nat} (hc : closesSessions s.sys.mode .approach cause = false) :
    commitSys .approach cause s = { s.sys.moved .approach cause with
      approachEnd := some (s.clk.tb + 62400 * s.fld rSYS_APPROACH_TMO 13 0) } := by
  simp [commitSys, hc, Sys.moved, msTicks, Nat.mul_comm]

/-- Sessions opened in a mode that opens none: the write is refused (R95). -/
theorem sessionWrite_refused {s : State} {mask : BitVec 8} (ho : opensSessions s.sys.mode = false) (hm : mask ≠ 0) (c : Fin 6) :
    sessionWrite (.core c) 0 mask s = modeEvent 2 s := by
  have hmode : (modeEvent 2 s).sys.mode ≠ .parked ∧ (modeEvent 2 s).sys.mode ≠ .approach := by
    rw [(modeEvent_notified 2 s).sys, State.setRbit_sys]
    exact ⟨fun h => by simp [h, opensSessions] at ho, fun h => by simp [h, opensSessions] at ho⟩
  rw [sessionWrite_open, ho]
  simp only [Bool.not_false, Bool.true_and, bne_iff_ne, ne_eq, hm, not_false_eq_true, when_true, Bool.false_eq_true, if_false]
  simp [hmode]

/-! ### SESSION_CLOSE (R67, R1186) -/

/-- The state with sessions closed and their grants taken away, the Kiln holding k and cr. -/
def State.shut (s : State) (mask : BitVec 8) (k : Kiln) (cr : Creds) : State :=
  { s with
    sys := { s.sys with
      active := s.sys.active &&& ~~~mask
      grants := s.sys.grants.filter (fun e => !(mask.getLsbD e.1 && s.sys.active.getLsbD e.1)) }
    kiln := k, creds := cr }

theorem sessionWrite_close (s : State) (c : Fin 6) (mask : BitVec 8) : ∃ k cr, sessionWrite (.core c) mask 0 s =
    if s.sys.mode == .parked && s.sys.active &&& ~~~mask != 0 then commit .approach 0x06 (s.shut mask k cr)
    else if s.sys.mode == .approach && s.sys.active &&& ~~~mask == 0 then commit .parked 0x07 (s.shut mask k cr)
    else s.shut mask k cr := by
  obtain ⟨k, cr, h⟩ := dropSessions_spec (s.sys.active &&& mask) s
  refine ⟨k, cr, ?_⟩
  have opens_none : (if opensSessions s.sys.mode then s.sys.active &&& ~~~mask ||| (0 : BitVec 8) else s.sys.active &&& ~~~mask) =
      s.sys.active &&& ~~~mask := by
    rw [show s.sys.active &&& ~~~mask ||| (0 : BitVec 8) = s.sys.active &&& ~~~mask from BitVec.or_zero, ite_self]
  unfold sessionWrite
  dsimp only
  simp only [h, opens_none, bne_self_eq_false, Bool.and_false, when_false]
  rfl

theorem sessionWrite_closes {s : State} {mask : BitVec 8} (hp : s.sys.mode ≠ .parked ∨ s.sys.active &&& ~~~mask = 0)
    (ha : s.sys.mode ≠ .approach ∨ s.sys.active &&& ~~~mask ≠ 0) (c : Fin 6) :
    ∃ k cr, sessionWrite (.core c) mask 0 s = s.shut mask k cr := by
  obtain ⟨k, cr, h⟩ := sessionWrite_close s c mask
  refine ⟨k, cr, h.trans ?_⟩
  rw [if_neg, if_neg]
  · simpa [imp_iff_not_or] using ha
  · simpa [imp_iff_not_or] using hp

/-- The last session closed in APPROACH: T08. -/
theorem sessionWrite_last {s : State} {mask : BitVec 8} (hm : s.sys.mode = .approach) (hl : s.sys.active &&& ~~~mask = 0)
    (c : Fin 6) : ∃ k cr, sessionWrite (.core c) mask 0 s = commit .parked 0x07 (s.shut mask k cr) := by
  obtain ⟨k, cr, h⟩ := sessionWrite_close s c mask
  refine ⟨k, cr, h.trans ?_⟩
  rw [if_neg (by simp [hm]), if_pos (by simp [hm, hl])]

theorem sessionWrite_host {who : Req} (h : who ∈ hostReqs) (close open_ : BitVec 8) (s : State) :
    sessionWrite who close open_ s = s := by
  simp only [hostReqs, List.mem_cons, List.not_mem_nil, or_false] at h
  rcases h with rfl | rfl | rfl <;> rfl

/-! ### The timers (R60, R67, R70) -/

theorem exec_grantExpiry_due {s : State} {n : Fin 8} {e : Nat} (hl : s.live = true) (hg : aget? s.sys.grants n.val = some e)
    (hd : e + 31200000 ≤ s.clk.tb) :
    exec (.grantExpiry n) s = .next { s with sys := { s.sys with grants := adel s.sys.grants n.val } } := by
  have ended : e + msTicks 500 ≤ s.clk.tb := by
    unfold msTicks
    omega
  have expired : (aget? s.sys.grants n.val).any (fun t => t + msTicks 500 ≤ s.clk.tb) = true := by
    rw [hg, Option.any_some, decide_eq_true_eq]
    exact ended
  exact next_when (by rw [hl, expired]; rfl) rfl

theorem serviceEnd_due {s : State} {e : Nat} (hm : s.sys.mode = .service) (he : s.sys.tokenEnd = some e) (hd : e ≤ s.clk.rtc) :
    serviceEnd s = commit (if s.sys.mated then .parked else .unmated) 0x0D s :=
  when_true (by simp [hm, he, hd]) _ s

/-! ### The mode record (R57, R367, R368) -/

theorem modePayload_eq (mated : Bool) (lock : BitVec 5) (matings : Nat) : modePayload mated lock matings =
    leBytes 1 (if mated then 1 else 0) ++ leBytes 1 lock.toNat ++ leBytes 2 0 ++ leBytes 4 matings := by
  cases mated <;> rfl

/-- The write of a record: WRITING reads 1, and only the ledger and that bit change. -/
theorem beginCopy_spec (rec : Nat) (body : Bytes) (who : LedgerFor) (s : State) :
    (beginCopy rec body who s).rbit rLEDGER_STAT 2 = true ∧
    (beginCopy rec body who s).led.writing =
      some ⟨.copy rec (if current s rec = some 0 then 1 else 0), copyImage body (currentSeq s rec + 1), who⟩ ∧
    (∀ k, k ≠ rLEDGER_STAT → (beginCopy rec body who s).reg k = s.reg k) ∧
    beginCopy rec body who s =
      { s with led := (beginCopy rec body who s).led, regs := (beginCopy rec body who s).regs } := by
  unfold beginCopy
  exact ⟨rbit_setRbit _ _ _ _ (by omega), rfl, fun k hk => reg_setRbit_ne _ _ _ _ hk, rfl⟩

/-- The wanted write of the mode record, in the state in which it begins. -/
theorem exec_modeRecordWrite_due {s : State} (hl : s.live = true) (hr : s.sys.recordWanted = true) (hf : portFree s = true)
    (hw : currentSeq s 0 < 200000) : exec .modeRecordWrite s =
      .next (beginCopy 0 (deviceBody 0 (modePayload s.sys.mated s.sys.lockCause (storedMatings s))) .modeRecord
        { s with sys := { s.sys with recordWanted := false } }) := by
  refine next_when (by simp [hl, hr, hf]) (if_neg ?_)
  show ¬ decide (currentSeq s 0 + 1 > 200000) = true
  simpa using hw

/-! ### The obligation -/

/-- Settles O36: each command's law, read in the modes that the clause names. -/
theorem sessionResults : Obligations.SessionResults := by
  unfold Obligations.SessionResults
  intro s c who mask n hl
  refine ⟨fun h => ⟨_, next_when hl (sessionWrite_opens ?opens ?unparked ?last_open c), rfl⟩,
    fun hm ha => ⟨_, next_when hl (sessionWrite_parked hm ha c), ?approach⟩,
    fun hm h => ⟨_, next_when hl (sessionWrite_refused ?refuses h c), modeEvent_notified 2 s⟩,
    fun hp ha => ?closes, fun hm h => ?last,
    fun h => ⟨next_when hl (sessionWrite_host h 0 mask s), next_when hl (sessionWrite_host h mask 0 s)⟩,
    fun e hm he hd => ⟨_, next_when hl (approachExpiry_due hm he hd), commit_approachExpiry s⟩,
    fun e hg hd => exec_grantExpiry_due hl hg hd,
    fun e hm he hd => ⟨_, next_when hl (serviceEnd_due hm he hd), commit_closing ?served (by rw [hm]; rfl)⟩,
    fun hr h1 h2 h3 hw => ?record⟩
  case opens =>
    simp only [List.mem_cons, List.not_mem_nil, or_false] at h
    rcases h with (h | h | h) | ⟨h, -⟩ <;> rw [h] <;> rfl
  case unparked =>
    intro hp
    simp [hp] at h
  case last_open => exact h.elim (fun h => .inl fun ha => by simp [ha] at h) (fun h => .inr h.2)
  case approach =>
    obtain ⟨hsys, hrest⟩ := commit_changes .approach 0x06 (s.opened mask)
    exact ⟨hsys.trans (commitSys_approach (by rw [State.opened, hm]; rfl)), hrest⟩
  case refuses =>
    revert hm
    cases s.sys.mode <;> decide
  case closes =>
    obtain ⟨k, cr, h⟩ := sessionWrite_closes hp ha c
    exact ⟨_, next_when hl h, rfl⟩
  case last =>
    obtain ⟨k, cr, hw⟩ := sessionWrite_last hm h c
    obtain ⟨hsys, hrest⟩ := commit_keeping (s := s.shut mask k cr) (dst := .parked) (cause := 0x07) (by simp [untimed])
      (by rw [State.shut, hm]; rfl)
    refine ⟨_, next_when hl hw, hsys.trans ?_, hrest⟩
    rw [State.shut, h]
    rfl
  case served => split <;> simp [untimed]
  case record =>
    have hfree : portFree s = true := by simp [portFree, h1, h2, h3]
    obtain ⟨hbit, hwriting, hregs, hrest⟩ := beginCopy_spec 0 (deviceBody 0 (modePayload s.sys.mated s.sys.lockCause (storedMatings s)))
      .modeRecord { s with sys := { s.sys with recordWanted := false } }
    refine ⟨_, exec_modeRecordWrite_due hl hr hfree hw, hbit, ?_, hregs, hrest⟩
    rw [hwriting, modePayload_eq]
    rfl

end Sys2Proof.Machine
end

section
/-! The laws of the end of the ledger scan, of the Kiln's judgement of a slot and of the choice of an image, and the statement
BootResults assembled from them. -/
namespace Sys2Proof.Machine

/-! ### LEDGER_SCAN_DONE (R62, R64, R79, R382) -/

/-- With no channel write that waits and no job of the Kiln, the end of the scan is its registers alone. -/
theorem scanDone_idle {s : State} (hw : s.led.waiting = none) (hj : s.creds.jobs = []) : scanDone s = scanResult s := by
  have hrest := (scanResult_spec s).1
  have waiting : (scanResult s).led.waiting = none := by rw [hrest]; exact hw
  have jobs : (scanResult s).creds.jobs = [] := by rw [hrest]; exact hj
  rw [scanDone, startWaitingWrite_none waiting, kick4_idle jobs]

theorem exec_ledgerScanDone_idle {s : State} {n : Nat} (hl : s.live = true) (hn : s.led.scanFrom = some n)
    (hw : s.led.waiting = none) (hj : s.creds.jobs = []) :
    exec .ledgerScanDone s = .next (scanEnds (scanResult s)) :=
  next_when (by simp [hl, hn]) (by rw [scanDone_idle hw hj])

/-- SCAN does not end while the ledger scan or the choice of an image is still to come. -/
theorem scanEnds_waits {s : State} (h : s.sys.mode ≠ .scan ∨ s.sys.imageChosen = false ∨ s.led.scanFrom ≠ none) :
    scanEnds s = s := by
  refine when_false ?_ _ s
  rcases h with h | h | h
  · simp [h]
  · simp [h]
  · simp [Option.isNone_eq_false_iff, Option.isSome_iff_ne_none.2 h]

theorem scanEnds_ends {s : State} (hm : s.sys.mode = .scan) (hi : s.sys.imageChosen = true) (hn : s.led.scanFrom = none) :
    scanEnds s = endScan s :=
  when_true (by simp [hm, hi, hn]) _ s

/-- The mode after SCAN (R64). -/
theorem afterScan_eq (s : State) : afterScan s =
    if s.fuses.closed = false then .factory
    else if storedLock s ≠ 0 ∨ s.rbit rPWR_TAMPER 1 = true then .lockdown
    else if storedMated s = true then .parked else .unmated := by
  simp [afterScan, tamperLatched]

/-- What T04 leaves in the mode machine. -/
theorem endScan_sys {s : State} (hm : s.sys.mode = .scan) : (endScan s).sys.mode = afterScan s ∧ (endScan s).sys.prev = some .scan ∧
    (endScan s).sys.cause = (if afterScan s = .lockdown then 0x16 else 0x03) ∧ (endScan s).sys.mated = storedMated s ∧
    (endScan s).sys.lockCause = storedLock s ||| (if s.rbit rPWR_TAMPER 1 = true then 2 else 0) := by
  rw [(endScan_spec s).1]
  refine ⟨rfl, ?_, ?_, rfl, rfl⟩
  · exact congrArg some hm
  · simp only [commitSys, beq_iff_eq]

/-- The registers and stores that the end of SCAN judges by are those before the end of the ledger scan. -/
structure SameBoot (s t : State) : Prop where
  fuses : t.fuses = s.fuses
  copies : t.led.copies = s.led.copies
  tamper : t.reg rPWR_TAMPER = s.reg rPWR_TAMPER
  boot : t.reg rFLASH_BOOT = s.reg rFLASH_BOOT

theorem scanResult_sameBoot (s : State) : SameBoot s (scanResult s) := by
  obtain ⟨hrest, -, -, -, hregs⟩ := scanResult_spec s
  exact ⟨by rw [hrest], by rw [hrest], hregs _ (by decide), hregs _ (by decide)⟩

theorem SameBoot.afterScan {s t : State} (h : SameBoot s t) : afterScan t = afterScan s := by
  rw [afterScan_eq, afterScan_eq, h.fuses, storedLock_of_copies h.copies, storedMated_of_copies h.copies, rbit_of_reg h.tamper]

/-! ### KILN_JUDGEMENT (R332, R334) -/

theorem choosing_of {s : State} (hl : s.live = true) (hm : s.sys.mode = .scan) (hi : s.sys.imageChosen = false) : s.choosing = true := by
  simp [State.choosing, hl, hm, hi]

/-- The slot that the Kiln core judges next: of two the one with the higher version, slot A on a tie. -/
theorem nextSlot_some {s : State} {n : Nat}
    (h : (bootResult s 0 = 6 ∧ bootResult s 1 = 6 ∧
        n = (if hdrVersion (slotRead s 0 0 256) < hdrVersion (slotRead s 1 0 256) then 1 else 0)) ∨
      (bootResult s 0 = 6 ∧ bootResult s 1 ∉ [0, 6] ∧ n = 0) ∨ (bootResult s 1 = 6 ∧ bootResult s 0 ∉ [0, 6] ∧ n = 1)) :
    nextSlot s = some n := by
  simp only [List.mem_cons, List.not_mem_nil, or_false, not_or] at h
  rcases h with ⟨h0, h1, hn⟩ | ⟨h0, ⟨hv, h1⟩, rfl⟩ | ⟨h1, ⟨hv, h0⟩, rfl⟩
  · rw [hn]
    simp [nextSlot, h0, h1]
  · simp [nextSlot, h0, h1, hv]
  · simp [nextSlot, h0, h1, hv]

theorem nextSlot_none {s : State} (h : bootResult s 0 = 0 ∨ bootResult s 1 = 0 ∨ (bootResult s 0 ≠ 6 ∧ bootResult s 1 ≠ 6)) :
    nextSlot s = none := by
  rcases h with h | h | ⟨h0, h1⟩
  · simp [nextSlot, h]
  · simp [nextSlot, h]
  · simp [nextSlot, h0, h1]

/-- The code that the Kiln core gives a slot whose header is sound (R329). -/
def slotJudgement (s : State) (n : Nat) : Nat :=
  judgeBody s (slotRead s n 0 256) (slotRead s n 0x100 (hdrBodyLen (slotRead s n 0 256)))

theorem judgeBody_eq (s : State) (h body : Bytes) : judgeBody s h body =
    if signKeyOk s h = false ∨ ecdsaVerify (slice h 0x60 64) (sha256 (slice h 0 0xA0)) (slice h 0xA0 64) = false then 4
    else if sha256 body ≠ slice h 0x40 32 then 3 else 0 := by
  simp only [judgeBody, Bool.or_eq_true, Bool.not_eq_true', bne_iff_ne]

theorem judgeBody_lt (s : State) (h body : Bytes) : judgeBody s h body < 16 := by
  unfold judgeBody
  split_ifs <;> decide

theorem judgeImage_body {s : State} {n : Nat} (h : judgeHeader s n true (slotRead s n 0 256) = none) :
    judgeImage s n true (slotRead s n) = slotJudgement s n := by
  rw [judgeImage, h]
  rfl

/-- A slot is judged by what the mailboxes do not hold. -/
theorem judgeImage_chans (s : State) (ch : Chans) (n : Nat) :
    judgeImage { s with chans := ch } n true (slotRead { s with chans := ch } n) = judgeImage s n true (slotRead s n) := rfl

/-- The slot's base to the Kiln core and its code back to core 0 (R332). -/
def passJudgement (s : State) (n : Nat) : State :=
  passWord 5 0 (wd (slotJudgement s n)) (passWord 0 5 (wd (slotBase n)) s)

theorem passJudgement_rest (s : State) (n : Nat) : ∃ ch, passJudgement s n = { s with chans := ch } := by
  obtain ⟨ch, h⟩ := passWord_spec 0 5 (wd (slotBase n)) s
  obtain ⟨ch', h'⟩ := passWord_spec 5 0 (wd (slotJudgement s n)) { s with chans := ch }
  exact ⟨ch', by rw [passJudgement, h, h']⟩

/-- Both words pass through mailboxes that hold none. -/
theorem passJudgement_chan {s : State} (n : Nat) (h05 : (s.chan (mailKey 0 5)).q = [] ∧ (s.chan (mailKey 0 5)).back = [])
    (h50 : (s.chan (mailKey 5 0)).q = [] ∧ (s.chan (mailKey 5 0)).back = []) (k : Nat) :
    ((passJudgement s n).chan k).q = (s.chan k).q := by
  have there := passWord_through 0 5 (wd (slotBase n)) s h05.1 h05.2
  have back := passWord_through 5 0 (wd (slotJudgement s n)) (passWord 0 5 (wd (slotBase n)) s)
    ((there _).1.trans h50.1) ((there _).2.trans h50.2) k
  exact back.1.trans (there k).1

theorem kilnJudgement_next {s : State} {n : Nat} (hs : stageOne s = s) (hn : nextSlot s = some n)
    (hj : judgeHeader s n true (slotRead s n 0 256) = none) :
    kilnJudgement s = setBootResult n (slotJudgement s n) (passJudgement s n) := by
  obtain ⟨ch, h⟩ := passWord_spec 0 5 (wd (slotBase n)) s
  unfold kilnJudgement passJudgement
  dsimp only
  rw [hs, hn]
  show setBootResult n _ _ = _
  rw [h, judgeImage_chans, judgeImage_body hj]

theorem bootResult_setBootResult {n code : Nat} (hn : n ≤ 1) (hc : code < 16) (s : State) :
    bootResult (setBootResult n code s) n = code := by
  rw [bootResult, setBootResult, fld_setFld _ _ _ _ _ (by omega), show 11 + 4 * n + 1 - (8 + 4 * n) = 4 by omega]
  exact Nat.mod_eq_of_lt hc

theorem setBootResult_reg_ne {k : Nat} (hk : k ≠ rFLASH_BOOT) (n code : Nat) (s : State) :
    (setBootResult n code s).reg k = s.reg k := reg_setFld_ne s _ _ _ _ hk

/-! ### IMAGE_CHOSEN (R335, R336) -/

/-- The choice of a valid slot, while the ledger scan runs. -/
theorem chooseImage_valid {s : State} {n : Nat} (hs : stageOne s = s) (hl : s.led.scanFrom ≠ none)
    (h : (bootResult s 0 = 0 ∧ n = 0) ∨ (bootResult s 0 ≠ 0 ∧ bootResult s 1 = 0 ∧ n = 1)) :
    chooseImage s = (({ s with sys := { s.sys with imageChosen := true } }).setRbit rFLASH_PROT n true).setFld rFLASH_BOOT 1 0 (n + 1) := by
  have slot : nextSlot s = none ∧ [0, 1].find? (fun n => bootResult s n = 0) = some n := by
    rcases h with ⟨h0, rfl⟩ | ⟨h0, h1, rfl⟩
    · exact ⟨nextSlot_none (.inl h0), by simp [h0]⟩
    · exact ⟨nextSlot_none (.inr (.inl h1)), by simp [h0, h1]⟩
  unfold chooseImage
  dsimp only
  rw [hs, slot.1]
  have chosen : [0, 1].find? (fun n => bootResult { s with sys := { s.sys with imageChosen := true } } n = 0) = some n := slot.2
  dsimp only
  rw [chosen]
  exact scanEnds_waits (.inr (.inr hl))

/-- With no valid slot the rescue loader runs (R336). -/
theorem chooseImage_rescue {s : State} (hs : stageOne s = s) (hl : s.led.scanFrom ≠ none)
    (h0 : bootResult s 0 ∉ [0, 6]) (h1 : bootResult s 1 ∉ [0, 6]) :
    chooseImage s = ({ s with sys := { s.sys with imageChosen := true }, host := { s.host with rescue := true } }).setFld rFLASH_BOOT 1 0 0 := by
  simp only [List.mem_cons, List.not_mem_nil, or_false, not_or] at h0 h1
  unfold chooseImage
  dsimp only
  rw [hs, nextSlot_none (.inr (.inr ⟨h0.2, h1.2⟩))]
  have chosen : [0, 1].find? (fun n => bootResult { s with sys := { s.sys with imageChosen := true } } n = 0) = none := by
    simp [show ∀ n, bootResult { s with sys := { s.sys with imageChosen := true } } n = bootResult s n from fun _ => rfl, h0.1, h1.1]
  dsimp only
  rw [chosen]
  exact scanEnds_waits (.inr (.inr hl))

/-! ### The obligation -/

/-- Settles O37: the end of the ledger scan, the Kiln's judgement and the choice of an image by the laws above. The words that
the mailboxes pass and the order of the boot's commands are the model's (log entries 51 and 54). -/
theorem bootResults : Obligations.BootResults := by
  unfold Obligations.BootResults
  intro s hl
  refine ⟨fun n hn hw hj => ⟨fun h => ?scanned, fun hm hi => ?ended⟩, fun hm hi hwr hst => ?boot⟩
  case scanned =>
    obtain ⟨hrest, hscan, hdone, htime, hregs⟩ := scanResult_spec s
    have waits : scanEnds (scanResult s) = scanResult s :=
      scanEnds_waits (by rw [hrest]; exact h.elim .inl (fun h => .inr (.inl h)))
    refine ⟨_, (exec_ledgerScanDone_idle hl hn hw hj).trans (congrArg _ waits), hscan, hdone, ?_, hregs, hrest⟩
    rw [htime, hn]
    rfl
  case ended =>
    obtain ⟨hrest, -, hdone, -, -⟩ := scanResult_spec s
    have hsame := scanResult_sameBoot s
    have hmode : (scanResult s).sys.mode = .scan := by rw [hrest]; exact hm
    have ends : scanEnds (scanResult s) = endScan (scanResult s) :=
      scanEnds_ends hmode (by rw [hrest]; exact hi) (by rw [hrest])
    obtain ⟨emode, eprev, ecause, emated, elock⟩ := endScan_sys hmode
    obtain ⟨-, hbit, hcores⟩ := endScan_spec (scanResult s)
    refine ⟨_, (exec_ledgerScanDone_idle hl hn hw hj).trans (congrArg _ ends), ?_, eprev, ?_, ?_, ?_, hbit.trans hdone, ?_⟩
    · rw [emode, hsame.afterScan, afterScan_eq]
    · rw [ecause, emode]
    · rw [emated, storedMated_of_copies hsame.copies]
    · rw [elock, storedLock_of_copies hsame.copies, rbit_of_reg hsame.tamper]
    · have cores : (scanResult s).cores = s.cores := by rw [hrest]
      rw [fld_of_reg hsame.boot, cores] at hcores
      exact hcores
  case boot =>
    have hready : (s.choosing && !rollbackBusy s) = true := by rw [choosing_of hl hm hi, rollback_free hwr]; rfl
    have hstage := stageOne_done hst
    refine ⟨fun n h => ?judged, fun hscan => ⟨fun n h => ?valid, fun h0 h1 => ?rescue⟩⟩
    case judged =>
      have hslot : n ∈ [0, 1] ∧ n ≤ 1 ∧ bootResult s n = 6 := by
        rcases h with ⟨h0, h1, hn⟩ | ⟨h0, -, rfl⟩ | ⟨h1, -, rfl⟩
        · rw [hn]
          split_ifs <;> simp [h0, h1]
        · simp [h0]
        · simp [h1]
      obtain ⟨hmem, hle, h6⟩ := hslot
      obtain ⟨ch, hpass⟩ := passJudgement_rest s n
      refine ⟨_, next_when hready (kilnJudgement_next hstage (nextSlot_some h) (hst n hmem h6)),
        fun k hk => (setBootResult_reg_ne hk _ _ _).trans (by rw [hpass]; rfl), by rw [hpass]; rfl,
        fun h05 h50 => passJudgement_chan n h05 h50,
        (bootResult_setBootResult hle (judgeBody_lt _ _ _) _).trans (judgeBody_eq ..)⟩
    case valid =>
      have hle : n ≤ 1 := by rcases h with ⟨-, rfl⟩ | ⟨-, -, rfl⟩ <;> omega
      refine ⟨_, next_when hready (chooseImage_valid hstage hscan h), rfl, ?_, ?_, rfl⟩
      · exact (rbit_of_reg (reg_setFld_ne _ _ _ _ _ (by decide)) n).trans (rbit_setRbit _ _ _ _ (by omega))
      · rw [fld_setFld _ _ _ _ _ (by omega)]
        exact Nat.mod_eq_of_lt (by omega)
    case rescue =>
      exact ⟨_, next_when hready (chooseImage_rescue hstage hscan h0 h1), rfl, fld_setFld _ _ _ _ _ (by omega), rfl, rfl⟩

end Sys2Proof.Machine
end

section
/-! The laws of the watchdog's two registers and of the timebase's lock, and the statement WatchdogAndLock assembled from them. -/
namespace Sys2Proof.Machine

/-! ### PWR_WDT_CFG (R1084, R1098) -/

/-- The word that an enabling write stores: EN, and TMO_MS kept within its limits. -/
def wdtEnabled (v : Word) : Word := setBit (wd (clamp 10 60000 (bits v 15 0))) 31 true

theorem wdtEnabled_en (v : Word) : bit (wdtEnabled v) 31 = true := bit_setBit_self _ _ _ (by omega)

theorem wdtEnabled_tmo (v : Word) : bits (wdtEnabled v) 15 0 = max 10 (min 60000 (v.toNat % 65536)) := by
  have fits : clamp 10 60000 (bits v 15 0) < 65536 := by
    unfold clamp
    omega
  rw [wdtEnabled, bits_setBit_ne _ _ _ _ _ (by omega) (by omega), bits_wd _ _ _ (by omega), Nat.pow_zero, Nat.div_one]
  exact Nat.mod_eq_of_lt fits

theorem wdtWrite_enables {who : Req} {v : Word} {s : State} (hw : Writers.appKiln.permits who = true)
    (he : s.rbit rPWR_WDT_CFG 31 = false) (hv : v.getLsbD 31 = true) :
    wdtWrite who v s =
      { s.setReg rPWR_WDT_CFG (wdtEnabled v) with pwr := { s.pwr with wdtFrom := some s.clk.tb } } := by
  have en : bit v 31 = true := hv
  unfold wdtWrite
  rw [if_neg (by simp [hw, he]), en]
  exact when_true rfl _ _

theorem wdtWrite_locked {s : State} (he : s.rbit rPWR_WDT_CFG 31 = true) (who : Req) (v : Word) : wdtWrite who v s = s :=
  if_pos (by simp [he])

/-! ### PWR_WDT_KICK (R1085, R1098) -/

theorem permits_app {c : Fin 6} (h : c.val < 4) : Writers.app.permits (.core c) = true := decide_eq_true h

/-- The Kiln core, the field core and the host interfaces may not write a register of the application cores (R1098). -/
theorem app_refuses {who : Req} (h : who = .core 4 ∨ who = .core 5 ∨ who ∈ hostReqs) : Writers.app.permits who = false := by
  rcases h with rfl | rfl | h
  · rfl
  · rfl
  · revert h
    cases who <;> simp [hostReqs, Writers.permits]

theorem kick_restarts {who : Req} {s : State} {n : Nat} (hw : Writers.app.permits who = true) (hn : s.pwr.wdtFrom = some n) :
    kick who 0x574B s = { s with pwr := { s.pwr with wdtFrom := some s.clk.tb } } :=
  when_true (by simp [hw, hn]) _ s

theorem kick_ignored {who : Req} {key : BitVec 16} (h : key ≠ 0x574B ∨ Writers.app.permits who = false) (s : State) :
    kick who key s = s := by
  refine when_false ?_ _ s
  rcases h with h | h
  · rw [beq_eq_false_iff_ne.2 h, Bool.and_false, Bool.false_and]
  · rw [h, Bool.false_and, Bool.false_and]

/-! ### The timebase's lock (R133) -/

theorem lockJudged_of {s : State} (h1 : s.sys.mode ≠ .off) (h2 : s.sys.mode ≠ .quenched) (h3 : s.assay.freezing = false) :
    lockJudged s = true := by
  simp [lockJudged, h1, h2, h3]

theorem bankStopped_of_not_banked {s : State} (h : s.sys.mode ≠ .banked) : bankStopped s = false := by
  simp [bankStopped, h]

/-- The state with LOCK at b and the clock's state replaced. -/
def State.withLock (s : State) (b : Bool) (k : Clock) : State := { s.setRbit rTB_STAT 0 b with clk := k }

theorem withLock_spec (s : State) (b : Bool) (k : Clock) :
    (s.withLock b k).rbit rTB_STAT 0 = b ∧ (∀ j, j ≠ rTB_STAT → (s.withLock b k).reg j = s.reg j) ∧
      s.withLock b k = { s with regs := (s.withLock b k).regs, clk := k } :=
  ⟨rbit_setRbit s rTB_STAT 0 b (by omega), fun _ hj => reg_setRbit_ne s rTB_STAT 0 b hj, rfl⟩

theorem exec_tbLockLoss_running {s : State} (hj : lockJudged s = true) (hb : bankStopped s = false) (hr : s.clk.running = true) :
    exec .tbLockLoss s =
      .next (s.withLock false { s.clk with running := false, unlockedAt := some s.clk.rtc, relockedAt := none }) :=
  next_when hj ((if_neg (by simp [hb])).trans (when_true hr _ s))

theorem exec_tbRelock_stopped {s : State} (hj : lockJudged s = true) (hb : bankStopped s = false) (hr : s.clk.running = false)
    (hu : s.clk.unlockedAt ≠ none) :
    exec .tbRelock s =
      .next (s.withLock true { s.clk with running := true, unlockedAt := none, relockedAt := some s.clk.rtc }) :=
  next_when (by simp [hj, Option.isSome_iff_ne_none.2 hu]) (if_neg (by simp [hb, hr]))

/-! ### The obligation -/

/-- Settles O34: the writes of the watchdog's registers, and the loss and the return of the timebase's lock, by the laws above. -/
theorem watchdogAndLock : Obligations.WatchdogAndLock := by
  unfold Obligations.WatchdogAndLock
  intro s who key v c
  refine ⟨fun hl hc he hv => ?enables, fun hl he => next_when hl (wdtWrite_locked he who v),
    fun n hl hc hn => next_when hl (kick_restarts (permits_app hc) hn),
    fun hl h => next_when hl (kick_ignored (h.imp_right app_refuses) s), fun hr h1 h2 h3 h4 => ?loss,
    fun hu hr h1 h2 h3 h4 => ?relock⟩
  case enables =>
    have stored := reg_setReg_self s rPWR_WDT_CFG (wdtEnabled v)
    exact ⟨_, next_when hl (wdtWrite_enables (permits_appKiln hc) he hv),
      (congrArg (bit · 31) stored).trans (wdtEnabled_en v), (congrArg (bits · 15 0) stored).trans (wdtEnabled_tmo v),
      fun k hk => reg_setReg_ne s rPWR_WDT_CFG _ hk, rfl⟩
  case loss =>
    exact ⟨_, exec_tbLockLoss_running (lockJudged_of h1 h3 h4) (bankStopped_of_not_banked h2) hr, withLock_spec s _ _⟩
  case relock =>
    exact ⟨_, exec_tbRelock_stopped (lockJudged_of h1 h3 h4) (bankStopped_of_not_banked h2) hr hu, withLock_spec s _ _⟩

end Sys2Proof.Machine
end

section
/-! The operations of formats A and I: what each answers, with its flags, in the terms of R159 to R165. -/
namespace Sys2Proof.Machine

/-! ### Instructions on registers (R159) -/

/-- What an operation answers in the terms of a statement: its result, and FLG with F at 0 or 1. -/
def BinOp.Answers (op : BinOp) (f : Bool) (old : BitVec 4) (a b r : Word) (flg : BitVec 4) : Prop :=
  (op old a b).1 = r ∧ (if f then (op old a b).2 else old) = flg

variable {c : Fin 6} {s t : State}

theorem opA_answers (h : Fetches c s t) {op : BinOp} {f : Bool} {rd ra rb : Fin 16} {r : Word} {flg : BitVec 4} (major fn : Nat)
    {usesRb : Bool} (hb : usesRb = true ∨ rb = 0)
    (ho : op.Answers f (t.cores.get c).flg ((t.cores.get c).get ra) ((t.cores.get c).get rb) r flg) :
    opA major fn op usesRb c rd ra rb 0 f s = .next (t.setCore c ((t.cores.get c).result rd r flg)) := by
  rw [opA_fetched h major fn op usesRb rd ra rb f hb, ho.1, ho.2]

theorem opI_answers (h : Fetches c s t) {op : BinOp} {f : Bool} {rd ra : Fin 16} {imm : BitVec 12} {b r : Word} {flg : BitVec 4}
    (major : Nat) {legal : Bool} (hl : legal = true) (ho : op.Answers f (t.cores.get c).flg ((t.cores.get c).get ra) b r flg) :
    opI major op legal b c rd ra imm 0 f s = .next (t.setCore c ((t.cores.get c).result rd r flg)) := by
  rw [opI_fetched h major op legal b rd ra imm f hl, ho.1, ho.2]

theorem opI16_answers (h : Fetches c s t) {op : BinOp} {f : Bool} {rd : Fin 16} {imm : BitVec 16} {a : Core → Word} {b r : Word}
    {flg : BitVec 4} (major : Nat) {legal : Bool} (hl : legal = true)
    (ho : op.Answers f (t.cores.get c).flg (a (t.cores.get c)) b r flg) :
    opI16 major op legal a b c rd imm 0 f s = .next (t.setCore c ((t.cores.get c).result rd r flg)) := by
  rw [opI16_fetched h major op legal a b rd imm f hl, ho.1, ho.2]

/-! ### Addition and subtraction (R160) -/

/-- The pseudocode of R160 in exact arithmetic: V where the exact result does not fit, C where the unsigned sum does not. -/
theorem addWithFlags_exact {f : Bool} {old : BitVec 4} {a b r : Word} {cin : Bool} {exact : Int} {carry : Prop} [Decidable carry]
    (hr : addRes a b cin = r) (he : a.toInt + b.toInt + (b2n cin : Nat) = exact)
    (hc : 2 ^ 32 ≤ a.toNat + b.toNat + b2n cin ↔ carry) :
    (addWithFlags a b cin).1 = r ∧ (if f then (addWithFlags a b cin).2 else old) =
      namedVCZN f old (decide (r.toInt ≠ exact)) (decide carry) r := by
  have h1 : (addWithFlags a b cin).1 = r := hr
  refine ⟨h1, ?_⟩
  rw [addWithFlags_eq, h1, he, decide_eq_decide.2 hc]

/-- Of a subtraction: 2^32 is reached exactly where nothing is borrowed. -/
theorem carry_sub (a b : Word) {n : Nat} (hn : n ≤ 1) :
    2 ^ 32 ≤ a.toNat + (~~~b).toNat + n ↔ b.toNat + (1 - n) ≤ a.toNat := by
  have := b.isLt
  rw [BitVec.toNat_not]
  omega

theorem exact_sub (a b : Word) (n : Nat) :
    a.toInt + (~~~b).toInt + (n : Nat) = a.toInt - b.toInt - (1 - n) := by
  rw [toInt_not]
  omega

theorem b2n_le (b : Bool) : b2n b ≤ 1 := by cases b <;> decide

variable (f : Bool) (old : BitVec 4) (a b : Word)

theorem opAdd_answers : opAdd.Answers f old a b (a + b)
    (namedVCZN f old (decide ((a + b).toInt ≠ a.toInt + b.toInt)) (decide (2 ^ 32 ≤ a.toNat + b.toNat)) (a + b)) :=
  addWithFlags_exact ((addRes_add a b false).trans (BitVec.add_zero _)) (Int.add_zero _) Iff.rfl

theorem opAdc_answers : opAdc.Answers f old a b (a + b + wd (b2n (flagC old)))
    (namedVCZN f old (decide ((a + b + wd (b2n (flagC old))).toInt ≠ a.toInt + b.toInt + b2n (flagC old)))
      (decide (2 ^ 32 ≤ a.toNat + b.toNat + b2n (flagC old))) (a + b + wd (b2n (flagC old)))) :=
  addWithFlags_exact (addRes_add a b _) rfl Iff.rfl

theorem opSub_answers : opSub.Answers f old a b (a - b)
    (namedVCZN f old (decide ((a - b).toInt ≠ a.toInt - b.toInt)) (decide (b.toNat ≤ a.toNat)) (a - b)) :=
  addWithFlags_exact (addRes_sub a b) ((exact_sub a b 1).trans (Int.sub_zero _)) (carry_sub a b le_rfl)

theorem opSbc_answers : opSbc.Answers f old a b (a - b - wd (1 - b2n (flagC old)))
    (namedVCZN f old (decide ((a - b - wd (1 - b2n (flagC old))).toInt ≠ a.toInt - b.toInt - (1 - b2n (flagC old))))
      (decide (b.toNat + (1 - b2n (flagC old)) ≤ a.toNat)) (a - b - wd (1 - b2n (flagC old)))) :=
  addWithFlags_exact (addRes_sbc a b _) (exact_sub a b _) (carry_sub a b (b2n_le _))

/-! ### Operations that name Z and N (R161) -/

variable {f old a b}

theorem plainOp_answers {g : Word → Word → Word} {r : Word} (hr : g a b = r) :
    (plainOp g).Answers f old a b r (namedZN f old r) := by
  subst hr
  exact ⟨rfl, flagsZN_eq f old (g a b)⟩

variable (a b)

theorem truth_decide (p : Prop) [Decidable p] : truth (decide p) = if p then 1 else 0 := by
  simp only [truth, decide_eq_true_eq]

theorem truth_slt : truth (a.slt b) = if a.toInt < b.toInt then 1 else 0 := truth_decide _

theorem truth_ult : truth (a.ult b) = if a.toNat < b.toNat then 1 else 0 := truth_decide _

/-! ### Shifts (R161) -/

variable {a b}

/-- A shift in the terms of its statement: C is the last bit moved out, and stays where the amount is 0. -/
theorem shift_answers {op : BinOp} {n : Nat} {r r' : Word} {carry carry' : Bool}
    (ho : op old a b = (r, flagsShift old r n carry)) (hr : r = r') (hc : carry = carry') :
    op.Answers f old a b r' (namedVCZN f old (flagV old) (if n = 0 then flagC old else carry') r') := by
  subst hr hc
  exact ⟨by rw [ho], by rw [ho]; exact flagsShift_eq f old r n carry⟩

theorem opShl_answers {n : Nat} (hn : shAmt b = n) : opShl.Answers f old a b (wd (a.toNat * 2 ^ n)) (namedVCZN f old (flagV old)
    (if n = 0 then flagC old else decide (a.toNat / 2 ^ (32 - n) % 2 = 1)) (wd (a.toNat * 2 ^ n))) :=
  hn ▸ shift_answers rfl (shl_eq a _) (getLsbD_div a _)

theorem opShr_answers {n : Nat} (hn : shAmt b = n) : opShr.Answers f old a b (wd (a.toNat / 2 ^ n)) (namedVCZN f old (flagV old)
    (if n = 0 then flagC old else decide (a.toNat / 2 ^ (n - 1) % 2 = 1)) (wd (a.toNat / 2 ^ n))) :=
  hn ▸ shift_answers rfl (shr_eq a _) (getLsbD_div a _)

theorem opSar_answers {n : Nat} (hn : shAmt b = n) : opSar.Answers f old a b (BitVec.ofInt 32 (a.toInt / 2 ^ n))
    (namedVCZN f old (flagV old) (if n = 0 then flagC old else decide (a.toNat / 2 ^ (n - 1) % 2 = 1))
      (BitVec.ofInt 32 (a.toInt / 2 ^ n))) :=
  hn ▸ shift_answers rfl (sar_eq a _) (getLsbD_div a _)

/-- A rotation in numbers: the low n bits move to the top. -/
def rotated (a : Word) (n : Nat) : Word := wd (a.toNat / 2 ^ n + a.toNat % 2 ^ n * 2 ^ (32 - n))

theorem opRor_answers {n : Nat} (hn : shAmt b = n) : opRor.Answers f old a b (rotated a n) (namedVCZN f old (flagV old)
    (if n = 0 then flagC old else decide ((rotated a n).toInt < 0)) (rotated a n)) := by
  have hr : a.rotateRight n = rotated a n := ror_eq a n (hn ▸ Nat.mod_lt _ (by decide))
  subst hn
  exact shift_answers rfl hr ((msb_eq_neg _).trans (by rw [hr]))

/-! ### Products and divisions (R162, R163) -/

theorem flagsZNV_answers {op : BinOp} {r r' : Word} {v v' : Bool} (ho : op old a b = (r, flagsZNV old r v)) (hr : r = r')
    (hv : v = v') : op.Answers f old a b r' (namedVCZN f old v' (flagC old) r') := by
  subst hr hv
  exact ⟨by rw [ho], by rw [ho]; exact flagsZNV_eq f old r v⟩

theorem mul_eq (a b : Word) : a * b = wd (a.toNat * b.toNat) := by
  apply BitVec.eq_of_toNat_eq
  rw [BitVec.toNat_mul, wd, BitVec.toNat_ofNat]

/-- The exceptional cases of a signed division, none of which holds. -/
theorem divExc_false (hb : b ≠ 0) (ho : ¬(a = 0x80000000 ∧ b = 0xFFFFFFFF)) : divExc a b = false := by
  simp only [divExc, beq_false_of_ne hb, Bool.false_or, Bool.and_eq_false_iff, beq_eq_false_iff_ne, ne_eq]
  exact not_and_or.1 ho

theorem opDivu_answers (hb : b ≠ 0) :
    opDivu.Answers f old a b (wd (a.toNat / b.toNat)) (namedVCZN f old false (flagC old) (wd (a.toNat / b.toNat))) :=
  flagsZNV_answers rfl (if_neg hb) (beq_false_of_ne hb)

theorem opRemu_answers (hb : b ≠ 0) :
    opRemu.Answers f old a b (wd (a.toNat % b.toNat)) (namedVCZN f old false (flagC old) (wd (a.toNat % b.toNat))) :=
  flagsZNV_answers rfl (if_neg hb) (beq_false_of_ne hb)

theorem opDiv_answers (hb : b ≠ 0) : opDiv.Answers f old a b (BitVec.ofInt 32 (a.toInt.tdiv b.toInt))
    (namedVCZN f old (divExc a b) (flagC old) (BitVec.ofInt 32 (a.toInt.tdiv b.toInt))) :=
  flagsZNV_answers rfl (if_neg hb) rfl

theorem opRem_answers (hb : b ≠ 0) : opRem.Answers f old a b (BitVec.ofInt 32 (a.toInt.tmod b.toInt))
    (namedVCZN f old (divExc a b) (flagC old) (BitVec.ofInt 32 (a.toInt.tmod b.toInt))) :=
  flagsZNV_answers rfl (if_neg hb) rfl

/-! ### Immediates (R154, R165) -/

theorem setWidth_eq {n : Nat} (i : BitVec n) : i.setWidth 32 = wd i.toNat := by
  apply BitVec.eq_of_toNat_eq
  rw [BitVec.toNat_setWidth, wd, BitVec.toNat_ofNat]

theorem movu_eq (i : BitVec 16) : (0 : Word) ||| (i.setWidth 32 <<< 16) = wd (i.toNat * 2 ^ 16) := by
  rw [shl_eq, setWidth_eq]
  apply BitVec.eq_of_toNat_eq
  simp [wd]

end Sys2Proof.Machine
end

section
/-! The register file and the arithmetic of the cores: RegisterFileReadsLastWrite, AddSubResults, LogicResults, ShiftResults,
MulDivResults and ImmediateResults. -/
namespace Sys2Proof.Machine

/-- Settles O9: the laws of Core.get and Core.put. -/
theorem registerFileReadsLastWrite : Obligations.RegisterFileReadsLastWrite := by
  unfold Obligations.RegisterFileReadsLastWrite
  intro k rd r v
  refine ⟨Core.get_zero k, Core.put_zero v k, fun h => ?_, fun h => ?_⟩
  · rw [Core.get_put, if_pos ⟨rfl, h⟩]
  · rw [Core.get_put, if_neg fun e => h e.1]

/-- Settles O10: each function is the addition of R160 on its operands, whose flags are those of exact arithmetic. -/
theorem addSubResults : Obligations.AddSubResults := by
  unfold Obligations.AddSubResults
  intro c s t rd ra rb f h
  exact ⟨opA_answers h _ _ (.inl rfl) (opAdd_answers ..), opA_answers h _ _ (.inl rfl) (opAdc_answers ..),
    opA_answers h _ _ (.inl rfl) (opSub_answers ..), opA_answers h _ _ (.inl rfl) (opSbc_answers ..)⟩

/-- Settles O11: each function answers its value, with the flags of an operation that names Z and N. -/
theorem logicResults : Obligations.LogicResults := by
  unfold Obligations.LogicResults
  intro c s t rd ra rb f h k a b done
  have binary : ∀ (fn : Nat) {g : Word → Word → Word} {r : Word}, g a b = r →
      opA 1 fn (plainOp g) true c rd ra rb 0 f s = done r :=
    fun fn _ _ hr => opA_answers h 1 fn (.inl rfl) (plainOp_answers hr)
  have unary : ∀ (fn : Nat) {g : Word → Word → Word} {r : Word}, g a (k.get 0) = r →
      opA 1 fn (plainOp g) false c rd ra 0 0 f s = done r :=
    fun fn _ _ hr => opA_answers h 1 fn (.inr rfl) (plainOp_answers hr)
  exact ⟨binary 4 rfl, binary 5 rfl, binary 6 rfl, binary 7 rfl, binary 0xC (truth_slt a b), binary 0xD (truth_ult a b),
    ⟨clz a, unary 0xE rfl, clz_spec a⟩, unary 0xF (sext_sgn 8 (by decide) (by decide) a),
    unary 0x10 (sext_sgn 16 (by decide) (by decide) a)⟩

/-- Settles O12: a shift by a register and the one by an immediate are one operation at two amounts. -/
theorem shiftResults : Obligations.ShiftResults := by
  unfold Obligations.ShiftResults
  intro c s t rd ra rb imm f h hi
  have hn := shAmt_zext hi
  have hl : legalShift imm 0 = true := by simp [legalShift, hi]
  exact ⟨⟨opA_answers h _ _ (.inl rfl) (opShl_answers rfl), opI_answers h _ hl (opShl_answers hn)⟩,
    ⟨opA_answers h _ _ (.inl rfl) (opShr_answers rfl), opI_answers h _ hl (opShr_answers hn)⟩,
    ⟨opA_answers h _ _ (.inl rfl) (opSar_answers rfl), opI_answers h _ hl (opSar_answers hn)⟩,
    opA_answers h _ _ (.inl rfl) (opRor_answers rfl), opI_answers h _ hl (opRor_answers hn)⟩

/-- Settles O13: the products by their values; a division in its exceptional cases and outside them. -/
theorem mulDivResults : Obligations.MulDivResults := by
  unfold Obligations.MulDivResults
  intro c s t rd ra rb f h k a b done
  have runs : ∀ (fn : Nat) {op : BinOp} {v : Bool} {r : Word},
      op.Answers f k.flg a b r (namedVCZN f k.flg v (flagC k.flg) r) → opA 2 fn op true c rd ra rb 0 f s = done v r :=
    fun fn _ _ _ ho => opA_answers h 2 fn (.inl rfl) ho
  refine ⟨runs 0 (plainOp_answers (mul_eq a b)), runs 1 (plainOp_answers rfl), runs 2 (plainOp_answers rfl), fun hb => ?zero,
    fun ha hb => ?overflow, fun hb => ⟨runs 4 (opDivu_answers hb), runs 6 (opRemu_answers hb), fun ho => ?proper⟩⟩
  case zero =>
    have hx : divExc a b = true := by simp [divExc, hb]
    have hz : (b == 0) = true := beq_iff_eq.2 hb
    exact ⟨runs 3 (flagsZNV_answers rfl (if_pos hb) hx), runs 4 (flagsZNV_answers rfl (if_pos hb) hz),
      runs 5 (flagsZNV_answers rfl (if_pos hb) hx), runs 6 (flagsZNV_answers rfl (if_pos hb) hz)⟩
  case overflow =>
    have hx : divExc a b = true := by rw [ha, hb]; rfl
    have hb0 : b ≠ 0 := by rw [hb]; decide
    have hd := opDiv_answers (f := f) (old := k.flg) (a := a) hb0
    have hm := opRem_answers (f := f) (old := k.flg) (a := a) hb0
    rw [hx] at hd hm
    have ed : BitVec.ofInt 32 (a.toInt.tdiv b.toInt) = 0x80000000 := by rw [ha, hb]; decide
    have em : BitVec.ofInt 32 (a.toInt.tmod b.toInt) = 0 := by rw [ha, hb]; decide
    rw [ed] at hd
    rw [em] at hm
    exact ⟨runs 3 hd, runs 5 hm⟩
  case proper =>
    have hx := divExc_false hb ho
    exact ⟨runs 3 (hx ▸ opDiv_answers hb), runs 5 (hx ▸ opRem_answers hb)⟩

/-- Settles O14: the operations of format A on an immediate operand. -/
theorem immediateResults : Obligations.ImmediateResults := by
  unfold Obligations.ImmediateResults
  intro c s t rd ra imm imm16 f h k a i z next plain
  have hi : i.toInt = imm.toInt := sext12_toInt imm
  have hz : zext12 imm = z := setWidth_eq imm
  have logic : ∀ (major : Nat) {g : Word → Word → Word} {b r : Word}, g a b = r →
      opI major (plainOp g) true b c rd ra imm 0 f s = plain r :=
    fun major _ _ _ hr => opI_answers h major rfl (plainOp_answers hr)
  have wide : ∀ (major : Nat) (x : Core → Word) {b r : Word}, x k ||| b = r →
      opI16 major opOr true x b c rd imm16 0 f s = plain r :=
    fun major _ _ _ hr => opI16_answers h major rfl (plainOp_answers hr)
  refine ⟨?add, ?sub, logic 9 (by rw [hz]), logic 0xA (by rw [hz]), logic 0xB (by rw [hz]), logic 0x10 ?slt,
    logic 0x11 (truth_ult a i), wide 0x12 _ (movu_eq imm16), wide 0x13 _ (by rw [setWidth_eq]), ?adpc⟩
  case add => exact hi ▸ opI_answers h 8 rfl (opAdd_answers f k.flg a i)
  case sub => exact hi ▸ opI_answers h 0x14 rfl (opSub_answers f k.flg a i)
  case slt => exact (truth_slt a i).trans (by rw [hi])
  case adpc =>
    rw [← off16_eq imm16]
    exact opI16_answers h 0x15 rfl (opAdd_answers false k.flg k.pc (off16Bytes imm16))

end Sys2Proof.Machine
end

section
/-! The laws of the cores' other instructions: what a word that is not legal and a refused fetch raise, the branches, the SYS
functions and the accesses to memory; and that the queue is no part of the invariant. -/
namespace Sys2Proof.Machine

variable {c : Fin 6} {s t : State}

/-! ### Exceptions before the instruction's own effect (R156, R172) -/

theorem raiseIllegal_eq (hp : (t.cores.get c).plain = true) (w : Word) :
    raiseIllegal c w t = t.setCore c ((t.cores.get c).excepted 1 w) := by
  rw [raiseIllegal, raise_plain hp]
  rfl

/-- An instruction whose pc's region refuses fetches, whatever its word. -/
theorem instruction_refused (hu : s.coreUp c = true) (hr : (s.cores.get c).run = .running) (hd : (s.cores.get c).due = 0)
    (hf : fetchable c (s.cores.get c).pc.toNat = false) (word : Word) (legal : Bool) (body : State → State) :
    instruction c word legal body s = .next (raiseBus c (s.cores.get c).pc s) := by
  have ht : s.takes c word = true := by simp [State.takes, hu, hr, hd]
  simp only [instruction, ht, when, if_true, perform, hf, Bool.not_false]

/-! ### Branches and jumps (R176 to R178) -/

theorem branch_fetched (h : Fetches c s t) (major cf : Nat) {legal : Bool} (hl : legal = true) (taken : Core → Bool)
    (o : BitVec 16) : branch major cf legal taken c 0 o s = .next (if taken (t.cores.get c)
      then branchTo c ((t.cores.get c).pc + BitVec.ofInt 32 (4 * o.toInt)) t
      else t.setCore c ((t.cores.get c).goesTo ((t.cores.get c).pc + 4))) := by
  rw [branch, instruction_fetched h, if_pos (by simp [hl]), off16_eq]
  rfl

/-- A branch on a condition whose target can be fetched from. -/
theorem branch_lands (h : Fetches c s t) (major cf : Nat) {legal : Bool} (hl : legal = true) {taken : Core → Bool} {o : BitVec 16}
    {p : Prop} [Decidable p] (hp : taken (t.cores.get c) = true ↔ p)
    (hf : fetchable c ((t.cores.get c).pc + BitVec.ofInt 32 (4 * o.toInt)).toNat = true) :
    branch major cf legal taken c 0 o s = .next (t.setCore c (if p
      then (t.cores.get c).goesTo ((t.cores.get c).pc + BitVec.ofInt 32 (4 * o.toInt))
      else (t.cores.get c).goesTo ((t.cores.get c).pc + 4))) := by
  rw [branch_fetched h major cf hl, branchTo_ok hf]
  by_cases h' : p
  · rw [if_pos (hp.2 h'), if_pos h']
  · rw [if_neg (mt hp.1 h'), if_neg h']

theorem jmp_fetched (h : Fetches c s t) (far : BitVec 24) : exec (.jmp c far 0) s =
    .next (branchTo c ((t.cores.get c).pc + BitVec.ofInt 32 (4 * far.toInt)) t) := by
  rw [← off24_eq]
  exact instruction_fetched h _ true _

theorem call_fetched (h : Fetches c s t) (far : BitVec 24) : exec (.call c far 0) s =
    .next (branchTo c ((t.cores.get c).pc + BitVec.ofInt 32 (4 * far.toInt))
      (t.setCore c (Core.put 14 ((t.cores.get c).pc + 4) (t.cores.get c)))) := by
  rw [← off24_eq]
  exact instruction_fetched h _ true _

theorem jrl_fetched (h : Fetches c s t) (rd ra : Fin 16) : exec (.jrl c rd ra 0 0 0 false) s =
    .next (if ((t.cores.get c).get ra).toNat % 4 != 0 then raiseMisaligned c ((t.cores.get c).get ra) t
      else branchTo c ((t.cores.get c).get ra) (t.setCore c (Core.put rd ((t.cores.get c).pc + 4) (t.cores.get c)))) :=
  instruction_fetched h _ true _

theorem jrl_aligned (h : Fetches c s t) (rd : Fin 16) {ra : Fin 16} (ha : ((t.cores.get c).get ra).toNat % 4 = 0) :
    exec (.jrl c rd ra 0 0 0 false) s =
      .next (branchTo c ((t.cores.get c).get ra) (t.setCore c (Core.put rd ((t.cores.get c).pc + 4) (t.cores.get c)))) := by
  rw [jrl_fetched h, if_neg (by simp [ha])]

/-- A jump to an address that can be fetched from, by a core that has been written. -/
theorem branchTo_setCore_ok {a : Word} (ha : fetchable c a.toNat = true) (k : Core) :
    branchTo c a (t.setCore c k) = t.setCore c (k.goesTo a) := by
  rw [branchTo_ok ha, State.setCore_get, State.setCore_setCore]

/-- A jump to an address that refuses fetches, by a core that has written its link register. -/
theorem branchTo_linked_lost {a : Word} (ha : fetchable c a.toNat = false) (hp : (t.cores.get c).plain = true)
    (rd : Fin 16) (v : Word) :
    branchTo c a (t.setCore c (Core.put rd v (t.cores.get c))) = t.setCore c (if (Core.put rd v (t.cores.get c)).due = 0
      then ((Core.put rd v (t.cores.get c)).goesTo a).excepted 3 a else (Core.put rd v (t.cores.get c)).goesTo a) := by
  rw [branchTo_lost ha (by rw [State.setCore_get, put_plain, hp]), State.setCore_get, State.setCore_setCore]

/-! ### SYS (R235 to R240) -/

theorem write_eq_result (rd : Fin 16) (v : Word) (k : Core) : Core.write rd v k = k.result rd v k.flg := by
  simp only [Core.write, Core.advance, Core.result, Core.put_pc, ← Core.put_flg rd v k]

/-- Whether a control register number names a register does not depend on the state. -/
theorem creg_isSome (s t : State) (c : Fin 6) (n : Nat) : (creg s c n).isSome = (creg t c n).isSome := by
  unfold creg
  split <;> rfl

/-- Whether a control register can be written does not depend on what is written, nor on the core's state. -/
theorem cregWrite_isSome (c : Fin 6) (n : Nat) (now now' v v' : Word) (k k' : Core) :
    (cregWrite c n now v k).isSome = (cregWrite c n now' v' k').isSome := by
  unfold cregWrite
  split
  · simp only [Option.isSome_some]
  · split
    · rfl
    · simp only [Option.isSome_some]
  · simp only [Option.isSome_some]
  · simp only [Option.isSome_some]
  · rfl

theorem crd_fetched (h : Fetches c s t) (rd : Fin 16) (n : BitVec 12) {v : Word} (hv : creg t c n.toNat = some v) :
    exec (.crd c rd 0 n) s = .next (t.setCore c ((t.cores.get c).result rd v (t.cores.get c).flg)) := by
  refine (instruction_fetched h _ _ _).trans ?_
  rw [if_pos (by rw [creg_isSome s t, hv]; rfl), hv, ← write_eq_result]
  rfl

theorem cwr_fetched (h : Fetches c s t) (ra : Fin 16) (n : BitVec 12) {k : Core}
    (hk : cregWrite c n.toNat t.tbLo ((t.cores.get c).get ra) (t.cores.get c) = some k) :
    exec (.cwr c 0 ra n) s = .next (t.setCore c k.advance) := by
  refine (instruction_fetched h _ _ _).trans ?_
  rw [if_pos (by rw [cregWrite_isSome c n.toNat _ t.tbLo _ ((t.cores.get c).get ra) _ (t.cores.get c), hk]; rfl)]
  dsimp only
  rw [hk]
  rfl

/-- A written compare, for a tick that has passed or not (R238). -/
theorem armTimer_advance (now v : Word) (k : Core) : (armTimer now v k).advance =
    { (fireTimer now k).goesTo (k.pc + 4) with
      cmp := if (v - now).toInt < 0 then now + 1 else v
      cmpLate := decide ((v - now).toInt < 0)
      cstat := setBit (fireTimer now k).cstat 4 true } := by
  simp only [armTimer, Core.advance, Core.goesTo, tickPassed, fireTimer_pc, decide_eq_true_eq]

theorem fireTimer_eq (now : Word) (k : Core) : fireTimer now k = if bit k.cstat 4 = true ∧ (k.cmp - now).toInt ≤ 0
    then { k with e := k.e ||| 1, cstat := setBit (setBit k.cstat 4 false) 5 k.cmpLate } else k := by
  simp only [fireTimer, tickDue, Bool.and_eq_true, decide_eq_true_eq]

/-! ### Accesses to Normal memory (R166, R171) -/

theorem load_normalStore {a : Nat} (ha : normalStore c a = true) (n : Nat) (s : State) : load c a n s = coreRead c a n s := by
  have : normalLoad c a = true := by
    simp only [normalStore, normalLoad, Bool.or_eq_true] at ha ⊢
    rcases ha with h | h <;> simp [h]
  rw [load, if_pos this]

theorem store_normalStore {a : Nat} (ha : normalStore c a = true) (bs : Bytes) (s : State) :
    store c a bs s = coreWrite c a bs s := by
  rw [store, if_pos ha]

/-- A load of Normal memory by a core that has fetched reads what memory held before the fetch. -/
theorem Fetches.reads_memory {a n : Nat} {bs : Bytes} {u : State} (h : Fetches c s t) (i : Inv s)
    (hr : coreRead c a n t = (.ok bs, u)) (ha : normalStore c a = true) (hn : n = 1 ∨ n = 2 ∨ n = 4) (hal : a % n = 0) :
    bs = (List.range n).map (fun i => memByte s (a + i)) ∧ SameBytes s u ∧ MemOnly s u := by
  have hst := h.bytes i
  obtain ⟨hbs, htu⟩ := coreRead_bytes (h.inv i) hr (normalStore_or ha) (align_line hn hal)
  refine ⟨?_, hst.trans htu, h.same.trans (coreRead_memOnly hr)⟩
  rw [hbs]
  exact List.map_congr_left fun x _ => hst (a + x)

/-- Bytes stored from a state that reads as an earlier one does. -/
theorem StoredAt.of_same {a : Nat} {bs : Bytes} {s t u : State} (h : StoredAt a bs t u) (hs : SameBytes s t) :
    StoredAt a bs s u := fun x => by
  rw [h x, hs x]

/-- The invariant of a core that goes on at the next word. -/
theorem Inv.goesOn (i : Inv t) (c : Fin 6) : Inv (t.setCore c ((t.cores.get c).goesTo ((t.cores.get c).pc + 4))) :=
  (setCore_ev c _ coreOk_advance).inv i

/-- A store instruction: what it answers where its region answers, where its target waits, and where it is always answered. -/
theorem storeInstr_spec (h : Fetches c s t) (major : Nat) {n : Nat} (hn : n = 1 ∨ n = 2 ∨ n = 4) (rd ra : Fin 16)
    (imm : BitVec 12) :
    let k := t.cores.get c
    let ea := k.get ra + BitVec.ofInt 32 imm.toInt
    let on := t.setCore c (k.goesTo (k.pc + 4))
    let stored := (leOfWord (k.get rd)).take n
    ea.toNat % n = 0 →
    (∀ b u, store c ea.toNat stored on = (.ok b, u) → storeInstr major n c rd ra imm 0 s = .next u ∧
      (Inv s → normalStore c ea.toNat = true → StoredAt ea.toNat stored s u ∧ MemOnly on u)) ∧
    (∀ u, store c ea.toNat stored on = (.stall, u) →
      storeInstr major n c rd ra imm 0 s = .next (u.setCore c { k with run := .stalled (encM major rd ra imm 0) })) ∧
    (normalStore c ea.toNat = true → t.mem.clearing = none → (∀ d, ∀ l ∈ t.lines d, l.bad = false) →
      ∃ b u, store c ea.toNat stored on = (.ok b, u)) := by
  intro k ea on stored hal
  have hd := storeInstr_done h major n rd ra imm hal
  refine ⟨fun b u hu => ⟨by rw [hd, hu], fun i ha => ?_⟩, fun u hu => ?_, fun ha hc hb => ?_⟩
  · have hs : SameBytes s on := (h.bytes i).trans (sameBytes_of_mem rfl)
    have hl : ea.toNat % 64 + stored.length ≤ 64 := by rw [take_length _ hn]; exact align_line hn hal
    rw [store_normalStore ha] at hu
    exact ⟨(coreWrite_bytes ((h.inv i).goesOn c) hu (normalStore_or ha) hl).of_same hs,
      snd_of_eq hu (coreWrite_memOnly c ea.toNat stored on)⟩
  · rw [hd, hu]
    simp only [stall, State.setCore_onCore]
    rfl
  · rw [store_normalStore ha]
    exact coreWrite_answered c ea.toNat stored hc hb

/-! ### Atomic instructions (R173, R175) -/

/-- What an atomic does to memory: the word it writes at a, or nothing. -/
def Leaves (a : Nat) (new : Option Word) (s w : State) : Prop :=
  match new with
  | some x => StoredAt a (leOfWord x) s w
  | none => SameBytes s w

section
variable {rd ra rb : Fin 16} {new : Core → Word → Option Word} {flags : Core → Word → BitVec 4} {bs : Bytes} {v u : State}

/-- An atomic whose read has been answered by v and whose write, if it makes one, by u. -/
theorem atomic_answered (h : Fetches c s t) (fn : Nat) (hal : ((t.cores.get c).get ra).toNat % 4 = 0)
    (ha : normalStore c ((t.cores.get c).get ra).toNat = true)
    (hr : coreRead c ((t.cores.get c).get ra).toNat 4 t = (.ok bs, v)) {b : Bytes}
    (hw : ((new (t.cores.get c) (wordOfLe bs)).map fun w => coreWrite c ((t.cores.get c).get ra).toNat (leOfWord w) v).getD
      (.ok [], v) = (.ok b, u)) {flg : BitVec 4} (hf : flags (u.cores.get c) (wordOfLe bs) = flg) :
    atomic fn new flags c rd ra rb 0 false s = .next (u.setCore c ((u.cores.get c).result rd (wordOfLe bs) flg)) := by
  rw [atomic, instruction_fetched h, if_pos (by rfl)]
  dsimp only
  rw [if_neg (by simp [hal]), if_neg (by simp [ha]), hr]
  dsimp only
  rw [hw]
  dsimp only
  rw [State.onCore, hf, write_eq_result]
  rfl

/-- The core that makes an access keeps all but its event latch, so what depends on its registers stays. -/
theorem flags_after {k : Core} {old : Word} {flg : BitVec 4} (hm : MemOnly t u) (hk : t.cores.get c = k)
    (hf : ∀ e, flags { k with e := e } old = flg) : flags (u.cores.get c) old = flg := by
  obtain ⟨e, he⟩ := hm.cores c
  rw [he, hk]
  exact hf _

variable (h : Fetches c s t) (i : Inv s) (hal : ((t.cores.get c).get ra).toNat % 4 = 0)
  (ha : normalStore c ((t.cores.get c).get ra).toNat = true)
  (hr : coreRead c ((t.cores.get c).get ra).toNat 4 t = (.ok bs, v))
include h i hal ha hr

/-- An atomic: rd takes the word that memory held, and memory what the atomic makes of it. -/
theorem atomic_fetched (fn : Nat) {old : Word} {x : Option Word} {flg : BitVec 4}
    (ho : wd (leNat ((List.range 4).map fun i => memByte s (((t.cores.get c).get ra).toNat + i))) = old)
    (hx : new (t.cores.get c) old = x) (hf : ∀ e, flags { t.cores.get c with e := e } old = flg) :
    ∃ w, atomic fn new flags c rd ra rb 0 false s = .next (w.setCore c ((w.cores.get c).result rd old flg)) ∧ MemOnly s w ∧
      Leaves ((t.cores.get c).get ra).toNat x s w := by
  obtain ⟨hbs, hsv, hmv⟩ := h.reads_memory i hr ha (.inr (.inr rfl)) hal
  have hold : wordOfLe bs = old := by rw [wordOfLe, hbs, ho]
  subst hold
  have htv : MemOnly t v := coreRead_memOnly hr
  cases x with
  | none => exact ⟨v, atomic_answered h fn hal ha hr (b := []) (by rw [hx]; rfl) (flags_after htv rfl hf), hmv, hsv⟩
  | some x =>
    have hn : (leOfWord x).length = 4 := take_length x (.inr (.inr rfl))
    have hl : ((t.cores.get c).get ra).toNat % 64 + (leOfWord x).length ≤ 64 := hn ▸ align_line (.inr (.inr rfl)) hal
    have hiv : Inv v := snd_of_eq hr ((coreRead_ev c _ 4 (Evolves.refl t)).inv (h.inv i))
    obtain ⟨b, u, hu⟩ := coreWrite_after_read (h.inv i) hr (normalStore_or ha) hn
    have hvu : MemOnly v u := snd_of_eq hu (coreWrite_memOnly c _ (leOfWord x) v)
    exact ⟨u, atomic_answered h fn hal ha hr (by rw [hx]; exact hu) (flags_after (htv.trans hvu) rfl hf), hmv.trans hvu,
      (coreWrite_bytes hiv hu (normalStore_or ha) hl).of_same hsv⟩

end

/-! ### The invariant -/

/-- The queue is no part of the invariant. -/
theorem Inv.withPending (i : Inv s) (cs : List Instr) : Inv { s with pending := cs } :=
  ⟨i.mem, i.regs, i.cores, i.chans, i.caches, i.fuses⟩

end Sys2Proof.Machine
end

section
/-! StepKeepsInv, and the instructions by the laws above: IllegalRaises, FetchRefusedRaises, BranchResults, BranchFaults,
SysResults, LoadResults, StoreResults and AtomicResults. -/
namespace Sys2Proof.Machine

/-- Settles O5: the idle tick and every command evolve a state, and what evolves keeps the invariant. -/
theorem stepKeepsInv : Obligations.StepKeepsInv := by
  unfold Obligations.StepKeepsInv
  intro s t i h
  cases hp : s.pending with
  | nil =>
    have hs : step s = .next (idle s) := by rw [step, hp]
    cases hs.symm.trans h
    exact (idle_ev (Evolves.refl s)).inv i
  | cons c cs =>
    rw [step_cons hp] at h
    exact (exec_ev c (Evolves.refl _) t h).inv (i.withPending cs)

/-- Settles O15: every instruction is the meaning of a word that is legal or not, and one that is not raises ILLEGAL. -/
theorem illegalRaises : Obligations.IllegalRaises := by
  unfold Obligations.IllegalRaises
  intro i c w s t hi h hp
  obtain ⟨body, legal, he, rfl⟩ := coreInstr_exec hi s
  rw [he, instruction_fetched h, if_neg Bool.false_ne_true, raiseIllegal_eq hp]

/-- Settles O16: the refusal comes before the word is looked at. -/
theorem fetchRefusedRaises : Obligations.FetchRefusedRaises := by
  unfold Obligations.FetchRefusedRaises
  intro i c w l s hi hu hr hd hf hp
  obtain ⟨body, legal, he, -⟩ := coreInstr_exec hi s
  rw [he, instruction_refused hu hr hd hf, raiseBus_eq hp]

/-- Settles O19: each branch is the choice between its target and the next word, and the target can be fetched from. -/
theorem branchResults : Obligations.BranchResults := by
  unfold Obligations.BranchResults
  intro c s t rd ra cond o far h k next near away z n cy v even holds
  refine ⟨fun hf => ⟨fun hc => ?bc, ?bz, ?bnz⟩, fun hf => ⟨?jmp, ?call⟩, fun ha hf => ?jrl⟩
  case bc =>
    have hh : condHolds cond.toNat k.flg = holds := condHolds_eq cond hc k.flg
    exact branch_lands h 0x20 cond.toNat (bne_iff_ne.2 hc) (taken := fun k => condHolds cond.toNat k.flg)
      (iff_of_eq (congrArg (· = true) hh)) hf
  case bz => exact branch_lands h 0x21 ra.val rfl (taken := fun k => k.get ra == 0) beq_iff_eq hf
  case bnz =>
    rw [← ite_not]
    exact branch_lands h 0x22 ra.val rfl (taken := fun k => k.get ra != 0) bne_iff_ne hf
  case jmp => rw [jmp_fetched h, branchTo_ok hf]
  case call => rw [call_fetched h, branchTo_setCore_ok hf]
  case jrl => rw [jrl_aligned h rd ha, branchTo_setCore_ok hf]

/-- Settles O20: the same jumps to a target that refuses fetches; a misaligned target is found before rd is written. -/
theorem branchFaults : Obligations.BranchFaults := by
  unfold Obligations.BranchFaults
  intro c s t rd ra o far h hp k lost near away
  have taken : fetchable c near.toNat = false → ∀ (major cf : Nat) (p : Core → Bool), p k = true →
      branch major cf true p c 0 o s = lost k near := fun hf major cf p ht => by
    rw [branch_fetched h major cf rfl, if_pos ht, branchTo_lost hf hp]
  refine ⟨fun hf => ⟨taken hf 0x20 14 (fun k => condHolds 14 k.flg) rfl,
      fun hz => taken hf 0x21 ra.val (fun k => k.get ra == 0) (beq_iff_eq.2 hz),
      fun hz => taken hf 0x22 ra.val (fun k => k.get ra != 0) (bne_iff_ne.2 hz)⟩,
    fun hf => ⟨?jmp, ?call⟩, fun ha hf => ?jrl, fun ha => ?misaligned⟩
  case jmp => rw [jmp_fetched h, branchTo_lost hf hp]
  case call => rw [call_fetched h, branchTo_linked_lost hf hp]
  case jrl => rw [jrl_aligned h rd ha, branchTo_linked_lost hf hp]
  case misaligned => rw [jrl_fetched h, if_pos (bne_iff_ne.2 ha), raiseMisaligned_eq hp]

/-- Settles O21: the control registers through the laws of their reads and writes, the other functions one by one. -/
theorem sysResults : Obligations.SysResults := by
  unfold Obligations.SysResults
  intro c s t rd ra imm h k next read v on now fired
  have hfired : fireTimer now k = fired := fireTimer_eq now k
  have hcrd : ∀ (n : BitVec 12) {x : Word}, creg t c n.toNat = some x → exec (.crd c rd 0 n) s = read x :=
    fun n _ hx => crd_fetched h rd n hx
  have hcwr : ∀ (n : BitVec 12) {k' : Core}, cregWrite c n.toNat now v k = some k' → exec (.cwr c 0 ra n) s = next k'.advance :=
    fun n _ hk => cwr_fetched h ra n hk
  have harm : exec (.cwr c 0 ra 6) s = next (armTimer now v k).advance := hcwr 6 rfl
  rw [armTimer_advance, hfired] at harm
  refine ⟨fun hi => ?fence, ?rdf, ?wrf, ⟨hcrd 0 rfl, hcrd 1 rfl, hcrd 2 rfl, hcrd 3 rfl, hcrd 4 rfl, hcrd 6 rfl,
      hcrd 5 (congrArg some (ccore_eq c))⟩, ⟨hcwr 0 rfl, fun hc => hcwr 1 (if_neg fun e => hc (Fin.ext e)), hcwr 2 rfl,
      fun hn => ?ahead, fun hn => ?passed⟩, fun hf => ?eret, fun hp => ?trap⟩
  case fence => exact (instruction_fetched h _ _ _).trans (by rw [if_pos (fence_ok imm hi)]; rfl)
  case rdf =>
    refine (instruction_fetched h _ true _).trans ?_
    rw [if_pos rfl, State.onCore, write_eq_result, setWidth_eq]
  case wrf =>
    refine (instruction_fetched h _ true _).trans ?_
    rw [if_pos rfl, State.onCore, BitVec.ofNat_toNat]
    rfl
  case ahead => rw [harm, if_neg hn, decide_eq_false hn]
  case passed => rw [harm, if_pos hn, decide_eq_true hn]
  case eret =>
    refine (instruction_fetched h _ true _).trans ?_
    rw [if_pos rfl, branchTo_setCore_ok hf, eretStat_eq]
    rfl
  case trap =>
    refine (instruction_fetched h _ true _).trans ?_
    rw [if_pos rfl, raise_plain hp, zext12, setWidth_eq]
    rfl

/-- Settles O23: the access is answered before rd is written; its bytes are those of the coherent read. -/
theorem loadResults : Obligations.LoadResults := by
  unfold Obligations.LoadResults
  intro c s t u rd ra imm bs h ea done
  have loads : ∀ {major n : Nat} {conv : Bytes → Word} {x : Word}, ea.toNat % n = 0 → load c ea.toNat n t = (.ok bs, u) →
      conv bs = x → loadInstr major n conv c rd ra imm 0 s = done x := fun ha hl hx => by
    rw [loadInstr_done h _ _ _ rd ra imm ha hl, hx]
  have signed : ∀ {n : Nat}, bs.length = n → sextBytes bs = BitVec.ofInt 32 (sgn (8 * n) (leNat bs)) := fun hn => by
    rw [sextBytes, hn]
  refine ⟨fun ha hl => loads ha hl rfl, fun ha hl hn => loads ha hl (signed hn), fun ha hl => loads ha hl rfl,
    fun hl hn => loads (Nat.mod_one _) hl (signed hn), fun hl => loads (Nat.mod_one _) hl rfl, fun n i ha hn hal hl => ?_⟩
  rw [load_normalStore ha] at hl
  exact h.reads_memory i hl ha hn hal

/-- Settles O24: the three stores are one instruction at three lengths. -/
theorem storeResults : Obligations.StoreResults := by
  unfold Obligations.StoreResults
  intro c s t rd ra imm h
  exact ⟨storeInstr_spec h 0x1D (.inr (.inr rfl)) rd ra imm, storeInstr_spec h 0x1E (.inr (.inl rfl)) rd ra imm,
    storeInstr_spec h 0x1F (.inl rfl) rd ra imm⟩

/-- Settles O26: the three atomics are one instruction, with what each writes and the flags it leaves. -/
theorem atomicResults : Obligations.AtomicResults := by
  unfold Obligations.AtomicResults
  intro c s t v rd ra rb bs h i k a hal ha hr old leaves
  have ho : wd (leNat ((List.range 4).map fun i => memByte s (a + i))) = old := rfl
  clear_value old
  refine ⟨?swp, ?cas, ?fadd⟩
  case swp =>
    exact atomic_fetched (new := fun k _ => some (k.get rb)) (flags := fun k _ => k.flg) h i hal ha hr 0 ho rfl fun _ => rfl
  case cas =>
    exact atomic_fetched (new := fun k old => if old == k.get rd then some (k.get rb) else none)
      (flags := fun k old => withZ k.flg (old == k.get rd)) h i hal ha hr 1 ho (by simp only [beq_iff_eq]; rfl)
      fun _ => withZ_eq k.flg (old = k.get rd)
  case fadd =>
    exact atomic_fetched (new := fun k old => some (old + k.get rb)) (flags := fun k _ => k.flg) h i hal ha hr 2 ho rfl
      fun _ => rfl

end Sys2Proof.Machine
end

section
/-! The laws of a core's reset, of an interrupt and of BANK, and the statements DoubleFaultEffect, InterruptTaken and TimerAndBank
assembled from them. -/
namespace Sys2Proof.Machine

variable {c : Fin 6} {s t : State}

/-! ### What a fetch leaves -/

/-- A fetch changes no core but in its event latch. -/
theorem Fetches.run (h : Fetches c s t) (d : Fin 6) : (t.cores.get d).run = (s.cores.get d).run := by
  obtain ⟨e, he⟩ := h.same.cores d
  rw [he]

theorem Fetches.pwr (h : Fetches c s t) : t.pwr = s.pwr := by rw [h.same.rest]
theorem Fetches.sys (h : Fetches c s t) : t.sys = s.sys := by rw [h.same.rest]
theorem Fetches.chans (h : Fetches c s t) : t.chans = s.chans := by rw [h.same.rest]
theorem Fetches.front (h : Fetches c s t) : t.front = s.front := by rw [h.same.rest]
theorem Fetches.lf (h : Fetches c s t) : t.lf = s.lf := by rw [h.same.rest]
theorem Fetches.kiln (h : Fetches c s t) : t.kiln = s.kiln := by rw [h.same.rest]
theorem Fetches.slot (h : Fetches c s t) (n : Nat) : t.slot n = s.slot n := by rw [State.slot, h.kiln, State.slot]
theorem Fetches.chan (h : Fetches c s t) (k : Nat) : t.chan k = s.chan k := by rw [State.chan, h.chans, State.chan]

/-- A device on which a core fetches runs. -/
theorem Fetches.live (h : Fetches c s t) : s.live = true := by
  obtain ⟨hu, -⟩ := h
  simp only [State.coreUp, Bool.and_eq_true] at hu
  exact hu.1

/-- A fetch does not stop the device. -/
theorem Fetches.live_after (h : Fetches c s t) : t.live = true := by
  rw [← h.live, h.same.rest]
  rfl

/-- The body of a legal instruction, for a core that stands before it. -/
theorem legal_fetched (h : Fetches c s t) (word : Word) {legal : Bool} (hl : legal = true) (body : State → State) :
    instruction c word legal body s = .next (body t) := by
  rw [instruction_fetched h, if_pos hl]

theorem State.setCore_self (s : State) (c : Fin 6) : s.setCore c (s.cores.get c) = s := by
  have h : s.cores.set c (s.cores.get c) = s.cores := Vector.set_getElem_self c.isLt
  rw [State.setCore, h]

/-! ### The reset of a core (R151, R215, R244) -/

/-- A core at its reset values, at cvec. -/
def Core.restarted (k : Core) : Core :=
  { k with g := Vector.replicate 16 0, flg := 0, pc := k.cvec, cstat := 0, cepc := 0, ccause := 0, cbad := 0, cmp := 0,
           cmpLate := false, e := 0, run := .running }

theorem Core.restarted_get (k : Core) (r : Fin 16) : k.restarted.get r = 0 := by
  have h : (Vector.replicate 16 (0 : Word)).get r = 0 := Vector.getElem_replicate _
  unfold Core.get
  split
  · rfl
  · exact h

theorem clearCore_get (c x : Fin 6) (s : State) :
    (clearCore c s).cores.get x = if x = c then (s.cores.get c).restarted else s.cores.get x :=
  State.get_setCore s c x _

/-- What a reset of core c sets again in the latch of core x: E.CMD and E.MODE while their levels hold. -/
def levelsHeld (c x : Fin 6) (s : State) : BitVec 16 :=
  (if x = c ∧ s.cmdWaits c = true then 0x0400 else 0) ||| (if s.modeInt then 0x0100 else 0)

theorem levelsHeld_mask (c x : Fin 6) (s : State) : levelsHeld c x s &&& 0xFAFF = 0 := by
  unfold levelsHeld
  split <;> split <;> rfl

/-- The levels change only event latches. -/
theorem resetCore_rest (c : Fin 6) (s : State) : resetCore c s = { clearCore c s with cores := (resetCore c s).cores } := by
  have hm := (levelMode_cores ((clearCore c s).levelCmd c)).1
  have hc := (levelCmd_cores (clearCore c s) c).1
  unfold resetCore
  rw [hm, hc]

theorem resetCore_get (c x : Fin 6) (s : State) : (resetCore c s).cores.get x =
    let y := if x = c then (s.cores.get c).restarted else s.cores.get x
    { y with e := y.e ||| levelsHeld c x (clearCore c s) } := by
  obtain ⟨hc, hcmd⟩ := levelCmd_cores (clearCore c s) c
  have hm : ((clearCore c s).levelCmd c).modeInt = (clearCore c s).modeInt := by rw [hc]; rfl
  rw [resetCore, (levelMode_cores _).2, hcmd, hm, clearCore_get, levelsHeld]
  dsimp only
  rw [BitVec.or_assoc]

/-! ### Double faults (R244) -/

theorem lfOff_idle (h : s.lf.run = none) : lfOff s = s := by
  unfold lfOff lfStop
  rw [h]
  rfl

/-- Where no LF telegram runs, switching the drivers off and clearing the loaded sets touches no core, no queue and no cage. -/
theorem lfClear_same (h : c.val = 4 → s.lf.run = none) :
    ∃ r, when (c.val = 4) (fun s => clearSets (lfOff s)) s = { s with range := r } := by
  unfold when
  split
  · rename_i hc
    exact ⟨(clearSets s).range, congrArg clearSets (lfOff_idle (h (of_decide_eq_true hc)))⟩
  · exact ⟨s.range, rfl⟩

/-- The reset of a core none of whose engines runs a command is the core's own reset, but for marks of its engines. -/
theorem failServed_idle (hlf : c.val = 4 → s.lf.run = none) (hd : ∀ e ∈ servedBy c, s.dispatched e = none) :
    ∃ v, failServed c s = resetCore c v ∧ v.cores = s.cores ∧ v.pwr = s.pwr ∧ v.front.queues = s.front.queues := by
  obtain ⟨r, hr⟩ := lfClear_same (s := s) hlf
  obtain ⟨hc, hp, hq⟩ := endAll (servedBy c) { s with range := r } hd
  refine ⟨_, ?_, hc, hp, hq⟩
  rw [failServed, hr]

/-- A double fault of core 0 or of the Kiln core on a device that runs. -/
theorem doubleFault_request (hc : c.val = 0 ∨ c.val = 5) (hl : s.live = true) : doubleFault c s =
    { s with pwr := { s.pwr with entering := false, heldSrc := 0, resetReq := some ⟨7, c.val, s.clk.rtc⟩ } } := by
  rw [doubleFault, if_pos (by simpa using hc), requestReset_live hl]

/-- A double fault of another core, none of whose engines runs a command, while no queue is guilty. -/
theorem doubleFault_restart (h0 : c.val ≠ 0) (h5 : c.val ≠ 5) (hlf : c.val = 4 → s.lf.run = none)
    (hd : ∀ e ∈ servedBy c, s.dispatched e = none) (hg : ∀ e ∈ s.front.queues, e.2.guilty = none) :
    ∃ v, doubleFault c s = resetCore c v ∧ v.cores = s.cores ∧ v.pwr = s.pwr := by
  obtain ⟨v, hv, hcores, hpwr, hq⟩ := failServed_idle hlf hd
  refine ⟨v, ?_, hcores, hpwr⟩
  have hrq : (resetCore c v).front.queues = s.front.queues := by rw [resetCore_rest, ← hq]; rfl
  rw [doubleFault, if_neg (by simp [h0, h5]), hv, sweep_none 8 _ (by rw [hrq]; exact hg)]

/-- Settles O17: the word raises ILLEGAL, which is a double fault, whose effect is a reset request or the core's own reset. -/
theorem doubleFaultEffect : Obligations.DoubleFaultEffect := by
  unfold Obligations.DoubleFaultEffect
  intro i c w s t hi h hp
  obtain ⟨body, legal, he, rfl⟩ := coreInstr_exec hi s
  have hx : exec i s = .next (doubleFault c t) := by
    rw [he, instruction_fetched h, if_neg Bool.false_ne_true, raiseIllegal, raise_double hp]
  refine ⟨fun hc => ⟨_, hx, ?_⟩, fun h0 h5 hlf hd hg => ⟨_, hx, ?_⟩⟩
  · rw [doubleFault_request hc h.live_after]
    refine ⟨rfl, rfl, h.chans, ?_, ?_⟩
    · simp [State.live]
    · rw [h.clk]
  · have hd' : ∀ e ∈ servedBy c, t.dispatched e = none := fun e he => by
      rw [← hd e he]
      simp only [State.dispatched, State.engine, State.cage, h.front]
    obtain ⟨v, hv, hcores, hpwr⟩ := doubleFault_restart h0 h5 (by rwa [h.lf]) hd' (by rwa [h.front])
    have hself := resetCore_get c c v
    rw [if_pos rfl, hcores] at hself
    rw [hv]
    refine ⟨?pwr, ?_⟩
    case pwr => rw [resetCore_rest, ← h.pwr, ← hpwr]; rfl
    rw [hself]
    refine ⟨rfl, rfl, rfl, rfl, rfl, Core.restarted_get (t.cores.get c), ?_,
      fun d hne => ⟨levelsHeld c d (clearCore c v), ?_⟩⟩
    · exact (congrArg (· &&& 0xFAFF) BitVec.zero_or).trans (levelsHeld_mask c c _)
    · rw [resetCore_get, if_neg hne, hcores]

/-! ### Interrupts (R219, R220, R242) -/

theorem interruptible_iff (k : Core) :
    k.interruptible = true ↔ k.run = .running ∨ ∃ b, k.run = .blocked b ∧ b ≠ .ledgerAck := by
  unfold Core.interruptible
  cases k.run with
  | blocked b => cases b <;> simp
  | reset | running | stalled | banked => simp

/-- Settles O18: the lowest due event is the one the core takes. -/
theorem interruptTaken : Obligations.InterruptTaken := by
  unfold Obligations.InterruptTaken
  intro c s n k hu hr hie hn hset hlow
  have hdue : ∀ i, i < 16 → (k.due.getLsbD i = true ↔ bit k.e i = true ∧ bit k.cstat (16 + i) = true) := fun i hi => by
    rw [due_bit k hie i hi, Bool.and_eq_true]
  have hbit : k.due.getLsbD n = true := (hdue n hn).2 hset
  have hlowest : lowestBit k.due = n := lowestBit_eq k.due n hn hbit fun i hi =>
    Bool.eq_false_iff.2 fun hb => hlow i hi ((hdue i (by omega)).1 hb)
  have hsome : k.due ≠ 0 := fun e => by simp [e] at hbit
  have htakes : (s.coreUp c && k.interruptible && k.due != 0) = true := by
    rw [hu, (interruptible_iff k).2 hr, bne_iff_ne.2 hsome]
    rfl
  refine next_when htakes ?_
  show s.setCore c (k.vector 0x40 (wd (0x80000000 + lowestBit k.due))) = _
  rw [hlowest, Core.vector, enterStat_eq]

/-! ### BANK (R245 to R247, R1187) -/

/-- Core 0's BANK may start the entry: the mode, no session, no dispatched command, and the other cores. -/
theorem bankAccepted_iff (s : State) : bankAccepted s = true ↔
    (s.sys.mode = .unmated ∨ s.sys.mode = .parked ∨ s.sys.mode = .lockdown) ∧ s.sys.active = 0 ∧
      (∀ g : Fin 8, (s.cage g).disp = none) ∧
      ∀ c : Fin 6, c ≠ 0 → (s.cores.get c).run = .banked ∨ (s.cores.get c).run = .reset := by
  have hcages : allCages.all (fun c => (s.cage c).disp.isNone) = true ↔ ∀ g : Fin 8, (s.cage g).disp = none := by
    simp only [List.all_eq_true, Option.isNone_iff_eq_none]
    exact ⟨fun h g => h g (by revert g; decide), fun h g _ => h g⟩
  have hcores : [1, 2, 3, 4, 5].all (fun c : Fin 6 => (s.cores.get c).run == .banked || (s.cores.get c).run == .reset) = true ↔
      ∀ c : Fin 6, c ≠ 0 → (s.cores.get c).run = .banked ∨ (s.cores.get c).run = .reset := by
    simp only [List.all_eq_true, Bool.or_eq_true, beq_iff_eq]
    exact ⟨fun h c hc => h c (by revert c; decide), fun h c hc => h c (by revert c; decide)⟩
  rw [bankAccepted, Bool.and_eq_true, Bool.and_eq_true, Bool.and_eq_true, hcages, hcores]
  simp only [Bool.or_eq_true, beq_iff_eq, and_assoc, or_assoc]

theorem bankAccepted_fetched (h : Fetches c s t) : bankAccepted t = bankAccepted s := by
  rw [Bool.eq_iff_iff, bankAccepted_iff, bankAccepted_iff, h.sys]
  simp only [h.run, State.cage, h.front]

/-- A core stopped in BANK goes on where core 0 has not begun the entry and its E.SIG0 is set. -/
theorem resumeBanked_eq {k : Core} (hk : s.cores.get c = k) : resumeBanked c s = s.setCore c
    (if c ≠ 0 ∧ k.run = .banked ∧ k.e.getLsbD 2 = true ∧ s.pwr.entering = false then k.goesTo (k.pc + 4) else k) := by
  subst hk
  have hiff : (c.val != 0 && (s.cores.get c).run == .banked && bit (s.cores.get c).e 2 && !s.pwr.entering) = true ↔
      c ≠ 0 ∧ (s.cores.get c).run = .banked ∧ (s.cores.get c).e.getLsbD 2 = true ∧ s.pwr.entering = false := by
    simp only [Bool.and_eq_true, bne_iff_ne, ne_eq, beq_iff_eq, Bool.not_eq_true', bit, and_assoc, Fin.ext_iff]
    rfl
  rw [resumeBanked, when]
  by_cases h : c ≠ 0 ∧ (s.cores.get c).run = .banked ∧ (s.cores.get c).e.getLsbD 2 = true ∧ s.pwr.entering = false
  · rw [if_pos (hiff.2 h), if_pos h]
    rfl
  · rw [if_neg (mt hiff.1 h), if_neg h, State.setCore_self]

/-- BANK on a core other than core 0: the channels alone change besides the core. -/
theorem bankOther_spec (hc : c ≠ 0) {k : Core} (hk : s.cores.get c = k) : ∃ u, bankOther c s = u ∧
    u = { s.setCore c (if bit k.e 2 && !s.pwr.entering then k.goesTo (k.pc + 4) else { k with run := .banked }) with
      chans := u.chans } ∧
    u.chans.timed = s.chans.timed.filter (fun e => !(servedBy c).contains (e.1 / 16)) ∧ u.chans.flushed = s.chans.flushed ∧
    (∀ x ∈ coreChans c, (s.chan x).back = [] → (u.chan x).q = []) ∧ ∀ x, x ∉ coreChans c → u.chan x = s.chan x := by
  subst hk
  obtain ⟨hrest, htimed, hfl, hq, hother⟩ := cFlushes (coreChans c) s
  have hcores : (forEach (coreChans c) cFlush s).cores = s.cores := by rw [hrest]
  have hpwr : (forEach (coreChans c) cFlush s).pwr = s.pwr := by rw [hrest]
  have hstop : bankOther c s = (dropTimed c (forEach (coreChans c) cFlush s)).setCore c
      (if bit (s.cores.get c).e 2 && !s.pwr.entering then (s.cores.get c).goesTo ((s.cores.get c).pc + 4)
        else { s.cores.get c with run := .banked }) := by
    rw [bankOther, State.onCore, resumeBanked_eq (State.setCore_get _ _ _), State.setCore_setCore]
    simp only [dropTimed, hcores, State.setCore_pwr, hpwr, hc, ne_eq, not_false_eq_true, true_and, bit, Bool.and_eq_true,
      Bool.not_eq_true']
    rfl
  refine ⟨_, hstop, ?_, ?_, hfl, fun x hx hb => (hq x hb).1.2 hx, hother⟩
  · simp only [dropTimed, State.setCore, hcores]
    conv_lhs => rw [hrest]
  · show (forEach (coreChans c) cFlush s).chans.timed.filter _ = _
    rw [htimed]

/-- Settles O22: a compare fires where it is due; BANK of core 0 is accepted or refused, and of another core stops it. -/
theorem timerAndBank : Obligations.TimerAndBank := by
  unfold Obligations.TimerAndBank
  refine ⟨?timer, ?master, ?other⟩
  case timer =>
    intro c s hl k hr ha hd
    refine next_when (Bool.and_eq_true_iff.2 ⟨hl, bne_iff_ne.2 hr⟩) ?_
    rw [State.onCore, fireTimer_eq, if_pos ⟨ha, hd⟩]
  case master =>
    intro s t h ready k
    have hx : exec (.bank 0 0 0 0) s = .next (bankMaster t) := legal_fetched h _ rfl bankMaster
    have hacc : bankAccepted t = true ↔ ready := by rw [bankAccepted_fetched h, bankAccepted_iff]
    refine ⟨fun hr => ?_, fun hr => ⟨_, hx, ?_⟩⟩
    · rw [hx, bankMaster, if_pos (hacc.2 hr), State.onCore, ← h.pwr]
    · rw [bankMaster, if_neg (mt hacc.1 hr)]
      exact modeEvent_notified 2 _
  case other =>
    intro c s t hc h5 h k
    have h0 : c.val ≠ 0 := fun e => hc (Fin.ext e)
    have hasked : (c.val = 5 && !(bankAsked s && kilnIdle s)) = false := by
      by_cases e : c = 5
      · simp [h5 e]
      · simp [show c.val ≠ 5 from fun e' => e (Fin.ext e')]
    have hx : exec (.bank c 0 0 0) s = .next (bankOther c t) := by
      show execBank c 0 0 0 s = _
      rw [execBank, if_neg (ne_true_of_eq_false hasked), if_neg h0]
      exact legal_fetched h _ rfl _
    obtain ⟨u, hu, hrest, htimed, hfl, hq, hother⟩ := bankOther_spec hc (k := k) rfl
    rw [h.chans] at htimed hfl
    rw [h.pwr] at hrest
    simp only [h.chan] at hq hother
    exact ⟨u, hx.trans (congrArg _ hu), hrest, htimed, hfl, hq, hother⟩

end Sys2Proof.Machine
end

section
/-! The laws of the channel and event instructions, and the statements SendResults, ReceiveResults and EventResults assembled from
them. -/
namespace Sys2Proof.Machine

variable {c : Fin 6} {s t : State} {k : Core} {ch : BitVec 8}

/-! ### Flags of the channel instructions (R209, R210) -/

theorem withC_withV (f : BitVec 4) (v cy : Bool) : withC (withV f v) cy = packFlags v cy (bit f 1) (bit f 0) := by
  revert f v cy; decide

theorem withZ_withC_withV (f : BitVec 4) (v cy z : Bool) : withZ (withC (withV f v) cy) z = packFlags v cy (bit f 1) z := by
  revert f v cy z; decide

theorem withZ_packed (f : BitVec 4) (z : Bool) : withZ f z = packFlags (bit f 3) (bit f 2) (bit f 1) z := rfl

theorem withC_packed (f : BitVec 4) (cy : Bool) : withC f cy = packFlags (bit f 3) cy (bit f 1) (bit f 0) := rfl

/-! ### Sending (R199, R206 to R212) -/

/-- What SND and SNDT share: they differ in the flags that they leave and in what they do where the channel is full. -/
def sendInstr (c : Fin 6) (n : BitVec 8) (w : Word) (eom : Bool) (sent flushed : BitVec 4 → BitVec 4) (full : Core → Core)
    (s : State) : State :=
  match sendFault c n.toNat with
  | some sub => raiseChan c n sub s
  | none =>
    if s.flushes c n.toNat then flushedSend c flushed (lateDone c n.toNat w s)
    else if s.roomFor c n.toNat then sendWord c n.toNat w eom sent s
    else s.onCore c full

theorem snd_fetched (h : Fetches c s t) (ra : Fin 16) (eom : Bool) (ch : BitVec 8) :
    exec (.snd c 0 ra (if eom then 1 else 0) ch) s = .next (sendInstr c ch ((t.cores.get c).get ra) eom (fun f => withV f false) id
      (fun k => { k with run := .blocked (.snd ch.toNat ((t.cores.get c).get ra) eom) }) t) := by
  obtain ⟨he, hl⟩ := aux_eom eom
  refine (legal_fetched h _ (by rw [hl]; rfl) _).trans ?_
  rw [he]
  rfl

theorem sndt_fetched (h : Fetches c s t) (ra : Fin 16) (eom : Bool) (ch : BitVec 8) :
    exec (.sndt c 0 ra (if eom then 1 else 0) ch) s = .next (sendInstr c ch ((t.cores.get c).get ra) eom
      (fun f => withZ (withV f false) true) (fun f => withZ f false)
      (fun k => { k.advance with flg := withZ (withV k.flg false) false }) t) := by
  obtain ⟨he, hl⟩ := aux_eom eom
  refine (legal_fetched h _ (by rw [hl]; rfl) _).trans ?_
  rw [he]
  rfl

section
variable {w : Word} {eom : Bool} {sent flushed : BitVec 4 → BitVec 4} {full : Core → Core}

theorem sendInstr_fault {sub : Nat} (hf : sendFault c ch.toNat = some sub) (hp : (t.cores.get c).plain = true) :
    sendInstr c ch w eom sent flushed full t =
      t.setCore c ((t.cores.get c).excepted (wd (256 * sub + 5)) (wd ch.toNat)) := by
  rw [sendInstr, hf]
  exact raiseChan_eq rfl hp ch sub

theorem flushedSend_eq (hk : s.cores.get c = k) (f : BitVec 4 → BitVec 4) :
    flushedSend c f s = s.setCore c { k.goesTo (k.pc + 4) with flg := f (withV k.flg true) } := by
  subst hk
  rfl

theorem sendInstr_flushed (hn : sendFault c ch.toNat = none) (hf : t.flushes c ch.toNat = true) (hk : t.cores.get c = k) :
    sendInstr c ch w eom sent flushed full t =
      (lateDone c ch.toNat w t).setCore c { k.goesTo (k.pc + 4) with flg := flushed (withV k.flg true) } := by
  rw [sendInstr, hn]
  dsimp only
  rw [if_pos hf, flushedSend_eq (by rw [lateDone_cores, hk])]

theorem sendInstr_full (hn : sendFault c ch.toNat = none) (hf : t.flushes c ch.toNat = false)
    (hr : ¬ (ch.toNat = 0x82 ∨ (t.chan (sendKey c ch.toNat)).q.length < 4)) :
    sendInstr c ch w eom sent flushed full t = t.onCore c full := by
  rw [sendInstr, hn]
  dsimp only
  rw [if_neg (by simp [hf]), if_neg (mt (roomFor_iff t c _).1 hr)]

theorem sendInstr_room (hn : sendFault c ch.toNat = none) (hf : t.flushes c ch.toNat = false)
    (hr : ch.toNat = 0x82 ∨ (t.chan (sendKey c ch.toNat)).q.length < 4) :
    sendInstr c ch w eom sent flushed full t = sendWord c ch.toNat w eom sent t := by
  rw [sendInstr, hn]
  dsimp only
  rw [if_neg (by simp [hf]), if_pos ((roomFor_iff t c _).2 hr)]

end

/-- A blocked SND whose channel has room. -/
theorem sndUnblock_room {n : Nat} {w : Word} {eom : Bool} (hu : s.coreUp c = true) (hd : (s.cores.get c).due = 0)
    (hb : (s.cores.get c).run = .blocked (.snd n w eom)) (hf : s.flushes c n = false)
    (hr : n = 0x82 ∨ (s.chan (sendKey c n)).q.length < 4) :
    exec (.sndUnblock c) s = .next (sendWord c n w eom (fun f => withV f false) s) := by
  refine next_when (by simp [hu, hd]) ?_
  rw [hb]
  dsimp only
  rw [if_neg (by simp [hf]), if_pos ((roomFor_iff s c n).2 hr)]

/-- Settles O27: SND and SNDT are one instruction with different flags, and a blocked SND sends as it would have sent. -/
theorem sendResults : Obligations.SendResults := by
  unfold Obligations.SendResults
  intro c s t ra eom ch k w aux n key free held placed flg on waits z snd sndt
  have hfree : ∀ {u : State}, ¬ held u → withholds n eom u = false := fun hh =>
    Bool.eq_false_iff.2 (mt (withholds_iff n eom _).1 hh)
  refine ⟨fun h => ?_, ?unblock⟩
  case unblock =>
    intro w k hu hd hb hf hr hh
    rw [sndUnblock_room hu hd hb hf hr, sendWord_eq rfl (hfree hh), (flag_forms _ _ false).1]
  have hsnd : exec snd s = .next (sendInstr c ch w eom _ _ _ t) := snd_fetched h ra eom ch
  have hsndt : exec sndt s = .next (sendInstr c ch w eom _ _ _ t) := sndt_fetched h ra eom ch
  have hv : ∀ v, withV k.flg v = flg k v z := fun v => (flag_forms k.flg v false).1
  have hvz : ∀ v z, withZ (withV k.flg v) z = flg k v z := fun v z => (flag_forms k.flg v z).2
  refine ⟨fun hn hf => ⟨fun hr hh => ?sent, fun hr hh => ?held, fun hr => ?full⟩, fun hn hf => ?flushed, fun sub hn hp => ?fault⟩
  case sent =>
    rw [hsnd, hsndt, sendInstr_room hn hf hr, sendInstr_room hn hf hr, sendWord_eq rfl (hfree hh), sendWord_eq rfl (hfree hh),
      hvz, hv]
    exact ⟨rfl, rfl⟩
  case held =>
    have hw : withholds n eom t = true := (withholds_iff n eom t).2 hh
    rw [hsnd, hsndt, sendInstr_room hn hf hr, sendInstr_room hn hf hr, sendWord_held rfl hw, sendWord_held rfl hw, hvz, hv]
    exact ⟨rfl, rfl⟩
  case full =>
    rw [hsnd, hsndt, sendInstr_full hn hf hr, sendInstr_full hn hf hr, State.onCore_eq, State.onCore_eq, hvz]
    exact ⟨rfl, rfl⟩
  case flushed =>
    rw [hsnd, hsndt, sendInstr_flushed hn hf rfl, sendInstr_flushed hn hf rfl, hvz, id, hv]
    exact ⟨rfl, rfl⟩
  case fault =>
    rw [hsnd, hsndt, sendInstr_fault hn hp, sendInstr_fault hn hp]
    exact ⟨rfl, rfl⟩

/-! ### Receiving (R199, R207 to R212, R225) -/

/-- What RCV and RCVT share: they differ in the flags that they leave and in what they do where no word waits. -/
def recvInstr (c : Fin 6) (n : BitVec 8) (rd : Fin 16) (got flushed : BitVec 4 → BitVec 4) (empty : Core → Core)
    (s : State) : State :=
  match recvFault c n.toNat with
  | some sub => raiseChan c n sub s
  | none =>
    let s := endFlushAt c n.toNat s
    if s.flushes c n.toNat then flushedRecv c rd flushed s
    else match cTake (recvKey c n.toNat) s with
      | (some h, s) => receive c rd h got s
      | (none, s) => s.onCore c empty

theorem rcv_fetched (h : Fetches c s t) (rd : Fin 16) (ch : BitVec 8) : exec (.rcv c rd 0 0 ch) s =
    .next (recvInstr c ch rd id id (fun k => { k with run := .blocked (.rcv ch.toNat rd) }) t) :=
  legal_fetched h _ rfl _

theorem rcvt_fetched (h : Fetches c s t) (rd : Fin 16) (ch : BitVec 8) : exec (.rcvt c rd 0 0 ch) s =
    .next (recvInstr c ch rd (fun f => withZ f true) (fun f => withZ f false)
      (fun k => { k.advance with flg := withZ (withV k.flg false) false }) t) :=
  legal_fetched h _ rfl _

/-- The state with the head word taken from a channel. -/
def wordTaken (key : Nat) (h : ChWord) (q : List ChWord) (s : State) : State :=
  cRefill key (s.setChan key { s.chan key with q := q, taken := some (h.tick, h.fine) })

/-- A flush of the ports of the channel's engine holds, so the channel is not its CMD port, and no flush ends at it. -/
theorem endFlushAt_flushes {n : Nat} (hf : s.flushes c n = true) : endFlushAt c n s = s := by
  have hcmd : isCmd n = false := by
    rw [State.flushes, Bool.and_eq_true, Bool.not_eq_true'] at hf
    exact hf.1
  rw [endFlushAt, hcmd]

/-- On a CMD port the flush ends. -/
theorem endFlushAt_cmd {n e : Nat} (hc : isCmd n = true) (he : chanEngine c n = some e) (hf : s.flushed e = true) :
    endFlushAt c n s = endFlush e s := by
  rw [endFlushAt, hc, he]
  exact when_true hf _ _

theorem flushes_cmd {n : Nat} (hc : isCmd n = true) (s : State) : s.flushes c n = false := by
  rw [State.flushes, hc]
  rfl

section
variable {rd : Fin 16} {got flushed : BitVec 4 → BitVec 4} {empty : Core → Core}

theorem recvInstr_fault {sub : Nat} (hf : recvFault c ch.toNat = some sub) (hp : (t.cores.get c).plain = true) :
    recvInstr c ch rd got flushed empty t =
      t.setCore c ((t.cores.get c).excepted (wd (256 * sub + 5)) (wd ch.toNat)) := by
  rw [recvInstr, hf]
  exact raiseChan_eq rfl hp ch sub

theorem recvInstr_flushed (hn : recvFault c ch.toNat = none) (hf : t.flushes c ch.toNat = true) (hk : t.cores.get c = k) :
    recvInstr c ch rd got flushed empty t = t.setCore c (k.result rd 0 (flushed (withV k.flg true))) := by
  rw [recvInstr, hn]
  dsimp only
  rw [endFlushAt_flushes hf, if_pos hf, flushedRecv_eq hk]

theorem recvInstr_word (hn : recvFault c ch.toNat = none) (he : ∀ e, chanEngine c ch.toNat = some e → t.flushed e = false)
    (hk : t.cores.get c = k) {h : ChWord} {q : List ChWord} (hq : (t.chan (recvKey c ch.toNat)).q = h :: q) :
    recvInstr c ch rd got flushed empty t = (wordTaken (recvKey c ch.toNat) h q t).setCore c
      (k.result rd h.w (got (withC (withV k.flg false) h.eom))) := by
  rw [recvInstr, hn]
  dsimp only
  rw [endFlushAt_none he, if_neg (by rw [flushes_none he]; exact Bool.false_ne_true), cTake_cons hq]
  exact receive_eq hk

/-- No word waits, whether the receive has ended a flush or found none. -/
theorem recvInstr_empty (hn : recvFault c ch.toNat = none) {u : State} (hu : endFlushAt c ch.toNat t = u)
    (hf : u.flushes c ch.toNat = false) (hq : (u.chan (recvKey c ch.toNat)).q = []) :
    recvInstr c ch rd got flushed empty t = u.onCore c empty := by
  rw [recvInstr, hn]
  dsimp only
  rw [hu, if_neg (by rw [hf]; exact Bool.false_ne_true), cTake_nil hq]

end

/-- A blocked RCV for which a word waits. -/
theorem rcvUnblock_word {n : Nat} {rd : Fin 16} (hu : s.coreUp c = true) (hd : (s.cores.get c).due = 0)
    (hb : (s.cores.get c).run = .blocked (.rcv n rd)) (he : ∀ e, chanEngine c n = some e → s.flushed e = false)
    (hk : s.cores.get c = k) {h : ChWord} {q : List ChWord} (hq : (s.chan (recvKey c n)).q = h :: q) :
    exec (.rcvUnblock c) s = .next ((wordTaken (recvKey c n) h q s).setCore c
      (k.result rd h.w (withC (withV k.flg false) h.eom))) := by
  refine next_when (by simp [hu, hd]) ?_
  rw [hb]
  dsimp only
  rw [if_neg (by rw [flushes_none he]; exact Bool.false_ne_true), endFlushAt_none he, cTake_cons hq]
  exact receive_eq hk

/-- The count that PEEK gives on a channel of the core that is no key port (R211). -/
theorem peek_fetched (h : Fetches c s t) (rd : Fin 16) {ch : BitVec 8} {p : Port} (hp : portOf c ch.toNat = some p)
    (hi : p ≠ .keyIn) (ho : p ≠ .keyOut) {m : Nat} (hm : (if p = .send then 4 - (t.chan (sendKey c ch.toNat)).q.length
      else (t.chan (recvKey c ch.toNat)).q.length) = m) :
    exec (.peek c rd 0 0 ch) s =
      .next (t.setCore c ((t.cores.get c).result rd (wd m) (withZ (t.cores.get c).flg (decide (m ≠ 0))))) := by
  have hf : peekFault c ch.toNat = none := by
    rw [peekFault, hp]
    cases p with
    | keyIn => exact absurd rfl hi
    | keyOut => exact absurd rfl ho
    | mailbox | recv | send => rfl
  have hc : peekCount t c ch.toNat = m := by
    rw [peekCount, hp, ← hm]
    cases p <;> rfl
  have hz : (m != 0) = decide (m ≠ 0) := by rw [Bool.eq_iff_iff, bne_iff_ne, decide_eq_true_eq]
  refine (legal_fetched h _ rfl _).trans ?_
  rw [hf]
  dsimp only
  rw [hc, State.onCore, write_eq_result, hz]
  rfl

/-- Settles O28: RCV and RCVT are one instruction with different flags, and a blocked RCV takes the word as it would have. -/
theorem receiveResults : Obligations.ReceiveResults := by
  unfold Obligations.ReceiveResults
  intro c s t rd ch k n key z flg on rcv rcvt taken
  refine ⟨fun h => ?_, fun hu hd hb he h q hq => ?unblock⟩
  case unblock => rw [rcvUnblock_word hu hd hb he rfl hq, withC_withV]; rfl
  have hrcv : exec rcv s = .next (recvInstr c ch rd _ _ _ t) := rcv_fetched h rd ch
  have hrcvt : exec rcvt s = .next (recvInstr c ch rd _ _ _ t) := rcvt_fetched h rd ch
  refine ⟨fun hn => ⟨fun hc e he hf hq => ?ends, fun he => ⟨fun x q hq => ?word, fun hq => ?empty⟩, fun hf => ?flushed⟩,
    fun sub hn hp => ?fault, fun p hp hi ho => ?peek⟩
  case ends => rw [hrcv, recvInstr_empty hn (endFlushAt_cmd hc he hf) (flushes_cmd hc _) hq]; rfl
  case word =>
    rw [hrcv, hrcvt, recvInstr_word hn he rfl hq, recvInstr_word hn he rfl hq, withZ_withC_withV, id, withC_withV]
    exact ⟨rfl, rfl⟩
  case empty =>
    have hf := flushes_none he
    rw [hrcv, hrcvt, recvInstr_empty hn (endFlushAt_none he) hf hq, recvInstr_empty hn (endFlushAt_none he) hf hq,
      State.onCore_eq, State.onCore_eq, (flag_forms _ _ _).2]
    exact ⟨rfl, rfl⟩
  case flushed =>
    rw [hrcv, hrcvt, recvInstr_flushed hn hf rfl, recvInstr_flushed hn hf rfl, (flag_forms _ _ _).2, id, (flag_forms _ _ z).1]
    exact ⟨rfl, rfl⟩
  case fault =>
    rw [hrcv, hrcvt, recvInstr_fault hn hp, recvInstr_fault hn hp]
    exact ⟨rfl, rfl⟩
  case peek => exact peek_fetched h rd hp hi ho rfl

/-! ### Events (R214 to R218, R247) -/

/-- WAITE of a core that stands before it, with its mask. -/
theorem waite_fetched (h : Fetches c s t) (rd ra : Fin 16) (keep : Bool) {m : BitVec 16}
    (hm : ((t.cores.get c).get ra).setWidth 16 = m) : exec (.waite c rd ra (if keep then 1 else 0) 0) s =
      .next (if eventsDue (t.cores.get c) m then takeEvents c rd m keep t
        else t.setCore c { t.cores.get c with run := .blocked (.waite rd m keep) }) := by
  obtain ⟨he, hl⟩ := aux_eom keep
  subst hm
  refine (legal_fetched h _ (by rw [hl]; rfl) _).trans ?_
  rw [he]
  rfl

/-- A blocked WAITE for which a masked event is set. -/
theorem waiteUnblock_due {rd : Fin 16} {m : BitVec 16} {keep : Bool} (hu : s.coreUp c = true) (hd : (s.cores.get c).due = 0)
    (hb : (s.cores.get c).run = .blocked (.waite rd m keep)) (he : eventsDue (s.cores.get c) m = true) :
    exec (.waiteUnblock c) s = .next (takeEvents c rd m keep s) := by
  refine next_when (by simp [hu, hd]) ?_
  rw [hb]
  exact when_true he _ _

/-- SIG of a core that stands before it, to core d. -/
theorem sig_fetched (h : Fetches c s t) (d : Fin 6) :
    exec (.sig c 0 0 0 (BitVec.ofNat 8 d.val)) s = .next (signal c d t) := by
  have hd : (BitVec.ofNat 8 d.val).toNat < 6 ∧ Fin.ofNat 6 (BitVec.ofNat 8 d.val).toNat = d := by revert d; decide
  refine (legal_fetched h _ (by simpa using hd.1) _).trans ?_
  rw [hd.2]

/-- The bit of the sender in the latch of core d, and the core that goes on where it was stopped in BANK. -/
theorem signal_eq (c d : Fin 6) (t : State) :
    let on := t.onCore c Core.advance
    let told := { on.cores.get d with e := (on.cores.get d).e ||| BitVec.ofNat 16 (2 ^ (2 + c.val)) }
    signal c d t = on.setCore d (if d ≠ 0 ∧ told.run = .banked ∧ told.e.getLsbD 2 = true ∧ t.pwr.entering = false
      then told.goesTo (told.pc + 4) else told) := by
  intro on told
  have hset : on.setE d (BitVec.ofNat 16 (1 <<< (2 + c.val))) = on.setCore d told := by
    rw [Nat.one_shiftLeft]
    rfl
  rw [signal, hset, resumeBanked_eq (State.setCore_get on d told), State.setCore_setCore]
  rfl

/-- Settles O29: WAITE takes its events at once or blocks until it can; SIG tells one core. -/
theorem eventResults : Obligations.EventResults := by
  unfold Obligations.EventResults
  intro c s t rd ra keep d k m aux takes
  refine ⟨fun h hm => ?now, fun h hm hk => ?blocks, fun m hu hd hb hm => ?unblock, fun h => ?sig⟩
  case now =>
    have hx := waite_fetched h rd ra keep (m := m) rfl
    rw [if_pos ((eventsDue_iff k m).2 hm)] at hx
    exact ⟨_, hx, takeEvents_spec rfl rd m keep⟩
  case blocks =>
    rw [waite_fetched h rd ra keep (m := m) rfl, if_neg (mt (eventsDue_iff k m).1 fun h => h.elim hm (· hk))]
  case unblock => exact ⟨_, waiteUnblock_due hu hd hb ((eventsDue_iff _ m).2 hm), takeEvents_spec rfl rd m keep⟩
  case sig =>
    refine ⟨_, sig_fetched h d, ?_⟩
    have hon : ∀ x, (t.onCore c Core.advance).cores.get x = if x = c then k.goesTo (k.pc + 4) else t.cores.get x :=
      fun x => State.get_setCore t c x _
    have hs := signal_eq c d t
    simp only [hon, h.pwr] at hs
    rw [hs]
    exact ⟨rfl, fun x hx => by rw [State.get_setCore, if_neg hx, hon], State.setCore_get _ _ _⟩

end Sys2Proof.Machine
end

section
/-! The laws of the field core's timed instructions and of the Kiln core's key instructions, and the statements TimedResults and
KeyInstructions assembled from them. -/
namespace Sys2Proof.Machine

variable {s t : State} {k : Core} {ch : BitVec 8}

/-! ### Timed words (R221 to R225) -/

/-- How far a target lies ahead of the present tick, as R222 compares the two. -/
def untilTick (s : State) (target : Word) : Int := (target - wd s.clk.tb).toInt

/-- The state with a word in the timed queue of a port, and the field core at its next word. -/
theorem queueTimed_eq (hk : s.cores.get 4 = k) (n : Nat) (w : Word) (eom : Bool) (target : Word) :
    queueTimed 4 n w eom target s =
      (s.setTimedQ n (s.timedQ n ++ [⟨w, eom, target, decide (untilTick s target < 0), s.clk.tb⟩])).setCore 4
        { k.goesTo (k.pc + 4) with
          flg := packFlags false (decide (untilTick s target < 0)) (bit k.flg 1) (bit k.flg 0) } := by
  subst hk
  rw [← withC_withV]
  rfl

/-- TAT on a port of the timed extension whose engine's ports are not flushed. -/
theorem tat_fetched (h : Fetches 4 s t) (rd ra : Fin 16) (eom : Bool) (hp : (portOf 4 ch.toNat).isSome = true)
    (ht : tatPort ch.toNat = true) (hf : t.flushes 4 ch.toNat = false) :
    exec (.tat 4 rd ra (if eom then 1 else 0) ch) s = .next (if (t.timedQ ch.toNat).length < 4
      then queueTimed 4 ch.toNat ((t.cores.get 4).get rd) eom ((t.cores.get 4).get ra) t
      else t.setCore 4 { t.cores.get 4 with
        run := .blocked (.tat ch.toNat ((t.cores.get 4).get rd) eom ((t.cores.get 4).get ra)) }) := by
  obtain ⟨he, hl⟩ := aux_eom eom
  refine (legal_fetched h _ (by rw [hl]; rfl) _).trans ?_
  dsimp only
  rw [ht, timedFault_none hp]
  dsimp only
  rw [if_neg (ne_true_of_eq_false hf), he]
  rfl

/-- A blocked TAT whose timed queue has room. -/
theorem tatUnblock_room {n : Nat} {w target : Word} {eom : Bool} (hu : s.coreUp 4 = true) (hd : (s.cores.get 4).due = 0)
    (hb : (s.cores.get 4).run = .blocked (.tat n w eom target)) (hf : s.flushes 4 n = false)
    (hr : (s.timedQ n).length < 4) : exec (.tatUnblock 4) s = .next (queueTimed 4 n w eom target s) := by
  refine next_when (by simp [hu, hd]) ?_
  rw [hb]
  dsimp only
  rw [if_neg (ne_true_of_eq_false hf), if_pos hr]

theorem tinStamp_eq (fine : Bool) : tinStamp fine = fun x => wd (if fine then 1024 * x.1 + x.2 else x.1) := by
  cases fine <;> rfl

/-- TIN on a port of the timed extension: the stamp of the word last taken, or 0. -/
theorem tin_fetched (h : Fetches 4 s t) (rd : Fin 16) (fine : Bool) (hp : (portOf 4 ch.toNat).isSome = true)
    (ht : tinPort ch.toNat = true) : exec (.tin 4 rd 0 (if fine then 1 else 0) ch) s =
      .next (t.setCore 4 ((t.cores.get 4).result rd (((t.chan ch.toNat).taken.map (tinStamp fine)).getD 0)
        (withZ (t.cores.get 4).flg (t.chan ch.toNat).taken.isSome))) := by
  obtain ⟨he, hl⟩ := aux_eom fine
  refine (legal_fetched h _ (by rw [hl]; rfl) _).trans ?_
  dsimp only
  rw [ht, timedFault_none hp, he, State.onCore, write_eq_result]
  rfl

/-! ### TMARK (R228) -/

theorem tickDue_iff (s : State) (target : Word) : tickDue target s.tbLo = true ↔ untilTick s target ≤ 0 := decide_eq_true_iff

theorem release_eq (hk : s.cores.get 4 = k) (rd : Fin 16) (late : Bool) : release 4 rd late s =
    s.setCore 4 (k.result rd (wd s.clk.tb) (packFlags (bit k.flg 3) late (bit k.flg 1) (bit k.flg 0))) := by
  subst hk
  rw [release, State.onCore, write_eq_result, withC_packed]
  rfl

theorem tmark_fetched (h : Fetches 4 s t) (rd ra : Fin 16) : exec (.tmark 4 rd ra 0 0) s =
    .next (if tickDue ((t.cores.get 4).get ra) t.tbLo
      then release 4 rd (decide (untilTick t ((t.cores.get 4).get ra) < 0)) t
      else t.setCore 4 { t.cores.get 4 with run := .blocked (.tmark rd ((t.cores.get 4).get ra) false) }) :=
  legal_fetched h _ rfl _

/-- A blocked TMARK whose target is due. -/
theorem tmarkRelease_due {rd : Fin 16} {target : Word} {late : Bool} (hu : s.coreUp 4 = true) (hd : (s.cores.get 4).due = 0)
    (hb : (s.cores.get 4).run = .blocked (.tmark rd target late)) (ht : tickDue target s.tbLo = true) :
    exec (.tmarkRelease 4) s = .next (release 4 rd late s) := by
  refine next_when (by simp [hu, hd]) ?_
  rw [hb]
  exact when_true ht _ _

/-! ### The application of a timed word (R222, R223) -/

/-- The earliest due word of a port whose channel has room enters the channel. -/
theorem tatApply_due {w : TimedWord} (hl : s.live = true) (hp : tatPort ch.toNat = true)
    (hw : firstDue s.clk.tb (s.timedQ ch.toNat) = some w) (hd : discards ch.toNat w.w = false)
    (hr : (s.chan ch.toNat).q.length < 4) :
    let u := s.setTimedQ ch.toNat ((s.timedQ ch.toNat).erase w)
    exec (.tatApply ch) s = .next (u.setChan ch.toNat
      { u.chan ch.toNat with q := (u.chan ch.toNat).q ++ [⟨w.w, w.eom, applyTick s.clk.tb w, 0⟩] }) := by
  refine next_when (by rw [hl, hp]; rfl) ?_
  dsimp only
  rw [hw]
  dsimp only
  rw [if_neg (ne_true_of_eq_false hd), if_neg (by simp [State.cRoom, hr])]
  rfl

/-- Settles O30: each instruction by its law; the word applied is the earliest of those due. -/
theorem timedResults : Obligations.TimedResults := by
  unfold Obligations.TimedResults
  intro s t rd ra b ch k aux n past queued released
  refine ⟨fun h hp ht hf => ⟨fun hr => ?queued, fun hr => ?full⟩, fun w target hu hd hb hf hr => ?unblock, fun h hp ht => ?tin,
    fun h => ⟨fun hd => ?due, fun hd => ?waits⟩, fun target late hu hd hb ht => ?release, fun w hl hp hw hd hr => ?apply⟩
  case queued => rw [tat_fetched h rd ra b hp ht hf, if_pos hr, queueTimed_eq rfl]; rfl
  case full => rw [tat_fetched h rd ra b hp ht hf, if_neg (Nat.not_lt.2 hr)]
  case unblock => rw [tatUnblock_room hu hd hb hf hr, queueTimed_eq rfl]; rfl
  case tin =>
    rw [tin_fetched h rd b hp ht, withZ_packed, tinStamp_eq]
    cases (t.chan n).taken <;> rfl
  case due => rw [tmark_fetched h, if_pos ((tickDue_iff _ _).2 hd), release_eq rfl]; rfl
  case waits => rw [tmark_fetched h, if_neg (mt (tickDue_iff _ _).1 (Int.not_le.2 hd))]
  case release => rw [tmarkRelease_due hu hd hb ((tickDue_iff _ _).2 ht), release_eq rfl]
  case apply =>
    obtain ⟨hmem, hdue, hfirst⟩ := firstDue_spec s.clk.tb (s.timedQ n) w hw
    exact ⟨hmem, hdue, hfirst, tatApply_due hl hp hw hd hr⟩

/-! ### Key slots and handles (R807, R808) -/

theorem slot_setSlot_self (s : State) (n : Nat) (x : Slot) : (s.setSlot n x).slot n = x :=
  agetD_asetD_self Slot.empty s.kiln.slots n x

theorem handleOk_iff (s : State) (h : Word) : handleOk s h = true ↔ h.toNat / 64 = (s.slot (h.toNat % 64)).gen := beq_iff_eq

theorem kldFault_empty {h : Word} {n : Nat} (hh : handleOk s h = true) (hx : (s.slot (h.toNat % 64)).key = none) :
    kldFault s h n = some 2 := by
  unfold kldFault handleSlot
  dsimp only
  rw [hh, hx]
  rfl

/-- A KLD of a slot that holds a key, which the port may take or not, and expects in its size or not. -/
theorem kldFault_held {h : Word} {n : Nat} {key : Bytes} (hh : handleOk s h = true)
    (hx : (s.slot (h.toNat % 64)).key = some key) : kldFault s h n =
      if h.toNat % 64 = 2 ∨ Nat.land (s.slot (h.toNat % 64)).use (portUses n) = 0 then some 4
      else if portSizeOk n key.length then none else some 5 := by
  unfold kldFault handleSlot
  dsimp only
  rw [hh, hx, Option.getD_some]
  cases portSizeOk n key.length <;> simp

theorem kldFault_stale {h : Word} {n : Nat} (hh : handleOk s h = false) : kldFault s h n = some 1 := by
  unfold kldFault
  rw [hh]
  rfl

theorem kstFault_stale {h : Word} {n : Nat} (hh : handleOk s h = false) : kstFault s h n = some 1 := by
  unfold kstFault
  rw [hh]
  rfl

theorem kstFault_fresh {h : Word} {n : Nat} (hh : handleOk s h = true) : kstFault s h n =
    if aget? s.kiln.kout n = none then some 2 else if (s.slot (h.toNat % 64)).key = none then none else some 3 := by
  unfold kstFault handleSlot
  rw [hh]
  cases aget? s.kiln.kout n <;> cases (s.slot (h.toNat % 64)).key <;> rfl

theorem kzapFault_stale {h : Word} (hh : handleOk s h = false) : kzapFault s h = some 1 := by
  unfold kzapFault
  rw [hh]
  rfl

theorem kzapFault_fresh {h : Word} (hh : handleOk s h = true) :
    kzapFault s h = if h.toNat % 64 < 3 then some 4 else none := by
  unfold kzapFault handleSlot fixedSlot
  rw [hh]
  simp

/-! ### Key ports (R229, R230, R810) -/

theorem keyIn_port {n : Nat} (h : n = 0x27 ∨ n = 0x37 ∨ n = 0x47) : keyChanFault 5 n .keyIn = none ∧
    portUses n = (if n = 0x27 then 0x23F else if n = 0x37 then 0xC0 else 0x100) := by
  rcases h with rfl | rfl | rfl <;> decide

theorem portSizeOk_iff {n m : Nat} (h : n = 0x27 ∨ n = 0x37 ∨ n = 0x47) :
    portSizeOk n m = true ↔ m = 32 ∨ (n = 0x27 ∧ (m = 16 ∨ m = 24)) := by
  rcases h with rfl | rfl | rfl <;> simp [portSizeOk]
  omega

theorem keyOut_port {n : Nat} (h : n = 0x28 ∨ n = 0x38) : keyChanFault 5 n .keyOut = none ∧
    ∀ m, kstType n m = (if n = 0x38 then 3 else if m = 16 then 0 else if m = 24 then 1 else 2) := by
  rcases h with rfl | rfl <;> exact ⟨by decide, fun m => rfl⟩

/-! ### The key instructions (R229 to R232) -/

/-- What a key instruction leaves: the KEY_FAULT of its reason, or where there is none its own effect. -/
def orKeyFault (fault : Option Nat) (handle : Word) (done s : State) : State :=
  match fault with
  | some sub => raiseKey 5 handle sub s
  | none => done

section
variable {i : Instr} {fault : Option Nat} {handle : Word} {done : State}

theorem key_faults (hx : exec i s = .next (orKeyFault fault handle done t)) {sub : Nat} (hf : fault = some sub)
    (hp : (t.cores.get 5).plain = true) :
    exec i s = .next (t.setCore 5 ((t.cores.get 5).excepted (wd (256 * sub + 6)) handle)) := by
  rw [hx, hf]
  exact congrArg _ (raiseKey_eq rfl hp handle sub)

theorem key_goes_on (hx : exec i s = .next (orKeyFault fault handle done t)) (hf : fault = none) : exec i s = .next done := by
  rw [hx, hf]
  rfl

end

/-- The state with the key of a KOUT port moved into slot n, which was x. -/
def keyStored (n at_ : Nat) (key : Bytes) (x : Slot) (t : State) : State :=
  let u := t.setSlot n { x with key := some key, type := kstType at_ key.length }
  { u with kiln := { u.kiln with kout := adel u.kiln.kout at_ } }

section
variable (h : Fetches 5 s t) (ra : Fin 16) {n : Nat} {x : Slot} (hn : ((t.cores.get 5).get ra).toNat % 64 = n) (hx : t.slot n = x)
include h hn hx

/-- KLD on a KIN port: the key of the slot and its uses enter the port. -/
theorem kld_fetched (hp : keyChanFault 5 ch.toNat .keyIn = none) : exec (.kld 5 0 ra 0 ch) s =
    .next (orKeyFault (kldFault t ((t.cores.get 5).get ra) ch.toNat) ((t.cores.get 5).get ra)
      (({ t with kiln := { t.kiln with kin := ains t.kiln.kin ch.toNat (x.key.getD [], x.use) } } : State).setCore 5
        ((t.cores.get 5).goesTo ((t.cores.get 5).pc + 4))) t) := by
  subst hn hx
  refine (legal_fetched h _ rfl _).trans ?_
  dsimp only
  rw [hp]
  rfl

/-- KST on a KOUT port: its key enters the slot and leaves the port. -/
theorem kst_fetched (hp : keyChanFault 5 ch.toNat .keyOut = none) : exec (.kst 5 0 ra 0 ch) s =
    .next (orKeyFault (kstFault t ((t.cores.get 5).get ra) ch.toNat) ((t.cores.get 5).get ra)
      ((keyStored n ch.toNat ((aget? t.kiln.kout ch.toNat).getD []) x t).setCore 5
        ((t.cores.get 5).goesTo ((t.cores.get 5).pc + 4))) t) := by
  subst hn hx
  refine (legal_fetched h _ rfl _).trans ?_
  dsimp only
  rw [hp]
  rfl

/-- KZAP: the slot is empty, and rd holds its new handle. -/
theorem kzap_fetched (rd : Fin 16) : exec (.kzap 5 rd ra 0 0) s =
    .next (orKeyFault (kzapFault t ((t.cores.get 5).get ra)) ((t.cores.get 5).get ra)
      ((t.setSlot n ⟨none, nextGen x.gen, 0, 0, 0⟩).setCore 5
        ((t.cores.get 5).result rd (wd (nextGen x.gen * 64 + n)) (t.cores.get 5).flg)) t) := by
  subst hn hx
  refine (legal_fetched h _ rfl _).trans ?_
  dsimp only
  rw [State.onCore, handleOf, write_eq_result, zapSlot, handleSlot, slot_setSlot_self]
  rfl

end

/-- Settles O31: the reason for which a key instruction faults decides what it does. -/
theorem keyInstructions : Obligations.KeyInstructions := by
  unfold Obligations.KeyInstructions
  intro s t rd ra ch h k hd n x at_ fault fresh kin kout uses sized kld kst kzap
  have hx : t.slot n = x := h.slot n
  have hok : fresh → handleOk t hd = true := fun hf => (handleOk_iff t hd).2 (by rw [h.slot]; exact hf)
  have hstale : ¬ fresh → handleOk t hd = false := fun hf =>
    Bool.eq_false_iff.2 fun e => hf (by rw [handleOk_iff, h.slot] at e; exact e)
  have hkld : kin → exec kld s = .next (orKeyFault (kldFault t hd at_) hd _ t) :=
    fun hi => kld_fetched h ra rfl hx (keyIn_port hi).1
  have hkst : kout → exec kst s = .next (orKeyFault (kstFault t hd at_) hd _ t) :=
    fun ho => kst_fetched h ra rfl hx (keyOut_port ho).1
  have hkzap : exec kzap s = .next (orKeyFault (kzapFault t hd) hd _ t) := kzap_fetched h ra rfl hx rd
  refine ⟨fun hi hf => ?kld, fun ho hf => ?kst, fun hf => ?kzap, fun hf hp => ?stale⟩
  case kld =>
    have hempty : x.key = none → kldFault t hd at_ = some 2 := fun hk => kldFault_empty (hok hf) ((congrArg Slot.key hx).trans hk)
    have hheld : ∀ key, x.key = some key → kldFault t hd at_ = if n = 2 ∨ Nat.land x.use uses = 0 then some 4
        else if portSizeOk at_ key.length then none else some 5 := fun key hk => by
      rw [kldFault_held (hok hf) ((congrArg Slot.key hx).trans hk), hx, (keyIn_port hi).2]
    refine ⟨fun key hk hn hu => ?_, fun hk => key_faults (hkld hi) (hempty hk), fun hk hno => ?_⟩
    · have hsub := (hheld key hk).trans (if_neg (not_or.2 ⟨hn, hu⟩))
      refine ⟨fun hsize => ?_, fun hsize => ?_⟩
      · rw [key_goes_on (hkld hi) (hsub.trans (if_pos ((portSizeOk_iff hi).2 hsize))), hk]
        rfl
      · exact key_faults (hkld hi) (hsub.trans (if_neg (mt (portSizeOk_iff hi).1 hsize)))
    · obtain ⟨key, hkey⟩ := Option.ne_none_iff_exists'.1 hk
      exact key_faults (hkld hi) ((hheld key hkey).trans (if_pos hno))
  case kst =>
    have hsub : kstFault t hd at_ = if aget? s.kiln.kout at_ = none then some 2 else if x.key = none then none else some 3 := by
      rw [kstFault_fresh (hok hf), hx, h.kiln]
    refine ⟨fun key hk he => ?_, fun he => key_faults (hkst ho) (hsub.trans (if_pos he)),
      fun he hk => key_faults (hkst ho) ((hsub.trans (if_neg he)).trans (if_neg hk))⟩
    have hsome : aget? s.kiln.kout at_ ≠ none := fun e => Option.some_ne_none key (hk.symm.trans e)
    rw [key_goes_on (hkst ho) ((hsub.trans (if_neg hsome)).trans (if_pos he)), h.kiln, hk, Option.getD_some, keyStored,
      (keyOut_port ho).2]
  case kzap =>
    have hsub := kzapFault_fresh (hok hf)
    exact ⟨fun hn => key_goes_on hkzap (hsub.trans (if_neg (Nat.not_lt.2 hn))), fun hn => key_faults hkzap (hsub.trans (if_pos hn))⟩
  case stale =>
    exact ⟨fun hi => key_faults (hkld hi) (kldFault_stale (hstale hf)) hp,
      fun ho => key_faults (hkst ho) (kstFault_stale (hstale hf)) hp, key_faults hkzap (kzapFault_stale (hstale hf)) hp⟩

end Sys2Proof.Machine
end

section
/-! FetchFrame: what a fetch leaves, assembled from the laws of the fetch. -/
namespace Sys2Proof.Machine

/-- Settles O8: the laws of an answered fetch: what it changes (R273, R276), and that it keeps every byte that a coherent read
finds (R291) and the invariant. What holds of every core's event latch is read at the core that fetches. -/
theorem fetchFrame : Obligations.FetchFrame := by
  unfold Obligations.FetchFrame
  intro c s t i h
  have ownCore : ∃ e, t.cores.get c = { s.cores.get c with e := e } := by
    obtain ⟨e, he⟩ := h.same.cores c
    exact ⟨(s.cores.get c).e ||| e, he⟩
  exact ⟨h.same, ownCore, h.bytes i, h.inv i⟩

end Sys2Proof.Machine
end

section
/-! The laws of the LEDGER engine's operations (R397 to R399, R442), and the statement LedgerCommandResults assembled from
them. -/
namespace Sys2Proof.Machine

/-- The runtime serves, and the image at the head of LEDGER's CMD port has this OP; t is the state with its word taken. -/
def LedgerServes (op : Nat) (img : Bytes) (s t : State) : Prop :=
  s.kilnUp = true ∧ cmdImage 5 s = some img ∧ imgOp img = op ∧ t = cDrop (cmdKey 5) s

/-- Nothing holds the port against a record's write, and no other operation writes (R372, R383). -/
def RecordFree (v : State) : Prop :=
  portFree v = true ∧ v.sys.recordWanted = false ∧ v.creds.jobs = [] ∧ v.creds.jobRuns = false

/-- The same for a write of units, which a scan does not keep waiting (R383). -/
def UnitsFree (v : State) : Prop :=
  v.led.writing = none ∧ (v.sys.recordWanted = false ∨ v.led.scanFrom ≠ none) ∧ v.creds.jobs = [] ∧ v.creds.jobRuns = false

/-- The job of an operation that writes, whose success is answered with this SEQ. -/
def ledgerJob (ws : List JobWrite) (seq : Nat) : Job := ⟨ws, [.done 5 (ledgerStat seq 0 0)], [.done 5 (ledgerStat 0 5 5)]⟩

/-- The first write w of that job has begun. -/
def jobBegun (ws : List JobWrite) (seq : Nat) (w : JobWrite) (v : State) : State :=
  onCreds (fun c => { c with jobRuns := true }) (beginJob w (onCreds (fun c => { c with jobs := [ledgerJob ws seq] }) v))

variable {op : Nat} {img : Bytes} {s t u v : State}

/-! ### How an operation ends -/

section
variable {body : Bytes → State → KRes KEnd} (h : LedgerServes op img s t) (ho : 1 ≤ op ∧ op ≤ 6)
include h ho

theorem ledgerOp_done {st re val : Nat} (hb : body img t = .ok (.done st re val) u) :
    (.next (ledgerOp op body s) : Out) = .next (ledgerDone val re st u) := by
  rw [ledgerOp_serves h ho, hb]

theorem ledgerOp_fail {st re : Nat} (hb : body img t = .fail st re u) :
    (.next (ledgerOp op body s) : Out) = .next (ledgerDone 0 re st u) := by
  rw [ledgerOp_serves h ho, hb]

theorem ledgerOp_begins {w : JobWrite} {ws : List JobWrite} {seq : Nat} (hb : body img t = .ok (.job (ledgerJob (w :: ws) seq)) u)
    (hj : u.creds.jobs = []) (hr : u.creds.jobRuns = false) (hy : jobReady w u = true) (hn : jobWorn w u = false) :
    (.next (ledgerOp op body s) : Out) = .next (jobBegun (w :: ws) seq w u) := by
  rw [ledgerOp_serves h ho, hb]
  exact congrArg _ (kick4_begins hj hr rfl hy hn)

end

/-! ### The port that an operation finds (R372, R383) -/

theorem portFree_iff (s : State) :
    portFree s = true ↔ s.led.writing = none ∧ s.led.scanFrom = none ∧ s.led.rescanWanted = false := by
  simp [portFree, and_assoc]

theorem ledgerIdle_ok (h : t.led.scanFrom = none) : ledgerIdle t = .ok () t := kcheck_true (by rw [h]; rfl) _ _ _

theorem ledgerIdle_scan (h : t.led.scanFrom ≠ none) : ledgerIdle t = .fail 0xA 0 t :=
  kcheck_false (by rw [Option.isNone_eq_false_iff, Option.isSome_iff_ne_none]; exact h) _ _ _

theorem RecordFree.idle (h : RecordFree t) : t.led.scanFrom = none := ((portFree_iff t).1 h.1).2.1

theorem RecordFree.port (h : RecordFree t) : ledgerFree t = true := by
  obtain ⟨hp, hm, -, -⟩ := h
  obtain ⟨hw, -, hr⟩ := (portFree_iff t).1 hp
  simp [ledgerFree, hw, hr, hm]

theorem RecordFree.ready (h : RecordFree t) (n : Nat) (body : Bytes) : jobReady (.record n body) t = true := by
  obtain ⟨hp, hm, -, -⟩ := h
  simp [jobReady, hp, hm]

theorem UnitsFree.unitFree (h : UnitsFree t) : unitFree t = true := by
  obtain ⟨hw, hm, -, -⟩ := h
  simpa [Machine.unitFree, hw, Option.isSome_iff_ne_none] using hm

theorem ledgerCommit_writes {n : Nat} (h : RecordFree t) (hn : wornOut t n = false) (body : Bytes) :
    ledgerCommit n body t = .ok (.job (ledgerJob [.record n body] (currentSeq t n + 1))) t := by
  unfold ledgerCommit
  rw [if_neg (by simp [h.port]), if_neg (by simp [hn])]
  rfl

theorem unitJob_writes (h : UnitsFree t) (ws : List JobWrite) : unitJob ws t = .ok (.job (ledgerJob ws 0)) t :=
  if_neg (by simp [h.unitFree])

/-- A command whose job writes one record. -/
theorem ledgerOp_writes_record {body : Bytes → State → KRes KEnd} {n : Nat} {b : Bytes} (h : LedgerServes op img s t)
    (ho : 1 ≤ op ∧ op ≤ 6) (hf : RecordFree u) (hn : wornOut u n = false) (hb : body img t = ledgerCommit n b u) :
    (.next (ledgerOp op body s) : Out) = .next (jobBegun [.record n b] (currentSeq u n + 1) (.record n b) u) :=
  ledgerOp_begins h ho (hb.trans (ledgerCommit_writes hf hn b)) hf.2.2.1 hf.2.2.2 (hf.ready n b) hn

/-- A command whose job writes units, the first of them at once. -/
theorem ledgerOp_writes_units {body : Bytes → State → KRes KEnd} {n : Nat} {b : Bytes} {ws : List JobWrite}
    (h : LedgerServes op img s t) (ho : 1 ≤ op ∧ op ≤ 6) (hf : UnitsFree u) (hb : body img t = unitJob (.unit n b :: ws) u) :
    (.next (ledgerOp op body s) : Out) = .next (jobBegun (.unit n b :: ws) 0 (.unit n b) u) :=
  ledgerOp_begins h ho (hb.trans (unitJob_writes hf _)) hf.2.2.1 hf.2.2.2 hf.unitFree rfl

/-! ### READ (R398, R386) -/

section
variable (hn : ledgerIdx img ≤ 239)
include hn

theorem ledgerRead_scan (hs : t.led.scanFrom ≠ none) : ledgerRead img t = .fail 0xA 0 t := by
  unfold ledgerRead
  dsimp only
  rw [kcheck_true (decide_eq_true hn), andThen_ok, ledgerIdle_scan hs, andThen_fail]

theorem ledgerRead_hidden (hs : t.led.scanFrom = none)
    (hh : (currentBytes t (ledgerIdx img)).any (fun c => leAt c 3 1 % 2 = 1) = true) : ledgerRead img t = .fail 5 2 t := by
  unfold ledgerRead
  dsimp only
  rw [kcheck_true (decide_eq_true hn), andThen_ok, ledgerIdle_ok hs, andThen_ok, kcheck_false (by rw [hh]; rfl), andThen_fail]

theorem ledgerRead_copy {z : Bytes} (hs : t.led.scanFrom = none)
    (hh : (currentBytes t (ledgerIdx img)).any (fun c => leAt c 3 1 % 2 = 1) = false) (hb : ledgerBuf img 256 true = true)
    (hf : ledgerFormat img = true) (hw : devWrite 5 (imgBuf img 0).ctx (imgBuf img 0).addr
      ((currentBytes t (ledgerIdx img)).getD erasedCopy) t = (.ok z, u)) : ledgerRead img t = .ok (.done 0 0 0) u := by
  unfold ledgerRead
  dsimp only
  rw [kcheck_true (decide_eq_true hn), andThen_ok, ledgerIdle_ok hs, andThen_ok, kcheck_true (by rw [hh]; rfl), andThen_ok,
    kcheck_true hb, andThen_ok, kcheck_true hf, andThen_ok, hw]
  rfl

end

/-! ### WRITE, WRITE_IF and ERASE (R397, R398; the order of the checks: log entry 66) -/

section
variable (cond : Bool)

theorem ledgerWrite_owner (hn : ledgerIdx img ≤ 63) : ledgerWrite cond img t = .fail 5 2 t := by
  unfold ledgerWrite
  dsimp only
  rw [kcheck_true (decide_eq_true (by omega)), andThen_ok, kcheck_false (decide_eq_false (by omega)), andThen_fail]

theorem ledgerErase_owner (hn : ledgerIdx img ≤ 63) : ledgerErase img t = .fail 5 2 t := by
  unfold ledgerErase
  dsimp only
  rw [kcheck_true (decide_eq_true (by omega)), andThen_ok, kcheck_false (decide_eq_false (by omega)), andThen_fail]

variable (h64 : 64 ≤ ledgerIdx img) (hn : ledgerIdx img ≤ 239) (hfree : RecordFree t)
include h64 hn hfree

theorem ledgerWrite_stale (hs : currentSeq t (ledgerIdx img) ≠ ledgerArg img) : ledgerWrite true img t = .fail 5 3 t := by
  unfold ledgerWrite
  dsimp only
  rw [kcheck_true (decide_eq_true hn), andThen_ok, kcheck_true (decide_eq_true h64), andThen_ok, ledgerIdle_ok hfree.idle,
    andThen_ok, if_neg (by simp [hfree.port]), kcheck_false (by simp [hs]), andThen_fail]

theorem ledgerWrite_commits {bs : Bytes} (hs : cond = false ∨ currentSeq t (ledgerIdx img) = ledgerArg img)
    (hb : ledgerBuf img 248 false = true) (hf : ledgerFormat img = true)
    (hr : devRead 5 (imgBuf img 0).ctx (imgBuf img 0).addr 248 t = (.ok bs, u)) (hok : writeBytesOk bs = true) :
    ledgerWrite cond img t =
      ledgerCommit (ledgerIdx img) (bs.take (8 + leAt bs 2 1) ++ List.replicate (240 - leAt bs 2 1) 0) u := by
  unfold ledgerWrite
  dsimp only
  rw [kcheck_true (decide_eq_true hn), andThen_ok, kcheck_true (decide_eq_true h64), andThen_ok, ledgerIdle_ok hfree.idle,
    andThen_ok, if_neg (by simp [hfree.port]), kcheck_true (by simpa using hs), andThen_ok, kcheck_true hb, andThen_ok,
    kcheck_true hf, andThen_ok, hr, ledgerAns, andThen_ok, kcheck_true hok, andThen_ok]

theorem ledgerErase_commits (hf : ledgerFormat img = true) :
    ledgerErase img t = ledgerCommit (ledgerIdx img) (copyBody 0 0 []) t := by
  unfold ledgerErase
  dsimp only
  rw [kcheck_true (decide_eq_true hn), andThen_ok, kcheck_true (decide_eq_true h64), andThen_ok, ledgerIdle_ok hfree.idle,
    andThen_ok, kcheck_true hf, andThen_ok]

end

/-! ### QUICK_WRITE and RAISE (R380, R399) -/

theorem ledgerQuick_writes {bs : Bytes} (h16 : 16 ≤ ledgerIdx img) (hn : ledgerIdx img ≤ 255) (hb : ledgerBuf img 16 false = true)
    (hf : ledgerFormat img = true) (hr : devRead 5 (imgBuf img 0).ctx (imgBuf img 0).addr 16 t = (.ok bs, u)) :
    ledgerQuick img t = unitJob [.unit (ledgerIdx img) bs] u := by
  unfold ledgerQuick
  dsimp only
  rw [kcheck_true (decide_eq_true hn), andThen_ok, kcheck_true (decide_eq_true h16), andThen_ok, kcheck_true hb, andThen_ok,
    kcheck_true hf, andThen_ok, hr, ledgerAns, andThen_ok]

theorem ledgerRaise_low (hf : ledgerFormat img = true) (hv : ledgerArg img ≤ rollbackMin t) :
    ledgerRaise img t = .ok (.done 0 0 0) t := by
  unfold ledgerRaise
  dsimp only
  rw [kcheck_true hf, andThen_ok, if_pos hv]

theorem ledgerRaise_writes (hf : ledgerFormat img = true) (hv : rollbackMin t < ledgerArg img) :
    ledgerRaise img t = unitJob [.unit 1 (leBytes 16 (ledgerArg img)), .unit 2 (leBytes 16 (ledgerArg img))] t := by
  unfold ledgerRaise
  dsimp only
  rw [kcheck_true hf, andThen_ok, if_neg (Nat.not_le.2 hv)]

/-! ### The obligation -/

/-- Settles O41: the operation's checks pass, or one of them ends it, in the order of log entry 66; what it then writes begins
as its job's first write. -/
theorem ledgerCommandResults : Obligations.LedgerCommandResults := by
  unfold Obligations.LedgerCommandResults
  intro s t u img bs z n b serves free unitsFree begins record
  refine ⟨fun hs hn hi hh hb hf hw => ledgerOp_done hs (by decide) (ledgerRead_copy hn hi hh hb hf hw),
    fun hs hn hi => ledgerOp_fail hs (by decide) (ledgerRead_scan hn hi),
    fun hs hn hi hh => ledgerOp_fail hs (by decide) (ledgerRead_hidden hn hi hh),
    fun hn => ⟨fun hs => ?write, fun hs => ?write_if, fun hs => ?erase⟩,
    fun h64 hn hfree => ⟨fun hs hq => ?stale, fun hs hf hw => ?erases, fun hb hf hr hok hfree' hw => ?writes⟩,
    fun hs h16 hn hb hf hr hfree => ?quick, fun hs hf => ⟨fun hv => ?low, fun hv hfree => ?raises⟩⟩
  case write => exact ledgerOp_fail hs (by decide) (ledgerWrite_owner false hn)
  case write_if => exact ledgerOp_fail hs (by decide) (ledgerWrite_owner true hn)
  case erase => exact ledgerOp_fail hs (by decide) (ledgerErase_owner hn)
  case stale => exact ledgerOp_fail hs (by decide) (ledgerWrite_stale h64 hn hfree hq)
  case erases => exact ledgerOp_writes_record hs (by decide) hfree hw (ledgerErase_commits h64 hn hfree hf)
  case writes =>
    have commits := fun cond hseq => ledgerWrite_commits cond h64 hn hfree hseq hb hf hr hok
    exact ⟨fun hs => ledgerOp_writes_record hs (by decide) hfree' hw (commits false (.inl rfl)),
      fun hs hseq => ledgerOp_writes_record hs (by decide) hfree' hw (commits true (.inr hseq))⟩
  case quick => exact ledgerOp_writes_units hs (by decide) hfree (ledgerQuick_writes h16 hn hb hf hr)
  case low => exact ledgerOp_done hs (by decide) (ledgerRaise_low hf hv)
  case raises => exact ledgerOp_writes_units hs (by decide) hfree (ledgerRaise_writes hf hv)

end Sys2Proof.Machine
end

section
/-! The laws of the ledger's port: scans, READ, the words of a write and its end (R368 to R378, R400 to R402, R406, R414,
R417), and the statement LedgerPortResults assembled from them. -/
namespace Sys2Proof.Machine

variable {s t : State} {w : Word}

/-! ### Rescans (R406, R417; log entry 107) -/

section
variable (hs : s.led.scanFrom = none) (hr : s.led.rescanWanted = false)
include hs hr

theorem rescan_begins (hm : s.sys.mode = .factory ∨ s.sys.mode = .service) (hw : s.led.writing = none) : rescan s = beginScan s := by
  unfold rescan
  rw [if_neg (by simpa [hs, hr, or_iff_not_imp_left] using hm), if_neg (by simp [hw])]

theorem rescan_waits (hm : s.sys.mode = .factory ∨ s.sys.mode = .service) (hw : s.led.writing ≠ none) :
    rescan s = { s with led := { s.led with rescanWanted := true } } := by
  unfold rescan
  rw [if_neg (by simpa [hs, hr, or_iff_not_imp_left] using hm), if_pos (Option.isSome_iff_ne_none.2 hw)]

end

theorem rescan_elsewhere (h1 : s.sys.mode ≠ .factory) (h2 : s.sys.mode ≠ .service) : rescan s = s := by
  unfold rescan
  rw [if_pos (by simp [h1, h2])]

/-- The register with its key asks for a rescan. -/
theorem exec_rescan_register (hl : s.live = true) {c : Fin 6} (hc : c ≠ 4) :
    exec (.rescan (.register (.core c) 0x4C47)) s = .next (rescan s) :=
  next_when hl (when_true (by rw [permits_appKiln hc]; rfl) rescan s)

/-- So does a RESCAN word. -/
theorem exec_rescan_port (hl : s.live = true) (hw : ledgerCtrl s 4 = some w) :
    exec (.rescan .port) s = .next (rescan (cDrop 0x54 s)) :=
  next_when hl (if_pos (by rw [hw]; rfl))

/-! ### READ (R400, R402) -/

/-- A READ word is taken, and what it names decides the answer. -/
theorem exec_readCopy_word (hl : s.live = true) (hw : ledgerCtrl s 1 = some w) : exec .readCopy s = .next (
    if s.led.scanFrom.isSome then sendLedgerStat 0 0 0xA (cDrop 0x54 s)
    else if bits w 15 8 > 239 then sendLedgerStat 0 1 5 (cDrop 0x54 s)
    else sendLedgerStat 0 0 0 (devSend 0x53 (withEom (wordsOf (slotBytes (cDrop 0x54 s) (bits w 15 8) true))) (cDrop 0x54 s))) :=
  next_when hl (by rw [hw]; rfl)

/-! ### The words of a write (R371, R400 to R402) -/

/-- A write's word on CTRL is taken and collects; a WRITE that comes in a scan collects to end LEDGER_BUSY. -/
theorem takeWriteWord_collects {op : Nat} (hc : s.led.collecting = none) (hw : s.led.waiting = none) (hq : (s.chan 0x52).q = [])
    (hh : ledgerCtrl s op = some w) : takeWriteWord op s = { cDrop 0x54 s with led := { s.led with
      collecting := some (if op = 2 && s.led.scanFrom.isSome then 0xA else op, bits w 15 8, []) } } := by
  unfold takeWriteWord
  rw [if_neg (by simp [hc, hw]), hh]
  exact drainLedgerDin_empty ((congrArg Chan.q (cDrop_chan_ne (by decide) s)).trans hq)

/-- A write that collects takes the DIN word at the head: the message is complete with EOM. -/
theorem takeWriteWord_din {op op' m : Nat} {ws : List Word} {x : ChWord} {q : List ChWord} (hc : s.led.collecting = some (op, m, ws))
    (hq : (s.chan 0x52).q = x :: q) : takeWriteWord op' s =
      if x.eom then takeChannelWrite op m (ws ++ [x.w]) { cDrop 0x52 s with led := { s.led with collecting := none } }
      else drainLedgerDin 3 { cDrop 0x52 s with led := { s.led with collecting := some (op, m, ws ++ [x.w]) } } := by
  unfold takeWriteWord
  rw [if_pos (by simp [hc])]
  unfold drainLedgerDin
  rw [hc, hq]
  rfl

section
variable {m : Nat} {ws : List Word}

theorem takeChannelWrite_scan : takeChannelWrite 0xA m ws t = sendLedgerStat 0 0 0xA (ackLedgerSnd t) := by
  unfold takeChannelWrite
  dsimp only
  rw [if_pos (by rfl)]

/-- A complete WRITE of a record, which the port is free to take. -/
theorem takeChannelWrite_copy (hm : m ≤ 239) (hl : ws.length = 62) (hf : portFree t = true) : takeChannelWrite 2 m ws t =
    if wornOut t m then sendLedgerStat 0 6 5 (ackLedgerSnd (t.setRbit rLEDGER_STAT 4 true))
    else beginCopy m (bytesOf ws) .channel t := by
  obtain ⟨hw, hs, hr⟩ := (portFree_iff t).1 hf
  unfold takeChannelWrite
  dsimp only
  rw [if_neg (by simp [hs]), if_pos rfl, if_neg (Nat.not_lt.2 hm), if_neg (by simp [hl])]
  exact if_congr Iff.rfl rfl (if_neg (by simp [hw, hr]))

theorem takeChannelWrite_unit (hl : ws.length = 4) (hw : t.led.writing = none) :
    takeChannelWrite 3 m ws t = beginUnit m (bytesOf ws) .channel t := by
  unfold takeChannelWrite
  dsimp only
  rw [if_neg (by simp), if_neg (by decide), if_neg (by simp [hl]), if_neg (by simp [hw])]

end

/-! ### The end of a write (R374, R378, R401, R414) -/

section
variable {x : LedgerWrite} (ok : Bool)

/-- COMMIT_WORD_VERIFIED ends a record's write, UNIT_WRITE_DONE a unit's. -/
theorem exec_commitWordVerified_copy (hx : s.led.writing = some x) (ht : ∃ r k, x.target = .copy r k) (hm : s.sys.mode ≠ .off) :
    exec (.commitWordVerified ok) s = .next (writeEnded x ok s) := by
  obtain ⟨r, k, ht⟩ := ht
  refine congrArg Host.Outcome.next ?_
  unfold endRunning
  rw [hx]
  exact when_true (by simp [hm, ht]) _ _

theorem exec_unitWriteDone_unit (hx : s.led.writing = some x) (ht : ∃ i, x.target = .unit i) (hm : s.sys.mode ≠ .off) :
    exec (.unitWriteDone ok) s = .next (writeEnded x ok s) := by
  obtain ⟨i, ht⟩ := ht
  refine congrArg Host.Outcome.next ?_
  unfold endRunning
  rw [hx]
  exact when_true (by simp [hm, ht]) _ _

variable (hx : s.led.writing = some x) (hr : s.led.rescanWanted = false)
include hx hr

/-- Beside the ledger, its registers and the free values, the end of a write changes nothing that decides who is told of it. -/
theorem endWrite_frame : (endWrite ok s).sys = s.sys ∧ (endWrite ok s).assay = s.assay ∧ (endWrite ok s).creds = s.creds ∧
    (endWrite ok s).led.waiting = s.led.waiting ∧ (endWrite ok s).live = s.live := by
  obtain ⟨led, rfl, -, -, hsys, hassay, hpwr, hcreds, hwait, -⟩ := endWrite_led ok hx hr
  refine ⟨hsys, hassay, hcreds, hwait, ?_⟩
  unfold State.live
  rw [hsys, hassay, hpwr]

theorem writeEnded_quenched (hm : s.sys.mode = .quenched) :
    writeEnded x ok s = { endWrite ok s with led := { (endWrite ok s).led with ackDue := some (x, ok) } } := by
  obtain ⟨hsys, -⟩ := endWrite_frame ok hx hr
  unfold writeEnded
  dsimp only
  rw [if_pos (by rw [hsys, hm]; rfl)]

theorem writeEnded_live (hl : s.live = true) : writeEnded x ok s = writeAnswered x ok (endWrite ok s) := by
  obtain ⟨hsys, hassay, -, -, hlive⟩ := endWrite_frame ok hx hr
  obtain ⟨-, -, hm, hf, -⟩ := live_parts hl
  unfold writeEnded
  dsimp only
  rw [if_neg (by rw [hsys, hassay, hf]; simpa using hm), if_pos (hlive.trans hl)]

theorem copyOf_endWrite {r k : Nat} (ht : x.target = .copy r k) (r' k' : Nat) : copyOf (endWrite ok s) r' k' =
    if 2 * r' + k' = 2 * r + k then (if ok then x.bytes else (s.freshBytes 0xF8).1 ++ List.replicate 8 0) else copyOf s r' k' := by
  obtain ⟨led, rfl, -, -, -, -, -, -, -, hcopy, -⟩ := endWrite_led ok hx hr
  unfold copyOf
  rw [(hcopy r k ht).1]
  exact agetD_asetD _ _ _ _ _ _ (fun _ => rfl)

theorem endWrite_copy_units {r k : Nat} (ht : x.target = .copy r k) : (endWrite ok s).led.units = s.led.units := by
  obtain ⟨led, rfl, -, -, -, -, -, -, -, hcopy, -⟩ := endWrite_led ok hx hr
  exact (hcopy r k ht).2

/-- A unit's write that is verified leaves its bytes, one that failed leaves the unit torn. -/
theorem endWrite_unit {i : Nat} (ht : x.target = .unit i) :
    (ok = true → unitBytes (endWrite ok s) i = x.bytes ∧ i ∉ (endWrite ok s).led.tornUnits) ∧
    (ok = false → i ∈ (endWrite ok s).led.tornUnits) ∧ (endWrite ok s).led.copies = s.led.copies := by
  obtain ⟨led, rfl, -, -, -, -, -, -, -, -, hunit⟩ := endWrite_led ok hx hr
  obtain ⟨hcopies, hdone, htorn⟩ := hunit i ht
  refine ⟨fun hok => ?_, fun hok => ?_, hcopies⟩
  · obtain ⟨hunits, hclear⟩ := hdone hok
    exact ⟨by rw [unitBytes, hunits, agetD_asetD_self], by simp [hclear]⟩
  · rw [htorn hok]
    exact List.mem_cons_self

/-- The port writes no more, and WRITING reads 0. -/
theorem endWrite_idle : (endWrite ok s).led.writing = none ∧ (endWrite ok s).rbit rLEDGER_STAT 2 = false := by
  obtain ⟨led, rfl, hwriting, hbit, -⟩ := endWrite_led ok hx hr
  exact ⟨hwriting, hbit⟩

end

/-- A requester that has been told, with no other at the arbiter: nothing more begins. -/
theorem arbiter_idle (hm : t.sys.recordWanted = false) (hw : t.led.waiting = none) (hj : t.creds.jobs = []) :
    kick4 (if t.sys.recordWanted then t else startWaitingWrite t) = t := by
  rw [if_neg (by simp [hm]), startWaitingWrite_none hw, kick4_idle hj]

theorem ackLedgerSnd_rest (s : State) : ackLedgerSnd s = { s with cores := (ackLedgerSnd s).cores } := by
  unfold ackLedgerSnd when
  dsimp only
  split <;> rfl

/-- The STAT word and the acknowledge of a unit's write. -/
theorem writeAnswered_unit {x : LedgerWrite} {i : Nat} (ok : Bool) (ha : x.asked = .channel) (ht : x.target = .unit i)
    (hm : t.sys.recordWanted = false) (hw : t.led.waiting = none) (hj : t.creds.jobs = []) :
    writeAnswered x ok t = sendLedgerStat 0 (if ok then 0 else 5) (if ok then 0 else 5) (ackLedgerSnd t) := by
  have told : endChannelWrite x ok t = sendLedgerStat 0 (if ok then 0 else 5) (if ok then 0 else 5) (ackLedgerSnd t) := by
    unfold endChannelWrite
    rw [ht]
    cases ok <;> rfl
  unfold writeAnswered
  rw [ha]
  dsimp only
  rw [told]
  refine arbiter_idle ?_ ?_ ?_ <;> rw [sendLedgerStat, ackLedgerSnd_rest] <;> assumption

theorem writeAnswered_modeRecord {x : LedgerWrite} (ha : x.asked = .modeRecord) (hm : t.sys.recordWanted = false)
    (hw : t.led.waiting = none) (hj : t.creds.jobs = []) : writeAnswered x true t = t := by
  unfold writeAnswered
  rw [ha]
  exact arbiter_idle hm hw hj

/-! ### The obligation -/

/-- Settles O42: the words that the port takes and the writes that it begins, and what the end of one leaves. That a rescan
gets no STAT word is log entry 107's choice, that nothing constrains a torn copy's bytes log entry 4's. -/
theorem ledgerPortResults : Obligations.LedgerPortResults := by
  unfold Obligations.LedgerPortResults
  intro s w t n
  refine ⟨fun hl hs hr c hc => ⟨fun hm hw => ⟨fun hh => ?port, ?register⟩, fun hm hw => ?waits, fun h1 h2 => ?elsewhere⟩,
    fun hl hh => ⟨fun hs => ?busy, fun hs hn => ?index, fun hs hn => ?copy⟩,
    fun hl hc hw hq => ⟨fun hh => ?write, fun hh => ?unit⟩, fun op m ws x q hl hc hq hb => ⟨fun he hq' => ?word, fun he => ?complete⟩,
    fun x ok hx hr => ?ended⟩
  case port => exact (exec_rescan_port hl hh).trans (congrArg _ (rescan_begins (s := cDrop 0x54 s) hs hr hm hw))
  case register => rw [exec_rescan_register hl hc, rescan_begins hs hr hm hw]
  case waits => rw [exec_rescan_register hl hc, rescan_waits hs hr hm hw]
  case elsewhere => rw [exec_rescan_register hl hc, rescan_elsewhere h1 h2]
  case busy =>
    rw [exec_readCopy_word hl hh, if_pos (Option.isSome_iff_ne_none.2 hs)]
    rfl
  case index =>
    rw [exec_readCopy_word hl hh, if_neg (by simp [hs]), if_pos hn]
    rfl
  case copy =>
    rw [exec_readCopy_word hl hh, if_neg (by simp [hs]), if_neg (Nat.not_lt.2 hn)]
    rfl
  case write =>
    refine next_when hl ((takeWriteWord_collects hc hw hq hh).trans ?_)
    by_cases hs : s.led.scanFrom = none
    · rw [if_neg (by simp [hs]), if_pos hs]
      rfl
    · rw [if_pos (by simpa [Option.isSome_iff_ne_none] using hs), if_neg hs]
      rfl
  case unit => exact next_when hl (takeWriteWord_collects hc hw hq hh)
  case word =>
    refine next_when hl ((takeWriteWord_din hc hq).trans ((if_neg (by simp [he])).trans (drainLedgerDin_empty ?_)))
    exact (cDrop_chan_q hq hb).trans hq'
  case complete =>
    have taken := fun op' => (takeWriteWord_din (op' := op') hc hq).trans (if_pos he)
    refine ⟨fun ho hm hlen hf => ?_, fun ho => ?_, fun ho hlen hw => ?_⟩
    · subst ho
      have result := takeChannelWrite_copy (ws := ws ++ [x.w]) (t := { cDrop 0x52 s with led := { s.led with collecting := none } })
        hm (by simp [hlen]) hf
      exact ⟨fun hn => next_when hl ((taken 2).trans (result.trans (if_neg (ne_true_of_eq_false hn)))),
        fun hn => next_when hl ((taken 2).trans (result.trans (if_pos hn)))⟩
    · subst ho
      exact next_when hl ((taken 2).trans takeChannelWrite_scan)
    · subst ho
      exact next_when hl ((taken 3).trans (takeChannelWrite_unit (by simp [hlen]) hw))
  case ended =>
    obtain ⟨hsys, -, hcreds, hwait, -⟩ := endWrite_frame ok hx hr
    obtain ⟨hwriting, hbit⟩ := endWrite_idle ok hx hr
    refine ⟨fun hm => ⟨fun ht => ?_, fun ht => ?_⟩, fun hl hok ha ht hw hm hj => ?_, fun hl ha ht hw hm hj => ?_, hwriting, hbit,
      fun r k ht => ⟨?_, fun r' k' hne => ?_, endWrite_copy_units ok hx hr ht⟩, fun i ht => endWrite_unit ok hx hr ht⟩
    · rw [exec_commitWordVerified_copy ok hx ht (by simp [hm]), writeEnded_quenched ok hx hr hm]
    · rw [exec_unitWriteDone_unit ok hx ht (by simp [hm]), writeEnded_quenched ok hx hr hm]
    · subst hok
      rw [exec_commitWordVerified_copy true hx ht (live_parts hl).1, writeEnded_live true hx hr hl, writeAnswered_modeRecord ha
        (by rw [hsys, hm]) (hwait.trans hw) (by rw [hcreds, hj])]
    · obtain ⟨i, hi⟩ := ht
      rw [exec_unitWriteDone_unit ok hx ⟨i, hi⟩ (live_parts hl).1, writeEnded_live ok hx hr hl, writeAnswered_unit ok ha hi
        (by rw [hsys, hm]) (hwait.trans hw) (by rw [hcreds, hj])]
    · rw [copyOf_endWrite ok hx hr ht, if_pos rfl]
    · rw [copyOf_endWrite ok hx hr ht, if_neg hne]

end Sys2Proof.Machine
end

section
/-! The laws of the Kiln's operations for the satellites: authentication, mating and key rolls (R1002, R1004, R1015), and the
statement SatelliteKeyResults assembled from them. -/
namespace Sys2Proof.Machine

/-- The state once a position's nonce has been used up (R1002). -/
def satUsed (p : Nat) (s : State) : State := { s with creds := { s.creds with satAuth := adel s.creds.satAuth p } }

/-- The first key offered to the position under which the MAC in bs answers the nonce, marked where it is PENDING (R1002). -/
def satHit (p n : Nat) (nonce bs : Bytes) (s : State) : Option (Bool × Bytes) :=
  (satOffered s p).find? (fun k => mac8 k.2 (satMsg s 0x61 p n ++ nonce) = slice bs 2 8)

variable {img : Bytes} {p : Nat} {t u : State}

theorem satAsked_used {x : Bytes × Nat} (h : aget? u.creds.satAuth p = some x) : satAsked p u = .ok x (satUsed p u) :=
  satAsked_some h

theorem satAsked_none (h : aget? u.creds.satAuth p = none) : satAsked p u = .fail 5 0x17 u := by
  unfold satAsked
  rw [h]

theorem satReady_stale (h : ¬ (payload t 4 ≠ none ∧ payload t 5 ≠ none)) : satReady t = .fail 5 0x17 t :=
  kcheck_false (by simpa [Option.isSome_iff_ne_none, Bool.and_eq_false_iff, or_iff_not_imp_left] using h) _ _ _

/-! Each operation below is one whose position is in order. -/

section
variable (hp : satPos img t = .ok p t)
include hp

/-! ### SAT_AUTH_REQ and SAT_AUTH_CHECK -/

section
variable (hw : Writable img 1 20)
include hw

theorem opSatAuthReq_stale (hc : ¬ (payload t 4 ≠ none ∧ payload t 5 ≠ none)) : opSatAuthReq img t = .fail 5 0x17 t := by
  rw [opSatAuthReq, hp, andThen_ok, needWrite_ok hw, andThen_ok, satReady_stale hc, andThen_fail]

theorem opSatAuthReq_writes {bs : Bytes} (hc : payload t 4 ≠ none ∧ payload t 5 ≠ none) (hd : kdraw 16 t = .ok bs u) :
    opSatAuthReq img t = .ok (jobOf 2 (satWrites u (satRaise (rec4 u) u.creds.scnt))
      [.satAuth p bs u.creds.scnt, satBuf img (bs ++ leBytes 4 u.creds.scnt)]) u := by
  rw [opSatAuthReq, hp, andThen_ok, needWrite_ok hw, andThen_ok, satReady_ok hc, andThen_ok, hd, andThen_ok]

end

section
variable {bs nonce : Bytes} {n : Nat} (hb : Readable img 0 10) (hc : payload t 4 ≠ none ∧ payload t 5 ≠ none)
  (hr : kread 2 img 0 0 10 t = .ok bs u)
include hb hc hr

theorem opSatAuthCheck_unasked (ha : aget? u.creds.satAuth p = none) : opSatAuthCheck img t = .fail 5 0x17 u := by
  rw [opSatAuthCheck, hp, andThen_ok, needRead_ok hb, andThen_ok, satReady_ok hc, andThen_ok, hr, andThen_ok, satAsked_none ha,
    andThen_fail]

variable (ha : aget? u.creds.satAuth p = some (nonce, n))
include ha

/-- A MAC under a key that the position is offered binds it; under PENDING it moves the roll on (R926). -/
theorem opSatAuthCheck_hit {pend : Bool} {key : Bytes} (h0 : leAt bs 0 1 = 0) (h1 : leAt bs 1 1 = p)
    (hk : satHit p n nonce bs (satUsed p u) = some (pend, key)) :
    opSatAuthCheck img t = .ok (jobOf 2 (satWrites (satUsed p u) (if pend && satState (rec4 (satUsed p u)) p = 2
      then satPromote (withSat (rec4 (satUsed p u)) p 3) else rec4 (satUsed p u))) [.bind p, .done 2 (doneW 0 0 0)]) (satUsed p u) := by
  rw [opSatAuthCheck, hp, andThen_ok, needRead_ok hb, andThen_ok, satReady_ok hc, andThen_ok, hr, andThen_ok, satAsked_used ha,
    andThen_ok]
  unfold satHit at hk
  dsimp only
  rw [hk, decide_eq_true h0, decide_eq_true h1]
  rfl

theorem opSatAuthCheck_pending {key : Bytes} (h0 : leAt bs 0 1 = 0) (h1 : leAt bs 1 1 = p)
    (hk : satHit p n nonce bs (satUsed p u) = some (true, key)) (hs : satState (rec4 (satUsed p u)) p = 2) :
    opSatAuthCheck img t = .ok (jobOf 2 (satWrites (satUsed p u) (satPromote (withSat (rec4 (satUsed p u)) p 3)))
      [.bind p, .done 2 (doneW 0 0 0)]) (satUsed p u) := by
  rw [opSatAuthCheck_hit hp hb hc hr ha h0 h1 hk, hs]
  rfl

/-- A MAC under none of them takes the position's trust away. -/
theorem opSatAuthCheck_miss (hk : satHit p n nonce bs (satUsed p u) = none) :
    opSatAuthCheck img t = .ok (.done 0xC 0x10 0) (writeUntrust p (satUsed p u)) := by
  rw [opSatAuthCheck, hp, andThen_ok, needRead_ok hb, andThen_ok, satReady_ok hc, andThen_ok, hr, andThen_ok, satAsked_used ha,
    andThen_ok]
  unfold satHit at hk
  dsimp only
  rw [hk]
  cases decide (leAt bs 0 1 = 0) && decide (leAt bs 1 1 = p) <;> rfl

end

/-! ### SAT_MATE_OFFER, SAT_MATE_KEY and SAT_MATE_CONFIRM -/

theorem opSatMateOffer_keeps {d : Nat} {z : Bytes} {v : State} (hw : Writable img 1 64) (hd : kscalar 8 t = .ok d u)
    (ho : kwrite 2 img 1 (pubOf d) u = .ok z v) :
    opSatMateOffer img t = .ok (.done 0 0 0) { v with creds := { v.creds with satMate := ains v.creds.satMate p d } } := by
  rw [opSatMateOffer, hp, andThen_ok, needWrite_ok hw, andThen_ok, hd, andThen_ok, ho, andThen_ok]

section
variable {pub : Bytes} {d : Nat} (hb : Readable img 0 64) (hw : Writable img 1 28) (h5 : payload t 5 ≠ none)
  (hr : kread 2 img 0 0 64 t = .ok pub u)
include hb hw h5 hr

theorem opSatMateKey_unoffered (hm : aget? u.creds.satMate p = none) : opSatMateKey img t = .fail 5 0x17 u := by
  rw [opSatMateKey, hp, andThen_ok, needRead_ok hb, andThen_ok, needWrite_ok hw, andThen_ok,
    kcheck_true (Option.isSome_iff_ne_none.2 h5), andThen_ok, hr, andThen_ok, hm]

theorem opSatMateKey_no_point (hm : aget? u.creds.satMate p = some d) (he : ecdh d pub = none) :
    opSatMateKey img t = .fail 5 6 u := by
  rw [opSatMateKey, hp, andThen_ok, needRead_ok hb, andThen_ok, needWrite_ok hw, andThen_ok,
    kcheck_true (Option.isSome_iff_ne_none.2 h5), andThen_ok, hr, andThen_ok, hm]
  dsimp only
  rw [he]

theorem opSatMateKey_wraps {z cur : Bytes} (hm : aget? u.creds.satMate p = some d) (he : ecdh d pub = some z)
    (hk : satCur u = some cur) : opSatMateKey img t = .ok (jobOf 2 (satWrites u (satRaise (rec4 u) u.creds.scnt))
      [.satAuth p [] u.creds.scnt,
        satBuf img (leBytes 4 u.creds.scnt ++ kwWrap (derive z [0x53, 0x4D, 0x41, 0x54] devIdBytes 16) cur)]) u := by
  rw [opSatMateKey, hp, andThen_ok, needRead_ok hb, andThen_ok, needWrite_ok hw, andThen_ok,
    kcheck_true (Option.isSome_iff_ne_none.2 h5), andThen_ok, hr, andThen_ok, hm]
  dsimp only
  rw [he]
  dsimp only
  rw [satMateKey, hk]
  rfl

end

omit hp in
/-- The MAC of a KEYX answer under a key (R1002). -/
theorem keyxCheck_reads {bs nonce k : Bytes} {n : Nat} (hr : kread 2 img 0 0 8 t = .ok bs u)
    (ha : aget? u.creds.satAuth p = some (nonce, n)) :
    keyxCheck img p (some k) t = .ok (decide (mac8 k (satMsg u 0x62 p n) = bs)) (satUsed p u) := by
  rw [keyxCheck, hr, andThen_ok, satAsked_used ha, andThen_ok]
  rfl

section
variable {bs nonce : Bytes} {n : Nat} (hb : Readable img 0 8) (hc : payload t 4 ≠ none ∧ payload t 5 ≠ none)
include hb hc

theorem opSatMateConfirm_checks {cur : Bytes} (hm : aget? t.creds.satMate p ≠ none) (hr : kread 2 img 0 0 8 t = .ok bs u)
    (ha : aget? u.creds.satAuth p = some (nonce, n)) (hk : satCur t = some cur) :
    opSatMateConfirm img t = if mac8 cur (satMsg u 0x62 p n) = bs
      then .ok (jobOf 2 (satWrites (satUsed p u) (withSat (rec4 (satUsed p u)) p 1))
        [.bound p, .satMateEnd p, .done 2 (doneW 0 0 0)]) (satUsed p u)
      else .fail 0xC 0x10 (satUsed p u) := by
  rw [opSatMateConfirm, hp, andThen_ok, needRead_ok hb, andThen_ok, satReady_ok hc, andThen_ok,
    kcheck_true (Option.isSome_iff_ne_none.2 hm), andThen_ok, hk, keyxCheck_reads hr ha, andThen_ok]
  exact if_congr decide_eq_true_iff rfl rfl

/-! ### SAT_ROLL and SAT_ROLL_CONFIRM -/

theorem opSatRollConfirm_unrolled (hs : satState (rec4 t) p ≠ 2) : opSatRollConfirm img t = .fail 5 0x17 t := by
  rw [opSatRollConfirm, hp, andThen_ok, needRead_ok hb, andThen_ok, satReady_ok hc, andThen_ok,
    kcheck_false (decide_eq_false hs), andThen_fail]

theorem opSatRollConfirm_checks {pend : Bytes} (hs : satState (rec4 t) p = 2) (hr : kread 2 img 0 0 8 t = .ok bs u)
    (ha : aget? u.creds.satAuth p = some (nonce, n)) (hk : satPend t = some pend) :
    opSatRollConfirm img t = if mac8 pend (satMsg u 0x62 p n) = bs
      then .ok (jobOf 2 (satWrites (satUsed p u) (satPromote (withSat (rec4 (satUsed p u)) p 3))) [.done 2 (doneW 0 0 0)])
        (satUsed p u)
      else .fail 0xC 0x10 (satUsed p u) := by
  rw [opSatRollConfirm, hp, andThen_ok, needRead_ok hb, andThen_ok, satReady_ok hc, andThen_ok,
    kcheck_true (decide_eq_true hs), andThen_ok, hk, keyxCheck_reads hr ha, andThen_ok]
  exact if_congr decide_eq_true_iff rfl rfl

end

section
variable (hw : Writable img 1 28) (hc : payload t 4 ≠ none ∧ payload t 5 ≠ none)
include hw hc

/-- Without a mate key, or at a position that is not mated, there is nothing to roll. -/
theorem opSatRoll_unmated (h : satCur t = none ∨ satState (rec4 t) p = 0) : opSatRoll img t = .fail 5 0x17 t := by
  rw [opSatRoll, hp, andThen_ok, needWrite_ok hw, andThen_ok, satReady_ok hc, andThen_ok]
  rcases h with h | h
  · rw [h]
  · rw [h]
    cases satCur t <;> rfl

theorem opSatRoll_wraps {cur pend : Bytes} (hk : satCur t = some cur) (hn : satPend t = some pend)
    (hs : satState (rec4 t) p = 1 ∨ satState (rec4 t) p = 2) :
    opSatRoll img t = .ok (jobOf 2 (satWrites t (satRaise (withSat (rec4 t) p 2) t.creds.scnt))
      [.satAuth p [] t.creds.scnt, satBuf img (leBytes 4 t.creds.scnt ++ kwWrap cur pend)]) t := by
  have rolls : (satState (rec4 t) p == 1 || satState (rec4 t) p == 2) = true := by simpa using hs
  rw [opSatRoll, hp, andThen_ok, needWrite_ok hw, andThen_ok, satReady_ok hc, andThen_ok, hk, rolls]
  dsimp only
  rw [satRollKey, hn]
  rfl

end

end

/-! ### The obligation -/

/-- Settles O56: each operation's checks pass, or one of them ends it; what it writes is its job (SCNT is little-endian and
POS_STATE 0 offers no key: log entry 88). -/
theorem satelliteKeyResults : Obligations.SatelliteKeyResults := by
  unfold Obligations.SatelliteKeyResults
  intro s t u v img bs pub cur pend z d n nonce p serves current ok ends works buf asked keyx
  have position : ∀ {op}, serves op → satPos img t = .ok p t := fun h => satPos_ok h.2 t
  have fails : ∀ {op body st re} {y : State}, serves op → body img t = .fail st re y →
      (.next (credOp 2 op body s) : Out) = .next (ends st re y) := fun h hb => congrArg _ (credOp_fail h.1 hb)
  have done : ∀ {op body st re} {y : State}, serves op → body img t = .ok (.done st re 0) y →
      (.next (credOp 2 op body s) : Out) = .next (ends st re y) := fun h hb => congrArg _ (credOp_done h.1 hb)
  have writes : ∀ {op body ws effs} {y : State}, serves op → body img t = .ok (jobOf 2 ws effs) y →
      (.next (credOp 2 op body s) : Out) = .next (works ws effs y) := fun h hb => congrArg _ (credOp_job h.1 hb)
  refine ⟨fun h hw hc => fails h (opSatAuthReq_stale (position h) hw hc),
    fun h hw hc hd => writes h (opSatAuthReq_writes (position h) hw hc hd), fun h hb hc hr => ⟨fun ha => ?unasked, fun ha => ?check⟩,
    fun h hw hd ho => done h (opSatMateOffer_keeps (position h) hw hd ho), fun h hb hw h5 hr => ?mateKey,
    fun h hb hc hm hr ha hk => ?mateConfirm, fun h hw hc => ?roll, fun h hb hc => ?rollConfirm⟩
  case unasked => exact fails h (opSatAuthCheck_unasked (position h) hb hc hr ha)
  case check =>
    refine ⟨fun h0 h1 hit => ?_, fun h0 h1 hit hs => ?_, fun hit => ?_⟩
    · exact writes h (opSatAuthCheck_hit (position h) hb hc hr ha h0 h1 hit)
    · exact writes h (opSatAuthCheck_pending (position h) hb hc hr ha h0 h1 hit hs)
    · exact done h (opSatAuthCheck_miss (position h) hb hc hr ha hit)
  case mateKey =>
    exact ⟨fun hm => fails h (opSatMateKey_unoffered (position h) hb hw h5 hr hm),
      fun hm he => fails h (opSatMateKey_no_point (position h) hb hw h5 hr hm he),
      fun hm he hk => writes h (opSatMateKey_wraps (position h) hb hw h5 hr hm he hk)⟩
  case mateConfirm =>
    have checks := opSatMateConfirm_checks (position h) hb hc hm hr ha hk
    exact ⟨fun he => writes h (checks.trans (if_pos he)), fun he => fails h (checks.trans (if_neg he))⟩
  case roll =>
    exact ⟨fun hn => fails h (opSatRoll_unmated (position h) hw hc hn),
      fun hk hn hs => writes h (opSatRoll_wraps (position h) hw hc hk hn hs)⟩
  case rollConfirm =>
    refine ⟨fun hs => fails h (opSatRollConfirm_unrolled (position h) hb hc hs), fun hs hr ha hk => ?_⟩
    have checks := opSatRollConfirm_checks (position h) hb hc hs hr ha hk
    exact ⟨fun he => writes h (checks.trans (if_pos he)), fun he => fails h (checks.trans (if_neg he))⟩

end Sys2Proof.Machine
end

section
/-! The laws of the control operations and of the doorbell (R422 to R429, R433, R443, R444, R450, R457, R463, R479 to R483, R519,
R1188), and the statement QueueControlResults assembled from them. -/
namespace Sys2Proof.Machine

variable {who : Req} {owner num arg n v : Nat} {s t u : State} {q : Queue} {b : Bytes}

/-! ### A write of FRONT_CTL (R423, R425, R1188) -/

/-- The device runs, SCAN is over, and no wake holds the requester back. -/
def CtlServed (who : Req) (s : State) : Prop :=
  s.live = true ∧ s.sys.mode ≠ .scan ∧ (s.front.held = false ∨ Req.code who = 0)

/-- The code and the value of a control operation in its requester's FRONT_RES. -/
def ctlEnds (who : Req) (code value : Nat) (u : State) : State :=
  u.setReg (regKey who rFRONT_RES) (wd (code * 2 ^ 24 + value))

/-- A control operation that ends other than OK: its code, CTL_REFUSED, and no other effect. -/
def ctlRefused (who : Req) (code : Nat) (s : State) : State := (ctlEnds who code 0 s).setRbit rFRONT_EVT 4 true

/-- FRONT_ARG of a requester. -/
def frontArg (who : Req) (s : State) : Nat := (s.reg (regKey who rFRONT_ARG)).toNat

section
variable {op : Nat} (hs : CtlServed who s) (ho : 1 ≤ op ∧ op ≤ 0xC) (hz : coreZeroOp op = true → Req.code who = 0)
include hs ho hz

theorem frontCtl_next_ok (h : ctlOp op (Req.code who) num (frontArg who s) s = ((0, v), u)) :
    (.next (when s.live (frontCtl who op num) s) : Out) = .next (ctlEnds who 0 v u) :=
  have ⟨hl, hm, hh⟩ := hs
  next_when hl (frontCtl_ok ho hm hh hz h)

theorem frontCtl_next_refused {r : Nat} (hr : (r != 0) = true)
    (h : ctlOp op (Req.code who) num (frontArg who s) s = ((r, 0), s)) :
    (.next (when s.live (frontCtl who op num) s) : Out) = .next (ctlRefused who r s) :=
  have ⟨hl, hm, hh⟩ := hs
  next_when hl (frontCtl_refused ho hm hh hz hr h)

end

theorem answer_refused {r : Nat} (hr : (r != 0) = true) :
    when (r != 0) (frontEvent 4) (s.setReg (regKey who rFRONT_RES) (wd (fld 24 r + 0))) = ctlRefused who r s := by
  rw [when_true hr, fld, Nat.shiftLeft_eq]
  rfl

/-- An operation of core 0 alone, written by another requester (R424). -/
theorem frontCtl_next_foreign {op : Nat} (hs : CtlServed who s) (hz : coreZeroOp op = true) (ho : 1 ≤ op ∧ op ≤ 0xC)
    (hw : Req.code who ≠ 0) : (.next (when s.live (frontCtl who op num) s) : Out) = .next (ctlRefused who 3 s) := by
  obtain ⟨hl, hm, hh⟩ := hs
  refine next_when hl ?_
  unfold frontCtl
  dsimp only
  rw [if_neg (by simp; omega), if_neg (by simpa [hm] using fun h => hh.resolve_left (by simp [h])), if_pos (by simp [hz, hw])]
  exact answer_refused rfl

/-- In SCAN every control operation of the table is refused (R1188). -/
theorem frontCtl_next_scan {op : Nat} (hl : s.live = true) (hm : s.sys.mode = .scan) (ho : 1 ≤ op ∧ op ≤ 0xC) :
    (.next (when s.live (frontCtl who op num) s) : Out) = .next (ctlRefused who 6 s) := by
  refine next_when hl ?_
  unfold frontCtl
  dsimp only
  rw [if_neg (by simp; omega), if_pos (by simp [hm])]
  exact answer_refused rfl

/-! ### Setup blocks (R428, R443) -/

theorem qCreate_lowest (h0 : num = 0) (hb : setupBlock arg 32 32 s = (.ok b, t)) (hq : queueSetupOk t owner b = true)
    (hn : lowestFree 512 t.front.queues = some n) : qCreate owner num arg s = ((0, n), { t with front := { t.front with
      past := adel t.front.past n, queues := ains t.front.queues n (newQueue t owner b) } }) := by
  unfold qCreate
  rw [if_neg (by simp [h0]), hb]
  dsimp only
  rw [if_neg (by simp [hq]), hn]
  rfl

theorem bReg_lowest (h0 : num = 0) (hb : setupBlock arg 16 16 s = (.ok b, t)) (hq : bufSetupOk b = true)
    (hn : lowestFree 1024 t.front.buffers = some n) :
    bReg owner num arg s = ((0, (agetD t.front.bufGen n 0 % 63 + 1) * 1024 + n), { t with front := { t.front with
      buffers := ains t.front.buffers n ⟨owner, leAt b 0 6, leAt b 8 4, leAt b 0xC 1, leAt b 0xD 1⟩
      bufGen := ains t.front.bufGen n (agetD t.front.bufGen n 0 % 63 + 1) } }) := by
  unfold bReg
  rw [if_neg (by simp [h0]), hb]
  dsimp only
  rw [if_neg (by simp [hq]), hn]

/-! ### Queues (R424, R427, R463, R481, R482) -/

/-- What names a queue of another owner is refused before its state is looked at. -/
theorem foreignQueue_refused (h : ownQueue owner num arg s = .error 3) :
    qDestroy owner num arg s = ((3, 0), s) ∧ qStop owner num arg s = ((3, 0), s) ∧ qStart owner num arg s = ((3, 0), s) := by
  unfold qDestroy qStop qStart
  rw [h]
  exact ⟨rfl, rfl, rfl⟩

section
variable (hq : ownQueue owner num arg s = .ok q)
include hq

theorem qDestroy_takes (hst : q.st = .idle ∨ q.st = .stopped) (hd : dispatchedOf s num = false) :
    qDestroy owner num arg s = ((0, 0), { s with front := { s.front with
      queues := adel s.front.queues num, past := ains s.front.past num (q.poll, q.timeouts, q.lateDiscard) } }) := by
  unfold qDestroy
  rw [hq]
  exact if_pos (by simpa [hd] using hst)

theorem qDestroy_busy (hi : q.st ≠ .idle) (hst : q.st ≠ .stopped) : qDestroy owner num arg s = ((4, 0), s) := by
  unfold qDestroy
  rw [hq]
  exact if_neg (by simp [hi, hst])

theorem qStop_stopped (hst : q.st = .stopped) : qStop owner num arg s = ((0, 0), s) := by
  unfold qStop
  rw [hq]
  dsimp only
  rw [hst]

theorem qStop_guilty (hst : q.st = .guilty) : qStop owner num arg s = ((4, 0), s) := by
  unfold qStop
  rw [hq]
  dsimp only
  rw [hst]

/-- In every other state the cages drop what they have fetched of the queue, and then the queue stops or is marked. -/
theorem qStop_drops (hst : q.st ≠ .stopped) (hg : q.st ≠ .guilty) : qStop owner num arg s =
    if dispatchedOf s num then ((0, 0), (dropFetched num s).onQueue num (fun q => { q with stopping := true }))
    else ((0, 0), passCages num (stopQueue num 1 (dropFetched num s))) := by
  unfold qStop
  rw [hq]
  dsimp only
  split
  · contradiction
  · contradiction
  · rw [dispatched_dropFetched]

theorem qStart_running (hst : q.st ≠ .stopped) : qStart owner num arg s = ((4, 0), s) := by
  unfold qStart
  rw [hq]
  exact if_pos (by simpa using hst)

theorem qStart_empty (hst : q.st = .stopped) (he : q.head = q.tail) :
    qStart owner num arg s = ((0, 0), feed (s.putQueue num { q with st := .idle, stopReason := 0, held := none })) := by
  unfold qStart
  rw [hq]
  dsimp only
  rw [if_neg (by simp [hst]), if_pos he]

theorem qStart_ready (hst : q.st = .stopped) (he : q.head ≠ q.tail) (hh : q.held = none) :
    qStart owner num arg s = ((0, 0), feed (s.putQueue num { q with st := .ready, stopReason := 0 })) := by
  unfold qStart
  rw [hq]
  dsimp only
  rw [if_neg (by simp [hst]), if_neg he, if_neg (by simp [hh]), ← hh]

end

theorem onQueue_some {f : Queue → Queue} (h : s.queue? num = some q) : s.onQueue num f = s.putQueue num (f q) := by
  unfold State.onQueue
  rw [h]

/-- A stop while a command of the queue is dispatched: only cages and the queue's mark change. -/
theorem mark_dropped (h : s.queue? num = some q) :
    let u := (dropFetched num s).onQueue num (fun q => { q with stopping := true })
    u.queue? num = some { q with stopping := true } ∧ u.mem = s.mem ∧ u.regs = s.regs := by
  obtain ⟨cs, hc⟩ := queue_dropFetched num num s
  have hm : (dropFetched num s).queue? num = some q := by rw [hc]; exact h
  rw [onQueue_some hm, hc]
  exact ⟨(queue_putQueue _ _ _ _).trans (if_pos rfl), rfl, rfl⟩

theorem passCages_none (h : ∀ c, (s.cage c).queue ≠ some num) : passCages num s = s :=
  forEach_fix _ s _ fun c _ => when_false (by simpa using h c) _ s

/-- A stop of a queue that no cage holds or has preloaded a command of. -/
theorem stopQueue_alone (h : s.queue? num = some q)
    (ho : ∀ c, (s.cage c).queue ≠ some num ∧ ∀ p, (s.cage c).preload = some p → p.1 ≠ num) :
    passCages num (stopQueue num 1 (dropFetched num s)) =
      s.putQueue num { q with st := .stopped, stopReason := 1, stopping := false, waitFrom := none } := by
  rw [dropFetched_out ho, stopQueue, onQueue_some h]
  exact passCages_none fun c => (ho c).1

section
variable (ha : arg = 0) (hq : s.queue? (num % 512) = some q) (hn : num < 4096) (hc : s.critOnly (cageNo (num / 512 % 8)) = q.critical)
include ha hq hn hc

/-- Q_BIND at the queue's next command boundary. -/
theorem qBind_later (hd : q.st = .running ∨ dispatchedOf s (num % 512) = true) :
    qBind num arg s = ((0, 0), s.putQueue (num % 512) { q with bindTo := some (num / 512 % 8) }) := by
  unfold qBind
  dsimp only
  rw [hq]
  dsimp only
  rw [if_neg (by simp [ha, hc]; omega), if_pos (by simpa using hd)]

/-- Q_BIND at once. -/
theorem qBind_now (hr : q.st ≠ .running) (hd : dispatchedOf s (num % 512) = false) :
    qBind num arg s = ((0, 0), feed (s.putQueue (num % 512) { q with cage := num / 512 % 8 })) := by
  unfold qBind
  dsimp only
  rw [hq]
  dsimp only
  rw [if_neg (by simp [ha, hc]; omega), if_neg (by simp [hr, hd])]

end

theorem qQuery_state (hn : num ≤ 511) (ha : arg = 0) (hq : s.queue? num = some q) :
    qQuery num arg s = ((0, fld 20 q.st.code + fld 17 q.cage + fld 16 (b2n q.critical) + fld 12 q.owner + fld 9 q.stopReason), s) := by
  unfold qQuery
  rw [if_neg (by simpa [ha] using hn), hq]

/-! ### Buffers and edges (R444, R449, R450, R457) -/

theorem bUnreg_takes {x : Buffer} (ha : arg = 0) (hb : s.bufAt num = some x) (ho : x.owner = owner)
    (hh : handleHeld s num = false) :
    bUnreg owner num arg s = ((0, 0), { s with front := { s.front with buffers := adel s.front.buffers (num % 1024) } }) := by
  unfold bUnreg
  rw [hb]
  dsimp only
  rw [if_neg (by simp [ha]), if_neg (by simp [ho]), if_neg (by simp [hh])]

theorem eAlloc_lowest (h0 : num = 0) (ha : arg ≤ 1) (hn : lowestFree 4096 s.front.edges = some n) :
    eAlloc owner num arg s = ((0, (agetD s.front.edgeGen n 0 % 15 + 1) * 4096 + n), { s with front := { s.front with
      edges := ains s.front.edges n ⟨.armed, owner, arg = 1⟩
      edgeGen := ains s.front.edgeGen n (agetD s.front.edgeGen n 0 % 15 + 1) } }) := by
  unfold eAlloc
  rw [if_neg (by simpa [h0] using ha), hn]

section
variable {e : Edge} (ha : arg = 0) (he : s.edgeAt num = some e)
include ha he

theorem eQuery_state : eQuery num arg s = ((0, e.st.code), s) := by
  unfold eQuery
  rw [he]
  exact if_neg (by simp [ha])

variable (ho : e.owner = owner)
include ho

theorem eFree_takes (hu : edgeInUse s num = false) :
    eFree owner num arg s = ((0, 0), { s with front := { s.front with edges := adel s.front.edges (num % 4096) } }) := by
  unfold eFree
  rw [he]
  dsimp only
  rw [if_neg (by simp [ha]), if_neg (by simp [ho]), if_neg (by simp [hu])]

theorem eFree_used (hu : edgeInUse s num = true) : eFree owner num arg s = ((4, 0), s) := by
  unfold eFree
  rw [he]
  dsimp only
  rw [if_neg (by simp [ha]), if_neg (by simp [ho]), if_pos hu]

end

/-! ### Doorbells (R433, R519) -/

theorem tailOk_iff (q : Queue) (tail : Nat) : tailOk q tail = true ↔
    (tail + 65536 - q.head) % 65536 ≤ 2 ^ q.size ∧ (tail + 65536 - q.tail) % 65536 ≤ (tail + 65536 - q.head) % 65536 := by
  simp [tailOk]

section
variable {w : Word}

theorem doorbell_unknown (hq : s.queue? (bits w 8 0) = none) : doorbell who w s = s.setRbit rFRONT_EVT 2 true := by
  unfold doorbell
  dsimp only
  rw [hq]
  rfl

variable (hq : s.queue? (bits w 8 0) = some q)
include hq

theorem doorbell_foreign (ho : q.owner ≠ Req.code who) : doorbell who w s = s.setRbit rFRONT_EVT 2 true := by
  unfold doorbell
  dsimp only
  rw [hq]
  exact if_pos (by simpa using ho)

variable (ho : q.owner = Req.code who)
include ho

theorem doorbell_moves (ht : tailOk q (bits w 31 16) = true) :
    doorbell who w s = feed (s.putQueue (bits w 8 0) { q with
      tail := bits w 31 16, st := if q.st = .idle ∧ q.head ≠ bits w 31 16 then .ready else q.st }) := by
  unfold doorbell
  dsimp only
  rw [hq]
  dsimp only
  rw [if_neg (by simp [ho]), if_neg (by simp [ht])]
  simp only [Bool.and_eq_true, beq_iff_eq, bne_iff_ne]

theorem doorbell_bad (ht : ¬ tailOk q (bits w 31 16) = true) : doorbell who w s = s.setRbit rFRONT_EVT 1 true := by
  unfold doorbell
  dsimp only
  rw [hq]
  dsimp only
  rw [if_neg (by simp [ho]), if_pos (by simpa using ht)]
  rfl

end

/-! ### The obligation -/

/-- Settles O47: a requester that is served gets what its operation answers, and each operation answers as the state of what it
names decides. -/
theorem queueControlResults : Obligations.QueueControlResults := by
  unfold Obligations.QueueControlResults
  intro s t who operand b n q x e owner arg num ends refused serves block outOfCages named owned
  have own : owned → ownQueue owner num arg s = .ok q := fun ⟨⟨hn, ha, hq⟩, ho⟩ => ownQueue_ok hn ha hq ho
  have read {len : Nat} : block len → num = 0 ∧ setupBlock arg len len s = (.ok b, t) :=
    fun ⟨h0, hal, hlo, hhi, hrd⟩ => ⟨h0, setupBlock_ok hal hlo hhi hrd⟩
  -- an operation that any requester may perform
  have ok {op v : Nat} {u : State} (hs : serves) (ho : 1 ≤ op ∧ op ≤ 0xC) (hz : coreZeroOp op = false)
      (h : ctlOp op owner num arg s = ((0, v), u)) : (.next (when s.live (frontCtl who op num) s) : Out) = .next (ends 0 v u) :=
    frontCtl_next_ok hs ho (by simp [hz]) h
  have no {op r : Nat} (hs : serves) (ho : 1 ≤ op ∧ op ≤ 0xC) (hz : coreZeroOp op = false) (hr : (r != 0) = true)
      (h : ctlOp op owner num arg s = ((r, 0), s)) : (.next (when s.live (frontCtl who op num) s) : Out) = .next (refused r) :=
    frontCtl_next_refused hs ho (by simp [hz]) hr h
  refine ⟨?create, ?destroy, ?busy, ?foreign, ?stop, ?start, ?bind, ?coreZero, ?query, ?register, ?unregister, ?alloc, ?edge,
    ?resume, feed_held, fun hl hm => frontCtl_next_scan hl hm (by decide), ?doorbell⟩
  case create =>
    intro hs hb hq hn
    obtain ⟨h0, hb⟩ := read hb
    exact ok hs (by decide) rfl (qCreate_lowest (owner := owner) h0 hb hq hn)
  case destroy => exact fun hs ho hst hd => ok hs (by decide) rfl (qDestroy_takes (own ho) hst hd)
  case busy => exact fun hs ho hi hst => no hs (by decide) rfl rfl (qDestroy_busy (own ho) hi hst)
  case foreign =>
    intro hs ⟨hn, ha, hq⟩ ho
    obtain ⟨hd, hp, hst⟩ := foreignQueue_refused (ownQueue_foreign hn ha hq ho)
    exact ⟨no hs (by decide) rfl rfl hd, no hs (by decide) rfl rfl hp, no hs (by decide) rfl rfl hst⟩
  case stop =>
    intro hs ho
    obtain ⟨⟨-, -, hq⟩, -⟩ := id ho
    refine ⟨fun hst => ok hs (by decide) rfl (qStop_stopped (own ho) hst),
      fun hst => no hs (by decide) rfl rfl (qStop_guilty (own ho) hst), fun hst hg hd => ?_, fun hst hg hd hout => ?_⟩
    · exact ⟨_, ok hs (by decide) rfl ((qStop_drops (own ho) hst hg).trans (if_pos hd)), mark_dropped hq⟩
    · refine ok hs (by decide) rfl ((qStop_drops (own ho) hst hg).trans ((if_neg (by simp [hd])).trans ?_))
      rw [stopQueue_alone hq hout]
  case start =>
    intro hs ho
    exact ⟨fun hst => no hs (by decide) rfl rfl (qStart_running (own ho) hst),
      fun hst he => ok hs (by decide) rfl (qStart_empty (own ho) hst he),
      fun hst he hh => ok hs (by decide) rfl (qStart_ready (own ho) hst he hh)⟩
  case bind =>
    intro hs ho hn ha hq hc
    exact ⟨fun hd => frontCtl_next_ok hs (by decide) (fun _ => ho) (qBind_later ha hq hn hc hd),
      fun hr hd => frontCtl_next_ok hs (by decide) (fun _ => ho) (qBind_now ha hq hn hc hr hd)⟩
  case coreZero =>
    exact fun hs ho => ⟨frontCtl_next_foreign hs rfl (by decide) ho, frontCtl_next_foreign hs rfl (by decide) ho⟩
  case query => exact fun hs ⟨hn, ha, hq⟩ => ok hs (by decide) rfl (qQuery_state hn ha hq)
  case register =>
    intro hs hb hq hn
    obtain ⟨h0, hb⟩ := read hb
    exact ok hs (by decide) rfl (bReg_lowest (owner := owner) h0 hb hq hn)
  case unregister => exact fun hs ha hb ho hh => ok hs (by decide) rfl (bUnreg_takes ha hb ho hh)
  case alloc =>
    intro hs h0 ha hn
    have allocated := eAlloc_lowest (owner := owner) h0 ha hn
    exact ok hs (by decide) rfl allocated
  case edge =>
    intro hs ha he
    exact ⟨ok hs (by decide) rfl (eQuery_state ha he),
      fun ho hu => ok hs (by decide) rfl (eFree_takes ha he ho hu),
      fun ho hu => no hs (by decide) rfl rfl (eFree_used ha he ho hu)⟩
  case resume =>
    intro hs ho h0 ha
    exact frontCtl_next_ok hs (by decide) (fun _ => ho) (show resume num arg s = _ by rw [h0, ha]; rfl)
  case doorbell =>
    intro w hl
    refine ⟨fun hq => next_when hl (doorbell_unknown hq), fun hq ho => next_when hl (doorbell_foreign hq ho), fun hq ho => ?_⟩
    exact ⟨fun hd ht => next_when hl (doorbell_moves hq ho ((tailOk_iff _ _).2 ⟨hd, ht⟩)),
      fun hb => next_when hl (doorbell_bad hq ho (fun ht => hb ((tailOk_iff _ _).1 ht)))⟩

end Sys2Proof.Machine
end

section
/-! The laws of the front end's steps (R446, R455, R456, R465, R469, R472 to R476, R487, R509, R516 to R521), and the statement
DispatchResults assembled from them. -/
namespace Sys2Proof.Machine

variable {s t : State} {c : Fin 8} {n e : Nat} {q : Queue} {f : Fetched} {b : Bool}

/-- The front end dispatches: SCAN is over, and no wake holds it (R478, R479). -/
theorem dispatches_iff (s : State) : s.dispatches = true ↔ s.up = true ∧ s.front.held = false := by
  simp [State.dispatches]

/-! ### DESCRIPTOR_FETCH (R471, R472) -/

/-- How stages 1 and 2 judge a descriptor that was read. -/
def fetchFailure (s : State) (owner : Nat) (img : Bytes) : Option (Nat × Nat) :=
  if (descEngine img).isNone || !descReservedOk img then some (5, 2)
  else if !refsOk s owner img then some (4, 2) else none

section
variable {img : Bytes}

theorem fetchFailure_format (owner : Nat) (h : descEngine img = none ∨ descReservedOk img = false) :
    fetchFailure s owner img = some (5, 2) :=
  if_pos (by simpa using h)

theorem fetchFailure_inOrder (owner : Nat) (he : descEngine img ≠ none) (hr : descReservedOk img = true) :
    fetchFailure s owner img = if refsOk s owner img then none else some (4, 2) := by
  unfold fetchFailure
  rw [if_neg (by simp [he, hr])]
  cases refsOk s owner img <;> rfl

theorem fetchFailure_answered (s : State) (owner : Nat) (img : Bytes) : fetchFailure s owner img ≠ some (0xFF, 1) := by
  unfold fetchFailure
  split
  · decide
  · split <;> decide

theorem fetch_answered (hrd : devRead 0 q.ctx (q.ring + q.head % 2 ^ q.size * 64) 64 s = (.ok img, t)) :
    fetch q s = (some ⟨img, q.head, fetchFailure t q.owner img⟩, t) := by
  unfold fetch
  rw [hrd]
  rfl

/-- A cage without a command keeps the HEAD descriptor of the queue that holds it, with the failure of its check. -/
theorem descriptorFetch_keeps (hg : (s.cage c).queue = some n) (hq : s.queue? n = some q) (hd : (s.cage c).disp = none)
    (hc : (s.cage c).cur = none) (hst : q.st = .running) (hne : q.head ≠ q.tail) (hh : q.held = none)
    (hrd : devRead 0 q.ctx (q.ring + q.head % 2 ^ q.size * 64) 64 s = (.ok img, t)) :
    descriptorFetch c s =
      t.setCage c { t.cage c with cur := some (⟨img, q.head, fetchFailure t q.owner img⟩, false) } := by
  have head : headCommand n q s = (some ⟨img, q.head, fetchFailure t q.owner img⟩, t) := by
    unfold headCommand
    rw [hh]
    exact fetch_answered hrd
  have kept : descriptorFetch c s = fetchHead c n q s := by
    unfold descriptorFetch
    dsimp only
    rw [hg]
    dsimp only
    rw [hq]
    dsimp only
    rw [if_neg (by simp [hd]), when_true (by simp [hc, hst, hne])]
  rw [kept, fetchHead, head]
  exact if_neg (fetchFailure_answered t q.owner img)

end

/-! ### DISPATCH and ENGINE_GRANT (R454, R455, R468 to R474) -/

theorem dispatchStages_waits (hq : s.queue? n = some q) (ha : awaitsArmed s f.desc = true) :
    dispatchStages c n q f s = boundary c
      ((s.putQueue n { q with st := .waiting, waitFrom := some s.clk.tb, held := some f }).setCage c
        { s.cage c with cur := none }) := by
  unfold dispatchStages
  rw [if_pos ha, waitOn, onQueue_some hq]
  rfl

theorem dispatchStages_dependency (ha : awaitsArmed s f.desc = false) (hd : dependencyFailed s f.desc = true) :
    dispatchStages c n q f s = s.setCage c { s.cage c with cur := some ({ f with failed := some (6, 3) }, false) } := by
  unfold dispatchStages
  rw [if_neg (by simp [ha]), if_pos hd]
  rfl

theorem indirect_none (owner : Nat) {d : Bytes} (h : descFlag d 1 = false) (s : State) :
    indirect owner d s = (some (.ok d), s) :=
  if_pos (by simp [h])

/-- The cage waits for its engine's grant. -/
def grantWaits (c : Fin 8) (f : Fetched) (s : State) : State := s.setCage c { s.cage c with cur := some (f, true) }

/-- A command that passes stages 3 to 5 without an indirection goes on to its mode and its engine. -/
theorem dispatchStages_judged (ha : awaitsArmed s f.desc = false) (hd : dependencyFailed s f.desc = false)
    (hr : refsOk s q.owner f.desc = true) (hi : descFlag f.desc 1 = false) (he : descEngine f.desc = some e) :
    dispatchStages c n q f s =
      if modeAccepts s.sys.mode (leAt f.desc 0 1) (descOp f.desc) (leAt f.desc 0x2C 2) then
        if s.engineFree e && grantee (grantWaits c f s) e == some c && s.cRoom (cmdKey e) then send c n q f e f.desc s
        else grantWaits c f s
      else s.setCage c { s.cage c with cur := some ({ f with failed := some (9, 6) }, false) } := by
  unfold dispatchStages
  rw [if_neg (by simp [ha]), if_neg (by simp [hd]), if_neg (by simp [hr]), indirect_none _ hi]
  dsimp only
  rw [he]
  dsimp only
  cases modeAccepts s.sys.mode (leAt f.desc 0 1) (descOp f.desc) (leAt f.desc 0x2C 2) <;> rfl

/-- The address of the next image of a cage (R446). -/
def imageSlot (c : Fin 8) (s : State) : Nat := 0x207FFC00 + c.val * 0x80 + (s.cage c).slot * 0x40

theorem writeSram_chan (src a : Nat) (bs : Bytes) (s : State) (k : Nat) : (writeSram src a bs s).2.chan k = s.chan k := by
  rw [(writeSram_memOnly src a bs s).rest]
  rfl

theorem cmdSend_front (e : Nat) (w : Word) (s : State) : (cmdSend e w s).front = s.front := by
  obtain ⟨⟨ch, cs, told⟩, -⟩ := cmdSend_spec e w s
  rw [told]

theorem cmdSend_mem (e : Nat) (w : Word) (s : State) : (cmdSend e w s).mem = s.mem := by
  obtain ⟨⟨ch, cs, told⟩, -⟩ := cmdSend_spec e w s
  rw [told]

/-- The front end's tables when queue n's HEAD command goes from a cage to its engine, and its image's address goes to the
engine's CMD port (R432, R469, R474). -/
def sentTo (c : Fin 8) (n : Nat) (q : Queue) (g : Cage) (e : Nat) (x : Engine) (w : Word) (s : State) : State :=
  cmdSend e w (((s.putQueue n { q with head := (q.head + 1) % 65536 }).setCage c g).setEngine e x)

section
variable {g : Cage} {x : Engine} {w : Word}

theorem sentTo_front (s : State) : (sentTo c n q g e x w s).front =
    (((s.putQueue n { q with head := (q.head + 1) % 65536 }).setCage c g).setEngine e x).front := cmdSend_front e w _

theorem sentTo_queue (s : State) : (sentTo c n q g e x w s).queue? n = some { q with head := (q.head + 1) % 65536 } := by
  rw [State.queue?, sentTo_front]
  exact (queue_putQueue s n n _).trans (if_pos rfl)

theorem sentTo_cage (s : State) : (sentTo c n q g e x w s).cage c = g := by
  rw [State.cage, sentTo_front]
  exact (cage_setCage _ c c g).trans (if_pos rfl)

theorem sentTo_engine (s : State) : (sentTo c n q g e x w s).engine e = x := by
  rw [State.engine, sentTo_front]
  exact (engine_setEngine _ e e x).trans (if_pos rfl)

theorem sentTo_cHead (hq : (s.chan (cmdKey e)).q = []) (hb : (s.chan (cmdKey e)).back = []) :
    (sentTo c n q g e x w s).cHead (cmdKey e) = some w :=
  (cmdSend_spec e w _).2 hq hb

theorem sentTo_bytes (s : State) : SameBytes s (sentTo c n q g e x w s) := sameBytes_of_mem (cmdSend_mem e w _)

end

/-- Stage 8 is the write of the image and then the send. -/
theorem send_eq {d : Bytes} (hq : s.queue? n = some q) : send c n q f e d s =
    sentTo c n q
      { s.cage c with
        cur := none, slot := 1 - (s.cage c).slot
        disp := some ⟨n, f.index, f.desc, e, imageSlot c s, s.clk.tb, s.clk.tb + q.tmo * 6240, false⟩ } e
      { s.engine e with cage := some c.val, attempts := 0, lastCage := c.val } (wd (imageSlot c s))
      (writeSram 0x22 (imageSlot c s) (imageOf s q.owner f.desc d) s).2 := by
  have rest := (writeSram_memOnly 0x22 (imageSlot c s) (imageOf s q.owner f.desc d) s).rest
  unfold send
  dsimp only
  rw [show 0x207FFC00 + c.val * 0x80 + (s.cage c).slot * 0x40 = imageSlot c s from rfl]
  generalize (writeSram 0x22 (imageSlot c s) (imageOf s q.owner f.desc d) s).2 = v at rest ⊢
  obtain ⟨m, r, k, rfl⟩ : ∃ m r k, v = { s with mem := m, regs := r, cores := k } := ⟨_, _, _, rest⟩
  rw [onQueue_some (show State.queue? { s with mem := m, regs := r, cores := k } n = some q from hq)]
  rfl

theorem execEngineGrant_some (hu : s.dispatches = true) (he : s.engineFree e = true) (hg : grantee s e = some c) :
    execEngineGrant e s = .next (dispatch c s) :=
  next_when (by simp [hu, he]) (by rw [hg]; rfl)

theorem execEngineGrant_none (hu : s.dispatches = true) (he : s.engineFree e = true) (hg : grantee s e = none) :
    execEngineGrant e s = .next s :=
  next_when (by simp [hu, he]) (by rw [hg]; rfl)

/-! ### END_AT_FRONT_END and SLICE_END (R465, R470, R473) -/

theorem endAtFrontEnd_tallies {st stage : Nat} (hg : (s.cage c).queue = some n) (hq : s.queue? n = some q)
    (hd : (s.cage c).disp = none) (hc : (s.cage c).cur = some (f, b)) (hf : f.failed = some (st, stage)) (hst : st ≠ 0xFF) :
    endAtFrontEnd c s = boundary c (tally n f.index f.desc st 0 0 stage 0
      ((s.putQueue n { q with head := (q.head + 1) % 65536 }).setCage c { s.cage c with cur := none })) := by
  unfold endAtFrontEnd
  rw [hg, hc, hd]
  dsimp only
  rw [hf]
  dsimp only
  rw [if_neg hst, onQueue_some hq]
  rfl

theorem execSliceEnd_waits (hu : s.dispatches = true) (hg : (s.cage c).queue = some n) (hs : (s.cage c).sliceEnd ≤ s.clk.tb)
    (hw : waitsFor s c = some e) : execSliceEnd c s = .next (boundary c s) :=
  next_when (by simp [hu, hg, hs, hw]) rfl

theorem execSliceEnd_idle (hw : waitsFor s c = none) : execSliceEnd c s = .next s :=
  congrArg Host.Outcome.next (when_false (by simp [hw]) _ s)

/-! ### DONE words (R205, R206, R512) -/

section
variable {w : Word} {d : Dispatched}

theorem execDoneWord_none (hu : s.up = true) (he : allEngines.contains e = true) (hc : s.cHead (doneKey e) = none) :
    execDoneWord e s = .next s :=
  next_when (by rw [hu, he]; rfl) (by rw [hc]; rfl)

theorem execDoneWord_some (hu : s.up = true) (he : allEngines.contains e = true) (hc : s.cHead (doneKey e) = some w) :
    execDoneWord e s = .next (doneWord e w (cDrop (doneKey e) s)) :=
  next_when (by rw [hu, he]; rfl) (by rw [hc]; rfl)

theorem doneWord_ends (hd : s.dispatched e = some d) (hf : frontOnly (bits w 7 0) = false) :
    doneWord e w s = finish e (bits w 7 0) (bits w 31 8) s := by
  unfold doneWord
  dsimp only
  rw [hd]
  dsimp only
  rw [if_neg (by simp [hf])]

/-- A status that an engine may not send ends its command with ENGINE_ERROR. -/
theorem doneWord_barred (hd : s.dispatched e = some d) (hf : frontOnly (bits w 7 0) = true) (hw : d.withheld = false) :
    doneWord e w s = finish e 5 (bits w 31 8) s := by
  unfold doneWord
  dsimp only
  rw [hd]
  dsimp only
  rw [if_pos (by simp [hf, hw])]

theorem doneWord_late (hd : s.dispatched e = none) :
    doneWord e w s = if bits w 7 0 = 0 then lateSuccess e s else s := by
  unfold doneWord
  dsimp only
  rw [hd]

end

/-! ### WAIT_TMO and TIMEOUT (R456, R487, R509) -/

section
variable {at_ : Nat} (hq : s.queue? n = some q) (hst : q.st = .waiting) (hw : q.waitFrom = some at_) (hh : q.held = some f)
include hq hst hw hh

theorem waitTmo_early (ht : s.clk.tb < at_ + msTicks q.waitTmo) : waitTmo n s = s := by
  unfold waitTmo
  rw [hq]
  dsimp only
  rw [hst, hw, hh]
  exact if_pos (by simp [ht])

theorem waitTmo_ends (h0 : q.waitTmo ≠ 0) (ht : at_ + msTicks q.waitTmo ≤ s.clk.tb) (hs : signalWaits s f.desc = false) :
    waitTmo n s = feed (tally n f.index f.desc 6 0 0 3 0 (s.putQueue n { q with
      head := (q.head + 1) % 65536, waitFrom := none, held := none
      st := if (q.head + 1) % 65536 = q.tail then .idle else .ready })) := by
  unfold waitTmo
  rw [hq]
  dsimp only
  rw [hst, hw, hh]
  exact if_neg (by simp [h0, hs]; omega)

end

section
variable {d : Dispatched} (hd : (s.cage c).disp = some d)
include hd

theorem timeOut_early (ht : s.clk.tb < d.expiry) : timeOut c s = s := by
  unfold timeOut
  rw [hd]
  exact if_pos ht

/-- An expired command is cancelled, told to its owner with TIMEOUT and counted, and its cage is at a boundary. -/
theorem timeOut_cancels (ht : d.expiry ≤ s.clk.tb) :
    let cancelled := cancel d ((s.queue? d.queue).any Queue.critical) s
    let told := tally d.queue d.index d.desc 1 0 (s.engine d.engine).attempts 8 d.sentAt cancelled
    let counted := told.onQueue d.queue (fun q => { q with timeouts := satInc 0xFFFF q.timeouts })
    timeOut c s = sweepGuilty 8 (boundary c (counted.setCage c { counted.cage c with disp := none })) := by
  intro cancelled told counted
  unfold timeOut
  rw [hd]
  exact if_neg (Nat.not_lt.2 ht)

end

/-! ### HANG (R516 to R521, R533, R534) -/

theorem hangDue_iff (s : State) (x : Draining) : hangDue s x = true ↔
    x.hung = false ∧ x.since + msTicks (s.fld rFRONT_HANG 7 0) < s.clk.tb := by
  simp [hangDue]

/-- The only engine that drains is the one whose hang comes first. -/
theorem firstHang_alone (ho : ∀ i ∈ allEngines, i ≠ e → (s.engine i).draining = none) : firstHang e s = e := by
  unfold firstHang
  cases found : allEngines.find? (fun i => (s.engine i).draining.any (fun d => d.critical && hangDue s d)) with
  | none => rfl
  | some i =>
    by_contra hne
    have due := List.find?_some found
    rw [ho i (List.mem_of_find?_eq_some found) hne] at due
    exact Bool.false_ne_true due

/-- The hang of an engine's drain is marked as acted on. -/
def markHung (e : Nat) (x : Draining) (s : State) : State :=
  s.setEngine e { s.engine e with draining := some { x with hung := true } }

section
variable {x : Draining} (hx : (s.engine e).draining = some x)
include hx

theorem hang_notDue (hd : ¬ hangDue s x = true) : hang e s = s :=
  when_false (by rw [hx]; simpa using hd) _ s

theorem hang_alone (ho : ∀ i ∈ allEngines, i ≠ e → (s.engine i).draining = none) (hd : hangDue s x = true) :
    hang e s = if x.critical then criticalHang e (markHung e x s) else guiltyReset e x.queue (markHung e x s) := by
  unfold hang
  rw [when_true (by rw [hx]; exact hd), firstHang_alone ho]
  unfold hangOf
  rw [hx]
  exact if_neg (by simp [hd])

end

/-- A critical hang while no command is dispatched only requests the reset. -/
theorem criticalHang_idle (hl : s.live = true) (hi : ∀ i, (s.cage i).disp = none) : criticalHang e s =
    { s with pwr := { s.pwr with entering := false, heldSrc := 0, resetReq := some ⟨5, engineId e, s.clk.rtc⟩ } } := by
  unfold criticalHang
  rw [forEach_fix _ s _ (fun i _ => by rw [hi i]), requestReset_live hl]

/-! ### The obligation -/

/-- Settles O48: each step of the front end by the state of the cage, the queue or the engine that it serves. -/
theorem dispatchResults : Obligations.DispatchResults := by
  unfold Obligations.DispatchResults
  intro s t c n e q f d img b w g runs reads fetched has
  have free : runs → s.dispatches = true := (dispatches_iff s).2
  have live (hu : s.up = true) : s.live = true := (Bool.and_eq_true_iff.1 hu).1
  refine ⟨?fetch, ?dispatch, ?grant, ?endAt, ?slice, ?done, ?waitTmo, ?timeout, ?hang⟩
  case fetch =>
    intro hr ⟨hg, hq, hd, hc, hst, hne, hh, hrd⟩
    have kept := next_when (free hr) (descriptorFetch_keeps hg hq hd hc hst hne hh hrd)
    have judged {o : Option (Nat × Nat)} (ho : fetchFailure t q.owner img = o) : exec (.descriptorFetch c) s = .next (fetched o) :=
      ho ▸ kept
    exact ⟨fun h => judged (fetchFailure_format _ h),
      fun he hf hb => judged ((fetchFailure_inOrder _ he hf).trans (if_neg (by simp [hb]))),
      fun he hf hb => judged ((fetchFailure_inOrder _ he hf).trans (if_pos hb))⟩
  case dispatch =>
    intro ⟨hu, hh⟩ ⟨hg, hq, hd, hc⟩ hf
    have staged := dispatch_stages hu hh hg hq hd hc hf
    refine ⟨fun ha => staged.trans (congrArg _ (dispatchStages_waits hq ha)),
      fun ha hdep => staged.trans (congrArg _ (dispatchStages_dependency ha hdep)), fun ha hdep hr hi he =>
        ⟨fun hm => ?mode, fun hm hfree => ?busy, fun hm hfree hgr hcq hcb hinv hw => ?sent⟩⟩
    all_goals rw [dispatchStages_judged ha hdep hr hi he] at staged
    case mode => exact staged.trans (congrArg _ (if_neg (Bool.eq_false_iff.1 hm)))
    case busy => exact staged.trans (congrArg _ ((if_pos hm).trans (if_neg (by simp [hfree]))))
    case sent =>
      have room : s.cRoom (cmdKey e) = true := by simp [State.cRoom, hcq]
      have granted : grantee (grantWaits c f s) e = some c := hgr
      rw [if_pos hm, if_pos (by simp [hfree, granted, room]), send_eq hq] at staged
      have stored := writeSram_bytes hinv (Prod.ext hw rfl)
      have chan := writeSram_chan 0x22 (imageSlot c s) (imageOf s q.owner f.desc f.desc) s (cmdKey e)
      exact ⟨_, staged, sentTo_queue .., sentTo_cage .., sentTo_engine ..,
        sentTo_cHead (by rw [chan, hcq]) (by rw [chan, hcb]), fun a => (sentTo_bytes _ a).trans (stored a)⟩
  case grant =>
    intro hr he
    exact ⟨fun hg => (execEngineGrant_some (free hr) he hg).trans (next_when (free hr) rfl).symm,
      execEngineGrant_none (free hr) he⟩
  case endAt =>
    exact fun st stage hr ⟨hg, hq, hd, hc⟩ hf hst => next_when (free hr) (endAtFrontEnd_tallies hg hq hd hc hf hst)
  case slice => exact fun hr hg hs => ⟨execSliceEnd_waits (free hr) hg hs, execSliceEnd_idle⟩
  case done =>
    intro hu he
    have taken {v : State} (hc : s.cHead (doneKey e) = some w) (h : doneWord e w (cDrop (doneKey e) s) = v) :
        exec (.doneWord e) s = .next v := (execDoneWord_some hu he hc).trans (congrArg _ h)
    exact ⟨execDoneWord_none hu he, fun hc => ⟨fun hd hf => taken hc (doneWord_ends hd hf),
      fun hd hf hw => taken hc (doneWord_barred hd hf hw), fun hd => taken hc (doneWord_late hd)⟩⟩
  case waitTmo =>
    intro m at_ hu hq hst hw hh h0
    exact ⟨fun ht => next_when hu (waitTmo_early hq hst hw hh ht),
      fun ht hs => next_when hu (waitTmo_ends hq hst hw hh h0 ht hs)⟩
  case timeout =>
    exact fun hu hd => ⟨fun ht => next_when hu (timeOut_early hd ht), fun ht => next_when hu (timeOut_cancels hd ht)⟩
  case hang =>
    intro x hu _ hx ho marked
    have due (hn : x.hung = false) (ht : x.since + msTicks (s.fld rFRONT_HANG 7 0) < s.clk.tb) :=
      hang_alone hx ho ((hangDue_iff s x).2 ⟨hn, ht⟩)
    refine ⟨fun h => next_when hu (hang_notDue hx fun hd => ?_), fun hn ht hc => next_when hu ?_, fun hn ht hc hi => next_when hu ?_⟩
    · obtain ⟨hn, ht⟩ := (hangDue_iff s x).1 hd
      rcases h with h | h
      · omega
      · simp [hn] at h
    · exact (due hn ht).trans (if_neg (by simp [hc]))
    · exact (due hn ht).trans ((if_pos hc).trans (criticalHang_idle (live hu) hi))

end Sys2Proof.Machine
end

section
/-! The laws of the converter's commands, of a result and of the correction (R540 to R571), and the statement
AcquisitionResults assembled from them. -/
namespace Sys2Proof.Machine

/-! ### A command and its tick of arrival (R561, R586, R592) -/

/-- The converter is powered (R589; log entry 17). -/
def AdcPowered (s : State) : Prop := s.timed = true ∧ s.rbit rADC_CTL 0 = true

/-- A command with this OP reaches the powered converter at tick at_, from a permitted writer or as the head word of CTRL, and
leaves u. -/
def AdcTakes (s u : State) (who : Req) (via : Via) (h : ChWord) (at_ op : Nat) : Prop :=
  AdcPowered s ∧
    ((via = .reg who ∧ Writers.appField.permits who = true ∧ at_ = s.clk.tb ∧ u = s) ∨
     (via = .port ∧ s.ctrlHead 0x84 op = some h ∧ at_ = h.tick ∧ u = cDrop 0x84 s))

theorem AdcPowered.up {s : State} (h : AdcPowered s) : s.adcUp = true := Bool.and_eq_true_iff.2 h

section
variable {s u t : State} {who : Req} {via : Via} {h : ChWord} {at_ op : Nat}

/-- Taking the command changes at most the channels: the word of CTRL leaves its port. -/
theorem AdcTakes.chans (ht : AdcTakes s u who via h at_ op) : ∃ ch, u = { s with chans := ch } := by
  obtain ⟨-, ⟨-, -, -, rfl⟩ | ⟨-, -, -, rfl⟩⟩ := ht
  · exact ⟨_, rfl⟩
  · exact ⟨_, cDrop_rest ..⟩

theorem AdcTakes.next (ht : AdcTakes s u who via h at_ op) {f : Nat → State → State} (hf : f at_ u = t) :
    (.next (when s.timed (adcVia via op f) s) : Out) = .next t := by
  obtain ⟨hp, hv⟩ := ht
  obtain ⟨hvia, -⟩ := adcVia_takes hp hv f
  obtain ⟨htimed, -⟩ := hp
  exact next_when htimed (hvia.trans hf)

end

/-! ### RUNNING and INJ_RUN -/

theorem adcFlags_adc (s : State) : (adcFlags s).adc = s.adc := by
  obtain ⟨⟨r, hr⟩, -⟩ := adcFlags_spec s
  rw [hr]

theorem adcFlags_reg_ne (s : State) {k : Nat} (hk : k ≠ rADC_STAT) : (adcFlags s).reg k = s.reg k := by
  obtain ⟨-, hreg, -⟩ := adcFlags_spec s
  exact hreg k hk

theorem adcFlags_running (s : State) : (adcFlags s).rbit rADC_STAT 2 = s.adc.seq.isSome ∧
    (adcFlags s).rbit rADC_STAT 3 = s.adc.inj.isSome := by
  obtain ⟨-, -, hrun⟩ := adcFlags_spec s
  exact hrun

/-! ### START (R546, R559 to R561, R564) -/

section
variable {s : State} {at_ : Nat}

/-- Every entry from 0 to LAST passes the checks of R559. -/
def AdcEntriesOk (s : State) : Prop :=
  ∀ n, n ≤ s.fld rADC_CTL 15 12 → entOk s.adcLp (s.reg (rADC_ENT + 4 * n)) = true

/-- LAST names an entry of the sequence, never the injected one. -/
theorem entReg_sequence {n : Nat} (h : n ≤ s.fld rADC_CTL 15 12) : entReg n = rADC_ENT + 4 * n := by
  have : s.fld rADC_CTL 15 12 < 16 := Nat.mod_lt _ (by decide)
  exact if_neg (by omega)

theorem adcEntriesOk_iff :
    (List.range (s.fld rADC_CTL 15 12 + 1)).all (fun n => entOk s.adcLp (s.reg (entReg n))) = true ↔ AdcEntriesOk s := by
  rw [List.all_eq_true]
  refine forall_congr' fun n => ?_
  rw [List.mem_range, Nat.lt_succ_iff]
  exact forall_congr' fun hn => by rw [entReg_sequence hn]

theorem adcSoftStart_ignored (h : s.fld rADC_CTL 9 8 ≠ 0 ∨ s.adc.seq ≠ none) : adcSoftStart at_ s = adcEvent 8 s := by
  unfold adcSoftStart
  split
  case isTrue h0 =>
    have hs : s.adc.seq ≠ none := h.resolve_left (absurd h0)
    exact if_pos (Option.isSome_iff_ne_none.2 hs)
  case isFalse => rfl

theorem adcSoftStart_badEntry (h0 : s.fld rADC_CTL 9 8 = 0) (hs : s.adc.seq = none) (he : ¬ AdcEntriesOk s) :
    adcSoftStart at_ s = adcEvent 6 s := by
  have hbad := Bool.eq_false_iff.2 (adcEntriesOk_iff.not.2 he)
  unfold adcSoftStart adcBegin
  rw [if_pos h0, if_neg (by simp [hs]), if_pos (by rw [hbad]; rfl)]

/-- What earlier passes left, cleared: every entry counts afresh in its own register's range (R546, R548). -/
def adcCleared (s : State) : State :=
  { s with adc := { s.adc with
    ranges := (List.range 16).map (fun n => bits (s.reg (entReg n)) 19 18), quiets := List.replicate 16 0
    results := 0, stopAt := none, outside := s.adc.outside &&& 0x10000 } }

/-- The state with entry 0 under way from the slice boundary of a start at tick t, before the flags follow. -/
def adcStarted (t : Nat) (s : State) : State :=
  ((adcCleared s).setSeq (some (AdcRun.start s.adcLp (s.reg rADC_ENT) 0 (bits (s.reg rADC_ENT) 19 18) 0
    (adcBoundary s.adcLp t)))).setFld rADC_STAT 31 16 0

theorem entStart_cleared (s : State) (pos : Nat) : entStart (adcCleared s) 0 pos =
    AdcRun.start s.adcLp (s.reg rADC_ENT) 0 (bits (s.reg rADC_ENT) 19 18) 0 pos :=
  entStart_first rfl rfl rfl pos

theorem adcSoftStart_starts (h0 : s.fld rADC_CTL 9 8 = 0) (hs : s.adc.seq = none) (hj : s.adc.inj = none)
    (he : AdcEntriesOk s) : adcSoftStart at_ s = adcFlags (adcStarted at_ s) := by
  unfold adcSoftStart adcBegin
  rw [if_pos h0, if_neg (by simp [hs]), if_neg (by simp [adcEntriesOk_iff.2 he]), hj]
  dsimp only
  rw [Nat.max_zero, adcStarted, ← entStart_cleared]
  rfl

theorem adcStarted_reg_ne (t : Nat) (s : State) {k : Nat} (hk : k ≠ rADC_STAT) : (adcFlags (adcStarted t s)).reg k = s.reg k :=
  (adcFlags_reg_ne _ hk).trans (reg_setFld_ne _ _ _ _ _ hk)

/-! ### STOP (R565) -/

theorem adcStop_idle (hs : s.adc.seq = none) : adcStop at_ s = s := when_false (by simp [hs]) _ s

/-- A STOP whose slice boundary lies ahead keeps it; the flags alone follow. -/
theorem adcStop_ahead {r : AdcRun} (hs : s.adc.seq = some r) (ht : 100 * s.clk.tb < 39 * adcBoundary s.adcLp at_) :
    adcStop at_ s = adcFlags { s with adc := { s.adc with stopAt := some (adcBoundary s.adcLp at_) } } := by
  unfold adcStop
  rw [when_true (by simp [hs])]
  exact congrArg adcFlags (if_neg (Nat.not_le.2 ht))

/-! ### INJ (R566, R570) -/

theorem adcInject_refused (h : s.adc.inj ≠ none ∨ entOk s.adcLp (s.reg rADC_ENT_INJ) = false) :
    adcInject at_ s = adcEvent 7 s :=
  if_pos (by simpa [Option.isSome_iff_ne_none] using h)

/-- The state with the injected entry waiting for the slice boundary of a request at tick t, before the flags follow. -/
def adcInjected (t : Nat) (s : State) : State :=
  { s with adc := { s.adc with
    outside := s.adc.outside &&& 0xFFFF
    inj := some (AdcRun.start s.adcLp (s.reg rADC_ENT_INJ) 16 (bits (s.reg rADC_ENT_INJ) 19 18) 0 (adcBoundary s.adcLp t)) } }

theorem adcInject_starts (hj : s.adc.inj = none) (he : entOk s.adcLp (s.reg rADC_ENT_INJ) = true) :
    adcInject at_ s = adcFlags (adcInjected at_ s) :=
  if_neg (by simp [hj, he])

/-! ### A result (R540, R543, R556, R571) -/

theorem injTurn_none (hj : s.adc.inj = none) : injTurn s = false := by
  unfold injTurn
  rw [hj]

theorem runTail_unfinished {w : Word} {r : AdcRun} (h : r.made < bits w 12 0) (lp : Bool) (codes : List (BitVec 12)) (k : Nat) :
    runTail lp w codes k r = r := if_neg (Nat.not_le.2 h)

/-- A sample that completes a result of the sequence ends the conversion there. -/
theorem adcConvert_sequence {r r' : AdcRun} {x : AdcResult} {code : BitVec 12} (hs : s.adc.seq = some r) (hj : s.adc.inj = none)
    (hx : r.sample s.adcLp (s.reg (entReg r.entry)) code = (r', some x)) (hm : r'.made < bits (s.reg (entReg r.entry)) 12 0)
    (fuel : Nat) : adcConvert [code] (fuel + 1) 0 s = (some (false, r, r', x), s.setSeq (some r')) := by
  unfold adcConvert
  rw [injTurn_none hj, if_neg Bool.false_ne_true, hs]
  dsimp only
  rw [List.getD_cons_zero, hx]
  dsimp only
  rw [runTail_unfinished hm]

theorem adcResult_of_convert {codes : List (BitVec 12)} {inj : Bool} {r r' : AdcRun} {x : AdcResult} {t : State}
    (hc : adcConvert codes 512 0 s = (some (inj, r, r', x), t)) : adcResult codes s =
      if 39 * (x.last + 12) ≤ 100 * s.clk.tb then adcFlags (adcStopDue (adcAfter inj r r' x t)) else s := by
  unfold adcResult
  rw [hc]

/-- A due result of an entry that goes on, with no STOP pending and neither ring nor window: it fills its register, and the
run loses its marker. -/
theorem adcResult_due {codes : List (BitVec 12)} {r r' : AdcRun} {x : AdcResult}
    (hc : adcConvert codes 512 0 s = (some (false, r, r', x), s.setSeq (some r'))) (due : 39 * (x.last + 12) ≤ 100 * s.clk.tb)
    (hstop : s.adc.stopAt = none) (hd : s.rbit rADC_CTL 10 = false) (hw : s.rbit (entReg r.entry) 31 = false)
    (hm : r'.made < bits (s.reg (entReg r.entry)) 12 0) :
    (adcResult codes s).reg (resReg r.entry) = wd (fld 28 (s.fld (resReg r.entry) 31 28 + 1) + resultBits x x.gap) ∧
    (adcResult codes s).adc = { s.adc with results := s.adc.results + 1, seq := some { r' with marker := none } } := by
  have after := adcAfter_plain (s := s.setSeq (some r')) x _ hd hw hm rfl
  rw [adcResult_of_convert hc, if_pos due, after]
  obtain ⟨hadc, hreg⟩ := adcFlags_quiet (v := adcAfter false r r' x (s.setSeq (some r'))) (after ▸ hstop)
  rw [after] at hadc hreg
  exact ⟨(hreg _ (res_stat_ne _)).trans (reg_setReg_self ..), hadc⟩

/-! ### The correction (R553, R554; log entry 109) -/

theorem adcConverge_spec (s : State) : (adcConverge s).rbit rADC_STAT 4 = false ∧
    (adcConverge s).adc.convFrom = some s.clk.tb ∧ (∀ k, k ≠ rADC_STAT → (adcConverge s).reg k = s.reg k) ∧
    (s.rbit rADC_CAL 0 = true ∨ s.adcLp = true → (adcConverge s).adc.coeffs = s.adc.coeffs) := by
  obtain ⟨f, c, hc, hkeep⟩ := adcCorrector_spec s
  unfold adcConverge
  rw [hc]
  exact ⟨rbit_setRbit s rADC_STAT 4 false (by decide), rfl, fun k hk => reg_setRbit_ne s rADC_STAT 4 false hk, hkeep⟩

/-- The state with CONVERGED at 1 and its count over, before the coefficients change. -/
def adcSettled (s : State) : State := { s.setRbit rADC_STAT 4 true with adc := { s.adc with convFrom := none } }

theorem adcCorrector_settled (s : State) : (adcCorrector (adcSettled s)).rbit rADC_STAT 4 = true ∧
    (adcCorrector (adcSettled s)).adc.convFrom = none ∧
    (∀ k, k ≠ rADC_STAT → (adcCorrector (adcSettled s)).reg k = s.reg k) ∧
    (s.rbit rADC_CAL 0 = true ∨ s.adcLp = true → (adcCorrector (adcSettled s)).adc.coeffs = s.adc.coeffs) := by
  have other (k : Nat) (hk : k ≠ rADC_STAT) : (adcSettled s).reg k = s.reg k := reg_setRbit_ne s rADC_STAT 4 true hk
  obtain ⟨f, c, hc, hkeep⟩ := adcCorrector_spec (adcSettled s)
  rw [rbit_of_reg (other rADC_CAL (by decide)), rbit_of_reg (other rADC_CTL (by decide))] at hkeep
  rw [hc]
  exact ⟨rbit_setRbit s rADC_STAT 4 true (by decide), rfl, other, hkeep⟩

end

/-! ### The obligation -/

/-- Settles O49: each command takes what its law says at its tick of arrival; a due sample is one result, which no ring, window
or next entry follows. That the coefficients CONVERGED leaves are free values is the model's choice (log entry 109). -/
theorem acquisitionResults : Obligations.AcquisitionResults := by
  unfold Obligations.AcquisitionResults
  intro s u who via h at_ r code lp powered takes entriesOk w0 wi
  have rest {op : Nat} (ht : takes op) : ∃ ch, u = { s with chans := ch } := AdcTakes.chans ht
  have up : powered → s.adcUp = true := AdcPowered.up
  refine ⟨fun ht h0 hs hj he => ?start, fun ht hi => ?ignored, fun ht h0 hs he => ?badEntry, fun ht hs => ?idle,
    fun ht hs ha => ?stop, fun ht hj he => ?inject, fun ht hr => ?refused, fun rising hp => next_when (up hp) rfl,
    ?result, fun hp since hc ht => ?converged, fun ht hw => ⟨_, next_when ht (when_true hw _ s), adcConverge_spec s⟩⟩
  case start =>
    obtain ⟨ch, rfl⟩ := rest ht
    have hadc := adcFlags_adc (adcStarted at_ { s with chans := ch })
    obtain ⟨hrun, -⟩ := adcFlags_running (adcStarted at_ { s with chans := ch })
    exact ⟨_, AdcTakes.next ht (adcSoftStart_starts h0 hs hj he), congrArg Adc.seq hadc, hrun, (congrArg Adc.inj hadc).trans hj,
      congrArg Adc.stopAt hadc, fun _ => adcStarted_reg_ne _ _⟩
  case ignored =>
    obtain ⟨ch, rfl⟩ := rest ht
    exact AdcTakes.next ht (adcSoftStart_ignored hi)
  case badEntry =>
    obtain ⟨ch, rfl⟩ := rest ht
    exact AdcTakes.next ht (adcSoftStart_badEntry h0 hs he)
  case idle =>
    obtain ⟨ch, rfl⟩ := rest ht
    exact AdcTakes.next ht (adcStop_idle hs)
  case stop =>
    obtain ⟨ch, rfl⟩ := rest ht
    exact ⟨_, AdcTakes.next ht (adcStop_ahead hs ha), adcFlags_adc _, fun _ => adcFlags_reg_ne _⟩
  case inject =>
    obtain ⟨ch, rfl⟩ := rest ht
    have hadc := adcFlags_adc (adcInjected at_ { s with chans := ch })
    obtain ⟨-, hrun⟩ := adcFlags_running (adcInjected at_ { s with chans := ch })
    exact ⟨_, AdcTakes.next ht (adcInject_starts hj he), congrArg Adc.inj hadc, hrun, (congrArg Adc.seq hadc).trans rfl,
      fun _ => adcFlags_reg_ne _⟩
  case refused =>
    obtain ⟨ch, rfl⟩ := rest ht
    exact AdcTakes.next ht (adcInject_refused hr)
  case result =>
    intro hp hs hj hstop h1 h2 h3 h4 h5 h6 h7 h8 hd w w1 w31 wa hm
    obtain ⟨r', hx, hmade, -, -⟩ := sample_single lp w code h1 h2 h3 h4 h5 h6 h7 h8 w1 wa
    have counts : r'.made < bits w 12 0 := hmade ▸ hm
    have converts := adcConvert_sequence hs hj hx counts 511
    refine ⟨fun due => ?_, fun early =>
      next_when (up hp) ((adcResult_of_convert converts).trans (if_neg (Nat.not_le.2 early)))⟩
    obtain ⟨hreg, hadc⟩ := adcResult_due converts due hstop hd w31 counts
    exact ⟨_, next_when (up hp) rfl, hreg.trans (congrArg wd (by simp [resultBits, b2n, Nat.add_assoc])),
      (congrArg (·.seq.map AdcRun.made) hadc).trans (congrArg some hmade), congrArg Adc.results hadc⟩
  case converged =>
    exact ⟨_, next_when (by simp [up hp, hc, ht]) rfl, adcCorrector_settled s⟩

end Sys2Proof.Machine
end

section
/-! The laws of the LF words, of a run's ends, of its measurements and of a short (R612 to R625, R645), of the start of a
capacitive scan (R632), and the statement LfCapResults assembled from them. -/
namespace Sys2Proof.Machine

/-! ### A START or CARRIER word (R612, R613, R616, R617) -/

/-- The head word of CTRL has this OP, and no STOP of its tick waits behind it (R645). -/
def LfTakes (s : State) (h : ChWord) (rest : List ChWord) (op : Nat) : Prop :=
  s.timed = true ∧ (s.chan 0x64).q = h :: rest ∧ bits h.w 31 28 = op ∧ ∀ w ∈ rest, w.tick = h.tick → bits w.w 31 28 ≠ 2

theorem LfTakes.next {s : State} {h : ChWord} {rest : List ChWord} {op : Nat} (hw : LfTakes s h rest op) (h2 : op ≠ 2)
    (f : Word → Nat → State → State) :
    (.next (when s.timed (fun s => lfWord op f (lfStopNow s)) s) : Out) = .next (f h.w h.tick (cDrop 0x64 s)) := by
  obtain ⟨htimed, hq, ho, hstop⟩ := hw
  exact next_when htimed (lfTaken h2 hq ho hstop f)

/-- The channel, the count and the reserved bits of the word are in order, and no run is in its way (R617). -/
def LfInOrder (s : State) (w : Word) : Prop :=
  s.lf.run = none ∧ bits w 27 25 ≤ 5 ∧ bits w 24 16 = 0 ∧ bits w 15 0 ≠ 0 ∧
    s.rbit (rLF_CH + 4 * bits w 27 25) 31 = true ∧ s.fld (rLF_CH + 4 * bits w 27 25) 5 0 ≠ 0

/-- The run of a word taken at tick t, before its first chip. -/
def lfFresh (telegram : Bool) (w : Word) (t : Nat) (s : State) : LfRun :=
  { ch := bits w 27 25, n := bits w 15 0, telegram := telegram, t0 := t, freq := (s.reg rLF_FREQ).toNat
    chip := s.fld rLF_CFG 13 8, mw := s.fld rLF_CFG 6 4, skip := s.fld rLF_CFG 3 0, next := 0, word := 0
    eom := !telegram, onSince := none, offAt := none, winFrom := 0, stopping := false, ended := none }

/-- LF_STAT as a run begins on a channel: CHIPS 0, BUSY 1. -/
def lfBusy (ch : Nat) (s : State) : State := ((s.setFld rLF_STAT 31 16 0).setRbit rLF_STAT 4 true).setFld rLF_STAT 2 0 ch

section
variable {s : State} {w : Word} {t : Nat} {telegram : Bool}

/-- A chip whose tick has come begins, of a run that neither ends nor stops before it. -/
theorem lfDue_chip {r : LfRun} (hr : s.lf.run = some r) (he : r.ended = none) (ht : r.chipTick r.next ≤ s.clk.tb)
    (hn : r.next < r.n) (hs : r.stopping = false) : lfDue s = lfChip r s := by
  unfold lfDue
  rw [hr]
  dsimp only
  rw [if_neg (by simp [he, ht]), if_neg (Nat.not_le.2 hn), if_neg (by simp [hs])]

/-- A word in order begins its first chip in the step that takes it. -/
theorem lfBegin_chips (ho : LfInOrder s w) (hd : s.lf.discard = false) (ht : t ≤ s.clk.tb) : lfBegin telegram w t s =
    lfChip (lfFresh telegram w t s) ((lfBusy (bits w 27 25) s).setLf (some (lfFresh telegram w t s))) := by
  have hfirst : (lfFresh telegram w t s).chipTick 0 ≤ s.clk.tb := by rw [chipTick_zero]; exact ht
  have hdiscard : ((lfBusy (bits w 27 25) s).setLf (some (lfFresh telegram w t s))).lf.discard = false := hd
  rw [lfBegin_ok ho]
  obtain ⟨-, -, -, hn, -, -⟩ := ho
  exact (congrArg lfDue (lfDiscard_off hdiscard 4)).trans (lfDue_chip rfl rfl hfirst (Nat.pos_of_ne_zero hn) rfl)

/-- The first chip of a carrier, which takes no DIN word. -/
theorem lfChip_carrier {r : LfRun} (ht : r.telegram = false) (hn : r.next = 0) (ho : r.onSince = none) (s : State) :
    lfChip r s = s.setLf (some { r with next := 1, onSince := some r.t0, winFrom := r.skip }) := by
  simp [lfChip, ht, hn, ho, chipTick_zero]

/-- A START in order: the first DIN word is taken, and its bit 0 says whether the carrier is on from the start's tick. -/
theorem lfBegin_telegram {d : ChWord} {ds : List ChWord} (ho : LfInOrder s w) (hd : s.lf.discard = false)
    (ht : t ≤ s.clk.tb) (hq : (s.chan 0x62).q = d :: ds) :
    (lfBegin true w t s).regs = (lfBusy (bits w 27 25) s).regs ∧
    (lfBegin true w t s).lf.run = some { lfFresh true w t s with
      next := 1, word := d.w, eom := d.eom, onSince := if bit d.w 0 then some t else none
      winFrom := if bit d.w 0 then s.fld rLF_CFG 3 0 else 0 } := by
  have hdin : (((lfBusy (bits w 27 25) s).setLf (some (lfFresh true w t s))).chan 0x62).q = d :: ds := hq
  rw [lfBegin_chips ho hd ht, lfChip_first rfl rfl rfl hdin]
  obtain ⟨f, hf⟩ := lfAttempt_form (lfFresh true w t s) d.w _
  rw [hf]
  exact ⟨rfl, rfl⟩

/-- A CARRIER in order: the carrier is on from its tick. -/
theorem lfBegin_carrier (ho : LfInOrder s w) (hd : s.lf.discard = false) (ht : t ≤ s.clk.tb) :
    (lfBegin false w t s).regs = (lfBusy (bits w 27 25) s).regs ∧
    (lfBegin false w t s).lf.run = some { lfFresh false w t s with
      next := 1, onSince := some t, winFrom := s.fld rLF_CFG 3 0 } := by
  rw [lfBegin_chips ho hd ht, lfChip_carrier rfl rfl rfl]
  exact ⟨rfl, rfl⟩

end

theorem cDrop_regs (k : Nat) (s : State) : (cDrop k s).regs = s.regs := rfl

theorem cDrop_lf (k : Nat) (s : State) : (cDrop k s).lf = s.lf := rfl

/-- BUSY with no chip sent, and no other register changed, when the word taken from CTRL begins a run. -/
theorem busy_of_regs {s t : State} {ch : Nat} (h : t.regs = (lfBusy ch (cDrop 0x64 s)).regs) :
    t.fld rLF_STAT 31 16 = 0 ∧ t.rbit rLF_STAT 4 = true ∧ ∀ k, k ≠ rLF_STAT → t.reg k = s.reg k := by
  obtain ⟨hchips, hbusy, hother⟩ := busy_regs ch (cDrop 0x64 s)
  exact ⟨(fld_of_regs h ..).trans hchips, (rbit_of_regs h ..).trans hbusy,
    fun k hk => ((reg_of_regs h k).trans (hother k hk)).trans (reg_of_regs (cDrop_regs 0x64 s) k)⟩

/-- A refused word changes only LF_EVT and what its port and STAT hold. -/
theorem lfRefuse_cDrop (ch : Nat) (s : State) : (lfRefuse ch (cDrop 0x64 s)).rbit rLF_EVT 11 = true ∧
    (lfRefuse ch (cDrop 0x64 s)).lf = s.lf ∧ ∀ k, k ≠ rLF_EVT → (lfRefuse ch (cDrop 0x64 s)).reg k = s.reg k := by
  obtain ⟨hevent, hlf, hother⟩ := lfRefuse_spec ch (cDrop 0x64 s)
  exact ⟨hevent, hlf.trans (cDrop_lf ..), fun k hk => (hother k hk).trans (reg_of_regs (cDrop_regs 0x64 s) k)⟩

/-! ### How a run ends (R614, R615, R618, R619, R645) -/

/-- A run is over after so many chips: LF_STAT holds them with BUSY 0, and LF_EVT.DONE is set (R618). -/
def LfOver (chips : Nat) (t : State) : Prop :=
  t.lf.run = none ∧ t.fld rLF_STAT 31 16 = chips % 65536 ∧ t.rbit rLF_STAT 4 = false ∧ t.rbit rLF_EVT 8 = true

theorem lfEnd_over (chips status : Nat) (r : LfRun) (s : State) : LfOver chips (lfEnd chips status r s) := by
  obtain ⟨hrun, hchips, hbusy, hdone, -⟩ := lfEnd_spec chips status r s
  exact ⟨hrun, hchips, hbusy, hdone⟩

theorem lfEnd_underrun (chips : Nat) (r : LfRun) (s : State) : (lfEnd chips 3 r s).rbit rLF_EVT 9 = true := by
  obtain ⟨-, -, -, -, hunderrun, -⟩ := lfEnd_spec chips 3 r s
  exact hunderrun rfl

theorem lfEnd_maxon (chips : Nat) (r : LfRun) (s : State) : (lfEnd chips 6 r s).rbit rLF_EVT 10 = true := by
  obtain ⟨-, -, -, -, -, hmaxon, -⟩ := lfEnd_spec chips 6 r s
  exact hmaxon rfl

theorem lfEnd_reg_ne (chips status : Nat) (r : LfRun) (s : State) {k : Nat} (hs : k ≠ rLF_STAT) (he : k ≠ rLF_EVT) :
    (lfEnd chips status r s).reg k = s.reg k := by
  obtain ⟨-, -, -, -, -, -, hother⟩ := lfEnd_spec chips status r s
  exact hother k hs he

section
variable {s : State} {r : LfRun}

theorem lfStop_runs (hr : s.lf.run = some r) (status : Nat) : lfStop status s = lfEnd (r.done s.clk.tb) status r s := by
  unfold lfStop
  rw [hr]
  rfl

theorem lfStopNow_word {h : ChWord} (hw : lfStopWord s = some h) : lfStopNow s = lfStop 2 (cTakeOut 0x64 h s) := by
  unfold lfStopNow
  rw [hw]
  rfl

/-- A command that changes the run in hand, in a state that has one. -/
theorem next_run {f : LfRun → State → State} {t : State} (ht : s.timed = true) (hr : s.lf.run = some r) (hf : f r s = t) :
    (.next (when s.timed (fun s => withSome s.lf.run f s) s) : Out) = .next t :=
  next_when ht (by rw [hr]; exact hf)

/-- MAXON finds the carrier on for too long. -/
theorem lfMaxAt_due {since : Nat} (ho : r.onSince = some since) (hd : since + msTicks (s.fld rLF_CFG 25 16) ≤ s.clk.tb) :
    (lfMaxAt s r).any (fun t => t ≤ s.clk.tb) = true := by
  unfold lfMaxAt
  rw [ho]
  exact decide_eq_true hd

theorem exec_underrun (ht : s.timed = true) (hr : s.lf.run = some r) (he : r.ended = some 3) :
    exec .underrun s = .next (lfEnd r.next 3 r s) :=
  next_run ht hr (when_true (decide_eq_true he) _ s)

theorem exec_maxon (ht : s.timed = true) (hr : s.lf.run = some r) (he : r.ended = none)
    (hm : (lfMaxAt s r).any (fun t => t ≤ s.clk.tb) = true) : exec .maxon s = .next (lfEnd (r.done s.clk.tb) 6 r s) :=
  next_run ht hr (when_true (by simp [he, hm]) _ s)

/-- The last chip's end, with the carrier off: MAXON does not come first. -/
theorem exec_telegramEnd_last (ht : s.timed = true) (hr : s.lf.run = some r) (he : r.ended = some 1) (ho : r.onSince = none) :
    exec .telegramEnd s = .next (lfEnd r.n 1 r s) :=
  next_run ht hr (by simp [he, lfMaxAt, ho])

theorem exec_telegramEnd_cancelled (ht : s.timed = true) (hr : s.lf.run = some r) (he : r.ended = some 2) :
    exec .telegramEnd s = .next (lfEnd r.next 2 r s) :=
  next_run ht hr (by simp [he])

/-! ### The end of a measurement window (R622) -/

theorem exec_measurementWindow_none (ht : s.timed = true) (hr : s.lf.run = some r) (hw : lfWindowEnds r s = false)
    (amp : BitVec 11) (phase : BitVec 8) : exec (.measurementWindow amp phase) s = .next s :=
  next_run ht hr (when_false hw _ s)

theorem exec_measurementWindow_ends (ht : s.timed = true) (hr : s.lf.run = some r) (hw : lfWindowEnds r s = true)
    (amp : BitVec 11) (phase : BitVec 8) : exec (.measurementWindow amp phase) s =
      .next (lfTune r.ch phase.toInt (lfDiagnose r.ch amp.toNat phase.toInt
        ((s.setReg (rLF_MEAS + 4 * r.ch)
          (wd (fld 28 (s.fld (rLF_MEAS + 4 * r.ch) 31 28 + 1) + fld 16 phase.toNat + amp.toNat))).setLf
            (some { r with winFrom := r.winFrom + 2 ^ r.mw })))) :=
  next_run ht hr (when_true hw _ s)

end

/-! ### A short (R625) -/

/-- The channel's EN cleared and its SHORT told, before a run on it ends. -/
def lfShorted (c : Nat) (s : State) : State := lfDiag c 3 (s.setRbit (lfCh c) 31 false)

/-- The run on a shorted channel ends; any other goes on. -/
def lfShortEnd (c : Nat) (s : State) : State :=
  withSome s.lf.run (fun r s => when (r.ch = c) (lfEnd (r.done s.clk.tb) 4 r) s) s

section
variable {c : Nat} (hc : c < 6)
include hc

theorem lfShorted_spec (s : State) : (lfShorted c s).rbit (rLF_CH + 4 * c) 31 = false ∧
    (lfShorted c s).rbit (rLF_DIAG + 4 * c) 3 = true ∧ (lfShorted c s).lf = s.lf ∧ (lfShorted c s).clk = s.clk := by
  obtain ⟨hdiag, hlf, hclk, hch⟩ := lfDiag_spec (b := 3) hc (by omega) (s.setRbit (lfCh c) 31 false) (by decide)
  exact ⟨(rbit_of_reg (hch c hc) 31).trans (rbit_setRbit _ _ _ _ (by decide)), hdiag, hlf, hclk⟩

/-- The channels' own registers are neither LF_STAT nor LF_EVT, the two that a run's end writes. -/
theorem lfShortEnd_reg (s : State) : (lfShortEnd c s).reg (rLF_CH + 4 * c) = s.reg (rLF_CH + 4 * c) ∧
    (lfShortEnd c s).reg (rLF_DIAG + 4 * c) = s.reg (rLF_DIAG + 4 * c) := by
  unfold lfShortEnd
  cases s.lf.run with
  | none => exact ⟨rfl, rfl⟩
  | some r =>
    dsimp only [withSome]
    unfold when
    split
    · refine ⟨lfEnd_reg_ne _ _ _ _ ?_ ?_, lfEnd_reg_ne _ _ _ _ ?_ ?_⟩ <;>
        simp only [rLF_CH, rLF_DIAG, rLF_STAT, rLF_EVT] <;> omega
    · exact ⟨rfl, rfl⟩

end

theorem lfShortEnd_idle {c : Nat} {s : State} (hr : s.lf.run = none) : lfShortEnd c s = s := by
  unfold lfShortEnd
  rw [hr]
  rfl

theorem lfShortEnd_over {c : Nat} {s : State} {r : LfRun} (hr : s.lf.run = some r) (hc : r.ch = c) :
    LfOver (r.done s.clk.tb) (lfShortEnd c s) := by
  unfold lfShortEnd
  rw [hr]
  dsimp only [withSome]
  rw [when_true (decide_eq_true hc)]
  exact lfEnd_over ..

/-! ### The start of a capacitive scan (R632) -/

/-- What a scan's start leaves: each enabled channel's turn ahead, and the count of scans advanced (log entry 18). -/
theorem capScan_spec (raw : List (BitVec 16)) (s : State) :
    let chs := (List.finRange 8).filter (fun n => s.rbit (rCAP_CH + 4 * n.val) 31)
    (capScan raw s).cap = { s.cap with
      lastScan := some s.clk.rtc
      scan := if chs = [] then none else some ⟨chs, raw, s.clk.rtc + 2, s.carrierOn⟩ } ∧
    (capScan raw s).fld rCAP_STAT 31 16 = (s.fld rCAP_STAT 31 16 + 1) % 65536 ∧
    ∀ k, k ≠ rCAP_STAT → (capScan raw s).reg k = s.reg k := by
  refine ⟨?_, ?_, fun k hk => ?_⟩
  · simp only [capScan, List.isEmpty_iff]
    rfl
  · unfold capScan
    dsimp only
    rw [State.fld, State.setFld, reg_setReg_self, bits_setBits_ne _ _ _ _ _ _ (by decide) (by decide)]
    exact fld_setFld _ _ _ _ _ (by decide)
  · exact (reg_setFld_ne _ _ _ _ _ hk).trans (reg_setFld_ne _ _ _ _ _ hk)

/-! ### The obligation -/

/-- Settles O50: a word of CTRL begins its run or is refused, each cause ends the run through `lfEnd`, a window and a short
write their channel's registers, and a scan starts at a PERIOD boundary alone. How a scan is recorded, with its hits and
carriers, is the model's choice (log entry 18). -/
theorem lfCapResults : Obligations.LfCapResults := by
  unfold Obligations.LfCapResults
  intro s h d rest ds r amp phase low high ch n next word inOrder started busy ends
  have start (hw : word 1) : exec .fieldStart s = .next (lfBegin true h.w h.tick next) :=
    LfTakes.next hw (by decide) _
  have carrier (hw : word 3) : exec .carrier s = .next (lfBegin false h.w h.tick next) :=
    LfTakes.next hw (by decide) _
  refine ⟨fun hw ho hd hq ht => ?starts, fun hw ho hd ht => ?carries, fun hn => ?refused, lfRefuse_cDrop ch s,
    fun ht hs => ?stop, fun ht hr => ?running, fun c ht => ?short, fun hc => ?scan⟩
  case starts =>
    have hdin : (next.chan 0x62).q = d :: ds := by rw [cDrop_chan_ne (by decide)]; exact hq
    obtain ⟨hregs, hrun⟩ := lfBegin_telegram (s := next) ho hd ht hdin
    exact ⟨_, start hw, busy_of_regs hregs, hrun⟩
  case carries =>
    obtain ⟨hregs, hrun⟩ := lfBegin_carrier (s := next) ho hd ht
    exact ⟨_, carrier hw, busy_of_regs hregs, hrun⟩
  case refused =>
    have bad (telegram : Bool) : lfBegin telegram h.w h.tick next = lfRefuse ch next := lfBegin_bad (s := next) hn
    exact ⟨fun hw => (start hw).trans (congrArg _ (bad true)), fun hw => (carrier hw).trans (congrArg _ (bad false))⟩
  case stop =>
    have now := lfStopNow_word hs
    exact ⟨fun hr => next_when ht (now.trans (lfOff_idle (s := cTakeOut 0x64 h s) hr)),
      fun hr => ⟨_, next_when ht (now.trans (lfStop_runs (s := cTakeOut 0x64 h s) hr 2)), lfEnd_over ..⟩⟩
  case running =>
    refine ⟨fun he => ⟨_, exec_underrun ht hr he, lfEnd_over .., lfEnd_underrun ..⟩,
      fun since he ho hd => ⟨_, exec_maxon ht hr he (lfMaxAt_due ho hd), lfEnd_over .., lfEnd_maxon ..⟩,
      fun he ho => ⟨_, exec_telegramEnd_last ht hr he ho, lfEnd_over ..⟩,
      fun he => ⟨_, exec_telegramEnd_cancelled ht hr he, lfEnd_over ..⟩,
      fun hw hch => ⟨_, exec_measurementWindow_ends ht hr hw amp phase, lfMeas_spec hch ..⟩,
      fun hw => exec_measurementWindow_none ht hr hw amp phase⟩
  case short =>
    obtain ⟨hen, hdiag, hlf, hclk⟩ := lfShorted_spec c.isLt s
    obtain ⟨hch, hdi⟩ := lfShortEnd_reg c.isLt (lfShorted c.val s)
    refine ⟨lfShortEnd c.val (lfShorted c.val s), next_when ht rfl, (rbit_of_reg hch 31).trans hen,
      (rbit_of_reg hdi 3).trans hdiag, fun hr hrc => ?_, fun hr => ?_⟩
    · have ended := lfShortEnd_over (s := lfShorted c.val s) (by rw [hlf, hr]) hrc
      rwa [hclk] at ended
    · rw [lfShortEnd_idle (by rw [hlf, hr]), hlf]
  case scan =>
    refine ⟨fun hp hl => ⟨_, next_when (by simp [hc, hp, hl]) rfl, capScan_spec ..⟩, fun hp => ?_⟩
    exact congrArg Host.Outcome.next (when_false (by simp [hp]) _ s)

end Sys2Proof.Machine
end

section
/-! The laws of a UHF frame (R665, R692; log entry 114), of the loaded sets (R713 to R715), of the ranging CTRL words (R717,
R743, R745) and of a run's result (R739, R740), and the statement ReceiverAndRangingResults assembled from them. -/
namespace Sys2Proof.Machine

/-! ### A UHF frame (R665, R692) -/

/-- A channel receives a frame: the receiver is locked, the channel enabled and not in the midst of another frame, and the
sync word matches. -/
def uhfHears (ch : Fin 4) (sync : BitVec 24) (s : State) : Bool :=
  s.timed && uhfLocked s && s.rbit rUHF_CFG ch.val && uhfSynced s sync &&
    !s.uhf.rx.any (fun f => f.ch == ch.val && s.clk.tb < f.endAt)

theorem exec_uhfFrame (ch : Fin 4) (sync : BitVec 24) (frame : Bytes) (power : BitVec 8) (fine : BitVec 10) (s : State) :
    exec (.uhfFrame ch sync frame power fine) s = .next (if uhfHears ch sync s then
      { s with uhf := { s.uhf with
        rx := s.uhf.rx ++ [⟨ch.val, frame, s.clk.tb + frame.length * uhfByte, power, fine.toNat⟩] } } else s) := by
  refine congrArg Host.Outcome.next ?_
  cases ready : s.timed && uhfLocked s && s.rbit rUHF_CFG ch.val with
  | false => simp only [when, uhfHears, ready, Bool.false_and, Bool.false_eq_true, if_false]
  | true => simp only [when, uhfHears, uhfFrame, ready, Bool.true_and, if_true]

/-! ### Loaded sets (R713 to R715) -/

/-- The message of a LOAD has left its buffer. -/
def loadTaken (s : State) : State := { s with range := { s.range with load := [], loadEom := false } }

section
variable {s : State} (complete : s.range.loadEom = true)
include complete

theorem takeLoad_rbe (hlen : s.range.load.length = 8) (hk : bits (s.range.load.getD 0 0) 31 28 = 1) :
    takeLoad 1 s = loadRbe (bits (s.range.load.getD 0 0) 2 0) (s.range.load.getD 1 0).toNat
      (slice (bytesOf s.range.load) 8 8) (slice (bytesOf s.range.load) 16 8) (slice (bytesOf s.range.load) 24 8)
      (loadTaken s) := by
  unfold takeLoad
  simp only [drainLoad_done complete, complete, hlen, hk]
  rfl

theorem takeLoad_sts (hlen : s.range.load.length = 8) (hk : bits (s.range.load.getD 0 0) 31 28 = 2) :
    takeLoad 2 s = loadSts (bits (s.range.load.getD 0 0) 2 0)
      (slice (bytesOf s.range.load) 4 16) (slice (bytesOf s.range.load) 20 12) (loadTaken s) := by
  unfold takeLoad
  simp only [drainLoad_done complete, complete, hlen, hk]
  rfl

theorem takeLoad_discards (bad : s.range.load.length ≠ 8 ∨
    (bits (s.range.load.getD 0 0) 31 28 ≠ 1 ∧ bits (s.range.load.getD 0 0) 31 28 ≠ 2)) (kind : Nat) :
    takeLoad kind s = loadTaken s := by
  have hbad : (s.range.load.length != 8 ||
      !(bits (s.range.load.getD 0 0) 31 28 = 1 || bits (s.range.load.getD 0 0) 31 28 = 2 : Bool)) = true := by simpa using bad
  unfold takeLoad
  simp only [drainLoad_done complete, complete, hbad]
  rfl

end

/-! ### CTRL words (R717, R743, R745) -/

/-- The hardware finds a word with this OP at the head of CTRL. -/
def RangeTakes (s : State) (h : ChWord) (op : Nat) : Prop := s.timed = true ∧ s.ctrlHead 0x74 op = some h

/-- A run of this kind begins at tick t on the port of RANGE_CFG, whatever INIT frame it sends. -/
def RangeStarts (s : State) (k : RangeKind) (p n t : Nat) (u : State) : Prop :=
  ∃ init, u.range.run = some ⟨k, p, n, t, s.fld rRANGE_CFG 0 0, none, init⟩

/-- RANGE_RESULT holds a result without PASS, whose events are set (R739, R740). -/
def RangeFailed (cause method p n : Nat) (t : State) : Prop :=
  t.fld rRANGE_RESULT 11 8 = cause ∧ t.fld rRANGE_RESULT 6 4 = method ∧ t.fld rRANGE_RESULT 3 3 = p ∧
    t.fld rRANGE_RESULT 2 0 = n ∧ t.rbit rRANGE_RESULT 7 = false ∧ t.rbit rUWB_EVT 0 = true ∧ t.rbit rUWB_EVT 1 = true

section
variable {s : State} {h : ChWord} {op : Nat} (hw : RangeTakes s h op) (f : Word → Nat → State → State)
include hw

theorem RangeTakes.next_idle (hr : s.range.run = none) :
    (.next (when s.timed (rangeCtrl op f) s) : Out) = .next (f h.w h.tick (cDrop 0x74 s)) := by
  obtain ⟨htimed, hhead⟩ := hw
  refine next_when htimed ((rangeCtrl_run hhead f).trans (if_neg ?_))
  simp [hr]

/-- A word that meets a run is refused. -/
theorem RangeTakes.next_refused {r : RangeRun} (hr : s.range.run = some r) :
    (.next (when s.timed (rangeCtrl op f) s) : Out) = .next (uwbEvent 2 (cDrop 0x74 s)) := by
  obtain ⟨htimed, hhead⟩ := hw
  refine next_when htimed ((rangeCtrl_run hhead f).trans (if_pos ?_))
  simp [hr]

end

section
variable {s : State} (w : Word) (t : Nat)

/-- An RBE with the set of its session uses the set up. -/
theorem rangeRbe_starts {x : RbeSet} (hx : s.range.rbe = some x) (hn : x.session = bits w 2 0) :
    (rangeRbe w t s).regs = s.regs ∧ RangeStarts s (.rbe x) (bits w 3 3) (bits w 2 0) t (rangeRbe w t s) ∧
      (rangeRbe w t s).range.rbe = none ∧ (rangeRbe w t s).range.sts = s.range.sts := by
  obtain ⟨hregs, init, hrange⟩ := rangeStart_spec (.rbe x) (bits w 3 3) (bits w 2 0) t
    (s.onRange (fun r => { r with rbe := none }))
  unfold rangeRbe RangeStarts
  simp only [hx, if_pos hn, hregs, hrange]
  exact ⟨rfl, ⟨init, rfl⟩, rfl, rfl⟩

theorem rangeRbe_notLoaded (hx : ∀ z, s.range.rbe = some z → z.session ≠ bits w 2 0) :
    rangeRbe w t s = notLoaded 1 (bits w 3 3) (bits w 2 0) s := by
  unfold rangeRbe
  cases hset : s.range.rbe with
  | none => rfl
  | some z => exact if_neg (hx z hset)

/-- A ROUND with the set of its session uses the set up. -/
theorem rangeRound_starts {y : StsSet} (hy : s.range.sts = some y) (hn : y.session = bits w 2 0) :
    (rangeRound w t s).regs = s.regs ∧ RangeStarts s (.round y) (bits w 3 3) (bits w 2 0) t (rangeRound w t s) ∧
      (rangeRound w t s).range.sts = none ∧ (rangeRound w t s).range.rbe = s.range.rbe := by
  obtain ⟨hregs, init, hrange⟩ := rangeStart0_spec (.round y) (bits w 3 3) (bits w 2 0) t
    (s.onRange (fun r => { r with sts := none }))
  unfold rangeRound RangeStarts
  simp only [hy, if_pos hn, hregs, hrange]
  exact ⟨rfl, ⟨init, rfl⟩, rfl, rfl⟩

theorem rangeRound_notLoaded (hy : ∀ z, s.range.sts = some z → z.session ≠ bits w 2 0) :
    rangeRound w t s = notLoaded 2 (bits w 3 3) (bits w 2 0) s := by
  unfold rangeRound
  cases hset : s.range.sts with
  | none => rfl
  | some z => exact if_neg (hy z hset)

/-- A CAL takes the RBE set whatever its session, and uses it up. -/
theorem rangeCal_starts {x : RbeSet} (hm : s.sys.mode = .factory ∨ s.sys.mode = .service) (hx : s.range.rbe = some x) :
    (rangeCal w t s).regs = s.regs ∧ RangeStarts s (.cal x) 0 x.session t (rangeCal w t s) ∧
      (rangeCal w t s).range.rbe = none := by
  obtain ⟨hregs, init, hrange⟩ := rangeStart_spec (.cal x) 0 x.session t (s.onRange (fun r => { r with rbe := none }))
  unfold rangeCal RangeStarts
  rw [if_neg (by simpa [or_iff_not_imp_left] using hm)]
  simp only [hx, hregs, hrange]
  exact ⟨rfl, ⟨init, rfl⟩, rfl⟩

/-- R728. -/
theorem rangeCal_refused (hf : s.sys.mode ≠ .factory) (hs : s.sys.mode ≠ .service) :
    rangeCal w t s = rangeReport [] (rangeWord 0 0xF 7 5 0 0) s :=
  if_pos (by simp [hf, hs])

end

/-- A report without distances and without a zone, whose cause is not 0, is a failed result. -/
theorem rangeReport_failed {b cause m p n : Nat} (hc : cause < 16) (h0 : cause ≠ 0) (hm : m < 8) (hp : p < 2) (hn : n < 8)
    (s : State) : RangeFailed cause m p n (rangeReport [] (rangeWord b 0xF cause m p n) s) ∧
      (rangeReport [] (rangeWord b 0xF cause m p n) s).range = s.range :=
  rangeResult_fields [] (by decide) hc h0 hm hp hn s

theorem notLoaded_form (k p n : Nat) (s : State) :
    ∃ b u, u.range = s.range ∧ notLoaded k p n s = rangeReport [] (rangeWord b 0xF 8 k p n) u := by
  unfold notLoaded
  by_cases hk : k = 5
  · rw [if_pos hk]
    exact ⟨0, s, rfl, rfl⟩
  · rw [if_neg hk]
    exact ⟨_, (freshBound s).2, rfl, rfl⟩

theorem notLoaded_failed {k p n : Nat} (hk : k < 8) (hp : p < 2) (hn : n < 8) (s : State) :
    RangeFailed 8 k p n (notLoaded k p n s) ∧ (notLoaded k p n s).range = s.range := by
  obtain ⟨b, u, hu, hform⟩ := notLoaded_form k p n s
  rw [hform, ← hu]
  exact rangeReport_failed (by decide) (by decide) hk hp hn u

/-- STOP clears both sets and marks the run that goes on with the tick at which it ends (R715, R745). -/
theorem rangeStop_eq (s : State) : rangeStop s = { s with range := { s.range with
    rbe := none, sts := none, run := s.range.run.map (fun q => { q with aborted := q.aborted.or (stopTick s q) }) } } := by
  cases hr : s.range.run with
  | none =>
    simp only [rangeStop, clearSets, hr, withSome, Option.map_none]
  | some q =>
    simp only [rangeStop, clearSets, hr, withSome, Option.map_some]
    rfl

/-! ### Results (R739, R740) -/

/-- The run is over. -/
def runEnded (s : State) : State := { s with range := { s.range with run := none } }

section
variable {s : State} {r : RangeRun} {meas : RangeMeas}

theorem exec_rangeResult_idle (ht : s.timed = true) (hr : s.range.run = none) : exec (.rangeResult meas) s = .next s := by
  have hresult : rangeResult meas s = s := by
    unfold rangeResult
    rw [hr]
  exact next_when ht (by simp [hresult, hr, anchPolls, when])

theorem rangeResult_aborted {a : Nat} (hr : s.range.run = some r) (ha : r.aborted = some a)
    (due : roundStop s r meas a ≤ s.clk.tb) : rangeResult meas s = rangeAbort r (runEnded s) := by
  unfold rangeResult
  rw [hr]
  dsimp only
  rw [ha]
  exact if_pos due

/-- With no acknowledge, whether the radio is on or off, an exchange ends with cause 1. -/
theorem rangeResult_unanswered {x : RbeSet} {reps : List (Option RbeReply)} {sats : List (Option (BitVec 32))}
    (hr : s.range.run = some r) (ha : r.aborted = none) (hk : r.kind = .rbe x)
    (due : rangeDue s r (.burst none reps sats) ≤ s.clk.tb) :
    rangeResult (.burst none reps sats) s = endCause r 1 [] (runEnded s) := by
  unfold rangeResult judgeRun
  rw [hr]
  dsimp only
  rw [ha, hk]
  dsimp only
  rw [if_pos due, ite_self]
  rfl

theorem endCause_failed {cause : Nat} (hc : cause < 16) (h0 : cause ≠ 0) (hn : r.session < 8) (hp : r.purpose < 2) (s : State) :
    RangeFailed cause r.kind.method r.purpose r.session (endCause r cause [] s) ∧ (endCause r cause [] s).range = s.range :=
  rangeReport_failed hc h0 (method_lt _) hp hn (freshBound s).2

theorem rangeAbort_failed (hn : r.session < 8) (hp : r.purpose < 2) (s : State) :
    RangeFailed 9 r.kind.method r.purpose r.session (rangeAbort r s) ∧ (rangeAbort r s).range = s.range := by
  obtain ⟨b, u, hu, habort⟩ := rangeAbort_form r s
  rw [habort, ← hu]
  exact rangeReport_failed (by decide) (by decide) (method_lt _) hp hn u

/-- A failed result that ends the run in hand stands after the step. -/
theorem exec_rangeResult_failed {u : State} {cause m p n : Nat} (ht : s.timed = true) (hr : s.range.run = some r)
    (hu : rangeResult meas s = u) (hf : RangeFailed cause m p n u ∧ u.range = { s.range with run := none }) :
    ∃ t, exec (.rangeResult meas) s = .next t ∧ t.range = { s.range with run := none } ∧ RangeFailed cause m p n t :=
  execRangeResult_fields ht hr hu hf.2 hf.1

end

/-! ### The obligation -/

/-- Settles O51: a frame is heard or nothing changes, a complete LOAD becomes its set or is discarded, a CTRL word starts its
run, fails or meets a run, and a run that is aborted or has no acknowledge ends with its cause. How a frame is told to the
device, that a LOAD of another length or kind is discarded, and that a CAL in the wrong mode ends with cause 7 whatever is
loaded are the model's choices (log entries 114, 16 and 77). -/
theorem receiverAndRangingResults : Obligations.ReceiverAndRangingResults := by
  unfold Obligations.ReceiverAndRangingResults
  intro s ch sync frame power fine h x y r meas ws w0 bs purpose session free word port starts result hears
  obtain ⟨hsession, hpurpose⟩ := session_lt h.w
  refine ⟨exec_uhfFrame .., fun ht he => ⟨fun hl hk => ?loadsRbe, fun hl hk => ?loadsSts, fun bad => ?discards⟩,
    fun ht hx hd hs => ?expires, fun idle => ?idle, fun busy => ?busy, fun hw => ?stop, exec_rangeResult_idle,
    fun ht hr => ⟨fun a ha due hn hp => ?aborted, fun reps sats ha hk hm due hn hp => ?unanswered⟩⟩
  case loadsRbe =>
    exact ⟨_, next_when ht (takeLoad_rbe he hl hk), clearPass_spec _⟩
  case loadsSts =>
    exact ⟨_, next_when ht (takeLoad_sts he hl hk), clearPass_spec _⟩
  case discards =>
    exact ⟨next_when ht (takeLoad_discards he bad 1), next_when ht (takeLoad_discards he bad 2)⟩
  case expires =>
    obtain ⟨hrange, hevent, hregs⟩ := uwbEvent_spec (b := 3) (by decide) { s with range := { s.range with rbe := none } }
    exact ⟨_, loadExpired_rbe ht hx hd hs, hrange, hevent, hregs⟩
  case idle =>
    have next {op : Nat} (hw : word op) (f : Word → Nat → State → State) := RangeTakes.next_idle hw f idle
    refine ⟨fun hw hx hn => ?_, fun hw hy hn => ?_, fun hw => ⟨_, next hw _, rfl, ⟨_, rfl⟩, rfl, rfl⟩, fun hw hm hx => ?_,
      fun hw hx => ?_, fun hw hy => ?_, fun hw hf hs => ?_⟩
    · exact ⟨_, next hw _, rangeRbe_starts (s := free) h.w h.tick hx hn⟩
    · exact ⟨_, next hw _, rangeRound_starts (s := free) h.w h.tick hy hn⟩
    · exact ⟨_, next hw _, rangeCal_starts (s := free) h.w h.tick hm hx⟩
    · exact ⟨_, (next hw _).trans (congrArg _ (rangeRbe_notLoaded (s := free) h.w h.tick hx)),
        notLoaded_failed (by decide) hpurpose hsession free⟩
    · exact ⟨_, (next hw _).trans (congrArg _ (rangeRound_notLoaded (s := free) h.w h.tick hy)),
        notLoaded_failed (by decide) hpurpose hsession free⟩
    · exact ⟨_, (next hw _).trans (congrArg _ (rangeCal_refused (s := free) h.w h.tick hf hs)),
        rangeReport_failed (by decide) (by decide) (by decide) (by decide) (by decide) free⟩
  case busy =>
    have refused {op : Nat} (f : Word → Nat → State → State) (hw : word op) := RangeTakes.next_refused hw f busy
    exact ⟨refused _, refused _, refused _, refused _⟩
  case stop =>
    obtain ⟨ht, hhead⟩ := hw
    refine next_when ht ?_
    rw [hhead]
    exact rangeStop_eq free
  case aborted =>
    exact exec_rangeResult_failed ht hr (rangeResult_aborted hr ha due) (rangeAbort_failed hn hp (runEnded s))
  case unanswered =>
    subst hm
    have failed := endCause_failed (cause := 1) (by decide) (by decide) hn hp (runEnded s)
    rw [hk] at failed
    exact exec_rangeResult_failed ht hr (rangeResult_unanswered hr ha hk due) failed

end Sys2Proof.Machine
end

section
/-! The reset state's invariant and the fuses' safety: ResetInv and StepKeepsFuses. -/
namespace Sys2Proof.Machine

/-- Caches that hold no line are coherent (R286). -/
theorem coherent_of_empty {m : Memory} (hd : ∀ c, m.dcache.get c = []) : Coherent m := by
  refine ⟨fun c l h => ?owned, fun c => ?wellFormed, fun c l h => ?clean⟩
  case owned => exact absurd (hd c ▸ h) List.not_mem_nil
  case wellFormed => exact hd c ▸ ⟨List.nodup_nil, fun l h => absurd h List.not_mem_nil⟩
  case clean => exact absurd (hd c ▸ h) List.not_mem_nil

/-- Settles O4: the reset state's tables, cores, channels and fuses are evaluated, and its caches hold nothing. -/
theorem resetInv : Obligations.ResetInv where
  mem := by decide
  regs := by decide
  cores := by decide
  chans := by decide
  caches := coherent_of_empty (by decide)
  fuses := by decide

/-- Settles O6: the idle tick and every command evolve a state, and what evolves undoes no fuse. -/
theorem stepKeepsFuses : Obligations.StepKeepsFuses := by
  unfold Obligations.StepKeepsFuses
  intro s t i h
  cases hp : s.pending with
  | nil =>
    have hs : step s = .next (idle s) := by rw [step, hp]
    cases hs.symm.trans h
    exact (idle_ev (Evolves.refl s)).fuses i
  | cons c cs =>
    rw [step_cons hp] at h
    exact (exec_ev c (Evolves.refl _) t h).fuses (i.withPending cs)

end Sys2Proof.Machine
end

section
/-! The laws of CIPHER's operations over data and contexts (R828 to R838), and the statement CipherResults assembled from
them. -/
namespace Sys2Proof.Machine

variable {img bs key z : Bytes} {t u v : State} {x : Slot}

/-! ### ENCRYPT and DECRYPT (R828, R829, R831, R832, R835) -/

/-- A first command whose key, PARAM and buffers are in order runs over the bytes of BUF0. -/
theorem cipherData_runs {enc : Bool} {p : DataParam} {used len : Nat} (hp : dataParam img = p) (hlen : (imgBuf img 0).len = len)
    (hused : p.nlen + p.aadlen + tagIn p enc = used) (hn : Names img (imgKey img) t x) (hkey : x.key = some key)
    (htype : x.type ≠ 3) (huse : x.use.testBit (if p.mode = 4 then 2 else if enc then 0 else 1) = true)
    (hok : dataParamOk img p = true) (hle : used ≤ len) (hdata : dataLenOk p enc (len - used) = true)
    (hbuf : dataBuffers img p enc (len - used) t = .ok () t) (hctx : p.more = true → t.ctx? p.ctx = none)
    (hr : kread 2 img 0 0 len t = .ok bs u) :
    cipherData enc img t = dataRun img p enc (imgKey img % 64) key (len - used) bs (aesBlocks key u) := by
  have closed : (!p.more || (t.ctx? p.ctx).isNone) = true := by
    cases hm : p.more
    · rfl
    · rw [hctx hm]; rfl
  subst hp hlen hused
  unfold cipherData dataKey
  dsimp only
  rw [kslot_names hn, andThen_ok, kcheck_true (by simp [hok, hle, hdata]), andThen_ok, hbuf, andThen_ok, kcheck_true closed,
    andThen_ok, kuse_true huse, andThen_ok, kcheck_true (by simpa using htype), andThen_ok, andThen_ok, hr, andThen_ok, hkey]
  rfl

/-- The buffers of an operation that writes its output. -/
theorem dataBuffers_ok {enc : Bool} {p : DataParam} {n : Nat} (h : enc = true ∨ p.mode ≠ 4)
    (hr : Readable img 0 (imgBuf img 0).len) (hw : Writable img 1 (outLen p enc n)) : dataBuffers img p enc n t = .ok () t := by
  unfold dataBuffers
  rw [needRead_ok hr, andThen_ok, if_neg (by rcases h with h | h <;> simp [h]), needWrite_ok hw]

/-- A DECRYPT of one message finds its tag behind the data. -/
theorem tagIn_dec {p : DataParam} (h : p.more = false) :
    tagIn p false = if p.mode = 2 ∨ p.mode = 3 then p.taglen else 0 := by
  simp [tagIn, h]

theorem dataEnd_ok {n : Nat} {out : Bytes} (hw : kwrite 2 img 1 out u = .ok z v) :
    dataEnd 2 img n (some out) u = .ok (.done 0 0 0) v := by
  rw [dataEnd, hw, andThen_ok]

theorem dataEnd_zeros {n : Nat} (hw : kwrite 2 img 1 (List.replicate n 0) u = .ok z v) :
    dataEnd 2 img n none u = .fail 0xC 0x10 v := by
  rw [dataEnd, hw, andThen_ok]

/-- One message: its whole output is made at once. -/
theorem dataRun_whole {enc : Bool} {p : DataParam} (hm : p.more = false) (h : enc = true ∨ p.mode ≠ 4) (slot n : Nat) :
    dataRun img p enc slot key n bs u = dataEnd 2 img (outLen p enc n) (oneShot p enc key (bs.take p.nlen)
      ((bs.drop p.nlen).take p.aadlen) ((bs.drop (p.nlen + p.aadlen)).take n) (bs.drop (p.nlen + p.aadlen + n))) u := by
  unfold dataRun
  rw [if_neg (by simp [hm]), if_neg (by rcases h with h | h <;> simp [h])]

/-- A first command with MORE opens its context. -/
theorem dataRun_more {enc : Bool} {p : DataParam} (hm : p.more = true) (slot n : Nat)
    (hw : kwrite 2 img 1 ((Ctx.start (imgOwner img) p.mode enc slot key (bs.take p.nlen) ((bs.drop p.nlen).take p.aadlen)
      p.taglen).absorb ((bs.drop (p.nlen + p.aadlen)).take n)).2 u = .ok z v) :
    dataRun img p enc slot key n bs u = .ok (.done 0 0 0) (v.setCtx p.ctx ((Ctx.start (imgOwner img) p.mode enc slot key
      (bs.take p.nlen) ((bs.drop p.nlen).take p.aadlen) p.taglen).absorb ((bs.drop (p.nlen + p.aadlen)).take n)).1) := by
  unfold dataRun
  rw [if_pos hm]
  dsimp only
  rw [hw, andThen_ok]

/-! ### The contexts (R835 to R838) -/

theorem ownCtx_ok {c : Ctx} (hc : t.ctx? (imgParam img 1 1) = some c) (ho : c.owner = imgOwner img) :
    ownCtx img t = .ok c t := by
  rw [ownCtx, hc]
  exact if_pos ho

section
variable {c : Ctx} (hk : imgKey img = 0) (hp : ctxParamOk img = true) (hc : t.ctx? (imgParam img 1 1) = some c)
  (ho : c.owner = imgOwner img)
include hk hp hc ho

theorem cipherFree_clears : cipherFree img t = .ok (.done 0 0 0) (clearCtx (imgParam img 1 1) t) := by
  rw [cipherFree, noKey_zero hk, andThen_ok, kcheck_true hp, andThen_ok, ownCtx_ok hc ho, andThen_ok]

/-- The modes whose context takes whole blocks and writes as many bytes as it reads. -/
theorem cipherUpdate_continues (hmode : imgParam img 0 1 = c.mode) (hmore : imgParam img 6 1 = 1)
    (hlen : (imgBuf img 0).len % 16 = 0) (hm : c.mode = 0 ∨ c.mode = 1 ∨ c.mode = 3) (hb : Readable img 0 (imgBuf img 0).len)
    (hw : Writable img 1 (imgBuf img 0).len) (hr : kread 2 img 0 0 (imgBuf img 0).len t = .ok bs u)
    (ha : kwrite 2 img 1 (c.absorb bs).2 (aesBlocks c.key u) = .ok z v) :
    cipherUpdate img t = .ok (.done 0 0 0) (v.setCtx (imgParam img 1 1) (c.absorb bs).1) := by
  have more : (c.param img).more = true := decide_eq_true hmore
  have mode : (c.param img).mode = c.mode := rfl
  have noTag : tagIn (c.param img) c.enc = 0 := by simp [tagIn, more]
  have lengths : dataLenOk (c.param img) c.enc (imgBuf img 0).len = true := by
    rcases hm with h | h | h <;> simp [dataLenOk, mode, h, hlen]
  have output : outLen (c.param img) c.enc (imgBuf img 0).len = (imgBuf img 0).len := by
    rcases hm with h | h | h <;> simp [outLen, mode, h, more]
  have buffers : dataBuffers img (c.param img) c.enc (imgBuf img 0).len t = .ok () t :=
    dataBuffers_ok (.inr (by rw [mode]; omega)) hb (by rw [output]; exact hw)
  unfold cipherUpdate
  dsimp only
  rw [noKey_zero hk, andThen_ok, kcheck_true hp, andThen_ok, ownCtx_ok hc ho, andThen_ok, kcheck_true (decide_eq_true hmode),
    andThen_ok, noTag, Nat.sub_zero, kcheck_true (by simp [lengths]), andThen_ok, buffers, andThen_ok, hr, andThen_ok, if_pos more,
    ha, andThen_ok]
  rfl

/-- SAVE of a context under the next SAVE_NO; the 112 bytes it encrypts are free (log entry 29). -/
theorem cipherSave_saves (hw : Writable img 1 144)
    (ha : kwrite 2 img 1 (blobHead (imgParam img 1 1) c (t.kiln.saveNo + 1) ++
        gcmCrypt (bootKey t) (blobNonce (t.kiln.saveNo + 1)) (t.freshBytes 112).1 ++
        gcmFull (bootKey t) (blobNonce (t.kiln.saveNo + 1)) (blobHead (imgParam img 1 1) c (t.kiln.saveNo + 1))
          (gcmCrypt (bootKey t) (blobNonce (t.kiln.saveNo + 1)) (t.freshBytes 112).1) 16)
      (aesBlocks (bootKey t) (t.freshBytes 112).2) = .ok z v) :
    cipherSave img t = .ok (.done 0 0 0) (clearCtx (imgParam img 1 1) { v with kiln := { v.kiln with
      saveNo := t.kiln.saveNo + 1, saves := ains v.kiln.saves (imgParam img 1 1) (t.kiln.saveNo + 1, c) } }) := by
  have sameKey : bootKey (t.freshBytes 112).2 = bootKey t := rfl
  unfold cipherSave
  dsimp only
  rw [noKey_zero hk, andThen_ok, kcheck_true hp, andThen_ok, ownCtx_ok hc ho, andThen_ok, needWrite_ok hw, andThen_ok,
    aesBlocks_bootKey, sameKey, ha, andThen_ok]
  rfl

end

/-- RESTORE of the latest save of a context that is not open (R838; log entry 29). -/
theorem cipherRestore_opens {c : Ctx} (hk : imgKey img = 0) (hp : ctxParamOk img = true) (hb : Readable img 0 144)
    (hr : kread 2 img 0 0 144 t = .ok bs u)
    (htag : slice bs 0x80 16 = gcmFull (bootKey u) (blobNonce (leAt bs 8 8)) (bs.take 16) (slice bs 16 112) 16)
    (hn : leAt bs 4 1 = imgParam img 1 1) (ho : leAt bs 6 1 = imgOwner img) (hc : u.ctx? (imgParam img 1 1) = none)
    (hs : aget? u.kiln.saves (imgParam img 1 1) = some (leAt bs 8 8, c)) :
    cipherRestore img t = .ok (.done 0 0 0) ({ aesBlocks (bootKey u) u with kiln := { (aesBlocks (bootKey u) u).kiln with
      saves := adel u.kiln.saves (imgParam img 1 1) } }.setCtx (imgParam img 1 1) c) := by
  unfold cipherRestore
  dsimp only
  rw [noKey_zero hk, andThen_ok, kcheck_true hp, andThen_ok, needRead_ok hb, andThen_ok, hr, andThen_ok, aesBlocks_bootKey,
    kcheck_true (decide_eq_true htag), andThen_ok, aesBlocks_ctx, kcheck_true (by simp [hn, ho, hc]), andThen_ok, aesBlocks_saves, hs]
  exact if_pos rfl

/-! ### ZAP and KATTRn (R811, R812, R835) -/

theorem cipherZap_zaps (hn : Names img (imgKey img) t x) (hp : paramZero img [] = true) (h3 : 3 ≤ imgKey img % 64) :
    cipherZap img t = .ok (.done 0 0 0) (zapSlot (imgKey img % 64) (clearCtxsOf (imgKey img % 64) t)) := by
  rw [cipherZap, kslot_names hn, andThen_ok, kcheck_true (by simp [hp, fixedSlot, h3]), andThen_ok]

theorem kattrWrite_empty {n : Nat} (h : (t.slot n).key = none) (h3 : 3 ≤ n) (w : Word) :
    kattrWrite n w t = t.setSlot n { t.slot n with owner := bits w 19 16, use := bits w 9 0 } := by
  unfold kattrWrite
  exact if_neg (by simp [h, fixedSlot, h3])

theorem kattrWrite_taken {n : Nat} (h : (t.slot n).key ≠ none ∨ n < 3) (w : Word) : kattrWrite n w t = t := by
  unfold kattrWrite
  exact if_pos (by simpa [fixedSlot, Option.isSome_iff_ne_none] using h)

/-! ### The obligation -/

/-- Settles O38: each operation's checks pass, and it writes its output and leaves its context (SAVE's bytes: log entry 29; the
fields that the contexts' commands look at: log entry 28; the words drawn for the countermeasures: log entry 102). -/
theorem cipherResults : Obligations.CipherResults := by
  unfold Obligations.CipherResults
  intro s t u v img bs z x key p len iv aad ready
  have done : ∀ {op body} {y : State}, Serves 2 op img s t → body img t = .ok (.done 0 0 0) y →
      (.next (kilnOp 2 op body s) : Out) = .next (kilnDone 2 0 0 0 y) := fun h hb => congrArg _ (kilnOp_done h hb)
  refine ⟨fun out h hm hle hl hw ho ha => ?encrypt, fun h hm h4 => ?decrypt,
    fun h hm hle hl hw hc => ?more,
    fun c hk hp hc ho => ⟨fun h => done h (cipherFree_clears hk hp hc ho),
      fun h h0 h6 h16 hm hb hw hr ha => done h (cipherUpdate_continues hk hp hc ho h0 h6 h16 hm hb hw hr ha),
      fun h hw => ?save⟩,
    fun c h hk hp hb hr => ?restore,
    fun h hn hp h3 => done h (cipherZap_zaps hn hp h3),
    fun n w hl => ⟨fun h => next_when hl (kattrWrite_empty h.1 h.2 w), fun h => next_when hl (kattrWrite_taken h w)⟩, ?blocks⟩
  case encrypt =>
    obtain ⟨hs, hn, hkey, htype, huse, hok, hb, hr⟩ := h
    have tail : bs.drop (p.nlen + p.aadlen + (len - (p.nlen + p.aadlen))) = bs.drop len := by rw [Nat.add_sub_cancel' hle]
    have runs : cipherData true img t = dataEnd 2 img _ (oneShot p true key iv aad
        ((bs.drop (p.nlen + p.aadlen)).take (len - (p.nlen + p.aadlen)))
        (bs.drop (p.nlen + p.aadlen + (len - (p.nlen + p.aadlen))))) (aesBlocks key u) :=
      (cipherData_runs rfl rfl rfl hn hkey htype huse hok hle hl (dataBuffers_ok (.inl rfl) hb hw)
        (fun h => absurd (hm.symm.trans h) Bool.false_ne_true) hr).trans (dataRun_whole hm (.inl rfl) _ _)
    exact done hs (by rw [runs, tail, ho]; exact dataEnd_ok ha)
  case decrypt =>
    intro used hle hl hw res
    obtain ⟨hs, hn, hkey, htype, huse, hok, hb, hr⟩ := h
    have runs : cipherData false img t = dataEnd 2 img (outLen p false (len - used)) res (aesBlocks key u) :=
      (cipherData_runs rfl rfl (congrArg (p.nlen + p.aadlen + ·) (tagIn_dec hm)) hn hkey htype huse hok hle hl
        (dataBuffers_ok (.inr h4) hb hw) (fun h => absurd (hm.symm.trans h) Bool.false_ne_true) hr).trans
        (dataRun_whole hm (.inr h4) _ _)
    exact ⟨fun out ho ha => done hs (by rw [runs, ho]; exact dataEnd_ok ha),
      fun ho ha => congrArg _ (kilnOp_fail hs (by rw [runs, ho]; exact dataEnd_zeros ha))⟩
  case more =>
    intro r ha
    obtain ⟨hs, hn, hkey, htype, huse, hok, hb, hr⟩ := h
    refine done hs ?_
    rw [cipherData_runs rfl rfl rfl hn hkey htype huse hok hle hl (dataBuffers_ok (.inl rfl) hb hw) (fun _ => hc) hr]
    exact dataRun_more hm _ _ ha
  case save =>
    intro n no plain key2 cipher head ha
    exact done h (cipherSave_saves hk hp hc ho hw ha)
  case restore =>
    intro n no htag hn ho hc hs w
    exact done h (cipherRestore_opens hk hp hb hr htag hn ho hc hs)
  case blocks =>
    obtain ⟨run, n, h, hlen, hplaces⟩ := aesBlocks_spec key s
    exact ⟨run, n, h, by simpa [dummyMax] using hlen, hplaces⟩

end Sys2Proof.Machine
end

section
/-! The laws of the operations that make, wrap and give out keys (R827, R833, R834, R842, R843, R1180), and the statement
KeyResults assembled from them. -/
namespace Sys2Proof.Machine

variable {img bs z : Bytes} {t u v : State} {x y : Slot}

theorem kdraw_some {n : Nat} (h : drawBytes n t = some (bs, u)) : kdraw n t = .ok bs u := by
  rw [kdraw, h]

theorem emptySlot_isSome {n : Nat} (h : emptySlot t 32 64 = some n) : (emptySlot t 32 64).isSome = true := by
  rw [h]
  rfl

/-! ### Keys of CIPHER -/

theorem cipherGenkey_draws {n : Nat} (hk : imgKey img = 0) (hp : keyParamOk img false = true) (htype : imgParam img 0 1 ≠ 3)
    (he : emptySlot t 32 64 = some n) (hd : drawBytes (typeLen (imgParam img 0 1)) t = some (bs, u)) :
    cipherGenkey img t = newKey img bs (imgParam img 0 1) (imgParam img 2 2) u := by
  unfold cipherGenkey
  dsimp only
  rw [noKey_zero hk, andThen_ok, kcheck_true hp, andThen_ok, kcheck_true (emptySlot_isSome he), andThen_ok, if_neg htype,
    kdraw_some hd, andThen_ok]

section
variable (hn : Names img (imgKey img) t x)
include hn

section
variable (hp : keyParamOk img false = true) (hlen : (imgBuf img 0).len = typeLen (imgParam img 0 1) + 8)
  (hb : Readable img 0 (imgBuf img 0).len) (huse : x.use.testBit 4 = true) (he : emptySlot t 32 64 ≠ none)
  (hr : kread 2 img 0 0 (imgBuf img 0).len t = .ok bs u)
include hp hlen hb huse he hr

theorem cipherUnwrapKey_unwraps : cipherUnwrapKey img t = match kwUnwrap (x.key.getD []) bs with
    | none => .fail 0xC 0x10 (aesBlocks (x.key.getD []) u)
    | some k => newKey img k (imgParam img 0 1) (imgParam img 2 2) (aesBlocks (x.key.getD []) u) := by
  rw [hlen] at hb hr
  unfold cipherUnwrapKey
  dsimp only
  rw [kslot_names hn, andThen_ok, kcheck_true (by simp [hp, hlen]), andThen_ok, needRead_ok hb, andThen_ok,
    kcheck_true (Option.isSome_iff_ne_none.2 he), andThen_ok, kuse_true huse, andThen_ok, hr, andThen_ok] <;> rfl

end

theorem cipherWrapKey_writes (hy : Names img (imgParam img 4 2) t y) (hp : keyParamOk img true = true)
    (hlen : (y.key.getD []).length = typeLen (imgParam img 0 1)) (hw : Writable img 1 (typeLen (imgParam img 0 1) + 8))
    (huse : x.use.testBit 3 = true) (hexp : y.use.testBit 9 = true)
    (ha : kwrite 2 img 1 (kwWrap (x.key.getD []) (y.key.getD [])) (aesBlocks (x.key.getD []) t) = .ok z u) :
    cipherWrapKey img t = .ok (.done 0 0 0) u := by
  unfold cipherWrapKey
  dsimp only
  rw [kslot_names hn, andThen_ok, kslot_names hy, andThen_ok, kcheck_true (by simp [hp, hlen]), andThen_ok, needWrite_ok hw,
    andThen_ok, kuse_true huse, andThen_ok, kuse_true hexp, andThen_ok, ha, andThen_ok]

theorem cipherDerive_derives (hp : keyParamOk img false = true) (h1 : 1 ≤ (imgBuf img 0).len) (h64 : (imgBuf img 0).len ≤ 64)
    (hb : Readable img 0 (imgBuf img 0).len) (huse : x.use.testBit 5 = true) (he : emptySlot t 32 64 ≠ none)
    (hr : kread 2 img 0 0 (imgBuf img 0).len t = .ok bs u) :
    cipherDerive img t = newKey img (kdf (x.key.getD []) bs (typeLen (imgParam img 0 1))) (imgParam img 0 1) (imgParam img 2 2)
      (aesBlocks (x.key.getD []) u) := by
  unfold cipherDerive
  dsimp only
  rw [kslot_names hn, andThen_ok, kcheck_true (by simp [hp, h1, h64]), andThen_ok, needRead_ok hb, andThen_ok,
    kcheck_true (Option.isSome_iff_ne_none.2 he), andThen_ok, kuse_true huse, andThen_ok, hr, andThen_ok]

/-! ### Keys of PKA -/

theorem pkaEcdh_agrees (hp : paramZero img [2, 3] = true) (hu : imgParam img 2 2 &&& 0x120 = imgParam img 2 2)
    (hb : Readable img 0 64) (huse : x.use.testBit 7 = true) (htype : x.type = 3) (he : emptySlot t 32 64 ≠ none)
    (hr : kread 3 img 0 0 64 t = .ok bs u) :
    pkaEcdh img t = match ecdh (beNat (x.key.getD [])) bs with
      | none => .fail 5 6 u
      | some k => newKey img k 2 (imgParam img 2 2) (pkaMasks u) := by
  unfold pkaEcdh
  dsimp only
  rw [kslot_names hn, andThen_ok, kcheck_true (by simp [hp, hu]), andThen_ok, needRead_ok hb, andThen_ok,
    kcheck_true (Option.isSome_iff_ne_none.2 he), andThen_ok, kuse_true huse, andThen_ok, kcheck_true (decide_eq_true htype),
    andThen_ok, hr, andThen_ok] <;> rfl

theorem pkaPubkey_writes (hp : paramZero img [] = true) (hw : Writable img 1 64) (htype : x.type = 3)
    (ha : kwrite 3 img 1 (pubOf (beNat (x.key.getD []))) (pkaMasks t) = .ok z u) :
    pkaPubkey img t = .ok (.done 0 0 0) u := by
  rw [pkaPubkey, kslot_names hn, andThen_ok, kcheck_true hp, andThen_ok, needWrite_ok hw, andThen_ok,
    kcheck_true (decide_eq_true htype), andThen_ok, pkaScalar, ha, andThen_ok]

end

theorem pkaGenkeyEc_draws {d : Nat} (hk : imgKey img = 0) (hp : paramZero img [2, 3] = true) (hu : imgParam img 2 2 < 1024)
    (hw : Writable img 1 64) (he : emptySlot t 32 64 ≠ none) (hd : kscalar 8 t = .ok d u)
    (ha : kwrite 3 img 1 (pubOf d) (pkaMasks u) = .ok z v) :
    pkaGenkeyEc img t = newKey img (beBytes 32 d) 3 (imgParam img 2 2) v := by
  unfold pkaGenkeyEc
  dsimp only
  rw [noKey_zero hk, andThen_ok, kcheck_true (by simp [hp, hu]), andThen_ok, needWrite_ok hw, andThen_ok,
    kcheck_true (Option.isSome_iff_ne_none.2 he), andThen_ok, hd, andThen_ok, ha, andThen_ok]

/-! ### The obligation -/

/-- Settles O39: each operation's checks pass, and its key takes the lowest empty slot from 32, or what it wraps or exports goes to
BUF1. -/
theorem keyResults : Obligations.KeyResults := by
  unfold Obligations.KeyResults
  intro s t u v img bs z x y n type use len makes key
  have done : ∀ {e op body} {w : State}, Serves e op img s t → body img t = .ok (.done 0 0 0) w →
      (.next (kilnOp e op body s) : Out) = .next (kilnDone e 0 0 0 w) := fun h hb => congrArg _ (kilnOp_done h hb)
  have fails : ∀ {e op body st re} {w : State}, Serves e op img s t → body img t = .fail st re w →
      (.next (kilnOp e op body s) : Out) = .next (kilnDone e st re 0 w) := fun h hb => congrArg _ (kilnOp_fail h hb)
  have places : ∀ {e op body k ty} {w : State}, Serves e op img s t → emptySlot w 32 64 = some n →
      body img t = newKey img k ty use w → (.next (kilnOp e op body s) : Out) = .next (makes e k ty w) :=
    fun h he hb => congrArg _ (kilnOp_done h (hb.trans (newKey_some he)))
  refine ⟨fun h hk hp htype he hd he' => places h he' (cipherGenkey_draws hk hp htype he hd),
    fun h hn hp hlen hb huse he hr => ?unwrap,
    fun h hn hy hp hlen hw huse hexp ha => done h (cipherWrapKey_writes hn hy hp hlen hw huse hexp ha),
    fun h hn hp h1 h64 hb huse he hr he' =>
      places h ((aesBlocks_empty key u 32 64).trans he') (cipherDerive_derives hn hp h1 h64 hb huse he hr),
    fun h hn hp hu hb huse htype he hr => ?ecdh,
    fun d h hk hp hu hw he hd ha he' => places h he' (pkaGenkeyEc_draws hk hp hu hw he hd ha),
    fun h hn hp hw htype ha => done h (pkaPubkey_writes hn hp hw htype ha)⟩
  case unwrap =>
    have unwraps := cipherUnwrapKey_unwraps hn hp hlen hb huse he hr
    refine ⟨fun k hk he' => places h ((aesBlocks_empty key u 32 64).trans he') ?_, fun hk => fails h ?_⟩
    · rw [unwraps, hk]
    · rw [unwraps, hk]
  case ecdh =>
    have agrees := pkaEcdh_agrees hn hp hu hb huse htype he hr
    refine ⟨fun k hk he' => places (w := pkaMasks u) h he' ?_, fun hk => fails h ?_⟩
    · rw [agrees, hk]
    · rw [agrees, hk]

end Sys2Proof.Machine
end

section
/-! The laws of PKA's and HASH's operations, of RANDOM and of the fuses' commands (R819 to R823, R842 to R845, R877), and the
statement SignHashFuseResults assembled from them. -/
namespace Sys2Proof.Machine

variable {img bs z : Bytes} {s t u v w : State} {x : Slot}

/-! ### How a command ends -/

section
variable {e op : Nat} {body : Bytes → State → KRes KEnd} (h : Serves e op img s t)
include h

theorem kilnOp_later (hb : body img t = .ok .later u) : kilnOp e op body s = u := by
  rw [kilnOp_serves h, hb]

/-- A check of a signature or a MAC decides the DONE word. -/
theorem kilnOp_verdict {p : Prop} [Decidable p] (hb : body img t = if p then .ok (.done 0 0 0) u else .fail 0xC 0x10 u) :
    kilnOp e op body s = if p then kilnDone e 0 0 0 u else kilnDone e 0xC 0x10 0 u := by
  split_ifs with hp
  · exact kilnOp_done h (hb.trans (if_pos hp))
  · exact kilnOp_fail h (hb.trans (if_neg hp))

end

/-! ### PKA (R842, R843, R845) -/

theorem pkaSign_signs {sig : Bytes} (hn : Names img (imgKey img) t x) (huse : x.use.testBit 6 = true)
    (hp : paramZero img [] = true) (htype : x.type = 3) (hb : Readable img 0 32) (hw : Writable img 1 64)
    (hr : kread 3 img 0 0 32 t = .ok bs u) (hsig : ksign (beNat (x.key.getD [])) bs u = .ok sig v)
    (ha : kwrite 3 img 1 sig v = .ok z w) : pkaSign img t = .ok (.done 0 0 0) w := by
  rw [pkaSign, kslot_names hn, andThen_ok, kcheck_true hp, andThen_ok, needRead_ok hb, andThen_ok, needWrite_ok hw, andThen_ok,
    kuse_true huse, andThen_ok, kcheck_true (decide_eq_true htype), andThen_ok, hr, andThen_ok, pkaScalar, hsig, andThen_ok, ha,
    andThen_ok]

section
variable (hk : imgKey img = 0) (hp : paramZero img [] = true)
include hk hp

theorem pkaVerify_judges (hb : Readable img 0 160) (hr : kread 3 img 0 0 160 t = .ok bs u) :
    pkaVerify img t = if ecdsaVerify (bs.take 64) (slice bs 64 32) (slice bs 96 64) = true then .ok (.done 0 0 0) (pkaMasks u)
      else .fail 0xC 0x10 (pkaMasks u) := by
  rw [pkaVerify, noKey_zero hk, andThen_ok, kcheck_true hp, andThen_ok, needRead_ok hb, andThen_ok, hr, andThen_ok]

/-- The record is made of what the flash and the registers hold as it is signed. -/
theorem pkaAttest_signs {u1 u2 : State} {ver hash sig : Bytes} (hb : Readable img 0 32) (hw : Writable img 1 320)
    (hr : kread 3 img 0 0 32 t = .ok bs u) (hver : kflash (imageBase u + 8) 4 u = .ok ver u1)
    (hhash : kflash (imageBase u1 + 0x40) 32 u1 = .ok hash u2)
    (hsig : ksign (beNat ((u2.slot 0).key.getD [])) (sha256 (attestBody u2 bs ver hash)) u2 = .ok sig v)
    (ha : kwrite 3 img 1 (attestBody u2 bs ver hash ++ sig) v = .ok z w) : pkaAttest img t = .ok (.done 0 0 0) w := by
  rw [pkaAttest, noKey_zero hk, andThen_ok, kcheck_true hp, andThen_ok, needRead_ok hb, andThen_ok, needWrite_ok hw, andThen_ok,
    hr, andThen_ok, hver, andThen_ok, hhash, andThen_ok]
  dsimp only
  rw [pkaScalar, hsig, andThen_ok, ha, andThen_ok]

end

/-! ### HASH (R844) -/

theorem hashBuf_reads (f : Bytes → Bytes) (hlen : (imgBuf img 0).len ≤ 0x1000000) (hb : Readable img 0 (imgBuf img 0).len)
    (hr : kread 4 img 0 0 (imgBuf img 0).len t = .ok bs u) : hashBuf img f t = .ok (f bs) u := by
  unfold hashBuf
  dsimp only
  rw [kcheck_true (decide_eq_true hlen), andThen_ok, needRead_ok hb, andThen_ok, hr, andThen_ok]

section
variable (hlen : (imgBuf img 0).len ≤ 0x1000000) (hb : Readable img 0 (imgBuf img 0).len)
  (hr : kread 4 img 0 0 (imgBuf img 0).len t = .ok bs u)
include hlen hb hr

theorem hashSha256_writes (hk : imgKey img = 0) (hp : paramZero img [] = true) (hw : Writable img 1 32)
    (ha : kwrite 4 img 1 (sha256 bs) u = .ok z v) : hashSha256 img t = .ok (.done 0 0 0) v := by
  rw [hashSha256, noKey_zero hk, andThen_ok, kcheck_true hp, andThen_ok, needWrite_ok hw, andThen_ok,
    hashBuf_reads sha256 hlen hb hr, andThen_ok, ha, andThen_ok]

section
variable (hn : Names img (imgKey img) t x) (huse : x.use.testBit 8 = true) (hp : paramZero img [] = true)
include hn huse hp

theorem hashHmac_writes (hw : Writable img 1 32) (ha : kwrite 4 img 1 (hmac (x.key.getD []) bs) u = .ok z v) :
    hashHmac img t = .ok (.done 0 0 0) v := by
  rw [hashHmac, kslot_names hn, andThen_ok, kcheck_true hp, andThen_ok, needWrite_ok hw, andThen_ok, kuse_true huse, andThen_ok,
    hashBuf_reads _ hlen hb hr, andThen_ok, ha, andThen_ok]

theorem hashHmacVerify_judges (hb1 : Readable img 1 32) (hr1 : kread 4 img 1 0 32 u = .ok z v) :
    hashHmacVerify img t = if z = hmac (x.key.getD []) bs then .ok (.done 0 0 0) v else .fail 0xC 0x10 v := by
  rw [hashHmacVerify, kslot_names hn, andThen_ok, kcheck_true hp, andThen_ok, needRead_ok hb1, andThen_ok, kuse_true huse,
    andThen_ok, hashBuf_reads _ hlen hb hr, andThen_ok, hr1, andThen_ok]

end

end

/-! ### RANDOM and FUSE_READ (R820, R877) -/

section
variable (hk : imgKey img = 0) (hp : paramZero img [] = true)
include hk hp

theorem cipherRandom_draws (h1 : 1 ≤ (imgBuf img 1).len) (h2 : (imgBuf img 1).len ≤ 4096) (hw : Writable img 1 (imgBuf img 1).len)
    (hd : drawBytes (imgBuf img 1).len t = some (bs, u)) (ha : kwrite 2 img 1 bs u = .ok z v) :
    cipherRandom img t = .ok (.done 0 0 0) v := by
  unfold cipherRandom
  dsimp only
  rw [noKey_zero hk, andThen_ok, kcheck_true (by simp [hp, h1, h2]), andThen_ok, needWrite_ok hw, andThen_ok, kdraw_some hd,
    andThen_ok, ha, andThen_ok]

theorem fuseRead_writes (hw : Writable img 1 128) (ha : kwrite 2 img 1 (fuseImage t) t = .ok z v) :
    fuseRead img t = .ok (.done 0 0 0) v := by
  rw [fuseRead, noKey_zero hk, andThen_ok, kcheck_true hp, andThen_ok, needWrite_ok hw, andThen_ok, ha, andThen_ok]

/-! ### FUSE_WRITE and FUSE_CLOSE (R819, R821, R822; log entry 80) -/

theorem fuseClose_begins (hv : t.pwr.vbatLow = false) (hseed : fuseSet t.fuses.devSeed = true)
    (hid : fuseSet t.fuses.devId = true) (hcert : fuseSet t.fuses.devCert = true) (hhash : imageKeyHash t ≠ none) :
    fuseClose img t = .ok .later { t with fuses := { t.fuses with running := some .close } } := by
  unfold fuseClose
  dsimp only
  rw [noKey_zero hk, andThen_ok, kcheck_true hp, andThen_ok,
    kcheck_true (by simp [hseed, hid, hcert, Option.isSome_iff_ne_none.2 hhash]), andThen_ok, kcheck_true (by simp [vbatLow, hv]),
    andThen_ok]

end

/-- A field that is free is programmed, from BUF0, once VBAT is high. -/
theorem fuseWrite_begins {f n : Nat} {r : FuseRun} {pre : FuseRun} (hf : imgParam img 0 1 = f) (h34 : f = 3 ∨ f = 4)
    (hlen : (if f = 3 then 6 else 32) = n) (hk : imgKey img = 0) (hp : paramZero img [0] = true) (hv : t.pwr.vbatLow = false)
    (hb : Readable img 0 n) (hr : kread 2 img 0 0 n t = .ok bs u) (hpre : fuseTarget f [] t = some pre)
    (ht : fuseTarget f bs u = some r) :
    fuseWrite img t = .ok .later { u with fuses := { u.fuses with running := some r } } := by
  subst hlen hf
  unfold fuseWrite
  dsimp only
  rw [noKey_zero hk, andThen_ok, kcheck_true (by simpa [hp] using h34), andThen_ok, needRead_ok hb, andThen_ok,
    kcheck_true (Option.isSome_of_eq_some hpre), andThen_ok, kcheck_true (by simp [vbatLow, hv]), andThen_ok, hr, andThen_ok, ht]

theorem fuseTarget_address (h : t.fuses.bdAddr = .unprogrammed) (bs : Bytes) : fuseTarget 3 bs t = some (.bdAddr bs) :=
  if_pos h

theorem fuseTarget_hash {k : Fin 2} (h : freeHash t = some k) (bs : Bytes) : fuseTarget 4 bs t = some (.hash k bs) := by
  rw [fuseTarget, if_neg (by decide), h]
  rfl

theorem freeHash_first (h : t.fuses.hashes.get 0 = .unprogrammed) : freeHash t = some 0 := if_pos h

theorem freeHash_second (h0 : t.fuses.hashes.get 0 ≠ .unprogrammed) (h1 : t.fuses.hashes.get 1 = .unprogrammed) :
    freeHash t = some 1 := (if_neg h0).trans (if_pos h1)

/-! ### The end of programming (R823) -/

theorem exec_fuseWrite_idle (h : s.fuses.running = none) (ok : Bool) :
    exec (.fuseWrite ok) s = .next (kilnOp 2 0x51 fuseWrite s) := by
  show execFuseWrite ok s = _
  rw [execFuseWrite, h]

theorem exec_fuseClose_idle (h : s.fuses.running = none) (ok : Bool) :
    exec (.fuseClose ok) s = .next (kilnOp 2 0x52 fuseClose s) := by
  show execFuseClose ok s = _
  rw [execFuseClose, h]

theorem exec_fuseWrite_ends (hup : s.up = true) (h : s.fuses.running = some (.bdAddr bs)) (ok : Bool) :
    exec (.fuseWrite ok) s = .next (fuseEnd ok s) := by
  show execFuseWrite ok s = _
  rw [execFuseWrite, h]
  exact congrArg _ (when_true hup _ s)

theorem exec_fuseClose_ends (hup : s.up = true) (h : s.fuses.running = some .close) (ok : Bool) :
    exec (.fuseClose ok) s = .next (fuseEnd ok s) := by
  show execFuseClose ok s = _
  rw [execFuseClose, h]
  exact congrArg _ (when_true hup _ s)

theorem fuseEnd_reads_back (hv : s.pwr.vbatLow = false) : fuseEnd true s = kilnDone 2 0 0 0 (burnFuse s) :=
  if_pos (by simp [vbatLow, hv])

theorem fuseEnd_torn : fuseEnd false s = kilnDone 2 5 0x1E 0 (tearFuse s) := if_neg (by simp)

theorem burnFuse_address (h : s.fuses.running = some (.bdAddr bs)) :
    burnFuse s = { s with fuses := { s.fuses with running := none, bdAddr := .data bs } } := by
  rw [burnFuse, h]

theorem tearFuse_address (h : s.fuses.running = some (.bdAddr bs)) :
    tearFuse s = { s with fuses := { s.fuses with running := none, bdAddr := .torn } } := by
  rw [tearFuse, h]

theorem burnFuse_close (h : s.fuses.running = some .close) :
    burnFuse s = { s with fuses := { s.fuses with running := none, closed := true } } := by
  rw [burnFuse, h]

/-! ### The obligation -/

/-- Settles O40: each operation's checks pass and it writes its output, or its check decides the DONE word; the fuses' commands
begin and end programming (log entry 80). -/
theorem signHashFuseResults : Obligations.SignHashFuseResults := by
  unfold Obligations.SignHashFuseResults
  intro s t u v w img bs z sig x key len plain keyed
  have done : ∀ {e op body} {y : State}, Serves e op img s t → body img t = .ok (.done 0 0 0) y →
      (.next (kilnOp e op body s) : Out) = .next (kilnDone e 0 0 0 y) := fun h hb => congrArg _ (kilnOp_done h hb)
  refine ⟨fun h hkey htype hb hw hr hsig ha => done h (pkaSign_signs hkey.1 hkey.2.1 hkey.2.2 htype hb hw hr hsig ha),
    fun h hpl hb hr => congrArg _ (kilnOp_verdict h (pkaVerify_judges hpl.1 hpl.2 hb hr)),
    fun u1 u2 ver hash h hpl hb hw hr hver hhash hsig ha =>
      done h (pkaAttest_signs hpl.1 hpl.2 hb hw hr hver hhash hsig ha),
    fun h hpl hlen hb hw hr ha => done h (hashSha256_writes hlen hb hr hpl.1 hpl.2 hw ha),
    fun h hkey hlen hb hw hr ha => done h (hashHmac_writes hlen hb hr hkey.1 hkey.2.1 hkey.2.2 hw ha),
    fun h hkey hlen hb hb1 hr hr1 =>
      congrArg _ (kilnOp_verdict h (hashHmacVerify_judges hlen hb hr hkey.1 hkey.2.1 hkey.2.2 hb1 hr1)),
    fun n h hpl hn h1 h2 hw hd ha => ?random,
    fun h hpl hw ha => done h (fuseRead_writes hpl.1 hpl.2 hw ha), fun ok h hk hp hv hf => ?write,
    fun ok h hpl hv hseed hid hcert hhash => ?close, fun hup hv => ⟨fun hrun => ?written, fun hrun => ?closed⟩⟩
  case random =>
    subst hn
    exact done h (cipherRandom_draws hpl.1 hpl.2 h1 h2 hw hd ha)
  case write =>
    have idle : s.fuses.running = none := h.2.1
    have hashes : u.fuses.hashes = t.fuses.hashes := by rw [hf]
    have writes : ∀ {r}, fuseWrite img t = .ok .later { u with fuses := { u.fuses with running := some r } } →
        exec (.fuseWrite ok) s = .next { u with fuses := { u.fuses with running := some r } } :=
      fun hb => (exec_fuseWrite_idle idle ok).trans (congrArg _ (kilnOp_later h hb))
    have hash : ∀ {k}, imgParam img 0 1 = 4 → Readable img 0 32 → kread 2 img 0 0 32 t = .ok bs u → freeHash t = some k →
        freeHash u = some k → exec (.fuseWrite ok) s = .next { u with fuses := { u.fuses with running := some (.hash k bs) } } :=
      fun h4 hb hr ht hu => writes (fuseWrite_begins h4 (.inr rfl) rfl hk hp hv hb hr (fuseTarget_hash ht []) (fuseTarget_hash hu bs))
    refine ⟨fun h3 ht hb hr => ?_, fun h4 hb hr => ⟨fun h0 => ?_, fun h0 h1 => ?_⟩⟩
    · exact writes (fuseWrite_begins h3 (.inl rfl) rfl hk hp hv hb hr (fuseTarget_address ht [])
        (fuseTarget_address (by rw [hf, ht]) bs))
    · exact hash h4 hb hr (freeHash_first h0) (freeHash_first (by rw [hashes, h0]))
    · exact hash h4 hb hr (freeHash_second h0 h1) (freeHash_second (by rwa [hashes]) (by rw [hashes, h1]))
  case close =>
    exact (exec_fuseClose_idle h.2.1 ok).trans
      (congrArg _ (kilnOp_later h (fuseClose_begins hpl.1 hpl.2 hv hseed hid hcert hhash)))
  case written =>
    exact ⟨by rw [exec_fuseWrite_ends hup hrun, fuseEnd_reads_back hv, burnFuse_address hrun],
      by rw [exec_fuseWrite_ends hup hrun, fuseEnd_torn, tearFuse_address hrun]⟩
  case closed => rw [exec_fuseClose_ends hup hrun, fuseEnd_reads_back hv, burnFuse_close hrun]

end Sys2Proof.Machine
end

section
/-! The laws of the entropy source: its samples, the DRBG, its requests and tests (R855 to R882), and the statement
EntropyResults assembled from them. -/
namespace Sys2Proof.Machine

variable {s t : State}

/-- A command whose event is not due leaves the state as it is (log entry 1). -/
theorem next_when_not {p : Bool} (hp : p = false) (f : State → State) (s : State) : (.next (when p f s) : Out) = .next s :=
  congrArg _ (when_false hp f s)

theorem fld_setFld_ne (s : State) (k hi lo v : Nat) {hi' lo' : Nat} (h : hi' < 32) (hd : hi' < lo ∨ hi < lo') :
    (s.setFld k hi lo v).fld k hi' lo' = s.fld k hi' lo' := by
  rw [State.fld, State.setFld, reg_setReg_self]
  exact bits_setBits_ne _ _ _ _ _ _ h hd

/-! ### Samples (R855, R862) -/

theorem exec_rawSample_early (hd : sampleDue s 1 = false) (raw : BitVec 8) : exec (.rawSample raw) s = .next s :=
  next_when_not (by rw [hd, Bool.and_false]) _ s

section
variable (hup : s.entUp = true)
include hup

theorem exec_rawSample_due (hd : sampleDue s 1 = true) (raw : BitVec 8) : exec (.rawSample raw) s = .next (entSample raw s) :=
  next_when (by rw [hup, hd]; rfl) rfl

theorem exec_rawSampleBlock_due {raws : List (BitVec 8)} (hn : 1024 ≤ s.ent.n) (hl : raws.length = 96 - s.ent.gathered.length)
    (hd : sampleDue s raws.length = true) : exec (.rawSampleBlock raws) s = .next (forEach raws entSample s) :=
  next_when (by simp only [hup, hd, decide_eq_true hn, decide_eq_true hl, Bool.and_self]) rfl

/-! ### The DRBG (R863 to R867) -/

theorem exec_drbgInstantiate_due (hd : s.ent.drbg = none) (hn : 1312 ≤ s.ent.n) (hb : s.ent.blocks.length = 3) :
    exec .drbgInstantiate s = .next (instantiate s) :=
  next_when (by simp [hup, hd, hn, hb]) rfl

theorem exec_reseed_due : exec (.reseed none) s = .next (reseed s) := next_when hup rfl

theorem exec_reseed_asked {who : Req} (hw : Writers.appKiln.permits who = true) :
    exec (.reseed (some who)) s = .next (entAsk .reseed s) := next_when hup (entCtl_reseed hw)

theorem exec_generate : exec .generate s = .next (fillBootKey (fillBuffers s)) := next_when hup rfl

end

theorem instantiate_spec (s : State) :
    (instantiate s).ent = { s.ent with
      blocks := [], drbg := some (drbgInit s.ent.blocks.flatten (drbgPersonal s (s.ent.runFrom.getD 0 + 8 * 1312))) } ∧
    (instantiate s).rbit rENT_STAT 0 = true ∧ (instantiate s).reg rENT_DRBG = 0 :=
  ⟨rfl, rbit_setRbit _ _ _ _ (by decide), (reg_setRbit_ne _ _ _ _ (by decide)).trans (reg_setReg_self _ _ _)⟩

/-- A reseed that is not due, or whose blocks are not ready, waits (R866). -/
theorem reseed_waits (h : s.ent.reseedDue = false ∨ s.ent.blocks.length < 3) : reseed s = s := by
  unfold reseed
  cases s.ent.drbg with
  | none => rfl
  | some d => exact if_pos (by rcases h with h | h <;> simp [h])

section
variable {d : Drbg} (hd : s.ent.drbg = some d)
include hd

theorem reseed_done (hr : s.ent.reseedDue = true) (hb : 3 ≤ s.ent.blocks.length) (hk : s.ent.katFor = none) :
    (reseed s).ent = { s.ent with blocks := [], reseedDue := false, drbg := some (drbgUpdate d s.ent.blocks.flatten) } ∧
    (reseed s).fld rENT_DRBG 15 0 = 0 ∧ (reseed s).fld rENT_DRBG 31 16 = (s.fld rENT_DRBG 31 16 + 1) % 65536 := by
  have e : reseed s = ((s.onEnt (fun e => { e with
      drbg := some (drbgUpdate d e.blocks.flatten), blocks := [], reseedDue := false })).incFld rENT_DRBG 31 16).setFld
        rENT_DRBG 15 0 0 := by
    unfold reseed
    rw [hd]
    exact if_neg (by simp [hr, hk, Nat.not_lt.2 hb])
  rw [e]
  refine ⟨rfl, fld_setFld _ _ _ _ _ (by decide), (fld_setFld_ne _ _ _ _ _ (by decide) (.inr (by decide))).trans ?_⟩
  exact fld_setFld _ _ _ _ _ (by decide)

/-- A generate call (R865); one that reaches the reseed interval asks for a reseed (R866). -/
theorem generate_calls (hr : s.ent.reseedDue = false) (hk : s.ent.katFor = none) :
    generate s = some (wordsOf (drbgGenerate d).1, (s.onEnt (fun e => { e with
      drbg := some (drbgGenerate d).2
      reseedDue := s.fld rENT_CFG 31 16 ≤ s.fld rENT_DRBG 15 0 + 1 })).setFld rENT_DRBG 15 0 (s.fld rENT_DRBG 15 0 + 1)) := by
  unfold generate
  dsimp only
  rw [reseed_waits (.inl hr), hd]
  exact if_neg (by simp [hr, hk])

theorem fillBuffers_generates (hb : kilnBufEmpty s = false) (hq : s.ent.regBuf = []) (hr : s.ent.reseedDue = false)
    (hk : s.ent.katFor = none) : (fillBuffers s).ent = { s.ent with
      regBuf := wordsOf (drbgGenerate d).1
      drbg := some (drbgGenerate d).2
      reseedDue := s.fld rENT_CFG 31 16 ≤ s.fld rENT_DRBG 15 0 + 1 } := by
  unfold fillBuffers
  rw [if_neg (by simp [hb]), if_pos (by rw [hq]; rfl), generate_calls hd hr hk]
  rfl

end

theorem fillBuffers_full (hb : kilnBufEmpty s = false) (hq : s.ent.regBuf ≠ []) : fillBuffers s = s := by
  unfold fillBuffers
  rw [if_neg (by simp [hb]), if_neg (by simpa using hq)]

/-! ### Requests and known-answer tests (R872, R876, R878, R882) -/

theorem entAsk_acts (hk : s.ent.katFor = none) (r : EntRequest) : entAsk r s = entAct r s := if_neg (by simp [hk])

theorem entAsk_queues (hk : s.ent.katFor ≠ none) (r : EntRequest) :
    entAsk r s = { s with ent := { s.ent with queued := s.ent.queued ++ [r] } } :=
  if_pos (Option.isSome_iff_ne_none.2 hk)

/-- A reseed is noted; without its blocks it waits (R866). -/
theorem entAsk_reseed_waits (hb : s.ent.blocks.length < 3) (hk : s.ent.katFor = none) :
    entAsk .reseed s = { s with ent := { s.ent with reseedDue := true } } :=
  (entAsk_acts hk _).trans (reseed_waits (.inr hb))

theorem entRestart_spec (hk : s.ent.katFor = none) :
    (entRestart s).ent = { Ent.idle with runFrom := some s.clk.tb, queued := s.ent.queued } ∧
    (entRestart s).rbit rENT_STAT 0 = false ∧ (entRestart s).rbit rENT_STAT 2 = false ∧
    ((entRestart s).chan 0xE0).q = [] ∧ ((entRestart s).chan 0xE0).back = [] := by
  have stat : ∀ u : State, (u.setFld rENT_HCNT1 31 24 0).reg rENT_STAT = u.reg rENT_STAT :=
    fun u => reg_setFld_ne _ _ _ _ _ (by decide)
  have emptied : (cClear 0xE0 s).chan 0xE0 = { s.chan 0xE0 with q := [], back := [] } := (chan_setChan _ _ _ _).trans (if_pos rfl)
  refine ⟨?run, (rbit_of_reg (stat _) 0).trans ?ready, (rbit_of_reg (stat _) 2).trans ?failed, congrArg Chan.q emptied,
    congrArg Chan.back emptied⟩
  case run =>
    show { Ent.idle with runFrom := some s.clk.tb, katFor := s.ent.katFor, queued := s.ent.queued } = _
    rw [hk]
    rfl
  case ready => exact (rbit_setRbit_bit _ _ _ _ _ (by decide) (by decide)).trans (rbit_setRbit _ _ _ _ (by decide))
  case failed => exact rbit_setRbit _ _ _ _ (by decide)

theorem katStart_starts (hk : s.ent.katFor = none) (who : Option Nat) :
    katStart who s = (s.onEnt (fun e => { e with katFor := some who })).setRbit rENT_STAT 4 true := if_neg (by simp [hk])

theorem katStart_runs (hk : s.ent.katFor ≠ none) (who : Option Nat) : katStart who s = s :=
  if_pos (Option.isSome_iff_ne_none.2 hk)

section
variable (hup : s.entUp = true)
include hup

section
variable {who : Req} (hw : Writers.appKiln.permits who = true)
include hw

theorem exec_restart : exec (.restart who) s = .next (entAsk .restart s) := next_when hup (entCtl_restart hw)

theorem exec_kat : exec (.kat who) s = .next (katStart none s) := next_when hup (entCtl_kat hw)

theorem exec_clrCnt_kiln (hk : who = .core 5) : exec (.clrCnt who) s =
    .next ((s.setReg rENT_HCNT0 0).setReg rENT_HCNT1 (s.reg rENT_HCNT1 &&& 0xFF000000)) :=
  next_when hup ((entCtl_clr hw).trans (when_true (by rw [hk]; rfl) _ s))

theorem exec_clrCnt_other (hk : who ≠ .core 5) : exec (.clrCnt who) s = .next s :=
  next_when hup ((entCtl_clr hw).trans (when_false (beq_false_of_ne hk) _ s))

end

theorem exec_katComplete_none (hk : s.ent.katFor = none) (pass : Bool) : exec (.katComplete pass) s = .next s :=
  next_when hup (by rw [hk])

theorem exec_katComplete_runs {w : Option Nat} (hk : s.ent.katFor = some w) (pass : Bool) : exec (.katComplete pass) s =
    .next (withSome w (fun e u => if pass then kilnDone e 0 0 0 u else kilnDone e 5 9 0 u) (katEnd pass s)) :=
  next_when hup (by rw [hk])

end

/-! ### ENT_DATA (R869, R870) -/

theorem exec_entData {who : Req} (hl : s.live = true) (hh : (Req.iface who).all (fun _ => s.hostActive who) = true) :
    exec (.entData who) s = .next (answer 0 [(readEntData s).1] false (readEntData s).2) :=
  next_when (by rw [hl, hh]; rfl) rfl

theorem readEntData_head (s : State) : (readEntData s).1 = s.ent.regBuf.headD 0 ∧
    (readEntData s).2.ent = { s.ent with regBuf := s.ent.regBuf.tail } := by
  unfold readEntData
  cases hb : s.ent.regBuf with
  | nil => exact ⟨rfl, by rw [State.setRbit_ent, List.tail_nil, ← hb]⟩
  | cons w ws => exact ⟨rfl, rfl⟩

theorem readEntData_empty (hb : s.ent.regBuf = []) : (readEntData s).2.rbit rENT_STAT 1 = true := by
  unfold readEntData
  rw [hb]
  exact rbit_setRbit _ _ _ _ (by decide)

theorem readEntData_regs (hb : s.ent.regBuf ≠ []) : (readEntData s).2.regs = s.regs := by
  unfold readEntData
  cases h : s.ent.regBuf with
  | nil => exact absurd h hb
  | cons w ws => rfl

/-! ### ENT_KAT and ENT_PATTERN (R875, R877, R882) -/

theorem kilnOp_wait {e op : Nat} {img : Bytes} {body : Bytes → State → KRes KEnd} (h : Serves e op img s t)
    (hb : body img t = .wait) : kilnOp e op body s = s := by
  rw [kilnOp_serves h, hb]

section
variable {img : Bytes} (hk : imgKey img = 0)
include hk

theorem cipherEntKat_eq (hp : paramZero img [] = true) :
    cipherEntKat img t = if t.ent.katFor.isSome then .wait else .ok .later (katStart (some 2) t) := by
  rw [cipherEntKat, noKey_zero hk, andThen_ok, kcheck_true hp, andThen_ok]

theorem cipherEntPattern_eq (hp : paramZero img [0, 4, 5, 6, 7] = true) (h1 : imgParam img 0 1 ≤ 1) :
    cipherEntPattern img t = if t.ent.katFor.isSome then .wait
      else .ok (.done 0 0 0) (entPattern (imgParam img 0 1 = 1) (wd (imgParam img 4 4)) t) := by
  rw [cipherEntPattern, noKey_zero hk, andThen_ok, kcheck_true (by simp [hp, h1]), andThen_ok]

end

/-! ### The obligation -/

/-- Settles O53: the samples and the DRBG change the source alone, a request acts at once or waits for the test that runs, and
ENT_DATA takes the head word (log entry 79 for its words and for DEAD after RESTART). -/
theorem entropyResults : Obligations.EntropyResults := by
  unfold Obligations.EntropyResults
  intro s t who raw raws img d pass e at_
  refine ⟨fun hup => ⟨fun hd => ?sample, fun hd => exec_rawSample_early hd raw, fun hn hl hd => ?block,
      fun hd hn hb => ⟨_, exec_drbgInstantiate_due hup hd hn hb, instantiate_spec s⟩,
      fun hd hr hb hk => ⟨_, exec_reseed_due hup, reseed_done hd hr hb hk⟩, fun hd hb hk hw => ?asked, fun hb hq => ?full,
      fun hb hq hd hr hk => ⟨_, exec_generate hup, fillBuffers_generates hd hb hq hr hk⟩, fun hw => ?requests,
      fun hk => exec_katComplete_none hup hk pass, fun hk => exec_katComplete_runs hup hk pass,
      fun hk => exec_katComplete_runs hup hk pass, fun hq => katEnd_spec pass hq⟩,
    fun hl hh => ⟨_, exec_entData hl hh, ?data⟩, fun h hk hp => ⟨fun ht => ?kat, fun ht => ?katWaits⟩,
    fun h hk hp h1 => ⟨fun ht => ⟨?pattern, entPattern_off _ _⟩, fun ht => ?patternWaits⟩⟩
  case sample => exact ⟨_, exec_rawSample_due hup hd raw, entSample_spec raw s⟩
  case block => exact ⟨_, exec_rawSampleBlock_due hup hn hl hd, entSamples_spec raws s⟩
  case asked => rw [exec_reseed_asked hup hw, entAsk_reseed_waits hb hk]
  case full => rw [exec_generate hup, fillBuffers_full hb hq]
  case requests =>
    refine ⟨fun hk => ⟨_, (exec_restart hup hw).trans (congrArg _ (entAsk_acts hk _)), entRestart_spec hk⟩,
      fun hk => (exec_restart hup hw).trans (congrArg _ (entAsk_queues hk _)),
      fun hk => ⟨_, exec_clrCnt_kiln hup hw hk, ?_, reg_setReg_self _ _ _, rfl⟩, exec_clrCnt_other hup hw,
      fun hk => ⟨_, (exec_kat hup hw).trans (congrArg _ (katStart_starts hk none)), rfl, rbit_setRbit _ _ _ _ (by decide)⟩,
      fun hk => (exec_kat hup hw).trans (congrArg _ (katStart_runs hk none))⟩
    exact (reg_setReg_ne _ _ _ (by decide)).trans (reg_setReg_self _ _ _)
  case data =>
    obtain ⟨hword, hent⟩ := readEntData_head s
    exact ⟨by rw [hword]; rfl, hent, readEntData_empty, readEntData_regs⟩
  case kat => exact congrArg _ (kilnOp_later h ((cipherEntKat_eq hk hp).trans (if_neg (by simp [ht]))))
  case katWaits => exact congrArg _ (kilnOp_wait h ((cipherEntKat_eq hk hp).trans (if_pos (Option.isSome_iff_ne_none.2 ht))))
  case pattern => exact congrArg _ (kilnOp_done h ((cipherEntPattern_eq hk hp h1).trans (if_neg (by simp [ht]))))
  case patternWaits =>
    exact congrArg _ (kilnOp_wait h ((cipherEntPattern_eq hk hp h1).trans (if_pos (Option.isSome_iff_ne_none.2 ht))))

end Sys2Proof.Machine
end

section
/-! The laws of the credential operations: nonces and verification, tickets, tokens, revocation, enrolment and the timers (R891
to R921), and the statement CredentialResults assembled from them. -/
namespace Sys2Proof.Machine

variable {img bs lab msg key z : Bytes} {s t u v w x : State} {n : Nat} {tm : Option Nat}

/-! ### A record's raise (R903, R904) -/

theorem withRaise_effs (tm : Option Nat) (effs : List Eff) (s : State) :
    withRaise tm [] effs s = .ok (jobOf 2 (raiseWrites tm s).1 ((raiseWrites tm s).2 ++ effs)) s := by
  rw [withRaise, List.append_nil]

section
variable (hk : imgKey img = 0)
include hk

/-! ### Nonces and MACs (R891, R892) -/

section
variable (ha : imgParam img 0 1 ≤ 7 ∧ t.sys.active.getLsbD (imgParam img 0 1) = true)
include ha

theorem opCredNonce_keeps (hp : paramZero img [0, 1] = true) (h1 : imgParam img 1 1 = n) (hn : n = 4 ∨ n = 16) (hw : Writable img 1 n)
    (hd : kdraw n t = .ok bs u) (ho : kwrite 2 img 1 bs u = .ok z v) : opCredNonce img t =
      .ok (.done 0 0 0) (v.setKsess (imgParam img 0 1) { v.ksess (imgParam img 0 1) with nonce := some bs }) := by
  have params : (paramZero img [0, 1] && imgParam img 0 1 ≤ 7 && (n = 4 || n = 16)) = true := by simpa [hp, ha.1] using hn
  rw [opCredNonce]
  dsimp only
  rw [noKey_zero hk, andThen_ok, h1, kcheck_true params, andThen_ok, needWrite_ok hw, andThen_ok, sessionOpen_ok ha, andThen_ok,
    hd, andThen_ok, ho, andThen_ok]

section
variable (hp : paramZero img [0] = true)
include hp

omit hk in
theorem sessionParam_ok : (paramZero img [0] && imgParam img 0 1 ≤ 7) = true := by rw [hp, decide_eq_true ha.1]; rfl

theorem opVmac_writes {fob g : Bytes} (hw : Writable img 1 8) (hv : (t.ksess (imgParam img 0 1)).vmac = some (fob, key))
    (hg : groupMsg t = some g) (ho : kwrite 2 img 1 (mac8 key (0x56 :: g ++ fob)) t = .ok z u) :
    opVmac img t = .ok (.done 0 0 0) u := by
  rw [opVmac]
  rw [noKey_zero hk, andThen_ok, kcheck_true (sessionParam_ok ha hp), andThen_ok, needWrite_ok hw, andThen_ok, sessionOpen_ok ha,
    andThen_ok, hv, hg]
  dsimp only
  rw [ho, andThen_ok]

theorem opVmac_none (hw : Writable img 1 8) (hv : (t.ksess (imgParam img 0 1)).vmac = none) : opVmac img t = .fail 5 0x17 t := by
  rw [opVmac]
  rw [noKey_zero hk, andThen_ok, kcheck_true (sessionParam_ok ha hp), andThen_ok, needWrite_ok hw, andThen_ok, sessionOpen_ok ha,
    andThen_ok, hv]

/-! ### Enrolment (R898 to R900, R915) -/

section
variable (hb : Readable img 0 264) (h1 : rec1 t ≠ none)
include hb h1

theorem opEnrolBegin_limit (hl : enrolLimit t ≤ enrolCount t) : opEnrolBegin img t = .fail 5 0x16 (raiseLockdown 2 t) := by
  rw [opEnrolBegin]
  rw [noKey_zero hk, andThen_ok, kcheck_true (sessionParam_ok ha hp), andThen_ok, needRead_ok hb, andThen_ok, sessionOpen_ok ha,
    andThen_ok, kcheck_true (Option.isSome_iff_ne_none.2 h1), andThen_ok, if_pos hl]

theorem opEnrolBegin_opens (hl : enrolCount t < enrolLimit t) (hr : kread 2 img 0 0 264 t = .ok bs u)
    (hv : verifyRecord 6 0xC8 bs (enrolFormat bs) u = .ok tm v)
    (hn : runtimeSlot ((v.ksess (imgParam img 0 1)).enrol.map Enrol.transport) v = .ok n v)
    (hs : unwrapSecret (slice bs 0x28 64) (slice bs 0x68 24) (hdrId bs) v = .ok key v) :
    opEnrolBegin img t = .ok (jobOf 2 ((raiseWrites tm v).1 ++ [.record 1 (leBytes 2 (enrolCount v + 1) ++ leBytes 2 (enrolLimit v))])
      ((raiseWrites tm v).2 ++ [.runtimeKey n key,
        .session (imgParam img 0 1) { v.ksess (imgParam img 0 1) with vmac := none, enrol := some (enrolOf bs n) },
        .done 2 (doneW 0 0 0)])) v := by
  rw [opEnrolBegin]
  dsimp only
  rw [noKey_zero hk, andThen_ok, kcheck_true (sessionParam_ok ha hp), andThen_ok, needRead_ok hb, andThen_ok, sessionOpen_ok ha,
    andThen_ok, kcheck_true (Option.isSome_iff_ne_none.2 h1), andThen_ok, if_neg (by omega), hr, andThen_ok, hv, andThen_ok, enrolOpen,
    hn, andThen_ok]
  dsimp only
  rw [hs]
  rfl

end

section
variable {e : Enrol} (he : (t.ksess (imgParam img 0 1)).enrol = some e)
include he

section
variable (hb : Readable img 0 72) (hc : e.cls ≤ 2) (hv : (t.ksess (imgParam img 0 1)).vmac ≠ none)
  (hr : kread 2 img 0 0 72 t = .ok bs u)
include hb hc hv hr

/-- What ENROL_ORIGIN judges: the credential, then the maker's signature (R898). -/
theorem opEnrolOrigin_judges : opEnrolOrigin img t =
      (kcheck (bs.take 8 = e.credId) 0xC 0x15 u).andThen (fun _ u =>
        (kcheck (ecdsaVerify e.makerPub (sha256 (bs.take 8)) (bs.drop 8)) 0xC 0x10 u).andThen (fun _ u =>
          .ok (.done 0 0 0) (setEnrol (imgParam img 0 1) (some { e with origin := true }) u))) := by
  have mac : (decide (e.cls ≤ 2) && (t.ksess (imgParam img 0 1)).vmac.isSome) = true := by
    rw [decide_eq_true hc, Option.isSome_iff_ne_none.2 hv]
    rfl
  rw [opEnrolOrigin]
  rw [noKey_zero hk, andThen_ok, kcheck_true (sessionParam_ok ha hp), andThen_ok, needRead_ok hb, andThen_ok, sessionOpen_ok ha,
    andThen_ok, inEnrol_ok he, andThen_ok, kcheck_true mac, andThen_ok, hr, andThen_ok]

theorem opEnrolOrigin_verifies (hid : bs.take 8 = e.credId) (hs : ecdsaVerify e.makerPub (sha256 (bs.take 8)) (bs.drop 8) = true) :
    opEnrolOrigin img t = .ok (.done 0 0 0) (setEnrol (imgParam img 0 1) (some { e with origin := true }) u) := by
  rw [opEnrolOrigin_judges hk ha hp he hb hc hv hr, kcheck_true (decide_eq_true hid), andThen_ok, kcheck_true hs, andThen_ok]

theorem opEnrolOrigin_other (hid : bs.take 8 ≠ e.credId) : opEnrolOrigin img t = .fail 0xC 0x15 u := by
  rw [opEnrolOrigin_judges hk ha hp he hb hc hv hr, kcheck_false (decide_eq_false hid), andThen_fail]

end

theorem opEnrolKey_draws (hw : Writable img 1 24) (hc : e.cls ≤ 2) (ho : e.origin = true) (hn : e.newKey = none)
    (hd : kdraw 16 t = .ok key u) (hz : kwrite 2 img 1 (kwWrap ((u.slot e.transport).key.getD []) key) u = .ok z v) :
    opEnrolKey img t = .ok (.done 0 0 0) (setEnrol (imgParam img 0 1) (some { e with newKey := some key }) v) := by
  have origin : (decide (e.cls ≤ 2) && e.origin) = true := by rw [decide_eq_true hc, ho]; rfl
  rw [opEnrolKey]
  rw [noKey_zero hk, andThen_ok, kcheck_true (sessionParam_ok ha hp), andThen_ok, needWrite_ok hw, andThen_ok, sessionOpen_ok ha,
    andThen_ok, inEnrol_ok he, andThen_ok, kcheck_true origin, andThen_ok, hn]
  dsimp only
  rw [hd, andThen_ok, hz, andThen_ok]

end

end

section
variable {e : Enrol} (he : (t.ksess (imgParam img 0 1)).enrol = some e) (hp : paramZero img [0, 4, 5, 6, 7] = true)
include he hp

theorem opEnrolCommit_unproved (hpr : e.proved = false) : opEnrolCommit img t = .fail 5 0x17 t := by
  rw [opEnrolCommit]
  dsimp only
  rw [noKey_zero hk, andThen_ok, kcheck_true (by rw [hp, decide_eq_true ha.1]; rfl), andThen_ok, sessionOpen_ok ha, andThen_ok,
    inEnrol_ok he, andThen_ok, kcheck_false (by rw [hpr]; rfl), andThen_fail]

theorem opEnrolCommit_writes (hpr : e.proved = true) (ho : e.origin = true) (hc : e.cls = 2) : opEnrolCommit img t =
    .ok (jobOf 2 [.record (16 + e.slot) (credBody 2 e.flags e.credId (imgParam img 4 4) (kwWrap (wrapKey t) (e.newKey.getD []))
        ((vehicleNow t).getD 0))]
      [.zap e.transport, .session (imgParam img 0 1) { t.ksess (imgParam img 0 1) with enrol := none, vmac := none },
        .done 2 (doneW 0 0 0)]) t := by
  have not3 : e.cls ≠ 3 := by omega
  rw [opEnrolCommit]
  dsimp only
  rw [noKey_zero hk, andThen_ok, kcheck_true (by rw [hp, decide_eq_true ha.1]; rfl), andThen_ok, sessionOpen_ok ha, andThen_ok,
    inEnrol_ok he, andThen_ok, kcheck_true (by simp [hpr, ho]), andThen_ok, if_neg not3, if_pos hc, hc]

end

/-! ### CRED_VERIFY (R892 to R897) -/

section
variable (hp : paramZero img [0, 1, 4, 5, 6, 7, 8, 9, 10, 11] = true) (hc : imgParam img 1 1 ≤ 4) (hb : Readable img 0 1)
include hp hc hb

theorem opCredVerify_heldOff (hh : heldOff t (imgParam img 1 1) = true) : opCredVerify img t = .fail 0xD 0 t := by
  rw [opCredVerify]
  dsimp only
  rw [noKey_zero hk, andThen_ok, kcheck_true (by rw [hp, decide_eq_true ha.1, decide_eq_true hc]; rfl), andThen_ok, needRead_ok hb,
    andThen_ok, sessionOpen_ok ha, andThen_ok, kcheck_false (by rw [hh]; rfl), andThen_fail]

section
variable (hh : heldOff t (imgParam img 1 1) = false) (hl : kread 2 img 0 0 1 t = .ok lab u)
  (hm : Readable img 0 ((labelLen (leNat lab)).getD 1)) (hr : kread 2 img 0 0 ((labelLen (leNat lab)).getD 1) u = .ok msg v)
  (hg : ticketGone (imgParam img 0 1) (imgParam img 1 1) v = .ok false w)
include hh hl hm hr hg

theorem opCredVerify_error {reason : Nat}
    (hj : judgeCred w (imgParam img 0 1) (imgParam img 1 1) msg (slice img 0x30 8) = .error reason) :
    opCredVerify img t = .ok (jobOf 2 (delayWrites w (imgParam img 1 1) false)
      [.holdOff (imgParam img 1 1), .done 2 (doneW 0xC reason 0)]) w := by
  rw [opCredVerify]
  dsimp only
  rw [noKey_zero hk, andThen_ok, kcheck_true (by rw [hp, decide_eq_true ha.1, decide_eq_true hc]; rfl), andThen_ok, needRead_ok hb,
    andThen_ok, sessionOpen_ok ha, andThen_ok, kcheck_true (by rw [hh]; rfl), andThen_ok, hl, andThen_ok, needRead_ok hm, andThen_ok, hr,
    andThen_ok, hg, andThen_ok, if_neg (by decide), hj]

theorem opCredVerify_ok {m : Matched} {effs : List Eff}
    (hj : judgeCred w (imgParam img 0 1) (imgParam img 1 1) msg (slice img 0x30 8) = .ok m)
    (he : acceptEffs w (imgParam img 0 1) (imgParam img 1 1) m msg = .ok effs x) :
    opCredVerify img t = .ok (jobOf 2 (delayWrites x (imgParam img 1 1) true) effs) x := by
  rw [opCredVerify]
  dsimp only
  rw [noKey_zero hk, andThen_ok, kcheck_true (by rw [hp, decide_eq_true ha.1, decide_eq_true hc]; rfl), andThen_ok, needRead_ok hb,
    andThen_ok, sessionOpen_ok ha, andThen_ok, kcheck_true (by rw [hh]; rfl), andThen_ok, hl, andThen_ok, needRead_ok hm, andThen_ok, hr,
    andThen_ok, hg, andThen_ok, if_neg (by decide), hj]
  dsimp only
  rw [he, andThen_ok]

end

end

/-! ### Tickets (R906 to R910) -/

omit hk ha in
theorem bindTicket_binds {sess idx : Nat} (hl : listed (hdrId bs) v = .ok false w) (hi : rec7Field w 12 ≤ hdrIssued bs)
    (hs : unwrapSecret (slice bs 0x28 64) (slice bs 0x68 24) (hdrId bs) w = .ok key w)
    (hn : runtimeSlot ((w.ksess sess).ticket.map TicketBind.slot) w = .ok n w) : bindTicket sess idx tm bs v =
      .ok (jobOf 2 (raiseWrites tm w).1 ((raiseWrites tm w).2 ++
        [.runtimeKey n (derive key [0x50, 0x41, 0x55, 0x54] (hdrId bs) 16),
         .session sess { w.ksess sess with ticket := some ⟨idx, hdrId bs, leAt bs 0x24 2, n⟩ },
         .load (wd (0x20000000 + sess) :: wordsOf (derive key [0x50, 0x53, 0x54, 0x53] (hdrId bs) 16 ++
           derive key [0x50, 0x53, 0x49, 0x56] (hdrId bs) 12)), .done 2 (doneW 0 0 0)])) w := by
  rw [bindTicket, hl, andThen_ok, kcheck_true (by rw [decide_eq_true hi]; rfl), andThen_ok, hs, andThen_ok, hn, andThen_ok]
  exact withRaise_effs tm _ w

theorem opTicketOpen_verified (hp : paramZero img [0, 4, 5] = true) (hx : imgParam img 4 2 ≤ 2047)
    (hf : kflash (ticketAddr (imgParam img 4 2)) 0x100 t = .ok bs u) (hv : verifyRecord 1 0xC0 bs (ticketFormat bs) u = .ok tm v) :
    opTicketOpen img t = raiseOnFail tm (bindTicket (imgParam img 0 1) (imgParam img 4 2) tm bs v) := by
  rw [opTicketOpen]
  rw [noKey_zero hk, andThen_ok, kcheck_true (by rw [hp, decide_eq_true ha.1, decide_eq_true hx]; rfl), andThen_ok, sessionOpen_ok ha,
    andThen_ok, hf, andThen_ok, hv, andThen_ok]

end

/-! ### Tokens (R916, R917) -/

section
variable (hp : paramZero img [] = true)
include hp

theorem opTokenNonce_keeps (hw : Writable img 1 16) (hd : kdraw 16 t = .ok bs u) (ho : kwrite 2 img 1 bs u = .ok z v) :
    opTokenNonce img t = .ok (.done 0 0 0) { v with creds := { v.creds with tokenNonce := some bs } } := by
  rw [opTokenNonce, noKey_zero hk, andThen_ok, kcheck_true hp, andThen_ok, needWrite_ok hw, andThen_ok, hd, andThen_ok, ho, andThen_ok]

section
variable (hb : Readable img 0 128) (hr : kread 2 img 0 0 128 t = .ok bs u)
  (hv : verifyRecord (leAt bs 4 1) 0x40 bs (tokenFormat bs) u = .ok tm v)
include hb hr hv

theorem opToken_verified : opToken img t =
    if v.creds.tokenNonce = some (slice bs 0x30 16) then tokenAct tm bs v else endRaise tm 0xC 0x12 v := by
  rw [opToken, noKey_zero hk, andThen_ok, kcheck_true hp, andThen_ok, needRead_ok hb, andThen_ok, hr, andThen_ok, hv, andThen_ok]

end

omit hk hp in
/-- A service token (R917). -/
theorem tokenAct_service (h2 : leAt bs 4 1 = 2) : tokenAct tm bs v = if takesService v.sys.mode
    then .ok (jobOf 2 (raiseWrites tm v).1 ((raiseWrites tm v).2 ++ [.service (leAt bs 0x24 4)])) v else .ok (.done 5 0x17 0) v := by
  rw [tokenAct, h2, ← withRaise_effs]
  rfl

/-! ### Trust anchors (R914) -/

theorem opTrustSet_sets (hm : t.sys.mode = .unmated) (h6 : payload t 6 = none) (hb : Readable img 0 136)
    (hr : kread 2 img 0 0 136 t = .ok bs u) (hf : anchorsFormat bs = true) (hc : anchorsOnCurve bs = true) :
    opTrustSet img t = .ok (jobOf 2 [.record 6 bs] [.done 2 (doneW 0 0 0)]) u := by
  rw [opTrustSet]
  dsimp only
  rw [noKey_zero hk, andThen_ok, kcheck_true hp, andThen_ok, hm, h6, if_neg (by decide), if_pos (by decide), needRead_ok hb, andThen_ok, hr,
    andThen_ok, kcheck_true hf, andThen_ok, kcheck_true hc, andThen_ok]

theorem opTrustSet_refused (hm : t.sys.mode ≠ .unmated) (hm' : t.sys.mode ≠ .service) : opTrustSet img t = .fail 5 0x17 t := by
  rw [opTrustSet]
  dsimp only
  rw [noKey_zero hk, andThen_ok, kcheck_true hp, andThen_ok, if_neg (by simpa using hm'), if_neg (by simp [hm])]

end

/-! ### Revocation (R907, R911 to R913) -/

section
variable (hp : paramZero img [0] = true)
include hp

theorem opCredErase_erases (h31 : imgParam img 0 1 ≤ 31) :
    opCredErase img t = .ok (jobOf 2 [.record (16 + imgParam img 0 1) (List.replicate 44 0)] [.done 2 (doneW 0 0 0)]) t := by
  rw [opCredErase, noKey_zero hk, andThen_ok, kcheck_true (by rw [hp, decide_eq_true h31]; rfl), andThen_ok]

section
variable (h1 : imgParam img 0 1 ≤ 1) (hf : kflash (bankBase (imgParam img 0 1)) 0x40 t = .ok lab u) (hn : leAt lab 0x24 4 = n)
  (hn' : n ≤ 32000) (hl : kflash (bankBase (imgParam img 0 1)) (0x80 + 8 * n) u = .ok bs v)
  (hv : verifyRecord 5 (0x40 + 8 * n) bs (listFormat bs n) v = .ok tm w)
include h1 hf hn hn' hl hv

theorem opRevoke_old (ho : leAt bs 8 4 ≤ rec7Field w 8) : opRevoke img t = endRaise tm 0xC 0x12 w := by
  rw [opRevoke]
  dsimp only
  rw [noKey_zero hk, andThen_ok, kcheck_true (by rw [hp, decide_eq_true h1]; rfl), andThen_ok, hf, andThen_ok, hn,
    kcheck_true (decide_eq_true hn'), andThen_ok, hl, andThen_ok, hv, andThen_ok, if_pos ho]

theorem opRevoke_newer {gone : List Nat} {mark : Bool} (ho : rec7Field w 8 < leAt bs 8 4)
    (hg : goneSessions (leAt bs 0x2C 4) (chunks 8 n (slice bs 0x40 (8 * n))) (List.range 8) w = .ok gone w)
    (hm : goneMark (leAt bs 0x2C 4) (chunks 8 n (slice bs 0x40 (8 * n))) w = .ok mark w) : opRevoke img t =
      .ok (jobOf 2 [.record 7 (leBytes 4 ((tm.or (vehicleNow w)).getD (hdrIssued bs)) ++ [BitVec.ofNat 8 (imgParam img 0 1), 0, 0, 0] ++
          leBytes 4 (leAt bs 8 4) ++ slice bs 0x28 8 ++ leBytes 4 n)]
        ((raiseWrites tm w).2 ++ [.revoked gone mark, .done 2 (doneW 0 0 0)])) w := by
  rw [opRevoke]
  dsimp only
  rw [noKey_zero hk, andThen_ok, kcheck_true (by rw [hp, decide_eq_true h1]; rfl), andThen_ok, hf, andThen_ok, hn,
    kcheck_true (decide_eq_true hn'), andThen_ok, hl, andThen_ok, hv, andThen_ok, if_neg (by omega), hg, andThen_ok, hm, andThen_ok]
  cases tm <;> rfl

end

end

/-! ### Mating to the vehicle (R921) -/

section
variable (hp : paramZero img [0, 1, 2, 4, 5] = true) (hw : Writable img 1 64) (hn : imgParam img 4 2 ≠ 0)
include hp hw hn

theorem opMateVehicle_mates {d : Nat} (hc : enrolCount t < imgParam img 4 2) (hd : kscalar 8 t = .ok d u) : opMateVehicle img t =
    .ok (jobOf 2 [.record 5 (leBytes 3 (imgParam img 0 3) ++ [0] ++ kwWrap (wrapKey u) (beBytes 32 d) ++ pubOf d),
        .record 1 (leBytes 2 (enrolCount u) ++ leBytes 2 (imgParam img 4 2))]
      [.bufDone 2 (imgBuf img 1).ctx (imgBuf img 1).addr (pubOf d)]) u := by
  rw [opMateVehicle]
  dsimp only
  rw [noKey_zero hk, andThen_ok, kcheck_true hp, andThen_ok, needWrite_ok hw, andThen_ok, if_neg hn, kcheck_true (decide_eq_true hc),
    andThen_ok, hd, andThen_ok]

theorem opMateVehicle_limit (hc : imgParam img 4 2 ≤ enrolCount t) : opMateVehicle img t = .fail 5 0x17 t := by
  rw [opMateVehicle]
  dsimp only
  rw [noKey_zero hk, andThen_ok, kcheck_true hp, andThen_ok, needWrite_ok hw, andThen_ok, if_neg hn,
    kcheck_false (decide_eq_false (by omega)), andThen_fail]

end

end

/-! ### The timers (R897, R903) -/

theorem timeWrite_due {now : Nat} (ht : vehicleNow s = some now) (hd : s.creds.timeWritten + 86400 * 32768 ≤ s.clk.rtc)
    (h7 : payload s 7 ≠ none) : timeWrite s =
      addJob [.record 7 (rec7With s now)] [] [] { s with creds := { s.creds with timeWritten := s.clk.rtc } } := by
  rw [timeWrite, ht]
  dsimp only
  rw [if_neg (by simp [h7]; omega)]

theorem exec_holdOffEnd (cls : Fin 8) (hup : s.timed = true) : exec (.holdOffEnd cls) s = .next (holdOffEnd cls.val s) :=
  next_when hup rfl

/-- Settles O54: each operation's checks pass, or one of them ends it; what it writes is its job (a failed record still
leaves its raise, and the order of the checks is the model's: log entries 84 and 85). -/
theorem credentialResults : Obligations.CredentialResults := by
  unfold Obligations.CredentialResults
  intro s t u v w x img bs z lab msg key n tm e cls sess serves active ends ok works raise
  have fails : ∀ {op body st re} {y : State}, serves op → body img t = .fail st re y →
      (.next (credOp 2 op body s) : Out) = .next (ends st re y) := fun h hb => congrArg _ (credOp_fail h.1 hb)
  have done : ∀ {op body st re} {y : State}, serves op → body img t = .ok (.done st re 0) y →
      (.next (credOp 2 op body s) : Out) = .next (ends st re y) := fun h hb => congrArg _ (credOp_done h.1 hb)
  have writes : ∀ {op body ws effs} {y : State}, serves op → body img t = .ok (jobOf 2 ws effs) y →
      (.next (credOp 2 op body s) : Out) = .next (works ws effs y) := fun h hb => congrArg _ (credOp_job h.1 hb)
  refine ⟨fun h hp h1 hn hw ha hd ho => done h (opCredNonce_keeps h.2 ha hp h1 hn hw hd ho),
    fun h hp hw ha => ⟨fun _ _ hv hg ho => done h (opVmac_writes h.2 ha hp hw hv hg ho), fun hv => fails h (opVmac_none h.2 ha hp hw hv)⟩,
    fun h hp hc hb ha => ?verify, fun h hp hx ha hf hv hl hi hs hn => ?ticket,
    fun h hp hw hd ho => done h (opTokenNonce_keeps h.2 hp hw hd ho), fun h hp hb hr hv => ?token,
    fun h hp h1 hf hn hn' hl hv => ?revoke, fun h hp hb ha h1 => ?begin, fun he ha => ?enrolment,
    fun h hp h31 => writes h (opCredErase_erases h.2 hp h31), fun d h hp hw h4 hn => ?mate, fun h hp => ?trust,
    fun now hup ht hd h7 => next_when hup (congrArg kick4 (timeWrite_due ht hd h7)), fun hup hfrom => ?holdOff⟩
  case verify =>
    exact ⟨fun hh => fails h (opCredVerify_heldOff h.2 ha hp hc hb hh), fun hh hl hm hr hg =>
      ⟨fun _ hj => writes h (opCredVerify_error h.2 ha hp hc hb hh hl hm hr hg hj),
        fun _ _ hj he => writes h (opCredVerify_ok h.2 ha hp hc hb hh hl hm hr hg hj he)⟩⟩
  case ticket =>
    exact writes h ((opTicketOpen_verified h.2 ha hp hx hf hv).trans (congrArg _ (bindTicket_binds hl hi hs hn)))
  case token =>
    have verified := opToken_verified h.2 hp hb hr hv
    refine ⟨fun hn => writes h (verified.trans (if_neg hn)), fun hn h2 => ?_⟩
    have service := verified.trans ((if_pos hn).trans (tokenAct_service h2))
    exact ⟨fun hm => writes h (service.trans (if_pos hm)), fun hm => done h (service.trans (if_neg (by rw [hm]; decide)))⟩
  case revoke =>
    refine ⟨fun ho => writes h (opRevoke_old h.2 hp h1 hf hn hn' hl hv ho), fun gone mark ho hg hm => ?_⟩
    refine (writes h (opRevoke_newer h.2 hp h1 hf hn hn' hl hv ho hg hm)).trans ?_
    cases tm <;> rfl
  case begin =>
    exact ⟨fun hl => fails h (opEnrolBegin_limit h.2 ha hp hb h1 hl),
      fun hl hr hv hn hs => writes h (opEnrolBegin_opens h.2 ha hp hb h1 hl hr hv hn hs)⟩
  case enrolment =>
    refine ⟨fun h hp hb hc hv hr => ⟨fun hid hs => done h (opEnrolOrigin_verifies h.2 ha hp he hb hc hv hr hid hs),
      fun hid => fails h (opEnrolOrigin_other h.2 ha hp he hb hc hv hr hid)⟩,
      fun h hp hw hc ho hn hd hz => done h (opEnrolKey_draws h.2 ha hp he hw hc ho hn hd hz),
      fun h hp hpr ho hc => writes h (opEnrolCommit_writes h.2 ha he hp hpr ho hc),
      fun h hp hpr => fails h (opEnrolCommit_unproved h.2 ha he hp hpr)⟩
  case mate =>
    subst h4
    exact ⟨fun hc hd => writes h (opMateVehicle_mates h.2 hp hw hn hc hd), fun hc => fails h (opMateVehicle_limit h.2 hp hw hn hc)⟩
  case trust =>
    exact ⟨fun hm h6 hb hr hf hc => writes h (opTrustSet_sets h.2 hp hm h6 hb hr hf hc),
      fun hm hm' => fails h (opTrustSet_refused h.2 hp hm hm')⟩
  case holdOff =>
    exact ⟨fun hh => (exec_holdOffEnd cls hup).trans (congrArg _ (when_true (by rw [hfrom, hh]; rfl) _ _)),
      fun hh => (exec_holdOffEnd cls hup).trans (congrArg _ (when_false (by rw [hh, Bool.not_true, Bool.and_false]) _ _))⟩

end Sys2Proof.Machine
end

section
/-! The laws of the start lock: CRANK, key rolls, mating and the partner's frames (R922 to R946), and the statement
StartLockResults assembled from them. -/
namespace Sys2Proof.Machine

variable {img bs key new : Bytes} {s t u : State} {c : CrankRun} {ch : Challenge} {r : RollRun} {m : MateRun} {k : Bool × Bytes} {d : Nat}

/-! ### CRANK (R931 to R936) -/

/-- A CRANK that waits for its CHALLENGE. -/
def crankWaits (s : State) : State :=
  s.onStart (fun x => { x with crank := some ⟨startDispatch s, none, none, [], none, none, false⟩ })

/-- The latest CHALLENGE is used once. -/
def useChallenge (ch : Challenge) (s : State) : State := s.onStart (fun x => { x with chal := some { ch with used := true } })

theorem opCrank_param (hz : startZero img = false) : opCrank img t = .fail 5 1 t := by
  rw [opCrank, kcheck_false hz, andThen_fail]

theorem opCrank_later (hz : startZero img = true) : opCrank img t = .ok .later (crankTry (crankWaits t)) := by
  rw [opCrank, kcheck_true hz, andThen_ok]
  rfl

theorem crankTry_idle (hc : s.start.crank = none) : crankTry s = s := by
  rw [crankTry, hc]

section
variable (hc : s.start.crank = some c) (hn : c.chal = none) (h : s.start.chal = some ch) (hu : ch.used = false)
  (ht : c.dispatchedAt ≤ ch.tick + msTicks 5)
include hc hn h hu ht

theorem crankTry_unverified (hk : challengeKey (useChallenge ch s) ch.bytes = none) : crankTry s = replaced (useChallenge ch s) := by
  unfold useChallenge at hk
  rw [crankTry_go hc hn h hu ht, hk]
  rfl

theorem crankTry_verified (hk : challengeKey (useChallenge ch s) ch.bytes = some k) :
    crankTry s = crankGo c ch k (useChallenge ch s) := by
  unfold useChallenge at hk
  rw [crankTry_go hc hn h hu ht, hk]
  rfl

end

theorem crankAnswer_late (hc : s.start.crank = some c) (hh : c.chal = some ch) (ht : answerBy ch < s.clk.tb) :
    crankAnswer s = crankLate s := by
  rw [crankAnswer, hc]
  dsimp only
  rw [hh]
  exact if_pos ht

theorem crankDeadline_idle (hc : s.start.crank = none) : crankDeadline s = s := by
  rw [crankDeadline, hc]

theorem crankDeadline_late (hc : s.start.crank = some c) (hh : c.chal = some ch) (ht : answerBy ch < s.clk.tb) (hs : c.sent = false)
    (ha : c.answered = none) : crankDeadline s = crankLate (dropPartner s) := by
  have late : (c.chal.any (fun ch => answerBy ch < s.clk.tb) && !c.sent && !(c.answered.isSome && partnerOnWire s)) = true := by
    rw [hh, hs, ha, Option.any_some, decide_eq_true ht]
    rfl
  rw [crankDeadline, hc]
  exact if_pos late

/-! ### Key rolls (R940 to R946) -/

section
variable (hz : startZero img = true)
include hz

theorem opRollEngine_unmated (h3 : rec3State t ≠ 1) : opRollEngine img t = .fail 5 0x17 t := by
  rw [opRollEngine, kcheck_true hz, andThen_ok, kcheck_false (by rw [decide_eq_false h3]; rfl), andThen_fail]

theorem opRollEngine_writes (h3 : rec3State t = 1) (hk : curKey t ≠ none) (hd : kdraw 16 t = .ok new u) : opRollEngine img t =
    .ok (.job ⟨[.record 3 ([2, 0] ++ leBytes 2 (leAt (rec3 u) 2 2 + 1) ++
        leBytes 4 (if (u.reg rSTART_COUNT).toNat < rec3Ceil u then rec3Ceil u else rec3Ceil u + 256) ++
        slice (rec3 u) 8 24 ++ kwWrap (wrapKey u) new ++ slice (rec3 u) 0x38 12)], [.rollSend], fail1B⟩)
      (u.onStart (fun x => { x with roll := some ⟨[], new, 0, 0, u.clk.tb, false⟩ })) := by
  have single : (decide (rec3State t = 1) && (curKey t).isSome) = true := by
    rw [decide_eq_true h3, Option.isSome_iff_ne_none.2 hk]
    rfl
  rw [opRollEngine, kcheck_true hz, andThen_ok, kcheck_true single, andThen_ok, hd, andThen_ok]

end

section
variable (hr : s.start.roll = some r) (hc : r.confirmed = false)
include hr hc

theorem rollAck_judges (hf : r.frame ≠ []) : rollAck bs s =
    if mac8 r.newKey (0x73 :: bs.take 8 ++ beBytes 4 r.count) = slice bs 8 8 then rollConfirm r s else s := by
  rw [rollAck, hr]
  exact if_neg (by simpa [hc] using hf)

theorem rollRepeat_due (hs : r.sent = 1 ∨ r.sent = 2) (ht : r.sentAt + msTicks 50 ≤ s.clk.tb) :
    rollRepeat s = sendPartner (startCan s) (s.reg rSTART_TXID) r.frame
      (dropPartner (s.onStart (fun x => { x with roll := some { r with sent := r.sent + 1, sentAt := s.clk.tb } }))) := by
  rw [rollRepeat, hr]
  exact if_neg (by simp [hc]; omega)

omit hc in
theorem rollRepeat_over (hs : 3 ≤ r.sent) : rollRepeat s = s := by
  rw [rollRepeat, hr]
  exact if_pos (by simp [hs])

theorem rollTimeout_due (hs : 3 ≤ r.sent) (ht : r.sentAt + msTicks 150 ≤ s.clk.tb) :
    rollTimeout s = startDone 5 0x18 0 (dropPartner s) := by
  rw [rollTimeout, hr]
  exact if_neg (by simp [hc]; omega)

omit hc in
theorem rollTimeout_early (hs : r.sent < 3) : rollTimeout s = s := by
  rw [rollTimeout, hr]
  exact if_pos (by simp [hs])

end

/-! ### Mating (R922, R923) -/

theorem opMateEngine_offers (hk : imgKey img = 0) (hp : mateParamOk img = true) (hd : kscalar 8 t = .ok d u) :
    opMateEngine img t = .ok .later (sendPartner (imgParam img 8 1) (wd (imgParam img 4 4)) (offerFrame 1 ((pubOf d).drop 32))
      (sendPartner (imgParam img 8 1) (wd (imgParam img 4 4)) (offerFrame 0 ((pubOf d).take 32)) (u.onStart (fun x => { x with
        mate := some ⟨wd (imgParam img 0 4), wd (imgParam img 4 4), imgParam img 8 1, d, none, none, u.clk.tb, none⟩ })))) := by
  rw [opMateEngine, noKey_zero hk, andThen_ok, kcheck_true hp, andThen_ok, hd, andThen_ok]

section
variable (hm : s.start.mate = some m) (hc : m.confirmed = none)
include hm hc

theorem mateReply_x (h0 : leAt bs 1 1 = 0) (hy : m.y = none) : mateReply bs s =
    s.onStart (fun x => { x with mate := some { m with lastAt := s.clk.tb, x := some (slice bs 8 32) } }) := by
  rw [mateReply, hm]
  dsimp only
  rw [if_neg (by simp [hc, h0]), if_pos h0]
  exact if_neg (by simp [matePeer, hy])

theorem mateReply_no_point {x : Bytes} (h1 : leAt bs 1 1 = 1) (hx : m.x = some x) (hp : pubOk (x ++ slice bs 8 32) = false) :
    mateReply bs s = startDone 5 6 0
      (s.onStart (fun x => { x with mate := some { m with lastAt := s.clk.tb, y := some (slice bs 8 32) } })) := by
  rw [mateReply, hm]
  dsimp only
  rw [if_neg (by simp [hc, h1]), if_neg (show leAt bs 1 1 ≠ 0 by omega)]
  exact if_pos (by simp [matePeer, hx, hp])

theorem mateConfirm_judges (hk : mateKey m = some key) : mateConfirm bs s =
    if mac8 key (0x4D :: bs.take 8 ++ devIdBytes) = slice bs 8 8 then
      addJob [.record 3 (rec3Body 1 0 256 (kwWrap (wrapKey s) key) [] m.rxid m.txid m.can),
        .record 0 (modePayload true s.sys.lockCause (storedMatings s + 1))] [.mated, .mateEnd] fail1B
        (s.onStart (fun x => { x with mate := some { m with confirmed := some key, lastAt := s.clk.tb } }))
    else startDone 0xC 0x10 0 s := by
  rw [mateConfirm, hm]
  dsimp only
  rw [hc, hk]

theorem mateTimeout_due (ht : m.lastAt + msTicks 200 ≤ s.clk.tb) : mateTimeout s = startDone 5 0x18 0 (dropPartner s) := by
  rw [mateTimeout, hm]
  exact if_neg (by simp [hc]; omega)

omit hc in
theorem mateTimeout_early (ht : s.clk.tb < m.lastAt + msTicks 200) : mateTimeout s = s := by
  rw [mateTimeout, hm]
  exact if_pos (by simp [ht])

end

/-! ### The partner's frames (R927) -/

/-- A CHALLENGE latched with its event. -/
def latchChallenge (bs : Bytes) (s : State) : State :=
  (startEvent 0 s).onStart (fun x => { x with chal := some ⟨bs, s.clk.tb, false⟩ })

theorem partnerRow_takes {type : Nat} (h : s.timed = true ∧ (partnerPath s).isSome = true ∧ leAt bs 0 1 = type) :
    partnerRow type bs s = partnerTake bs s := by
  obtain ⟨ht, hp, ho⟩ := h
  exact when_true (by rw [ht, hp, decide_eq_true ho]; rfl) _ _

theorem partnerRow_other {type : Nat} (h : leAt bs 0 1 ≠ type) : partnerRow type bs s = s :=
  when_false (by rw [decide_eq_false h, Bool.and_false]) _ _

theorem partnerTake_challenge (h0 : leAt bs 0 1 = 0xC1) (hl : bs.length = 32) : partnerTake bs s = takeChallenge bs s := by
  rw [partnerTake, h0, hl]
  rfl

theorem partnerTake_rollAck (h0 : leAt bs 0 1 = 0xB2) (hl : bs.length = 16) : partnerTake bs s = rollAck bs s := by
  rw [partnerTake, h0, hl]
  rfl

theorem partnerTake_mateReply (h0 : leAt bs 0 1 = 0xD2) (hl : bs.length = 48) : partnerTake bs s = mateReply bs s := by
  rw [partnerTake, h0, hl]
  rfl

theorem partnerTake_mateConfirm (h0 : leAt bs 0 1 = 0xD3) (hl : bs.length = 16) : partnerTake bs s = mateConfirm bs s := by
  rw [partnerTake, h0, hl]
  rfl

theorem takeChallenge_roll (hr : s.start.roll = some r) :
    takeChallenge bs s = rollChallenge r ⟨bs, s.clk.tb, false⟩ (latchChallenge bs s) := by
  have latched : (latchChallenge bs s).start.roll = some r := hr
  unfold latchChallenge at latched ⊢
  rw [takeChallenge, latched]

theorem takeChallenge_crank (hr : s.start.roll = none) : takeChallenge bs s = crankTry (latchChallenge bs s) := by
  have latched : (latchChallenge bs s).start.roll = none := hr
  unfold latchChallenge at latched ⊢
  rw [takeChallenge, latched]

/-! ### Presence supervision (R939) -/

section
variable (hl : s.live = true) (hd : s.sys.mode = .drive)
include hl hd

theorem exec_presenceSupervision_due (h : s.start.markAt = none ∨ supervisionEnd s ≤ s.clk.tb) :
    exec .presenceSupervision s = .next (commit .access 0x0B s) :=
  next_when (by rw [hl, hd]; simpa using h) (when_true (by rw [hd]; rfl) _ _)

theorem exec_presenceSupervision_early (h : s.start.markAt ≠ none) (ht : s.clk.tb < supervisionEnd s) :
    exec .presenceSupervision s = .next s :=
  next_when_not (by rw [hl, hd, Option.isNone_eq_false_iff.2 (Option.isSome_iff_ne_none.2 h), decide_eq_false (by omega)]; rfl) _ s

end

theorem exec_presenceSupervision_other (hd : s.sys.mode ≠ .drive) : exec .presenceSupervision s = .next s :=
  next_when_not (by simp [hd]) _ s

/-- Settles O55: each operation and frame of the start lock by the state that it finds (the latched CHALLENGE and the timers
of a roll are the model's: log entry 87). -/
theorem startLockResults : Obligations.StartLockResults := by
  unfold Obligations.StartLockResults
  intro s t u img key new frame c ch r m k d serves waits used ends partner heard latched
  have fails : ∀ {op body st re} {y : State}, serves op → body img t = .fail st re y →
      (.next (credOp 0xC op body s) : Out) = .next (ends st re y) := fun h hb => congrArg _ (credOp_fail h hb)
  have later : ∀ {op body} {y : State}, serves op → body img t = .ok .later y →
      (.next (credOp 0xC op body s) : Out) = .next (kick4 y) := fun h hb => congrArg _ (credOp_later h hb)
  have heardBy : ∀ {type : Nat} {y : State}, partner type → partnerTake frame s = y →
      (.next (kick4 (partnerRow type frame s)) : Out) = .next (kick4 y) :=
    fun h hy => congrArg (fun y => (.next (kick4 y) : Out)) ((partnerRow_takes h).trans hy)
  refine ⟨fun h hz => fails h (opCrank_param hz), fun h hz => ?crank, fun hc hh => ⟨crankAnswer_late hc hh, crankAnswer_spec hc hh⟩,
    fun st re v => startDone_spec st re v s, fun h hz h3 hk hd => ?roll, fun h hz h3 => fails h (opRollEngine_unmated hz h3),
    fun h hk hp hd => later h (opMateEngine_offers hk hp hd), fun h hl => ?challenge, fun h hl hr hc hf => ?rollAck,
    fun h hl hm hc => ?mateReply, fun h hl hm hc hk => ?mateConfirm, fun h0 => congrArg _ (congrArg kick4 (partnerRow_other h0)),
    fun ht => ?timers, fun hl => ⟨exec_presenceSupervision_due hl, exec_presenceSupervision_early hl, exec_presenceSupervision_other⟩⟩
  case crank =>
    have tries : ∀ {y : State}, crankTry (crankWaits t) = y → exec .crank s = .next (kick4 y) :=
      fun hy => later h ((opCrank_later hz).trans (congrArg _ hy))
    exact ⟨fun hn => tries (crankTry_wait rfl (.inl hn)), fun hch hu => tries (crankTry_wait rfl (.inr ⟨ch, hch, hu⟩)),
      fun hch hu ht => ⟨fun hk => tries (crankTry_unverified rfl rfl hch hu ht hk),
        fun hk => tries (crankTry_verified rfl rfl hch hu ht hk)⟩⟩
  case roll => exact congrArg _ (credOp_job h (opRollEngine_writes hz h3 hk hd))
  case challenge =>
    have takes := partnerTake_challenge (s := s) h.2.2 hl
    exact ⟨fun hr hc => heardBy h (takes.trans ((takeChallenge_crank hr).trans (crankTry_idle hc))),
      fun hr hc hn ht hk => heardBy h (takes.trans ((takeChallenge_crank hr).trans (crankTry_verified hc hn rfl rfl ht hk))),
      fun hr => heardBy h (takes.trans (takeChallenge_roll hr))⟩
  case rollAck =>
    have judged := (partnerTake_rollAck h.2.2 hl).trans (rollAck_judges hr hc hf)
    exact ⟨fun he => heardBy h (judged.trans (if_pos he)), fun he => heardBy h (judged.trans (if_neg he))⟩
  case mateReply =>
    have takes := partnerTake_mateReply (s := s) h.2.2 hl
    exact ⟨fun h0 hy => heardBy h (takes.trans (mateReply_x hm hc h0 hy)),
      fun x h1 hx hp => heardBy h (takes.trans (mateReply_no_point hm hc h1 hx hp))⟩
  case mateConfirm =>
    have judged := (partnerTake_mateConfirm h.2.2 hl).trans (mateConfirm_judges hm hc hk)
    exact ⟨fun he => heardBy h (judged.trans (if_pos he)), fun he => heardBy h (judged.trans (if_neg he))⟩
  case timers =>
    exact ⟨fun hc hh hb hs ha => next_when ht (crankDeadline_late hc hh hb hs ha), fun hc => next_when ht (crankDeadline_idle hc),
      fun hm hc => ⟨fun hd => next_when ht (mateTimeout_due hm hc hd), fun hd => next_when ht (mateTimeout_early hm hd)⟩,
      fun hr hc => ⟨fun hs hd => next_when ht (rollRepeat_due hr hc hs hd), fun hs => next_when ht (rollRepeat_over hr hs),
        fun hs hd => next_when ht (rollTimeout_due hr hc hs hd), fun hs => next_when ht (rollTimeout_early hr hs)⟩⟩

end Sys2Proof.Machine
end

section
/-! The laws of the BLE transport and of the NFC reader (R760 to R796), and the statement PhoneAndCardResults assembled from
them. -/
namespace Sys2Proof.Machine

variable {s t : State} {who : Req} {value w : Word} {bs : Bytes} {ind k : Nat} {rest : List Word} {h : ChWord} {x : NfcTx}

theorem head_of_bit_permits (hl : s.live = true) (hw : Writers.app.permits who = true) (hb : bit value 0 = true) :
    (s.live && Writers.app.permits who && bit value 0) = true := by rw [hl, hw, hb]; rfl

/-! ### The transmit and receive FIFOs (R760, R761, R763) -/

section
variable (hl : s.live = true) (hw : Writers.app.permits who = true)
include hl hw

theorem exec_hciTxd_writes : exec (.hciTxd who value) s = .next (bleTxd value s) := next_when (by rw [hl, hw]; rfl) rfl

theorem exec_rxpop_drops (hb : bit value 0 = true) (hh : s.ble.held = []) :
    exec (.rxpop who value) s = .next { s with ble := { s.ble with rx := s.ble.rx.drop 1 } } :=
  next_when (head_of_bit_permits hl hw hb) (blePlace_none (s := s.onBle (fun b => { b with rx := b.rx.drop 1 })) hh _)

theorem exec_resync (hb : bit value 0 = true) : exec (.resync who value) s = .next (bleCfg value s) :=
  next_when (head_of_bit_permits hl hw hb) rfl

end

theorem bleTxd_faulty (h2 : s.rbit rBLE_STAT 2 = true) : bleTxd value s = s := if_pos h2

section
variable (h2 : s.rbit rBLE_STAT 2 = false)
include h2

theorem bleTxd_full (hf : s.rbit rBLE_CFG 31 = false ∨ 128 ≤ s.ble.tx.length) : bleTxd value s = bleEvent 1 s := by
  rw [bleTxd, if_neg (by simp [h2]), if_pos (by simpa using hf)]

theorem bleTxd_joins (hen : s.rbit rBLE_CFG 31 = true) (hl : s.ble.tx.length < 128) :
    bleTxd value s = { s with ble := { s.ble with tx := s.ble.tx ++ [value] } } := by
  rw [bleTxd, if_neg (by simp [h2]), if_neg (by simpa [hen] using hl)]
  rfl

end

/-- A RESYNC that does not start the controller empties the transmit FIFO (R761). -/
theorem bleCfg_resync (hb : bit value 0 = true) (hs : bit value 31 = false ∨ s.ble.started = true) :
    (bleCfg value s).ble = { s.ble with tx := [] } ∧ (bleCfg value s).rbit rBLE_STAT 2 = false ∧
    (bleCfg value s).rbit rBLE_CFG 31 = bit value 31 := by
  have started : (bit value 31 && !s.ble.started) = false := by rcases hs with hs | hs <;> simp [hs]
  have resynced : bleCfg value s =
      ((s.onBle (fun b => { b with tx := [] })).setRbit rBLE_STAT 2 false).setRbit rBLE_CFG 31 (bit value 31) := by
    rw [bleCfg, when_true hb]
    exact when_false started _ _
  rw [resynced]
  exact ⟨rfl, (rbit_of_reg (reg_setRbit_ne _ _ _ _ (by decide)) 2).trans (rbit_setRbit _ _ _ _ (by decide)),
    rbit_setRbit _ _ _ _ (by decide)⟩

/-! ### Packets of the host stack (R761, R767) -/

section
variable (hup : s.bleUp = true)
include hup

theorem exec_hciPacket : exec .hciPacket s = .next (bleTake (fun _ _ => true) s) := next_when hup rfl

theorem exec_muporSetBankAdvertising : exec .muporSetBankAdvertising s =
    .next (bleTake (fun ind bs => ind == 1 && leAt bs 0 2 == 0xFC01) s) := next_when hup rfl

end

/-- A faulty header empties the FIFO and marks it (R761). -/
theorem bleTake_bad {want : Nat → Bytes → Bool} (hh : hciHead s.ble.tx = .bad) : (bleTake want s).ble = { s.ble with tx := [] } ∧
    (bleTake want s).rbit rBLE_STAT 2 = true ∧ (bleTake want s).rbit rBLE_EVT 2 = true := by
  have marked : bleTake want s = bleEvent 2 ((s.onBle (fun b => { b with tx := [] })).setRbit rBLE_STAT 2 true) := by rw [bleTake, hh]
  obtain ⟨hble, -, hevt, hreg⟩ :=
    bleEvent_spec (b := 2) (by decide) ((s.onBle (fun b => { b with tx := [] })).setRbit rBLE_STAT 2 true)
  rw [marked]
  exact ⟨hble, (rbit_of_reg (hreg _ (by decide)) 2).trans (rbit_setRbit _ _ _ _ (by decide)), hevt⟩

section
variable {want : Nat → Bytes → Bool} (hh : hciHead s.ble.tx = .packet ind bs rest) (hw : want ind bs = true)
include hh hw

theorem bleTake_data (hi : ind ≠ 1) : bleTake want s = { s with ble := { s.ble with tx := rest } } := by
  rw [bleTake, hh]
  dsimp only
  rw [if_pos hw, if_neg hi]
  rfl

theorem bleTake_command (hi : ind = 1) : bleTake want s = hciCommand bs { s with ble := { s.ble with tx := rest } } := by
  rw [bleTake, hh]
  dsimp only
  rw [if_pos hw, if_pos hi]
  rfl

end

theorem hciCommand_unsupported (ho : hciSupported (leAt bs 0 2) = false) : hciCommand bs s = commandStatus (leAt bs 0 2) 1 s := by
  rw [hciCommand]
  exact if_pos (by rw [ho]; rfl)

theorem hciCommand_bankAdv (ho : leAt bs 0 2 = 0xFC01) : hciCommand bs s = setBankAdv (slice (bs.drop 3) 0 (leAt bs 2 1)) s := by
  rw [hciCommand, ho, if_neg (by decide), if_pos rfl]

/-- The handles that a Mupor_Set_Bank_Advertising names (R767). -/
def bankHandles (p : Bytes) : List Nat := (List.range (leAt p 0 1)).map (fun i => leAt p (1 + i) 1)

theorem setBankAdv_names {p : Bytes} (hn : leAt p 0 1 ≤ 2) (hl : p.length = leAt p 0 1 + 1)
    (ha : ∀ k ∈ bankHandles p, ∃ a, advSet? s k = some a ∧ a.phy ≠ 2) :
    setBankAdv p s = commandComplete 0xFC01 [0] { s with ble := { s.ble with bankSets := bankHandles p } } := by
  rw [setBankAdv]
  refine if_neg ?_
  rw [decide_eq_false (by omega), hl, bne_self_eq_false, Bool.false_or, Bool.false_or, Bool.not_eq_true]
  refine List.any_eq_false.2 fun k hk => ?_
  obtain ⟨a, ha, hp⟩ := ha k hk
  rw [ha]
  simpa using hp

theorem setBankAdv_many {p : Bytes} (hn : 2 < leAt p 0 1) : setBankAdv p s = commandComplete 0xFC01 [0x12] s := by
  rw [setBankAdv]
  exact if_pos (by rw [decide_eq_true hn]; rfl)

/-! ### Packets of the controller (R756, R764) -/

theorem exec_bleRxPacket (hup : s.bleUp = true) (hl : bs.length ≤ 2044) (acl : Bool) :
    exec (.bleRxPacket acl bs) s = .next (bleRxPacket acl bs s) := next_when (by rw [hup, decide_eq_true hl]; rfl) rfl

theorem bleRxPacket_event (ho : connOpened bs = none) (hc : connClosed bs = none) : bleRxPacket false bs s = bleEmit 4 bs s := by
  rw [bleRxPacket, if_neg Bool.false_ne_true, if_neg Bool.false_ne_true, ho, hc]
  rfl

section
variable {c : Nat} (ho : connOpened bs = some c)
include ho

theorem bleRxPacket_opens (hl : s.ble.conns.length < 4) : bleRxPacket false bs s =
    bleEmit 4 bs { s with ble := { s.ble with conns := s.ble.conns.filter (fun k => k != c) ++ [c] } } := by
  rw [bleRxPacket, if_neg Bool.false_ne_true, ho]
  exact if_neg (by omega)

theorem bleRxPacket_fifth (hl : 4 ≤ s.ble.conns.length) : bleRxPacket false bs s = s := by
  rw [bleRxPacket, if_neg Bool.false_ne_true, ho]
  exact if_pos hl

end

/-! ### The wake from BANKED (R772) -/

/-- What a connection on an advertising set in BANKED leaves. -/
theorem bleWake_wakes {conn adv : Nat} (hb : s.ble.bankSets.contains adv = true) (hn : s.ble.conns.length < 4)
    (ha : ∃ a, advSet? s adv = some a ∧ a.enabled = true ∧ a.connectable = true) (hw : s.rbit rBLE_WAKE 0 = false) :
    (bleWake conn adv s).ble.conns = s.ble.conns ++ [conn] ∧ (bleWake conn adv s).rbit rBLE_EVT 3 = true ∧
    (bleWake conn adv s).reg rBLE_WAKE = wd (fld 16 conn + fld 8 adv + 1) ∧
    (bleWake conn adv s).ble.sets = s.ble.sets.map (fun a => if a.handle = adv then { a with enabled := false } else a) := by
  have opens : (s.ble.bankSets.contains adv && decide (s.ble.conns.length < 4) &&
      (advSet? s adv).any (fun a => a.enabled && a.connectable)) = true := by
    obtain ⟨a, ha, he, hc⟩ := ha
    rw [hb, decide_eq_true hn, ha, Option.any_some, he, hc]
    rfl
  rw [bleWake]
  dsimp only
  rw [when_true opens, when_true (by rw [hw]; rfl)]
  generalize hz : State.onBle (s.setReg rBLE_WAKE _) _ = z
  obtain ⟨eble, -, eevt, ereg⟩ := bleEvent_spec (b := 3) (by decide) z
  obtain ⟨cconns, csets, cevt, creg⟩ := enhancedComplete_spec conn (bleEvent 3 z)
  obtain ⟨pble, preg⟩ := presentWake_rest 1 (enhancedComplete conn (bleEvent 3 z))
  refine ⟨?_, ?_, ?_, ?_⟩
  · rw [pble, cconns, eble, ← hz]
    rfl
  · exact (rbit_of_reg (preg _ (by decide)) 3).trans (cevt 3 (by decide) eevt)
  · rw [preg _ (by decide), creg _ (by decide), ereg _ (by decide), ← hz]
    exact reg_setReg_self _ _ _
  · rw [pble, csets, eble, ← hz]
    rfl

/-! ### The field of the reader (R781, R796) -/

/-- What a STAT word leaves. -/
theorem nfcStat_rest (n st : Nat) (s : State) : (nfcStat n st s).regs = s.regs ∧ (nfcStat n st s).nfc = s.nfc := by
  obtain ⟨ch, hs⟩ := nfcStat_form n st s
  rw [hs]
  exact ⟨rfl, rfl⟩

/-- What the field's start leaves (R781). -/
theorem nfcOn_rest (s : State) : (nfcOn s).regs = s.regs ∧ (nfcOn s).nfc = { s.nfc with onAt := some s.clk.tb, waiting := false } :=
  nfcStat_rest 0 1 (s.onNfc (fun n => { n with onAt := some s.clk.tb, waiting := false }))

theorem fieldOn_disabled (he : s.rbit rNFC_CFG 31 = false) : fieldOn w k s = nfcStat 0 5 s := if_pos (by rw [he]; rfl)

section
variable (he : s.rbit rNFC_CFG 31 = true)
include he

theorem fieldOn_running (hon : s.nfc.onAt ≠ none) : fieldOn w k s = nfcStat 0 1 s := by
  rw [fieldOn, if_neg (by simp [he]), if_pos (Option.isSome_iff_ne_none.2 hon)]

section
variable (hon : s.nfc.onAt = none)
include hon

theorem fieldOn_now (ht : nfcOnFrom s ≤ s.clk.tb) : fieldOn w k s = nfcOn s := by
  rw [fieldOn, if_neg (by simp [he]), if_neg (by simp [hon]), if_pos ht]

theorem fieldOn_waits (ht : s.clk.tb < nfcOnFrom s) : fieldOn w k s = s.onNfc (fun n => { n with waiting := true }) := by
  rw [fieldOn, if_neg (by simp [he]), if_neg (by simp [hon]), if_neg (by omega)]

end

end

theorem fieldOnNow_acts (hh : fieldOnWord s = some h) : fieldOnNow s = fieldOn h.w h.tick (cTakeOut 0xA4 h s) := by
  rw [fieldOnNow, hh]
  rfl

theorem fieldOnNow_none (hh : fieldOnWord s = none) : fieldOnNow s = s := by
  rw [fieldOnNow, hh]
  rfl

section
variable (ht : s.timed = true)
include ht

theorem exec_fieldOn (hh : fieldOnWord s = some h) : exec .fieldOn s = .next (fieldOn h.w h.tick (cTakeOut 0xA4 h s)) :=
  next_when ht (fieldOnNow_acts hh)

theorem exec_fieldOnTakesEffect_due (hw : s.nfc.waiting = true) (hd : nfcOnFrom s ≤ s.clk.tb) :
    exec .fieldOnTakesEffect s = .next (nfcOn s) := next_when (by rw [ht, hw, decide_eq_true hd]; rfl) rfl

omit ht in
theorem exec_fieldOnTakesEffect_early (hd : s.nfc.waiting = false ∨ s.clk.tb < nfcOnFrom s) : exec .fieldOnTakesEffect s = .next s :=
  next_when_not (by rcases hd with hd | hd <;> simp [hd]) _ s

theorem exec_fieldOff (hh : s.ctrlHead 0xA4 2 = some h) : exec .fieldOff s = .next (fieldOff h.w h.tick (cDrop 0xA4 s)) :=
  next_when ht (nfcWord_head hh _)

/-! ### Frames (R780, R783, R795) -/

theorem exec_tx (hf : fieldOnWord s = none) (hh : s.ctrlHead 0xA4 3 = some h) : exec .tx s = .next (nfcTx h.w h.tick (cDrop 0xA4 s)) := by
  refine next_when ht ?_
  rw [fieldOnNow_none hf]
  exact nfcWord_head hh _

theorem exec_nfcStop (hh : s.ctrlHead 0xA4 4 = some h) : exec .nfcStop s = .next (nfcStop h.w h.tick (cDrop 0xA4 s)) :=
  next_when ht (nfcWord_head hh _)

end

/-- A TX that is not refused begins, or waits for its start (R781, R783). -/
theorem nfcTx_taken {on : Nat} (hr : txRefused w s = false) (hm : s.mayAttempt 0xA = true) (hon : s.nfc.onAt = some on)
    (hq : (s.chan 0xA2).q = []) :
    let from_ := max (on + nfcSettle) ((s.nfc.cardEnd.map (fun c => c + 5394)).getD 0)
    (nfcTx w k s).regs = s.regs ∧
      (nfcTx w k s).nfc = { s.nfc with tx := some ⟨w, [], max k from_, decide (from_ ≤ k), none, false⟩ } := by
  intro from_
  rw [nfcTx, if_neg (by simp [hr]), if_neg (by simp [hm]), hon]
  dsimp only
  by_cases hf : from_ ≤ k
  · obtain ⟨hregs, hnfc⟩ := nfcBegin_spec (x := ⟨w, [], max k from_, false, none, false⟩) hq
    rw [if_pos hf, hregs, hnfc, decide_eq_true hf]
    exact ⟨rfl, rfl⟩
  · rw [if_neg hf, nfcDrain_none (s := s.onNfc _) hq, decide_eq_false hf]
    exact ⟨rfl, rfl⟩

theorem nfcTx_refused (hr : txRefused w s = true) : nfcTx w k s = nfcStat 0 5 s := if_pos hr

/-- A change that does not touch the reader. -/
theorem nfc_when (p : Bool) {f : State → State} (hf : ∀ s, (f s).nfc = s.nfc) (s : State) : (when p f s).nfc = s.nfc := by
  cases p
  · rfl
  · exact hf s

section
variable (hx : s.nfc.tx = some x)
include hx

theorem nfcStop_ends : nfcStop w k s = nfcEndTx x 2 s := by
  rw [nfcStop, hx]
  rfl

theorem exec_deferredTxStart (ht : s.timed = true) (hb : x.begun = false) (hon : s.nfc.onAt ≠ none) (hs : x.startAt ≤ s.clk.tb) :
    exec .deferredTxStart s = .next (nfcBegin x s) := by
  refine next_when ht ?_
  rw [hx]
  exact when_true (by rw [hb, Option.isSome_iff_ne_none.2 hon, decide_eq_true hs]; rfl) _ _

/-! ### Responses (R782, R784) -/

section
variable (hb : x.begun = true) (hrx : x.rxEn = true)
include hb hrx

/-- A response in time ends the TX (R784). -/
theorem nfcResponse_ends {b0 e0 st lb coll : Nat} (h1 : x.endAt ≤ b0) (h2 : b0 ≤ nfcExpiry s x) (h3 : b0 ≤ e0)
    (h4 : e0 + 1248 ≤ s.clk.tb) : (nfcResponse b0 e0 st lb coll bs s).nfc.tx = none ∧
      (nfcResponse b0 e0 st lb coll bs s).nfc.cardEnd = some e0 ∧ (nfcResponse b0 e0 st lb coll bs s).nfc.onAt = s.nfc.onAt := by
  have due : (x.begun && x.rxEn && x.endAt ≤ b0 && b0 ≤ nfcExpiry s x && b0 ≤ e0 && e0 + 1248 ≤ s.clk.tb) = true := by
    simp [hb, hrx, h1, h2, h3, h4]
  have heard := fun ws late => (nfc_when late (lateSuccess_nfc 0xA) _).trans
    (nfc_when (!x.silent) (nfcDeliver_nfc (e0 + 1248) (nfcVerdict x e0 st bs) ws) (s.onNfc (fun n => { n with cardEnd := some e0 })))
  rw [nfcResponse, hx]
  dsimp only [withSome]
  rw [when_true due]
  obtain ⟨htx, hon, -, -, hcard, -⟩ := nfcEndTx_spec x 1 _
  exact ⟨htx, hcard.trans (congrArg Nfc.cardEnd (heard _ _)), hon.trans ((congrArg Nfc.onAt (heard _ _)).trans rfl)⟩

/-- No response in time ends it too (R782). -/
theorem exec_noResponse (ht : s.timed = true) (he : nfcExpiry s x + 1248 ≤ s.clk.tb) : ∃ t, exec .noResponse s = .next t ∧
    t.nfc.tx = none ∧ t.nfc.cardEnd = s.nfc.cardEnd ∧ t.nfc.onAt = s.nfc.onAt := by
  have due : (x.begun && x.rxEn && nfcExpiry s x + 1248 ≤ s.clk.tb) = true := by rw [hb, hrx, decide_eq_true he]; rfl
  have same := fun st ws => nfc_when (!x.silent) (nfcDeliver_nfc (nfcExpiry s x + 1248) st ws) s
  refine ⟨_, next_when ht rfl, ?_⟩
  dsimp only
  rw [hx]
  dsimp only [withSome]
  rw [when_true due]
  obtain ⟨htx, hon, -, -, hcard, -⟩ := nfcEndTx_spec x 1 _
  exact ⟨htx, hcard.trans (congrArg Nfc.cardEnd (same _ _)), hon.trans (congrArg Nfc.onAt (same _ _))⟩

end

end

section
variable (hx : s.nfc.tx = none)
include hx

/-- Without a TX nothing of the reader acts. -/
theorem nfc_idle (b0 e0 st lb coll : Nat) : nfcResponse b0 e0 st lb coll bs s = s ∧ nfcStop w k s = s := by
  rw [nfcResponse, nfcStop, hx]
  exact ⟨rfl, rfl⟩

theorem exec_nfc_idle (b0 e0 : Nat) (st : Fin 6) (lb : Fin 8) (coll : BitVec 12) : exec .deferredTxStart s = .next s ∧
    exec .noResponse s = .next s ∧ exec (.nfcResponse b0 e0 st lb coll bs) s = .next s := by
  have idle : ∀ {p : Bool} {f : NfcTx → State → State}, (.next (when p (fun s => withSome s.nfc.tx f s) s) : Out) = .next s := by
    intro p f
    cases p
    · rfl
    · exact congrArg (fun o => (.next (withSome o f s) : Out)) hx
  refine ⟨idle, idle, ?_⟩
  by_cases hp : (s.timed && st.val != 1 && st.val != 4 && bs.length ≤ 258) = true
  · exact next_when hp (nfc_idle hx b0 e0 st.val lb.val coll.toNat (w := 0) (k := 0)).1
  · exact next_when_not (Bool.eq_false_iff.2 hp) _ s

end

/-- Settles O52: the FIFOs and packets of the BLE transport, and the reader's words by the field and the TX that they find (the
controller's packets are inputs, and FIELD_ON without EN answers REFUSED: log entries 24 and 25). -/
theorem phoneAndCardResults : Obligations.PhoneAndCardResults := by
  unfold Obligations.PhoneAndCardResults
  intro s who value ind bs rest conn adv h x b0 e0 st lb coll op p hs taken
  refine ⟨fun hl hw => ?fifos, fun b hb => ?event, fun hup => ?packets, fun hup hl => ?controller, fun hh hf => bleEmit_fits hh hf,
    fun hm he hb hn ha hw => ⟨_, next_when (by rw [hm, he]; rfl) rfl, bleWake_wakes hb hn ha hw⟩, fun ht => ?nfc⟩
  case fifos =>
    have txd := exec_hciTxd_writes (value := value) hl hw
    exact ⟨fun h2 => txd.trans (congrArg _ (bleTxd_faulty h2)), fun h2 hf => txd.trans (congrArg _ (bleTxd_full h2 hf)),
      fun h2 hen hf => txd.trans (congrArg _ (bleTxd_joins h2 hen hf)), fun hb hh => exec_rxpop_drops hl hw hb hh,
      fun hb hs => ⟨_, exec_resync hl hw hb, bleCfg_resync hb hs⟩⟩
  case event =>
    obtain ⟨hble, hchans, hevt, -⟩ := bleEvent_spec hb s
    exact ⟨hble, hchans, hevt⟩
  case packets =>
    refine ⟨fun hh => ⟨_, exec_hciPacket hup, bleTake_bad hh⟩, fun hh => ⟨fun hi => ?_, fun hi ho => ?_, fun hi ho hn hl ha => ?_,
      fun hi ho hn => ?_⟩⟩
    · exact (exec_hciPacket hup).trans (congrArg _ (bleTake_data hh rfl hi))
    · exact (exec_hciPacket hup).trans (congrArg _ ((bleTake_command hh rfl hi).trans (hciCommand_unsupported ho)))
    all_goals
      have wanted : (ind == 1 && leAt bs 0 2 == 0xFC01) = true := by simp [hi, show leAt bs 0 2 = 0xFC01 from ho]
      have adv := (exec_muporSetBankAdvertising hup).trans
        (congrArg _ ((bleTake_command hh wanted hi).trans (hciCommand_bankAdv ho)))
    · exact adv.trans (congrArg _ (setBankAdv_names hn hl ha))
    · exact adv.trans (congrArg _ (setBankAdv_many hn))
  case controller =>
    have receives := exec_bleRxPacket hup hl
    exact ⟨receives true, fun ho hc => (receives false).trans (congrArg _ (bleRxPacket_event ho hc)),
      fun c ho hn => (receives false).trans (congrArg _ (bleRxPacket_opens ho hn)),
      fun c ho hn => (receives false).trans (congrArg _ (bleRxPacket_fifth ho hn))⟩
  case nfc =>
    refine ⟨fun hh he => ⟨fun hon hd => ?_, fun hon hd => ?_, fun hon => ?_⟩, fun hh he => ?_,
      fun hw hd => ⟨_, exec_fieldOnTakesEffect_due ht hw hd, nfcOn_rest s⟩, fun hd => exec_fieldOnTakesEffect_early hd,
      fun hh => ⟨_, exec_fieldOff ht hh, fieldOff_spec h.w h.tick (cDrop 0xA4 s)⟩, fun hf hh => ?tx, fun hx => ?running, fun hx => ?idle⟩
    · exact ⟨_, (exec_fieldOn ht hh).trans (congrArg _ (fieldOn_now he hon hd)), nfcOn_rest (cTakeOut 0xA4 h s)⟩
    · exact ⟨_, (exec_fieldOn ht hh).trans (congrArg _ (fieldOn_waits he hon hd)), rfl, rfl⟩
    · exact ⟨_, (exec_fieldOn ht hh).trans (congrArg _ (fieldOn_running he hon)), nfcStat_rest 0 1 (cTakeOut 0xA4 h s)⟩
    · exact ⟨_, (exec_fieldOn ht hh).trans (congrArg _ (fieldOn_disabled he)), nfcStat_rest 0 5 (cTakeOut 0xA4 h s)⟩
    case tx =>
      have takes := exec_tx ht hf hh
      refine ⟨fun hr => ⟨_, takes.trans (congrArg _ (nfcTx_refused hr)), nfcStat_rest 0 5 (cDrop 0xA4 s)⟩, fun on hr hm hon hq => ?_⟩
      exact ⟨_, takes, nfcTx_taken hr hm hon ((congrArg Chan.q (cDrop_chan_ne (by decide) s)).trans hq)⟩
    case running =>
      refine ⟨fun hb hon hs hq => ⟨_, exec_deferredTxStart hx ht hb hon hs, nfcBegin_spec hq⟩, fun hh => ?_,
        fun hb hrx => ⟨fun h1 h2 h3 h4 h5 h6 h7 => ?_, exec_noResponse hx hb hrx ht⟩⟩
      · obtain ⟨htx, hon, -, -, -, hregs⟩ := nfcEndTx_spec x 2 (cDrop 0xA4 s)
        exact ⟨_, (exec_nfcStop ht hh).trans (congrArg _ (nfcStop_ends hx)), hregs, htx, hon⟩
      · exact ⟨_, next_when (by simp [ht, h5, h6, h7]) rfl, nfcResponse_ends hx hb hrx h1 h2 h3 h4⟩
    case idle =>
      obtain ⟨hd, hn, hr⟩ := exec_nfc_idle (bs := bs) hx b0 e0 st lb coll
      exact ⟨hd, hn, hr, fun hh => (exec_nfcStop ht hh).trans (congrArg _ (nfc_idle (s := cDrop 0xA4 s) (bs := bs) hx 0 0 0 0 0).2)⟩

end Sys2Proof.Machine
end

section
/-! The laws of the vehicle networks: the NET engine's operations, CAN, LIN and the Ethernet switch (R956 to R990), and the
statement NetworkResults assembled from them. -/
namespace Sys2Proof.Machine

variable {img data resp frame rec z bs : Bytes} {s t u v y : State} {n : Fin 4} {m : Fin 2} {c fmt fl k cnt p q : Nat} {r : LinRun}
  {x : CanTx} {w id af fcs : Word} {flags : BitVec 6} {f : EthFrame} {l : List EthFrame}

/-! ### CAN_SEND and arbitration (R966, R970, R977) -/

theorem netCanSend_param (hp : canParamOk img = false) : netCanSend img t = .fail 5 1 t := by
  rw [netCanSend, kcheck_false hp, andThen_fail]

section
variable (hp : canParamOk img = true) (hb : Readable img 0 (imgBuf img 0).len)
include hp hb

theorem netCanSend_disabled (he : canEnabled t (imgParam img 0 1) (imgParam img 1 1) = false) : netCanSend img t = .fail 5 2 t := by
  rw [netCanSend, kcheck_true hp, andThen_ok, needRead_ok hb, andThen_ok, kcheck_false he, andThen_fail]

section
variable (he : canEnabled t (imgParam img 0 1) (imgParam img 1 1) = true)
include he

theorem netCanSend_busOff (hs : canState t (imgParam img 0 1) = 2) : netCanSend img t = .fail 5 3 t := by
  rw [netCanSend, kcheck_true hp, andThen_ok, needRead_ok hb, andThen_ok, kcheck_true he, andThen_ok,
    kcheck_false (by rw [hs]; rfl), andThen_fail]

/-- The frame that a CAN_SEND names. -/
def sentFrame (img data : Bytes) : CanFrame :=
  ⟨wd (imgParam img 4 4), canFlags (imgParam img 1 1) (imgParam img 2 1), (imgParam img 2 1).testBit 3,
    if imgParam img 1 1 = 2 then wd (imgParam img 8 4) else 0, data⟩

theorem netCanSend_offers (hs : canState t (imgParam img 0 1) ≠ 2) (hr : kread 9 img 0 0 (imgBuf img 0).len t = .ok data u) :
    netCanSend img t = .ok .later (canArb (imgParam img 0 1)
      (u.onCan (imgParam img 0 1) (fun k => { k with tx0 := some ⟨sentFrame img data, 0⟩ }))) := by
  rw [netCanSend, kcheck_true hp, andThen_ok, needRead_ok hb, andThen_ok, kcheck_true he, andThen_ok,
    kcheck_true (bne_iff_ne.2 hs), andThen_ok, hr, andThen_ok]
  rfl

end

end

/-- A change that leaves the networks leaves their controllers. -/
theorem canCtl_of_net {k : Nat} (h : t.net = s.net) : t.canCtl k = s.canCtl k := by
  unfold State.canCtl
  rw [h]

theorem canArb_tx0 (hs : canSends s n.val = true) (hw : (s.canCtl n.val).onWire = none) (h1 : (s.canCtl n.val).tx1 = [])
    (h0 : (s.canCtl n.val).tx0 = some x) (hm : s.mayAttempt 9 = true) :
    (canArb n.val s).canCtl n.val = { s.canCtl n.val with tx0 := some { x with tries := x.tries + 1 }, onWire := some 0 } := by
  rw [canArb]
  dsimp only
  rw [if_neg (by simp [hs, hw]), h1, h0]
  dsimp only
  rw [if_pos hm, canCtl_of_net (attempt_net 9 _), canCtl_onCan, h1]

/-! ### The end of a frame on the wire (R967, R968) -/

theorem canFrameEnd_idle (hw : (s.canCtl n.val).onWire = none) (o : CanEnd) : canFrameEnd n.val o s = s := by
  rw [canFrameEnd, hw]

section
variable (hw : (s.canCtl n.val).onWire = some 0) (hy : y = s.onCan n.val (fun k => { k with onWire := none }))
include hw hy

theorem canFrameEnd_ok (hs : canState (canTxOk n.val y) n.val ≠ 2) :
    canFrameEnd n.val .ok s = canArb n.val (crankDeadline (canNetEnd n.val 0 0 (canTxOk n.val y))) := by
  rw [canFrameEnd, hw, ← hy]
  exact if_neg hs

theorem canFrameEnd_busOff (hs : canState (canTxError n.val y) n.val = 2) :
    canFrameEnd n.val .error s = canBusOff n.val (canTxError n.val y) := by
  rw [canFrameEnd, hw, ← hy]
  exact if_pos hs

section
variable (hx : (s.canCtl n.val).tx0 = some x) (hs : canState s n.val ≠ 2)
include hx hs

/-- An attempt whose arbitration is lost: offered again, or spent (R510, R967). -/
theorem canFrameEnd_lost : canFrameEnd n.val .lost s = canArb n.val (crankDeadline
    (if canSpent s n.val x.tries || !s.mayAttempt 9 then canNetEnd n.val 5 9 y else y)) := by
  have state : canState y n.val ≠ 2 := by rw [hy]; exact hs
  have tx0 : (y.canCtl n.val).tx0 = some x := by rw [hy, canCtl_onCan]; exact hx
  have tries : ((y.canCtl n.val).tx0.map CanTx.tries).getD 0 = x.tries := by rw [tx0]; rfl
  have spent : canSpent y n.val x.tries = canSpent s n.val x.tries ∧ y.mayAttempt 9 = s.mayAttempt 9 := by rw [hy]; exact ⟨rfl, rfl⟩
  rw [canFrameEnd, hw, ← hy]
  refine (if_neg state).trans ?_
  rw [if_neg (by decide)]
  unfold canEnd0
  dsimp only
  rw [tries, spent.1, spent.2]

end

end

/-! ### Reception (R969) -/

section
variable (ht : s.timed = true)
include ht

theorem exec_canFrameEnd (o : CanEnd) : exec (.canFrameEnd n o) s = .next (canFrameEnd n.val o s) := next_when ht rfl

theorem exec_canReceive (hh : canHears s n.val flags = true) (ago : Nat) (ok : Bool) : exec (.canReceive n id flags af data ago ok) s =
    .next (when ok (canTake n.val id flags af data ago) (canRxCount n.val ok s)) := next_when (by rw [ht, hh]; rfl) rfl

end

section
variable (hp : isPartner y n.val id flags = false)
include hp

theorem canTake_unadmitted (ago : Nat) (hf : (List.range 16).any (canFilter y n.val
      (if flags.getLsbD 2 then id &&& 0x7FF else id &&& 0x1FFFFFFF) (flags.getLsbD 0 && !flags.getLsbD 2)) = false) :
    canTake n.val id flags af data ago y = y := by
  rw [canTake]
  rw [if_neg (by simp [hp]), if_neg (Bool.eq_false_iff.1 hf)]

theorem canTake_admitted (ago : Nat) (hf : (List.range 16).any (canFilter y n.val
      (if flags.getLsbD 2 then id &&& 0x7FF else id &&& 0x1FFFFFFF) (flags.getLsbD 0 && !flags.getLsbD 2)) = true) :
    canTake n.val id flags af data ago y = ringPut n.val (netRecord n.val flags.toNat id (if flags.getLsbD 2 then af else 0) 0
      (y.clk.tb - ago) data) (canEvent n.val 1) y := by
  rw [canTake]
  rw [if_neg (by simp [hp]), if_pos hf]

end

/-! ### Bus-off (R968) -/

/-- An arbitration start leaves how a controller stands with bus-off. -/
theorem canArb_wasOff (s : State) : ((canArb n.val s).canCtl n.val).wasOff = (s.canCtl n.val).wasOff ∧
    ((canArb n.val s).canCtl n.val).recovering = (s.canCtl n.val).recovering := by
  unfold canArb
  dsimp only
  split
  · exact ⟨rfl, rfl⟩
  · split
    · rw [canCtl_onCan]
      exact ⟨rfl, rfl⟩
    · split
      · rw [canCtl_of_net (attempt_net 9 _), canCtl_onCan]
        exact ⟨rfl, rfl⟩
      · exact ⟨rfl, rfl⟩
    · exact ⟨rfl, rfl⟩

theorem canRecovered_clears (hs : canState s n.val = 2) (hr : (s.canCtl n.val).recovering = true) :
    (canRecovered n.val s).reg (rCAN_STAT n.val) = 0 ∧ ((canRecovered n.val s).canCtl n.val).wasOff = false ∧
    ((canRecovered n.val s).canCtl n.val).recovering = false := by
  rw [canRecovered, when_true (by rw [decide_eq_true hs, hr]; rfl)]
  generalize hz : (s.setReg (rCAN_STAT n.val) 0).onCan n.val (fun c => { c with recovering := false, wasOff := false }) = z
  obtain ⟨hoff, hrec⟩ := canArb_wasOff (n := n) z
  have cleared : (z.canCtl n.val).wasOff = false ∧ (z.canCtl n.val).recovering = false := by
    rw [← hz, canCtl_onCan]
    exact ⟨rfl, rfl⟩
  refine ⟨?_, hoff.trans cleared.1, hrec.trans cleared.2⟩
  obtain ⟨w, f, harb⟩ := canArb_rest n.val z
  rw [harb, ← hz]
  exact reg_setReg_self _ _ _

theorem canRecovered_running (hs : canState s n.val ≠ 2) : canRecovered n.val s = s :=
  when_false (by rw [decide_eq_false hs]; rfl) _ _

/-- A write of RECOVER to a controller that is bus-off and changes nothing else (R968). -/
theorem canCfgWrite_recover (hc : s.reg (rCAN_CFG n.val) &&& 0xFF000006 = s.reg (rCAN_CFG n.val)) (hs : canState s n.val = 2)
    (h29 : s.rbit (rCAN_CFG n.val) 29 = false) : canCfgWrite n.val (s.reg (rCAN_CFG n.val) ||| 8) s =
      (s.onCan n.val (fun c => { c with recovering := true })).setReg (rCAN_CFG n.val) (s.reg (rCAN_CFG n.val)) := by
  have same : (s.reg (rCAN_CFG n.val) ||| 8) &&& 0xFF000006 = s.reg (rCAN_CFG n.val) := by
    rw [BitVec.and_comm, BitVec.and_or_distrib_left, BitVec.and_comm, hc]
    exact BitVec.or_zero
  have on : bit (s.reg (rCAN_CFG n.val) ||| 8) 31 = bit (s.reg (rCAN_CFG n.val)) 31 := by
    simp [bit]
  have h3 : bit (s.reg (rCAN_CFG n.val) ||| 8) 3 = true := by simp [bit]
  have h29' : bit (s.reg (rCAN_CFG n.val)) 29 = false := h29
  rw [canCfgWrite]
  dsimp only
  rw [same, bne_self_eq_false, Bool.and_false, if_neg Bool.false_ne_true, when_true (by rw [h3, decide_eq_true hs, h29']; rfl), on,
    if_neg (by simp), if_neg (by simp)]

/-! ### The receive ring (R974, R976) -/

section
variable {ev : State → State} {e : Nat} (he : s.rbit (ringReg e + 4) 31 = true)
include he

theorem ringPut_drops (hf : ringSize s e < ringUsed s e + rec.length + 8) : ringPut e rec ev s = ringDrop e s := by
  rw [ringPut, if_neg (by simp [he]), if_pos hf]

theorem ringPut_writes (hf : ringUsed s e + rec.length + 8 ≤ ringSize s e) (hw : ringWrite s e (ringWr s e) rec = (.ok z, u)) :
    ringPut e rec ev s = ev (u.setReg (ringReg e + 8) (wd ((ringWr u e + rec.length) % ringSize u e))) := by
  rw [ringPut, if_neg (by simp [he]), if_neg (by omega), hw]

end

/-! ### LIN (R971 to R973, R980) -/

theorem netLin_param (hp : linParamOk img = false) : netLin img t = .fail 5 1 t := by
  rw [netLin]
  dsimp only
  rw [kcheck_false hp, andThen_fail]

/-- The bytes that a LIN frame takes from BUF0, and those of its response field. -/
def linSends (img : Bytes) : Nat := if imgParam img 1 1 = 0 then (imgBuf img 0).len else 0
def linTakes (img : Bytes) : Nat := if imgParam img 1 1 = 1 then imgParam img 4 1 else linSends img

/-- The run that a LIN_MASTER starts. -/
def linStarts (img data : Bytes) (s : State) : LinRun :=
  ⟨imgParam img 1 1, imgParam img 2 1, imgParam img 3 1, linTakes img, data,
    if wd (imgParam img 12 4) = 0 then none else some (wd (imgParam img 12 4)), s.clk.tb,
    wd (imgParam img 12 4) != 0 && tickPassed (wd (imgParam img 12 4)) s.tbLo, false, buf1 img⟩

section
variable (hp : linParamOk img = true) (hb : Readable img 0 (linSends img))
  (hw : Writable img 1 (if imgParam img 1 1 = 1 then linTakes img else 0))
include hp hb hw

theorem netLin_disabled (he : t.rbit (linReg (imgParam img 0 1) 0) 31 = false) : netLin img t = .fail 5 2 t := by
  unfold linTakes linSends at *
  rw [netLin]
  dsimp only
  rw [kcheck_true hp, andThen_ok, needRead_ok hb, andThen_ok, needWrite_ok hw, andThen_ok, kcheck_false he, andThen_fail]

theorem netLin_starts (he : t.rbit (linReg (imgParam img 0 1) 0) 31 = true) (hr : kread 9 img 0 0 (linSends img) t = .ok data u) :
    netLin img t = .ok .later (u.setLin (imgParam img 0 1) (some (linStarts img data u))) := by
  unfold linStarts linTakes linSends at *
  rw [netLin]
  dsimp only
  rw [kcheck_true hp, andThen_ok, needRead_ok hb, andThen_ok, needWrite_ok hw, andThen_ok, kcheck_true he, andThen_ok, hr, andThen_ok]

end

theorem linBreak_none (hr : s.linRun m.val = none) : linBreak m.val s = s := by
  rw [linBreak, hr]

theorem linFrameEnd_none (hr : s.linRun m.val = none) (e : Bool) : linFrameEnd m.val resp e s = s := by
  rw [linFrameEnd, hr]

/-- A change that leaves the networks leaves their runs. -/
theorem linRun_of_net {k : Nat} (h : t.net = s.net) : t.linRun k = s.linRun k := by
  unfold State.linRun
  rw [h]

theorem linRun_attempt (run : LinRun) (s : State) : (attempt 9 (s.setLin m.val (some run))).linRun m.val = some run := by
  rw [linRun_of_net (attempt_net 9 _), linRun_setLin]

section
variable (hr : s.linRun m.val = some r)
include hr

section
variable (hb : r.begun = false)
include hb

omit hb in
theorem linBreak_early (ht : r.target = some w) (hl : r.late = false) (hd : tickDue w s.tbLo = false) : linBreak m.val s = s := by
  rw [linBreak, hr]
  exact if_pos (by simp [linDue, ht, hl, hd])

section
variable (hm : s.mayAttempt 9 = true)
include hm

theorem linBreak_atOnce (ht : r.target = none) : linBreak m.val s = attempt 9 (s.setLin m.val (some { r with begun := true })) := by
  rw [linBreak, hr]
  dsimp only
  rw [if_neg (by simp [linDue, hb, hm, ht]), ht]

theorem linBreak_due (ht : r.target = some w) (hl : r.late = false) (hd : tickDue w s.tbLo = true) : linBreak m.val s =
    attempt 9 (s.setLin m.val (some { r with begun := true, startAt := s.clk.tb - (s.tbLo - w).toNat })) := by
  rw [linBreak, hr]
  dsimp only
  rw [if_neg (by simp [linDue, hb, hm, ht, hl, hd]), ht]
  dsimp only
  rw [if_neg (by simp [hl]), hl]

end

end

section
variable (hb : r.begun = true)
include hb

theorem linFrameEnd_ends {e : Bool} (hd : linEndTick s m.val r resp e ≤ s.clk.tb) :
    linFrameEnd m.val resp e s = linEnd m.val r (linReason r resp e) (resp.take r.n) s := by
  rw [linFrameEnd, hr]
  exact if_neg (by simp [hb, hd])

end

end

/-- An event of a LIN controller leaves its run (R973). -/
theorem linEvent_spec {b : Nat} (hb : b < 32) (k : Nat) (s : State) : (linEvent k b s).net = s.net ∧
    (linEvent k b s).rbit (linReg k 4) b = true := event_net _ _ _ _ _ hb s

theorem linDominant_judges (hr : s.linRun m.val = some r) : linDominant m.val s =
    if r.begun then linEnd m.val r 6 [] (linEvent m.val 3 s) else linEvent m.val 3 s := by
  have run : (linEvent m.val 3 s).linRun m.val = some r := (linRun_of_net (linEvent_spec (by decide) _ s).1).trans hr
  rw [linDominant, run]

theorem exec_dominant (ht : s.timed = true) (he : s.rbit (linReg m.val 0) 31 = true) :
    exec (.dominant m) s = .next (linDominant m.val s) := next_when (by rw [ht, he]; rfl) rfl

theorem exec_wakeRx (ht : s.timed = true) (he : s.rbit (linReg m.val 0) 31 = true) (hr : s.linRun m.val = none) :
    exec (.wakeRx m) s = .next (linEvent m.val 2 s) := next_when (by rw [ht, he, hr]; rfl) rfl

theorem exec_lin_disabled (he : s.rbit (linReg m.val 0) 31 = false) : exec (.dominant m) s = .next s ∧ exec (.wakeRx m) s = .next s :=
  ⟨next_when_not (by rw [he, Bool.and_false]) _ s, next_when_not (by rw [he, Bool.and_false, Bool.false_and]) _ s⟩

theorem linReason_sent (hd : r.dir ≠ 1) : linReason r resp false = 0 := by
  rw [linReason, if_neg Bool.false_ne_true, if_pos (bne_iff_ne.2 hd)]

section
variable (hd : r.dir = 1)
include hd

theorem linReason_silent (he : resp = []) : linReason r resp false = 4 := by
  rw [linReason, if_neg Bool.false_ne_true, if_neg (by simp [hd]), if_pos (by rw [he]; rfl)]

theorem linReason_heard (he : resp ≠ []) : linReason r resp false =
    if resp.length = r.n + 1 ∧ resp.getD r.n 0 = linSum r (resp.take r.n) then 0 else 5 := by
  rw [linReason, if_neg Bool.false_ne_true, if_neg (by simp [hd]), if_neg (by simpa using he)]
  exact if_congr (by simp) rfl rfl

end

/-! ### ETH_SEND (R978) -/

theorem netEthSend_param (hp : ethParamOk img = false) : netEthSend img t = .fail 5 1 t := by
  rw [netEthSend]
  dsimp only
  rw [kcheck_false hp, andThen_fail]

/-- The ETH_SEND that runs, with no copy of its frame enqueued yet. -/
def ethStarts (img : Bytes) (s : State) : State :=
  { s with net := { s.net with eth := some ⟨0, 0, if (imgParam img 0 1).testBit 1 then (maskPorts (imgParam img 1 1)).head? else none,
    buf1 img, none⟩ } }

section
variable (hp : ethParamOk img = true) (hb : Readable img 0 (imgBuf img 0).len)
  (hw : Writable img 1 (if (imgParam img 0 1).testBit 1 then 16 else 0))
include hp hb hw

theorem netEthSend_disabled (he : ethEnabled t ((imgParam img 0 1).testBit 0) (imgParam img 1 1) = false) :
    netEthSend img t = .fail 5 2 t := by
  rw [netEthSend]
  dsimp only
  rw [kcheck_true hp, andThen_ok, needRead_ok hb, andThen_ok, needWrite_ok hw, andThen_ok, kcheck_false he, andThen_fail]

section
variable (he : ethEnabled t ((imgParam img 0 1).testBit 0) (imgParam img 1 1) = true)
  (hr : kread 9 img 0 0 (imgBuf img 0).len t = .ok data u)
include he hr

theorem netEthSend_switched (hd : (imgParam img 0 1).testBit 0 = false) : netEthSend img t =
    .ok .later (ethSendEnd (ethForward 4 true u.clk.tb 0 data (ethStarts img u))) := by
  rw [netEthSend]
  dsimp only
  rw [kcheck_true hp, andThen_ok, needRead_ok hb, andThen_ok, needWrite_ok hw, andThen_ok, kcheck_true he, andThen_ok, hr, andThen_ok,
    if_neg (Bool.eq_false_iff.1 hd)]
  rfl

theorem netEthSend_direct (hd : (imgParam img 0 1).testBit 0 = true) (h1 : maskPorts (imgParam img 1 1) = [p]) : netEthSend img t =
    .ok .later (ethSendEnd (ethEnqueue p (imgParam img 2 1) ⟨data, true, 4, (ethVlan (ethStarts img u) 4 data).1, u.clk.tb, 0⟩
      (ethStarts img u))) := by
  rw [netEthSend]
  dsimp only
  rw [kcheck_true hp, andThen_ok, needRead_ok hb, andThen_ok, needWrite_ok hw, andThen_ok, kcheck_true he, andThen_ok, hr, andThen_ok,
    if_pos hd]
  unfold ethStarts
  rw [h1]
  rfl

end

end

/-! ### The switch (R958 to R961) -/

theorem ethEnqueue_joins (ho : f.ours = false) (hl : (ethQueue s p q).length < 16) :
    ethEnqueue p q f s = setEthQueue p q (ethQueue s p q ++ [f]) s := by
  rw [ethEnqueue]
  dsimp only
  rw [if_neg (by omega), if_neg (by simp [ho])]

theorem ethEnqueue_full (hl : 16 ≤ (ethQueue s p q).length) : ethEnqueue p q f s = ethDrop s := if_pos hl

theorem exec_ethReceive_refused (h : s.rbit rSW_CFG 31 = false ∨ portUp s n.val = false ∨ ethGood frame fcs = false) (ago : Nat)
    (fine : BitVec 10) : exec (.ethReceive n frame fcs ago fine) s = .next s :=
  next_when_not (by rcases h with h | h | h <;> simp [h]) _ s

theorem ethForward_refused {ours : Bool} {tick fine : Nat} (hi : ethIngress s p frame = none) :
    ethForward p ours tick fine frame s = s := by
  rw [ethForward, hi]

theorem ethForward_port {ours : Bool} {tick fine o : Nat} {e : Word} (hi : ethIngress s p frame = some e)
    (hy : y = ethLearn p (ethVlan s p frame).1 (ethSrc frame) s) (ho : ethPorts y p (ethVlan s p frame).1 (ethDst frame) e = [o]) :
    ethForward p ours tick fine frame s = ethEnqueue o
      (bits (y.reg rSW_PCPMAP) (2 * (ethVlan s p frame).2 + 1) (2 * (ethVlan s p frame).2))
      ⟨ethLeaves (bit e (20 + o)) (ethVlan s p frame).1 (ethVlan s p frame).2 frame, ours, p, (ethVlan s p frame).1, tick, fine⟩ y := by
  rw [ethForward, hi]
  dsimp only
  rw [← hy, ho]
  rfl

section
variable {fine : Nat}

theorem ethEgress_none (hn : ethNext s p = none) : ethEgress p fine s = s := by
  rw [ethEgress, hn]

section
variable (hn : ethNext s p = some (q, f, l))
include hn

theorem ethEgress_port (hp : p ≠ 4) (ho : f.ours = false) : ethEgress p fine s = setEthQueue p q l s := by
  rw [ethEgress, hn]
  dsimp only
  rw [if_neg hp]
  exact if_pos (by rw [ho]; rfl)

theorem ethEgress_ring (hp : p = 4) : ethEgress p fine s = ringPut 4
    (netRecord 0x20 (b2n (ethType f.bytes = 0x88F7)) (wd f.ingress) (wd f.vid) f.fine f.tick f.bytes) (fun y => y)
    (setEthQueue 4 q l s) := by
  subst hp
  rw [ethEgress, hn]
  exact if_pos rfl

end

end

theorem exec_linkChange_same {linked : Bool} (h : s.rbit (portReg n.val) 30 = linked) : exec (.linkChange n linked) s = .next s :=
  next_when_not (by rw [h, bne_self_eq_false, Bool.and_false]) _ s

/-- A change of a port's link raises its event (R956). -/
theorem exec_linkChange {linked : Bool} (ht : s.timed = true) (h : s.rbit (portReg n.val) 30 ≠ linked) :
    ∃ y, exec (.linkChange n linked) s = .next y ∧ y.rbit rSW_EVT n.val = true ∧ y.net = s.net := by
  obtain ⟨hnet, hevt⟩ := event_net rSW_EVT rSW_IE rSW_IE 16 15 (b := n.val) (by omega) (s.setRbit (portReg n.val) 30 linked)
  exact ⟨_, next_when (by rw [ht, bne_iff_ne.2 h]; rfl) rfl, hevt, hnet⟩

/-! ### RX_TAKE (R979) -/

/-- The ring that an RX_TAKE names. -/
def takenRing (img : Bytes) : Nat := if imgParam img 0 1 = 0x20 then 4 else imgParam img 0 1

theorem netRxTake_param (hp : ¬ (paramZero img [0] = true ∧ (imgParam img 0 1 ≤ 3 ∨ imgParam img 0 1 = 0x20))) :
    netRxTake img t = .fail 5 1 t := by
  rw [netRxTake]
  dsimp only
  rw [kcheck_false (by simpa using hp), andThen_fail]

theorem netRxTake_takes (hp : paramZero img [0] = true) (hc : imgParam img 0 1 ≤ 3 ∨ imgParam img 0 1 = 0x20) (hk : k = takenRing img)
    (hw : Writable img 1 (imgBuf img 1).len) (ht : takeRecords ((imgBuf img 1).len / 24 + 1) k (ringRd t k) (ringUsed t k)
      (imgBuf img 1).len t = ((cnt, data), u)) (ho : kwrite 9 img 1 data u = .ok z v) :
    netRxTake img t = .ok (.done 0 0 cnt) (v.setReg (ringReg k + 12) (wd ((ringRd v k + data.length) % ringSize v k))) := by
  subst hk
  unfold takenRing at *
  rw [netRxTake]
  dsimp only
  rw [kcheck_true (by simpa [hp] using hc), andThen_ok, needWrite_ok hw, andThen_ok, ht]
  dsimp only
  rw [ho, andThen_ok]

/-- Settles O57: each operation and frame of the networks by the checks that it passes (bus-off and RECOVER, the frames that
wait, the LIN checksum and its response times, and the records of the rings: log entries 61 to 65). -/
theorem networkResults : Obligations.NetworkResults := by
  unfold Obligations.NetworkResults
  intro s t u v img data resp frame z n m q5 o x r w id af fcs fl ago fine cnt q fine10 f l linked bad who serves c fmt fl8 len cf
  have fails : ∀ {op body st re} {y : State}, 1 ≤ op ∧ op ≤ 4 → serves op → body img t = .fail st re y →
      (.next (netOp op body s) : Out) = .next (netDone st re 0 y) := fun h4 h hb => congrArg _ (netOp_fail h4 h hb)
  have later : ∀ {op body} {y : State}, 1 ≤ op ∧ op ≤ 4 → serves op → body img t = .ok .later y →
      (.next (netOp op body s) : Out) = .next y := fun h4 h hb => congrArg _ (netOp_later h4 h hb)
  have op1 : 1 ≤ 1 ∧ 1 ≤ 4 := by decide
  have op2 : 1 ≤ 2 ∧ 2 ≤ 4 := by decide
  have op3 : 1 ≤ 3 ∧ 3 ≤ 4 := by decide
  have op4 : 1 ≤ 4 ∧ 4 ≤ 4 := by decide
  refine ⟨fun h hp => fails op1 h (netCanSend_param hp), fun h hp hb => ⟨fun he => fails op1 h (netCanSend_disabled hp hb he),
      fun he hs => fails op1 h (netCanSend_busOff hp hb he hs), fun he hs hr => later op1 h (netCanSend_offers hp hb he hs hr)⟩,
    canArb_tx0, fun ht => ?can, fun rec ev he => ⟨ringPut_drops he, ringPut_writes he⟩,
    fun h hp => fails op2 h (netLin_param hp), fun h hp hb hw => ⟨fun he => fails op2 h (netLin_disabled hp hb hw he),
      fun he hr => later op2 h (netLin_starts hp hb hw he hr)⟩, fun ht => ?lin,
    fun h hp => fails op3 h (netEthSend_param hp), fun h hp hb hw => ⟨fun he => fails op3 h (netEthSend_disabled hp hb hw he), ?eth⟩,
    fun p ho => ⟨ethEnqueue_joins ho, ethEnqueue_full⟩, fun ht => ?switch, fun h hp => fails op4 h (netRxTake_param hp),
    fun k h hp hc hk hw htk ho => congrArg _ (netOp_done op4 h (netRxTake_takes hp hc hk hw htk ho))⟩
  case can =>
    have ends := fun o => exec_canFrameEnd (n := n) ht o
    refine ⟨fun hw => (ends o).trans (congrArg _ (canFrameEnd_idle hw o)), fun y hw hx hy => ⟨fun hs => ?_, fun hs hsp hm => ?_,
        fun hs hsp => ?_, fun hs => ?_⟩, fun hh => next_when_not (by rw [hh, Bool.and_false]) _ s, fun hh => exec_canReceive ht hh ago false,
      fun y hh hy hp hf => ?_, fun y hh hy hp hf => ?_, fun hs hr => ⟨_, next_when ht rfl, canRecovered_clears hs hr⟩,
      fun hs => next_when ht (canRecovered_running hs), fun hp hc hs h29 => ?_⟩
    · exact (ends .ok).trans (congrArg _ (canFrameEnd_ok hw hy hs))
    · exact (ends .lost).trans (congrArg _ ((canFrameEnd_lost hw hy hx hs).trans (by rw [if_neg (by simp [hsp, hm])])))
    · exact (ends .lost).trans (congrArg _ ((canFrameEnd_lost hw hy hx hs).trans (by rw [if_pos (by simpa using hsp)])))
    · exact (ends .error).trans (congrArg _ (canFrameEnd_busOff hw hy hs))
    · rw [exec_canReceive ht hh, ← hy]
      exact congrArg _ (canTake_unadmitted hp ago hf)
    · rw [exec_canReceive ht hh, ← hy]
      exact congrArg _ (canTake_admitted hp ago hf)
    · have recovers := canCtl_onCan n (fun c => { c with recovering := true }) s
      exact ⟨_, next_when (by rw [ht, hp]; rfl) (canCfgWrite_recover hc hs h29), (canCtl_of_net rfl).trans recovers, rfl⟩
  case lin =>
    refine ⟨fun hr => ⟨next_when ht (linBreak_none hr), next_when ht (linFrameEnd_none hr bad)⟩, fun hr => ⟨fun hb hw hm => ?_,
        fun hb hw hl hd hm => ?_, fun hb hw hl hd => next_when ht (linBreak_early hr hw hl hd), fun hb hd => ?_, fun hb hd => ?_,
        fun he => ?_⟩, fun he => exec_lin_disabled he, fun he hr => ?_⟩
    · exact ⟨_, next_when ht (linBreak_atOnce hr hb hm hw), linRun_attempt _ s⟩
    · exact ⟨_, next_when ht (linBreak_due hr hb hm hw hl hd), linRun_attempt _ s⟩
    · exact next_when ht (linFrameEnd_ends hr hb hd)
    · have ends : ∀ {reason}, linReason r resp false = reason →
          exec (.linFrameEnd m resp false) s = .next (linEnd m.val r reason (resp.take r.n) s) :=
        fun hre => next_when ht ((linFrameEnd_ends hr hb hd).trans (by rw [hre]))
      exact ⟨fun h1 => ends (linReason_sent h1), fun h1 he => ends (linReason_silent h1 he),
        fun h1 he hl hs => ends ((linReason_heard h1 he).trans (if_pos ⟨hl, hs⟩)),
        fun h1 he hs => ends ((linReason_heard h1 he).trans (if_neg (by tauto)))⟩
    · have dominant := (exec_dominant ht he).trans (congrArg _ (linDominant_judges hr))
      exact ⟨(linRun_of_net (linEvent_spec (by decide) _ s).1).trans hr, fun hb => dominant.trans (by rw [if_pos hb]),
        fun hb => dominant.trans (by rw [if_neg (Bool.eq_false_iff.1 hb)])⟩
    · obtain ⟨hnet, hevt⟩ := linEvent_spec (b := 2) (by decide) m.val s
      exact ⟨_, exec_wakeRx ht he hr, hevt, hnet⟩
  case eth =>
    intro y he hr hy
    subst hy
    exact ⟨fun hd => later op3 h (netEthSend_switched (u := u) hp hb hw he hr hd),
      fun p hd h1 => later op3 h (netEthSend_direct (u := u) hp hb hw he hr hd h1)⟩
  case switch =>
    refine ⟨fun h => exec_ethReceive_refused h ago fine10, fun he hp hg => ?_, fun he hp => ?_, ⟨_, next_when ht rfl, rfl, rfl⟩,
      exec_linkChange_same, exec_linkChange ht⟩
    · have receives : exec (.ethReceive n frame fcs ago fine10) s =
          .next (ethForward n.val false (s.clk.tb - ago) fine10.toNat frame s) := next_when (by rw [ht, he, hp, hg]; rfl) rfl
      exact ⟨fun hi => receives.trans (congrArg _ (ethForward_refused hi)),
        fun e p y hi hy ho => receives.trans (congrArg _ (ethForward_port hi hy ho))⟩
    · have leaves : exec (.ethEgressDone q5 fine10) s = .next (ethEgress q5.val fine10.toNat s) :=
        next_when (by rw [ht, he, hp]; rfl) rfl
      exact ⟨fun hn => leaves.trans (congrArg _ (ethEgress_none hn)),
        fun hn h4 ho => leaves.trans (congrArg _ (ethEgress_port hn h4 ho)),
        fun hn h4 => leaves.trans (congrArg _ (ethEgress_ring hn h4))⟩

end Sys2Proof.Machine
end

section
/-! The laws of the Adit link: the field core's frames, the timers and states of the positions, and replies (R996 to R1022), and
the statement SatelliteLinkResults assembled from them. -/
namespace Sys2Proof.Machine

variable {s y : State} {p op : Nat} {r : AditReq} {who : Req} {frame bs payload : Bytes}

/-! ### The field core's frames (R1009, R1017) -/

/-- DIN without the frame that has been taken. -/
def dropDin (s : State) : State := s.onAdit (fun a => { a with din := [], dinEom := false })

theorem exec_adit {i : Instr} (h : (i, op) ∈ [(Instr.aditSend, 1), (.enum, 2), (.auth, 3), (.aditMate, 4), (.aditRoll, 5)])
    (ht : s.timed = true) : exec i s = .next (aditOp op s) := by
  have all : ∀ e ∈ [(Instr.aditSend, 1), (.enum, 2), (.auth, 3), (.aditMate, 4), (.aditRoll, 5)],
      exec e.1 s = .next (aditOp e.2 s) := by
    simp only [List.forall_mem_cons]
    exact ⟨next_when ht rfl, next_when ht rfl, next_when ht rfl, next_when ht rfl, next_when ht rfl, fun _ h => nomatch h⟩
  exact all _ h

/-- SEND and ROLL alone need a BOUND position (R1009). -/
theorem not_lost_of_bound (hb : (op ≠ 1 ∧ op ≠ 5) ∨ posState y p = 1) :
    ¬ ((decide (op = 1) || decide (op = 5)) && posState y p != 1) = true := by
  rcases hb with ⟨h1, h5⟩ | hb
  · simp [h1, h5]
  · simp [hb]

section
variable (hy : y = drainAdit 4 s)
include hy

theorem aditOp_other (h : y.adit.dinEom = false ∨ dinOp y ≠ op) : aditOp op s = y := by
  rw [aditOp, ← hy]
  exact if_pos (by simpa using h)

section
variable (he : y.adit.dinEom = true) (ho : dinOp y = op)
include he ho

theorem aditOp_faulty (hk : dinOk y = false) : aditOp op s = dropDin y := by
  rw [aditOp, ← hy]
  refine (if_neg (by simp [he, ho])).trans (if_pos (by rw [hk]; rfl))

section
variable (hk : dinOk y = true)
include hk

theorem aditOp_lost (h15 : op = 1 ∨ op = 5) (hb : posState y (dinPos y) ≠ 1) :
    aditOp op s = endSatLost (dinPos y) (aditOut 2 (dinType y) (dinPos y) [] (dropDin y)) := by
  rw [aditOp, ← hy]
  refine (if_neg (by simp [he, ho])).trans ((if_neg (by simp [hk])).trans (if_pos (by simpa [hb] using h15)))

section
variable (hb : (op ≠ 1 ∧ op ≠ 5) ∨ posState y (dinPos y) = 1)
include hb

theorem aditOp_sends (hr : y.adit.req = none) (hon : y.rbit rADIT_CFG 31 = true) (hm : y.mayAttempt 11 = true) :
    aditOp op s = aditSendFrame ⟨dinPos y, dinType y, dinPayload y, .command, 0, 0⟩ (dropDin y) := by
  rw [aditOp, ← hy]
  refine (if_neg (by simp [he, ho])).trans ((if_neg (by simp [hk])).trans ((if_neg (not_lost_of_bound hb)).trans (if_neg ?_)))
  simp [hr, aditOn, hon, hm]

theorem aditOp_waits (h : y.adit.req ≠ none ∨ y.rbit rADIT_CFG 31 = false ∨ y.mayAttempt 11 = false) : aditOp op s = y := by
  rw [aditOp, ← hy]
  refine (if_neg (by simp [he, ho])).trans ((if_neg (by simp [hk])).trans ((if_neg (not_lost_of_bound hb)).trans (if_pos ?_)))
  rcases h with h | h | h
  · rw [Option.isSome_iff_ne_none.2 h]
    rfl
  · simp [aditOn, h]
  · simp [h]

end

end

end

end

/-- A frame on the line (R998). -/
theorem aditSendFrame_adit (r : AditReq) (s : State) : (aditSendFrame r s).adit = { s.adit with
    line := aditFrame r.pos r.type r.payload
    req := some { r with tries := r.tries + 1, endAt := s.clk.tb + frameTicks r.payload.length } } := by
  unfold aditSendFrame
  cases r.why == .command <;> rfl

/-- A position's new state and its event (R1005). -/
theorem setPosState_spec {st : Nat} (hp : p < 8) (hs : st < 16) (s : State) :
    posState (setPosState p st s) p = st ∧ (setPosState p st s).rbit rADIT_EVT (24 + p) = true := by
  have apart : posReg p ≠ rADIT_EVT := by unfold posReg rADIT_POS rADIT_EVT; omega
  obtain ⟨-, hreg, hevt, -⟩ := blockEvent_form rADIT_EVT rADIT_IE rADIT_ROUTE 0 15 (b := 24 + p) (by omega) (s.setFld (posReg p) 31 28 st)
  refine ⟨(fld_of_reg (hreg _ apart) 31 28).trans ?_, hevt⟩
  rw [fld_setFld _ _ _ _ _ (by decide)]
  omega

/-! ### The timers of a position (R1007, R1008, R1026) -/

section
variable (hon : s.rbit rADIT_CFG 31 = true) (h30 : s.rbit rADIT_CFG 30 = true)
include hon h30

theorem supervised_on : supervised s = true := by
  rw [supervised, aditOn, hon, h30]
  rfl

section
variable (hr : s.adit.req = none)
include hr

theorem heartbeat_due (hb : posState s p = 1) (ht : (s.aditPos p).nextHb ≤ s.clk.tb) : heartbeat p s =
    aditSendFrame ⟨p, 1, [], .heartbeat, 0, 0⟩ (s.setAditPos p
      { s.aditPos p with nextHb := (s.aditPos p).nextHb + msTicks (s.fld rADIT_CFG 3 0) }) := by
  rw [heartbeat]
  exact if_neg (by simp [hr, heartbeatDue, supervised_on hon h30, hb, ht])

theorem probe_due (hl : posState s p = 2) (ht : (s.aditPos p).nextProbe ≤ s.clk.tb) : probe p s =
    aditSendFrame ⟨p, 1, [], .probe, 0, 0⟩ (s.setAditPos p
      { s.aditPos p with nextProbe := (s.aditPos p).nextProbe + msTicks (s.fld rADIT_CFG 15 8) }) := by
  rw [probe]
  exact if_neg (by simp [hr, probeDue, supervised_on hon h30, hl, ht])

end

end

theorem heartbeat_early (ht : s.clk.tb < (s.aditPos p).nextHb) : heartbeat p s = s := if_pos (by simp [heartbeatDue, ht])

theorem heartbeat_other (h : s.adit.req ≠ none ∨ posState s p ≠ 1) : heartbeat p s = s := by
  refine if_pos ?_
  rcases h with h | h
  · rw [Option.isSome_iff_ne_none.2 h]
    rfl
  · simp [heartbeatDue, h]

theorem probe_early (ht : s.clk.tb < (s.aditPos p).nextProbe) : probe p s = s := if_pos (by simp [probeDue, ht])

theorem probe_other (h : s.adit.req ≠ none ∨ posState s p ≠ 2) : probe p s = s := by
  refine if_pos ?_
  rcases h with h | h
  · rw [Option.isSome_iff_ne_none.2 h]
    rfl
  · simp [probeDue, h]

theorem rebindExpiry_due (hl : posState s p = 2) (hr : s.adit.req = none)
    (hd : (s.aditPos p).lostAt + msTicks (10 * s.fld rADIT_CFG 23 16) ≤ s.clk.tb) (hn : s.clk.tb < (s.aditPos p).nextProbe) :
    rebindExpiry p s = setPosState p 4 s := when_true (by simp [hl, hr, hd, probeDue, hn]) _ _

theorem rebindExpiry_early (h : posState s p ≠ 2 ∨ s.clk.tb < (s.aditPos p).lostAt + msTicks (10 * s.fld rADIT_CFG 23 16)) :
    rebindExpiry p s = s := when_false (by rcases h with h | h <;> simp [h]) _ _

/-! ### The actors' bits of ADIT_POSn (R1006, R1011, R1012) -/

theorem writeRebind_lost (h : posState s p = 0 ∨ posState s p = 4) : writeRebind p s = posLost p s := when_true (by simpa using h) _ _

theorem writeRebind_other (h0 : posState s p ≠ 0) (h4 : posState s p ≠ 4) : writeRebind p s = s := when_false (by simp [h0, h4]) _ _

theorem writeRelease_other (h : posState s p = 0 ∨ posState s p = 5) : writeRelease p s = s := if_pos (by simpa using h.symm)

theorem writeRelease_bound (h : posState s p = 1) : writeRelease p s = leaveBound p (setPosState p 0 (dropBind p s)) := by
  rw [writeRelease]
  exact (if_neg (by simp [h])).trans (when_true (by simp [h]) _ _)

theorem writeRelease_unbound (h : 2 ≤ posState s p) (h5 : posState s p ≠ 5) : writeRelease p s = setPosState p 0 (dropBind p s) := by
  rw [writeRelease]
  exact (if_neg (by simp [h5]; omega)).trans (when_false (by simp; omega) _ _)

theorem writeUntrust_rebinding (h : posState s p = 3) : writeUntrust p s = setPosState p 5 (dropBind p s) := when_true (by simp [h]) _ _

theorem writeUntrust_other (h : posState s p ≠ 3) : writeUntrust p s = s := when_false (by simp [h]) _ _

theorem writeBind_other (h : posState s p ≠ 3) : writeBind p s = s := when_false (by simp [h]) _ _

theorem writeBind_runs (h : bindRuns s p = true) : writeBind p s = s := when_false (by simp [h]) _ _

theorem writeBind_sends (h : posState s p = 3) (hb : bindRuns s p = false) (hr : s.adit.req = none) (hq : s.adit.binding = [])
    (hon : s.rbit rADIT_CFG 31 = true) : writeBind p s =
      aditSendFrame ⟨p, 4, [1], .rebind, 0, 0⟩ (s.onAdit (fun a => { a with binding := [] })) := by
  have queued : (s.onAdit (fun a => { a with binding := a.binding ++ [p] })).adit.binding = [p] := by
    rw [State.onAdit, hq]
    rfl
  have free : (s.onAdit (fun a => { a with binding := a.binding ++ [p] })).adit.req = none := hr
  have on : aditOn (s.onAdit (fun a => { a with binding := a.binding ++ [p] })) = true := hon
  rw [writeBind, when_true (by simp [h, hb]), aditKick, free, queued]
  exact if_neg (by simp [on])

section
variable {q : Fin 8} (ht : s.timed = true)
include ht

section
variable (hw : Writers.appField.permits who = true)
include hw

theorem exec_rebind : exec (.rebind who q) s = .next (writeRebind q.val s) := next_when (by rw [ht, hw]; rfl) rfl

theorem exec_release : exec (.release who q) s = .next (writeRelease q.val s) := next_when (by rw [ht, hw]; rfl) rfl

end

section
variable (hw : Writers.kiln.permits who = true)
include hw

theorem exec_bind : exec (.bind who q) s = .next (writeBind q.val s) := next_when (by rw [ht, hw]; rfl) rfl

theorem exec_untrust : exec (.untrust who q) s = .next (writeUntrust q.val s) := next_when (by rw [ht, hw]; rfl) rfl

end

end

theorem exec_rebind_release_foreign {q : Fin 8} (hw : Writers.appField.permits who = false) :
    exec (.rebind who q) s = .next s ∧ exec (.release who q) s = .next s :=
  ⟨next_when_not (by rw [hw, Bool.and_false]) _ s, next_when_not (by rw [hw, Bool.and_false]) _ s⟩

theorem exec_untrust_bind_foreign {q : Fin 8} (hw : Writers.kiln.permits who = false) :
    exec (.untrust who q) s = .next s ∧ exec (.bind who q) s = .next s :=
  ⟨next_when_not (by rw [hw, Bool.and_false]) _ s, next_when_not (by rw [hw, Bool.and_false]) _ s⟩

/-! ### Replies and failed attempts (R996, R1010, R1027) -/

theorem reply_idle (hr : s.adit.req = none) (bs : Bytes) : aditReply bs s = s ∧ noReply s = s := by
  rw [aditReply, noReply, hr]
  exact ⟨rfl, rfl⟩

section
variable (hr : s.adit.req = some r)
include hr

theorem noReply_early (ht : s.clk.tb < r.endAt + 375) : noReply s = s := by
  rw [noReply, hr]
  exact if_pos ht

theorem noReply_due (ht : r.endAt + 375 ≤ s.clk.tb) : noReply s = aditKick (attemptFailed r s) := by
  rw [noReply, hr]
  exact if_neg (by omega)

theorem aditReply_late (ht : aditInTime r bs s = false) : aditReply bs s = s := by
  rw [aditReply, hr]
  exact if_pos (by rw [ht]; rfl)

section
variable (ht : aditInTime r bs s = true)
include ht

theorem aditReply_faulty (hp : aditPayload r bs = none) : aditReply bs s = aditKick (attemptFailed r (aditEvent 1 s)) := by
  rw [aditReply, hr]
  dsimp only
  rw [if_neg (by simp [ht]), hp]

theorem aditReply_replied (hp : aditPayload r bs = some payload) : aditReply bs s = aditKick (aditReplied r payload s) := by
  rw [aditReply, hr]
  dsimp only
  rw [if_neg (by simp [ht]), hp]

end

end

theorem aditReplied_command (hw : r.why = .command) : aditReplied r payload s = aditDeliver r payload (freeLine s) := by
  rw [aditReplied, hw]

theorem aditReplied_probe (hw : r.why = .probe) (hp : posState s r.pos = 2) :
    aditReplied r payload s = setPosState r.pos 3 (freeLine s) := by
  rw [aditReplied, hw]
  exact when_true (by simp [hp]) _ _

theorem aditReplied_rebind (hw : r.why = .rebind) : aditReplied r payload s =
    if payload.getD 0 0xFF = 0 then posBound r.pos (freeLine s) else attemptFailed r s := by
  rw [aditReplied, hw]

theorem aditReplied_heartbeat (hw : r.why = .heartbeat) (hb : (payload.getD 0 0).getLsbD 0 = false) :
    aditReplied r payload s = resendAfter r.pos ((freeLine s).setFld (posReg r.pos) 23 16 0) := by
  rw [aditReplied, hw]
  dsimp only
  rw [when_false hb]

theorem attemptFailed_command (hw : r.why = .command) (hm : s.mayAttempt 11 = true) : attemptFailed r s =
    if r.tries < 3 then aditSendFrame r (freeLine s)
    else if posState s r.pos = 1 then (freeLine s).onAdit (fun a => { a with again := some r })
    else aditOut 1 r.type r.pos [] (freeLine s) := by
  have may : (freeLine s).mayAttempt 11 = true := hm
  rw [attemptFailed, hw]
  dsimp only
  rw [may]
  exact (if_neg (by decide)).trans (if_congr Iff.rfl rfl (if_congr beq_iff_eq rfl rfl))

theorem attemptFailed_rebind (hw : r.why = .rebind) : attemptFailed r s =
    if r.tries < 3 then aditSendFrame r (freeLine s) else posLost r.pos (freeLine s) := by
  rw [attemptFailed, hw]

theorem attemptFailed_probe (hw : r.why = .probe) : attemptFailed r s = freeLine s := by
  rw [attemptFailed, hw]

/-- A heartbeat without a reply is counted, and at the limit its position is lost (R1007). -/
theorem attemptFailed_heartbeat (hw : r.why = .heartbeat) {k : Nat} (hk : k = satInc 255 (s.fld (posReg r.pos) 23 16)) :
    attemptFailed r s = if s.fld rADIT_CFG 7 4 ≤ k then posLost r.pos ((freeLine s).setFld (posReg r.pos) 23 16 k)
      else resendAfter r.pos ((freeLine s).setFld (posReg r.pos) 23 16 k) := by
  have limit : ((freeLine s).setFld (posReg r.pos) 23 16 k).fld rADIT_CFG 7 4 = s.fld rADIT_CFG 7 4 :=
    fld_of_reg ((reg_setFld_ne _ _ _ _ _ (posReg_ne_cfg _)).trans rfl) 7 4
  have misses : satInc 255 ((freeLine s).fld (posReg r.pos) 23 16) = k := hk.symm
  rw [attemptFailed, hw]
  dsimp only
  rw [misses, limit]

/-! ### The wake pulse (R1022) -/

section
variable (hm : s.sys.mode = .banked ∨ s.pwr.entering = true) (he : s.rbit rPWR_WAKE_EN 2 = true)
include hm he

theorem aditPulse_wakes : aditPulse s =
    presentWake 2 (if s.rbit rADIT_WAKE 0 then s else aditEvent 0 (s.setRbit rADIT_WAKE 0 true)) :=
  when_true (by rcases hm with hm | hm <;> simp [hm, he]) _ _

end

theorem aditPulse_idle (h : (s.sys.mode ≠ .banked ∧ s.pwr.entering = false) ∨ s.rbit rPWR_WAKE_EN 2 = false) : aditPulse s = s :=
  when_false (by rcases h with ⟨hm, hp⟩ | h <;> simp [*]) _ _

/-- Settles O58: each frame, timer and reply by the state of its position and of the line (a reply is judged by its bytes and
its time, and a RESET_STATE by its STATUS: log entries 67 and 68). -/
theorem satelliteLinkResults : Obligations.SatelliteLinkResults := by
  unfold Obligations.SatelliteLinkResults
  intro s y p r who frame payload crc op i drop on
  refine ⟨fun hi ht hy => ?frames, aditSendFrame_adit r s, fun st hs => setPosState_spec p.isLt hs s, fun ht => ?timed,
    fun hm he => ?wake, fun h => congrArg _ (aditPulse_idle h)⟩
  case frames =>
    have runs := exec_adit hi ht
    refine ⟨fun h => runs.trans (congrArg _ (aditOp_other hy h)), fun he ho hk => runs.trans (congrArg _ (aditOp_faulty hy he ho hk)),
      fun he ho hk h15 hb => runs.trans (congrArg _ (aditOp_lost hy he ho hk h15 hb)), fun he ho hk hb => ⟨fun hr hon hm => ?_, fun h => ?_⟩⟩
    · exact runs.trans (congrArg _ (aditOp_sends hy he ho hk hb hr hon hm))
    · exact runs.trans (congrArg _ (aditOp_waits hy he ho hk hb h))
  case timed =>
    refine ⟨fun hr hon h30 hb => ⟨fun hd => next_when ht (heartbeat_due hon h30 hr hb hd), fun hd => next_when ht (heartbeat_early hd)⟩,
      fun h => next_when ht (heartbeat_other h),
      fun hr hon h30 hl => ⟨fun hd => next_when ht (probe_due hon h30 hr hl hd), fun hd => next_when ht (probe_early hd)⟩,
      fun h => next_when ht (probe_other h), fun hl hr hd hn => next_when ht (rebindExpiry_due hl hr hd hn),
      fun h => next_when ht (rebindExpiry_early h), fun hw => ?actors, exec_rebind_release_foreign, fun hw => ?kiln,
      exec_untrust_bind_foreign, fun hr => ?idle, fun hr => ?request⟩
    case actors =>
      have rebinds := exec_rebind (q := p) ht hw
      have releases := exec_release (q := p) ht hw
      exact ⟨fun h => rebinds.trans (congrArg _ (writeRebind_lost h)), fun h0 h4 => rebinds.trans (congrArg _ (writeRebind_other h0 h4)),
        fun h => releases.trans (congrArg _ (writeRelease_other h)), fun h => releases.trans (congrArg _ (writeRelease_bound h)),
        fun h h5 => releases.trans (congrArg _ (writeRelease_unbound h h5))⟩
    case kiln =>
      have binds := exec_bind (q := p) ht hw
      have untrusts := exec_untrust (q := p) ht hw
      exact ⟨fun h => untrusts.trans (congrArg _ (writeUntrust_rebinding h)),
        fun h => ⟨untrusts.trans (congrArg _ (writeUntrust_other h)), binds.trans (congrArg _ (writeBind_other h))⟩,
        fun _ hb => binds.trans (congrArg _ (writeBind_runs hb)),
        fun h hb hr hq hon => binds.trans (congrArg _ (writeBind_sends h hb hr hq hon))⟩
    case idle =>
      obtain ⟨hreply, hnone⟩ := reply_idle hr (frame ++ beBytes 2 crc.toNat)
      exact ⟨next_when ht hreply, next_when ht hnone⟩
    case request =>
      refine ⟨fun hl => next_when ht (aditReply_late hr hl), fun hi => ⟨fun hp => next_when ht (aditReply_faulty hr hi hp), fun hp => ?replied⟩,
        fun hd => next_when ht (noReply_early hr hd), fun hd => next_when ht (noReply_due hr hd), fun hw hm => ?command,
        fun hw k hk => ?heartbeat, fun hw => ?rebind, attemptFailed_probe⟩
      case replied =>
        have replies : ∀ {z : State}, aditReplied r payload s = z → exec (.aditReply frame crc) s = .next (aditKick z) :=
          fun hz => next_when ht ((aditReply_replied hr hi hp).trans (congrArg _ hz))
        exact ⟨fun hw => replies (aditReplied_command hw), fun hw hl => replies (aditReplied_probe hw hl),
          fun hw h0 => replies ((aditReplied_rebind hw).trans (if_pos h0)), fun hw h0 => replies ((aditReplied_rebind hw).trans (if_neg h0)),
          fun hw hb => replies (aditReplied_heartbeat hw hb)⟩
      case command =>
        have failed := attemptFailed_command hw hm
        exact ⟨fun h3 => failed.trans (if_pos h3), fun h3 h1 => failed.trans ((if_neg (by omega)).trans (if_pos h1)),
          fun h3 h1 => failed.trans ((if_neg (by omega)).trans (if_neg h1))⟩
      case heartbeat =>
        have failed := attemptFailed_heartbeat hw hk
        exact ⟨fun hl => failed.trans (if_pos hl), fun hl => failed.trans (if_neg (by omega))⟩
      case rebind =>
        have failed := attemptFailed_rebind (s := s) hw
        exact ⟨fun h3 => failed.trans (if_pos h3), fun h3 => failed.trans (if_neg (by omega))⟩
  case wake =>
    have wakes := aditPulse_wakes hm he
    exact ⟨fun h0 => congrArg _ (wakes.trans (by rw [if_pos h0])), fun h0 => congrArg _ (wakes.trans (by rw [if_neg (by simp [h0])]))⟩

end Sys2Proof.Machine
end

section
/-! The laws of the host interfaces: PCIe requests and the link, serial requests and their replies, and rescue installs (R1037 to
R1064, R1190), and the statement HostInterfaceResults assembled from them. -/
namespace Sys2Proof.Machine

variable {s t : State} {who : Req} {tgt : PcieTo} {a len n : Nat} {write : Option (List Byte)} {bs z : Bytes} {ws : List Word} {r : Serial}
  {uart quad : Bool} {l8 : BitVec 8} {addr : BitVec 32} {hcrc dcrc : BitVec 16} {value : Word}

/-! ### PCIe requests (R1041 to R1045, R1062) -/

section
variable (hl : s.host.linkUp = true) (ha : s.hostActive .pcie = true)
include hl ha

theorem exec_pcieAccess_held (hf : s.frozen = true) : exec (.pcieAccess tgt len write) s =
    .next { s with host := { s.host with waiting := s.host.waiting ++ [.pcie tgt len write] } } :=
  next_when (by rw [hl, ha]; rfl) (if_pos hf)

theorem exec_pcieAccess_serves (hf : s.frozen = false) (hv : s.live = true) :
    exec (.pcieAccess tgt len write) s = .next (pcieServe tgt len write s) :=
  next_when (by rw [hl, ha]; rfl) ((if_neg (by rw [hf]; decide)).trans (when_true hv _ _))

end

theorem exec_pcieAccess_down (h : s.host.linkUp = false ∨ s.hostActive .pcie = false) : exec (.pcieAccess tgt len write) s = .next s :=
  next_when_not (by rcases h with h | h <;> simp [h]) _ s

theorem pcieControl_refused (h : a % 4 ≠ 0 ∨ len % 4 ≠ 0 ∨ len = 0 ∨ hostMayAll s write.isSome a (len / 4) = false) :
    pcieControl a len write s = pcieError s := by
  unfold pcieControl
  exact if_pos (by rcases h with h | h | h | h <;> simp [h])

section
variable (h4 : a % 4 = 0) (hl : len % 4 = 0) (h0 : len ≠ 0)
include h4 hl h0

theorem pcieControl_taken (hm : hostMayAll s write.isSome a (len / 4) = true) :
    ¬ (a % 4 != 0 || len % 4 != 0 || len = 0 || !hostMayAll s write.isSome a (len / 4)) = true := by
  simp [h4, hl, h0, hm]

section
variable (hm : hostMayAll s (none : Option (List Byte)).isSome a (len / 4) = true)
include hm

theorem pcieControl_reads (hr : hostReads .pcie (len / 4) a s = (true, ws, t)) : pcieControl a len none s = answer 0 ws false t := by
  rw [pcieControl]
  rw [if_neg (pcieControl_taken h4 hl h0 hm), hr]

theorem pcieControl_read_error (hr : hostReads .pcie (len / 4) a s = (false, ws, t)) : pcieControl a len none s = pcieError t := by
  rw [pcieControl]
  rw [if_neg (pcieControl_taken h4 hl h0 hm), hr]

end

section
variable (hm : hostMayAll s (some bs).isSome a (len / 4) = true)
include hm

theorem pcieControl_writes (hr : hostWrites .pcie ((wordsOf bs).take (len / 4)) a s = (true, t)) :
    pcieControl a len (some bs) s = answer 0 [] false t := by
  rw [pcieControl]
  rw [if_neg (pcieControl_taken h4 hl h0 hm), hr]

theorem pcieControl_write_error (hr : hostWrites .pcie ((wordsOf bs).take (len / 4)) a s = (false, t)) :
    pcieControl a len (some bs) s = pcieError t := by
  rw [pcieControl]
  rw [if_neg (pcieControl_taken h4 hl h0 hm), hr]

end

end

section
variable (h0 : len ≠ 0)
include h0

theorem pcieSram_taken (hb : ∀ i < len, inSram (a + i) = true ∧ hostMay s write.isSome ((a + i) / 4 * 4) = true) :
    ¬ (decide (len = 0) || !((List.range len).map (fun i => a + i)).all (fun x => inSram x && hostMay s write.isSome (x / 4 * 4))) = true := by
  have all : ((List.range len).map (fun i => a + i)).all (fun x => inSram x && hostMay s write.isSome (x / 4 * 4)) = true := by
    simpa using hb
  rw [all, decide_eq_false h0]
  decide

theorem pcieSram_reads (hb : ∀ i < len, inSram (a + i) = true ∧ hostMay s (none : Option (List Byte)).isSome ((a + i) / 4 * 4) = true)
    (hr : readSram 0x21 a len s = (.ok z, t)) : pcieSram a len none s = answer 0 (wordsOf z) false t := by
  rw [pcieSram]
  rw [if_neg (pcieSram_taken h0 hb), hr]

theorem pcieSram_writes (hb : ∀ i < len, inSram (a + i) = true ∧ hostMay s (some bs).isSome ((a + i) / 4 * 4) = true)
    (hr : writeSram 0x21 a (slice bs 0 len) s = (.ok z, t)) : pcieSram a len (some bs) s = answer 0 [] false t := by
  rw [pcieSram]
  rw [if_neg (pcieSram_taken h0 hb), hr]

end

/-! ### The link (R1042, R1044) -/

/-- A link that goes down changes registers of its own copy and the link's state. -/
theorem setLink_down (s : State) : ∃ rg, setLink false 0 s = { s with regs := rg, host := { s.host with linkUp := false, speed := 0 } } := by
  unfold setLink
  cases hl : s.host.linkUp with
  | false =>
    have host : ({ s.host with linkUp := false } : HostIf) = s.host := by rw [← hl]
    exact ⟨s.regs, congrArg (fun h : HostIf => { s with host := { h with speed := 0 } }) host.symm⟩
  | true =>
    obtain ⟨rg, hdown⟩ := hostEvent_down 2 { s with host := { s.host with linkUp := false, speed := 0 } } rfl
    exact ⟨rg, hdown⟩

/-- PERST_N clears the link's state, the configuration space and the MSI-X table (R1044). -/
theorem exec_perstN (hm : s.sys.mode ≠ .off) : ∃ y, exec .perstN s = .next y ∧ y.host.linkUp = false ∧ y.host.speed = 0 ∧
    y.host.busMaster = false ∧ y.host.msixEnable = false ∧ y.host.msixMask = false ∧ y.host.msixTable = [] ∧ y.host.pba = 0 ∧
    y.front = s.front ∧ y.chans = s.chans ∧ y.mem = s.mem := by
  obtain ⟨rg, hdown⟩ := setLink_down s
  refine ⟨_, next_when (bne_iff_ne.2 hm) rfl, ?_⟩
  rw [hdown]
  exact ⟨rfl, rfl, rfl, rfl, rfl, rfl, rfl, rfl, rfl, rfl⟩

theorem exec_pcieLinkChange (hv : s.live = true) (ha : s.hostActive .pcie = true) (linked : Bool) (speed : BitVec 2) :
    exec (.pcieLinkChange linked speed) s = .next (setLink linked speed s) := next_when (by rw [hv, ha]; rfl) rfl

/-! ### Serial requests (R1047 to R1056) -/

/-- The rows by which a request without data arrives. -/
theorem exec_serial {i : Instr} (h : (i, r) ∈ [(Instr.serialRead uart quad l8 addr hcrc, Serial.read l8 addr),
      (.rescueInstall (.request uart quad l8 addr hcrc), .install l8 addr)]) (hh : serialHears uart s = true) :
    exec i s = .next (serialHeader uart quad r hcrc s) := by
  simp only [List.mem_cons, Prod.mk.injEq, List.not_mem_nil, or_false] at h
  obtain ⟨rfl, rfl⟩ | ⟨rfl, rfl⟩ := h
  · exact next_when hh rfl
  · exact next_when hh rfl

theorem serialHeader_ok (h : serialHeaderOk quad r hcrc = true) : serialHeader uart quad r hcrc s = serialArrive uart quad r s := if_pos h

theorem serialHeader_bad (h : serialHeaderOk quad r hcrc = false) : serialHeader uart quad r hcrc s = badHeader uart r s :=
  if_neg (Bool.eq_false_iff.1 h)

theorem badHeader_spi (hv : s.live = true) : badHeader false r s = reply false r 1 [] s := when_true hv _ _

section
variable (hh : serialHears uart s = true) (hk : serialHeaderOk quad (.write addr ws) hcrc = true)
include hh hk

theorem exec_serialWrite_arrives (hd : crc16 (serialData ws) = dcrc) :
    exec (.serialWrite uart quad addr ws hcrc dcrc) s = .next (serialArrive uart quad (.write addr ws) s) :=
  next_when hh ((if_neg (by simp [hd])).trans (serialHeader_ok hk))

theorem exec_serialWrite_badData (hd : crc16 (serialData ws) ≠ dcrc) (hv : s.live = true) :
    exec (.serialWrite uart quad addr ws hcrc dcrc) s = .next (reply uart (.write addr ws) 2 [] s) :=
  next_when hh ((if_pos (by simp [hk, hd])).trans (when_true hv _ _))

end

theorem serialArrive_answered (hf : s.frozen = false) (hv : s.live = true) : serialArrive false quad r s = serialAnswer false quad r s :=
  (if_neg (Bool.eq_false_iff.1 hf)).trans (when_true hv _ _)

theorem serialArrive_held (hf : s.frozen = true) : serialArrive false quad r s = holdAccess (.serial false quad r false) s :=
  (if_pos hf).trans (if_neg (by simp))

/-! ### What a request does (R1049, R1053, R1064) -/

section
variable (hq : (uart && quad) = false)
include hq

theorem serialServe_unaligned (h4 : addr.toNat % 4 ≠ 0) : serialServe uart quad (.read l8 addr) s = (6, [], s) ∧
    serialServe uart quad (.write addr ws) s = (6, [], s) := by
  rw [serialServe, serialServe, hq]
  exact ⟨(if_neg Bool.false_ne_true).trans (if_pos (by simp [h4])), (if_neg Bool.false_ne_true).trans (if_pos (by simp [h4]))⟩

section
variable (h4 : addr.toNat % 4 = 0)
include h4

theorem serialServe_read_refused (hm : hostMayAll s false addr.toNat (l8.toNat + 1) = false) :
    serialServe uart quad (.read l8 addr) s = (4, [], s) := by
  rw [serialServe, hq]
  exact (if_neg Bool.false_ne_true).trans ((if_neg (by simp [h4])).trans (if_pos (by rw [hm]; rfl)))

section
variable (hm : hostMayAll s false addr.toNat (l8.toNat + 1) = true)
include hm

theorem serialServe_reads (hr : hostReads (serialReq uart) (l8.toNat + 1) addr.toNat s = (true, ws, t)) :
    serialServe uart quad (.read l8 addr) s = (0, ws, t) := by
  rw [serialServe, hq]
  dsimp only
  rw [if_neg Bool.false_ne_true, if_neg (by simp [h4]), if_neg (by simp [hm]), hr]

theorem serialServe_read_error (hr : hostReads (serialReq uart) (l8.toNat + 1) addr.toNat s = (false, ws, t)) :
    serialServe uart quad (.read l8 addr) s = (3, [], t) := by
  rw [serialServe, hq]
  dsimp only
  rw [if_neg Bool.false_ne_true, if_neg (by simp [h4]), if_neg (by simp [hm]), hr]

end

theorem serialServe_writes (h0 : ws ≠ []) (hl : ws.length ≤ 256) (hm : hostMayAll s true addr.toNat ws.length = true)
    (hw : hostWrites (serialReq uart) ws addr.toNat s = (true, t)) : serialServe uart quad (.write addr ws) s = (0, [], t) := by
  rw [serialServe, hq]
  dsimp only
  rw [if_neg Bool.false_ne_true, if_neg (by simp [h4, h0, hl]), if_neg (by simp [hm]), hw]

end

theorem serialServe_install : serialServe uart quad (.install l8 addr) s = serialInstall l8 addr s := by
  rw [serialServe, hq]
  exact if_neg Bool.false_ne_true

end

section
variable (hl : l8 = 0) (ha : addr = 0xA ∨ addr = 0xB) (hm : s.sys.mode ≠ .scan)
include hl ha hm

/-- An install whose header is in order is judged once the loader is ready (R1190). -/
theorem serialInstall_judges : serialInstall l8 addr s =
    if rescueReady s then (0, [wd (rescue (addr.toNat - 0xA) s).1], (rescue (addr.toNat - 0xA) s).2) else (7, [], s) := by
  have slot : (l8 != 0 || !(addr.toNat == 0xA || addr.toNat == 0xB)) = false := by rcases ha with rfl | rfl <;> rw [hl] <;> rfl
  rw [serialInstall, slot]
  refine (if_neg Bool.false_ne_true).trans ((if_neg (by simpa using hm)).trans ?_)
  cases rescueReady s <;> rfl

end

section
variable (hw : Writers.hostApp.permits who = true) (hv : s.live = true) (hm : s.sys.mode ≠ .scan)
include hw hv hm

theorem exec_rescueInstall_register : exec (.rescueInstall (.register who value)) s = .next (rescueWrite value s) :=
  next_when (by rw [hv, hw, bne_iff_ne.2 hm]; rfl) rfl

end

theorem rescueWrite_judges (hk : bits value 31 16 = 0x5253) (hn : bits value 3 0 = 0xA ∨ bits value 3 0 = 0xB) :
    rescueWrite value s = if rescueReady s then (rescue (bits value 3 0 - 0xA) s).2 else s := by
  rw [rescueWrite]
  exact if_congr (by simp [hk, hn]) rfl rfl

/-- Settles O59: each access by the state of the link, of the device and of its check words (the order in which a request is
judged, and the rescue loader's replies: log entries 36 and 52). -/
theorem hostInterfaceResults : Obligations.HostInterfaceResults := by
  unfold Obligations.HostInterfaceResults
  intro s t who tgt off soff len write bs ws linked speed uart quad l8 addr hcrc dcrc value r
  refine ⟨fun hl ha => ⟨exec_pcieAccess_held hl ha, fun hf hv => ?pcie⟩, exec_pcieAccess_down, rfl, rfl, exec_perstN,
    fun hm => next_when_not (by rw [hm]; rfl) _ s, fun hv ha => ?link, fun i hi hh => ?header, fun hh => ⟨exec_serialWrite_arrives hh,
      exec_serialWrite_badData hh⟩, fun hh => ⟨next_when_not hh _ s, next_when_not hh _ s⟩, serialArrive_answered, serialArrive_held,
    fun hq => ?serve, fun hw hv hm hk hn => ?rescue, fun hh => ⟨next_when hh rfl, next_when hh rfl⟩, fun hh => next_when_not hh _ s,
    fun hh => next_when hh rfl, fun hh => next_when_not hh _ s⟩
  case pcie =>
    have serves : ∀ {y : State}, pcieServe tgt len write s = y → exec (.pcieAccess tgt len write) s = .next y :=
      fun hy => (exec_pcieAccess_serves hl ha hf hv).trans (congrArg _ hy)
    refine ⟨fun a ht ha => ?_, fun z ht h0 hb => ?_⟩
    · subst ht ha
      refine ⟨fun h => serves (pcieControl_refused h), fun h4 h0 hne hm =>
        ⟨fun hw hr => ?_, fun hw hr => ?_, fun hw hr => ?_, fun hw hr => ?_⟩⟩
      all_goals subst hw
      · exact serves (pcieControl_reads h4 h0 hne hm hr)
      · exact serves (pcieControl_read_error h4 h0 hne hm hr)
      · exact serves (pcieControl_writes h4 h0 hne hm hr)
      · exact serves (pcieControl_write_error h4 h0 hne hm hr)
    · subst ht
      refine ⟨fun hw hr => ?_, fun hw hr => ?_⟩
      all_goals subst hw
      · exact serves (pcieSram_reads h0 hb hr)
      · exact serves (pcieSram_writes h0 hb hr)
  case link =>
    have changes := exec_pcieLinkChange hv ha linked speed
    exact ⟨fun h => changes.trans (congrArg _ (if_pos (by simp [h]))), fun h => changes.trans (congrArg _ (if_neg (by simpa using h)))⟩
  case header =>
    have arrives := exec_serial hi hh
    refine ⟨fun hk => arrives.trans (congrArg _ (serialHeader_ok hk)), fun hk hu => ?_, fun hk hu hv => ?_⟩
    · subst hu
      exact arrives.trans (congrArg _ (serialHeader_bad hk))
    · subst hu
      exact arrives.trans (congrArg _ ((serialHeader_bad hk).trans (badHeader_spi hv)))
  case serve =>
    refine ⟨serialServe_unaligned hq, serialServe_read_refused hq, fun h4 hm => ⟨serialServe_reads hq h4 hm, serialServe_read_error hq h4 hm⟩,
      serialServe_writes hq, fun hl ha hm hr => ?_, fun hl ha hm hr => ?_⟩
    · exact (serialServe_install hq).trans ((serialInstall_judges hl ha hm).trans (if_pos hr))
    · exact (serialServe_install hq).trans ((serialInstall_judges hl ha hm).trans (if_neg (Bool.eq_false_iff.1 hr)))
  case rescue =>
    have judged := (exec_rescueInstall_register (value := value) hw hv hm).trans (congrArg _ (rescueWrite_judges hk hn))
    exact ⟨fun hr => judged.trans (congrArg _ (if_pos hr)), fun hr => judged.trans (congrArg _ (if_neg (Bool.eq_false_iff.1 hr)))⟩

end Sys2Proof.Machine
end

section
/-! The laws of QUENCH: the ball and the requests in each mode, the coherent stop, THAW and the resume (R1108 to R1131), and the
statement QuenchResults assembled from them. -/
namespace Sys2Proof.Machine

variable {s : State} {who : Req}

theorem fld_setRbit_ne (s : State) (k i : Nat) (b : Bool) {hi lo : Nat} (h : hi < 32) (hd : hi < i ∨ i < lo) :
    (s.setRbit k i b).fld k hi lo = s.fld k hi lo := by
  rw [State.fld, State.setRbit, reg_setReg_self]
  exact bits_setBits_ne _ _ _ _ _ _ h hd

/-! ### The ball (R1108, R1110, R1111) -/

/-- A freeze under way from a source. -/
def freezeFrom (src : BitVec 4) (s : State) : State := { s with assay := { s.assay with
  freezing := true, srcs := (if s.assay.freezing then s.assay.srcs else 0) ||| src, holdsReset := s.pwr.resetReq.isSome } }

/-- The ball is low. -/
def ballDown (s : State) : State := { s with assay := { s.assay with ballLow := true } }

/-- A fall that no mode honours is counted and reported (R1110). -/
def fallCounted (s : State) : State := modeEvent 3 (s.satFld rASSAY_IGNORED 31 0)

theorem fallCounted_mode (s : State) : (fallCounted s).sys.mode = s.sys.mode := by
  rw [fallCounted, (modeEvent_notified 3 _).rest]
  rfl

theorem exec_quenchBallFall (hb : s.assay.ballLow = false) : exec .quenchBallFall s = .next (ballFalls (ballDown s)) :=
  next_when (by rw [hb]; rfl) rfl

theorem ballFalls_freezes (hm : s.sys.mode = .factory ∨ s.sys.mode = .service) : ballFalls s = freezeFrom 0b0010 s := by
  rw [ballFalls]
  rcases hm with hm | hm
  · rw [hm]
    rfl
  · rw [hm]
    rfl

theorem ballFalls_banked (hm : s.sys.mode = .banked) : ballFalls s = { s with assay := { s.assay with bankLatch := true } } := by
  rw [ballFalls, hm]
  rfl

theorem ballFalls_idle (hm : s.sys.mode = .off ∨ (s.sys.mode = .quenched ∧ s.assay.thawAt ≠ some s.clk.rtc)) : ballFalls s = s := by
  rw [ballFalls]
  rcases hm with hm | ⟨hm, ht⟩
  · rw [hm]
  · rw [hm]
    exact when_false (beq_false_of_ne ht) _ _

/-- A fall in the RTC period of a THAW prevails over it (R1137). -/
theorem ballFalls_holds (hm : s.sys.mode = .quenched) (ht : s.assay.thawAt = some s.clk.rtc) :
    ballFalls s = { s.setRbit rASSAY_STAT 5 true with assay := { s.assay with thawAt := none } } := by
  rw [ballFalls, hm]
  exact when_true (beq_iff_eq.2 ht) _ _

theorem withdraw_drive (hm : s.sys.mode = .drive) : withdraw s = commit .access 0x0B s := when_true (by simp [hm]) _ _

theorem withdraw_other (hm : s.sys.mode ≠ .drive) : withdraw s = s := when_false (by simp [hm]) _ _

theorem ballFalls_ignored (hm : s.sys.mode ∈ [.scan, .unmated, .parked, .approach, .access, .lockdown]) : ballFalls s = fallCounted s := by
  have notDrive : (fallCounted s).sys.mode ≠ .drive := by
    rw [fallCounted_mode]
    rintro h
    rw [h] at hm
    revert hm
    decide
  have ignored : ballFalls s = withdraw (fallCounted s) := by
    rw [ballFalls]
    simp only [List.mem_cons, List.not_mem_nil, or_false] at hm
    rcases hm with hm | hm | hm | hm | hm | hm <;> rw [hm] <;> rfl
  rw [ignored, withdraw_other notDrive]

theorem ballFalls_drive (hm : s.sys.mode = .drive) : ballFalls s = commit .access 0x0B (fallCounted s) := by
  rw [ballFalls, hm]
  exact withdraw_drive ((fallCounted_mode s).trans hm)

/-! ### Quench requests (R1109, R1131) -/

theorem quenchable_iff {m : Mode} : quenchable m = true ↔ m = .factory ∨ m = .service := by cases m <;> simp [quenchable]

theorem quenchRequest_freezes {src : Nat} (hm : s.sys.mode = .factory ∨ s.sys.mode = .service) :
    quenchRequest src s = freezeFrom (BitVec.ofNat 4 (1 <<< src)) s := by
  have notOff : s.sys.mode ≠ .off := by rcases hm with hm | hm <;> rw [hm] <;> decide
  rw [quenchRequest, if_neg (by simpa using notOff), if_pos (quenchable_iff.2 hm)]
  rfl

theorem quenchRequest_ignored {src : Nat} (ho : s.sys.mode ≠ .off) (hm : ¬ (s.sys.mode = .factory ∨ s.sys.mode = .service)) :
    quenchRequest src s = s.setRbit rASSAY_STAT 7 true := by
  rw [quenchRequest, if_neg (by simpa using ho), if_neg (fun h => hm (quenchable_iff.1 h))]

theorem permits_appHost (h : (∃ c : Fin 6, c.val < 4 ∧ who = .core c) ∨ who ∈ hostReqs) : Writers.appHost.permits who = true := by
  rcases h with ⟨c, hc, rfl⟩ | h
  · exact decide_eq_true hc
  · revert h
    cases who <;> simp [hostReqs, Writers.permits]

theorem exec_quenchRequest_keyed (hl : s.live = true) (hw : Writers.appHost.permits who = true) :
    exec (.quenchRequest who 0x5155) s = .next (quenchRequest 2 s) := next_when hl (when_true (by rw [hw]; rfl) _ _)

theorem exec_quenchRequest_unkeyed (hl : s.live = true) {key : BitVec 16} (hk : key ≠ 0x5155) :
    exec (.quenchRequest who key) s = .next s :=
  next_when hl (when_false (by rw [beq_false_of_ne hk, Bool.and_false]) _ _)

/-! ### The coherent stop (R1113) -/

/-- ASSAY_STAT and the captured times, written. -/
def freezeRegs (w lo hi rtc : Word) (s : State) : State :=
  (((s.setReg rASSAY_STAT w).setReg rASSAY_FREEZE_TB_LO lo).setReg rASSAY_FREEZE_TB_HI hi).setReg rASSAY_FREEZE_RTC rtc

theorem freezeRegs_spec (w lo hi rtc : Word) (s : State) : (freezeRegs w lo hi rtc s).reg rASSAY_STAT = w ∧
    (freezeRegs w lo hi rtc s).reg rASSAY_FREEZE_TB_LO = lo ∧ (freezeRegs w lo hi rtc s).reg rASSAY_FREEZE_TB_HI = hi ∧
    (freezeRegs w lo hi rtc s).reg rASSAY_FREEZE_RTC = rtc := by
  unfold freezeRegs
  refine ⟨?_, ?_, ?_, reg_setReg_self _ _ _⟩
  · rw [reg_setReg_ne _ _ _ (by decide), reg_setReg_ne _ _ _ (by decide), reg_setReg_ne _ _ _ (by decide), reg_setReg_self]
  · rw [reg_setReg_ne _ _ _ (by decide), reg_setReg_ne _ _ _ (by decide), reg_setReg_self]
  · rw [reg_setReg_ne _ _ _ (by decide), reg_setReg_self]

/-- ASSAY_STAT of a freeze: FREEZES one higher, FROM, the sources and FROZEN, with bits 5 and 7 kept (R1113). -/
def freezeStat (s : State) : Word :=
  wd (65536 * ((s.fld rASSAY_STAT 31 16 + 1) % 65536) + 256 * s.sys.mode.code + s.assay.srcs.toNat + 1 +
    (32 * s.fld rASSAY_STAT 5 5 + 128 * s.fld rASSAY_STAT 7 7))

theorem noteFreeze_eq (s : State) :
    noteFreeze s = freezeRegs (freezeStat s) (wd s.clk.tb) (wd (s.clk.tb / 2 ^ 32)) (wd s.clk.rtc) s := by
  have stat : wd (fld 16 ((bits (s.reg rASSAY_STAT) 31 16 + 1) % 65536) + fld 8 s.sys.mode.code + s.assay.srcs.toNat + 1 +
      (fld 5 (bits (s.reg rASSAY_STAT) 5 5) + fld 7 (bits (s.reg rASSAY_STAT) 7 7))) = freezeStat s := by
    unfold freezeStat State.fld fld
    simp only [Nat.shiftLeft_eq]
    congr 1
    omega
  rw [← stat]
  rfl

/-- What the coherent stop does before T16 commits. -/
def freezeStart (s : State) : State :=
  let s := freezeFlash (noteFreeze s)
  nfcCarrierOff { s.onAssay (fun a => { a with freezing := false }) with clk := { s.clk with running := false } }

theorem coherentStop_eq (s : State) : coherentStop s = commit .quenched 0x0F (freezeStart s) := rfl

/-- A register that neither flash nor the transition writes. -/
theorem coherentStop_reg (s : State) {k : Nat} (he : k ∉ eccKeys) (h1 : k ≠ rSTART_EVT) (h2 : k ≠ rSYS_MODE_EVT) (h3 : k ∉ pendKeys) :
    (commit .quenched 0x0F (freezeStart s)).reg k = (noteFreeze s).reg k := by
  obtain ⟨-, -, -, -, -, hreg⟩ := commit_spec .quenched 0x0F (freezeStart s)
  exact (hreg k h1 h2 h3).trans ((freezeFlash_spec (noteFreeze s)).2.2 k he)

theorem freezeStart_spec (s : State) : (freezeStart s).sys = s.sys ∧ (freezeStart s).clk = { s.clk with running := false } := by
  obtain ⟨hsys, hclk, -⟩ := freezeFlash_spec (noteFreeze s)
  have sys : (noteFreeze s).sys = s.sys := by rw [noteFreeze_eq]; rfl
  have clk : (noteFreeze s).clk = s.clk := by rw [noteFreeze_eq]; rfl
  rw [sys] at hsys
  rw [clk] at hclk
  exact ⟨hsys, by rw [← hclk]; rfl⟩

/-! ### THAW and the resume (R1128, R1129) -/

theorem thawUpdate_blocked (h : s.sys.mode ≠ .quenched ∨ s.assay.ballLow = true) : thawUpdate s = s.setRbit rASSAY_STAT 5 true :=
  if_neg (by rcases h with h | h <;> simp [h])

theorem thawUpdate_remembers (hm : s.sys.mode = .quenched) (hb : s.assay.ballLow = false) (ht : s.assay.thawAt = none) :
    thawUpdate s = { s with assay := { s.assay with thawAt := some s.clk.rtc } } := by
  rw [thawUpdate, if_pos (by simp [hm, hb]), State.onAssay, ht]
  rfl

/-- The bits and the time that a thaw writes. -/
def thawRegs (rtc : Word) (s : State) : State :=
  (((s.setRbit rTB_STAT 2 true).setRbit rTB_STAT 0 true).setReg rASSAY_THAW_RTC rtc).setRbit rASSAY_STAT 0 false

theorem thawRegs_spec (rtc : Word) (s : State) : (thawRegs rtc s).rbit rTB_STAT 2 = true ∧ (thawRegs rtc s).rbit rTB_STAT 0 = true ∧
    (thawRegs rtc s).reg rASSAY_THAW_RTC = rtc ∧ (thawRegs rtc s).rbit rASSAY_STAT 0 = false ∧
    (thawRegs rtc s).fld rASSAY_STAT 11 8 = s.fld rASSAY_STAT 11 8 := by
  have tb : (thawRegs rtc s).reg rTB_STAT = ((s.setRbit rTB_STAT 2 true).setRbit rTB_STAT 0 true).reg rTB_STAT := by
    rw [thawRegs, reg_setRbit_ne _ _ _ _ (by decide), reg_setReg_ne _ _ _ (by decide)]
  refine ⟨?_, ?_, ?_, rbit_setRbit _ _ _ _ (by decide), ?_⟩
  · rw [rbit_of_reg tb, rbit_setRbit_bit _ _ _ _ _ (by decide) (by decide), rbit_setRbit _ _ _ _ (by decide)]
  · rw [rbit_of_reg tb, rbit_setRbit _ _ _ _ (by decide)]
  · rw [thawRegs, reg_setRbit_ne _ _ _ _ (by decide), reg_setReg_self]
  · rw [thawRegs, fld_setRbit_ne _ _ _ _ (by decide) (by decide)]
    exact fld_of_reg (by rw [reg_setReg_ne _ _ _ (by decide), reg_setRbit_ne _ _ _ _ (by decide), reg_setRbit_ne _ _ _ _ (by decide)]) _ _

theorem reg_onAssay (f : Assay → Assay) (s : State) (k : Nat) : (s.onAssay f).reg k = s.reg k := rfl

/-- The timebase runs again. -/
def thawClock (s : State) : State := { s with clk := { s.clk with running := true, unlockedAt := none } }

theorem thawStart_reg (s : State) (k : Nat) : (thawStart s).reg k = (thawRegs (wd s.clk.rtc) (thawClock s)).reg k := by
  have start : thawStart s = (thawRegs (wd s.clk.rtc) (thawClock s)).onAssay (fun a => { a with thawAt := none }) := by
    unfold thawStart thawRegs thawClock
    rfl
  rw [start]
  exact reg_onAssay _ _ k

theorem thawStart_mode (s : State) : thawMode (thawStart s) = if s.fld rASSAY_STAT 11 8 = 3 then .factory else .service := by
  obtain ⟨-, -, -, -, from_⟩ := thawRegs_spec (wd s.clk.rtc) (thawClock s)
  rw [thawMode, fld_of_reg (thawStart_reg s rASSAY_STAT), from_]
  rfl

theorem exec_thawResume (hm : s.sys.mode = .quenched) (ht : s.assay.thawAt ≠ none) :
    exec .thawResume s = .next (thawResume s) := next_when (by rw [hm, Option.isSome_iff_ne_none.2 ht]; rfl) rfl

/-- Settles O43: what the ball, the requests, the stop and the thaw do by the mode that they find (a fall in the RTC period of a
THAW, and the bits that the port shifts: log entries 111 and 41). -/
theorem quenchResults : Obligations.QuenchResults := by
  unfold Obligations.QuenchResults
  intro s freeze low factoryOrService
  refine ⟨fun hb => ?fall, rfl, fun who hl hw => ?request, fun who key hl hk => exec_quenchRequest_unkeyed hl hk, fun ho => ?port,
    fun hf hm => ?stop, fun hm ht => ?resume⟩
  case fall =>
    have falls := exec_quenchBallFall hb
    refine ⟨fun hm => falls.trans (congrArg _ (ballFalls_freezes (s := ballDown s) hm)),
      fun hm => falls.trans (congrArg _ (ballFalls_banked (s := ballDown s) hm)),
      fun hm => falls.trans (congrArg _ (ballFalls_idle (s := ballDown s) hm)),
      fun hm ht => falls.trans (congrArg _ (ballFalls_holds (s := ballDown s) hm ht)),
      fun hm => falls.trans (congrArg _ (ballFalls_ignored (s := ballDown s) hm)), fun hm => ?_⟩
    obtain ⟨hsys, -⟩ := commit_spec .access 0x0B (fallCounted (ballDown s))
    exact ⟨_, falls.trans (congrArg _ (ballFalls_drive (s := ballDown s) hm)), rfl, congrArg Sys.mode hsys, congrArg Sys.cause hsys⟩
  case request =>
    have requests := exec_quenchRequest_keyed hl (permits_appHost hw)
    have notOff : s.sys.mode ≠ .off := fun h => by simp [State.live, h] at hl
    exact ⟨fun hm => requests.trans (congrArg _ (quenchRequest_freezes hm)),
      fun hm => requests.trans (congrArg _ (quenchRequest_ignored notOff hm))⟩
  case port =>
    have up : tapUp s = true := bne_iff_ne.2 ho
    intro p
    exact ⟨fun hm => next_when up (quenchRequest_freezes (s := p 0x10) hm), fun hm => next_when up (quenchRequest_ignored (s := p 0x10) ho hm),
      fun hm hb ht => next_when up (thawUpdate_remembers (s := p 0x11) hm hb ht), fun h => next_when up (thawUpdate_blocked (s := p 0x11) h)⟩
  case stop =>
    obtain ⟨hsys, -, hclk, -⟩ := commit_spec .quenched 0x0F (freezeStart s)
    obtain ⟨fsys, fclk⟩ := freezeStart_spec s
    obtain ⟨hstat, hlo, hhi, hrtc⟩ := freezeRegs_spec (freezeStat s) (wd s.clk.tb) (wd (s.clk.tb / 2 ^ 32)) (wd s.clk.rtc) s
    rw [← noteFreeze_eq] at hstat hlo hhi hrtc
    exact ⟨_, next_when (by rw [hf, quenchable_iff.2 hm]; rfl) (coherentStop_eq s), congrArg Sys.mode hsys,
      (congrArg Sys.prev hsys).trans (congrArg (fun y : Sys => some y.mode) fsys), congrArg Sys.cause hsys, hclk.trans fclk,
      (coherentStop_reg s (by decide) (by decide) (by decide) (by decide)).trans hstat,
      (coherentStop_reg s (by decide) (by decide) (by decide) (by decide)).trans hlo,
      (coherentStop_reg s (by decide) (by decide) (by decide) (by decide)).trans hhi,
      (coherentStop_reg s (by decide) (by decide) (by decide) (by decide)).trans hrtc⟩
  case resume =>
    obtain ⟨hsys, -, hclk, -, -, hreg⟩ := commit_spec (thawMode (thawStart s)) 0x10 (thawStart s)
    obtain ⟨h2, h0, hthaw, hfrozen, -⟩ := thawRegs_spec (wd s.clk.rtc) (thawClock s)
    have reg : ∀ k, k ≠ rSTART_EVT → k ≠ rSYS_MODE_EVT → k ∉ pendKeys →
        (commit (thawMode (thawStart s)) 0x10 (thawStart s)).reg k = (thawRegs (wd s.clk.rtc) (thawClock s)).reg k :=
      fun k h1 h2 h3 => (hreg k h1 h2 h3).trans (thawStart_reg s k)
    exact ⟨commit (thawMode (thawStart s)) 0x10 (thawStart s), exec_thawResume hm ht, (congrArg Sys.mode hsys).trans (thawStart_mode s),
      (congrArg Sys.prev hsys).trans (congrArg some hm), congrArg Sys.cause hsys, hclk,
      (rbit_of_reg (reg _ (by decide) (by decide) (by decide)) 2).trans h2,
      (rbit_of_reg (reg _ (by decide) (by decide) (by decide)) 0).trans h0, (reg _ (by decide) (by decide) (by decide)).trans hthaw,
      (rbit_of_reg (reg _ (by decide) (by decide) (by decide)) 0).trans hfrozen⟩

end Sys2Proof.Machine
end

section
/-! The laws of the 1149.1 port: what each instruction shifts out, and that no capture changes the device (R1118 to R1127, R1168,
R1179), and the statement AssayPortResults assembled from them. -/
namespace Sys2Proof.Machine

variable {s : State} {cells out : List Bool} {n : Nat}

/-! ### The boundary register (R1120, R1168) -/

/-- A CAN ball is recessive in SCAN and in QUENCHED (R1163). -/
theorem canTxLevel_recessive (hm : s.sys.mode = .scan ∨ s.sys.mode = .quenched) (n : Nat) : canTxLevel n s = .high := by
  unfold canTxLevel State.pinState
  rcases hm with hm | hm
  · rw [hm]
    cases s.pwr.resetReq.isSome <;> rfl
  · rw [hm]

theorem pinCells_crank (ho : s.sys.mode ≠ .off) (p : Bool) (f : List Bool) :
    pinCells (some (crankLevel p s)) f = [s.crankRelease == p, s.crankRelease == p, true] := by
  rw [crankLevel, if_neg (by simpa using ho)]
  cases s.crankRelease == p <;> rfl

/-- The cells that a boundary capture fixes: the QUENCH ball, the CRANK_PERMIT outputs and the recessive CAN balls. -/
theorem boundaryCells_fixed (ho : s.sys.mode ≠ .off) (f : List Bool) : (boundaryCells s f).length = 84 ∧
    (boundaryCells s f)[0]? = some (!s.assay.ballLow) ∧
    ((boundaryCells s f).drop 78).take 3 = [s.crankRelease, s.crankRelease, true] ∧
    ((boundaryCells s f).drop 81).take 3 = [!s.crankRelease, !s.crankRelease, true] ∧
    (s.sys.mode = .scan ∨ s.sys.mode = .quenched → ∀ k ∈ [18, 20, 22, 24],
      ((boundaryCells s f).drop (3 * k)).take 3 = [true, true, true]) := by
  obtain ⟨hlen, hball, hpin⟩ := boundaryCells_spec s f
  refine ⟨hlen, hball, (hpin 26 (by decide) (by decide)).trans ((pinCells_crank ho true _).trans ?_),
    (hpin 27 (by decide) (by decide)).trans ((pinCells_crank ho false _).trans ?_), fun hm k hk => ?_⟩
  · cases s.crankRelease <;> rfl
  · cases s.crankRelease <;> rfl
  · have can : pinLevel k s = some .high := by
      simp only [List.mem_cons, List.not_mem_nil, or_false] at hk
      rcases hk with rfl | rfl | rfl | rfl <;> exact congrArg some (canTxLevel_recessive hm _)
    have range : 0 < k ∧ k < 28 := by
      simp only [List.mem_cons, List.not_mem_nil, or_false] at hk
      omega
    rw [hpin k range.1 range.2, can]
    rfl

/-- What a boundary capture leaves: the cells, and free values drawn. -/
theorem boundaryCapture_eq (s : State) : ∃ f, boundaryCapture s =
    (boundaryCells { s with free := s.free + 11 } f, { s with free := s.free + 11 }) := by
  obtain ⟨f, -, hf⟩ := freshBits_eq 84 s
  exact ⟨f, by rw [boundaryCapture, hf]⟩

/-! ### Chains (R1124 to R1127) -/

theorem coreChain_eq (c : Fin 6) (s : State) : ∃ out f, coreChain c s = (out, { s with free := f }) ∧
    out.take 32 = bitsOfWord (s.cores.get c).pc := by
  have word : (bitsOfWord (s.cores.get c).pc).length = 32 := by simp [bitsOfWord]
  refine ⟨_, _, rfl, ?_⟩
  simp only [List.append_assoc]
  exact List.take_left' word

theorem cacheChain_eq (c : Fin 6) (ls : List Line) (s : State) : ∃ out f, cacheChain c ls s = (out, { s with free := f }) := ⟨_, _, rfl⟩

theorem freshBits_free (n : Nat) (s : State) : ∃ out f, freshBits n s = (out, { s with free := f }) := ⟨_, _, rfl⟩

/-- A Kiln chain under the mask is the pattern (R1127). -/
theorem chainBits_masked (hk : kilnChain n = true) (hm : kilnMasked s = true) : chainBits n s = (maskPattern (chainLength n), s) :=
  if_pos (by rw [hk, hm]; rfl)

theorem chainBits_core (hn : n < 5) : chainBits n s = coreChain (Fin.ofNat 6 n) s := by
  have notKiln : kilnChain n = false := by simp only [kilnChain, Bool.or_eq_false_iff, decide_eq_false_iff_not]; omega
  rw [chainBits, notKiln, Bool.false_and, if_neg Bool.false_ne_true, if_pos (by omega)]

theorem chainBits_outside (hn : 0x1B < n) : chainBits n s = ([false], s) := by
  have notKiln : kilnChain n = false := by simp only [kilnChain, Bool.or_eq_false_iff, decide_eq_false_iff_not]; omega
  rw [chainBits, notKiln, Bool.false_and, if_neg Bool.false_ne_true, if_neg (by omega), if_neg (by simp; omega), if_neg (by simp; omega),
    if_neg (by simp; omega)]

/-- No chain changes the device. -/
theorem chainBits_free (n : Nat) (s : State) : ∃ out f, chainBits n s = (out, { s with free := f }) := by
  unfold chainBits
  split
  · exact ⟨_, s.free, rfl⟩
  · split
    · obtain ⟨out, f, h, -⟩ := coreChain_eq (Fin.ofNat 6 n) s
      exact ⟨out, f, h⟩
    · split
      · exact cacheChain_eq _ _ s
      · split
        · exact cacheChain_eq _ _ s
        · split
          · exact freshBits_free _ s
          · exact ⟨_, s.free, rfl⟩

/-- What the bits of a chain are, where the spec fixes them. -/
theorem chainBits_fixed (n : Nat) (s : State) : ∃ out f, chainBits n s = (out, { s with free := f }) ∧
    (kilnChain n = true → kilnMasked s = true → out = maskPattern (chainLength n)) ∧
    (n < 5 → out.take 32 = bitsOfWord (s.cores.get (Fin.ofNat 6 n)).pc) ∧ (0x1B < n → out = [false]) := by
  obtain ⟨out, f, h⟩ := chainBits_free n s
  refine ⟨out, f, h, fun hk hm => ?_, fun hn => ?_, fun hn => ?_⟩
  · exact (congrArg Prod.fst h).symm.trans (congrArg Prod.fst (chainBits_masked hk hm))
  · obtain ⟨bits, g, hc, hpc⟩ := coreChain_eq (Fin.ofNat 6 n) s
    have same : out = bits := (congrArg Prod.fst h).symm.trans (congrArg Prod.fst ((chainBits_core hn).trans hc))
    rw [same, hpc]
  · exact (congrArg Prod.fst h).symm.trans (congrArg Prod.fst (chainBits_outside hn))

/-! ### SRAM and REG (R1121 to R1123) -/

/-- What a capture of a register leaves: free values drawn; outside control space the word is 0. -/
theorem regCapture_eq (a : Nat) (s : State) : ∃ w f, regCapture a s = (w, { s with free := f }) ∧ (inControl a = false → w = 0) := by
  unfold regCapture
  split
  · exact ⟨0, s.free, rfl, fun _ => rfl⟩
  · rename_i hc
    have inside : inControl a = true := by
      by_contra h
      simp [h] at hc
    have fixed : ∀ w : Word, inControl a = false → w = 0 := fun _ h => absurd (inside.symm.trans h) (by decide)
    split
    · exact ⟨_, s.free, rfl, fixed _⟩
    · split
      · exact ⟨_, s.free, rfl, fixed _⟩
      · exact ⟨_, _, rfl, fixed _⟩

section
variable (ho : s.sys.mode ≠ .off)
include ho

theorem tapUp_on : tapUp s = true := bne_iff_ne.2 ho

section
variable (hq : s.sys.mode = .quenched)
include hq

/-- SRAM shifts each granule, its check bits free (R1122). -/
theorem exec_sram_quenched : ∃ checks : Bytes, checks.length = s.assay.count ∧ exec .sram s = .next
    (tap 0x16 (checks.zipIdx.flatMap (fun e => granuleBits (s.assay.addr + 8 * e.2) e.1 s)) { s with free := s.free + s.assay.count }) := by
  refine ⟨(s.freshBytes s.assay.count).1, by simp [State.freshBytes], next_when (tapUp_on ho) ?_⟩
  refine (if_pos (beq_iff_eq.2 hq)).trans ?_
  simp only [State.freshBytes, granuleBits_free]

end

end

/-- Settles O44: each instruction's capture and shift; the bits that the spec does not give are free values (log entries 37, 39
and 97). -/
theorem assayPortResults : Obligations.AssayPortResults := by
  unfold Obligations.AssayPortResults
  intro s ho port
  have up := tapUp_on ho
  refine ⟨fun tdi => next_when up rfl, next_when up rfl, next_when up rfl, fun cells => ?boundary, fun cells hm => ?extest,
    next_when up rfl, fun hq => ?running, fun hq => ?quenched⟩
  case boundary =>
    obtain ⟨f, hf⟩ := boundaryCapture_eq s
    obtain ⟨hlen, hball, hp, hn, hcan⟩ := boundaryCells_fixed (s := { s with free := s.free + 11 }) ho f
    refine ⟨_, s.free + 11, hlen, hball, hp, hn, hcan, next_when up ?_, fun hm => next_when up ?_⟩
    · rw [hf]
      rfl
    · refine (if_pos (beq_iff_eq.2 hm)).trans ?_
      rw [hf]
      rfl
  case extest => exact next_when up (if_neg (by simpa using hm))
  case running =>
    have notQuenched : ¬ isQuenched s = true := by simpa [isQuenched] using hq
    exact ⟨fun n => next_when up (if_neg notQuenched), next_when up (if_neg notQuenched), fun v => next_when up (if_neg notQuenched),
      next_when up (if_neg notQuenched), fun a => next_when up (if_neg notQuenched)⟩
  case quenched =>
    have quenched : isQuenched s = true := beq_iff_eq.2 hq
    have word : ∀ w : Word, (bitsOfWord w).length = 32 := fun w => by simp [bitsOfWord]
    refine ⟨fun n => ⟨_, ?sel, next_when up (if_pos quenched)⟩, ?chain, fun v => ⟨_, ?addr, next_when up (if_pos quenched)⟩,
      exec_sram_quenched ho hq, fun a => ?reg⟩
    case sel => rw [List.length_take, word]; rfl
    case addr => rw [List.length_append, List.length_take, word, word]; rfl
    case chain =>
      obtain ⟨out, f, h, hmask, hpc, hout⟩ := chainBits_fixed s.assay.chain s
      refine ⟨out, f, next_when up ((if_pos quenched).trans ?_), hmask, hpc, hout⟩
      rw [h]
      rfl
    case reg =>
      obtain ⟨w, f, h, hw⟩ := regCapture_eq s.assay.regAddr s
      refine ⟨w, f, hw, next_when up ((if_pos quenched).trans ?_)⟩
      rw [h]
      rfl

end Sys2Proof.Machine
end
